-- ==== Sys2Proof/Word.lean ====
section
/-!
DEFINITION. The word types: a register word of 32 bits and a byte. All registers, descriptors and records are
little-endian (R5); bit 0 of a word is its least significant bit (R4).
-/

namespace Sys2Proof

/-- One register word, as a BAR0 access of one DW carries it (R29). -/
abbrev Word := BitVec 32

/-- One byte of a record, packet or memory. -/
abbrev Byte := BitVec 8

end Sys2Proof
end

