-- ==== Sys2Proof/Syntax.lean ====
section
/-!
DEFINITION. The commands the block takes, as data: what a requester, a camera, a sensor, a host, the network, a pin or
the passing of time does to the device. An operand carries what the outside supplies: the bytes of a packet or record,
a measured count, a level.
The log's entry 4 of notes/assumptions names what is DEDUCED or a DESIGN CHOICE here, and marks each.
-/

namespace Sys2Proof

/-- A requester of register accesses: one PCIe function, the JTAG register access, or the SMBus target (R45, R50). -/
inductive Req where
  | fn (link : Fin 4) (f : Fin 16)
  | jtag
  | smbus
  deriving DecidableEq, Repr

/-- REQ_ID.FUNCTION (R50). -/
def Req.num : Req → Nat
  | .fn l f => 16 * l + f
  | .jtag => 0xFE
  | .smbus => 0xFF

/-- The claimable resources (R63): trigger outputs, encoder pin sets, generators, capture units, compare-list ranges,
HBM regions. -/
inductive Res where
  | tout | enc | gen | tc | range | hbm
  deriving DecidableEq, Repr

/-- Key of a claim register. -/
def Res.key : Res → Nat → Nat
  | .tout, n => n
  | .enc, n => 64 + n
  | .gen, n => 128 + n
  | .tc, n => 192 + n
  | .range, n => 256 + n
  | .hbm, n => 320 + n

/-- How many resources of a kind there are. -/
def Res.count : Res → Nat
  | .tout => 32
  | .enc => 8
  | .gen => 16
  | .tc => 16
  | .range => 32
  | .hbm => 64

/-- The claims-page instance of a kind (R63). -/
def Res.inst : Res → Nat
  | .range => 2
  | .hbm => 3
  | _ => 1

/-- The queues (R161). -/
inductive QueueId where
  | line (p : Fin 16)
  | event (n : Fin 24)
  | delivery (q : Fin 256)
  | intake (i : Fin 64)
  deriving DecidableEq, Repr

/-- One number for each queue. -/
def QueueId.num : QueueId → Nat
  | .line p => p
  | .event n => 16 + n
  | .delivery q => 64 + q
  | .intake i => 320 + i

/-- What a wire check decides on: pair 0 A, 1 B, 2 Z of a channel, A and B of a channel in one sample (bit 0 of the
level is A's, bit 1 B's), or an input (R178, R201). -/
inductive WirePair where
  | enc (ch : Fin 8) (pair : Fin 3)
  | encAB (ch : Fin 8)
  | din (n : Fin 24)
  deriving DecidableEq, Repr

/-- A block that runs as a lockstep pair (R200, R235). -/
inductive LockUnit where
  | channel (k : Fin 8)
  | generator (g : Fin 16)
  | stream (n : Fin 32)
  | output (m : Fin 32)
  deriving DecidableEq, Repr

/-- An identity bus: of an encoder channel or of an SFP28 cage (R206, R260). -/
inductive IdBus where
  | adapter (k : Fin 8)
  | sfp (n : Fin 2)
  deriving DecidableEq, Repr

/-- A loop and injector block of the test page (R501–R513). -/
inductive LoopUnit where
  | flegar (p : Fin 16)
  | ethernet (n : Fin 2)
  deriving DecidableEq, Repr

/-- The unit number of a block: Flegar ports first, then Ethernet ports (R519). -/
def LoopUnit.num : LoopUnit → Nat
  | .flegar p => p
  | .ethernet n => 16 + n

/-- An error a scrub or user read finds: one bit, corrected, or uncorrectable (R405, R487). -/
inductive SramErr where
  | none
  | single
  | double
  deriving DecidableEq, Repr

/-- A protected SRAM word: the page and FLT bits of its checker, and the unit it lies in (R485, R487). -/
structure SramWord where
  cls : Nat
  inst : Nat
  sbe : Nat
  dbe : Nat
  index : Nat
  deriving DecidableEq, Repr

/-- How a completion arrives: with data, with Unsupported Request or Completer Abort status, or poisoned (R460, R461). -/
inductive CplStatus where
  | success
  | unsupported
  | abort
  | poisoned
  deriving DecidableEq, Repr

/-- The fields of a function's configuration space that a configuration write changes (R457, R458, R462, R463, R468,
R471), and its MSI-X table in BAR4. -/
inductive CfgField where
  | busMaster
  | powerState
  | msixEnable
  | functionMask
  | interruptDisable
  | pmeEnable
  | pmeStatusClear
  | vfEnable
  | numVfs
  | completionTimeout
  | relaxedOrdering
  | pasidEnable
  | aspmL1
  | l0pEnable
  | atsEnable
  | maxPayload
  | maxReadRequest
  | ecrcGenEnable
  | ecrcCheckEnable
  | l11Enable
  | l12Enable
  | msixAddr (v : Nat)
  | msixData (v : Nat)
  | msixMask (v : Nat)
  deriving DecidableEq, Repr

/-- One block slot of a port's active set: for each lane of ACTIVE_MASK, in ascending logical order, the 2-bit header and the
64-bit payload as they stand at the balls (R103, R113). -/
abbrev LaneSlot := List (Nat × Nat)

/-- A register read: the address and how many words it asks for (R29). -/
structure ReadSpan where
  addr : Nat
  dws : Nat
  deriving DecidableEq, Repr

/-- A 66-bit block as it stands at the balls of a lane: the 2-bit header and the eight payload bytes (R103). -/
structure RawBlock where
  header : Nat
  payload : List Nat
  deriving DecidableEq, Repr

/-- A change of Z of a channel at the input of its filter, and how early in the present cycle it came (R179, R183). -/
structure ZEdge where
  ch : Fin 8
  level : Nat
  early : Nat
  deriving DecidableEq, Repr

/-- A sampled level of a digital input: how early in the present cycle its sample came, and how long before the sample the
level changed at the ball (R202, R203). -/
structure PadEdge where
  level : Nat
  early : Nat
  lead : Nat
  deriving DecidableEq, Repr

/-- A received Ethernet frame without its FCS, and how early in the present cycle it passed the PCS (R243, R252). -/
structure RxFrame where
  bytes : List Nat
  early : Nat
  deriving DecidableEq, Repr

/-- What the board and the supplies present while the device boots (R524): straps, crystal and reference present, and
the islands that fail boot memory BIST, beyond repair and repaired. -/
structure Straps where
  ownSel : Nat
  h0Bif : Bool
  h1Bif : Bool
  smbAddr : Nat
  crystal : Bool
  refclk : Bool
  bistFailed : List Nat
  bistRepaired : List Nat
  bootMicros : Nat
  deriving DecidableEq, Repr


/-- The commands: one constructor for each row of the opcode table, in the table's order. Each comment gives the rule the
row cites. `early` is how long before the present cycle of the timebase something came, in 2^-16 ns, `ago` the same for
a moment that may lie further back, `lead` how long before its sample a level changed at the ball, `frames` how many super-frames pass. -/
inductive Instr where
  | registerWrite (req : Req) (addr : Nat) (dws : List Word) (allBytes : Bool) -- REGISTER_WRITE, R6
  | evtForce (req : Req) (cls inst : Nat) (mask : Word) -- EVT_FORCE, R41
  | en (req : Req) (cls inst : Nat) (on : Bool) -- EN, R65
  | srst (req : Req) (cls inst : Nat) -- SRST, R38
  | srstComplete (cls inst : Nat) -- SRST_COMPLETE, R38
  | freeze (req : Req) (cls inst : Nat) (on : Bool) -- FREEZE, R39
  | lowWordRead (req : Req) (span : ReadSpan) -- LOW_WORD_READ, R45
  | lowWordWrite (req : Req) (addr : Nat) (val : Word) -- LOW_WORD_WRITE, R46
  | highWordWrite (req : Req) (addr : Nat) (val : Word) -- HIGH_WORD_WRITE, R46
  | timeGroupWrite (req : Req) (addr : Nat) (val : Word) -- TIME_GROUP_WRITE, R12
  | accTimeout (req : Req) (addr : Nat) (isWrite : Bool) -- ACC_TIMEOUT, R49
  | hsWdog (island : Nat) -- HS_WDOG, R24
  | accessStatClear (req : Req) (mask : Word) -- ACCESS_STAT_CLEAR, R50
  | islGate (req : Req) (island : Nat) (on : Bool) -- ISL_GATE, R52
  | islPwr (island : Nat) -- ISL_PWR, R52
  | islReset (req : Req) (island : Nat) -- ISL_RESET, R52
  | islResetDone (island : Nat) -- ISL_RESET_DONE, R52
  | tableRead (req : Req) (cls inst : Nat) -- TABLE_READ, R53
  | tableWrite (req : Req) (cls inst : Nat) -- TABLE_WRITE, R54
  | tblOpDone (cls inst : Nat) -- TBL_OP_DONE, R54
  | windowWrite (req : Req) (offset : Nat) (bytes : List Nat) (poisoned : Bool) -- WINDOW_WRITE, R55
  | windowRead (req : Req) (offset len : Nat) -- WINDOW_READ, R452
  | partitionCommit (req : Req) -- PARTITION_COMMIT, R60
  | partitionCommitDone -- PARTITION_COMMIT_DONE, R60
  | acquire (req : Req) (res : Res) (n cls inst : Nat) -- ACQUIRE, R64
  | claimRelease (req : Req) (res : Res) (n cls inst : Nat) -- CLAIM_RELEASE, R64
  | clrCnt (req : Req) (cls inst : Nat) (queue : Option QueueId) -- CLR_CNT, R171
  | pwrGoodRise (straps : Straps) -- PWR_GOOD_RISE, R524
  | refclkWaitExpiry (straps : Straps) -- REFCLK_WAIT_EXPIRY, R525
  | resetN (lowNs : Nat) -- RESET_N, R523
  | devReset (req : Req) (val : Word) -- DEV_RESET, R527
  | pwrGoodFall -- PWR_GOOD_FALL, R544
  | rateWrite (req : Req) (port : Fin 16) (rate : Fin 4) -- RATE_WRITE, R68
  | refoutOk (port : Fin 16) -- REFOUT_OK, R69
  | refoutFail (port : Fin 16) -- REFOUT_FAIL, R72
  | refoutRelock (port : Fin 16) -- REFOUT_RELOCK, R72
  | txFfeWrite (req : Req) (lane : Fin 64) (amp post pre : Nat) -- TX_FFE_WRITE, R74
  | adaptWindow (lane : Fin 64) (moves : List Int) -- ADAPT_WINDOW, R76
  | acquisitionEnd (lane : Fin 64) -- ACQUISITION_END, R76
  | tdWindow (lane : Fin 64) (transitions : Nat) -- TD_WINDOW, R80
  | fomUpdate (lane : Fin 64) (top bottom left right : Nat) -- FOM_UPDATE, R78
  | snapshotTick (lane : Fin 64) -- SNAPSHOT_TICK, R81
  | snapNow (req : Req) (lane : Fin 64) -- SNAP_NOW, R81
  | revertNow (req : Req) (lane : Fin 64) -- REVERT_NOW, R83
  | restart (req : Req) (lane : Fin 64) -- RESTART, R76
  | clearStuck (req : Req) (lane : Fin 64) -- CLEAR_STUCK, R84
  | adaptEn (req : Req) (lane : Fin 64) (on : Bool) -- ADAPT_EN, R77
  | scanStart (req : Req) (lane : Fin 64) (dwellLog2 vOff hOff : Nat) -- SCAN_START, R86
  | scanDone (lane : Fin 64) (mismatches : Nat) -- SCAN_DONE, R86
  | comma (lane : Fin 64) (slot : Nat) (block : RawBlock) -- COMMA, R110
  | headerLock (lane : Fin 64) (headers : List Nat) -- HEADER_LOCK, R111
  | superframeCheck (port : Fin 16) (frames : Nat) -- SUPERFRAME_CHECK, R112
  | laneFailed (lane : Fin 64) -- LANE_FAILED, R89
  | narrowTimeout (port : Fin 16) -- NARROW_TIMEOUT, R94
  | widen (req : Req) (port : Fin 16) -- WIDEN, R95
  | rateCheck (port : Fin 16) -- RATE_CHECK, R96
  | nolock (port : Fin 16) -- NOLOCK, R115
  | linePacket (port : Fin 16) (slots : List LaneSlot) -- LINE_PACKET, R120
  | framePacket (port : Fin 16) (slots : List LaneSlot) -- FRAME_PACKET, R122
  | testPacket (port : Fin 16) (slots : List LaneSlot) -- TEST_PACKET, R503
  | lineTimeout (port : Fin 16) -- LINE_TIMEOUT, R156
  | trigSend (port : Fin 16) -- TRIG_SEND, R143
  | creditPacket (port : Fin 16) (slots : List LaneSlot) -- CREDIT_PACKET, R126
  | creditSend (port : Fin 16) -- CREDIT_SEND, R128
  | retryTimeout (port : Fin 16) -- RETRY_TIMEOUT, R133
  | timeReq (port : Fin 16) -- TIME_REQ, R137
  | timeNow (req : Req) (port : Fin 16) -- TIME_NOW, R137
  | timeResp (port : Fin 16) (slots : List LaneSlot) -- TIME_RESP, R139
  | timeRespTimeout (port : Fin 16) -- TIME_RESP_TIMEOUT, R139
  | timeAck (req : Req) (port : Fin 16) -- TIME_ACK, R139
  | mgmtRead (req : Req) (port : Fin 16) (count : Nat) -- MGMT_READ, R145
  | mgmtWrite (req : Req) (port : Fin 16) (count : Nat) -- MGMT_WRITE, R145
  | mgmtIdRead (req : Req) (port : Fin 16) (count : Nat) -- MGMT_ID_READ, R145
  | mgmtResponse (port : Fin 16) (slots : List LaneSlot) -- MGMT_RESPONSE, R145
  | mgmtTimeout (port : Fin 16) -- MGMT_TIMEOUT, R145
  | idDone (port : Fin 16) -- ID_DONE, R146
  | lb2Enter (req : Req) (port : Fin 16) (duration : Nat) -- LB2_ENTER, R149
  | lb2Exit (req : Req) (port : Fin 16) -- LB2_EXIT, R149
  | lb2Duration (port : Fin 16) -- LB2_DURATION, R149
  | queueMark (req : Req) (queue : QueueId) -- MARK, R165
  | queueRewind (req : Req) (queue : QueueId) -- REWIND, R165
  | queueRelease (req : Req) (queue : QueueId) -- RELEASE, R165
  | queueFlush (req : Req) (queue : QueueId) -- FLUSH, R167
  | queueFlushDone (queue : QueueId) -- FLUSH_DONE, R167
  | quadEdge (ch : Fin 8) (ab : Nat × Nat) (early : Nat) -- QUAD_EDGE, R180
  | qerrWindow (ch : Fin 8) -- QERR_WINDOW, R182
  | wire (pair : WirePair) (live : Bool) (level : Nat) -- WIRE, R178
  | index (z : ZEdge) -- INDEX, R183
  | zArm (req : Req) (ch : Fin 8) -- Z_ARM, R183
  | serFrame (ch : Fin 8) (dataHigh : Bool) -- SER_FRAME, R185
  | serReading (ch : Fin 8) (data : List Nat) (early delay : Nat) -- SER_READING, R186
  | stopped (ch : Fin 8) -- STOPPED, R194
  | limitWrite (req : Req) (ch : Fin 8) (high : Bool) (val : BitVec 64) -- LIMIT_WRITE, R191
  | rebase (req : Req) (ch : Fin 8) -- REBASE, R192
  | clrExcess (req : Req) (ch : Fin 8) -- CLR_EXCESS, R190
  | clrSuspect (req : Req) (ch : Fin 8) -- CLR_SUSPECT, R199
  | histSample (ch : Fin 8) -- HIST_SAMPLE, R195
  | lockstep (unit : LockUnit) -- LOCKSTEP, R235
  | qualifiedEdge (input : Fin 24) (rising : Bool) (early : Nat) -- QUALIFIED_EDGE, R202
  | evItem0Read (req : Req) (input : Fin 24) -- EV_ITEM0_READ, R205
  | idPoll (ch : Fin 8) (ack : Bool) -- ID_POLL, R206
  | idRead (req : Req) (ch : Fin 8) -- ID_READ, R206
  | adapterIdDone (ch : Fin 8) (record : List Nat) -- ADAPTER_ID_DONE, R206
  | busErr (bus : IdBus) -- BUS_ERR, R206
  | generatorLine (gen : Fin 16) -- GENERATOR_LINE, R220
  | gateOpen (req : Req) (gen : Fin 16) -- OPEN, R217
  | gateClose (req : Req) (gen : Fin 16) -- CLOSE, R217
  | entryLoad (stream : Fin 32) -- ENTRY_LOAD, R226
  | streamFire (stream : Fin 32) -- STREAM_FIRE, R228
  | arm (req : Req) (stream : Fin 32) -- ARM, R229
  | stop (req : Req) (stream : Fin 32) -- STOP, R229
  | reload (req : Req) (stream : Fin 32) -- RELOAD, R223
  | availPt (req : Req) (stream : Fin 32) (val : Word) -- AVAIL_PT, R225
  | pulseEnd (out : Fin 32) -- PULSE_END, R231
  | driveFault (out : Fin 32) -- DRIVE_FAULT, R232
  | safeExit (req : Req) (out : Fin 32) -- SAFE_EXIT, R233
  | incrWrite (req : Req) (incr : Nat) -- INCR_WRITE, R244
  | stepFwd (req : Req) -- STEP_FWD, R245
  | stepBack (req : Req) -- STEP_BACK, R245
  | refclkLoss -- REFCLK_LOSS, R248
  | tbLockstep -- TB_LOCKSTEP, R248
  | ethRx (port : Fin 2) (frame : RxFrame) (good : Bool) -- ETH_RX, R251
  | ethTx (port : Fin 2) (desc frame : List Nat) -- ETH_TX, R251
  | pdelayReq (port : Fin 2) (frame : RxFrame) -- PDELAY_REQ, R255
  | pdelayInterval (port : Fin 2) -- PDELAY_INTERVAL, R256
  | pdelayResp (port : Fin 2) (frame followUp : List Nat) (ago : Nat) -- PDELAY_RESP, R256
  | pdelayLost (port : Fin 2) -- PDELAY_LOST, R256
  | pdPost (req : Req) (port : Fin 2) (val : BitVec 64) -- PD_POST, R257
  | pdAck (req : Req) (port : Fin 2) -- PD_ACK, R257
  | masterLost (port : Fin 2) -- MASTER_LOST, R258
  | ethLinkUp (port : Fin 2) -- ETH_LINK_UP, R259
  | ethLinkDown (port : Fin 2) -- ETH_LINK_DOWN, R259
  | modAbs (port : Fin 2) -- MOD_ABS, R260
  | sfpIdRead (req : Req) (port : Fin 2) -- SFP_ID_READ, R260
  | sfpIdDone (port : Fin 2) (record : List Nat) -- SFP_ID_DONE, R260
  | sfpDiag (port : Fin 2) (diag : List Nat) (los txFault : Bool) -- SFP_DIAG, R260
  | timedActionNone (entry : Fin 4096) -- TIMED_ACTION_NONE, R263
  | expose (entry : Fin 4096) -- EXPOSE, R263
  | pulse (entry : Fin 4096) -- PULSE, R263
  | voxordAction (entry : Fin 4096) -- VOXORD_ACTION, R263
  | segmentAction (entry : Fin 4096) -- SEGMENT_ACTION, R376
  | colourCycle (entry : Fin 4096) -- COLOUR_REGISTER_FEEDBACK_CYCLE, R370
  | plumbCycle (entry : Fin 4096) -- PLUMB_LINE_REPORT_CYCLE, R391
  | voxSend -- VOX_SEND, R275
  | voxRetry (msg : Nat) -- VOX_RETRY, R276
  | voxAck (frame : List Nat) -- VOX_ACK, R277
  | wakeMsg (frame : List Nat) -- WAKE, R277
  | lineItem (port : Fin 16) -- LINE_ITEM, R283
  | bankSwitch (req : Req) (lcu : Fin 16) -- BANK_SWITCH, R288
  | mtxCommit (req : Req) (lcu : Fin 16) -- MTX_COMMIT, R291
  | intakePtrPost (req : Req) (queue : Fin 64) (val : Word) (descs : List (List Nat)) -- INTAKE_PTR_POST, R424
  | segDescriptor (queue : Fin 64) (record : List Nat) -- SEG_DESCRIPTOR, R314
  | refTile (queue : Fin 64) (record : List Nat) -- REF_TILE, R318
  | profile (queue : Fin 64) (record : List Nat) -- PROFILE, R325
  | colmap (queue : Fin 64) (record : List Nat) -- COLMAP, R394
  | clist (queue : Fin 64) (record : List Nat) -- CLIST, R427
  | segmentOpen (port : Fin 16) -- SEGMENT_OPEN, R376
  | segmentEndTime (port : Fin 16) -- SEGMENT_END_TIME, R377
  | keying (port : Fin 16) -- KEYING, R354
  | compareTile (engine : Fin 17) -- COMPARE_TILE, R362
  | workComplete (port : Fin 16) -- WORK_COMPLETE, R379
  | deadline (port : Fin 16) -- DEADLINE, R380
  | stalled (port : Fin 16) -- STALLED, R378
  | takeover (req : Req) (engine : Fin 17) -- TAKEOVER, R398
  | giveBack (req : Req) -- GIVE_BACK, R399
  | clearAcc (req : Req) (engine : Fin 17) -- CLEAR_ACC, R402
  | hbmReady (stack : Fin 4) -- HBM_READY, R434
  | scrubPass (stack : Fin 4) -- SCRUB_PASS, R406
  | spareNow (req : Req) (stack : Fin 4) (pc : Fin 32) -- SPARE_NOW, R407
  | spareDone (stack : Fin 4) -- SPARE_DONE, R407
  | writeBack (queue : Fin 256) (slot : Nat) (desc : List Nat) -- WRITE_BACK, R417
  | ptrPost (req : Req) (queue : Fin 256) (val : Word) -- PTR_POST, R415
  | msixMessage (link : Fin 4) (fn : Fin 16) (vector : Nat) -- MSIX_MESSAGE, R433
  | intxAck (req : Req) (link : Fin 4) (vector : Nat) -- INTX_ACK, R463
  | perstFall (link : Fin 4) -- PERST_FALL, R464
  | perstRise (link : Fin 4) -- PERST_RISE, R464
  | hotReset (link : Fin 4) -- HOT_RESET, R464
  | pcieLinkDown (link : Fin 4) -- PCIE_LINK_DOWN, R464
  | pcieLinkUp (link : Fin 4) (speed width : Nat) (flit : Bool) -- PCIE_LINK_UP, R474
  | flr (link : Fin 4) (fn : Fin 16) -- FLR, R464
  | configWrite (link : Fin 4) (fn : Fin 16) (field : CfgField) (val : Nat) -- CONFIG_WRITE, R457
  | completion (link : Fin 4) (tag len : Nat) (status : CplStatus) -- COMPLETION, R460
  | cplTimeout (link : Fin 4) (tag : Nat) -- CPL_TIMEOUT, R459
  | quarantineEnd (link : Fin 4) (tag : Nat) -- QUARANTINE_END, R459
  | wttCommit (req : Req) (link : Fin 4) (fn : Fin 16) (window : Nat) -- WTT_COMMIT, R454
  | commitDone (link : Fin 4) (fn : Fin 16) -- COMMIT_DONE, R454
  | l1Entry (link : Fin 4) -- L1_ENTRY, R471
  | l0pNarrow (link : Fin 4) -- L0P_NARROW, R471
  | l0pWiden (link : Fin 4) -- L0P_WIDEN, R471
  | pcieFollow (link : Fin 4) -- PCIE_FOLLOW, R506
  | summaryClr (req : Req) -- SUMMARY_CLR, R480
  | replaceClr (req : Req) -- REPLACE_CLR, R483
  | alertClr (req : Req) -- ALERT_CLR, R488
  | alertResponse -- ALERT_RESPONSE, R488
  | smbSetAddr (bytes : List Nat) -- SMB_SET_ADDR, R497
  | smbRead -- SMB_READ, R497
  | kaNow (req : Req) -- KA_NOW, R489
  | kaRun (engine : Fin 17) -- KA_RUN, R489
  | kaRunDone (engine : Fin 17) (lcuDigest engineDigest : Nat) -- KA_RUN_DONE, R490
  | kaTimeout (engine : Fin 17) -- KA_TIMEOUT, R490
  | sramScrub (word : SramWord) (err : SramErr) -- SRAM_SCRUB, R487
  | fltInj (req : Req) (cls inst : Nat) (mask : Word) -- FLT_INJ, R495
  | xtalLoss -- XTAL_LOSS, R486
  | vmon -- VMON, R544
  | tempCrit (temp : Int) -- TEMP_CRIT, R486
  | tempHot (temp : Int) -- TEMP_HOT, R486
  | hbmHot (stack : Fin 4) (temp : Nat) -- HOT, R435
  | ptClkLoss -- PT_CLK_LOSS, R486
  | islClkLoss (island : Nat) -- ISL_CLK_LOSS, R486
  | pcieRefLoss (port : Fin 2) -- PCIE_REF_LOSS, R486
  | bridgeCrc (attempts : Nat) -- BRIDGE_CRC, R486
  | aoLockstep -- AO_LOCKSTEP, R486
  | fabLockstep -- FAB_LOCKSTEP, R486
  | flbDepth (req : Req) (port : Fin 16) (depth : Fin 4) -- FLB_DEPTH, R502
  | genEn (req : Req) (unit : LoopUnit) (on : Bool) -- GEN_EN, R503
  | elDepth (req : Req) (port : Fin 2) (depth : Fin 4) -- EL_DEPTH, R507
  | plbDepth (req : Req) (link : Fin 4) (depth : Fin 4) -- PLB_DEPTH, R505
  | qgen (req : Req) (ch : Fin 8) (dir : Bool) (edges : Nat) -- QGEN, R509
  | qgenDone -- QGEN_DONE, R509
  | hlbStart (req : Req) (stack : Fin 4) (mode : Fin 4) (region : Fin 64) -- HLB_START, R510
  | hbmTestDone (stack : Fin 4) (errors firstAddr : Nat) -- HBM_TEST_DONE, R510
  | injEn (req : Req) (unit : LoopUnit) (on : Bool) -- INJ_EN, R511
  | injHoldTimeout (unit : LoopUnit) -- INJ_HOLD_TIMEOUT, R513
  | mbistRun (req : Req) -- MBIST_RUN, R514
  | lbistRun (req : Req) -- LBIST_RUN, R515
  | bistDone (repaired failed : List Nat) (rows : Nat) -- BIST_DONE, R516
  | trstN -- TRST_N, R517
  | extest (pins : Nat) -- EXTEST, R517
  | idcode -- IDCODE, R517
  | samplePreload (pins : Nat) -- SAMPLE_PRELOAD, R517
  | highz -- HIGHZ, R517
  | clamp -- CLAMP, R517
  | extestPulse (pins : Nat) -- EXTEST_PULSE, R517
  | extestTrain (pins : Nat) -- EXTEST_TRAIN, R517
  | bypass (bit : Bool) -- BYPASS, R517
  | regacc (shifted : Nat) -- REGACC, R518
  | nvRead (req : Req) -- NV_READ, R533
  | nvWrite (req : Req) -- NV_WRITE, R533
  | commitLock (req : Req) -- COMMIT_LOCK, R534
  | unlock (req : Req) -- UNLOCK, R534
  | unlockHoldoffEnd -- UNLOCK_HOLDOFF_END, R534
  | nvOpDone -- NV_OP_DONE, R533
  | modAbsHigh (port : Fin 2) -- MOD_ABS_HIGH, R536
  | fomInfoRead (req : Req) (lane : Fin 64) -- FOM_INFO_READ, R99
  | sampledLevelChange (input : Fin 24) (edge : PadEdge) -- SAMPLED_LEVEL_CHANGE, R202
  | histWaitExpiry (lcu : Fin 16) -- HIST_WAIT_EXPIRY, R293
  | evaluationComplete (engine : Fin 17) -- EVALUATION_COMPLETE, R391
  | hbmScrubRead (addr : Nat) (err : SramErr) -- HBM_SCRUB_READ, R406
  | lb2ResponseTimeout (port : Fin 16) -- LB2_RESPONSE_TIMEOUT, R149
  | atsInvalidation (link : Fin 4) (tag : Nat) (page : Nat) -- ATS_INVALIDATION, R443
  | tempMaxRise (temp : Int) -- TEMP_MAX_RISE, R493
  deriving DecidableEq, Repr

end Sys2Proof
end

