-- ==== Sys2Proof/Decode.lean ====
section
/-!
DEFINITION. The command that a word spells by the opcode table's bits. The table gives no row any bits: the device takes
register accesses, packets, pins and records, and none of them is an instruction word.
The log's entry 5 of notes/assumptions names what is DEDUCED or a DESIGN CHOICE here, and marks each.
-/

namespace Sys2Proof

/-- No row of the table has bits, so no word spells a command. -/
def decodeTableWord (_nbits _w : Nat) : Option Instr := none

end Sys2Proof
end

