-- ==== Sys2Proof/Machine/Bits.lean ====
section
/-!
DEFINITION. Bit fields, two's complement, little-endian byte order and the CRCs. Values of fields are natural numbers
below 2 to their width; a record, packet or memory image is a list of byte values, lowest address first (R4, R5).
-/

namespace Sys2Proof.Machine

/-- Bits lo to lo + w − 1 of a value. -/
def bits (v lo w : Nat) : Nat := (v >>> lo) % 2 ^ w

/-- Bit i as 0 or 1. -/
def bitOf (v i : Nat) : Nat := (v >>> i) % 2

/-- A truth value as a bit. -/
def b2n (b : Bool) : Nat := if b then 1 else 0

/-- The value of w bits read as two's complement. -/
def sInt (w v : Nat) : Int :=
  if v % 2 ^ w < 2 ^ (w - 1) then (v % 2 ^ w : Nat) else (v % 2 ^ w : Nat) - (2 ^ w : Nat)

/-- The w-bit two's-complement image of an integer. -/
def uInt (w : Nat) (i : Int) : Nat := (i % (2 ^ w : Nat)).toNat

/-- Add and hold at the top of w bits. -/
def satAdd (w a b : Nat) : Nat := if a + b < 2 ^ w then a + b else 2 ^ w - 1

/-- Clamp an integer into a range. -/
def clampI (lo hi v : Int) : Int := if v < lo then lo else if hi < v then hi else v

/-- Ceiling of a quotient. -/
def cdiv (a b : Nat) : Nat := (a + b - 1) / b

/-- Byte i of an image; a byte beyond the image reads 0. -/
def byteAt (bs : List Nat) (i : Nat) : Nat := bs.getD i 0 % 256

/-- n bytes from an offset, little-endian (R5). -/
def le (bs : List Nat) (o : Nat) : Nat → Nat
  | 0 => 0
  | n + 1 => byteAt bs o + 256 * le bs (o + 1) n

/-- The n little-endian bytes of a value (R5). -/
def leBytes : Nat → Nat → List Nat
  | 0, _ => []
  | n + 1, v => v % 256 :: leBytes n (v / 256)

/-- The n bytes of a value, most significant first: PTP and Voxord frames (R5). -/
def beBytes (n v : Nat) : List Nat := (leBytes n v).reverse

/-- n bytes from an offset, most significant first (R5). -/
def be (bs : List Nat) (o n : Nat) : Nat := le ((bs.drop o).take n).reverse 0 n

/-- Replace the bytes from an offset on. -/
def patch (bs : List Nat) (o : Nat) (new : List Nat) : List Nat :=
  bs.take o ++ new ++ bs.drop (o + new.length)

/-- n zero bytes. -/
def zeros (n : Nat) : List Nat := List.replicate n 0

/-- Bytes of a slice. -/
def sl (bs : List Nat) (o n : Nat) : List Nat := (List.range n).map (fun j => byteAt bs (o + j))

/-- One bit step of a CRC that shifts right with a reflected polynomial. -/
def crcBit (poly c : Nat) : Nat := if c % 2 = 1 then (c / 2) ^^^ poly else c / 2

/-- One byte into a reflected CRC. -/
def crcByte (poly c b : Nat) : Nat :=
  crcBit poly (crcBit poly (crcBit poly (crcBit poly
    (crcBit poly (crcBit poly (crcBit poly (crcBit poly (c ^^^ (b % 256)))))))))

/-- A reflected CRC over bytes from a start value. -/
def crcRun (poly : Nat) : Nat → List Nat → Nat
  | c, [] => c
  | c, b :: bs => crcRun poly (crcByte poly c b) bs

/-- One bit step of a CRC-8 that shifts left. -/
def crc8Bit (poly c : Nat) : Nat := if 128 ≤ c then ((2 * c) % 256) ^^^ poly else (2 * c) % 256

/-- CRC-8 over bytes, most significant bit first, start value 0 (R493). -/
def crc8Run (poly : Nat) : Nat → List Nat → Nat
  | c, [] => c
  | c, b :: bs =>
    crc8Run poly (crc8Bit poly (crc8Bit poly (crc8Bit poly (crc8Bit poly
      (crc8Bit poly (crc8Bit poly (crc8Bit poly (crc8Bit poly (c ^^^ (b % 256)))))))))) bs

/-- The bytes of an ASCII text. -/
def ascii (t : String) : List Nat := t.toList.map (fun c => c.toNat)

end Sys2Proof.Machine
end

