-- ==== Sys2Proof/Machine/Operands.lean ====
section
/-!
DEFINITION. The forms of what comes from outside and what is built to leave: Flegar packets with their CRC-32 (R117–R127),
comma blocks (R107, R110), 66-bit blocks and their scrambling (R103–R106, R113), identity records (R147).
-/

namespace Sys2Proof.Machine

/-- CRC-32 of R118. -/
def crc32 (bs : List Nat) : Nat := crcRun 0xEDB88320 0xFFFFFFFF bs ^^^ 0xFFFFFFFF

/-- Append the CRC of R118. -/
def withCrc (bs : List Nat) : List Nat := bs ++ leBytes 4 (crc32 bs)

/-- Whether the last four bytes are the CRC of those before. -/
def crcGood (bs : List Nat) : Bool :=
  decide (4 ≤ bs.length) && le bs (bs.length - 4) 4 == crc32 (bs.take (bs.length - 4))

/-- A packet whose LEN and CRC agree with what was received (R118). -/
def pktGood (bs : List Nat) : Bool := decide (12 ≤ bs.length) && le bs 4 2 == bs.length && crcGood bs

/-- The header of R117. -/
def pktHdr (typ flags seq len tsf : Nat) : List Nat := [typ, flags, seq, 0] ++ leBytes 2 len ++ leBytes 2 tsf

/-- A TRIG packet (R123). -/
def trigPkt (sync seq id act action out width expo : Nat) : List Nat :=
  withCrc (pktHdr 0x03 sync seq 36 id ++ leBytes 16 act ++ [action, out] ++ leBytes 2 width ++ leBytes 4 expo)

/-- A TIME request (R124). -/
def timePkt (xid tflags phase t1 corr incr cfg : Nat) : List Nat :=
  withCrc (pktHdr 0x04 0 0 80 xid ++ [1, tflags] ++ leBytes 2 phase ++ leBytes 16 t1 ++ zeros 32 ++ leBytes 8 corr ++
    leBytes 6 incr ++ [cfg, 0])

/-- A MGMT request (R125). -/
def mgmtPkt (sync seq tag op count addr : Nat) (data : List Nat) : List Nat :=
  withCrc (pktHdr 0x05 sync seq (20 + data.length) tag ++ [op, 0] ++ leBytes 2 count ++ leBytes 4 addr ++ data)

/-- A CREDIT packet of the device (R126). -/
def creditPkt (limit ackSeq cflags : Nat) : List Nat :=
  withCrc (pktHdr 0x06 0 0 20 0 ++ leBytes 4 limit ++ [ackSeq, cflags, 0, 0])

/-- A TEST packet (R127). -/
def testPkt (num : Nat) (pay : List Nat) : List Nat := withCrc (pktHdr 0x0F 0 0 (12 + pay.length) num ++ pay)

/-- The types of R119 that a camera may send, with their ranges of LEN. -/
def pktKnown (bs : List Nat) : Bool :=
  let n := bs.length
  match byteAt bs 0 with
  | 0x01 => decide (53 ≤ n) && decide (n ≤ 8244)
  | 0x02 => n == 40
  | 0x04 => n == 80 && byteAt bs 8 == 2
  | 0x05 => decide (20 ≤ n) && decide (n ≤ 276) && decide (128 ≤ byteAt bs 8)
  | 0x06 => n == 20
  | 0x0F => decide (13 ≤ n) && decide (n ≤ 8204)
  | _ => false

/-- One bit of the PRBS31 sequence x^31 + x^28 + 1: the next state, whose bit 0 is the bit sent. -/
def prbsStep (s : Nat) : Nat := (2 * s + (bitOf s 30 + bitOf s 27) % 2) % 2 ^ 31

/-- n steps. -/
def prbsSteps : Nat → Nat → Nat
  | 0, s => s
  | n + 1, s => prbsSteps n (prbsStep s)

/-- One payload byte, bit 0 first. -/
def prbsByte (s : Nat) : Nat :=
  (List.range 8).foldl (fun a i => a + bitOf (prbsSteps (i + 1) s) 0 * 2 ^ i) 0

/-- n payload bytes and the state after them. -/
def prbsBytes : Nat → Nat → List Nat × Nat
  | 0, s => ([], s)
  | n + 1, s =>
    let r := prbsBytes n (prbsSteps 8 s)
    (prbsByte s :: r.1, r.2)

/-! ## Commas (R107, R110) -/

/-- Byte 0 and PATTERN of a comma. -/
def commaHead : List Nat := [0x4B, 0x9C, 0x3A, 0xE5, 0x17, 0x6B, 0xC2]

/-- Parity of the ones of a byte. -/
def parity8 (b : Nat) : Nat := ((List.range 8).foldl (fun a i => a + bitOf b i) 0) % 2

/-- A comma payload: exact PATTERN and odd parity of byte 7. -/
def isComma (bs : List Nat) : Bool := bs.take 7 == commaHead && parity8 (byteAt bs 7) == 1

/-- The bitwise inverse of a comma payload (R87). -/
def isInvComma (bs : List Nat) : Bool := isComma (bs.map (fun b => 255 - b % 256))

/-- Byte 7 of a comma: LANE, MASK, BURST, PAR (R107). -/
def comma7 (lane mask burst : Nat) : Nat :=
  let b := lane % 4 + mask % 16 * 4 + burst % 2 * 64
  b + (1 - parity8 b) * 128

/-- The payload of a comma, byte 0 in its low bits (R103, R107). -/
def commaPay (lane mask burst : Nat) : Nat := le (commaHead ++ [comma7 lane mask burst]) 0 8

/-! ## Blocks (R103–R106, R113) -/

/-- All ones of a payload. -/
abbrev ones64 : Nat := 2 ^ 64 - 1

/-- A block with its 66 bits inverted (R87). -/
def invBlock (b : Nat × Nat) : Nat × Nat := (3 - b.1 % 4, ones64 - b.2 % 2 ^ 64)

/-- A payload through the scrambler 1 + x^39 + x^58, bit 0 first: the state after it, and what is sent (R104). -/
def scramble (scr pay : Nat) : Nat × Nat :=
  (List.range 64).foldl (fun a i =>
    let s := (bitOf pay i + bitOf a.1 38 + bitOf a.1 57) % 2
    ((2 * a.1 + s) % 2 ^ 58, a.2 + s * 2 ^ i)) (scr, 0)

/-- A received payload through the descrambler (R104). -/
def descramble (scr pay : Nat) : Nat × Nat :=
  (List.range 64).foldl (fun a i =>
    let s := bitOf pay i
    ((2 * a.1 + s) % 2 ^ 58, a.2 + (s + bitOf a.1 38 + bitOf a.1 57) % 2 * 2 ^ i)) (scr, 0)

/-- The IDLE block (R105). -/
def idleBlock : Nat × Nat := (2, le (withCrc [0x1E, 0, 0, 0]) 0 8)

/-- The blocks of a packet: START, m data blocks, END_n (R106). -/
def packetBlocks (bs : List Nat) : List (Nat × Nat) :=
  let n := (bs.length - 7) % 8
  let m := (bs.length - 7 - n) / 8
  (2, le (0x78 :: sl bs 0 7) 0 8) :: (List.range m).map (fun i => (1, le bs (7 + 8 * i) 8)) ++
    [(2, le ((0xE0 + n) :: (sl bs (7 + 8 * m) n ++ zeros (7 - n))) 0 8)]

/-- Stream blocks over w lanes slot by slot; the last slot is filled with IDLE blocks (R113). -/
def stripe (w : Nat) (bs : List (Nat × Nat)) : List (List (Nat × Nat)) :=
  (List.range (cdiv bs.length w)).map (fun j => (List.range w).map (fun r => bs.getD (j * w + r) idleBlock))

/-- The bytes of a payload, byte 0 first. -/
def blockBytes (pay : Nat) : List Nat := leBytes 8 pay

/-! ## Identity records (R147) -/

/-- MAGIC, REC_LEN and REC_CRC of a record of n bytes. -/
def recordGood (n : Nat) (bs : List Nat) : Bool :=
  bs.length == n && bs.take 4 == ascii "KRID" && le bs 6 2 == n && crcGood bs

/-- MODEL and SERIAL. -/
def recordIdent (bs : List Nat) : List Nat := (bs.drop 16).take 48

end Sys2Proof.Machine
end

