-- ==== Sys2Proof/Config.lean ====
section
/-!
DEFINITION. What an implementation fixes and the spec does not state: values without a body, so that nothing in Lean
can evaluate one or prove anything of it. Each is named in notes/assumptions.
The log's entry 7 of notes/assumptions names what is DEDUCED or a DESIGN CHOICE here, and marks each.
-/

namespace Sys2Proof.Config

/-- A value the spec leaves open, fresh for each number n. -/
opaque freeValue : Nat → Nat

/-- The unlock response the vendor's service computes from NV_CHALLENGE and the serial number (R534: not published). -/
opaque unlockResponse : Nat → Nat → Nat

/-- The device's 64-bit unique identifier, fixed at manufacture (R444). -/
opaque serialNumber : Nat

/-- The vendor identifier of R444, "Malieholt's assigned identifier". -/
opaque vendorId : Nat

/-- Rate defaults of CTLE, VGA for a RATE code: R76 and R99 name them and give no value. -/
opaque ctleDefault : Nat → Nat
opaque vgaDefault : Nat → Nat

/-- The state a PRBS31 generator of the test page starts from (R503 names none). -/
opaque prbsSeed : Nat

/-- Spare rows of a protected SRAM, by the number of its memory (R492 gives none). -/
opaque spareRows : Nat → Nat

/-- Whether the known-answer image passes its CRC, from the NV words of its area (R489 gives no layout). -/
opaque kaImageGood : List (Nat × Nat) → Bool

/-- The digests a known-answer image expects: of the LCU, and of the engine (R489, R490). -/
opaque kaLcuDigest : List (Nat × Nat) → Nat
opaque kaEngineDigest : List (Nat × Nat) → Nat

/-- Values of the factory calibration area, whose layout R528 does not give: the MAC address of a port, delay constant j of a
port (R280), and the device identities of R444 (0 Vendor ID and the like, in the order of R529). -/
opaque factoryMac : List (Nat × Nat) → Nat → Nat
opaque factoryDelay : List (Nat × Nat) → Nat → Nat → Nat

/-- Where the table memory of a class, instance and TABLE stands among the 4 KiB pages of R450's table space. -/
opaque tablePage : Nat → Nat → Nat → Nat

/-- The boundary-scan register captured at the pins (R517: its description comes with the package). -/
opaque pinCapture : Nat → Nat

end Sys2Proof.Config
end

