-- ==== Sys2Proof/Machine/Page.lean ====
section
/-!
DEFINITION. A register field: where it stands in BAR0, its access type and its reset value (R6, R28, R32), and the
header fields every page has (R32–R43).
The log's entry 8 of notes/assumptions names what is DEDUCED or a DESIGN CHOICE here, and marks each.
-/

namespace Sys2Proof.Machine

/-- Register access types (R6). RSV bits have no field: they read 0 and ignore writes. -/
inductive Acc where
  | ro | rw | rw1c | w1s | wo
  deriving DecidableEq, Repr

/-- A field of a register page: class, first and last instance that carry it, byte offset of its register, lowest bit,
width (a 64-bit value or a device-time group is one field at its low offset), access, reset, copies and their stride. -/
structure Fld where
  cls : Nat
  ilo : Nat
  ihi : Nat
  off : Nat
  lo : Nat
  w : Nat
  acc : Acc
  rst : Nat
  num : Nat
  str : Nat
  deriving DecidableEq, Repr

/-- The key of copy i of a field in the page of an instance: the BAR0 offset of R28, and the bit. -/
def Fld.key (f : Fld) (inst i : Nat) : Nat :=
  ((f.cls * 64 + inst) * 4096 + f.off + i * f.str) * 32 + f.lo

/-- The same field in another class, for the fields many pages share. -/
def Fld.at (f : Fld) (c : Nat) : Fld := { f with cls := c }

/-- How many 32-bit words a field spans. -/
def Fld.words (f : Fld) : Nat := (f.lo + f.w + 31) / 32

/-- BAR0 offset of a register (R28). -/
def bar0 (c inst off : Nat) : Nat := (c * 64 + inst) * 4096 + off

namespace Hdr
/-- CTRL.EN (R37). -/
def EN (c : Nat) : Fld := ⟨c, 0, 63, 0x00C, 0, 1, .rw, 0, 1, 0⟩
/-- CTRL.FREEZE (R37). -/
def FREEZE (c : Nat) : Fld := ⟨c, 0, 63, 0x00C, 2, 1, .rw, 0, 1, 0⟩
/-- STAT.SRST_BUSY; CTRL.SRST reads the same (R37, R40). -/
def SRST_BUSY (c : Nat) : Fld := ⟨c, 0, 63, 0x010, 29, 1, .ro, 0, 1, 0⟩
/-- EVT, the whole register (R41). -/
def EVT (c : Nat) : Fld := ⟨c, 0, 63, 0x014, 0, 32, .rw1c, 0, 1, 0⟩
/-- EVT_EN (R41). -/
def EVT_EN (c : Nat) : Fld := ⟨c, 0, 63, 0x018, 0, 32, .rw, 0, 1, 0⟩
/-- FLT (R42). -/
def FLT (c : Nat) : Fld := ⟨c, 0, 63, 0x020, 0, 32, .rw1c, 0, 1, 0⟩
/-- The FLT_EN bits that are 0: every implemented bit resets to 1 (R42), so the complement is what is held. -/
def FLT_DIS (c : Nat) : Fld := ⟨c, 0, 63, 0x024, 0, 32, .rw, 0, 1, 0⟩
/-- FLT_INJ (R42). -/
def FLT_INJ (c : Nat) : Fld := ⟨c, 0, 63, 0x028, 0, 32, .rw, 0, 1, 0⟩
end Hdr

/-- The region layout at device reset (R410): KIND, SLOT_CHAN, BASE, SIZE. -/
def rgnReset (n : Nat) : Nat × Nat × Nat × Nat :=
  if n < 16 then (1, 1, 12288 * (n / 4) + 2048 * (n % 4), 2048)
  else match n with
    | 16 => (3, 0, 8192, 4096)
    | 17 => (2, 1, 20480, 4096)
    | 18 => (3, 0, 32768, 4096)
    | 19 => (0, 0, 45056, 4096)
    | _ => (0, 0, 0, 0)

/-- The region fields of device reset that are not 0, in rising order of their keys (R410). -/
def rgnRegs : List (Nat × Nat) :=
  (List.range 20).flatMap (fun n =>
    let r := rgnReset n
    let k := bar0 0x19 n 0x40 * 32
    [(k, r.2.2.1), (k + 16, r.2.2.2), (k + 128, r.1), (k + 132, r.2.1)].filter (fun e => e.2 != 0))

/-- EVT bits common to all pages (R41). -/
abbrev evtBAD_ACCESS : Nat := 31
abbrev evtCLAIM_CONFLICT : Nat := 30
abbrev evtENABLE_REFUSED : Nat := 29
abbrev evtBAD_TIME : Nat := 28

end Sys2Proof.Machine
end

