-- ==== Sys2Proof/Machine/Regs.lean ====
section
/-!
DEFINITION. The register fields of every page, in the spec's own names, one constant per field: page class, first
and last instance of the class that carries it, byte offset, lowest bit, width, access type (R6), reset value, number
of copies and their stride. Written out from the register tables of the spec: R50–R53, R56–R63 (02), R99, R101 (03),
R150 (04), R171, R173 (05), R208, R210 (06), R237–R239 (07), R278–R281 (08), R307 (09), R334 (10), R372 (11), R400,
R402 (12), R434–R440 (13), R473, R475 (14), R494, R498, R500 (15), R519–R522 (16), R527, R532, R535 (17), and the
STAT, EVT and FLT bit tables beside them. A reset the spec gives as boot, strap, NV or rate dependent is 0 here and
is set where the spec says so. Names of EVT bits begin with E_, names of FLT bits with F_.
The log's entry 9 of notes/assumptions names what is DEDUCED or a DESIGN CHOICE here, and marks each.
-/

namespace Sys2Proof.Machine

namespace AO
def DEV_ID_PART_NUM : Fld := ⟨0x00, 0, 0, 0x040, 16, 16, .ro, 29024, 1, 0⟩
def DEV_ID_FAMILY : Fld := ⟨0x00, 0, 0, 0x040, 8, 8, .ro, 1, 1, 0⟩
def DEV_ID_DEV_REV : Fld := ⟨0x00, 0, 0, 0x040, 0, 8, .ro, 0, 1, 0⟩
def ACCESS_STAT_WEDGE : Fld := ⟨0x00, 0, 0, 0x048, 3, 1, .ro, 0, 1, 0⟩
def ACCESS_STAT_ACC_TIMEOUT : Fld := ⟨0x00, 0, 0, 0x048, 2, 1, .rw1c, 0, 1, 0⟩
def ACCESS_STAT_GATED_WR : Fld := ⟨0x00, 0, 0, 0x048, 1, 1, .rw1c, 0, 1, 0⟩
def ACCESS_STAT_DENIED : Fld := ⟨0x00, 0, 0, 0x048, 0, 1, .rw1c, 0, 1, 0⟩
def ACCESS_CNT_GATED_WR_CNT : Fld := ⟨0x00, 0, 0, 0x04C, 16, 16, .ro, 0, 1, 0⟩
def ACCESS_CNT_DENIED_CNT : Fld := ⟨0x00, 0, 0, 0x04C, 0, 16, .ro, 0, 1, 0⟩
def WEDGE_FIRST_VALID : Fld := ⟨0x00, 0, 0, 0x050, 31, 1, .ro, 0, 1, 0⟩
def WEDGE_FIRST_OFFSET : Fld := ⟨0x00, 0, 0, 0x050, 0, 24, .ro, 0, 1, 0⟩
def WEDGE_MAP_ISL : Fld := ⟨0x00, 0, 0, 0x060, 0, 32, .ro, 0, 6, 4⟩
def OWNER_INFO_SRC : Fld := ⟨0x00, 0, 0, 0x078, 2, 1, .ro, 0, 1, 0⟩
def OWNER_INFO_OWNER : Fld := ⟨0x00, 0, 0, 0x078, 0, 2, .ro, 0, 1, 0⟩
def REQ_ID_FUNCTION : Fld := ⟨0x00, 0, 0, 0x07C, 8, 8, .ro, 0, 1, 0⟩
def REQ_ID_PART : Fld := ⟨0x00, 0, 0, 0x07C, 0, 2, .ro, 0, 1, 0⟩
def DEV_HEALTH_HEALTH : Fld := ⟨0x00, 0, 0, 0x080, 0, 2, .ro, 0, 1, 0⟩
def HEALTH_PINS_REPLACE : Fld := ⟨0x00, 0, 0, 0x084, 2, 1, .ro, 0, 1, 0⟩
def HEALTH_PINS_FAULT : Fld := ⟨0x00, 0, 0, 0x084, 1, 1, .ro, 0, 1, 0⟩
def HEALTH_PINS_ALERT : Fld := ⟨0x00, 0, 0, 0x084, 0, 1, .ro, 0, 1, 0⟩
def HEALTH_CMD_ALERT_CLR : Fld := ⟨0x00, 0, 0, 0x088, 1, 1, .wo, 0, 1, 0⟩
def HEALTH_CMD_REPLACE_CLR : Fld := ⟨0x00, 0, 0, 0x088, 0, 1, .wo, 0, 1, 0⟩
def DEGRADED_CNT : Fld := ⟨0x00, 0, 0, 0x08C, 0, 32, .ro, 0, 1, 0⟩
def HEALTH_REC_SPARE_MAP : Fld := ⟨0x00, 0, 0, 0x090, 16, 8, .ro, 0, 1, 0⟩
def HEALTH_REC_TEMP_MAX : Fld := ⟨0x00, 0, 0, 0x090, 0, 8, .ro, 0, 1, 0⟩
def LAST_DEG : Fld := ⟨0x00, 0, 0, 0x094, 0, 32, .ro, 0, 1, 0⟩
def BOOT_STAT_BOOT_DONE : Fld := ⟨0x00, 0, 0, 0x0A0, 31, 1, .ro, 0, 1, 0⟩
def BOOT_STAT_DEFAULTED : Fld := ⟨0x00, 0, 0, 0x0A0, 30, 1, .ro, 0, 1, 0⟩
def BOOT_STAT_PART_DEF : Fld := ⟨0x00, 0, 0, 0x0A0, 29, 1, .ro, 0, 1, 0⟩
def BOOT_STAT_MBIST_RAN : Fld := ⟨0x00, 0, 0, 0x0A0, 28, 1, .ro, 0, 1, 0⟩
def BOOT_STAT_REFCLK_OK : Fld := ⟨0x00, 0, 0, 0x0A0, 27, 1, .ro, 0, 1, 0⟩
def BOOT_STAT_BAD_WORDS : Fld := ⟨0x00, 0, 0, 0x0A0, 16, 8, .ro, 0, 1, 0⟩
def BOOT_STAT_SMB_ADDR : Fld := ⟨0x00, 0, 0, 0x0A0, 6, 2, .ro, 0, 1, 0⟩
def BOOT_STAT_H1_BIF : Fld := ⟨0x00, 0, 0, 0x0A0, 5, 1, .ro, 0, 1, 0⟩
def BOOT_STAT_H0_BIF : Fld := ⟨0x00, 0, 0, 0x0A0, 4, 1, .ro, 0, 1, 0⟩
def BOOT_STAT_OWN_SEL : Fld := ⟨0x00, 0, 0, 0x0A0, 0, 2, .ro, 0, 1, 0⟩
def BOOT_TIME : Fld := ⟨0x00, 0, 0, 0x0A4, 0, 32, .ro, 0, 1, 0⟩
def DEV_RESET : Fld := ⟨0x00, 0, 0, 0x0A8, 0, 32, .wo, 0, 1, 0⟩
end AO

namespace Tbl
def TBL_ADDR_TABLE : Fld := ⟨0x3F, 0, 63, 0xFC0, 24, 8, .rw, 0, 1, 0⟩
def TBL_ADDR_INDEX : Fld := ⟨0x3F, 0, 63, 0xFC0, 0, 24, .rw, 0, 1, 0⟩
def TBL_CMD_BUSY : Fld := ⟨0x3F, 0, 63, 0xFC4, 31, 1, .ro, 0, 1, 0⟩
def TBL_CMD_ERR : Fld := ⟨0x3F, 0, 63, 0xFC4, 30, 1, .rw1c, 0, 1, 0⟩
def TBL_CMD_AUTO_INC : Fld := ⟨0x3F, 0, 63, 0xFC4, 2, 1, .rw, 0, 1, 0⟩
def TBL_CMD_OP : Fld := ⟨0x3F, 0, 63, 0xFC4, 0, 2, .wo, 0, 1, 0⟩
def TBL_INFO_ENTRY_BYTES : Fld := ⟨0x3F, 0, 63, 0xFC8, 24, 8, .ro, 0, 1, 0⟩
def TBL_INFO_ENTRIES_M1 : Fld := ⟨0x3F, 0, 63, 0xFC8, 0, 24, .ro, 0, 1, 0⟩
def TBL_BASE : Fld := ⟨0x3F, 0, 63, 0xFD0, 0, 64, .ro, 0, 1, 0⟩
def TBL_DATA : Fld := ⟨0x3F, 0, 63, 0xFE0, 0, 32, .rw, 0, 4, 4⟩
end Tbl

namespace Lane
def LANE_CFG_EXCLUDE : Fld := ⟨0x08, 0, 63, 0x040, 4, 1, .rw, 0, 1, 0⟩
def LANE_CFG_AUTO_POL : Fld := ⟨0x08, 0, 63, 0x040, 3, 1, .rw, 1, 1, 0⟩
def LANE_CFG_TX_INV : Fld := ⟨0x08, 0, 63, 0x040, 2, 1, .rw, 0, 1, 0⟩
def LANE_CFG_RX_INV : Fld := ⟨0x08, 0, 63, 0x040, 1, 1, .rw, 0, 1, 0⟩
def LANE_CFG_ADAPT_EN : Fld := ⟨0x08, 0, 63, 0x040, 0, 1, .rw, 1, 1, 0⟩
def TX_FFE_AMP : Fld := ⟨0x08, 0, 63, 0x044, 16, 4, .rw, 8, 1, 0⟩
def TX_FFE_POST : Fld := ⟨0x08, 0, 63, 0x044, 8, 5, .rw, 6, 1, 0⟩
def TX_FFE_PRE : Fld := ⟨0x08, 0, 63, 0x044, 0, 4, .rw, 0, 1, 0⟩
def ADAPT_CFG_FOM_DROP : Fld := ⟨0x08, 0, 63, 0x048, 24, 8, .rw, 32, 1, 0⟩
def ADAPT_CFG_FOM_GOOD : Fld := ⟨0x08, 0, 63, 0x048, 16, 8, .rw, 96, 1, 0⟩
def ADAPT_CFG_ADAPT_TD_MIN : Fld := ⟨0x08, 0, 63, 0x048, 0, 12, .rw, 512, 1, 0⟩
def ADAPT_CFG2_REVERT_LIMIT : Fld := ⟨0x08, 0, 63, 0x04C, 12, 4, .rw, 8, 1, 0⟩
def ADAPT_CFG2_FOM_FAIL : Fld := ⟨0x08, 0, 63, 0x04C, 0, 8, .rw, 16, 1, 0⟩
def ADAPT_CMD_CLR_CNT : Fld := ⟨0x08, 0, 63, 0x050, 4, 1, .wo, 0, 1, 0⟩
def ADAPT_CMD_CLEAR_STUCK : Fld := ⟨0x08, 0, 63, 0x050, 3, 1, .wo, 0, 1, 0⟩
def ADAPT_CMD_RESTART : Fld := ⟨0x08, 0, 63, 0x050, 2, 1, .wo, 0, 1, 0⟩
def ADAPT_CMD_SNAP_NOW : Fld := ⟨0x08, 0, 63, 0x050, 1, 1, .wo, 0, 1, 0⟩
def ADAPT_CMD_REVERT_NOW : Fld := ⟨0x08, 0, 63, 0x050, 0, 1, .wo, 0, 1, 0⟩
def FOM_INFO_FOM_MIN : Fld := ⟨0x08, 0, 63, 0x054, 24, 8, .ro, 255, 1, 0⟩
def FOM_INFO_SNAP_FOM : Fld := ⟨0x08, 0, 63, 0x054, 16, 8, .ro, 0, 1, 0⟩
def FOM_INFO_FOM_HWM : Fld := ⟨0x08, 0, 63, 0x054, 8, 8, .ro, 0, 1, 0⟩
def FOM_INFO_FOM : Fld := ⟨0x08, 0, 63, 0x054, 0, 8, .ro, 0, 1, 0⟩
def EYE_EW : Fld := ⟨0x08, 0, 63, 0x058, 8, 7, .ro, 0, 1, 0⟩
def EYE_EH : Fld := ⟨0x08, 0, 63, 0x058, 0, 8, .ro, 0, 1, 0⟩
def RX_EQ_VGA : Fld := ⟨0x08, 0, 63, 0x05C, 8, 6, .rw, 0, 1, 0⟩
def RX_EQ_CTLE : Fld := ⟨0x08, 0, 63, 0x05C, 0, 4, .rw, 0, 1, 0⟩
def CNT_A_REVERT_CNT : Fld := ⟨0x08, 0, 63, 0x070, 16, 16, .ro, 0, 1, 0⟩
def CNT_A_TD_FROZEN_CNT : Fld := ⟨0x08, 0, 63, 0x070, 0, 16, .ro, 0, 1, 0⟩
def CNT_B_LOCK_LOSS_CNT : Fld := ⟨0x08, 0, 63, 0x074, 16, 16, .ro, 0, 1, 0⟩
def CNT_B_HDR_ERR_CNT : Fld := ⟨0x08, 0, 63, 0x074, 0, 16, .ro, 0, 1, 0⟩
def SCAN_CTRL_BUSY : Fld := ⟨0x08, 0, 63, 0x080, 31, 1, .ro, 0, 1, 0⟩
def SCAN_CTRL_DWELL_LOG2 : Fld := ⟨0x08, 0, 63, 0x080, 24, 5, .rw, 20, 1, 0⟩
def SCAN_CTRL_V_OFF : Fld := ⟨0x08, 0, 63, 0x080, 16, 8, .rw, 0, 1, 0⟩
def SCAN_CTRL_H_OFF : Fld := ⟨0x08, 0, 63, 0x080, 8, 7, .rw, 0, 1, 0⟩
def SCAN_CTRL_START : Fld := ⟨0x08, 0, 63, 0x080, 0, 1, .wo, 0, 1, 0⟩
def SCAN_RES_DONE : Fld := ⟨0x08, 0, 63, 0x084, 31, 1, .ro, 0, 1, 0⟩
def SCAN_RES_ERR_CNT : Fld := ⟨0x08, 0, 63, 0x084, 0, 24, .ro, 0, 1, 0⟩
def TAP1 : Fld := ⟨0x08, 0, 63, 0x060, 0, 8, .rw, 0, 1, 0⟩
def TAP2 : Fld := ⟨0x08, 0, 63, 0x060, 8, 8, .rw, 0, 1, 0⟩
def TAP3 : Fld := ⟨0x08, 0, 63, 0x060, 16, 8, .rw, 0, 1, 0⟩
def TAP4 : Fld := ⟨0x08, 0, 63, 0x060, 24, 8, .rw, 0, 1, 0⟩
def TAP5 : Fld := ⟨0x08, 0, 63, 0x064, 0, 8, .rw, 0, 1, 0⟩
def TAP6 : Fld := ⟨0x08, 0, 63, 0x064, 8, 8, .rw, 0, 1, 0⟩
def TAP7 : Fld := ⟨0x08, 0, 63, 0x064, 16, 8, .rw, 0, 1, 0⟩
def TAP8 : Fld := ⟨0x08, 0, 63, 0x064, 24, 8, .rw, 0, 1, 0⟩
def TAP9 : Fld := ⟨0x08, 0, 63, 0x068, 0, 8, .rw, 0, 1, 0⟩
def TAP10 : Fld := ⟨0x08, 0, 63, 0x068, 8, 8, .rw, 0, 1, 0⟩
def TAP11 : Fld := ⟨0x08, 0, 63, 0x068, 16, 8, .rw, 0, 1, 0⟩
def TAP12 : Fld := ⟨0x08, 0, 63, 0x068, 24, 8, .rw, 0, 1, 0⟩
def TAP13 : Fld := ⟨0x08, 0, 63, 0x06C, 0, 8, .rw, 0, 1, 0⟩
def TAP14 : Fld := ⟨0x08, 0, 63, 0x06C, 8, 8, .rw, 0, 1, 0⟩
def TAP15 : Fld := ⟨0x08, 0, 63, 0x06C, 16, 8, .rw, 0, 1, 0⟩
def STAT_FOM : Fld := ⟨0x08, 0, 63, 0x010, 18, 8, .ro, 0, 1, 0⟩
def STAT_HDR_LOCK : Fld := ⟨0x08, 0, 63, 0x010, 17, 1, .ro, 0, 1, 0⟩
def STAT_COMMA_LOCK : Fld := ⟨0x08, 0, 63, 0x010, 16, 1, .ro, 0, 1, 0⟩
def STAT_RX_LOGICAL : Fld := ⟨0x08, 0, 63, 0x010, 14, 2, .ro, 0, 1, 0⟩
def STAT_POL_INV : Fld := ⟨0x08, 0, 63, 0x010, 13, 1, .ro, 0, 1, 0⟩
def STAT_TD_LOW : Fld := ⟨0x08, 0, 63, 0x010, 12, 1, .ro, 0, 1, 0⟩
def STAT_FOM_HELD : Fld := ⟨0x08, 0, 63, 0x010, 11, 1, .ro, 0, 1, 0⟩
def STAT_SNAP_VALID : Fld := ⟨0x08, 0, 63, 0x010, 10, 1, .ro, 0, 1, 0⟩
def STAT_ADAPT_STUCK : Fld := ⟨0x08, 0, 63, 0x010, 9, 1, .ro, 0, 1, 0⟩
def STAT_FAILED : Fld := ⟨0x08, 0, 63, 0x010, 8, 1, .ro, 0, 1, 0⟩
def STAT_ACTIVE : Fld := ⟨0x08, 0, 63, 0x010, 7, 1, .ro, 0, 1, 0⟩
def STAT_ACQUIRING : Fld := ⟨0x08, 0, 63, 0x010, 6, 1, .ro, 0, 1, 0⟩
abbrev E_TD_LOW : Nat := 8
abbrev E_SCAN_DONE : Nat := 7
abbrev E_LANE_FAILED : Nat := 6
abbrev E_FOM_LOW : Nat := 5
abbrev E_LOCK_GAINED : Nat := 4
abbrev E_LOCK_LOST : Nat := 3
abbrev E_POL_FLIP : Nat := 2
abbrev E_ADAPT_STUCK : Nat := 1
abbrev E_ADAPT_REVERT : Nat := 0
abbrev F_HS_WDOG : Nat := 2
abbrev F_COEFF_PAR : Nat := 1
abbrev F_RX_FAIL : Nat := 0
end Lane

namespace Port
def LG_CFG_EXPECT_MASK : Fld := ⟨0x0A, 0, 15, 0x040, 16, 4, .rw, 15, 1, 0⟩
def LG_CFG_AUTO_NARROW : Fld := ⟨0x0A, 0, 15, 0x040, 14, 1, .rw, 1, 1, 0⟩
def LG_CFG_LANE_FAIL_TIME : Fld := ⟨0x0A, 0, 15, 0x040, 12, 2, .rw, 1, 1, 0⟩
def LG_CFG_SSC_FREQ : Fld := ⟨0x0A, 0, 15, 0x040, 8, 2, .rw, 0, 1, 0⟩
def LG_CFG_SSC_DEPTH : Fld := ⟨0x0A, 0, 15, 0x040, 4, 3, .rw, 0, 1, 0⟩
def LG_CFG_SSC_EN : Fld := ⟨0x0A, 0, 15, 0x040, 3, 1, .rw, 0, 1, 0⟩
def LG_CFG_REFOUT_EN : Fld := ⟨0x0A, 0, 15, 0x040, 2, 1, .rw, 0, 1, 0⟩
def LG_CFG_RATE : Fld := ⟨0x0A, 0, 15, 0x040, 0, 2, .rw, 0, 1, 0⟩
def LG_STAT_REFOUT_OK : Fld := ⟨0x0A, 0, 15, 0x044, 31, 1, .ro, 0, 1, 0⟩
def LG_STAT_RATE_WARN : Fld := ⟨0x0A, 0, 15, 0x044, 30, 1, .ro, 0, 1, 0⟩
def LG_STAT_NARROW_PENDING : Fld := ⟨0x0A, 0, 15, 0x044, 29, 1, .ro, 0, 1, 0⟩
def LG_STAT_WIDTH : Fld := ⟨0x0A, 0, 15, 0x044, 24, 3, .ro, 0, 1, 0⟩
def LG_STAT_ACTIVE_MASK : Fld := ⟨0x0A, 0, 15, 0x044, 16, 4, .ro, 0, 1, 0⟩
def LG_STAT_FAR_MASK : Fld := ⟨0x0A, 0, 15, 0x044, 12, 4, .ro, 0, 1, 0⟩
def LG_STAT_NEAR_MASK : Fld := ⟨0x0A, 0, 15, 0x044, 8, 4, .ro, 0, 1, 0⟩
def LG_STAT_EXCLUDED : Fld := ⟨0x0A, 0, 15, 0x044, 4, 4, .ro, 0, 1, 0⟩
def LINE_BYTES : Fld := ⟨0x0A, 0, 15, 0x048, 0, 20, .rw, 0, 1, 0⟩
def RATE_INFO_DEMAND : Fld := ⟨0x0A, 0, 15, 0x04C, 16, 16, .ro, 0, 1, 0⟩
def RATE_INFO_CAPACITY : Fld := ⟨0x0A, 0, 15, 0x04C, 0, 16, .ro, 0, 1, 0⟩
def LG_CMD_WIDEN : Fld := ⟨0x0A, 0, 15, 0x050, 0, 1, .wo, 0, 1, 0⟩
def NARROW_CNT : Fld := ⟨0x0A, 0, 15, 0x054, 0, 16, .ro, 0, 1, 0⟩
def PORT_CFG_LOCK_TIMEOUT : Fld := ⟨0x0A, 0, 15, 0x060, 8, 8, .rw, 10, 1, 0⟩
def PORT_CFG_AUTO_ID : Fld := ⟨0x0A, 0, 15, 0x060, 1, 1, .rw, 1, 1, 0⟩
def PORT_CFG_TIME_EN : Fld := ⟨0x0A, 0, 15, 0x060, 0, 1, .rw, 1, 1, 0⟩
def RETRY_CFG_RETRY_TIME : Fld := ⟨0x0A, 0, 15, 0x064, 8, 8, .rw, 10, 1, 0⟩
def RETRY_CFG_TX_WINDOW : Fld := ⟨0x0A, 0, 15, 0x064, 0, 6, .rw, 8, 1, 0⟩
def TRIG_CFG_GEN_EN : Fld := ⟨0x0A, 0, 15, 0x068, 31, 1, .rw, 0, 1, 0⟩
def TRIG_CFG_GEN : Fld := ⟨0x0A, 0, 15, 0x068, 24, 4, .rw, 0, 1, 0⟩
def TRIG_CFG_ACTION : Fld := ⟨0x0A, 0, 15, 0x068, 16, 8, .rw, 1, 1, 0⟩
def TRIG_CFG_TRIG_LEAD : Fld := ⟨0x0A, 0, 15, 0x068, 0, 16, .rw, 1000, 1, 0⟩
def TRIG_EXPO_EXPOSURE : Fld := ⟨0x0A, 0, 15, 0x06C, 0, 32, .rw, 0, 1, 0⟩
def DELAY_ASYM : Fld := ⟨0x0A, 0, 15, 0x070, 0, 32, .rw, 0, 1, 0⟩
def PD_STEP_LIMIT : Fld := ⟨0x0A, 0, 15, 0x074, 0, 32, .rw, 131072, 1, 0⟩
def PATH_DELAY : Fld := ⟨0x0A, 0, 15, 0x078, 0, 64, .ro, 0, 1, 0⟩
def D_GOOD : Fld := ⟨0x0A, 0, 15, 0x080, 0, 64, .ro, 0, 1, 0⟩
def OFFSET : Fld := ⟨0x0A, 0, 15, 0x088, 0, 64, .ro, 0, 1, 0⟩
def TIME_CMD_TIME_NOW : Fld := ⟨0x0A, 0, 15, 0x090, 1, 1, .wo, 0, 1, 0⟩
def TIME_CMD_TIME_ACK : Fld := ⟨0x0A, 0, 15, 0x090, 0, 1, .wo, 0, 1, 0⟩
def MGMT_CMD_BUSY : Fld := ⟨0x0A, 0, 15, 0x094, 31, 1, .ro, 0, 1, 0⟩
def MGMT_CMD_STATUS : Fld := ⟨0x0A, 0, 15, 0x094, 24, 4, .ro, 0, 1, 0⟩
def MGMT_CMD_OP : Fld := ⟨0x0A, 0, 15, 0x094, 16, 2, .wo, 0, 1, 0⟩
def MGMT_CMD_COUNT : Fld := ⟨0x0A, 0, 15, 0x094, 0, 9, .rw, 4, 1, 0⟩
def MGMT_ADDR_ADDR : Fld := ⟨0x0A, 0, 15, 0x098, 0, 32, .rw, 0, 1, 0⟩
def LB_CTRL_ACTIVE : Fld := ⟨0x0A, 0, 15, 0x09C, 31, 1, .ro, 0, 1, 0⟩
def LB_CTRL_LB_STATUS : Fld := ⟨0x0A, 0, 15, 0x09C, 28, 3, .ro, 0, 1, 0⟩
def LB_CTRL_MODE : Fld := ⟨0x0A, 0, 15, 0x09C, 16, 2, .rw, 0, 1, 0⟩
def LB_CTRL_DURATION : Fld := ⟨0x0A, 0, 15, 0x09C, 0, 16, .rw, 100, 1, 0⟩
def ID_STAT_ID_VALID : Fld := ⟨0x0A, 0, 15, 0x0A0, 31, 1, .ro, 0, 1, 0⟩
def ID_STAT_ID_BAD : Fld := ⟨0x0A, 0, 15, 0x0A0, 30, 1, .ro, 0, 1, 0⟩
def ID_STAT_RATE_UNSUP : Fld := ⟨0x0A, 0, 15, 0x0A0, 29, 1, .ro, 0, 1, 0⟩
def ID_STAT_LANES_MISMATCH : Fld := ⟨0x0A, 0, 15, 0x0A0, 28, 1, .ro, 0, 1, 0⟩
def CNT_A_CRC_ERR_CNT : Fld := ⟨0x0A, 0, 15, 0x0A4, 16, 16, .ro, 0, 1, 0⟩
def CNT_A_CAM_DROP_CNT : Fld := ⟨0x0A, 0, 15, 0x0A4, 0, 16, .ro, 0, 1, 0⟩
def CNT_B_TRIG_LATE_CNT : Fld := ⟨0x0A, 0, 15, 0x0A8, 16, 16, .ro, 0, 1, 0⟩
def CNT_B_CAM_TRIG_LATE_CNT : Fld := ⟨0x0A, 0, 15, 0x0A8, 0, 16, .ro, 0, 1, 0⟩
def CNT_C_RETRY_CNT : Fld := ⟨0x0A, 0, 15, 0x0AC, 16, 16, .ro, 0, 1, 0⟩
def CNT_C_OOS_CNT : Fld := ⟨0x0A, 0, 15, 0x0AC, 0, 16, .ro, 0, 1, 0⟩
def CNT_D_TIME_LOST_CNT : Fld := ⟨0x0A, 0, 15, 0x0B0, 16, 16, .ro, 0, 1, 0⟩
def CNT_D_UNKNOWN_CNT : Fld := ⟨0x0A, 0, 15, 0x0B0, 0, 16, .ro, 0, 1, 0⟩
def CNT_E_TRIG_ABANDON_CNT : Fld := ⟨0x0A, 0, 15, 0x0B4, 16, 16, .ro, 0, 1, 0⟩
def CNT_E_LB_ERR_CNT : Fld := ⟨0x0A, 0, 15, 0x0B4, 0, 16, .ro, 0, 1, 0⟩
def CNT_CMD_CLR_CNT : Fld := ⟨0x0A, 0, 15, 0x0B8, 0, 1, .wo, 0, 1, 0⟩
def MGMT_DATA : Fld := ⟨0x0A, 0, 15, 0x100, 0, 32, .rw, 0, 64, 4⟩
def STAT_LINK_UP : Fld := ⟨0x0A, 0, 15, 0x010, 25, 1, .ro, 0, 1, 0⟩
def STAT_NOLOCK : Fld := ⟨0x0A, 0, 15, 0x010, 24, 1, .ro, 0, 1, 0⟩
def STAT_TIME_VALID : Fld := ⟨0x0A, 0, 15, 0x010, 23, 1, .ro, 0, 1, 0⟩
def STAT_TIME_SUSPECT : Fld := ⟨0x0A, 0, 15, 0x010, 22, 1, .ro, 0, 1, 0⟩
def STAT_PD_STEP_PENDING : Fld := ⟨0x0A, 0, 15, 0x010, 21, 1, .ro, 0, 1, 0⟩
def STAT_LB_ACTIVE : Fld := ⟨0x0A, 0, 15, 0x010, 20, 1, .ro, 0, 1, 0⟩
def STAT_MGMT_BUSY : Fld := ⟨0x0A, 0, 15, 0x010, 19, 1, .ro, 0, 1, 0⟩
def STAT_SYNC_PENDING : Fld := ⟨0x0A, 0, 15, 0x010, 18, 1, .ro, 0, 1, 0⟩
def STAT_CTRL_OUT : Fld := ⟨0x0A, 0, 15, 0x010, 12, 6, .ro, 0, 1, 0⟩
abbrev E_NARROWED : Nat := 27
abbrev E_RATE_WARN : Nat := 26
abbrev E_WIDENED : Nat := 25
abbrev E_REFOUT_FAULT : Nat := 24
abbrev E_LINK_UP : Nat := 23
abbrev E_LINK_DOWN : Nat := 22
abbrev E_NOLOCK : Nat := 21
abbrev E_DESKEW_ERR : Nat := 20
abbrev E_COMMA_ERR : Nat := 19
abbrev E_CRC_ERR : Nat := 18
abbrev E_UNKNOWN_PKT : Nat := 17
abbrev E_CAM_DROP : Nat := 16
abbrev E_TRIG_LATE : Nat := 15
abbrev E_CAM_TRIG_LATE : Nat := 14
abbrev E_MGMT_DONE : Nat := 13
abbrev E_PD_STEP : Nat := 12
abbrev E_TIME_STALE : Nat := 11
abbrev E_TIME_VALID : Nat := 10
abbrev E_ID_DONE : Nat := 9
abbrev E_ID_CHANGE : Nat := 8
abbrev E_LB_DONE : Nat := 7
abbrev F_PORT_NARROWED : Nat := 31
abbrev F_PORT_LANES_LOST : Nat := 30
abbrev F_REFOUT_FAIL : Nat := 29
abbrev F_HS_WDOG : Nat := 28
abbrev F_RB_SBE : Nat := 27
abbrev F_RB_DBE : Nat := 26
abbrev F_RETRY_EXHAUSTED : Nat := 25
abbrev F_CREDIT_VIOL : Nat := 24
end Port

namespace Q
def Q_CFG_AUTO_RELEASE : Fld := ⟨0x3F, 0, 63, 0x000, 31, 1, .rw, 1, 1, 0⟩
def Q_CFG_CT_THRESH : Fld := ⟨0x3F, 0, 63, 0x000, 0, 24, .rw, 8, 1, 0⟩
def Q_SIZE_UNIT_LOG2 : Fld := ⟨0x3F, 0, 63, 0x004, 24, 8, .ro, 8, 1, 0⟩
def Q_SIZE_SIZE : Fld := ⟨0x3F, 0, 63, 0x004, 0, 24, .ro, 8192, 1, 0⟩
def Q_WM_HI_WM_HI_LEVEL : Fld := ⟨0x3F, 0, 63, 0x008, 0, 24, .rw, 6144, 1, 0⟩
def Q_WM_LO_WM_LO_LEVEL : Fld := ⟨0x3F, 0, 63, 0x00C, 0, 24, .rw, 2048, 1, 0⟩
def Q_CMD_CLR_CNT : Fld := ⟨0x3F, 0, 63, 0x010, 4, 1, .wo, 0, 1, 0⟩
def Q_CMD_FLUSH : Fld := ⟨0x3F, 0, 63, 0x010, 3, 1, .wo, 0, 1, 0⟩
def Q_CMD_RELEASE : Fld := ⟨0x3F, 0, 63, 0x010, 2, 1, .wo, 0, 1, 0⟩
def Q_CMD_REWIND : Fld := ⟨0x3F, 0, 63, 0x010, 1, 1, .wo, 0, 1, 0⟩
def Q_CMD_MARK : Fld := ⟨0x3F, 0, 63, 0x010, 0, 1, .wo, 0, 1, 0⟩
def Q_STAT_ABOVE : Fld := ⟨0x3F, 0, 63, 0x014, 31, 1, .ro, 0, 1, 0⟩
def Q_STAT_FLUSH_BUSY : Fld := ⟨0x3F, 0, 63, 0x014, 30, 1, .ro, 0, 1, 0⟩
def Q_STAT_MARK_VALID : Fld := ⟨0x3F, 0, 63, 0x014, 29, 1, .ro, 0, 1, 0⟩
def Q_STAT_EMPTY : Fld := ⟨0x3F, 0, 63, 0x014, 28, 1, .ro, 1, 1, 0⟩
def Q_STAT_CUT : Fld := ⟨0x3F, 0, 63, 0x014, 27, 1, .ro, 0, 1, 0⟩
def Q_STAT_USED : Fld := ⟨0x3F, 0, 63, 0x014, 0, 24, .ro, 0, 1, 0⟩
def Q_FREE_FREE : Fld := ⟨0x3F, 0, 63, 0x018, 0, 24, .ro, 0, 1, 0⟩
def Q_RESV_RESV_UNITS : Fld := ⟨0x3F, 0, 63, 0x01C, 0, 24, .ro, 0, 1, 0⟩
def WR_PT : Fld := ⟨0x3F, 0, 63, 0x020, 0, 32, .ro, 0, 1, 0⟩
def RD_PT : Fld := ⟨0x3F, 0, 63, 0x024, 0, 32, .ro, 0, 1, 0⟩
def MARK_PT : Fld := ⟨0x3F, 0, 63, 0x028, 0, 32, .ro, 0, 1, 0⟩
def REL_PT : Fld := ⟨0x3F, 0, 63, 0x02C, 0, 32, .ro, 0, 1, 0⟩
def Q_CNT_A_WM_HI_COUNT : Fld := ⟨0x3F, 0, 63, 0x030, 16, 16, .ro, 0, 1, 0⟩
def Q_CNT_A_FLUSH_CUT : Fld := ⟨0x3F, 0, 63, 0x030, 0, 16, .ro, 0, 1, 0⟩
def Q_CNT_B_REWIND_CNT : Fld := ⟨0x3F, 0, 63, 0x034, 16, 16, .ro, 0, 1, 0⟩
def Q_CNT_B_IDLE_READS : Fld := ⟨0x3F, 0, 63, 0x034, 0, 16, .ro, 0, 1, 0⟩
def Q_ITEMS_ITEMS : Fld := ⟨0x3F, 0, 63, 0x038, 0, 24, .ro, 0, 1, 0⟩
def Q_EVT_Q_EVT_EN : Fld := ⟨0x3F, 0, 63, 0x03C, 16, 5, .rw, 0, 1, 0⟩
def Q_EVT_MARK_STALL : Fld := ⟨0x3F, 0, 63, 0x03C, 4, 1, .rw1c, 0, 1, 0⟩
def Q_EVT_NO_MARK : Fld := ⟨0x3F, 0, 63, 0x03C, 3, 1, .rw1c, 0, 1, 0⟩
def Q_EVT_FLUSH_DONE : Fld := ⟨0x3F, 0, 63, 0x03C, 2, 1, .rw1c, 0, 1, 0⟩
def Q_EVT_WM_LO : Fld := ⟨0x3F, 0, 63, 0x03C, 1, 1, .rw1c, 0, 1, 0⟩
def Q_EVT_WM_HI : Fld := ⟨0x3F, 0, 63, 0x03C, 0, 1, .rw1c, 0, 1, 0⟩
end Q

namespace Ingest
def PI_CFG_LINE_TIMEOUT : Fld := ⟨0x0B, 0, 15, 0x080, 16, 16, .rw, 1000, 1, 0⟩
def RX_UNITS : Fld := ⟨0x0B, 0, 15, 0x084, 0, 32, .ro, 0, 1, 0⟩
def VID_LIMIT : Fld := ⟨0x0B, 0, 15, 0x088, 0, 32, .ro, 0, 1, 0⟩
def LINES_IN : Fld := ⟨0x0B, 0, 15, 0x08C, 0, 32, .ro, 0, 1, 0⟩
def PI_CNT_A_INCOMPLETE_CNT : Fld := ⟨0x0B, 0, 15, 0x090, 16, 16, .ro, 0, 1, 0⟩
def PI_CNT_A_LOST_LINES_CNT : Fld := ⟨0x0B, 0, 15, 0x090, 0, 16, .ro, 0, 1, 0⟩
def PI_CNT_B_SEQ_ERR_CNT : Fld := ⟨0x0B, 0, 15, 0x094, 16, 16, .ro, 0, 1, 0⟩
def PI_CNT_B_TIMEOUT_CNT : Fld := ⟨0x0B, 0, 15, 0x094, 0, 16, .ro, 0, 1, 0⟩
def PI_CMD_CLR_CNT : Fld := ⟨0x0B, 0, 15, 0x098, 0, 1, .wo, 0, 1, 0⟩
def STAT_ASSEMBLING : Fld := ⟨0x0B, 0, 15, 0x010, 25, 1, .ro, 0, 1, 0⟩
def STAT_SWALLOWING : Fld := ⟨0x0B, 0, 15, 0x010, 24, 1, .ro, 0, 1, 0⟩
abbrev E_LINE_TIMEOUT : Nat := 4
abbrev E_SEQ_ERR : Nat := 3
abbrev E_LOST_LINES : Nat := 2
abbrev E_INCOMPLETE : Nat := 1
abbrev E_QUEUE : Nat := 0
abbrev F_FIFO_SBE : Nat := 2
abbrev F_FIFO_DBE : Nat := 1
abbrev F_PTR_ERR : Nat := 0
end Ingest

namespace Pos
def ENC_CFG_SPD_AVG_LOG2 : Fld := ⟨0x10, 0, 7, 0x040, 24, 3, .rw, 4, 1, 0⟩
def ENC_CFG_QERR_LIMIT : Fld := ⟨0x10, 0, 7, 0x040, 16, 8, .rw, 4, 1, 0⟩
def ENC_CFG_WIRE_TIME : Fld := ⟨0x10, 0, 7, 0x040, 8, 8, .rw, 2, 1, 0⟩
def ENC_CFG_LIMIT_EN : Fld := ⟨0x10, 0, 7, 0x040, 7, 1, .rw, 0, 1, 0⟩
def ENC_CFG_Z_QUAL : Fld := ⟨0x10, 0, 7, 0x040, 6, 1, .rw, 0, 1, 0⟩
def ENC_CFG_Z_MODE : Fld := ⟨0x10, 0, 7, 0x040, 4, 2, .rw, 0, 1, 0⟩
def ENC_CFG_DIR_INV : Fld := ⟨0x10, 0, 7, 0x040, 3, 1, .rw, 0, 1, 0⟩
def ENC_CFG_MODE : Fld := ⟨0x10, 0, 7, 0x040, 0, 2, .rw, 0, 1, 0⟩
def STOP_TIME : Fld := ⟨0x10, 0, 7, 0x044, 0, 16, .rw, 10000, 1, 0⟩
def HIST_CFG_HIST_EN : Fld := ⟨0x10, 0, 7, 0x048, 31, 1, .rw, 1, 1, 0⟩
def HIST_CFG_HIST_INTERVAL : Fld := ⟨0x10, 0, 7, 0x048, 0, 20, .rw, 100, 1, 0⟩
def SER_CFG_GRAY : Fld := ⟨0x10, 0, 7, 0x04C, 31, 1, .rw, 0, 1, 0⟩
def SER_CFG_SSI_ERRBIT : Fld := ⟨0x10, 0, 7, 0x04C, 30, 1, .rw, 0, 1, 0⟩
def SER_CFG_POS_BITS : Fld := ⟨0x10, 0, 7, 0x04C, 24, 6, .rw, 24, 1, 0⟩
def SER_CFG_SER_CLK_DIV : Fld := ⟨0x10, 0, 7, 0x04C, 0, 12, .rw, 99, 1, 0⟩
def SER_TIMING_SER_PERIOD : Fld := ⟨0x10, 0, 7, 0x050, 16, 16, .rw, 100, 1, 0⟩
def SER_TIMING_SAMPLE_DLY : Fld := ⟨0x10, 0, 7, 0x050, 8, 8, .rw, 0, 1, 0⟩
def SER_LATCH_LATCH_OFS : Fld := ⟨0x10, 0, 7, 0x054, 0, 16, .rw, 0, 1, 0⟩
def LIMIT_LO : Fld := ⟨0x10, 0, 7, 0x058, 0, 64, .rw, 0x8000000000000000, 1, 0⟩
def LIMIT_HI : Fld := ⟨0x10, 0, 7, 0x060, 0, 64, .rw, 0x7fffffffffffff00, 1, 0⟩
def REBASE_OFFSET : Fld := ⟨0x10, 0, 7, 0x068, 0, 64, .rw, 0, 1, 0⟩
def POS_CMD_ID_READ : Fld := ⟨0x10, 0, 7, 0x070, 5, 1, .wo, 0, 1, 0⟩
def POS_CMD_CLR_CNT : Fld := ⟨0x10, 0, 7, 0x070, 4, 1, .wo, 0, 1, 0⟩
def POS_CMD_Z_ARM : Fld := ⟨0x10, 0, 7, 0x070, 3, 1, .wo, 0, 1, 0⟩
def POS_CMD_CLR_SUSPECT : Fld := ⟨0x10, 0, 7, 0x070, 2, 1, .wo, 0, 1, 0⟩
def POS_CMD_CLR_EXCESS : Fld := ⟨0x10, 0, 7, 0x070, 1, 1, .wo, 0, 1, 0⟩
def POS_CMD_REBASE : Fld := ⟨0x10, 0, 7, 0x070, 0, 1, .wo, 0, 1, 0⟩
def POSITION : Fld := ⟨0x10, 0, 7, 0x078, 0, 64, .ro, 0, 1, 0⟩
def SPEED : Fld := ⟨0x10, 0, 7, 0x080, 0, 64, .ro, 0, 1, 0⟩
def SNAP_TIME : Fld := ⟨0x10, 0, 7, 0x088, 0, 128, .ro, 0, 1, 0⟩
def LIMIT_EXCESS : Fld := ⟨0x10, 0, 7, 0x098, 0, 64, .ro, 0, 1, 0⟩
def INDEX_POS : Fld := ⟨0x10, 0, 7, 0x0A0, 0, 64, .ro, 0, 1, 0⟩
def INDEX_TIME : Fld := ⟨0x10, 0, 7, 0x0A8, 0, 128, .ro, 0, 1, 0⟩
def HIST_SEQ : Fld := ⟨0x10, 0, 7, 0x0B8, 0, 32, .ro, 0, 1, 0⟩
def HIST_BASE : Fld := ⟨0x10, 0, 7, 0x0C0, 0, 64, .ro, 0, 1, 0⟩
def SER_BASE : Fld := ⟨0x10, 0, 7, 0x0C8, 0, 64, .ro, 0, 1, 0⟩
def SER_STAT_LAST_ERR : Fld := ⟨0x10, 0, 7, 0x0D0, 28, 4, .ro, 0, 1, 0⟩
def SER_STAT_LINE_DELAY : Fld := ⟨0x10, 0, 7, 0x0D0, 0, 16, .ro, 0, 1, 0⟩
def SER_RAW : Fld := ⟨0x10, 0, 7, 0x0D8, 0, 64, .ro, 0, 1, 0⟩
def CNT_A_ILLEGAL_CNT : Fld := ⟨0x10, 0, 7, 0x0E0, 16, 16, .ro, 0, 1, 0⟩
def CNT_A_BACKSTEP_CNT : Fld := ⟨0x10, 0, 7, 0x0E0, 0, 16, .ro, 0, 1, 0⟩
def CNT_B_SER_ERR_CNT : Fld := ⟨0x10, 0, 7, 0x0E4, 16, 16, .ro, 0, 1, 0⟩
def CNT_B_OVERSPEED_CNT : Fld := ⟨0x10, 0, 7, 0x0E4, 0, 16, .ro, 0, 1, 0⟩
def CNT_C_WIRE_CNT : Fld := ⟨0x10, 0, 7, 0x0E8, 16, 16, .ro, 0, 1, 0⟩
def CNT_C_REBASE_CNT : Fld := ⟨0x10, 0, 7, 0x0E8, 0, 16, .ro, 0, 1, 0⟩
def ID_CFG_ID_POLL : Fld := ⟨0x10, 0, 7, 0x0F0, 1, 1, .rw, 1, 1, 0⟩
def ID_CFG_ID_FAST : Fld := ⟨0x10, 0, 7, 0x0F0, 0, 1, .rw, 0, 1, 0⟩
def ID_STAT_PRESENT : Fld := ⟨0x10, 0, 7, 0x0F4, 31, 1, .ro, 0, 1, 0⟩
def ID_STAT_ID_VALID : Fld := ⟨0x10, 0, 7, 0x0F4, 30, 1, .ro, 0, 1, 0⟩
def ID_STAT_ID_BAD : Fld := ⟨0x10, 0, 7, 0x0F4, 29, 1, .ro, 0, 1, 0⟩
def ID_STAT_MODE_MISMATCH : Fld := ⟨0x10, 0, 7, 0x0F4, 28, 1, .ro, 0, 1, 0⟩
def ID_STAT_BUS_ERR : Fld := ⟨0x10, 0, 7, 0x0F4, 27, 1, .ro, 0, 1, 0⟩
def EPOCH_OFS : Fld := ⟨0x10, 0, 7, 0x100, 0, 64, .ro, 0, 16, 8⟩
def STAT_FAULT : Fld := ⟨0x10, 0, 7, 0x010, 25, 1, .ro, 0, 1, 0⟩
def STAT_POS_SUSPECT : Fld := ⟨0x10, 0, 7, 0x010, 24, 1, .ro, 0, 1, 0⟩
def STAT_STOPPED : Fld := ⟨0x10, 0, 7, 0x010, 23, 1, .ro, 0, 1, 0⟩
def STAT_DIR_NEG : Fld := ⟨0x10, 0, 7, 0x010, 22, 1, .ro, 0, 1, 0⟩
def STAT_AT_LIMIT_HI : Fld := ⟨0x10, 0, 7, 0x010, 21, 1, .ro, 0, 1, 0⟩
def STAT_AT_LIMIT_LO : Fld := ⟨0x10, 0, 7, 0x010, 20, 1, .ro, 0, 1, 0⟩
def STAT_WIRE_A : Fld := ⟨0x10, 0, 7, 0x010, 19, 1, .ro, 0, 1, 0⟩
def STAT_WIRE_B : Fld := ⟨0x10, 0, 7, 0x010, 18, 1, .ro, 0, 1, 0⟩
def STAT_WIRE_Z : Fld := ⟨0x10, 0, 7, 0x010, 17, 1, .ro, 0, 1, 0⟩
def STAT_LEVEL_A : Fld := ⟨0x10, 0, 7, 0x010, 16, 1, .ro, 0, 1, 0⟩
def STAT_LEVEL_B : Fld := ⟨0x10, 0, 7, 0x010, 15, 1, .ro, 0, 1, 0⟩
def STAT_LEVEL_Z : Fld := ⟨0x10, 0, 7, 0x010, 14, 1, .ro, 0, 1, 0⟩
def STAT_Z_ARMED : Fld := ⟨0x10, 0, 7, 0x010, 13, 1, .ro, 0, 1, 0⟩
def STAT_SER_HOLD : Fld := ⟨0x10, 0, 7, 0x010, 12, 1, .ro, 0, 1, 0⟩
def STAT_EPOCH : Fld := ⟨0x10, 0, 7, 0x010, 8, 4, .ro, 0, 1, 0⟩
abbrev E_ID_CHANGE : Nat := 13
abbrev E_ID_DONE : Nat := 12
abbrev E_REBASE_REFUSED : Nat := 11
abbrev E_REBASE_DONE : Nat := 10
abbrev E_SER_WARN : Nat := 9
abbrev E_SER_ERR : Nat := 8
abbrev E_OVERSPEED : Nat := 7
abbrev E_STOPPED : Nat := 6
abbrev E_INDEX : Nat := 5
abbrev E_LIMIT_LO : Nat := 4
abbrev E_LIMIT_HI : Nat := 3
abbrev E_WIRE : Nat := 2
abbrev E_QERR : Nat := 1
abbrev E_BACKSTEP : Nat := 0
abbrev F_LOCKSTEP : Nat := 5
abbrev F_HIST_DBE : Nat := 4
abbrev F_HIST_SBE : Nat := 3
abbrev F_SER_FAULT : Nat := 2
abbrev F_WIRE_FAULT : Nat := 1
abbrev F_QERR_FAULT : Nat := 0
end Pos

namespace Din
def DIN_CFG_WIRE_TIME : Fld := ⟨0x11, 0, 23, 0x080, 16, 8, .rw, 2, 1, 0⟩
def DIN_CFG_TC : Fld := ⟨0x11, 0, 23, 0x080, 9, 4, .rw, 0, 1, 0⟩
def DIN_CFG_TC_EN : Fld := ⟨0x11, 0, 23, 0x080, 8, 1, .rw, 0, 1, 0⟩
def DIN_CFG_POS_CH : Fld := ⟨0x11, 0, 23, 0x080, 5, 3, .rw, 0, 1, 0⟩
def DIN_CFG_POS_EN : Fld := ⟨0x11, 0, 23, 0x080, 4, 1, .rw, 0, 1, 0⟩
def DIN_CFG_EDGES : Fld := ⟨0x11, 0, 23, 0x080, 2, 2, .rw, 3, 1, 0⟩
def DIN_CFG_INV : Fld := ⟨0x11, 0, 23, 0x080, 1, 1, .rw, 0, 1, 0⟩
def DIN_CFG_DIFF : Fld := ⟨0x11, 0, 23, 0x080, 0, 1, .rw, 0, 1, 0⟩
def DEBOUNCE : Fld := ⟨0x11, 0, 23, 0x084, 0, 16, .rw, 0, 1, 0⟩
def DIN_CMD_CLR_CNT : Fld := ⟨0x11, 0, 23, 0x088, 0, 1, .wo, 0, 1, 0⟩
def EDGE_CNT : Fld := ⟨0x11, 0, 23, 0x08C, 0, 32, .ro, 0, 1, 0⟩
def DIN_CNT_EV_LOST_CNT : Fld := ⟨0x11, 0, 23, 0x090, 16, 16, .ro, 0, 1, 0⟩
def DIN_CNT_GLITCH_CNT : Fld := ⟨0x11, 0, 23, 0x090, 0, 16, .ro, 0, 1, 0⟩
def LAST_RISE : Fld := ⟨0x11, 0, 23, 0x0A0, 0, 128, .ro, 0, 1, 0⟩
def LAST_FALL : Fld := ⟨0x11, 0, 23, 0x0B0, 0, 128, .ro, 0, 1, 0⟩
def EV_ITEM : Fld := ⟨0x11, 0, 23, 0x0C0, 0, 32, .ro, 0, 8, 4⟩
def STAT_LEVEL : Fld := ⟨0x11, 0, 23, 0x010, 25, 1, .ro, 0, 1, 0⟩
def STAT_RAW : Fld := ⟨0x11, 0, 23, 0x010, 24, 1, .ro, 0, 1, 0⟩
def STAT_WIRE : Fld := ⟨0x11, 0, 23, 0x010, 23, 1, .ro, 0, 1, 0⟩
def STAT_PRECISE : Fld := ⟨0x11, 0, 23, 0x010, 22, 1, .ro, 0, 1, 0⟩
def STAT_DEBOUNCING : Fld := ⟨0x11, 0, 23, 0x010, 21, 1, .ro, 0, 1, 0⟩
abbrev E_EV_LOST : Nat := 4
abbrev E_WIRE : Nat := 3
abbrev E_FALL : Nat := 2
abbrev E_RISE : Nat := 1
abbrev E_QUEUE : Nat := 0
abbrev F_EV_SBE : Nat := 2
abbrev F_EV_DBE : Nat := 1
abbrev F_WIRE_FAULT : Nat := 0
end Din

namespace Out
def OUT_CFG_TC : Fld := ⟨0x12, 0, 31, 0x040, 16, 4, .rw, 0, 1, 0⟩
def OUT_CFG_FINE_EN : Fld := ⟨0x12, 0, 31, 0x040, 15, 1, .rw, 0, 1, 0⟩
def OUT_CFG_FORCE : Fld := ⟨0x12, 0, 31, 0x040, 10, 2, .rw, 0, 1, 0⟩
def OUT_CFG_SAFE : Fld := ⟨0x12, 0, 31, 0x040, 8, 2, .rw, 2, 1, 0⟩
def OUT_CFG_POL : Fld := ⟨0x12, 0, 31, 0x040, 1, 1, .rw, 0, 1, 0⟩
def OUT_CFG_ELEC : Fld := ⟨0x12, 0, 31, 0x040, 0, 1, .rw, 0, 1, 0⟩
def OUT_DELAY : Fld := ⟨0x12, 0, 31, 0x044, 0, 12, .rw, 0, 1, 0⟩
def OUT_CMD_CLR_CNT : Fld := ⟨0x12, 0, 31, 0x048, 1, 1, .wo, 0, 1, 0⟩
def OUT_CMD_SAFE_EXIT : Fld := ⟨0x12, 0, 31, 0x048, 0, 1, .wo, 0, 1, 0⟩
def PULSE_CNT : Fld := ⟨0x12, 0, 31, 0x04C, 0, 32, .ro, 0, 1, 0⟩
def OUT_CNT_MERGE_CNT : Fld := ⟨0x12, 0, 31, 0x050, 16, 16, .ro, 0, 1, 0⟩
def OUT_CNT_LOST_CNT : Fld := ⟨0x12, 0, 31, 0x050, 0, 16, .ro, 0, 1, 0⟩
def STAT_ACTIVE : Fld := ⟨0x12, 0, 31, 0x010, 25, 1, .ro, 0, 1, 0⟩
def STAT_SAFE_ACTIVE : Fld := ⟨0x12, 0, 31, 0x010, 24, 1, .ro, 0, 1, 0⟩
def STAT_READBACK : Fld := ⟨0x12, 0, 31, 0x010, 23, 1, .ro, 0, 1, 0⟩
abbrev E_SAFE_ENTERED : Nat := 2
abbrev E_MERGE : Nat := 1
abbrev E_LOST : Nat := 0
abbrev F_LOCKSTEP : Nat := 1
abbrev F_DRIVE_FAULT : Nat := 0
end Out

namespace Gen
def GEN_CFG_GATE_SRC : Fld := ⟨0x12, 32, 47, 0x040, 16, 5, .rw, 0, 1, 0⟩
def GEN_CFG_GATE_MODE : Fld := ⟨0x12, 32, 47, 0x040, 12, 2, .rw, 0, 1, 0⟩
def GEN_CFG_DIR : Fld := ⟨0x12, 32, 47, 0x040, 4, 1, .rw, 0, 1, 0⟩
def GEN_CFG_CH : Fld := ⟨0x12, 32, 47, 0x040, 0, 3, .rw, 0, 1, 0⟩
def NUM : Fld := ⟨0x12, 32, 47, 0x044, 0, 32, .rw, 1, 1, 0⟩
def DEN : Fld := ⟨0x12, 32, 47, 0x048, 0, 32, .rw, 1, 1, 0⟩
def START_POS : Fld := ⟨0x12, 32, 47, 0x050, 0, 64, .rw, 0, 1, 0⟩
def PHASE : Fld := ⟨0x12, 32, 47, 0x058, 0, 64, .rw, 0, 1, 0⟩
def LINES_PER_GATE : Fld := ⟨0x12, 32, 47, 0x060, 0, 32, .rw, 0, 1, 0⟩
def MIN_PERIOD : Fld := ⟨0x12, 32, 47, 0x064, 0, 16, .rw, 0, 1, 0⟩
def GEN_OUT_MASK : Fld := ⟨0x12, 32, 47, 0x068, 0, 32, .rw, 0, 1, 0⟩
def GEN_PW : Fld := ⟨0x12, 32, 47, 0x06C, 0, 24, .rw, 0, 1, 0⟩
def GEN_CMD_CLR_CNT : Fld := ⟨0x12, 32, 47, 0x070, 2, 1, .wo, 0, 1, 0⟩
def GEN_CMD_CLOSE : Fld := ⟨0x12, 32, 47, 0x070, 1, 1, .wo, 0, 1, 0⟩
def GEN_CMD_OPEN : Fld := ⟨0x12, 32, 47, 0x070, 0, 1, .wo, 0, 1, 0⟩
def NEXT_POS : Fld := ⟨0x12, 32, 47, 0x078, 0, 64, .ro, 0, 1, 0⟩
def LINE_CNT : Fld := ⟨0x12, 32, 47, 0x080, 0, 32, .ro, 0, 1, 0⟩
def LAST_LINE_POS : Fld := ⟨0x12, 32, 47, 0x088, 0, 64, .ro, 0, 1, 0⟩
def LAST_LINE_TIME : Fld := ⟨0x12, 32, 47, 0x090, 0, 128, .ro, 0, 1, 0⟩
def GEN_CNT_SKIP_CNT : Fld := ⟨0x12, 32, 47, 0x0A0, 16, 16, .ro, 0, 1, 0⟩
def GEN_CNT_PORT_DISCARD_CNT : Fld := ⟨0x12, 32, 47, 0x0A0, 0, 16, .ro, 0, 1, 0⟩
def STAT_OPEN : Fld := ⟨0x12, 32, 47, 0x010, 25, 1, .ro, 0, 1, 0⟩
def STAT_HOLD : Fld := ⟨0x12, 32, 47, 0x010, 24, 1, .ro, 0, 1, 0⟩
abbrev E_GATE_MISMATCH : Nat := 5
abbrev E_GATE_OVERRUN : Nat := 4
abbrev E_GATE_OPEN : Nat := 3
abbrev E_GATE_CLOSE : Nat := 2
abbrev E_TOO_FAST : Nat := 1
abbrev E_PORT_DISCARD : Nat := 0
abbrev F_LOCKSTEP : Nat := 0
end Gen

namespace Cs
def CS_CFG_ARM_IN : Fld := ⟨0x13, 0, 31, 0x040, 24, 5, .rw, 0, 1, 0⟩
def CS_CFG_ARM : Fld := ⟨0x13, 0, 31, 0x040, 20, 2, .rw, 0, 1, 0⟩
def CS_CFG_GEN_SRC : Fld := ⟨0x13, 0, 31, 0x040, 16, 4, .rw, 0, 1, 0⟩
def CS_CFG_MODE : Fld := ⟨0x13, 0, 31, 0x040, 9, 1, .rw, 0, 1, 0⟩
def CS_CFG_SRC : Fld := ⟨0x13, 0, 31, 0x040, 8, 1, .rw, 0, 1, 0⟩
def CS_CFG_DIR : Fld := ⟨0x13, 0, 31, 0x040, 4, 1, .rw, 0, 1, 0⟩
def CS_CFG_CH : Fld := ⟨0x13, 0, 31, 0x040, 0, 3, .rw, 0, 1, 0⟩
def START_IDX : Fld := ⟨0x13, 0, 31, 0x044, 0, 17, .rw, 0, 1, 0⟩
def LOOP_IDX : Fld := ⟨0x13, 0, 31, 0x048, 0, 17, .rw, 0, 1, 0⟩
def BASE : Fld := ⟨0x13, 0, 31, 0x050, 0, 64, .rw, 0, 1, 0⟩
def LOOP_STEP : Fld := ⟨0x13, 0, 31, 0x058, 0, 64, .rw, 0, 1, 0⟩
def OUT_SLOT_EN : Fld := ⟨0x13, 0, 31, 0x060, 31, 1, .rw, 0, 8, 4⟩
def OUT_SLOT_KIND : Fld := ⟨0x13, 0, 31, 0x060, 30, 1, .rw, 0, 8, 4⟩
def OUT_SLOT_TARGET : Fld := ⟨0x13, 0, 31, 0x060, 16, 5, .rw, 0, 8, 4⟩
def OUT_SLOT_ACTION : Fld := ⟨0x13, 0, 31, 0x060, 8, 8, .rw, 0, 8, 4⟩
def OUT_SLOT_OUT : Fld := ⟨0x13, 0, 31, 0x060, 0, 8, .rw, 0, 8, 4⟩
def PW : Fld := ⟨0x13, 0, 31, 0x080, 0, 24, .rw, 0, 8, 4⟩
def AVAIL_PT : Fld := ⟨0x13, 0, 31, 0x0A0, 0, 32, .rw, 0, 1, 0⟩
def LOAD_PT : Fld := ⟨0x13, 0, 31, 0x0A4, 0, 32, .ro, 0, 1, 0⟩
def CS_CMD_CLR_CNT : Fld := ⟨0x13, 0, 31, 0x0A8, 3, 1, .wo, 0, 1, 0⟩
def CS_CMD_RELOAD : Fld := ⟨0x13, 0, 31, 0x0A8, 2, 1, .wo, 0, 1, 0⟩
def CS_CMD_STOP : Fld := ⟨0x13, 0, 31, 0x0A8, 1, 1, .wo, 0, 1, 0⟩
def CS_CMD_ARM : Fld := ⟨0x13, 0, 31, 0x0A8, 0, 1, .wo, 0, 1, 0⟩
def LAST_FIRE_POS : Fld := ⟨0x13, 0, 31, 0x0B0, 0, 64, .ro, 0, 1, 0⟩
def LAST_FIRE_TIME : Fld := ⟨0x13, 0, 31, 0x0C0, 0, 128, .ro, 0, 1, 0⟩
def CS_CNT_A_MISSED : Fld := ⟨0x13, 0, 31, 0x0D0, 16, 16, .ro, 0, 1, 0⟩
def CS_CNT_A_ARM_OVERRUN : Fld := ⟨0x13, 0, 31, 0x0D0, 0, 16, .ro, 0, 1, 0⟩
def FIRED_CNT : Fld := ⟨0x13, 0, 31, 0x0D4, 0, 32, .ro, 0, 1, 0⟩
def CS_CNT_B_PORT_DISCARD_CNT : Fld := ⟨0x13, 0, 31, 0x0D8, 16, 16, .ro, 0, 1, 0⟩
def CS_CNT_B_VOX_REFUSED_CNT : Fld := ⟨0x13, 0, 31, 0x0D8, 0, 16, .ro, 0, 1, 0⟩
def LAST_FIRE_IDX : Fld := ⟨0x13, 0, 31, 0x0DC, 0, 17, .ro, 0, 1, 0⟩
def NEXT_ENTRY : Fld := ⟨0x13, 0, 31, 0x0E0, 0, 64, .ro, 0, 1, 0⟩
def STAT_STATE : Fld := ⟨0x13, 0, 31, 0x010, 23, 3, .ro, 0, 1, 0⟩
def STAT_LATCHED : Fld := ⟨0x13, 0, 31, 0x010, 22, 1, .ro, 0, 1, 0⟩
abbrev E_FIRE : Nat := 7
abbrev E_COMPARE_MISS : Nat := 6
abbrev E_DONE : Nat := 5
abbrev E_ARM_OVERRUN : Nat := 4
abbrev E_RANGE_END : Nat := 3
abbrev E_BAD_ENTRY : Nat := 2
abbrev E_STARVED : Nat := 1
abbrev E_PORT_DISCARD : Nat := 0
abbrev F_LOCKSTEP : Nat := 2
abbrev F_CL_DBE : Nat := 1
abbrev F_CL_SBE : Nat := 0
end Cs

namespace Tu
def TIME : Fld := ⟨0x14, 0, 0, 0x040, 0, 128, .ro, 0, 1, 0⟩
def INCR : Fld := ⟨0x14, 0, 0, 0x050, 0, 48, .rw, 0x147ae147ae1, 1, 0⟩
def STEP_MAG : Fld := ⟨0x14, 0, 0, 0x060, 0, 128, .rw, 0, 1, 0⟩
def TU_CMD_CLR_CNT : Fld := ⟨0x14, 0, 0, 0x070, 2, 1, .wo, 0, 1, 0⟩
def TU_CMD_STEP_BACK : Fld := ⟨0x14, 0, 0, 0x070, 1, 1, .wo, 0, 1, 0⟩
def TU_CMD_STEP_FWD : Fld := ⟨0x14, 0, 0, 0x070, 0, 1, .wo, 0, 1, 0⟩
def INCR_TIME : Fld := ⟨0x14, 0, 0, 0x080, 0, 128, .ro, 0, 1, 0⟩
def STEP_TIME : Fld := ⟨0x14, 0, 0, 0x090, 0, 128, .ro, 0, 1, 0⟩
def TU_CNT_STEP_CNT : Fld := ⟨0x14, 0, 0, 0x0A0, 16, 16, .ro, 0, 1, 0⟩
def TU_CNT_INCR_CNT : Fld := ⟨0x14, 0, 0, 0x0A0, 0, 16, .ro, 0, 1, 0⟩
def CAP_MAP_HELD : Fld := ⟨0x14, 0, 0, 0x0A4, 0, 16, .ro, 0, 1, 0⟩
abbrev E_STEP_REFUSED : Nat := 1
abbrev E_STEPPED : Nat := 0
abbrev F_TB_LOCKSTEP : Nat := 1
abbrev F_REFCLK_LOSS : Nat := 0
end Tu

namespace Ta
def TA_CFG_EXPOSE_LEAD : Fld := ⟨0x15, 0, 0, 0x040, 0, 16, .rw, 50, 1, 0⟩
def TA_CMD_CLR_CNT : Fld := ⟨0x15, 0, 0, 0x044, 0, 1, .wo, 0, 1, 0⟩
def EXEC_CNT : Fld := ⟨0x15, 0, 0, 0x048, 0, 32, .ro, 0, 1, 0⟩
def TA_CNT_A_LATE_CNT : Fld := ⟨0x15, 0, 0, 0x04C, 16, 16, .ro, 0, 1, 0⟩
def TA_CNT_A_LATE_RUN_CNT : Fld := ⟨0x15, 0, 0, 0x04C, 0, 16, .ro, 0, 1, 0⟩
def TA_CNT_B_SKIP_CNT : Fld := ⟨0x15, 0, 0, 0x050, 16, 16, .ro, 0, 1, 0⟩
def TA_CNT_B_REFUSED_CNT : Fld := ⟨0x15, 0, 0, 0x050, 0, 16, .ro, 0, 1, 0⟩
def TA_STAT_PENDING : Fld := ⟨0x15, 0, 0, 0x054, 16, 13, .ro, 0, 1, 0⟩
def TA_STAT_LAST_LATE_IDX : Fld := ⟨0x15, 0, 0, 0x054, 0, 12, .ro, 0, 1, 0⟩
abbrev E_REFUSED : Nat := 2
abbrev E_LATE_RUN : Nat := 1
abbrev E_LATE : Nat := 0
abbrev F_TA_DBE : Nat := 1
abbrev F_TA_SBE : Nat := 0
end Ta

namespace Eth
def ETH_CFG_TX_Q : Fld := ⟨0x16, 0, 1, 0x040, 24, 6, .rw, 0, 1, 0⟩
def ETH_CFG_RX_Q : Fld := ⟨0x16, 0, 1, 0x040, 16, 8, .rw, 0, 1, 0⟩
def ETH_CFG_ID_FAST : Fld := ⟨0x16, 0, 1, 0x040, 4, 1, .rw, 0, 1, 0⟩
def ETH_CFG_PROMISC : Fld := ⟨0x16, 0, 1, 0x040, 3, 1, .rw, 0, 1, 0⟩
def ETH_CFG_FEC : Fld := ⟨0x16, 0, 1, 0x040, 1, 1, .rw, 0, 1, 0⟩
def ETH_CFG_SPEED : Fld := ⟨0x16, 0, 1, 0x040, 0, 1, .rw, 1, 1, 0⟩
def MAX_FRAME : Fld := ⟨0x16, 0, 1, 0x044, 0, 14, .rw, 1522, 1, 0⟩
def MAC_ADDR : Fld := ⟨0x16, 0, 1, 0x048, 0, 48, .rw, 0, 1, 0⟩
def PTP_CFG_DOMAIN : Fld := ⟨0x16, 0, 1, 0x050, 24, 8, .rw, 0, 1, 0⟩
def PTP_CFG_LOG_INTERVAL : Fld := ⟨0x16, 0, 1, 0x050, 20, 4, .rw, 0, 1, 0⟩
def PTP_CFG_TRANSPORT : Fld := ⟨0x16, 0, 1, 0x050, 18, 2, .rw, 0, 1, 0⟩
def PTP_CFG_INIT_EN : Fld := ⟨0x16, 0, 1, 0x050, 17, 1, .rw, 0, 1, 0⟩
def PTP_CFG_RESP_EN : Fld := ⟨0x16, 0, 1, 0x050, 16, 1, .rw, 0, 1, 0⟩
def PTP_CFG_SYNC_TIMEOUT : Fld := ⟨0x16, 0, 1, 0x050, 0, 16, .rw, 3000, 1, 0⟩
def PORT_NUM : Fld := ⟨0x16, 0, 1, 0x054, 0, 16, .rw, 1, 1, 0⟩
def CLOCK_ID : Fld := ⟨0x16, 0, 1, 0x058, 0, 64, .rw, 0, 1, 0⟩
def MASTER_CLOCK : Fld := ⟨0x16, 0, 1, 0x060, 0, 64, .rw, 0, 1, 0⟩
def MASTER_PORT_WATCH_EN : Fld := ⟨0x16, 0, 1, 0x068, 31, 1, .rw, 0, 1, 0⟩
def MASTER_PORT_PORT_NUM : Fld := ⟨0x16, 0, 1, 0x068, 0, 16, .rw, 0, 1, 0⟩
def DELAY_ASYM : Fld := ⟨0x16, 0, 1, 0x06C, 0, 32, .rw, 0, 1, 0⟩
def GM_SEEN : Fld := ⟨0x16, 0, 1, 0x070, 0, 64, .ro, 0, 1, 0⟩
def PD_STEP_LIMIT : Fld := ⟨0x16, 0, 1, 0x078, 0, 32, .rw, 655360, 1, 0⟩
def PD_POST : Fld := ⟨0x16, 0, 1, 0x080, 0, 64, .wo, 0, 1, 0⟩
def PATH_DELAY : Fld := ⟨0x16, 0, 1, 0x088, 0, 64, .ro, 0, 1, 0⟩
def D_GOOD : Fld := ⟨0x16, 0, 1, 0x090, 0, 64, .ro, 0, 1, 0⟩
def DLY : Fld := ⟨0x16, 0, 1, 0x098, 0, 32, .rw, 0, 6, 4⟩
def ETH_CMD_CLR_CNT : Fld := ⟨0x16, 0, 1, 0x0B0, 2, 1, .wo, 0, 1, 0⟩
def ETH_CMD_ID_READ : Fld := ⟨0x16, 0, 1, 0x0B0, 1, 1, .wo, 0, 1, 0⟩
def ETH_CMD_PD_ACK : Fld := ⟨0x16, 0, 1, 0x0B0, 0, 1, .wo, 0, 1, 0⟩
def ETH_CNT_A_RX_ERR_CNT : Fld := ⟨0x16, 0, 1, 0x0B4, 16, 16, .ro, 0, 1, 0⟩
def ETH_CNT_A_RX_DROP_CNT : Fld := ⟨0x16, 0, 1, 0x0B4, 0, 16, .ro, 0, 1, 0⟩
def ETH_CNT_B_PDELAY_LOST_CNT : Fld := ⟨0x16, 0, 1, 0x0B8, 16, 16, .ro, 0, 1, 0⟩
def ETH_CNT_B_PDELAY_RESP_CNT : Fld := ⟨0x16, 0, 1, 0x0B8, 0, 16, .ro, 0, 1, 0⟩
def SFP_STAT_PRESENT : Fld := ⟨0x16, 0, 1, 0x0BC, 31, 1, .ro, 0, 1, 0⟩
def SFP_STAT_ID_VALID : Fld := ⟨0x16, 0, 1, 0x0BC, 30, 1, .ro, 0, 1, 0⟩
def SFP_STAT_ID_BAD : Fld := ⟨0x16, 0, 1, 0x0BC, 29, 1, .ro, 0, 1, 0⟩
def SFP_STAT_RATE_MISMATCH : Fld := ⟨0x16, 0, 1, 0x0BC, 28, 1, .ro, 0, 1, 0⟩
def SFP_STAT_LOS : Fld := ⟨0x16, 0, 1, 0x0BC, 27, 1, .ro, 0, 1, 0⟩
def SFP_STAT_TX_FAULT : Fld := ⟨0x16, 0, 1, 0x0BC, 26, 1, .ro, 0, 1, 0⟩
def SFP_STAT_BUS_ERR : Fld := ⟨0x16, 0, 1, 0x0BC, 25, 1, .ro, 0, 1, 0⟩
def STAT_LINK_UP : Fld := ⟨0x16, 0, 1, 0x010, 25, 1, .ro, 0, 1, 0⟩
def STAT_HOLDOVER : Fld := ⟨0x16, 0, 1, 0x010, 24, 1, .ro, 0, 1, 0⟩
def STAT_PD_STEP_PENDING : Fld := ⟨0x16, 0, 1, 0x010, 23, 1, .ro, 0, 1, 0⟩
def STAT_D_GOOD_VALID : Fld := ⟨0x16, 0, 1, 0x010, 22, 1, .ro, 0, 1, 0⟩
abbrev E_ID_CHANGE : Nat := 9
abbrev E_ID_DONE : Nat := 8
abbrev E_MULTI_RESP : Nat := 7
abbrev E_PD_STEP : Nat := 6
abbrev E_GM_CHANGE : Nat := 5
abbrev E_MASTER_LOST : Nat := 4
abbrev E_RX_DROP : Nat := 3
abbrev E_LINK_DOWN : Nat := 2
abbrev E_LINK_UP : Nat := 1
abbrev F_HS_WDOG : Nat := 2
abbrev F_BUF_DBE : Nat := 1
abbrev F_BUF_SBE : Nat := 0
end Eth

namespace Vox
def VOX_CFG_VOX_ETYPE : Fld := ⟨0x17, 0, 0, 0x040, 16, 16, .rw, 34997, 1, 0⟩
def VOX_CFG_DOMAIN : Fld := ⟨0x17, 0, 0, 0x040, 8, 8, .rw, 0, 1, 0⟩
def VOX_ID_NODE_ID : Fld := ⟨0x17, 0, 0, 0x044, 0, 16, .rw, 0, 1, 0⟩
def VOX_MCAST : Fld := ⟨0x17, 0, 0, 0x048, 0, 48, .rw, 0x300564f5800, 1, 0⟩
def VOX_VLAN_VLAN_EN : Fld := ⟨0x17, 0, 0, 0x050, 31, 1, .rw, 0, 1, 0⟩
def VOX_VLAN_VLAN_PCP : Fld := ⟨0x17, 0, 0, 0x050, 12, 3, .rw, 0, 1, 0⟩
def VOX_VLAN_VLAN_VID : Fld := ⟨0x17, 0, 0, 0x050, 0, 12, .rw, 0, 1, 0⟩
def VOX_RETRY_RETRIES : Fld := ⟨0x17, 0, 0, 0x054, 16, 3, .rw, 3, 1, 0⟩
def VOX_RETRY_RETRY_TIME : Fld := ⟨0x17, 0, 0, 0x054, 0, 16, .rw, 1000, 1, 0⟩
def VOX_CMD_CLR_CNT : Fld := ⟨0x17, 0, 0, 0x058, 0, 1, .wo, 0, 1, 0⟩
def SENT_CNT : Fld := ⟨0x17, 0, 0, 0x05C, 0, 32, .ro, 0, 1, 0⟩
def VOX_CNT_A_REFUSED_CNT : Fld := ⟨0x17, 0, 0, 0x060, 16, 16, .ro, 0, 1, 0⟩
def VOX_CNT_A_VERDICT_DROP_CNT : Fld := ⟨0x17, 0, 0, 0x060, 0, 16, .ro, 0, 1, 0⟩
def VOX_CNT_B_NOACK_CNT : Fld := ⟨0x17, 0, 0, 0x064, 16, 16, .ro, 0, 1, 0⟩
def VOX_CNT_B_DUP_CNT : Fld := ⟨0x17, 0, 0, 0x064, 0, 16, .ro, 0, 1, 0⟩
def LAST_NOACK_SEQ : Fld := ⟨0x17, 0, 0, 0x068, 16, 16, .ro, 0, 1, 0⟩
def LAST_NOACK_DST : Fld := ⟨0x17, 0, 0, 0x068, 0, 16, .ro, 0, 1, 0⟩
def VOX_STAT_QUEUED : Fld := ⟨0x17, 0, 0, 0x06C, 0, 9, .ro, 0, 1, 0⟩
abbrev E_NO_ACK : Nat := 1
abbrev E_VOX_REFUSED : Nat := 0
abbrev F_VT_DBE : Nat := 1
abbrev F_VT_SBE : Nat := 0
end Vox

namespace Lcu
def LCU_CFG_FMT_EXP : Fld := ⟨0x0C, 0, 15, 0x040, 16, 16, .rw, 3, 1, 0⟩
def LCU_CFG_SUB_REACH : Fld := ⟨0x0C, 0, 15, 0x040, 8, 4, .rw, 2, 1, 0⟩
def LCU_CFG_INC_USE : Fld := ⟨0x0C, 0, 15, 0x040, 4, 1, .rw, 0, 1, 0⟩
def LCU_CFG_AREA : Fld := ⟨0x0C, 0, 15, 0x040, 3, 1, .rw, 0, 1, 0⟩
def LCU_CFG_SCREED_EN : Fld := ⟨0x0C, 0, 15, 0x040, 2, 1, .rw, 1, 1, 0⟩
def LCU_CFG_MATRIX_EN : Fld := ⟨0x0C, 0, 15, 0x040, 1, 1, .rw, 1, 1, 0⟩
def LCU_CFG_SIZING_EN : Fld := ⟨0x0C, 0, 15, 0x040, 0, 1, .rw, 1, 1, 0⟩
def LCU_WIDTH_WIDTH : Fld := ⟨0x0C, 0, 15, 0x044, 0, 17, .rw, 32768, 1, 0⟩
def ROW_DELAY_DELAY_B : Fld := ⟨0x0C, 0, 15, 0x048, 8, 4, .rw, 0, 1, 0⟩
def ROW_DELAY_DELAY_G : Fld := ⟨0x0C, 0, 15, 0x048, 4, 4, .rw, 0, 1, 0⟩
def ROW_DELAY_DELAY_R : Fld := ⟨0x0C, 0, 15, 0x048, 0, 4, .rw, 0, 1, 0⟩
def SCR_CFG_GAP_LIMIT : Fld := ⟨0x0C, 0, 15, 0x04C, 24, 8, .rw, 4, 1, 0⟩
def SCR_CFG_DIR : Fld := ⟨0x0C, 0, 15, 0x04C, 4, 1, .rw, 0, 1, 0⟩
def SCR_CFG_SCR_CH : Fld := ⟨0x0C, 0, 15, 0x04C, 0, 3, .rw, 0, 1, 0⟩
def GRID_NUM : Fld := ⟨0x0C, 0, 15, 0x050, 0, 32, .rw, 1, 1, 0⟩
def GRID_DEN : Fld := ⟨0x0C, 0, 15, 0x054, 0, 32, .rw, 1, 1, 0⟩
def SCR_OFFSET : Fld := ⟨0x0C, 0, 15, 0x058, 0, 64, .rw, 0, 1, 0⟩
def HIST_REGION_REGION : Fld := ⟨0x0C, 0, 15, 0x060, 0, 6, .rw, 0, 1, 0⟩
def LCU_CMD_CLR_CNT : Fld := ⟨0x0C, 0, 15, 0x064, 2, 1, .wo, 0, 1, 0⟩
def LCU_CMD_MTX_COMMIT : Fld := ⟨0x0C, 0, 15, 0x064, 1, 1, .wo, 0, 1, 0⟩
def LCU_CMD_BANK_SWITCH : Fld := ⟨0x0C, 0, 15, 0x064, 0, 1, .wo, 0, 1, 0⟩
def MTX0_M01 : Fld := ⟨0x0C, 0, 15, 0x070, 16, 16, .rw, 0, 1, 0⟩
def MTX0_M00 : Fld := ⟨0x0C, 0, 15, 0x070, 0, 16, .rw, 4096, 1, 0⟩
def MTX1_M10 : Fld := ⟨0x0C, 0, 15, 0x074, 16, 16, .rw, 0, 1, 0⟩
def MTX1_M02 : Fld := ⟨0x0C, 0, 15, 0x074, 0, 16, .rw, 0, 1, 0⟩
def MTX2_M12 : Fld := ⟨0x0C, 0, 15, 0x078, 16, 16, .rw, 0, 1, 0⟩
def MTX2_M11 : Fld := ⟨0x0C, 0, 15, 0x078, 0, 16, .rw, 4096, 1, 0⟩
def MTX3_M21 : Fld := ⟨0x0C, 0, 15, 0x07C, 16, 16, .rw, 0, 1, 0⟩
def MTX3_M20 : Fld := ⟨0x0C, 0, 15, 0x07C, 0, 16, .rw, 0, 1, 0⟩
def MTX4_M22 : Fld := ⟨0x0C, 0, 15, 0x080, 0, 16, .rw, 4096, 1, 0⟩
def MOFS0_O1 : Fld := ⟨0x0C, 0, 15, 0x084, 16, 16, .rw, 0, 1, 0⟩
def MOFS0_O0 : Fld := ⟨0x0C, 0, 15, 0x084, 0, 16, .rw, 0, 1, 0⟩
def MOFS1_O2 : Fld := ⟨0x0C, 0, 15, 0x088, 0, 16, .rw, 0, 1, 0⟩
def LINES_IN : Fld := ⟨0x0C, 0, 15, 0x090, 0, 32, .ro, 0, 1, 0⟩
def TILES_OUT : Fld := ⟨0x0C, 0, 15, 0x094, 0, 32, .ro, 0, 1, 0⟩
def CLIP_CNT : Fld := ⟨0x0C, 0, 15, 0x098, 0, 32, .ro, 0, 1, 0⟩
def CNT_A_NO_POS_CNT : Fld := ⟨0x0C, 0, 15, 0x09C, 16, 16, .ro, 0, 1, 0⟩
def CNT_A_INC_DROP_CNT : Fld := ⟨0x0C, 0, 15, 0x09C, 0, 16, .ro, 0, 1, 0⟩
def CNT_B_STILL_CNT : Fld := ⟨0x0C, 0, 15, 0x0A0, 16, 16, .ro, 0, 1, 0⟩
def CNT_B_GAP_CNT : Fld := ⟨0x0C, 0, 15, 0x0A0, 0, 16, .ro, 0, 1, 0⟩
def CNT_C_FMT_ERR_CNT : Fld := ⟨0x0C, 0, 15, 0x0A4, 16, 16, .ro, 0, 1, 0⟩
def CNT_C_SUB_FAIL_CNT : Fld := ⟨0x0C, 0, 15, 0x0A4, 0, 16, .ro, 0, 1, 0⟩
def CNT_D_OUTSIDE_CNT : Fld := ⟨0x0C, 0, 15, 0x0A8, 16, 16, .ro, 0, 1, 0⟩
def CNT_D_REREAD_CNT : Fld := ⟨0x0C, 0, 15, 0x0A8, 0, 16, .ro, 0, 1, 0⟩
def LAST_LINE_POS : Fld := ⟨0x0C, 0, 15, 0x0B0, 0, 64, .ro, 0, 1, 0⟩
def NEXT_GRID_POS : Fld := ⟨0x0C, 0, 15, 0x0B8, 0, 64, .ro, 0, 1, 0⟩
def STAT_BANK_ACTIVE : Fld := ⟨0x0C, 0, 15, 0x010, 25, 1, .ro, 0, 1, 0⟩
def STAT_BANK_PENDING : Fld := ⟨0x0C, 0, 15, 0x010, 24, 1, .ro, 0, 1, 0⟩
def STAT_MTX_PENDING : Fld := ⟨0x0C, 0, 15, 0x010, 23, 1, .ro, 0, 1, 0⟩
def STAT_IN_SEGMENT : Fld := ⟨0x0C, 0, 15, 0x010, 22, 1, .ro, 0, 1, 0⟩
def STAT_HOLD : Fld := ⟨0x0C, 0, 15, 0x010, 21, 1, .ro, 0, 1, 0⟩
def STAT_HIST_WAIT : Fld := ⟨0x0C, 0, 15, 0x010, 20, 1, .ro, 0, 1, 0⟩
def STAT_FRAME_OPEN : Fld := ⟨0x0C, 0, 15, 0x010, 19, 1, .ro, 0, 1, 0⟩
def STAT_REREADING : Fld := ⟨0x0C, 0, 15, 0x010, 18, 1, .ro, 0, 1, 0⟩
abbrev E_HOLD : Nat := 7
abbrev E_FRAME_ABORTED : Nat := 6
abbrev E_MTX_APPLIED : Nat := 5
abbrev E_BANK_SWITCHED : Nat := 4
abbrev E_SUB_FAIL : Nat := 3
abbrev E_FMT_ERR : Nat := 2
abbrev E_GAP : Nat := 1
abbrev E_NO_POS : Nat := 0
abbrev F_HS_WDOG : Nat := 4
abbrev F_BUF_DBE : Nat := 3
abbrev F_BUF_SBE : Nat := 2
abbrev F_TBL_DBE : Nat := 1
abbrev F_TBL_SBE : Nat := 0
end Lcu

namespace Ri
def PROF_BASE_OFFSET : Fld := ⟨0x0E, 0, 0, 0x040, 8, 24, .rw, 0, 1, 0⟩
def PROF_BASE_REGION : Fld := ⟨0x0E, 0, 0, 0x040, 0, 6, .rw, 0, 1, 0⟩
def RI_CMD_CLR_CNT : Fld := ⟨0x0E, 0, 0, 0x044, 0, 1, .wo, 0, 1, 0⟩
def PROF_VALID : Fld := ⟨0x0E, 0, 0, 0x048, 0, 64, .ro, 0, 1, 0⟩
def PROF_BUSY : Fld := ⟨0x0E, 0, 0, 0x050, 0, 64, .ro, 0, 1, 0⟩
def RI_CNT_A_REFUSED_CNT : Fld := ⟨0x0E, 0, 0, 0x058, 16, 16, .ro, 0, 1, 0⟩
def RI_CNT_A_SEG_WAIT_CNT : Fld := ⟨0x0E, 0, 0, 0x058, 0, 16, .ro, 0, 1, 0⟩
def RI_CNT_B_SPACE_WAIT_CNT : Fld := ⟨0x0E, 0, 0, 0x05C, 16, 16, .ro, 0, 1, 0⟩
def RI_CNT_B_THOKEN_ERR_CNT : Fld := ⟨0x0E, 0, 0, 0x05C, 0, 16, .ro, 0, 1, 0⟩
def TILES_IN : Fld := ⟨0x0E, 0, 0, 0x060, 0, 32, .ro, 0, 1, 0⟩
def LAST_REFUSE_STATUS : Fld := ⟨0x0E, 0, 0, 0x064, 24, 8, .ro, 0, 1, 0⟩
def LAST_REFUSE_QUEUE : Fld := ⟨0x0E, 0, 0, 0x064, 16, 6, .ro, 0, 1, 0⟩
def RA_BASE_OFFSET : Fld := ⟨0x0E, 0, 0, 0x080, 8, 24, .rw, 0, 16, 16⟩
def RA_BASE_REGION : Fld := ⟨0x0E, 0, 0, 0x080, 0, 6, .rw, 0, 16, 16⟩
def RA_SIZE_SIZE : Fld := ⟨0x0E, 0, 0, 0x084, 0, 24, .rw, 0, 16, 16⟩
def RA_USED_USED : Fld := ⟨0x0E, 0, 0, 0x088, 0, 24, .ro, 0, 16, 16⟩
def RA_STAT_LOADING : Fld := ⟨0x0E, 0, 0, 0x08C, 31, 1, .ro, 0, 16, 16⟩
def RA_STAT_NEXT_COL : Fld := ⟨0x0E, 0, 0, 0x08C, 16, 9, .ro, 0, 16, 16⟩
def RA_STAT_NEXT_ROW : Fld := ⟨0x0E, 0, 0, 0x08C, 0, 9, .ro, 0, 16, 16⟩
def RA_SEL_SEL_EN : Fld := ⟨0x0E, 0, 0, 0x180, 31, 1, .rw, 0, 16, 4⟩
def RA_SEL_AREA : Fld := ⟨0x0E, 0, 0, 0x180, 0, 4, .rw, 0, 16, 4⟩
def SEG_STAT_IN_FLIGHT : Fld := ⟨0x0E, 0, 0, 0x1C0, 0, 7, .ro, 0, 16, 4⟩
def STAT_SEG_WAIT : Fld := ⟨0x0E, 0, 0, 0x010, 25, 1, .ro, 0, 1, 0⟩
def STAT_SPACE_WAIT : Fld := ⟨0x0E, 0, 0, 0x010, 24, 1, .ro, 0, 1, 0⟩
def STAT_CHECKING : Fld := ⟨0x0E, 0, 0, 0x010, 23, 1, .ro, 0, 1, 0⟩
abbrev E_LOAD_ABANDONED : Nat := 5
abbrev E_PROFILE_LOADED : Nat := 4
abbrev E_THOKEN_ERR : Nat := 3
abbrev E_SPACE_WAIT : Nat := 2
abbrev E_SEG_WAIT : Nat := 1
abbrev E_REFUSED : Nat := 0
abbrev F_BUF_DBE : Nat := 1
abbrev F_BUF_SBE : Nat := 0
end Ri

namespace Ce
def KEY_CFG_KEY_ROWS : Fld := ⟨0x0D, 0, 16, 0x040, 16, 16, .rw, 512, 1, 0⟩
def KEY_CFG_REREAD_LINES : Fld := ⟨0x0D, 0, 16, 0x040, 8, 8, .rw, 0, 1, 0⟩
def KEY_CFG_FIT_MODE : Fld := ⟨0x0D, 0, 16, 0x040, 4, 2, .rw, 2, 1, 0⟩
def KEY_CFG_KEY_FAIL_GO : Fld := ⟨0x0D, 0, 16, 0x040, 3, 1, .rw, 0, 1, 0⟩
def KEY_LIMITS_RESID_MAX : Fld := ⟨0x0D, 0, 16, 0x044, 16, 16, .rw, 32, 1, 0⟩
def KEY_LIMITS_SCALE_MAX : Fld := ⟨0x0D, 0, 16, 0x044, 0, 16, .rw, 20000, 1, 0⟩
def FLOAT_CFG_NCC_MIN : Fld := ⟨0x0D, 0, 16, 0x048, 24, 8, .rw, 160, 1, 0⟩
def FLOAT_CFG_UNIQ : Fld := ⟨0x0D, 0, 16, 0x048, 16, 8, .rw, 16, 1, 0⟩
def FLOAT_CFG_ALPHA : Fld := ⟨0x0D, 0, 16, 0x048, 8, 8, .rw, 64, 1, 0⟩
def FLOAT_CFG_CORR_SEL : Fld := ⟨0x0D, 0, 16, 0x048, 6, 2, .rw, 3, 1, 0⟩
def FLOAT_CFG_FLOAT_EN : Fld := ⟨0x0D, 0, 16, 0x048, 5, 1, .rw, 1, 1, 0⟩
def FLOAT_CFG2_TEXTURE_MIN : Fld := ⟨0x0D, 0, 16, 0x04C, 16, 16, .rw, 64, 1, 0⟩
def FLOAT_CFG2_JUMP : Fld := ⟨0x0D, 0, 16, 0x04C, 8, 8, .rw, 48, 1, 0⟩
def FLOAT_CFG2_LOST_PCT : Fld := ⟨0x0D, 0, 16, 0x04C, 0, 8, .rw, 50, 1, 0⟩
def CMP_WEIGHT_CW_B : Fld := ⟨0x0D, 0, 16, 0x050, 16, 8, .rw, 128, 1, 0⟩
def CMP_WEIGHT_CW_G : Fld := ⟨0x0D, 0, 16, 0x050, 8, 8, .rw, 128, 1, 0⟩
def CMP_WEIGHT_CW_R : Fld := ⟨0x0D, 0, 16, 0x050, 0, 8, .rw, 128, 1, 0⟩
def REG_CFG_REF_INK : Fld := ⟨0x0D, 0, 16, 0x054, 0, 3, .rw, 0, 1, 0⟩
def CMP_CMD_CLR_CNT : Fld := ⟨0x0D, 0, 16, 0x058, 0, 1, .wo, 0, 1, 0⟩
def KEY_CNT_A_KEY_FAIL_CNT : Fld := ⟨0x0D, 0, 16, 0x060, 16, 16, .ro, 0, 1, 0⟩
def KEY_CNT_A_FID_MISS_CNT : Fld := ⟨0x0D, 0, 16, 0x060, 0, 16, .ro, 0, 1, 0⟩
def KEY_CNT_B_FID_OUTSIDE_CNT : Fld := ⟨0x0D, 0, 16, 0x064, 16, 16, .ro, 0, 1, 0⟩
def KEY_CNT_B_LINE_DY_FAIL_CNT : Fld := ⟨0x0D, 0, 16, 0x064, 0, 16, .ro, 0, 1, 0⟩
def FLOAT_CNT_REG_LOST_CNT : Fld := ⟨0x0D, 0, 16, 0x068, 16, 16, .ro, 0, 1, 0⟩
def FLOAT_CNT_JUMP_CNT : Fld := ⟨0x0D, 0, 16, 0x068, 0, 16, .ro, 0, 1, 0⟩
def FLOAT_NOMEAS_CNT : Fld := ⟨0x0D, 0, 16, 0x06C, 0, 32, .ro, 0, 1, 0⟩
def REG_CNT_REG_STALE_CNT : Fld := ⟨0x0D, 0, 16, 0x070, 16, 16, .ro, 0, 1, 0⟩
def REG_CNT_REG_NODATA_CNT : Fld := ⟨0x0D, 0, 16, 0x070, 0, 16, .ro, 0, 1, 0⟩
def REG_CYCLE : Fld := ⟨0x0D, 0, 16, 0x074, 0, 32, .ro, 0, 1, 0⟩
def MASK_BUSY : Fld := ⟨0x0D, 0, 16, 0x078, 0, 64, .ro, 0, 1, 0⟩
def REG_LAST_DY : Fld := ⟨0x0D, 0, 16, 0x080, 16, 16, .ro, 0, 8, 4⟩
def REG_LAST_DX : Fld := ⟨0x0D, 0, 16, 0x080, 0, 16, .ro, 0, 8, 4⟩
def REG_LAST_INFO_VALID : Fld := ⟨0x0D, 0, 16, 0x0A0, 31, 1, .ro, 0, 1, 0⟩
def REG_LAST_INFO_STALE : Fld := ⟨0x0D, 0, 16, 0x0A0, 30, 1, .ro, 0, 1, 0⟩
def REG_LAST_INFO_CONF_MIN : Fld := ⟨0x0D, 0, 16, 0x0A0, 8, 8, .ro, 0, 1, 0⟩
def REG_LAST_INFO_INK_MASK : Fld := ⟨0x0D, 0, 16, 0x0A0, 0, 8, .ro, 0, 1, 0⟩
def LAST_KEY : Fld := ⟨0x0D, 0, 16, 0x0B0, 0, 32, .ro, 0, 8, 4⟩
def SEG_CFG_NI_ROWS_MAX : Fld := ⟨0x0D, 0, 16, 0x100, 16, 16, .rw, 256, 1, 0⟩
def SEG_CFG_STALL_TIME : Fld := ⟨0x0D, 0, 16, 0x100, 0, 16, .rw, 0, 1, 0⟩
def CHK_CFG_REG_TOL : Fld := ⟨0x0D, 0, 16, 0x104, 16, 16, .rw, 32, 1, 0⟩
def SNAG_CFG_SNAG_MAX : Fld := ⟨0x0D, 0, 16, 0x108, 16, 16, .rw, 4096, 1, 0⟩
def SNAG_CFG_SNAG_TILE_MAX : Fld := ⟨0x0D, 0, 16, 0x108, 12, 4, .rw, 4, 1, 0⟩
def SNAG_CFG_SNAG_TILES_EN : Fld := ⟨0x0D, 0, 16, 0x108, 11, 1, .rw, 0, 1, 0⟩
def SNAG_CFG_SNAG_REGION : Fld := ⟨0x0D, 0, 16, 0x108, 0, 6, .rw, 0, 1, 0⟩
def OUT_Q_PATCH_Q : Fld := ⟨0x0D, 0, 16, 0x10C, 24, 8, .rw, 0, 1, 0⟩
def OUT_Q_NOZ_Q : Fld := ⟨0x0D, 0, 16, 0x10C, 16, 8, .rw, 0, 1, 0⟩
def OUT_Q_SNAG_Q : Fld := ⟨0x0D, 0, 16, 0x10C, 8, 8, .rw, 0, 1, 0⟩
def OUT_Q_VERDICT_Q : Fld := ⟨0x0D, 0, 16, 0x10C, 0, 8, .rw, 0, 1, 0⟩
def OUT_CFG_VX_EN : Fld := ⟨0x0D, 0, 16, 0x110, 31, 1, .rw, 0, 1, 0⟩
def OUT_CFG_VX_UNINSP : Fld := ⟨0x0D, 0, 16, 0x110, 30, 1, .rw, 0, 1, 0⟩
def OUT_CFG_VX_STREAM : Fld := ⟨0x0D, 0, 16, 0x110, 20, 5, .rw, 0, 1, 0⟩
def OUT_CFG_PATCH_QEN : Fld := ⟨0x0D, 0, 16, 0x110, 3, 1, .rw, 0, 1, 0⟩
def OUT_CFG_NOZ_QEN : Fld := ⟨0x0D, 0, 16, 0x110, 2, 1, .rw, 0, 1, 0⟩
def OUT_CFG_SNAG_QEN : Fld := ⟨0x0D, 0, 16, 0x110, 1, 1, .rw, 0, 1, 0⟩
def OUT_CFG_VERDICT_QEN : Fld := ⟨0x0D, 0, 16, 0x110, 0, 1, .rw, 0, 1, 0⟩
def VX_TEMPLATE_ENTRY : Fld := ⟨0x0D, 0, 16, 0x114, 0, 24, .rw, 0, 1, 0⟩
def VX_DIST : Fld := ⟨0x0D, 0, 16, 0x118, 0, 64, .rw, 0, 1, 0⟩
def CE_CMD_CLR_CNT : Fld := ⟨0x0D, 0, 16, 0x120, 2, 1, .wo, 0, 1, 0⟩
def CE_CMD_GIVE_BACK : Fld := ⟨0x0D, 0, 16, 0x120, 1, 1, .wo, 0, 1, 0⟩
def CE_CMD_TAKEOVER : Fld := ⟨0x0D, 0, 16, 0x120, 0, 1, .wo, 0, 1, 0⟩
def SPARE_STAT_SERVING : Fld := ⟨0x0D, 0, 16, 0x124, 31, 1, .ro, 0, 1, 0⟩
def SPARE_STAT_NOTABLES : Fld := ⟨0x0D, 0, 16, 0x124, 30, 1, .ro, 0, 1, 0⟩
def SPARE_STAT_SERVED_ENGINE : Fld := ⟨0x0D, 0, 16, 0x124, 16, 4, .ro, 0, 1, 0⟩
def CE_CNT_A_UNINSP_CNT : Fld := ⟨0x0D, 0, 16, 0x130, 16, 16, .ro, 0, 1, 0⟩
def CE_CNT_A_FAIL_CNT : Fld := ⟨0x0D, 0, 16, 0x130, 0, 16, .ro, 0, 1, 0⟩
def PASS_CNT : Fld := ⟨0x0D, 0, 16, 0x134, 0, 32, .ro, 0, 1, 0⟩
def CE_CNT_B_SNAG_LOST_CNT : Fld := ⟨0x0D, 0, 16, 0x138, 16, 16, .ro, 0, 1, 0⟩
def CE_CNT_B_VX_DROP_CNT : Fld := ⟨0x0D, 0, 16, 0x138, 0, 16, .ro, 0, 1, 0⟩
def CE_CNT_C_ORDER_CUT_CNT : Fld := ⟨0x0D, 0, 16, 0x13C, 16, 16, .ro, 0, 1, 0⟩
def CE_CNT_C_DEADLINE_CNT : Fld := ⟨0x0D, 0, 16, 0x13C, 0, 16, .ro, 0, 1, 0⟩
def CE_CNT_D_PATCH_NODATA_CNT : Fld := ⟨0x0D, 0, 16, 0x140, 16, 16, .ro, 0, 1, 0⟩
def CE_CNT_D_REF_WAIT_CNT : Fld := ⟨0x0D, 0, 16, 0x140, 0, 16, .ro, 0, 1, 0⟩
def LAST_VERDICT_REASON : Fld := ⟨0x0D, 0, 16, 0x144, 16, 16, .ro, 0, 1, 0⟩
def LAST_VERDICT_VERDICT : Fld := ⟨0x0D, 0, 16, 0x144, 8, 2, .ro, 0, 1, 0⟩
def LAST_VERDICT_FAIL_MASK : Fld := ⟨0x0D, 0, 16, 0x144, 4, 4, .ro, 0, 1, 0⟩
def LAST_VERDICT_PORT : Fld := ⟨0x0D, 0, 16, 0x144, 0, 4, .ro, 0, 1, 0⟩
def LAST_SEG_NUM : Fld := ⟨0x0D, 0, 16, 0x148, 0, 32, .ro, 0, 1, 0⟩
def STAT_HOLDBACK : Fld := ⟨0x0D, 0, 16, 0x010, 25, 1, .ro, 0, 1, 0⟩
def STAT_KEYED : Fld := ⟨0x0D, 0, 16, 0x010, 24, 1, .ro, 0, 1, 0⟩
def STAT_LINE_PASS : Fld := ⟨0x0D, 0, 16, 0x010, 23, 1, .ro, 0, 1, 0⟩
def STAT_BACKLOG : Fld := ⟨0x0D, 0, 16, 0x010, 18, 5, .ro, 0, 1, 0⟩
def STAT_FAILED : Fld := ⟨0x0D, 0, 16, 0x010, 17, 1, .ro, 0, 1, 0⟩
def STAT_SERVING : Fld := ⟨0x0D, 0, 16, 0x010, 16, 1, .ro, 0, 1, 0⟩
def STAT_SERVED_PORT : Fld := ⟨0x0D, 0, 16, 0x010, 12, 4, .ro, 0, 1, 0⟩
def STAT_IN_FLIGHT : Fld := ⟨0x0D, 0, 16, 0x010, 5, 7, .ro, 0, 1, 0⟩
abbrev E_KEY_DONE : Nat := 27
abbrev E_KEY_FAIL : Nat := 26
abbrev E_FID_OUTSIDE : Nat := 25
abbrev E_REG_LOST : Nat := 24
abbrev E_FLOAT_JUMP : Nat := 23
abbrev E_REG_SENT : Nat := 22
abbrev E_MASK_MISSING : Nat := 21
abbrev E_LINE_DY_FAIL : Nat := 20
abbrev E_VERDICT : Nat := 19
abbrev E_FAIL : Nat := 18
abbrev E_UNINSPECTED : Nat := 17
abbrev E_DEADLINE : Nat := 16
abbrev E_ORDER_CUT : Nat := 15
abbrev E_STALLED : Nat := 14
abbrev E_SNAG_OVF : Nat := 13
abbrev E_SNAG_LOST : Nat := 12
abbrev E_TAKEOVER : Nat := 11
abbrev E_GIVE_BACK : Nat := 10
abbrev E_VX_DROP : Nat := 9
abbrev E_PATCH_OUT : Nat := 8
abbrev E_REF_WAIT : Nat := 7
abbrev F_CT_DBE : Nat := 31
abbrev F_CT_SBE : Nat := 30
abbrev F_HS_WDOG : Nat := 29
abbrev F_ENGINE_FAIL : Nat := 28
abbrev F_SPARE_IN_USE : Nat := 27
abbrev F_NO_SPARE : Nat := 26
abbrev F_ST_DBE : Nat := 25
abbrev F_ST_SBE : Nat := 24
abbrev F_PT_DBE : Nat := 23
abbrev F_PT_SBE : Nat := 22
end Ce

namespace Pl
def PL_CFG_T_STREAK : Fld := ⟨0x0F, 0, 16, 0x040, 24, 8, .rw, 40, 1, 0⟩
def PL_CFG_DEV_REACH : Fld := ⟨0x0F, 0, 16, 0x040, 20, 4, .rw, 3, 1, 0⟩
def PL_CFG_PL_COV_MIN : Fld := ⟨0x0F, 0, 16, 0x040, 4, 11, .rw, 768, 1, 0⟩
def PL_CFG_PL_FAIL_EN : Fld := ⟨0x0F, 0, 16, 0x040, 1, 1, .rw, 0, 1, 0⟩
def PL_LIMITS_PL_N_MIN : Fld := ⟨0x0F, 0, 16, 0x044, 16, 16, .rw, 1024, 1, 0⟩
def PL_LIMITS_PL_MAX_REPORT : Fld := ⟨0x0F, 0, 16, 0x044, 0, 16, .rw, 256, 1, 0⟩
def PL_CMD_CLR_CNT : Fld := ⟨0x0F, 0, 16, 0x048, 1, 1, .wo, 0, 1, 0⟩
def PL_CMD_CLEAR_ACC : Fld := ⟨0x0F, 0, 16, 0x048, 0, 1, .wo, 0, 1, 0⟩
def PL_CYCLE : Fld := ⟨0x0F, 0, 16, 0x04C, 0, 32, .ro, 0, 1, 0⟩
def PL_LAST_STREAKS : Fld := ⟨0x0F, 0, 16, 0x050, 16, 16, .ro, 0, 1, 0⟩
def PL_CNT_PL_TRUNC_CNT : Fld := ⟨0x0F, 0, 16, 0x054, 16, 16, .ro, 0, 1, 0⟩
def PL_CNT_COLMAP_MISS_CNT : Fld := ⟨0x0F, 0, 16, 0x054, 0, 16, .ro, 0, 1, 0⟩
def PL_LAST_TIME : Fld := ⟨0x0F, 0, 16, 0x060, 0, 128, .ro, 0, 1, 0⟩
def STAT_STREAK_ACTIVE : Fld := ⟨0x0F, 0, 16, 0x010, 25, 1, .ro, 0, 1, 0⟩
def STAT_EVALUATING : Fld := ⟨0x0F, 0, 16, 0x010, 24, 1, .ro, 0, 1, 0⟩
abbrev E_CYCLE_DONE : Nat := 2
abbrev E_STREAK : Nat := 1
abbrev E_TRUNC : Nat := 0
abbrev F_ACC_DBE : Nat := 1
abbrev F_ACC_SBE : Nat := 0
end Pl

namespace Hbm
def ECC_CFG_SPARE_THRESH : Fld := ⟨0x18, 0, 3, 0x040, 16, 16, .rw, 256, 1, 0⟩
def ECC_CFG_SCRUB_HOURS : Fld := ⟨0x18, 0, 3, 0x040, 8, 4, .rw, 12, 1, 0⟩
def ECC_CFG_SPARE_AUTO : Fld := ⟨0x18, 0, 3, 0x040, 1, 1, .rw, 1, 1, 0⟩
def ECC_CFG_SCRUB_EN : Fld := ⟨0x18, 0, 3, 0x040, 0, 1, .rw, 1, 1, 0⟩
def HBM_CMD_PC : Fld := ⟨0x18, 0, 3, 0x044, 8, 5, .rw, 0, 1, 0⟩
def HBM_CMD_SPARE_NOW : Fld := ⟨0x18, 0, 3, 0x044, 1, 1, .wo, 0, 1, 0⟩
def HBM_CMD_CLR_CNT : Fld := ⟨0x18, 0, 3, 0x044, 0, 1, .wo, 0, 1, 0⟩
def SCRUB_STAT_PASS_CNT : Fld := ⟨0x18, 0, 3, 0x048, 16, 16, .ro, 0, 1, 0⟩
def SCRUB_STAT_PROGRESS : Fld := ⟨0x18, 0, 3, 0x048, 0, 7, .ro, 0, 1, 0⟩
def ECC_CNT_DBE_CNT : Fld := ⟨0x18, 0, 3, 0x04C, 16, 16, .ro, 0, 1, 0⟩
def ECC_CNT_SBE_CNT : Fld := ⟨0x18, 0, 3, 0x04C, 0, 16, .ro, 0, 1, 0⟩
def ERR_ADDR : Fld := ⟨0x18, 0, 3, 0x050, 0, 64, .ro, 0, 1, 0⟩
def HBM_TEMP_TEMP : Fld := ⟨0x18, 0, 3, 0x058, 0, 8, .ro, 0, 1, 0⟩
def STAT_READY : Fld := ⟨0x18, 0, 3, 0x010, 25, 1, .ro, 0, 1, 0⟩
def STAT_COPYING : Fld := ⟨0x18, 0, 3, 0x010, 24, 1, .ro, 0, 1, 0⟩
def STAT_SPARED : Fld := ⟨0x18, 0, 3, 0x010, 23, 1, .ro, 0, 1, 0⟩
def STAT_SPARED_PC : Fld := ⟨0x18, 0, 3, 0x010, 18, 5, .ro, 0, 1, 0⟩
abbrev E_HOT : Nat := 2
abbrev E_SPARE_DONE : Nat := 1
abbrev E_SCRUB_PASS : Nat := 0
abbrev F_HS_WDOG : Nat := 5
abbrev F_PC_FAIL : Nat := 4
abbrev F_PC_SPARED : Nat := 3
abbrev F_LINK_ERR : Nat := 2
abbrev F_DBE : Nat := 1
abbrev F_SBE : Nat := 0
end Hbm

namespace Rgn
def REG_LOC_SIZE : Fld := ⟨0x19, 0, 63, 0x040, 16, 16, .rw, 0, 1, 0⟩
def REG_LOC_BASE : Fld := ⟨0x19, 0, 63, 0x040, 0, 16, .rw, 0, 1, 0⟩
def REG_CFG_HOST_WR : Fld := ⟨0x19, 0, 63, 0x044, 8, 1, .rw, 0, 1, 0⟩
def REG_CFG_SLOT_CHAN : Fld := ⟨0x19, 0, 63, 0x044, 4, 1, .rw, 0, 1, 0⟩
def REG_CFG_KIND : Fld := ⟨0x19, 0, 63, 0x044, 0, 2, .rw, 0, 1, 0⟩
def REG_ADDR : Fld := ⟨0x19, 0, 63, 0x048, 0, 64, .ro, 0, 1, 0⟩
def SLOTS : Fld := ⟨0x19, 0, 63, 0x050, 0, 32, .ro, 0, 1, 0⟩
def WR_SEQ : Fld := ⟨0x19, 0, 63, 0x054, 0, 32, .ro, 0, 1, 0⟩
def WRAP_CNT : Fld := ⟨0x19, 0, 63, 0x058, 0, 32, .ro, 0, 1, 0⟩
def SEQ_WRAP : Fld := ⟨0x19, 0, 63, 0x05C, 0, 32, .ro, 0, 1, 0⟩
end Rgn

namespace De
def DE_CFG_DATA_RO : Fld := ⟨0x1A, 0, 0, 0x040, 0, 1, .rw, 1, 1, 0⟩
def DE_STAT_RD_INFLIGHT : Fld := ⟨0x1A, 0, 0, 0x044, 16, 13, .ro, 0, 1, 0⟩
def DE_STAT_WR_INFLIGHT : Fld := ⟨0x1A, 0, 0, 0x044, 0, 10, .ro, 0, 1, 0⟩
def DE_CNT_REUSED_CNT : Fld := ⟨0x1A, 0, 0, 0x048, 16, 16, .ro, 0, 1, 0⟩
def DE_CNT_DATA_ERR_CNT : Fld := ⟨0x1A, 0, 0, 0x048, 0, 16, .ro, 0, 1, 0⟩
def DE_CMD_CLR_CNT : Fld := ⟨0x1A, 0, 0, 0x04C, 0, 1, .wo, 0, 1, 0⟩
def PORT_DELIV_TILE_EVERY : Fld := ⟨0x1A, 0, 0, 0x100, 16, 16, .rw, 1, 16, 8⟩
def PORT_DELIV_SNAGT_EN : Fld := ⟨0x1A, 0, 0, 0x100, 10, 1, .rw, 0, 16, 8⟩
def PORT_DELIV_TILE_MODE : Fld := ⟨0x1A, 0, 0, 0x100, 8, 2, .rw, 0, 16, 8⟩
def PORT_DELIV_TILE_Q : Fld := ⟨0x1A, 0, 0, 0x100, 0, 8, .rw, 0, 16, 8⟩
def SNAGT_Q : Fld := ⟨0x1A, 0, 0, 0x104, 0, 8, .rw, 0, 16, 8⟩
abbrev E_SLOT_REUSED : Nat := 0
abbrev F_STG_DBE : Nat := 1
abbrev F_STG_SBE : Nat := 0
end De

namespace Dq
def RING_BASE : Fld := ⟨0x3F, 0, 63, 0x040, 0, 64, .rw, 0, 1, 0⟩
def RING_CFG_Q_EN : Fld := ⟨0x3F, 0, 63, 0x048, 31, 1, .rw, 0, 1, 0⟩
def RING_CFG_INTAKE : Fld := ⟨0x3F, 0, 63, 0x048, 30, 1, .ro, 0, 1, 0⟩
def RING_CFG_FUNCTION : Fld := ⟨0x3F, 0, 63, 0x048, 16, 6, .rw, 0, 1, 0⟩
def RING_CFG_FULL_DROP : Fld := ⟨0x3F, 0, 63, 0x048, 8, 1, .rw, 0, 1, 0⟩
def RING_CFG_LOG2_ENTRIES : Fld := ⟨0x3F, 0, 63, 0x048, 0, 5, .rw, 10, 1, 0⟩
def PTR_POST : Fld := ⟨0x3F, 0, 63, 0x04C, 0, 32, .wo, 0, 1, 0⟩
def MIRROR : Fld := ⟨0x3F, 0, 63, 0x050, 0, 64, .rw, 0, 1, 0⟩
def Q_VEC_VEC_EN : Fld := ⟨0x3F, 0, 63, 0x058, 31, 1, .rw, 0, 1, 0⟩
def Q_VEC_VECTOR : Fld := ⟨0x3F, 0, 63, 0x058, 0, 11, .rw, 0, 1, 0⟩
def Q_PEND_PENDING : Fld := ⟨0x3F, 0, 63, 0x05C, 8, 8, .ro, 0, 1, 0⟩
def Q_PEND_PEND_MAX : Fld := ⟨0x3F, 0, 63, 0x05C, 0, 8, .rw, 64, 1, 0⟩
def Q_CNT_C_DROP_CNT : Fld := ⟨0x3F, 0, 63, 0x060, 16, 16, .ro, 0, 1, 0⟩
def Q_CNT_C_DESC_ERR_CNT : Fld := ⟨0x3F, 0, 63, 0x060, 0, 16, .ro, 0, 1, 0⟩
def FLUSH_FROM : Fld := ⟨0x3F, 0, 63, 0x064, 0, 32, .ro, 0, 1, 0⟩
def LAST_STATUS_STATUS : Fld := ⟨0x3F, 0, 63, 0x068, 24, 8, .ro, 0, 1, 0⟩
def LAST_STATUS_SLOT : Fld := ⟨0x3F, 0, 63, 0x068, 0, 16, .ro, 0, 1, 0⟩
def ITEMS_TOTAL : Fld := ⟨0x3F, 0, 63, 0x06C, 0, 32, .ro, 0, 1, 0⟩
def STAT_ENABLED : Fld := ⟨0x1B, 0, 39, 0x010, 18, 8, .ro, 0, 1, 0⟩
def GRP_PEND : Fld := ⟨0x1B, 0, 39, 0x040, 0, 8, .ro, 0, 1, 0⟩
abbrev E_RD_ERR : Nat := 4
abbrev E_DESC_ERR : Nat := 3
abbrev E_DROP : Nat := 2
abbrev E_QUEUE : Nat := 0
abbrev F_CTX_DBE : Nat := 2
abbrev F_CTX_SBE : Nat := 1
abbrev F_PTR_ERR : Nat := 0
end Dq

namespace Int
def INT_INFO_VECTORS : Fld := ⟨0x1E, 0, 63, 0x040, 0, 12, .ro, 0, 1, 0⟩
def INT_CMD_CLR_CNT : Fld := ⟨0x1E, 0, 63, 0x044, 0, 1, .wo, 0, 1, 0⟩
def MSG_CNT : Fld := ⟨0x1E, 0, 63, 0x048, 0, 32, .ro, 0, 1, 0⟩
def GAP_HELD_CNT : Fld := ⟨0x1E, 0, 63, 0x04C, 0, 32, .ro, 0, 1, 0⟩
end Int

namespace Link
def LINK_STAT_DL_UP : Fld := ⟨0x1C, 0, 3, 0x040, 31, 1, .ro, 0, 1, 0⟩
def LINK_STAT_FLIT : Fld := ⟨0x1C, 0, 3, 0x040, 30, 1, .ro, 0, 1, 0⟩
def LINK_STAT_BIFURCATED : Fld := ⟨0x1C, 0, 3, 0x040, 29, 1, .ro, 0, 1, 0⟩
def LINK_STAT_SPEED : Fld := ⟨0x1C, 0, 3, 0x040, 26, 3, .ro, 0, 1, 0⟩
def LINK_STAT_WIDTH : Fld := ⟨0x1C, 0, 3, 0x040, 19, 5, .ro, 0, 1, 0⟩
def LINK_STAT_ACT_WIDTH : Fld := ⟨0x1C, 0, 3, 0x040, 14, 5, .ro, 0, 1, 0⟩
def LINK_STAT_PART : Fld := ⟨0x1C, 0, 3, 0x040, 10, 2, .ro, 0, 1, 0⟩
def LINK_STAT_VFS : Fld := ⟨0x1C, 0, 3, 0x040, 4, 4, .ro, 0, 1, 0⟩
def LINK_STAT_PF_DSTATE : Fld := ⟨0x1C, 0, 3, 0x040, 2, 2, .ro, 0, 1, 0⟩
def LINK_CFG_L0P_EN : Fld := ⟨0x1C, 0, 3, 0x044, 31, 1, .rw, 1, 1, 0⟩
def LINK_CFG_L1_IDLE : Fld := ⟨0x1C, 0, 3, 0x044, 0, 16, .rw, 32, 1, 0⟩
def WAKE_CFG_WAKE_STREAM : Fld := ⟨0x1C, 0, 3, 0x048, 8, 5, .rw, 0, 1, 0⟩
def WAKE_CFG_WAKE_S : Fld := ⟨0x1C, 0, 3, 0x048, 2, 1, .rw, 0, 1, 0⟩
def WAKE_CFG_WAKE_D0 : Fld := ⟨0x1C, 0, 3, 0x048, 1, 1, .rw, 0, 1, 0⟩
def WAKE_CFG_WAKE_VOX : Fld := ⟨0x1C, 0, 3, 0x048, 0, 1, .rw, 0, 1, 0⟩
def WAKE_STAT_WAKE_CNT : Fld := ⟨0x1C, 0, 3, 0x04C, 16, 16, .ro, 0, 1, 0⟩
def WAKE_STAT_LAST_SRC : Fld := ⟨0x1C, 0, 3, 0x04C, 0, 2, .ro, 0, 1, 0⟩
def CPL_CNT_UNEXP_CPL_CNT : Fld := ⟨0x1C, 0, 3, 0x050, 16, 16, .ro, 0, 1, 0⟩
def CPL_CNT_CPL_TIMEOUT_CNT : Fld := ⟨0x1C, 0, 3, 0x050, 0, 16, .ro, 0, 1, 0⟩
def TAG_STAT_QUARANTINED : Fld := ⟨0x1C, 0, 3, 0x054, 16, 16, .ro, 0, 1, 0⟩
def TAG_STAT_OUTSTANDING : Fld := ⟨0x1C, 0, 3, 0x054, 0, 11, .ro, 0, 1, 0⟩
def RST_CNT_FUND_CNT : Fld := ⟨0x1C, 0, 3, 0x058, 24, 8, .ro, 0, 1, 0⟩
def RST_CNT_HOT_CNT : Fld := ⟨0x1C, 0, 3, 0x058, 16, 8, .ro, 0, 1, 0⟩
def RST_CNT_FLR_CNT : Fld := ⟨0x1C, 0, 3, 0x058, 8, 8, .ro, 0, 1, 0⟩
def RST_STAT_PARTIAL : Fld := ⟨0x1C, 0, 3, 0x05C, 31, 1, .rw1c, 0, 1, 0⟩
def RST_STAT_PART_RESET : Fld := ⟨0x1C, 0, 3, 0x05C, 30, 1, .ro, 0, 1, 0⟩
def STALE_CNT_STALE_CPL_CNT : Fld := ⟨0x1C, 0, 3, 0x060, 0, 16, .ro, 0, 1, 0⟩
def INTX_ACK_VECTOR : Fld := ⟨0x1C, 0, 3, 0x064, 0, 11, .wo, 0, 1, 0⟩
def LINK_CMD_CLR_CNT : Fld := ⟨0x1C, 0, 3, 0x068, 0, 1, .wo, 0, 1, 0⟩
def FUNC_PASID_PASID_EN : Fld := ⟨0x1C, 0, 3, 0x080, 31, 1, .rw, 0, 16, 4⟩
def FUNC_PASID_PASID : Fld := ⟨0x1C, 0, 3, 0x080, 0, 20, .rw, 0, 16, 4⟩
def STAT_DL_UP : Fld := ⟨0x1C, 0, 3, 0x010, 25, 1, .ro, 0, 1, 0⟩
def STAT_IN_RESET : Fld := ⟨0x1C, 0, 3, 0x010, 24, 1, .ro, 0, 1, 0⟩
def STAT_INTX_ASSERTED : Fld := ⟨0x1C, 0, 3, 0x010, 23, 1, .ro, 0, 1, 0⟩
def STAT_TAGS_LOW : Fld := ⟨0x1C, 0, 3, 0x010, 22, 1, .ro, 0, 1, 0⟩
abbrev E_LINK_UP : Nat := 8
abbrev E_LINK_DOWN : Nat := 7
abbrev E_HOT_RESET : Nat := 6
abbrev E_FLR : Nat := 5
abbrev E_CPL_TIMEOUT : Nat := 4
abbrev E_UNEXP_CPL : Nat := 3
abbrev E_WAKE : Nat := 2
abbrev E_DOWNTRAIN : Nat := 1
abbrev E_PARTIAL : Nat := 0
abbrev F_HS_WDOG : Nat := 3
abbrev F_REPLAY_DBE : Nat := 2
abbrev F_REPLAY_SBE : Nat := 1
abbrev F_CFG_DBE : Nat := 0
end Link

namespace Wtt
def WTT_CMD_BUSY : Fld := ⟨0x1D, 0, 63, 0x040, 31, 1, .ro, 0, 1, 0⟩
def WTT_CMD_REFUSE : Fld := ⟨0x1D, 0, 63, 0x040, 28, 3, .ro, 0, 1, 0⟩
def WTT_CMD_CLR_CNT : Fld := ⟨0x1D, 0, 63, 0x040, 9, 1, .wo, 0, 1, 0⟩
def WTT_CMD_COMMIT : Fld := ⟨0x1D, 0, 63, 0x040, 8, 1, .wo, 0, 1, 0⟩
def WTT_CMD_WINDOW : Fld := ⟨0x1D, 0, 63, 0x040, 0, 8, .rw, 0, 1, 0⟩
def WTT_INFO_WINDOWS : Fld := ⟨0x1D, 0, 63, 0x044, 0, 9, .ro, 0, 1, 0⟩
def WTT_CNT_DENY_CNT : Fld := ⟨0x1D, 0, 63, 0x048, 16, 16, .ro, 0, 1, 0⟩
def WTT_CNT_MISS_CNT : Fld := ⟨0x1D, 0, 63, 0x048, 0, 16, .ro, 0, 1, 0⟩
def STAT_BUSY : Fld := ⟨0x1D, 0, 63, 0x010, 25, 1, .ro, 0, 1, 0⟩
abbrev E_WTT_BUSY : Nat := 3
abbrev E_COMMIT_DONE : Nat := 2
abbrev E_COMMIT_REFUSED : Nat := 1
abbrev E_WIN_MISS : Nat := 0
abbrev F_WTT_DBE : Nat := 1
abbrev F_WTT_SBE : Nat := 0
end Wtt

namespace Nv
def NV_WEAR_MAX_WEAR_MAX : Fld := ⟨0x02, 0, 0, 0x100, 0, 32, .ro, 0, 1, 0⟩
def NV_WEAR_SEC_SECTOR : Fld := ⟨0x02, 0, 0, 0x104, 0, 9, .ro, 0, 1, 0⟩
def NV_ERR_ADDR_WORD : Fld := ⟨0x02, 0, 0, 0x108, 0, 16, .ro, 0, 1, 0⟩
def NV_HEALTH_SEQ_SEQ : Fld := ⟨0x02, 0, 0, 0x10C, 0, 32, .ro, 0, 1, 0⟩
def NV_CMD_BUSY : Fld := ⟨0x02, 0, 0, 0x040, 31, 1, .ro, 0, 1, 0⟩
def NV_CMD_ERR : Fld := ⟨0x02, 0, 0, 0x040, 30, 1, .rw1c, 0, 1, 0⟩
def NV_CMD_REFUSE : Fld := ⟨0x02, 0, 0, 0x040, 27, 3, .ro, 0, 1, 0⟩
def NV_CMD_OP : Fld := ⟨0x02, 0, 0, 0x040, 0, 4, .wo, 0, 1, 0⟩
def NV_ADDR_WORD : Fld := ⟨0x02, 0, 0, 0x044, 0, 16, .rw, 0, 1, 0⟩
def NV_DATA : Fld := ⟨0x02, 0, 0, 0x048, 0, 64, .rw, 0, 1, 0⟩
def NV_STAT_LOCKED : Fld := ⟨0x02, 0, 0, 0x050, 31, 1, .ro, 0, 1, 0⟩
def NV_STAT_VENDOR_OPEN : Fld := ⟨0x02, 0, 0, 0x050, 30, 1, .ro, 0, 1, 0⟩
def NV_STAT_PWR_OK : Fld := ⟨0x02, 0, 0, 0x050, 29, 1, .ro, 1, 1, 0⟩
def NV_STAT_UNLOCK_FAILS : Fld := ⟨0x02, 0, 0, 0x050, 8, 8, .ro, 0, 1, 0⟩
def NV_CHALLENGE : Fld := ⟨0x02, 0, 0, 0x058, 0, 64, .ro, 0, 1, 0⟩
def NV_RESPONSE : Fld := ⟨0x02, 0, 0, 0x060, 0, 64, .wo, 0, 1, 0⟩
abbrev E_OP_DONE : Nat := 2
abbrev E_UNLOCK_FAIL : Nat := 1
abbrev E_BOOT_DEFAULTED : Nat := 0
abbrev F_NV_WRITE_FAIL : Nat := 2
abbrev F_NV_WEAR : Nat := 1
abbrev F_NV_CRC : Nat := 0
end Nv

namespace Fc
def SUMMARY_FIRST_TIE : Fld := ⟨0x01, 0, 0, 0x040, 3, 1, .ro, 0, 1, 0⟩
def SUMMARY_FIRST_CLASS : Fld := ⟨0x01, 0, 0, 0x040, 0, 3, .ro, 0, 1, 0⟩
def FIRST_SRC_BIT : Fld := ⟨0x01, 0, 0, 0x044, 16, 5, .ro, 0, 1, 0⟩
def FIRST_SRC_CLASS : Fld := ⟨0x01, 0, 0, 0x044, 8, 6, .ro, 0, 1, 0⟩
def FIRST_SRC_INSTANCE : Fld := ⟨0x01, 0, 0, 0x044, 0, 6, .ro, 0, 1, 0⟩
def FC_CMD_KA_NOW : Fld := ⟨0x01, 0, 0, 0x048, 2, 1, .wo, 0, 1, 0⟩
def FC_CMD_CLR_CNT : Fld := ⟨0x01, 0, 0, 0x048, 1, 1, .wo, 0, 1, 0⟩
def FC_CMD_SUMMARY_CLR : Fld := ⟨0x01, 0, 0, 0x048, 0, 1, .wo, 0, 1, 0⟩
def FC_CFG_INJ_UNLOCK : Fld := ⟨0x01, 0, 0, 0x04C, 31, 1, .rw, 0, 1, 0⟩
def FC_CFG_SRAM_SCRUB_S : Fld := ⟨0x01, 0, 0, 0x04C, 16, 8, .rw, 60, 1, 0⟩
def FC_CFG_KA_PERIOD : Fld := ⟨0x01, 0, 0, 0x04C, 8, 4, .rw, 10, 1, 0⟩
def FC_CFG_KA_EN : Fld := ⟨0x01, 0, 0, 0x04C, 4, 1, .rw, 1, 1, 0⟩
def FC_CFG_SRAM_SCRUB_EN : Fld := ⟨0x01, 0, 0, 0x04C, 3, 1, .rw, 1, 1, 0⟩
def FC_CFG_ALERT_CLASS : Fld := ⟨0x01, 0, 0, 0x04C, 0, 3, .rw, 3, 1, 0⟩
def FC_CNT_A_CORRECTED_CNT : Fld := ⟨0x01, 0, 0, 0x050, 16, 16, .ro, 0, 1, 0⟩
def FC_CNT_A_INFO_CNT : Fld := ⟨0x01, 0, 0, 0x050, 0, 16, .ro, 0, 1, 0⟩
def FC_CNT_B_ERROR_CNT : Fld := ⟨0x01, 0, 0, 0x054, 16, 16, .ro, 0, 1, 0⟩
def FC_CNT_B_DEG_CNT : Fld := ⟨0x01, 0, 0, 0x054, 0, 16, .ro, 0, 1, 0⟩
def FC_CNT_C_FATAL_CNT : Fld := ⟨0x01, 0, 0, 0x058, 0, 16, .ro, 0, 1, 0⟩
def KA_FAIL_CE_MAP : Fld := ⟨0x01, 0, 0, 0x05C, 0, 17, .ro, 0, 1, 0⟩
def KA_LCU_FAIL_LCU_MAP : Fld := ⟨0x01, 0, 0, 0x060, 0, 16, .rw1c, 0, 1, 0⟩
def KA_RUNS : Fld := ⟨0x01, 0, 0, 0x064, 0, 32, .ro, 0, 1, 0⟩
def TEMP_CFG_TEMP_NOW : Fld := ⟨0x01, 0, 0, 0x068, 8, 8, .ro, 0, 1, 0⟩
def TEMP_CFG_TEMP_WARN : Fld := ⟨0x01, 0, 0, 0x068, 0, 8, .rw, 95, 1, 0⟩
def CLASS_MAP : Fld := ⟨0x01, 0, 0, 0x070, 0, 64, .ro, 0, 1, 0⟩
def INST_MAP : Fld := ⟨0x01, 0, 0, 0x100, 0, 64, .ro, 0, 33, 8⟩
def STAT_GUARANTEE_OK : Fld := ⟨0x01, 0, 0, 0x010, 25, 1, .ro, 0, 1, 0⟩
def STAT_KA_RUNNING : Fld := ⟨0x01, 0, 0, 0x010, 24, 1, .ro, 0, 1, 0⟩
def STAT_HIGHEST : Fld := ⟨0x01, 0, 0, 0x010, 21, 3, .ro, 0, 1, 0⟩
def STAT_SCRUBBING : Fld := ⟨0x01, 0, 0, 0x010, 20, 1, .ro, 0, 1, 0⟩
abbrev E_GUARANTEE_LOST : Nat := 4
abbrev E_HEALTH_CHANGE : Nat := 3
abbrev E_FIRST : Nat := 2
abbrev E_KA_FAIL : Nat := 1
abbrev E_TEMP_HOT : Nat := 0
abbrev F_AO_LOCKSTEP : Nat := 31
abbrev F_FAB_LOCKSTEP : Nat := 30
abbrev F_BRIDGE_FAIL : Nat := 29
abbrev F_VMON : Nat := 28
abbrev F_TEMP_CRIT : Nat := 27
abbrev F_PT_CLK_LOSS : Nat := 26
abbrev F_ISL_CLK_LOSS : Nat := 25
abbrev F_PCIE_REF_LOSS0 : Nat := 24
abbrev F_PCIE_REF_LOSS1 : Nat := 23
abbrev F_XTAL_LOSS : Nat := 22
abbrev F_SRAM_REPAIR_EXH : Nat := 21
abbrev F_KA_IMAGE : Nat := 20
abbrev F_KA_LCU : Nat := 19
abbrev F_BRIDGE_CRC : Nat := 18
abbrev F_TEMP_HOT : Nat := 17
end Fc

namespace Test
def TEST_CMD_CLR_CNT : Fld := ⟨0x1F, 0, 0, 0x040, 0, 1, .wo, 0, 1, 0⟩
def PLB_CFG_RATE : Fld := ⟨0x1F, 0, 0, 0x380, 5, 3, .rw, 6, 4, 16⟩
def PLB_CFG_PATTERN : Fld := ⟨0x1F, 0, 0, 0x380, 4, 1, .rw, 0, 4, 16⟩
def PLB_CFG_DEPTH : Fld := ⟨0x1F, 0, 0, 0x380, 0, 2, .rw, 0, 4, 16⟩
def PLB_STAT_ACTIVE : Fld := ⟨0x1F, 0, 0, 0x384, 31, 1, .ro, 0, 4, 16⟩
def PLB_STAT_LOCKED : Fld := ⟨0x1F, 0, 0, 0x384, 30, 1, .ro, 0, 4, 16⟩
def PLB_STAT_ERR_LANES : Fld := ⟨0x1F, 0, 0, 0x384, 0, 16, .ro, 0, 4, 16⟩
def PLB_ERR_CNT : Fld := ⟨0x1F, 0, 0, 0x388, 0, 32, .ro, 0, 4, 16⟩
def ROUTE_D : Fld := ⟨0x1F, 0, 0, 0x400, 0, 24, .rw, 0, 1, 0⟩
def ROUTE_E : Fld := ⟨0x1F, 0, 0, 0x404, 0, 8, .rw, 0, 1, 0⟩
def TEST_OUT : Fld := ⟨0x1F, 0, 0, 0x408, 0, 32, .rw, 0, 1, 0⟩
def QGEN_START : Fld := ⟨0x1F, 0, 0, 0x40C, 31, 1, .w1s, 0, 1, 0⟩
def QGEN_DIR : Fld := ⟨0x1F, 0, 0, 0x40C, 30, 1, .rw, 0, 1, 0⟩
def QGEN_CH : Fld := ⟨0x1F, 0, 0, 0x40C, 27, 3, .rw, 0, 1, 0⟩
def QGEN_EDGES : Fld := ⟨0x1F, 0, 0, 0x40C, 0, 16, .rw, 0, 1, 0⟩
def QGEN_PERIOD_PERIOD : Fld := ⟨0x1F, 0, 0, 0x410, 0, 16, .rw, 8, 1, 0⟩
def PAD_D : Fld := ⟨0x1F, 0, 0, 0x418, 0, 48, .rw, 0, 1, 0⟩
def PAD_E : Fld := ⟨0x1F, 0, 0, 0x420, 0, 48, .rw, 0, 1, 0⟩
def HLB_CFG_START : Fld := ⟨0x1F, 0, 0, 0x480, 31, 1, .w1s, 0, 4, 16⟩
def HLB_CFG_PASS : Fld := ⟨0x1F, 0, 0, 0x480, 30, 1, .ro, 0, 4, 16⟩
def HLB_CFG_FAIL : Fld := ⟨0x1F, 0, 0, 0x480, 29, 1, .ro, 0, 4, 16⟩
def HLB_CFG_REGION : Fld := ⟨0x1F, 0, 0, 0x480, 2, 6, .rw, 0, 4, 16⟩
def HLB_CFG_MODE : Fld := ⟨0x1F, 0, 0, 0x480, 0, 2, .rw, 0, 4, 16⟩
def ERR_CNT : Fld := ⟨0x1F, 0, 0, 0x484, 0, 32, .ro, 0, 4, 16⟩
def ERR_ADDR : Fld := ⟨0x1F, 0, 0, 0x488, 0, 64, .ro, 0, 4, 16⟩
def STAT_LOOP_ANY : Fld := ⟨0x1F, 0, 0, 0x010, 25, 1, .ro, 0, 1, 0⟩
def STAT_QGEN_BUSY : Fld := ⟨0x1F, 0, 0, 0x010, 24, 1, .ro, 0, 1, 0⟩
abbrev E_QGEN_DONE : Nat := 3
abbrev E_HBM_TEST_DONE : Nat := 2
abbrev E_PCIE_FOLLOW : Nat := 1
abbrev E_LB_ERR : Nat := 0
end Test

namespace LbF
def LB_CFG_GEN_LEN : Fld := ⟨0x1F, 0, 0, 0x100, 16, 14, .rw, 8192, 16, 32⟩
def LB_CFG_GEN_FMT : Fld := ⟨0x1F, 0, 0, 0x100, 5, 2, .rw, 1, 16, 32⟩
def LB_CFG_GEN_KIND : Fld := ⟨0x1F, 0, 0, 0x100, 4, 1, .rw, 0, 16, 32⟩
def LB_CFG_GEN_EN : Fld := ⟨0x1F, 0, 0, 0x100, 3, 1, .rw, 0, 16, 32⟩
def LB_CFG_DEPTH : Fld := ⟨0x1F, 0, 0, 0x100, 0, 2, .rw, 0, 18, 32⟩
def INJ_CFG_INJ_EN : Fld := ⟨0x1F, 0, 0, 0x104, 31, 1, .rw, 0, 18, 32⟩
def INJ_CFG_DIR : Fld := ⟨0x1F, 0, 0, 0x104, 30, 1, .rw, 0, 18, 32⟩
def INJ_CFG_ACTION : Fld := ⟨0x1F, 0, 0, 0x104, 28, 2, .rw, 0, 18, 32⟩
def INJ_CFG_SELECT : Fld := ⟨0x1F, 0, 0, 0x104, 27, 1, .rw, 0, 18, 32⟩
def INJ_CFG_RAND_BIT : Fld := ⟨0x1F, 0, 0, 0x104, 26, 1, .rw, 0, 18, 32⟩
def INJ_CFG_HOLD : Fld := ⟨0x1F, 0, 0, 0x104, 22, 4, .rw, 1, 18, 32⟩
def INJ_CFG_K : Fld := ⟨0x1F, 0, 0, 0x104, 16, 5, .rw, 10, 18, 32⟩
def INJ_CFG_N : Fld := ⟨0x1F, 0, 0, 0x104, 0, 16, .rw, 1, 18, 32⟩
def INJ_CFG2_BIT_POS : Fld := ⟨0x1F, 0, 0, 0x108, 0, 17, .rw, 0, 18, 32⟩
def INJ_TYPE_TYPE_SEL : Fld := ⟨0x1F, 0, 0, 0x10C, 0, 16, .rw, 0, 18, 32⟩
def INJ_SEED_SEED : Fld := ⟨0x1F, 0, 0, 0x110, 0, 31, .rw, 1, 18, 32⟩
def INJ_STAT_HELD : Fld := ⟨0x1F, 0, 0, 0x114, 31, 1, .ro, 0, 18, 32⟩
def INJ_STAT_INJ_CNT : Fld := ⟨0x1F, 0, 0, 0x114, 0, 16, .ro, 0, 18, 32⟩
def GEN_CNT : Fld := ⟨0x1F, 0, 0, 0x118, 0, 32, .ro, 0, 16, 32⟩
def CHK_ERR_CNT : Fld := ⟨0x1F, 0, 0, 0x11C, 0, 16, .ro, 0, 16, 32⟩
end LbF

namespace Bist
def BIST_CMD_BUSY : Fld := ⟨0x20, 0, 0, 0x040, 31, 1, .ro, 0, 1, 0⟩
def BIST_CMD_BOOT : Fld := ⟨0x20, 0, 0, 0x040, 30, 1, .ro, 0, 1, 0⟩
def BIST_CMD_LBIST_RUN : Fld := ⟨0x20, 0, 0, 0x040, 1, 1, .wo, 0, 1, 0⟩
def BIST_CMD_MBIST_RUN : Fld := ⟨0x20, 0, 0, 0x040, 0, 1, .wo, 0, 1, 0⟩
def BIST_SEL : Fld := ⟨0x20, 0, 0, 0x044, 0, 32, .rw, 0, 6, 4⟩
def BIST_FAIL : Fld := ⟨0x20, 0, 0, 0x060, 0, 32, .ro, 0, 6, 4⟩
def BIST_REP : Fld := ⟨0x20, 0, 0, 0x080, 0, 32, .ro, 0, 6, 4⟩
def ROWS_USED : Fld := ⟨0x20, 0, 0, 0x0A0, 0, 16, .ro, 0, 1, 0⟩
abbrev E_BIST_DONE : Nat := 0
abbrev F_MBIST_FAIL : Nat := 1
abbrev F_LBIST_FAIL : Nat := 0
end Bist

namespace Isl
def GATE : Fld := ⟨0x05, 0, 0, 0x040, 0, 32, .rw, 0, 6, 4⟩
def RESET : Fld := ⟨0x05, 0, 0, 0x060, 0, 32, .w1s, 0, 6, 4⟩
def PWR : Fld := ⟨0x05, 0, 0, 0x080, 0, 32, .ro, 0, 6, 4⟩
end Isl

namespace Claims
def PT_CTRL_BUSY : Fld := ⟨0x04, 0, 0, 0x040, 31, 1, .ro, 0, 1, 0⟩
def PT_CTRL_REFUSE : Fld := ⟨0x04, 0, 0, 0x040, 4, 4, .ro, 0, 1, 0⟩
def PT_CTRL_COMMIT : Fld := ⟨0x04, 0, 0, 0x040, 0, 1, .w1s, 0, 1, 0⟩
def ACT_VALID : Fld := ⟨0x04, 0, 0, 0x100, 31, 1, .ro, 0, 4, 128⟩
def ACT_LINKS : Fld := ⟨0x04, 0, 0, 0x100, 0, 4, .ro, 0, 4, 128⟩
def ACT_PORTS : Fld := ⟨0x04, 0, 0, 0x104, 0, 16, .ro, 0, 4, 128⟩
def ACT_CES : Fld := ⟨0x04, 0, 0, 0x108, 0, 17, .ro, 0, 4, 128⟩
def ACT_GENERATORS : Fld := ⟨0x04, 0, 0, 0x10C, 8, 16, .ro, 0, 4, 128⟩
def ACT_ENCODERS : Fld := ⟨0x04, 0, 0, 0x10C, 0, 8, .ro, 0, 4, 128⟩
def ACT_STREAMS : Fld := ⟨0x04, 0, 0, 0x110, 0, 32, .ro, 0, 4, 128⟩
def ACT_TOUT : Fld := ⟨0x04, 0, 0, 0x114, 0, 32, .ro, 0, 4, 128⟩
def ACT_DIN : Fld := ⟨0x04, 0, 0, 0x118, 0, 24, .ro, 0, 4, 128⟩
def ACT_DQ_GROUPS : Fld := ⟨0x04, 0, 0, 0x11C, 0, 32, .ro, 0, 4, 128⟩
def ACT_IQ_GROUPS : Fld := ⟨0x04, 0, 0, 0x120, 0, 8, .ro, 0, 4, 128⟩
def ACT_HBM_REGIONS : Fld := ⟨0x04, 0, 0, 0x128, 0, 64, .ro, 0, 4, 128⟩
def SHD_VALID : Fld := ⟨0x04, 0, 0, 0x300, 31, 1, .rw, 0, 4, 128⟩
def SHD_LINKS : Fld := ⟨0x04, 0, 0, 0x300, 0, 4, .rw, 0, 4, 128⟩
def SHD_PORTS : Fld := ⟨0x04, 0, 0, 0x304, 0, 16, .rw, 0, 4, 128⟩
def SHD_CES : Fld := ⟨0x04, 0, 0, 0x308, 0, 17, .rw, 0, 4, 128⟩
def SHD_GENERATORS : Fld := ⟨0x04, 0, 0, 0x30C, 8, 16, .rw, 0, 4, 128⟩
def SHD_ENCODERS : Fld := ⟨0x04, 0, 0, 0x30C, 0, 8, .rw, 0, 4, 128⟩
def SHD_STREAMS : Fld := ⟨0x04, 0, 0, 0x310, 0, 32, .rw, 0, 4, 128⟩
def SHD_TOUT : Fld := ⟨0x04, 0, 0, 0x314, 0, 32, .rw, 0, 4, 128⟩
def SHD_DIN : Fld := ⟨0x04, 0, 0, 0x318, 0, 24, .rw, 0, 4, 128⟩
def SHD_DQ_GROUPS : Fld := ⟨0x04, 0, 0, 0x31C, 0, 32, .rw, 0, 4, 128⟩
def SHD_IQ_GROUPS : Fld := ⟨0x04, 0, 0, 0x320, 0, 8, .rw, 0, 4, 128⟩
def SHD_HBM_REGIONS : Fld := ⟨0x04, 0, 0, 0x328, 0, 64, .rw, 0, 4, 128⟩
def TOUT_HELD : Fld := ⟨0x04, 1, 1, 0x100, 31, 1, .ro, 0, 32, 4⟩
def TOUT_DENIED : Fld := ⟨0x04, 1, 1, 0x100, 30, 1, .ro, 0, 32, 4⟩
def TOUT_OP : Fld := ⟨0x04, 1, 1, 0x100, 28, 2, .wo, 0, 32, 4⟩
def TOUT_PART : Fld := ⟨0x04, 1, 1, 0x100, 16, 2, .ro, 0, 32, 4⟩
def TOUT_CLASS : Fld := ⟨0x04, 1, 1, 0x100, 8, 6, .rw, 0, 32, 4⟩
def TOUT_INSTANCE : Fld := ⟨0x04, 1, 1, 0x100, 0, 6, .rw, 0, 32, 4⟩
def ENC_HELD : Fld := ⟨0x04, 1, 1, 0x180, 31, 1, .ro, 0, 8, 4⟩
def ENC_DENIED : Fld := ⟨0x04, 1, 1, 0x180, 30, 1, .ro, 0, 8, 4⟩
def ENC_OP : Fld := ⟨0x04, 1, 1, 0x180, 28, 2, .wo, 0, 8, 4⟩
def ENC_PART : Fld := ⟨0x04, 1, 1, 0x180, 16, 2, .ro, 0, 8, 4⟩
def ENC_CLASS : Fld := ⟨0x04, 1, 1, 0x180, 8, 6, .rw, 0, 8, 4⟩
def ENC_INSTANCE : Fld := ⟨0x04, 1, 1, 0x180, 0, 6, .rw, 0, 8, 4⟩
def GEN_HELD : Fld := ⟨0x04, 1, 1, 0x1A0, 31, 1, .ro, 0, 16, 4⟩
def GEN_DENIED : Fld := ⟨0x04, 1, 1, 0x1A0, 30, 1, .ro, 0, 16, 4⟩
def GEN_OP : Fld := ⟨0x04, 1, 1, 0x1A0, 28, 2, .wo, 0, 16, 4⟩
def GEN_PART : Fld := ⟨0x04, 1, 1, 0x1A0, 16, 2, .ro, 0, 16, 4⟩
def GEN_CLASS : Fld := ⟨0x04, 1, 1, 0x1A0, 8, 6, .rw, 0, 16, 4⟩
def GEN_INSTANCE : Fld := ⟨0x04, 1, 1, 0x1A0, 0, 6, .rw, 0, 16, 4⟩
def TC_HELD : Fld := ⟨0x04, 1, 1, 0x1E0, 31, 1, .ro, 0, 16, 4⟩
def TC_DENIED : Fld := ⟨0x04, 1, 1, 0x1E0, 30, 1, .ro, 0, 16, 4⟩
def TC_OP : Fld := ⟨0x04, 1, 1, 0x1E0, 28, 2, .wo, 0, 16, 4⟩
def TC_PART : Fld := ⟨0x04, 1, 1, 0x1E0, 16, 2, .ro, 0, 16, 4⟩
def TC_CLASS : Fld := ⟨0x04, 1, 1, 0x1E0, 8, 6, .rw, 0, 16, 4⟩
def TC_INSTANCE : Fld := ⟨0x04, 1, 1, 0x1E0, 0, 6, .rw, 0, 16, 4⟩
def RANGE_HELD : Fld := ⟨0x04, 2, 2, 0x108, 31, 1, .ro, 0, 32, 16⟩
def RANGE_DENIED : Fld := ⟨0x04, 2, 2, 0x108, 30, 1, .ro, 0, 32, 16⟩
def RANGE_OP : Fld := ⟨0x04, 2, 2, 0x108, 28, 2, .wo, 0, 32, 16⟩
def RANGE_PART : Fld := ⟨0x04, 2, 2, 0x108, 16, 2, .ro, 0, 32, 16⟩
def RANGE_CLASS : Fld := ⟨0x04, 2, 2, 0x108, 8, 6, .rw, 0, 32, 16⟩
def RANGE_INSTANCE : Fld := ⟨0x04, 2, 2, 0x108, 0, 6, .rw, 0, 32, 16⟩
def HBM_HELD : Fld := ⟨0x04, 3, 3, 0x100, 31, 1, .ro, 0, 64, 4⟩
def HBM_DENIED : Fld := ⟨0x04, 3, 3, 0x100, 30, 1, .ro, 0, 64, 4⟩
def HBM_OP : Fld := ⟨0x04, 3, 3, 0x100, 28, 2, .wo, 0, 64, 4⟩
def HBM_PART : Fld := ⟨0x04, 3, 3, 0x100, 16, 2, .ro, 0, 64, 4⟩
def HBM_CLASS : Fld := ⟨0x04, 3, 3, 0x100, 8, 6, .rw, 0, 64, 4⟩
def HBM_INSTANCE : Fld := ⟨0x04, 3, 3, 0x100, 0, 6, .rw, 0, 64, 4⟩
def CLR_BASE : Fld := ⟨0x04, 2, 2, 0x100, 0, 32, .rw, 0, 32, 16⟩
def CLR_LEN : Fld := ⟨0x04, 2, 2, 0x104, 0, 32, .rw, 0, 32, 16⟩
abbrev E_CLAIM_IN_USE : Nat := 0
abbrev E_RANGE_BAD : Nat := 1
end Claims

namespace Md
def ENTRY : Fld := ⟨0x03, 0, 0, 0x100, 0, 32, .ro, 0, 832, 4⟩
end Md

namespace Pl63
abbrev F_CM_DBE : Nat := 3
abbrev F_CM_SBE : Nat := 2
abbrev F_HGT_DBE : Nat := 1
abbrev F_HGT_SBE : Nat := 0
end Pl63

def fields00 : List Fld :=
  [AO.DEV_ID_PART_NUM, AO.DEV_ID_FAMILY, AO.DEV_ID_DEV_REV, AO.ACCESS_STAT_WEDGE, AO.ACCESS_STAT_ACC_TIMEOUT, AO.ACCESS_STAT_GATED_WR,
   AO.ACCESS_STAT_DENIED, AO.ACCESS_CNT_GATED_WR_CNT, AO.ACCESS_CNT_DENIED_CNT, AO.WEDGE_FIRST_VALID, AO.WEDGE_FIRST_OFFSET, AO.WEDGE_MAP_ISL,
   AO.OWNER_INFO_SRC, AO.OWNER_INFO_OWNER, AO.REQ_ID_FUNCTION, AO.REQ_ID_PART, AO.DEV_HEALTH_HEALTH, AO.HEALTH_PINS_REPLACE,
   AO.HEALTH_PINS_FAULT, AO.HEALTH_PINS_ALERT, AO.HEALTH_CMD_ALERT_CLR, AO.HEALTH_CMD_REPLACE_CLR, AO.DEGRADED_CNT, AO.HEALTH_REC_SPARE_MAP,
   AO.HEALTH_REC_TEMP_MAX, AO.LAST_DEG, AO.BOOT_STAT_BOOT_DONE, AO.BOOT_STAT_DEFAULTED, AO.BOOT_STAT_PART_DEF, AO.BOOT_STAT_MBIST_RAN,
   AO.BOOT_STAT_REFCLK_OK, AO.BOOT_STAT_BAD_WORDS, AO.BOOT_STAT_SMB_ADDR, AO.BOOT_STAT_H1_BIF, AO.BOOT_STAT_H0_BIF, AO.BOOT_STAT_OWN_SEL,
   AO.BOOT_TIME, AO.DEV_RESET]
def fields01 : List Fld :=
  [Fc.SUMMARY_FIRST_TIE, Fc.SUMMARY_FIRST_CLASS, Fc.FIRST_SRC_BIT, Fc.FIRST_SRC_CLASS, Fc.FIRST_SRC_INSTANCE, Fc.FC_CMD_KA_NOW,
   Fc.FC_CMD_CLR_CNT, Fc.FC_CMD_SUMMARY_CLR, Fc.FC_CFG_INJ_UNLOCK, Fc.FC_CFG_SRAM_SCRUB_S, Fc.FC_CFG_KA_PERIOD, Fc.FC_CFG_KA_EN,
   Fc.FC_CFG_SRAM_SCRUB_EN, Fc.FC_CFG_ALERT_CLASS, Fc.FC_CNT_A_CORRECTED_CNT, Fc.FC_CNT_A_INFO_CNT, Fc.FC_CNT_B_ERROR_CNT, Fc.FC_CNT_B_DEG_CNT,
   Fc.FC_CNT_C_FATAL_CNT, Fc.KA_FAIL_CE_MAP, Fc.KA_LCU_FAIL_LCU_MAP, Fc.KA_RUNS, Fc.TEMP_CFG_TEMP_NOW, Fc.TEMP_CFG_TEMP_WARN,
   Fc.CLASS_MAP, Fc.INST_MAP, Fc.STAT_GUARANTEE_OK, Fc.STAT_KA_RUNNING, Fc.STAT_HIGHEST, Fc.STAT_SCRUBBING]
def fields02 : List Fld :=
  [Nv.NV_WEAR_MAX_WEAR_MAX, Nv.NV_WEAR_SEC_SECTOR, Nv.NV_ERR_ADDR_WORD, Nv.NV_HEALTH_SEQ_SEQ, Nv.NV_CMD_BUSY, Nv.NV_CMD_ERR,
   Nv.NV_CMD_REFUSE, Nv.NV_CMD_OP, Nv.NV_ADDR_WORD, Nv.NV_DATA, Nv.NV_STAT_LOCKED, Nv.NV_STAT_VENDOR_OPEN,
   Nv.NV_STAT_PWR_OK, Nv.NV_STAT_UNLOCK_FAILS, Nv.NV_CHALLENGE, Nv.NV_RESPONSE]
def fields03 : List Fld :=
  [Md.ENTRY]
def fields04part0 : List Fld :=
  [Claims.PT_CTRL_BUSY, Claims.PT_CTRL_REFUSE, Claims.PT_CTRL_COMMIT, Claims.ACT_VALID, Claims.ACT_LINKS, Claims.ACT_PORTS,
   Claims.ACT_CES, Claims.ACT_GENERATORS, Claims.ACT_ENCODERS, Claims.ACT_STREAMS, Claims.ACT_TOUT, Claims.ACT_DIN,
   Claims.ACT_DQ_GROUPS, Claims.ACT_IQ_GROUPS, Claims.ACT_HBM_REGIONS, Claims.SHD_VALID, Claims.SHD_LINKS, Claims.SHD_PORTS,
   Claims.SHD_CES, Claims.SHD_GENERATORS, Claims.SHD_ENCODERS, Claims.SHD_STREAMS, Claims.SHD_TOUT, Claims.SHD_DIN,
   Claims.SHD_DQ_GROUPS, Claims.SHD_IQ_GROUPS, Claims.SHD_HBM_REGIONS, Claims.TOUT_HELD, Claims.TOUT_DENIED, Claims.TOUT_OP,
   Claims.TOUT_PART, Claims.TOUT_CLASS, Claims.TOUT_INSTANCE, Claims.ENC_HELD, Claims.ENC_DENIED, Claims.ENC_OP,
   Claims.ENC_PART, Claims.ENC_CLASS, Claims.ENC_INSTANCE, Claims.GEN_HELD]
def fields04part1 : List Fld :=
  [Claims.GEN_DENIED, Claims.GEN_OP, Claims.GEN_PART, Claims.GEN_CLASS, Claims.GEN_INSTANCE, Claims.TC_HELD,
   Claims.TC_DENIED, Claims.TC_OP, Claims.TC_PART, Claims.TC_CLASS, Claims.TC_INSTANCE, Claims.RANGE_HELD,
   Claims.RANGE_DENIED, Claims.RANGE_OP, Claims.RANGE_PART, Claims.RANGE_CLASS, Claims.RANGE_INSTANCE, Claims.HBM_HELD,
   Claims.HBM_DENIED, Claims.HBM_OP, Claims.HBM_PART, Claims.HBM_CLASS, Claims.HBM_INSTANCE, Claims.CLR_BASE,
   Claims.CLR_LEN]
def fields04 : List Fld := fields04part0 ++ fields04part1
def fields05 : List Fld :=
  [Isl.GATE, Isl.RESET, Isl.PWR]
def fields08part0 : List Fld :=
  [Lane.LANE_CFG_EXCLUDE, Lane.LANE_CFG_AUTO_POL, Lane.LANE_CFG_TX_INV, Lane.LANE_CFG_RX_INV, Lane.LANE_CFG_ADAPT_EN, Lane.TX_FFE_AMP,
   Lane.TX_FFE_POST, Lane.TX_FFE_PRE, Lane.ADAPT_CFG_FOM_DROP, Lane.ADAPT_CFG_FOM_GOOD, Lane.ADAPT_CFG_ADAPT_TD_MIN, Lane.ADAPT_CFG2_REVERT_LIMIT,
   Lane.ADAPT_CFG2_FOM_FAIL, Lane.ADAPT_CMD_CLR_CNT, Lane.ADAPT_CMD_CLEAR_STUCK, Lane.ADAPT_CMD_RESTART, Lane.ADAPT_CMD_SNAP_NOW, Lane.ADAPT_CMD_REVERT_NOW,
   Lane.FOM_INFO_FOM_MIN, Lane.FOM_INFO_SNAP_FOM, Lane.FOM_INFO_FOM_HWM, Lane.FOM_INFO_FOM, Lane.EYE_EW, Lane.EYE_EH,
   Lane.RX_EQ_VGA, Lane.RX_EQ_CTLE, Lane.CNT_A_REVERT_CNT, Lane.CNT_A_TD_FROZEN_CNT, Lane.CNT_B_LOCK_LOSS_CNT, Lane.CNT_B_HDR_ERR_CNT,
   Lane.SCAN_CTRL_BUSY, Lane.SCAN_CTRL_DWELL_LOG2, Lane.SCAN_CTRL_V_OFF, Lane.SCAN_CTRL_H_OFF, Lane.SCAN_CTRL_START, Lane.SCAN_RES_DONE,
   Lane.SCAN_RES_ERR_CNT, Lane.TAP1, Lane.TAP2, Lane.TAP3]
def fields08part1 : List Fld :=
  [Lane.TAP4, Lane.TAP5, Lane.TAP6, Lane.TAP7, Lane.TAP8, Lane.TAP9,
   Lane.TAP10, Lane.TAP11, Lane.TAP12, Lane.TAP13, Lane.TAP14, Lane.TAP15,
   Lane.STAT_FOM, Lane.STAT_HDR_LOCK, Lane.STAT_COMMA_LOCK, Lane.STAT_RX_LOGICAL, Lane.STAT_POL_INV, Lane.STAT_TD_LOW,
   Lane.STAT_FOM_HELD, Lane.STAT_SNAP_VALID, Lane.STAT_ADAPT_STUCK, Lane.STAT_FAILED, Lane.STAT_ACTIVE, Lane.STAT_ACQUIRING]
def fields08 : List Fld := fields08part0 ++ fields08part1
def fields0Apart0 : List Fld :=
  [Port.LG_CFG_EXPECT_MASK, Port.LG_CFG_AUTO_NARROW, Port.LG_CFG_LANE_FAIL_TIME, Port.LG_CFG_SSC_FREQ, Port.LG_CFG_SSC_DEPTH, Port.LG_CFG_SSC_EN,
   Port.LG_CFG_REFOUT_EN, Port.LG_CFG_RATE, Port.LG_STAT_REFOUT_OK, Port.LG_STAT_RATE_WARN, Port.LG_STAT_NARROW_PENDING, Port.LG_STAT_WIDTH,
   Port.LG_STAT_ACTIVE_MASK, Port.LG_STAT_FAR_MASK, Port.LG_STAT_NEAR_MASK, Port.LG_STAT_EXCLUDED, Port.LINE_BYTES, Port.RATE_INFO_DEMAND,
   Port.RATE_INFO_CAPACITY, Port.LG_CMD_WIDEN, Port.NARROW_CNT, Port.PORT_CFG_LOCK_TIMEOUT, Port.PORT_CFG_AUTO_ID, Port.PORT_CFG_TIME_EN,
   Port.RETRY_CFG_RETRY_TIME, Port.RETRY_CFG_TX_WINDOW, Port.TRIG_CFG_GEN_EN, Port.TRIG_CFG_GEN, Port.TRIG_CFG_ACTION, Port.TRIG_CFG_TRIG_LEAD,
   Port.TRIG_EXPO_EXPOSURE, Port.DELAY_ASYM, Port.PD_STEP_LIMIT, Port.PATH_DELAY, Port.D_GOOD, Port.OFFSET,
   Port.TIME_CMD_TIME_NOW, Port.TIME_CMD_TIME_ACK, Port.MGMT_CMD_BUSY, Port.MGMT_CMD_STATUS]
def fields0Apart1 : List Fld :=
  [Port.MGMT_CMD_OP, Port.MGMT_CMD_COUNT, Port.MGMT_ADDR_ADDR, Port.LB_CTRL_ACTIVE, Port.LB_CTRL_LB_STATUS, Port.LB_CTRL_MODE,
   Port.LB_CTRL_DURATION, Port.ID_STAT_ID_VALID, Port.ID_STAT_ID_BAD, Port.ID_STAT_RATE_UNSUP, Port.ID_STAT_LANES_MISMATCH, Port.CNT_A_CRC_ERR_CNT,
   Port.CNT_A_CAM_DROP_CNT, Port.CNT_B_TRIG_LATE_CNT, Port.CNT_B_CAM_TRIG_LATE_CNT, Port.CNT_C_RETRY_CNT, Port.CNT_C_OOS_CNT, Port.CNT_D_TIME_LOST_CNT,
   Port.CNT_D_UNKNOWN_CNT, Port.CNT_E_TRIG_ABANDON_CNT, Port.CNT_E_LB_ERR_CNT, Port.CNT_CMD_CLR_CNT, Port.MGMT_DATA, Port.STAT_LINK_UP,
   Port.STAT_NOLOCK, Port.STAT_TIME_VALID, Port.STAT_TIME_SUSPECT, Port.STAT_PD_STEP_PENDING, Port.STAT_LB_ACTIVE, Port.STAT_MGMT_BUSY,
   Port.STAT_SYNC_PENDING, Port.STAT_CTRL_OUT]
def fields0A : List Fld := fields0Apart0 ++ fields0Apart1
def fields0B : List Fld :=
  [Ingest.PI_CFG_LINE_TIMEOUT, Ingest.RX_UNITS, Ingest.VID_LIMIT, Ingest.LINES_IN, Ingest.PI_CNT_A_INCOMPLETE_CNT, Ingest.PI_CNT_A_LOST_LINES_CNT,
   Ingest.PI_CNT_B_SEQ_ERR_CNT, Ingest.PI_CNT_B_TIMEOUT_CNT, Ingest.PI_CMD_CLR_CNT, Ingest.STAT_ASSEMBLING, Ingest.STAT_SWALLOWING]
def fields0Cpart0 : List Fld :=
  [Lcu.LCU_CFG_FMT_EXP, Lcu.LCU_CFG_SUB_REACH, Lcu.LCU_CFG_INC_USE, Lcu.LCU_CFG_AREA, Lcu.LCU_CFG_SCREED_EN, Lcu.LCU_CFG_MATRIX_EN,
   Lcu.LCU_CFG_SIZING_EN, Lcu.LCU_WIDTH_WIDTH, Lcu.ROW_DELAY_DELAY_B, Lcu.ROW_DELAY_DELAY_G, Lcu.ROW_DELAY_DELAY_R, Lcu.SCR_CFG_GAP_LIMIT,
   Lcu.SCR_CFG_DIR, Lcu.SCR_CFG_SCR_CH, Lcu.GRID_NUM, Lcu.GRID_DEN, Lcu.SCR_OFFSET, Lcu.HIST_REGION_REGION,
   Lcu.LCU_CMD_CLR_CNT, Lcu.LCU_CMD_MTX_COMMIT, Lcu.LCU_CMD_BANK_SWITCH, Lcu.MTX0_M01, Lcu.MTX0_M00, Lcu.MTX1_M10,
   Lcu.MTX1_M02, Lcu.MTX2_M12, Lcu.MTX2_M11, Lcu.MTX3_M21, Lcu.MTX3_M20, Lcu.MTX4_M22,
   Lcu.MOFS0_O1, Lcu.MOFS0_O0, Lcu.MOFS1_O2, Lcu.LINES_IN, Lcu.TILES_OUT, Lcu.CLIP_CNT,
   Lcu.CNT_A_NO_POS_CNT, Lcu.CNT_A_INC_DROP_CNT, Lcu.CNT_B_STILL_CNT, Lcu.CNT_B_GAP_CNT]
def fields0Cpart1 : List Fld :=
  [Lcu.CNT_C_FMT_ERR_CNT, Lcu.CNT_C_SUB_FAIL_CNT, Lcu.CNT_D_OUTSIDE_CNT, Lcu.CNT_D_REREAD_CNT, Lcu.LAST_LINE_POS, Lcu.NEXT_GRID_POS,
   Lcu.STAT_BANK_ACTIVE, Lcu.STAT_BANK_PENDING, Lcu.STAT_MTX_PENDING, Lcu.STAT_IN_SEGMENT, Lcu.STAT_HOLD, Lcu.STAT_HIST_WAIT,
   Lcu.STAT_FRAME_OPEN, Lcu.STAT_REREADING]
def fields0C : List Fld := fields0Cpart0 ++ fields0Cpart1
def fields0Dpart0 : List Fld :=
  [Ce.KEY_CFG_KEY_ROWS, Ce.KEY_CFG_REREAD_LINES, Ce.KEY_CFG_FIT_MODE, Ce.KEY_CFG_KEY_FAIL_GO, Ce.KEY_LIMITS_RESID_MAX, Ce.KEY_LIMITS_SCALE_MAX,
   Ce.FLOAT_CFG_NCC_MIN, Ce.FLOAT_CFG_UNIQ, Ce.FLOAT_CFG_ALPHA, Ce.FLOAT_CFG_CORR_SEL, Ce.FLOAT_CFG_FLOAT_EN, Ce.FLOAT_CFG2_TEXTURE_MIN,
   Ce.FLOAT_CFG2_JUMP, Ce.FLOAT_CFG2_LOST_PCT, Ce.CMP_WEIGHT_CW_B, Ce.CMP_WEIGHT_CW_G, Ce.CMP_WEIGHT_CW_R, Ce.REG_CFG_REF_INK,
   Ce.CMP_CMD_CLR_CNT, Ce.KEY_CNT_A_KEY_FAIL_CNT, Ce.KEY_CNT_A_FID_MISS_CNT, Ce.KEY_CNT_B_FID_OUTSIDE_CNT, Ce.KEY_CNT_B_LINE_DY_FAIL_CNT, Ce.FLOAT_CNT_REG_LOST_CNT,
   Ce.FLOAT_CNT_JUMP_CNT, Ce.FLOAT_NOMEAS_CNT, Ce.REG_CNT_REG_STALE_CNT, Ce.REG_CNT_REG_NODATA_CNT, Ce.REG_CYCLE, Ce.MASK_BUSY,
   Ce.REG_LAST_DY, Ce.REG_LAST_DX, Ce.REG_LAST_INFO_VALID, Ce.REG_LAST_INFO_STALE, Ce.REG_LAST_INFO_CONF_MIN, Ce.REG_LAST_INFO_INK_MASK,
   Ce.LAST_KEY, Ce.SEG_CFG_NI_ROWS_MAX, Ce.SEG_CFG_STALL_TIME, Ce.CHK_CFG_REG_TOL]
def fields0Dpart1 : List Fld :=
  [Ce.SNAG_CFG_SNAG_MAX, Ce.SNAG_CFG_SNAG_TILE_MAX, Ce.SNAG_CFG_SNAG_TILES_EN, Ce.SNAG_CFG_SNAG_REGION, Ce.OUT_Q_PATCH_Q, Ce.OUT_Q_NOZ_Q,
   Ce.OUT_Q_SNAG_Q, Ce.OUT_Q_VERDICT_Q, Ce.OUT_CFG_VX_EN, Ce.OUT_CFG_VX_UNINSP, Ce.OUT_CFG_VX_STREAM, Ce.OUT_CFG_PATCH_QEN,
   Ce.OUT_CFG_NOZ_QEN, Ce.OUT_CFG_SNAG_QEN, Ce.OUT_CFG_VERDICT_QEN, Ce.VX_TEMPLATE_ENTRY, Ce.VX_DIST, Ce.CE_CMD_CLR_CNT,
   Ce.CE_CMD_GIVE_BACK, Ce.CE_CMD_TAKEOVER, Ce.SPARE_STAT_SERVING, Ce.SPARE_STAT_NOTABLES, Ce.SPARE_STAT_SERVED_ENGINE, Ce.CE_CNT_A_UNINSP_CNT,
   Ce.CE_CNT_A_FAIL_CNT, Ce.PASS_CNT, Ce.CE_CNT_B_SNAG_LOST_CNT, Ce.CE_CNT_B_VX_DROP_CNT, Ce.CE_CNT_C_ORDER_CUT_CNT, Ce.CE_CNT_C_DEADLINE_CNT,
   Ce.CE_CNT_D_PATCH_NODATA_CNT, Ce.CE_CNT_D_REF_WAIT_CNT, Ce.LAST_VERDICT_REASON, Ce.LAST_VERDICT_VERDICT, Ce.LAST_VERDICT_FAIL_MASK, Ce.LAST_VERDICT_PORT,
   Ce.LAST_SEG_NUM, Ce.STAT_HOLDBACK, Ce.STAT_KEYED, Ce.STAT_LINE_PASS]
def fields0Dpart2 : List Fld :=
  [Ce.STAT_BACKLOG, Ce.STAT_FAILED, Ce.STAT_SERVING, Ce.STAT_SERVED_PORT, Ce.STAT_IN_FLIGHT]
def fields0D : List Fld := fields0Dpart0 ++ fields0Dpart1 ++ fields0Dpart2
def fields0E : List Fld :=
  [Ri.PROF_BASE_OFFSET, Ri.PROF_BASE_REGION, Ri.RI_CMD_CLR_CNT, Ri.PROF_VALID, Ri.PROF_BUSY, Ri.RI_CNT_A_REFUSED_CNT,
   Ri.RI_CNT_A_SEG_WAIT_CNT, Ri.RI_CNT_B_SPACE_WAIT_CNT, Ri.RI_CNT_B_THOKEN_ERR_CNT, Ri.TILES_IN, Ri.LAST_REFUSE_STATUS, Ri.LAST_REFUSE_QUEUE,
   Ri.RA_BASE_OFFSET, Ri.RA_BASE_REGION, Ri.RA_SIZE_SIZE, Ri.RA_USED_USED, Ri.RA_STAT_LOADING, Ri.RA_STAT_NEXT_COL,
   Ri.RA_STAT_NEXT_ROW, Ri.RA_SEL_SEL_EN, Ri.RA_SEL_AREA, Ri.SEG_STAT_IN_FLIGHT, Ri.STAT_SEG_WAIT, Ri.STAT_SPACE_WAIT,
   Ri.STAT_CHECKING]
def fields0F : List Fld :=
  [Pl.PL_CFG_T_STREAK, Pl.PL_CFG_DEV_REACH, Pl.PL_CFG_PL_COV_MIN, Pl.PL_CFG_PL_FAIL_EN, Pl.PL_LIMITS_PL_N_MIN, Pl.PL_LIMITS_PL_MAX_REPORT,
   Pl.PL_CMD_CLR_CNT, Pl.PL_CMD_CLEAR_ACC, Pl.PL_CYCLE, Pl.PL_LAST_STREAKS, Pl.PL_CNT_PL_TRUNC_CNT, Pl.PL_CNT_COLMAP_MISS_CNT,
   Pl.PL_LAST_TIME, Pl.STAT_STREAK_ACTIVE, Pl.STAT_EVALUATING]
def fields10part0 : List Fld :=
  [Pos.ENC_CFG_SPD_AVG_LOG2, Pos.ENC_CFG_QERR_LIMIT, Pos.ENC_CFG_WIRE_TIME, Pos.ENC_CFG_LIMIT_EN, Pos.ENC_CFG_Z_QUAL, Pos.ENC_CFG_Z_MODE,
   Pos.ENC_CFG_DIR_INV, Pos.ENC_CFG_MODE, Pos.STOP_TIME, Pos.HIST_CFG_HIST_EN, Pos.HIST_CFG_HIST_INTERVAL, Pos.SER_CFG_GRAY,
   Pos.SER_CFG_SSI_ERRBIT, Pos.SER_CFG_POS_BITS, Pos.SER_CFG_SER_CLK_DIV, Pos.SER_TIMING_SER_PERIOD, Pos.SER_TIMING_SAMPLE_DLY, Pos.SER_LATCH_LATCH_OFS,
   Pos.LIMIT_LO, Pos.LIMIT_HI, Pos.REBASE_OFFSET, Pos.POS_CMD_ID_READ, Pos.POS_CMD_CLR_CNT, Pos.POS_CMD_Z_ARM,
   Pos.POS_CMD_CLR_SUSPECT, Pos.POS_CMD_CLR_EXCESS, Pos.POS_CMD_REBASE, Pos.POSITION, Pos.SPEED, Pos.SNAP_TIME,
   Pos.LIMIT_EXCESS, Pos.INDEX_POS, Pos.INDEX_TIME, Pos.HIST_SEQ, Pos.HIST_BASE, Pos.SER_BASE,
   Pos.SER_STAT_LAST_ERR, Pos.SER_STAT_LINE_DELAY, Pos.SER_RAW, Pos.CNT_A_ILLEGAL_CNT]
def fields10part1 : List Fld :=
  [Pos.CNT_A_BACKSTEP_CNT, Pos.CNT_B_SER_ERR_CNT, Pos.CNT_B_OVERSPEED_CNT, Pos.CNT_C_WIRE_CNT, Pos.CNT_C_REBASE_CNT, Pos.ID_CFG_ID_POLL,
   Pos.ID_CFG_ID_FAST, Pos.ID_STAT_PRESENT, Pos.ID_STAT_ID_VALID, Pos.ID_STAT_ID_BAD, Pos.ID_STAT_MODE_MISMATCH, Pos.ID_STAT_BUS_ERR,
   Pos.EPOCH_OFS, Pos.STAT_FAULT, Pos.STAT_POS_SUSPECT, Pos.STAT_STOPPED, Pos.STAT_DIR_NEG, Pos.STAT_AT_LIMIT_HI,
   Pos.STAT_AT_LIMIT_LO, Pos.STAT_WIRE_A, Pos.STAT_WIRE_B, Pos.STAT_WIRE_Z, Pos.STAT_LEVEL_A, Pos.STAT_LEVEL_B,
   Pos.STAT_LEVEL_Z, Pos.STAT_Z_ARMED, Pos.STAT_SER_HOLD, Pos.STAT_EPOCH]
def fields10 : List Fld := fields10part0 ++ fields10part1
def fields11 : List Fld :=
  [Din.DIN_CFG_WIRE_TIME, Din.DIN_CFG_TC, Din.DIN_CFG_TC_EN, Din.DIN_CFG_POS_CH, Din.DIN_CFG_POS_EN, Din.DIN_CFG_EDGES,
   Din.DIN_CFG_INV, Din.DIN_CFG_DIFF, Din.DEBOUNCE, Din.DIN_CMD_CLR_CNT, Din.EDGE_CNT, Din.DIN_CNT_EV_LOST_CNT,
   Din.DIN_CNT_GLITCH_CNT, Din.LAST_RISE, Din.LAST_FALL, Din.EV_ITEM, Din.STAT_LEVEL, Din.STAT_RAW,
   Din.STAT_WIRE, Din.STAT_PRECISE, Din.STAT_DEBOUNCING]
def fields12 : List Fld :=
  [Out.OUT_CFG_TC, Out.OUT_CFG_FINE_EN, Out.OUT_CFG_FORCE, Out.OUT_CFG_SAFE, Out.OUT_CFG_POL, Out.OUT_CFG_ELEC,
   Out.OUT_DELAY, Out.OUT_CMD_CLR_CNT, Out.OUT_CMD_SAFE_EXIT, Out.PULSE_CNT, Out.OUT_CNT_MERGE_CNT, Out.OUT_CNT_LOST_CNT,
   Gen.GEN_CFG_GATE_SRC, Gen.GEN_CFG_GATE_MODE, Gen.GEN_CFG_DIR, Gen.GEN_CFG_CH, Gen.NUM, Gen.DEN,
   Gen.START_POS, Gen.PHASE, Gen.LINES_PER_GATE, Gen.MIN_PERIOD, Gen.GEN_OUT_MASK, Gen.GEN_PW,
   Gen.GEN_CMD_CLR_CNT, Gen.GEN_CMD_CLOSE, Gen.GEN_CMD_OPEN, Gen.NEXT_POS, Gen.LINE_CNT, Gen.LAST_LINE_POS,
   Gen.LAST_LINE_TIME, Gen.GEN_CNT_SKIP_CNT, Gen.GEN_CNT_PORT_DISCARD_CNT, Out.STAT_ACTIVE, Out.STAT_SAFE_ACTIVE, Out.STAT_READBACK,
   Gen.STAT_OPEN, Gen.STAT_HOLD]
def fields13 : List Fld :=
  [Cs.CS_CFG_ARM_IN, Cs.CS_CFG_ARM, Cs.CS_CFG_GEN_SRC, Cs.CS_CFG_MODE, Cs.CS_CFG_SRC, Cs.CS_CFG_DIR,
   Cs.CS_CFG_CH, Cs.START_IDX, Cs.LOOP_IDX, Cs.BASE, Cs.LOOP_STEP, Cs.OUT_SLOT_EN,
   Cs.OUT_SLOT_KIND, Cs.OUT_SLOT_TARGET, Cs.OUT_SLOT_ACTION, Cs.OUT_SLOT_OUT,
   Cs.PW, Cs.AVAIL_PT, Cs.LOAD_PT, Cs.CS_CMD_CLR_CNT, Cs.CS_CMD_RELOAD, Cs.CS_CMD_STOP,
   Cs.CS_CMD_ARM, Cs.LAST_FIRE_POS, Cs.LAST_FIRE_TIME, Cs.CS_CNT_A_MISSED, Cs.CS_CNT_A_ARM_OVERRUN, Cs.FIRED_CNT,
   Cs.CS_CNT_B_PORT_DISCARD_CNT, Cs.CS_CNT_B_VOX_REFUSED_CNT, Cs.LAST_FIRE_IDX, Cs.NEXT_ENTRY, Cs.STAT_STATE, Cs.STAT_LATCHED]
def fields14 : List Fld :=
  [Tu.TIME, Tu.INCR, Tu.STEP_MAG, Tu.TU_CMD_CLR_CNT, Tu.TU_CMD_STEP_BACK, Tu.TU_CMD_STEP_FWD,
   Tu.INCR_TIME, Tu.STEP_TIME, Tu.TU_CNT_STEP_CNT, Tu.TU_CNT_INCR_CNT, Tu.CAP_MAP_HELD]
def fields15 : List Fld :=
  [Ta.TA_CFG_EXPOSE_LEAD, Ta.TA_CMD_CLR_CNT, Ta.EXEC_CNT, Ta.TA_CNT_A_LATE_CNT, Ta.TA_CNT_A_LATE_RUN_CNT, Ta.TA_CNT_B_SKIP_CNT,
   Ta.TA_CNT_B_REFUSED_CNT, Ta.TA_STAT_PENDING, Ta.TA_STAT_LAST_LATE_IDX]
def fields16part0 : List Fld :=
  [Eth.ETH_CFG_TX_Q, Eth.ETH_CFG_RX_Q, Eth.ETH_CFG_ID_FAST, Eth.ETH_CFG_PROMISC, Eth.ETH_CFG_FEC, Eth.ETH_CFG_SPEED,
   Eth.MAX_FRAME, Eth.MAC_ADDR, Eth.PTP_CFG_DOMAIN, Eth.PTP_CFG_LOG_INTERVAL, Eth.PTP_CFG_TRANSPORT, Eth.PTP_CFG_INIT_EN,
   Eth.PTP_CFG_RESP_EN, Eth.PTP_CFG_SYNC_TIMEOUT, Eth.PORT_NUM, Eth.CLOCK_ID, Eth.MASTER_CLOCK, Eth.MASTER_PORT_WATCH_EN,
   Eth.MASTER_PORT_PORT_NUM, Eth.DELAY_ASYM, Eth.GM_SEEN, Eth.PD_STEP_LIMIT, Eth.PD_POST, Eth.PATH_DELAY,
   Eth.D_GOOD, Eth.DLY, Eth.ETH_CMD_CLR_CNT, Eth.ETH_CMD_ID_READ, Eth.ETH_CMD_PD_ACK, Eth.ETH_CNT_A_RX_ERR_CNT,
   Eth.ETH_CNT_A_RX_DROP_CNT, Eth.ETH_CNT_B_PDELAY_LOST_CNT, Eth.ETH_CNT_B_PDELAY_RESP_CNT, Eth.SFP_STAT_PRESENT, Eth.SFP_STAT_ID_VALID, Eth.SFP_STAT_ID_BAD,
   Eth.SFP_STAT_RATE_MISMATCH, Eth.SFP_STAT_LOS, Eth.SFP_STAT_TX_FAULT, Eth.SFP_STAT_BUS_ERR]
def fields16part1 : List Fld :=
  [Eth.STAT_LINK_UP, Eth.STAT_HOLDOVER, Eth.STAT_PD_STEP_PENDING, Eth.STAT_D_GOOD_VALID]
def fields16 : List Fld := fields16part0 ++ fields16part1
def fields17 : List Fld :=
  [Vox.VOX_CFG_VOX_ETYPE, Vox.VOX_CFG_DOMAIN, Vox.VOX_ID_NODE_ID, Vox.VOX_MCAST, Vox.VOX_VLAN_VLAN_EN, Vox.VOX_VLAN_VLAN_PCP,
   Vox.VOX_VLAN_VLAN_VID, Vox.VOX_RETRY_RETRIES, Vox.VOX_RETRY_RETRY_TIME, Vox.VOX_CMD_CLR_CNT, Vox.SENT_CNT, Vox.VOX_CNT_A_REFUSED_CNT,
   Vox.VOX_CNT_A_VERDICT_DROP_CNT, Vox.VOX_CNT_B_NOACK_CNT, Vox.VOX_CNT_B_DUP_CNT, Vox.LAST_NOACK_SEQ, Vox.LAST_NOACK_DST, Vox.VOX_STAT_QUEUED]
def fields18 : List Fld :=
  [Hbm.ECC_CFG_SPARE_THRESH, Hbm.ECC_CFG_SCRUB_HOURS, Hbm.ECC_CFG_SPARE_AUTO, Hbm.ECC_CFG_SCRUB_EN, Hbm.HBM_CMD_PC, Hbm.HBM_CMD_SPARE_NOW,
   Hbm.HBM_CMD_CLR_CNT, Hbm.SCRUB_STAT_PASS_CNT, Hbm.SCRUB_STAT_PROGRESS, Hbm.ECC_CNT_DBE_CNT, Hbm.ECC_CNT_SBE_CNT, Hbm.ERR_ADDR,
   Hbm.HBM_TEMP_TEMP, Hbm.STAT_READY, Hbm.STAT_COPYING, Hbm.STAT_SPARED, Hbm.STAT_SPARED_PC]
def fields19 : List Fld :=
  [Rgn.REG_LOC_SIZE, Rgn.REG_LOC_BASE, Rgn.REG_CFG_HOST_WR, Rgn.REG_CFG_SLOT_CHAN, Rgn.REG_CFG_KIND, Rgn.REG_ADDR,
   Rgn.SLOTS, Rgn.WR_SEQ, Rgn.WRAP_CNT, Rgn.SEQ_WRAP]
def fields1A : List Fld :=
  [De.DE_CFG_DATA_RO, De.DE_STAT_RD_INFLIGHT, De.DE_STAT_WR_INFLIGHT, De.DE_CNT_REUSED_CNT, De.DE_CNT_DATA_ERR_CNT, De.DE_CMD_CLR_CNT,
   De.PORT_DELIV_TILE_EVERY, De.PORT_DELIV_SNAGT_EN, De.PORT_DELIV_TILE_MODE, De.PORT_DELIV_TILE_Q, De.SNAGT_Q]
def fields1B : List Fld :=
  [Dq.STAT_ENABLED, Dq.GRP_PEND]
def fields1C : List Fld :=
  [Link.LINK_STAT_DL_UP, Link.LINK_STAT_FLIT, Link.LINK_STAT_BIFURCATED, Link.LINK_STAT_SPEED, Link.LINK_STAT_WIDTH, Link.LINK_STAT_ACT_WIDTH,
   Link.LINK_STAT_PART, Link.LINK_STAT_VFS, Link.LINK_STAT_PF_DSTATE, Link.LINK_CFG_L0P_EN, Link.LINK_CFG_L1_IDLE, Link.WAKE_CFG_WAKE_STREAM,
   Link.WAKE_CFG_WAKE_S, Link.WAKE_CFG_WAKE_D0, Link.WAKE_CFG_WAKE_VOX, Link.WAKE_STAT_WAKE_CNT, Link.WAKE_STAT_LAST_SRC, Link.CPL_CNT_UNEXP_CPL_CNT,
   Link.CPL_CNT_CPL_TIMEOUT_CNT, Link.TAG_STAT_QUARANTINED, Link.TAG_STAT_OUTSTANDING, Link.RST_CNT_FUND_CNT, Link.RST_CNT_HOT_CNT, Link.RST_CNT_FLR_CNT,
   Link.RST_STAT_PARTIAL, Link.RST_STAT_PART_RESET, Link.STALE_CNT_STALE_CPL_CNT, Link.INTX_ACK_VECTOR, Link.LINK_CMD_CLR_CNT, Link.FUNC_PASID_PASID_EN,
   Link.FUNC_PASID_PASID, Link.STAT_DL_UP, Link.STAT_IN_RESET, Link.STAT_INTX_ASSERTED, Link.STAT_TAGS_LOW]
def fields1D : List Fld :=
  [Wtt.WTT_CMD_BUSY, Wtt.WTT_CMD_REFUSE, Wtt.WTT_CMD_CLR_CNT, Wtt.WTT_CMD_COMMIT, Wtt.WTT_CMD_WINDOW, Wtt.WTT_INFO_WINDOWS,
   Wtt.WTT_CNT_DENY_CNT, Wtt.WTT_CNT_MISS_CNT, Wtt.STAT_BUSY]
def fields1E : List Fld :=
  [Int.INT_INFO_VECTORS, Int.INT_CMD_CLR_CNT, Int.MSG_CNT, Int.GAP_HELD_CNT]
def fields1Fpart0 : List Fld :=
  [Test.TEST_CMD_CLR_CNT, Test.PLB_CFG_RATE, Test.PLB_CFG_PATTERN, Test.PLB_CFG_DEPTH, Test.PLB_STAT_ACTIVE, Test.PLB_STAT_LOCKED,
   Test.PLB_STAT_ERR_LANES, Test.PLB_ERR_CNT, Test.ROUTE_D, Test.ROUTE_E, Test.TEST_OUT, Test.QGEN_START,
   Test.QGEN_DIR, Test.QGEN_CH, Test.QGEN_EDGES, Test.QGEN_PERIOD_PERIOD, Test.PAD_D, Test.PAD_E,
   Test.HLB_CFG_START, Test.HLB_CFG_PASS, Test.HLB_CFG_FAIL, Test.HLB_CFG_REGION, Test.HLB_CFG_MODE, Test.ERR_CNT,
   Test.ERR_ADDR, LbF.LB_CFG_GEN_LEN, LbF.LB_CFG_GEN_FMT, LbF.LB_CFG_GEN_KIND, LbF.LB_CFG_GEN_EN, LbF.LB_CFG_DEPTH,
   LbF.INJ_CFG_INJ_EN, LbF.INJ_CFG_DIR, LbF.INJ_CFG_ACTION, LbF.INJ_CFG_SELECT, LbF.INJ_CFG_RAND_BIT, LbF.INJ_CFG_HOLD,
   LbF.INJ_CFG_K, LbF.INJ_CFG_N, LbF.INJ_CFG2_BIT_POS, LbF.INJ_TYPE_TYPE_SEL]
def fields1Fpart1 : List Fld :=
  [LbF.INJ_SEED_SEED, LbF.INJ_STAT_HELD, LbF.INJ_STAT_INJ_CNT, LbF.GEN_CNT, LbF.CHK_ERR_CNT, Test.STAT_LOOP_ANY,
   Test.STAT_QGEN_BUSY]
def fields1F : List Fld := fields1Fpart0 ++ fields1Fpart1
def fields20 : List Fld :=
  [Bist.BIST_CMD_BUSY, Bist.BIST_CMD_BOOT, Bist.BIST_CMD_LBIST_RUN, Bist.BIST_CMD_MBIST_RUN, Bist.BIST_SEL, Bist.BIST_FAIL,
   Bist.BIST_REP, Bist.ROWS_USED]
def fieldsQ : List Fld :=
  [Q.Q_CFG_AUTO_RELEASE, Q.Q_CFG_CT_THRESH, Q.Q_SIZE_UNIT_LOG2, Q.Q_SIZE_SIZE, Q.Q_WM_HI_WM_HI_LEVEL, Q.Q_WM_LO_WM_LO_LEVEL,
   Q.Q_CMD_CLR_CNT, Q.Q_CMD_FLUSH, Q.Q_CMD_RELEASE, Q.Q_CMD_REWIND, Q.Q_CMD_MARK, Q.Q_STAT_ABOVE,
   Q.Q_STAT_FLUSH_BUSY, Q.Q_STAT_MARK_VALID, Q.Q_STAT_EMPTY, Q.Q_STAT_CUT, Q.Q_STAT_USED, Q.Q_FREE_FREE,
   Q.Q_RESV_RESV_UNITS, Q.WR_PT, Q.RD_PT, Q.MARK_PT, Q.REL_PT, Q.Q_CNT_A_WM_HI_COUNT,
   Q.Q_CNT_A_FLUSH_CUT, Q.Q_CNT_B_REWIND_CNT, Q.Q_CNT_B_IDLE_READS, Q.Q_ITEMS_ITEMS, Q.Q_EVT_Q_EVT_EN, Q.Q_EVT_MARK_STALL,
   Q.Q_EVT_NO_MARK, Q.Q_EVT_FLUSH_DONE, Q.Q_EVT_WM_LO, Q.Q_EVT_WM_HI]
def fieldsDq : List Fld :=
  [Dq.RING_BASE, Dq.RING_CFG_Q_EN, Dq.RING_CFG_INTAKE, Dq.RING_CFG_FUNCTION, Dq.RING_CFG_FULL_DROP, Dq.RING_CFG_LOG2_ENTRIES,
   Dq.PTR_POST, Dq.MIRROR, Dq.Q_VEC_VEC_EN, Dq.Q_VEC_VECTOR, Dq.Q_PEND_PENDING, Dq.Q_PEND_PEND_MAX,
   Dq.Q_CNT_C_DROP_CNT, Dq.Q_CNT_C_DESC_ERR_CNT, Dq.FLUSH_FROM, Dq.LAST_STATUS_STATUS, Dq.LAST_STATUS_SLOT, Dq.ITEMS_TOTAL]
def fieldsTbl : List Fld :=
  [Tbl.TBL_ADDR_TABLE, Tbl.TBL_ADDR_INDEX, Tbl.TBL_CMD_BUSY, Tbl.TBL_CMD_ERR, Tbl.TBL_CMD_AUTO_INC, Tbl.TBL_CMD_OP,
   Tbl.TBL_INFO_ENTRY_BYTES, Tbl.TBL_INFO_ENTRIES_M1, Tbl.TBL_BASE, Tbl.TBL_DATA]

/-- The block fields of a class, without the header, the queue blocks and the indirect port. -/
def blockFields (c : Nat) : List Fld :=
  match c with
  | 0x00 => fields00
  | 0x01 => fields01
  | 0x02 => fields02
  | 0x03 => fields03
  | 0x04 => fields04
  | 0x05 => fields05
  | 0x08 => fields08
  | 0x0A => fields0A
  | 0x0B => fields0B
  | 0x0C => fields0C
  | 0x0D => fields0D
  | 0x0E => fields0E
  | 0x0F => fields0F
  | 0x10 => fields10
  | 0x11 => fields11
  | 0x12 => fields12
  | 0x13 => fields13
  | 0x14 => fields14
  | 0x15 => fields15
  | 0x16 => fields16
  | 0x17 => fields17
  | 0x18 => fields18
  | 0x19 => fields19
  | 0x1A => fields1A
  | 0x1B => fields1B
  | 0x1C => fields1C
  | 0x1D => fields1D
  | 0x1E => fields1E
  | 0x1F => fields1F
  | 0x20 => fields20
  | _ => []

/-- Severity of an FLT bit (R8), or none where the page has no such bit. Pages of one class that differ by instance are told apart. -/
def fltSeverity (c inst b : Nat) : Option Nat :=
  match c with
  | 0x01 => (match b with | 31 => some 4 | 30 => some 4 | 29 => some 4 | 28 => some 4 | 27 => some 4 | 26 => some 4 | 25 => some 3 | 24 => some 3 | 23 => some 3 | 22 => some 2 | 21 => some 2 | 20 => some 3 | 19 => some 3 | 18 => some 1 | 17 => some 0 | _ => none)
  | 0x02 => (match b with | 2 => some 3 | 1 => some 2 | 0 => some 3 | _ => none)
  | 0x08 => (match b with | 2 => some 3 | 1 => some 1 | 0 => some 0 | _ => none)
  | 0x0A => (match b with | 31 => some 2 | 30 => some 3 | 29 => some 3 | 28 => some 3 | 27 => some 1 | 26 => some 3 | 25 => some 3 | 24 => some 3 | _ => none)
  | 0x0B => (match b with | 2 => some 1 | 1 => some 3 | 0 => some 3 | _ => none)
  | 0x0C => (match b with | 4 => some 3 | 3 => some 3 | 2 => some 1 | 1 => some 3 | 0 => some 1 | _ => none)
  | 0x0D => (match b with | 31 => some 3 | 30 => some 1 | 29 => some 3 | 28 => some 3 | 27 => some 2 | 26 => some 3 | 25 => some 3 | 24 => some 1 | 23 => some 3 | 22 => some 1 | _ => none)
  | 0x0E => (match b with | 1 => some 3 | 0 => some 1 | _ => none)
  | 0x10 => (match b with | 5 => some 3 | 4 => some 3 | 3 => some 1 | 2 => some 3 | 1 => some 3 | 0 => some 3 | _ => none)
  | 0x11 => (match b with | 2 => some 1 | 1 => some 3 | 0 => some 3 | _ => none)
  | 0x13 => (match b with | 2 => some 3 | 1 => some 3 | 0 => some 1 | _ => none)
  | 0x14 => (match b with | 1 => some 4 | 0 => some 4 | _ => none)
  | 0x15 => (match b with | 1 => some 3 | 0 => some 1 | _ => none)
  | 0x16 => (match b with | 2 => some 3 | 1 => some 3 | 0 => some 1 | _ => none)
  | 0x17 => (match b with | 1 => some 3 | 0 => some 1 | _ => none)
  | 0x18 => (match b with | 5 => some 3 | 4 => some 3 | 3 => some 2 | 2 => some 1 | 1 => some 3 | 0 => some 1 | _ => none)
  | 0x1A => (match b with | 1 => some 3 | 0 => some 1 | _ => none)
  | 0x1B => (match b with | 2 => some 3 | 1 => some 1 | 0 => some 3 | _ => none)
  | 0x1C => (match b with | 3 => some 3 | 2 => some 3 | 1 => some 1 | 0 => some 3 | _ => none)
  | 0x1D => (match b with | 1 => some 3 | 0 => some 1 | _ => none)
  | 0x20 => (match b with | 1 => some 3 | 0 => some 3 | _ => none)
  | 0x0F => if inst = 63 then (match b with | 3 => some 3 | 2 => some 1 | 1 => some 3 | 0 => some 1 | _ => none) else (match b with | 1 => some 3 | 0 => some 1 | _ => none)
  | 0x12 => if inst < 32 then (match b with | 1 => some 3 | 0 => some 3 | _ => none) else (match b with | 0 => some 3 | _ => none)
  | _ => none

end Sys2Proof.Machine
end

