-- ==== Sys2Proof/Machine/KMap.lean ====
section
/-!
DEFINITION. Sparse data by key: a list of key and value pairs with strictly rising keys, in which a key that is not
listed reads as a default the reader names. Writing the default removes the entry, so equal contents are equal lists.
-/

namespace Sys2Proof.Machine

/-- Key and value pairs, keys strictly rising. -/
abbrev KMap (α : Type) := List (Nat × α)

/-- The entry of a key, if it is listed. -/
def mfind {α : Type} : KMap α → Nat → Option α
  | [], _ => none
  | (j, v) :: m, k => if k = j then some v else mfind m k

/-- The value of a key, or the default. -/
def mget {α : Type} (m : KMap α) (k : Nat) (d : α) : α :=
  match mfind m k with
  | some v => v
  | none => d

/-- The map without a key. -/
def mdrop {α : Type} : KMap α → Nat → KMap α
  | [], _ => []
  | (j, v) :: m, k => if j = k then mdrop m k else (j, v) :: mdrop m k

/-- Insert before the first greater key. -/
def mins {α : Type} : KMap α → Nat → α → KMap α
  | [], k, v => [(k, v)]
  | (j, w) :: m, k, v => if k < j then (k, v) :: (j, w) :: m else (j, w) :: mins m k v

/-- List a key with a value, whatever the value is. -/
def mput {α : Type} (m : KMap α) (k : Nat) (v : α) : KMap α := mins (mdrop m k) k v

/-- Write a value under a default: the default itself is not listed. -/
def mset {α : Type} [DecidableEq α] (m : KMap α) (k : Nat) (v d : α) : KMap α :=
  if v = d then mdrop m k else mput m k v

/-- Keys strictly rising from a bound. -/
def mrising {α : Type} : KMap α → Bool
  | [] => true
  | [_] => true
  | (j, _) :: (k, w) :: m => decide (j < k) && mrising ((k, w) :: m)

/-- The canonical form of a map with one default: rising keys and no entry equal to the default. -/
def mwf {α : Type} [DecidableEq α] (m : KMap α) (d : α) : Bool :=
  mrising m && m.all (fun e => decide (e.2 ≠ d))

end Sys2Proof.Machine
end

