-- ==== Sys2Proof/Machine/State.lean ====
section
/-!
DEFINITION. The state of the device as plain data, and the state at device reset. Registers are held field by field in
one sparse map keyed by BAR0 offset and bit (`Fld.key`), unlisted fields at their reset values; tables, the NV store and
the frame store are sparse maps; what the spec gives a block beside its registers is a structure per instance, unlisted
instances at reset. The queue of waiting commands stands in front, first in, first out.
The log's entries 1, 4, 5, 9, 30 and 72 of notes/assumptions name what is DEDUCED or a DESIGN CHOICE here, and marks each.
-/

namespace Sys2Proof.Machine

/-! ## Time -/

/-- The device clock: seconds (48 bits), nanoseconds below 10^9, and 2^-40 ns (R9, R241). -/
structure Clock where
  sec : Nat
  ns : Nat
  frac : Nat
  deriving DecidableEq, Repr, Inhabited

/-! ## Claims (R62–R65, R560) -/

/-- A claim register: the holder, what the register shows beside HELD and DENIED, and whether an operation has shown
anything yet (R62). -/
structure Claim where
  held : Bool
  denied : Bool
  hCls : Nat
  hInst : Nat
  sCls : Nat
  sInst : Nat
  used : Bool
  deriving DecidableEq, Repr, Inhabited

/-! ## Queues (R161–R172) -/

/-- An item of a queue: first unit, units, header, payload and trailer bytes, and whether it is complete. -/
structure QItem where
  start : Nat
  units : Nat
  hdr : List Nat
  pay : List Nat
  trl : List Nat
  done : Bool
  deriving DecidableEq, Repr, Inhabited

/-- A queue: the four free-running pointers, the marks and edges (`full` holds that FREE is 0), the counts, Q_EVT bits
4:0, and the items from REL_PT on, oldest first. -/
structure QueueH where
  wr : Nat
  rd : Nat
  mark : Nat
  rel : Nat
  resv : Nat
  markValid : Bool
  above : Bool
  flushBusy : Bool
  cut : Bool
  full : Bool
  evt : Nat
  wmHiCount : Nat
  flushCut : Nat
  rewindCnt : Nat
  idleReads : Nat
  items : List QItem
  deriving DecidableEq, Repr, Inhabited

/-! ## Delivery (R414–R433) -/

/-- What follows the tag of a delivered item: bytes at hand, or tiles to be read when the item leaves (R421). -/
inductive DBody where
  | bytes (b : List Nat)
  | tiles (region : Nat) (seqs : List Nat)
  deriving DecidableEq, Repr, Inhabited

/-- An item on its way to a delivery queue, with the tag fields of R419. -/
structure DItem where
  typ : Nat
  port : Nat
  seg : Nat
  page : Nat
  time : Nat
  posValid : Bool
  pos : Nat
  posInfo : Nat
  posSuspect : Bool
  timeSuspect : Bool
  ref : Nat
  body : DBody
  deriving DecidableEq, Repr, Inhabited

/-- Delivery-queue state beside the queue: waiting items, items with a reserved slot in slot order, the sequence of R416,
the LOST_BEFORE mark of R421, and since when the pointer mirror is due (R417). -/
structure DqH where
  wait : List DItem
  move : List DItem
  itemSeq : Nat
  lost : Bool
  mirrorAt : Option Nat
  deriving DecidableEq, Repr, Inhabited

/-- A descriptor of an intake queue from its PTR_POST to its write-back (R424, R425, R428): its bytes, whether it has been
read, buffer bytes read, records accepted, bytes consumed, and a status it failed with. -/
structure IDesc where
  raw : List Nat
  taken : Bool
  fetched : Nat
  accepted : Nat
  consumed : Nat
  fail : Nat
  deriving DecidableEq, Repr, Inhabited

/-- Intake-queue state beside the queue: descriptors posted and not written back, in ring order, what the oldest
load's record waits for (1 a segment place, 2 ring space; 0 nothing), and since when the pointer mirror is due. -/
structure IqH where
  descs : List IDesc
  waiting : Nat
  mirrorAt : Option Nat
  deriving DecidableEq, Repr, Inhabited

/-- A vector of a function: its MSI-X table entry and PBA bit (R462) and the moderation state of R433. -/
structure Vec where
  addr : Nat
  data : Nat
  masked : Bool
  pba : Bool
  risen : Bool
  items : Nat
  firstAt : Nat
  lastAt : Option Nat
  gapHeld : Bool
  deriving DecidableEq, Repr, Inhabited

/-- Configuration state of one function (R443, R445, R457, R458, R462, R463, R468, R471); no setting of Max_Read_Request_Size
is its reset setting. -/
structure FnCfg where
  bme : Bool
  d3 : Bool
  msixEn : Bool
  fnMask : Bool
  intxDis : Bool
  pmeEn : Bool
  pmeStatus : Bool
  vfEn : Bool
  numVfs : Nat
  cplTo : Nat
  relaxed : Bool
  pasid : Bool
  aspmL1 : Bool
  l0pEn : Bool
  aerCplTo : Nat
  aerUnexp : Nat
  aerPoison : Nat
  atsEn : Bool
  mps : Nat
  mrrs : Option Nat
  ecrcGen : Bool
  ecrcChk : Bool
  l11En : Bool
  l12En : Bool
  deriving DecidableEq, Repr, Inhabited

/-! ## Lanes and ports (03, 04, 05) -/

/-- A lane below its registers: snapshot store, eye-monitor points, revert history, lock counters and bit alignment (R111),
the transmit scrambler's and the receive descrambler's 58-bit states (R104), since when header lock is lost and since when
the FOM lies below FOM_FAIL (R89), a comma seen at slot 0 since the latest check (R110). -/
structure LaneH where
  scr : Nat
  dscr : Nat
  align : Nat
  lostAt : Option Nat
  lowSince : Option Nat
  invSlot : Nat
  sawComma : Bool
  snap : List Nat
  top : Int
  bottom : Int
  left : Int
  right : Int
  revertSinceTick : Bool
  awaitFom : Bool
  tick : Nat
  reverts : List Nat
  hdrWin : List Bool
  hdrRun : Nat
  lockSince : Option Nat
  invCommas : Nat
  burstRun : Nat
  burstByte : Nat
  lastSingle : Option Nat
  slot0 : Nat
  missed : Nat
  burstSlot : Nat
  known : Option Nat
  goodSince : Option Nat
  deriving DecidableEq, Repr, Inhabited

/-- A trigger queued at a port (R143): activation time, or fire time plus lead already added. -/
structure Trig where
  act : Nat
  action : Nat
  out : Nat
  width : Nat
  expo : Nat
  deriving DecidableEq, Repr, Inhabited

/-- An outstanding control packet (R131–R134). -/
structure CtlPkt where
  seq : Nat
  bytes : List Nat
  retries : Nat
  isTrig : Bool
  act : Nat
  deriving DecidableEq, Repr, Inhabited

/-- A TIME exchange under way (R137–R139). -/
structure Exch where
  xid : Nat
  t1 : Nat
  corr : Nat
  deriving DecidableEq, Repr, Inhabited

/-- Who asked for the outstanding MGMT request (R145, R146, R149). -/
inductive MgmtUser where
  | software
  | identity
  | loopEnter
  | loopExit
  deriving DecidableEq, Repr, Inhabited

/-- The outstanding MGMT request. -/
structure Mgmt where
  user : MgmtUser
  op : Nat
  tag : Nat
  count : Nat
  addr : Nat
  deriving DecidableEq, Repr, Inhabited

/-- Far-end loopback (R149). -/
inductive Lb2 where
  | off
  | entering
  | active
  | leaving
  deriving DecidableEq, Repr, Inhabited

/-- A Flegar port below its registers, with the packet in progress in the port stream (R105), the line whose DROP_CNT was
counted last (R151), the number of its next transmit slot (R108), DELAY_ASYM and PD_STEP_LIMIT as the exchange in effect took
them (R150), and the spread phase with the device time it was at (R142). -/
structure PortH where
  rx : Option (List Nat)
  dropLine : Option Nat
  txSlot : Nat
  asym : Nat
  pdLimit : Nat
  ssc : Option (Nat × Nat)
  firstLock : Option Nat
  nearHold : Nat
  txSeq : Nat
  rxSeq : Nat
  out : List CtlPkt
  trigs : List Trig
  trigCount : Nat
  xid : Nat
  exch : Option Exch
  corr : Int
  corrSet : Bool
  stepDue : Bool
  dGoodValid : Bool
  validSinceEn : Bool
  invalidRun : Nat
  staleOnly : Bool
  mgmt : Option Mgmt
  mgmtTag : Nat
  swMgmt : Option Mgmt
  idBuf : List Nat
  idRead : Option Nat
  idPrev : Option (List Nat)
  lb2Ok : Bool
  camLate : Nat
  lb : Lb2
  lastAck : Option Nat
  trigStarts : Nat
  lineStarts : Nat
  testNum : Nat
  deriving DecidableEq, Repr, Inhabited

/-- The line item in assembly (R156): the queue unit it starts at, its header, the payload so far. -/
structure OpenLine where
  start : Nat
  num : Nat
  bytes : Nat
  fmt : Nat
  lflags : Nat
  hdr : List Nat
  pay : List Nat
  miss : Nat
  drop : Nat
  expDur : Nat
  lost : Nat
  deriving DecidableEq, Repr, Inhabited

/-- Port ingest below its registers (R156–R160, R167). -/
structure IngestH where
  line : Option OpenLine
  swallow : Option Nat
  prev : Option Nat
  itemSeq : Nat
  deriving DecidableEq, Repr, Inhabited


/-! ## Position unit (06) -/

/-- A reading of a serial sensor: count and latch time (R185–R188). -/
structure Reading where
  cnt : Int
  t : Nat
  deriving DecidableEq, Repr, Inhabited

/-- An encoder channel below its registers. Times are device times in 2^-16 ns; edges and readings, newest first. Beside the
filtered levels stand those that WIRE does not hold (R178); the serial frame under way is its start and whether WIRE was live
on A in it (R187); additions to LIMIT_EXCESS and causes of POS_SUSPECT are known by their sample (R193). -/
structure PosH where
  rawA : Nat
  rawB : Nat
  rawZ : Nat
  frame : Option (Nat × Bool)
  exSample : Option Nat
  exAdd : Int
  suspSample : Option Nat
  cnt : Int
  word : Int
  tEdge : Nat
  lastFilt : Option Nat
  sgn : Int
  spd : Int
  edges : List Nat
  m : Nat
  atLimit : Bool
  qwin : Nat
  gap : Bool
  stuck : Bool
  fA : Nat
  fB : Nat
  fZ : Nat
  readings : List Reading
  nRead : Nat
  lastRaw : Nat
  errRun : Nat
  hold : Option Int
  moved : Bool
  wPrev : Int
  wSample : Option Nat
  idPrev : Option (List Nat)
  deriving DecidableEq, Repr, Inhabited

/-- A digital input below its registers: the run being qualified by the device time of its first sample and the capture
unit's stamp of the transition (R203), with the position captured at that sample, and the words of the item last taken. -/
structure DinH where
  run : Option Nat
  runTc : Nat
  runPos : Option Nat
  runInfo : Nat
  runWords : List Int
  lostBefore : Bool
  words : List Nat
  deriving DecidableEq, Repr, Inhabited

/-! ## Triggers (07) -/

/-- A line generator below its registers: origin, k_end + 1 of that origin (0 where the gate is unlimited), number of the
next grid point, remainder, the next point, the line position last fired, the fire time of the last issued line, the
sample a grid point was last reached in, lockstep fault. -/
structure GenH where
  origin : Option Int
  kEnd : Nat
  k : Nat
  acc : Nat
  next : Int
  last : Option Int
  lastFire : Option Nat
  lastSample : Option Nat
  fault : Bool
  deriving DecidableEq, Repr, Inhabited

/-- A compare stream below its registers: base in effect, a written BASE that acts at the next load, line word in lines
and the fire time of its latest line, index of the next and of the latched entry, position of the latched entry, the
hold reference and the state it held from, a load that is due, since which sample, whether it is a reload, whether it adds
LOOP_STEP first (R225, R239), and the sample in which the line word last advanced (R215). -/
structure CsH where
  base : Int
  baseDue : Bool
  lines : Nat
  lineTime : Nat
  idx : Nat
  latchedIdx : Nat
  pos : Int
  holdRef : Int
  heldFrom : Nat
  loadDue : Bool
  dueAt : Nat
  reload : Bool
  chain : Bool
  lineSample : Option Nat
  fault : Bool
  deriving DecidableEq, Repr, Inhabited

/-- A trigger output below its registers: the pulses that run or are to come, as start and end, apart from one another
(R231); lockstep fault. -/
structure OutH where
  pulses : List (Nat × Nat)
  fault : Bool
  deriving DecidableEq, Repr, Inhabited

/-- The run of the quadrature generator on a channel's outputs (R509): direction, edges, the time between them, when it
started, and the place in the sequence 00, 10, 11, 01 it started from. -/
structure QgenH where
  dir : Nat
  edges : Nat
  per : Nat
  start : Nat
  phase : Nat
  deriving DecidableEq, Repr, Inhabited

/-! ## Voxord (08) -/

/-- A Voxord message in the transmit queue or outstanding: priority (0 ACK, 1 ACTION, 2 VERDICT, 3 REG_ERROR), MTYPE,
DST, GROUP and ACK_REQ, destination MAC, ports it selects (bit 0 N0, bit 1 N1), payload (R267, R274, R275). -/
structure VoxMsg where
  prio : Nat
  mtype : Nat
  dst : Nat
  group : Bool
  ackReq : Bool
  mac : Nat
  ports : Nat
  payload : List Nat
  deriving DecidableEq, Repr, Inhabited

/-- A message that waits for its ACK (R276). -/
structure VoxOut where
  seq : Nat
  tries : Nat
  msg : VoxMsg
  deriving DecidableEq, Repr, Inhabited

/-- The Voxord engine below its registers: transmit queue, SEQ of the next message, messages waiting for an ACK, and
the messages accepted lately with their times (R276). -/
structure VoxH where
  queue : List VoxMsg
  seq : Nat
  out : List VoxOut
  seen : List (Nat × Nat × Nat)
  deriving DecidableEq, Repr, Inhabited


/-! ## NV store and health (R493, R494, R533, R534) -/

/-- The health record in use (R493) and which of its two copies holds it. -/
structure HealthRec where
  seq : Nat
  degraded : Nat
  lastDeg : Nat
  tempMax : Nat
  spareMap : Nat
  sparedPc : Nat
  powerOn : Nat
  copy : Nat
  deriving DecidableEq, Repr, Inhabited


/-! ## Loops and injectors (R501–R513) -/

/-- A loop and injector block of the test page below its registers: the depth in effect, the generator's PRBS31
state, the packet it sent last and the blocks sent into the far-end loop and not yet returned (R149), generated lines, their
credit and the triggers whose line has still to start (R503), the injector's match count, draw and held packet. -/
structure LoopH where
  depth : Nat
  txPrbs : Nat
  testNum : Nat
  lastTest : List Nat
  expect : List (Nat × Nat)
  lineNum : Nat
  consumed : Nat
  dropped : Nat
  gen : List Trig
  isMatch : Nat
  draw : Nat
  held : Option (List Nat)
  heldDir : Nat
  passLeft : Nat
  deriving DecidableEq, Repr, Inhabited



/-! ## Host links (14) -/

/-- A request the device has outstanding at a host: its tag, function, length, what it is for and how much of it has come,
the timeout its function selected and when it runs out (R458), in 2^-16 ns. -/
structure HostReq where
  tag : Nat
  fn : Nat
  use : Nat
  arg : Nat
  len : Nat
  got : Nat
  per : Nat
  due : Nat
  deriving DecidableEq, Repr, Inhabited

/-- A host link below its registers: PERSTn_N low, a wake-armed D3cold (R466), a wake in progress (R470), outstanding
requests, quarantined tags with the end of the quarantine, requests abandoned by a reset (R459, R460), the next tag, L1 with its substate (R471), and the
Address Translation Cache: function and page of its entries, oldest first (R443). -/
structure LinkH where
  perst : Bool
  armed : Bool
  waking : Bool
  reqs : List HostReq
  quar : List (Nat × Nat)
  stale : List Nat
  nextTag : Nat
  inL1 : Bool
  l1Sub : Nat
  atc : List (Nat × Nat)
  deriving DecidableEq, Repr, Inhabited

/-- What the collector keeps of the AO cycle a fault last arrived in: the cycle, the highest class, the place of the fault
FIRST_SRC would name, whether classes tied, and the cycle SUMMARY was written in (R480). -/
structure CycleH where
  cycle : Nat
  cls : Nat
  src : Nat
  tie : Bool
  shown : Nat
  deriving DecidableEq, Repr, Inhabited

/-! ## Press-network ports (08) -/

/-- A Pdelay_Req of an Ethernet port that waits for its response (R256): sequenceId, transmit timestamp in 2^-16 ns, the
device time it left at (moved by a step of the clock), the sourcePortIdentities that answered, a two-step response (receive
timestamp, requestReceiptTimestamp and correctionField in 2^-16 ns), whether a complete response has come, and the sample it
gave, which waits until the 100 ms in which another source could answer are over. -/
structure PdReq where
  seq : Nat
  t1 : Nat
  leftAt : Nat
  srcs : List Nat
  resp : Option (Nat × Nat × Int)
  done : Bool
  sample : Option Int
  deriving DecidableEq, Repr, Inhabited

/-- An Ethernet port below its registers: sequenceId of the next Pdelay_Req, requests outstanding, since when no Sync of the
watched master has come (R258), presence, part and serial number of the module last shown (R260). -/
structure EthH where
  pdSeq : Nat
  reqs : List PdReq
  syncAt : Nat
  sfpPrev : List Nat
  deriving DecidableEq, Repr, Inhabited


/-! ## Line conditioning (09) -/

/-- A conditioned line on its way to Screed: number, position, epoch of the position, exposure centre in 2^-16 ns,
8.4 samples channel by channel, clipped samples by tile column, and its marks (R285–R297). -/
structure SLine where
  num : Nat
  pos : Int
  epoch : Nat
  tc : Nat
  smp : Array Nat
  clips : List Nat
  suspect : Bool
  tsus : Bool
  inc : Bool
  deriving DecidableEq, Repr, Inhabited

/-- A grid row of the open tile row: samples, row time in 2^-16 ns, row flags of R301 without CLIPPED, clipped samples
by tile column. -/
structure GRow where
  smp : Array Nat
  time : Nat
  flags : Nat
  clips : List Nat
  deriving DecidableEq, Repr, Inhabited

/-- An area frame being built (R304): number, columns, rows, time of its FRAME_START and, once row 0 has come, its exposure
centre and whether its header had TIME_OK; whether the position is decided, the position and its marks; the rows received
with their samples, clip counts and flags of R301 without CLIPPED. -/
structure FrameH where
  num : Nat
  cols : Nat
  rows : Nat
  time : Nat
  tc : Option Nat
  timeOk : Bool
  decided : Bool
  pos : Int
  epoch : Nat
  posOk : Bool
  suspect : Bool
  got : KMap (Array Nat × List Nat × Nat)
  deriving DecidableEq, Repr, Inhabited

/-- The rewind pass of R299 and R355 that the LCU is at: lines asked for, lines yet to be read from the marked one, the
read point at which it ends. -/
inductive Pass where
  | none
  | wanted (lines : Nat)
  | marked (left : Nat)
  | reread (stop : Nat)
  deriving DecidableEq, Repr, Inhabited

/-- An LCU below its registers: matrix in use, alignment buffer (newest first), the line that waits for a history
sample, prev, an excluded line since prev, the segment open at the LCU with its next row and grid, the rows of the open
tile row, an area frame, the rewind pass with its alignment buffer; where the segment's last row came of the latest pair of
lines and the next segment opens at once, the line before prev and whether an excluded line lay between (R298, R376). -/
structure LcuH where
  mtx : List Nat
  sized : List SLine
  pend : Option SLine
  prev : Option SLine
  excl : Bool
  seg : Option Nat
  page : Nat
  k : Nat
  kMax : Nat
  g0 : Int
  gEpoch : Nat
  rows : List GRow
  frame : Option FrameH
  pass : Pass
  asks : List (Option Nat × Nat)
  psized : List SLine
  tail : Option (SLine × Bool)
  deriving DecidableEq, Repr, Inhabited

/-! ## Reference intake (10) -/

/-- A reference tile in an area's ring: segment, column, row, frame-store byte of its record, ring bytes. -/
structure RefTile where
  seg : Nat
  mask : Nat
  col : Nat
  row : Nat
  addr : Nat
  size : Nat
  deriving DecidableEq, Repr, Inhabited

/-- A reference area: tiles in the ring, oldest first, the segment whose tiles it loads, and the ring offset of the
next tile. -/
structure AreaH where
  tiles : List RefTile
  loading : Option (Nat × Nat)
  head : Nat
  deriving DecidableEq, Repr, Inhabited

/-! ## Compare engines (11, 12) -/

/-- A conditioned tile as an engine reads it: row, column, row flags, columns valid, samples (R300–R302). -/
structure TileImg where
  row : Nat
  col : Nat
  flags : List Nat
  cols : Nat
  dat : Array Nat
  deriving DecidableEq, Repr, Inhabited

/-- An open snag region (R386): kind 0 DARK, 1 LIGHT, 2 TONE, the polarity of a TONE region, area in pixels or blocks, box,
sums of centre coordinates, largest e with the pixel it comes from, sum of e, sums of d over the pixels counted and their
number, dominant class, its runs of columns on the line before and on the present one. -/
structure Region where
  kind : Nat
  light : Bool
  area : Nat
  x0 : Nat
  x1 : Nat
  k0 : Nat
  k1 : Nat
  sx : Nat
  sk : Nat
  eMax : Rat
  top : Nat × Nat
  eSum : Rat
  dSum : List Int
  dn : Nat
  cls : Nat
  back : List (Nat × Nat)
  front : List (Nat × Nat)
  deriving DecidableEq, Repr, Inhabited

/-- A colour patch of a segment (R396): table index, entry, its sums of samples and of predictions by channel, pixels
counted, POS_SUSPECT and TIME_SUSPECT; discarded by an uncorrectable error. -/
structure PatchH where
  idx : Nat
  entry : Nat
  sa : List Nat
  sq : List Nat
  n : Nat
  suspect : Bool
  tsus : Bool
  lost : Bool
  deriving DecidableEq, Repr, Inhabited

/-- Keying's fit (R350–R352): model, SEG fiducials used, the six terms and the centroid, RMS; binary64 values. -/
structure Fit where
  model : Nat
  used : Nat
  tx : Rat
  ty : Rat
  a : Rat
  b : Rat
  c : Rat
  dd : Rat
  xm : Rat
  km : Rat
  rms : Rat
  deriving DecidableEq, Repr, Inhabited

/-- The engine registers that a segment takes at its start (R345, R400). -/
structure EngCfg where
  keyRows : Nat
  reread : Nat
  fitMode : Nat
  failGo : Bool
  residMax : Nat
  scaleMax : Nat
  nccMin : Nat
  uniq : Nat
  alpha : Nat
  corr : Nat
  floatEn : Bool
  texture : Nat
  jump : Nat
  lostPct : Nat
  cw : List Nat
  refInk : Nat
  niMax : Nat
  stall : Nat
  regTol : Nat
  snagMax : Nat
  tileMax : Nat
  tilesEn : Bool
  region : Nat
  template : Nat
  deriving DecidableEq, Repr, Inhabited

/-- What an engine holds of a segment from its start on: registers taken (R345), whether its work has
not begun (R347), tables (R345, R395) and profile (R326); starting
and present terms (R347, R352); whether Keying is over, KFLAGS of R368, fiducials found, the fit, the register errors of
R369 as ink, x, y and confidence; the lines of the rewind pass (R355); whether it waits for a reference tile (R333); the
tiles read; the smoothed shifts of each tile row, the jumps in a row by column (R359), the row carried in; REG_LOST rows;
FLOAT_MAX; tile rows judged, pixels judged, rows not inspected; open regions, records, regions lost, overflow, a region
kept; patches; row flags of R301 by grid row and tile column. -/
structure EngSeg where
  cfg : EngCfg
  fresh : Bool
  zones : List Nat
  fids : List (Nat × Nat)
  map : Option (Nat × Nat)
  prof : Array Nat
  start : List Int
  terms : List Int
  keyed : Bool
  kflags : Nat
  found : Nat
  fit : Option Fit
  regs : List (Nat × Rat × Rat × Nat)
  passLines : List (Int × Array Nat)
  waitRef : Bool
  tiles : List TileImg
  shifts : List (List (Int × Int))
  jumps : List Nat
  carry : Option (List (Int × Int))
  lost : List Nat
  floatMax : Nat
  rowsJudged : Nat
  judged : Nat
  niRows : Nat
  regions : List Region
  snagCnt : Nat
  snagLost : Nat
  ovf : Bool
  kept : Bool
  patches : List PatchH
  rowFlags : List Nat
  deriving DecidableEq, Repr, Inhabited

/-- States of a segment (R375). A cut segment has released what it held and waits for the verdicts before its own (R381);
an ENDED segment is not listed. -/
inductive SegState where
  | declared
  | opened
  | closing
  | complete
  | cut (reason : Nat)
  deriving DecidableEq, Repr, Inhabited

/-- A segment (R375): its number and that of the port's segment before it, its descriptor, positions S and E in the channel's present epoch and whether they are known, the
SEGMENT action has come (R376), whether it opened, epoch, S and E of opening, times in 2^-16 ns, engine, rows K, all
rows produced, first sequence, row times (R295); tiles produced and not yet taken as (row, column, sequence); marks of its tiles;
STREAK_ACTIVE at its end time (R383); what the
engine holds. -/
structure Seg where
  num : Nat
  prev : Option Nat
  desc : List Nat
  st : SegState
  s : Int
  e : Int
  fixed : Bool
  started : Bool
  wasOpen : Bool
  openEpoch : Nat
  gS : Int
  gE : Int
  openAt : Nat
  endAt : Option Nat
  engine : Option Nat
  rows : Nat
  produced : Bool
  firstSeq : Option Nat
  times : List Nat
  tiles : List (Nat × Nat × Nat)
  suspect : Bool
  tsus : Bool
  streak : Bool
  eng : Option EngSeg
  deriving DecidableEq, Repr, Inhabited

/-- The segment tracker of a port: segments whose verdicts are not formed, oldest first; the latest SEG_NUM since port
ingest EN rose; E of the segments that have left DECLARED, as number, channel, epoch and position; numbers of segments that
have ended; the keyed fit and last smoothed row of the segment whose work ended last, with its number (R347). -/
structure TrackH where
  segs : List Seg
  lastNum : Option Nat
  ends : List (Nat × Nat × Nat × Int)
  ended : List Nat
  carryFit : Option Fit
  carryRow : Option (List (Int × Int))
  carrySeg : Nat
  deriving DecidableEq, Repr, Inhabited

/-- An engine below its registers: the profile it holds, by number (R326), the snag-tile region whose WR_SEQ counts its copies
since EN rose (R412), register measurements since the last report, with the segment measured last, its REF_INK and terms and POS_SUSPECT (R370), the last report as
ink, DX, DY and confidence with its segment and REF_INK; Plumb-line banks keyed by (bank, ink, column): N, D, POS_SUSPECT; the bank
under evaluation, its action's TIME, PL_CFG and PL_LIMITS in use (R390, R391, R402); GIVE_BACK accepted (R399); since when a
known-answer run is under way. -/
structure CeH where
  prof : Option (Nat × Array Nat)
  ring : Option Nat
  meas : List (Nat × Rat × Rat × Nat)
  measSeg : Nat
  measRef : Nat
  measTerms : Int × Int
  measSuspect : Bool
  reported : Bool
  lastReport : List (Nat × Int × Int × Nat)
  lastSeg : Nat
  lastRef : Nat
  lastSuspect : Bool
  bank : Nat
  plN : KMap Nat
  plD : KMap Int
  plS : KMap Bool
  evalBank : Option Nat
  evalTime : Nat
  plCfg : List Nat
  giveBack : Bool
  kaSince : Option Nat
  deriving DecidableEq, Repr, Inhabited

/-! ## Frame store (13) -/

/-- A change of the frame store that a command makes: bytes written from an address, a word that became uncorrectable
(R405), or a range cleared to 0 (R510). -/
inductive MemOp where
  | bytes (addr : Nat) (data : List Nat)
  | poison (word : Nat)
  | clear (addr len : Nat)
  deriving DecidableEq, Repr, Inhabited

/-- A stack below its registers (R407): corrected errors by pseudo-channel with their times, and the pseudo-channel
being copied. -/
structure HbmH where
  errs : List (Nat × Nat)
  copying : Option Nat
  deriving DecidableEq, Repr, Inhabited


/-! ## Boot, NV store, self-test and JTAG (16, 17) -/

/-- The boot area's values in use since the last boot, or their defaults (R529, R530): rate codes of the ports, two bits each,
MAC addresses, Voxord node, TOTAL_VFS, BAR2 sizes of PFs and VFs by link, one byte each, the five PCIe identities. -/
structure BootCfg where
  rates : Nat
  macs : List Nat
  node : Nat
  totalVfs : Nat
  pfBar2 : Nat
  vfBar2 : Nat
  ids : List Nat
  deriving DecidableEq, Repr, Inhabited

/-- Where the device stands (R523–R527): the AO island has left reset, what the board presented when it last booted, boot
waits for REFCLK, and the requester of a first reset key with the tick it came in. -/
structure BootH where
  aoUp : Bool
  board : Option Straps
  refWait : Bool
  keyBy : Option (Nat × Nat)
  cfg : BootCfg
  deriving DecidableEq, Repr, Inhabited

/-- A software operation of the NV store page from its command to its end (R533, R534). -/
structure NvOp where
  op : Nat
  word : Nat
  data : Nat
  resp : Nat
  deriving DecidableEq, Repr, Inhabited

/-- Self-test (R514–R516): the run under way, logic or memory, with its islands; the islands held gated by a failed memory
test and by a failed logic test. -/
structure BistH where
  run : Option (Bool × List Nat)
  heldMem : List Nat
  heldLogic : List Nat
  deriving DecidableEq, Repr, Inhabited

/-- The JTAG port (R517, R518): instruction register, boundary register, result of the last REGACC read. -/
structure JtagH where
  ir : Nat
  pins : Nat
  result : Nat
  deriving DecidableEq, Repr, Inhabited


/-! ## What leaves the device -/

/-- What a request of a function carries beside address and data: its PASID (R457), an ECRC (R443). -/
structure TlpMarks where
  pasid : Option Nat
  ecrc : Bool
  deriving DecidableEq, Repr, Inhabited

/-- Everything that leaves at the pins, in order. -/
inductive Emission where
  /-- A read completion for a requester. -/
  | answer (req val : Nat)
  /-- A read or write completed with Unsupported Request. -/
  | unsupported (req : Nat)
  /-- A window read completion: data, and whether it is poisoned (R453). -/
  | winData (req : Nat) (data : List Nat) (ep : Bool)
  /-- A Flegar packet, and its blocks slot by slot as they leave: lane, header, payload as it stands at the balls (R106,
  R113). -/
  | flegar (port : Nat) (bytes : List Nat) (slots : List (List (Nat × Nat × Nat)))
  /-- Commas in so many slots one after another: lane, header, payload on every lane the port drives (R107–R109). -/
  | commas (port count : Nat) (blocks : List (Nat × Nat × Nat))
  /-- The IDLE blocks of one slot, with which every slot goes on until something else is sent (R106, R116). -/
  | idle (port : Nat) (blocks : List (Nat × Nat × Nat))
  /-- A block returned by LB3 on a lane (R501). -/
  | block (lane header payload : Nat)
  /-- A memory write to a host. -/
  | hostWrite (fn addr : Nat) (bytes : List Nat) (relaxed : Bool) (marks : TlpMarks)
  /-- A read request to a host. -/
  | hostRead (fn tag addr len : Nat) (marks : TlpMarks)
  /-- An MSI-X message. -/
  | msix (fn vector addr data : Nat) (marks : TlpMarks)
  /-- Assert_INTA or Deassert_INTA. -/
  | intx (link : Nat) (asserted : Bool)
  /-- PM_PME. -/
  | pme (link : Nat)
  /-- WAKEn_N. -/
  | wake (link : Nat) (low : Bool)
  /-- CLKREQn_N: driven low, or released (R442, R471). -/
  | clkreq (link : Nat) (low : Bool)
  /-- A link power or width action: 0 L1 entry, else the new width. -/
  | linkPower (link width : Nat)
  /-- A pulse at an output: start and end in 2^-16 ns. -/
  | pulse (out start stop : Nat)
  /-- TX_DISABLE of an SFP28 cage takes a level (R260). -/
  | txDisable (cage : Nat) (asserted : Bool)
  /-- An Ethernet frame: transmit time, bytes, and whether its FCS is bad on purpose. -/
  | eth (port time : Nat) (bytes : List Nat) (badFcs : Bool)
  /-- The clock train of a serial sensor frame: first falling edge, SER_CLK_DIV, and the
  time after each rising edge at which SSI samples, in units of 10 ns (R184). -/
  | serClk (ch time div sampleDly : Nat)
  /-- Identity-bus activity: unit number, byte count asked for. -/
  | idBus (unit bytes : Nat)
  /-- Nine clocks and a stop on an identity bus (R206). -/
  | idRecover (unit : Nat)
  /-- Bytes answered by the SMBus target. -/
  | smbus (bytes : List Nat)
  /-- Bits shifted or driven by the JTAG port. -/
  | jtag (width val : Nat)
  /-- A quadrature edge train of the test block. -/
  | quad (ch dir edges period : Nat)
  /-- A completion of an address-translation invalidation (R443). -/
  | atsDone (link tag : Nat)
  deriving DecidableEq, Repr, Inhabited

/-! ## The device -/

/-- Everything of the device but the frame store: registers, tables, hidden block state, clocks, pins. `taSince` is the
moment the Timed actions page began to run or the clock last stepped, whichever is later (R263, R266). `incrDue` holds that a
new INCR acts in the next cycle, whose time INCR_TIME is to take (R244). -/
structure Dev where
  regs : KMap Nat
  tabs : KMap Nat
  bad : KMap Nat
  latch : KMap Nat
  stage : KMap Nat
  frozen : KMap Nat
  claims : KMap Claim
  queues : KMap QueueH
  dq : KMap DqH
  iq : KMap IqH
  vecs : KMap Vec
  fns : KMap FnCfg
  lanes : KMap LaneH
  ports : KMap PortH
  ingest : KMap IngestH
  pos : KMap PosH
  dins : KMap DinH
  gens : KMap GenH
  streams : KMap CsH
  outs : KMap OutH
  qgens : KMap QgenH
  vox : VoxH
  lcus : KMap LcuH
  areas : KMap AreaH
  tracks : KMap TrackH
  ces : KMap CeH
  hbm : KMap HbmH
  wbuf : List MemOp
  loops : KMap LoopH
  links : KMap LinkH
  eths : KMap EthH
  boot : BootH
  nvOp : Option NvOp
  nvHold : Bool
  bist : BistH
  jtag : JtagH
  smbAddr : Nat
  kaBad : Bool
  sbeSeen : KMap Nat
  spareRows : KMap Nat
  nv : KMap Nat
  wear : KMap Nat
  health : HealthRec
  clk : Clock
  clkLost : Bool
  ticks : Nat
  taSince : Nat
  firstCycle : CycleH
  incrDue : Bool
  free : Nat
  sent : List Emission
  deriving DecidableEq, Repr, Inhabited

/-- The frame store (R404, R405): bytes by frame-store address, an unlisted byte reading 0, and the 64-bit words that
are poisoned. -/
structure FrameStore where
  cells : List Host.Cell
  poison : KMap Bool
  deriving DecidableEq, Repr, Inhabited

/-- The state: commands waiting, the frame store, the device. -/
structure State where
  pending : List Instr
  mem : FrameStore
  dev : Dev
  deriving DecidableEq, Repr, Inhabited

/-- Reasons a step can stop with a fault. No meaning of this model raises one: the spec answers every access. -/
inductive Fault where
  /-- Kept for an address the spec says does not exist: raised by no command, since R30 and R452 answer those. Safe. -/
  | noSuchAddress
  deriving DecidableEq, Repr, Inhabited

/-- Reasons a command has no meaning. -/
inductive Refusal where
  /-- A command the model gives no meaning yet; raised by its arm of exec alone. Safe. -/
  | notModelled (mnemonic : String)
  deriving DecidableEq, Repr, Inhabited


/-! ## Reset (R523, R530) -/

/-- The defaults of R530, before a boot area is read; the identities and MAC addresses come with the boot. -/
def BootCfg.reset : BootCfg :=
  { rates := 0, macs := [0, 0], node := 0, totalVfs := 15, pfBar2 := 0x24242424, vfBar2 := 0x20202020, ids := [0, 0, 0, 0, 0] }

/-- A host link at reset: PERSTn_N is low (R525). -/
def LinkH.reset : LinkH := { (default : LinkH) with perst := true }

/-- The device in device reset, before its boot: every register, table, queue and claim at its reset value, which is what an
unlisted one reads, and the region pages at their layout (R410); the NV store blank. -/
def Dev.reset : Dev :=
  { (default : Dev) with
    regs := rgnRegs
    links := [(0, LinkH.reset), (1, LinkH.reset), (2, LinkH.reset), (3, LinkH.reset)]
    boot := { aoUp := false, board := none, refWait := false, keyBy := none, cfg := BootCfg.reset } }

/-- The frame store with nothing written. -/
def FrameStore.reset : FrameStore := { cells := [], poison := [] }

/-- The machine at reset: no command waits, the frame store is empty, the device is in device reset. -/
def State.reset : State := { pending := [], mem := FrameStore.reset, dev := Dev.reset }

end Sys2Proof.Machine
end

