-- ==== Sys2Proof/Machine/Ops.lean ====
section
/-!
DEFINITION. The named operations over the state: register fields, tables, device time, pages and their islands,
partitions, counters, claims, free values.
The log's entries 4, 6, 8, 12 and 58 of notes/assumptions name what is DEDUCED or a DESIGN CHOICE here, and marks each.
-/

namespace Sys2Proof.Machine

/-! ## Register fields -/

/-- The value of copy i of a field in a page. -/
def Dev.rd (d : Dev) (f : Fld) (inst : Nat) (i : Nat := 0) : Nat :=
  mget d.regs (f.key inst i) f.rst

/-- Set copy i of a field, truncated to its width; the reset value is not listed. -/
def Dev.wr (d : Dev) (f : Fld) (inst v : Nat) (i : Nat := 0) : Dev :=
  { d with regs := mset d.regs (f.key inst i) (v % 2 ^ f.w) f.rst }

/-- Apply a change only where a condition holds. -/
def Dev.when (d : Dev) (c : Bool) (k : Dev → Dev) : Dev := if c then k d else d

/-- A field read as a truth value. -/
def Dev.is (d : Dev) (f : Fld) (inst : Nat) (i : Nat := 0) : Bool := d.rd f inst i != 0

/-- Set a field from a truth value. -/
def Dev.wrb (d : Dev) (f : Fld) (inst : Nat) (b : Bool) (i : Nat := 0) : Dev := d.wr f inst (b2n b) i

/-- Add to a saturating count. -/
def Dev.addSat (d : Dev) (f : Fld) (inst n : Nat) (i : Nat := 0) : Dev :=
  d.wr f inst (satAdd f.w (d.rd f inst i) n) i

/-- Add 1 to a saturating count. -/
def Dev.incSat (d : Dev) (f : Fld) (inst : Nat) (i : Nat := 0) : Dev := d.addSat f inst 1 i

/-- Add to a wrapping count. -/
def Dev.addWrap (d : Dev) (f : Fld) (inst n : Nat) (i : Nat := 0) : Dev :=
  d.wr f inst (d.rd f inst i + n) i

/-- A field read as two's complement. -/
def Dev.rdI (d : Dev) (f : Fld) (inst : Nat) (i : Nat := 0) : Int := sInt f.w (d.rd f inst i)

/-- Set a field to the two's-complement image of an integer. -/
def Dev.wrI (d : Dev) (f : Fld) (inst : Nat) (v : Int) (i : Nat := 0) : Dev := d.wr f inst (uInt f.w v) i

/-- Clear a list of fields to 0. -/
def Dev.clearAll (d : Dev) (fs : List Fld) (inst : Nat) (i : Nat := 0) : Dev :=
  fs.foldl (fun e f => e.wr f inst 0 i) d

/-- Record something that leaves the device. -/
def Dev.emit (d : Dev) (e : Emission) : Dev := { d with sent := d.sent ++ [e] }

/-- The device after a command: what the command wrote is no longer on its way to the frame store. -/
def Dev.done (d : Dev) : Dev := { d with wbuf := [] }

/-- A free value of w bits: the spec states no value here. -/
def Dev.freeVal (d : Dev) (w : Nat) : Nat := Config.freeValue d.free % 2 ^ w

/-- The state after a free value was taken. -/
def Dev.freeUsed (d : Dev) : Dev := { d with free := d.free + 1 }

/-! ## Tables -/

/-- Key of an entry of a table: page, table number, index. -/
def tabKey (c inst t i : Nat) : Nat := (((c * 64 + inst) * 256) + t) * 2 ^ 24 + i

/-- Table entry as one number; an entry never written reads 0. -/
def Dev.tab (d : Dev) (c inst t i : Nat) : Nat := mget d.tabs (tabKey c inst t i) 0

/-- Write a whole table entry; what error its word held goes with the old value (R405, R495). -/
def Dev.setTab (d : Dev) (c inst t i v : Nat) : Dev :=
  { d with tabs := mset d.tabs (tabKey c inst t i) v 0, bad := mdrop d.bad (tabKey c inst t i) }

/-- The check-bit errors an entry's word holds: 0 none, 1 corrected on read, 2 uncorrectable (R487, R495). -/
def Dev.tabErr (d : Dev) (c inst t i : Nat) : Nat := mget d.bad (tabKey c inst t i) 0

/-- An entry's word takes check-bit errors. -/
def Dev.setTabErr (d : Dev) (c inst t i e : Nat) : Dev := { d with bad := mset d.bad (tabKey c inst t i) e 0 }

/-- Drop every entry of a table, as power loss of its SRAM does (R52). -/
def Dev.dropTabs (d : Dev) (c inst : Nat) : Dev :=
  { d with
    tabs := d.tabs.filter (fun e => e.1 / 2 ^ 32 != c * 64 + inst)
    bad := d.bad.filter (fun e => e.1 / 2 ^ 32 != c * 64 + inst) }

/-! ## Device time (R9–R12) -/

/-- The 96-bit image of R9. -/
def Clock.image (k : Clock) : Nat := k.sec * 2 ^ 48 + k.ns * 2 ^ 16 + k.frac / 2 ^ 24

/-- The present device time as its 96-bit image. -/
def Dev.now (d : Dev) : Nat := d.clk.image

/-- NS of a 96-bit image. -/
def tNS (t : Nat) : Nat := bits t 16 32

/-- A 96-bit image counted in 2^-16 ns: the differences of the spec's devtime_diff are differences of these. -/
def tLin (t : Nat) : Nat := (bits t 48 48 * 1000000000 + tNS t) * 65536 + bits t 0 16

/-- The image of a count of 2^-16 ns. -/
def tImg (n : Nat) : Nat :=
  (n / 65536 / 1000000000) % 2 ^ 48 * 2 ^ 48 + (n / 65536) % 1000000000 * 2 ^ 16 + n % 65536

/-- The present device time in 2^-16 ns. -/
def Dev.nowL (d : Dev) : Nat := tLin d.now

/-- A time image whose NS field is out of range (R10). -/
def badNS (t : Nat) : Bool := decide (1000000000 ≤ tNS t)

/-- One nanosecond in 2^-16 ns. -/
abbrev nsL : Nat := 65536

/-- Present time plus a signed offset in 2^-16 ns, as an image. -/
def tShift (t : Nat) (o : Int) : Nat := tImg ((tLin t : Int) + o).toNat

/-! ## Pages (R28–R34) -/

/-- Whether a host link exists: HL2 and HL3 only while their port is bifurcated (R441). -/
def Dev.linkExists (d : Dev) (l : Nat) : Bool :=
  decide (l < 2) || (decide (l < 4) && d.is Link.LINK_STAT_BIFURCATED (l % 2))

/-- The implemented pages (R31); none answers before the AO island has left reset (R524). -/
def Dev.implemented (d : Dev) (c i : Nat) : Bool :=
  d.boot.aoUp && match c with
  | 0x00 | 0x01 | 0x02 | 0x03 | 0x05 | 0x0E | 0x14 | 0x15 | 0x17 | 0x1A | 0x1F | 0x20 => decide (i = 0)
  | 0x04 => decide (i < 4)
  | 0x08 | 0x09 | 0x13 => decide (i < 32)
  | 0x0A | 0x0B | 0x0C => decide (i < 16)
  | 0x0D => decide (i < 17)
  | 0x0F => decide (i < 17) || decide (i = 63)
  | 0x10 => decide (i < 8)
  | 0x11 => decide (i < 24)
  | 0x12 => decide (i < 48)
  | 0x16 => decide (i < 2)
  | 0x18 => decide (i < 4)
  | 0x19 => decide (i < 64)
  | 0x1B => decide (i < 40)
  | 0x1C => d.linkExists i
  | 0x1D | 0x1E => decide (i < 64) && d.linkExists (i / 16)
  | _ => false

/-- The island that holds a page's Block registers (R31, R34). -/
def islandOf (c i : Nat) : Nat :=
  match c with
  | 0x08 => 16 + i / 4
  | 0x09 => 24 + i / 4
  | 0x0A | 0x0B => 16 + i
  | 0x0C => 32 + i
  | 0x0D => 48 + i
  | 0x0F => if i = 63 then 4 else 48 + i
  | 0x0E | 0x19 | 0x1A | 0x1B | 0x1F => 4
  | 0x10 | 0x11 | 0x12 | 0x13 => 2
  | 0x14 | 0x15 => 1
  | 0x16 | 0x17 => 3
  | 0x18 => 8 + i
  | 0x1C => 5 + i % 2
  | 0x1D | 0x1E => 5 + i / 16 % 2
  | _ => 0

/-- The island numbers R34 lists. -/
def islandKnown (n : Nat) : Bool :=
  decide (n ≤ 6) || (decide (8 ≤ n) && decide (n ≤ 11)) || (decide (16 ≤ n) && decide (n ≤ 64)) ||
    (decide (128 ≤ n) && decide (n ≤ 191))

/-- The islands that can be gated (R52): lane receive, port PCS, LCU, CE, HBM, Ethernet. -/
def islandGateable (n : Nat) : Bool := islandKnown n && (decide (n = 3) || decide (8 ≤ n))

/-- Read one island's bit in a group of six registers (R51). -/
def Dev.islBit (d : Dev) (f : Fld) (n : Nat) : Bool := (d.rd f 0 (n / 32)).testBit (n % 32)

/-- Set or clear one island's bit. -/
def Dev.setIslBit (d : Dev) (f : Fld) (n : Nat) (b : Bool) : Dev :=
  let v := d.rd f 0 (n / 32)
  d.wr f 0 (if b then v ||| 2 ^ (n % 32) else v &&& (2 ^ 32 - 1 - 2 ^ (n % 32))) (n / 32)

/-- A powered and clocked island: ISL_PWR; AO is always powered (R51). -/
def Dev.powered (d : Dev) (n : Nat) : Bool := decide (n = 0) || d.islBit Isl.PWR n

/-- A gated island (R48). -/
def Dev.gated (d : Dev) (n : Nat) : Bool := islandGateable n && (d.islBit Isl.GATE n || !d.powered n)

/-- A wedged island (R49). -/
def Dev.wedged (d : Dev) (n : Nat) : Bool := d.islBit AO.WEDGE_MAP_ISL n

/-- Pages whose EN always reads 1 (R37). -/
def alwaysOn (c : Nat) : Bool := decide (c ≤ 5) || decide (c = 0x14)

/-- CTRL.EN as the page shows it. -/
def Dev.enabled (d : Dev) (c i : Nat) : Bool := alwaysOn c || d.is (Hdr.EN c) i

/-- The field class and instance of a page: L32–L63 share the lane fields of class 0x08 (R16). -/
def canon (c i : Nat) : Nat × Nat := if c = 0x09 then (0x08, i + 32) else (c, i)

/-- The page of a lane. -/
def lanePage (l : Nat) : Nat × Nat := if l < 32 then (0x08, l) else (0x09, l - 32)

/-! ## Partitions (R56–R61) -/

/-- The owner partition (R58). -/
def Dev.owner (d : Dev) : Nat := d.rd AO.OWNER_INFO_OWNER 0

/-- The partition of resource n under a mask of the active table; the owner where no VALID entry has it (R57). -/
def Dev.resPart (d : Dev) (f : Fld) (n : Nat) : Nat :=
  match (List.range 4).find? (fun k => d.is Claims.ACT_VALID 0 k && (d.rd f 0 k).testBit n) with
  | some k => k
  | none => d.owner

/-- Whether some VALID entry holds the resource, so that it is not held by default as owner (R465). -/
def Dev.resAssigned (d : Dev) (f : Fld) (n k : Nat) : Bool :=
  d.is Claims.ACT_VALID 0 k && (d.rd f 0 k).testBit n

/-- The partition of a host link. -/
def Dev.linkPart (d : Dev) (l : Nat) : Nat := d.resPart Claims.ACT_LINKS l

/-- The partition-table mask and bit of a page, where one decides its partition (R31). -/
def pageMask (c i : Nat) : Option (Fld × Nat) :=
  match c with
  | 0x08 => some (Claims.ACT_PORTS, i / 4)
  | 0x09 => some (Claims.ACT_PORTS, 8 + i / 4)
  | 0x0A | 0x0B | 0x0C => some (Claims.ACT_PORTS, i)
  | 0x0D => some (Claims.ACT_CES, i)
  | 0x0F => if i = 63 then none else some (Claims.ACT_CES, i)
  | 0x10 => some (Claims.ACT_ENCODERS, i)
  | 0x11 => some (Claims.ACT_DIN, i)
  | 0x12 => if i < 32 then some (Claims.ACT_TOUT, i) else some (Claims.ACT_GENERATORS, i - 32)
  | 0x13 => some (Claims.ACT_STREAMS, i)
  | 0x19 => some (Claims.ACT_HBM_REGIONS, i)
  | 0x1B => if i < 32 then some (Claims.ACT_DQ_GROUPS, i) else some (Claims.ACT_IQ_GROUPS, i - 32)
  | 0x1C => some (Claims.ACT_LINKS, i)
  | 0x1D | 0x1E => some (Claims.ACT_LINKS, i / 16)
  | _ => none

/-- Shared pages (R31). -/
def pageShared (c : Nat) : Bool :=
  match c with
  | 0x00 | 0x01 | 0x03 | 0x04 | 0x05 | 0x14 => true
  | _ => false

/-- CE16's pages follow the served engine while it serves one (R61). -/
def Dev.borrowed (d : Dev) (c i : Nat) : Bool :=
  (decide (c = 0x0D) || decide (c = 0x0F)) && decide (i = 16) && d.is Ce.SPARE_STAT_SERVING 16

/-- The partition a page belongs to. -/
def Dev.pagePart (d : Dev) (c i : Nat) : Nat :=
  if d.borrowed c i then d.resPart Claims.ACT_CES (d.rd Ce.SPARE_STAT_SERVED_ENGINE 16)
  else match pageMask c i with
    | some (f, n) => d.resPart f n
    | none => d.owner

/-- A requester: one PCIe function as 16 × link + function, 0xFE for JTAG, 0xFF for SMBus (R45, R50). -/
def Dev.reqPart (d : Dev) (r : Nat) : Nat := if r < 64 then d.linkPart (r / 16) else d.owner

/-- Whether a requester may read a page (R57, R61). -/
def Dev.readable (d : Dev) (r c i : Nat) : Bool :=
  pageShared c || decide (d.pagePart c i = d.reqPart r) ||
    (d.borrowed c i && decide (d.resPart Claims.ACT_CES 16 = d.reqPart r))

/-- Whether a requester may write a page: Shared pages only the owner (R31). -/
def Dev.writable (d : Dev) (r c i : Nat) : Bool :=
  if pageShared c then decide (d.reqPart r = d.owner) else decide (d.pagePart c i = d.reqPart r)

/-! ## Claims (R62–R65, R560) -/

/-- The claim register of a resource. -/
def Dev.claim (d : Dev) (k : Res) (n : Nat) : Claim := mget d.claims (k.key n) default

/-- Set a claim register. -/
def Dev.setClaim (d : Dev) (k : Res) (n : Nat) (c : Claim) : Dev :=
  { d with claims := mset d.claims (k.key n) c default }

/-- The partition of a resource; capture units have none of their own (R560). -/
def Dev.claimPart (d : Dev) : Res → Nat → Option Nat
  | .tout, n => some (d.resPart Claims.ACT_TOUT n)
  | .enc, n => some (d.resPart Claims.ACT_ENCODERS n)
  | .gen, n => some (d.resPart Claims.ACT_GENERATORS n)
  | .tc, _ => none
  | .range, n => some (d.resPart Claims.ACT_STREAMS n)
  | .hbm, n => some (d.resPart Claims.ACT_HBM_REGIONS n)

/-- The classes that may claim a resource (R63). -/
def resEligible (k : Res) (n c i : Nat) : Bool :=
  match k with
  | .tout => (decide (c = 0x12) && decide (32 ≤ i)) || c == 0x13 || c == 0x15 || c == 0x1F
  | .enc => c == 0x10 || c == 0x1F
  | .gen => c == 0x0A || c == 0x13
  | .tc => c == 0x11 || c == 0x12 || c == 0x14 || c == 0x1F
  | .range => c == 0x13 && i == n
  | .hbm => c == 0x0C || c == 0x0D || c == 0x0E || c == 0x1F

/-- Whether a page holds a claim. -/
def Dev.holds (d : Dev) (k : Res) (n c i : Nat) : Bool :=
  let x := d.claim k n
  x.held && x.hCls == c && x.hInst == i

/-- How many claims a page holds: OWNER.CLAIMS (R43). -/
def Dev.claimCount (d : Dev) (c i : Nat) : Nat :=
  (d.claims.filter (fun e => e.2.held && e.2.hCls == c && e.2.hInst == i)).length

/-- Release every claim a page holds (R465). -/
def Dev.releaseAll (d : Dev) (c i : Nat) : Dev :=
  { d with claims := d.claims.map (fun e =>
      if e.2.held && e.2.hCls == c && e.2.hInst == i then
        (e.1, { e.2 with held := false, denied := false, sCls := c, sInst := i })
      else e) }

/-! ## Page reset (R38) -/

/-- Whether a register-map key lies in a page and returns to reset under R38: CTRL, EVT, EVT_EN, the live STAT bits and
every register from 0x040 upwards. -/
def resetKey (c i k : Nat) : Bool :=
  k / (32 * 4096) == c * 64 + i &&
    (let o := k / 32 % 4096
     o == 0x0C || o == 0x10 || o == 0x14 || o == 0x18 || decide (0x40 ≤ o))

/-- Drop a page's registers to their reset values; AO-held registers stay, and what requesters have
latched or staged of them is gone (R38). -/
def Dev.dropPage (d : Dev) (c i : Nat) : Dev :=
  let p := canon c i
  { d with
    regs := d.regs.filter (fun e => !resetKey p.1 p.2 e.1)
    frozen := d.frozen.filter (fun e => e.1 / (32 * 4096) != p.1 * 64 + p.2)
    latch := d.latch.filter (fun e => e.1 % 2 ^ 32 / 4096 != p.1 * 64 + p.2)
    stage := d.stage.filter (fun e => e.1 % 2 ^ 32 / 4096 != p.1 * 64 + p.2) }

/-! ## Block state by instance -/

def Dev.lane (d : Dev) (l : Nat) : LaneH := mget d.lanes l default
def Dev.setLane (d : Dev) (l : Nat) (x : LaneH) : Dev := { d with lanes := mset d.lanes l x default }
def Dev.port (d : Dev) (p : Nat) : PortH := mget d.ports p default
def Dev.setPort (d : Dev) (p : Nat) (x : PortH) : Dev := { d with ports := mset d.ports p x default }
def Dev.ing (d : Dev) (p : Nat) : IngestH := mget d.ingest p default
def Dev.setIng (d : Dev) (p : Nat) (x : IngestH) : Dev := { d with ingest := mset d.ingest p x default }
def Dev.chan (d : Dev) (k : Nat) : PosH := mget d.pos k default
def Dev.setChan (d : Dev) (k : Nat) (x : PosH) : Dev := { d with pos := mset d.pos k x default }
def Dev.din (d : Dev) (n : Nat) : DinH := mget d.dins n default
def Dev.setDin (d : Dev) (n : Nat) (x : DinH) : Dev := { d with dins := mset d.dins n x default }
def Dev.gen (d : Dev) (n : Nat) : GenH := mget d.gens n default
def Dev.setGen (d : Dev) (n : Nat) (x : GenH) : Dev := { d with gens := mset d.gens n x default }
def Dev.stream (d : Dev) (n : Nat) : CsH := mget d.streams n default
def Dev.setStream (d : Dev) (n : Nat) (x : CsH) : Dev := { d with streams := mset d.streams n x default }
def Dev.lcu (d : Dev) (p : Nat) : LcuH := mget d.lcus p default
def Dev.setLcu (d : Dev) (p : Nat) (x : LcuH) : Dev := { d with lcus := mset d.lcus p x default }
def Dev.outp (d : Dev) (n : Nat) : OutH := mget d.outs n default
def Dev.setOutp (d : Dev) (n : Nat) (x : OutH) : Dev := { d with outs := mset d.outs n x default }
def Dev.qgen (d : Dev) (k : Nat) : QgenH := mget d.qgens k default
def Dev.setQgen (d : Dev) (k : Nat) (x : QgenH) : Dev := { d with qgens := mset d.qgens k x default }
def Dev.queue (d : Dev) (k : Nat) : QueueH := mget d.queues k default
def Dev.setQueue (d : Dev) (k : Nat) (x : QueueH) : Dev := { d with queues := mset d.queues k x default }
def Dev.dqh (d : Dev) (q : Nat) : DqH := mget d.dq q default
def Dev.setDqh (d : Dev) (q : Nat) (x : DqH) : Dev := { d with dq := mset d.dq q x default }
def Dev.iqh (d : Dev) (q : Nat) : IqH := mget d.iq q default
def Dev.setIqh (d : Dev) (q : Nat) (x : IqH) : Dev := { d with iq := mset d.iq q x default }
def Dev.vec (d : Dev) (fn v : Nat) : Vec := mget d.vecs (fn * 2048 + v) { (default : Vec) with masked := true }
def Dev.setVec (d : Dev) (fn v : Nat) (x : Vec) : Dev :=
  { d with vecs := mset d.vecs (fn * 2048 + v) x { (default : Vec) with masked := true } }
def Dev.fn (d : Dev) (f : Nat) : FnCfg := mget d.fns f default
def Dev.setFn (d : Dev) (f : Nat) (x : FnCfg) : Dev := { d with fns := mset d.fns f x default }
def Dev.link (d : Dev) (l : Nat) : LinkH := mget d.links l default
def Dev.setLink (d : Dev) (l : Nat) (x : LinkH) : Dev := { d with links := mset d.links l x default }

/-! ## Functions (R445) -/

/-- Whether a function of a link exists: the PF, and as many VFs as TOTAL_VFS says. -/
def Dev.fnExists (d : Dev) (l f : Nat) : Bool := d.linkExists l && decide (f ≤ d.boot.cfg.totalVfs) && decide (f < 16)

/-- Whether a function answers requests: a VF only while it is enabled. -/
def Dev.fnAnswers (d : Dev) (l f : Nat) : Bool :=
  d.fnExists l f && (decide (f = 0) || ((d.fn (16 * l)).vfEn && decide (f ≤ (d.fn (16 * l)).numVfs)))

/-- Whether a requester's accesses reach the device: a function that exists, is enabled and in D0, over a link that is up;
JTAG and SMBus always (R45, R445, R456). -/
def Dev.reqLive (d : Dev) (r : Nat) : Bool :=
  decide (64 ≤ r) ||
    (d.fnAnswers (r / 16) (r % 16) && !(d.fn r).d3 && d.is Link.LINK_STAT_DL_UP (r / 16))

/-! ## Requests to hosts (R429, R442, R443, R457, R471) -/

/-- CLKREQn_N of a link is driven low: the link exists and no L1 substate lets its clock go (R442, R471). -/
def Dev.clkreq (d : Dev) (l : Nat) : Bool := d.linkExists l && !((d.link l).inL1 && (d.link l).l1Sub != 0)

/-- A link leaves L1 for what it has to send (R471). -/
def Dev.l1Exit (d : Dev) (l : Nat) : Dev :=
  let h := d.link l
  if !h.inL1 then d
  else (d.setLink l { h with inL1 := false, l1Sub := 0 }).when (h.l1Sub != 0) (fun d => d.emit (.clkreq l true))

/-- A request of a function to a host address uses its translation: with ATS enabled the link's cache of 512 entries holds
it from then on. -/
def Dev.translated (d : Dev) (fn addr : Nat) : Dev :=
  let d := d.l1Exit (fn / 16)
  let h := d.link (fn / 16)
  let e := (fn, addr / 4096)
  if (d.fn fn).atsEn && !h.atc.contains e then
    d.setLink (fn / 16) { h with atc := (h.atc ++ [e]).drop (h.atc.length + 1 - 512) }
  else d

/-- What every request of a function carries: its PASID where both enables are set (R457), an ECRC where the PF generates them
(R443). -/
def Dev.marks (d : Dev) (fn : Nat) : TlpMarks :=
  { pasid := if (d.fn fn).pasid && d.is Link.FUNC_PASID_PASID_EN (fn / 16) (fn % 16) then
      some (d.rd Link.FUNC_PASID_PASID (fn / 16) (fn % 16)) else none
    ecrc := (d.fn (fn / 16 * 16)).ecrcGen }

/-- A memory write to a host. -/
def Dev.hostWrite (d : Dev) (fn addr : Nat) (bs : List Nat) (relaxed : Bool) : Dev :=
  (d.translated fn addr).emit (.hostWrite fn addr bs relaxed (d.marks fn))

/-- Max_Payload_Size of a link, which its PF sets: up to 512 bytes (R443). -/
def Dev.mps (d : Dev) (fn : Nat) : Nat := min 512 (128 * 2 ^ (d.fn (fn / 16 * 16)).mps)

/-- Max_Read_Request_Size of a link, which its PF sets: up to 4 KiB (R443); 512 bytes as the function leaves reset. -/
def Dev.mrrs (d : Dev) (fn : Nat) : Nat := min 4096 (128 * 2 ^ ((d.fn (fn / 16 * 16)).mrrs.getD 2))

/-- Write data in requests that end where a multiple of a size is reached. -/
def chunks (size : Nat) : Nat → Nat → List Nat → List (Nat × List Nat)
  | 0, _, _ => []
  | _ + 1, _, [] => []
  | k + 1, a, bs => (a, bs.take (size - a % size)) :: chunks size k (a + (size - a % size)) (bs.drop (size - a % size))

/-- Item data to a host: writes of at most MPS (R429), an empty item as one write. -/
def Dev.hostBurst (d : Dev) (fn addr : Nat) (bs : List Nat) (relaxed : Bool) : Dev :=
  (chunks (d.mps fn) (bs.length / d.mps fn + 2) addr bs).foldl (fun d x => d.hostWrite fn x.1 x.2 relaxed) d

end Sys2Proof.Machine
end

