-- ==== Sys2Proof/Machine/Flags.lean ====
section
/-!
DEFINITION. Event and fault flags: an EVT bit and the event request behind it (R41, R432), an item handed to a delivery
queue (R421), watermark and stall flags of a queue (R168, R170, R172), an FLT bit and the reaction to its class
(R477–R483, R488), the NV health record (R493), the safe state of the outputs (R233).
The log's entries 8 and 29 of notes/assumptions name what is DEDUCED or a DESIGN CHOICE here, and marks each.
-/

namespace Sys2Proof.Machine

/-! ## Queue numbers: P line FIFOs 0–15, event FIFOs 16–39, delivery queues 64–319, intake queues 320–383 -/

/-- The page of a queue. -/
def qPage (k : Nat) : Nat × Nat :=
  if k < 16 then (0x0B, k) else if k < 40 then (0x11, k - 16)
  else if k < 320 then (0x1B, (k - 64) / 8) else (0x1B, 32 + (k - 320) / 8)

/-- Which of a page's queue blocks it is. -/
def qIdx (k : Nat) : Nat := if k < 64 then 0 else k % 8

/-- Reset value of a queue register, which differs by kind of queue (R171, R210, R437). -/
def qRst (k : Nat) (f : Fld) : Nat :=
  if k < 16 then f.rst
  else if f.off = 0x04 ∧ f.lo = 24 then (if k < 40 then 5 else 0)
  else if f.off = 0x04 then (if k < 40 then 64 else 1024)
  else if f.off = 0x08 then (if k < 40 then 48 else 768)
  else if f.off = 0x0C then (if k < 40 then 16 else 256)
  else if f.off = 0x00 ∧ f.lo = 0 then 0
  else if f.off = 0x48 ∧ f.lo = 30 then (if k < 320 then 0 else 1)
  else f.rst

/-- A field of the queue register block, placed in the page of queue k (R171, R438). -/
def qFld (k : Nat) (f : Fld) : Fld :=
  { f with
    cls := (qPage k).1
    off := (if k < 64 then 0x40 else 0x100) + f.off
    num := if k < 64 then 1 else 8
    str := if k < 64 then 0 else 0x1E0
    rst := qRst k f }

def Dev.qrd (d : Dev) (k : Nat) (f : Fld) : Nat := d.rd (qFld k f) (qPage k).2 (qIdx k)
def Dev.qwr (d : Dev) (k : Nat) (f : Fld) (v : Nat) : Dev := d.wr (qFld k f) (qPage k).2 v (qIdx k)

/-- SIZE in units; a ring's SIZE follows LOG2_ENTRIES (R414). -/
def Dev.qSize (d : Dev) (k : Nat) : Nat :=
  if k < 16 then 8192 else if k < 40 then 64 else 2 ^ d.qrd k Dq.RING_CFG_LOG2_ENTRIES

/-- USED = WR_PT − REL_PT (R162). -/
def QueueH.used (q : QueueH) : Nat := (q.wr + 2 ^ 32 - q.rel) % 2 ^ 32

/-- FREE = SIZE − USED − RESV_UNITS (R162). -/
def Dev.qFree (d : Dev) (k : Nat) : Nat := d.qSize k - (d.queue k).used - (d.queue k).resv

/-- Set a Q_EVT bit; while an enabled one is set the queue raises the QUEUE event of its page (R172). -/
def qEvtW (raise : Dev → Nat → Nat → Nat → Dev) (d : Dev) (k b : Nat) : Dev :=
  let q := d.queue k
  let e := q.evt ||| 2 ^ b
  let d := d.setQueue k { q with evt := e }
  if e &&& d.qrd k Q.Q_EVT_Q_EVT_EN = 0 then d else raise d (qPage k).1 (qPage k).2 0

/-- Evaluate ABOVE and the mark stall after USED or FREE changed (R168–R170). -/
def qSettleW (raise : Dev → Nat → Nat → Nat → Dev) (d : Dev) (k : Nat) : Dev :=
  let q := d.queue k
  let hi := decide (d.qrd k Q.Q_WM_HI_WM_HI_LEVEL ≤ q.used)
  let lo := decide (q.used ≤ d.qrd k Q.Q_WM_LO_WM_LO_LEVEL)
  let above := if hi then true else if lo then false else q.above
  let full := d.qFree k == 0
  let d := d.setQueue k { q with
    above := above
    full := full
    wmHiCount := if above && !q.above then satAdd 16 q.wmHiCount 1 else q.wmHiCount }
  let d := d.when (above && !q.above) (fun d => qEvtW raise d k 0)
  let d := d.when (!above && q.above) (fun d => qEvtW raise d k 1)
  d.when (full && !q.full && q.markValid) (fun d => qEvtW raise d k 4)

/-! ## Items to delivery queues (R421) -/

/-- Whether the device issues requests for a function: Bus Master Enable, D0, and a VF that is enabled (R445, R457). -/
def Dev.mayIssue (d : Dev) (fn : Nat) : Bool :=
  let c := d.fn fn
  let pf := d.fn (fn / 16 * 16)
  d.linkExists (fn / 16) && c.bme && !c.d3 &&
    (decide (fn % 16 = 0) || (pf.vfEn && decide (fn % 16 ≤ pf.numVfs)))

/-- Items waiting in the pending store, all queues (R421). -/
def Dev.waitingAll (d : Dev) : Nat := (d.dq.map (fun e => e.2.wait.length)).foldl (· + ·) 0

/-- One more item of queue k may wait in the pending store (R421). -/
def Dev.waitsMore (d : Dev) (k : Nat) : Bool :=
  d.qrd k Dq.RING_CFG_FULL_DROP == 0 && decide ((d.dqh (k - 64)).wait.length < d.qrd k Dq.Q_PEND_PEND_MAX) &&
    decide (d.waitingAll < 8192)

/-- Hand an item to delivery queue q: it takes a free slot, or waits, or is dropped (R421, R457). -/
def pushItemW (raise : Dev → Nat → Nat → Nat → Dev) (d : Dev) (q : Nat) (x : DItem) : Dev :=
  let k := 64 + q
  let h := d.dqh q
  let drop := fun (d : Dev) =>
    let d := d.setDqh q { d.dqh q with lost := true }
    let d := d.qwr k Dq.Q_CNT_C_DROP_CNT (satAdd 16 (d.qrd k Dq.Q_CNT_C_DROP_CNT) 1)
    raise d 0x1B (q / 8) Dq.E_DROP
  if d.qrd k Dq.RING_CFG_Q_EN = 0 then drop d
  else if d.mayIssue (d.qrd k Dq.RING_CFG_FUNCTION) && h.wait.isEmpty && decide (0 < d.qFree k) then
    let d := d.setDqh q { h with move := h.move ++ [x] }
    let d := d.setQueue k { d.queue k with resv := (d.queue k).resv + 1 }
    qSettleW raise d k
  else if d.waitsMore k then
    d.setDqh q { h with wait := h.wait ++ [x] }
  else drop d

/-! ## Events (R41, R432) -/

/-- Lane pages 32–63 under their bus class (R16). -/
def uncanon (c i : Nat) : Nat × Nat := if c = 0x08 ∧ 32 ≤ i then (0x09, i - 32) else (c, i)

/-- The EVENT item of a rising request (R420, R432). -/
def eventItem (d : Dev) (c i evt en : Nat) : DItem :=
  { typ := 0x65, port := 0xFF, seg := 0, page := 0, time := d.now, posValid := false, pos := 0, posInfo := 0,
    posSuspect := false, timeSuspect := false, ref := c * 256 + i,
    body := .bytes ([0x65, 1, c, i] ++ zeros 4 ++ leBytes 4 evt ++ leBytes 4 en) }

/-- A rise of a page's event request: every function whose event map has the page makes its vector due, and with
DELIVER an EVENT item goes to QUEUE (R432). -/
def requestRise (raise : Dev → Nat → Nat → Nat → Dev) (d : Dev) (c i evt en : Nat) : Dev :=
  (List.range 64).foldl (fun d fn =>
    let m := d.tab 0x1E fn 1 (c * 64 + i)
    if m.testBit 31 then
      let d := d.setVec fn (bits m 0 11) { d.vec fn (bits m 0 11) with risen := true }
      if m.testBit 30 then pushItemW raise d (bits m 16 8) (eventItem d c i evt en) else d
    else d) d

/-- Set EVT bit b of a page; the request rises when no enabled bit was set before. The number bounds how often an EVENT
item dropped by a full queue may in turn raise the queue's own page. -/
def raiseF : Nat → Dev → Nat → Nat → Nat → Dev
  | 0, d, c, i, b => d.wr (Hdr.EVT c) i (d.rd (Hdr.EVT c) i ||| 2 ^ b)
  | n + 1, d, c, i, b =>
    let e := d.rd (Hdr.EVT c) i
    let en := d.rd (Hdr.EVT_EN c) i
    let e' := e ||| 2 ^ b
    let d1 := d.wr (Hdr.EVT c) i e'
    if e &&& en = 0 ∧ e' &&& en ≠ 0 then
      requestRise (raiseF n) d1 (uncanon c i).1 (uncanon c i).2 e' en
    else d1

/-- Raise event b of a page (R41). Forty queue pages bound the chain of DROP events. -/
def Dev.evt (d : Dev) (c i b : Nat) : Dev := raiseF 41 d c i b

/-- Write EVT_EN: a request may rise by it (R41, R432). -/
def Dev.setEvtEn (d : Dev) (c i v : Nat) : Dev :=
  let e := d.rd (Hdr.EVT c) i
  let old := d.rd (Hdr.EVT_EN c) i
  let d1 := d.wr (Hdr.EVT_EN c) i v
  if e &&& old = 0 ∧ e &&& v ≠ 0 then requestRise Dev.evt d1 (uncanon c i).1 (uncanon c i).2 e v else d1

def Dev.qEvt (d : Dev) (k b : Nat) : Dev := qEvtW Dev.evt d k b
def Dev.qSettle (d : Dev) (k : Nat) : Dev := qSettleW Dev.evt d k
def Dev.push (d : Dev) (q : Nat) (x : DItem) : Dev := pushItemW Dev.evt d q x

/-! ## NV words and the health record (R493, R494) -/

/-- The CRC-8 of a 64-bit word (R493). -/
def nvCrc (v : Nat) : Nat := crc8Run 0x07 0 (leBytes 8 v)

/-- The data of an NV word. -/
def Dev.nvData (d : Dev) (a : Nat) : Nat := mget d.nv a 0 % 2 ^ 64

/-- Whether a word passes its CRC. -/
def Dev.nvGood (d : Dev) (a : Nat) : Bool := mget d.nv a 0 / 2 ^ 64 == nvCrc (d.nvData a)

/-- Store a word with its CRC, and count it in its sector's wear counter (R494); an armed injection inverts the CRC's lowest
bit (R495). -/
def Dev.nvStore (d : Dev) (a v : Nat) : Dev :=
  let v := v % 2 ^ 64
  let inj := d.rd (Hdr.FLT_INJ 2) 0
  let crc := if inj.testBit Nv.F_NV_CRC then nvCrc v ^^^ 1 else nvCrc v
  { d.wr (Hdr.FLT_INJ 2) 0 (inj - inj % 2) with
    nv := mset d.nv a (v + crc * 2 ^ 64) 0
    wear := mset d.wear (a / 128) (mget d.wear (a / 128) 0 + 1) 0 }

/-- The four words of a health record (R493). -/
def HealthRec.words (h : HealthRec) : List Nat :=
  [ h.seq % 2 ^ 32 + h.degraded % 2 ^ 32 * 2 ^ 32,
    h.lastDeg % 2 ^ 32 + (h.tempMax % 256 + h.spareMap % 256 * 256) * 2 ^ 32,
    h.sparedPc % 2 ^ 32 + h.powerOn % 2 ^ 32 * 2 ^ 32,
    0 ]

/-- First word of a copy. -/
def hrecBase (copy : Nat) : Nat := if copy = 0 then 0x200 else 0x300

/-- Rewrite the health record into the older copy with the next SEQ; no write starts while PWR_GOOD is low (R496). -/
def Dev.hrecWrite (d : Dev) : Dev :=
  if d.is Nv.NV_STAT_PWR_OK 0 then
    let h := { d.health with seq := (d.health.seq + 1) % 2 ^ 32, copy := 1 - d.health.copy }
    let d := (List.range 4).foldl (fun d j => d.nvStore (hrecBase h.copy + j) (h.words.getD j 0)) d
    { d with health := h }
  else d

/-! ## Faults (R477–R484) -/

/-- Drive ALERT_N (R488). -/
def Dev.alert (d : Dev) : Dev := d.wr AO.HEALTH_PINS_ALERT 0 1

/-- DEV_HEALTH takes a value: the pins follow, and a change raises HEALTH_CHANGE and asserts ALERT_N (R483, R488). -/
def Dev.setHealth (d : Dev) (h : Nat) : Dev :=
  if d.rd AO.DEV_HEALTH_HEALTH 0 = h then d
  else
    let d := d.wr AO.DEV_HEALTH_HEALTH 0 h
    let d := d.wrb AO.HEALTH_PINS_REPLACE 0 (h != 0)
    let d := d.wrb AO.HEALTH_PINS_FAULT 0 (h == 2)
    (d.evt 1 0 Fc.E_HEALTH_CHANGE).alert

/-- Every output presents its SAFE level until SAFE_EXIT or device reset (R233). -/
def Dev.safeAll (d : Dev) : Dev :=
  (List.range 32).foldl (fun d m =>
    if d.is Out.STAT_SAFE_ACTIVE m then d
    else (d.wr Out.STAT_SAFE_ACTIVE m 1).evt 0x12 m Out.E_SAFE_ENTERED) d

/-- The AO cycle of 40 ns the device is in: a timebase tick is 1.28 ns (R23, R480). -/
def Dev.aoCycle (d : Dev) : Nat := d.ticks * 4 / 125

/-- A fault of class CORRECTED or higher among those of its AO cycle: the highest class, of several the lowest page and
bit, and whether classes differed (R480). -/
def CycleH.join (h : CycleH) (cycle sev src : Nat) : CycleH :=
  if h.cycle ≠ cycle ∨ h.cls = 0 then { h with cycle := cycle, cls := sev, src := src, tie := false }
  else if h.cls < sev then { h with cls := sev, src := src, tie := true }
  else if sev < h.cls then { h with tie := true }
  else { h with src := min h.src src }

/-- SUMMARY and FIRST_SRC take the record of the present AO cycle. -/
def Dev.showFirst (d : Dev) : Dev :=
  let h := d.firstCycle
  let d := (d.wr Fc.SUMMARY_FIRST_CLASS 0 h.cls).wrb Fc.SUMMARY_FIRST_TIE 0 h.tie
  let d := ((d.wr Fc.FIRST_SRC_BIT 0 (h.src % 32)).wr Fc.FIRST_SRC_CLASS 0 (h.src / 2048)).wr Fc.FIRST_SRC_INSTANCE 0
    (h.src / 32 % 64)
  { d with firstCycle := { h with shown := h.cycle } }

/-- FIRST_CLASS, FIRST_SRC and FIRST_TIE at a fault of class CORRECTED or higher (R480): they take it where they are
clear, and change only within the AO cycle that wrote them. -/
def Dev.summary (d : Dev) (c i b sev : Nat) : Dev :=
  let first := d.rd Fc.SUMMARY_FIRST_CLASS 0
  let d : Dev := { d with firstCycle := d.firstCycle.join d.aoCycle sev ((c * 64 + i) * 32 + b) }
  if first = 0 then d.showFirst.evt 1 0 Fc.E_FIRST
  else if d.firstCycle.shown = d.aoCycle then d.showFirst
  else d

/-- The count of a class (R481). -/
def cntOfClass (sev : Nat) : Fld :=
  match sev with
  | 0 => Fc.FC_CNT_A_INFO_CNT
  | 1 => Fc.FC_CNT_A_CORRECTED_CNT
  | 2 => Fc.FC_CNT_B_DEG_CNT
  | 3 => Fc.FC_CNT_B_ERROR_CNT
  | _ => Fc.FC_CNT_C_FATAL_CNT

/-- FIRST_SRC format of R498. -/
def srcWord (c i b : Nat) : Nat := b * 2 ^ 16 + c * 2 ^ 8 + i

/-- The reaction to an enabled fault of a class (R480–R483, R488). -/
def Dev.react (d : Dev) (c i b sev : Nat) : Dev :=
  let d := d.incSat (cntOfClass sev) 0
  let d := d.when (decide (1 ≤ sev)) (fun d => d.summary c i b sev)
  let d := d.when (sev == 2) (fun d =>
    let d := if d.rd AO.DEV_HEALTH_HEALTH 0 = 2 then d else d.setHealth 1
    let d := { d with health := { d.health with
      degraded := satAdd 32 d.health.degraded 1
      lastDeg := srcWord c i b } }
    d.hrecWrite)
  let d := d.when (sev == 4) (fun d => (d.setHealth 2).safeAll)
  d.when (decide (d.rd Fc.FC_CFG_ALERT_CLASS 0 ≤ sev)) Dev.alert

/-- A checker sets FLT bit b of a page (R42, R477, R478): nothing new where it is set already; no fault where its FLT_EN
bit is 0, which a FATAL source's never is. -/
def Dev.fltCore (d : Dev) (c i b : Nat) : Dev :=
  match fltSeverity c i b with
  | none => d
  | some sev =>
    if (d.rd (Hdr.FLT c) i).testBit b then d
    else
      let d := d.wr (Hdr.FLT c) i (d.rd (Hdr.FLT c) i ||| 2 ^ b)
      if (d.rd (Hdr.FLT_DIS c) i).testBit b && sev != 4 then d
      else d.react (uncanon c i).1 (uncanon c i).2 b sev

/-- Whether a wear counter has reached its limit (R494). -/
def Dev.worn (d : Dev) : Bool := d.wear.any (fun e => decide (900000000 ≤ e.2))

/-- A fault, and NV_WEAR when the health record's rewriting brings a wear counter to its limit. -/
def Dev.flt (d : Dev) (c i b : Nat) : Dev :=
  let d := d.fltCore c i b
  if d.worn then d.fltCore 2 0 Nv.F_NV_WEAR else d

/-- The FLT bits of a page that are set and enabled, FATAL sources always (R478). -/
def Dev.fltLive (d : Dev) (c i : Nat) : Nat :=
  (List.range 32).foldl (fun a b =>
    if (d.rd (Hdr.FLT c) i).testBit b && (!(d.rd (Hdr.FLT_DIS c) i).testBit b || fltSeverity c i b == some 4)
    then a + 2 ^ b else a) 0

/-- The pages that have an FLT bit set, from the listed registers. -/
def Dev.fltPages (d : Dev) : List (Nat × Nat) :=
  (d.regs.filter (fun e => e.1 % (32 * 4096) == 0x20 * 32)).map
    (fun e => (e.1 / (32 * 4096) / 64, e.1 / (32 * 4096) % 64))

/-- Whether some page has a set and enabled FLT bit of a class. -/
def Dev.anyFlt (d : Dev) (sev : Nat) : Bool :=
  d.fltPages.any (fun p => (List.range 32).any (fun b =>
    (d.fltLive p.1 p.2).testBit b && fltSeverity p.1 p.2 b == some sev))

/-- Refuse an access: BAD_ACCESS in the page (R29, R41). -/
def Dev.badAccess (d : Dev) (c i : Nat) : Dev := d.evt c i evtBAD_ACCESS

end Sys2Proof.Machine
end

