-- ==== Sys2Proof/Machine/Access.lean ====
section
/-!
DEFINITION. The gate every register access passes: implemented, visible, gated, wedged, in soft reset (R29, R30, R38,
R47–R49, R526); refused accesses and their records (R50).
The log's entries 1, 11, 12 and 61 of notes/assumptions name what is DEDUCED or a DESIGN CHOICE here, and marks each.
-/

namespace Sys2Proof.Machine

/-- Registers held in the always-on island (R32, R47). -/
def aoHeld (c off : Nat) : Bool :=
  decide (c ≤ 5) || c == 0x20 || decide (off < 0x0C) || (decide (0x20 ≤ off) && decide (off < 0x30))

/-- Count a denied access (R30, R50). -/
def Dev.deny (d : Dev) : Dev :=
  (d.incSat AO.ACCESS_CNT_DENIED_CNT 0).wr AO.ACCESS_STAT_DENIED 0 1

/-- Count a write discarded at a gated page (R48, R50). -/
def Dev.gatedWrite (d : Dev) : Dev :=
  (d.incSat AO.ACCESS_CNT_GATED_WR_CNT 0).wr AO.ACCESS_STAT_GATED_WR 0 1

/-- A page whose island is gated, or has not left reset yet (R48, R526). -/
def Dev.silent (d : Dev) (c i : Nat) : Bool :=
  d.gated (islandOf c i) || !d.powered (islandOf c i)

/-- A soft reset of the page is in progress (R38). -/
def Dev.resetting (d : Dev) (c i : Nat) : Bool :=
  d.is (Hdr.SRST_BUSY (canon c i).1) (canon c i).2

/-- A page's Block registers take writes: its island answers and no soft reset is in progress. -/
def Dev.answers (d : Dev) (c i : Nat) : Bool :=
  !d.silent c i && !d.wedged (islandOf c i) && !d.resetting c i

/-- A requester that is a VF (R45). -/
def isVf (r : Nat) : Bool := decide (r < 64) && r % 16 != 0

/-- The page behind a slot of a VF, and whether the slot is read-only (R446, R447). -/
def Dev.vfSlot (d : Dev) (r slot : Nat) : Option ((Nat × Nat) × Bool) :=
  match slot with
  | 0 => some ((0x00, 0), false)
  | 1 => some ((0x01, 0), false)
  | 2 => some ((0x03, 0), false)
  | 3 => some ((0x04, 0), false)
  | 4 => some ((0x14, 0), false)
  | 5 => some ((0x1D, r), false)
  | 6 => some ((0x1E, r), false)
  | _ =>
    let e := d.tab 0x1C (r / 16) 0 (256 * (r % 16 - 1) + slot)
    if slot < 16 ∨ 256 ≤ slot ∨ e.testBit 15 = false then none else some ((bits e 8 6, bits e 0 6), e.testBit 14)

/-- A VF reaches a page through some slot, for writing through one that is not read-only. -/
def Dev.vfReaches (d : Dev) (r c i : Nat) (write : Bool) : Bool :=
  (List.range 256).any (fun n =>
    match d.vfSlot r n with
    | some (p, ro) => p.1 == c && p.2 == i && !(write && ro)
    | none => false)

/-- Carry a write of requester r to a Block register of a page, or discard it under R30, R38, R48, R49, R447. The page is
the bus page; what is done in it is k. -/
def Dev.busW (d : Dev) (r c i : Nat) (k : Dev → Dev) : Dev :=
  if !d.implemented c i || !d.reqLive r || (isVf r && !d.vfReaches r c i false) then d
  else if !d.writable r c i || (isVf r && !d.vfReaches r c i true) then d.deny
  else if aoHeld c 0x40 then k d
  else if d.wedged (islandOf c i) then d
  else if d.silent c i then d.gatedWrite
  else if d.resetting c i then d
  else k d

/-- The write gate for the page of a lane (R16). -/
def Dev.busLane (d : Dev) (r l : Nat) (k : Dev → Dev) : Dev :=
  d.busW r (lanePage l).1 (lanePage l).2 k

/-- Answer a read, or turn it away as the request of a function that does not answer (R456). -/
def Dev.reply (d : Dev) (r : Nat) (k : Dev → Dev × Nat) : Dev :=
  if !d.boot.aoUp then d
  else if d.reqLive r then let x := k d; x.1.emit (.answer r x.2)
  else d.emit (.unsupported r)

/-- What a read of requester r of a Block register of a page gives: k reads it, or the page's reader, the AO responder or the
reset answers in its place (R30, R38, R48, R49). -/
def Dev.readAt (d : Dev) (r c i : Nat) (k : Dev → Dev × Nat) : Dev × Nat :=
  if !d.implemented c i || !d.readable r c i || (isVf r && !d.vfReaches r c i false) then (d, 0)
  else if aoHeld c 0x40 then k d
  else if d.wedged (islandOf c i) then (d, 0xFFFFFFFF)
  else if d.silent c i then (d, 0)
  else if d.resetting c i then (d, 0)
  else k d

/-- A read of a Block register, answered to its requester. -/
def Dev.busR (d : Dev) (r c i : Nat) (k : Dev → Dev × Nat) : Dev := d.reply r (fun d => d.readAt r c i k)

/-! ## Injection into checkers (R495) -/

/-- FLT_INJ bit b of a page is armed. -/
def Dev.armed (d : Dev) (c i b : Nat) : Bool := (d.rd (Hdr.FLT_INJ c) i).testBit b

/-- An armed bit acts and clears. -/
def Dev.disarm (d : Dev) (c i b : Nat) : Dev :=
  d.wr (Hdr.FLT_INJ c) i (d.rd (Hdr.FLT_INJ c) i &&& (2 ^ 32 - 1 - 2 ^ b))

/-- A table entry is written: an armed injection of page (pc, pi) is stored with it (R495). -/
def Dev.putTab (d : Dev) (pc pi sbe dbe c inst t i v : Nat) : Dev :=
  let d := d.setTab c inst t i v
  if d.armed pc pi dbe then (d.setTabErr c inst t i 2).disarm pc pi dbe
  else if d.armed pc pi sbe then (d.setTabErr c inst t i 1).disarm pc pi sbe
  else d

/-- A memory needs a spare row (R492). -/
def Dev.spareRow (d : Dev) (memory : Nat) : Dev :=
  let used := mget d.spareRows memory 0
  if used < Config.spareRows memory then
    ({ d with spareRows := mset d.spareRows memory (used + 1) 0 }).incSat Bist.ROWS_USED 0
  else d.flt 1 0 Fc.F_SRAM_REPAIR_EXH

/-- A word is corrected: its page's SBE sets, and the second time within one scrub period its row is replaced (R487,
R492). A memory is numbered by its page and SBE bit. -/
def Dev.corrected (d : Dev) (c i sbe word : Nat) : Dev :=
  let d := d.flt c i sbe
  let again := match mfind d.sbeSeen word with
    | some t => decide (d.nowL < t + d.rd Fc.FC_CFG_SRAM_SCRUB_S 0 * 1000000000 * nsL)
    | none => false
  if again then ({ d with sbeSeen := mdrop d.sbeSeen word }).spareRow ((c * 64 + i) * 32 + sbe)
  else { d with sbeSeen := mput d.sbeSeen word d.nowL }

/-- An uncorrectable error in an entry of the Timed Action Table clears its VALID, with PENDING, and sets REFUSED (R282); the
word stays uncorrectable. -/
def Dev.taDead (d : Dev) (i : Nat) : Dev :=
  let e := d.tab 0x15 0 1 i
  if !e.testBit 72 then d
  else
    let bad := d.tabErr 0x15 0 1 i
    let d := (d.setTab 0x15 0 1 i (e - 2 ^ 72)).setTabErr 0x15 0 1 i bad
    (d.setTab 0x15 0 2 i (d.tab 0x15 0 2 i &&& 0xFE ||| 64)).evt 0x15 0 Ta.E_REFUSED

/-- An uncorrectable word of a table is met: DBE, and what the block's rule adds (R282, R487). -/
def Dev.tabLost (d : Dev) (pc pi dbe c i : Nat) : Dev :=
  (d.flt pc pi dbe).when (c == 0x15) (fun d => d.taDead i)

/-- A block reads a table entry: a single error is written back corrected and sets SBE, an uncorrectable one sets DBE
and stays (R487). -/
def Dev.readTab (d : Dev) (pc pi sbe dbe c inst t i : Nat) : Dev :=
  match d.tabErr c inst t i with
  | 0 => d
  | 1 => (d.setTabErr c inst t i 0).corrected pc pi sbe (tabKey c inst t i)
  | _ => d.tabLost pc pi dbe c i

/-- A buffer of a block works on a word: an uncorrectable word that a scrub has found, or an armed injection of one of its
checkers, shows; the second value says whether it was uncorrectable (R487, R495). Number 0xFE stands for a page's buffers,
which are no table. -/
def Dev.useBuf (d : Dev) (c i sbe dbe : Nat) : Dev × Bool :=
  if d.tabErr c i 0xFE dbe = 2 then ((d.setTabErr c i 0xFE dbe 0).flt c i dbe, true)
  else if d.armed c i dbe then ((d.disarm c i dbe).flt c i dbe, true)
  else if d.armed c i sbe then ((d.disarm c i sbe).flt c i sbe, false)
  else (d, false)

/-! ## The frame store (R404, R405) -/

/-- Bytes as cells from an address; a byte of 0 is what an unlisted address reads as. -/
def cellsOf : Nat → List Nat → List Host.Cell
  | _, [] => []
  | a, b :: bs => if b % 256 = 0 then cellsOf (a + 1) bs else (a, BitVec.ofNat 8 b) :: cellsOf (a + 1) bs

/-- Write bytes from an address. -/
def cellsWrite (cs : List Host.Cell) (a : Nat) (bs : List Nat) : List Host.Cell :=
  cs.takeWhile (fun c => decide (c.1 < a)) ++ cellsOf a bs ++
    cs.dropWhile (fun c => decide (c.1 < a + bs.length))

/-- Read n bytes from an address. -/
def cellsRead : Nat → Nat → List Host.Cell → List Nat
  | 0, _, _ => []
  | n + 1, a, cs =>
    match cs.dropWhile (fun c => decide (c.1 < a)) with
    | [] => zeros (n + 1)
    | (x, v) :: r => if x = a then v.toNat :: cellsRead n (a + 1) r else 0 :: cellsRead n (a + 1) ((x, v) :: r)

/-- One byte of the frame store. -/
def FrameStore.byte (m : FrameStore) (a : Nat) : Nat :=
  match m.cells.find? (fun c => c.1 == a) with
  | some c => c.2.toNat
  | none => 0

/-- Bytes of the frame store. -/
def FrameStore.read (m : FrameStore) (a n : Nat) : List Nat := cellsRead n a m.cells

/-- A change: a write of a whole word takes its poison away (R405). -/
def FrameStore.apply (m : FrameStore) : MemOp → FrameStore
  | .bytes a bs =>
    { cells := cellsWrite m.cells a bs
      poison := m.poison.filter (fun e => decide (8 * e.1 < a) || decide (a + bs.length < 8 * e.1 + 8)) }
  | .poison w => { m with poison := mset m.poison w true false }
  | .clear a n =>
    { cells := m.cells.filter (fun c => decide (c.1 < a) || decide (a + n ≤ c.1))
      poison := m.poison.filter (fun e => decide (8 * e.1 < a) || decide (a + n < 8 * e.1 + 8)) }

/-- Canonical form: addresses strictly rising, no cell equal to what an unlisted address reads as; the poisoned words too. -/
abbrev Memory.wf (m : FrameStore) : Prop := mwf m.cells 0 = true ∧ mwf m.poison false = true

/-- The words of a range that are poisoned. -/
def FrameStore.poisoned (m : FrameStore) (a n : Nat) : List Nat :=
  (m.poison.filter (fun e => decide (a < 8 * e.1 + 8) && decide (8 * e.1 < a + n))).map (fun e => e.1)

/-- Number, among the words with check-bit errors, of a word of the frame store. -/
def hbmWord (w : Nat) : Nat := 2 ^ 60 + w

/-- No word of a range holds a wrong check bit any longer. -/
def Dev.badClear (d : Dev) (a n : Nat) : Dev :=
  { d with bad := d.bad.filter (fun e => decide (e.1 < hbmWord (a / 8)) || decide (hbmWord ((a + n + 7) / 8) ≤ e.1)) }

/-- A command writes to the frame store; the bytes land when the command is done. An armed injection of the stack's SECDED
checkers is stored with the first word (R404, R495). -/
def Dev.memWrite (d : Dev) (a : Nat) (bs : List Nat) : Dev :=
  let k := a / 25769803776
  let d := { d with
    wbuf := d.wbuf ++ [MemOp.bytes a bs]
    bad := d.bad.filter (fun e =>
      decide (e.1 < hbmWord (a / 8)) || decide (hbmWord ((a + bs.length + 7) / 8) ≤ e.1) ||
        (e.2 == 2 && (decide (e.1 < hbmWord ((a + 7) / 8)) || decide (hbmWord ((a + bs.length) / 8) ≤ e.1)))) }
  if d.armed 0x18 k Hbm.F_DBE then
    { d.disarm 0x18 k Hbm.F_DBE with
      wbuf := d.wbuf ++ [MemOp.poison (a / 8)], bad := mset d.bad (hbmWord (a / 8)) 2 0 }
  else if d.armed 0x18 k Hbm.F_SBE then
    { d.disarm 0x18 k Hbm.F_SBE with bad := mset d.bad (hbmWord (a / 8)) 1 0 }
  else d

/-- The state after a change of the device that writes nothing to the frame store. -/
def State.withDev (s : State) (d : Dev) : State := { s with dev := d.done }

/-- The state after a change of the device: what it wrote has landed in the frame store. -/
def State.landed (s : State) (d : Dev) : State :=
  { s with mem := d.wbuf.foldl FrameStore.apply s.mem, dev := d.done }

/-- A change of the device that may read and write the frame store. -/
def State.updR (s : State) (f : FrameStore → Dev → Dev) : Host.Outcome State Fault Refusal :=
  .next (s.landed (f s.mem s.dev))

/-- A change of the device alone: no command that uses this writes to the frame store. -/
def State.upd (s : State) (f : Dev → Dev) : Host.Outcome State Fault Refusal := .next (s.withDev (f s.dev))

/-- A change made by an island on its own: nothing happens while it is not powered and clocked (R51, R523). -/
def State.updOn (s : State) (island : Nat) (f : Dev → Dev) : Host.Outcome State Fault Refusal :=
  s.upd (fun d => d.when (d.powered island) f)

end Sys2Proof.Machine
end

