-- ==== Sys2Proof/Machine/Queue.lean ====
section
/-!
DEFINITION. The queue rules (R161–R172): items, consumer reads, MARK, REWIND, RELEASE, FLUSH, and the commands that
carry them.
The log's entry 29 of notes/assumptions names what is DEDUCED or a DESIGN CHOICE here, and marks each.
-/

namespace Sys2Proof.Machine

/-- A difference of free-running pointers (R161). -/
def pdiff (a b : Nat) : Nat := (a + 2 ^ 32 - b) % 2 ^ 32

/-- An item is readable when it is complete, or once CT_THRESH of its units are written (R163). -/
def Dev.readableItem (d : Dev) (k : Nat) (x : QItem) : Bool :=
  let ct := d.qrd k Q.Q_CFG_CT_THRESH
  x.done || (ct != 0 && decide (min ct x.units ≤ pdiff (d.queue k).wr x.start))

/-- The readable item at RD_PT, if there is one. -/
def Dev.itemAtRd (d : Dev) (k : Nat) : Option QItem :=
  let q := d.queue k
  if q.rd = q.wr then none
  else (q.items.find? (fun x => x.start == q.rd)).filter (d.readableItem k)

/-- The items that wait for delivery queue q, in order, as long as slots are free (R421); an uncorrectable word of the
pending store loses an item (R437). -/
def dqFillN : Nat → Dev → Nat → Dev
  | 0, d, _ => d
  | n + 1, d, q =>
    let k := 64 + q
    match (d.dqh q).wait with
    | [] => d
    | x :: r =>
      if d.qrd k Dq.RING_CFG_Q_EN = 1 ∧ d.mayIssue (d.qrd k Dq.RING_CFG_FUNCTION) ∧ 0 < d.qFree k then
        let u := d.useBuf 0x1A 0 De.F_STG_SBE De.F_STG_DBE
        let d := u.1
        if u.2 then
          let d := d.setDqh q { d.dqh q with wait := r, lost := true }
          let d := d.qwr k Dq.Q_CNT_C_DROP_CNT (satAdd 16 (d.qrd k Dq.Q_CNT_C_DROP_CNT) 1)
          dqFillN n (d.evt 0x1B (q / 8) Dq.E_DROP) q
        else
          let d := d.setDqh q { d.dqh q with wait := r, move := (d.dqh q).move ++ [x] }
          dqFillN n ((d.setQueue k { d.queue k with resv := (d.queue k).resv + 1 }).qSettle k) q
      else d

def Dev.dqFill (d : Dev) (k : Nat) : Dev :=
  if 64 ≤ k ∧ k < 320 then dqFillN (d.dqh (k - 64)).wait.length d (k - 64) else d

/-- Release: REL_PT takes RD_PT, the mark clears, and released items leave (R165). -/
def Dev.qRelease (d : Dev) (k : Nat) : Dev :=
  let q := d.queue k
  let d := if 320 ≤ k then
      d.setIqh (k - 320) { d.iqh (k - 320) with descs := (d.iqh (k - 320)).descs.drop (pdiff q.rd q.rel) }
    else d
  (d.setQueue k { q with
    rel := q.rd
    markValid := false
    items := q.items.filter (fun x => decide (pdiff x.start q.rd < pdiff q.wr q.rd) || !x.done) }).qSettle k |>.dqFill k

/-- The consumer finishes the item at RD_PT; AUTO_RELEASE frees it while no mark is held (R165). -/
def Dev.qFinish (d : Dev) (k : Nat) (x : QItem) : Dev :=
  let q := d.queue k
  let d := d.setQueue k { q with rd := (x.start + x.units) % 2 ^ 32, cut := false }
  d.when (d.qrd k Q.Q_CFG_AUTO_RELEASE == 1 && !q.markValid) (fun d => d.qRelease k)

/-- A read at an item boundary that finds no readable item returns the idle item and counts (R164). -/
def Dev.qIdle (d : Dev) (k : Nat) : Dev :=
  let q := d.queue k
  d.setQueue k { q with idleReads := satAdd 16 q.idleReads 1, cut := false }

/-- MARK (R165). -/
def Dev.qMark (d : Dev) (k : Nat) : Dev :=
  let q := d.queue k
  (d.setQueue k { q with mark := q.rd, markValid := true }).qSettle k

/-- REWIND (R165); descriptors from the mark on are taken up anew. -/
def Dev.qRewind (d : Dev) (k : Nat) : Dev :=
  let q := d.queue k
  if q.markValid then
    let d := if 320 ≤ k then
        let h := d.iqh (k - 320)
        let n := pdiff q.mark q.rel
        d.setIqh (k - 320) { h with
          descs := h.descs.take n ++ (h.descs.drop n).map (fun x => { x with taken := false, fetched := 0 }) }
      else d
    d.setQueue k { q with rd := q.mark, rewindCnt := satAdd 16 q.rewindCnt 1 }
  else d.qEvt k 3

/-- The item software last took from an event FIFO is its present item; FLUSH cuts it, and its words after the first
read 0 (R167, R171). -/
def Dev.qCutTaken (d : Dev) (k : Nat) : Dev :=
  let w := (d.din (k - 16)).words.getD 0 0
  if 16 ≤ k ∧ k < 40 ∧ w ≠ 0 then
    (d.setDin (k - 16) { d.din (k - 16) with words := [w, 0, 0, 0, 0, 0, 0, 0] }).setQueue k
      { d.queue k with cut := true }
  else d

/-- The rewind pass that an LCU is at is over; the next one asked for follows (R299, R355). -/
def Dev.passNext (d : Dev) (p : Nat) : Dev :=
  let h := d.lcu p
  let rest := h.asks.drop 1
  (d.setLcu p { h with
    asks := rest, psized := []
    pass := match rest with
      | a :: _ => .wanted a.2
      | [] => .none }).wr Lcu.STAT_REREADING p 0

/-- The mark of a rewind pass is set. -/
def Pass.begun : Pass → Bool
  | .marked _ | .reread _ => true
  | _ => false

/-- FLUSH of a line FIFO takes the present item from the LCU: a line that waits for a history sample, and a rewind pass, whose
mark is gone (R167). -/
def Dev.lcuFlushed (d : Dev) (p : Nat) : Dev :=
  let d := (d.setLcu p { d.lcu p with pend := none }).wr Lcu.STAT_HIST_WAIT p 0
  d.when (d.lcu p).pass.begun (fun d => d.passNext p)

/-- FLUSH (R167): every item begun before it goes and all pointers meet at WR_PT, which runs freely (R161); an item in
progress is discarded and its remaining words are swallowed; a delivery or intake queue loses its reserved slots, and the
items of a delivery queue that wait or move go (R423, R424). -/
def Dev.qFlush (d : Dev) (k : Nat) : Dev :=
  let d := d.qCutTaken k
  let q := d.queue k
  let d := d.when (decide (320 ≤ k) && q.rel != q.wr) (fun d => d.qwr k Dq.FLUSH_FROM q.rel)
  let d := d.setQueue k { q with
    rd := q.wr, rel := q.wr, resv := 0, items := [], markValid := false, flushBusy := true
    flushCut := if q.items.any (fun x => !x.done) || (decide (k < 16) && (d.ing k).line.isSome) then satAdd 16 q.flushCut 1
      else q.flushCut }
  let d := d.when (decide (k < 16)) (fun d => d.lcuFlushed k)
  let d := if k < 16 then
      match (d.ing k).line with
      | some o => d.setIng k { d.ing k with line := none, swallow := some o.num, prev := some o.num }
      | none => d
    else if 64 ≤ k ∧ k < 320 then
      let n := (d.dqh (k - 64)).move.length
      (d.setDqh (k - 64) { d.dqh (k - 64) with wait := [], move := [] }).setQueue k
        { d.queue k with flushCut := satAdd 16 (d.queue k).flushCut n }
    else if 320 ≤ k then
      let d := d.setIqh (k - 320) { d.iqh (k - 320) with descs := [], waiting := 0 }
      { d with links := d.links.map (fun e => (e.1, { e.2 with reqs := e.2.reqs.map (fun r =>
          if (r.use = 0 ∧ r.arg = k - 320) ∨ (r.use = 1 ∧ r.arg / 2 ^ 32 = k - 320) then { r with use := 9 } else r) })) }
    else d
  let d := if k < 16 then
      (d.wrb Ingest.STAT_SWALLOWING k (d.ing k).swallow.isSome).wr Ingest.STAT_ASSEMBLING k 0
    else d
  d.qSettle k

/-- Write an item into a queue whose producer writes whole items; the caller has checked that it fits (R162). -/
def Dev.qPut (d : Dev) (k units : Nat) (hdr pay trl : List Nat) : Dev :=
  let q := d.queue k
  (d.setQueue k { q with
    wr := (q.wr + units) % 2 ^ 32
    items := q.items ++ [⟨q.wr, units, hdr, pay, trl, true⟩] }).qSettle k

/-- The consuming block of a queue whose consumer is a device block (R166, R424). -/
def qConsumer (k : Nat) : Option (Nat × Nat) :=
  if k < 16 then some (0x0C, k) else if k < 320 then none else some (0x1A, 0)

/-- A software MARK, REWIND or RELEASE: refused while the consuming block has EN = 1 (R166), ignored during a flush
(R167). -/
def Dev.qSoft (d : Dev) (k : Nat) (op : Dev → Dev) : Dev :=
  let busy := match qConsumer k with
    | some (c, i) => d.enabled c i
    | none => false
  if busy then d.badAccess (qPage k).1 (qPage k).2
  else if (d.queue k).flushBusy then d
  else op d

/-- A MARK, REWIND or RELEASE of a consuming block: ignored during a flush (R167, R169). -/
def Dev.qDev (d : Dev) (k : Nat) (op : Dev → Dev) : Dev := if (d.queue k).flushBusy then d else op d

/-- One Q_CMD write (R166): with FLUSH every other command bit is ignored; otherwise CLR_CNT clears the counts, and
RELEASE, REWIND and MARK act in that order. -/
def Dev.qCmd (d : Dev) (k v : Nat) : Dev :=
  if v.testBit 3 then d.qFlush k
  else
    let d := d.when (v.testBit 4) (fun d =>
      let q := d.queue k
      let d := d.setQueue k { q with wmHiCount := 0, flushCut := 0, rewindCnt := 0, idleReads := 0 }
      if 64 ≤ k then (d.qwr k Dq.Q_CNT_C_DROP_CNT 0).qwr k Dq.Q_CNT_C_DESC_ERR_CNT 0 else d)
    let d := d.when (v.testBit 2) (fun d => d.qSoft k (fun d => d.qRelease k))
    let d := d.when (v.testBit 1) (fun d => d.qSoft k (fun d => d.qRewind k))
    d.when (v.testBit 0) (fun d => d.qSoft k (fun d => d.qMark k))

/-- A queue's page, as the access gate sees it. -/
def Dev.busQ (d : Dev) (r k : Nat) (f : Dev → Dev) : Dev := d.busW r (qPage k).1 (qPage k).2 f

def execQueueMark (req : Req) (queue : QueueId) (s : State) : Host.Outcome State Fault Refusal :=
  s.upd (fun d => d.busQ req.num queue.num (fun d => d.qCmd queue.num 1))

def execQueueRewind (req : Req) (queue : QueueId) (s : State) : Host.Outcome State Fault Refusal :=
  s.upd (fun d => d.busQ req.num queue.num (fun d => d.qCmd queue.num 2))

def execQueueRelease (req : Req) (queue : QueueId) (s : State) : Host.Outcome State Fault Refusal :=
  s.upd (fun d => d.busQ req.num queue.num (fun d => d.qCmd queue.num 4))

def execQueueFlush (req : Req) (queue : QueueId) (s : State) : Host.Outcome State Fault Refusal :=
  s.upd (fun d => d.busQ req.num queue.num (fun d => d.qCmd queue.num 8))

/-- The flush completes: FLUSH_BUSY clears and FLUSH_DONE is raised (R167). -/
def execQueueFlushDone (queue : QueueId) (s : State) : Host.Outcome State Fault Refusal :=
  s.upd (fun d =>
    let k := queue.num
    let q := d.queue k
    d.when q.flushBusy (fun d => ((d.setQueue k { q with flushBusy := false }).qEvt k 2).dqFill k))

end Sys2Proof.Machine
end

