-- ==== Sys2Proof/Machine/Store.lean ====
section
/-!
DEFINITION. The frame store (R404–R413): stacks, ECC, poison, scrub and sparing; regions and their tile rings.
The log's entry 55 of notes/assumptions names what is DEDUCED or a DESIGN CHOICE here, and marks each.
-/

namespace Sys2Proof.Machine

/-- Bytes of a stack (R404). -/
abbrev stackBytes : Nat := 25769803776

/-- The stack of a frame-store byte, and the pseudo-channel that holds its 256-byte block (R404). -/
def stackOf (a : Nat) : Nat := a / stackBytes
def pcOf (a : Nat) : Nat := a % stackBytes / 256 % 32

def Dev.hbmh (d : Dev) (k : Nat) : HbmH := mget d.hbm k default
def Dev.setHbmh (d : Dev) (k : Nat) (x : HbmH) : Dev := { d with hbm := mset d.hbm k x default }

/-! ## Sparing (R407) -/

/-- A sparing cause in a stack: the copy starts; a further one, of the pseudo-channel that is being copied too, sets PC_FAIL
and changes nothing. -/
def Dev.spareCause (d : Dev) (k pc : Nat) : Dev :=
  let h := d.hbmh k
  if d.is Hbm.STAT_SPARED k || h.copying.isSome then d.flt 0x18 k Hbm.F_PC_FAIL
  else (d.setHbmh k { errs := h.errs.filter (fun e => e.1 != pc), copying := some pc }).wr Hbm.STAT_COPYING k 1

/-- An hour in 2^-16 ns. -/
abbrev hourL : Nat := 3600 * 1000000000 * nsL

/-- A corrected error of a word (R405, R407). -/
def Dev.hbmSbe (d : Dev) (a : Nat) : Dev :=
  let k := stackOf a
  let pc := pcOf a
  let d := (d.incSat Hbm.ECC_CNT_SBE_CNT k).flt 0x18 k Hbm.F_SBE
  let errs := ((d.hbmh k).errs.filter (fun e => decide (d.nowL < e.2 + hourL))) ++ [(pc, d.nowL)]
  let d := d.setHbmh k { d.hbmh k with errs := errs }
  d.when (d.is Hbm.ECC_CFG_SPARE_AUTO k &&
    decide (d.rd Hbm.ECC_CFG_SPARE_THRESH k < (errs.filter (fun e => e.1 == pc)).length)) (fun d => d.spareCause k pc)

/-- An uncorrectable word is read (R405): DBE, its count, and the address while DBE was 0. -/
def Dev.hbmDbe (d : Dev) (a : Nat) : Dev :=
  let k := stackOf a
  let d := d.when (!(d.rd (Hdr.FLT 0x18) k).testBit Hbm.F_DBE) (fun d => d.wr Hbm.ERR_ADDR k a)
  (d.incSat Hbm.ECC_CNT_DBE_CNT k).flt 0x18 k Hbm.F_DBE

/-- A poisoned word is read. One that was stored with two wrong check bits and has not been read before is no read of a
poisoned word: it is a sparing cause (R405, R407, R495). -/
def Dev.hbmLost (d : Dev) (w : Nat) : Dev :=
  let a := 8 * w
  if mget d.bad (hbmWord w) 0 = 2 then
    let d := ({ d with bad := mdrop d.bad (hbmWord w) } : Dev).hbmDbe a
    d.when (d.is Hbm.ECC_CFG_SPARE_AUTO (stackOf a)) (fun d => d.spareCause (stackOf a) (pcOf a))
  else d.hbmDbe a

/-- Words of a range with one wrong check bit are corrected as they are read (R405, R495). -/
def Dev.hbmFix (d : Dev) (a n : Nat) : Dev :=
  let hit := fun (e : Nat × Nat) => e.2 == 1 && decide (hbmWord (a / 8) ≤ e.1) && decide (e.1 < hbmWord ((a + n + 7) / 8))
  (d.bad.filter hit).foldl (fun d e => d.hbmSbe (8 * (e.1 - hbmWord 0))) { d with bad := d.bad.filter (fun e => !hit e) }

/-- Every poisoned word a reader meets in a range is found uncorrectable again (R405). -/
def Dev.hbmMet (d : Dev) (m : FrameStore) (a n : Nat) : Dev :=
  (m.poisoned a n).foldl (fun d w => d.hbmLost w) (d.hbmFix a n)

/-- A stack reads and checks its words: trained, enabled, not gated (R406). -/
def Dev.hbmRuns (d : Dev) (k : Nat) : Bool := d.is Hbm.STAT_READY k && !d.silent 0x18 k

/-- A scrub read finds what it finds (R405–R407). -/
def Dev.scrubRead (d : Dev) (m : FrameStore) (a : Nat) (err : SramErr) : Dev :=
  let k := stackOf a
  if !(decide (k < 4) && d.hbmRuns k && d.is Hbm.ECC_CFG_SCRUB_EN k) then d
  else
    let d := d.wr Hbm.SCRUB_STAT_PROGRESS k (a % stackBytes * 100 / stackBytes)
    let d := d.hbmFix (a / 8 * 8) 8
    if (mget m.poison (a / 8) false) then d.hbmLost (a / 8)
    else match err with
      | .none => d
      | .single => d.hbmSbe a
      | .double =>
        let d := { d with wbuf := d.wbuf ++ [MemOp.poison (a / 8)] }
        let d := d.hbmDbe a
        d.when (d.is Hbm.ECC_CFG_SPARE_AUTO k) (fun d => d.spareCause k (pcOf a))

def execHbmScrubRead (addr : Nat) (err : SramErr) (s : State) : Host.Outcome State Fault Refusal :=
  s.updR (fun m d => d.scrubRead m addr err)

/-- A pass ends (R406). -/
def execScrubPass (stack : Fin 4) (s : State) : Host.Outcome State Fault Refusal :=
  s.upd (fun d =>
    d.when (d.hbmRuns stack && d.is Hbm.ECC_CFG_SCRUB_EN stack) (fun d =>
      ((d.addWrap Hbm.SCRUB_STAT_PASS_CNT stack 1).wr Hbm.SCRUB_STAT_PROGRESS stack 0).evt 0x18 stack Hbm.E_SCRUB_PASS))

def execSpareNow (req : Req) (stack : Fin 4) (pc : Fin 32) (s : State) : Host.Outcome State Fault Refusal :=
  s.upd (fun d => d.busW req.num 0x18 stack (fun d => (d.wr Hbm.HBM_CMD_PC stack pc).spareCause stack pc))

/-- The spare takes over a pseudo-channel; the health record keeps it (R407, R493). -/
def Dev.spareTake (d : Dev) (k pc : Nat) : Dev :=
  let d := ((d.wr Hbm.STAT_SPARED k 1).wr Hbm.STAT_SPARED_PC k pc).wr Hbm.STAT_COPYING k 0
  let h := d.health
  let d := { d with health := { h with
    spareMap := h.spareMap ||| 2 ^ k
    sparedPc := h.sparedPc - bits h.sparedPc (5 * k) 5 * 2 ^ (5 * k) + pc * 2 ^ (5 * k) } }
  d.flt 0x18 k Hbm.F_PC_SPARED

/-- The copy is complete (R407). -/
def execSpareDone (stack : Fin 4) (s : State) : Host.Outcome State Fault Refusal :=
  s.upd (fun d =>
    match (d.hbmh stack).copying with
    | some pc =>
      let d := d.setHbmh stack { d.hbmh stack with copying := none }
      (d.evt 0x18 stack Hbm.E_SPARE_DONE).spareTake stack pc
    | none => d)

/-- A stack has trained after its EN rose (R434); an injection that waited for its interface acts (R495). -/
def execHbmReady (stack : Fin 4) (s : State) : Host.Outcome State Fault Refusal :=
  s.upd (fun d =>
    d.when (d.enabled 0x18 stack && !d.silent 0x18 stack && !d.is Hbm.STAT_READY stack)
      (fun d => (d.wr Hbm.STAT_READY stack 1).when (d.armed 0x18 stack Hbm.F_LINK_ERR) (fun d =>
        (d.disarm 0x18 stack Hbm.F_LINK_ERR).flt 0x18 stack Hbm.F_LINK_ERR)))

/-- A stack's temperature; HOT as it reaches 95 °C (R435). -/
def execHbmHot (stack : Fin 4) (temp : Nat) (s : State) : Host.Outcome State Fault Refusal :=
  s.upd (fun d =>
    let old := d.rd Hbm.HBM_TEMP_TEMP stack
    let d := d.wr Hbm.HBM_TEMP_TEMP stack temp
    d.when (decide (old < 95) && decide (95 ≤ d.rd Hbm.HBM_TEMP_TEMP stack)) (fun d => d.evt 0x18 stack Hbm.E_HOT))

/-! ## Regions (R408–R411) -/

def Dev.rgnKind (d : Dev) (n : Nat) : Nat := d.rd Rgn.REG_CFG_KIND n

/-- First byte and bytes of a region (R408). -/
def Dev.rgnBase (d : Dev) (n : Nat) : Nat := d.rd Rgn.REG_LOC_BASE n * 2097152
def Dev.rgnBytes (d : Dev) (n : Nat) : Nat := d.rd Rgn.REG_LOC_SIZE n * 2097152

/-- Channels of the tiles a ring holds (R412). -/
def Dev.rgnChan (d : Dev) (n : Nat) : Nat := if d.is Rgn.REG_CFG_SLOT_CHAN n then 3 else 1

def Dev.rgnStride (d : Dev) (n : Nat) : Nat := 512 + 65536 * d.rgnChan n

/-- A tile ring: HISTORY or SNAG_TILE. -/
def Dev.rgnRing (d : Dev) (n : Nat) : Bool := d.rgnKind n == 1 || d.rgnKind n == 2

/-- SLOTS; 0 for SCRATCH and REFERENCE (R412, R436). -/
def Dev.rgnSlots (d : Dev) (n : Nat) : Nat := if d.rgnRing n then d.rgnBytes n / d.rgnStride n else 0

/-- SEQ_WRAP, the largest multiple of SLOTS not above 2^32 (R412). -/
def Dev.rgnWrap (d : Dev) (n : Nat) : Nat :=
  let k := d.rgnSlots n
  if k = 0 then 0 else k * (2 ^ 32 / k)

/-- The byte of the slot of a sequence (R412). -/
def Dev.slotByte (d : Dev) (n seq : Nat) : Nat := d.rgnBase n + seq % d.rgnSlots n * d.rgnStride n

/-- The record in the slot of sequence s is stable (R413). -/
def Dev.slotStable (d : Dev) (n seq : Nat) : Bool :=
  let w := d.rgnWrap n
  let x := (d.rd Rgn.WR_SEQ n + w - seq % w) % w
  decide (1 ≤ x) && decide (x ≤ d.rgnSlots n - 1)

/-- A tile record takes slot WR_SEQ mod SLOTS, and WR_SEQ advances (R412). -/
def Dev.tilePut (d : Dev) (n : Nat) (rec : List Nat) : Dev :=
  if d.rgnSlots n = 0 then d
  else
    let seq := d.rd Rgn.WR_SEQ n
    let next := (seq + 1) % d.rgnWrap n
    let d := d.memWrite (d.slotByte n seq) rec
    let d := d.wr Rgn.WR_SEQ n next
    d.when (next % d.rgnSlots n == 0) (fun d => d.addWrap Rgn.WRAP_CNT n 1)

/-- The claimant's EN rises (R412). -/
def Dev.ringRestart (d : Dev) (n : Nat) : Dev := d.wr Rgn.WR_SEQ n 0

/-- Two regions share a 2 MiB unit. -/
def Dev.rgnOverlap (d : Dev) (a b : Nat) : Bool :=
  decide (d.rgnBase a < d.rgnBase b + d.rgnBytes b) && decide (d.rgnBase b < d.rgnBase a + d.rgnBytes a)

/-- Whether a region may be enabled (R409). -/
def Dev.rgnMayEnable (d : Dev) (n : Nat) : Bool :=
  d.rd Rgn.REG_LOC_SIZE n != 0 &&
    decide (d.rd Rgn.REG_LOC_BASE n + d.rd Rgn.REG_LOC_SIZE n ≤ 49152) &&
    (List.range 64).all (fun m => m == n || !(d.enabled 0x19 m && d.rgnOverlap n m)) &&
    (List.range 4).all (fun k =>
      d.is Hbm.STAT_READY k || decide ((k + 1) * 12288 ≤ d.rd Rgn.REG_LOC_BASE n) ||
        decide (d.rd Rgn.REG_LOC_BASE n + d.rd Rgn.REG_LOC_SIZE n ≤ k * 12288)) &&
    (!d.rgnRing n || decide (2 ≤ d.rgnSlots n))

/-- A region a block names: enabled, of a kind, and for a ring with the channels of the claimant (R408). -/
def Dev.rgnFit (d : Dev) (n kind : Nat) (chan : Option Nat) : Bool :=
  d.enabled 0x19 n && d.rgnKind n == kind && (chan == none || chan == some (d.rgnChan n))

/-- Channels of a camera format: 1 for MONO8, 3 for the RGB formats (R284). -/
def fmtChan (fmt : Nat) : Nat := if fmt = 1 then 1 else 3

/-- The history region of a port's LCU and what is in it. -/
def Dev.histRegion (d : Dev) (p : Nat) : Nat := d.rd Lcu.HIST_REGION_REGION p

/-- A region page at its reset layout (R410). -/
def Dev.rgnDefaults (d : Dev) (n : Nat) : Dev :=
  let r := rgnReset n
  (((d.wr Rgn.REG_CFG_KIND n r.1).wr Rgn.REG_CFG_SLOT_CHAN n r.2.1).wr Rgn.REG_LOC_BASE n r.2.2.1).wr
    Rgn.REG_LOC_SIZE n r.2.2.2

end Sys2Proof.Machine
end

