-- ==== Sys2Proof/Machine/Delivery.lean ====
section
/-!
DEFINITION. Delivery queues and the Delivery Engine (R414–R423, R430, R437–R439): tags, write-backs in ring order, pointer
mirrors, the read point.
The log's entries 2 and 54 of notes/assumptions name what is DEDUCED or a DESIGN CHOICE here, and marks each.
-/

namespace Sys2Proof.Machine

/-- The Delivery Engine runs (R37, R437). -/
def Dev.deRuns (d : Dev) : Bool := d.enabled 0x1A 0 && !d.silent 0x1A 0

/-- Q_EN of a queue clears (R428, R439, R464). -/
def Dev.qOff (d : Dev) (k : Nat) : Dev := d.qwr k Dq.RING_CFG_Q_EN 0

/-- A queue's context is used: its page's checkers (R439). The second value is false when Q_EN has cleared. -/
def Dev.qCtx (d : Dev) (k : Nat) : Dev × Bool :=
  let p := (qPage k).2
  if d.armed 0x1B p Dq.F_PTR_ERR then (((d.disarm 0x1B p Dq.F_PTR_ERR).flt 0x1B p Dq.F_PTR_ERR).qOff k, false)
  else
    let u := d.useBuf 0x1B p Dq.F_CTX_SBE Dq.F_CTX_DBE
    if u.2 then (u.1.qOff k, false) else (u.1, true)

def Dev.qFn (d : Dev) (k : Nat) : Nat := d.qrd k Dq.RING_CFG_FUNCTION

/-- Host address of the slot of a pointer value (R414). -/
def Dev.slotAddr (d : Dev) (k ptr : Nat) : Nat := d.qrd k Dq.RING_BASE + 32 * (ptr % d.qSize k)

/-! ## Pointer mirror (R417) -/

/-- The mirrored pointer has advanced. -/
def Dev.mirrorDue (d : Dev) (k : Nat) : Dev :=
  if d.qrd k Dq.MIRROR = 0 then d
  else if k < 320 then d.setDqh (k - 64) { d.dqh (k - 64) with mirrorAt := (d.dqh (k - 64)).mirrorAt <|> some d.nowL }
  else d.setIqh (k - 320) { d.iqh (k - 320) with mirrorAt := (d.iqh (k - 320)).mirrorAt <|> some d.nowL }

/-- A mirror write leaves 1 µs after the first advance it carries: WR_PT of a delivery queue, REL_PT of an intake queue
(R424). None leaves where MIRROR has become 0. -/
def Dev.mirrorWrite (d : Dev) (k : Nat) : Dev :=
  let at? := if k < 320 then (d.dqh (k - 64)).mirrorAt else (d.iqh (k - 320)).mirrorAt
  match at? with
  | none => d
  | some t =>
    let off := if k < 320 then d.setDqh (k - 64) { d.dqh (k - 64) with mirrorAt := none }
      else d.setIqh (k - 320) { d.iqh (k - 320) with mirrorAt := none }
    if d.qrd k Dq.MIRROR = 0 then off
    else if d.nowL < t + 1000 * nsL ∨ d.mayIssue (d.qFn k) = false then d
    else
      let d := off
      let v := if k < 320 then (d.queue k).wr else (d.queue k).rel
      d.hostWrite (d.qFn k) (d.qrd k Dq.MIRROR) (leBytes 4 v ++ zeros 4) false

/-- Every mirror that is due. -/
def Dev.mirrors (d : Dev) : Dev :=
  let d := (d.dq.map (fun e => 64 + e.1)).foldl (fun d k => d.mirrorWrite k) d
  (d.iq.map (fun e => 320 + e.1)).foldl (fun d k => d.mirrorWrite k) d

/-! ## What an item holds (R418–R420) -/

/-- Bytes of the frame store as a reader receives them: a poisoned word reads 0 (R405). -/
def FrameStore.clean (m : FrameStore) (a n : Nat) : List Nat :=
  (m.poisoned a n).foldl (fun bs w => if a ≤ 8 * w ∧ 8 * w + 8 ≤ a + n then patch bs (8 * w - a) (zeros 8) else bs)
    (m.read a n)

/-- The 64-byte tag (R419). -/
def DItem.tag (x : DItem) (q len seq : Nat) : List Nat :=
  [x.typ, 1 + 2 * b2n x.posValid + 4 * b2n x.posSuspect + 8 * b2n x.timeSuspect, x.port, q] ++ leBytes 4 len ++
    leBytes 4 x.seg ++ leBytes 4 seq ++ leBytes 16 x.time ++ leBytes 8 (if x.posValid then x.pos else 0) ++
    [x.posInfo, 0, 0, 0] ++ leBytes 4 x.ref ++ leBytes 8 x.page ++ zeros 8

/-- What follows the tag, and the STATUS it gives: the tiles of a region under the check of R413, or bytes. -/
def Dev.itemBody (m : FrameStore) (d : Dev) (x : DItem) : Dev × List Nat × Nat :=
  match x.body with
  | .bytes b => (d, b, 0)
  | .tiles rg seqs =>
    if seqs.all (d.slotStable rg) then
      let n := d.rgnStride rg
      let at? := seqs.map (d.slotByte rg)
      let bad := at?.any (fun a => !(m.poisoned a n).isEmpty)
      let d := at?.foldl (fun d a => d.hbmMet m a n) d
      (if bad then d.incSat De.DE_CNT_DATA_ERR_CNT 0 else d, at?.flatMap (fun a => m.clean a n), b2n bad)
    else ((d.incSat De.DE_CNT_REUSED_CNT 0).evt 0x1A 0 De.E_SLOT_REUSED, [], 2)

/-! ## Write-backs (R416, R417, R422) -/

/-- The 32 bytes of R416. -/
def DItem.writeBack (x : DItem) (typ wflags status len seq : Nat) : List Nat :=
  [typ, wflags, status, x.port] ++ leBytes 4 len ++ leBytes 4 x.seg ++ leBytes 4 seq ++ leBytes 16 x.time

/-- The receive write-back of R251; the item holds its PTP fields and flags in SEG, PAGE and REF. -/
def DItem.ethWriteBack (x : DItem) (trunc : Bool) (len : Nat) : List Nat :=
  [0x30, 1 + 2 * b2n trunc + x.ref, x.port, 0] ++ leBytes 4 len ++ leBytes 2 x.seg ++
    [x.page % 256, x.page / 256 % 256] ++ zeros 4 ++ leBytes 16 x.time

/-- A write-back leaves as two writes, and its slot becomes visible. -/
def Dev.putBack (d : Dev) (k : Nat) (wb : List Nat) : Dev :=
  let q := d.queue k
  let a := d.slotAddr k q.wr
  let d := d.hostWrite (d.qFn k) (a + 8) (wb.drop 8) false
  let d := d.hostWrite (d.qFn k) a (wb.take 8) false
  let d := d.setQueue k { d.queue k with resv := q.resv - 1 }
  (d.qPut k 1 wb [] []).mirrorDue k

/-- LAST_STATUS (R438). -/
def Dev.lastStatus (d : Dev) (k status slot : Nat) : Dev :=
  if status = 0 then d else (d.qwr k Dq.LAST_STATUS_STATUS status).qwr k Dq.LAST_STATUS_SLOT slot

/-- The item is visible: the sequence and the vector's count (R416, R433). -/
def Dev.itemSeen (d : Dev) (k : Nat) : Dev :=
  let q := k - 64
  let n := ((d.dqh q).itemSeq + 1) % 2 ^ 32
  let d := (d.setDqh q { d.dqh q with itemSeq := n }).qwr k Dq.ITEMS_TOTAL n
  if d.qrd k Dq.Q_VEC_VEC_EN = 1 then
    let v := d.vec (d.qFn k) (d.qrd k Dq.Q_VEC_VECTOR)
    d.setVec (d.qFn k) (d.qrd k Dq.Q_VEC_VECTOR)
      { v with items := v.items + 1, firstAt := if v.items = 0 then d.nowL else v.firstAt }
  else d

/-- Whether the slot's descriptor is a posted one (R415, R422). -/
def descPosted (desc : List Nat) : Bool :=
  le desc 0 8 == 0 && le desc 8 8 % 64 == 0 && decide (64 ≤ le desc 16 4)

/-- The items keep their order when a slot was used up without one: the last of them waits again, or is dropped, where no
further slot is free (R421). -/
def Dev.dqShift (d : Dev) (k : Nat) : Dev :=
  let q := k - 64
  let h := d.dqh q
  if 0 < d.qFree k then d.setQueue k { d.queue k with resv := (d.queue k).resv + 1 } |>.qSettle k
  else match h.move.getLast? with
    | none => d
    | some x =>
      let d := d.setDqh q { h with move := h.move.dropLast }
      if x.typ = 0x30 then (d.incSat Eth.ETH_CNT_A_RX_DROP_CNT (x.port % 2)).evt 0x16 (x.port % 2) Eth.E_RX_DROP
      else if d.waitsMore k then
        d.setDqh q { d.dqh q with wait := x :: (d.dqh q).wait }
      else
        let d := d.setDqh q { d.dqh q with lost := true }
        (d.qwr k Dq.Q_CNT_C_DROP_CNT (satAdd 16 (d.qrd k Dq.Q_CNT_C_DROP_CNT) 1)).evt 0x1B (q / 8) Dq.E_DROP

/-- The slot holds no posted descriptor: SKIPPED, and the item moves on (R422). -/
def Dev.skipSlot (d : Dev) (k : Nat) (x : DItem) : Dev :=
  let q := k - 64
  let slot := (d.queue k).wr % d.qSize k
  let wb := x.writeBack 0x6F (1 + 2 * b2n (d.dqh q).lost) 4 0 (d.dqh q).itemSeq
  let d := (d.setDqh q { d.dqh q with lost := false }).putBack k wb
  let d := d.lastStatus k 4 slot
  let d := d.qwr k Dq.Q_CNT_C_DESC_ERR_CNT (satAdd 16 (d.qrd k Dq.Q_CNT_C_DESC_ERR_CNT) 1)
  (d.evt 0x1B (q / 8) Dq.E_DESC_ERR).dqShift k

/-- Bytes of an item, its tag among them, as far as they are known before it leaves. -/
def Dev.itemBytes (d : Dev) (x : DItem) : Nat :=
  (if x.typ = 0x30 then 0 else 64) + match x.body with
    | .bytes b => b.length
    | .tiles rg seqs => seqs.length * d.rgnStride rg

/-- WR_INFLIGHT: the write bursts of the items whose data are moving, 4 KiB each, of which at most 512 are in flight (R429,
R437). -/
def Dev.wrInflight (d : Dev) : Nat :=
  if !d.deRuns then 0
  else min 512 (((List.range 256).filter (fun q => d.qrd (64 + q) Dq.RING_CFG_Q_EN == 1 && d.mayIssue (d.qFn (64 + q)))).foldl
    (fun n q => (d.dqh q).move.foldl (fun n x => n + cdiv (d.itemBytes x) 4096) n) 0)

/-- The item's data go to its buffer, and its write-back follows (R416–R418). -/
def Dev.deliver (m : FrameStore) (d : Dev) (k : Nat) (x : DItem) (addr len : Nat) : Dev :=
  let q := k - 64
  let slot := (d.queue k).wr % d.qSize k
  let seq := (d.dqh q).itemSeq
  let b := d.itemBody m x
  let d := b.1
  let eth := x.typ == 0x30
  let img := if eth then b.2.1 else x.tag q b.2.1.length seq ++ b.2.1
  let short := decide (len < img.length)
  let out := img.take len
  let status := if eth then 0 else if short then 3 else b.2.2
  let wb := if eth then x.ethWriteBack short out.length
    else x.writeBack x.typ (1 + 2 * b2n (d.dqh q).lost) status out.length seq
  let relax := d.is De.DE_CFG_DATA_RO 0 && (d.fn (d.qFn k)).relaxed
  let d := d.hostBurst (d.qFn k) addr out relax
  let d := if eth then d else d.setDqh q { d.dqh q with lost := false }
  ((d.putBack k wb).lastStatus k status slot).itemSeen k

/-- The data movement of the item of slot p is complete; write-backs leave in ring order. desc is what the slot held. -/
def Dev.writeBack (m : FrameStore) (d : Dev) (q slot : Nat) (desc : List Nat) : Dev :=
  let k := 64 + q
  match (d.dqh q).move with
  | [] => d
  | x :: rest =>
    if !(d.deRuns && d.qrd k Dq.RING_CFG_Q_EN == 1 && d.mayIssue (d.qFn k) && slot == (d.queue k).wr % d.qSize k) then d
    else
      let c := d.qCtx k
      if !c.2 then c.1
      else if descPosted desc then
        (c.1.setDqh q { c.1.dqh q with move := rest }).deliver m k x (le desc 8 8) (le desc 16 4)
      else c.1.skipSlot k x

def execWriteBack (queue : Fin 256) (slot : Nat) (desc : List Nat) (s : State) : Host.Outcome State Fault Refusal :=
  s.updR (fun m d => d.writeBack m queue slot desc)

/-! ## The read point (R415) -/

/-- PTR_POST of a delivery queue. -/
def Dev.ptrPost (d : Dev) (q val : Nat) : Dev :=
  let k := 64 + q
  let h := d.queue k
  if pdiff h.wr h.rd < pdiff val h.rd then d.badAccess 0x1B (q / 8)
  else
    let d := d.setQueue k { h with rd := val % 2 ^ 32, cut := false }
    d.when (d.qrd k Q.Q_CFG_AUTO_RELEASE == 1 && !h.markValid) (fun d => d.qRelease k)

def execPtrPost (req : Req) (queue : Fin 256) (val : Word) (s : State) : Host.Outcome State Fault Refusal :=
  s.upd (fun d => d.busQ req.num (64 + queue) (fun d => d.ptrPost queue val.toNat))

/-- Q_EN rises: the item sequence restarts (R416). -/
def Dev.qEnable (d : Dev) (k : Nat) : Dev :=
  if k < 320 then
    (d.setDqh (k - 64) { d.dqh (k - 64) with itemSeq := 0, lost := false }).qwr k Dq.ITEMS_TOTAL 0
  else d

end Sys2Proof.Machine
end

