-- ==== Sys2Proof/Machine/Wake.lean ====
section
/-!
DEFINITION. Wake events (R469, R470).
-/

namespace Sys2Proof.Machine

/-- Whether WAKE_CFG of a link takes an event of a source: 1 Voxord, 2 D0, 3 stream n (R469). -/
def Dev.wakeEnabled (d : Dev) (l src n : Nat) : Bool :=
  d.linkExists l &&
    match src with
    | 1 => d.is Link.WAKE_CFG_WAKE_VOX l
    | 2 => d.is Link.WAKE_CFG_WAKE_D0 l && decide (d.resPart Claims.ACT_DIN 0 = d.linkPart l)
    | _ => d.is Link.WAKE_CFG_WAKE_S l && d.rd Link.WAKE_CFG_WAKE_STREAM l == n &&
        decide (d.resPart Claims.ACT_STREAMS n = d.linkPart l)

/-- The link acts on an enabled wake event according to its state (R470). -/
def Dev.wakeLink (d : Dev) (l src : Nat) : Dev :=
  let d := (d.wr Link.WAKE_STAT_LAST_SRC l src).incSat Link.WAKE_STAT_WAKE_CNT l
  let d := d.evt 0x1C l Link.E_WAKE
  let h := d.link l
  let f := d.fn (16 * l)
  if h.waking then d
  else if h.perst then
    if h.armed then (d.setLink l { h with waking := true }).emit (.wake l true) else d
  else if f.d3 && f.pmeEn then
    let d := d.l1Exit l
    ((d.setLink l { d.link l with waking := true }).setFn (16 * l) { f with pmeStatus := true }).emit (.pme l)
  else d

/-- A wake event reaches every host link that enables its source. -/
def Dev.wakeEvent (d : Dev) (src n : Nat) : Dev :=
  (List.range 4).foldl (fun d l => d.when (d.wakeEnabled l src n) (fun d => d.wakeLink l src)) d

end Sys2Proof.Machine
end

