-- ==== Sys2Proof/Machine/IntakeQueue.lean ====
section
/-!
DEFINITION. Intake queues (R424–R426, R428, R429): descriptors posted, fetched and written back; read requests at a host
and their tags (R458–R460).
The log's entries 4 and 53 of notes/assumptions name what is DEDUCED or a DESIGN CHOICE here, and marks each.
-/

namespace Sys2Proof.Machine

/-! ## Read requests (R429, R457, R460) -/

/-- Tags of a link that may be used. -/
def LinkH.freeTags (h : LinkH) : Nat := 16384 - h.reqs.length - h.quar.length - h.stale.length

/-- TAG_STAT, TAGS_LOW and RD_INFLIGHT follow the tags (R437, R460, R473). -/
def Dev.showTags (d : Dev) (l : Nat) : Dev :=
  let h := d.link l
  let d := (d.wr Link.TAG_STAT_OUTSTANDING l h.reqs.length).wr Link.TAG_STAT_QUARANTINED l h.quar.length
  let d := d.wrb Link.STAT_TAGS_LOW l (decide (h.freeTags < 1024))
  d.wr De.DE_STAT_RD_INFLIGHT 0 ((List.range 4).foldl (fun n i => n + (d.link i).reqs.length) 0)

/-- The next tag that is neither outstanding, quarantined nor abandoned. -/
def LinkH.pickTag (h : LinkH) : Option Nat :=
  ((List.range 16384).map (fun i => (h.nextTag + i) % 16384)).find? (fun t =>
    !(h.reqs.any (fun r => r.tag == t)) && !(h.quar.any (fun x => x.1 == t)) && !h.stale.contains t)

/-- The completion timeout a function selects in Device Control 2, in 2^-16 ns (R458). -/
def cplLimit (code : Nat) : Nat :=
  65536000 * (match code with
    | 1 => 80 | 2 => 8000 | 5 => 40000 | 6 => 160000 | 9 => 800000 | 10 => 3000000 | _ => 32000)

/-- Issue a read of a host for a function, where the limits let it go: at most MRRS, and within 4 KiB. -/
def Dev.hostRead (d : Dev) (fn use arg addr len : Nat) : Dev :=
  let l := fn / 16
  let h := d.link l
  let len := min (min len (d.mrrs fn)) (4096 - addr % 4096)
  if !d.mayIssue fn || decide (min 1024 h.freeTags ≤ h.reqs.length) then d
  else match h.pickTag with
    | none => d
    | some t =>
      let per := cplLimit (d.fn fn).cplTo
      let d := d.setLink l { h with reqs := h.reqs ++ [⟨t, fn, use, arg, len, 0, per, d.nowL + per⟩], nextTag := (t + 1) % 16384 }
      ((d.translated fn addr).emit (.hostRead fn t addr len (d.marks fn))).showTags l

/-- A request for a use and argument is outstanding on some link. -/
def Dev.asked (d : Dev) (use arg : Nat) : Bool :=
  (List.range 4).any (fun l => (d.link l).reqs.any (fun r => r.use == use && r.arg == arg))

/-! ## Descriptors (R425, R426) -/

/-- The enabled Ethernet port whose TX_Q an intake queue is (R425). -/
def Dev.txPort (d : Dev) (q : Nat) : Option Nat :=
  (List.range 2).find? (fun n => d.enabled 0x16 n && d.rd Eth.ETH_CFG_TX_Q n == q)

def IDesc.kind (x : IDesc) : Nat := byteAt x.raw 0
def IDesc.len (x : IDesc) : Nat := le x.raw 4 4
def IDesc.addr (x : IDesc) : Nat := le x.raw 8 8

/-- The status a descriptor is refused with as it stands; 0 where its buffer is read. -/
def Dev.descStatus (d : Dev) (q : Nat) (x : IDesc) : Nat :=
  if x.fail ≠ 0 then x.fail
  else
    let fl := byteAt x.raw 1
    match d.txPort q with
    | some n =>
      if x.kind ≠ 0x31 ∨ fl % 2 = 0 then 0x20
      else if 16 ≤ fl ∨ bits fl 1 2 = 3 ∨ le x.raw 16 16 ≠ 0 then 0x22
      else if x.len < 14 ∨ d.rd Eth.MAX_FRAME n < x.len + 4 then 2
      else 0
    | none =>
      if x.kind < 0x50 ∨ 0x54 < x.kind ∨ fl % 2 = 0 then 0x20
      else if fl ≠ 1 ∨ le x.raw 2 2 ≠ 0 ∨ x.addr % 64 ≠ 0 ∨ le x.raw 16 16 ≠ 0 then 0x22
      else if x.len < 16 ∨ 268435456 < x.len then 0x24
      else 0

/-- The Delivery Engine reads a queue (R424, R457). -/
def Dev.iqRuns (d : Dev) (q : Nat) : Bool :=
  let k := 320 + q
  d.deRuns && d.qrd k Dq.RING_CFG_Q_EN == 1 && d.mayIssue (d.qFn k)

/-- The argument of a buffer read: queue and pointer value of its descriptor. -/
def loadArg (q ptr : Nat) : Nat := q * 2 ^ 32 + ptr % 2 ^ 32

/-- Reads for one descriptor of a queue: its buffer, a request at a time. -/
def Dev.iqAsk (d : Dev) (q ptr : Nat) (x : IDesc) : Dev :=
  let arg := loadArg q ptr
  if !x.taken || d.descStatus q x != 0 || decide (x.len ≤ x.fetched) || d.asked 1 arg then d
  else d.hostRead (d.qFn (320 + q)) 1 arg (x.addr + x.fetched) (min 4096 (x.len - x.fetched))

/-- What a queue has to read: descriptors not yet taken up, and the buffers of those that are (R424, R428). -/
def Dev.iqFetch (d : Dev) (q : Nat) : Dev :=
  if !d.iqRuns q then d
  else
    let k := 320 + q
    let h := d.queue k
    let left := ((d.iqh q).descs.filter (fun x => !x.taken)).length
    let d := d.when (left != 0 && !d.asked 0 q) (fun d =>
      d.hostRead (d.qFn k) 0 q (d.slotAddr k h.rd) (32 * min (min left 128) (d.qSize k - h.rd % d.qSize k)))
    ((d.iqh q).descs.zipIdx).foldl (fun d e => d.iqAsk q (h.rel + e.2) e.1) d

/-- Issue a write-back of the oldest descriptor, which releases it (R424). -/
def Dev.iqPut (d : Dev) (q status : Nat) (wb : List Nat) : Dev :=
  let k := 320 + q
  let h := d.queue k
  let a := d.slotAddr k h.rel
  let d := d.hostWrite (d.qFn k) (a + 8) (wb.drop 8) false
  let d := d.hostWrite (d.qFn k) a (wb.take 8) false
  let d := d.lastStatus k status (h.rel % d.qSize k)
  let d := d.setIqh q { d.iqh q with descs := (d.iqh q).descs.drop 1 }
  ((d.setQueue k { h with rel := (h.rel + 1) % 2 ^ 32 }).qSettle k).mirrorDue k

/-- The write-back of R426. -/
def loadBack (x : IDesc) (status now : Nat) : List Nat :=
  [x.kind, 1, status, 0] ++ leBytes 4 x.consumed ++ leBytes 4 x.accepted ++ zeros 4 ++ leBytes 16 now

/-- The write-back of a transmit descriptor (R251). -/
def txBack (status len : Nat) (time : Option Nat) : List Nat :=
  [0x31, 1 + 2 * b2n time.isSome, status, 0] ++ leBytes 4 len ++ zeros 8 ++ leBytes 16 (time.getD 0)

/-- Write back the oldest load or transmit descriptor with a status. -/
def Dev.iqBack (d : Dev) (q : Nat) (x : IDesc) (status : Nat) : Dev :=
  d.iqPut q status (if x.kind = 0x31 ∧ status < 0x20 then txBack status 0 none else loadBack x status d.now)

/-- Oldest descriptors that are refused as they stand are written back at once (R426, R428). -/
def iqHeadN : Nat → Dev → Nat → Dev
  | 0, d, _ => d
  | n + 1, d, q =>
    match (d.iqh q).descs with
    | x :: _ => if x.taken && d.iqRuns q && d.descStatus q x != 0 then iqHeadN n (d.iqBack q x (d.descStatus q x)) q else d
    | [] => d

/-- Go on with a queue: refused descriptors leave, further reads are issued. -/
def Dev.iqGo (d : Dev) (q : Nat) : Dev := (iqHeadN (d.iqh q).descs.length d q).iqFetch q

/-- Every queue, after limits or enables changed. -/
def Dev.iqGoAll (d : Dev) : Dev := (d.iq.map (fun e => e.1)).foldl (fun d q => d.iqGo q) d

/-- INTAKE_PTR_POST (R424): descs is what stands in the slots it hands over. -/
def Dev.intakePost (d : Dev) (q val : Nat) (descs : List (List Nat)) : Dev :=
  let k := 320 + q
  let h := d.queue k
  if pdiff val h.rel < pdiff h.wr h.rel ∨ d.qSize k < pdiff val h.rel then d.badAccess 0x1B (32 + q / 8)
  else
    let c := d.qCtx k
    let n := pdiff val h.wr
    let new := (List.range n).map (fun i =>
      ({ raw := (descs.getD i []).take 32, taken := false, fetched := 0, accepted := 0, consumed := 0, fail := 0 } : IDesc))
    let d := c.1.setIqh q { c.1.iqh q with descs := (c.1.iqh q).descs ++ new }
    (((d.setQueue k { h with wr := val % 2 ^ 32 }).qSettle k).iqGo q)

def execIntakePtrPost (req : Req) (queue : Fin 64) (val : Word) (descs : List (List Nat)) (s : State) :
    Host.Outcome State Fault Refusal :=
  s.upd (fun d => d.busQ req.num (320 + queue) (fun d => d.intakePost queue val.toNat descs))

/-! ## What comes back (R428, R459, R461). Use 0 reads descriptors, 1 a buffer, 9 belongs to a flushed queue (R424) -/

/-- Change one descriptor of a queue by its pointer value. -/
def Dev.modDesc (d : Dev) (q ptr : Nat) (f : IDesc → IDesc) : Dev :=
  let i := pdiff ptr (d.queue (320 + q)).rel
  let h := d.iqh q
  d.setIqh q { h with descs := (h.descs.zipIdx).map (fun e => if e.2 = i then f e.1 else e.1) }

/-- Descriptors read: they are taken up. -/
def takeUp : Nat → List IDesc → List IDesc
  | _, [] => []
  | 0, xs => xs
  | n + 1, x :: xs => if x.taken then x :: takeUp (n + 1) xs else { x with taken := true } :: takeUp n xs

/-- A request is wholly completed. -/
def Dev.readDone (d : Dev) (r : HostReq) : Dev :=
  if r.use = 0 then
    let q := r.arg
    let k := 320 + q
    let h := d.iqh q
    let n := min (r.len / 32) (h.descs.filter (fun x => !x.taken)).length
    let d := d.setIqh q { h with descs := takeUp n h.descs }
    (d.setQueue k { d.queue k with rd := ((d.queue k).rd + n) % 2 ^ 32 }).iqGo q
  else if r.use = 9 then d
  else
    let q := r.arg / 2 ^ 32
    (d.modDesc q r.arg (fun x => { x with fetched := x.fetched + r.len })).iqGo q

/-- A request fails: RD_ERR for a descriptor, READ_ERR for a buffer, STATUS 4 for a frame. -/
def Dev.readFail (d : Dev) (r : HostReq) : Dev :=
  if r.use = 0 then (d.qOff (320 + r.arg)).evt 0x1B (32 + r.arg / 8) Dq.E_RD_ERR
  else if r.use = 9 then d
  else
    let q := r.arg / 2 ^ 32
    (d.modDesc q r.arg (fun x => { x with fail := if x.kind = 0x31 then 4 else 0x21 })).iqGo q

end Sys2Proof.Machine
end

