-- ==== Sys2Proof/Machine/Ingest.lean ====
section
/-!
DEFINITION. Port ingest (R153–R160, R173–R175): LINE and FRAME packets become items of the port's line FIFO.
The log's entries 3 and 28 of notes/assumptions name what is DEDUCED or a DESIGN CHOICE here, and marks each.
-/

namespace Sys2Proof.Machine

/-- Units of a LINE item (R155). -/
def lineUnits (bytes : Nat) : Nat := cdiv (bytes + 48) 256

/-- The VID_LIMIT of R160. -/
def Dev.vidLimit (d : Dev) (p : Nat) : Nat :=
  (d.rd Ingest.RX_UNITS p + d.qSize p + 2 ^ 33 - (d.queue p).used - (d.queue p).resv) % 2 ^ 32

/-- Show ASSEMBLING and SWALLOWING (R174). -/
def Dev.showIng (d : Dev) (p : Nat) : Dev :=
  (d.wrb Ingest.STAT_ASSEMBLING p (d.ing p).line.isSome).wrb Ingest.STAT_SWALLOWING p (d.ing p).swallow.isSome

/-- The header of a line item (R153), from a LINE packet. -/
def lineHdr (bs : List Nat) (suspect : Bool) : List Nat :=
  let lf := byteAt bs 22
  [1, 1 + bitOf lf 2 * 2 + bitOf lf 4 * 4 + bitOf lf 3 * 8 + b2n suspect * 16] ++ leBytes 2 (le bs 20 2) ++
    leBytes 4 (le bs 16 4) ++ leBytes 4 (le bs 8 4) ++ leBytes 2 (le bs 44 2) ++
    leBytes 2 (if lf.testBit 4 then le bs 46 2 else 0) ++ leBytes 16 (le bs 24 16)

/-- A trailer (R154). -/
def itemTrl (tstat drop lost miss dur seq : Nat) : List Nat :=
  [tstat, drop] ++ leBytes 2 lost ++ leBytes 4 miss ++ leBytes 4 dur ++ leBytes 2 seq ++ [0, 0]

/-- Put the open line into the queue as far as it is written: WR_PT covers the units begun (R160, R163). -/
def Dev.ingShow (d : Dev) (p : Nat) (o : OpenLine) : Dev :=
  let q := d.queue p
  let it : QItem := ⟨o.start, lineUnits o.bytes, o.hdr, o.pay, [], false⟩
  (d.setQueue p { q with
    wr := (o.start + cdiv (32 + o.pay.length) 256) % 2 ^ 32
    items := q.items.filter (fun x => x.start != o.start) ++ [it] }).qSettle p

/-- Close the open line (R156): incomplete where a byte is missing, with the rest written as 0. -/
def Dev.ingClose (d : Dev) (p : Nat) (timeout : Bool) : Dev :=
  let g := d.ing p
  match g.line with
  | none => d
  | some o =>
    let rest := o.bytes - o.pay.length
    let miss := o.miss + rest
    let inc := miss != 0
    let trl := itemTrl (b2n inc + 2 * b2n timeout) o.drop o.lost miss o.expDur g.itemSeq
    let it : QItem := ⟨o.start, lineUnits o.bytes, o.hdr, o.pay ++ zeros rest, trl, true⟩
    let d := d.setIng p { g with line := none, itemSeq := (g.itemSeq + 1) % 2 ^ 16 }
    let q := d.queue p
    let d := (d.setQueue p { q with
      wr := (o.start + lineUnits o.bytes) % 2 ^ 32
      items := q.items.filter (fun x => x.start != o.start) ++ [it] }).qSettle p
    let d := d.addWrap Ingest.LINES_IN p 1
    let d := d.when inc (fun d => (d.incSat Ingest.PI_CNT_A_INCOMPLETE_CNT p).evt 0x0B p Ingest.E_INCOMPLETE)
    let d := d.when timeout (fun d => (d.incSat Ingest.PI_CNT_B_TIMEOUT_CNT p).evt 0x0B p Ingest.E_LINE_TIMEOUT)
    d.showIng p

/-- Open an item for the first fragment of a new LINE_NUM (R156, R157). A line that would not fit in the free units is
lost: its LINE_NUM is not taken over, so it counts in the next LOST_LINES (R162). -/
def Dev.ingOpen (d : Dev) (p : Nat) (bs : List Nat) (suspect : Bool) : Dev :=
  let num := le bs 8 4
  let g := d.ing p
  if d.qFree p < lineUnits (le bs 16 4) then d
  else
    let lost := match g.prev with
      | some n => min 65535 ((num + 2 ^ 33 - n - 1) % 2 ^ 32)
      | none => 0
    let d := d.setIng p { g with
      prev := some num
      line := some ⟨(d.queue p).wr, num, le bs 16 4, le bs 20 2, byteAt bs 22 &&& 0x1C, lineHdr bs suspect, [], 0,
        byteAt bs 23, le bs 40 4, lost⟩ }
    d.when (lost != 0) (fun d =>
      (d.addSat Ingest.PI_CNT_A_LOST_LINES_CNT p lost).evt 0x0B p Ingest.E_LOST_LINES)

/-- Drop a fragment (R158). -/
def Dev.ingSeqErr (d : Dev) (p : Nat) : Dev :=
  (d.incSat Ingest.PI_CNT_B_SEQ_ERR_CNT p).evt 0x0B p Ingest.E_SEQ_ERR

/-- Write a fragment's payload into the open line, or drop it (R156, R158). A line with missing bytes stays open. -/
def Dev.ingWrite (d : Dev) (p : Nat) (bs : List Nat) : Dev :=
  match (d.ing p).line with
  | none => d
  | some o =>
    let off := le bs 12 4
    let pay := (bs.drop 48).take (bs.length - 52)
    if off < o.pay.length ∨ le bs 16 4 ≠ o.bytes ∨ le bs 20 2 ≠ o.fmt ∨ byteAt bs 22 &&& 0x1C ≠ o.lflags ∨
        o.bytes < off + pay.length then d.ingSeqErr p
    else
      let gap := off - o.pay.length
      let o' : OpenLine := { o with pay := o.pay ++ zeros gap ++ pay, miss := o.miss + gap }
      let d := (d.setIng p { d.ing p with line := some o' }).ingShow p o'
      if o'.pay.length = o'.bytes ∧ o'.miss = 0 then d.ingClose p false else d

/-- A LINE packet that passed the port's checks (R156–R158, R160, R167). -/
def Dev.ingLine (d : Dev) (p : Nat) (bs : List Nat) (suspect : Bool) : Dev :=
  let num := le bs 8 4
  if !d.enabled 0x0B p then d
  else
    let g := d.ing p
    let d := match g.swallow with
      | some n => if n = num then d else d.setIng p { g with swallow := none }
      | none => d
    if (d.ing p).swallow.isSome then
      d.when ((byteAt bs 22).testBit 1) (fun d => (d.setIng p { d.ing p with swallow := none }).showIng p)
    else
      let d := match (d.ing p).line with
        | some o => if o.num = num then d else d.ingClose p false
        | none => d
      let d := if (d.ing p).line.isNone && (d.ing p).prev != some num then d.ingOpen p bs suspect else d
      (d.ingWrite p bs).showIng p

/-- A FRAME packet: it closes the line in assembly and makes one frame item (R153, R154, R156). A KIND the spec reserves
makes none. -/
def Dev.ingFrame (d : Dev) (p : Nat) (bs : List Nat) (suspect : Bool) : Dev :=
  if !d.enabled 0x0B p then d
  else
    let d := (d.ingClose p false)
    let d := (d.setIng p { d.ing p with swallow := none }).showIng p
    let kind := byteAt bs 8
    if (kind = 1 ∨ kind = 2) ∧ 1 ≤ d.qFree p then
      let g := d.ing p
      let hdr := [1 + kind, 1 + 16 * b2n suspect, 0, 0] ++ zeros 4 ++ leBytes 4 (le bs 12 4) ++
        leBytes 2 (le bs 34 2) ++ leBytes 2 (le bs 32 2) ++ leBytes 16 (le bs 16 16)
      let trl := itemTrl (if kind = 2 then 4 * bitOf (byteAt bs 9) 0 else 0) 0 0 0 0 g.itemSeq
      (d.setIng p { g with itemSeq := (g.itemSeq + 1) % 2 ^ 16 }).qPut p 1 hdr [] trl
    else d

/-- Port ingest when its port goes down: the open line closes incomplete and swallowing ends (R156, R167). -/
def Dev.ingDown (d : Dev) (p : Nat) : Dev :=
  let d := d.ingClose p false
  (d.setIng p { d.ing p with swallow := none }).showIng p

/-- Port ingest when its port comes up: the consumed count and VID_LIMIT start at 0, no previous line (R128, R157). -/
def Dev.ingUp (d : Dev) (p : Nat) : Dev :=
  ((d.setIng p { d.ing p with prev := none }).wr Ingest.RX_UNITS p 0).wr Ingest.VID_LIMIT p 0

/-- The START block of a LINE or FRAME packet charges and reserves its units (R129, R160). -/
def Dev.ingCharge (d : Dev) (p len : Nat) : Dev :=
  let d := d.setQueue p { d.queue p with resv := (d.queue p).resv + cdiv len 256 }
  (d.addWrap Ingest.RX_UNITS p (cdiv len 256)).qSettle p

/-- The reservation of a packet is returned at its end, or where it is dropped (R160). -/
def Dev.ingReturn (d : Dev) (p len : Nat) : Dev :=
  (d.setQueue p { d.queue p with resv := (d.queue p).resv - cdiv len 256 }).qSettle p

/-- Port ingest disabled: the open line closes incomplete (R156). -/
def Dev.ingDisable (d : Dev) (p : Nat) : Dev := d.ingDown p

/-- Port ingest enabled: ITEM_SEQ starts at 0 (R154). -/
def Dev.ingEnable (d : Dev) (p : Nat) : Dev := d.setIng p { d.ing p with itemSeq := 0 }

/-- LINE_TIMEOUT passes after the item opened (R156), or ends swallowing (R167). -/
def execLineTimeout (port : Fin 16) (s : State) : Host.Outcome State Fault Refusal :=
  s.upd (fun d =>
    let d := d.ingClose port true
    (d.setIng port { d.ing port with swallow := none }).showIng port)

end Sys2Proof.Machine
end

