-- ==== Sys2Proof/Machine/Inject.lean ====
section
/-!
DEFINITION. The injectors of the test page (R511–R513). Unit p is Flegar port p, unit 16 + n is Ethernet port n: their
register blocks follow one another (R519, R520).
-/

namespace Sys2Proof.Machine

def Dev.loop (d : Dev) (u : Nat) : LoopH := mget d.loops u default
def Dev.setLoop (d : Dev) (u : Nat) (x : LoopH) : Dev := { d with loops := mset d.loops u x default }

/-- Invert one bit of a packet, in transmit order (R512). -/
def flipBit (bs : List Nat) (n : Nat) : List Nat :=
  let k := n % (8 * bs.length)
  patch bs (k / 8) [byteAt bs (k / 8) ^^^ 2 ^ (k % 8)]

/-- Show HELD (R520). -/
def Dev.showHeld (d : Dev) (u : Nat) : Dev := d.wrb LbF.INJ_STAT_HELD 0 (d.loop u).held.isSome u

/-- A packet that passes counts down the held one; what leaves, in order. -/
def Dev.injPass (d : Dev) (u dir : Nat) (bs : List Nat) : Dev × List (List Nat) :=
  let h := d.loop u
  match h.held with
  | some x =>
    if h.heldDir ≠ dir then (d, [bs])
    else if h.passLeft ≤ 1 then ((d.setLoop u { h with held := none, passLeft := 0 }).showHeld u, [bs, x])
    else (d.setLoop u { h with passLeft := h.passLeft - 1 }, [bs])
  | none => (d, [bs])

/-- A packet passes the injection point of direction dir: what comes out behind it (R511–R513). -/
def Dev.inject (d : Dev) (u dir typ : Nat) (bs : List Nat) : Dev × List (List Nat) :=
  if !(d.is LbF.INJ_CFG_INJ_EN 0 u && d.rd LbF.INJ_CFG_DIR 0 u == dir) then d.injPass u dir bs
  else
    let sel := d.rd LbF.INJ_TYPE_TYPE_SEL 0 u
    if sel ≠ 0 ∧ sel ≠ typ then d.injPass u dir bs
    else
      let h := d.loop u
      let drawn := prbsStep h.draw
      let byDraw := d.is LbF.INJ_CFG_SELECT 0 u
      let h := if byDraw then { h with draw := drawn } else { h with isMatch := h.isMatch + 1 }
      let hit := if byDraw then drawn % 2 ^ d.rd LbF.INJ_CFG_K 0 u == 0
        else h.isMatch % d.rd LbF.INJ_CFG_N 0 u == 0
      let d := d.setLoop u h
      if !hit || h.held.isSome then d.injPass u dir bs
      else
        let d := d.incSat LbF.INJ_STAT_INJ_CNT 0 u
        match d.rd LbF.INJ_CFG_ACTION 0 u with
        | 1 => (d, [])
        | 2 =>
          if d.is LbF.INJ_CFG_RAND_BIT 0 u then
            let n := prbsStep h.draw
            (d.setLoop u { h with draw := n }).injPass u dir (flipBit bs n)
          else d.injPass u dir (flipBit bs (d.rd LbF.INJ_CFG2_BIT_POS 0 u))
        | 3 =>
          ((d.setLoop u { h with held := some bs, heldDir := dir, passLeft := d.rd LbF.INJ_CFG_HOLD 0 u }).showHeld u, [])
        | _ => d.injPass u dir bs

/-- Take the held packet out, with its direction (R513). -/
def Dev.injRelease (d : Dev) (u : Nat) : Dev × Option (Nat × List Nat) :=
  let h := d.loop u
  match h.held with
  | some x => ((d.setLoop u { h with held := none, passLeft := 0 }).showHeld u, some (h.heldDir, x))
  | none => (d, none)

end Sys2Proof.Machine
end

