-- ==== Sys2Proof/Machine/Modules.lean ====
section
/-!
DEFINITION. The Module Directory (R535, R536): what is attached, from the identity records.
The log's entry 32 of notes/assumptions names what is DEDUCED or a DESIGN CHOICE here, and marks each.
-/

namespace Sys2Proof.Machine

/-- Word w of entry i. -/
def Dev.mdWord (d : Dev) (i w : Nat) : Nat := d.rd Md.ENTRY 0 (32 * i + w)

/-- Rewrite words 0 to 24 of an entry from a list of bytes and MD_STAT. -/
def Dev.mdSet (d : Dev) (i stat : Nat) (body : List Nat) : Dev :=
  (List.range 24).foldl (fun d w => d.wr Md.ENTRY 0 (le body (4 * w) 4) (32 * i + w + 1)) (d.wr Md.ENTRY 0 stat (32 * i))

/-- The identity bytes of an entry: MODEL and SERIAL. -/
def Dev.mdIdent (d : Dev) (i : Nat) : List Nat := (List.range 12).map (fun w => d.mdWord i (w + 2))

/-- Post a record to entry i: KIND, whether it is valid, MISMATCH, and the bytes from VENDOR on (R535, R536). -/
def Dev.mdPost (d : Dev) (i kind : Nat) (valid mismatch : Bool) (body : List Nat) : Dev :=
  let old := d.mdWord i 0
  let ident := d.mdIdent i
  let stat := bitOf old 31 * 2 ^ 31 + b2n valid * 2 ^ 30 + b2n (!valid) * 2 ^ 29 + b2n mismatch * 2 ^ 28 +
    kind * 2 ^ 16 + (old + 1) % 2 ^ 16
  let d := d.mdSet i stat body
  if bits old 29 2 = bits stat 29 2 ∧ d.mdIdent i = ident then d else d.evt 3 0 i

/-- PRESENT of entry i; the identity fields keep the last record read (R536). -/
def Dev.mdPresent (d : Dev) (i : Nat) (p : Bool) : Dev :=
  let old := d.mdWord i 0
  if old.testBit 31 = p then d
  else (d.wr Md.ENTRY 0 (b2n p * 2 ^ 31 + old % 2 ^ 31) (32 * i)).evt 3 0 i

/-- The body of a camera entry. -/
def mdCamera (bs : List Nat) : List Nat :=
  sl bs 12 3 ++ [0] ++ sl bs 16 48 ++ sl bs 64 4 ++ zeros 8 ++ sl bs 68 4 ++ sl bs 72 4 ++ sl bs 84 4 ++ sl bs 92 4 ++
    sl bs 80 4 ++ sl bs 104 4 ++ sl bs 96 4 ++ sl bs 100 1 ++ zeros 3

end Sys2Proof.Machine
end

