-- ==== Sys2Proof/Machine/Position.lean ====
section
/-!
DEFINITION. The Position Unit: quadrature and serial channels, soft limits, speed, history ring, suspect positions,
adapter identity (R176–R200, R206, R207, R561). A position word is a signed number of 1/256 counts (R13); times inside
are device times in 2^-16 ns.
The log's entries 31 and 32 of notes/assumptions name what is DEDUCED or a DESIGN CHOICE here, and marks each.
-/

namespace Sys2Proof.Machine

/-- The sample a filtered edge is stamped by, 6.25 ns before (R179). -/
abbrev edgeDelay : Nat := 409600

/-- A cycle of the timebase, 1.28 ns, in 2^-16 ns (R241). -/
abbrev cycleL : Nat := 83886

/-- The moment of a sample that came early in the present cycle of the timebase (R243). -/
def Dev.momentL (d : Dev) (early : Nat) : Nat := d.nowL - early % cycleL

/-- Largest stored speed, in 2^-16 counts/s (R194). -/
abbrev spdMax : Nat := 2 ^ 47 - 1

/-- n counts over a time, in 2^-16 counts/s, truncated and saturated (R194). -/
def spdOf (n dt : Nat) : Nat := if dt = 0 then spdMax else min spdMax (n * 1000000000 * 2 ^ 32 / dt)

def Dev.quadMode (d : Dev) (k : Nat) : Bool := d.rd Pos.ENC_CFG_MODE k == 1
def Dev.serMode (d : Dev) (k : Nat) : Bool := decide (2 ≤ d.rd Pos.ENC_CFG_MODE k)

/-- Speed at a time: between quadrature edges the magnitude decays, and it is 0 while STOPPED (R194). -/
def Dev.speedAt (d : Dev) (k t : Nat) : Int :=
  let h := d.chan k
  if h.stuck || d.serMode k then h.spd
  else if d.is Pos.STAT_STOPPED k then 0
  else if !d.enabled 0x10 k then h.spd
  else
    let mag := min h.spd.natAbs (spdOf 1 (t - h.tEdge))
    if h.spd < 0 then -(mag : Int) else mag

def Dev.speed (d : Dev) (k : Nat) : Int := d.speedAt k d.nowL

/-- The extrapolated word of a serial channel (R188). -/
def Dev.serExtAt (d : Dev) (k t : Nat) : Int :=
  let h := d.chan k
  match h.readings with
  | [] => 256 * h.cnt
  | r :: _ =>
    let dt : Int := min ((t : Int) - r.t) (d.rd Pos.SER_TIMING_SER_PERIOD k * 100 * nsL : Nat)
    256 * h.cnt + (h.spd * 256 * dt) / (2 ^ 32 * 1000000000)

/-- Whether a held word has been reached by the extrapolation (R188). -/
def Dev.serReachedAt (d : Dev) (k t : Nat) : Bool :=
  let h := d.chan k
  match h.hold with
  | some w => if h.spd < 0 then decide (d.serExtAt k t ≤ w) else decide (w ≤ d.serExtAt k t)
  | none => true

def Dev.serReached (d : Dev) (k : Nat) : Bool := d.serReachedAt k d.nowL

/-- The fraction between quadrature edges (R189). -/
def Dev.posFracAt (d : Dev) (k t : Nat) : Nat :=
  min 255 (256 * (d.speedAt k t).natAbs * (t - (d.chan k).tEdge) / (2 ^ 32 * 1000000000))

/-- The position word at a time since the latest update of the channel (R188, R189). -/
def Dev.posWordAt (d : Dev) (k t : Nat) : Int :=
  let h := d.chan k
  if h.stuck || !d.enabled 0x10 k then h.word
  else if d.quadMode k then
    if h.atLimit then 256 * h.cnt
    else if d.is Pos.STAT_STOPPED k then h.word
    else 256 * h.cnt + h.sgn * d.posFracAt k t
  else if d.serMode k then
    match h.hold with
    | some w => if d.serReachedAt k t then d.serExtAt k t else w
    | none => d.serExtAt k t
  else 256 * h.cnt

/-- The present position word. -/
def Dev.posWord (d : Dev) (k : Nat) : Int := d.posWordAt k d.nowL

/-- The 2.5 ns sample the device time lies in (R212). -/
abbrev sampleL : Nat := 163840

def Dev.sample (d : Dev) : Nat := d.nowL / sampleL

/-- Keep the word as it stood before the channel updates of this sample. -/
def Dev.keepWord (d : Dev) (k : Nat) : Dev :=
  let h := d.chan k
  if h.wSample = some d.sample then d else d.setChan k { h with wPrev := d.posWord k, wSample := some d.sample }

/-- The word as it stood at the end of the sample before this one (R217). -/
def Dev.wordBefore (d : Dev) (k : Nat) : Int :=
  let h := d.chan k
  if h.wSample = some d.sample then h.wPrev else d.posWordAt k (d.nowL - sampleL)

/-- EPOCH and POS_SUSPECT of a channel, as R420's POS_INFO places them beside the channel number. -/
def Dev.posSuspect (d : Dev) (k : Nat) : Bool := d.is Pos.STAT_POS_SUSPECT k
def Dev.posEpoch (d : Dev) (k : Nat) : Nat := d.rd Pos.STAT_EPOCH k

/-- POS_SUSPECT sets; the sample of its cause is known (R193, R199). -/
def Dev.setSuspect (d : Dev) (k : Nat) : Dev :=
  (d.setChan k { d.chan k with suspSample := some d.sample }).wr Pos.STAT_POS_SUSPECT k 1

/-! ## Soft limits (R190, R191) -/

/-- The limits in effect, in counts. -/
def Dev.limits (d : Dev) (k : Nat) : Int × Int :=
  if d.is Pos.ENC_CFG_LIMIT_EN k then (d.rdI Pos.LIMIT_LO k / 256, d.rdI Pos.LIMIT_HI k / 256)
  else (-(2 ^ 55 : Nat), (2 ^ 55 - 1 : Nat))

/-- LIMIT_EXCESS takes an addition, known by its sample (R190, R193). -/
def Dev.addExcess (d : Dev) (k : Nat) (x : Int) : Dev :=
  let h := d.chan k
  let add := if h.exSample = some d.sample then h.exAdd + x else x
  (d.setChan k { h with exSample := some d.sample, exAdd := add }).wrI Pos.LIMIT_EXCESS k (d.rdI Pos.LIMIT_EXCESS k + x)

/-- The count takes a value, held at the limits with the part lost added to LIMIT_EXCESS. -/
def Dev.setCount (d : Dev) (k : Nat) (c : Int) : Dev :=
  let (lo, hi) := d.limits k
  let h := d.chan k
  if hi < c then
    let was := d.is Pos.STAT_AT_LIMIT_HI k
    let d := d.setChan k { h with cnt := hi, atLimit := true }
    let d := d.addExcess k (256 * (c - hi))
    let d := (d.wr Pos.STAT_AT_LIMIT_HI k 1).wr Pos.STAT_AT_LIMIT_LO k 0
    d.when (!was) (fun d => d.evt 0x10 k Pos.E_LIMIT_HI)
  else if c < lo then
    let was := d.is Pos.STAT_AT_LIMIT_LO k
    let d := d.setChan k { h with cnt := lo, atLimit := true }
    let d := d.addExcess k (256 * (c - lo))
    let d := (d.wr Pos.STAT_AT_LIMIT_LO k 1).wr Pos.STAT_AT_LIMIT_HI k 0
    d.when (!was) (fun d => d.evt 0x10 k Pos.E_LIMIT_LO)
  else
    let d := d.setChan k { h with cnt := c, atLimit := false }
    (d.wr Pos.STAT_AT_LIMIT_HI k 0).wr Pos.STAT_AT_LIMIT_LO k 0

/-- The direction of the latest count change (R209). -/
def Dev.showDir (d : Dev) (k : Nat) (old : Int) : Dev :=
  let new := (d.chan k).cnt
  if new = old then d
  else (d.setChan k { d.chan k with moved := true }).wrb Pos.STAT_DIR_NEG k (decide (new < old))

/-! ## Quadrature (R179–R182, R194) -/

/-- The step a change of the filtered (A, B) makes: forward is 00, 10, 11, 01 (R180). -/
def quadStep (a b a' b' : Nat) : Int :=
  if a ≠ a' then (if (a' = 1 ∧ b = 0) ∨ (a' = 0 ∧ b = 1) then 1 else -1)
  else if (b' = 1 ∧ a = 1) ∨ (b' = 0 ∧ a = 0) then 1 else -1

/-- Speed at a quadrature edge (R194). -/
def Dev.quadSpeed (d : Dev) (k : Nat) (s : Int) (t : Nat) : Dev :=
  let h := d.chan k
  let m := if h.edges.isEmpty then 0 else if h.sgn = s then h.m + 1 else 1
  let n := min (2 ^ d.rd Pos.ENC_CFG_SPD_AVG_LOG2 k) m
  let spd : Int := if n = 0 then 0 else s * spdOf n (t - h.edges.getD (n - 1) t)
  d.setChan k { h with m := m, spd := spd, sgn := s, tEdge := t, edges := (t :: h.edges).take 129 }

/-- One counted edge, stamped t (R180, R189, R190, R194). -/
def Dev.countEdge (d : Dev) (k : Nat) (s : Int) (t : Nat) : Dev :=
  let d := (d.quadSpeed k s t).wr Pos.STAT_STOPPED k 0
  let old := (d.chan k).cnt
  (d.setCount k (old + s)).showDir k old

/-- Show the filtered levels (R209). -/
def Dev.setLevels (d : Dev) (k a b : Nat) : Dev :=
  let d := d.setChan k { d.chan k with fA := a, fB := b }
  (d.wr Pos.STAT_LEVEL_A k a).wr Pos.STAT_LEVEL_B k b

/-- The filtered levels of A and B as they come, held while WIRE is live; illegal transitions beyond QERR_LIMIT in a window
fault (R178–R182). The sample came so long before the present cycle. -/
def Dev.quadEdge (d : Dev) (k a b early : Nat) : Dev :=
  let d := d.keepWord k
  let d := d.setChan k { d.chan k with rawA := a % 2, rawB := b % 2 }
  let h := d.chan k
  let a' := if d.is Pos.STAT_WIRE_A k then h.fA else a % 2
  let b' := if d.is Pos.STAT_WIRE_B k then h.fB else b % 2
  if a' = h.fA ∧ b' = h.fB then d
  else
    let d := d.setLevels k a' b'
    if !d.enabled 0x10 k || !d.quadMode k || h.stuck then d
    else
      let t := d.momentL early - edgeDelay
      let fast := match h.lastFilt with
        | some x => decide (t < x + 20 * nsL)
        | none => false
      let d := d.setChan k { d.chan k with lastFilt := some t }
      if a' ≠ h.fA ∧ b' ≠ h.fB then
        let d := d.setChan k { d.chan k with qwin := h.qwin + 1 }
        let d := (d.incSat Pos.CNT_A_ILLEGAL_CNT k).evt 0x10 k Pos.E_QERR
        d.when (decide (d.rd Pos.ENC_CFG_QERR_LIMIT k < h.qwin + 1)) (fun d =>
          (d.setSuspect k).flt 0x10 k Pos.F_QERR_FAULT)
      else
        let d := d.when fast (fun d => (d.incSat Pos.CNT_B_OVERSPEED_CNT k).evt 0x10 k Pos.E_OVERSPEED)
        let s := quadStep h.fA h.fB a' b'
        d.countEdge k (if d.is Pos.ENC_CFG_DIR_INV k then -s else s) t

/-- The illegal-transition window ends, and the next one starts (R182). -/
def execQerrWindow (ch : Fin 8) (s : State) : Host.Outcome State Fault Refusal :=
  s.updOn 2 (fun d =>
    if !d.enabled 0x10 ch || !d.quadMode ch then d else d.setChan ch { d.chan ch with qwin := 0 })

/-- Whether an edge or a reading has come since the channel started or stopped. -/
def Dev.hasMoved (d : Dev) (k : Nat) : Bool :=
  if d.quadMode k then !(d.chan k).edges.isEmpty else d.serMode k && (d.chan k).nRead != 0

/-- STOP_TIME has passed since the latest edge or change of the count (R189, R194). A serial channel's speed stays that of its
readings. -/
def execStopped (ch : Fin 8) (s : State) : Host.Outcome State Fault Refusal :=
  s.updOn 2 (fun d =>
    let h := d.chan ch
    if !d.enabled 0x10 ch || d.is Pos.STAT_STOPPED ch || h.stuck || !d.hasMoved ch ||
        decide (d.nowL < h.tEdge + d.rd Pos.STOP_TIME ch * 1000 * nsL) then d
    else
      let w := d.posWord ch
      let d := d.setChan ch { h with word := w, m := 0, edges := [], spd := if d.quadMode ch then 0 else h.spd }
      (d.wr Pos.STAT_STOPPED ch 1).evt 0x10 ch Pos.E_STOPPED)

/-! ## Index (R183) -/

/-- Filtered Z takes a level, held while WIRE is live (R178, R179). -/
def Dev.zLevel (d : Dev) (k z : Nat) : Dev :=
  let d := d.setChan k { d.chan k with rawZ := z % 2 }
  if d.is Pos.STAT_WIRE_Z k then d
  else (d.setChan k { d.chan k with fZ := z % 2 }).wr Pos.STAT_LEVEL_Z k (z % 2)

/-- Filtered Z changes; its rise may be an index (R183). -/
def Dev.indexEdge (d : Dev) (k z early : Nat) : Dev :=
  let h := d.chan k
  let mode := d.rd Pos.ENC_CFG_Z_MODE k
  let rise := h.fZ == 0 && z % 2 == 1 && !d.is Pos.STAT_WIRE_Z k
  let d := d.zLevel k z
  if !rise || !d.enabled 0x10 k || !d.quadMode k || h.stuck ||
      (d.is Pos.ENC_CFG_Z_QUAL k && !(h.fA == 1 && h.fB == 1)) ||
      !(mode == 1 || (mode == 2 && d.is Pos.STAT_Z_ARMED k)) then d
  else
    let d := (d.wrI Pos.INDEX_POS k (d.posWord k)).wr Pos.INDEX_TIME k (tImg (d.momentL early - edgeDelay))
    (d.when (mode == 2) (fun d => d.wr Pos.STAT_Z_ARMED k 0)).evt 0x10 k Pos.E_INDEX

def Dev.cmdZArm (d : Dev) (k : Nat) : Dev := d.wr Pos.STAT_Z_ARMED k 1

def execZArm (req : Req) (ch : Fin 8) (s : State) : Host.Outcome State Fault Refusal :=
  s.upd (fun d => d.busW req.num 0x10 ch (fun d => d.cmdZArm ch))

/-! ## Serial sensors (R184–R188) -/

/-- Bits taken most significant first. -/
def bitsVal (bs : List Nat) : Nat := bs.foldl (fun a b => 2 * a + b % 2) 0

/-- One bit into the BiSS CRC x^6 + x + 1. -/
def crc6Bit (c b : Nat) : Nat :=
  let t := (bitOf c 5 + b) % 2
  (2 * c) % 64 ^^^ (if t = 1 then 3 else 0)

/-- The CRC of a BiSS frame, before inversion. -/
def crc6 (bs : List Nat) : Nat := bs.foldl (fun c b => crc6Bit c (b % 2)) 0

/-- Gray code to binary, most significant bit first. -/
def grayVal (bs : List Nat) : Nat :=
  (bs.foldl (fun (a : Nat × Nat) b => let x := (a.1 + b) % 2; (x, 2 * a.2 + x)) (0, 0)).2

/-- A frame's reading, or its error code: reading and whether nW was 0 (R184, R187). -/
def Dev.serParse (d : Dev) (k : Nat) (bs : List Nat) : Nat ⊕ (Nat × Bool) :=
  let n := d.rd Pos.SER_CFG_POS_BITS k
  if d.rd Pos.ENC_CFG_MODE k = 2 then
    if bs.isEmpty then .inl 1
    else if bs.take 3 ≠ [0, 1, 0] ∨ bs.length < n + 11 then .inl 2
    else
      let body := (bs.drop 3).take (n + 2)
      let crc := bitsVal ((bs.drop (n + 5)).take 6)
      if crc ≠ 63 - crc6 body then .inl 3
      else if body.getD n 0 = 0 then .inl 4
      else .inr (bitsVal (body.take n), body.getD (n + 1) 1 == 0)
  else if d.is Pos.SER_CFG_SSI_ERRBIT k && bs.getD n 0 == 1 then .inl 4
  else .inr (if d.is Pos.SER_CFG_GRAY k then grayVal (bs.take n) else bitsVal (bs.take n), false)

/-- A discarded frame (R187). -/
def Dev.serErr (d : Dev) (k code : Nat) : Dev :=
  let h := d.chan k
  let d := d.setChan k { h with errRun := h.errRun + 1 }
  let d := ((d.wr Pos.SER_STAT_LAST_ERR k code).incSat Pos.CNT_B_SER_ERR_CNT k).evt 0x10 k Pos.E_SER_ERR
  d.when (h.errRun + 1 == 4) (fun d => (d.setSuspect k).flt 0x10 k Pos.F_SER_FAULT)

/-- A good reading: count, limits, speed, word (R186, R188, R194). A reading without motion leaves a hold at a limit as it is
(R190). -/
def Dev.serCount (d : Dev) (k raw t : Nat) : Dev :=
  let h := d.chan k
  let n := d.rd Pos.SER_CFG_POS_BITS k
  let present := d.posWord k
  let old := h.cnt
  let c := if h.nRead = 0 then (raw : Int) - d.rdI Pos.SER_BASE k
    else old + sInt n ((raw + 2 ^ n - h.lastRaw % 2 ^ n) % 2 ^ n)
  let d := if c = old ∧ h.nRead ≠ 0 then d else (d.setCount k c).showDir k old
  let cnt := (d.chan k).cnt
  let rs := (⟨cnt, t⟩ :: h.readings).take 129
  let m := min (2 ^ d.rd Pos.ENC_CFG_SPD_AVG_LOG2 k) h.nRead
  let from_ := rs.getD m ⟨cnt, t⟩
  let dc := cnt - from_.cnt
  let spd : Int := if m = 0 ∨ dc = 0 then 0
    else if dc < 0 then -(spdOf dc.natAbs (t - from_.t) : Int) else spdOf dc.natAbs (t - from_.t)
  let w := 256 * cnt
  let back := (0 < spd ∧ 0 < h.spd ∧ w < present) ∨ (spd < 0 ∧ h.spd < 0 ∧ present < w)
  let x := d.chan k
  let moved := cnt ≠ old ∨ h.nRead = 0
  let d := d.setChan k { x with
    readings := rs, nRead := h.nRead + 1, lastRaw := raw, errRun := 0, spd := spd
    tEdge := if moved then t else h.tEdge
    hold := if back then some present else none }
  let d := d.when (decide moved) (fun d => d.wr Pos.STAT_STOPPED k 0)
  let d := d.wrb Pos.STAT_SER_HOLD k (decide back)
  d.when (decide back) (fun d => (d.incSat Pos.CNT_A_BACKSTEP_CNT k).evt 0x10 k Pos.E_BACKSTEP)

/-- The latch time of the frame under way: its first CLK falling edge plus LATCH_OFS (R185). -/
def Dev.latchTime (d : Dev) (k start : Nat) : Nat := ((start : Int) + d.rdI Pos.SER_LATCH_LATCH_OFS k * nsL).toNat

/-- The frame under way completes: its bits, how early in its cycle its first CLK edge lay (R185, R243), and the measured line
delay in ns, which a BiSS-C frame with an Ack reports (R184–R188). -/
def Dev.serReading (d : Dev) (k : Nat) (data : List Nat) (early delay : Nat) : Dev :=
  let d := d.keepWord k
  let h := d.chan k
  match h.frame with
  | none => d
  | some (start, wire) =>
    if !d.enabled 0x10 k || !d.serMode k || h.stuck then d
    else
      let d := d.setChan k { h with frame := none }
      let d := d.when (d.rd Pos.ENC_CFG_MODE k == 2 && data.getD 0 1 == 0) (fun d =>
        d.wr Pos.SER_STAT_LINE_DELAY k (min 65535 delay))
      if wire then d.serErr k 6
      else match d.serParse k data with
        | .inl code => d.serErr k code
        | .inr (raw, warn) =>
          let d := d.when warn (fun d => d.evt 0x10 k Pos.E_SER_WARN)
          (d.wr Pos.SER_RAW k raw).serCount k raw (d.latchTime k (start - early % cycleL))

/-- A frame starts: CLK falls, unless the data line is not idle-high (R184, R187). -/
def Dev.serFrame (d : Dev) (k : Nat) (dataHigh : Bool) : Dev :=
  if !d.enabled 0x10 k || !d.serMode k || (d.chan k).stuck then d
  else if dataHigh then
    (d.setChan k { d.chan k with frame := some (d.nowL, d.is Pos.STAT_WIRE_A k) }).emit
      (.serClk k d.nowL (d.rd Pos.SER_CFG_SER_CLK_DIV k)
        (if d.rd Pos.ENC_CFG_MODE k = 3 then d.rd Pos.SER_TIMING_SAMPLE_DLY k else 0))
  else (d.setChan k { d.chan k with frame := none }).serErr k 5

def execSerFrame (ch : Fin 8) (dataHigh : Bool) (s : State) : Host.Outcome State Fault Refusal :=
  s.updOn 2 (fun d => d.serFrame ch dataHigh)

/-! ## Commands and settings -/

/-- The count is confined to the limits in effect: one outside moves to the nearer limit, as if it had reached it; a position
word that holds with EN = 0 moves with it (R177, R190, R191). -/
def Dev.confine (d : Dev) (k : Nat) : Dev :=
  let h := d.chan k
  let (l, u) := d.limits k
  if h.stuck || (decide (l ≤ h.cnt) && decide (h.cnt ≤ u)) then d
  else
    let d := (((d.wr Pos.STAT_AT_LIMIT_HI k 0).wr Pos.STAT_AT_LIMIT_LO k 0).setCount k h.cnt).showDir k h.cnt
    d.setChan k { d.chan k with word := 256 * (d.chan k).cnt }

/-- CLR_EXCESS; what was added in this sample stays (R193). -/
def Dev.cmdClrExcess (d : Dev) (k : Nat) : Dev :=
  d.wrI Pos.LIMIT_EXCESS k (if (d.chan k).exSample = some d.sample then (d.chan k).exAdd else 0)

def execClrExcess (req : Req) (ch : Fin 8) (s : State) : Host.Outcome State Fault Refusal :=
  s.upd (fun d => d.busW req.num 0x10 ch (fun d => d.cmdClrExcess ch))

/-- A WIRE is live on a pair in use (R178, R199). -/
def Dev.wireLive (d : Dev) (k : Nat) : Bool :=
  if d.quadMode k then d.is Pos.STAT_WIRE_A k || d.is Pos.STAT_WIRE_B k ||
    (d.rd Pos.ENC_CFG_Z_MODE k != 0 && d.is Pos.STAT_WIRE_Z k)
  else d.serMode k && d.is Pos.STAT_WIRE_A k

/-- The four FLT bits of R199. -/
def Dev.posFault (d : Dev) (k : Nat) : Bool :=
  let f := d.rd (Hdr.FLT 0x10) k
  f.testBit Pos.F_QERR_FAULT || f.testBit Pos.F_WIRE_FAULT || f.testBit Pos.F_SER_FAULT || f.testBit Pos.F_LOCKSTEP

/-- CLR_SUSPECT; a cause in the same sample keeps the mark (R193, R199). -/
def Dev.cmdClrSuspect (d : Dev) (k : Nat) : Dev :=
  if d.wireLive k || d.posFault k || (d.chan k).suspSample == some d.sample then d else d.wr Pos.STAT_POS_SUSPECT k 0

def execClrSuspect (req : Req) (ch : Fin 8) (s : State) : Host.Outcome State Fault Refusal :=
  s.upd (fun d => d.busW req.num 0x10 ch (fun d => d.cmdClrSuspect ch))

/-- A pair whose wire check runs: its block enabled, the pair in use, and not routed from an output (R178, R201, R508,
R561). -/
def Dev.wireChecked (d : Dev) : WirePair → Bool
  | .enc k p =>
    let k := k.val
    d.enabled 0x10 k && !(d.rd Test.ROUTE_E 0).testBit k &&
      match p.val with
      | 0 => d.quadMode k || d.serMode k
      | 1 => d.quadMode k
      | _ => d.quadMode k && d.rd Pos.ENC_CFG_Z_MODE k != 0
  | .encAB k => d.enabled 0x10 k && !(d.rd Test.ROUTE_E 0).testBit k && d.quadMode k
  | .din n => d.enabled 0x11 n && d.is Din.DIN_CFG_DIFF n && !(d.rd Test.ROUTE_D 0).testBit n

/-- The STAT bit of an encoder pair. -/
def wireStat (p : Nat) : Fld := match p with
  | 0 => Pos.STAT_WIRE_A
  | 1 => Pos.STAT_WIRE_B
  | _ => Pos.STAT_WIRE_Z

/-- WIRE of a pair rises (R178, R187). -/
def Dev.wireRise (d : Dev) (k p : Nat) : Dev :=
  let d := d.wr (wireStat p) k 1
  let h := d.chan k
  let d := d.when (p == 0) (fun d => d.setChan k { h with frame := h.frame.map (fun x => (x.1, true)) })
  let d := (d.incSat Pos.CNT_C_WIRE_CNT k).evt 0x10 k Pos.E_WIRE
  d.when (p != 2) (fun d => (d.setSuspect k).flt 0x10 k Pos.F_WIRE_FAULT)

/-- WIRE of a channel's pair sets or clears; on clearing, the restored level is compared with the held one (R178). -/
def Dev.wireEnc (d : Dev) (k p : Nat) (live : Bool) (level : Nat) : Dev :=
  let was := d.is (wireStat p) k
  if live && !was then d.wireRise k p
  else if !live && was then
    let d := d.wr (wireStat p) k 0
    let h := d.chan k
    match p with
    | 0 => d.quadEdge k level (if d.is Pos.STAT_WIRE_B k then h.rawB else h.fB) 0
    | 1 => d.quadEdge k (if d.is Pos.STAT_WIRE_A k then h.rawA else h.fA) level 0
    | _ => d.zLevel k level
  else d

/-- WIRE of A and of B set or clear in one sample; both restored levels are compared together, so that two changes are an
illegal transition (R178, R181). Bit 0 of the level is A's, bit 1 B's. -/
def Dev.wireBoth (d : Dev) (k : Nat) (live : Bool) (level : Nat) : Dev :=
  let a := d.is Pos.STAT_WIRE_A k
  let b := d.is Pos.STAT_WIRE_B k
  if live then (d.wireEnc k 0 true 0).wireEnc k 1 true 0
  else if a && b then
    ((d.wr Pos.STAT_WIRE_A k 0).wr Pos.STAT_WIRE_B k 0).quadEdge k (bitOf level 0) (bitOf level 1) 0
  else (d.wireEnc k 0 false (bitOf level 0)).wireEnc k 1 false (bitOf level 1)

/-! ## History (R195–R198) -/

/-- A history sample as stored: 32 bytes. -/
def Dev.histImage (d : Dev) (k : Nat) : Nat :=
  let h := d.chan k
  let lim := d.is Pos.STAT_AT_LIMIT_HI k || d.is Pos.STAT_AT_LIMIT_LO k
  let flags := 1 + 2 * b2n (d.posSuspect k) + 4 * d.rd Pos.STAT_STOPPED k + 8 * b2n lim + 16 * d.rd Pos.STAT_DIR_NEG k +
    32 * b2n h.gap + 64 * b2n (d.is Pos.STAT_SER_HOLD k && !d.serReached k)
  uInt 64 (d.posWord k) + d.now * 2 ^ 64 + d.rd Pos.HIST_SEQ k * 2 ^ 192 + flags * 2 ^ 224 + d.posEpoch k * 2 ^ 240

/-- Ring entry i of a channel; a sample with an uncorrectable error reads VALID = 0 (R200). -/
def Dev.hist (d : Dev) (k i : Nat) : Nat :=
  let x := d.tab 0x10 k 0 (i % 65536)
  if d.tabErr 0x10 k 0 (i % 65536) = 2 then x - bitOf x 224 * 2 ^ 224 else x

/-- A reader takes a sample: the ring's checker reports, and GAP is due after a lost one (R198, R200). -/
def Dev.histRead (d : Dev) (k i : Nat) : Dev :=
  let e := d.tabErr 0x10 k 0 (i % 65536)
  let d := d.readTab 0x10 k Pos.F_HIST_SBE Pos.F_HIST_DBE 0x10 k 0 (i % 65536)
  d.when (e == 2) (fun d => d.setChan k { d.chan k with gap := true })

/-- One history sample (R195). -/
def Dev.histSample (d : Dev) (k : Nat) : Dev :=
  if !d.enabled 0x10 k || !d.is Pos.HIST_CFG_HIST_EN k then d
  else
    let s := d.rd Pos.HIST_SEQ k
    let d := d.putTab 0x10 k Pos.F_HIST_SBE Pos.F_HIST_DBE 0x10 k 0 (s % 65536) (d.histImage k)
    (d.addWrap Pos.HIST_SEQ k 1).setChan k { d.chan k with gap := false }

/-- Whether the ring holds a valid sample of an epoch (R192). -/
def Dev.histHasEpoch (d : Dev) (k e : Nat) : Bool :=
  d.tabs.any (fun x => x.1 / 2 ^ 24 == tabKey 0x10 k 0 0 / 2 ^ 24 && x.2.testBit 224 && bits x.2 240 4 == e)

/-- GAP is due in every channel after a step of the device clock (R198). -/
def Dev.gapAll (d : Dev) : Dev :=
  (List.range 8).foldl (fun d k => d.setChan k { d.chan k with gap := true }) d

/-! ## Enable, disable, soft reset -/

/-- The frame length of a serial sensor plus 2 µs, in units of 5 ns × (SER_CLK_DIV + 1) clock periods (R184, R185). -/
def Dev.serFits (d : Dev) (k : Nat) : Bool :=
  let clkNs5 := d.rd Pos.SER_CFG_SER_CLK_DIV k + 1
  let n := d.rd Pos.SER_CFG_POS_BITS k
  let periods := if d.rd Pos.ENC_CFG_MODE k = 2 then n + 11 else n + d.rd Pos.SER_CFG_SSI_ERRBIT k
  decide (periods * clkNs5 * 5 + 2000 ≤ d.rd Pos.SER_TIMING_SER_PERIOD k * 100)

/-- The settings a channel's enable needs (R184–R186). -/
def Dev.chanMayEnable (d : Dev) (k : Nat) : Bool :=
  !d.serMode k || (decide (19 ≤ d.rd Pos.SER_CFG_SER_CLK_DIV k) && decide (d.rd Pos.SER_CFG_SER_CLK_DIV k ≤ 2499) &&
    decide (8 ≤ d.rd Pos.SER_CFG_POS_BITS k) && decide (d.rd Pos.SER_CFG_POS_BITS k ≤ 40) &&
    decide (10 ≤ d.rd Pos.SER_TIMING_SER_PERIOD k) && d.serFits k)

/-- The MODE a SENSOR_KIND asks for (R207). -/
def sensorMode (kind : Nat) : Nat := match kind with
  | 1 => 1
  | 2 => 2
  | 3 => 3
  | 4 => 3
  | _ => 0

/-- MODE_MISMATCH when EN rises: the SENSOR_KIND of the record last read, as the Module Directory keeps it, against MODE
(R206, R535). -/
def Dev.modeMismatch (d : Dev) (k : Nat) : Dev :=
  let mis := d.is Pos.ID_STAT_ID_VALID k && sensorMode (d.mdWord (16 + k) 17 % 256) != d.rd Pos.ENC_CFG_MODE k
  let s := d.mdWord (16 + k) 0
  (d.wrb Pos.ID_STAT_MODE_MISMATCH k mis).wr Md.ENTRY 0 (s - bitOf s 28 * 2 ^ 28 + b2n mis * 2 ^ 28) (32 * (16 + k))

/-- EN rises: the present (A, B) is the reference, WIRE and speed start afresh, the next sample has GAP, MODE is compared
with the adapter's record (R182, R194, R198, R206, R561). -/
def Dev.chanEnable (d : Dev) (k : Nat) : Dev :=
  let h := d.chan k
  let d := d.setChan k { h with
    m := 0, edges := [], spd := 0, qwin := 0, gap := true, readings := [], nRead := 0, errRun := 0, hold := none
    lastFilt := none, tEdge := d.nowL }
  (((d.wr Pos.STAT_WIRE_A k 0).wr Pos.STAT_WIRE_B k 0).wr Pos.STAT_WIRE_Z k 0).modeMismatch k

/-- EN falls: the word holds (R177), and the wire checks end, so the filtered levels follow their pairs (R561). The present word
is given as it stood while EN was 1. -/
def Dev.chanDisable (d : Dev) (k : Nat) (w : Int) : Dev :=
  let d := d.setChan k { d.chan k with word := w, frame := none }
  let h := d.chan k
  let d := ((d.wr Pos.STAT_WIRE_A k 0).wr Pos.STAT_WIRE_B k 0).wr Pos.STAT_WIRE_Z k 0
  (d.setLevels k h.rawA h.rawB).zLevel k h.rawZ

/-- A channel soft reset: both lockstep copies restart at POSITION 0, the filters keep their levels (R198, R200, R209). -/
def Dev.chanReset (d : Dev) (k : Nat) : Dev :=
  let h := d.chan k
  d.setChan k { (default : PosH) with
    rawA := h.rawA, rawB := h.rawB, rawZ := h.rawZ, fA := h.fA, fB := h.fB, fZ := h.fZ, gap := true, idPrev := h.idPrev }

/-! ## Adapter identity (R206, R207) -/

/-- The body of an adapter's Module Directory entry (R535). -/
def mdAdapter (bs : List Nat) : List Nat :=
  sl bs 12 3 ++ [0] ++ sl bs 16 48 ++ zeros 12 ++ sl bs 64 4 ++ sl bs 68 4 ++ sl bs 72 4 ++ sl bs 76 4 ++ sl bs 80 4 ++
    sl bs 84 4 ++ zeros 8

/-- The bus starts a read of the record. -/
def Dev.idStart (d : Dev) (k : Nat) : Dev := d.emit (.idBus k 256)

/-- The one-second poll finds an adapter, or none (R206). -/
def execIdPoll (ch : Fin 8) (ack : Bool) (s : State) : Host.Outcome State Fault Refusal :=
  s.updOn 2 (fun d =>
    if !d.is Pos.ID_CFG_ID_POLL ch then d
    else
      let was := d.is Pos.ID_STAT_PRESENT ch
      let d := (d.wrb Pos.ID_STAT_PRESENT ch ack).mdPresent (16 + ch) ack
      let d := d.when (was != ack) (fun d => d.evt 0x10 ch Pos.E_ID_CHANGE)
      d.when (ack && !was) (fun d => d.idStart ch))

def execIdRead (req : Req) (ch : Fin 8) (s : State) : Host.Outcome State Fault Refusal :=
  s.upd (fun d => d.busW req.num 0x10 ch (fun d => d.idStart ch))

/-- The adapter's record is read (R206). -/
def execAdapterIdDone (ch : Fin 8) (record : List Nat) (s : State) : Host.Outcome State Fault Refusal :=
  s.updOn 2 (fun d =>
    let k := ch.val
    let ok := recordGood 256 record && byteAt record 8 == 2
    let mis := ok && d.enabled 0x10 k && sensorMode (byteAt record 64) != d.rd Pos.ENC_CFG_MODE k
    let h := d.chan k
    let d := (d.wrb Pos.ID_STAT_ID_VALID k ok).wrb Pos.ID_STAT_ID_BAD k (!ok)
    let d := (d.wrb Pos.ID_STAT_MODE_MISMATCH k mis).wr Pos.ID_STAT_BUS_ERR k 0
    let d := d.mdPost (16 + k) 2 ok mis (mdAdapter record)
    let changed := match h.idPrev with
      | some r => ok && r != recordIdent record
      | none => false
    let d := d.setChan k { h with idPrev := if ok then some (recordIdent record) else h.idPrev }
    let d := d.evt 0x10 k Pos.E_ID_DONE
    d.when changed (fun d => d.evt 0x10 k Pos.E_ID_CHANGE))

/-- SDA is held low for 35 ms: BUS_ERR, nine clocks and a stop (R206, R260). -/
def execBusErr (bus : IdBus) (s : State) : Host.Outcome State Fault Refusal :=
  s.upd (fun d => match bus with
    | .adapter k => (d.wr Pos.ID_STAT_BUS_ERR k 1).emit (.idRecover k)
    | .sfp n => (d.wr Eth.SFP_STAT_BUS_ERR n 1).emit (.idRecover (8 + n)))

end Sys2Proof.Machine
end

