-- ==== Sys2Proof/Machine/Vox.lean ====
section
/-!
DEFINITION. The Voxord engine (R267–R277): messages, transmit queue, retries, acknowledgement, wake messages.
The log's entry 40 of notes/assumptions names what is DEDUCED or a DESIGN CHOICE here, and marks each.
-/

namespace Sys2Proof.Machine

/-! ## Frames -/

/-- A time in a Voxord payload (R268). -/
def voxTime (t : Nat) : List Nat := beBytes 6 (bits t 48 48) ++ beBytes 4 (tNS t) ++ beBytes 2 (bits t 0 16)

/-- A POS_INFO byte (R268). -/
def posInfoByte (ch epoch : Nat) (suspect : Bool) : Nat := ch % 8 + 8 * (epoch % 16) + 128 * b2n suspect

/-- A frame with its destination and source, after the last header byte padded to the minimum size (R250, R267). -/
def padFrame (bs : List Nat) : List Nat := bs ++ zeros (60 - bs.length)

/-- The loop in effect on an Ethernet port: 1 EL0, 2 EL1, 3 EL2 (R507). -/
def Dev.ethLoop (d : Dev) (n : Nat) : Nat := (d.loop (16 + n)).depth

def Dev.ethLinkUp (d : Dev) (n : Nat) : Bool := d.is Eth.STAT_LINK_UP n

/-- EtherType of a frame, after any 802.1Q tag (R511). -/
def etherType (bs : List Nat) : Nat := if be bs 12 2 = 0x8100 then be bs 16 2 else be bs 12 2

/-- A frame leaves on an Ethernet port: padding, FCS, the transmit injector (R250, R512). -/
def Dev.ethWire (d : Dev) (n : Nat) (bs : List Nat) (badFcs : Bool) : Dev × Bool :=
  let r := d.inject (16 + n) 1 (etherType bs) (withCrc (padFrame bs))
  (r.2.foldl (fun d b => d.emit (.eth n d.now b badFcs)) r.1, !r.2.isEmpty)

/-- The bytes of a message as one port sends it (R267). -/
def Dev.voxFrame (d : Dev) (n seq : Nat) (retx : Bool) (m : VoxMsg) : List Nat :=
  let tag := if d.is Vox.VOX_VLAN_VLAN_EN 0 then
      beBytes 2 0x8100 ++ beBytes 2 (d.rd Vox.VOX_VLAN_VLAN_PCP 0 * 2 ^ 13 + d.rd Vox.VOX_VLAN_VLAN_VID 0)
    else []
  beBytes 6 m.mac ++ beBytes 6 (d.rd Eth.MAC_ADDR n) ++ tag ++ beBytes 2 (d.rd Vox.VOX_CFG_VOX_ETYPE 0) ++
    [1, m.mtype, d.rd Vox.VOX_CFG_DOMAIN 0, b2n (m.ackReq && !m.group) + 2 * b2n retx + 4 * b2n m.group] ++
    beBytes 2 m.dst ++ beBytes 2 (d.rd Vox.VOX_ID_NODE_ID 0) ++ beBytes 2 seq ++ beBytes 2 m.payload.length ++
    zeros 4 ++ m.payload

/-- Send a message on every port it selects whose link takes frames. -/
def Dev.voxWire (d : Dev) (seq : Nat) (retx : Bool) (m : VoxMsg) : Dev :=
  (List.range 2).foldl (fun d n =>
    d.when (m.ports.testBit n && d.ethLinkUp n && d.ethLoop n != 3) (fun d =>
      (d.ethWire n (d.voxFrame n seq retx m) false).1)) d

/-! ## The transmit queue (R274, R275) -/

/-- The engine runs: EN = 1 and the Ethernet island answers. -/
def Dev.voxOn (d : Dev) : Bool := d.enabled 0x17 0 && !d.silent 0x17 0

/-- The engine reads an entry of one of its tables; an uncorrectable one counts as not VALID (R282). -/
def Dev.voxRead (d : Dev) (t i : Nat) : Dev := d.readTab 0x17 0 Vox.F_VT_SBE Vox.F_VT_DBE 0x17 0 t i

/-- The lowest-index VALID node entry of a node (R274); an uncorrectable one is not VALID (R282). -/
def Dev.voxNode (d : Dev) (dst : Nat) : Option Nat :=
  (List.range 1024).find? (fun i =>
    let e := d.tab 0x17 0 0 i
    e.testBit 72 && bits e 0 16 == dst && d.tabErr 0x17 0 0 i != 2)

/-- The node entries with an error that the search for a node comes by. -/
def Dev.voxMet (d : Dev) (dst : Nat) : List Nat :=
  let n := (d.voxNode dst).getD 1023
  (List.range 1024).filter (fun i => decide (i ≤ n) && d.tabErr 0x17 0 0 i != 0)

/-- Destination MAC and ports of a message (R274). -/
def Dev.voxResolve (d : Dev) (group : Bool) (dst sel : Nat) : Nat × Nat :=
  let mcast := (d.rd Vox.VOX_MCAST 0, sel)
  if group then mcast
  else match d.voxNode dst with
    | some i => let e := d.tab 0x17 0 0 i; (bits e 16 48, bits e 64 2)
    | none => mcast

def Dev.voxShow (d : Dev) : Dev := d.wr Vox.VOX_STAT_QUEUED 0 d.vox.queue.length

/-- A message is refused (R275). -/
def Dev.voxRefuse (d : Dev) (prio : Nat) : Dev :=
  let d := (d.incSat Vox.VOX_CNT_A_REFUSED_CNT 0).evt 0x17 0 Vox.E_VOX_REFUSED
  d.when (prio == 2) (fun d => d.incSat Vox.VOX_CNT_A_VERDICT_DROP_CNT 0)

/-- Queue a message; the answer says whether it was taken (R275). -/
def Dev.voxSend (d : Dev) (valid : Bool) (prio mtype dst : Nat) (group ackReq : Bool) (sel : Nat) (payload : List Nat) :
    Dev × Bool :=
  let r := d.voxResolve group dst sel
  let d := if group || d.bad.isEmpty then d else (d.voxMet dst).foldl (fun d i => d.voxRead 0 i) d
  let up := (List.range 2).any (fun n => r.2.testBit n && d.ethLinkUp n)
  if !d.voxOn || !valid || !up || decide (256 ≤ d.vox.queue.length) then (d.voxRefuse prio, false)
  else
    let v := { d.vox with queue := d.vox.queue ++ [⟨prio, mtype, dst, group, ackReq, r.1, r.2, payload⟩] }
    (({ d with vox := v } : Dev).voxShow, true)

/-- Send under a route-table entry (R274). -/
def Dev.voxRoute (d : Dev) (entry prio mtype : Nat) (payload : List Nat) : Dev × Bool :=
  let d := d.voxRead 2 entry
  let e := if d.tabErr 0x17 0 2 entry = 2 then 0 else d.tab 0x17 0 2 entry
  d.voxSend (e.testBit 16) prio mtype (bits e 0 16) (e.testBit 17) (e.testBit 18) (bits e 24 2) payload

/-- An ACTION of action-table entry a (R272, R274). -/
def Dev.voxAction (d : Dev) (a kind posInfo idx entry time pos : Nat) : Dev × Bool :=
  let d := d.voxRead 1 a
  let e := if d.tabErr 0x17 0 1 a = 2 then 0 else d.tab 0x17 0 1 a
  d.voxSend (e.testBit 16) 1 0x03 (bits e 0 16) (e.testBit 17) (e.testBit 18) (bits e 24 2)
    ([kind, posInfo] ++ beBytes 2 idx ++ beBytes 4 entry ++ beBytes 2 (bits e 32 16) ++ zeros 2 ++
      beBytes 4 (bits e 64 32) ++ voxTime time ++ zeros 4 ++ beBytes 8 pos)

/-- The message that leaves next: lowest priority number, then the order queued (R275). -/
def voxNext (q : List VoxMsg) : Option Nat :=
  (List.range 4).findSome? (fun p => q.findIdx? (fun m => m.prio == p))

/-- The next message leaves (R275). -/
def Dev.voxLeave (d : Dev) : Dev :=
  if !d.voxOn then d
  else match voxNext d.vox.queue with
    | none => d
    | some i => match d.vox.queue[i]? with
      | none => d
      | some m =>
        let v := d.vox
        let out := if m.ackReq && !m.group then v.out ++ [⟨v.seq, 0, m⟩] else v.out
        let d := { d with vox := { v with queue := v.queue.eraseIdx i, seq := (v.seq + 1) % 2 ^ 16, out := out } }
        (d.voxShow.addWrap Vox.SENT_CNT 0 1).voxWire v.seq false m

/-- Every message queued leaves: frames of software follow them (R275). -/
def Dev.voxDrain (d : Dev) : Dev := (List.range d.vox.queue.length).foldl (fun d _ => d.voxLeave) d

def execVoxSend (s : State) : Host.Outcome State Fault Refusal := s.upd (fun d => d.voxLeave)

/-- RETRY_TIME passed without an ACK of the message with a SEQ (R276). -/
def Dev.voxRetry (d : Dev) (seq : Nat) : Dev :=
  if !d.voxOn then d
  else match d.vox.out.find? (fun o => o.seq == seq) with
    | none => d
    | some o =>
      let rest := d.vox.out.filter (fun x => x.seq != seq)
      if o.tries < d.rd Vox.VOX_RETRY_RETRIES 0 then
        ({ d with vox := { d.vox with out := rest ++ [{ o with tries := o.tries + 1 }] } } : Dev).voxWire seq true o.msg
      else
        let d := { d with vox := { d.vox with out := rest } }
        let d := (d.wr Vox.LAST_NOACK_SEQ 0 seq).wr Vox.LAST_NOACK_DST 0 o.msg.dst
        (d.incSat Vox.VOX_CNT_B_NOACK_CNT 0).evt 0x17 0 Vox.E_NO_ACK

def execVoxRetry (msg : Nat) (s : State) : Host.Outcome State Fault Refusal := s.upd (fun d => d.voxRetry msg)

/-! ## Reception (R276, R277) -/

/-- The Voxord header of a frame begins here. -/
def voxHdr (bs : List Nat) : List Nat := bs.drop (if be bs 12 2 = 0x8100 then 18 else 14)

/-- A Voxord frame of this domain, addressed to this node (R277). -/
def Dev.voxForUs (d : Dev) (bs : List Nat) : Bool :=
  let h := voxHdr bs
  d.voxOn && etherType bs == d.rd Vox.VOX_CFG_VOX_ETYPE 0 && byteAt h 0 == 1 &&
    byteAt h 2 == d.rd Vox.VOX_CFG_DOMAIN 0 && !(byteAt h 3).testBit 2 && be h 4 2 == d.rd Vox.VOX_ID_NODE_ID 0

/-- Acknowledge a message that asks for it. -/
def Dev.voxAckTo (d : Dev) (h : List Nat) (sel : Nat) : Dev :=
  if (byteAt h 3).testBit 0 then
    (d.voxSend true 0 0x7E (be h 6 2) false false sel (beBytes 2 (be h 8 2) ++ [0, 0])).1
  else d

/-- Record an accepted message; only those of the last 100 ms are kept. -/
def Dev.voxSaw (d : Dev) (src seq : Nat) : Dev :=
  let keep := d.vox.seen.filter (fun x => decide (d.nowL < x.2.2 + 100000000 * nsL))
  { d with vox := { d.vox with seen := keep ++ [(src, seq, d.nowL)] } }

/-- A received frame at the Voxord engine; the answer says whether the engine consumed it. A message the engine does not
consume goes to software once: the device accepts it, acknowledges it and discards its later copies as well (R276). -/
def Dev.voxRx (d : Dev) (sel : Nat) (bs : List Nat) : Dev × Bool :=
  if !d.voxForUs bs then (d, false)
  else
    let h := voxHdr bs
    let src := be h 6 2
    let seq := be h 8 2
    let dup := d.vox.seen.any (fun x => x.1 == src && x.2.1 == seq && decide (d.nowL < x.2.2 + 100000000 * nsL))
    if dup then ((d.incSat Vox.VOX_CNT_B_DUP_CNT 0).voxAckTo h sel, true)
    else match byteAt h 1 with
      | 0x7E =>
        let acked := be h 16 2
        if d.vox.out.any (fun o => o.seq == acked && o.msg.dst == src) then
          let d := { d with vox := { d.vox with out := d.vox.out.filter (fun o => !(o.seq == acked && o.msg.dst == src)) } }
          (d.voxSaw src seq, true)
        else (d.voxSaw src seq, false)
      | 0x10 => (((d.voxSaw src seq).voxAckTo h sel).wakeEvent 1 0, true)
      | _ => ((d.voxSaw src seq).voxAckTo h sel, false)

def execVoxAck (frame : List Nat) (s : State) : Host.Outcome State Fault Refusal :=
  s.upd (fun d => (d.voxRx 3 frame).1)

def execWakeMsg (frame : List Nat) (s : State) : Host.Outcome State Fault Refusal :=
  s.upd (fun d => (d.voxRx 3 frame).1)

end Sys2Proof.Machine
end

