-- ==== Sys2Proof/Machine/Lcu.lean ====
section
/-!
DEFINITION. The line conditioning units (R283–R308): acceptance, Sizing, row alignment, colour matrix, positions from the
history ring, Screed, tiles, area frames, the rewind pass.
The log's entries 29, 41, 42 and 43 of notes/assumptions name what is DEDUCED or a DESIGN CHOICE here, and marks each.
-/

namespace Sys2Proof.Machine

def Dev.track (d : Dev) (p : Nat) : TrackH := mget d.tracks p default
def Dev.setTrack (d : Dev) (p : Nat) (x : TrackH) : Dev := { d with tracks := mset d.tracks p x default }

/-- A segment of a port that is not ENDED. -/
def Dev.segOf (d : Dev) (p num : Nat) : Option Seg := (d.track p).segs.find? (fun s => s.num == num)

/-- Change a segment of a port. -/
def Dev.modSeg (d : Dev) (p num : Nat) (f : Seg → Seg) : Dev :=
  d.setTrack p { d.track p with segs := (d.track p).segs.map (fun s => if s.num = num then f s else s) }

/-- The engine's part of a segment. -/
def Dev.modEng (d : Dev) (p num : Nat) (f : EngSeg → EngSeg) : Dev :=
  d.modSeg p num (fun s => { s with eng := s.eng.map f })

def Dev.lcuWidth (d : Dev) (p : Nat) : Nat := d.rd Lcu.LCU_WIDTH_WIDTH p
def Dev.lcuChan (d : Dev) (p : Nat) : Nat := fmtChan (d.rd Lcu.LCU_CFG_FMT_EXP p)
def Dev.lcuCols (d : Dev) (p : Nat) : Nat := cdiv (d.lcuWidth p) 256

/-! ## Sizing (R285–R288) -/

/-- The codes of a line, channel by channel, from either layout (R284). -/
def lineCodes (fmt w : Nat) (pay : List Nat) : Array Nat :=
  let a := pay.toArray
  if fmt = 3 then ((List.range (3 * w)).map (fun j => a.getD (3 * (j % w) + j / w) 0)).toArray else a

/-- Clamp to the 8.4 range, and whether that clipped. -/
def clip12 (v : Int) : Nat × Bool := ((clampI 0 4095 v).toNat, decide (v < 0) || decide (4095 < v))

/-- R285 for code r and channel c of a Sizing entry. -/
def sizeSample (e c r : Nat) : Nat × Bool :=
  let dark : Int := (bits e (16 * c) 12 : Nat)
  let gain : Int := (bits e (48 + 16 * c) 16 : Nat)
  clip12 ((((16 * r : Nat) - dark) * gain + 2048) / 4096)

/-- The nearest of positions 1 to reach on a side that is within the line and not dead. -/
def nearest (dead : Nat → Bool) (w x reach : Nat) (left : Bool) : Option Nat :=
  (List.range reach).findSome? (fun j =>
    let inside := if left then decide (j + 1 ≤ x) else decide (x + j + 1 < w)
    let y := if left then x - (j + 1) else x + j + 1
    if inside && !dead y then some y else none)

/-- Clip counts by channel and tile column: index channel × columns + column. -/
def clipCounts (chan w : Nat) (at? : Nat → Bool) : List Nat :=
  let cols := cdiv w 256
  (List.range (chan * cols)).map (fun q =>
    ((List.range 256).filter (fun i =>
      let x := 256 * (q % cols) + i
      decide (x < w) && at? (q / cols * w + x))).length)

/-- The dead pixels' replacement (R286); an uncorrectable entry is dead in every channel (R306). SUB_REACH is read
within 1 to 4. -/
def Dev.sizeDead (d : Dev) (p b c x : Nat) : Bool :=
  (d.tab 0x0C p b x).testBit (16 * c + 15) || d.tabErr 0x0C p b x == 2

/-- Sizing of one line: samples channel by channel, clip counts, failed substitutions. -/
def Dev.sizeLine (d : Dev) (p w chan : Nat) (codes : Array Nat) : Array Nat × List Nat × Nat :=
  if !d.is Lcu.LCU_CFG_SIZING_EN p then
    (((List.range (chan * w)).map (fun j => 16 * (codes.getD j 0 % 256))).toArray, clipCounts chan w (fun _ => false), 0)
  else
    let b := d.rd Lcu.STAT_BANK_ACTIVE p
    let es := ((List.range w).map (fun x => d.tab 0x0C p b x)).toArray
    let reach := max 1 (min 4 (d.rd Lcu.LCU_CFG_SUB_REACH p))
    let dead := ((List.range (chan * w)).map (fun j => d.sizeDead p b (j / w) (j % w))).toArray
    let sz := ((List.range (chan * w)).map (fun j =>
      sizeSample (es.getD (j % w) 0) (j / w) (codes.getD j 0 % 256))).toArray
    let val := fun j => (sz.getD j (0, false)).1
    let isDead := fun c x => dead.getD (c * w + x) false
    let near := fun c x l => nearest (isDead c) w x reach l
    let out := (List.range (chan * w)).map (fun j =>
      let c := j / w
      let x := j % w
      if isDead c x then
        match near c x true, near c x false with
        | some a, some b => (val (c * w + a) + val (c * w + b) + 1) / 2
        | some a, none => val (c * w + a)
        | none, some b => val (c * w + b)
        | none, none => 2048
      else val j)
    let fails := ((List.range (chan * w)).filter (fun j =>
      isDead (j / w) (j % w) && (near (j / w) (j % w) true).isNone && (near (j / w) (j % w) false).isNone)).length
    (out.toArray, clipCounts chan w (fun j => !dead.getD j false && (sz.getD j (0, false)).2), fails)

/-- What Sizing's table checker reports for the entries of a line (R306, R487). -/
def Dev.sizeCheck (d : Dev) (p w : Nat) : Dev :=
  let b := d.rd Lcu.STAT_BANK_ACTIVE p
  let lo := tabKey 0x0C p b 0
  ((d.bad.filter (fun e => decide (lo ≤ e.1) && decide (e.1 < lo + w))).map (fun e => e.1 - lo)).foldl
    (fun d x => d.readTab 0x0C p Lcu.F_TBL_SBE Lcu.F_TBL_DBE 0x0C p b x) d

/-! ## Row alignment (R289) -/

def Dev.rowDelay (d : Dev) (p c : Nat) : Nat :=
  match c with
  | 0 => d.rd Lcu.ROW_DELAY_DELAY_R p
  | 1 => d.rd Lcu.ROW_DELAY_DELAY_G p
  | _ => d.rd Lcu.ROW_DELAY_DELAY_B p

/-- The aligned line of a sized one, from the lines before it. The samples of a missing source line are free values. -/
def Dev.alignLine (d : Dev) (p w : Nat) (cur : SLine) (buf : List SLine) : Dev × SLine :=
  if d.lcuChan p = 1 then (d, cur)
  else
    let cols := cdiv w 256
    let srcs := (List.range 3).map (fun c =>
      let n := (cur.num + 2 ^ 32 - d.rowDelay p c) % 2 ^ 32
      if n = cur.num then some cur else (buf.take 15).find? (fun l => l.num == n))
    let src := fun c => (srcs.getD c none)
    let smp := (List.range (3 * w)).map (fun j =>
      match src (j / w) with
      | some l => l.smp.getD j 0
      | none => Config.freeValue (d.free + j) % 4096)
    let clips := (List.range (3 * cols)).map (fun q =>
      match src (q / cols) with
      | some l => l.clips.getD q 0
      | none => 0)
    let missing := srcs.any (fun o => o.isNone)
    let inc := cur.inc || missing || srcs.any (fun o => match o with | some l => l.inc | none => true)
    (if missing then { d with free := d.free + 3 * w } else d,
      { cur with smp := smp.toArray, clips := clips, inc := inc })

/-! ## Colour matrix (R290, R291) -/

/-- The shadow set: nine coefficients by rows, three offsets. -/
def mtxFlds : List Fld :=
  [Lcu.MTX0_M00, Lcu.MTX0_M01, Lcu.MTX1_M02, Lcu.MTX1_M10, Lcu.MTX2_M11, Lcu.MTX2_M12, Lcu.MTX3_M20, Lcu.MTX3_M21,
   Lcu.MTX4_M22, Lcu.MOFS0_O0, Lcu.MOFS0_O1, Lcu.MOFS1_O2]

/-- The set in use: the reset values until the first commit. -/
def Dev.mtxUse (d : Dev) (p : Nat) : List Nat :=
  if (d.lcu p).mtx = [] then mtxFlds.map (fun f => f.rst) else (d.lcu p).mtx

/-- The matrix on one line. -/
def Dev.mtxLine (d : Dev) (p w : Nat) (l : SLine) : SLine :=
  if !d.is Lcu.LCU_CFG_MATRIX_EN p then l
  else
    let chan := d.lcuChan p
    let m := (d.mtxUse p).map (sInt 16)
    let ys := ((List.range (chan * w)).map (fun j =>
      let i := j / w
      let x := j % w
      let sum : Int := (List.range chan).foldl (fun a c => a + m.getD (3 * i + c) 0 * (l.smp.getD (c * w + x) 0 : Nat)) 0
      clip12 ((sum + 2048) / 4096 + m.getD (9 + i) 0))).toArray
    let more := clipCounts chan w (fun j => (ys.getD j (0, false)).2)
    { l with
      smp := ys.map (fun y => y.1)
      clips := (List.range (chan * cdiv w 256)).map (fun q => l.clips.getD q 0 + more.getD q 0) }

/-- Clipped samples of a line. -/
def SLine.clipped (l : SLine) : Nat := l.clips.foldl (· + ·) 0

/-- Clipped samples of a line in a tile column. -/
def SLine.clipCol (l : SLine) (cols n : Nat) : Nat :=
  ((List.range l.clips.length).filter (fun q => q % cols == n)).foldl (fun a q => a + l.clips.getD q 0) 0

/-! ## Positions (R292–R294) -/

/-- Fields of a history sample (R196). -/
def hPos (x : Nat) : Int := sInt 64 x
def hTime (x : Nat) : Nat := tLin (bits x 64 128)
def hSeq (x : Nat) : Nat := bits x 192 32
def hValid (x : Nat) : Bool := x.testBit 224
def hSuspect (x : Nat) : Bool := x.testBit 225
def hGap (x : Nat) : Bool := x.testBit 229
def hEpoch (x : Nat) : Nat := bits x 240 4

/-- The sum of EPOCH_OFS of the n epochs after a, modulo 16 (R198). -/
def Dev.epochSum (d : Dev) (ch a n : Nat) : Int :=
  (List.range n).foldl (fun s i => s + d.rdI Pos.EPOCH_OFS ch ((a + 1 + i) % 16)) 0

/-- Bring a position of an epoch into another (R198, R294): of the two, the older lies further behind the channel's
present epoch. -/
def Dev.inEpoch (d : Dev) (ch : Nat) (v : Int) (a b : Nat) : Int :=
  let age := fun x => (d.posEpoch ch + 16 - x % 16) % 16
  if age a ≤ age b then v + d.epochSum ch b ((a + 16 - b % 16) % 16)
  else v - d.epochSum ch a ((b + 16 - a % 16) % 16)

/-- Round a quotient half away from zero. -/
def roundDiv (n : Int) (m : Nat) : Int :=
  if 0 ≤ n then (2 * n + m) / (2 * m : Nat) else -((2 * (-n) + m) / (2 * m : Nat))

/-- The samples of a channel's ring that are stable (R197). -/
def Dev.histStable (d : Dev) (ch : Nat) : List Nat :=
  ((d.tabs.filter (fun e => e.1 / 2 ^ 24 == tabKey 0x10 ch 0 0 / 2 ^ 24)).map (fun e => d.hist ch (e.1 % 2 ^ 24))).filter
    (fun x => decide (1 ≤ pdiff (d.rd Pos.HIST_SEQ ch) (hSeq x)) && decide (pdiff (d.rd Pos.HIST_SEQ ch) (hSeq x) ≤ 65536))

/-- History lookup (R292, R293): none while the later sample is missing, some none where there is no position, else the
position, its epoch and whether it is suspect. -/
def Dev.posLookup (d : Dev) (ch tc : Nat) (ofs : Int) : Option (Option (Int × Nat × Bool)) :=
  let xs := d.histStable ch
  let pairs := xs.filterMap (fun a =>
    match xs.find? (fun b => hSeq b == (hSeq a + 1) % 2 ^ 32) with
    | some b => if hTime a ≤ tc ∧ tc < hTime b then some (a, b) else none
    | none => none)
  match pairs with
  | [] => if xs.any (fun x => decide (tc < hTime x)) then some none else none
  | [(a, b)] =>
    if !hValid a || !hValid b || hGap b then some none
    else
      let pa := hPos a - d.epochSum ch (hEpoch a) ((hEpoch b + 16 - hEpoch a) % 16)
      let v := pa + roundDiv ((hPos b - pa) * (tc - hTime a : Nat)) (hTime b - hTime a) + ofs
      some (some (v, hEpoch b, hSuspect a || hSuspect b))
  | _ => some none

def Dev.scrCh (d : Dev) (p : Nat) : Nat := d.rd Lcu.SCR_CFG_SCR_CH p
def Dev.scrDir (d : Dev) (p : Nat) : Nat := d.rd Lcu.SCR_CFG_DIR p

/-- The samples a lookup rests on pass their checker (R200). -/
def Dev.lookupCheck (d : Dev) (ch : Nat) : Dev :=
  let lo := tabKey 0x10 ch 0 0
  ((d.bad.filter (fun e => e.1 / 2 ^ 24 == lo / 2 ^ 24)).map (fun e => e.1 % 2 ^ 24)).foldl
    (fun d i => d.histRead ch i) d

def Dev.lineLookup (d : Dev) (p tc : Nat) : Option (Option (Int × Nat × Bool)) :=
  d.posLookup (d.scrCh p) tc (d.rdI Lcu.SCR_OFFSET p)

/-- A distance along DIR. -/
def along (dir : Nat) (v : Int) : Int := if dir = 0 then v else -v

/-- Distance of grid row k from S along DIR (R294, R216). -/
def Dev.gridStep (d : Dev) (p k : Nat) : Nat := k * 256 * d.rd Lcu.GRID_NUM p / d.rd Lcu.GRID_DEN p

/-- G_k of the open segment. -/
def Dev.gridPos (d : Dev) (p k : Nat) : Int := (d.lcu p).g0 + along (d.scrDir p) (d.gridStep p k)

/-- The number of rows short of E (R294). -/
def Dev.gridRows (d : Dev) (p : Nat) (s e : Int) : Nat :=
  cdiv ((along (d.scrDir p) (e - s)).toNat * d.rd Lcu.GRID_DEN p) (256 * d.rd Lcu.GRID_NUM p)

/-! ## Tiles (R300–R303) -/

/-- Byte y of column x of a tile's channel plane. -/
def tileByte (w : Nat) (rows : Array (Array Nat)) (c col y x : Nat) : Nat :=
  if 256 * col + x < w then
    match rows[y]? with
    | some r => min 255 ((r.getD (c * w + 256 * col + x) 0 + 8) / 16)
    | none => 0
  else 0

/-- The payload of R302. -/
def tilePay (w chan : Nat) (rows : Array (Array Nat)) (col : Nat) : List Nat :=
  (List.range chan).flatMap (fun c => (List.range 256).flatMap (fun y =>
    if y < rows.size then (List.range 256).map (fun x => tileByte w rows c col y x) else zeros 256))

/-- The marks of a tile that its record and its tag carry. -/
def flagAny (fs : List Nat) (b : Nat) : Nat := b2n (fs.any (fun f => f.testBit b))

/-- Put one tile record of an LCU into its history region; it answers the sequence (R300, R303, R412). -/
def Dev.tileOut (d : Dev) (p : Nat) (area aborted noPos : Bool) (seg page col row : Nat) (time : Nat) (pos : Int)
    (epoch : Nat) (suspect : Bool) (rows : Array (Array Nat)) (flags : List Nat) (clip valid : Nat) : Dev × Nat :=
  let rg := d.histRegion p
  let seq := d.rd Rgn.WR_SEQ rg
  let w := d.lcuWidth p
  let chan := d.lcuChan p
  let sus := b2n suspect ||| flagAny flags 3
  let tf := 1 + 2 * sus + 4 * flagAny flags 4 + 8 * flagAny flags 1 + 16 * flagAny flags 2 + 32 * b2n area +
    64 * b2n aborted + 128 * b2n noPos
  let hdr := [0x40, tf, p, chan] ++ leBytes 4 (65536 * chan) ++ leBytes 4 seq ++ leBytes 4 seg ++ leBytes 8 page ++
    leBytes 2 col ++ leBytes 2 (min 65535 clip) ++ leBytes 4 row ++ leBytes 16 (tImg time) ++ leBytes 8 (uInt 64 pos) ++
    [posInfoByte (d.scrCh p) epoch (sus == 1), 0] ++ leBytes 2 valid ++ leBytes 2 (min 256 (w - 256 * col)) ++ [0, 0] ++
    (List.range 256).map (fun y => flags.getD y 0) ++ zeros 192
  let d := d.tilePut rg (hdr ++ tilePay w chan rows col)
  (d.addWrap Lcu.TILES_OUT p 1, seq)

/-- The TILE or FRAME item of delivered tiles (R420, R430). -/
def Dev.tileItem (d : Dev) (p typ seg page time : Nat) (pos : Option Int) (epoch : Nat) (sus tsus : Bool) (ref : Nat)
    (seqs : List Nat) : DItem :=
  { typ := typ, port := p, seg := seg, page := page, time := tImg time
    posValid := pos.isSome, pos := match pos with | some v => uInt 64 v | none => 0
    posInfo := posInfoByte (d.scrCh p) epoch sus, posSuspect := sus, timeSuspect := tsus, ref := ref
    body := .tiles (d.histRegion p) seqs }

/-- Write the open tile row (R298, R300, R303) and deliver it under R430. -/
def Dev.tileRow (d : Dev) (p : Nat) (aborted : Bool) : Dev :=
  let h := d.lcu p
  match h.seg, h.rows with
  | some num, first :: _ =>
    let r := (h.k - h.rows.length) / 256
    let rows := (h.rows.map (fun g => g.smp)).toArray
    let g0 := d.gridPos p (256 * r)
    let cols := d.lcuCols p
    let d := (List.range cols).foldl (fun d n =>
      let flags := h.rows.map (fun g => g.flags + 32 * b2n (g.clips.getD n 0 != 0))
      let clip := (h.rows.map (fun g => g.clips.getD n 0)).foldl (· + ·) 0
      let x := d.tileOut p false aborted false num h.page n r first.time g0 h.gEpoch false rows flags clip rows.size
      let sus := flagAny flags 3 == 1
      let tsus := flagAny flags 4 == 1
      let d := x.1.modSeg p num (fun s => { s with
        firstSeq := s.firstSeq <|> some x.2
        tiles := s.tiles ++ [(r, n, x.2)]
        suspect := s.suspect || sus
        tsus := s.tsus || tsus })
      let mode := d.rd De.PORT_DELIV_TILE_MODE 0 p
      d.when (mode == 1 || (mode == 2 && r % d.rd De.PORT_DELIV_TILE_EVERY 0 p == 0)) (fun d =>
        d.push (d.rd De.PORT_DELIV_TILE_Q 0 p)
          (d.tileItem p 0x40 num h.page first.time (some g0) h.gEpoch sus tsus 0xFFFFFFFF [x.2]))) d
    d.setLcu p { d.lcu p with rows := [] }
  | _, _ => d

/-- The LCU is done with its segment. -/
def Dev.lcuSegDone (d : Dev) (p : Nat) : Dev :=
  (d.setLcu p { d.lcu p with seg := none, rows := [] }).wr Lcu.STAT_IN_SEGMENT p 0

/-- The segment that asked for the rewind pass which the LCU is at. -/
def Dev.passSeg (d : Dev) (p : Nat) : Option Nat := (d.lcu p).asks.head?.bind (fun a => a.1)

/-- A segment asks for a rewind pass of n lines; passes follow one another. -/
def Dev.passAsk (d : Dev) (p num n : Nat) : Dev :=
  let h := d.lcu p
  d.setLcu p { h with asks := h.asks ++ [(some num, n)], pass := if h.asks.isEmpty then .wanted n else h.pass }

/-- The pass ends where it stands: RELEASE where its mark is set. -/
def Dev.passDrop (d : Dev) (p : Nat) : Dev :=
  if (d.lcu p).pass.begun then d.qDev p (fun d => d.qRelease p) else d

/-- The segment that asked for a pass is gone: the pass ends, but for lines that have been rewound, which no one takes. -/
def Dev.passStop (d : Dev) (p num : Nat) : Dev :=
  let h := d.lcu p
  if d.passSeg p = some num then
    match h.pass with
    | .reread _ => d.setLcu p { h with asks := (none, 0) :: h.asks.drop 1 }
    | _ => (d.passDrop p).passNext p
  else d.setLcu p { h with asks := h.asks.filter (fun a => a.1 != some num) }

/-- The segment lifecycle ends a segment before its last row: the open tile row is written as it stands (R298); a rewind
pass of it ends. -/
def Dev.lcuCut (d : Dev) (p num : Nat) : Dev :=
  let d := if (d.lcu p).seg = some num then (d.tileRow p true).lcuSegDone p else d
  d.passStop p num

/-- A segment opens at the LCU: its grid is fixed (R294, R376). -/
def Dev.lcuOpen (d : Dev) (p num page : Nat) (s : Int) (rows epoch : Nat) : Dev :=
  let d := d.setLcu p { d.lcu p with
    seg := some num, page := page, k := 0, kMax := rows, g0 := s, gEpoch := epoch, rows := [] }
  (d.wrI Lcu.NEXT_GRID_POS p s).wr Lcu.STAT_IN_SEGMENT p 1

/-- A grid row enters the open tile row (R298, R300). -/
def Dev.emitRow (d : Dev) (p : Nat) (g : GRow) : Dev :=
  let d := d.when (g.flags.testBit 2) (fun d => (d.incSat Lcu.CNT_B_GAP_CNT p).evt 0x0C p Lcu.E_GAP)
  let h := d.lcu p
  let d := d.setLcu p { h with rows := h.rows ++ [g], k := h.k + 1 }
  let d := match h.seg with
    | some num => d.modSeg p num (fun s => { s with times := s.times ++ [g.time] })
    | none => d
  let last := h.k + 1 == h.kMax
  let d := d.when ((h.k + 1) % 256 == 0 || last) (fun d => d.tileRow p false)
  let d := d.wrI Lcu.NEXT_GRID_POS p (d.gridPos p (h.k + 1))
  d.when last (fun d =>
    (match h.seg with
      | some num => d.modSeg p num (fun s => { s with produced := true })
      | none => d).lcuSegDone p)

/-! ## Screed (R295–R298) -/

/-- The row that two lines and a weight form, without its flags. -/
def lerpRow (a b : SLine) (w cols : Nat) (flags : Nat) : GRow :=
  let n := max a.smp.size b.smp.size
  { smp := ((List.range n).map (fun j => (a.smp.getD j 0 * (256 - w) + b.smp.getD j 0 * w + 128) / 256)).toArray
    time := (a.tc * (256 - w) + b.tc * w + 128) / 256
    flags := flags
    clips := (List.range cols).map (fun c =>
      (if w < 256 then a.clipCol cols c else 0) + (if 0 < w then b.clipCol cols c else 0)) }

/-- The rows of the open segment that lie at or behind the line L (R295, R296); how many were made. -/
def Dev.screedRows : Nat → Dev → Nat → SLine → SLine → Nat → Dev × Nat
  | 0, d, _, _, _, made => (d, made)
  | n + 1, d, p, a, b, made =>
    let h := d.lcu p
    let dir := d.scrDir p
    let ua := along dir (d.inEpoch (d.scrCh p) a.pos a.epoch h.gEpoch)
    let ub := along dir (d.inEpoch (d.scrCh p) b.pos b.epoch h.gEpoch)
    let g := along dir (d.gridPos p h.k)
    if h.seg.isNone || decide (h.kMax ≤ h.k) || decide (ub < g) then (d, made)
    else
      let span := (ub - ua).toNat
      let w := if g ≤ ua then 0 else ((256 * (g - ua).toNat + span / 2) / span)
      let rep := decide (g ≤ ua) || h.excl
      let gap := decide (d.rd Lcu.SCR_CFG_GAP_LIMIT p * 256 * d.rd Lcu.GRID_NUM p < span * d.rd Lcu.GRID_DEN p)
      let err := (a.inc && decide (w < 256)) || (b.inc && decide (0 < w))
      let flags := 1 + 2 * b2n rep + 4 * b2n gap + 8 * b2n (a.suspect || b.suspect) + 16 * b2n (a.tsus || b.tsus) +
        64 * b2n err
      Dev.screedRows n (d.emitRow p (lerpRow a b w (d.lcuCols p) flags)) p a b (made + 1)

/-- L becomes prev. -/
def Dev.lcuPrev (d : Dev) (p : Nat) (l : SLine) (made : Nat) : Dev :=
  let d := d.when (made == 0) (fun d => d.incSat Lcu.CNT_D_OUTSIDE_CNT p)
  (d.setLcu p { d.lcu p with prev := some l, excl := false }).wrI Lcu.LAST_LINE_POS p l.pos

/-- START_TIMED of a segment descriptor (R313). -/
def Seg.timed (s : Seg) : Bool := (byteAt s.desc 1).testBit 2

/-- The segment open at the LCU has ended, and the port's next one opens at once (R376). -/
def Dev.nextOpens (d : Dev) (p : Nat) : Bool :=
  (d.lcu p).seg.isNone && match (d.track p).segs.find? (fun s => s.st == .declared) with
    | some s => s.fixed && (!s.timed || s.started)
    | none => false

/-- The segment just opened takes its first rows of the pair of lines that closed the one before it (R298). -/
def Dev.screedTail (d : Dev) (p : Nat) : Dev :=
  let h := d.lcu p
  match h.tail, h.prev with
  | some (a, ex), some b =>
    let x := Dev.screedRows (h.kMax - h.k + 1) (d.setLcu p { h with tail := none, excl := ex }) p a b 0
    x.1.setLcu p { x.1.lcu p with excl := false, tail := if x.1.nextOpens p then some (a, ex) else none }
  | _, _ => d

/-- A positioned line that is not excluded (R295, R296). -/
def Dev.screedLine (d : Dev) (p : Nat) (l : SLine) : Dev :=
  let h := d.lcu p
  match h.prev with
  | none => d.lcuPrev p l 0
  | some a =>
    let ref := if h.seg.isSome then h.gEpoch else l.epoch
    let ua := along (d.scrDir p) (d.inEpoch (d.scrCh p) a.pos a.epoch ref)
    let ub := along (d.scrDir p) (d.inEpoch (d.scrCh p) l.pos l.epoch ref)
    if ub ≤ ua then
      let d := d.incSat Lcu.CNT_B_STILL_CNT p
      d.when (decide (ub < ua) && !d.is Lcu.STAT_HOLD p) (fun d => (d.wr Lcu.STAT_HOLD p 1).evt 0x0C p Lcu.E_HOLD)
    else
      let x := Dev.screedRows (h.kMax - h.k + 1) (d.wr Lcu.STAT_HOLD p 0) p a l 0
      let tail := if h.seg.isSome && x.1.nextOpens p then some (a, h.excl) else none
      (x.1.setLcu p { x.1.lcu p with tail := tail }).lcuPrev p l x.2

/-- SCREED_EN = 0: the line itself becomes the next grid row, marked GAP (R307). -/
def Dev.directLine (d : Dev) (p : Nat) (l : SLine) : Dev :=
  let h := d.lcu p
  if h.seg.isSome && decide (h.k < h.kMax) then
    let flags := 1 + 4 + 8 * b2n l.suspect + 16 * b2n l.tsus + 64 * b2n l.inc
    (d.emitRow p (lerpRow l l 0 (d.lcuCols p) flags)).lcuPrev p l 1
  else d.lcuPrev p l 0

/-! ## The rewind pass (R299, R355) -/

/-- A line was read before the pass: the MARK at the first line at or beyond G_0, and how many are still to come. -/
def Dev.passMark (d : Dev) (p : Nat) (pos : Option (Int × Nat × Bool)) : Dev :=
  let h := d.lcu p
  match h.pass, pos, (d.passSeg p).bind (d.segOf p) with
  | .wanted n, some (v, e, _), some s =>
    if along (d.scrDir p) s.gS ≤ along (d.scrDir p) (d.inEpoch (d.scrCh p) v e s.openEpoch) then
      (d.setLcu p { h with pass := .marked (n - 1), psized := h.sized.drop 1 }).qDev p (fun d => d.qMark p)
    else d
  | .marked n, _, _ => d.setLcu p { h with pass := .marked (n - 1) }
  | _, _, _ => d

/-- REREAD_LINES lines from the marked one have been read: REWIND. -/
def Dev.passTurn (d : Dev) (p : Nat) : Dev :=
  match (d.lcu p).pass with
  | .marked 0 =>
    let stop := (d.queue p).rd
    ((d.setLcu p { d.lcu p with pass := .reread stop }).wr Lcu.STAT_REREADING p 1).qDev p (fun d => d.qRewind p)
  | _ => d

/-- The pass has been delivered: RELEASE. -/
def Dev.passEnd (d : Dev) (p : Nat) : Dev :=
  match (d.lcu p).pass with
  | .reread stop =>
    if (d.queue p).rd = stop then (d.passDrop p).passNext p else d
  | _ => d

/-! ## Lines (R283, R284) -/

/-- Whether a line item is accepted (R284). -/
def Dev.lineOk (d : Dev) (p : Nat) (x : QItem) : Bool :=
  le x.hdr 2 2 == d.rd Lcu.LCU_CFG_FMT_EXP p && bitOf (byteAt x.hdr 1) 2 == d.rd Lcu.LCU_CFG_AREA p &&
    le x.hdr 4 4 == d.lcuWidth p * d.lcuChan p

def Dev.fmtErr (d : Dev) (p : Nat) : Dev := (d.incSat Lcu.CNT_C_FMT_ERR_CNT p).evt 0x0C p Lcu.E_FMT_ERR

/-- The bank and the matrix that wait act at the start of an accepted line (R288, R291). -/
def Dev.lineStart (d : Dev) (p : Nat) : Dev :=
  let d := d.when (d.is Lcu.STAT_BANK_PENDING p) (fun d =>
    ((d.wr Lcu.STAT_BANK_ACTIVE p (1 - d.rd Lcu.STAT_BANK_ACTIVE p)).wr Lcu.STAT_BANK_PENDING p 0).evt 0x0C p
      Lcu.E_BANK_SWITCHED)
  d.when (d.is Lcu.STAT_MTX_PENDING p) (fun d =>
    ((d.setLcu p { d.lcu p with mtx := mtxFlds.map (fun f => d.rd f p) }).wr Lcu.STAT_MTX_PENDING p 0).evt 0x0C p
      Lcu.E_MTX_APPLIED)

/-- Exposure centre in 2^-16 ns (R292). -/
def lineCentre (x : QItem) : Nat := tLin (le x.hdr 16 16) + le x.trl 8 4 * 2048

/-- An item's checker (R175). Where an uncorrectable word lies is not the device's to say: a free value picks one of the item's
words. In the payload it reads as zero and the item carries DATA_ERR; in the header or the trailer the queue is flushed and
nothing is left of the item. -/
def Dev.itemCheck (d : Dev) (p : Nat) (x : QItem) : Dev × Option QItem :=
  let u := d.useBuf 0x0B p Ingest.F_FIFO_SBE Ingest.F_FIFO_DBE
  if u.2 then
    let h := cdiv x.hdr.length 8
    let n := cdiv x.pay.length 8
    let w := u.1.freeVal 24 % max 1 (h + n + cdiv x.trl.length 8)
    let d := u.1.freeUsed
    if h ≤ w ∧ w < h + n then
      let at? := 8 * (w - h)
      (d, some { x with
        pay := x.pay.take at? ++ zeros (min 8 (x.pay.length - at?)) ++ x.pay.drop (at? + 8)
        trl := patch x.trl 0 [byteAt x.trl 0 ||| 8] })
    else (d.qFlush p, none)
  else (u.1, some x)

/-- Stages 2 and 3 of one line item, before its position is known: the sized line enters the buffer it is aligned from. -/
def Dev.lineSized (d : Dev) (p : Nat) (x : QItem) : SLine × Nat :=
  let w := d.lcuWidth p
  let s := d.sizeLine p w (d.lcuChan p) (lineCodes (le x.hdr 2 2) w x.pay)
  let t := byteAt x.trl 0
  ({ num := le x.hdr 8 4, pos := 0, epoch := 0, tc := lineCentre x, smp := s.1, clips := s.2.1, suspect := false,
     tsus := (byteAt x.hdr 1).testBit 4, inc := t.testBit 0 || t.testBit 3 }, s.2.2)

/-- A line of the rewind pass: conditioned again, handed to the engine of the segment that asked only (R299, R355). -/
def Dev.passLine (d : Dev) (p : Nat) (x : QItem) : Dev :=
  let d := d.incSat Lcu.CNT_D_REREAD_CNT p
  if !d.lineOk p x then d
  else
    let h := d.lcu p
    let d := d.sizeCheck p (d.lcuWidth p)
    let s := d.lineSized p x
    let a := d.alignLine p (d.lcuWidth p) s.1 h.psized
    let l := a.1.mtxLine p (d.lcuWidth p) a.2
    let d := a.1.setLcu p { h with psized := (s.1 :: h.psized).take 15 }
    let pos := if (byteAt x.hdr 1).testBit 3 then d.lineLookup p s.1.tc else some none
    match pos, (d.passSeg p).bind (d.segOf p) with
    | some (some (v, e, _)), some s =>
      if l.inc && !d.is Lcu.LCU_CFG_INC_USE p then d
      else d.modEng p s.num (fun g => { g with
        passLines := g.passLines ++ [(d.inEpoch (d.scrCh p) v e s.openEpoch, l.smp)] })
    | _, _ => d

/-- The line's position is decided: it is excluded or goes to Screed (R293, R297). -/
def Dev.lineUse (d : Dev) (p : Nat) (l : SLine) (pos : Option (Int × Nat × Bool)) : Dev :=
  let d := d.lookupCheck (d.scrCh p)
  let d := (d.setLcu p { d.lcu p with tail := none }).passMark p pos
  let drop := l.inc && !d.is Lcu.LCU_CFG_INC_USE p
  let d := d.when drop (fun d => d.incSat Lcu.CNT_A_INC_DROP_CNT p)
  match pos with
  | none =>
    let d := (d.incSat Lcu.CNT_A_NO_POS_CNT p).evt 0x0C p Lcu.E_NO_POS
    d.setLcu p { d.lcu p with excl := true }
  | some (v, e, sus) =>
    if drop then d.setLcu p { d.lcu p with excl := true }
    else
      let u := d.useBuf 0x0C p Lcu.F_BUF_SBE Lcu.F_BUF_DBE
      let l := { l with pos := v, epoch := e, suspect := sus }
      let l := if u.2 then
          { l with inc := true, smp := (zeros (min 4 l.smp.size) ++ l.smp.toList.drop 4).toArray }
        else l
      if d.is Lcu.LCU_CFG_SCREED_EN p then u.1.screedLine p l else u.1.directLine p l

/-- The item at RD_PT is done with; the rewind pass may turn or end (R299). -/
def Dev.lineDone (d : Dev) (p : Nat) (x : QItem) : Dev := ((d.qFinish p x).passTurn p).passEnd p

/-- A line item of AREA = 0 (R283). -/
def Dev.lcuLine (d : Dev) (p : Nat) (x : QItem) : Dev :=
  let d := d.lineStart p
  let w := d.lcuWidth p
  let d := d.sizeCheck p w
  let s := d.lineSized p x
  let d := d.when (s.2 != 0) (fun d => (d.addSat Lcu.CNT_C_SUB_FAIL_CNT p s.2).evt 0x0C p Lcu.E_SUB_FAIL)
  let h := d.lcu p
  let a := d.alignLine p w s.1 h.sized
  let l := a.1.mtxLine p w a.2
  let d := a.1.setLcu p { h with sized := (s.1 :: h.sized).take 15 }
  let d := d.addWrap Lcu.CLIP_CNT p (s.1.clipped + (l.clipped - a.2.clipped))
  match (if (byteAt x.hdr 1).testBit 3 then d.lineLookup p l.tc else some none) with
  | some pos => (d.lineUse p l pos).lineDone p x
  | none => (d.setLcu p { d.lcu p with pend := some l }).wr Lcu.STAT_HIST_WAIT p 1

/-! ## Area frames (R304) -/

/-- The frame's position, if it can be decided now; forced, a missing later sample means none. -/
def Dev.frameDecide (d : Dev) (p : Nat) (f : FrameH) (force : Bool) : FrameH :=
  if f.decided then f
  else match f.tc with
    | none => if force then { f with decided := true } else f
    | some tc =>
      match (if f.timeOk then d.lineLookup p tc else some none) with
      | some (some (v, e, sus)) => { f with decided := true, pos := v, epoch := e, posOk := true, suspect := sus }
      | some none => { f with decided := true }
      | none => if force then { f with decided := true } else f

/-- Write and deliver the tiles of a frame (R304, R430). -/
def Dev.frameOut (d : Dev) (p : Nat) (f : FrameH) (aborted : Bool) : Dev :=
  let time := f.tc.getD f.time
  let cols := cdiv f.cols 256
  let mark := b2n (f.posOk && f.suspect)
  let row := fun y => (mget f.got y (#[], [], 64))
  let x := (List.range (cdiv f.rows 256 * cols)).foldl (fun (a : Dev × List Nat × Bool) q =>
    let r := q / cols
    let n := q % cols
    let ys := (List.range (min 256 (f.rows - 256 * r))).map (fun y => row (256 * r + y))
    let flags := ys.map (fun y => y.2.2 + 8 * mark + 32 * b2n (y.2.1.getD n 0 != 0))
    let clip := (ys.map (fun y => y.2.1.getD n 0)).foldl (· + ·) 0
    let t := a.1.tileOut p true aborted (!f.posOk) f.num 0 n r time f.pos f.epoch (f.posOk && f.suspect)
      (ys.map (fun y => y.1)).toArray flags clip ys.length
    (t.1, a.2.1 ++ [t.2], a.2.2 || flagAny flags 4 == 1)) (d, [], false)
  let d := x.1
  let d := d.when (d.rd De.PORT_DELIV_TILE_MODE 0 p == 3) (fun d =>
    d.push (d.rd De.PORT_DELIV_TILE_Q 0 p)
      (d.tileItem p 0x41 f.num 0 time (if f.posOk then some f.pos else none) f.epoch (f.posOk && f.suspect) x.2.2
        x.2.1.length x.2.1))
  let d := d.when aborted (fun d => d.evt 0x0C p Lcu.E_FRAME_ABORTED)
  (d.setLcu p { d.lcu p with frame := none }).wr Lcu.STAT_FRAME_OPEN p 0

/-- Close the open frame. The second value is false while its position waits for a history sample (R293). -/
def Dev.frameClose (d : Dev) (p : Nat) (aborted force : Bool) : Dev × Bool :=
  match (d.lcu p).frame with
  | none => (d, true)
  | some f =>
    let f := d.frameDecide p f (force || f.tc.isNone)
    if f.decided then ((d.lookupCheck (d.scrCh p)).frameOut p f aborted |>.wr Lcu.STAT_HIST_WAIT p 0, true)
    else (d.wr Lcu.STAT_HIST_WAIT p 1, false)

/-- A FRAME_START or FRAME_END item; force ends a wait for the history. -/
def Dev.lcuFrame (d : Dev) (p : Nat) (x : QItem) (force : Bool) : Dev :=
  if !d.is Lcu.LCU_CFG_AREA p then d.qFinish p x
  else
    let start := byteAt x.hdr 0 == 2
    let c := d.frameClose p (start || (byteAt x.trl 0).testBit 2) force
    if !c.2 then c.1
    else
      let d := c.1
      let f : FrameH :=
        { num := le x.hdr 8 4, cols := le x.hdr 12 2, rows := le x.hdr 14 2, time := tLin (le x.hdr 16 16), tc := none,
          timeOk := false, decided := false, pos := 0, epoch := 0, posOk := false, suspect := false, got := [] }
      let d := if !start then d
        else if le x.hdr 12 2 ≠ d.lcuWidth p then d.fmtErr p
        else (d.setLcu p { d.lcu p with frame := some f }).wr Lcu.STAT_FRAME_OPEN p 1
      d.qFinish p x

/-- A row of an area frame: Sizing and matrix, at its ROW (R304). -/
def Dev.lcuRow (d : Dev) (p : Nat) (x : QItem) : Dev :=
  let d := d.lineStart p
  let w := d.lcuWidth p
  let d := d.sizeCheck p w
  let s := d.lineSized p x
  let d := d.when (s.2 != 0) (fun d => (d.addSat Lcu.CNT_C_SUB_FAIL_CNT p s.2).evt 0x0C p Lcu.E_SUB_FAIL)
  let l := d.mtxLine p w s.1
  let d := d.addWrap Lcu.CLIP_CNT p l.clipped
  let row := le x.hdr 14 2
  let d := match (d.lcu p).frame with
    | none => d
    | some f =>
      if f.rows ≤ row then d
      else
        let u := d.useBuf 0x0C p Lcu.F_BUF_SBE Lcu.F_BUF_DBE
        let smp := if u.2 then (zeros (min 4 l.smp.size) ++ l.smp.toList.drop 4).toArray else l.smp
        let cols := (List.range (cdiv w 256)).map (fun n => l.clipCol (cdiv w 256) n)
        let f := { f with got := mput f.got row (smp, cols, 1 + 16 * b2n l.tsus + 64 * b2n (l.inc || u.2)) }
        let f := if row = 0 then { f with tc := some l.tc, timeOk := (byteAt x.hdr 1).testBit 3 } else f
        u.1.setLcu p { u.1.lcu p with frame := some f }
  d.qFinish p x

/-! ## The LCU reads an item (R283) -/

/-- One item. -/
def Dev.lcuTake (d : Dev) (p : Nat) (x : QItem) (force : Bool) : Dev :=
  let c := d.itemCheck p x
  let d := c.1
  match c.2, byteAt x.hdr 0, (d.lcu p).pass with
  | none, _, _ => d
  | some x, 1, .reread _ => (d.passLine p x).lineDone p x
  | some x, 1, _ =>
    let d := d.addWrap Lcu.LINES_IN p 1
    if !d.lineOk p x then (d.fmtErr p).lineDone p x
    else if d.is Lcu.LCU_CFG_AREA p then d.lcuRow p x
    else d.lcuLine p x
  | some x, _, _ => d.lcuFrame p x force

/-- The LCU runs: enabled, its island on (R38, R48). -/
def Dev.lcuRuns (d : Dev) (p : Nat) : Bool := d.enabled 0x0C p && !d.silent 0x0C p

/-- The item the LCU reads; the idle item while port ingest is off (R175). -/
def Dev.lcuItem (d : Dev) (p : Nat) : Option QItem := if d.enabled 0x0B p then d.itemAtRd p else none

/-- The LCU reads its next item: nothing while a line waits for its history sample, or while the item is not complete;
the idle item where there is none, and an area frame left open at port down closes there (R304). A parity error in a
pointer flushes the queue, and all four pointers are the producer's next unit (R175). -/
def Dev.lcuRead (d : Dev) (p : Nat) : Dev :=
  if !d.lcuRuns p || (d.lcu p).pend.isSome then d
  else if d.enabled 0x0B p && d.armed 0x0B p Ingest.F_PTR_ERR then
    let d := ((d.disarm 0x0B p Ingest.F_PTR_ERR).flt 0x0B p Ingest.F_PTR_ERR).qFlush p
    d.setQueue p { d.queue p with mark := (d.queue p).wr }
  else match d.lcuItem p with
    | some x => if x.done then d.lcuTake p x false else d
    | none =>
      let d := d.when (!d.is Port.STAT_LINK_UP p) (fun d => (d.frameClose p true true).1)
      d.qIdle p

def execLineItem (port : Fin 16) (s : State) : Host.Outcome State Fault Refusal := s.updR (fun _ d => d.lcuRead port)

/-- What waits for a history sample is looked at again; force: the wait is over (R293). -/
def Dev.lcuRetry (d : Dev) (p : Nat) (force : Bool) : Dev :=
  if !d.lcuRuns p || !d.is Lcu.STAT_HIST_WAIT p then d
  else match (d.lcu p).pend, d.lcuItem p with
    | some l, some x =>
      let r := match d.lineLookup p l.tc with
        | some pos => some pos
        | none => if force then some none else none
      match r with
      | some pos =>
        let d := (d.setLcu p { d.lcu p with pend := none }).wr Lcu.STAT_HIST_WAIT p 0
        (d.lineUse p l pos).lineDone p x
      | none => d
    | none, some x => d.lcuTake p x force
    | _, _ => d

def execHistWaitExpiry (lcu : Fin 16) (s : State) : Host.Outcome State Fault Refusal :=
  s.updR (fun _ d => d.lcuRetry lcu true)

/-- A history sample; the LCUs that wait for one of this channel go on (R195, R293). -/
def execHistSample (ch : Fin 8) (s : State) : Host.Outcome State Fault Refusal :=
  s.updR (fun _ d => (List.range 16).foldl (fun d p => d.when (d.scrCh p == ch.val) (fun d => d.lcuRetry p false))
    (d.histSample ch))

/-! ## Commands and enable (R288, R291, R305, R306) -/

/-- One LCU_CMD write. -/
def Dev.lcuCmd (d : Dev) (p v : Nat) : Dev :=
  let d := d.when (v.testBit 2) (fun d => d.clearAll [Lcu.CLIP_CNT, Lcu.CNT_A_NO_POS_CNT, Lcu.CNT_A_INC_DROP_CNT,
    Lcu.CNT_B_STILL_CNT, Lcu.CNT_B_GAP_CNT, Lcu.CNT_C_FMT_ERR_CNT, Lcu.CNT_C_SUB_FAIL_CNT, Lcu.CNT_D_OUTSIDE_CNT,
    Lcu.CNT_D_REREAD_CNT] p)
  let d := d.when (v.testBit 1) (fun d => d.wr Lcu.STAT_MTX_PENDING p 1)
  d.when (v.testBit 0) (fun d =>
    if d.is Lcu.STAT_BANK_PENDING p then d.badAccess 0x0C p else d.wr Lcu.STAT_BANK_PENDING p 1)

def execBankSwitch (req : Req) (lcu : Fin 16) (s : State) : Host.Outcome State Fault Refusal :=
  s.upd (fun d => d.busW req.num 0x0C lcu (fun d => d.lcuCmd lcu 1))

def execMtxCommit (req : Req) (lcu : Fin 16) (s : State) : Host.Outcome State Fault Refusal :=
  s.upd (fun d => d.busW req.num 0x0C lcu (fun d => d.lcuCmd lcu 2))

/-- Whether an LCU may be enabled (R305, R408); GRID_DEN = 0 leaves no grid. -/
def Dev.lcuMayEnable (d : Dev) (p : Nat) : Bool :=
  let rg := d.histRegion p
  let fmt := d.rd Lcu.LCU_CFG_FMT_EXP p
  d.holds .hbm rg 0x0C p && d.rgnFit rg 1 (some (fmtChan fmt)) &&
    decide (d.rd Lcu.GRID_DEN p ≤ 256 * d.rd Lcu.GRID_NUM p) && d.rd Lcu.GRID_DEN p != 0 &&
    decide (1 ≤ d.lcuWidth p) && decide (d.lcuWidth p ≤ 32768) && (fmt == 1 || fmt == 3 || fmt == 0x13)

/-- EN rises: no previous line, no line to align from, no segment and no frame open; the tile ring restarts (R289, R412). -/
def Dev.lcuEnable (d : Dev) (p : Nat) : Dev :=
  let d := d.passDrop p
  let d := d.clearAll [Lcu.STAT_IN_SEGMENT, Lcu.STAT_HOLD, Lcu.STAT_HIST_WAIT, Lcu.STAT_FRAME_OPEN, Lcu.STAT_REREADING] p
  (d.setLcu p { (default : LcuH) with mtx := (d.lcu p).mtx }).ringRestart (d.histRegion p)

/-- A soft reset of the LCU discards the rows of the open tile row, before its segments are cut (R306). -/
def Dev.lcuDiscard (d : Dev) (p : Nat) : Dev := d.setLcu p { d.lcu p with rows := [] }

/-- What a soft reset discards and keeps below the registers (R306): BANK_ACTIVE and the matrix in use stay. -/
def Dev.lcuReset (d : Dev) (p : Nat) : Dev :=
  let d := d.passDrop p
  d.setLcu p { (default : LcuH) with mtx := (d.lcu p).mtx }

end Sys2Proof.Machine
end

