-- ==== Sys2Proof/Machine/Primer.lean ====
section
/-!
DEFINITION. Reference rasters: Thoken planes (R316–R322), reference areas (R318, R319), Primer profiles and the Primer
model (R323–R332).
-/

namespace Sys2Proof.Machine

/-! ## Thoken (R320, R321) -/

/-- Bit p of a stream; beyond its bytes 0. -/
def tkBit (b : Array Nat) (p : Nat) : Nat := bitOf (b.getD (p / 8) 0) (p % 8)

/-- A field of n bits, first bit most significant. -/
def tkBits (b : Array Nat) (p n : Nat) : Nat := (List.range n).foldl (fun a i => 2 * a + tkBit b (p + i)) 0

/-- Zero bits before a 1 bit, at most 8. -/
def tkZeros (b : Array Nat) (p : Nat) : Option Nat := (List.range 9).find? (fun z => tkBit b (p + z) == 1)

/-- Runs from pixel x on: the row's pixels and the position behind it. -/
def tkRuns (b : Array Nat) (bpp : Nat) (xref : Bool) (up : Array Nat) : Nat → Nat → Nat → Array Nat →
    Option (Array Nat × Nat)
  | 0, _, _, _ => none
  | n + 1, x, p, row =>
    if 256 ≤ x then some (row, p)
    else
      let val := tkBits b p bpp
      match tkZeros b (p + bpp) with
      | none => none
      | some z =>
        let len := 2 ^ z + tkBits b (p + bpp + z + 1) z
        if 256 < x + len then none
        else
          let px := fun i => if xref then val ^^^ up.getD (x + i) 0 else val
          tkRuns b bpp xref up n (x + len) (p + bpp + z + 1 + z) (row ++ ((List.range len).map px).toArray)

/-- One row of a plane of n bytes. -/
def tkRow (b : Array Nat) (bpp p : Nat) (up : Array Nat) : Option (Array Nat × Nat) :=
  let r := match tkBits b p 2 with
    | 0 => some ((List.replicate 256 0).toArray, p + 2)
    | 1 => some (up, p + 2)
    | 3 => some (((List.range 256).map (fun x => tkBits b (p + 2 + x * bpp) bpp)).toArray, p + 2 + 256 * bpp)
    | _ => tkRuns b bpp (tkBit b (p + 2) == 1) up 257 0 (p + 3) #[]
  r.filter (fun x => decide (x.2 ≤ 8 * b.size))

/-- n rows: the pixels in order of rows and the position behind them. -/
def tkRows (b : Array Nat) (bpp : Nat) : Nat → Nat → Array Nat → Array Nat → Option (Array Nat × Nat)
  | 0, p, _, acc => some (acc, p)
  | n + 1, p, up, acc =>
    match tkRow b bpp p up with
    | none => none
    | some (row, q) => tkRows b bpp n q row (acc ++ row)

/-- A Thoken plane: its 65,536 pixels where it is valid (R321). -/
def thoken (bpp : Nat) (bs : List Nat) : Option (Array Nat) :=
  let b := bs.toArray
  match tkRows b bpp 256 0 (List.replicate 256 0).toArray #[] with
  | none => none
  | some (px, p) =>
    if b.size = cdiv p 8 ∧ (List.range (8 * b.size - p)).all (fun i => tkBit b (p + i) == 0) then some px else none

/-- A raw plane (R316). -/
def rawPlane (bpp : Nat) (bs : List Nat) : Array Nat :=
  let b := bs.toArray
  ((List.range 65536).map (fun i =>
    let x := i % 256
    bits (b.getD (i / 256 * 32 * bpp + x * bpp / 8) 0) (x * bpp % 8) bpp)).toArray

/-! ## Reference tile records (R317) -/

/-- BYTES and THOKEN of plane k of a record. -/
def planeBytes (rec : List Nat) (k : Nat) : Nat := le rec (16 + 4 * k) 3
def planeThoken (rec : List Nat) (k : Nat) : Bool := (byteAt rec (19 + 4 * k)).testBit 7

/-- Bytes of a plane with its padding. -/
def planePad (rec : List Nat) (k : Nat) : Nat := cdiv (planeBytes rec k) 8 * 8

/-- Offset of a plane in the record. -/
def planeOfs (rec : List Nat) (k : Nat) : Nat := 64 + (List.range k).foldl (fun a j => a + planePad rec j) 0

/-- The stream of a plane. -/
def planeData (rec : List Nat) (k : Nat) : List Nat := (rec.drop (planeOfs rec k)).take (planeBytes rec k)

/-- The pixels of a plane. -/
def planePixels (bpp : Nat) (rec : List Nat) (k : Nat) : Array Nat :=
  if planeThoken rec k then (thoken bpp (planeData rec k)).getD #[] else rawPlane bpp (planeData rec k)

/-! ## Areas (R318, R319) -/

def Dev.area (d : Dev) (a : Nat) : AreaH := mget d.areas a default
def Dev.setArea (d : Dev) (a : Nat) (x : AreaH) : Dev := { d with areas := mset d.areas a x default }

/-- The area of a port. -/
def Dev.areaOf (d : Dev) (p : Nat) : Option Nat :=
  if d.is Ri.RA_SEL_SEL_EN 0 p then some (d.rd Ri.RA_SEL_AREA 0 p) else none

/-- First byte and bytes of an area's ring. -/
def Dev.areaBase (d : Dev) (a : Nat) : Nat := d.rgnBase (d.rd Ri.RA_BASE_REGION 0 a) + d.rd Ri.RA_BASE_OFFSET 0 a * 4096
def Dev.areaBytes (d : Dev) (a : Nat) : Nat := d.rd Ri.RA_SIZE_SIZE 0 a * 4096

/-- Bytes of the ring in use. -/
def AreaH.used (x : AreaH) : Nat := x.tiles.foldl (fun n t => n + t.size) 0

/-- USED and LOADING follow the area. -/
def Dev.showArea (d : Dev) (a : Nat) : Dev :=
  let x := d.area a
  (d.wr Ri.RA_USED_USED 0 (cdiv x.used 4096) a).wrb Ri.RA_STAT_LOADING 0 x.loading.isSome a

/-- The parts of the ring that n bytes from an offset take: address and length. -/
def Dev.ringSpans (d : Dev) (a ofs n : Nat) : List (Nat × Nat) :=
  let size := d.areaBytes a
  let base := d.areaBase a
  if ofs + n ≤ size then [(base + ofs, n)] else [(base + ofs, size - ofs), (base, n - (size - ofs))]

/-- A segment of a port has not ended. -/
def Dev.segLive (d : Dev) (p num : Nat) : Bool :=
  (d.track p).segs.any (fun s => s.num == num && match s.st with | .cut _ => false | _ => true)

/-- The ports of a mask. -/
def maskPorts (mask : Nat) : List Nat := (List.range 16).filter (fun p => mask.testBit p)

/-- Tiles of ended segments leave the ring, oldest first (R319). -/
def Dev.areaFree (d : Dev) (a : Nat) : Dev :=
  let x := d.area a
  (d.setArea a { x with
    tiles := x.tiles.dropWhile (fun t => (maskPorts t.mask).all (fun p => !d.segLive p t.seg)) }).showArea a

/-- A segment of a port has ended: an area that was loading it abandons it, and space becomes free (R318, R319). -/
def Dev.areaEnded (d : Dev) (p num : Nat) : Dev :=
  (List.range 16).foldl (fun d a =>
    let x := d.area a
    let d := match x.loading with
      | some (s, mask) =>
        if s = num ∧ mask.testBit p then
          let d := (d.setArea a { x with loading := none }).wr Ri.RA_STAT_NEXT_COL 0 0 a
          (d.wr Ri.RA_STAT_NEXT_ROW 0 0 a).evt 0x0E 0 Ri.E_LOAD_ABANDONED
        else d
      | none => d
    if (d.area a).tiles = [] then d.showArea a else d.areaFree a) d

/-- The accepted tile of a segment's raster that a port sees. -/
def Dev.refTile (d : Dev) (p num col row : Nat) : Option RefTile :=
  match d.areaOf p with
  | none => none
  | some a => (d.area a).tiles.find? (fun t => t.seg == num && t.mask.testBit p && t.col == col && t.row == row)

/-! ## Profiles (R323–R325) -/

/-- First byte of a profile's slot. -/
def Dev.profByte (d : Dev) (n : Nat) : Nat :=
  d.rgnBase (d.rd Ri.PROF_BASE_REGION 0) + d.rd Ri.PROF_BASE_OFFSET 0 * 4096 + n * 32768

def profBytes : Nat := 26952

def Dev.profValid (d : Dev) (n : Nat) : Bool := (d.rd Ri.PROF_VALID 0).testBit n

/-- CHAN and DOM of a profile, from its slot. -/
def profChan (b : Array Nat) : Nat := b.getD 3 0
def profDom (b : Array Nat) (a : Nat) : Nat := b.getD (8 + a) 0

/-- Little-endian 16 bits of an array. -/
def half (b : Array Nat) (o : Nat) : Nat := b.getD o 0 % 256 + b.getD (o + 1) 0 % 256 * 256

/-- The conditions of R324. -/
def profOk (b : Array Nat) : Bool :=
  let ink := fun k => 64 + 80 * k
  let kern := fun o => (List.range 9).foldl (fun s t => s + half b (o + 2 * t)) 0
  let doms := ((List.range 4).map (profDom b)).filter (fun x => x != 0xFF)
  (List.range 8).all (fun k =>
    (List.range 16).all (fun i => decide (half b (ink k + 2 * i) ≤ 1024)) &&
    (List.range 3).all (fun i => decide (half b (ink k + 68 + 2 * i) ≤ 32768)) &&
    kern (ink k + 32) == 32768 && kern (ink k + 50) == 32768) &&
  doms.all (fun x => decide (x < 8)) && decide (doms.eraseDups.length = doms.length) &&
  (profChan b == 1 || profChan b == 3)

/-! ## The Primer model (R327–R332) -/

/-- What a prediction is rendered from: raster size, inks, profile, the tiles read with their planes. -/
structure Ref where
  w : Nat
  lines : Nat
  nInk : Nat
  prof : Array Nat
  tiles : List (Nat × Nat × Array (Array Nat))

/-- Coverage of ink k at a raster pixel (R327). -/
def Ref.cov (r : Ref) (k : Nat) (m j : Int) : Nat :=
  if 0 ≤ m ∧ m < r.w ∧ 0 ≤ j ∧ j < r.lines then
    let x := m.toNat
    let y := j.toNat
    match r.tiles.find? (fun t => t.1 == x / 256 && t.2.1 == y / 256) with
    | some t => half r.prof (64 + 80 * k + 2 * ((t.2.2.getD k #[]).getD (y % 256 * 256 + x % 256) 0))
    | none => 0
  else 0

/-- Cross-web blur. -/
def Ref.blurH (r : Ref) (k : Nat) (m j : Int) : Nat :=
  ((List.range 9).foldl (fun s t => s + half r.prof (64 + 80 * k + 32 + 2 * t) * r.cov k (m + t - 4) j) 0 + 16384) / 32768

/-- Down-web blur. -/
def Ref.blur (r : Ref) (k : Nat) (m j : Int) : Nat :=
  ((List.range 9).foldl (fun s t => s + half r.prof (64 + 80 * k + 50 + 2 * t) * r.blurH k m (j + t - 4)) 0 + 16384) /
    32768

/-- Raster coordinates of a grid point (R328); terms UX, UY, VX, VY, U0, V0. -/
def rasterAt (terms : List Int) (x k : Int) : Int × Int :=
  let t := fun i => terms.getD i 0
  (t 4 + (t 0 * x + t 1 * k + 0x8000) / 65536, t 5 + (t 2 * x + t 3 * k + 0x8000) / 65536)

/-- Sampled coverage of an ink at raster coordinates (R329). -/
def Ref.sample (r : Ref) (k : Nat) (u v : Int) : Nat :=
  let mu := u / 256
  let fu := (u / 16 % 16).toNat
  let mv := v / 256
  let fv := (v / 16 % 16).toNat
  (r.blur k mu mv * (16 - fu) * (16 - fv) + r.blur k (mu + 1) mv * fu * (16 - fv) +
    r.blur k mu (mv + 1) * (16 - fu) * fv + r.blur k (mu + 1) (mv + 1) * fu * fv + 128) / 256

/-- Insert an axis before the first with a smaller fraction: the stable order of R330, largest fraction first. -/
def axisIns (f : Nat → Nat) (a : Nat) : List Nat → List Nat
  | [] => [a]
  | x :: xs => if f x < f a then a :: x :: xs else x :: axisIns f a xs

/-- The Appearance table over the simplex of a point (R330). -/
def Ref.appear (r : Ref) (b : List Nat) (ch : Nat) : Nat :=
  let at? := fun a => let x := b.getD a 0; if x / 128 = 8 then (7, 128) else (x / 128, x % 128)
  let idx := fun a => (at? a).1
  let f := fun a => (at? a).2
  let stride := [1, 9, 81, 729]
  let s := (List.range 4).foldl (fun o a => axisIns f a o) []
  let node := fun n => bits (half r.prof (704 + 4 * n) + half r.prof (706 + 4 * n) * 65536) (10 * ch) 10
  let n0 := idx 0 + 9 * idx 1 + 81 * idx 2 + 729 * idx 3
  let acc0 := (128 - f (s.getD 0 0)) * node n0
  let out := (List.range 4).foldl (fun (a : Nat × Nat) i =>
    let n := a.1 + stride.getD (s.getD i 0) 0
    let w := f (s.getD i 0) - (if i < 3 then f (s.getD (i + 1) 0) else 0)
    (n, a.2 + w * node n)) (n0, acc0)
  (out.2 + 64) / 128

/-- The prediction of one channel at a grid point (R331, R332). -/
def Ref.pred (r : Ref) (terms : List Int) (ch : Nat) (x k : Int) : Nat :=
  let uv := rasterAt terms x k
  let dom := (List.range 4).map (profDom r.prof)
  let b := dom.map (fun ink => if ink < r.nInk then r.sample ink uv.1 uv.2 else 0)
  ((List.range r.nInk).filter (fun k => !dom.contains k)).foldl (fun p ink =>
    let tr := half r.prof (64 + 80 * ink + 68 + 2 * ch)
    let f := 32768 - (r.sample ink uv.1 uv.2 * (32768 - tr) + 512) / 1024
    (p * f + 16384) / 32768) (r.appear b ch)

/-- A correlation channel of a triple (R337). -/
def corrOf (chan sel : Nat) (v : Nat → Nat) : Nat :=
  if chan = 1 then v 0
  else if sel = 3 then (v 0 + 2 * v 1 + v 2 + 2) / 4
  else v sel

/-- Channel sel of the prediction at a point. -/
def Ref.predSel (r : Ref) (terms : List Int) (sel : Nat) (x k : Int) : Nat :=
  corrOf (profChan r.prof) sel (fun c => r.pred terms c x k)

end Sys2Proof.Machine
end

