-- ==== Sys2Proof/Machine/Real.lean ====
section
/-!
DEFINITION. IEEE 754 binary64 as R339 uses it: rational values rounded to 53 significant bits, ties to even; the square
root; rounding half away from zero.
The log's entry 46 of notes/assumptions names what is DEDUCED or a DESIGN CHOICE here, and marks each.
-/

namespace Sys2Proof.Machine

/-- Numerator and denominator of |r| / 2^e. -/
def scaled (r : Rat) (e : Int) : Nat × Nat :=
  if 0 ≤ e then (r.num.natAbs, r.den * 2 ^ e.toNat) else (r.num.natAbs * 2 ^ (-e).toNat, r.den)

/-- A quotient of naturals rounded to the nearest, ties to even. -/
def nearEven (n m : Nat) : Nat :=
  let q := n / m
  if 2 * (n % m) < m then q else if m < 2 * (n % m) then q + 1 else q + q % 2

/-- The nearest binary64 value. -/
def f64 (r : Rat) : Rat :=
  if r = 0 then 0
  else
    let e0 : Int := (Nat.log2 r.num.natAbs : Int) - Nat.log2 r.den - 52
    let s := scaled r e0
    let e := if s.1 < s.2 * 2 ^ 52 then e0 - 1 else e0
    let t := scaled r e
    let q := nearEven t.1 t.2
    let v : Rat := if 0 ≤ e then ((q * 2 ^ e.toNat : Nat) : Rat) else mkRat q (2 ^ (-e).toNat)
    if r < 0 then -v else v

/-- Integer square root, bit by bit. -/
def isqrtBits : Nat → Nat → Nat → Nat
  | 0, n, a => if (a + 1) * (a + 1) ≤ n then a + 1 else a
  | i + 1, n, a => if (a + 2 ^ (i + 1)) * (a + 2 ^ (i + 1)) ≤ n then isqrtBits i n (a + 2 ^ (i + 1)) else isqrtBits i n a

def isqrt (n : Nat) : Nat := isqrtBits (Nat.log2 n / 2 + 1) n 0

/-- The nearest binary64 value to the root of a value that is not negative. -/
def sqrt64 (r : Rat) : Rat :=
  if r ≤ 0 then 0
  else
    let k := 60 + Nat.log2 r.den
    let n := r.num.natAbs * 4 ^ k
    let q := isqrt (n / r.den)
    if q * q * r.den = n then f64 (mkRat q (2 ^ k)) else f64 (mkRat (2 * q + 1) (2 ^ (k + 1)))

/-- To the nearest integer, half away from zero. -/
def roundHA (r : Rat) : Int := if 0 ≤ r then (r + 1 / 2).floor else -((-r + 1 / 2).floor)

/-- |r|. -/
def absR (r : Rat) : Rat := if r < 0 then -r else r

end Sys2Proof.Machine
end

