-- ==== Sys2Proof/Machine/Keying.lean ====
section
/-!
DEFINITION. Segment descriptors as engines and tracker read them (R313), tiles read back from the history ring (R340),
normalised cross-correlation (R339), Keying (R347–R354), the line pass (R355, R356), register measurements (R369).
The log's entries 45 and 46 of notes/assumptions name what is DEDUCED or a DESIGN CHOICE here, and marks each.
-/

namespace Sys2Proof.Machine

/-! ## Descriptor fields (R313) -/

def Seg.ch (s : Seg) : Nat := bits (byteAt s.desc 3) 0 3
def Seg.dir (s : Seg) : Nat := bitOf (byteAt s.desc 3) 3
def Seg.carryReg (s : Seg) : Bool := (byteAt s.desc 1).testBit 1
def Seg.pageId (s : Seg) : Nat := le s.desc 8 8
def Seg.refWidth (s : Seg) : Nat := le s.desc 44 4
def Seg.refLines (s : Seg) : Nat := le s.desc 48 4
def Seg.nInk (s : Seg) : Nat := byteAt s.desc 52
def Seg.bpp (s : Seg) : Nat := byteAt s.desc 53
def Seg.profile (s : Seg) : Nat := byteAt s.desc 54
def Seg.check (s : Seg) (b : Nat) : Bool := (byteAt s.desc 55).testBit b
def Seg.maskId (s : Seg) : Nat := le s.desc 56 2
def Seg.fidId (s : Seg) : Nat := le s.desc 58 2
def Seg.patchId (s : Seg) : Nat := le s.desc 60 2

/-- UX, UY, VX, VY, U0, V0. -/
def descTerms (desc : List Nat) : List Int := (List.range 6).map (fun i => sInt 32 (le desc (64 + 4 * i) 4))

/-- The sampling terms of R314, in units of 2^-24. -/
def scaleOk (t : List Int) : Bool :=
  let a := fun i => (t.getD i 0).natAbs
  decide (2 ^ 22 ≤ a 0) && decide (a 0 ≤ 2 ^ 25) && decide (2 ^ 22 ≤ a 3) && decide (a 3 ≤ 2 ^ 25) &&
    decide (a 0 * a 3 ≤ 2 ^ 50) && decide (a 1 ≤ 2 ^ 20) && decide (a 2 ≤ 2 ^ 20)

def Dev.ce (d : Dev) (e : Nat) : CeH := mget d.ces e default
def Dev.setCe (d : Dev) (e : Nat) (x : CeH) : Dev := { d with ces := mset d.ces e x default }

/-! ## Tiles as an engine reads them (R303, R340, R405, R413) -/

/-- A row of a tile that Keying, Float and comparison use (R340). -/
def rowUsable (f : Nat) : Bool := f.testBit 0 && !f.testBit 2 && !f.testBit 6

/-- Read a tile from the history ring: a reused slot has no usable row, a poisoned word reads 0 and its rows count as
DATA_ERR. -/
def Dev.tileRead (m : FrameStore) (d : Dev) (p row col seq : Nat) : Dev × TileImg :=
  let rg := d.histRegion p
  if !d.enabled 0x19 rg || !d.slotStable rg seq then (d, { row := row, col := col, flags := zeros 256, cols := 0, dat := #[] })
  else
    let a := d.slotByte rg seq
    let n := d.rgnStride rg
    let rec? := m.clean a n
    let bad := (m.poisoned a n).map (fun w => 8 * w - a)
    let touched := fun y => bad.any (fun o => decide (512 ≤ o) && (o - 512) / 256 % 256 == y)
    let flags := (List.range 256).map (fun y =>
      let f := byteAt rec? (64 + y)
      if touched y then f ||| 64 else f)
    (d.hbmMet m a n, { row := row, col := col, flags := flags, cols := le rec? 60 2, dat := (rec?.drop 512).toArray })

/-- The image that holds a pixel. -/
def imgAt (imgs : List TileImg) (x k : Int) : Option TileImg :=
  if x < 0 ∨ k < 0 then none
  else imgs.find? (fun t => t.col == x.toNat / 256 && t.row == k.toNat / 256)

/-- Whether a camera pixel enters Keying, Float and comparison (R340). -/
def camOk (imgs : List TileImg) (x k : Int) : Bool :=
  match imgAt imgs x k with
  | some t => rowUsable (t.flags.getD (k.toNat % 256) 0) && decide (x.toNat % 256 < t.cols)
  | none => false

/-- Camera channel c at a pixel, in 1/4 code (R337). -/
def cam (imgs : List TileImg) (c : Nat) (x k : Int) : Nat :=
  match imgAt imgs x k with
  | some t => 4 * t.dat.getD (c * 65536 + k.toNat % 256 * 256 + x.toNat % 256) 0
  | none => 0

def camSel (imgs : List TileImg) (chan sel : Nat) (x k : Int) : Nat := corrOf chan sel (fun c => cam imgs c x k)

/-! ## Reference tiles of a span (R333) -/

/-- Tile columns and rows of the raster that the predictions at columns x0 to x1 and rows k0 to k1 ask for, the blur's
reach included (R327, R329). -/
def refSpan (s : Seg) (terms : List Int) (x0 x1 k0 k1 : Int) : List (Nat × Nat) :=
  let pts := [rasterAt terms x0 k0, rasterAt terms x1 k0, rasterAt terms x0 k1, rasterAt terms x1 k1]
  let span := fun (vs : List Int) (n : Nat) =>
    let lo := vs.foldl min (vs.getD 0 0) / 256 - 4
    let hi := vs.foldl max (vs.getD 0 0) / 256 + 5
    if hi < 0 ∨ (n : Int) ≤ lo then []
    else
      let a := (max 0 lo).toNat / 256
      let b := (min (n - 1 : Int) hi).toNat / 256
      (List.range (b + 1 - a)).map (fun i => a + i)
  let cols := span (pts.map (fun p => p.1)) s.refWidth
  let rows := span (pts.map (fun p => p.2)) s.refLines
  rows.flatMap (fun r => cols.map (fun c => (c, r)))

/-- All of them are accepted. -/
def Dev.refReady (d : Dev) (p : Nat) (s : Seg) (need : List (Nat × Nat)) : Bool :=
  need.all (fun t => (d.refTile p s.num t.1 t.2).isSome)

/-- Ring bytes of one accepted tile. -/
def Dev.refBytes (m : FrameStore) (d : Dev) (p : Nat) (t : RefTile) : List Nat :=
  match d.areaOf p with
  | some a => (d.ringSpans a t.addr t.size).flatMap (fun x => m.clean x.1 x.2)
  | none => []

/-- Read the reference tiles of a span; false where one holds an uncorrectable word (R333). -/
def Dev.refRead (m : FrameStore) (d : Dev) (p : Nat) (s : Seg) (prof : Array Nat) (need : List (Nat × Nat)) :
    Dev × Bool × Ref :=
  let ts := need.filterMap (fun t => d.refTile p s.num t.1 t.2)
  let spans : List (Nat × Nat) := match d.areaOf p with
    | some a => ts.flatMap (fun (t : RefTile) => d.ringSpans a t.addr t.size)
    | none => []
  let bad := spans.any (fun x => !(m.poisoned x.1 x.2).isEmpty)
  let d := spans.foldl (fun d x => d.hbmMet m x.1 x.2) d
  (d, !bad,
    { w := s.refWidth, lines := s.refLines, nInk := s.nInk, prof := prof
      tiles := ts.map (fun t =>
        let rec? := d.refBytes m p t
        (t.col, t.row, ((List.range s.nInk).map (fun k => planePixels s.bpp rec? k)).toArray)) })

/-! ## NCC (R339) -/

/-- Exact sums over pairs: N, Σa, Σb, Σa², Σb², Σab. -/
structure Sums where
  n : Nat
  a : Nat
  b : Nat
  aa : Nat
  bb : Nat
  ab : Nat

def Sums.add (s : Sums) (a b : Nat) : Sums := ⟨s.n + 1, s.a + a, s.b + b, s.aa + a * a, s.bb + b * b, s.ab + a * b⟩

/-- NCC over the pairs of a list of points. -/
def sumsOver {α : Type} (pts : List α) (pair : α → Option (Nat × Nat)) : Sums :=
  pts.foldl (fun s x => match pair x with | some (a, b) => s.add a b | none => s) ⟨0, 0, 0, 0, 0, 0⟩

def Sums.varA (s : Sums) : Int := (s.n * s.aa : Nat) - (s.a * s.a : Nat)
def Sums.varB (s : Sums) : Int := (s.n * s.bb : Nat) - (s.b * s.b : Nat)

def Sums.ncc (s : Sums) : Rat :=
  if s.varA = 0 ∨ s.varB = 0 then 0
  else f64 (f64 (((s.n * s.ab : Nat) - (s.a * s.b : Nat) : Int) : Rat) /
    sqrt64 (f64 (f64 (s.varA : Rat) * f64 (s.varB : Rat))))

/-- Which of two shifts with their NCC is the better (R339). -/
def better (p q : (Int × Int) × Rat) : Bool :=
  let size := fun (s : Int × Int) => s.1.natAbs + s.2.natAbs
  if p.2 ≠ q.2 then decide (q.2 < p.2)
  else if size p.1 ≠ size q.1 then decide (size p.1 < size q.1)
  else if p.1.2 ≠ q.1.2 then decide (p.1.2 < q.1.2)
  else decide (p.1.1 < q.1.1)

/-- The best shift. -/
def bestShift : List ((Int × Int) × Rat) → Option ((Int × Int) × Rat)
  | [] => none
  | x :: xs => match bestShift xs with
    | none => some x
    | some y => if better y x then some y else some x

/-- Refinement on one axis (R339). -/
def refine (s : Int) (cm c0 cp : Rat) : Int :=
  let den := f64 (cm - 2 * c0 + cp)
  let f := if den < 0 then f64 ((cm - cp) / (2 * den)) else 0
  let f := if f < -1 / 2 then -1 / 2 else if 1 / 2 < f then 1 / 2 else f
  16 * s + roundHA (16 * f)

/-- The integers from −n to n. -/
def around (n : Nat) : List Int := (List.range (2 * n + 1)).map (fun (i : Nat) => (i : Int) - (n : Int))

/-! ## Fiducials (R343, R348, R349) -/

def fidX (e : Nat) : Nat := bits e 32 16
def fidK (e : Nat) : Nat := bits e 64 32
def fidSize (e : Nat) : Nat := if e.testBit 48 then 64 else 32
def fidCorr (e : Nat) : Nat := bits e 49 2
def fidSX (e : Nat) : Nat := bits e 96 8
def fidSY (e : Nat) : Nat := bits e 104 8
def fidNcc (e : Nat) : Nat := bits e 112 8
def fidInk (e : Nat) : Nat := bits e 24 3
def fidSeg (e : Nat) : Bool := e.testBit 17
def fidReg (e : Nat) : Bool := e.testBit 18
def fidLine (e : Nat) : Bool := e.testBit 19

/-- A fiducial is used: its search area lies within the key span of n rows and the width (R348). -/
def fidUsed (w n e : Nat) : Bool :=
  let h := fidSize e / 2
  decide (h + fidSX e ≤ fidX e) && decide (fidX e + h + fidSX e ≤ w) &&
    decide (h + fidSY e ≤ fidK e) && decide (fidK e + h + fidSY e ≤ n)

/-- Reference tiles that the templates of fiducials ask for. -/
def fidNeed (s : Seg) (terms : List Int) (fids : List (Nat × Nat)) : List (Nat × Nat) :=
  (fids.flatMap (fun f =>
    let n := fidSize f.2
    let x0 : Int := (fidX f.2 : Int) - (n / 2 : Nat)
    let k0 : Int := (fidK f.2 : Int) - (n / 2 : Nat)
    refSpan s terms x0 (x0 + n - 1) k0 (k0 + n - 1))).eraseDups

/-- The reference tiles that the engine's next work on a segment reads (R333): those under the templates until Keying is over,
then those of its next waiting tile. -/
def refNeed (s : Seg) (g : EngSeg) : List (Nat × Nat) :=
  if !g.keyed then fidNeed s g.start g.fids
  else match s.tiles with
    | (r, c, _) :: _ =>
      refSpan s g.terms (256 * c - 36 : Int) (256 * c + 291 : Int) (256 * r - 36 : Int) (256 * r + 291 : Int)
    | [] => []

/-- A found fiducial: table index, entry, displacement in 1/16, best NCC. -/
structure Found where
  idx : Nat
  entry : Nat
  mx : Int
  my : Int
  conf : Rat

/-- Search one fiducial (R349). -/
def fidSearch (imgs : List TileImg) (r : Ref) (terms : List Int) (idx e : Nat) : Option Found :=
  let chan := profChan r.prof
  let n := fidSize e
  let x0 : Int := (fidX e : Int) - (n / 2 : Nat)
  let k0 : Int := (fidK e : Int) - (n / 2 : Nat)
  let pts := (List.range (n * n)).map (fun i => (x0 + (i % n : Nat), k0 + (i / n : Nat)))
  let b := (pts.map (fun q => r.predSel terms (fidCorr e) q.1 q.2)).toArray
  let ncc := fun (sx sy : Int) =>
    (sumsOver (List.range (n * n)) (fun i =>
      let x := x0 + (i % n : Nat) + sx
      let k := k0 + (i / n : Nat) + sy
      if camOk imgs x k then some (camSel imgs chan (fidCorr e) x k, b.getD i 0) else none)).ncc
  let all := (around (fidSY e)).flatMap (fun sy => (around (fidSX e)).map (fun sx => ((sx, sy), ncc sx sy)))
  match bestShift all with
  | none => none
  | some ((sx, sy), c) =>
    if mkRat (fidNcc e) 256 ≤ c ∧ sx.natAbs < fidSX e ∧ sy.natAbs < fidSY e then
      some ⟨idx, e, refine sx (ncc (sx - 1) sy) c (ncc (sx + 1) sy), refine sy (ncc sx (sy - 1)) c (ncc sx (sy + 1)), c⟩
    else none

/-! ## The segment fit (R350–R352) -/

/-- Sum of a value over a list. -/
def sumR {α : Type} (xs : List α) (f : α → Rat) : Rat := xs.foldl (fun a x => a + f x) 0

/-- A measured displacement in pixels and rows. -/
def Found.px (f : Found) : Rat := mkRat f.mx 16
def Found.py (f : Found) : Rat := mkRat f.my 16
def Found.x (f : Found) : Rat := (fidX f.entry : Rat)
def Found.k (f : Found) : Rat := (fidK f.entry : Rat)

/-- The displacement model at a point (R350). -/
def Fit.dx (t : Fit) (x k : Rat) : Rat := t.tx + t.a * (x - t.xm) + t.b * (k - t.km)
def Fit.dy (t : Fit) (x k : Rat) : Rat := t.ty + t.c * (x - t.xm) + t.dd * (k - t.km)

/-- Least squares of the highest model allowed (R350). -/
def fitModel (mode : Nat) (fs : List Found) : Fit :=
  let n : Rat := (fs.length : Rat)
  let xm := f64 (sumR fs (fun f => f.x) / n)
  let km := f64 (sumR fs (fun f => f.k) / n)
  let mx := sumR fs (fun f => f.x) / n
  let mk := sumR fs (fun f => f.k) / n
  let sxx := sumR fs (fun f => (f.x - mx) * (f.x - mx))
  let skk := sumR fs (fun f => (f.k - mk) * (f.k - mk))
  let sxk := sumR fs (fun f => (f.x - mx) * (f.k - mk))
  let tx := f64 (sumR fs (fun f => f.px) / n)
  let ty := f64 (sumR fs (fun f => f.py) / n)
  let span := (fs.map (fun f => fidK f.entry)).foldl max 0 - (fs.map (fun f => fidK f.entry)).foldl min (2 ^ 32)
  let det := sxx * skk - sxk * sxk
  let on := fun (u v : Found → Rat) => sumR fs (fun f => u f * v f)
  let dx := fun f : Found => f.x - mx
  let dk := fun f : Found => f.k - mk
  if 2 ≤ mode ∧ 3 ≤ fs.length ∧ n * n * 4294967296 ≤ det then
    let solve := fun (v : Found → Rat) =>
      (f64 ((on dx v * skk - on dk v * sxk) / det), f64 ((on dk v * sxx - on dx v * sxk) / det))
    let p := solve (fun f => f.px)
    let q := solve (fun f => f.py)
    ⟨2, fs.length, tx, ty, p.1, p.2, q.1, q.2, xm, km, 0⟩
  else if 1 ≤ mode ∧ 2 ≤ fs.length ∧ 256 ≤ span then
    ⟨1, fs.length, tx, ty, 0, f64 (on dk (fun f => f.px) / skk), 0, f64 (on dk (fun f => f.py) / skk), xm, km, 0⟩
  else ⟨0, fs.length, tx, ty, 0, 0, 0, 0, xm, km, 0⟩

/-- Squared residual of a fiducial. -/
def Fit.res2 (t : Fit) (f : Found) : Rat :=
  let rx := f.px - t.dx f.x f.k
  let ry := f.py - t.dy f.x f.k
  rx * rx + ry * ry

/-- Fit, drop the worst SEG fiducial while the RMS is too large, fit again (R351). -/
def fitSelect : Nat → Nat → Nat → List Found → Option Fit
  | 0, _, _, _ => none
  | n + 1, mode, resid, fs =>
    if fs = [] then none
    else
      let t := fitModel mode fs
      let rms := sqrt64 (f64 (sumR fs (fun f => t.res2 f) / (fs.length : Rat)))
      if rms ≤ mkRat resid 16 then some { t with rms := rms }
      else if fs.length ≤ 1 then none
      else
        let worst := fs.foldl (fun (w : Option Found) f =>
          match w with
          | none => some f
          | some g => if t.res2 g < t.res2 f ∨ (t.res2 g = t.res2 f ∧ f.idx < g.idx) then some f else some g) none
        match worst with
        | none => none
        | some w => fitSelect n mode resid (fs.filter (fun f => f.idx != w.idx))

/-- The composition of R352. -/
def keyedTerms (t : List Int) (f : Fit) : List Int :=
  let g := fun i => ((t.getD i 0 : Int) : Rat)
  let ex := f64 (f.a * f.xm + f.b * f.km - f.tx)
  let ek := f64 (f.c * f.xm + f.dd * f.km - f.ty)
  [roundHA (f64 (g 0 * (1 - f.a) - g 1 * f.c)), roundHA (f64 (g 1 * (1 - f.dd) - g 0 * f.b)),
   roundHA (f64 (g 2 * (1 - f.a) - g 3 * f.c)), roundHA (f64 (g 3 * (1 - f.dd) - g 2 * f.b)),
   roundHA (f64 (g 4 + (g 0 * ex + g 1 * ek) / 65536)), roundHA (f64 (g 5 + (g 2 * ex + g 3 * ek) / 65536))]

/-- The limits of R351 on a fit. -/
def fitOk (scaleMax : Nat) (t : List Int) (f : Fit) : Bool :=
  let lim := mkRat scaleMax 1000000
  [f.a, f.b, f.c, f.dd].all (fun v => decide (absR v ≤ lim)) && scaleOk (keyedTerms t f)

/-! ## The line pass (R356) -/

/-- First crossing of a profile through the middle of its range: index of the pair and the fraction; none where the range
is below 16 or no crossing exists. -/
def crossing (ps : List Rat) : Option (Nat × Rat) :=
  let p0 := ps.getD 0 0
  let lo := ps.foldl min p0
  if p0 - lo < 16 then none
  else
    let h := f64 ((p0 + lo) / 2)
    (List.range (ps.length - 1)).findSome? (fun i =>
      let a := ps.getD i 0
      let b := ps.getD (i + 1) 0
      if h < a ∧ b ≤ h then some (i, f64 ((a - h) / (a - b))) else none)

/-- The down-web displacement of a LINE_DY fiducial from the lines of the rewind pass, in 1/16 grid row. step: word
distance of one grid row; g0 and dir: the segment's grid. -/
def lineDy (r : Ref) (terms : List Int) (lines : List (Int × Array Nat)) (w e : Nat) (g0 : Int) (dir : Nat) (step : Rat) :
    Option Rat :=
  let chan := profChan r.prof
  let n := fidSize e
  let x0 := fidX e - n / 2
  let mean := fun (f : Nat → Nat) => f64 (mkRat ((List.range n).foldl (fun s i => s + f (x0 + i)) 0) n)
  let camP := lines.map (fun l => mean (fun x => corrOf chan (fidCorr e) (fun c => 4 * min 255 ((l.2.getD (c * w + x) 0 + 8) / 16))))
  let k0 := fidK e - n / 2
  let refP := (List.range n).map (fun j => mean (fun x => r.predSel terms (fidCorr e) x (k0 + j : Nat)))
  match crossing camP, crossing refP with
  | some (i, f), some (j, g) =>
    if i + 2 = lines.length then none
    else
      let p := (lines.getD i (0, #[])).1
      let q := (lines.getD (i + 1) (0, #[])).1
      let edge : Rat := (p : Rat) + f * ((q - p : Int) : Rat)
      let pred : Rat := ((k0 + j : Nat) : Rat) + g
      let dist := if dir = 0 then edge - (g0 : Rat) else (g0 : Rat) - edge
      some (f64 ((dist / step - pred) * 16))
  | _, _ => none

/-! ## Register measurement (R369) -/

/-- Residual of a found fiducial in 1/16, with the line measure in place of its y where there is one. -/
def Fit.reg (t : Fit) (f : Found) (dyLine : Option Rat) : Rat × Rat :=
  let x := f64 ((f.px - t.dx f.x f.k) * 16)
  match dyLine with
  | some v => (x, f64 (v - 16 * t.dy f.x f.k))
  | none => (x, f64 ((f.py - t.dy f.x f.k) * 16))

/-- Confidence of a fiducial (R370). -/
def Found.confByte (f : Found) : Nat := min 255 (256 * f.conf).floor.toNat

/-- R_i and confidence of each ink from residuals by ink (R369). -/
def regErrors (refInk : Nat) (rs : List (Nat × (Rat × Rat) × Nat)) : List (Nat × Rat × Rat × Nat) :=
  let of := fun i => rs.filter (fun r => r.1 == i)
  let mean := fun (xs : List (Nat × (Rat × Rat) × Nat)) (f : Rat × Rat → Rat) =>
    f64 (sumR xs (fun r => f r.2.1) / (xs.length : Rat))
  if (of refInk).isEmpty then []
  else
    ((List.range 8).filter (fun i => !(of i).isEmpty)).map (fun i =>
      (i, f64 (mean (of i) (fun r => r.1) - mean (of refInk) (fun r => r.1)),
        f64 (mean (of i) (fun r => r.2) - mean (of refInk) (fun r => r.2)),
        ((of i).map (fun r => r.2.2)).foldl min 255))

/-! ## Registration result block (R368) -/

/-- Parts per million of a fit term. -/
def ppm (v : Rat) : Nat := uInt 32 (roundHA (v * 1000000))

def regBlock (g : EngSeg) : List Nat :=
  let lost := if g.lost.isEmpty then 0 else 32
  let tail := fun (model used : Nat) (vs : List Nat) (rms : Nat) =>
    [g.kflags + lost, model, g.found, used] ++ vs.flatMap (fun v => leBytes 4 v) ++ leBytes 2 rms ++
      leBytes 2 (min 65535 g.floatMax)
  match g.fit with
  | none => tail 0xFF 0 [0, 0, 0, 0, 0, 0] 0
  | some t =>
    tail t.model t.used [uInt 32 (roundHA (16 * t.tx)), uInt 32 (roundHA (16 * t.ty)), ppm t.a, ppm t.b, ppm t.c, ppm t.dd]
      (min 65535 (roundHA (16 * t.rms)).toNat)

/-- LAST_KEY takes the block. -/
def Dev.lastKey (d : Dev) (e : Nat) (g : EngSeg) : Dev :=
  let b := regBlock g
  (List.range 8).foldl (fun d i => d.wr Ce.LAST_KEY e (le b (4 * i) 4) i) d

end Sys2Proof.Machine
end

