-- ==== Sys2Proof/Machine/Float.lean ====
section
/-!
DEFINITION. Compare tables and classes (R341–R344, R363), Float (R357–R361), the comparison of one pixel (R338, R364, R365).
The log's entry 47 of notes/assumptions names what is DEDUCED or a DESIGN CHOICE here, and marks each.
-/

namespace Sys2Proof.Machine

/-! ## Zone classes (R342, R344, R363) -/

def zJudge (z : Nat) : Bool := z.testBit 0
def zDark (z : Nat) : Bool := z.testBit 1
def zLight (z : Nat) : Bool := z.testBit 2
def zTone (z : Nat) : Bool := z.testBit 3
def zFloat (z : Nat) : Bool := z.testBit 4
def zEdge (z : Nat) : Nat := bits z 8 8
def zTDark (z : Nat) : Nat := bits z 16 10
def zTLight (z : Nat) : Nat := bits z 32 10
def zTTone (z : Nat) : Nat := bits z 48 10
def zMinArea (z : Nat) : Nat := bits z 64 16

/-- What the comparison of a segment works with: segment, engine's part, port, width, channels, rows, reference, images,
and the mask cells (entry, or none where it is uncorrectable). -/
structure Ctx where
  s : Seg
  g : EngSeg
  w : Nat
  chan : Nat
  ref : Ref
  imgs : List TileImg
  cell : Nat → Option Nat

/-- The class of a grid point: none where its mask cell is uncorrectable (R363, R374). -/
def Ctx.cls (c : Ctx) (x k : Int) : Option Nat :=
  match c.g.map with
  | none => some 0
  | some (_, e) =>
    let uv := rasterAt c.g.terms x k
    let m := uv.1 / 256
    let j := uv.2 / 256
    let out := some (bits e 24 4)
    if m < 0 ∨ (c.ref.w : Int) ≤ m ∨ j < 0 ∨ (c.ref.lines : Int) ≤ j then out
    else
      let m := m.toNat
      let j := j.toNat
      let col := m / 256
      let row := j / 256
      let col0 := bits e 64 16
      let cols := bits e 80 16
      if col < col0 ∨ col0 + cols ≤ col ∨ bits e 96 16 ≤ row then out
      else (c.cell (bits e 32 32 + row * cols + (col - col0))).map
        (fun v => bits v (4 * (4 * (j / 64 % 4) + m / 64 % 4)) 4)

/-- The zone entry of a class. -/
def Ctx.zone (c : Ctx) (k : Nat) : Nat := c.g.zones.getD k 0

/-- Prediction of the correlation channel. -/
def Ctx.pSel (c : Ctx) (x k : Int) : Nat := c.ref.predSel c.g.terms c.g.cfg.corr x k

/-! ## Float (R357, R358) -/

/-- A pixel that Float includes. -/
def Ctx.floatPx (c : Ctx) (x k : Int) : Bool :=
  camOk c.imgs x k && decide (x < c.w) && match c.cls x k with
    | some z => zFloat (c.zone z)
    | none => false

/-- The measurement of tile (row, n): whether it is measurable, and its shift where it is valid. -/
def Ctx.floatTile (c : Ctx) (row n : Nat) : Bool × Option (Int × Int) :=
  let x0 : Int := (256 * n : Nat)
  let k0 : Int := (256 * row : Nat)
  let inc := ((List.range 65536).map (fun i => c.floatPx (x0 + (i % 256 : Nat)) (k0 + (i / 256 : Nat)))).toArray
  let a := ((List.range 65536).map (fun i =>
    camSel c.imgs c.chan c.g.cfg.corr (x0 + (i % 256 : Nat)) (k0 + (i / 256 : Nat)))).toArray
  let side := 256 + 72
  let p := ((List.range (side * side)).map (fun i => c.pSel (x0 - 36 + (i % side : Nat)) (k0 - 36 + (i / side : Nat)))).toArray
  let pAt := fun (x y : Int) => p.getD ((y + 36).toNat * side + (x + 36).toNat) 0
  let sixteen := List.range 16
  let blkIn := fun b => sixteen.all (fun q => inc.getD ((b / 64 * 4 + q / 4) * 256 + b % 64 * 4 + q % 4) false)
  let blkA := fun b => (sixteen.foldl (fun s q => s + a.getD ((b / 64 * 4 + q / 4) * 256 + b % 64 * 4 + q % 4) 0) 0 + 8) / 16
  let blkP := fun (bx bz : Int) => (sixteen.foldl (fun s q => s + pAt (4 * bx + (q % 4 : Nat)) (4 * bz + (q / 4 : Nat))) 0 + 8) / 16
  let blocks := (List.range 4096).filter blkIn
  let coarse := (around 8).flatMap (fun j => (around 8).map (fun i =>
    ((i, j), (sumsOver blocks (fun b => some (blkA b, blkP ((b % 64 : Nat) - i) ((b / 64 : Nat) - j)))).ncc)))
  let fineSums := fun (sx sy : Int) => sumsOver (List.range 65536) (fun q =>
    if inc.getD q false then some (a.getD q 0, pAt ((q % 256 : Nat) - sx) ((q / 256 : Nat) - sy)) else none)
  let count := ((List.range 65536).filter (fun q => inc.getD q false)).length
  match bestShift coarse with
  | none => (false, none)
  | some (b1, n1) =>
    let n1' := (coarse.filter (fun e => decide (2 ≤ max (e.1.1 - b1.1).natAbs (e.1.2 - b1.2).natAbs))).foldl
      (fun (m : Rat) e => if m < e.2 then e.2 else m) (-1)
    let fine := ((around 3).flatMap (fun j => (around 3).map (fun i => (4 * b1.1 + i, 4 * b1.2 + j)))).filter
      (fun s => decide (s.1.natAbs ≤ 32) && decide (s.2.natAbs ≤ 32))
    match bestShift (fine.map (fun s => (s, (fineSums s.1 s.2).ncc))) with
    | none => (false, none)
    | some ((sx, sy), n2) =>
      let v := fineSums sx sy
      let measurable := decide (16384 ≤ count) && decide ((c.g.cfg.texture : Int) * (v.n * v.n : Nat) ≤ v.varB)
      let good := decide (mkRat c.g.cfg.nccMin 256 ≤ n2) && decide (n1' ≤ n1 - mkRat c.g.cfg.uniq 256) &&
        sx.natAbs != 32 && sy.natAbs != 32
      (measurable, if measurable && good then
        some (refine sx (fineSums (sx - 1) sy).ncc n2 (fineSums (sx + 1) sy).ncc,
          refine sy (fineSums sx (sy - 1)).ncc n2 (fineSums sx (sy + 1)).ncc)
      else none)

/-! ## Smoothing (R359–R361) -/

/-- C(n), where some column near has a valid measurement. -/
def colMean (ms : List (Option (Int × Int))) (n : Nat) : Option (Int × Int) :=
  let near := [(-2, 1), (-1, 2), (0, 4), (1, 2), (2, 1)].filterMap (fun (o : Int × Nat) =>
    let j := (n : Int) + o.1
    if j < 0 then none else (ms.getD j.toNat none).map (fun m => (m, o.2)))
  if near.isEmpty then none
  else
    let wt : Rat := ((near.foldl (fun s e => s + e.2) 0 : Nat) : Rat)
    let avg := fun (f : Int × Int → Int) => roundHA (f64 (((near.foldl (fun s e => s + f e.1 * e.2) 0 : Int) : Rat) / wt))
    some (avg (fun m => m.1), avg (fun m => m.2))

/-- One column of a row: S, its run of jumps, and whether it jumped. -/
def smooth (cfg : EngCfg) (c : Option (Int × Int)) (prev : Option (Int × Int)) (run : Nat) : (Int × Int) × Nat × Bool :=
  match c, prev with
  | none, none => ((0, 0), 0, false)
  | none, some s => (s, 0, false)
  | some c, none => (c, 0, false)
  | some c, some s =>
    if cfg.jump < (c.1 - s.1).natAbs ∨ cfg.jump < (c.2 - s.2).natAbs then
      if 2 ≤ run then (c, 0, true) else (s, run + 1, true)
    else
      let al := if cfg.alpha = 0 then 256 else cfg.alpha
      let step := fun (c s : Int) => s + roundHA (mkRat ((c - s) * al) 256)
      ((step c.1 s.1, step c.2 s.2), 0, false)

/-- δ of a pixel in a tile row with smoothed shifts S (R360). -/
def shiftAt (en : Bool) (row : List (Int × Int)) (x : Int) : Int × Int :=
  if !en || row.isEmpty then (0, 0)
  else
    let n := (x - 128) / 256
    let last := row.length - 1
    if n < 0 then row.getD 0 (0, 0)
    else if last ≤ n.toNat then row.getD last (0, 0)
    else
      let a := row.getD n.toNat (0, 0)
      let b := row.getD (n.toNat + 1) (0, 0)
      let o := x - 256 * n - 128
      (a.1 + ((b.1 - a.1) * o + 128) / 256, a.2 + ((b.2 - a.2) * o + 128) / 256)

/-- The shift of a pixel; a row outside the segment takes the nearest tile row's. -/
def Ctx.shift (c : Ctx) (x k : Int) : Int × Int :=
  let r := if k < 0 then 0 else min (k.toNat / 256) (c.g.shifts.length - 1)
  shiftAt c.g.cfg.floatEn (c.g.shifts.getD r []) x

/-! ## One pixel (R338, R362–R365) -/

/-- The registered point of a pixel: integer point and fractions. -/
def Ctx.regPoint (c : Ctx) (x k : Int) : (Int × Int) × Nat × Nat :=
  let s := c.shift x k
  let X := 16 * x - s.1
  let K := 16 * k - s.2
  ((X / 16, K / 16), (X % 16).toNat, (K % 16).toNat)

/-- Channel ch of Q at a pixel. -/
def Ctx.q (c : Ctx) (x k : Int) (ch : Nat) : Nat :=
  let ((xi, ki), fx, fk) := c.regPoint x k
  let p := fun (i j : Int) => c.ref.pred c.g.terms ch i j
  (p xi ki * (16 - fx) * (16 - fk) + p (xi + 1) ki * fx * (16 - fk) + p xi (ki + 1) * (16 - fx) * fk +
    p (xi + 1) (ki + 1) * fx * fk + 128) / 256

def Ctx.qSel (c : Ctx) (x k : Int) : Nat := corrOf c.chan c.g.cfg.corr (c.q x k)

/-- The comparison of a pixel: judged under R362, its row usable, its class judges and its tile row is not REG_LOST (R390),
class, d, A, Q, polarity sum, e of either polarity. -/
structure Pix where
  judged : Bool
  usable : Bool
  counts : Bool
  cls : Nat
  d : List Int
  a : List Nat
  q : List Nat
  sum : Int
  ed : Nat
  el : Nat

def Pix.off : Pix := ⟨false, false, false, 0, [], [], [], 0, 0, 0⟩

/-- Everything of a pixel but its gradient. -/
def Ctx.pix (c : Ctx) (x k : Int) : Pix :=
  if !camOk c.imgs x k || decide ((c.w : Int) ≤ x) then Pix.off
  else
    let pt := (c.regPoint x k).1
    let cls := c.cls pt.1 pt.2
    let counts := !c.g.lost.contains (k.toNat / 256) &&
      match cls with
      | some z => zJudge (c.zone z)
      | none => false
    let judged := c.s.check 0 && counts
    let a := (List.range c.chan).map (fun ch => cam c.imgs ch x k)
    let q := (List.range c.chan).map (fun ch => c.q x k ch)
    let d := (List.range c.chan).map (fun ch => (a.getD ch 0 : Int) - (q.getD ch 0 : Nat))
    let cw := fun ch => c.g.cfg.cw.getD ch 0
    let e := (List.range c.chan).foldl (fun m ch => max m (((d.getD ch 0).natAbs * cw ch + 64) / 128)) 0
    let sum := (List.range c.chan).foldl (fun (m : Int) ch => m + d.getD ch 0 * cw ch) 0
    ⟨judged, true, counts, cls.getD 0, d, a, q, sum, if judged ∧ sum < 0 then e else 0, if judged ∧ 0 < sum then e else 0⟩

/-- The gradient of R365. -/
def Ctx.grad (c : Ctx) (x k : Int) : Nat :=
  let diff := fun (a b : Nat) => ((a : Int) - b).natAbs
  max (diff (c.qSel (x + 1) k) (c.qSel (x - 1) k)) (diff (c.qSel x (k + 1)) (c.qSel x (k - 1)))

/-- Threshold with relief. -/
def tEff (z t g : Nat) : Nat := t + (g * zEdge z + 8) / 16

end Sys2Proof.Machine
end

