-- ==== Sys2Proof/Machine/Snag.lean ====
section
/-!
DEFINITION. Snagging (R386–R389), Plumb-line accumulation (R390), colour patches (R395–R397), and the judging of a tile row
(R365–R367).
The log's entries 48 and 49 of notes/assumptions name what is DEDUCED or a DESIGN CHOICE here, and marks each.
-/

namespace Sys2Proof.Machine

/-! ## Regions (R386, R387) -/

/-- A flagged pixel or tone block on its way into a region: column, place, e, sums of d, pixels counted, class. -/
structure Cell where
  col : Nat
  x : Nat
  k : Nat
  e : Rat
  d : List Int
  n : Nat
  cls : Nat

/-- Sum of two lists of channel sums. -/
def addD (a b : List Int) : List Int := (List.range 3).map (fun i => a.getD i 0 + b.getD i 0)

/-- Neighbouring cells of one line that join. -/
def cellRuns : List Cell → List (List Cell)
  | [] => []
  | c :: cs => match cellRuns cs with
    | (x :: r) :: rest => if x.col = c.col + 1 then (c :: x :: r) :: rest else [c] :: (x :: r) :: rest
    | rest => [c] :: rest

/-- A region of one cell; size: pixels of a side. -/
def Cell.region (c : Cell) (kind : Nat) (light : Bool) (size : Nat) : Region :=
  let h := if kind = 2 then 8 else 0
  { kind := kind, light := light, area := size * size, x0 := c.x, x1 := c.x + size - 1, k0 := c.k, k1 := c.k + size - 1
    sx := c.x + h, sk := c.k + h, eMax := c.e, top := (c.k + h, c.x + h), eSum := c.e, dSum := c.d, dn := c.n
    cls := c.cls, back := [], front := [(c.col, c.col)] }

/-- Two parts of one region; the dominant class is that of the largest e, the lower row and then column on a tie. -/
def Region.join (a b : Region) : Region :=
  let first := decide (b.eMax < a.eMax) ||
    (decide (a.eMax = b.eMax) && (decide (a.top.1 < b.top.1) || (a.top.1 == b.top.1 && decide (a.top.2 ≤ b.top.2))))
  { kind := a.kind, light := a.light, area := a.area + b.area, x0 := min a.x0 b.x0, x1 := max a.x1 b.x1
    k0 := min a.k0 b.k0, k1 := max a.k1 b.k1, sx := a.sx + b.sx, sk := a.sk + b.sk
    eMax := if first then a.eMax else b.eMax, top := if first then a.top else b.top, eSum := a.eSum + b.eSum
    dSum := addD a.dSum b.dSum, dn := a.dn + b.dn, cls := if first then a.cls else b.cls
    back := a.back ++ b.back, front := a.front ++ b.front }

/-- Cells of a region. -/
def Region.cells (r : Region) : Nat := if r.kind = 2 then r.area / 256 else r.area

/-- A new line begins for the regions of some kinds. -/
def newLine (tone : Bool) (rs : List Region) : List Region :=
  rs.map (fun r => if (r.kind == 2) == tone then { r with back := r.front, front := [] } else r)

/-- A run of cells joins the regions it touches on the line before, or opens one where fewer than 4,096 are open; the
second value says that it found no place. -/
def placeRun (kind : Nat) (light : Bool) (size : Nat) (rs : List Region) (run : List Cell) : List Region × Bool :=
  match run with
  | [] => (rs, false)
  | c :: cs =>
    let new := { cs.foldl (fun a x => a.join (x.region kind light size)) (c.region kind light size) with
      front := [(c.col, c.col + cs.length)] }
    let lo := c.col
    let hi := c.col + cs.length
    let hits := fun (r : Region) => r.kind == kind && r.light == light &&
      r.back.any (fun b => decide (b.1 ≤ hi + 1) && decide (lo ≤ b.2 + 1))
    let near := rs.filter hits
    if near.isEmpty && decide (4096 ≤ rs.length) then (rs, true)
    else (rs.filter (fun r => !hits r) ++ [near.foldl Region.join new], false)

/-- All cells of one line of one kind and polarity. -/
def placeLine (kind : Nat) (light : Bool) (size : Nat) (acc : List Region × Bool) (cs : List Cell) : List Region × Bool :=
  (cellRuns cs).foldl (fun a run =>
    let r := placeRun kind light size a.1 run
    (r.1, a.2 || r.2)) acc

/-- Order of regions that close together: K0, X0, kind. -/
def regionBefore (a b : Region) : Bool :=
  if a.k0 ≠ b.k0 then decide (a.k0 < b.k0) else if a.x0 ≠ b.x0 then decide (a.x0 < b.x0) else decide (a.kind ≤ b.kind)

def regionIns (r : Region) : List Region → List Region
  | [] => [r]
  | x :: xs => if regionBefore r x then r :: x :: xs else x :: regionIns r xs

/-! ## Snag records and tiles (R388, R389, R431) -/

/-- Sequence of tile (r, n) of a segment (R412). -/
def Dev.tileSeq (d : Dev) (p : Nat) (s : Seg) (r n : Nat) : Option Nat :=
  s.firstSeq.map (fun s0 => (s0 + r * d.lcuCols p + n) % d.rgnWrap (d.histRegion p))

/-- Position of grid row k in the epoch of opening (R294). -/
def Dev.segGrid (d : Dev) (p : Nat) (s : Seg) (k : Nat) : Int := s.gS + along s.dir (d.gridStep p k)

/-- OR of the row flags of rows and tile columns. -/
def boxFlags (cols : Nat) (flags : List Nat) (x0 x1 k0 k1 : Nat) : Nat :=
  (List.range (k1 + 1 - k0)).foldl (fun a i =>
    (List.range (x1 / 256 + 1 - x0 / 256)).foldl (fun a j =>
      a ||| flags.getD ((k0 + i) * cols + x0 / 256 + j) 0) a) 0

/-- A 16-bit field from a value, half away from zero. -/
def u16 (v : Rat) : List Nat := leBytes 2 (uInt 16 (roundHA v))

/-- A mean, in binary64. -/
def meanR (s : Rat) (n : Nat) : Rat := if n = 0 then 0 else f64 (s / (n : Rat))

/-- The snag-tile region of an engine counts its copies since EN rose: the first copy to go there starts the count (R412). -/
def Dev.snagRing (d : Dev) (e n : Nat) : Dev :=
  if (d.ce e).ring = some n then d else (d.setCe e { d.ce e with ring := some n }).ringRestart n

/-- Copies of the tile records a region touches, at most a number: the copies' sequences, with the headers (R389). -/
def Dev.snagCopies (m : FrameStore) (d : Dev) (e p : Nat) (s : Seg) (cfg : EngCfg) (r : Region) : Dev × List (Nat × List Nat) :=
  if !cfg.tilesEn then (d, [])
  else
    let rows := r.k1 / 256 + 1 - r.k0 / 256
    let cols := r.x1 / 256 + 1 - r.x0 / 256
    let boxes := ((List.range (rows * cols)).map (fun i => (r.k0 / 256 + i / cols, r.x0 / 256 + i % cols)))
    let hist := d.histRegion p
    let able := boxes.filterMap (fun b => (d.tileSeq p s b.1 b.2).filter (fun q => d.enabled 0x19 hist && d.slotStable hist q))
    (able.take cfg.tileMax).foldl (fun (a : Dev × List (Nat × List Nat)) q =>
      let d := a.1.snagRing e cfg.region
      let at? := d.slotByte hist q
      let n := d.rgnStride hist
      let rec? := m.clean at? n
      let seq := d.rd Rgn.WR_SEQ cfg.region
      ((d.hbmMet m at? n).tilePut cfg.region rec?, a.2 ++ [(seq, rec?.take 64)])) (d, [])

/-- A saved tile as an item (R420, R431). -/
def snagTileItem (p region idx : Nat) (t : Nat × List Nat) : DItem :=
  let h := t.2
  { typ := 0x40, port := p, seg := le h 12 4, page := le h 16 8, time := le h 32 16, posValid := true
    pos := le h 48 8, posInfo := byteAt h 56, posSuspect := (byteAt h 1).testBit 1, timeSuspect := (byteAt h 1).testBit 2
    ref := idx, body := .tiles region [t.1] }

/-- Write the record of a kept region, and its tiles (R388, R389, R431). -/
def Dev.snagRecord (m : FrameStore) (d : Dev) (e p : Nat) (s : Seg) (g : EngSeg) (r : Region) (cols : Nat) : Dev :=
  let idx := g.snagCnt
  let x := d.snagCopies m e p s g.cfg r
  let d := x.1
  let fl := boxFlags cols g.rowFlags r.x0 r.x1 r.k0 r.k1
  let n := r.cells
  let cx := (roundHA (mkRat (16 * r.sx) n)).toNat
  let ck := (roundHA (mkRat (16 * r.sk) n)).toNat
  let sh := shiftAt g.cfg.floatEn (g.shifts.getD (ck / 16 / 256) []) (cx / 16 : Nat)
  let nf := 1 + (if r.light then 4 else 2) + (if r.kind = 2 then 8 else 0) + 16 * bitOf fl 3 + 32 * bitOf fl 1 + 64 * bitOf fl 5 +
    128 * b2n (!x.2.isEmpty)
  let pos := uInt 64 (d.segGrid p s r.k0)
  let bytes := [0x60, nf, p, r.cls] ++ zeros 4 ++ leBytes 4 s.num ++ leBytes 4 idx ++ leBytes 2 r.x0 ++ leBytes 2 r.x1 ++
    leBytes 4 r.k0 ++ leBytes 4 r.k1 ++ leBytes 4 r.area ++ leBytes 4 cx ++ leBytes 4 ck ++ u16 r.eMax ++
    u16 (meanR r.eSum n) ++ (List.range 3).flatMap (fun c => u16 (meanR ((r.dSum.getD c 0 : Int) : Rat) r.dn)) ++
    leBytes 2 (uInt 16 sh.1) ++ leBytes 2 (uInt 16 sh.2) ++ leBytes 2 x.2.length ++ leBytes 8 pos
  let sus := fl.testBit 3
  let d := d.when (d.is Ce.OUT_CFG_SNAG_QEN e) (fun d =>
    d.push (d.rd Ce.OUT_Q_SNAG_Q e)
      { typ := 0x60, port := p, seg := s.num, page := s.pageId, time := tImg (s.times.getD r.k0 0), posValid := true, pos := pos
        posInfo := posInfoByte s.ch s.openEpoch sus, posSuspect := sus, timeSuspect := fl.testBit 4
        ref := (d.tileSeq p s (r.k0 / 256) (r.x0 / 256)).getD 0xFFFFFFFF, body := .bytes bytes })
  d.when (d.is De.PORT_DELIV_SNAGT_EN 0 p) (fun d =>
    x.2.foldl (fun d t => d.push (d.rd De.SNAGT_Q 0 p) (snagTileItem p g.cfg.region idx t)) d)

/-- Regions close: kept ones give their records, in order (R387). -/
def Dev.closeRegions (m : FrameStore) (d : Dev) (e p : Nat) (s : Seg) (g : EngSeg) (which : Region → Bool) : Dev × EngSeg :=
  let cols := d.lcuCols p
  let out := (g.regions.filter which).foldl (fun a r => regionIns r a) []
  out.foldl (fun (a : Dev × EngSeg) r =>
    let g := a.2
    if r.area < max 1 (zMinArea (g.zones.getD r.cls 0)) then (a.1, g)
    else if g.snagCnt < g.cfg.snagMax then
      (a.1.snagRecord m e p s g r cols, { g with snagCnt := g.snagCnt + 1, kept := true })
    else
      ((a.1.incSat Ce.CE_CNT_B_SNAG_LOST_CNT e).evt 0x0D e Ce.E_SNAG_LOST, { g with snagLost := g.snagLost + 1, kept := true }))
    (d, { g with regions := g.regions.filter (fun r => !which r) })

/-! ## Colour patches (R395–R397) -/

def patX (e : Nat) : Nat := bits e 32 16
def patW (e : Nat) : Nat := bits e 48 16
def patK (e : Nat) : Nat := bits e 64 32
def patH (e : Nat) : Nat := bits e 96 16
def patTol (e : Nat) : Nat := bits e 112 16

/-- A patch can be measured and was (R396). -/
def PatchH.measured (t : PatchH) (w rows : Nat) : Bool :=
  !t.lost && decide (patX t.entry + patW t.entry ≤ w) && decide (patK t.entry + patH t.entry ≤ rows) &&
    decide (patW t.entry * patH t.entry ≤ 2 * t.n)

/-- Means in 1/64 code, from sums in 1/4 code. -/
def PatchH.means (t : PatchH) (v : List Nat) : List Nat :=
  (List.range 3).map (fun c => if t.n = 0 then 0 else (roundHA (f64 (mkRat (16 * v.getD c 0) t.n))).toNat)

/-- DEV in 1/64 code. -/
def PatchH.dev (t : PatchH) (chan : Nat) (cw : List Nat) : Rat :=
  (List.range chan).foldl (fun (m : Rat) c =>
    let v : Rat := f64 (mkRat ((((t.means t.sa).getD c 0 : Int) - (t.means t.sq).getD c 0).natAbs * cw.getD c 0) 128)
    if m < v then v else m) 0

def PatchH.outOfTol (t : PatchH) (w rows chan : Nat) (cw : List Nat) : Bool :=
  t.measured w rows && decide ((patTol t.entry : Rat) < t.dev chan cw)

/-- The patch records of a segment that completes or is cut (R397). -/
def Dev.patchRecords (d : Dev) (e p : Nat) (s : Seg) (g : EngSeg) : Dev :=
  let w := d.lcuWidth p
  let chan := d.lcuChan p
  g.patches.foldl (fun d t =>
    let ok := t.measured w s.rows
    let bad := t.outOfTol w s.rows chan g.cfg.cw
    let vals := fun v => if ok then (t.means v).flatMap (fun x => leBytes 2 x) else zeros 6
    let bytes := [0x63, 1 + 2 * b2n ok + 4 * b2n bad + 8 * b2n t.suspect, p, t.idx] ++ zeros 4 ++ leBytes 4 s.num ++
      vals t.sa ++ vals t.sq ++ leBytes 4 t.n ++
      leBytes 2 (if ok then min 65535 (roundHA (t.dev chan g.cfg.cw)).toNat else 0) ++ [0, 0]
    let d := d.when bad (fun d => d.evt 0x0D e Ce.E_PATCH_OUT)
    let d := d.when (!ok) (fun d => d.incSat Ce.CE_CNT_D_PATCH_NODATA_CNT e)
    d.when (d.is Ce.OUT_CFG_PATCH_QEN e) (fun d =>
      d.push (d.rd Ce.OUT_Q_PATCH_Q e)
        { typ := 0x63, port := p, seg := s.num, page := s.pageId, time := tImg (s.times.getD (patK t.entry) 0), posValid := true
          pos := uInt 64 (d.segGrid p s (patK t.entry)), posInfo := posInfoByte s.ch s.openEpoch t.suspect
          posSuspect := t.suspect, timeSuspect := t.tsus, ref := t.idx, body := .bytes bytes })) d

/-! ## Plumb-line accumulators (R390) -/

/-- Key of an accumulator. -/
def plKey (bank ink x : Nat) : Nat := (bank * 8 + ink) * 32768 + x

/-- PL_CFG and PL_LIMITS in use: T_STREAK, DEV_REACH, PL_COV_MIN, PL_FAIL_EN, PL_N_MIN, PL_MAX_REPORT. -/
def plFlds : List Fld :=
  [Pl.PL_CFG_T_STREAK, Pl.PL_CFG_DEV_REACH, Pl.PL_CFG_PL_COV_MIN, Pl.PL_CFG_PL_FAIL_EN, Pl.PL_LIMITS_PL_N_MIN,
   Pl.PL_LIMITS_PL_MAX_REPORT]

def Dev.plUse (d : Dev) (e i : Nat) : Nat :=
  if (d.ce e).plCfg = [] then (plFlds.map (fun f => f.rst)).getD i 0 else (d.ce e).plCfg.getD i 0

/-- One contribution. -/
def CeH.plAdd (h : CeH) (ink x : Nat) (v : Int) (sus : Bool) : CeH :=
  let k := plKey h.bank ink x
  { h with
    plN := mset h.plN k (satAdd 24 (mget h.plN k 0) 1) 0
    plD := mset h.plD k (clampI (-(2 ^ 39)) (2 ^ 39 - 1) (mget h.plD k 0 + v)) 0
    plS := mset h.plS k (mget h.plS k false || sus) false }

/-! ## Judging a tile row (R362–R367) -/

/-- The pixels of lines 256 row − 1 to 256 row + n of a segment with K rows, n lines of the row itself. -/
def Ctx.lines (c : Ctx) (row n : Nat) : Array Pix :=
  ((List.range ((n + 2) * c.w)).map (fun i =>
    let k : Int := (256 * row + i / c.w : Nat) - 1
    if 0 ≤ k ∧ k < c.s.rows then c.pix (i % c.w : Nat) k else Pix.off)).toArray

/-- Sum of a value over the 3 × 3 neighbourhood of column x of line y of the array (R365). -/
def sum9 (w : Nat) (px : Array Pix) (f : Pix → Nat) (x y : Nat) : Nat :=
  (List.range 9).foldl (fun s i =>
    let xx := x + i % 3
    if 1 ≤ xx ∧ xx ≤ w then s + f (px.getD ((y + i / 3) * w + xx - 1) Pix.off) else s) 0

/-- The flagged pixels of one line, dark or light. -/
def Ctx.flagged (c : Ctx) (px : Array Pix) (row y : Nat) (light : Bool) : List Cell :=
  (List.range c.w).filterMap (fun x =>
    let p := px.getD ((y + 1) * c.w + x) Pix.off
    let z := c.zone p.cls
    let on := p.judged && (if light then zLight z else zDark z)
    let e := fun (q : Pix) => if light then q.el else q.ed
    if !on then none
    else
      let s := sum9 c.w px e x y
      let t := if light then zTLight z else zTDark z
      if 9 * tEff z t 0 ≤ s ∧ 9 * tEff z t (c.grad x (256 * row + y : Nat)) ≤ s then
        some ⟨x, x, 256 * row + y, (e p : Nat), p.d, 1, p.cls⟩
      else none)

/-- The tone blocks of a band of 16 lines flagged with one polarity (R366). -/
def Ctx.tones (c : Ctx) (px : Array Pix) (row band n : Nat) (light : Bool) : List Cell :=
  (List.range (cdiv c.w 16)).filterMap (fun b =>
    let at? := fun (i : Nat) =>
      let x := 16 * b + i % 16
      let y := 16 * band + i / 16
      if x < c.w ∧ y < n then px.getD ((y + 1) * c.w + x) Pix.off else Pix.off
    let pt := (c.regPoint (16 * b + 8 : Nat) (256 * row + 16 * band + 8 : Nat)).1
    let mid := c.cls pt.1 pt.2
    let ps := ((List.range 256).map at?).filter (fun p => p.judged)
    let z := c.zone (mid.getD 0)
    if mid.isNone || !zTone z || decide (ps.length < 128) then none
    else
      let ds := ps.foldl (fun s p => addD s p.d) [0, 0, 0]
      let ms := (List.range c.chan).map (fun ch => f64 (mkRat (ds.getD ch 0) ps.length))
      let top := ms.foldl (fun (m : Rat) v => if m < absR v then absR v else m) 0
      let pol := sumR (List.range c.chan) (fun ch => ms.getD ch 0 * (c.g.cfg.cw.getD ch 0 : Nat))
      if (zTTone z : Rat) ≤ top ∧ decide (0 < pol) = light then
        some ⟨b, 16 * b, 256 * row + 16 * band, top, ds, ps.length, mid.getD 0⟩
      else none)

/-- Regions after the lines of a tile row; the flag says that something found no place. -/
def Ctx.regionsAfter (c : Ctx) (px : Array Pix) (row n : Nat) : List Region × Bool :=
  (List.range n).foldl (fun (a : List Region × Bool) y =>
    let a := (newLine false a.1, a.2)
    let a := placeLine 0 false 1 a (c.flagged px row y false)
    let a := placeLine 1 true 1 a (c.flagged px row y true)
    if y % 16 = 15 ∨ y + 1 = n then
      let a := (newLine true a.1, a.2)
      let a := placeLine 2 false 16 a (c.tones px row (y / 16) n false)
      placeLine 2 true 16 a (c.tones px row (y / 16) n true)
    else a) (c.g.regions, false)

/-- A patch after the lines of a tile row (R396). -/
def Ctx.patchAfter (c : Ctx) (px : Array Pix) (row n : Nat) (flags : Nat → Nat → Nat) (t : PatchH) : PatchH :=
  let e := t.entry
  (List.range n).foldl (fun t y =>
    let k := 256 * row + y
    if patK e ≤ k ∧ k < patK e + patH e then
      (List.range (patW e)).foldl (fun t i =>
        let x := patX e + i
        let p := if x < c.w then px.getD ((y + 1) * c.w + x) Pix.off else Pix.off
        if p.usable then
          { t with
            sa := (List.range 3).map (fun ch => t.sa.getD ch 0 + p.a.getD ch 0)
            sq := (List.range 3).map (fun ch => t.sq.getD ch 0 + p.q.getD ch 0)
            n := t.n + 1
            suspect := t.suspect || (flags k (x / 256)).testBit 3
            tsus := t.tsus || (flags k (x / 256)).testBit 4 }
        else t) t
    else t) t

/-- Plumb-line after the lines of a tile row (R390); sus: whether the tile of a column carries POS_SUSPECT (R393). -/
def Ctx.plumbAfter (c : Ctx) (px : Array Pix) (row n covMin : Nat) (sus : Nat → Bool) (h : CeH) : CeH :=
  if !c.s.check 1 then h
  else
    (List.range n).foldl (fun h y =>
      (List.range c.w).foldl (fun h x =>
        let p := px.getD ((y + 1) * c.w + x) Pix.off
        if !p.counts then h
        else
          let k : Nat := 256 * row + y
          let pt := (c.regPoint x k).1
          let uv := rasterAt c.g.terms pt.1 pt.2
          let v := (p.sum + 64) / 128
          (List.range c.ref.nInk).foldl (fun h ink =>
            if covMin ≤ c.ref.sample ink uv.1 uv.2 then h.plAdd ink x v (sus (x / 256)) else h) h) h) h

/-- Mask cells of the segment's rows that are uncorrectable set CT_DBE when they are met (R374). -/
def Dev.cellCheck (d : Dev) (e : Nat) (g : EngSeg) : Dev :=
  match g.map with
  | none => d
  | some (_, m) =>
    let base := bits m 32 32
    let n := bits m 80 16 * bits m 96 16
    let lo := tabKey 0x0D e 3 0
    ((d.bad.filter (fun x => decide (lo + base ≤ x.1) && decide (x.1 < lo + base + n))).map (fun x => x.1 - lo)).foldl
      (fun d i => d.readTab 0x0D e Ce.F_CT_SBE Ce.F_CT_DBE 0x0D e 3 i) d

/-- An uncorrectable error in the snag and patch state: of the open regions and the patches a free value picks the one it
affects, which is discarded (R401). -/
def Dev.stateLost (d : Dev) (e : Nat) (g : EngSeg) : Dev × EngSeg :=
  let n := g.regions.length
  let i := d.freeVal 24 % max 1 (n + g.patches.length)
  let d := d.freeUsed
  if i < n then (d.evt 0x0D e Ce.E_SNAG_OVF, { g with regions := g.regions.eraseIdx i, ovf := true })
  else (d, { g with patches := g.patches.modify (i - n) (fun t => { t with lost := true }) })

/-- Judge tile row `row` of n lines: regions, tone, patches, Plumb-line, rows not inspected, regions that close. -/
def Dev.judgeRow (m : FrameStore) (d : Dev) (e p : Nat) (c : Ctx) (row n : Nat) : Dev × EngSeg :=
  let cols := cdiv c.w 256
  let img := fun n => c.imgs.find? (fun t => t.row == row && t.col == n)
  let flagAt := fun (k col : Nat) => match img col with
    | some t => t.flags.getD (k % 256) 0
    | none => 0
  let px := c.lines row n
  let u := d.useBuf 0x0D e Ce.F_ST_SBE Ce.F_ST_DBE
  let d := u.1.cellCheck e c.g
  let x := if u.2 then d.stateLost e c.g else (d, c.g)
  let d := x.1
  let g := x.2
  let rs := { c with g := g }.regionsAfter px row n
  let d := d.when (rs.2 && !g.ovf) (fun d => d.evt 0x0D e Ce.E_SNAG_OVF)
  let lost := g.lost.contains row
  let bad := ((List.range n).filter (fun y => (List.range cols).any (fun j => !rowUsable (flagAt (256 * row + y) j)))).length
  let susAt := fun (col : Nat) => match img col with
    | some t => t.flags.any (fun f => f.testBit 3)
    | none => false
  let d := d.setCe e (c.plumbAfter px row n (d.plUse e 2) susAt (d.ce e))
  let g := { g with
    regions := rs.1
    ovf := g.ovf || rs.2
    judged := g.judged + (((List.range n).map (fun y =>
      ((List.range c.w).filter (fun x => (px.getD ((y + 1) * c.w + x) Pix.off).judged)).length)).foldl (· + ·) 0)
    niRows := g.niRows + (if lost then 256 else bad)
    rowsJudged := row + 1
    rowFlags := g.rowFlags ++ (List.range n).flatMap (fun y => (List.range cols).map (fun j => flagAt (256 * row + y) j))
    patches := g.patches.map (fun t => c.patchAfter px row n flagAt t)
    tiles := g.tiles.filter (fun t => decide (row ≤ t.row)) }
  d.closeRegions m e p c.s g (fun r => decide (r.k1 + 1 < 256 * (row + 1)))

end Sys2Proof.Machine
end

