-- ==== Sys2Proof/Machine/Claims.lean ====
section
/-!
DEFINITION. The claims unit (R62–R65, R560) and its two commands.
The log's entries 12 and 19 of notes/assumptions name what is DEDUCED or a DESIGN CHOICE here, and marks each.
-/

namespace Sys2Proof.Machine

/-- What a claim register shows after an operation (R62). -/
def Dev.showClaim (d : Dev) (k : Res) (n : Nat) (x : Claim) (c i : Nat) : Dev :=
  d.setClaim k n { x with sCls := c, sInst := i, used := true }

/-- First and last entry of a compare-list slot's written range (R63). -/
def Dev.slotRange (d : Dev) (n : Nat) : Nat × Nat :=
  (d.rd Claims.CLR_BASE 2 n, d.rd Claims.CLR_LEN 2 n)

/-- Whether the written range lies within the list (R63). -/
def Dev.rangeInside (d : Dev) (n : Nat) : Bool :=
  let r := d.slotRange n
  decide (1 ≤ r.2) && decide (r.1 + r.2 ≤ 131072)

/-- The lowest other held slot whose range overlaps (R62). -/
def Dev.rangeBlocker (d : Dev) (n : Nat) : Option Nat :=
  let r := d.slotRange n
  (List.range 32).find? (fun m =>
    m != n && (d.claim .range m).held &&
      decide (r.1 < (d.slotRange m).1 + (d.slotRange m).2) && decide ((d.slotRange m).1 < r.1 + r.2))

/-- A claim conflict: DENIED, and CLAIM_CONFLICT in the claimant's page and in the claims page (R64). -/
def Dev.claimFail (d : Dev) (k : Res) (n c i sc si : Nat) : Dev :=
  let d := d.showClaim k n { d.claim k n with denied := true } sc si
  let p := canon c i
  (d.evt p.1 p.2 evtCLAIM_CONFLICT).evt 4 k.inst evtCLAIM_CONFLICT

/-- Whether a region's KIND lets a class claim it; the other resources have no kinds (R408). -/
def Dev.kindClaims (d : Dev) (k : Res) (n c : Nat) : Bool :=
  k != .hbm || c == (match d.rd Rgn.REG_CFG_KIND n with
    | 0 => 0x1F
    | 1 => 0x0C
    | 2 => 0x0D
    | _ => 0x0E)

/-- ACQUIRE, with the checks in the order of R64. -/
def Dev.claimAcquire (d : Dev) (k : Res) (n c i : Nat) : Dev :=
  let x := d.claim k n
  let partOk := match d.claimPart k n with
    | some p => decide (d.pagePart c i = p)
    | none => true
  if !(resEligible k n c i && d.kindClaims k n c && d.implemented c i && partOk) then
    (d.showClaim k n { x with denied := true } c i).badAccess 4 k.inst
  else if x.held && !(x.hCls == c && x.hInst == i) then d.claimFail k n c i x.hCls x.hInst
  else if x.held then
    d.showClaim k n { x with denied := false } c i
  else if k = .range ∧ d.rangeInside n = false then
    (d.claimFail k n c i c i).evt 4 2 Claims.E_RANGE_BAD
  else match (if k = .range then d.rangeBlocker n else none) with
    | some m => d.claimFail k n c i (d.claim .range m).hCls (d.claim .range m).hInst
    | none => d.showClaim k n { x with held := true, denied := false, hCls := c, hInst := i } c i

/-- RELEASE (R64). -/
def Dev.claimRelease (d : Dev) (k : Res) (n c i : Nat) : Dev :=
  let x := d.claim k n
  if !x.held then d.showClaim k n { x with denied := false } c i
  else if !(x.hCls == c && x.hInst == i) then d.evt 4 k.inst evtCLAIM_CONFLICT
  else if d.enabled c i then d.evt 4 k.inst Claims.E_CLAIM_IN_USE
  else d.showClaim k n { x with held := false, denied := false } c i

/-- A write to a claim register: it belongs by its resource; capture units take writes of every partition (R31, R560). -/
def Dev.busClaim (d : Dev) (r : Nat) (k : Res) (n : Nat) (f : Dev → Dev) : Dev :=
  if k.count ≤ n || isVf r || !d.reqLive r || !d.boot.aoUp then d
  else match d.claimPart k n with
    | none => f d
    | some p => if p = d.reqPart r then f d else d.deny

/-- One write of a claim register: OP 01 acquires, 10 releases, 00 and 11 do nothing (R62). -/
def Dev.claimOp (d : Dev) (k : Res) (n op c i : Nat) : Dev :=
  match op with
  | 1 => d.claimAcquire k n c i
  | 2 => d.claimRelease k n c i
  | _ => d

def execAcquire (req : Req) (res : Res) (n cls inst : Nat) (s : State) : Host.Outcome State Fault Refusal :=
  s.upd (fun d => d.busClaim req.num res n (fun d => d.claimOp res n 1 (cls % 64) (inst % 64)))

def execClaimRelease (req : Req) (res : Res) (n cls inst : Nat) (s : State) : Host.Outcome State Fault Refusal :=
  s.upd (fun d => d.busClaim req.num res n (fun d => d.claimOp res n 2 (cls % 64) (inst % 64)))

end Sys2Proof.Machine
end

