-- ==== Sys2Proof/Machine/Lanes.lean ====
section
/-!
DEFINITION. Lane receivers and transmitters: equalisers, adaptation, eye monitor, snapshots and reverts, eye scan
(R73–R87). Lane numbers are 0–63; their fields stand in class 0x08 (R16).
The log's entries 22, 23 and 74 of notes/assumptions name what is DEDUCED or a DESIGN CHOICE here, and marks each.
-/

namespace Sys2Proof.Machine

/-- The port of a lane (R66). -/
def lanePort (l : Nat) : Nat := l / 4

/-- The DFE tap fields, tap 1 first. -/
def tapFlds : List Fld :=
  [Lane.TAP1, Lane.TAP2, Lane.TAP3, Lane.TAP4, Lane.TAP5, Lane.TAP6, Lane.TAP7, Lane.TAP8, Lane.TAP9, Lane.TAP10,
   Lane.TAP11, Lane.TAP12, Lane.TAP13, Lane.TAP14, Lane.TAP15]

/-- Range limit of a tap, numbered from 0 (R75). -/
def tapLimit (i : Nat) : Int := if i = 0 then 100 else if i < 4 then 50 else 25

/-- A tap value held at its range limit (R75). -/
def clampTap (i v : Nat) : Nat := uInt 8 (clampI (-tapLimit i) (tapLimit i) (sInt 8 v))

/-- The coefficients that adapt and that a snapshot copies: CTLE, VGA, taps (R75, R81). -/
def coeffFlds : List Fld := Lane.RX_EQ_CTLE :: Lane.RX_EQ_VGA :: tapFlds

def Dev.coeffs (d : Dev) (l : Nat) : List Nat := coeffFlds.map (fun f => d.rd f l)

/-- Load coefficients. -/
def Dev.setCoeffs (d : Dev) (l : Nat) (vs : List Nat) : Dev :=
  (coeffFlds.zip vs).foldl (fun d e => d.wr e.1 l e.2) d

/-- RATE of a lane's port. -/
def Dev.laneRate (d : Dev) (l : Nat) : Nat := d.rd Port.LG_CFG_RATE (lanePort l)

/-- Coefficients from the rate defaults (R76, R99). -/
def Dev.coeffDefaults (d : Dev) (l : Nat) : Dev :=
  let r := d.laneRate l
  d.setCoeffs l ([Config.ctleDefault r, Config.vgaDefault r] ++ zeros 15)

/-- TX_FFE defaults by RATE: PRE, POST, AMP (R74). -/
def ffeDefault (rate : Nat) : Nat × Nat × Nat :=
  match rate with
  | 0 => (0, 6, 8)
  | 1 => (3, 10, 10)
  | _ => (5, 14, 12)

/-- TX_FFE takes the default of a rate (R74). -/
def Dev.ffeDefaults (d : Dev) (l rate : Nat) : Dev :=
  let v := ffeDefault rate
  ((d.wr Lane.TX_FFE_PRE l v.1).wr Lane.TX_FFE_POST l v.2.1).wr Lane.TX_FFE_AMP l v.2.2

/-- Since when the lane has held header lock with FOM at least FOM_GOOD (R95), and since when its FOM has lain below
FOM_FAIL with FOM_HELD = 0 (R89). -/
def Dev.laneGood (d : Dev) (l : Nat) : Dev :=
  let h := d.lane l
  let fom := d.rd Lane.FOM_INFO_FOM l
  let since := fun (c : Bool) (o : Option Nat) => if c then some (o.getD d.nowL) else none
  d.setLane l { h with
    goodSince := since (d.is Lane.STAT_HDR_LOCK l && decide (d.rd Lane.ADAPT_CFG_FOM_GOOD l ≤ fom)) h.goodSince
    lowSince := since (d.enabled 0x08 l && !d.is Lane.STAT_FOM_HELD l && decide (fom < d.rd Lane.ADAPT_CFG2_FOM_FAIL l))
      h.lowSince }

/-- FOM_HELD follows TD_LOW and a running scan (R80, R86). -/
def Dev.showFomHeld (d : Dev) (l : Nat) : Dev :=
  (d.wrb Lane.STAT_FOM_HELD l (d.is Lane.STAT_TD_LOW l || d.is Lane.SCAN_CTRL_BUSY l)).laneGood l

/-- Adaptation starts from the rate defaults; the snapshot is no longer valid (R76, R85). With ADAPT_EN 0 the coefficients hold
their values (R77). -/
def Dev.adaptStart (d : Dev) (l : Nat) : Dev :=
  let d := (d.when (d.is Lane.LANE_CFG_ADAPT_EN l) (fun d => d.coeffDefaults l)).wr Lane.STAT_SNAP_VALID l 0
  let d := (d.wr Lane.STAT_ACQUIRING l 1).wr Lane.STAT_ADAPT_STUCK l 0
  d.setLane l { d.lane l with snap := [], reverts := [], awaitFom := false, revertSinceTick := false }

/-- A snapshot (R81). -/
def Dev.laneSnap (d : Dev) (l : Nat) : Dev :=
  let fom := d.rd Lane.FOM_INFO_FOM l
  let d := d.setLane l { d.lane l with snap := d.coeffs l }
  ((d.wr Lane.FOM_INFO_SNAP_FOM l fom).wr Lane.FOM_INFO_FOM_HWM l fom).wr Lane.STAT_SNAP_VALID l 1

/-- A revert, and the end of adaptation when REVERT_LIMIT is reached within 1,000 ticks (R83, R84). -/
def Dev.laneRevert (d : Dev) (l : Nat) : Dev :=
  let h := d.lane l
  let d := (d.setCoeffs l h.snap).incSat Lane.CNT_A_REVERT_CNT l
  let d := d.evt 0x08 l Lane.E_ADAPT_REVERT
  let rs := h.tick :: h.reverts.filter (fun t => decide (h.tick < t + 1000))
  let d := d.setLane l { h with revertSinceTick := true, awaitFom := true, reverts := rs }
  let lim := d.rd Lane.ADAPT_CFG2_REVERT_LIMIT l
  d.when (lim != 0 && decide (lim ≤ rs.length) && !d.is Lane.STAT_ADAPT_STUCK l) (fun d =>
    (d.wr Lane.STAT_ADAPT_STUCK l 1).evt 0x08 l Lane.E_ADAPT_STUCK)

/-- One step of a boundary point (R78). -/
def eyeStep (p : Int) (mismatches : Nat) : Int := if mismatches = 0 then p + 1 else p - 1

/-- A limited distance (R78). -/
def eyeSpan (a b : Int) (lim : Nat) : Nat := (clampI 0 lim (a + b)).toNat

/-- A round of four dwells: the points, EH, EW and FOM, then the high-water mark and the revert (R78, R82, R83). While
FOM_HELD nothing moves (R80, R86). -/
def Dev.fomUpdate (d : Dev) (l top bottom left right : Nat) : Dev :=
  if d.is Lane.STAT_FOM_HELD l || !d.enabled 0x08 l then d
  else
    let h := d.lane l
    let h := { h with
      top := eyeStep h.top top
      bottom := eyeStep h.bottom bottom
      left := eyeStep h.left left
      right := eyeStep h.right right }
    let eh := eyeSpan h.top h.bottom 128
    let ew := eyeSpan h.left h.right 64
    let fom := min 255 ((eh * ew) >>> 5)
    let old := d.rd Lane.FOM_INFO_FOM l
    let await := h.awaitFom
    let hwm := if await then fom else max fom (d.rd Lane.FOM_INFO_FOM_HWM l)
    let d := d.setLane l { h with awaitFom := false }
    let d := (d.wr Lane.EYE_EH l eh).wr Lane.EYE_EW l ew
    let d := ((d.wr Lane.FOM_INFO_FOM l fom).wr Lane.STAT_FOM l fom).wr Lane.FOM_INFO_FOM_HWM l hwm
    let d := d.wr Lane.FOM_INFO_FOM_MIN l (min fom (d.rd Lane.FOM_INFO_FOM_MIN l))
    let fail := d.rd Lane.ADAPT_CFG2_FOM_FAIL l
    let d := d.when (decide (fail ≤ old) && decide (fom < fail)) (fun d => d.evt 0x08 l Lane.E_FOM_LOW)
    let d := d.when (d.is Lane.STAT_SNAP_VALID l && decide (d.rd Lane.ADAPT_CFG_FOM_DROP l + fom < hwm) &&
        d.is Lane.LANE_CFG_ADAPT_EN l && !d.is Lane.STAT_ADAPT_STUCK l) (fun d => d.laneRevert l)
    d.laneGood l

/-- A 4,096-bit window of adaptation: each coefficient moves at most one step, up to four while acquiring (R76, R80,
R84). -/
def Dev.adaptWindow (d : Dev) (l : Nat) (moves : List Int) : Dev :=
  if !d.is Lane.LANE_CFG_ADAPT_EN l || d.is Lane.STAT_ADAPT_STUCK l || d.is Lane.STAT_TD_LOW l ||
      !d.enabled 0x08 l then d
  else
    let m : Int := if d.is Lane.STAT_ACQUIRING l then 4 else 1
    let mv := fun (i : Nat) => clampI (-m) m (moves.getD i 0)
    let d := d.wr Lane.RX_EQ_CTLE l (clampI 0 15 ((d.rd Lane.RX_EQ_CTLE l : Int) + mv 0)).toNat
    let d := d.wr Lane.RX_EQ_VGA l (clampI 0 63 ((d.rd Lane.RX_EQ_VGA l : Int) + mv 1)).toNat
    (tapFlds.zipIdx).foldl (fun d e =>
      d.wrI e.1 l (clampI (-tapLimit e.2) (tapLimit e.2) (d.rdI e.1 l + mv (e.2 + 2)))) d

/-- COEFF_PAR: the coefficients are reloaded from the snapshot, or from the rate defaults (R100). -/
def Dev.coeffPar (d : Dev) (l : Nat) : Dev :=
  if d.is Lane.STAT_SNAP_VALID l then d.setCoeffs l (d.lane l).snap else d.coeffDefaults l

def execAdaptWindow (lane : Fin 64) (moves : List Int) (s : State) : Host.Outcome State Fault Refusal :=
  s.upd (fun d =>
    if d.armed 0x08 lane Lane.F_COEFF_PAR then
      ((d.disarm 0x08 lane Lane.F_COEFF_PAR).flt 0x08 lane Lane.F_COEFF_PAR).coeffPar lane
    else d.adaptWindow lane moves)

/-- The lane has held header lock for 1 ms (R76). -/
def execAcquisitionEnd (lane : Fin 64) (s : State) : Host.Outcome State Fault Refusal :=
  s.upd (fun d => d.when (d.is Lane.STAT_HDR_LOCK lane) (fun d => d.wr Lane.STAT_ACQUIRING lane 0))

/-- A transition-count window ends (R80); with EN 0 the receiver is off (R97). -/
def execTdWindow (lane : Fin 64) (transitions : Nat) (s : State) : Host.Outcome State Fault Refusal :=
  s.upd (fun d => d.when (d.enabled 0x08 lane) (fun d =>
    let low := decide (transitions < d.rd Lane.ADAPT_CFG_ADAPT_TD_MIN lane)
    let was := d.is Lane.STAT_TD_LOW lane
    let d := (d.wrb Lane.STAT_TD_LOW lane low).showFomHeld lane
    d.when (low && !was) (fun d => (d.incSat Lane.CNT_A_TD_FROZEN_CNT lane).evt 0x08 lane Lane.E_TD_LOW)))

/-- The 1 ms snapshot tick (R81, R85). -/
def execSnapshotTick (lane : Fin 64) (s : State) : Host.Outcome State Fault Refusal :=
  s.upd (fun d =>
    if d.enabled 0x08 lane && d.is Lane.LANE_CFG_ADAPT_EN lane then
      let h := d.lane lane
      let d := d.when (decide (d.rd Lane.ADAPT_CFG_FOM_GOOD lane ≤ d.rd Lane.FOM_INFO_FOM lane) &&
        !d.is Lane.STAT_TD_LOW lane && !h.revertSinceTick) (fun d => d.laneSnap lane)
      d.setLane lane { d.lane lane with tick := h.tick + 1, revertSinceTick := false }
    else d)

/-! ## ADAPT_CMD (R99) -/

def Dev.cmdSnapNow (d : Dev) (l : Nat) : Dev := d.laneSnap l

def Dev.cmdRevertNow (d : Dev) (l : Nat) : Dev := d.when (d.is Lane.STAT_SNAP_VALID l) (fun d => d.laneRevert l)

def Dev.cmdRestart (d : Dev) (l : Nat) : Dev := d.adaptStart l

/-- Adaptation resumes; the reverts counted so far are forgotten (R84). -/
def Dev.cmdClearStuck (d : Dev) (l : Nat) : Dev :=
  d.when (d.is Lane.STAT_ADAPT_STUCK l) (fun d =>
    (d.wr Lane.STAT_ADAPT_STUCK l 0).setLane l { d.lane l with reverts := [] })

/-- CLR_CNT of the lane page (R99). -/
def Dev.laneClrCnt (d : Dev) (l : Nat) : Dev :=
  d.clearAll [Lane.CNT_A_REVERT_CNT, Lane.CNT_A_TD_FROZEN_CNT, Lane.CNT_B_LOCK_LOSS_CNT, Lane.CNT_B_HDR_ERR_CNT] l

def execSnapNow (req : Req) (lane : Fin 64) (s : State) : Host.Outcome State Fault Refusal :=
  s.upd (fun d => d.busLane req.num lane (fun d => d.cmdSnapNow lane))

def execRevertNow (req : Req) (lane : Fin 64) (s : State) : Host.Outcome State Fault Refusal :=
  s.upd (fun d => d.busLane req.num lane (fun d => d.cmdRevertNow lane))

def execRestart (req : Req) (lane : Fin 64) (s : State) : Host.Outcome State Fault Refusal :=
  s.upd (fun d => d.busLane req.num lane (fun d => d.cmdRestart lane))

def execClearStuck (req : Req) (lane : Fin 64) (s : State) : Host.Outcome State Fault Refusal :=
  s.upd (fun d => d.busLane req.num lane (fun d => d.cmdClearStuck lane))

/-- A write of ADAPT_EN: adaptation holds or resumes from the coefficients as they stand (R77). -/
def execAdaptEn (req : Req) (lane : Fin 64) (on : Bool) (s : State) : Host.Outcome State Fault Refusal :=
  s.upd (fun d => d.busLane req.num lane (fun d => d.wrb Lane.LANE_CFG_ADAPT_EN lane on))

/-- A TX_FFE write (R73, R74). -/
def Dev.ffeWrite (d : Dev) (l amp post pre : Nat) : Dev :=
  if 31 < pre % 16 + post % 32 then d.badAccess 0x08 l
  else ((d.wr Lane.TX_FFE_AMP l amp).wr Lane.TX_FFE_POST l post).wr Lane.TX_FFE_PRE l pre

def execTxFfeWrite (req : Req) (lane : Fin 64) (amp post pre : Nat) (s : State) : Host.Outcome State Fault Refusal :=
  s.upd (fun d => d.busLane req.num lane (fun d => d.ffeWrite lane amp post pre))

/-- A SCAN_CTRL write (R86, R99); with EN 0 the receiver is off and START starts no scan (R97). -/
def Dev.scanWrite (d : Dev) (l dwell v h : Nat) (start : Bool) : Dev :=
  let hI := sInt 7 h
  if dwell % 32 < 16 ∨ 30 < dwell % 32 ∨ hI < -32 ∨ 32 < hI then d.badAccess 0x08 l
  else if start && d.is Lane.SCAN_CTRL_BUSY l then d.badAccess 0x08 l
  else
    let d := ((d.wr Lane.SCAN_CTRL_DWELL_LOG2 l dwell).wr Lane.SCAN_CTRL_V_OFF l v).wr Lane.SCAN_CTRL_H_OFF l h
    d.when (start && d.enabled 0x08 l) (fun d => ((d.wr Lane.SCAN_CTRL_BUSY l 1).wr Lane.SCAN_RES_DONE l 0).showFomHeld l)

def execScanStart (req : Req) (lane : Fin 64) (dwellLog2 vOff hOff : Nat) (s : State) :
    Host.Outcome State Fault Refusal :=
  s.upd (fun d => d.busLane req.num lane (fun d => d.scanWrite lane dwellLog2 vOff hOff true))

/-- The dwell ends (R86). -/
def execScanDone (lane : Fin 64) (mismatches : Nat) (s : State) : Host.Outcome State Fault Refusal :=
  s.upd (fun d => d.when (d.is Lane.SCAN_CTRL_BUSY lane) (fun d =>
    let d := (d.wr Lane.SCAN_CTRL_BUSY lane 0).wr Lane.SCAN_RES_DONE lane 1
    let d := d.wr Lane.SCAN_RES_ERR_CNT lane (min mismatches (2 ^ 24 - 1))
    (d.showFomHeld lane).evt 0x08 lane Lane.E_SCAN_DONE))

end Sys2Proof.Machine
end

