-- ==== Sys2Proof/Machine/Pcs.lean ====
section
/-!
DEFINITION. The blocks of a Flegar port (R103–R109, R113): which lanes it drives, commas and super-frames, packets cut into
blocks, striped and scrambled; on the receive side one block through polarity and descrambler.
The log's entries 6, 24 and 74 of notes/assumptions name what is DEDUCED or a DESIGN CHOICE here, and marks each.
-/

namespace Sys2Proof.Machine

def Dev.linkUp (d : Dev) (p : Nat) : Bool := d.is Port.STAT_LINK_UP p

/-- The physical lanes of a port. -/
def portLanes (p : Nat) : List Nat := (List.range 4).map (fun i => 4 * p + i)

/-- The logical lanes of ACTIVE_MASK, ascending (R90). -/
def Dev.activeLanes (d : Dev) (p : Nat) : List Nat :=
  (List.range 4).filter (fun i => (d.rd Port.LG_STAT_ACTIVE_MASK p).testBit i)

/-- The port drives physical lane i of its four; the others stand in electrical idle: a page with EN = 0, a reference that is
not in limits, a lane that is not expected (R72, R91, R97). -/
def Dev.txDriven (d : Dev) (p i : Nat) : Bool :=
  d.enabled 0x0A p && d.enabled 0x08 (4 * p + i) && d.is Port.LG_STAT_REFOUT_OK p &&
    (d.rd Port.LG_CFG_EXPECT_MASK p).testBit i

/-- A transmitter is enabled: its scrambler starts from a state that is not zero (R104). -/
def Dev.txStart (d : Dev) (l : Nat) : Dev :=
  (d.setLane l { d.lane l with scr := 1 + d.freeVal 58 % (2 ^ 58 - 1) }).freeUsed

/-- A block as it stands at the balls of a lane's transmit pair (R87). -/
def Dev.txBall (d : Dev) (l : Nat) (b : Nat × Nat) : Nat × Nat := if d.is Lane.LANE_CFG_TX_INV l then invBlock b else b

/-- One block through a lane's scrambler (R104). -/
def Dev.laneSend (d : Dev) (l : Nat) (b : Nat × Nat) : Dev × (Nat × Nat × Nat) :=
  let r := scramble (d.lane l).scr b.2
  let d := d.setLane l { d.lane l with scr := r.1 }
  (d, l, d.txBall l (b.1, r.2))

/-- Send commas with the present NEAR_MASK on every lane driven, logical lane i on physical lane i of the port: bursts of
eight, or one. The first is slot 0 of a super-frame (R88, R107–R109). -/
def Dev.sendCommas (d : Dev) (p count : Nat) : Dev :=
  let near := d.rd Port.LG_STAT_NEAR_MASK p
  let row := ((List.range 4).filter (d.txDriven p)).map (fun i =>
    (4 * p + i, d.txBall (4 * p + i) (2, commaPay i near (if count = 8 then 1 else 0))))
  let d := d.setPort p { d.port p with txSlot := count }
  if row.isEmpty then d else d.emit (.commas p count row)

/-- One slot: a stream block on each lane of ACTIVE_MASK, IDLE on every other lane driven (R113). -/
def Dev.slotRow (d : Dev) (p : Nat) (blocks : List (Nat × Nat)) : Dev × List (Nat × Nat × Nat) :=
  let act := d.activeLanes p
  ((List.range 4).filter (d.txDriven p)).foldl (fun a i =>
    let b := match (act.zip blocks).find? (fun x => x.1 == i) with
      | some x => x.2
      | none => idleBlock
    let r := a.1.laneSend (4 * p + i) b
    (r.1, a.2 ++ [r.2])) (d, [])

/-- A slot leaves; slot 0 of a super-frame is that of a single comma, and the stream goes on behind it (R108, R113). -/
def Dev.slotSend (d : Dev) (p : Nat) (blocks : List (Nat × Nat)) : Dev × List (Nat × Nat × Nat) :=
  let d := d.when ((d.port p).txSlot == 0) (fun d => d.sendCommas p 1)
  let r := d.slotRow p blocks
  (r.1.setPort p { r.1.port p with txSlot := ((r.1.port p).txSlot + 1) % 16384 }, r.2)

/-- IDLE blocks fill the slots (R106, R116). -/
def Dev.sendIdle (d : Dev) (p : Nat) : Dev :=
  let r := d.slotSend p []
  let r := (r.1, r.2)
  if r.2.isEmpty then r.1 else r.1.emit (.idle p r.2)

/-- A burst of eight commas, and IDLE blocks behind it (R109, R116). -/
def Dev.sendBurst (d : Dev) (p : Nat) : Dev := (d.sendCommas p 8).sendIdle p

/-- The far-end loop runs, from the camera's response at step 3 to that of step 5 of R149: the device sends TEST and IDLE
blocks only. -/
def Dev.lbOn (d : Dev) (p : Nat) : Bool := (d.port p).lb == .active || (d.port p).lb == .leaving

/-- A packet leaves as blocks over the lanes of ACTIVE_MASK (R106, R113). Those of a TEST packet in the far-end loop are
kept to be compared with what comes back (R149). -/
def Dev.pcsSend (d : Dev) (p : Nat) (bs : List Nat) : Dev :=
  let rows := stripe (d.activeLanes p).length (packetBlocks bs)
  let d := d.when (d.lbOn p && byteAt bs 0 == 0x0F) (fun d =>
    d.setLoop p { d.loop p with expect := (d.loop p).expect ++ rows.flatten })
  let r := rows.foldl (fun a row =>
    let x := a.1.slotSend p row
    (x.1, a.2 ++ [x.2])) (d, [])
  r.1.emit (.flegar p bs r.2)

/-- A block as a lane's receiver takes it from the balls (R87, R97). -/
def Dev.rxBall (d : Dev) (l : Nat) (b : Nat × Nat) : Nat × Nat := if d.is Lane.LANE_CFG_RX_INV l then invBlock b else b

/-- One block through a lane's descrambler (R104). -/
def Dev.laneTake (d : Dev) (l : Nat) (b : Nat × Nat) : Dev × (Nat × Nat) :=
  let r := descramble (d.lane l).dscr b.2
  (d.setLane l { d.lane l with dscr := r.1 }, b.1, r.2)

/-- A packet lost to CRC or framing is counted (R105, R118). -/
def Dev.crcErr (d : Dev) (p : Nat) : Dev := (d.incSat Port.CNT_A_CRC_ERR_CNT p).evt 0x0A p Port.E_CRC_ERR

/-- The reservation of the LINE or FRAME packet in progress is returned (R160). -/
def Dev.rxReturn (d : Dev) (p : Nat) (bs : List Nat) : Dev :=
  d.when (byteAt bs 0 == 1 || byteAt bs 0 == 2) (fun d => d.ingReturn p (le bs 4 2))

/-- The packet in progress goes (R105, R114). -/
def Dev.rxCut (d : Dev) (p : Nat) : Dev :=
  match (d.port p).rx with
  | some bs =>
    ((d.setPort p { d.port p with rx := none }).setLoop p { d.loop p with lastTest := [] }).rxReturn p bs
  | none => d

/-- The packet in progress is dropped and counted (R105). -/
def Dev.rxDrop (d : Dev) (p : Nat) : Dev := (d.rxCut p).when (d.port p).rx.isSome (fun d => d.crcErr p)

end Sys2Proof.Machine
end

