-- ==== Sys2Proof/Machine/Port.lean ====
section
/-!
DEFINITION. A Flegar port: transmission, acknowledgement and retry (R126–R134), TIME requests (R137–R139), trigger
placement (R143), MGMT requests (R145), and the link itself: commas, lock, deskew, the active set, up and down
(R88–R96, R107–R115).
The log's entries 24, 25, 26, 27 and 65 of notes/assumptions name what is DEDUCED or a DESIGN CHOICE here, and marks each.
-/

namespace Sys2Proof.Machine

/-! ## Sending -/

/-- Send a packet through the transmit injector (R512). -/
def Dev.sendPkt (d : Dev) (p : Nat) (bs : List Nat) : Dev :=
  let r := d.inject p 1 (byteAt bs 0) bs
  r.2.foldl (fun d b => d.pcsSend p b) r.1

/-- The device-side loop in effect on a port: 1 LB0, 2 LB1, 3 LB3 (R501, R502). -/
def Dev.loopDepth (d : Dev) (p : Nat) : Nat := (d.loop p).depth

/-- Send CREDIT: the limit computed and the last SEQ accepted (R126, R128, R133); with port-ingest EN 0 the limit holds
(R160). The far-end loop sends none (R149). -/
def Dev.sendCredit (d : Dev) (p : Nat) : Dev :=
  if !d.linkUp p || d.loopDepth p == 3 || d.lbOn p then d
  else
    let d := d.when (d.enabled 0x0B p) (fun d => d.wr Ingest.VID_LIMIT p (d.vidLimit p))
    let h := d.port p
    let ack := match h.lastAck with
      | some n => (n, 3)
      | none => (0, 2)
    d.sendPkt p (creditPkt (d.rd Ingest.VID_LIMIT p) ack.1 ack.2)

/-- Show CTRL_OUT (R151). -/
def Dev.showOut (d : Dev) (p : Nat) : Dev := d.wr Port.STAT_CTRL_OUT p (d.port p).out.length

/-- Room in the transmit window (R131). -/
def Dev.windowOpen (d : Dev) (p : Nat) : Bool :=
  decide ((d.port p).out.length < min 32 (d.rd Port.RETRY_CFG_TX_WINDOW p))

/-- Send a new control packet built from its SYNC bit and SEQ, and keep it for retry (R131, R132). -/
def Dev.sendCtl (d : Dev) (p : Nat) (isTrig : Bool) (act : Nat) (mk : Nat → Nat → List Nat) : Dev :=
  let h := d.port p
  let bs := mk (d.rd Port.STAT_SYNC_PENDING p) h.txSeq
  let d := d.wr Port.STAT_SYNC_PENDING p 0
  let d := d.setPort p { h with
    txSeq := (h.txSeq + 1) % 256
    out := h.out ++ [⟨h.txSeq, bs, 0, isTrig, act⟩] }
  (d.showOut p).sendPkt p bs

/-! ## MGMT (R145, R146, R149) -/

/-- MGMT requests run: up, no device-side loop, and no far-end loop but its own exit (R149, R502). -/
def Dev.mgmtRuns (d : Dev) (p : Nat) : Bool := d.linkUp p && d.loopDepth p == 0

/-- Request data: MGMT_DATA words of a WRITE, MODE and DURATION of a LOOPBACK (R125). -/
def Dev.mgmtData (d : Dev) (p : Nat) (m : Mgmt) : List Nat :=
  match m.user with
  | .loopEnter => leBytes 4 (1 + d.rd Port.LB_CTRL_DURATION p * 2 ^ 16)
  | .loopExit => zeros 4
  | _ => if m.op = 2 then
      (((List.range 64).map (fun i => leBytes 4 (d.rd Port.MGMT_DATA p i))).flatten).take m.count
    else []

/-- Send a MGMT request. -/
def Dev.mgmtSend (d : Dev) (p : Nat) (m : Mgmt) : Dev :=
  let h := d.port p
  let m := { m with tag := h.mgmtTag }
  let data := d.mgmtData p m
  let d := d.setPort p { h with mgmt := some m, mgmtTag := (h.mgmtTag + 1) % 2 ^ 16 }
  d.sendCtl p false 0 (fun sync seq => mgmtPkt sync seq m.tag m.op m.count m.addr data)

/-- Send what waits: the request that leaves the far-end loop, or the next identity read, then the request that enters that
loop, then a request of software (R131, R145, R146, R149). -/
def Dev.mgmtPump (d : Dev) (p : Nat) : Dev :=
  let h := d.port p
  if h.mgmt.isSome || !d.mgmtRuns p || !d.windowOpen p then d
  else if d.lbOn p then d.when (h.lb == .leaving) (fun d => d.mgmtSend p ⟨.loopExit, 4, 0, 4, 0⟩)
  else match h.idRead with
    | some n => if n < 16 then d.mgmtSend p ⟨.identity, 3, 0, 256, 256 * n⟩ else d
    | none =>
      if h.lb = .entering then d.mgmtSend p ⟨.loopEnter, 4, 0, 4, 0⟩
      else match h.swMgmt with
        | some m => (d.setPort p { h with swMgmt := none }).mgmtSend p m
        | none => d

/-- End the software request with a status (R145). -/
def Dev.mgmtDone (d : Dev) (p status : Nat) : Dev :=
  let d := ((d.wr Port.MGMT_CMD_STATUS p status).wr Port.MGMT_CMD_BUSY p 0).wr Port.STAT_MGMT_BUSY p 0
  d.evt 0x0A p Port.E_MGMT_DONE

/-- The far-end loop ends: LB_ACTIVE clears, LB_DONE, control packets restart with SYNC (R149). -/
def Dev.lb2End (d : Dev) (p status : Nat) (done : Bool) : Dev :=
  let d := d.setPort p { d.port p with lb := .off }
  let d := ((d.wr Port.LB_CTRL_ACTIVE p 0).wr Port.STAT_LB_ACTIVE p 0).wr Port.LB_CTRL_LB_STATUS p status
  d.when done (fun d => (d.wr Port.STAT_SYNC_PENDING p 1).evt 0x0A p Port.E_LB_DONE)

/-- Abandon every outstanding control packet (R133), with a fault or, at port down, without; an MGMT request that was
acknowledged is outstanding no longer and still waits for its response. -/
def Dev.ctlAbandon (d : Dev) (p : Nat) (fault : Bool) : Dev :=
  let h := d.port p
  let trigs := (h.out.filter (fun c => c.isTrig)).length
  let asked := h.out.any (fun c => !c.isTrig)
  let d := d.setPort p { h with out := [], mgmt := if asked then none else h.mgmt }
  let d := d.addSat Port.CNT_E_TRIG_ABANDON_CNT p trigs
  let d := (d.showOut p).wr Port.STAT_SYNC_PENDING p 1
  let d := d.when fault (fun d => d.flt 0x0A p Port.F_RETRY_EXHAUSTED)
  match (if asked then h.mgmt else none) with
  | some m => match m.user with
    | .software => d.mgmtDone p 9
    | .identity => d.setPort p { d.port p with idBuf := zeros 4096, idRead := some 16 }
    | _ => d.lb2End p 2 true
  | none => d

/-! ## TIME requests (R137–R139) -/

/-- DELAY_ASYM as the exchange in effect took it (R150). -/
def Dev.asym (d : Dev) (p : Nat) : Int := sInt 32 (d.port p).asym

/-- The modulation frequency of SSC_FREQ in Hz (R101). -/
def sscHz (code : Nat) : Nat := 30000 + 1000 * code

/-- The spread phase at present: it advances at SSC_FREQ in device time from where it stood (R142). -/
def Dev.sscPhase (d : Dev) (p : Nat) : Nat :=
  match (d.port p).ssc with
  | some (p0, at0) => (p0 + (d.nowL - at0) * sscHz (d.rd Port.LG_CFG_SSC_FREQ p) / 1000000000) % 65536
  | none => d.freeVal 16

/-- A spread that has just begun has a phase of its own (R142). -/
def Dev.sscBegin (d : Dev) (p : Nat) : Dev :=
  d.when (d.is Port.LG_CFG_SSC_EN p && (d.port p).ssc.isNone) (fun d =>
    (d.setPort p { d.port p with ssc := some (d.sscPhase p, d.nowL) }).freeUsed)

/-- The spread ends; its next start is free (R142). -/
def Dev.sscStop (d : Dev) (p : Nat) : Dev := d.setPort p { d.port p with ssc := none }

/-- CORR of the next REQ (R138, R139): 0 while a step of the path is pending, the last path delay in the first REQ after a
port up. -/
def Dev.nextCorr (d : Dev) (p : Nat) : Int :=
  let h := d.port p
  if d.is Port.STAT_PD_STEP_PENDING p then 0
  else if h.corrSet && !h.dGoodValid then
    if h.validSinceEn then (d.rd Port.PATH_DELAY p : Int) + d.rdI Port.DELAY_ASYM p else 0
  else h.corr

/-- Start a TIME exchange (R124, R137, R138); DELAY_ASYM and PD_STEP_LIMIT act from it on (R150). A correction that a pending
step of the path holds back stays for a later REQ. -/
def Dev.timeReq (d : Dev) (p : Nat) : Dev :=
  if !d.linkUp p || !d.is Port.PORT_CFG_TIME_EN p || d.loopDepth p != 0 || d.lbOn p then d
  else
    let d := d.sscBegin p
    let h := d.port p
    let ssc := d.is Port.LG_CFG_SSC_EN p
    let corr := uInt 64 (d.nextCorr p)
    let t1 := d.now
    let cfg := if ssc then d.rd Port.LG_CFG_SSC_DEPTH p + 8 * d.rd Port.LG_CFG_SSC_FREQ p else 0
    let phase := if ssc then d.sscPhase p else 0
    let d := d.setPort p { h with
      xid := (h.xid + 1) % 2 ^ 16
      exch := some ⟨h.xid, t1, corr⟩
      asym := d.rd Port.DELAY_ASYM p
      pdLimit := d.rd Port.PD_STEP_LIMIT p
      corr := if d.is Port.STAT_PD_STEP_PENDING p && !h.corrSet then h.corr else 0
      corrSet := false, stepDue := false }
    d.sendPkt p (timePkt h.xid (b2n h.corrSet + 2 * b2n ssc + 4 * b2n h.stepDue) phase t1 corr (d.rd Tu.INCR 0) cfg)

/-- An exchange was invalid (R140). -/
def Dev.exchLost (d : Dev) (p : Nat) : Dev :=
  let h := d.port p
  let d := (d.setPort p { h with exch := none, invalidRun := h.invalidRun + 1 }).incSat Port.CNT_D_TIME_LOST_CNT p
  d.when (h.invalidRun + 1 == 8) (fun d =>
    let fresh := !d.is Port.STAT_TIME_SUSPECT p
    let d := d.setPort p { d.port p with staleOnly := fresh || (d.port p).staleOnly }
    (d.wr Port.STAT_TIME_SUSPECT p 1).evt 0x0A p Port.E_TIME_STALE)

/-- A step of the device clock by s: the next REQ carries the negated step and STEP (R138). A REQ with SET loads the
camera's time from T1, which is stepped already, and keeps the CORR of R139. -/
def Dev.portStepped (d : Dev) (p : Nat) (s : Int) : Dev :=
  let h := d.port p
  d.setPort p { h with
    corr := if h.corrSet then h.corr else h.corr - s
    stepDue := true
    ssc := h.ssc.map (fun x => (x.1, ((x.2 : Int) + s).toNat)) }

/-! ## Triggers (R143) -/

/-- A trigger reaches the port with its activation time; triggers count as line starts (R96). -/
def Dev.portTrigger (d : Dev) (p act action out width expo : Nat) : Dev :=
  let h := d.port p
  d.setPort p { h with
    trigs := h.trigs ++ [⟨act, action, out, width, expo⟩]
    trigStarts := h.trigStarts + (if action = 1 then 1 else 0) }

/-- A TRIG path that discards at the source's side: the port PCS island is gated (R151, R220). -/
def Dev.portGated (d : Dev) (p : Nat) : Bool := d.silent 0x0A p

/-- The late check of R143 for an activation time in 2^-16 ns. -/
def Dev.trigLate (d : Dev) (p act : Nat) : Bool :=
  decide ((act : Int) < d.nowL + d.rd Port.D_GOOD p + d.asym p + 200 * nsL)

/-- Drop a late trigger. -/
def Dev.trigDrop (d : Dev) (p : Nat) : Dev := (d.incSat Port.CNT_B_TRIG_LATE_CNT p).evt 0x0A p Port.E_TRIG_LATE

/-! ## The active set (R88–R95) -/

/-- The active set of R90. -/
def activeSet (near far : Nat) : Nat :=
  let h := near &&& far &&& 0xF
  if h = 0xF then 0xF
  else
    let ls := ((List.range 4).filter (fun i => h.testBit i)).take 2
    if ls.length = 2 then (ls.map (fun i => 2 ^ i)).sum else 0

/-- Width of a mask. -/
def maskWidth (m : Nat) : Nat := ((List.range 4).filter (fun i => m.testBit i)).length

/-- The comma-locked lane that carries logical lane i. -/
def Dev.carrier (d : Dev) (p i : Nat) : Option Nat :=
  (portLanes p).find? (fun l => d.is Lane.STAT_COMMA_LOCK l && d.rd Lane.STAT_RX_LOGICAL l == i)

/-- The lane last known to carry logical lane i. -/
def Dev.knownCarrier (d : Dev) (p i : Nat) : Option Nat :=
  (portLanes p).find? (fun l => (d.lane l).known == some i)

/-- NEAR_MASK bit i by the conditions of R90. -/
def Dev.nearBit (d : Dev) (p i : Nat) : Bool :=
  (d.rd Port.LG_CFG_EXPECT_MASK p).testBit i && !(d.rd Port.LG_STAT_EXCLUDED p).testBit i &&
    match d.carrier p i with
    | some l => d.is Lane.STAT_HDR_LOCK l && !d.is Lane.LANE_CFG_EXCLUDE l &&
        decide (d.rd Lane.ADAPT_CFG2_FOM_FAIL l ≤ d.rd Lane.FOM_INFO_FOM l)
    | none => false

/-- A bit already advertised stays until the lane is declared failed or software excludes it (R89, R92, R98). -/
def Dev.nearKeep (d : Dev) (p i : Nat) : Bool :=
  (d.rd Port.LG_STAT_NEAR_MASK p).testBit i && (d.rd Port.LG_CFG_EXPECT_MASK p).testBit i &&
    !(d.rd Port.LG_STAT_EXCLUDED p).testBit i &&
    match d.knownCarrier p i with
    | some l => !d.is Lane.LANE_CFG_EXCLUDE l
    | none => true

/-- A mask from a predicate on lane numbers. -/
def maskOf (f : Nat → Bool) : Nat := (List.range 4).foldl (fun a i => if f i then a + 2 ^ i else a) 0

/-- NEAR_MASK (R90, R92). -/
def Dev.nearMask (d : Dev) (p : Nat) : Nat :=
  let up := d.linkUp p
  if !d.is Port.LG_CFG_AUTO_NARROW p && up then
    maskOf (fun i => (d.port p).nearHold.testBit i &&
      match d.knownCarrier p i with
      | some l => !d.is Lane.LANE_CFG_EXCLUDE l
      | none => true)
  else maskOf (fun i => d.nearBit p i || (up && d.nearKeep p i))

/-- Whether two slot-0 positions lie within the skew tolerance (R112). -/
def skewOk (a b : Nat) : Bool :=
  let x := (a + 16384 - b % 16384) % 16384
  decide (x ≤ 64) || decide (16384 - 64 ≤ x)

/-- Every lane of a set is comma-locked and aligned (R112, R114). -/
def Dev.deskewed (d : Dev) (p m : Nat) : Bool :=
  let cs := ((List.range 4).filter (fun i => m.testBit i)).map (fun i => d.carrier p i)
  cs.all (fun c => c.isSome) &&
    cs.all (fun a => cs.all (fun b => match a, b with
      | some x, some y => skewOk (d.lane x).slot0 (d.lane y).slot0
      | _, _ => false))

/-- STAT.ACTIVE of a port's lanes: the logical lane last known on each is in ACTIVE_MASK (R100). -/
def Dev.showActive (d : Dev) (p : Nat) : Dev :=
  (portLanes p).foldl (fun d l => d.wrb Lane.STAT_ACTIVE l (match (d.lane l).known with
    | some i => (d.rd Port.LG_STAT_ACTIVE_MASK p).testBit i
    | none => false)) d

/-- Write ACTIVE_MASK, WIDTH and ACTIVE of the lanes. -/
def Dev.setActive (d : Dev) (p m : Nat) : Dev :=
  ((d.wr Port.LG_STAT_ACTIVE_MASK p m).wr Port.LG_STAT_WIDTH p (maskWidth m)).showActive p

/-- The port goes down (R114, R133, R140, R156, R513). -/
def Dev.portDown (d : Dev) (p : Nat) : Dev :=
  if !d.linkUp p then d
  else
    let d := ((d.rxCut p).wr Port.STAT_LINK_UP p 0).evt 0x0A p Port.E_LINK_DOWN
    let d := d.ctlAbandon p false
    let d := d.when ((d.port p).lb != .off) (fun d => d.lb2End p 2 true)
    let d := d.wr Port.STAT_TIME_VALID p 0
    let d := d.setPort p { d.port p with
      mgmt := (d.port p).mgmt.filter (fun m => m.user == .software)
      dGoodValid := false, exch := none, idRead := none, idBuf := [], rxSeq := 0 }
    let d := (d.wr Port.LG_STAT_NARROW_PENDING p 0).ingDown p
    let d := (d.injRelease p).1
    (d.mdPresent p false)

/-- ACTIVE_MASK became 0, or the camera did not follow: the port is down with PORT_LANES_LOST (R94). -/
def Dev.lanesLost (d : Dev) (p : Nat) : Dev :=
  (((d.setActive p 0).flt 0x0A p Port.F_PORT_LANES_LOST).portDown p).sendBurst p

/-- Whether a width below that of EXPECT_MASK has another cause than LANE_CFG.EXCLUDE (R93). -/
def Dev.narrowFault (d : Dev) (p : Nat) : Bool :=
  let exp := d.rd Port.LG_CFG_EXPECT_MASK p
  decide (d.rd Port.LG_STAT_WIDTH p < maskWidth exp) && (List.range 4).any (fun i =>
    exp.testBit i && (!(d.rd Port.LG_STAT_FAR_MASK p).testBit i ||
      (!(d.rd Port.LG_STAT_NEAR_MASK p).testBit i &&
        match d.knownCarrier p i with
        | some l => !d.is Lane.LANE_CFG_EXCLUDE l || (d.rd Port.LG_STAT_EXCLUDED p).testBit i
        | none => true)))

/-- Step 5 of R92: the change of the active set is complete. -/
def Dev.narrowDone (d : Dev) (p : Nat) : Dev :=
  let d := d.wr Port.LG_STAT_NARROW_PENDING p 0
  if d.rd Port.LG_STAT_WIDTH p = 4 then
    let d := d.evt 0x0A p Port.E_WIDENED
    let f := d.rd (Hdr.FLT 0x0A) p
    if f.testBit Port.F_PORT_NARROWED then d.wr (Hdr.FLT 0x0A) p (f - 2 ^ Port.F_PORT_NARROWED) else d
  else
    let d := (d.incSat Port.NARROW_CNT p).evt 0x0A p Port.E_NARROWED
    d.when (d.narrowFault p) (fun d => d.flt 0x0A p Port.F_PORT_NARROWED)

/-! ## Test traffic (R127, R503) -/

/-- Send the next TEST packet of n payload bytes of the PRBS31 sequence; one the injector holds back or drops is not waited
for. -/
def Dev.testSend (d : Dev) (p n : Nat) : Dev :=
  let h := d.loop p
  let r := prbsBytes n h.txPrbs
  let bs := testPkt h.testNum r.1
  let gone := (d.inject p 1 (byteAt bs 0) bs).2.isEmpty
  let d := d.setLoop p { h with txPrbs := r.2, testNum := (h.testNum + 1) % 2 ^ 16, lastTest := if gone then [] else bs }
  (d.addWrap LbF.GEN_CNT 0 1 p).sendPkt p bs

/-- The generator runs in LB0 or LB1 with TEST traffic. -/
def Dev.testRuns (d : Dev) (p : Nat) : Bool :=
  (d.loopDepth p == 1 || d.loopDepth p == 2) && d.is LbF.LB_CFG_GEN_EN 0 p && !d.is LbF.LB_CFG_GEN_KIND 0 p

/-- The generator's TEST traffic starts: the PRBS31 sequence from its seed (R503). -/
def Dev.testStart (d : Dev) (p : Nat) : Dev :=
  d.when (d.testRuns p && d.linkUp p) (fun d =>
    (d.setLoop p { d.loop p with txPrbs := Config.prbsSeed % 2 ^ 31 }).testSend p (d.rd LbF.LB_CFG_GEN_LEN 0 p))

/-- The port comes up (R114, R116, R128, R132, R137, R139, R146). -/
def Dev.portUp (d : Dev) (p : Nat) : Dev :=
  let d := (d.wr Port.STAT_LINK_UP p 1).wr Port.STAT_NOLOCK p 0
  let d := (d.wr Port.LG_STAT_NARROW_PENDING p 0).wr Port.STAT_SYNC_PENDING p 1
  let h := d.port p
  let d := d.setPort p { h with
    nearHold := d.rd Port.LG_STAT_NEAR_MASK p
    lastAck := none
    dropLine := none
    dGoodValid := false
    corrSet := true
    corr := 0
    stepDue := false
    idBuf := []
    idRead := if d.is Port.PORT_CFG_AUTO_ID p && d.loopDepth p == 0 then some 0 else none }
  let d := d.setLoop p { d.loop p with consumed := 0 }
  let d := ((d.ingUp p).evt 0x0A p Port.E_LINK_UP).mdPresent p true
  let d := d.when (d.narrowFault p) (fun d =>
    ((d.incSat Port.NARROW_CNT p).evt 0x0A p Port.E_NARROWED).flt 0x0A p Port.F_PORT_NARROWED)
  (((d.sendCredit p).timeReq p).mgmtPump p).testStart p

/-- LANE_FAIL_TIME in 2^-16 ns (R89). -/
def Dev.laneFailTime (d : Dev) (p : Nat) : Nat :=
  let ms := match d.rd Port.LG_CFG_LANE_FAIL_TIME p with
    | 0 => 1
    | 1 => 2
    | 2 => 5
    | _ => 10
  ms * 1000000 * nsL

/-- Recompute NEAR_MASK and the active set, and carry the port along (R90–R94, R109, R114). -/
def Dev.portEval (d : Dev) (p : Nat) : Dev :=
  if !d.enabled 0x0A p then d
  else
    let near := d.nearMask p
    let old := d.rd Port.LG_STAT_NEAR_MASK p
    let d := d.wr Port.LG_STAT_NEAR_MASK p near
    let act := activeSet near (d.rd Port.LG_STAT_FAR_MASK p)
    let was := d.rd Port.LG_STAT_ACTIVE_MASK p
    if d.linkUp p then
      if act = was then d.when (near != old) (fun d => d.sendBurst p)
      else if act = 0 then d.lanesLost p
      else (((d.rxDrop p).ingClose p false).setActive p act |>.wr Port.LG_STAT_NARROW_PENDING p 1).sendBurst p
    else
      let d := (d.setActive p act).when (near != old) (fun d => d.sendBurst p)
      let exp := d.rd Port.LG_CFG_EXPECT_MASK p
      let waited := match (d.port p).firstLock with
        | some t => decide (t + d.laneFailTime p ≤ d.nowL)
        | none => false
      d.when (act != 0 && d.deskewed p act && (act &&& exp == exp || waited)) (fun d => d.portUp p)

/-! ## Lock of a lane (R110–R112) -/

/-- Comma lock is lost; on a lane of the active set the packet in progress is dropped (R105, R110). -/
def Dev.commaLost (d : Dev) (l : Nat) : Dev :=
  let d := d.when (d.is Lane.STAT_COMMA_LOCK l && d.is Lane.STAT_ACTIVE l) (fun d => d.rxDrop (lanePort l))
  let d := d.wr Lane.STAT_COMMA_LOCK l 0
  d.setLane l { d.lane l with burstRun := 0, lastSingle := none, missed := 0, sawComma := false }

/-- Comma lock is gained with a lane number; lanes whose numbers repeat do not lock (R88, R110, R114). -/
def Dev.commaGained (d : Dev) (l logical slot0 : Nat) : Dev :=
  let p := lanePort l
  let twins := (portLanes p).filter (fun m =>
    m != l && d.is Lane.STAT_COMMA_LOCK m && d.rd Lane.STAT_RX_LOGICAL m == logical)
  if twins.isEmpty then
    let d := (d.wr Lane.STAT_RX_LOGICAL l logical).wr Lane.STAT_COMMA_LOCK l 1
    let d := d.setLane l { d.lane l with slot0 := slot0, missed := 0, sawComma := true, known := some logical }
    let h := d.port p
    (d.when h.firstLock.isNone (fun d => d.setPort p { h with firstLock := some d.nowL })).showActive p
  else
    let d := (l :: twins).foldl (fun d m => d.commaLost m) d
    (d.wr Port.STAT_NOLOCK p 1).evt 0x0A p Port.E_NOLOCK

/-- An inverted comma; four in consecutive slots toggle RX_INV (R87). -/
def Dev.commaInverse (d : Dev) (l slot : Nat) : Dev :=
  let h := d.lane l
  let n := if h.invCommas ≠ 0 ∧ slot = h.invSlot + 1 then h.invCommas + 1 else 1
  if !d.is Lane.LANE_CFG_AUTO_POL l then d
  else if n < 4 then d.setLane l { h with invCommas := n, invSlot := slot }
  else
    let inv := !d.is Lane.LANE_CFG_RX_INV l
    let d := d.setLane l { h with invCommas := 0 }
    ((d.wrb Lane.LANE_CFG_RX_INV l inv).wrb Lane.STAT_POL_INV l inv).evt 0x08 l Lane.E_POL_FLIP

/-- A comma of a burst: eight with equal byte 7 give comma lock and realign the super-frame (R108–R110). -/
def Dev.commaBurst (d : Dev) (l slot b7 : Nat) : Dev :=
  let h := d.lane l
  let run := if h.burstRun ≠ 0 ∧ h.burstByte = b7 ∧ slot = h.burstSlot + 1 then h.burstRun + 1 else 1
  let d := d.setLane l { h with
    burstRun := run, burstByte := b7, burstSlot := slot, lastSingle := none, invCommas := 0, sawComma := true }
  if run = 8 then
    let d := (d.setLane l { d.lane l with burstRun := 0 }).commaGained l (b7 % 4) (slot - 7)
    let p := lanePort l
    d.when (d.is Port.LG_STAT_NARROW_PENDING p && d.deskewed p (d.rd Port.LG_STAT_ACTIVE_MASK p)) (fun d =>
      d.narrowDone p)
  else d

/-- A single comma; outside slot 0 of a lane in comma lock it shows that the lane has slipped (R108, R110, R112). -/
def Dev.commaSingle (d : Dev) (l slot b7 : Nat) : Dev :=
  let h := d.lane l
  let logical := b7 % 4
  let d := d.setLane l { h with burstRun := 0, invCommas := 0 }
  if d.is Lane.STAT_COMMA_LOCK l then
    if (slot + 16384 - h.slot0 % 16384) % 16384 = 0 then
      d.setLane l { d.lane l with slot0 := slot, missed := 0, sawComma := true }
    else ((d.commaLost l).evt 0x0A (lanePort l) Port.E_COMMA_ERR).evt 0x0A (lanePort l) Port.E_DESKEW_ERR
  else
    match h.lastSingle with
    | some n =>
      if n = (slot - 16384) * 4 + logical ∧ 16384 ≤ slot then d.commaGained l logical slot
      else d.setLane l { d.lane l with lastSingle := some (slot * 4 + logical) }
    | none => d.setLane l { d.lane l with lastSingle := some (slot * 4 + logical) }

/-- A block with a comma's look arrives in a slot of a lane (R87, R107–R110). -/
def Dev.comma (d : Dev) (l slot hdr : Nat) (bytes : List Nat) : Dev :=
  let p := lanePort l
  let b := d.rxBall l (hdr % 4, le bytes 0 8)
  let pay := blockBytes b.2
  if !d.enabled 0x08 l || !d.enabled 0x0A p || !d.is Lane.STAT_HDR_LOCK l then d
  else if b.1 == 1 && isInvComma pay then d.commaInverse l slot
  else
    let d := d.setLane l { d.lane l with invCommas := 0 }
    if b.1 != 2 || !isComma pay then d
    else
      let b7 := byteAt pay 7
      let d := d.wr Port.LG_STAT_FAR_MASK p (bits b7 2 4)
      let d := d.when (d.is Lane.STAT_COMMA_LOCK l && d.rd Lane.STAT_RX_LOGICAL l != b7 % 4) (fun d => d.commaLost l)
      let d := if b7.testBit 6 then d.commaBurst l slot b7 else d.commaSingle l slot b7
      d.portEval p

def execComma (lane : Fin 64) (slot : Nat) (block : RawBlock) (s : State) : Host.Outcome State Fault Refusal :=
  s.upd (fun d => d.comma lane slot block.header block.payload)

/-- Header lock is lost; the packet in progress is dropped (R105, R111). -/
def Dev.hdrLost (d : Dev) (l : Nat) : Dev :=
  let d := d.when (d.is Lane.STAT_ACTIVE l) (fun d => d.rxDrop (lanePort l))
  let d := (d.wr Lane.STAT_HDR_LOCK l 0).incSat Lane.CNT_B_LOCK_LOSS_CNT l
  let d := d.setLane l { d.lane l with
    hdrWin := [], hdrRun := 0, lockSince := none, invCommas := 0, lostAt := some d.nowL }
  ((d.commaLost l).laneGood l).evt 0x08 l Lane.E_LOCK_LOST

/-- One received block header (R103, R111): before lock an invalid one moves the alignment by one bit. The descrambler of a lane
that has just locked knows nothing of the sender's state (R104). -/
def Dev.header (d : Dev) (l hdr : Nat) : Dev :=
  let valid := hdr % 4 == 1 || hdr % 4 == 2
  let h := d.lane l
  if d.is Lane.STAT_HDR_LOCK l then
    let win := ((!valid) :: h.hdrWin).take 64
    let d := d.when (!valid) (fun d => d.incSat Lane.CNT_B_HDR_ERR_CNT l)
    if 16 ≤ (win.filter id).length then d.hdrLost l else d.setLane l { h with hdrWin := win }
  else if valid then
    if h.hdrRun + 1 < 64 then d.setLane l { h with hdrRun := h.hdrRun + 1 }
    else
      let d := (d.setLane l { h with
        hdrRun := 0, hdrWin := [], lockSince := some d.nowL, lostAt := none, dscr := d.freeVal 58 }).freeUsed
      ((d.wr Lane.STAT_HDR_LOCK l 1).laneGood l).evt 0x08 l Lane.E_LOCK_GAINED
  else d.setLane l { h with hdrRun := 0, align := (h.align + 1) % 66 }

def execHeaderLock (lane : Fin 64) (headers : List Nat) (s : State) : Host.Outcome State Fault Refusal :=
  s.upd (fun d =>
    if d.enabled 0x08 lane && d.enabled 0x0A (lanePort lane) then
      ((headers.foldl (fun d h => d.header lane h) d)).portEval (lanePort lane)
    else d)

/-- Slot 0 of a comma-locked lane in the super-frame that ends: two without a valid comma lose the lock (R110). -/
def Dev.commaMissed (d : Dev) (l : Nat) : Dev :=
  let h := d.lane l
  if !d.is Lane.STAT_COMMA_LOCK l then d
  else if h.sawComma then d.setLane l { h with missed := 0, sawComma := false }
  else if h.missed + 1 < 2 then d.setLane l { h with missed := h.missed + 1 }
  else d.commaLost l

/-- The comma-locked lanes of EXPECT_MASK (R112). -/
def Dev.alignLanes (d : Dev) (p : Nat) : List Nat :=
  (portLanes p).filter (fun l => d.is Lane.STAT_COMMA_LOCK l &&
    (d.rd Port.LG_CFG_EXPECT_MASK p).testBit (d.rd Lane.STAT_RX_LOGICAL l))

/-- A lane whose slot 0 comes more than 64 block times behind that of another (R112). -/
def Dev.tooLate (d : Dev) (ls : List Nat) (l : Nat) : Bool :=
  ls.any (fun m =>
    let x := ((d.lane l).slot0 + 16384 - (d.lane m).slot0 % 16384) % 16384
    decide (64 < x) && decide (x < 8192))

/-- The alignment check of a super-frame (R110, R112). -/
def Dev.superframe (d : Dev) (p : Nat) : Dev :=
  let d := (portLanes p).foldl (fun d l => d.commaMissed l) d
  let ls := d.alignLanes p
  (ls.filter (d.tooLate ls)).foldl (fun d l => (d.commaLost l).evt 0x0A p Port.E_DESKEW_ERR) d

/-- Slot 0 on the transmit side: a single comma while the port is up, else a burst (R108, R109, R116). -/
def Dev.superframeSend (d : Dev) (p : Nat) : Dev :=
  if !d.enabled 0x0A p then d
  else if d.linkUp p then (d.sendCommas p 1).sendIdle p
  else d.sendBurst p

/-- A super-frame passes (R108–R110, R112). TEST traffic goes on where its packet in flight is gone (R149,
R503). -/
def Dev.superframePass (d : Dev) (p : Nat) : Dev :=
  let d := ((d.superframe p).portEval p).superframeSend p
  let d := d.when (d.testRuns p && d.linkUp p && (d.loop p).lastTest.isEmpty) (fun d =>
    d.testSend p (d.rd LbF.LB_CFG_GEN_LEN 0 p))
  d.when ((d.port p).lb == .active && (d.loop p).expect.isEmpty) (fun d => d.testSend p 8192)

/-- So many super-frames pass, one after another. -/
def execSuperframeCheck (port : Fin 16) (frames : Nat) (s : State) : Host.Outcome State Fault Refusal :=
  s.upd (fun d => (List.range frames).foldl (fun d _ => d.superframePass port) d)

/-- A round of the eye monitor, and what it does to NEAR_MASK (R78, R90). -/
def execFomUpdate (lane : Fin 64) (top bottom left right : Nat) (s : State) : Host.Outcome State Fault Refusal :=
  s.upd (fun d => (d.fomUpdate lane top bottom left right).portEval (lanePort lane))

/-- A lane is declared failed (R89, R92). -/
def Dev.laneFail (d : Dev) (l : Nat) : Dev :=
  let p := lanePort l
  let d := (d.wr Lane.STAT_FAILED l 1).evt 0x08 l Lane.E_LANE_FAILED
  let d := d.flt 0x08 l Lane.F_RX_FAIL
  let logical := match (d.lane l).known with
    | some i => some i
    | none => (List.range 4).find? (fun i => (d.rd Port.LG_CFG_EXPECT_MASK p).testBit i &&
        (d.carrier p i).isNone && !(d.rd Port.LG_STAT_EXCLUDED p).testBit i)
  let d := match logical with
    | some i => d.when (d.is Port.LG_CFG_AUTO_NARROW p) (fun d =>
        d.wr Port.LG_STAT_EXCLUDED p (d.rd Port.LG_STAT_EXCLUDED p ||| 2 ^ i))
    | none => d
  d.portEval p

/-- A lane that has not come to lock while another lane of its port has, and an expected logical lane is missing (R89). -/
def Dev.lockFails (d : Dev) (l : Nat) : Bool :=
  let p := lanePort l
  !d.linkUp p && !d.is Lane.STAT_COMMA_LOCK l && (portLanes p).any (fun m => d.is Lane.STAT_COMMA_LOCK m) &&
    (List.range 4).any (fun i => (d.rd Port.LG_CFG_EXPECT_MASK p).testBit i && (d.carrier p i).isNone)

/-- One of the conditions of R89 has lasted for LANE_FAIL_TIME. -/
def Dev.failDue (d : Dev) (l : Nat) : Bool :=
  let p := lanePort l
  let past := fun (o : Option Nat) => match o with
    | some t => decide (t + d.laneFailTime p ≤ d.nowL)
    | none => false
  (!d.is Lane.STAT_HDR_LOCK l && past (d.lane l).lostAt) || past (d.lane l).lowSince ||
    (d.lockFails l && past (d.port p).firstLock)

def execLaneFailed (lane : Fin 64) (s : State) : Host.Outcome State Fault Refusal :=
  s.upd (fun d => d.when (d.enabled 0x0A (lanePort lane) && d.failDue lane) (fun d => d.laneFail lane))

/-- The camera did not follow a change of the active set within 10 ms (R94). -/
def execNarrowTimeout (port : Fin 16) (s : State) : Host.Outcome State Fault Refusal :=
  s.upd (fun d => d.when (d.is Port.LG_STAT_NARROW_PENDING port) (fun d => d.lanesLost port))

/-- WIDEN (R95). -/
def Dev.cmdWiden (d : Dev) (p : Nat) : Dev :=
  let d := (portLanes p).foldl (fun d l => d.laneGood l) d
  let back := (List.range 4).filter (fun i => (d.rd Port.LG_STAT_EXCLUDED p).testBit i &&
    match d.carrier p i with
    | some l => match (d.lane l).goodSince with
      | some t => decide (t + 100000000 * nsL ≤ d.nowL)
      | none => false
    | none => false)
  let d := back.foldl (fun d i =>
    let d := d.wr Port.LG_STAT_EXCLUDED p (d.rd Port.LG_STAT_EXCLUDED p - 2 ^ i)
    match d.carrier p i with
    | some l => d.wr Lane.STAT_FAILED l 0
    | none => d) d
  d.portEval p

def execWiden (req : Req) (port : Fin 16) (s : State) : Host.Outcome State Fault Refusal :=
  s.upd (fun d => d.busW req.num 0x0A port (fun d => d.cmdWiden port))

/-- CAPACITY at width 4, MB/s (R27, R96). -/
def capacity4 (rate : Nat) : Nat :=
  match rate with
  | 0 => 4850
  | 1 => 12130
  | _ => 25000

/-- The 1 ms rate check (R96). -/
def execRateCheck (port : Fin 16) (s : State) : Host.Outcome State Fault Refusal :=
  s.upd (fun d =>
    let h := d.port port
    let starts := if h.trigStarts = 0 then h.lineStarts else h.trigStarts
    let lb := d.rd Port.LINE_BYTES port
    let w := d.rd Port.LG_STAT_WIDTH port
    let cap := if w = 4 then capacity4 (d.rd Port.LG_CFG_RATE port)
      else if w = 2 then capacity4 (d.rd Port.LG_CFG_RATE port) / 2 else 0
    let dem := lb * starts / 1000
    let warn := w != 0 && lb != 0 && decide (cap < dem)
    let was := d.is Port.LG_STAT_RATE_WARN port
    let d := d.setPort port { h with trigStarts := 0, lineStarts := 0 }
    let d := (d.wr Port.RATE_INFO_CAPACITY port cap).wr Port.RATE_INFO_DEMAND port (min dem 65535)
    let d := d.wrb Port.LG_STAT_RATE_WARN port warn
    d.when (warn && !was) (fun d => d.evt 0x0A port Port.E_RATE_WARN))

/-- LOCK_TIMEOUT passes while the port is not up (R115). -/
def execNolock (port : Fin 16) (s : State) : Host.Outcome State Fault Refusal :=
  s.upd (fun d => d.when (d.enabled 0x0A port && !d.linkUp port) (fun d =>
    let d := (d.wr Port.STAT_NOLOCK port 1).evt 0x0A port Port.E_NOLOCK
    (portLanes port).foldl (fun d l => d.when (!d.is Lane.STAT_HDR_LOCK l) (fun d => d.cmdRestart l)) d))

/-! ## Reference and rate (R68–R74) -/

/-- A write of RATE (R68, R74): TX_FFE of the port's lanes takes the new rate's default. -/
def Dev.rateWrite (d : Dev) (p rate : Nat) : Dev :=
  if rate = d.rd Port.LG_CFG_RATE p then d
  else if d.enabled 0x0A p then d.badAccess 0x0A p
  else (portLanes p).foldl (fun d l => d.ffeDefaults l rate) (d.wr Port.LG_CFG_RATE p rate)

def execRateWrite (req : Req) (port : Fin 16) (rate : Fin 4) (s : State) : Host.Outcome State Fault Refusal :=
  s.upd (fun d => d.busW req.num 0x0A port (fun d => d.rateWrite port rate))

/-- REFOUTp is within limits: the transmit lanes of an enabled port leave electrical idle, with bursts (R69, R72, R116). -/
def Dev.refoutGood (d : Dev) (p : Nat) : Dev :=
  if !d.is Port.LG_CFG_REFOUT_EN p || d.is Port.LG_STAT_REFOUT_OK p then d
  else
    let d := d.wr Port.LG_STAT_REFOUT_OK p 1
    d.when (d.enabled 0x0A p) (fun d => (d.sendBurst p).portEval p)

/-- REFOUTp meets its limits (R69). -/
def execRefoutOk (port : Fin 16) (s : State) : Host.Outcome State Fault Refusal := s.upd (fun d => d.refoutGood port)

/-- The synthesiser of REFOUTp loses lock: REFOUTp and the transmit lanes stop, the port's lanes lose lock (R72). -/
def Dev.refoutFail (d : Dev) (p : Nat) : Dev :=
  let was := d.is Port.LG_STAT_REFOUT_OK p
  let d := (d.wr Port.LG_STAT_REFOUT_OK p 0).flt 0x0A p Port.F_REFOUT_FAIL
  let d := d.when was (fun d => d.evt 0x0A p Port.E_REFOUT_FAULT)
  let d := (portLanes p).foldl (fun d l => d.when (d.is Lane.STAT_HDR_LOCK l) (fun d => d.hdrLost l)) d
  let d := ((d.setActive p 0).portDown p).sscStop p
  d.wr Port.LG_STAT_NEAR_MASK p 0

def execRefoutFail (port : Fin 16) (s : State) : Host.Outcome State Fault Refusal := s.upd (fun d => d.refoutFail port)

/-- The synthesiser relocks: REFOUTp restarts, and the port comes up by blind bring-up (R72). -/
def execRefoutRelock (port : Fin 16) (s : State) : Host.Outcome State Fault Refusal := s.upd (fun d => d.refoutGood port)

/-! ## Enabling and disabling the port page -/

/-- Physical lanes that are enabled, as a mask (R97). -/
def Dev.enabledLanes (d : Dev) (p : Nat) : Nat := maskOf (fun i => d.enabled 0x08 (4 * p + i))

/-- The settings a port enable needs (R71, R91, R97). -/
def Dev.portMayEnable (d : Dev) (p : Nat) : Bool :=
  let exp := d.rd Port.LG_CFG_EXPECT_MASK p
  let depth := d.rd Port.LG_CFG_SSC_DEPTH p
  (exp == 0xF || exp == 0x3) && (d.enabledLanes p &&& exp == exp) &&
    (!d.is Port.LG_CFG_SSC_EN p || (decide (1 ≤ depth) && decide (depth ≤ 5)))

/-- The port's EN rises: blind bring-up starts with bursts that advertise MASK 0 (R104, R116, R139). -/
def Dev.portEnable (d : Dev) (p : Nat) : Dev :=
  let d := (d.wr Port.PATH_DELAY p 0).wr Port.LG_STAT_NEAR_MASK p 0
  let h := d.port p
  let d := d.setPort p { h with
    firstLock := none, validSinceEn := false, idPrev := none
    trigStarts := 0, lineStarts := 0 }
  let d := d.setLoop p { d.loop p with depth := d.rd LbF.LB_CFG_DEPTH 0 p }
  let d := (portLanes p).foldl (fun d l => (d.setLane l { d.lane l with lostAt := none }).txStart l) d
  (d.sendBurst p).portEval p

/-- The port's EN falls (R114): its lanes carry no traffic, so they lose header lock (R97, R111), and the triggers
that wait are dropped, TIME_VALID being 0 (R143). -/
def Dev.portDisable (d : Dev) (p : Nat) : Dev :=
  let d := (portLanes p).foldl (fun d l => d.when (d.is Lane.STAT_HDR_LOCK l) (fun d => d.hdrLost l)) (d.portDown p)
  let d := d.setActive p 0
  let d := (d.wr Port.LG_STAT_NEAR_MASK p 0).wr Port.STAT_NOLOCK p 0
  let d := (portLanes p).foldl (fun d l => d.setLane l { d.lane l with lostAt := none }) d
  let n := (d.port p).trigs.length
  (List.range n).foldl (fun d _ => d.trigDrop p) (d.setPort p { d.port p with firstLock := none, trigs := [] })

/-- The lane's EN rises: adaptation starts, and the transmitter with its scrambler (R76, R97, R104). -/
def Dev.laneEnable (d : Dev) (l : Nat) : Dev :=
  ((d.setLane l { d.lane l with known := none, invCommas := 0, hdrRun := 0 }).adaptStart l).txStart l

/-- The lane stops receiving: locks go, a scan ends without DONE, and the port follows (R97, R98). -/
def Dev.laneStop (d : Dev) (l : Nat) : Dev :=
  let d := d.when (d.is Lane.STAT_HDR_LOCK l) (fun d => d.hdrLost l)
  let d := (d.wr Lane.SCAN_CTRL_BUSY l 0).showFomHeld l
  d.portEval (lanePort l)

end Sys2Proof.Machine
end

