-- ==== Sys2Proof/Machine/Trigger.lean ====
section
/-!
DEFINITION. Line generators, compare streams, trigger outputs (R212–R240), the digital inputs (R201–R205), and what a
channel update does to the blocks that follow it. Fire times are device times in 2^-16 ns.
The log's entries 3, 30, 33, 34 and 35 of notes/assumptions name what is DEDUCED or a DESIGN CHOICE here, and marks each.
-/

namespace Sys2Proof.Machine

/-! ## Outputs (R230–R233, R235, R509) -/

/-- Whether the page that holds an output has a lockstep fault (R235). -/
def Dev.holderFault (d : Dev) (m : Nat) : Bool :=
  let x := d.claim .tout m
  x.held && ((x.hCls == 0x12 && decide (32 ≤ x.hInst) && (d.gen (x.hInst - 32)).fault) ||
    (x.hCls == 0x13 && (d.stream x.hInst).fault))

/-- The output presents its SAFE level. -/
def Dev.outSafe (d : Dev) (m : Nat) : Bool :=
  d.is Out.STAT_SAFE_ACTIVE m || (d.outp m).fault || !d.enabled 0x12 m || d.holderFault m

/-- TEST_OUT holds an output at its active level (R509). -/
def Dev.testOut (d : Dev) (m : Nat) : Bool :=
  (d.rd Test.TEST_OUT 0).testBit m && d.holds .tout m 0x1F 0 && d.enabled 0x12 m

/-- Edges of a quadrature run that have left by now: the first at its start. -/
def QgenH.gone (h : QgenH) (now : Nat) : Nat :=
  if h.per = 0 ∨ now < h.start then 0 else min h.edges ((now - h.start) / h.per + 1)

/-- The place in the sequence 00, 10, 11, 01 a quadrature run has come to; it holds its last one (R180, R509). -/
def QgenH.place (h : QgenH) (now : Nat) : Nat :=
  (if h.dir = 0 then h.phase + h.gone now else h.phase + 3 * h.gone now) % 4

/-- The quadrature generator holds an output at its active level: A on the even one, B on the odd one (R509). -/
def Dev.qgenOut (d : Dev) (m : Nat) : Bool :=
  decide (m < 16) && d.holds .tout m 0x1F 0 && d.enabled 0x12 m &&
    (let p := (d.qgen (m / 2)).place d.nowL
     if m % 2 = 0 then p == 1 || p == 2 else p == 2 || p == 3)

/-- Whether the pin is active, inactive, or at high impedance (R230, R231). -/
def Dev.outActive (d : Dev) (m : Nat) : Option Bool :=
  if d.outSafe m then
    match d.rd Out.OUT_CFG_SAFE m with
    | 0 => some false
    | 1 => some true
    | _ => none
  else match d.rd Out.OUT_CFG_FORCE m with
    | 1 => some false
    | 2 => some true
    | _ => some ((d.outp m).pulses.any (fun x => decide (x.1 ≤ d.nowL) && decide (d.nowL < x.2)) || d.testOut m || d.qgenOut m)

/-- The level an output's pad reads back, where the device drives it (R230, R240). -/
def Dev.readback (d : Dev) (m : Nat) : Option Nat :=
  (d.outActive m).map (fun a => b2n (a != d.is Out.OUT_CFG_POL m))

/-! ## Routes and pad forces (R508, R509): a routed pair takes the level of an output, a forced one that of its code -/

/-- The pad force code of input Dm. -/
def Dev.padD (d : Dev) (m : Nat) : Nat := bits (d.rd Test.PAD_D 0) (2 * m) 2

/-- The pad force code of pair p of channel Ek, which takes the claim of its pin set. -/
def Dev.padE (d : Dev) (k p : Nat) : Nat :=
  if d.holds .enc k 0x1F 0 then bits (d.rd Test.PAD_E 0) (6 * k + 2 * p) 2 else 0

/-- The output that pair p of channel k is routed from. -/
def encOut (k p : Nat) : Nat := if p = 2 then 24 + k else 2 * k + p

/-- The level a pad force code gives. -/
def padLevel (code : Nat) : Option Nat :=
  match code with
  | 1 => some 0
  | 2 => some 1
  | _ => none

def Dev.routedD (d : Dev) (m : Nat) : Bool := (d.rd Test.ROUTE_D 0).testBit m
def Dev.routedE (d : Dev) (k : Nat) : Bool := (d.rd Test.ROUTE_E 0).testBit k && d.holds .enc k 0x1F 0

/-- The level an input has for the environment's: the route's or the pad force's; where neither gives one, the one it had. -/
def Dev.dinPad (d : Dev) (m level : Nat) : Nat :=
  let was := (d.rd Din.STAT_RAW m + d.rd Din.DIN_CFG_INV m) % 2
  if d.routedD m then (d.readback m).getD was
  else if d.padD m = 0 then level
  else (padLevel (d.padD m)).getD was

/-- The same for pair p of a channel. -/
def Dev.encPad (d : Dev) (k p level : Nat) : Nat :=
  let h := d.chan k
  let was := if p = 0 then h.rawA else if p = 1 then h.rawB else h.rawZ
  if d.routedE k then (d.readback (encOut k p)).getD was
  else if d.padE k p = 0 then level
  else (padLevel (d.padE k p)).getD was

/-- The edge of a pulse: 17.5 ns after the fire sample, or 20 ns after a requested time, the latter on the island's
samples unless it is placed by a capture unit (R231). -/
def Dev.pulseStart (d : Dev) (m sample fine : Nat) (requested : Bool) : Nat :=
  let delay := d.rd Out.OUT_DELAY m * sampleL
  if d.is Out.OUT_CFG_FINE_EN m && d.holds .tc (d.rd Out.OUT_CFG_TC m) 0x12 m then fine + 20 * nsL + delay
  else if requested then cdiv (fine + 20 * nsL + delay) sampleL * sampleL
  else sample + 7 * sampleL + delay

/-- A pulse joins those of an output that are not over; it merges with each that it meets (R231). How many it met. -/
def pulseAdd (now : Nat) (ps : List (Nat × Nat)) (a b : Nat) : List (Nat × Nat) × Nat :=
  let live := ps.filter (fun x => decide (now < x.2))
  let meet := fun (x : Nat × Nat) => decide (a < x.2) && decide (x.1 < b)
  let hit := live.filter meet
  let one := hit.foldl (fun (z : Nat × Nat) x => (min z.1 x.1, max z.2 x.2)) (a, b)
  (live.filter (fun x => !meet x) ++ [one], hit.length)

/-- A pulse of w × 2.5 ns from a holder (R231). -/
def Dev.pulse (d : Dev) (c i m sample fine w : Nat) (requested : Bool) : Dev :=
  if w = 0 ∨ d.holds .tout m c i = false then d
  else if d.outSafe m || d.rd Out.OUT_CFG_FORCE m != 0 then
    (d.incSat Out.OUT_CNT_LOST_CNT m).evt 0x12 m Out.E_LOST
  else
    let a := d.pulseStart m sample fine requested
    let b := a + w * sampleL
    let r := pulseAdd d.nowL (d.outp m).pulses a b
    let d := d.setOutp m { d.outp m with pulses := r.1 }
    let d := (d.addWrap Out.PULSE_CNT m 1).emit (.pulse m a b)
    d.when (r.2 != 0) (fun d => (d.addSat Out.OUT_CNT_MERGE_CNT m r.2).evt 0x12 m Out.E_MERGE)

/-- The width of a pulse expires (R231). -/
def execPulseEnd (out : Fin 32) (s : State) : Host.Outcome State Fault Refusal :=
  s.updOn 2 (fun d =>
    let h := d.outp out
    d.setOutp out { h with pulses := h.pulses.filter (fun x => decide (d.nowL < x.2)) })

/-- The pad read-back disagrees with the driven level (R232): nothing is driven at high impedance. -/
def execDriveFault (out : Fin 32) (s : State) : Host.Outcome State Fault Refusal :=
  s.updOn 2 (fun d => d.when (d.outActive out).isSome (fun d => d.flt 0x12 out Out.F_DRIVE_FAULT))

/-- SAFE_EXIT (R233): this output leaves the safe state when no FATAL bit is set in any page. -/
def Dev.cmdSafeExit (d : Dev) (m : Nat) : Dev :=
  if d.fltPages.any (fun p => (List.range 32).any (fun b =>
      (d.rd (Hdr.FLT p.1) p.2).testBit b && fltSeverity p.1 p.2 b == some 4)) then d
  else d.wr Out.STAT_SAFE_ACTIVE m 0

def execSafeExit (req : Req) (out : Fin 32) (s : State) : Host.Outcome State Fault Refusal :=
  s.upd (fun d => d.busW req.num 0x12 out (fun d => d.cmdSafeExit out))

/-! ## Following a channel (R212–R214) -/

/-- The channel's word moves: EN = 1 and not held after LOCKSTEP. -/
def Dev.chanLive (d : Dev) (k : Nat) : Bool := d.enabled 0x10 k && !(d.chan k).stuck

/-- A point is reached (R212). -/
def reached (dir : Nat) (w p : Int) : Bool := if dir = 0 then decide (p ≤ w) else decide (w ≤ p)

/-- A point lies strictly behind a word in a direction. -/
def behind (dir : Nat) (w p : Int) : Bool := if dir = 0 then decide (p < w) else decide (w < p)

/-- The channel's latest count change runs against a direction (R214). -/
def Dev.against (d : Dev) (k dir : Nat) : Bool := (d.chan k).moved && d.rd Pos.STAT_DIR_NEG k != dir

/-- FIRE_TIME of a point (R213). -/
def Dev.fireTime (d : Dev) (k : Nat) (w p : Int) : Nat :=
  let v := (d.speed k).natAbs
  if v = 0 ∨ d.is Pos.STAT_STOPPED k then d.nowL
  else d.nowL - min sampleL ((w - p).natAbs * 1000000000 * 2 ^ 24 / v)

/-! ## Generators (R216–R220) -/

def Dev.genDir (d : Dev) (g : Nat) : Nat := d.rd Gen.GEN_CFG_DIR (32 + g)
def Dev.genCh (d : Dev) (g : Nat) : Nat := d.rd Gen.GEN_CFG_CH (32 + g)
def Dev.genOn (d : Dev) (g : Nat) : Bool := d.enabled 0x12 (32 + g) && !(d.gen g).fault

/-- Move a position by a distance in a direction. -/
def ahead (dir : Nat) (o : Int) (n : Nat) : Int := if dir = 0 then o + n else o - n

/-- Hold of R214: the point last fired is the last line position, before the first line the origin. -/
def Dev.holdGen (d : Dev) (g : Nat) : Dev :=
  let h := d.gen g
  let k := d.genCh g
  let dir := d.genDir g
  if !d.genOn g then d
  else if d.against k dir then d.wr Gen.STAT_HOLD (32 + g) 1
  else match (match h.last with | some p => some p | none => h.origin) with
    | none => d.wr Gen.STAT_HOLD (32 + g) 0
    | some p => if behind dir (d.posWord k) p then d.wr Gen.STAT_HOLD (32 + g) 0 else d

/-- Show NEXT_POS. -/
def Dev.showNext (d : Dev) (g : Nat) : Dev := d.wrI Gen.NEXT_POS (32 + g) (d.gen g).next

/-- The gate closes (R217). -/
def Dev.genClose (d : Dev) (g : Nat) : Dev :=
  if d.is Gen.STAT_OPEN (32 + g) then (d.wr Gen.STAT_OPEN (32 + g) 0).evt 0x12 (32 + g) Gen.E_GATE_CLOSE else d

/-- The gate opens on the grid of an origin: k0 is the first grid point not strictly behind the word before; a new origin
takes k_end from LINES_PER_GATE, and where k0 lies beyond k_end the gate closes at once (R217). -/
def Dev.genOpenAt (d : Dev) (g : Nat) (o w0 : Int) (fresh : Bool) : Dev :=
  let i := 32 + g
  let dir := d.genDir g
  let a := 256 * d.rd Gen.NUM i
  let den := max 1 (d.rd Gen.DEN i)
  let dist := if dir = 0 then (w0 - o).toNat else (o - w0).toNat
  let k0 := if a = 0 then 0 else cdiv (dist * den) a
  let wasOpen := d.is Gen.STAT_OPEN i
  let kEnd := if fresh then d.rd Gen.LINES_PER_GATE i else (d.gen g).kEnd
  let d := d.setGen g { d.gen g with
    origin := some o, kEnd := kEnd, k := k0, acc := k0 * a % den, next := ahead dir o (k0 * a / den) }
  let d := d.showNext g
  let d := d.when fresh (fun d => d.wr Gen.LINE_CNT i 0)
  let d := (d.wr Gen.STAT_OPEN i 1).evt 0x12 i Gen.E_GATE_OPEN
  let d := d.when wasOpen (fun d => d.evt 0x12 i Gen.E_GATE_OVERRUN)
  let d := d.when (kEnd != 0 && decide (kEnd ≤ k0)) (fun d => d.genClose g)
  d.holdGen g

/-- The gate opens with a new origin. -/
def Dev.genOpen (d : Dev) (g : Nat) (o w0 : Int) : Dev := if d.genOn g then d.genOpenAt g o w0 true else d

/-- The gate opens on the existing grid; with no origin yet, as with a new one (R217). -/
def Dev.genReopen (d : Dev) (g : Nat) (o w0 : Int) : Dev :=
  if !d.genOn g then d
  else match (d.gen g).origin with
    | some old => d.genOpenAt g old w0 false
    | none => d.genOpenAt g o w0 true

/-- An origin PHASE ahead of a word. -/
def Dev.genPhase (d : Dev) (g : Nat) (w : Int) : Int := ahead (d.genDir g) w (d.rd Gen.PHASE (32 + g))

/-- The port that holds the generator and sends its lines (R220). -/
def Dev.genPort (d : Dev) (g : Nat) : Option Nat :=
  let x := d.claim .gen g
  if x.held && x.hCls == 0x0A && d.is Port.TRIG_CFG_GEN_EN x.hInst && d.rd Port.TRIG_CFG_GEN x.hInst == g then
    some x.hInst
  else none

/-- A line passes to the port that holds the generator, or advances the stream that does (R220, R225). -/
def Dev.genFeed (d : Dev) (g fire : Nat) : Dev :=
  let i := 32 + g
  let d := match d.genPort g with
    | some p =>
      if d.portGated p then (d.incSat Gen.GEN_CNT_PORT_DISCARD_CNT i).evt 0x12 i Gen.E_PORT_DISCARD
      else d.portTrigger p (fire + d.rd Port.TRIG_CFG_TRIG_LEAD p * nsL) (d.rd Port.TRIG_CFG_ACTION p) 0 0
        (d.rd Port.TRIG_EXPO_EXPOSURE p)
    | none => d
  let x := d.claim .gen g
  d.when (x.held && x.hCls == 0x13 && d.is Cs.CS_CFG_SRC x.hInst && d.rd Cs.CS_CFG_GEN_SRC x.hInst == g) (fun d =>
    let h := d.stream x.hInst
    d.setStream x.hInst { h with lines := (h.lines + 1) % 2 ^ 56, lineTime := fire, lineSample := some d.sample })

/-- A line is issued at a point (R220). -/
def Dev.genLine (d : Dev) (g : Nat) (p : Int) (fire : Nat) : Dev :=
  let i := 32 + g
  let d := d.setGen g { d.gen g with last := some p, lastFire := some fire }
  let d := ((d.addWrap Gen.LINE_CNT i 1).wrI Gen.LAST_LINE_POS i p).wr Gen.LAST_LINE_TIME i (tImg fire)
  let mask := d.rd Gen.GEN_OUT_MASK i
  let d := (List.range 32).foldl (fun d m =>
    d.when (mask.testBit m) (fun d => d.pulse 0x12 i m d.nowL fire (d.rd Gen.GEN_PW i) false)) d
  d.genFeed g fire

/-- Advance to the next grid point (R216); after k_end the gate closes (R217). -/
def Dev.genAdvance (d : Dev) (g : Nat) : Dev :=
  let h := d.gen g
  let a := 256 * d.rd Gen.NUM (32 + g)
  let den := max 1 (d.rd Gen.DEN (32 + g))
  let acc := h.acc + a % den
  let step := a / den + (if den ≤ acc then 1 else 0)
  let d := d.setGen g { h with
    k := h.k + 1, acc := acc % den, next := ahead (d.genDir g) h.next step, lastSample := some d.sample }
  let d := d.showNext g
  d.when (h.kEnd != 0 && decide (h.kEnd ≤ h.k + 1)) (fun d => d.genClose g)

/-- A line comes too soon after the one before (R219). -/
def Dev.genTooFast (d : Dev) (g fire : Nat) : Bool :=
  let h := d.gen g
  h.lastSample == some d.sample || match h.lastFire with
    | some t => decide (fire < t + d.rd Gen.MIN_PERIOD (32 + g) * 10 * nsL)
    | none => false

/-- The word reaches NEXT_POS (R216, R219, R220). -/
def Dev.genReach (d : Dev) (g : Nat) : Dev :=
  let i := 32 + g
  let k := d.genCh g
  let d := d.holdGen g
  let w := d.posWord k
  let p := (d.gen g).next
  if !d.genOn g || !d.is Gen.STAT_OPEN i || !d.chanLive k || d.is Gen.STAT_HOLD i || !reached (d.genDir g) w p then d
  else
    let fire := d.fireTime k w p
    let d := if d.genTooFast g fire then (d.incSat Gen.GEN_CNT_SKIP_CNT i).evt 0x12 i Gen.E_TOO_FAST
      else d.genLine g p fire
    d.genAdvance g

/-- GEN_CMD.OPEN (R217). -/
def Dev.cmdGenOpen (d : Dev) (g : Nat) : Dev :=
  let k := d.genCh g
  d.genOpen g (d.genPhase g (d.posWord k)) (d.wordBefore k)

/-- One GEN_CMD write (R238). -/
def Dev.genCmd (d : Dev) (g v : Nat) : Dev :=
  if v.testBit 0 && v.testBit 1 then d.badAccess 0x12 (32 + g)
  else
    let d := d.when (v.testBit 2) (fun d => d.clearAll [Gen.GEN_CNT_SKIP_CNT, Gen.GEN_CNT_PORT_DISCARD_CNT] (32 + g))
    let d := d.when (v.testBit 1) (fun d => d.genClose g)
    d.when (v.testBit 0) (fun d => d.cmdGenOpen g)

def execGateOpen (req : Req) (gen : Fin 16) (s : State) : Host.Outcome State Fault Refusal :=
  s.upd (fun d => d.busW req.num 0x12 (32 + gen) (fun d => d.genCmd gen 1))

def execGateClose (req : Req) (gen : Fin 16) (s : State) : Host.Outcome State Fault Refusal :=
  s.upd (fun d => d.busW req.num 0x12 (32 + gen) (fun d => d.genCmd gen 2))

/-- The settings and claims an enable needs (R216, R234). -/
def Dev.genMayEnable (d : Dev) (g : Nat) : Bool :=
  let i := 32 + g
  decide (1 ≤ d.rd Gen.NUM i) && decide (1 ≤ d.rd Gen.DEN i) && decide (d.rd Gen.DEN i ≤ 256 * d.rd Gen.NUM i) &&
    (List.range 32).all (fun m => !(d.rd Gen.GEN_OUT_MASK i).testBit m || d.holds .tout m 0x12 i)

/-- EN rises (R217). -/
def Dev.genEnable (d : Dev) (g : Nat) : Dev :=
  let i := 32 + g
  let d := d.setGen g { d.gen g with origin := none, last := none, lastFire := none, lastSample := none }
  let d := d.wr Gen.STAT_HOLD i 0
  let d := d.when (d.rd Gen.GEN_CFG_GATE_MODE i == 0) (fun d =>
    d.genOpen g (d.rdI Gen.START_POS i) (d.wordBefore (d.genCh g)))
  d.holdGen g

/-! ## Compare streams (R221–R229) -/

def Dev.csState (d : Dev) (n : Nat) : Nat := d.rd Cs.STAT_STATE n
def Dev.csSrc (d : Dev) (n : Nat) : Bool := d.is Cs.CS_CFG_SRC n

/-- The word a stream compares (R225); a line of this very sample counts from the next one on (R215). -/
def Dev.csWord (d : Dev) (n : Nat) : Int :=
  let h := d.stream n
  if d.csSrc n then 256 * ((h.lines : Int) - b2n (h.lineSample == some d.sample)) else d.posWord (d.rd Cs.CS_CFG_CH n)

/-- Loads and fires happen: the channel moves, or the stream follows lines (R212). -/
def Dev.csLive (d : Dev) (n : Nat) : Bool :=
  d.enabled 0x13 n && (d.csSrc n || d.chanLive (d.rd Cs.CS_CFG_CH n))

/-- Hold of R214. -/
def Dev.holdCs (d : Dev) (n : Nat) : Dev :=
  let k := d.rd Cs.CS_CFG_CH n
  let dir := d.rd Cs.CS_CFG_DIR n
  let st := d.csState n
  if d.csSrc n || !d.enabled 0x13 n then d
  else if d.against k dir then
    if st = 2 ∨ st = 4 then (d.setStream n { d.stream n with heldFrom := st }).wr Cs.STAT_STATE n 3 else d
  else if st = 3 ∧ behind dir (d.posWord k) (d.stream n).holdRef then d.wr Cs.STAT_STATE n (d.stream n).heldFrom
  else d

/-- A load falls due one sample later (R226). -/
def Dev.csDue (d : Dev) (n : Nat) (reload : Bool) : Dev :=
  d.setStream n { d.stream n with loadDue := true, reload := reload, dueAt := d.sample }

/-- DONE (R229). -/
def Dev.csDone (d : Dev) (n : Nat) : Dev :=
  let d := d.setStream n { d.stream n with loadDue := false, reload := false }
  ((d.wr Cs.STAT_LATCHED n 0).wr Cs.STAT_STATE n 5).evt 0x13 n Cs.E_DONE

/-- Go on by an entry's FLOW (R225, R226); the load of a CHAIN adds LOOP_STEP (R239). -/
def Dev.csFlow (d : Dev) (n e : Nat) : Dev :=
  let d := d.wr Cs.STAT_LATCHED n 0
  let h := d.stream n
  let ring := d.is Cs.CS_CFG_MODE n
  match bits e 3 2 with
  | 1 => d.csDone n
  | 2 =>
    (d.setStream n { h with chain := true, idx := if ring then h.idx else d.rd Cs.LOOP_IDX n }).csDue n false
  | _ =>
    if ring then d.csDue n false
    else if h.latchedIdx + 1 < d.rd Claims.CLR_BASE 2 n + d.rd Claims.CLR_LEN 2 n then
      (d.setStream n { h with idx := h.latchedIdx + 1 }).csDue n false
    else (d.evt 0x13 n Cs.E_RANGE_END).csDone n

/-- A GEN action reaches every generator gated by the stream (R217, R218). -/
def Dev.csGate (d : Dev) (n gen : Nat) (p : Int) : Dev :=
  if gen = 0 then d
  else (List.range 16).foldl (fun d g =>
    let i := 32 + g
    if !d.genOn g || d.rd Gen.GEN_CFG_GATE_MODE i != 1 || d.rd Gen.GEN_CFG_GATE_SRC i != n then d
    else if d.genCh g ≠ d.rd Cs.CS_CFG_CH n ∨ d.genDir g ≠ d.rd Cs.CS_CFG_DIR n then
      d.evt 0x12 i Gen.E_GATE_MISMATCH
    else match gen with
      | 1 => d.genOpen g (d.genPhase g p) (d.wordBefore (d.genCh g))
      | 2 => d.genClose g
      | _ => d.genReopen g (d.genPhase g p) (d.wordBefore (d.genCh g))) d

/-- OUT_SLOTj of a stream as one word (R239). -/
def Dev.outSlot (d : Dev) (n j : Nat) : Nat :=
  d.rd Cs.OUT_SLOT_EN n j * 2 ^ 31 + d.rd Cs.OUT_SLOT_KIND n j * 2 ^ 30 + d.rd Cs.OUT_SLOT_TARGET n j * 2 ^ 16 +
    d.rd Cs.OUT_SLOT_ACTION n j * 2 ^ 8 + d.rd Cs.OUT_SLOT_OUT n j

/-- One output slot of a fire (R224). -/
def Dev.csSlot (d : Dev) (n j fire pw : Nat) : Dev :=
  let v := d.outSlot n j
  let t := bits v 16 5
  let action := bits v 8 8
  if !v.testBit 31 then d
  else if !v.testBit 30 then d.pulse 0x13 n t d.nowL fire pw false
  else if d.portGated t then (d.incSat Cs.CS_CNT_B_PORT_DISCARD_CNT n).evt 0x13 n Cs.E_PORT_DISCARD
  else d.portTrigger t (fire + d.rd Port.TRIG_CFG_TRIG_LEAD t * nsL) action (bits v 0 8)
    (if action = 3 then min 65535 (cdiv pw 4) else 0) 0

/-- FIRE_TIME of a stream at a position: the line's, for a stream that follows lines (R213, R225). -/
def Dev.csFireTime (d : Dev) (n : Nat) (p : Int) : Nat :=
  if d.csSrc n then (d.stream n).lineTime else d.fireTime (d.rd Cs.CS_CFG_CH n) (d.csWord n) p

/-- A fire (R228). -/
def Dev.csFire (d : Dev) (n e : Nat) (p : Int) : Dev :=
  let fire := d.csFireTime n p
  let ch := d.rd Cs.CS_CFG_CH n
  let h := d.stream n
  let d := d.setStream n { h with holdRef := p }
  let d := ((d.wrI Cs.LAST_FIRE_POS n p).wr Cs.LAST_FIRE_TIME n (tImg fire)).wr Cs.LAST_FIRE_IDX n h.latchedIdx
  let d := (d.addWrap Cs.FIRED_CNT n 1).evt 0x13 n Cs.E_FIRE
  let pw := d.rd Cs.PW n (bits e 13 3)
  let d := (List.range 8).foldl (fun d j => d.when (e.testBit (16 + j)) (fun d => d.csSlot n j fire pw)) d
  let d := d.csGate n (bits e 0 3) p
  let vox := bits e 5 8
  let d := d.when (vox != 0) (fun d =>
    let r := d.voxAction vox 1 (posInfoByte ch (d.posEpoch ch) (d.posSuspect ch)) n h.latchedIdx (tImg fire) (uInt 64 p)
    if r.2 then r.1 else r.1.incSat Cs.CS_CNT_B_VOX_REFUSED_CNT n)
  (d.wakeEvent 3 n).csFlow n e

/-- The word reaches the latched entry (R226, R228). -/
def Dev.csReach (d : Dev) (n : Nat) : Dev :=
  let d := d.holdCs n
  let p := (d.stream n).pos
  if d.csState n != 2 || !d.is Cs.STAT_LATCHED n || !d.csLive n || !reached (d.rd Cs.CS_CFG_DIR n) (d.csWord n) p then d
  else d.csFire n (d.rd Cs.NEXT_ENTRY n) p

/-- Compare-list entry; the list is one table, whichever stream page names it (R221). -/
def Dev.listEntry (d : Dev) (i : Nat) : Nat := d.tab 0x13 0 0 i

/-- An entry is missed (R226). -/
def Dev.csMiss (d : Dev) (n e : Nat) : Dev :=
  ((d.incSat Cs.CS_CNT_A_MISSED n).evt 0x13 n Cs.E_COMPARE_MISS).csFlow n e

/-- The entry of an index is judged at its load (R226, R227). -/
def Dev.csJudge (d : Dev) (n idx : Nat) : Dev :=
  let e := d.listEntry idx
  let h := d.stream n
  let base := (if h.baseDue then d.rdI Cs.BASE n else h.base) + (if h.chain then d.rdI Cs.LOOP_STEP n else 0)
  let p := base + sInt 40 (bits e 24 40)
  let dir := d.rd Cs.CS_CFG_DIR n
  let d := d.setStream n { h with
    base := base, baseDue := false, chain := false, latchedIdx := idx, pos := p, loadDue := false, reload := false }
  let d := d.wr Cs.NEXT_ENTRY n e
  let w := d.csWord n
  if bits e 3 2 = 3 ∨ 4 ≤ bits e 0 3 then
    ((d.incSat Cs.CS_CNT_A_MISSED n).evt 0x13 n Cs.E_BAD_ENTRY).csDone n
  else if p = w then d.csFire n e p
  else if behind dir w p then d.csMiss n e
  else d.wr Cs.STAT_LATCHED n 1

/-- STARVED (R225, R229). -/
def Dev.csStarve (d : Dev) (n : Nat) : Dev :=
  let d := d.setStream n { d.stream n with loadDue := false }
  (d.wr Cs.STAT_STATE n 4).evt 0x13 n Cs.E_STARVED

/-- An uncorrectable error at a load: the entry is not fired and the stream enters FAULT (R236). -/
def Dev.csDbe (d : Dev) (n : Nat) : Dev :=
  let d := d.setStream n { d.stream n with loadDue := false, reload := false, fault := true }
  (d.wr Cs.STAT_LATCHED n 0).wr Cs.STAT_STATE n 6

/-- A stream loads its next entry (R225, R226). -/
def Dev.csLoad (d : Dev) (n : Nat) : Dev :=
  let d := d.holdCs n
  let h := d.stream n
  let ring := d.is Cs.CS_CFG_MODE n
  let lp := d.rd Cs.LOAD_PT n
  let len := d.rd Claims.CLR_LEN 2 n
  if d.csState n != 2 || !h.loadDue || h.dueAt == d.sample || !d.csLive n then d
  else if ring && !h.reload && lp == d.rd Cs.AVAIL_PT n then d.csStarve n
  else
    let idx := if h.reload then h.latchedIdx else if ring then d.rd Claims.CLR_BASE 2 n + lp % max 1 len else h.idx
    let e := d.tabErr 0x13 0 0 idx
    let d := d.readTab 0x13 n Cs.F_CL_SBE Cs.F_CL_DBE 0x13 0 0 idx
    if e = 2 then d.csDbe n
    else (d.when (!h.reload) (fun d => d.addWrap Cs.LOAD_PT n 1)).csJudge n idx

/-! ## The order of a sample (R215) -/

/-- What a stream has to do in this sample: load, or fire. -/
def Dev.csTurn (d : Dev) (n : Nat) : Dev := (d.csLoad n).csReach n

/-- The streams before stream n act first, in ascending number. -/
def Dev.streamsTo (d : Dev) (n : Nat) : Dev := (List.range n).foldl (fun d i => d.csTurn i) d

/-- Every stream acts before a generator, and generators in ascending number. -/
def Dev.linesTo (d : Dev) (g : Nat) : Dev := (List.range g).foldl (fun d i => d.genReach i) (d.streamsTo 32)

def execEntryLoad (stream : Fin 32) (s : State) : Host.Outcome State Fault Refusal :=
  s.updOn 2 (fun d => (d.streamsTo stream).csLoad stream)

def execStreamFire (stream : Fin 32) (s : State) : Host.Outcome State Fault Refusal :=
  s.updOn 2 (fun d => (d.streamsTo stream).csReach stream)

def execGeneratorLine (gen : Fin 16) (s : State) : Host.Outcome State Fault Refusal :=
  s.updOn 2 (fun d => (d.linesTo gen).genReach gen)

/-- An arm, with the word captured by an input edge where one made it (R229). -/
def Dev.csArm (d : Dev) (n : Nat) (captured : Option Int) : Dev :=
  let st := d.csState n
  if !d.enabled 0x13 n || st = 0 || st = 6 then d
  else
    let overrun := st == 2 || st == 3 || st == 4
    let src := d.csSrc n
    let w := match captured with
      | some w => w
      | none => d.posWord (d.rd Cs.CS_CFG_CH n)
    let base := match captured with
      | some w => if src then d.rdI Cs.BASE n else w
      | none => d.rdI Cs.BASE n
    let h := d.stream n
    let d := d.setStream n { h with
      base := base, baseDue := false, chain := false, lines := 0, lineSample := none, idx := d.rd Cs.START_IDX n
      holdRef := w, heldFrom := 2 }
    let d := ((d.csDue n false).wr Cs.STAT_LATCHED n 0).wr Cs.STAT_STATE n 2
    let d := d.when overrun (fun d => (d.incSat Cs.CS_CNT_A_ARM_OVERRUN n).evt 0x13 n Cs.E_ARM_OVERRUN)
    d.holdCs n

/-- CS_CMD.STOP (R229). -/
def Dev.csStop (d : Dev) (n : Nat) : Dev :=
  if d.csState n = 0 ∨ d.csState n = 6 ∨ d.csState n = 5 then d else d.csDone n

/-- CS_CMD.RELOAD (R223). -/
def Dev.csReload (d : Dev) (n : Nat) : Dev :=
  if d.is Cs.STAT_LATCHED n then
    (d.csDue n true).wr Cs.STAT_LATCHED n 0
  else d

/-- One CS_CMD write: STOP acts, then RELOAD, then ARM. -/
def Dev.csCmd (d : Dev) (n v : Nat) : Dev :=
  let d := d.when (v.testBit 3) (fun d => d.clearAll
    [Cs.CS_CNT_A_MISSED, Cs.CS_CNT_A_ARM_OVERRUN, Cs.CS_CNT_B_PORT_DISCARD_CNT, Cs.CS_CNT_B_VOX_REFUSED_CNT] n)
  let d := d.when (v.testBit 1) (fun d => d.csStop n)
  let d := d.when (v.testBit 2) (fun d => d.csReload n)
  d.when (v.testBit 0) (fun d => d.csArm n none)

def execArm (req : Req) (stream : Fin 32) (s : State) : Host.Outcome State Fault Refusal :=
  s.upd (fun d => d.busW req.num 0x13 stream (fun d => d.csCmd stream 1))

def execStop (req : Req) (stream : Fin 32) (s : State) : Host.Outcome State Fault Refusal :=
  s.upd (fun d => d.busW req.num 0x13 stream (fun d => d.csCmd stream 2))

def execReload (req : Req) (stream : Fin 32) (s : State) : Host.Outcome State Fault Refusal :=
  s.upd (fun d => d.busW req.num 0x13 stream (fun d => d.csCmd stream 4))

/-- A write of AVAIL_PT (R225). -/
def Dev.availWrite (d : Dev) (n v : Nat) : Dev :=
  let lp := d.rd Cs.LOAD_PT n
  if d.rd Claims.CLR_LEN 2 n < pdiff v lp then d.badAccess 0x13 n
  else
    let d := d.wr Cs.AVAIL_PT n v
    let h := d.stream n
    if v = lp then d
    else if d.csState n = 4 then (d.csDue n false).wr Cs.STAT_STATE n 2
    else if d.csState n = 3 ∧ h.heldFrom = 4 then (d.setStream n { h with heldFrom := 2 }).csDue n false
    else d

def execAvailPt (req : Req) (stream : Fin 32) (val : Word) (s : State) : Host.Outcome State Fault Refusal :=
  s.upd (fun d => d.busW req.num 0x13 stream (fun d => d.availWrite stream val.toNat))

/-- Whether an absolute index lies in the held range. -/
def Dev.inRange (d : Dev) (n i : Nat) : Bool :=
  decide (d.rd Claims.CLR_BASE 2 n ≤ i) && decide (i < d.rd Claims.CLR_BASE 2 n + d.rd Claims.CLR_LEN 2 n)

/-- The settings and claims an enable needs (R225, R234). -/
def Dev.csMayEnable (d : Dev) (n : Nat) : Bool :=
  d.holds .range n 0x13 n &&
    (!d.csSrc n || (d.rd Cs.CS_CFG_DIR n == 0 && d.holds .gen (d.rd Cs.CS_CFG_GEN_SRC n) 0x13 n)) &&
    (d.is Cs.CS_CFG_MODE n || (d.inRange n (d.rd Cs.START_IDX n) && d.inRange n (d.rd Cs.LOOP_IDX n))) &&
    (List.range 8).all (fun j =>
      let v := d.outSlot n j
      !v.testBit 31 || v.testBit 30 || d.holds .tout (bits v 16 5) 0x13 n)

/-- EN rises (R225, R229). -/
def Dev.csEnable (d : Dev) (n : Nat) : Dev :=
  let d := (d.wr Cs.LOAD_PT n 0).wr Cs.AVAIL_PT n 0
  if d.csState n = 6 then d
  else
    let d := d.wr Cs.STAT_STATE n 1
    d.when (d.rd Cs.CS_CFG_ARM n == 0) (fun d => d.csArm n none)

/-- EN falls; FAULT is left only by a soft reset (R229). -/
def Dev.csDisable (d : Dev) (n : Nat) : Dev :=
  if d.csState n = 6 then d
  else
    let d := d.setStream n { d.stream n with loadDue := false, reload := false }
    (d.wr Cs.STAT_STATE n 0).wr Cs.STAT_LATCHED n 0

/-! ## What a channel update does to its followers (R193, R214, R215) -/

/-- After a channel update every block that follows the channel holds or leaves its hold. -/
def Dev.follow (d : Dev) (k : Nat) : Dev :=
  let d := (List.range 32).foldl (fun d n => d.when (d.rd Cs.CS_CFG_CH n == k) (fun d => d.holdCs n)) d
  (List.range 16).foldl (fun d g => d.when (d.genCh g == k) (fun d => d.holdGen g)) d

def execQuadEdge (ch : Fin 8) (ab : Nat × Nat) (early : Nat) (s : State) : Host.Outcome State Fault Refusal :=
  s.updOn 2 (fun d => (d.quadEdge ch (d.encPad ch 0 ab.1) (d.encPad ch 1 ab.2) early).follow ch)

def execIndex (z : ZEdge) (s : State) : Host.Outcome State Fault Refusal :=
  s.updOn 2 (fun d => d.indexEdge z.ch (d.encPad z.ch 2 z.level) z.early)

def execSerReading (ch : Fin 8) (data : List Nat) (early delay : Nat) (s : State) : Host.Outcome State Fault Refusal :=
  s.updOn 2 (fun d => (d.serReading ch data early delay).follow ch)

/-- The count is confined anew, and what follows the channel sees the change (R190, R191, R214). -/
def Dev.confineAll (d : Dev) (k : Nat) : Dev := (d.confine k).follow k

/-- A whole write of LIMIT_LO or LIMIT_HI (R191). -/
def Dev.limitWrite (d : Dev) (k : Nat) (high : Bool) (v : Nat) : Dev :=
  let lo := if high then d.rdI Pos.LIMIT_LO k else sInt 64 v
  let hi := if high then sInt 64 v else d.rdI Pos.LIMIT_HI k
  if v % 256 ≠ 0 ∨ hi ≤ lo then d.badAccess 0x10 k
  else (d.wr (if high then Pos.LIMIT_HI else Pos.LIMIT_LO) k v).confineAll k

def execLimitWrite (req : Req) (ch : Fin 8) (high : Bool) (val : BitVec 64) (s : State) :
    Host.Outcome State Fault Refusal :=
  s.upd (fun d => d.busW req.num 0x10 ch (fun d => d.limitWrite ch high val.toNat))

/-! ## Digital inputs (R201–R205) -/

/-- A run ends unaccepted (R202). -/
def Dev.dinReject (d : Dev) (n : Nat) : Dev :=
  if (d.din n).run.isSome then
    ((d.setDin n { d.din n with run := none }).wr Din.STAT_DEBOUNCING n 0).incSat Din.DIN_CNT_GLITCH_CNT n
  else d

/-- The event item of an edge (R205). -/
def dinItem (h : DinH) (rise : Bool) (precise : Bool) (t : Nat) : List Nat :=
  let pv := h.runPos.isSome
  let fl := 1 + 2 * b2n pv + 4 * bitOf h.runInfo 7 + 8 * b2n precise + 16 * b2n h.lostBefore
  [if rise then 1 else 2, fl, bits h.runInfo 0 3, bits h.runInfo 3 4] ++ zeros 4 ++ leBytes 8 (h.runPos.getD 0) ++ leBytes 16 t

/-- Write the item of an edge, or lose it (R205). -/
def Dev.dinPut (d : Dev) (n : Nat) (item : List Nat) : Dev :=
  if d.qFree (16 + n) = 0 then
    let d := d.setDin n { d.din n with lostBefore := true }
    (d.incSat Din.DIN_CNT_EV_LOST_CNT n).evt 0x11 n Din.E_EV_LOST
  else (d.setDin n { d.din n with lostBefore := false }).qPut (16 + n) 1 item [] []

/-- Streams armed and generators gated by an edge (R217, R229). -/
def Dev.dinOffer (d : Dev) (n : Nat) (rise : Bool) (words : List Int) : Dev :=
  let mode := if rise then 1 else 2
  let d := (List.range 32).foldl (fun d c =>
    d.when (d.rd Cs.CS_CFG_ARM c == mode && d.rd Cs.CS_CFG_ARM_IN c == n) (fun d =>
      d.csArm c (some (words.getD (d.rd Cs.CS_CFG_CH c) 0)))) d
  (List.range 16).foldl (fun d g =>
    let i := 32 + g
    d.when (d.rd Gen.GEN_CFG_GATE_MODE i == mode + 1 && d.rd Gen.GEN_CFG_GATE_SRC i == n) (fun d =>
      let k := d.genCh g
      d.genOpen g (d.genPhase g (words.getD k 0)) (d.wordBefore k))) d

/-- A run is accepted: the filtered level changes, and with EN = 1 that is a qualified edge (R202–R205). -/
def Dev.dinAccept (d : Dev) (n : Nat) (h : DinH) (t0 : Nat) : Dev :=
  let level := d.rd Din.STAT_RAW n
  let rise := level == 1
  let d := ((d.wr Din.STAT_LEVEL n level).wr Din.STAT_DEBOUNCING n 0).setDin n { h with run := none }
  if !d.enabled 0x11 n then d
  else
    let precise := d.is Din.DIN_CFG_TC_EN n && d.holds .tc (d.rd Din.DIN_CFG_TC n) 0x11 n
    let t := tImg (if precise then h.runTc else t0 - 81920)
    let d := (d.addWrap Din.EDGE_CNT n 1).wr (if rise then Din.LAST_RISE else Din.LAST_FALL) n t
    let d := d.evt 0x11 n (if rise then Din.E_RISE else Din.E_FALL)
    let d := d.when ((d.rd Din.DIN_CFG_EDGES n).testBit (if rise then 0 else 1)) (fun d =>
      d.dinPut n (dinItem h rise precise t))
    let d := d.when (rise && n == 0) (fun d => d.wakeEvent 2 0)
    d.dinOffer n rise h.runWords

/-- DEBOUNCE of an input in 2^-16 ns (R202). -/
def Dev.debounceL (d : Dev) (n : Nat) : Nat := d.rd Din.DEBOUNCE n * 10 * nsL

/-- The sampled level of an input, after INV (R201, R202): a run begins or is rejected. The sample came early in the present
cycle, and the transition at the ball so long before it (R203). With DEBOUNCE = 0 the first sample is enough. -/
def Dev.dinLevel (d : Dev) (n level early lead : Nat) : Dev :=
  let raw := (level + d.rd Din.DIN_CFG_INV n) % 2
  let d := d.wr Din.STAT_RAW n raw
  if d.is Din.STAT_WIRE n then d
  else if raw = d.rd Din.STAT_LEVEL n then d.dinReject n
  else if (d.din n).run.isSome then d
  else
    let k := d.rd Din.DIN_CFG_POS_CH n
    let valid := d.is Din.DIN_CFG_POS_EN n && d.enabled 0x10 k
    let t0 := d.momentL early
    let h := { d.din n with
      run := some t0
      runTc := t0 - lead % sampleL
      runPos := if valid then some (uInt 64 (d.posWord k)) else none
      runInfo := if valid then posInfoByte k (d.posEpoch k) (d.posSuspect k) else 0
      runWords := (List.range 8).map (fun c => d.posWord c) }
    let d := (d.setDin n h).wr Din.STAT_DEBOUNCING n 1
    d.when (d.debounceL n == 0) (fun d => d.dinAccept n h t0)

def execSampledLevelChange (input : Fin 24) (edge : PadEdge) (s : State) : Host.Outcome State Fault Refusal :=
  s.updOn 2 (fun d => d.dinLevel input (d.dinPad input edge.level) edge.early edge.lead)

/-- The run of a level has lasted for DEBOUNCE, up to a sample that came so long before the present cycle (R202). -/
def Dev.dinEdge (d : Dev) (n : Nat) (rise : Bool) (early : Nat) : Dev :=
  let h := d.din n
  match h.run with
  | none => d
  | some t0 =>
    if d.rd Din.STAT_RAW n ≠ b2n rise ∨ d.rd Din.STAT_LEVEL n = b2n rise ∨ d.momentL early < t0 + d.debounceL n then d
    else d.dinAccept n h t0

def execQualifiedEdge (input : Fin 24) (rising : Bool) (early : Nat) (s : State) : Host.Outcome State Fault Refusal :=
  s.updOn 2 (fun d => d.dinEdge input rising early)

/-- The pad as it stands, sampled anew: after a write of INV or DIFF, or where WIRE no longer holds the level (R201, R561). The
inversion that RAW was taken with is given. -/
def Dev.dinAgain (d : Dev) (n inv : Nat) : Dev := d.dinLevel n ((d.rd Din.STAT_RAW n + inv) % 2) 0 0

/-- EN of an input falls: its wire check ends, while sampler, filter and debounce run on (R202, R561). -/
def Dev.dinDisable (d : Dev) (n : Nat) : Dev := (d.wr Din.STAT_WIRE n 0).dinAgain n (d.rd Din.DIN_CFG_INV n)

/-- WIRE of an input sets or clears (R201, R202). -/
def Dev.wireDin (d : Dev) (n : Nat) (live : Bool) (level : Nat) : Dev :=
  let was := d.is Din.STAT_WIRE n
  if live && !was then
    let d := (d.dinReject n).wr Din.STAT_WIRE n 1
    (d.evt 0x11 n Din.E_WIRE).flt 0x11 n Din.F_WIRE_FAULT
  else if !live && was then (d.wr Din.STAT_WIRE n 0).dinLevel n level 0 0
  else d

/-- The wire check of one pair decides; a pad force decides it in place of the pad (R509). -/
def Dev.wireOne (d : Dev) (pair : WirePair) (live : Bool) (level : Nat) : Dev :=
  let code := match pair with
    | .enc k p => d.padE k p
    | .encAB k => d.padE k 0
    | .din n => d.padD n
  let live := if code = 0 then live else code == 3
  let level := (padLevel code).getD level
  if !d.wireChecked pair then d
  else match pair with
    | .enc k p => (d.wireEnc k p live level).follow k
    | .encAB k => (d.wireBoth k live level).follow k
    | .din n => d.wireDin n live level

/-- The wire check of a pair decides, with the level the pair then has (R178, R201). -/
def execWire (pair : WirePair) (live : Bool) (level : Nat) (s : State) : Host.Outcome State Fault Refusal :=
  s.updOn 2 (fun d =>
    match pair with
    | .encAB k =>
      if d.padE k 0 = 0 ∧ d.padE k 1 = 0 then d.wireOne (.encAB k) live level
      else (d.wireOne (.enc k 0) live (bitOf level 0)).wireOne (.enc k 1) live (bitOf level 1)
    | _ => d.wireOne pair live level)

/-- A route or a pad force acts on some pair. -/
def Dev.driven (d : Dev) : Bool :=
  d.rd Test.ROUTE_D 0 != 0 || d.rd Test.ROUTE_E 0 != 0 || d.rd Test.PAD_D 0 != 0 || d.rd Test.PAD_E 0 != 0

/-- Routed and forced inputs take their levels; a code of 0b11 is reported by the pair's wire check (R508, R509). -/
def Dev.routeDin (d : Dev) (n : Fin 24) : Dev :=
  let was := (d.rd Din.STAT_RAW n + d.rd Din.DIN_CFG_INV n) % 2
  let d := d.when (d.dinPad n was != was) (fun d => d.dinLevel n (d.dinPad n was) 0 0)
  d.when (d.padD n == 3 && !d.is Din.STAT_WIRE n) (fun d => d.wireOne (.din n) true 0)

/-- The same for the pairs of a channel. -/
def Dev.routeEnc (d : Dev) (k : Fin 8) : Dev :=
  let h := d.chan k
  let a := d.encPad k 0 h.rawA
  let b := d.encPad k 1 h.rawB
  let z := d.encPad k 2 h.rawZ
  let d := d.when (a != h.rawA || b != h.rawB) (fun d => (d.quadEdge k a b 0).follow k)
  let d := d.when (z != h.rawZ) (fun d => d.indexEdge k z 0)
  (List.finRange 3).foldl (fun (d : Dev) (p : Fin 3) =>
    d.when (d.padE k p == 3 && !d.is (wireStat p) k) (fun d => d.wireOne (.enc k p) true 0)) d

/-- All routed and forced pairs. -/
def Dev.routed (d : Dev) : Dev :=
  if d.powered 2 && d.driven then
    (List.finRange 8).foldl Dev.routeEnc ((List.finRange 24).foldl Dev.routeDin d)
  else d

/-- A read of EV_ITEM0 (R164, R205); an uncorrectable item flushes the FIFO (R211). -/
def Dev.evItem0 (d : Dev) (n : Nat) : Dev × Nat :=
  let k := 16 + n
  let u := d.useBuf 0x11 n Din.F_EV_SBE Din.F_EV_DBE
  let d := if u.2 then u.1.qFlush k else u.1
  match d.itemAtRd k with
  | some x =>
    let ws := (List.range 8).map (fun j => le x.hdr (4 * j) 4)
    ((d.setDin n { d.din n with words := ws }).qFinish k x, ws.getD 0 0)
  | none => ((d.setDin n { d.din n with words := [0, 0, 0, 0, 0, 0, 0, 0] }).qIdle k, 0)

def execEvItem0Read (req : Req) (input : Fin 24) (s : State) : Host.Outcome State Fault Refusal :=
  s.upd (fun d => d.busR req.num 0x11 input (fun d => d.evItem0 input))

/-! ## Lockstep (R200, R235) -/

/-- A lockstep pair disagrees. -/
def Dev.lockstep (d : Dev) : LockUnit → Dev
  | .channel k =>
    let k := k.val
    let d := d.setChan k { d.chan k with word := d.posWord k, spd := d.speed k, stuck := true }
    (d.setSuspect k).flt 0x10 k Pos.F_LOCKSTEP
  | .generator g =>
    let g := g.val
    ((d.setGen g { d.gen g with fault := true }).genClose g).flt 0x12 (32 + g) Gen.F_LOCKSTEP
  | .stream n =>
    let n := n.val
    let d := d.setStream n { d.stream n with fault := true, loadDue := false, reload := false }
    ((d.wr Cs.STAT_LATCHED n 0).wr Cs.STAT_STATE n 6).flt 0x13 n Cs.F_LOCKSTEP
  | .output m =>
    let m := m.val
    (d.setOutp m { d.outp m with fault := true, pulses := [] }).flt 0x12 m Out.F_LOCKSTEP

def execLockstep (unit : LockUnit) (s : State) : Host.Outcome State Fault Refusal := s.updOn 2 (fun d => d.lockstep unit)

end Sys2Proof.Machine
end

