-- ==== Sys2Proof/Machine/Verdict.lean ====
section
/-!
DEFINITION. The segment tracker: states, opening, end, deadlines, cuts, verdicts (R345–R347, R375–R385), and the spare
engine (R398, R399).
The log's entries 3, 44 and 51 of notes/assumptions name what is DEDUCED or a DESIGN CHOICE here, and marks each.
-/

namespace Sys2Proof.Machine

/-! ## Engines that serve (R374, R398, R401) -/

/-- An engine that can take segments. -/
def Dev.engineOk (d : Dev) (e : Nat) : Bool :=
  d.enabled 0x0D e && !d.is Ce.STAT_FAILED e && !d.silent 0x0D e && !d.wedged (islandOf 0x0D e)

/-- CE16 serves a port in place of its own engine. -/
def Dev.spareFor (d : Dev) (p : Nat) : Bool :=
  d.is Ce.SPARE_STAT_SERVING 16 && d.rd Ce.SPARE_STAT_SERVED_ENGINE 16 == p

/-- The engine a segment that opens now goes to. -/
def Dev.serveOf (d : Dev) (p : Nat) : Option Nat :=
  if d.spareFor p && !(d.ce 16).giveBack then (if d.engineOk 16 then some 16 else none)
  else if d.engineOk p then some p else none

/-- The page that counts a segment's verdict: its engine's, or that of the port's own (R400). -/
def Seg.page (s : Seg) (p : Nat) : Nat := s.engine.getD p

/-- The port an engine serves. -/
def Dev.portOf (d : Dev) (e : Nat) : Option Nat :=
  if e < 16 then (if d.serveOf e = some e then some e else none)
  else if d.is Ce.SPARE_STAT_SERVING 16 && d.engineOk 16 then some (d.rd Ce.SPARE_STAT_SERVED_ENGINE 16) else none

/-! ## What segments hold (R315, R346, R375) -/

def SegState.live : SegState → Bool
  | .declared | .opened | .closing => true
  | _ => false

/-- Neither cut nor ended: it holds its place, profile and area (R375). -/
def SegState.holds : SegState → Bool
  | .cut _ => false
  | _ => true

/-- PROF_BUSY, IN_FLIGHT, MASK_BUSY and the engines' counts follow the segments. -/
def Dev.showSegs (d : Dev) (p : Nat) : Dev :=
  let held := fun p => (d.track p).segs.filter (fun s => s.st.holds)
  let busy := (List.range 64).foldl (fun v n =>
    if (List.range 16).any (fun p => (held p).any (fun s => s.profile == n)) then v + 2 ^ n else v) 0
  let d := (d.wr Ri.PROF_BUSY 0 busy).wr Ri.SEG_STAT_IN_FLIGHT 0 (held p).length p
  ([p, 16]).foldl (fun d e =>
    let mine := (held p).filter (fun s => s.engine == some e)
    let maps := (List.range 64).foldl (fun v i =>
      if mine.any (fun s => match s.eng with
          | some g => (match g.map with | some (j, _) => j == i | none => false)
          | none => false) then v + 2 ^ i else v) 0
    let open? := mine.filter (fun s => s.st == .opened || s.st == .closing)
    let reading := open?.filterMap (fun s => s.eng)
    if e = 16 ∧ !d.spareFor p ∧ mine.isEmpty then d
    else
      let d := (d.wr Ce.MASK_BUSY e maps).wr Ce.STAT_IN_FLIGHT e (min 64 open?.length)
      d.wrb Ce.STAT_HOLDBACK e (reading.any (fun g => !g.keyed))) d

/-! ## Verdict items (R383, R384) -/

/-- R_i as a report converts it (R370), without its sign. -/
def regConv (v : Rat) (t : Int) : Nat := min 32767 (roundHA (f64 (v * mkRat t (2 ^ 24)))).natAbs

/-- The bits of FAIL_MASK found so far (R383). -/
def Dev.failMask (d : Dev) (p : Nat) (s : Seg) : Nat :=
  2 * b2n (s.check 1 && s.streak && d.plUse (s.page p) 3 == 1) +
    match s.eng with
    | none => 0
    | some g =>
      let terms := descTerms s.desc
      let reg := g.regs.any (fun r =>
        decide (g.cfg.regTol < regConv r.2.1 (terms.getD 0 0)) || decide (g.cfg.regTol < regConv r.2.2.1 (terms.getD 3 0)))
      b2n (s.check 0 && (g.kept || g.ovf)) + 4 * b2n (s.check 2 && reg) +
        8 * b2n (s.check 3 && g.patches.any (fun t => t.outOfTol (d.lcuWidth p) s.rows (d.lcuChan p) g.cfg.cw))

/-- The verdict of completed work: verdict and reason (R383). -/
def Dev.judge (d : Dev) (p : Nat) (s : Seg) : Nat × Nat :=
  match s.eng with
  | none => (2, 5)
  | some g =>
    if g.cfg.niMax < g.niRows then (2, 5)
    else if s.check 3 && g.patches.any (fun t => !t.measured (d.lcuWidth p) s.rows) then (2, 0x10)
    else if s.check 2 && !g.kflags.testBit 4 then (2, 0x11)
    else if d.failMask p s ≠ 0 then (1, 0)
    else (0, 0)

/-- E as its reports give it, with its epoch; without a known E a free value. -/
def Dev.endPos (d : Dev) (s : Seg) : Nat × Nat × Dev :=
  if s.wasOpen || s.endAt.isSome then (uInt 64 s.gE, s.openEpoch, d)
  else if s.fixed then (uInt 64 s.e, d.posEpoch s.ch, d)
  else (d.freeVal 64, d.posEpoch s.ch, d.freeUsed)

/-- The BASE that an entry of a stream is placed from: what the register holds until an arm or a load has taken it (R229,
R239). -/
def Dev.csBase (d : Dev) (n : Nat) : Int :=
  if d.csState n = 1 ∨ (d.stream n).baseDue then d.rdI Cs.BASE n else (d.stream n).base

/-- Append an entry to a compare stream for a verdict at the end position E (R385). -/
def Dev.vxAppend (d : Dev) (e : Nat) (s : Seg) (endPos : Int) (template : Nat) : Dev :=
  let n := d.rd Ce.OUT_CFG_VX_STREAM e
  let dir := s.dir
  let pos := endPos + along dir (d.rd Ce.VX_DIST e) - d.csBase n
  let full := pdiff (d.rd Cs.AVAIL_PT n) (d.rd Cs.LOAD_PT n) == d.rd Claims.CLR_LEN 2 n
  let ok := d.enabled 0x13 n && d.is Cs.CS_CFG_MODE n && !d.is Cs.CS_CFG_SRC n && d.rd Cs.CS_CFG_CH n == s.ch &&
    d.rd Cs.CS_CFG_DIR n == dir && !full && decide (-(2 ^ 39) ≤ pos) && decide (pos < 2 ^ 39)
  if ok then
    let i := d.rd Claims.CLR_BASE 2 n + d.rd Cs.AVAIL_PT n % d.rd Claims.CLR_LEN 2 n
    let d := d.putTab 0x13 n Cs.F_CL_SBE Cs.F_CL_DBE 0x13 0 0 i (uInt 40 pos * 2 ^ 24 + template)
    d.availWrite n ((d.rd Cs.AVAIL_PT n + 1) % 2 ^ 32)
  else (d.incSat Ce.CE_CNT_B_VX_DROP_CNT e).evt 0x0D e Ce.E_VX_DROP

/-- Form a verdict: item, Voxord message, counts, compare-list entry (R384, R385, R400). -/
def Dev.verdictOut (d : Dev) (p : Nat) (s : Seg) (verdict reason : Nat) : Dev :=
  let e := s.page p
  let mask := d.failMask p s
  let fields := fun (f : EngSeg → Nat) => match s.eng with | some g => f g | none => 0
  let ep := d.endPos s
  let d := ep.2.2
  let info := posInfoByte s.ch ep.2.1 s.suspect
  let w := d.lcuWidth p
  let measured := fields (fun g => (g.patches.filter (fun t => t.measured w s.rows)).length)
  let out := fields (fun g => (g.patches.filter (fun t => t.outOfTol w s.rows (d.lcuChan p) g.cfg.cw)).length)
  let endT := match s.endAt with | some t => tImg t | none => 0
  let vf := 1 + 2 * b2n s.suspect + 4 * b2n s.tsus + 8 * fields (fun g => b2n g.ovf) + 16 * b2n (s.engine == some 16)
  let reg := match s.eng with | some g => regBlock g | none => [0, 0xFF] ++ zeros 30
  let bytes := [0x64, vf, p, verdict] ++ zeros 4 ++ leBytes 4 s.num ++ leBytes 2 reason ++ [mask, s.engine.getD 0xFF] ++
    leBytes 8 s.pageId ++ leBytes 16 endT ++ leBytes 8 ep.1 ++ [info, 0, 0, 0] ++ leBytes 4 (fields (fun g => g.snagCnt)) ++
    leBytes 4 (fields (fun g => g.snagLost)) ++ leBytes 4 s.rows ++ leBytes 4 (fields (fun g => g.niRows)) ++
    [measured, out, 0, 0] ++ leBytes 8 (fields (fun g => g.judged)) ++ leBytes 16 d.now ++ reg
  let d := d.when (d.is Ce.OUT_CFG_VERDICT_QEN e) (fun d =>
    d.push (d.rd Ce.OUT_Q_VERDICT_Q e)
      { typ := 0x64, port := p, seg := s.num, page := s.pageId, time := endT, posValid := true, pos := ep.1, posInfo := info
        posSuspect := s.suspect, timeSuspect := s.tsus, ref := s.firstSeq.getD 0xFFFFFFFF, body := .bytes bytes })
  let d := (d.voxRoute p 2 1 ([p, verdict] ++ beBytes 2 reason ++ beBytes 4 s.num ++ beBytes 8 s.pageId ++ voxTime endT ++
      [info, 0, 0, 0] ++ beBytes 8 ep.1 ++ beBytes 4 (fields (fun g => g.snagCnt)) ++ beBytes 4 mask)).1
  let d := match verdict with
    | 0 => d.addWrap Ce.PASS_CNT e 1
    | 1 => (d.incSat Ce.CE_CNT_A_FAIL_CNT e).evt 0x0D e Ce.E_FAIL
    | _ => (d.incSat Ce.CE_CNT_A_UNINSP_CNT e).evt 0x0D e Ce.E_UNINSPECTED
  let d := (d.evt 0x0D e Ce.E_VERDICT).wr Ce.LAST_SEG_NUM e s.num
  let d := ((d.wr Ce.LAST_VERDICT_REASON e reason).wr Ce.LAST_VERDICT_VERDICT e verdict).wr Ce.LAST_VERDICT_FAIL_MASK e mask
  let d := d.wr Ce.LAST_VERDICT_PORT e p
  let d := d.when (d.is Ce.OUT_CFG_VX_EN e && (verdict == 1 || (verdict == 2 && d.is Ce.OUT_CFG_VX_UNINSP e)))
    (fun d => d.vxAppend e s (if s.fixed then s.e else sInt 64 ep.1) (match s.eng with
      | some g => g.cfg.template
      | none => d.rd Ce.VX_TEMPLATE_ENTRY e))
  match s.eng with
  | some g => if decide (s.engine = some e) && (!g.lost.isEmpty || g.floatMax != 0) then d.lastKey e g else d
  | none => d

/-! ## Ending (R375, R381) -/

/-- CE16 returns its pages once its last segment has ended after GIVE_BACK (R399). -/
def Dev.spareCheck (d : Dev) (p : Nat) : Dev :=
  if d.spareFor p && (d.ce 16).giveBack && !(d.track p).segs.any (fun s => s.engine == some 16 && s.st.holds) then
    let d := d.setCe 16 { d.ce 16 with giveBack := false }
    let d := (d.wr Ce.SPARE_STAT_SERVING 16 0).wr Ce.SPARE_STAT_SERVED_ENGINE 16 0
    let d := d.wr (Hdr.FLT 0x0D) 16 (d.rd (Hdr.FLT 0x0D) 16 &&& (2 ^ 32 - 1 - 2 ^ Ce.F_SPARE_IN_USE))
    d.evt 0x0D 16 Ce.E_GIVE_BACK
  else d

/-- A segment has released what it held: areas, busy marks, places. -/
def Dev.released (d : Dev) (p num : Nat) : Dev := ((d.areaEnded p num).showSegs p).spareCheck p

/-- The oldest segment's verdict is formed and it is ENDED. -/
def Dev.endHead (d : Dev) (p : Nat) (s : Seg) (verdict reason : Nat) : Dev :=
  let d := d.verdictOut p s verdict reason
  let d := d.setTrack p { d.track p with segs := (d.track p).segs.drop 1, ended := (d.track p).ended ++ [s.num] }
  d.released p s.num

/-- Verdicts are formed in segment order, as far as the oldest segments allow (R381). -/
def settleN : Nat → Dev → Nat → Dev
  | 0, d, _ => d
  | n + 1, d, p =>
    match (d.track p).segs with
    | [] => d
    | s :: _ => match s.st with
      | .complete => let v := d.judge p s; settleN n (d.endHead p s v.1 v.2) p
      | .cut r => settleN n (d.endHead p s 2 r) p
      | _ => d

def Dev.settle (d : Dev) (p : Nat) : Dev := settleN (d.track p).segs.length d p

/-- What a segment leaves to the port's next one, once an engine is done with it (R347). -/
def Dev.carryOver (d : Dev) (p num : Nat) (g : EngSeg) : Dev :=
  d.setTrack p { d.track p with
    carryFit := if g.kflags.testBit 0 then g.fit else none, carryRow := g.shifts.getLast?, carrySeg := num }

/-- Open regions close, their records and the patch records leave (R387, R397). -/
def Dev.finishEng (m : FrameStore) (d : Dev) (p : Nat) (s : Seg) : Dev :=
  match s.engine, s.eng with
  | some e, some g =>
    let x := d.closeRegions m e p s g (fun _ => true)
    (x.1.patchRecords e p s x.2).modEng p s.num (fun _ => x.2)
  | _, _ => d

/-- A segment leaves DECLARED: its E, where it is known, is what the port's next segment must not start behind (R294). -/
def Dev.noteEnd (d : Dev) (p : Nat) (s : Seg) : Dev :=
  let t := d.track p
  d.when s.fixed (fun d => d.setTrack p { t with ends := t.ends ++ [(s.num, s.ch, d.posEpoch s.ch, s.e)] })

/-- Cut a segment that is not COMPLETE (R375, R382): the LCU ends it, findings so far stay with its verdict. -/
def Dev.cutSeg (m : FrameStore) (d : Dev) (p num reason : Nat) : Dev :=
  match d.segOf p num with
  | none => d
  | some s =>
    if !s.st.live then d
    else
      let d := d.lcuCut p num
      let s := (d.segOf p num).getD s
      let d := d.finishEng m p s
      let d := match s.eng with
        | some g => if g.rowsJudged * 256 < s.rows then d.carryOver p num g else d
        | none => d
      let d := d.when (s.st == .declared) (fun d => d.noteEnd p s)
      let d := d.modSeg p num (fun s => { s with st := .cut reason })
      ((d.setTrack p { d.track p with ended := (d.track p).ended ++ [num] }).released p num).settle p

/-- Cut every segment of a port that a condition names, oldest first. -/
def Dev.cutAll (m : FrameStore) (d : Dev) (p reason : Nat) (which : Seg → Bool) : Dev :=
  (((d.track p).segs.filter which).map (fun s => s.num)).foldl (fun d n => d.cutSeg m p n reason) d

/-- OPEN or CLOSING. -/
def Seg.running (s : Seg) : Bool := s.st == .opened || s.st == .closing

/-- LCU_CUT (R382). -/
def Dev.lcuCutAll (m : FrameStore) (d : Dev) (p : Nat) : Dev := d.cutAll m p 0x0C Seg.running

/-- ENGINE_CUT (R382). -/
def Dev.engineCut (m : FrameStore) (d : Dev) (e : Nat) : Dev :=
  (List.range 16).foldl (fun d p => d.cutAll m p 0x0D (fun s => s.running && s.engine == some e)) d

/-! ## The engine's start (R345–R348) -/

/-- The registers a segment takes. -/
def Dev.engCfg (d : Dev) (e : Nat) : EngCfg :=
  { keyRows := d.rd Ce.KEY_CFG_KEY_ROWS e, reread := d.rd Ce.KEY_CFG_REREAD_LINES e, fitMode := d.rd Ce.KEY_CFG_FIT_MODE e
    failGo := d.is Ce.KEY_CFG_KEY_FAIL_GO e, residMax := d.rd Ce.KEY_LIMITS_RESID_MAX e
    scaleMax := d.rd Ce.KEY_LIMITS_SCALE_MAX e, nccMin := d.rd Ce.FLOAT_CFG_NCC_MIN e, uniq := d.rd Ce.FLOAT_CFG_UNIQ e
    alpha := d.rd Ce.FLOAT_CFG_ALPHA e, corr := d.rd Ce.FLOAT_CFG_CORR_SEL e, floatEn := d.is Ce.FLOAT_CFG_FLOAT_EN e
    texture := d.rd Ce.FLOAT_CFG2_TEXTURE_MIN e, jump := d.rd Ce.FLOAT_CFG2_JUMP e, lostPct := d.rd Ce.FLOAT_CFG2_LOST_PCT e
    cw := [d.rd Ce.CMP_WEIGHT_CW_R e, d.rd Ce.CMP_WEIGHT_CW_G e, d.rd Ce.CMP_WEIGHT_CW_B e]
    refInk := d.rd Ce.REG_CFG_REF_INK e, niMax := d.rd Ce.SEG_CFG_NI_ROWS_MAX e, stall := d.rd Ce.SEG_CFG_STALL_TIME e
    regTol := d.rd Ce.CHK_CFG_REG_TOL e, snagMax := d.rd Ce.SNAG_CFG_SNAG_MAX e, tileMax := d.rd Ce.SNAG_CFG_SNAG_TILE_MAX e
    tilesEn := d.is Ce.SNAG_CFG_SNAG_TILES_EN e, region := d.rd Ce.SNAG_CFG_SNAG_REGION e
    template := d.rd Ce.VX_TEMPLATE_ENTRY e }

/-- Entries of a table of an engine that a condition takes, an uncorrectable one being left out; their checkers report. -/
def Dev.takeTab (d : Dev) (e t n sbe dbe : Nat) (want : Nat → Bool) : Dev × List (Nat × Nat) :=
  let hits := (List.range n).filter (fun i => want (d.tab 0x0D e t i))
  let good := hits.filter (fun i => d.tabErr 0x0D e t i != 2)
  (hits.foldl (fun d i => d.readTab 0x0D e sbe dbe 0x0D e t i) d, good.map (fun i => (i, d.tab 0x0D e t i)))

/-- The profile an engine renders with: the copy it holds, or one it makes now; true where that meets an uncorrectable word
(R326, R333). -/
def Dev.takeProf (m : FrameStore) (d : Dev) (e n : Nat) : Dev × Array Nat × Bool :=
  match (d.ce e).prof.filter (fun x => x.1 == n) with
  | some x => (d, x.2, false)
  | none =>
    let at? := d.profByte n
    let bad := !(m.poisoned at? profBytes).isEmpty || !d.profValid n
    let copy := (m.clean at? profBytes).toArray
    let d := d.hbmMet m at? profBytes
    (d.setCe e { d.ce e with prof := if bad then none else some (n, copy) }, copy, bad)

/-- What an engine takes at the start of a segment, and the reason that ends it at once, if there is one (R345, R348). -/
def Dev.engStart (m : FrameStore) (d : Dev) (e p : Nat) (s : Seg) (rows : Nat) : Dev × EngSeg × Option Nat :=
  let zones := (List.range 16).map (fun i => d.tab 0x0D e 0 i)
  let zoneBad := (List.range 16).any (fun i => d.tabErr 0x0D e 0 i == 2)
  let d := (List.range 16).foldl (fun d i => d.readTab 0x0D e Ce.F_CT_SBE Ce.F_CT_DBE 0x0D e 0 i) d
  let fx := if s.fidId = 0 then (d, []) else
    d.takeTab e 1 256 Ce.F_CT_SBE Ce.F_CT_DBE (fun x => x.testBit 16 && bits x 0 16 == s.fidId)
  let d := fx.1
  let cfg := d.engCfg e
  let span := min cfg.keyRows rows
  let copied := fx.2.take 32
  let used := copied.filter (fun f => fidUsed (d.lcuWidth p) span f.2)
  let outs := copied.length - used.length
  let d := d.when (outs != 0) (fun d => (d.addSat Ce.KEY_CNT_B_FID_OUTSIDE_CNT e outs).evt 0x0D e Ce.E_FID_OUTSIDE)
  let mx := if s.maskId = 0 then (d, []) else
    d.takeTab e 2 64 Ce.F_CT_SBE Ce.F_CT_DBE (fun x => x.testBit 16 && bits x 0 16 == s.maskId)
  let d := mx.1
  let px := if s.patchId = 0 then (d, []) else
    d.takeTab e 4 256 Ce.F_PT_SBE Ce.F_PT_DBE (fun x => x.testBit 16 && bits x 0 16 == s.patchId)
  let d := px.1
  let pr := d.takeProf m e s.profile
  let d := pr.1
  let terms := descTerms s.desc
  let skip := s.fidId == 0
  let g : EngSeg :=
    { (default : EngSeg) with
      cfg := cfg, fresh := true, zones := zones, fids := used, map := mx.2.head?, prof := pr.2.1
      start := terms, terms := terms, keyed := skip, kflags := if skip then 4 else 0
      patches := (px.2.take 64).map (fun x => ⟨x.1, x.2, [], [], 0, false, false, false⟩) }
  let missing := s.maskId != 0 && mx.2.isEmpty
  let d := d.when missing (fun d => d.evt 0x0D e Ce.E_MASK_MISSING)
  (d, g, if missing then some 7 else if zoneBad || pr.2.2 then some 8 else none)

/-! ## Opening (R376) -/

/-- A condition of R294 that ends a segment at opening; K. A segment whose E is not beyond S has no row. -/
def Dev.gridBad (d : Dev) (p : Nat) (s : Seg) : Bool × Nat :=
  let k := d.gridRows p s.s s.e
  let dir := d.scrDir p
  let behindPrev := match s.prev.bind (fun n => (d.track p).ends.reverse.find? (fun x => x.1 == n)) with
    | some (_, ch, ep, e) =>
      ch == s.ch && decide (along dir s.s < along dir (d.inEpoch ch e ep (d.posEpoch ch)))
    | none => false
  (s.ch != d.scrCh p || s.dir != dir || decide (131072 < k) || k == 0 || behindPrev, k)

/-- The port's oldest DECLARED segment opens, where R376 allows. -/
def Dev.segOpen (m : FrameStore) (d : Dev) (p : Nat) : Dev :=
  let t := d.track p
  let busy := t.segs.any (fun s => s.running && s.wasOpen && !s.produced)
  match t.segs.find? (fun s => s.st == .declared) with
  | none => d
  | some s =>
    if busy || !d.lcuRuns p || !s.fixed || (s.timed && !s.started) then d
    else
      let g := d.gridBad p s
      let ep := d.posEpoch s.ch
      let d := d.modSeg p s.num (fun s => { s with
        wasOpen := true, openEpoch := ep, openAt := d.nowL, gS := s.s, gE := s.e, rows := g.2 })
      match d.serveOf p with
      | none => d.cutSeg m p s.num (if g.1 then 0x0B else 0x0F)
      | some e =>
        let x := d.engStart m e p s g.2
        let eng := x.2.1
        let d := x.1.modSeg p s.num (fun s => { s with engine := some e, eng := some eng })
        -- The engine's own reasons at the start have lower codes than GRID_BAD (R382).
        match x.2.2 <|> (if g.1 then some 0x0B else none) with
        | some r => d.cutSeg m p s.num r
        | none =>
          let d := (d.modSeg p s.num (fun s => { s with st := .opened })).noteEnd p s
          let d := d.lcuOpen p s.num s.pageId s.s g.2 ep
          let pass := eng.cfg.reread != 0 && eng.fids.any (fun f => fidLine f.2)
          let d := d.when pass (fun d => d.passAsk p s.num eng.cfg.reread)
          (d.screedTail p).showSegs p

def execSegmentOpen (port : Fin 16) (s : State) : Host.Outcome State Fault Refusal :=
  s.updR (fun m d => d.segOpen m port)

/-! ## Work completes (R379) -/

/-- A segment's work is complete. -/
def Seg.done (s : Seg) : Bool :=
  s.running && s.wasOpen && s.produced && s.tiles.isEmpty && match s.eng with
    | some g => g.keyed && decide (s.rows ≤ 256 * g.rowsJudged)
    | none => false

/-- A segment whose work is complete: regions and patches close, and verdicts form as far as the order allows. -/
def Dev.complete (m : FrameStore) (d : Dev) (p : Nat) (s : Seg) : Dev :=
  ((d.finishEng m p s).modSeg p s.num (fun s => { s with st := .complete })).showSegs p |>.settle p

/-- The work of the port's oldest segment that is ready is complete. -/
def Dev.workComplete (m : FrameStore) (d : Dev) (p : Nat) : Dev :=
  match (d.track p).segs.find? (fun s => s.done && s.st == .closing) with
  | none => d
  | some s => d.complete m p s

def execWorkComplete (port : Fin 16) (s : State) : Host.Outcome State Fault Refusal :=
  s.updR (fun m d => d.workComplete m port)

/-! ## End, deadline, stall (R19, R377, R378, R380) -/

/-- Whether the governing word has reached a position of the channel's present epoch. -/
def Dev.segReached (d : Dev) (s : Seg) (v : Int) : Bool := reached s.dir (d.posWord s.ch) v

/-- The segment end time. -/
def Dev.segEnd (d : Dev) (p num : Nat) : Dev :=
  let ep := d.posEpoch
  let now := d.nowL
  let streak := fun (s : Seg) => d.is Pl.STAT_STREAK_ACTIVE (s.engine.getD ((d.serveOf p).getD p))
  let d : Dev := match d.segOf p num with
    | some s => d.when (s.st == SegState.declared) (fun d => d.noteEnd p s)
    | none => d
  (d.modSeg p num (fun s =>
    let s := { s with st := .closing, endAt := some now, streak := streak s }
    if s.wasOpen then s else { s with gE := s.e, openEpoch := ep s.ch })).showSegs p

/-- The oldest segment whose end position has been reached. -/
def Dev.segEndDue (d : Dev) (p : Nat) : Dev :=
  match (d.track p).segs.find? (fun s =>
      (s.st == .opened || (s.st == .declared && s.fixed && !s.timed)) && d.segReached s s.e) with
  | some s => d.segEnd p s.num
  | none => d

def execSegmentEndTime (port : Fin 16) (s : State) : Host.Outcome State Fault Refusal :=
  s.upd (fun d => d.segEndDue port)

/-- A deadline of R378 has come; a segment that only waits for the verdicts before its own has one too (R381). -/
def Dev.pastDeadline (d : Dev) (s : Seg) : Bool :=
  let us := if le s.desc 40 4 = 0 then 250000 else le s.desc 40 4
  let dist := le s.desc 32 8
  match s.endAt with
    | some t => decide (t + us * 1000 * nsL ≤ d.nowL) ||
        (dist != 0 && d.segReached s (s.e + along s.dir dist))
    | none => false

/-- The deadline of a segment: ORDER_CUT for the earlier ones, then its own cut; a segment whose work is complete receives its
completed verdict instead (R377, R379–R381). -/
def Dev.deadline (m : FrameStore) (d : Dev) (p : Nat) : Dev :=
  match (d.track p).segs.find? d.pastDeadline with
  | none => d
  | some s =>
    let before := ((d.track p).segs.takeWhile (fun x => x.num != s.num)).filter (fun x => x.st.live)
    let d := before.foldl (fun d x =>
      let e := x.page p
      if x.done then d.complete m p x
      else (d.cutSeg m p x.num 3).incSat Ce.CE_CNT_C_ORDER_CUT_CNT e |>.evt 0x0D e Ce.E_ORDER_CUT) d
    let e := s.page p
    if s.st != SegState.closing then d
    else if s.done then d.complete m p s
    else if !s.wasOpen then d.cutSeg m p s.num 0x12
    else
      let late := match s.eng with
        | some g => g.waitRef && !d.refReady p s (refNeed s g)
        | none => false
      ((d.cutSeg m p s.num (if late then 2 else 1)).incSat Ce.CE_CNT_C_DEADLINE_CNT e).evt 0x0D e Ce.E_DEADLINE

def execDeadline (port : Fin 16) (s : State) : Host.Outcome State Fault Refusal :=
  s.updR (fun m d => d.deadline m port)

/-- STALL_TIME after opening a segment is still OPEN (R378). -/
def Dev.stalled (m : FrameStore) (d : Dev) (p : Nat) : Dev :=
  match (d.track p).segs.find? (fun s => s.st == .opened && match s.eng with
      | some g => g.cfg.stall != 0 && decide (s.openAt + g.cfg.stall * 1000000 * nsL ≤ d.nowL)
      | none => false) with
  | some s => (d.cutSeg m p s.num 4).evt 0x0D (s.page p) Ce.E_STALLED
  | none => d

def execStalled (port : Fin 16) (s : State) : Host.Outcome State Fault Refusal :=
  s.updR (fun m d => d.stalled m port)

/-! ## The spare engine (R398, R399) -/

/-- Registers that a takeover copies: CE 0x040–0x054 and 0x100–0x11C, and the configuration of the Plumb-line page. -/
def copyKey (c : Nat) (o : Nat) : Bool :=
  if c = 0x0D then (decide (0x40 ≤ o) && decide (o < 0x58)) || (decide (0x100 ≤ o) && decide (o < 0x120))
  else decide (0x40 ≤ o) && decide (o < 0x48)

/-- Copy the registers of one page to another, or return the copies to reset. -/
def Dev.copyRegs (d : Dev) (c src dst : Nat) (keep : Bool) : Dev :=
  let page := fun k => k / (32 * 4096)
  let hit := fun k i => page k == c * 64 + i && copyKey c (k / 32 % 4096)
  let rest := d.regs.filter (fun e => !hit e.1 dst)
  let new := if keep then (d.regs.filter (fun e => hit e.1 src)).map (fun e => (e.1 + (dst - src) * (32 * 4096), e.2)) else []
  { d with regs := new.foldl (fun m e => mput m e.1 e.2) rest }

/-- Copy tables 0 to 4 of an engine to CE16, or empty them. -/
def Dev.copyTabs (d : Dev) (src : Nat) (keep : Bool) : Dev :=
  let d := d.dropTabs 0x0D 16
  if keep then
    { d with
      tabs := (d.tabs.filter (fun e => e.1 / 2 ^ 32 == 0x0D * 64 + src)).foldl
        (fun m e => mput m (e.1 + (16 - src) * 2 ^ 32) e.2) d.tabs }
  else d

/-- Engine e fails (R398): ENGINE_FAIL, HS_WDOG or its island wedged has been set by the caller. -/
def Dev.engFailed (m : FrameStore) (d : Dev) (e : Nat) : Dev :=
  if e = 16 then d.wr Ce.STAT_FAILED 16 1
  else if d.is Ce.STAT_FAILED e then d
  else
    let d := d.wr Ce.STAT_FAILED e 1
    if d.engineOk 16 && !d.is Ce.SPARE_STAT_SERVING 16 then
      let d := d.cutAll m e 0x0E (fun s => s.running && s.engine == some e)
      let bad := d.wedged (islandOf 0x0D e) || d.silent 0x0D e ||
        d.bad.any (fun x => x.1 / 2 ^ 32 == 0x0D * 64 + e && x.2 == 2)
      let d := (d.copyTabs e (!bad)).copyRegs 0x0D e 16 (!bad)
      let d := d.copyRegs 0x0F e 16 (!bad)
      let d := d.setCe 16 { (default : CeH) with kaSince := (d.ce 16).kaSince, plCfg := plFlds.map (fun f => d.rd f 16) }
      let d := (d.wr Pl.STAT_STREAK_ACTIVE 16 0).wrb Ce.SPARE_STAT_NOTABLES 16 bad
      let d := (d.wr Ce.SPARE_STAT_SERVED_ENGINE 16 e).wr Ce.SPARE_STAT_SERVING 16 1
      let d := { d with health := { d.health with spareMap := d.health.spareMap ||| 16 } }
      ((d.flt 0x0D 16 Ce.F_SPARE_IN_USE).evt 0x0D 16 Ce.E_TAKEOVER).showSegs e
    else d.flt 0x0D e Ce.F_NO_SPARE

/-- A write of TAKEOVER declares the engine failed; CE16 ignores it (R398, R400). -/
def Dev.takeover (m : FrameStore) (d : Dev) (e : Nat) : Dev :=
  if e = 16 then d else (d.flt 0x0D e Ce.F_ENGINE_FAIL).engFailed m e

/-- A write of GIVE_BACK to CE16 (R399). -/
def Dev.cmdGiveBack (d : Dev) : Dev :=
  let e := d.rd Ce.SPARE_STAT_SERVED_ENGINE 16
  let flt := d.rd (Hdr.FLT 0x0D) e
  if d.is Ce.SPARE_STAT_SERVING 16 && !flt.testBit Ce.F_ENGINE_FAIL && !flt.testBit Ce.F_HS_WDOG && d.enabled 0x0D e then
    let d := (d.setCe 16 { d.ce 16 with giveBack := true }).wr Ce.STAT_FAILED e 0
    d.spareCheck e
  else d.badAccess 0x0D 16

/-- One CE_CMD write (R400). -/
def Dev.ceCmd (m : FrameStore) (d : Dev) (e v : Nat) : Dev :=
  let d := d.when (v.testBit 2) (fun d => d.clearAll
    [Ce.CE_CNT_A_UNINSP_CNT, Ce.CE_CNT_A_FAIL_CNT, Ce.PASS_CNT, Ce.CE_CNT_B_SNAG_LOST_CNT, Ce.CE_CNT_B_VX_DROP_CNT,
     Ce.CE_CNT_C_ORDER_CUT_CNT, Ce.CE_CNT_C_DEADLINE_CNT, Ce.CE_CNT_D_PATCH_NODATA_CNT, Ce.CE_CNT_D_REF_WAIT_CNT] e)
  let d := d.when (v.testBit 1 && e == 16) (fun d => d.cmdGiveBack)
  d.when (v.testBit 0) (fun d => d.takeover m e)

def execTakeover (req : Req) (engine : Fin 17) (s : State) : Host.Outcome State Fault Refusal :=
  s.updR (fun m d => d.busW req.num 0x0D engine (fun d => d.ceCmd m engine 1))

def execGiveBack (req : Req) (s : State) : Host.Outcome State Fault Refusal :=
  s.updR (fun m d => d.busW req.num 0x0D 16 (fun d => d.ceCmd m 16 2))

/-! ## REBASE (R192, R378) -/

/-- A REBASE of a channel is refused. -/
def Dev.rebaseRefused (d : Dev) (k : Nat) : Bool :=
  let next := (d.posEpoch k + 1) % 16
  d.rd Pos.REBASE_OFFSET k % 256 != 0 ||
    (List.range 32).any (fun n => d.enabled 0x13 n && !d.is Cs.CS_CFG_SRC n && d.rd Cs.CS_CFG_CH n == k) ||
    d.histHasEpoch k next ||
    (List.range 16).any (fun p => (d.track p).segs.any (fun s =>
      s.running && s.wasOpen && s.ch == k && s.openEpoch == next))

/-- REBASE. S and E move for every segment whose verdict is not formed, also for those that only wait for it: R385 brings
their E into the present epoch. -/
def Dev.rebase (d : Dev) (k : Nat) : Dev :=
  if d.rebaseRefused k then d.evt 0x10 k Pos.E_REBASE_REFUSED
  else
    let o := d.rdI Pos.REBASE_OFFSET k
    let h := d.chan k
    let ser := d.serMode k
    let d := d.setChan k { h with
      cnt := h.cnt - o / 256, word := h.word - o, wPrev := h.wPrev - o, hold := h.hold.map (fun w => w - o)
      readings := h.readings.map (fun r => { r with cnt := r.cnt - o / 256 }) }
    let d := d.when ser (fun d => d.wrI Pos.SER_BASE k (d.rdI Pos.SER_BASE k + o))
    let d := d.wrI Pos.INDEX_POS k (d.rdI Pos.INDEX_POS k - o)
    let d := (List.range 16).foldl (fun d g =>
      if d.genCh g = k then
        let x := d.gen g
        (d.setGen g { x with origin := x.origin.map (fun v => v - o), next := x.next - o, last := x.last.map (fun v => v - o) }).showNext g
      else d) d
    let e := (d.posEpoch k + 1) % 16
    let d := (d.wr Pos.STAT_EPOCH k e).wrI Pos.EPOCH_OFS k o e
    let d := (List.range 16).foldl (fun d p => d.setTrack p { d.track p with
      segs := (d.track p).segs.map (fun s =>
        if s.ch == k then { s with s := s.s - o, e := s.e - o } else s) }) d
    (d.incSat Pos.CNT_C_REBASE_CNT k).evt 0x10 k Pos.E_REBASE_DONE

def execRebase (req : Req) (ch : Fin 8) (s : State) : Host.Outcome State Fault Refusal :=
  s.upd (fun d => d.busW req.num 0x10 ch (fun d => d.rebase ch))

end Sys2Proof.Machine
end

