-- ==== Sys2Proof/Machine/Engine.lean ====
section
/-!
DEFINITION. What an engine does with its oldest segment: Keying (R347–R356, R369), the tile rows through Float and
comparison (R353, R357–R367); register-error reports (R370, R371); the Plumb-line evaluation (R391–R394).
The log's entries 45, 47, 49 and 50 of notes/assumptions name what is DEDUCED or a DESIGN CHOICE here, and marks each.
-/

namespace Sys2Proof.Machine

/-! ## The segment at work -/

/-- The oldest open segment of a port whose rows its engine has not all judged. -/
def Dev.atWork (d : Dev) (p : Nat) : Option (Nat × Seg × EngSeg) :=
  (d.track p).segs.findSome? (fun s =>
    match s.engine, s.eng with
    | some e, some g => if s.running && s.wasOpen && decide (256 * g.rowsJudged < s.rows) then some (e, s, g) else none
    | _, _ => none)

/-- The work of an engine: port, segment, engine's part. -/
def Dev.workOf (d : Dev) (e : Nat) : Option (Nat × Seg × EngSeg) :=
  (List.range 16).findSome? (fun p => match d.atWork p with
    | some (e', s, g) => if e' = e then some (p, s, g) else none
    | none => none)

/-- Starting terms when the engine turns to a segment (R347). -/
def Dev.begun (d : Dev) (p : Nat) (s : Seg) (g : EngSeg) : EngSeg :=
  let h := d.track p
  match h.carryFit with
  | some f =>
    if g.fresh && s.carryReg && decide (s.prev = some h.carrySeg) then
      let t := keyedTerms g.terms f
      { g with fresh := false, start := t, terms := t, carry := h.carryRow, kflags := g.kflags + 8 }
    else { g with fresh := false }
  | none => { g with fresh := false }

/-- An engine waits for a reference tile (R333); each wait counts once. -/
def Dev.refWait (d : Dev) (e p : Nat) (s : Seg) (g : EngSeg) : Dev :=
  if g.waitRef then d.modEng p s.num (fun _ => g)
  else
    let d := d.modEng p s.num (fun _ => { g with waitRef := true })
    (d.incSat Ce.CE_CNT_D_REF_WAIT_CNT e).evt 0x0D e Ce.E_REF_WAIT

/-! ## Keying (R348–R356, R369) -/

/-- Whether some tile row under a fiducial's search area carries POS_SUSPECT (R370). -/
def fidSuspect (imgs : List TileImg) (e : Nat) : Bool :=
  let h := fidSize e / 2
  imgs.any (fun t =>
    decide (fidX e - h - fidSX e < 256 * (t.col + 1)) && decide (256 * t.col < fidX e + h + fidSX e) &&
      decide (fidK e - h - fidSY e < 256 * (t.row + 1)) && decide (256 * t.row < fidK e + h + fidSY e) &&
      t.flags.any (fun f => f.testBit 3))

/-- Keying has ended: success or failure as R354 says. -/
def Dev.keyed (m : FrameStore) (d : Dev) (e p : Nat) (s : Seg) (g : EngSeg) (imgs : List TileImg) (found : List Found)
    (dys : List (Nat × Option Rat)) : Dev :=
  let g := { g with found := found.length, waitRef := false }
  let fit := (fitSelect 33 g.cfg.fitMode g.cfg.residMax (found.filter (fun f => fidSeg f.entry))).filter
    (fun t => fitOk g.cfg.scaleMax g.start t)
  match fit with
  | none =>
    let d := ((d.incSat Ce.KEY_CNT_A_KEY_FAIL_CNT e).evt 0x0D e Ce.E_KEY_FAIL).wr Ce.STAT_KEYED e 0
    if g.cfg.failGo then
      (d.modEng p s.num (fun _ => { g with keyed := true, kflags := g.kflags ||| 2 })).showSegs p
    else (d.modEng p s.num (fun _ => g)).cutSeg m p s.num 6
  | some t =>
    let regs := if s.check 2 && decide (g.cfg.refInk < s.nInk) then
        regErrors g.cfg.refInk ((found.filter (fun f => fidReg f.entry)).map (fun f =>
          (fidInk f.entry, t.reg f ((dys.find? (fun y => y.1 == f.idx)).bind (fun y => y.2)), f.confByte)))
      else []
    let g := { g with
      keyed := true, terms := keyedTerms g.start t, fit := some t, regs := regs
      kflags := g.kflags ||| (if regs = [] then 1 else 17) }
    let h := d.ce e
    let sus := (found.filter (fun f => fidReg f.entry)).any (fun f => fidSuspect imgs f.entry)
    let d := if regs = [] then d else d.setCe e { h with
      meas := h.meas ++ regs, measSeg := s.num, measRef := g.cfg.refInk
      measTerms := ((descTerms s.desc).getD 0 0, (descTerms s.desc).getD 3 0), measSuspect := h.measSuspect || sus }
    let d := ((d.wr Ce.STAT_KEYED e 1).lastKey e g).modEng p s.num (fun _ => g)
    (d.evt 0x0D e Ce.E_KEY_DONE).showSegs p

/-- Keying of a port's segment, once every tile of the key span and the line pass are in. -/
def Dev.keying (m : FrameStore) (d : Dev) (p : Nat) : Dev :=
  match d.atWork p with
  | none => d
  | some (e, s, g0) =>
    let g := d.begun p s g0
    let span := min g.cfg.keyRows s.rows
    let rows := cdiv span 256
    let cols := d.lcuCols p
    let tiles := s.tiles.filter (fun t => decide (t.1 < rows))
    let passOn := (d.lcu p).asks.any (fun a => a.1 == some s.num)
    if g.keyed || decide (tiles.length < rows * cols) || passOn || !d.engineOk e then d
    else
      let need := refNeed s g
      if !d.refReady p s need then d.refWait e p s g
      else
        let x := tiles.foldl (fun (a : Dev × List TileImg) t =>
          let y := a.1.tileRead m p t.1 t.2.1 t.2.2
          (y.1, a.2 ++ [y.2])) (d, [])
        let y := x.1.refRead m p s g.prof need
        let d := y.1
        if !y.2.1 then d.cutSeg m p s.num 9
        else
          let r := y.2.2
          let found := g.fids.filterMap (fun f => fidSearch x.2 r g.start f.1 f.2)
          let d := d.addSat Ce.KEY_CNT_A_FID_MISS_CNT e (g.fids.length - found.length)
          let dys := if g.cfg.reread = 0 then [] else
            (g.fids.filter (fun f => fidLine f.2)).map (fun f =>
              (f.1, lineDy r g.start g.passLines (d.lcuWidth p) f.2 s.gS s.dir
                (mkRat (256 * d.rd Lcu.GRID_NUM p) (d.rd Lcu.GRID_DEN p))))
          let d := dys.foldl (fun d y => match y.2 with
            | some _ => d
            | none => (d.incSat Ce.KEY_CNT_B_LINE_DY_FAIL_CNT e).evt 0x0D e Ce.E_LINE_DY_FAIL) d
          d.keyed m e p s g x.2 found dys

def execKeying (port : Fin 16) (s : State) : Host.Outcome State Fault Refusal :=
  s.updR (fun m d => d.keying m port)

/-! ## Tile rows (R357–R367) -/

/-- What the comparison of a segment at work reads. -/
def Dev.ctx (d : Dev) (e p : Nat) (s : Seg) (g : EngSeg) (r : Ref) : Ctx :=
  { s := s, g := g, w := d.lcuWidth p, chan := d.lcuChan p, ref := r, imgs := g.tiles
    cell := fun i => if d.tabErr 0x0D e 3 i = 2 then none else some (d.tab 0x0D e 3 i) }

/-- Float of tile row r: measurements, smoothing, REG_LOST. -/
def Dev.floatRow (d : Dev) (e p : Nat) (c : Ctx) (r : Nat) : Dev × EngSeg :=
  let g := c.g
  let cols := d.lcuCols p
  if !g.cfg.floatEn then (d, { g with shifts := g.shifts ++ [[]] })
  else
    let ms := (List.range cols).map (c.floatTile r)
    let valid := ms.map (fun x => x.2)
    let none? := (valid.filter (fun v => v.isNone)).length
    let d := d.addWrap Ce.FLOAT_NOMEAS_CNT e none?
    let before : Option (List (Int × Int)) := if r = 0 then g.carry else g.shifts[r - 1]?
    let out := (List.range cols).map (fun n =>
      smooth g.cfg (colMean valid n) (before.bind (fun b => b[n]?)) (g.jumps.getD n 0))
    let jumps := (out.filter (fun o => o.2.2)).length
    let d := d.when (jumps != 0) (fun d => (d.addSat Ce.FLOAT_CNT_JUMP_CNT e jumps).evt 0x0D e Ce.E_FLOAT_JUMP)
    let able := (ms.filter (fun x => x.1)).length
    let lost := decide (2 ≤ able) &&
      decide (g.cfg.lostPct * able < (able - (valid.filter (fun v => v.isSome)).length) * 100)
    let d := d.when lost (fun d => (d.incSat Ce.FLOAT_CNT_REG_LOST_CNT e).evt 0x0D e Ce.E_REG_LOST)
    let row := out.map (fun o => o.1)
    (d, { g with
      shifts := g.shifts ++ [row], jumps := out.map (fun o => o.2.1)
      lost := if lost then g.lost ++ [r] else g.lost
      floatMax := row.foldl (fun a v => max a (max v.1.natAbs v.2.natAbs)) g.floatMax })

/-- Tile row r is in: Float, then the row before it is judged, and r itself when it is the last. -/
def Dev.rowIn (m : FrameStore) (d : Dev) (e p : Nat) (s : Seg) (g : EngSeg) (r : Nat) : Dev :=
  let w : Int := (d.lcuWidth p : Nat)
  let need := refSpan s g.terms (-36) (w + 36) (256 * r - 292 : Int) (256 * r + 291 : Int)
  let x := d.refRead m p s g.prof need
  let d := x.1
  if !x.2.1 then (d.modEng p s.num (fun _ => g)).cutSeg m p s.num 9
  else
    let rows := cdiv s.rows 256
    let f := d.floatRow e p (d.ctx e p s g x.2.2) r
    let y := if r = 0 then f else f.1.judgeRow m e p (f.1.ctx e p s f.2 x.2.2) (r - 1) 256
    let z := if r + 1 < rows then y else y.1.judgeRow m e p (y.1.ctx e p s y.2 x.2.2) r (s.rows - 256 * r)
    let d := z.1.modEng p s.num (fun _ => z.2)
    if r + 1 < rows then d else (d.carryOver p s.num z.2).showSegs p

/-- The next waiting tile of an engine's segment. -/
def Dev.compareTile (m : FrameStore) (d : Dev) (e : Nat) : Dev :=
  match d.workOf e with
  | none => d
  | some (p, s, g0) =>
    let g := d.begun p s g0
    match s.tiles with
    | [] => d
    | (r, c, q) :: rest =>
      if !g.keyed || !d.engineOk e then d
      else
        let need := refNeed s g
        if !d.refReady p s need then d.refWait e p s g
        else
          let x := d.tileRead m p r c q
          let g := { g with waitRef := false, tiles := g.tiles ++ [x.2] }
          let d := (x.1.modSeg p s.num (fun s => { s with tiles := rest })).modEng p s.num (fun _ => g)
          if c + 1 < d.lcuCols p then d else d.rowIn m e p { s with tiles := rest } g r

def execCompareTile (engine : Fin 17) (s : State) : Host.Outcome State Fault Refusal :=
  s.updR (fun m d => d.compareTile m engine)

/-! ## Register-error reports (R370, R371) -/

/-- The entries of a report: ink, DX, DY, CONF, ascending. -/
def reportOf (h : CeH) : List (Nat × Int × Int × Nat) :=
  let of := fun i => h.meas.filter (fun r => r.1 == i)
  let conf := fun i => (of i).foldl (fun a r => min a r.2.2.2) 255
  let mean := fun (i : Nat) (f : Nat × Rat × Rat × Nat → Rat) => f64 (sumR (of i) f / ((of i).length : Rat))
  let conv := fun (v : Rat) (t : Int) => clampI (-32767) 32767 (roundHA (f64 (v * mkRat t (2 ^ 24))))
  ((List.range 8).filter (fun i => !(of i).isEmpty)).map (fun i =>
    if i = h.measRef then (i, 0, 0, conf i)
    else
      (i, conv (mean i (fun r => r.2.1)) h.measTerms.1, conv (mean i (fun r => r.2.2.1)) h.measTerms.2,
        min (conf i) (conf h.measRef)))

/-- The colour-register feedback cycle at an engine; false where it cannot be carried out. -/
def Dev.regReport (d : Dev) (e time : Nat) : Dev × Bool :=
  match d.portOf e with
  | none => (d, false)
  | some p =>
    let h := d.ce e
    if h.meas = [] ∧ !h.reported then (d.incSat Ce.REG_CNT_REG_NODATA_CNT e, true)
    else
      let stale := h.meas.isEmpty
      let entries := if stale then h.lastReport else reportOf h
      let num := if stale then h.lastSeg else h.measSeg
      let ref := if stale then h.lastRef else h.measRef
      let sus := if stale then h.lastSuspect else h.measSuspect
      let d := d.addWrap Ce.REG_CYCLE e 1
      let d := d.when stale (fun d => d.incSat Ce.REG_CNT_REG_STALE_CNT e)
      let d := d.setCe e { h with
        meas := [], measSuspect := false, reported := true, lastReport := entries, lastSeg := num, lastRef := ref
        lastSuspect := sus }
      let d := entries.foldl (fun d x =>
        (d.wrI Ce.REG_LAST_DX e x.2.1 x.1).wrI Ce.REG_LAST_DY e x.2.2.1 x.1) d
      let d := (d.wr Ce.REG_LAST_INFO_VALID e 1).wrb Ce.REG_LAST_INFO_STALE e stale
      let d := d.wr Ce.REG_LAST_INFO_CONF_MIN e (entries.foldl (fun a x => min a x.2.2.2) 255)
      let d := d.wr Ce.REG_LAST_INFO_INK_MASK e (entries.foldl (fun a x => a ||| 2 ^ x.1) 0)
      let d := (d.voxRoute (16 + p) 3 2 ([p, entries.length, ref, b2n sus + 2 * b2n stale] ++ beBytes 4 num ++
        beBytes 4 (d.rd Ce.REG_CYCLE e) ++ voxTime time ++
        entries.flatMap (fun x => [x.1, x.2.2.2] ++ beBytes 2 (uInt 16 x.2.1) ++ beBytes 2 (uInt 16 x.2.2.1) ++ [0, 0]))).1
      (d.evt 0x0D e Ce.E_REG_SENT, true)

/-! ## Plumb-line evaluation (R391–R393) -/

/-- A streak: kind 1 LIGHT, 2 DARK, 3 DEVIATED; first and last column, column, Δ, columns. -/
structure Streak where
  kind : Nat
  x0 : Nat
  x1 : Nat
  col : Nat
  delta : Rat
  width : Nat

/-- N and D of the bank under evaluation. -/
def CeH.plN? (h : CeH) (b ink x : Nat) : Nat := mget h.plN (plKey b ink x) 0
def CeH.plD? (h : CeH) (b ink x : Nat) : Int := mget h.plD (plKey b ink x) 0

/-- Means of one ink by column, where N is at least PL_N_MIN (a column with no sample has none). -/
def plMeans (h : CeH) (b ink w nMin : Nat) : Array (Option Rat) :=
  ((List.range w).map (fun x =>
    let n := h.plN? b ink x
    if nMin ≤ n ∧ 0 < n then some (f64 (mkRat (h.plD? b ink x) n)) else none)).toArray

/-- Δ of a column, where it is evaluated. -/
def plDelta (ms : Array (Option Rat)) (x : Nat) : Option Rat :=
  match ms.getD x none with
  | none => none
  | some v =>
    let near := (List.range 14).flatMap (fun i =>
      (if i + 3 ≤ x then [ms.getD (x - (i + 3)) none] else []) ++ [ms.getD (x + (i + 3)) none])
    let vs := near.filterMap (fun y => y)
    if vs.length < 8 then none
    else some (f64 (v - f64 (sumR vs (fun y => y) / (vs.length : Rat))))

/-- LIGHT and DARK streaks of one ink in column order. -/
def plRuns (t : Nat) (ds : List (Nat × Rat)) : List Streak :=
  (ds.foldl (fun (a : List Streak) x =>
    let kind := if (t : Rat) ≤ x.2 then 1 else if x.2 ≤ -(t : Rat) then 2 else 0
    if kind = 0 then a
    else match a with
      | s :: rest =>
        if s.kind = kind ∧ s.x1 + 1 = x.1 then
          let far := decide (absR s.delta < absR x.2)
          { s with
            x1 := x.1, width := s.width + 1, col := if far then x.1 else s.col, delta := if far then x.2 else s.delta } :: rest
        else ⟨kind, x.1, x.1, x.1, x.2, 1⟩ :: s :: rest
      | [] => [⟨kind, x.1, x.1, x.1, x.2, 1⟩]) []).reverse

/-- Columns between the nearest columns of two streaks. -/
def Streak.dist (a b : Streak) : Nat := if a.x1 < b.x0 then b.x0 - a.x1 else a.x0 - b.x1

/-- LIGHT streaks pair with the nearest DARK one left within DEV_REACH, in column order (R391). -/
def plPair (reach : Nat) (ss : List Streak) : List Streak :=
  if reach = 0 then ss
  else
    (ss.filter (fun s => s.kind == 1)).foldl (fun (a : List Streak) l =>
      let near := (a.filter (fun s => s.kind == 2 && decide (l.dist s ≤ reach))).foldl (fun (b : Option Streak) s =>
        match b with
        | none => some s
        | some t => if l.dist s < l.dist t then some s else some t) none
      match near with
      | none => a
      | some dk => (a.filter (fun s => !(s.kind == 2 && s.col == dk.col))).map (fun s =>
          if s.kind == 1 && s.col == l.col then { s with kind := 3, width := s.width + dk.width } else s)) ss

/-- Place of a streak on the press (R392): Column Map entry, and the geometry entry with its nozzle index. -/
def Dev.plPlace (d : Dev) (p ink x : Nat) : Dev × Option Nat × Option (Nat × Nat) :=
  let i := 32768 * p + x
  let cm := d.tab 0x0F 63 0 i
  let ok := cm.testBit 31 && d.tabErr 0x0F 63 0 i != 2
  let d := d.readTab 0x0F 63 Pl63.F_CM_SBE Pl63.F_CM_DBE 0x0F 63 0 i
  if !ok then (d, none, none)
  else
    let at? := bits cm 0 23
    let nozzle := fun h => roundHA (mkRat ((at? : Int) - bits h 32 23) (bits h 64 16) * 16)
    let fits := fun j =>
      let h := d.tab 0x0F 63 1 j
      d.tabErr 0x0F 63 1 j != 2 && h.testBit 24 && bits h 26 3 == ink && decide (0 ≤ nozzle h) &&
        decide (nozzle h < bits h 80 16)
    let hit := (List.range 4096).find? fits
    let d := (List.range (match hit with | some j => j + 1 | none => 4096)).foldl (fun d j =>
      d.readTab 0x0F 63 Pl63.F_HGT_SBE Pl63.F_HGT_DBE 0x0F 63 1 j) d
    (d, some at?, hit.map (fun j => (d.tab 0x0F 63 1 j, (nozzle (d.tab 0x0F 63 1 j)).toNat)))

/-- The nozzle record of a streak, and whether the Column Map missed. -/
def Dev.nozRecord (d : Dev) (e p ink b : Nat) (s : Streak) : Dev × List Nat × Bool × Bool :=
  let h := d.ce e
  let pl := d.plPlace p ink s.col
  let sus := (List.range (s.x1 + 1 - s.x0)).any (fun i => mget h.plS (plKey b ink (s.x0 + i)) false)
  let at? := pl.2.1.getD 0
  let nf := 1 + 2 ^ s.kind + 16 * b2n pl.2.2.isSome + 32 * b2n pl.2.1.isNone + 64 * b2n sus
  let place := match pl.2.2 with
    | some (t, j) =>
      let noz := bits t 96 32 + (if t.testBit 25 then bits t 80 16 - 1 - j else j)
      let ofs : Int := ((at? : Int) - bits t 32 23) * 16 - j * bits t 64 16
      [byteAt (leBytes 3 t) 0, byteAt (leBytes 3 t) 1, byteAt (leBytes 3 t) 2, 0] ++ leBytes 4 noz ++
        leBytes 2 (uInt 16 ofs)
    | none => zeros 10
  (pl.1, [0x61, nf, p, ink] ++ zeros 4 ++ leBytes 4 (d.rd Pl.PL_CYCLE e) ++ leBytes 2 s.col ++
    [min 255 s.width, min 255 (roundHA (absR s.delta)).toNat] ++ leBytes 4 at? ++ place ++
    leBytes 2 (min 65535 (h.plN? b ink s.col)), pl.2.1.isNone, sus)

/-- A Plumb-line item (R420). -/
def Dev.nozItem (d : Dev) (e p typ time : Nat) (sus : Bool) (bytes : List Nat) : Dev :=
  if d.is Ce.OUT_CFG_NOZ_QEN e then
    d.push (d.rd Ce.OUT_Q_NOZ_Q e)
      { typ := typ, port := p, seg := 0, page := 0, time := time, posValid := false, pos := 0, posInfo := 0
        posSuspect := sus, timeSuspect := false, ref := d.rd Pl.PL_CYCLE e, body := .bytes bytes }
  else d

/-- A bank empties. -/
def CeH.plClear (h : CeH) (b : Nat) : CeH :=
  let other := fun k => k / (8 * 32768) != b
  { h with
    plN := h.plN.filter (fun x => other x.1), plD := h.plD.filter (fun x => other x.1)
    plS := h.plS.filter (fun x => other x.1) }

/-- The evaluation under way completes (R391–R393, R403). Which column and ink an uncorrectable accumulator word belongs to is a
free value; that mean is used nowhere. -/
def Dev.plDone (d : Dev) (e : Nat) : Dev :=
  match (d.ce e).evalBank with
  | none => d
  | some b =>
    let p := if e < 16 then e else d.rd Ce.SPARE_STAT_SERVED_ENGINE 16
    let u := d.useBuf 0x0F e Pl.F_ACC_SBE Pl.F_ACC_DBE
    let d := u.1
    let h := d.ce e
    let w := d.lcuWidth p
    let time := h.evalTime
    let hit := if u.2 then some (d.freeVal 18) else none
    let d := if u.2 then d.freeUsed else d
    let all := (List.range 8).flatMap (fun ink =>
      let ms := plMeans h b ink w (d.plUse e 4)
      let ms := match hit with
        | some v => if v / 32768 = ink then ms.setIfInBounds (v % 32768) none else ms
        | none => ms
      let ds := (List.range w).filterMap (fun x => (plDelta ms x).map (fun v => (x, v)))
      (plPair (d.plUse e 1) (plRuns (d.plUse e 0) ds)).map (fun s => (ink, s)))
    let d := d.addWrap Pl.PL_CYCLE e 1
    let n := d.plUse e 5
    let d := (all.take n).foldl (fun d x =>
      let r := d.nozRecord e p x.1 b x.2
      let d := r.1.when r.2.2.1 (fun d => d.incSat Pl.PL_CNT_COLMAP_MISS_CNT e)
      d.nozItem e p 0x61 time r.2.2.2 r.2.1) d
    let trunc := all.length - n
    let active := all.any (fun x => x.2.kind != 2)
    let d := d.nozItem e p 0x62 time false ([0x62, 1 + 2 * b2n (trunc != 0) + 4 * b2n active, p, 0] ++ zeros 4 ++
      leBytes 4 (d.rd Pl.PL_CYCLE e) ++ leBytes 2 (min 65535 all.length) ++ zeros 2 ++ leBytes 16 time)
    let d := (d.wr Pl.PL_LAST_STREAKS e (min 65535 all.length)).wr Pl.PL_LAST_TIME e (time % 2 ^ 96)
    let d := (d.wrb Pl.STAT_STREAK_ACTIVE e active).wr Pl.STAT_EVALUATING e 0
    let d := d.setCe e { (d.ce e).plClear b with evalBank := none }
    let d := d.when (trunc != 0) (fun d => (d.addSat Pl.PL_CNT_PL_TRUNC_CNT e trunc).evt 0x0F e Pl.E_TRUNC)
    let d := d.when (!all.isEmpty) (fun d => d.evt 0x0F e Pl.E_STREAK)
    d.evt 0x0F e Pl.E_CYCLE_DONE

def execEvaluationComplete (engine : Fin 17) (s : State) : Host.Outcome State Fault Refusal :=
  s.upd (fun d => d.plDone engine)

/-- The Plumb-line report cycle at an engine: the banks swap and the evaluation starts; false where it cannot be carried
out. -/
def Dev.plSwap (d : Dev) (e time : Nat) : Dev × Bool :=
  match d.portOf e with
  | none => (d, false)
  | some _ =>
    let d := d.plDone e
    let h := d.ce e
    let cfg := plFlds.map (fun f => d.rd f e)
    ((d.setCe e { h with bank := 1 - h.bank, evalBank := some h.bank, evalTime := time, plCfg := cfg }).wr
      Pl.STAT_EVALUATING e 1, true)

/-- One PL_CMD write (R402). -/
def Dev.plCmd (d : Dev) (e v : Nat) : Dev :=
  let d := d.when (v.testBit 1) (fun d => d.clearAll [Pl.PL_CNT_PL_TRUNC_CNT, Pl.PL_CNT_COLMAP_MISS_CNT] e)
  d.when (v.testBit 0) (fun d => d.setCe e ((d.ce e).plClear (d.ce e).bank))

def execClearAcc (req : Req) (engine : Fin 17) (s : State) : Host.Outcome State Fault Refusal :=
  s.upd (fun d => d.busW req.num 0x0F engine (fun d => d.plCmd engine 1))

/-- One CMP_CMD write (R372). -/
def Dev.cmpCmd (d : Dev) (e v : Nat) : Dev :=
  d.when (v.testBit 0) (fun d => d.clearAll
    [Ce.KEY_CNT_A_KEY_FAIL_CNT, Ce.KEY_CNT_A_FID_MISS_CNT, Ce.KEY_CNT_B_FID_OUTSIDE_CNT, Ce.KEY_CNT_B_LINE_DY_FAIL_CNT,
     Ce.FLOAT_CNT_REG_LOST_CNT, Ce.FLOAT_CNT_JUMP_CNT, Ce.FLOAT_NOMEAS_CNT, Ce.REG_CNT_REG_STALE_CNT,
     Ce.REG_CNT_REG_NODATA_CNT] e)

end Sys2Proof.Machine
end

