-- ==== Sys2Proof/Machine/Time.lean ====
section
/-!
DEFINITION. The device clock (R241–R248): one tick, INCR, steps, loss of REFCLK; the Timed Action Table (R261–R266).
The log's entries 2, 6, 36 and 37 of notes/assumptions name what is DEDUCED or a DESIGN CHOICE here, and marks each.
-/

namespace Sys2Proof.Machine

/-! ## The clock (R241, R244–R248) -/

/-- A count of 2^-40 ns as a clock. -/
def clockOf (n : Nat) : Clock :=
  { sec := n / 2 ^ 40 / 1000000000 % 2 ^ 48, ns := n / 2 ^ 40 % 1000000000, frac := n % 2 ^ 40 }

/-- The clock as a count of 2^-40 ns. -/
def Clock.count (k : Clock) : Nat := (k.sec * 1000000000 + k.ns) * 2 ^ 40 + k.frac

/-- After a loss of REFCLK or of lockstep the clock holds a value the spec leaves undefined (R248). -/
def Dev.clkFree (d : Dev) : Dev :=
  let a := d.freeVal 48
  let d := d.freeUsed
  let b := d.freeVal 30 % 1000000000
  let d := d.freeUsed
  let c := d.freeVal 40
  let d := d.freeUsed
  { d with clk := ⟨a, b, c⟩ }

/-- One timebase cycle, where the timebase island is powered (R241). -/
def Dev.tick (d : Dev) : Dev :=
  let d := if !d.powered 1 then d
    else if d.clkLost then d.clkFree
    else { d with clk := clockOf (d.clk.count + d.rd Tu.INCR 0) }
  let d := if d.incrDue && d.powered 1 then ({ d with incrDue := false } : Dev).wr Tu.INCR_TIME 0 d.now else d
  { d with ticks := d.ticks + 1 }

/-- A write of INCR, high word: the value acts in the next cycle of the timebase, whose time INCR_TIME takes (R244). -/
def Dev.incrWrite (d : Dev) (v : Nat) : Dev :=
  let v := v % 2 ^ 48
  if 0x0147AE147AE1 + 703687441 < v ∨ v + 703687441 < 0x0147AE147AE1 then d.badAccess 0x14 0
  else
    let d := (({ d with incrDue := true } : Dev).wr Tu.INCR 0 v).incSat Tu.TU_CNT_INCR_CNT 0
    (List.range 16).foldl (fun d p => d.timeReq p) d

def execIncrWrite (req : Req) (incr : Nat) (s : State) : Host.Outcome State Fault Refusal :=
  s.upd (fun d => d.busW req.num 0x14 0 (fun d => d.incrWrite incr))

/-- A time moved with the clock. -/
def movL (s : Int) (t : Nat) : Nat := ((t : Int) + s).toNat

/-- Intervals that blocks measure go on across a step: the moments they count from move with the clock. -/
def Dev.moveMarks (d : Dev) (s : Int) : Dev :=
  let m := movL s
  let o := fun (t : Option Nat) => t.map m
  let keys := fun {α : Type} (x : KMap α) => x.map (fun e => e.1)
  let d := (keys d.pos).foldl (fun d k =>
    let h := d.chan k
    d.setChan k { h with
      tEdge := m h.tEdge, lastFilt := o h.lastFilt, edges := h.edges.map m
      frame := h.frame.map (fun x => (m x.1, x.2))
      readings := h.readings.map (fun r => { r with t := m r.t }) }) d
  let d := (keys d.dins).foldl (fun d k =>
    d.setDin k { d.din k with run := o (d.din k).run, runTc := m (d.din k).runTc }) d
  let d := (keys d.gens).foldl (fun d k => d.setGen k { d.gen k with lastFire := o (d.gen k).lastFire }) d
  let d := (keys d.streams).foldl (fun d k => d.setStream k { d.stream k with lineTime := m (d.stream k).lineTime }) d
  let d := (keys d.outs).foldl (fun d k => d.setOutp k { d.outp k with pulses := (d.outp k).pulses.map (fun x => (m x.1, m x.2)) }) d
  let d : Dev := { d with qgens := d.qgens.map (fun e => (e.1, { e.2 with start := m e.2.start })) }
  let d := (keys d.lanes).foldl (fun d k =>
    let h := d.lane k
    d.setLane k { h with
      lockSince := o h.lockSince, goodSince := o h.goodSince, lostAt := o h.lostAt, lowSince := o h.lowSince }) d
  let d := (keys d.ports).foldl (fun d k => d.setPort k { d.port k with firstLock := o (d.port k).firstLock }) d
  let d := (keys d.dq).foldl (fun d k => d.setDqh k { d.dqh k with mirrorAt := o (d.dqh k).mirrorAt }) d
  let d := (keys d.iq).foldl (fun d k => d.setIqh k { d.iqh k with mirrorAt := o (d.iqh k).mirrorAt }) d
  let d := (keys d.vecs).foldl (fun d k =>
    let v := d.vec (k / 2048) (k % 2048)
    d.setVec (k / 2048) (k % 2048) { v with firstAt := m v.firstAt, lastAt := o v.lastAt }) d
  let d := (keys d.hbm).foldl (fun d k =>
    d.setHbmh k { d.hbmh k with errs := (d.hbmh k).errs.map (fun e => (e.1, m e.2)) }) d
  let d := (keys d.ces).foldl (fun d k => d.setCe k { d.ce k with kaSince := o (d.ce k).kaSince }) d
  let d := (keys d.tracks).foldl (fun d k =>
    d.setTrack k { d.track k with segs := (d.track k).segs.map (fun x => { x with openAt := m x.openAt }) }) d
  let d : Dev := { d with eths := d.eths.map (fun e => (e.1, { e.2 with
    syncAt := m e.2.syncAt, reqs := e.2.reqs.map (fun r => { r with leftAt := m r.leftAt }) })) }
  let d : Dev := { d with links := d.links.map (fun e => (e.1, { e.2 with
    reqs := e.2.reqs.map (fun r => { r with due := m r.due }), quar := e.2.quar.map (fun x => (x.1, m x.2)) })) }
  { d with vox := { d.vox with seen := d.vox.seen.map (fun e => (e.1, e.2.1, m e.2.2)) } }

/-! ## The Timed Action Table (R261, R262): tables 0 TIME, 1 entry, 2 status -/

def Dev.taTime (d : Dev) (i : Nat) : Nat := d.tab 0x15 0 0 i
def Dev.taEntry (d : Dev) (i : Nat) : Nat := d.tab 0x15 0 1 i
def Dev.taStat (d : Dev) (i : Nat) : Nat := d.tab 0x15 0 2 i

def taPeriod (e : Nat) : Nat := bits e 0 64
def taKind (e : Nat) : Nat := bits e 64 8
def taValid (e : Nat) : Bool := e.testBit 72
def taRunLate (e : Nat) : Bool := e.testBit 73
def taFollow (e : Nat) : Bool := e.testBit 74
def taCount (e : Nat) : Nat := bits e 80 16
def taArg (e : Nat) : Nat := bits e 96 32

/-- Set status bits. -/
def Dev.taMark (d : Dev) (i m : Nat) : Dev := d.setTab 0x15 0 2 i (d.taStat i ||| m)

/-- The entry ends: VALID and PENDING clear. -/
def Dev.taEnd (d : Dev) (i : Nat) : Dev :=
  (d.setTab 0x15 0 1 i (d.taEntry i - (if taValid (d.taEntry i) then 2 ^ 72 else 0))).setTab 0x15 0 2 i
    (d.taStat i &&& 0xFE)

/-- Entries that wait for their time. -/
def Dev.taPending (d : Dev) : List Nat :=
  ((d.tabs.filter (fun e => e.1 / 2 ^ 24 == tabKey 0x15 0 2 0 / 2 ^ 24 && e.2.testBit 0)).map (fun e => e.1 % 2 ^ 24))

/-- The page executes entries. -/
def Dev.taRuns (d : Dev) : Bool := d.enabled 0x15 0 && !d.silent 0x15 0

/-- TIME moves on by whole periods: to the next instance, and beyond those that have passed, which are skipped (R265). -/
def Dev.taAdvance (d : Dev) (i : Nat) : Dev :=
  let per := taPeriod (d.taEntry i)
  let t := tLin (d.taTime i) + per
  let now := d.nowL
  let n := if t < now then (now - t) / max 1 per + 1 else 0
  let d := d.setTab 0x15 0 0 i (tImg (t + n * per))
  d.when (n != 0) (fun d => (d.taMark i 32).addSat Ta.TA_CNT_B_SKIP_CNT 0 n)

/-- The device reads an entry; the answer says whether its words could be read (R282). -/
def Dev.taRead (d : Dev) (i : Nat) : Dev × Bool :=
  let bad := d.tabErr 0x15 0 0 i == 2 || d.tabErr 0x15 0 1 i == 2
  ((d.readTab 0x15 0 Ta.F_TA_SBE Ta.F_TA_DBE 0x15 0 0 i).readTab 0x15 0 Ta.F_TA_SBE Ta.F_TA_DBE 0x15 0 1 i, !bad)

/-- The late check of an entry (R264). -/
def Dev.taLate (d : Dev) (i : Nat) : Dev :=
  let r := d.taRead i
  let d := r.1
  let e := d.taEntry i
  if !r.2 || decide (d.nowL ≤ tLin (d.taTime i)) then d
  else if taRunLate e then
    ((d.taMark i 8).incSat Ta.TA_CNT_A_LATE_RUN_CNT 0).evt 0x15 0 Ta.E_LATE_RUN
  else
    let d := ((d.taMark i 4).incSat Ta.TA_CNT_A_LATE_CNT 0).wr Ta.TA_STAT_LAST_LATE_IDX 0 i
    let d := d.evt 0x15 0 Ta.E_LATE
    if taPeriod e = 0 then d.taEnd i else d.taAdvance i

/-- Whether TABLE 1 takes an entry (R262). -/
def Dev.taOk (d : Dev) (e : Nat) : Bool :=
  let arg := taArg e
  let per := taPeriod e
  let own := fun (f : Fld) n => d.resPart f n == d.owner
  (per == 0 || decide (1000 * nsL ≤ per)) &&
    match taKind e with
    | 0 => true
    | 1 => (bits arg 16 8 == 1 || bits arg 16 8 == 2) && (maskPorts (bits arg 0 16)).all (own Claims.ACT_PORTS)
    | 2 => ((List.range 17).filter (fun n => arg.testBit n)).all (own Claims.ACT_CES)
    | 3 => bits arg 8 24 != 0 && own Claims.ACT_TOUT (bits arg 0 5) && d.holds .tout (bits arg 0 5) 0x15 0
    | 4 => bits arg 0 8 != 0
    | 5 => own Claims.ACT_PORTS (bits arg 0 4)
    | _ => false

/-- A write of TABLE 0 or TABLE 1; none where it is refused. A TIME out of range is refused under R10. -/
def Dev.taWrite (d : Dev) (t i v : Nat) : Dev × Bool :=
  if t = 0 then
    if badNS v then (d.evt 0x15 0 evtBAD_TIME, false)
    else if taValid (d.taEntry i) then (d, false)
    else (d.putTab 0x15 0 Ta.F_TA_SBE Ta.F_TA_DBE 0x15 0 0 i (v % 2 ^ 96), true)
  else if t ≠ 1 ∨ !d.taOk v then (d, false)
  else
    let d := d.putTab 0x15 0 Ta.F_TA_SBE Ta.F_TA_DBE 0x15 0 1 i v
    if taValid v then
      let d := d.setTab 0x15 0 2 i 1
      (d.when (d.taRuns) (fun d => d.taLate i), true)
    else (d.setTab 0x15 0 2 i (d.taStat i &&& 0xFE), true)

/-- EN rises: the late check of every pending entry (R263, R264); what has waited is due from now on. -/
def Dev.taEnable (d : Dev) : Dev :=
  d.taPending.foldl (fun d i => d.taLate i) { d with taSince := d.nowL }

/-! ## Execution (R263, R265, R282) -/

/-- When an entry is dispatched, in 2^-16 ns. -/
def Dev.taDue (d : Dev) (i : Nat) : Nat :=
  tLin (d.taTime i) - (if taKind (d.taEntry i) = 1 then d.rd Ta.TA_CFG_EXPOSE_LEAD 0 * 100 * nsL else 0)

/-- The moment an entry falls due: its dispatch time, or the moment EN last rose or the clock last stepped past it. -/
def Dev.taFalls (d : Dev) (i : Nat) : Nat := max (d.taDue i) d.taSince

/-- Cycles of the timebase since the first at or after the moment an entry fell due. -/
def Dev.taAgo (d : Dev) (i : Nat) : Nat := (d.clk.count - d.taFalls i * 2 ^ 24) / max 1 (d.rd Tu.INCR 0)

/-- The entry is the next to execute: its dispatch time has come, and no other fell due in an earlier cycle; entries due in one
cycle execute in ascending index order (R263, R266). -/
def Dev.taReady (d : Dev) (i : Nat) : Bool :=
  d.taRuns && (d.taStat i).testBit 0 && decide (d.taDue i ≤ d.nowL) &&
    d.taPending.all (fun j => decide (d.nowL < d.taDue j) || decide (d.taAgo j < d.taAgo i) ||
      (d.taAgo i == d.taAgo j && decide (i ≤ j)))

/-- An action carried out or refused; the entry goes on as executed (R263, R265). -/
def Dev.taDid (d : Dev) (i : Nat) (ok : Bool) : Dev :=
  let d := d.when (!ok) (fun d => ((d.taMark i 64).incSat Ta.TA_CNT_B_REFUSED_CNT 0).evt 0x15 0 Ta.E_REFUSED)
  let d := d.addWrap Ta.EXEC_CNT 0 1
  let e := d.taEntry i
  let n := taCount e
  let d := d.when (n != 0) (fun d => d.setTab 0x15 0 1 i (e - 2 ^ 80))
  if taPeriod e = 0 ∨ n = 1 then (d.taMark i 2).taEnd i else d.taAdvance i

/-- Execute an entry of one kind; an uncorrectable entry is invalidated and REFUSED (R282). -/
def Dev.taExec (d : Dev) (i : Nat) (is? : Nat → Bool) (act : Dev → Nat → Nat → Dev × Bool) : Dev :=
  if !d.taReady i || !is? (d.taEntry i) then d
  else
    let x := d.taRead i
    let d := x.1
    if !x.2 then d
    else
      let r := act d (d.taTime i) (taArg (d.taEntry i))
      r.1.taDid i r.2

/-- KIND 0. -/
def execTimedActionNone (entry : Fin 4096) (s : State) : Host.Outcome State Fault Refusal :=
  s.upd (fun d => d.taExec entry (fun e => taKind e == 0) (fun d _ _ => (d, true)))

/-- KIND 1: one trigger for each port of the mask; a gated port refuses. -/
def execExpose (entry : Fin 4096) (s : State) : Host.Outcome State Fault Refusal :=
  s.upd (fun d => d.taExec entry (fun e => taKind e == 1) (fun d t arg =>
    let ports := maskPorts (bits arg 0 16)
    (ports.foldl (fun d p =>
      if d.portGated p then d else d.portTrigger p (tLin t) (bits arg 16 8) 0 0 0) d,
      ports.all (fun p => !d.portGated p))))

/-- KIND 3: a pulse at an output the page holds. -/
def execPulse (entry : Fin 4096) (s : State) : Host.Outcome State Fault Refusal :=
  s.upd (fun d => d.taExec entry (fun e => taKind e == 3) (fun d t arg =>
    let m := bits arg 0 5
    let at? := max (tLin t) d.nowL
    (d.pulse 0x15 0 m (at? / sampleL * sampleL) at? (bits arg 8 24) true, d.holds .tout m 0x15 0)))

/-- KIND 4: an ACTION message. -/
def execVoxordAction (entry : Fin 4096) (s : State) : Host.Outcome State Fault Refusal :=
  s.upd (fun d => d.taExec entry (fun e => taKind e == 4) (fun d t arg =>
    d.voxAction (bits arg 0 8) 2 0 entry 0 t 0))

/-- KIND 5: the port's oldest DECLARED segment starts, where it waits for its time (R376). -/
def Dev.segAction (d : Dev) (p : Nat) : Dev × Bool :=
  match (d.track p).segs.find? (fun s => s.st == .declared) with
  | some s =>
    if !s.timed then (d, false)
    else if s.started then (d, true)
    else
      let w := d.posWord s.ch
      (d.modSeg p s.num (fun s => { s with
        started := true, fixed := true, s := w, e := w + along s.dir (le s.desc 24 8) }), true)
  | none => (d, false)

def execSegmentAction (entry : Fin 4096) (s : State) : Host.Outcome State Fault Refusal :=
  s.upd (fun d => d.taExec entry (fun e => taKind e == 5) (fun d _ arg => d.segAction (bits arg 0 4)))

/-- KIND 2: a cycle in each engine of the mask. -/
def Dev.taCycle (d : Dev) (arg : Nat) (run : Dev → Nat → Dev × Bool) : Dev × Bool :=
  ((List.range 17).filter (fun e => arg.testBit e)).foldl (fun (a : Dev × Bool) e =>
    let r := run a.1 e
    (r.1, a.2 && r.2)) (d, true)

def execColourCycle (entry : Fin 4096) (s : State) : Host.Outcome State Fault Refusal :=
  s.upd (fun d => d.taExec entry (fun e => taKind e == 2 && !(taArg e).testBit 24) (fun d t arg =>
    d.taCycle arg (fun d e => d.regReport e t)))

def execPlumbCycle (entry : Fin 4096) (s : State) : Host.Outcome State Fault Refusal :=
  s.upd (fun d => d.taExec entry (fun e => taKind e == 2 && (taArg e).testBit 24) (fun d t arg =>
    d.taCycle arg (fun d e => d.plSwap e t)))

/-! ## Steps (R245, R266) -/

/-- The entries follow a step of s (R266). -/
def Dev.taStepped (d : Dev) (s : Int) (old : Nat) : Dev :=
  d.taPending.foldl (fun d i =>
    let r := d.taRead i
    let d := r.1
    if !r.2 then d
    else if taFollow (d.taEntry i) then d.setTab 0x15 0 0 i (tShift (d.taTime i) s)
    else if d.taRuns && decide (old < tLin (d.taTime i)) && decide (tLin (d.taTime i) < d.nowL) then d.taMark i 16
    else d) d

/-- A step forward or back by STEP_MAG (R245). -/
def Dev.step? (d : Dev) (back : Bool) : Dev :=
  let mag := tLin (d.rd Tu.STEP_MAG 0)
  let old := d.nowL
  let t : Int := (d.clk.count : Int) + (if back then -(mag : Int) else mag) * 2 ^ 24
  if t < 0 ∨ (2 ^ 48 * 1000000000 * 2 ^ 40 : Nat) ≤ t then d.evt 0x14 0 Tu.E_STEP_REFUSED
  else
    let s : Int := if back then -(mag : Int) else mag
    let d := (d.wr Tu.STEP_TIME 0 d.now).incSat Tu.TU_CNT_STEP_CNT 0
    let d := { d with clk := clockOf t.toNat }
    let d := ((d.moveMarks s).gapAll).taStepped s old
    let d := { d with taSince := d.nowL }
    let d := (List.range 16).foldl (fun d p => (d.portStepped p s).timeReq p) d
    d.evt 0x14 0 Tu.E_STEPPED

/-- One TU_CMD write. -/
def Dev.tuCmd (d : Dev) (v : Nat) : Dev :=
  let d := d.when (v.testBit 2) (fun d => d.clearAll [Tu.TU_CNT_STEP_CNT, Tu.TU_CNT_INCR_CNT] 0)
  if v.testBit 0 && v.testBit 1 then d.evt 0x14 0 Tu.E_STEP_REFUSED
  else if v.testBit 0 then d.step? false
  else if v.testBit 1 then d.step? true
  else d

def execStepFwd (req : Req) (s : State) : Host.Outcome State Fault Refusal :=
  s.upd (fun d => d.busW req.num 0x14 0 (fun d => d.tuCmd 1))

def execStepBack (req : Req) (s : State) : Host.Outcome State Fault Refusal :=
  s.upd (fun d => d.busW req.num 0x14 0 (fun d => d.tuCmd 2))

/-- REFCLK is lost: FATAL, and device time is not valid until a device reset (R248). -/
def execRefclkLoss (s : State) : Host.Outcome State Fault Refusal :=
  s.upd (fun d => d.when d.boot.aoUp (fun d => ({ d with clkLost := true } : Dev).clkFree.flt 0x14 0 Tu.F_REFCLK_LOSS))

/-- The accumulator's lockstep pair disagrees (R248). -/
def execTbLockstep (s : State) : Host.Outcome State Fault Refusal :=
  s.upd (fun d => d.when d.boot.aoUp (fun d => ({ d with clkLost := true } : Dev).clkFree.flt 0x14 0 Tu.F_TB_LOCKSTEP))

/-- One TA_CMD write (R279). -/
def Dev.taCmd (d : Dev) (v : Nat) : Dev :=
  d.when (v.testBit 0) (fun d => d.clearAll
    [Ta.TA_CNT_A_LATE_CNT, Ta.TA_CNT_A_LATE_RUN_CNT, Ta.TA_CNT_B_SKIP_CNT, Ta.TA_CNT_B_REFUSED_CNT] 0)

end Sys2Proof.Machine
end

