-- ==== Sys2Proof/Machine/Net.lean ====
section
/-!
DEFINITION. The Ethernet ports (R250–R260): reception and filtering, transmission with timestamps, the peer-delay responder
and initiator, the path delay check, the master watch, link state, SFP28 modules.
The log's entries 32, 38 and 39 of notes/assumptions name what is DEDUCED or a DESIGN CHOICE here, and marks each.
-/

namespace Sys2Proof.Machine

def Dev.eth (d : Dev) (n : Nat) : EthH := mget d.eths n default
def Dev.setEth (d : Dev) (n : Nat) (x : EthH) : Dev := { d with eths := mset d.eths n x default }

/-- The port works: EN = 1 and its island answers (R259). -/
def Dev.ethRuns (d : Dev) (n : Nat) : Bool := d.enabled 0x16 n && !d.silent 0x16 n

/-- EL0 or EL1 is in effect (R507). -/
def Dev.ethLooped (d : Dev) (n : Nat) : Bool := d.ethLoop n == 1 || d.ethLoop n == 2

/-- Link up towards the far station, for the functions of the device itself (R507). -/
def Dev.ethLive (d : Dev) (n : Nat) : Bool := d.ethRuns n && d.ethLinkUp n && !d.ethLooped n

/-! ## Timestamps (R252) -/

/-- Which pair of delay constants is in use: 10G, 25G, 25G with FEC. -/
def Dev.ethDly (d : Dev) (n rx : Nat) : Nat :=
  let i := if d.is Eth.ETH_CFG_SPEED n then (if d.is Eth.ETH_CFG_FEC n then 4 else 2) else 0
  d.rd Eth.DLY n (i + rx)

/-- Transmit timestamp of a frame that passes the PCS in the present cycle of the timebase, in 2^-16 ns: where in the cycle it
passes is not stated, and the circuit refines the stamp to it (R243). -/
def Dev.txStamp (d : Dev) (n : Nat) : Nat := ((d.momentL (d.freeVal 17) : Int) + d.ethDly n 0 - d.rdI Eth.DELAY_ASYM n).toNat

/-- Receive timestamp of a frame that passed the PCS so long ago. -/
def Dev.rxAgo (d : Dev) (n ago : Nat) : Nat := ((d.nowL - ago : Nat) - (d.ethDly n 1 : Int) - d.rdI Eth.DELAY_ASYM n).toNat

/-- Receive timestamp of a frame that passed the PCS in the present cycle of the timebase (R243). -/
def Dev.rxStamp (d : Dev) (n early : Nat) : Nat := d.rxAgo n (early % cycleL)

/-! ## PTP messages (R253–R258) -/

/-- Offset of the PTP header of a frame on a supported transport, with whether it came on the event port (R254). -/
def ptpOfs (f : List Nat) : Option (Nat × Bool) :=
  let o := if be f 12 2 = 0x8100 then 18 else 14
  let udp := fun u => if be f (u + 2) 2 = 319 then some (u + 8, true) else if be f (u + 2) 2 = 320 then some (u + 8, false) else none
  match etherType f with
  | 0x88F7 => some (o, true)
  | 0x0800 => if byteAt f (o + 9) = 17 then udp (o + byteAt f o % 16 * 4) else none
  | 0x86DD => if byteAt f (o + 6) = 17 then udp (o + 40) else none
  | _ => none

def ptpType (f : List Nat) (o : Nat) : Nat := byteAt f o % 16
def ptpDomain (f : List Nat) (o : Nat) : Nat := byteAt f (o + 4)
def ptpCorr (f : List Nat) (o : Nat) : Int := sInt 64 (be f (o + 8) 8)
def ptpSrc (f : List Nat) (o : Nat) : Nat := be f (o + 20) 10
def ptpSeq (f : List Nat) (o : Nat) : Nat := be f (o + 30) 2

/-- A PTP timestamp in 2^-16 ns. -/
def ptpStamp (f : List Nat) (o : Nat) : Nat := (be f o 6 * 1000000000 + be f (o + 6) 4) * 65536

/-- PORT_IDENTITY. -/
def Dev.portIdent (d : Dev) (n : Nat) : Nat := d.rd Eth.CLOCK_ID n * 2 ^ 16 + d.rd Eth.PORT_NUM n

/-- Ones'-complement sum of 16-bit words. -/
def sum16 : List Nat → Nat
  | [] => 0
  | [a] => a * 256
  | a :: b :: r => a * 256 + b + sum16 r

/-- A UDP checksum after bytes of its datagram changed; an IPv4 checksum of 0 stays 0 (R253). -/
def udpFix (old new : List Nat) (u : Nat) : List Nat :=
  let c := be old (u + 6) 2
  if c = 0 ∧ etherType old = 0x0800 then new
  else
    let s := sum16 (old.drop u) % 65535
    let t := sum16 (new.drop u) % 65535
    let v := (c + s + 65535 - t) % 65535
    patch new (u + 6) (beBytes 2 (if v = 0 then 65535 else v))

/-- One-step: the timestamp goes into originTimestamp and correctionField (R253). -/
def oneStep (f : List Nat) (o t : Nat) : List Nat :=
  let img := tImg t
  let f := patch f (o + 34) (beBytes 6 (bits img 48 48) ++ beBytes 4 (tNS img))
  patch f (o + 8) (beBytes 8 (uInt 64 (ptpCorr f o + (bits img 0 16 : Nat))))

/-- A PTP message of a type: header and body. -/
def ptpMsg (typ domain : Nat) (corr : Int) (src seq : Nat) (logInt : Nat) (body : List Nat) : List Nat :=
  [typ, 2] ++ beBytes 2 (34 + body.length) ++ [domain, 0, 0, 0] ++ beBytes 8 (uInt 64 corr) ++ zeros 4 ++ beBytes 10 src ++
    beBytes 2 seq ++ [5, logInt] ++ body

/-- The frame that answers on the transport of a request: addresses return, or stay where they are a group's. -/
def ptpReply (f : List Nat) (mac : Nat) (msg : List Nat) : List Nat :=
  let o := if be f 12 2 = 0x8100 then 18 else 14
  let group := (byteAt f 0).testBit 0
  let l2 := beBytes 6 (if group then be f 0 6 else be f 6 6) ++ beBytes 6 mac ++ sl f 12 (o - 12)
  match etherType f with
  | 0x0800 =>
    let h := [0x45, 0] ++ beBytes 2 (28 + msg.length) ++ [0, 0, 0, 0, 1, 17, 0, 0] ++
      (if group then zeros 4 ++ sl f (o + 16) 4 else sl f (o + 16) 4 ++ sl f (o + 12) 4)
    let c := 65535 - sum16 h % 65535
    l2 ++ patch h 10 (beBytes 2 c) ++ beBytes 2 319 ++ beBytes 2 319 ++ beBytes 2 (8 + msg.length) ++ [0, 0] ++ msg
  | 0x86DD =>
    let ips := if group then zeros 16 ++ sl f (o + 24) 16 else sl f (o + 24) 16 ++ sl f (o + 8) 16
    let u := beBytes 2 319 ++ beBytes 2 319 ++ beBytes 2 (8 + msg.length)
    let c := 65535 - (sum16 ips + sum16 u + sum16 msg + 17 + 8 + msg.length) % 65535
    l2 ++ [0x60, 0, 0, 0] ++ beBytes 2 (8 + msg.length) ++ [17, 1] ++ ips ++ u ++ beBytes 2 c ++ msg
  | _ => l2 ++ msg

/-- The frame of a Pdelay_Req on the port's own transport (R256). -/
def Dev.pdFrame (d : Dev) (n : Nat) (msg : List Nat) : List Nat :=
  let mac := d.rd Eth.MAC_ADDR n
  match d.rd Eth.PTP_CFG_TRANSPORT n with
  | 1 => ptpReply (beBytes 6 0x01005E00006B ++ zeros 6 ++ beBytes 2 0x0800 ++ [0x45] ++ zeros 15 ++ [224, 0, 0, 107]) mac msg
  | 2 => ptpReply (beBytes 6 0x33330000006B ++ zeros 6 ++ beBytes 2 0x86DD ++ zeros 24 ++ [0xFF, 2] ++ zeros 13 ++ [0x6B]) mac msg
  | _ => beBytes 6 0x0180C200000E ++ beBytes 6 mac ++ beBytes 2 0x88F7 ++ msg

/-! ## The path delay check (R257) -/

/-- A path delay sample, in 2^-16 ns. -/
def Dev.pdSample (d : Dev) (n : Nat) (v : Int) : Dev :=
  let d := d.wrI Eth.PATH_DELAY n v
  let good := sInt 64 (d.rd Eth.D_GOOD n)
  if !d.is Eth.STAT_D_GOOD_VALID n then (d.wrI Eth.D_GOOD n v).wr Eth.STAT_D_GOOD_VALID n 1
  else if d.rd Eth.PD_STEP_LIMIT n < (v - good).natAbs then
    if d.is Eth.STAT_PD_STEP_PENDING n then d else (d.wr Eth.STAT_PD_STEP_PENDING n 1).evt 0x16 n Eth.E_PD_STEP
  else if d.is Eth.STAT_PD_STEP_PENDING n then d
  else d.wrI Eth.D_GOOD n v

def execPdPost (req : Req) (port : Fin 2) (val : BitVec 64) (s : State) : Host.Outcome State Fault Refusal :=
  s.upd (fun d => d.busW req.num 0x16 port (fun d => d.pdSample port val.toInt))

/-- PD_ACK. -/
def Dev.cmdPdAck (d : Dev) (n : Nat) : Dev :=
  (d.wr Eth.D_GOOD n (d.rd Eth.PATH_DELAY n)).wr Eth.STAT_PD_STEP_PENDING n 0

/-! ## Received PTP messages (R255, R256, R258) -/

/-- The responder (R255). -/
def Dev.pdAnswer (d : Dev) (n : Nat) (f : List Nat) (o t2 : Nat) : Dev :=
  if !d.is Eth.PTP_CFG_RESP_EN n || ptpType f o != 2 || ptpDomain f o != d.rd Eth.PTP_CFG_DOMAIN n || !d.ethLive n ||
      d.ethLoop n == 3 then d
  else
    let corr := ptpCorr f o + (d.txStamp n : Int) - t2
    let d := d.freeUsed
    let msg := ptpMsg 3 (ptpDomain f o) corr (d.portIdent n) (ptpSeq f o) 0x7F (zeros 10 ++ beBytes 10 (ptpSrc f o))
    (d.ethWire n (ptpReply f (d.rd Eth.MAC_ADDR n) msg) false).1.incSat Eth.ETH_CNT_B_PDELAY_RESP_CNT n

/-- The 100 ms in which a request's response may come (R256). -/
abbrev pdWindow : Nat := 100000000 * nsL

/-- A response or follow-up for one of the port's requests, within its 100 ms; the sample of the first complete one is held
until they are over, since a response from another source takes it away (R256). -/
def Dev.pdTake (d : Dev) (n : Nat) (f : List Nat) (o t4 : Nat) : Dev :=
  let typ := ptpType f o
  let src := ptpSrc f o
  let mine := ptpDomain f o == d.rd Eth.PTP_CFG_DOMAIN n && be f (o + 44) 10 == d.portIdent n
  match (d.eth n).reqs.find? (fun r => r.seq == ptpSeq f o && decide (d.nowL < r.leftAt + pdWindow)) with
  | none => d
  | some r =>
    if !mine || (typ != 3 && typ != 0xA) then d
    else
      let put := fun (d : Dev) (x : PdReq) =>
        d.setEth n { d.eth n with reqs := (d.eth n).reqs.map (fun y => if y.seq = x.seq then x else y) }
      let ends := fun (d : Dev) (r : PdReq) (v : Int) => put d { r with done := true, sample := some (r.sample.getD v) }
      let many := decide (r.srcs ≠ []) && !r.srcs.contains src
      let r := { r with srcs := if r.srcs.contains src then r.srcs else r.srcs ++ [src] }
      let d := d.when many (fun d => d.evt 0x16 n Eth.E_MULTI_RESP)
      if typ = 3 ∧ !(byteAt f (o + 6)).testBit 1 then ends d r (((t4 : Int) - r.t1 - ptpCorr f o) / 2)
      else if typ = 3 then put d { r with resp := some (t4, ptpStamp f (o + 34), ptpCorr f o) }
      else match r.resp with
        | some (t4, t2, corr) =>
          let c := (ptpStamp f (o + 34) : Int) - t2 + corr + ptpCorr f o
          ends d r (((t4 : Int) - r.t1 - c) / 2)
        | none => put d r

/-- The master watch (R258). -/
def Dev.ptpWatch (d : Dev) (n : Nat) (f : List Nat) (o : Nat) : Dev :=
  let master := d.rd Eth.MASTER_CLOCK n * 2 ^ 16 + d.rd Eth.MASTER_PORT_PORT_NUM n
  if !d.is Eth.MASTER_PORT_WATCH_EN n || ptpDomain f o != d.rd Eth.PTP_CFG_DOMAIN n || ptpSrc f o != master then d
  else if ptpType f o = 0 then (d.setEth n { d.eth n with syncAt := d.nowL }).wr Eth.STAT_HOLDOVER n 0
  else if ptpType f o = 0xB then
    let gm := be f (o + 53) 8
    if gm = d.rd Eth.GM_SEEN n then d else (d.wr Eth.GM_SEEN n gm).evt 0x16 n Eth.E_GM_CHANGE
  else d

/-! ## Reception (R250, R251) -/

/-- The filter of R250. -/
def Dev.ethTakes (d : Dev) (n : Nat) (f : List Nat) : Bool :=
  let a := be f 0 6
  a == d.rd Eth.MAC_ADDR n || a == 0xFFFFFFFFFFFF || a == 0x011B19000000 || a == 0x0180C200000E || a == d.rd Vox.VOX_MCAST 0 ||
    d.is Eth.ETH_CFG_PROMISC n

/-- A frame goes to RX_Q, or is dropped where no descriptor is free (R251). -/
def Dev.ethDeliver (d : Dev) (n : Nat) (f : List Nat) (t : Nat) : Dev :=
  let q := d.rd Eth.ETH_CFG_RX_Q n
  let k := 64 + q
  let free := d.qrd k Dq.RING_CFG_Q_EN == 1 && d.mayIssue (d.qFn k) && (d.dqh q).wait.isEmpty && decide (0 < d.qFree k)
  if !free then (d.incSat Eth.ETH_CNT_A_RX_DROP_CNT n).evt 0x16 n Eth.E_RX_DROP
  else
    let vox := etherType f == d.rd Vox.VOX_CFG_VOX_ETYPE 0
    let ptp := match ptpOfs f with
      | some (o, true) => if ptpType f o < 4 then some o else none
      | _ => none
    let fields := match ptp with
      | some o => (ptpSeq f o, ptpType f o + 256 * ptpDomain f o)
      | none => (0, 0)
    d.push q
      { typ := 0x30, port := n, seg := fields.1, page := fields.2, time := tImg t, posValid := false, pos := 0, posInfo := 0
        posSuspect := false, timeSuspect := false, ref := 4 * b2n vox + 8 * b2n ptp.isSome, body := .bytes f }

/-- A good frame without its FCS, received with a timestamp. -/
def Dev.ethFrame (d : Dev) (n : Nat) (f : List Nat) (t : Nat) : Dev :=
  if !d.ethTakes n f then d
  else
    let own := !d.ethLooped n
    let d := match ptpOfs f with
      | some (o, _) => d.when own (fun d => ((d.ptpWatch n f o).pdAnswer n f o t).pdTake n f o t)
      | none => d
    let v := if own then d.voxRx (2 ^ n) f else (d, false)
    if v.2 then v.1 else v.1.ethDeliver n f t

/-- A frame at the receive MAC: the injector, length and FCS, the port buffer (R250, R282, R511). -/
def Dev.ethMac (d : Dev) (n : Nat) (frame : List Nat) (good : Bool) (t : Nat) : Dev :=
  let r := d.inject (16 + n) 0 (etherType frame) frame
  r.2.foldl (fun d f =>
    if !good || decide (f.length < 64) || decide (d.rd Eth.MAX_FRAME n < f.length) || !crcGood f then
      d.incSat Eth.ETH_CNT_A_RX_ERR_CNT n
    else
      let u := d.useBuf 0x16 n Eth.F_BUF_SBE Eth.F_BUF_DBE
      if u.2 then u.1 else u.1.ethFrame n (f.take (f.length - 4)) t) r.1

/-- A frame arrives from the far station; in EL2 its blocks are sent back as well (R507). -/
def Dev.ethRx (d : Dev) (n : Nat) (frame : List Nat) (good : Bool) (t : Nat) : Dev :=
  if d.ethRuns n && d.ethLinkUp n && !d.ethLooped n then
    (d.when (d.ethLoop n == 3) (fun d => d.emit (.eth n d.now frame (!good)))).ethMac n frame good t
  else d

/-- A frame that passed the PCS so long before the end of the present cycle of the timebase. -/
def execEthRx (port : Fin 2) (frame : RxFrame) (good : Bool) (s : State) : Host.Outcome State Fault Refusal :=
  s.upd (fun d => d.ethRx port frame.bytes good (d.rxStamp port frame.early))

/-- A Pdelay_Req of the far station (R255). -/
def execPdelayReq (port : Fin 2) (frame : RxFrame) (s : State) : Host.Outcome State Fault Refusal :=
  s.upd (fun d => d.ethRx port frame.bytes true (d.rxStamp port frame.early))

/-- A response, with its follow-up where there is one, and how long ago the response passed the PCS: in the present cycle of
the timebase where it comes alone (R256). -/
def execPdelayResp (port : Fin 2) (frame followUp : List Nat) (ago : Nat) (s : State) : Host.Outcome State Fault Refusal :=
  s.upd (fun d =>
    if followUp = [] then d.ethRx port frame true (d.rxStamp port ago)
    else (d.ethRx port frame true (d.rxAgo port ago)).ethRx port followUp true (d.rxStamp port 0))

/-! ## The initiator (R256) -/

/-- The 100 ms of a request are over: a request without a complete response counts as lost; the sample of one that had a
single responder goes to the path delay check (R256, R257). -/
def Dev.pdOver (d : Dev) (n : Nat) (r : PdReq) : Dev :=
  match r.sample with
  | none => d.incSat Eth.ETH_CNT_B_PDELAY_LOST_CNT n
  | some v => if r.srcs.length ≤ 1 then d.pdSample n v else d

/-- The requests whose 100 ms are over end. -/
def Dev.pdClose (d : Dev) (n : Nat) : Dev :=
  let h := d.eth n
  let late := fun (r : PdReq) => decide (r.leftAt + pdWindow ≤ d.nowL)
  if h.reqs.any late then
    (h.reqs.filter late).foldl (fun d r => d.pdOver n r) (d.setEth n { h with reqs := h.reqs.filter (fun r => !late r) })
  else d

/-- A Pdelay_Req is due. -/
def Dev.pdSend (d : Dev) (n : Nat) : Dev :=
  if !d.ethLive n || !d.is Eth.PTP_CFG_INIT_EN n || d.ethLoop n == 3 then d
  else
    let d := d.pdClose n
    let h := d.eth n
    let li := d.rd Eth.PTP_CFG_LOG_INTERVAL n
    let msg := ptpMsg 2 (d.rd Eth.PTP_CFG_DOMAIN n) 0 (d.portIdent n) h.pdSeq (if li < 8 then li else 240 + li) (zeros 20)
    let d := (d.setEth n { h with
      pdSeq := (h.pdSeq + 1) % 65536, reqs := h.reqs ++ [⟨h.pdSeq, d.txStamp n, d.nowL, [], none, false, none⟩] }).freeUsed
    (d.ethWire n (d.pdFrame n msg) false).1

def execPdelayInterval (port : Fin 2) (s : State) : Host.Outcome State Fault Refusal := s.upd (fun d => d.pdSend port)

/-- 100 ms after a request. -/
def execPdelayLost (port : Fin 2) (s : State) : Host.Outcome State Fault Refusal := s.upd (fun d => d.pdClose port)

/-- No Sync of the watched master within SYNC_TIMEOUT (R258). -/
def execMasterLost (port : Fin 2) (s : State) : Host.Outcome State Fault Refusal :=
  s.upd (fun d =>
    let n : Nat := port
    let due := (d.eth n).syncAt + d.rd Eth.PTP_CFG_SYNC_TIMEOUT n * 1000000 * nsL
    d.when (d.ethRuns n && d.is Eth.MASTER_PORT_WATCH_EN n && !d.is Eth.STAT_HOLDOVER n && decide (due ≤ d.nowL))
      (fun d => (d.wr Eth.STAT_HOLDOVER n 1).evt 0x16 n Eth.E_MASTER_LOST))

/-! ## Transmission (R251, R253, R507) -/

/-- The transmit descriptor at the head of TX_Q, once its frame has been read. -/
def Dev.txHead (d : Dev) (n : Nat) : Option IDesc :=
  let q := d.rd Eth.ETH_CFG_TX_Q n
  match (d.iqh q).descs with
  | x :: _ =>
    if d.ethRuns n && d.txPort q == some n && d.iqRuns q && x.taken && d.descStatus q x == 0 && decide (x.len ≤ x.fetched)
    then some x else none
  | [] => none

/-- Send the frame of a transmit descriptor, after the Voxord messages that are queued (R275), and write it back. -/
def Dev.ethSend (d : Dev) (n : Nat) (x : IDesc) (frame : List Nat) : Dev :=
  let q := d.rd Eth.ETH_CFG_TX_Q n
  let mode := bits (byteAt x.raw 1) 1 2
  let o := byteAt x.raw 2
  let d := d.voxDrain
  let back := fun (d : Dev) (st len : Nat) (t : Option Nat) => (d.iqPut q st (txBack st len t)).iqGo q
  if d.ethLoop n = 3 ∨ (!d.ethLinkUp n && !d.ethLooped n) then back d 1 0 none
  else if mode = 2 ∧ x.len < o + 44 then back d 3 0 none
  else
    let t := d.txStamp n
    let d := d.freeUsed
    let f := (frame ++ zeros x.len).take x.len
    let g := if mode = 2 then
        let g := oneStep f o t
        if (byteAt x.raw 1).testBit 3 then udpFix f g (byteAt x.raw 3) else g
      else f
    let u := d.useBuf 0x16 n Eth.F_BUF_SBE Eth.F_BUF_DBE
    let d := if d.ethLooped n then
        let r := u.1.inject (16 + n) 1 (etherType g) (withCrc (padFrame g))
        r.2.foldl (fun d b => d.freeUsed.ethMac n b (!u.2) (d.rxStamp n (d.freeVal 17))) r.1
      else (u.1.ethWire n g u.2).1
    back d 0 x.len (if mode = 1 ∨ mode = 2 then some (tImg t) else none)

/-- ETH_TX: the frame of the descriptor at the head of TX_Q. -/
def execEthTx (port : Fin 2) (desc frame : List Nat) (s : State) : Host.Outcome State Fault Refusal :=
  s.upd (fun d => match d.txHead port with
    | some x => if desc.take 32 = x.raw then d.ethSend port x frame else d
    | none => d)

/-! ## Link state (R257, R259) -/

def Dev.ethUp (d : Dev) (n : Nat) : Dev :=
  if d.ethRuns n && !d.ethLooped n && !d.ethLinkUp n then (d.wr Eth.STAT_LINK_UP n 1).evt 0x16 n Eth.E_LINK_UP else d

/-- The link goes down: D_GOOD becomes invalid (R257), and samples still held are of the link that was. -/
def Dev.ethDown (d : Dev) (n : Nat) : Dev :=
  if d.ethLinkUp n then
    let h := d.eth n
    let d := d.setEth n { h with reqs := h.reqs.filter (fun r => r.sample.isNone) }
    ((d.wr Eth.STAT_LINK_UP n 0).wr Eth.STAT_D_GOOD_VALID n 0).evt 0x16 n Eth.E_LINK_DOWN
  else d

def execEthLinkUp (port : Fin 2) (s : State) : Host.Outcome State Fault Refusal := s.upd (fun d => d.ethUp port)

def execEthLinkDown (port : Fin 2) (s : State) : Host.Outcome State Fault Refusal := s.upd (fun d => d.ethDown port)

/-! ## SFP28 modules (R260, R535, R536) -/

/-- TX_DISABLE of a cage: asserted while EN = 0, and in EL0 and EL1 (R260, R507). -/
def Dev.txDisable (d : Dev) (n : Nat) : Bool := !d.enabled 0x16 n || d.ethLooped n

/-- Read bytes 0 to 95 of address 0xA0. -/
def Dev.sfpRead (d : Dev) (n : Nat) : Dev :=
  if d.silent 0x16 n || !d.is Eth.SFP_STAT_PRESENT n then d else d.emit (.idBus (8 + n) 96)

/-- MOD_ABS takes a level: a module is present while it is low. -/
def Dev.modAbs (d : Dev) (n : Nat) (present : Bool) : Dev :=
  if d.silent 0x16 n || d.is Eth.SFP_STAT_PRESENT n == present then d
  else
    let d := ((d.wrb Eth.SFP_STAT_PRESENT n present).mdPresent (24 + n) present).evt 0x16 n Eth.E_ID_CHANGE
    if present then d.sfpRead n else d

def execModAbs (port : Fin 2) (s : State) : Host.Outcome State Fault Refusal := s.upd (fun d => d.modAbs port true)

def execModAbsHigh (port : Fin 2) (s : State) : Host.Outcome State Fault Refusal := s.upd (fun d => d.modAbs port false)

/-- One ETH_CMD write: PD_ACK, ID_READ, CLR_CNT. -/
def Dev.ethCmd (d : Dev) (n v : Nat) : Dev :=
  let d := d.when (v.testBit 2) (fun d => d.clearAll
    [Eth.ETH_CNT_A_RX_ERR_CNT, Eth.ETH_CNT_A_RX_DROP_CNT, Eth.ETH_CNT_B_PDELAY_LOST_CNT, Eth.ETH_CNT_B_PDELAY_RESP_CNT] n)
  let d := d.when (v.testBit 1) (fun d => d.sfpRead n)
  d.when (v.testBit 0) (fun d => d.cmdPdAck n)

def execPdAck (req : Req) (port : Fin 2) (s : State) : Host.Outcome State Fault Refusal :=
  s.upd (fun d => d.busW req.num 0x16 port (fun d => d.ethCmd port 1))

def execSfpIdRead (req : Req) (port : Fin 2) (s : State) : Host.Outcome State Fault Refusal :=
  s.upd (fun d => d.busW req.num 0x16 port (fun d => d.ethCmd port 2))

/-- Nominal rate of a module in MBd (R260). -/
def sfpRate (r : List Nat) : Nat := if byteAt r 12 = 0xFF then byteAt r 66 * 250 else byteAt r 12 * 100

/-- The directory body of a module; its diagnostics stand in words 18 to 20 (R535). -/
def mdSfp (r diag : List Nat) : List Nat :=
  sl r 37 3 ++ [0] ++ sl r 20 16 ++ sl r 40 16 ++ sl r 68 16 ++ sl r 56 4 ++ sl r 84 8 ++ leBytes 2 (sfpRate r) ++
    [byteAt r 92, 0] ++ diag ++ zeros 16

/-- The module's record has been read. -/
def Dev.sfpDone (d : Dev) (n : Nat) (r : List Nat) : Dev :=
  let sum := fun a b => ((r.drop a).take (b + 1 - a)).foldl (fun s x => s + x % 256) 0 % 256
  let ok := decide (96 ≤ r.length) && byteAt r 63 == sum 0 62 && byteAt r 95 == sum 64 94
  let slow := decide (sfpRate r < if d.is Eth.ETH_CFG_SPEED n then 25000 else 10000)
  let d := (d.wrb Eth.SFP_STAT_ID_VALID n ok).wrb Eth.SFP_STAT_ID_BAD n (!ok)
  let d := d.wrb Eth.SFP_STAT_RATE_MISMATCH n slow
  let diag := (List.range 3).flatMap (fun i => leBytes 4 (d.mdWord (24 + n) (18 + i)))
  let d := (d.mdPost (24 + n) 3 ok slow (mdSfp r diag)).evt 0x16 n Eth.E_ID_DONE
  let ident := sl r 40 16 ++ sl r 68 16
  let d := d.when ((d.eth n).sfpPrev != ident) (fun d => d.evt 0x16 n Eth.E_ID_CHANGE)
  d.setEth n { d.eth n with sfpPrev := ident }

def execSfpIdDone (port : Fin 2) (record : List Nat) (s : State) : Host.Outcome State Fault Refusal :=
  s.upd (fun d => d.when (!d.silent 0x16 port && d.is Eth.SFP_STAT_PRESENT port) (fun d => d.sfpDone port record))

/-- Diagnostics of a module that has them, bytes 96 to 105 of address 0xA2 most significant first, and its two pins. -/
def Dev.sfpDiag (d : Dev) (n : Nat) (diag : List Nat) (los txFault : Bool) : Dev :=
  let d := (d.wrb Eth.SFP_STAT_LOS n los).wrb Eth.SFP_STAT_TX_FAULT n txFault
  let old := (List.range 24).flatMap (fun w => leBytes 4 (d.mdWord (24 + n) (w + 1)))
  if !(byteAt old 66).testBit 6 || !d.is Eth.SFP_STAT_PRESENT n then d
  else
    let v := fun i => leBytes 2 (be diag (2 * i) 2)
    d.mdPost (24 + n) 3 (d.is Eth.SFP_STAT_ID_VALID n) (d.is Eth.SFP_STAT_RATE_MISMATCH n)
      (patch old 68 (v 0 ++ v 1 ++ v 2 ++ v 3 ++ v 4 ++ [0, 0]))

def execSfpDiag (port : Fin 2) (diag : List Nat) (los txFault : Bool) (s : State) : Host.Outcome State Fault Refusal :=
  s.upd (fun d => d.when (!d.silent 0x16 port) (fun d => d.sfpDiag port diag los txFault))

end Sys2Proof.Machine
end

