-- ==== Sys2Proof/Machine/Faults.lean ====
section
/-!
DEFINITION. The fault collector (15): summary and health commands, wedged islands and the handshake watchdog, known-answer
runs, supply, clock and temperature monitors, the guarantee.
The log's entries 3, 20, 59 and 60 of notes/assumptions name what is DEDUCED or a DESIGN CHOICE here, and marks each.
-/

namespace Sys2Proof.Machine

/-! ## Commands of the collector and health pages (R480, R483, R488, R498, R500) -/

/-- SUMMARY_CLR (R480). It acts before the faults of its own AO cycle, which are then recorded. -/
def Dev.summaryClr (d : Dev) : Dev :=
  let h := d.firstCycle
  let d := d.clearAll
    [Fc.SUMMARY_FIRST_CLASS, Fc.SUMMARY_FIRST_TIE, Fc.FIRST_SRC_BIT, Fc.FIRST_SRC_CLASS, Fc.FIRST_SRC_INSTANCE] 0
  if h.cls ≠ 0 ∧ h.cycle = d.aoCycle then d.showFirst.evt 1 0 Fc.E_FIRST else d

/-- REPLACE_CLR (R483). -/
def Dev.replaceClr (d : Dev) : Dev :=
  if d.rd AO.DEV_HEALTH_HEALTH 0 = 0 then d
  else if d.anyFlt 2 then d.badAccess 0 0
  else if d.rd AO.DEV_HEALTH_HEALTH 0 = 1 then d.setHealth 0
  else d

/-- ALERT_CLR (R488). -/
def Dev.alertClr (d : Dev) : Dev := d.wr AO.HEALTH_PINS_ALERT 0 0

/-- One HEALTH_CMD write: REPLACE_CLR acts first (R488). -/
def Dev.healthCmd (d : Dev) (v : Nat) : Dev :=
  (d.when (v.testBit 0) Dev.replaceClr).when (v.testBit 1) Dev.alertClr

def execSummaryClr (req : Req) (s : State) : Host.Outcome State Fault Refusal :=
  s.upd (fun d => d.busW req.num 1 0 Dev.summaryClr)

def execReplaceClr (req : Req) (s : State) : Host.Outcome State Fault Refusal :=
  s.upd (fun d => d.busW req.num 0 0 (fun d => d.healthCmd 1))

def execAlertClr (req : Req) (s : State) : Host.Outcome State Fault Refusal :=
  s.upd (fun d => d.busW req.num 0 0 (fun d => d.healthCmd 2))

/-- The target's 7-bit address (R497). -/
def Dev.smbTarget (d : Dev) : Nat := 0x5C + d.rd AO.BOOT_STAT_SMB_ADDR 0

/-- The Alert Response Address is read: while ALERT_N is asserted the target answers with its own address, which releases
ALERT_N (R488, R497). -/
def execAlertResponse (s : State) : Host.Outcome State Fault Refusal :=
  s.upd (fun d => d.when (d.boot.aoUp && d.is AO.HEALTH_PINS_ALERT 0) (fun d =>
    (d.alertClr).emit (.smbus [2 * d.smbTarget])))

/-! ## Wedged islands (R24, R49, R398) -/

/-- An island becomes wedged: it shows in WEDGE_MAP, a lane fails (R89), an engine fails (R398). -/
def Dev.wedge (m : FrameStore) (d : Dev) (n : Nat) : Dev :=
  if !islandKnown n || n == 0 || d.wedged n then d
  else
    let d := (d.setIslBit AO.WEDGE_MAP_ISL n true).wr AO.ACCESS_STAT_WEDGE 0 1
    if 128 ≤ n then d.when (d.enabled 0x08 (n - 128)) (fun d => d.laneFail (n - 128))
    else if 48 ≤ n then d.engFailed m (n - 48)
    else d

/-- A wedge ends (R49, R52). -/
def Dev.unwedge (d : Dev) (n : Nat) : Dev :=
  let d := d.setIslBit AO.WEDGE_MAP_ISL n false
  d.wrb AO.ACCESS_STAT_WEDGE 0 ((List.range 6).any (fun w => d.rd AO.WEDGE_MAP_ISL 0 w != 0))

/-- The pages of an island that carry HS_WDOG, with its bit. -/
def Dev.wdogPages (d : Dev) (n : Nat) : List (Nat × Nat × Nat) :=
  if n = 3 then [(0x16, 0, Eth.F_HS_WDOG), (0x16, 1, Eth.F_HS_WDOG)]
  else if n = 5 ∨ n = 6 then
    [(0x1C, n - 5, Link.F_HS_WDOG)] ++ if d.linkExists (n - 3) then [(0x1C, n - 3, Link.F_HS_WDOG)] else []
  else if 8 ≤ n ∧ n ≤ 11 then [(0x18, n - 8, Hbm.F_HS_WDOG)]
  else if 16 ≤ n ∧ n ≤ 31 then [(0x0A, n - 16, Port.F_HS_WDOG)]
  else if 32 ≤ n ∧ n ≤ 47 then [(0x0C, n - 32, Lcu.F_HS_WDOG)]
  else if 48 ≤ n ∧ n ≤ 64 then [(0x0D, n - 48, Ce.F_HS_WDOG)]
  else if 128 ≤ n ∧ n ≤ 191 then [(0x08, n - 128, Lane.F_HS_WDOG)]
  else []

/-- The handshake watchdog of an island fires (R24, R49). -/
def Dev.hsWdog (m : FrameStore) (d : Dev) (n : Nat) : Dev :=
  if !islandKnown n || n == 0 || !d.powered n then d
  else ((d.wdogPages n).foldl (fun d p => d.flt p.1 p.2.1 p.2.2) d).wedge m n

def execHsWdog (island : Nat) (s : State) : Host.Outcome State Fault Refusal :=
  s.updR (fun m d => d.hsWdog m island)

/-- A write of ones to ACCESS_STAT (R50). -/
def Dev.accessClr (d : Dev) (v : Nat) : Dev :=
  let d := d.when (v.testBit 0) (fun d => (d.wr AO.ACCESS_STAT_DENIED 0 0).wr AO.ACCESS_CNT_DENIED_CNT 0 0)
  let d := d.when (v.testBit 1) (fun d => (d.wr AO.ACCESS_STAT_GATED_WR 0 0).wr AO.ACCESS_CNT_GATED_WR_CNT 0 0)
  d.when (v.testBit 2) (fun d =>
    ((d.wr AO.ACCESS_STAT_ACC_TIMEOUT 0 0).wr AO.WEDGE_FIRST_VALID 0 0).wr AO.WEDGE_FIRST_OFFSET 0 0)

def execAccessStatClear (req : Req) (mask : Word) (s : State) : Host.Outcome State Fault Refusal :=
  s.upd (fun d => d.busW req.num 0 0 (fun d => d.accessClr mask.toNat))

/-! ## Known-answer runs (R489, R490) -/

/-- The known-answer image: the listed words of its area (R528). -/
def Dev.kaImage (d : Dev) : List (Nat × Nat) := d.nv.filter (fun e => decide (0x800 ≤ e.1) && decide (e.1 < 0xE000))

/-- The image is read and checked, as KA_EN or an engine's EN rises (R486, R489, R495). -/
def Dev.kaCheck (d : Dev) : Dev :=
  let inj := d.armed 1 0 Fc.F_KA_IMAGE
  let bad := inj || !Config.kaImageGood d.kaImage
  let d := if inj then d.disarm 1 0 Fc.F_KA_IMAGE else d
  ({ d with kaBad := bad }).when bad (fun d => d.flt 1 0 Fc.F_KA_IMAGE)

/-- A run may start in an engine. -/
def Dev.kaMay (d : Dev) (e : Nat) : Bool :=
  d.is Fc.FC_CFG_KA_EN 0 && d.enabled 0x0D e && !d.silent 0x0D e && !d.wedged (48 + e) && !d.kaBad &&
    (d.ce e).kaSince.isNone

/-- A run starts in an engine (R489). -/
def Dev.kaStart (d : Dev) (e : Nat) : Dev :=
  d.when (d.kaMay e) (fun d => d.setCe e { d.ce e with kaSince := some d.nowL })

/-- KA_NOW (R489). -/
def Dev.kaNow (d : Dev) : Dev := (List.range 17).foldl (fun d e => d.kaStart e) d

def execKaNow (req : Req) (s : State) : Host.Outcome State Fault Refusal :=
  s.upd (fun d => d.busW req.num 1 0 Dev.kaNow)

/-- The periodic run of an engine starts. -/
def execKaRun (engine : Fin 17) (s : State) : Host.Outcome State Fault Refusal := s.upd (fun d => d.kaStart engine)

/-- An engine's run has failed: CE_MAP, KA_FAIL, ENGINE_FAIL and the takeover (R490). -/
def Dev.kaFailed (m : FrameStore) (d : Dev) (e : Nat) : Dev :=
  let d := d.wr Fc.KA_FAIL_CE_MAP 0 (d.rd Fc.KA_FAIL_CE_MAP 0 ||| 2 ^ e)
  ((d.evt 1 0 Fc.E_KA_FAIL).flt 0x0D e Ce.F_ENGINE_FAIL).engFailed m e

/-- An LCU's digest mismatches (R490). -/
def Dev.kaLcuFailed (d : Dev) (p : Nat) : Dev :=
  let d := d.wr Fc.KA_LCU_FAIL_LCU_MAP 0 (d.rd Fc.KA_LCU_FAIL_LCU_MAP 0 ||| 2 ^ p)
  (d.evt 1 0 Fc.E_KA_FAIL).flt 1 0 Fc.F_KA_LCU

/-- A digest as its CRC checker sees it: an armed injection inverts its lowest bit (R495). -/
def Dev.kaDigest (d : Dev) (c i b v : Nat) : Dev × Nat :=
  if d.armed c i b then (d.disarm c i b, v ^^^ 1) else (d, v)

/-- A run ends with its digests (R490); one that starts at the engine's tile input has no LCU digest. -/
def Dev.kaDone (m : FrameStore) (d : Dev) (e lcu eng : Nat) : Dev :=
  if (d.ce e).kaSince.isNone then d
  else
    let d := (d.setCe e { d.ce e with kaSince := none }).addWrap Fc.KA_RUNS 0 1
    let a := if e < 16 ∧ d.enabled 0x0C e then d.kaDigest 1 0 Fc.F_KA_LCU lcu else (d, Config.kaLcuDigest d.kaImage)
    let d := a.1.when (a.2 != Config.kaLcuDigest d.kaImage) (fun d => d.kaLcuFailed e)
    let b := d.kaDigest 0x0D e Ce.F_ENGINE_FAIL eng
    b.1.when (b.2 != Config.kaEngineDigest d.kaImage) (fun d => d.kaFailed m e)

def execKaRunDone (engine : Fin 17) (lcuDigest engineDigest : Nat) (s : State) : Host.Outcome State Fault Refusal :=
  s.updR (fun m d => d.kaDone m engine lcuDigest engineDigest)

/-- A run has not finished within 5 ms of its start (R490). -/
def Dev.kaTimeout (m : FrameStore) (d : Dev) (e : Nat) : Dev :=
  match (d.ce e).kaSince with
  | some t => if t + 5000000 * nsL ≤ d.nowL then (d.setCe e { d.ce e with kaSince := none }).kaFailed m e else d
  | none => d

def execKaTimeout (engine : Fin 17) (s : State) : Host.Outcome State Fault Refusal :=
  s.updR (fun m d => d.kaTimeout m engine)

/-! ## Monitors (R486, R493, R544) -/

def Dev.monitors (d : Dev) : Bool := d.boot.aoUp

def execXtalLoss (s : State) : Host.Outcome State Fault Refusal :=
  s.upd (fun d => d.when d.monitors (fun d => d.flt 1 0 Fc.F_XTAL_LOSS))

/-- A supply has left its window for 1 µs; VMON is masked while PWR_GOOD is low (R544). -/
def Dev.vmon (d : Dev) : Dev := d.when (d.monitors && d.is Nv.NV_STAT_PWR_OK 0) (fun d => d.flt 1 0 Fc.F_VMON)

def execVmon (s : State) : Host.Outcome State Fault Refusal := s.upd Dev.vmon

/-- TEMP_HOT (R486, R499). -/
def Dev.tempHot (d : Dev) : Dev := (d.evt 1 0 Fc.E_TEMP_HOT).flt 1 0 Fc.F_TEMP_HOT

/-- The highest present sensor reading takes a value: TEMP_HOT as it reaches TEMP_WARN, TEMP_CRIT at 110 °C, a new
TEMP_MAX rewrites the health record (R486, R493, R498). -/
def Dev.tempSeen (d : Dev) (t : Int) : Dev :=
  if !d.monitors then d
  else
    let t := clampI (-128) 127 t
    let old := d.rdI Fc.TEMP_CFG_TEMP_NOW 0
    let warn := d.rdI Fc.TEMP_CFG_TEMP_WARN 0
    let d := d.wrI Fc.TEMP_CFG_TEMP_NOW 0 t
    let d := d.when (decide (old < warn) && decide (warn ≤ t)) Dev.tempHot
    let d := d.when (decide (sInt 8 d.health.tempMax < t)) (fun d =>
      { d with health := { d.health with tempMax := uInt 8 t } }.hrecWrite)
    d.when (decide (110 ≤ t)) (fun d => d.flt 1 0 Fc.F_TEMP_CRIT)

def execTempCrit (temp : Int) (s : State) : Host.Outcome State Fault Refusal := s.upd (fun d => d.tempSeen temp)

def execTempHot (temp : Int) (s : State) : Host.Outcome State Fault Refusal := s.upd (fun d => d.tempSeen temp)

def execTempMaxRise (temp : Int) (s : State) : Host.Outcome State Fault Refusal := s.upd (fun d => d.tempSeen temp)

/-- An island has lost its clock: it is no longer powered and clocked, and is wedged (R49, R51, R486). -/
def Dev.unclock (m : FrameStore) (d : Dev) (n : Nat) : Dev := (d.wedge m n).setIslBit Isl.PWR n false

def Dev.ptClkLoss (m : FrameStore) (d : Dev) : Dev :=
  d.when (d.powered 2) (fun d => (d.flt 1 0 Fc.F_PT_CLK_LOSS).unclock m 2)

def execPtClkLoss (s : State) : Host.Outcome State Fault Refusal := s.updR (fun m d => d.ptClkLoss m)

/-- The clock of another island than AO and Position/Trigger is lost (R486). -/
def Dev.islClkLoss (m : FrameStore) (d : Dev) (n : Nat) : Dev :=
  d.when (islandKnown n && n != 0 && n != 2 && d.powered n) (fun d => (d.flt 1 0 Fc.F_ISL_CLK_LOSS).unclock m n)

def execIslClkLoss (island : Nat) (s : State) : Host.Outcome State Fault Refusal :=
  s.updR (fun m d => d.islClkLoss m island)

/-- A die-to-die transfer fails its CRC that many times in a row (R486). -/
def Dev.bridgeCrc (d : Dev) (attempts : Nat) : Dev :=
  if attempts = 0 then d
  else (d.flt 1 0 Fc.F_BRIDGE_CRC).when (decide (8 ≤ attempts)) (fun d => d.flt 1 0 Fc.F_BRIDGE_FAIL)

def execBridgeCrc (attempts : Nat) (s : State) : Host.Outcome State Fault Refusal :=
  s.upd (fun d => d.when d.monitors (fun d => d.bridgeCrc attempts))

def execAoLockstep (s : State) : Host.Outcome State Fault Refusal :=
  s.upd (fun d => d.when d.monitors (fun d => d.flt 1 0 Fc.F_AO_LOCKSTEP))

def execFabLockstep (s : State) : Host.Outcome State Fault Refusal :=
  s.updOn 4 (fun d => d.flt 1 0 Fc.F_FAB_LOCKSTEP)

/-! ## The guarantee (R491, R488) -/

/-- STAT.GUARANTEE_OK: the conditions of R491 the device can check. -/
def Dev.guaranteeOk (d : Dev) : Bool :=
  d.is Fc.FC_CFG_SRAM_SCRUB_EN 0 && decide (d.rd Fc.FC_CFG_SRAM_SCRUB_S 0 ≤ 60) &&
    d.is Fc.FC_CFG_KA_EN 0 && decide (d.rd Fc.FC_CFG_KA_PERIOD 0 ≤ 10) && !d.kaBad &&
    (List.range 4).all (fun k => !d.enabled 0x18 k || d.is Hbm.ECC_CFG_SCRUB_EN k) &&
    d.regs.all (fun e => !(e.1 / 32 % 4096 == 0x24 || e.1 / 32 % 4096 == 0x28) || e.2 == 0)

/-- A fall of GUARANTEE_OK raises GUARANTEE_LOST and asserts ALERT_N. -/
def Dev.guard (d : Dev) (k : Dev → Dev) : Dev :=
  let e := k d
  if d.guaranteeOk && !e.guaranteeOk then (e.evt 1 0 Fc.E_GUARANTEE_LOST).alert else e

end Sys2Proof.Machine
end

