-- ==== Sys2Proof/Machine/Flegar.lean ====
section
/-!
DEFINITION. What a Flegar port does with packets: LINE, FRAME, CREDIT, TIME and MGMT packets from the camera, triggers to
it, retry, camera identity, far-end loopback (R118–R149), and TEST and LINE packets of the device-side loops (R503).
The log's entries 25, 26 and 27 of notes/assumptions name what is DEDUCED or a DESIGN CHOICE here, and marks each.
-/

namespace Sys2Proof.Machine

/-! ## Loop traffic (R127, R149, R503) -/

/-- A returned TEST packet in LB0 or LB1 (R503); the next one follows. -/
def Dev.testCheck (d : Dev) (p : Nat) (ok : Bool) : Dev :=
  let d := d.when (!ok) (fun d => (d.incSat LbF.CHK_ERR_CNT 0 p).evt 0x1F 0 Test.E_LB_ERR)
  d.testSend p (d.rd LbF.LB_CFG_GEN_LEN 0 p)

/-- A returned block that is not the one sent is counted, and LB_STATUS shows it (R149). -/
def Dev.lb2Wrong (d : Dev) (p : Nat) : Dev := (d.incSat Port.CNT_E_LB_ERR_CNT p).wr Port.LB_CTRL_LB_STATUS p 3

/-- The camera's own MGMT packet comes in: its START block, or what follows it (R149 steps 2 and 4). -/
def Dev.mgmtBlock (d : Dev) (p : Nat) (b : Nat × Nat) : Bool :=
  let bs := blockBytes b.2
  match (d.port p).rx with
  | some pk => byteAt pk 0 == 5
  | none => b.1 == 2 && byteAt bs 0 == 0x78 && byteAt bs 1 == 5

/-- A block returned in the far-end loop is compared with the block sent (R149); an IDLE block where a packet is due is one the
device sent between packets. Behind the last one the next TEST packet follows. -/
def Dev.lb2Block (d : Dev) (p : Nat) (b : Nat × Nat) : Dev :=
  let next := fun (d : Dev) => d.when ((d.loop p).expect.isEmpty && (d.port p).lb == .active) (fun d => d.testSend p 8192)
  if !d.lbOn p || d.mgmtBlock p b then d
  else match (d.loop p).expect with
    | [] => d.when (b != idleBlock) (fun d => d.lb2Wrong p)
    | x :: r =>
      if b == idleBlock && x.1 == 2 && x.2 % 256 == 0x78 then d
      else next ((d.setLoop p { d.loop p with expect := r }).when (b != x) (fun d => d.lb2Wrong p))

/-- The LINE packets of a generated line (R503). -/
def linePackets (num bytes fmt len act drop trigId : Nat) : List (List Nat) :=
  (List.range (cdiv bytes len)).map (fun i =>
    let off := i * len
    let n := min len (bytes - off)
    let lf := b2n (i == 0) + 2 * b2n (off + n == bytes) + 4 + 8
    withCrc (pktHdr 0x01 0 0 (52 + n) i ++ leBytes 4 num ++ leBytes 4 off ++ leBytes 4 bytes ++ leBytes 2 fmt ++
      [lf, drop] ++ leBytes 16 act ++ zeros 4 ++ leBytes 2 trigId ++ zeros 2 ++
      (List.range n).map (fun j => (num + off + j) % 256)))

/-- The line generator starts the line of a trigger: where the credit covers it, else a dropped line (R503, R129). -/
def Dev.camLine (d : Dev) (p : Nat) (t : Trig) : Dev :=
  let h := d.loop p
  let fmt := match d.rd LbF.LB_CFG_GEN_FMT 0 p with
    | 0 => 0x0001
    | 1 => 0x0003
    | _ => 0x0013
  let bytes := d.rd Port.LINE_BYTES p
  let id := (d.port p).trigCount % 2 ^ 16
  let d := d.setPort p { d.port p with trigCount := (d.port p).trigCount + 1 }
  let pkts := linePackets h.lineNum bytes fmt (d.rd LbF.LB_CFG_GEN_LEN 0 p) (tImg t.act) h.dropped id
  let units := (pkts.map (fun b => cdiv b.length 256)).sum
  if sInt 32 (d.rd Ingest.VID_LIMIT p + 2 ^ 32 - h.consumed % 2 ^ 32) < (units : Int) then
    d.setLoop p { h with lineNum := (h.lineNum + 1) % 2 ^ 32, dropped := min 255 (h.dropped + 1) }
  else
    let d := d.setLoop p { h with
      lineNum := (h.lineNum + 1) % 2 ^ 32, consumed := h.consumed + units, dropped := 0 }
    pkts.foldl (fun d b => (d.addWrap LbF.GEN_CNT 0 1 p).sendPkt p b) d

/-- Whether the line generator runs on a port (R503). -/
def Dev.lineGenOn (d : Dev) (p : Nat) : Bool :=
  (d.loopDepth p == 1 || d.loopDepth p == 2) && d.is LbF.LB_CFG_GEN_EN 0 p && d.is LbF.LB_CFG_GEN_KIND 0 p && d.linkUp p

/-- Lines whose ACT_TIME device time has reached start, in the order of their triggers; none of a generator that has been
switched off (R503). -/
def Dev.genDue (d : Dev) (p : Nat) : Dev :=
  let due := (d.loop p).gen.filter (fun t => decide (t.act ≤ d.nowL))
  let d := d.when (!due.isEmpty) (fun d =>
    d.setLoop p { d.loop p with gen := (d.loop p).gen.filter (fun t => decide (d.nowL < t.act)) })
  if d.lineGenOn p then due.foldl (fun d t => d.camLine p t) d else d

/-- The lines of every port. -/
def Dev.linesDue (d : Dev) : Dev := (d.loops.map (fun e => e.1)).foldl (fun d p => d.when (decide (p < 16)) (fun d => d.genDue p)) d

/-- A trigger the line generator takes: late ones are dropped, the others wait for their ACT_TIME (R503). -/
def Dev.genTrigger (d : Dev) (p : Nat) (t : Trig) : Dev :=
  if t.act < d.nowL then d.trigDrop p
  else (d.setLoop p { d.loop p with gen := (d.loop p).gen ++ [t] }).genDue p

/-! ## Triggers to the camera (R123, R143) -/

/-- Send the next queued trigger, or drop it: late, TIME_VALID 0, or far-end loopback. A full window holds it; one that the
trigger buffer has lost is abandoned (R151). -/
def Dev.trigSend (d : Dev) (p : Nat) : Dev :=
  let h := d.port p
  match h.trigs with
  | [] => d
  | t :: ts =>
    let u := d.useBuf 0x0A p Port.F_RB_SBE Port.F_RB_DBE
    let d := u.1
    let h := d.port p
    let pop := d.setPort p { h with trigs := ts }
    if u.2 then pop.incSat Port.CNT_E_TRIG_ABANDON_CNT p
    else if d.lineGenOn p && t.action == 1 then pop.genTrigger p t
    else if !d.is Port.STAT_TIME_VALID p || d.lbOn p || d.loopDepth p != 0 || d.trigLate p t.act then
      pop.trigDrop p
    else if !d.windowOpen p then d
    else
      let id := h.trigCount % 2 ^ 16
      let d := pop.setPort p { pop.port p with trigCount := h.trigCount + 1 }
      d.sendCtl p true t.act (fun sync seq => trigPkt sync seq id (tImg t.act) t.action t.out t.width t.expo)

def execTrigSend (port : Fin 16) (s : State) : Host.Outcome State Fault Refusal := s.upd (fun d => d.trigSend port)

/-! ## Retry (R133, R134) -/

/-- Retransmit one outstanding packet; a TRIG that would be late is abandoned. -/
def Dev.resend (d : Dev) (p : Nat) (c : CtlPkt) : Dev :=
  if c.isTrig && (d.trigLate p c.act || !d.is Port.STAT_TIME_VALID p) then d.trigDrop p
  else
    let d := d.setPort p { d.port p with out := (d.port p).out ++ [{ c with retries := c.retries + 1 }] }
    (d.incSat Port.CNT_C_RETRY_CNT p).sendPkt p c.bytes

/-- RETRY_TIME passes for the oldest outstanding packet. -/
def execRetryTimeout (port : Fin 16) (s : State) : Host.Outcome State Fault Refusal :=
  s.upd (fun d =>
    let h := d.port port
    match h.out with
    | [] => d
    | c :: _ =>
      let u := d.useBuf 0x0A port Port.F_RB_SBE Port.F_RB_DBE
      if !d.linkUp port || d.lbOn port then d
      else if u.2 then (u.1.ctlAbandon port false).mgmtPump port
      else let d := u.1
      if 7 ≤ c.retries then (d.ctlAbandon port true).mgmtPump port
      else (h.out.foldl (fun d c => d.resend port c) (d.setPort port { h with out := [] })).showOut port)

/-! ## Packets from the camera -/

/-- A packet lost to CRC or framing (R118). -/
def Dev.rxCrcErr (d : Dev) (p : Nat) : Dev :=
  (d.crcErr p).when (d.testRuns p) (fun d => d.testCheck p false)

/-- A packet of unknown type, wrong direction or bad length (R119). -/
def Dev.rxUnknown (d : Dev) (p : Nat) : Dev :=
  (d.incSat Port.CNT_D_UNKNOWN_CNT p).evt 0x0A p Port.E_UNKNOWN_PKT

/-- Whether the packet just charged lies beyond the credit granted (R130). -/
def Dev.overCredit (d : Dev) (p : Nat) : Bool :=
  d.enabled 0x0B p && decide (sInt 32 (d.rd Ingest.VID_LIMIT p + 2 ^ 32 - d.rd Ingest.RX_UNITS p) < 0)

/-- A LINE packet (R120, R130, R156); DROP_CNT counts once for each line (R150, R151). -/
def Dev.rxLine (d : Dev) (p : Nat) (bs : List Nat) : Dev :=
  if d.overCredit p then d.flt 0x0A p Port.F_CREDIT_VIOL
  else
    let h := d.port p
    let num := le bs 8 4
    let starts := h.lineStarts + bitOf (byteAt bs 22) 0
    let d := d.setPort p { h with lineStarts := starts, dropLine := some num }
    let drop := byteAt bs 23
    let d := d.when (drop != 0 && h.dropLine != some num) (fun d =>
      (d.addSat Port.CNT_A_CAM_DROP_CNT p drop).evt 0x0A p Port.E_CAM_DROP)
    d.ingLine p bs (d.is Port.STAT_TIME_SUSPECT p)

/-- A FRAME packet (R122). -/
def Dev.rxFrame (d : Dev) (p : Nat) (bs : List Nat) : Dev :=
  if d.overCredit p then d.flt 0x0A p Port.F_CREDIT_VIOL else d.ingFrame p bs (d.is Port.STAT_TIME_SUSPECT p)

/-- A CREDIT packet of the camera: its acknowledgement and CAM_LATE (R126, R133, R144). -/
def Dev.rxCredit (d : Dev) (p : Nat) (bs : List Nat) : Dev :=
  let h := d.port p
  let ack := byteAt bs 12
  let acked := (byteAt bs 13).testBit 0 && h.out.any (fun c => c.seq == ack)
  let out := if acked then (h.out.dropWhile (fun c => c.seq != ack)).drop 1 else h.out
  let late := (byteAt bs 14 + 256 - h.camLate) % 256
  let d := d.setPort p { h with out := out, camLate := byteAt bs 14 }
  let d := d.when (late != 0) (fun d =>
    (d.addSat Port.CNT_B_CAM_TRIG_LATE_CNT p late).evt 0x0A p Port.E_CAM_TRIG_LATE)
  (d.showOut p).mgmtPump p

/-- Accept an exchange (R139): D_GOOD, the next correction, TIME_VALID. -/
def Dev.exchAccept (d : Dev) (p : Nat) (dl th : Int) : Dev :=
  let d := d.wrI Port.D_GOOD p dl
  let big := decide ((1000000 * nsL : Nat) < th.natAbs)
  let h := d.port p
  let corr := if big then dl + d.asym p else if h.stepDue then h.corr + th else th
  let d := d.setPort p { h with dGoodValid := true, corr := corr, corrSet := big }
  let d := d.when (!big && (d.port p).staleOnly) (fun d =>
    (d.wr Port.STAT_TIME_SUSPECT p 0).setPort p { d.port p with staleOnly := false })
  d.when (decide (th.natAbs ≤ nsL) && !d.is Port.STAT_TIME_VALID p) (fun d =>
    (d.wr Port.STAT_TIME_VALID p 1).evt 0x0A p Port.E_TIME_VALID)

/-- A TIME response: D and θ, then the decision of R139. -/
def Dev.rxTime (d : Dev) (p : Nat) (bs : List Nat) : Dev :=
  let h := d.port p
  match h.exch with
  | none => d
  | some x =>
    if le bs 6 2 ≠ x.xid then d
    else
      let t1 : Int := tLin x.t1
      let t2 : Int := tLin (le bs 28 12)
      let t3 : Int := tLin (le bs 44 12)
      let t4 : Int := d.nowL
      let turn := t3 - t2
      let dl := (t4 - t1 - turn) / 2
      let th := ((t2 - t1) - (t4 - t3)) / 2 - d.asym p
      if le bs 12 12 ≠ x.t1 ∨ le bs 60 8 ≠ x.corr ∨ turn < 0 ∨ (50000 * nsL : Nat) < turn ∨ dl < 0 ∨
          (100000 * nsL : Nat) < t4 - t1 then d.exchLost p
      else
        let d := d.setPort p { h with exch := none, invalidRun := 0, validSinceEn := true }
        let d := (d.wrI Port.PATH_DELAY p dl).wrI Port.OFFSET p th
        if !h.dGoodValid then d.exchAccept p dl th
        else if h.pdLimit < (dl - d.rd Port.D_GOOD p).natAbs then
          let d := (d.wr Port.STAT_PD_STEP_PENDING p 1).wr Port.STAT_TIME_SUSPECT p 1
          (d.setPort p { d.port p with staleOnly := false }).evt 0x0A p Port.E_PD_STEP
        else if d.is Port.STAT_PD_STEP_PENDING p then d
        else d.exchAccept p dl th

/-- Take in a camera's control packet by its SEQ (R132, R133): whether it is accepted. -/
def Dev.rxSeq (d : Dev) (p : Nat) (bs : List Nat) : Dev × Bool :=
  let h := d.port p
  let seq := byteAt bs 2
  if (byteAt bs 1).testBit 0 || seq == h.rxSeq then
    ((d.setPort p { h with rxSeq := (seq + 1) % 256, lastAck := some seq }).sendCredit p, true)
  else ((d.incSat Port.CNT_C_OOS_CNT p).sendCredit p, false)

/-- Leave the loop: the device asks the camera, once the transmit window has room (R131, R149 step 4). -/
def Dev.lb2Leave (d : Dev) (p : Nat) : Dev :=
  let h := d.port p
  if h.lb = .active then (d.setPort p { h with lb := .leaving }).mgmtPump p else d

/-- The far-end loop starts or ends at a LOOPBACK response; with MODE written 0 meanwhile it is left at once (R149). The response
that ends it is acknowledged behind it (R133). -/
def Dev.rxLoopback (d : Dev) (p status : Nat) (enter : Bool) : Dev :=
  if enter then
    if status = 0 then
      let d := d.setPort p { d.port p with lb := .active }
      let d := (d.wr Port.LB_CTRL_ACTIVE p 1).wr Port.STAT_LB_ACTIVE p 1
      let d := (d.setLoop p { d.loop p with txPrbs := Config.prbsSeed % 2 ^ 31, expect := [] }).testSend p 8192
      d.when (d.rd Port.LB_CTRL_MODE p == 0) (fun d => d.lb2Leave p)
    else (d.lb2End p (if status = 5 then 1 else 2) false).mgmtPump p
  else (d.lb2End p (if d.rd Port.CNT_E_LB_ERR_CNT p = 0 then 0 else 3) true).sendCredit p

/-- A MGMT response completes the outstanding request (R145, R146, R149). -/
def Dev.rxMgmt (d : Dev) (p : Nat) (bs : List Nat) : Dev :=
  let r := d.rxSeq p bs
  let d := r.1
  let h := d.port p
  if !r.2 then d
  else match h.mgmt with
    | none => d
    | some m =>
      if le bs 6 2 ≠ m.tag ∨ byteAt bs 8 ≠ m.op + 128 then d
      else
        let status := byteAt bs 9
        let data := (bs.drop 16).take (bs.length - 20)
        let d := d.setPort p { h with mgmt := none }
        match m.user with
        | .software =>
          let d := if status = 0 ∧ m.op ≠ 2 then
              (List.range (data.length / 4)).foldl (fun d i => d.wr Port.MGMT_DATA p (le data (4 * i) 4) i) d
            else d
          (d.mgmtDone p (status % 16)).mgmtPump p
        | .identity =>
          let chunk := if status = 0 ∧ data.length = 256 then data else zeros 256
          let n := (h.idRead.getD 0) + 1
          (d.setPort p { d.port p with idBuf := h.idBuf ++ chunk, idRead := some n }).mgmtPump p
        | .loopEnter => d.rxLoopback p status true
        | .loopExit => (d.rxLoopback p status false).mgmtPump p

/-- A TEST packet (R127, R149, R503); those of the far-end loop are compared block by block. -/
def Dev.rxTest (d : Dev) (p : Nat) (bs : List Nat) : Dev :=
  if d.lbOn p then d
  else if d.testRuns p then d.testCheck p (bs == (d.loop p).lastTest)
  else d.rxUnknown p

/-- A packet behind the injector (R118, R119); LB3 passes none on, and its counters keep counting (R504). -/
def Dev.rxPacket (d : Dev) (p : Nat) (bs : List Nat) : Dev :=
  if !pktGood bs then d.rxCrcErr p
  else if (d.port p).lb == .active && byteAt bs 0 != 0x0F then d
  else if d.loopDepth p == 3 && (byteAt bs 0 == 0x0F || pktKnown bs) then d
  else if !pktKnown bs then d.rxUnknown p
  else match byteAt bs 0 with
    | 0x01 => d.rxLine p bs
    | 0x02 => d.rxFrame p bs
    | 0x04 => d.rxTime p bs
    | 0x05 => d.rxMgmt p bs
    | 0x06 => d.rxCredit p bs
    | _ => d.rxTest p bs

/-! ## Blocks from the camera (R103–R106, R113, R149, R501) -/

/-- A packet begins. A LINE or FRAME packet is charged at its START block, whatever the checks and the injector make of it
(R160, R512). -/
def Dev.rxStart (d : Dev) (p : Nat) (bs : List Nat) : Dev :=
  let t := byteAt bs 0
  (d.setPort p { d.port p with rx := some bs }).when (t == 1 || t == 2) (fun d => d.ingCharge p (le bs 4 2))

/-- A packet is complete: its reservation is returned, and it passes the injector (R160, R512). -/
def Dev.rxEnd (d : Dev) (p : Nat) (bs : List Nat) : Dev :=
  let d := (d.setPort p { d.port p with rx := none }).rxReturn p bs
  let r := d.inject p 0 (byteAt bs 0) bs
  r.2.foldl (fun d b => d.rxPacket p b) r.1

/-- A framing error inside a packet drops it (R105). -/
def Dev.rxFraming (d : Dev) (p : Nat) : Dev := (d.rxCut p).rxCrcErr p

/-- A block of the port stream, framed by R105 and R106. -/
def Dev.portStream (d : Dev) (p : Nat) (b : Nat × Nat) : Dev :=
  let bs := blockBytes b.2
  let typ := byteAt bs 0
  let start := b.1 == 2 && typ == 0x78
  match (d.port p).rx with
  | none => d.when start (fun d => d.rxStart p (bs.drop 1))
  | some pk =>
    if b.1 = 1 then d.setPort p { d.port p with rx := some (pk ++ bs) }
    else if b.1 = 2 ∧ 0xE0 ≤ typ ∧ typ ≤ 0xE7 then d.rxEnd p (pk ++ (bs.drop 1).take (typ - 0xE0))
    else (d.rxFraming p).when start (fun d => d.rxStart p (bs.drop 1))

/-- The lane on which logical lane i of a port comes in (R88). -/
def Dev.inLane (d : Dev) (p i : Nat) : Nat := ((d.carrier p i).or (d.knownCarrier p i)).getD (4 * p + i)

/-- LB3 returns a block on its logical lane, scrambled anew (R501). -/
def Dev.lb3Return (d : Dev) (p i : Nat) (b : Nat × Nat) : Dev :=
  if d.txDriven p i then
    let r := d.laneSend (4 * p + i) b
    r.1.emit (.block r.2.1 r.2.2.1 r.2.2.2)
  else d

/-- A block on logical lane i of a port that is up: header, polarity, descrambler, then the loops and the stream. A lane without
header lock gives no valid block. -/
def Dev.portBlock (d : Dev) (p : Nat) (x : Nat × Nat × Nat) : Dev :=
  let l := d.inLane p x.1
  let raw := d.rxBall l (x.2.1 % 4, x.2.2 % 2 ^ 64)
  let d := d.when (d.enabled 0x08 l) (fun d => d.header l raw.1)
  let r := d.laneTake l raw
  let b : Nat × Nat := if d.is Lane.STAT_HDR_LOCK l then r.2 else (0, r.2.2)
  let d := r.1
  if !d.linkUp p then d
  else
    let d := d.when (d.loopDepth p == 3) (fun d => d.lb3Return p x.1 b)
    (d.lb2Block p b).portStream p b

/-- The slots of a packet arrive at a port that is up: one block for each lane of ACTIVE_MASK, ascending (R113). -/
def Dev.portRx (d : Dev) (p : Nat) (slots : List LaneSlot) : Dev :=
  if !d.enabled 0x0A p || !d.linkUp p then d
  else
    let act := d.activeLanes p
    ((slots.map (fun row => act.zip row)).flatten.foldl (fun d x => d.portBlock p x) d).portEval p

def execLinePacket (port : Fin 16) (slots : List LaneSlot) (s : State) : Host.Outcome State Fault Refusal :=
  s.upd (fun d => d.portRx port slots)

def execFramePacket (port : Fin 16) (slots : List LaneSlot) (s : State) : Host.Outcome State Fault Refusal :=
  s.upd (fun d => d.portRx port slots)

def execTestPacket (port : Fin 16) (slots : List LaneSlot) (s : State) : Host.Outcome State Fault Refusal :=
  s.upd (fun d => d.portRx port slots)

def execCreditPacket (port : Fin 16) (slots : List LaneSlot) (s : State) : Host.Outcome State Fault Refusal :=
  s.upd (fun d => d.portRx port slots)

def execTimeResp (port : Fin 16) (slots : List LaneSlot) (s : State) : Host.Outcome State Fault Refusal :=
  s.upd (fun d => d.portRx port slots)

def execMgmtResponse (port : Fin 16) (slots : List LaneSlot) (s : State) : Host.Outcome State Fault Refusal :=
  s.upd (fun d => d.portRx port slots)

def execCreditSend (port : Fin 16) (s : State) : Host.Outcome State Fault Refusal :=
  s.upd (fun d => d.sendCredit port)

/-! ## TIME (R137–R140) -/

def execTimeReq (port : Fin 16) (s : State) : Host.Outcome State Fault Refusal :=
  s.upd (fun d => d.timeReq port)

def execTimeNow (req : Req) (port : Fin 16) (s : State) : Host.Outcome State Fault Refusal :=
  s.upd (fun d => d.busW req.num 0x0A port (fun d => d.timeReq port))

/-- No valid response within 100 µs of T1 (R139); the count is suspended during far-end loopback (R149). -/
def execTimeRespTimeout (port : Fin 16) (s : State) : Host.Outcome State Fault Refusal :=
  s.upd (fun d => d.when ((d.port port).exch.isSome && !d.lbOn port) (fun d => d.exchLost port))

/-- TIME_ACK (R139). -/
def Dev.cmdTimeAck (d : Dev) (p : Nat) : Dev :=
  let d := d.wr Port.D_GOOD p (d.rd Port.PATH_DELAY p)
  let d := (d.wr Port.STAT_PD_STEP_PENDING p 0).wr Port.STAT_TIME_SUSPECT p 0
  d.setPort p { d.port p with staleOnly := false }

def execTimeAck (req : Req) (port : Fin 16) (s : State) : Host.Outcome State Fault Refusal :=
  s.upd (fun d => d.busW req.num 0x0A port (fun d => d.cmdTimeAck port))

/-! ## MGMT (R145, R150) -/

/-- A write of MGMT_CMD with OP. -/
def Dev.cmdMgmt (d : Dev) (p op count : Nat) : Dev :=
  if d.is Port.MGMT_CMD_BUSY p ∨ count < 4 ∨ 256 < count ∨ count % 4 ≠ 0 then d.badAccess 0x0A p
  else
    let d := (d.wr Port.MGMT_CMD_COUNT p count).wr Port.MGMT_CMD_BUSY p 1
    let d := (d.wr Port.MGMT_CMD_STATUS p 0).wr Port.STAT_MGMT_BUSY p 1
    let m : Mgmt := ⟨.software, op, 0, count, d.rd Port.MGMT_ADDR_ADDR p⟩
    (d.setPort p { d.port p with swMgmt := some m }).mgmtPump p

def execMgmtRead (req : Req) (port : Fin 16) (count : Nat) (s : State) : Host.Outcome State Fault Refusal :=
  s.upd (fun d => d.busW req.num 0x0A port (fun d => d.cmdMgmt port 1 count))

def execMgmtWrite (req : Req) (port : Fin 16) (count : Nat) (s : State) : Host.Outcome State Fault Refusal :=
  s.upd (fun d => d.busW req.num 0x0A port (fun d => d.cmdMgmt port 2 count))

def execMgmtIdRead (req : Req) (port : Fin 16) (count : Nat) (s : State) : Host.Outcome State Fault Refusal :=
  s.upd (fun d => d.busW req.num 0x0A port (fun d => d.cmdMgmt port 3 count))

/-- No MGMT response within 5 ms (R145). -/
def execMgmtTimeout (port : Fin 16) (s : State) : Host.Outcome State Fault Refusal :=
  s.upd (fun d =>
    let h := d.port port
    match h.mgmt with
    | none => d
    | some m => match m.user with
      | .software => ((d.setPort port { h with mgmt := none }).mgmtDone port 8).mgmtPump port
      | .identity => d.setPort port { h with mgmt := none, idBuf := zeros 4096, idRead := some 16 }
      | _ => d)

/-- The identity record is read: checked, shown, posted (R146). -/
def execIdDone (port : Fin 16) (s : State) : Host.Outcome State Fault Refusal :=
  s.upd (fun d =>
    let p := port.val
    let h := d.port p
    if h.idRead ≠ some 16 then d
    else
      let bs := h.idBuf
      let ok := recordGood 4096 bs
      let lanes := if d.rd Port.LG_CFG_EXPECT_MASK p = 0xF then 4 else 2
      let rateBad := ok && !(byteAt bs 68).testBit (d.rd Port.LG_CFG_RATE p)
      let lanesBad := ok && byteAt bs 69 != lanes
      let d := (d.wrb Port.ID_STAT_ID_VALID p ok).wrb Port.ID_STAT_ID_BAD p (!ok)
      let d := (d.wrb Port.ID_STAT_RATE_UNSUP p rateBad).wrb Port.ID_STAT_LANES_MISMATCH p lanesBad
      let d := d.mdPost p 1 ok (rateBad || lanesBad) (mdCamera bs)
      let changed := match h.idPrev with
        | some r => ok && r != recordIdent bs
        | none => false
      let d := d.setPort p { h with
        idRead := none, idBuf := []
        idPrev := if ok then some (recordIdent bs) else h.idPrev
        lb2Ok := ok && (byteAt bs 71).testBit 1 }
      let d := d.evt 0x0A p Port.E_ID_DONE
      (d.when changed (fun d => d.evt 0x0A p Port.E_ID_CHANGE)).mgmtPump p)

/-! ## Far-end loopback (R149, R502) -/

/-- A write of LB_CTRL.MODE = 0b01 with DURATION: refused while the camera is known not to have the loop, or while a
device-side depth is set. The request waits while another MGMT request is outstanding (R145). -/
def Dev.cmdLb2Enter (d : Dev) (p duration : Nat) : Dev :=
  let h := d.port p
  if (d.is Port.ID_STAT_ID_VALID p && !h.lb2Ok) || d.rd LbF.LB_CFG_DEPTH 0 p != 0 then d.badAccess 0x0A p
  else
    let d := (d.wr Port.LB_CTRL_MODE p 1).wr Port.LB_CTRL_DURATION p duration
    if h.lb ≠ .off ∨ !d.linkUp p then d
    else ((d.wr Port.LB_CTRL_LB_STATUS p 0).setPort p { h with lb := .entering }).mgmtPump p

def execLb2Enter (req : Req) (port : Fin 16) (duration : Nat) (s : State) : Host.Outcome State Fault Refusal :=
  s.upd (fun d => d.busW req.num 0x0A port (fun d => d.cmdLb2Enter port duration))

/-- Whether the outstanding MGMT request is the one that enters the far-end loop. -/
def PortH.loopAsked (h : PortH) : Bool :=
  match h.mgmt with
  | some m => m.user == .loopEnter
  | none => false

/-- A write of LB_CTRL.MODE = 0: a loop not yet asked for is dropped; one asked for is left once the camera has answered. -/
def Dev.cmdLb2Exit (d : Dev) (p : Nat) : Dev :=
  let d := d.wr Port.LB_CTRL_MODE p 0
  let h := d.port p
  if h.lb = .entering ∧ !h.loopAsked then (d.setPort p { h with lb := .off }).mgmtPump p else d.lb2Leave p

def execLb2Exit (req : Req) (port : Fin 16) (s : State) : Host.Outcome State Fault Refusal :=
  s.upd (fun d => d.busW req.num 0x0A port (fun d => d.cmdLb2Exit port))

/-- DURATION elapses (R149). -/
def execLb2Duration (port : Fin 16) (s : State) : Host.Outcome State Fault Refusal :=
  s.upd (fun d => d.lb2Leave port)

/-- No response at step 2 or within 10 ms of step 4: LB_STATUS reads 2 (R149). -/
def execLb2ResponseTimeout (port : Fin 16) (s : State) : Host.Outcome State Fault Refusal :=
  s.upd (fun d =>
    let h := d.port port
    match h.lb with
    | .entering => d.when h.loopAsked (fun d =>
        ((d.setPort port { h with mgmt := none }).lb2End port 2 false).mgmtPump port)
    | .leaving => ((d.setPort port { h with mgmt := none }).lb2End port 2 true).mgmtPump port
    | _ => d)

/-- The injector's held packet goes on: into the receive path, or out (R513). -/
def Dev.flbRelease (d : Dev) (p : Nat) : Dev :=
  let r := d.injRelease p
  match r.2 with
  | some (0, bs) => r.1.when (r.1.linkUp p) (fun d => d.rxPacket p bs)
  | some (_, bs) => r.1.pcsSend p bs
  | none => r.1

/-! ## Device-side loops (R501, R502) -/

/-- A loop depth takes effect: the port goes down and comes up by blind bring-up. Where the looped data take the place of the
camera's, or the camera's theirs, the lanes lock anew. -/
def Dev.loopSet (d : Dev) (p depth : Nat) : Dev :=
  let old := d.loopDepth p
  if old = depth then d
  else
    let d := d.portDown p
    let d := if old = 1 ∨ old = 2 ∨ depth = 1 ∨ depth = 2 then
        (portLanes p).foldl (fun d l => d.when (d.is Lane.STAT_HDR_LOCK l) (fun d => d.hdrLost l)) d
      else d
    let d := d.setLoop p { d.loop p with depth := depth, lineNum := 0, consumed := 0, dropped := 0, gen := [] }
    let d := d.setPort p { d.port p with firstLock := none }
    (d.sendBurst p).portEval p

end Sys2Proof.Machine
end

