-- ==== Sys2Proof/Machine/Intake.lean ====
section
/-!
DEFINITION. Loads of intake queues (R309–R312): segment descriptors (R313–R315), reference tiles (R317–R319, R322), Primer
profiles (R323–R325), Column Map loads (R394), compare-list loads (R427). Each command processes the next record of the
oldest load of a queue; a record that waits stays where it is.
The log's entries 17 and 52 of notes/assumptions name what is DEDUCED or a DESIGN CHOICE here, and marks each.
-/

namespace Sys2Proof.Machine

/-! ## The load at work (R310, R425, R426) -/

/-- The oldest load of a queue where it has a kind and n more of its bytes have been read. -/
def Dev.headLoad (d : Dev) (q kind n : Nat) : Option IDesc :=
  match (d.iqh q).descs with
  | x :: _ =>
    if d.iqRuns q && x.taken && d.descStatus q x == 0 && x.kind == kind && decide (min x.len (x.consumed + n) ≤ x.fetched)
    then some x else none
  | [] => none

/-- The partition of a load. -/
def Dev.loadPart (d : Dev) (q : Nat) : Nat := d.resPart Claims.ACT_IQ_GROUPS (q / 8)

/-- A record of n bytes is accepted; the load ends with its last one. -/
def Dev.recordTaken (d : Dev) (q n count status : Nat) : Dev :=
  match (d.iqh q).descs with
  | x :: rest =>
    let x := { x with consumed := x.consumed + n, accepted := x.accepted + count }
    let d := d.setIqh q { d.iqh q with descs := x :: rest, waiting := 0 }
    if x.len ≤ x.consumed then (d.iqBack q x status).iqGo q else d
  | [] => d

/-- The load ends with a status. -/
def Dev.loadFails (d : Dev) (q status : Nat) : Dev :=
  match (d.iqh q).descs with
  | x :: _ => ((d.setIqh q { d.iqh q with waiting := 0 }).iqBack q x status).iqGo q
  | [] => d

/-- Reference intake refuses a record (R311). -/
def Dev.riRefuse (d : Dev) (q status : Nat) : Dev :=
  let d := d.incSat Ri.RI_CNT_A_REFUSED_CNT 0
  let d := (d.wr Ri.LAST_REFUSE_STATUS 0 status).wr Ri.LAST_REFUSE_QUEUE 0 q
  (d.evt 0x0E 0 Ri.E_REFUSED).loadFails q status

/-- The record waits; a new wait is counted and raised once. -/
def Dev.recordWaits (d : Dev) (q why : Nat) (cnt : Fld) (ev : Nat) : Dev :=
  if (d.iqh q).waiting = why then d
  else ((d.setIqh q { d.iqh q with waiting := why }).incSat cnt 0).evt 0x0E 0 ev

/-- The staging buffer of reference intake, and whether it is enabled (R311, R335): a status, or 0. -/
def Dev.riStage (d : Dev) : Dev × Nat :=
  if !d.enabled 0x0E 0 then (d, 0x10)
  else
    let u := d.useBuf 0x0E 0 Ri.F_BUF_SBE Ri.F_BUF_DBE
    (u.1, if u.2 then 0x11 else 0)

/-- All bytes of a range are 0. -/
def blank (bs : List Nat) (o n : Nat) : Bool := ((bs.drop o).take n).all (fun b => b % 256 == 0)

/-! ## Segment descriptors (R313–R315, R377) -/

/-- Every field of a descriptor lies in its range. -/
def segFields (r : List Nat) : Bool :=
  let t := le r 40 4
  byteAt r 0 == 0x50 && (byteAt r 1).testBit 0 && decide (byteAt r 1 < 8) && decide (byteAt r 2 < 16) &&
    (t == 0 || (decide (1000 ≤ t) && decide (t ≤ 4000000))) &&
    decide (1 ≤ le r 44 4) && decide (le r 44 4 ≤ 131072) && decide (1 ≤ le r 48 4) && decide (le r 48 4 ≤ 131072) &&
    decide (1 ≤ byteAt r 52) && decide (byteAt r 52 ≤ 8) && (byteAt r 53 == 1 || byteAt r 53 == 2 || byteAt r 53 == 4) &&
    decide (byteAt r 54 < 64) && decide (byteAt r 55 < 16) && blank r 62 2 && blank r 88 40

/-- The status R314 gives a descriptor; 0 where it is accepted. -/
def Dev.segStatus (m : FrameStore) (d : Dev) (q : Nat) (r : List Nat) : Nat :=
  let p := byteAt r 2
  let part := d.loadPart q
  let prof := byteAt r 54
  let head := (m.clean (d.profByte prof) 64).toArray
  let doms := ((List.range 4).map (profDom head)).filter (fun x => x != 0xFF)
  if !segFields r then 0x11
  else if d.resPart Claims.ACT_PORTS p ≠ part ∨ d.resPart Claims.ACT_ENCODERS (byteAt r 3 % 8) ≠ part ∨ (d.areaOf p).isNone then
    0x12
  else if !scaleOk (descTerms r) then 0x13
  else if !d.profValid prof ∨ prof / 16 ≠ part then 0x14
  else if profChan head ≠ d.lcuChan p ∨ !doms.all (fun x => decide (x < byteAt r 52)) then 0x1A
  else match (d.track p).lastNum with
    | some n =>
      let far := pdiff (le r 4 4) n
      if far = 0 ∨ 2 ^ 31 < far then 0x15 else 0
    | none => 0

/-- A descriptor becomes a DECLARED segment (R315, R375). -/
def Dev.segDeclare (d : Dev) (r : List Nat) : Dev :=
  let p := byteAt r 2
  let ch := byteAt r 3 % 8
  let ep := byteAt r 3 / 16
  let timed := (byteAt r 1).testBit 2
  let bring := fun o => d.inEpoch ch (sInt 64 (le r o 8)) ep (d.posEpoch ch)
  let s : Seg := { (default : Seg) with
    num := le r 4 4, prev := (d.track p).lastNum, desc := r, st := .declared, s := bring 16, e := bring 24, fixed := !timed }
  let d := d.setTrack p { d.track p with segs := (d.track p).segs ++ [s], lastNum := some s.num }
  let d := d.showSegs p
  if s.fixed && d.segReached s s.e then d.segEnd p s.num else d

/-- SEG_DESCRIPTOR: the next descriptor of the oldest load. -/
def Dev.takeSeg (m : FrameStore) (d : Dev) (q : Nat) (record : List Nat) : Dev :=
  let r := record.take 128
  match d.headLoad q 0x50 128 with
  | none => d
  | some x =>
    let g := d.riStage
    let d := g.1
    if g.2 ≠ 0 then d.riRefuse q g.2
    else if x.len < x.consumed + 128 then d.loadFails q 0x24
    else
      let st := d.segStatus m q r
      if st ≠ 0 then d.riRefuse q st
      else if 64 ≤ ((d.track (byteAt r 2)).segs.filter (fun s => s.st.holds)).length then
        d.recordWaits q 1 Ri.RI_CNT_A_SEG_WAIT_CNT Ri.E_SEG_WAIT
      else (d.segDeclare r).recordTaken q 128 1 0

def execSegDescriptor (queue : Fin 64) (record : List Nat) (s : State) : Host.Outcome State Fault Refusal :=
  s.updR (fun m d => d.takeSeg m queue record)

/-! ## Reference tiles (R317–R319, R322) -/

/-- Header fields of a tile record. -/
def tileMask (r : List Nat) : Nat := le r 2 2
def tileNum (r : List Nat) : Nat := le r 8 4
def tileCol (r : List Nat) : Nat := le r 12 2
def tileRowN (r : List Nat) : Nat := le r 14 2

/-- The live segment of a port with a number. -/
def Dev.liveSeg (d : Dev) (p num : Nat) : Option Seg := (d.track p).segs.find? (fun s => s.num == num && s.st.holds)

/-- Fields outside their range. -/
def tileFields (r : List Nat) : Bool :=
  byteAt r 0 == 0x51 && byteAt r 1 == 1 && (List.range 8).all (fun k => byteAt r (19 + 4 * k) % 128 == 0) && blank r 48 16

/-- The planes agree with a segment's raster (R317). -/
def planesOk (s : Seg) (r : List Nat) : Bool :=
  (List.range 8).all (fun k =>
    if k < s.nInk then planeThoken r k || planeBytes r k == 8192 * s.bpp
    else le r (16 + 4 * k) 4 == 0) &&
  le r 4 4 == (List.range s.nInk).foldl (fun n k => n + planePad r k) 0

/-- The status of a tile record; 0 where it is accepted or has to wait for space. -/
def Dev.tileStatus (d : Dev) (q : Nat) (r : List Nat) : Nat :=
  let ports := maskPorts (tileMask r)
  let num := tileNum r
  let areas := (ports.map (fun p => d.areaOf p)).eraseDups
  if !tileFields r then 0x11
  else if ports.any (fun p => d.resPart Claims.ACT_PORTS p != d.loadPart q) then 0x12
  else match areas with
    | [some a] =>
      if ports.any (fun p => (d.liveSeg p num).isNone && !(d.track p).ended.contains num) then 0x16
      else if ports.any (fun p => (d.liveSeg p num).isNone) then 0x17
      else
        let segs := ports.filterMap (fun p => d.liveSeg p num)
        match segs with
        | [] => 0x16
        | s :: _ =>
          let agree := segs.all (fun t => t.refWidth == s.refWidth && t.refLines == s.refLines && t.nInk == s.nInk && t.bpp == s.bpp)
          let x := d.area a
          let next := match x.loading with
            | some (n, mask) => n == num && mask == tileMask r && tileCol r == d.rd Ri.RA_STAT_NEXT_COL 0 a &&
                tileRowN r == d.rd Ri.RA_STAT_NEXT_ROW 0 a
            | none => tileCol r == 0 && tileRowN r == 0 && !x.tiles.any (fun t => t.seg == num && t.mask &&& tileMask r != 0)
          if !agree || !next || decide (cdiv s.refWidth 256 ≤ tileCol r) || decide (cdiv s.refLines 256 ≤ tileRowN r) ||
              !planesOk s r then 0x18
          else if (List.range s.nInk).any (fun k => planeThoken r k && (thoken s.bpp (planeData r k)).isNone) then 0x19
          else 0
    | _ => 0x12

/-- A tile enters its area's ring, and the area expects the next one (R318, R319). -/
def Dev.tileEnter (d : Dev) (a : Nat) (s : Seg) (r : List Nat) (size : Nat) : Dev :=
  let x := d.area a
  let n := 64 + le r 4 4
  let body := (r ++ zeros n).take n
  let d := match d.ringSpans a x.head n with
    | [u, v] => (d.memWrite u.1 (body.take u.2)).memWrite v.1 (body.drop u.2)
    | u :: _ => d.memWrite u.1 body
    | [] => d
  let cols := cdiv s.refWidth 256
  let col := if tileCol r + 1 < cols then tileCol r + 1 else 0
  let row := if col = 0 then tileRowN r + 1 else tileRowN r
  let last := decide (cdiv s.refLines 256 ≤ row)
  let tile : RefTile := ⟨tileNum r, tileMask r, tileCol r, tileRowN r, x.head, size⟩
  let d := d.setArea a { x with
    tiles := x.tiles ++ [tile], loading := if last then none else some (tileNum r, tileMask r)
    head := (x.head + size) % max 1 (d.areaBytes a) }
  let d := (d.wr Ri.RA_STAT_NEXT_COL 0 col a).wr Ri.RA_STAT_NEXT_ROW 0 (if last then 0 else row) a
  (d.showArea a).addWrap Ri.TILES_IN 0 1

/-- A tile that does not fit an empty ring: its segment ends UNINSPECTED on each port (R319). -/
def Dev.tileNoSpace (m : FrameStore) (d : Dev) (q : Nat) (r : List Nat) : Dev :=
  (maskPorts (tileMask r)).foldl (fun d p => d.cutSeg m p (tileNum r) 0x0A) (d.riRefuse q 0x1C)

/-- REF_TILE: the next tile record of the oldest load. -/
def Dev.takeTile (m : FrameStore) (d : Dev) (q : Nat) (r : List Nat) : Dev :=
  let n := 64 + le r 4 4
  match d.headLoad q 0x51 n with
  | none => d
  | some x =>
    let g := d.riStage
    let d := g.1
    if g.2 ≠ 0 then d.riRefuse q g.2
    else if x.len < x.consumed + n then d.loadFails q 0x24
    else
      let st := d.tileStatus q r
      let d := d.when (st == 0x19) (fun d => (d.incSat Ri.RI_CNT_B_THOKEN_ERR_CNT 0).evt 0x0E 0 Ri.E_THOKEN_ERR)
      if st ≠ 0 then d.riRefuse q st
      else match (maskPorts (tileMask r)).head? with
        | none => d
        | some p => match d.areaOf p, d.liveSeg p (tileNum r) with
          | some a, some s =>
            let size := cdiv n 256 * 256
            if (d.area a).used + size ≤ d.areaBytes a then (d.tileEnter a s r size).recordTaken q n 1 0
            else if (d.area a).tiles.all (fun t => t.seg == tileNum r && t.mask == tileMask r) then d.tileNoSpace m q r
            else d.recordWaits q 2 Ri.RI_CNT_B_SPACE_WAIT_CNT Ri.E_SPACE_WAIT
          | _, _ => d

def execRefTile (queue : Fin 64) (record : List Nat) (s : State) : Host.Outcome State Fault Refusal :=
  s.updR (fun m d => d.takeTile m queue record)

/-! ## Profiles (R323–R325) -/

/-- Reserved fields and ranges of a profile load. -/
def profFields (r : List Nat) : Bool :=
  let valid := (byteAt r 1).testBit 0
  byteAt r 0 == 0x52 && decide (byteAt r 1 < 2) && decide (byteAt r 2 < 64) && blank r 12 52 &&
    le r 4 4 == (if valid then 26888 else 0) &&
    (!valid || ((List.range 4).all (fun a => decide (byteAt r (8 + a) < 8) || byteAt r (8 + a) == 0xFF) &&
      (List.range 8).all (fun k => blank r (64 + 80 * k + 74) 6) &&
      (List.range 6561).all (fun n => decide (byteAt r (704 + 4 * n + 3) < 64)) && blank r 26948 4))

/-- The status of a profile load. -/
def Dev.profStatus (d : Dev) (q : Nat) (r : List Nat) : Nat :=
  if !profFields r then 0x11
  else if byteAt r 2 / 16 ≠ d.loadPart q then 0x14
  else if (byteAt r 1).testBit 0 ∧ !profOk r.toArray then 0x1A
  else if (d.rd Ri.PROF_BUSY 0).testBit (byteAt r 2) then 0x1B
  else 0

/-- A profile is loaded anew or taken away: no engine holds it as it now stands (R326). -/
def Dev.profDrop (d : Dev) (no : Nat) : Dev :=
  (List.range 17).foldl (fun d e =>
    d.when ((d.ce e).prof.any (fun x => x.1 == no)) (fun d => d.setCe e { d.ce e with prof := none })) d

/-- PROFILE: a whole profile load. -/
def Dev.takeProfile (d : Dev) (q : Nat) (r : List Nat) : Dev :=
  let n := 64 + le r 4 4
  match d.headLoad q 0x52 n with
  | none => d
  | some x =>
    let g := d.riStage
    let d := g.1
    if g.2 ≠ 0 then d.riRefuse q g.2
    else if x.len ≠ n then d.loadFails q 0x24
    else
      let st := d.profStatus q r
      let no := byteAt r 2
      let old := d.rd Ri.PROF_VALID 0
      if st ≠ 0 then d.riRefuse q st
      else if (byteAt r 1).testBit 0 then
        let d := ((d.profDrop no).memWrite (d.profByte no) (r.take profBytes)).wr Ri.PROF_VALID 0 (old ||| 2 ^ no)
        (d.evt 0x0E 0 Ri.E_PROFILE_LOADED).recordTaken q n 1 0
      else ((d.profDrop no).wr Ri.PROF_VALID 0 (old &&& (2 ^ 64 - 1 - 2 ^ no))).recordTaken q n 1 0

def execProfile (queue : Fin 64) (record : List Nat) (s : State) : Host.Outcome State Fault Refusal :=
  s.updR (fun _ d => d.takeProfile queue record)

/-! ## Column Map loads (R394) -/

/-- COLMAP: a whole Column Map load. -/
def Dev.takeColmap (d : Dev) (q : Nat) (r : List Nat) : Dev :=
  let count := le r 12 4
  let first := le r 8 4
  let n := 16 + le r 4 4
  match d.headLoad q 0x53 n with
  | none => d
  | some x =>
    let g := d.riStage
    let d := g.1
    if g.2 ≠ 0 then d.riRefuse q g.2
    else if byteAt r 0 ≠ 0x53 ∨ byteAt r 1 ≠ 1 ∨ 16 ≤ byteAt r 2 ∨ byteAt r 3 ≠ 0 ∨ count = 0 ∨ 32768 < first + count then
      d.riRefuse q 0x11
    else if le r 4 4 ≠ 4 * count ∨ x.len ≠ n then d.loadFails q 0x24
    else if d.resPart Claims.ACT_PORTS (byteAt r 2) ≠ d.loadPart q then d.riRefuse q 0x12
    else
      let d := (List.range count).foldl (fun d i =>
        let v := le r (16 + 4 * i) 4
        d.putTab 0x0F 63 Pl63.F_CM_SBE Pl63.F_CM_DBE 0x0F 63 0 (32768 * byteAt r 2 + first + i)
          (bits v 0 23 + bitOf v 31 * 2 ^ 31)) d
      d.recordTaken q n count 0

def execColmap (queue : Fin 64) (record : List Nat) (s : State) : Host.Outcome State Fault Refusal :=
  s.upd (fun d => d.takeColmap queue record)

/-! ## Compare-list loads (R427) -/

/-- The stream of a partition whose range holds a compare-list entry (R222). -/
def Dev.entryStream (d : Dev) (part i : Nat) : Option Nat :=
  (List.range 32).find? (fun n =>
    (d.claim .range n).held && d.resPart Claims.ACT_STREAMS n == part && decide (d.rd Claims.CLR_BASE 2 n ≤ i) &&
      decide (i < d.rd Claims.CLR_BASE 2 n + d.rd Claims.CLR_LEN 2 n))

/-- Write one compare-list entry for a partition; false where it is refused. -/
def Dev.entryWrite (d : Dev) (part i v : Nat) : Dev × Bool :=
  match d.entryStream part i with
  | some n => (d.putTab 0x13 n Cs.F_CL_SBE Cs.F_CL_DBE 0x13 0 0 i v, true)
  | none => (d, false)

/-- CLIST: a whole compare-list load. -/
def Dev.takeClist (d : Dev) (q : Nat) (r : List Nat) : Dev :=
  let count := le r 12 4
  let first := le r 8 4
  let n := 16 + le r 4 4
  match d.headLoad q 0x54 n with
  | none => d
  | some x =>
    if byteAt r 0 ≠ 0x54 ∨ (byteAt r 1) % 2 = 0 then d.loadFails q 0x20
    else if byteAt r 1 ≠ 1 ∨ le r 2 2 ≠ 0 then d.loadFails q 0x22
    else if count = 0 ∨ 131072 < first + count ∨ le r 4 4 ≠ 8 * count ∨ x.len ≠ n then d.loadFails q 0x24
    else
      let out := (List.range count).foldl (fun (a : Dev × Nat) i =>
        let w := a.1.entryWrite (a.1.loadPart q) (first + i) (le r (16 + 8 * i) 8)
        if w.2 then (w.1, a.2 + 1) else (a.1.deny, a.2)) (d, 0)
      out.1.recordTaken q n out.2 (if out.2 = count then 0 else 0x23)

def execClist (queue : Fin 64) (record : List Nat) (s : State) : Host.Outcome State Fault Refusal :=
  s.upd (fun d => d.takeClist queue record)

end Sys2Proof.Machine
end

