-- ==== Sys2Proof/Machine/Blocks.lean ====
section
/-!
DEFINITION. Blocks as wholes: the claims a configuration requires, enable and disable, soft reset, island gating and
island reset (R37–R40, R51, R52, R65).
The log's entries 10, 14, 20, 63 and 64 of notes/assumptions name what is DEDUCED or a DESIGN CHOICE here, and marks each.
-/

namespace Sys2Proof.Machine

/-! ## Claims a configuration requires (R65, R143, R177, R203, R234, R305, R334, R389, R509) -/

/-- The pin-set claim of a channel: its own, or the test page's while that drives the channel (R177, R509). -/
def Dev.encClaim (d : Dev) (k : Nat) : Bool :=
  d.holds .enc k 0x10 k || ((d.rd Test.ROUTE_E 0).testBit k && d.holds .enc k 0x1F 0)

/-- The reference areas that a port selects (R319). -/
def Dev.areasUsed (d : Dev) : List Nat :=
  (List.range 16).filter (fun a => (List.range 16).any (fun p => d.is Ri.RA_SEL_SEL_EN 0 p && d.rd Ri.RA_SEL_AREA 0 p == a))

/-- The regions reference intake names. -/
def Dev.riRegions (d : Dev) : List Nat :=
  d.rd Ri.PROF_BASE_REGION 0 :: d.areasUsed.map (fun a => d.rd Ri.RA_BASE_REGION 0 a)

/-- The pin sets that a value of PAD_E forces (R509): six bits for each channel. -/
def padChannels (v : Nat) : List Nat := (List.range 8).filter (fun k => bits v (6 * k) 6 != 0)

/-- Every claim that the page's configuration requires is held (R40, R65). -/
def Dev.claimsOk (d : Dev) (c i : Nat) : Bool :=
  match c with
  | 0x0A => !d.is Port.TRIG_CFG_GEN_EN i || d.holds .gen (d.rd Port.TRIG_CFG_GEN i) 0x0A i
  | 0x0C => d.holds .hbm (d.histRegion i) 0x0C i
  | 0x0D => !d.is Ce.SNAG_CFG_SNAG_TILES_EN i || d.holds .hbm (d.rd Ce.SNAG_CFG_SNAG_REGION i) 0x0D i
  | 0x0E => d.riRegions.all (fun n => d.holds .hbm n 0x0E 0)
  | 0x10 => d.rd Pos.ENC_CFG_MODE i == 0 || d.encClaim i
  | 0x11 => !d.is Din.DIN_CFG_TC_EN i || d.holds .tc (d.rd Din.DIN_CFG_TC i) 0x11 i
  | 0x12 =>
    if i < 32 then !d.is Out.OUT_CFG_FINE_EN i || d.holds .tc (d.rd Out.OUT_CFG_TC i) 0x12 i
    else (List.range 32).all (fun m => !(d.rd Gen.GEN_OUT_MASK i).testBit m || d.holds .tout m 0x12 i)
  | 0x13 =>
    d.holds .range i 0x13 i && (!d.csSrc i || d.holds .gen (d.rd Cs.CS_CFG_GEN_SRC i) 0x13 i) &&
      (List.range 8).all (fun j =>
        let v := d.outSlot i j
        !v.testBit 31 || v.testBit 30 || d.holds .tout (bits v 16 5) 0x13 i)
  | 0x1F =>
    (List.range 8).all (fun k =>
      (!(d.rd Test.ROUTE_E 0).testBit k && !(padChannels (d.rd Test.PAD_E 0)).contains k) || d.holds .enc k 0x1F 0)
  | _ => true

/-! ## Enable (R37, R65) -/

/-- First byte and length of what reference intake keeps: the profile store and each selected area (R334). -/
def Dev.riSpans (d : Dev) : List (Nat × Nat × Nat) :=
  (d.rd Ri.PROF_BASE_REGION 0, d.profByte 0, 2097152) ::
    d.areasUsed.map (fun a => (d.rd Ri.RA_BASE_REGION 0 a, d.areaBase a, d.areaBytes a))

/-- The areas and the profile store lie within their regions and do not overlap (R334). -/
def Dev.riPlaced (d : Dev) : Bool :=
  d.riSpans.all (fun x => decide (x.2.1 + x.2.2 ≤ d.rgnBase x.1 + d.rgnBytes x.1)) &&
    (d.riSpans.zipIdx).all (fun x => (d.riSpans.zipIdx).all (fun y =>
      x.2 == y.2 || decide (x.1.2.1 + x.1.2.2 ≤ y.1.2.1) || decide (y.1.2.1 + y.1.2.2 ≤ x.1.2.1)))

/-- The snag-tile region of an engine suits it, with the channels of the port it serves (R389, R408). -/
def Dev.snagFit (d : Dev) (e : Nat) : Bool :=
  !d.is Ce.SNAG_CFG_SNAG_TILES_EN e ||
    d.rgnFit (d.rd Ce.SNAG_CFG_SNAG_REGION e) 2 ((d.portOf e).map (fun p => d.lcuChan p))

/-- The owner partition holds the queues an Ethernet port names (R251). -/
def Dev.ethQueues (d : Dev) (n : Nat) : Bool :=
  decide (d.resPart Claims.ACT_DQ_GROUPS (d.rd Eth.ETH_CFG_RX_Q n / 8) = d.owner) &&
    decide (d.resPart Claims.ACT_IQ_GROUPS (d.rd Eth.ETH_CFG_TX_Q n / 8) = d.owner)

/-- Whether a block may be enabled as it is configured. -/
def Dev.mayEnable (d : Dev) (c i : Nat) : Bool :=
  d.claimsOk c i && match c with
  | 0x0A => d.portMayEnable i
  | 0x0C => d.lcuMayEnable i
  | 0x0D => d.snagFit i
  | 0x0E => d.riRegions.all (fun n => d.rgnFit n 3 none) && d.riPlaced
  | 0x10 => d.chanMayEnable i
  | 0x12 => decide (i < 32) || d.genMayEnable (i - 32)
  | 0x13 => d.csMayEnable i
  | 0x16 => d.ethQueues i
  | 0x19 => d.rgnMayEnable i
  | _ => true

/-- What happens as EN rises, after it reads 1. -/
def Dev.onEnable (d : Dev) (c i : Nat) : Dev :=
  match c with
  | 0x08 => d.laneEnable i
  | 0x0A => d.portEnable i
  | 0x0B => (d.ingEnable i).setTrack i { d.track i with lastNum := none }
  | 0x0C => d.lcuEnable i
  | 0x0D =>
    let d := d.setCe i { d.ce i with reported := false, ring := none }
    let d := d.wr Fc.KA_FAIL_CE_MAP 0 (d.rd Fc.KA_FAIL_CE_MAP 0 &&& (2 ^ 17 - 1 - 2 ^ i))
    let d := d.when (d.is Ce.SNAG_CFG_SNAG_TILES_EN i) (fun d => d.snagRing i (d.rd Ce.SNAG_CFG_SNAG_REGION i))
    d.when (d.is Fc.FC_CFG_KA_EN 0) Dev.kaCheck
  | 0x10 => d.chanEnable i
  | 0x11 => d.wr Din.STAT_WIRE i 0
  | 0x12 => if i < 32 then d else d.genEnable (i - 32)
  | 0x13 => d.csEnable i
  | 0x15 => d.taEnable
  | 0x16 => (d.setEth i { d.eth i with syncAt := d.nowL }).emit (.txDisable i (d.txDisable i))
  | 0x1A => ((List.range 256).foldl (fun d q => d.dqFill (64 + q)) d).iqGoAll
  | _ => d

/-- What happens as EN falls, after it reads 0; w is a channel's position word while EN was 1. -/
def Dev.onDisable (d : Dev) (c i : Nat) (w : Int) : Dev :=
  match c with
  | 0x08 => d.laneStop i
  | 0x0A => d.portDisable i
  | 0x0B => d.ingDisable i
  | 0x0D => d.setCe i { d.ce i with kaSince := none }
  | 0x10 => d.chanDisable i w
  | 0x11 => d.dinDisable i
  | 0x12 =>
    if i < 32 then d.setOutp i { d.outp i with pulses := [] }
    else d.when (d.is Gen.STAT_OPEN i) (fun d => d.genClose (i - 32))
  | 0x13 => d.csDisable i
  | 0x16 => (d.when (d.ethLinkUp i) (fun d => d.ethDown i)).emit (.txDisable i (d.txDisable i))
  | 0x18 => d.wr Hbm.STAT_READY i 0
  | _ => d

/-- EN := 1 in a bus page; refused where a claim or a condition is missing (R65). -/
def Dev.enable (d : Dev) (c i : Nat) : Dev :=
  let p := canon c i
  if alwaysOn c || d.enabled p.1 p.2 then d
  else if d.mayEnable p.1 p.2 then (d.wr (Hdr.EN p.1) p.2 1).onEnable p.1 p.2
  else d.evt p.1 p.2 evtENABLE_REFUSED

/-- EN := 0 in a bus page, without the region's claim check. -/
def Dev.stopBlock (d : Dev) (c i : Nat) : Dev :=
  let p := canon c i
  if alwaysOn c || !d.enabled p.1 p.2 then d
  else
    let w := if p.1 = 0x10 then d.posWord p.2 else 0
    (d.wr (Hdr.EN p.1) p.2 0).onDisable p.1 p.2 w

/-- EN := 0 in a bus page; a region that is claimed keeps its EN (R409). -/
def Dev.disable (d : Dev) (c i : Nat) : Dev :=
  if c = 0x19 ∧ (d.claim .hbm i).held then (if d.enabled c i then d.badAccess c i else d) else d.stopBlock c i

/-- A write of EN in a bus page, under the rules of CTRL (R37, R38): the page's island answers. Enabling a stack or an engine
may end the guarantee (R491). -/
def Dev.setEn (d : Dev) (c i : Nat) (on : Bool) : Dev :=
  if alwaysOn c then d
  else if !on then d.disable c i
  else if c = 0x18 ∨ c = 0x0D then d.guard (fun d => d.enable c i)
  else d.enable c i

/-! ## Soft reset (R38) -/

/-- The queues of a page. -/
def pageQueues (c i : Nat) : List Nat :=
  match c with
  | 0x0B => [i]
  | 0x11 => [16 + i]
  | 0x1B => (List.range 8).map (fun j => if i < 32 then 64 + 8 * i + j else 320 + 8 * (i - 32) + j)
  | _ => []

/-- Fields from 0x040 upwards, or live STAT bits, that show what a soft reset does not change: state below the registers,
pins, what is kept by a rule of the block. -/
def softKeep (c i : Nat) : List Fld :=
  match c with
  | 0x0B => [Ingest.RX_UNITS, Ingest.VID_LIMIT]
  | 0x0C => [Lcu.STAT_BANK_ACTIVE]
  | 0x0D => [Ce.STAT_FAILED, Ce.SPARE_STAT_SERVING, Ce.SPARE_STAT_NOTABLES, Ce.SPARE_STAT_SERVED_ENGINE]
  | 0x0E => [Ri.PROF_VALID, Ri.PROF_BUSY, Ri.RA_USED_USED, Ri.RA_STAT_LOADING, Ri.RA_STAT_NEXT_COL, Ri.RA_STAT_NEXT_ROW,
      Ri.SEG_STAT_IN_FLIGHT]
  | 0x10 => [Pos.ID_STAT_PRESENT, Pos.STAT_LEVEL_A, Pos.STAT_LEVEL_B, Pos.STAT_LEVEL_Z]
  | 0x11 => [Din.STAT_LEVEL, Din.STAT_RAW]
  | 0x12 => if i < 32 then [Out.STAT_SAFE_ACTIVE] else []
  | 0x16 => [Eth.SFP_STAT_PRESENT, Eth.SFP_STAT_LOS, Eth.SFP_STAT_TX_FAULT]
  | 0x18 => [Hbm.STAT_COPYING, Hbm.STAT_SPARED, Hbm.STAT_SPARED_PC, Hbm.HBM_TEMP_TEMP]
  | 0x1C => [Link.LINK_STAT_DL_UP, Link.LINK_STAT_FLIT, Link.LINK_STAT_BIFURCATED, Link.LINK_STAT_SPEED,
      Link.LINK_STAT_WIDTH, Link.LINK_STAT_ACT_WIDTH, Link.LINK_STAT_PF_DSTATE, Link.STAT_DL_UP, Link.STAT_IN_RESET,
      Link.STAT_INTX_ASSERTED, Link.TAG_STAT_OUTSTANDING, Link.TAG_STAT_QUARANTINED, Link.STAT_TAGS_LOW]
  | _ => []

/-- Run a change under which fields of a page keep their values. -/
def Dev.keeping (d : Dev) (fs : List Fld) (i : Nat) (k : Dev → Dev) : Dev :=
  let old := fs.flatMap (fun f => (List.range f.num).map (fun j => (f, j, d.rd f i j)))
  old.foldl (fun e x => e.wr x.1 i x.2.2 x.2.1) (k d)

/-- Reset values that the boot fixed: rates, addresses, calibration, regions (R101, R280, R281, R410, R530). -/
def Dev.bootValues (d : Dev) (c i : Nat) : Dev :=
  match c with
  | 0x08 => (d.coeffDefaults i).ffeDefaults i (d.laneRate i)
  | 0x0A => d.wr Port.LG_CFG_RATE i (bits d.boot.cfg.rates (2 * i) 2)
  | 0x16 =>
    let d := d.wr Eth.MAC_ADDR i (d.boot.cfg.macs.getD i 0)
    let cal := d.nv.filter (fun e => decide (0x400 ≤ e.1) && decide (e.1 < 0x800))
    (List.range 6).foldl (fun d j => d.wr Eth.DLY i (Config.factoryDelay cal i j) j) d
  | 0x17 => d.wr Vox.VOX_ID_NODE_ID 0 d.boot.cfg.node
  | 0x19 => d.rgnDefaults i
  | _ => d

/-- What a block holds below its registers goes to its reset state; tables and what R38 and the block's chapter keep stay. -/
def Dev.blockHidden (m : FrameStore) (d : Dev) (c i : Nat) : Dev :=
  let d := (pageQueues c i).foldl (fun d k => d.qFlush k) d
  let d := (pageQueues c i).foldl (fun d k => d.setQueue k default) d
  match c with
  | 0x08 => d.setLane i default
  | 0x0A => d.setPort i default
  | 0x0B => (d.lcuCutAll m i).setIng i { d.ing i with itemSeq := 0 }
  | 0x0C => ((d.lcuDiscard i).lcuCutAll m i).lcuReset i
  | 0x0D =>
    let d := d.engineCut m i
    let h := d.ce i
    d.setCe i { (default : CeH) with
      bank := h.bank, plN := h.plN, plD := h.plD, plS := h.plS, evalBank := h.evalBank, evalTime := h.evalTime
      plCfg := h.plCfg, giveBack := h.giveBack }
  | 0x0E =>
    (List.range 64).foldl (fun d q =>
      match (d.iqh q).descs with
      | x :: _ => if x.taken && decide (x.kind ≤ 0x52) && decide (0x50 ≤ x.kind) then d.loadFails q 0x10 else d
      | [] => d) d
  | 0x0F =>
    if i = 63 then d
    else d.setCe i { d.ce i with bank := 0, plN := [], plD := [], plS := [], evalBank := none, plCfg := [] }
  | 0x10 => (d.chanReset i).follow i
  | 0x11 => d.setDin i default
  | 0x12 => if i < 32 then d.setOutp i default else d.setGen (i - 32) default
  | 0x13 => d.setStream i default
  | 0x16 => d.setEth i { (default : EthH) with sfpPrev := (d.eth i).sfpPrev }
  | 0x17 => { d with vox := default }
  | 0x18 => d.setHbmh i { d.hbmh i with errs := [] }
  | 0x1B =>
    (List.range 8).foldl (fun d j =>
      if i < 32 then d.setDqh (8 * i + j) default else d.setIqh (8 * (i - 32) + j) default) d
  | 0x1E =>
    { d with vecs := d.vecs.map (fun e => if e.1 / 2048 = i then (e.1, { e.2 with
        risen := false, items := 0, firstAt := 0, lastAt := none, gapHeld := false }) else e) }
  | 0x1F =>
    let d := (List.range 16).foldl (fun d p => d.loopSet p 0) d
    let d : Dev := { d with loops := [], qgens := [] }
    let d := ([0, 1] : List Nat).foldl (fun d n => d.emit (.txDisable n (d.txDisable n))) d
    d.when (d.is Test.STAT_QGEN_BUSY 0) (fun d => d.wr Test.STAT_QGEN_BUSY 0 0)
  | _ => d

/-- A soft reset takes effect in a field page: the block stops, its registers take their reset values (R38). -/
def Dev.softReset (m : FrameStore) (d : Dev) (c i : Nat) : Dev :=
  let p := canon c i
  let d := d.stopBlock c i
  let d := d.blockHidden m p.1 p.2
  let inv := d.rd Din.DIN_CFG_INV p.2
  let d := (d.keeping (softKeep p.1 p.2) p.2 (fun d => d.dropPage c i)).bootValues p.1 p.2
  let d := d.when (p.1 == 0x11) (fun d => d.dinAgain p.2 inv)
  let d := d.wr (Hdr.EN p.1) p.2 0
  d.wr (Hdr.SRST_BUSY p.1) p.2 1

/-- Writing 1 to SRST (R37, R38): ignored in the pages without it. -/
def Dev.srst (m : FrameStore) (d : Dev) (c i : Nat) : Dev := if alwaysOn c then d else d.softReset m c i

/-- The reset of a page is complete. -/
def Dev.srstDone (d : Dev) (c i : Nat) : Dev :=
  let p := canon c i
  d.wr (Hdr.SRST_BUSY p.1) p.2 0

/-- The device reports a soft reset complete; an island reset ends its pages' resets itself (R38, R52). -/
def execSrstComplete (cls inst : Nat) (s : State) : Host.Outcome State Fault Refusal :=
  s.upd (fun d =>
    d.when (d.implemented cls inst && !d.islBit Isl.RESET (islandOf cls inst)) (fun d => d.srstDone cls inst))

/-! ## A write of CTRL (R29, R37, R38) -/

/-- The gate of a CTRL write: as for any Block register, but a page in soft reset discards it with BAD_ACCESS. -/
def Dev.busCtrl (d : Dev) (r c i : Nat) (k : Dev → Dev) : Dev :=
  if d.resetting c i && d.implemented c i && d.reqLive r && d.writable r c i && (!isVf r || d.vfReaches r c i true) &&
      !d.wedged (islandOf c i) && !d.silent c i then
    d.badAccess (canon c i).1 (canon c i).2
  else d.busW r c i k

def execEn (req : Req) (cls inst : Nat) (on : Bool) (s : State) : Host.Outcome State Fault Refusal :=
  s.upd (fun d => d.busCtrl req.num cls inst (fun d => d.setEn cls inst on))

def execSrst (req : Req) (cls inst : Nat) (s : State) : Host.Outcome State Fault Refusal :=
  s.updR (fun m d => d.busCtrl req.num cls inst (fun d => d.srst m cls inst))

/-! ## Islands (R51, R52) -/

/-- The pages whose Block registers lie in an island (R31). -/
def islandPages (n : Nat) : List (Nat × Nat) :=
  if n = 1 then [(0x14, 0), (0x15, 0)]
  else if n = 2 then
    (List.range 8).map (fun k => (0x10, k)) ++ (List.range 24).map (fun k => (0x11, k)) ++
      (List.range 48).map (fun k => (0x12, k)) ++ (List.range 32).map (fun k => (0x13, k))
  else if n = 3 then [(0x16, 0), (0x16, 1), (0x17, 0)]
  else if n = 4 then
    [(0x0E, 0), (0x0F, 63), (0x1A, 0), (0x1F, 0)] ++ (List.range 64).map (fun k => (0x19, k)) ++
      (List.range 40).map (fun k => (0x1B, k))
  else if n = 5 ∨ n = 6 then
    [(0x1C, n - 5), (0x1C, n - 3)] ++
      (List.range 16).flatMap (fun f => [(n - 5, f), (n - 3, f)] |>.flatMap (fun x =>
        [(0x1D, 16 * x.1 + x.2), (0x1E, 16 * x.1 + x.2)]))
  else if 8 ≤ n ∧ n ≤ 11 then [(0x18, n - 8)]
  else if 16 ≤ n ∧ n ≤ 31 then
    [(0x0A, n - 16), (0x0B, n - 16)] ++ (List.range 4).map (fun j => lanePage (4 * (n - 16) + j))
  else if 32 ≤ n ∧ n ≤ 47 then [(0x0C, n - 32)]
  else if 48 ≤ n ∧ n ≤ 64 then [(0x0D, n - 48), (0x0F, n - 48)]
  else []

/-- The pages whose EN and claims forbid gating an island: those in it, and for a lane receive island its lane's (R97). -/
def gatePages (n : Nat) : List (Nat × Nat) := if 128 ≤ n then [lanePage (n - 128)] else islandPages n

/-- An island loses power: its tables, buffers and registers are gone (R52). -/
def Dev.powerOff (m : FrameStore) (d : Dev) (n : Nat) : Dev :=
  let d := (islandPages n).foldl (fun d p =>
    let q := canon p.1 p.2
    let d := ((d.blockHidden m q.1 q.2).dropTabs p.1 p.2).dropPage p.1 p.2
    (match q.1 with
    | 0x0C => d.setLcu q.2 default
    | 0x0D => d.setCe q.2 default
    | _ => d).bootValues q.1 q.2) d
  let d := d.when (decide (128 ≤ n)) (fun d => d.setLane (n - 128) default)
  (d.setIslBit Isl.GATE n true).setIslBit Isl.PWR n false

/-- A bit of ISL_GATE is written (R51, R52); an island that a failed BIST holds gated stays so (R516). -/
def Dev.gateWrite (m : FrameStore) (d : Dev) (n : Nat) (on : Bool) : Dev :=
  if !islandGateable n || d.islBit Isl.GATE n == on then d
  else if on then
    if (gatePages n).any (fun p => d.enabled (canon p.1 p.2).1 (canon p.1 p.2).2 || d.claimCount p.1 p.2 != 0) then
      d.evt 5 0 evtENABLE_REFUSED
    else d.powerOff m n
  else if d.bist.heldMem.contains n || d.bist.heldLogic.contains n then d
  else d.setIslBit Isl.GATE n false

def execIslGate (req : Req) (island : Nat) (on : Bool) (s : State) : Host.Outcome State Fault Refusal :=
  s.updR (fun m d => d.busW req.num 5 0 (fun d => d.gateWrite m island on))

/-- An ungated island is powered and clocked again (R52); one that has lost its clock waits for an island reset. -/
def Dev.powerOn (d : Dev) (n : Nat) : Dev :=
  d.when (islandGateable n && d.boot.aoUp && !d.islBit Isl.GATE n && !d.wedged n) (fun d => d.setIslBit Isl.PWR n true)

def execIslPwr (island : Nat) (s : State) : Host.Outcome State Fault Refusal := s.upd (fun d => d.powerOn island)

/-- A bit of ISL_RESET is written with 1 (R51, R52). -/
def Dev.islReset (m : FrameStore) (d : Dev) (n : Nat) : Dev :=
  if !islandKnown n || n == 0 || d.islBit Isl.RESET n then d
  else
    let d := (islandPages n).foldl (fun d p => d.srst m p.1 p.2) (d.setIslBit Isl.RESET n true)
    d.when (decide (128 ≤ n)) (fun d =>
      let l := n - 128
      d.when (d.enabled 0x08 l) (fun d => (d.laneStop l).laneEnable l))

def execIslReset (req : Req) (island : Nat) (s : State) : Host.Outcome State Fault Refusal :=
  s.updR (fun m d => d.busW req.num 5 0 (fun d => d.islReset m island))

/-- An island reset completes: its pages' resets end, its handshakes run again, its clock is back (R52). -/
def Dev.islResetDone (d : Dev) (n : Nat) : Dev :=
  if !d.islBit Isl.RESET n then d
  else
    let d := (islandPages n).foldl (fun d p => d.srstDone p.1 p.2) ((d.setIslBit Isl.RESET n false).unwedge n)
    d.when (!d.islBit Isl.GATE n) (fun d => d.setIslBit Isl.PWR n true)

def execIslResetDone (island : Nat) (s : State) : Host.Outcome State Fault Refusal := s.upd (fun d => d.islResetDone island)

end Sys2Proof.Machine
end

