-- ==== Sys2Proof/Machine/Msi.lean ====
section
/-!
DEFINITION. Interrupt messages: moderation, masking and the PBA, INTA in place of messages (R433, R462, R463).
The log's entry 56 of notes/assumptions names what is DEDUCED or a DESIGN CHOICE here, and marks each.
-/

namespace Sys2Proof.Machine

/-- Vectors of a function (R440). -/
def fnVectors (fn : Nat) : Nat := if fn % 16 = 0 then 2048 else 64

/-- A vector's moderation entry asks for a message (R433). -/
def Dev.vecDue (d : Dev) (fn v : Nat) : Bool :=
  let x := d.vec fn v
  let m := d.tab 0x1E fn 0 v
  x.risen || decide (max 1 (bits m 16 16) ≤ x.items) ||
    (decide (0 < x.items) && decide (x.firstAt + bits m 32 16 * 1000 * nsL ≤ d.nowL))

/-- MIN_GAP has passed since the previous message. -/
def Dev.vecGap (d : Dev) (fn v : Nat) : Bool :=
  match (d.vec fn v).lastAt with
  | none => true
  | some t => decide (t + bits (d.tab 0x1E fn 0 v) 0 16 * 100 * nsL ≤ d.nowL)

/-- The PF signals by INTA (R463). -/
def Dev.intxMode (d : Dev) (fn : Nat) : Bool := fn % 16 == 0 && !(d.fn fn).msixEn && !(d.fn fn).intxDis

/-- Assert_INTA or Deassert_INTA follows the PBA (R463). -/
def Dev.showIntx (d : Dev) (l : Nat) : Dev :=
  let on := d.intxMode (16 * l) && d.vecs.any (fun e => e.1 / 2048 == 16 * l && e.2.pba)
  if d.is Link.STAT_INTX_ASSERTED l = on then d
  else (d.wrb Link.STAT_INTX_ASSERTED l on).emit (.intx l on)

/-- A vector's message becomes due: sent, held by MIN_GAP, or pending. -/
def Dev.msix (d : Dev) (fn v : Nat) : Dev :=
  let x := d.vec fn v
  let due := d.vecDue fn v
  let c := d.fn fn
  if !(d.linkExists (fn / 16) && decide (v < fnVectors fn) && !d.silent 0x1E fn) then d
  else if !due && !(x.pba && !d.intxMode fn) then d
  else if !d.vecGap fn v then
    if x.gapHeld then d else (d.setVec fn v { x with gapHeld := true }).addWrap Int.GAP_HELD_CNT fn 1
  else
    let sent := { x with risen := false, items := 0, firstAt := 0, lastAt := some d.nowL, gapHeld := false }
    if d.intxMode fn then (d.setVec fn v { sent with pba := true }).showIntx (fn / 16)
    else if x.masked || c.fnMask || !c.msixEn || !d.mayIssue fn then d.setVec fn v { x with pba := true }
    else
      ((d.setVec fn v { sent with pba := false }).addWrap Int.MSG_CNT fn 1).l1Exit (fn / 16) |>.emit (.msix fn v x.addr x.data (d.marks fn))

def execMsixMessage (link : Fin 4) (fn : Fin 16) (vector : Nat) (s : State) : Host.Outcome State Fault Refusal :=
  s.upd (fun d => d.msix (16 * link + fn) vector)

/-- INTX_ACK clears a PBA bit of the PF (R463). -/
def Dev.intxAck (d : Dev) (l v : Nat) : Dev :=
  if v < 2048 then (d.setVec (16 * l) v { d.vec (16 * l) v with pba := false }).showIntx l else d

def execIntxAck (req : Req) (link : Fin 4) (vector : Nat) (s : State) : Host.Outcome State Fault Refusal :=
  s.upd (fun d => d.busW req.num 0x1C link (fun d => d.intxAck link (vector % 2048)))

end Sys2Proof.Machine
end

