-- ==== Sys2Proof/Machine/Host.lean ====
section
/-!
DEFINITION. Host links: resets of functions, links and partitions, link training, configuration writes, completions and
timeouts of requests, link power (R441–R445, R457–R471).
The log's entries 12, 51, 56, 57 and 58 of notes/assumptions name what is DEDUCED or a DESIGN CHOICE here, and marks each.
-/

namespace Sys2Proof.Machine

/-- LINK_STAT.PF_DSTATE follows the PF. -/
def Dev.showDstate (d : Dev) (l : Nat) : Dev := d.wr Link.LINK_STAT_PF_DSTATE l (if (d.fn (16 * l)).d3 then 3 else 0)

/-! ## Resets of functions (R464) -/

/-- Sticky configuration state: PME and what AER has logged. -/
def FnCfg.sticky (c : FnCfg) : FnCfg :=
  { (default : FnCfg) with
    pmeEn := c.pmeEn, pmeStatus := c.pmeStatus, aerCplTo := c.aerCplTo, aerUnexp := c.aerUnexp, aerPoison := c.aerPoison }

/-- A link gives up its outstanding requests of some functions; their tags wait for late completions (R460, R464). -/
def Dev.abandonReqs (d : Dev) (l : Nat) (which : Nat → Bool) : Dev :=
  let h := d.link l
  let gone := h.reqs.filter (fun r => which r.fn)
  (d.setLink l { h with
    reqs := h.reqs.filter (fun r => !which r.fn)
    stale := h.stale ++ gone.map (fun r => r.tag) }).showTags l

/-- The VALID bit of a WTT entry (R451). -/
abbrev wttValid : Nat := 96

/-- Every WTT entry of a function becomes invalid (R455, R464). -/
def Dev.wttClear (d : Dev) (fn : Nat) : Dev :=
  let off (e : Nat × Nat) : Nat × Nat :=
    if e.1 / 2 ^ 32 == 0x1D * 64 + fn && e.2.testBit wttValid then (e.1, e.2 - 2 ^ wttValid) else e
  { d with tabs := (d.tabs.map off).filter (fun e => e.2 != 0) }

/-- A vector after the reset of its function: masked, its message address and data kept. -/
def Vec.afterReset (v : Vec) : Vec := { (default : Vec) with addr := v.addr, data := v.data, masked := true }

/-- The reset of one function. -/
def Dev.fnReset (d : Dev) (fn : Nat) : Dev :=
  let l := fn / 16
  let d := (d.setFn fn (d.fn fn).sticky).wttClear fn
  let d := d.setLink l { d.link l with atc := (d.link l).atc.filter (fun e => e.1 != fn) }
  let d := d.dropTabs 0x1E fn
  let vecs := d.vecs.map (fun e => if e.1 / 2048 = fn then (e.1, e.2.afterReset) else e)
  let d := { d with vecs := vecs }
  let d := (List.range 320).foldl (fun d j =>
    let k := 64 + j
    if d.qrd k Dq.RING_CFG_FUNCTION = fn then (d.qOff k).qFlush k else d) d
  (d.abandonReqs l (fun f => f == fn)).showIntx l

/-- The reset of a PF: its VFs too, the VF slot table and the PASIDs. -/
def Dev.pfReset (d : Dev) (l : Nat) : Dev :=
  let d := (List.range 16).foldl (fun d f => d.fnReset (16 * l + f)) d
  let d := d.dropTabs 0x1C l
  let d := (List.range 16).foldl (fun d f => (d.wr Link.FUNC_PASID_PASID_EN l 0 f).wr Link.FUNC_PASID_PASID l 0 f) d
  d.showDstate l

/-! ## Partition reset (R465–R467) -/

/-- The pages of the resources set in the VALID entry of a partition (R465). -/
def Dev.partPages (d : Dev) (k : Nat) : List (Nat × Nat) :=
  let has (f : Fld) (n : Nat) : Bool := d.resAssigned f n k
  let ports := (List.range 16).filter (has Claims.ACT_PORTS)
  ports.flatMap (fun p => (List.range 4).map (fun j => lanePage (4 * p + j)) ++ [(0x0A, p), (0x0B, p), (0x0C, p)]) ++
    ((List.range 17).filter (fun e => has Claims.ACT_CES e && !d.borrowed 0x0D e)).flatMap (fun e => [(0x0D, e), (0x0F, e)]) ++
    ((List.range 8).filter (has Claims.ACT_ENCODERS)).map (fun n => (0x10, n)) ++
    ((List.range 16).filter (has Claims.ACT_GENERATORS)).map (fun n => (0x12, 32 + n)) ++
    ((List.range 32).filter (has Claims.ACT_STREAMS)).map (fun n => (0x13, n)) ++
    ((List.range 32).filter (has Claims.ACT_TOUT)).map (fun n => (0x12, n)) ++
    ((List.range 24).filter (has Claims.ACT_DIN)).map (fun n => (0x11, n)) ++
    ((List.range 32).filter (has Claims.ACT_DQ_GROUPS)).map (fun n => (0x1B, n)) ++
    ((List.range 8).filter (has Claims.ACT_IQ_GROUPS)).map (fun n => (0x1B, 32 + n)) ++
    ((List.range 64).filter (has Claims.ACT_HBM_REGIONS)).map (fun n => (0x19, n))

/-- A reset leaves out a page of a wedged island (R467). -/
def Dev.partial (d : Dev) (l : Nat) : Dev := (d.wr Link.RST_STAT_PARTIAL l 1).evt 0x1C l Link.E_PARTIAL

/-- The reset of a partition, asked for by a reset of link l; a CE16 lent into it ends its segments and keeps serving. -/
def Dev.partReset (m : FrameStore) (d : Dev) (l k : Nat) : Dev :=
  let d := (d.partPages k).foldl (fun d p =>
    if d.wedged (islandOf p.1 p.2) then d.partial l else (d.srst m p.1 p.2).releaseAll p.1 p.2) d
  d.when (d.borrowed 0x0D 16 && d.resAssigned Claims.ACT_CES (d.rd Ce.SPARE_STAT_SERVED_ENGINE 16) k)
    (fun d => d.engineCut m 16)

/-- Another link of the partition of link l has its Data Link Layer up (R466). -/
def Dev.otherUp (d : Dev) (l : Nat) : Bool :=
  (List.range 4).any (fun n => n != l && d.linkExists n && d.is Link.LINK_STAT_DL_UP n && d.linkPart n == d.linkPart l)

/-! ## Resets of links (R464) -/

/-- The Data Link Layer goes down. -/
def Dev.dlDown (d : Dev) (l : Nat) : Dev :=
  let up := d.is Link.LINK_STAT_DL_UP l
  let d := d.clearAll [Link.LINK_STAT_DL_UP, Link.STAT_DL_UP, Link.LINK_STAT_FLIT, Link.LINK_STAT_SPEED,
    Link.LINK_STAT_WIDTH, Link.LINK_STAT_ACT_WIDTH] l
  let d := d.l1Exit l
  d.when up (fun d => d.evt 0x1C l Link.E_LINK_DOWN)

/-- The link's page returns to reset: not its counts of resets, nor what shows the link's present state. -/
def Dev.linkPageReset (d : Dev) (l : Nat) : Dev :=
  let keep := softKeep 0x1C l ++
    [Link.RST_CNT_FUND_CNT, Link.RST_CNT_HOT_CNT, Link.RST_CNT_FLR_CNT, Link.RST_STAT_PARTIAL, Link.RST_STAT_PART_RESET]
  d.keeping keep l (fun d => d.dropPage 0x1C l)

/-- A fundamental or hot reset of a link. -/
def Dev.linkReset (m : FrameStore) (d : Dev) (l : Nat) (armed : Bool) (cnt : Fld) : Dev :=
  let part := d.linkPart l
  let whole := !d.otherUp l && !armed
  let d := (d.pfReset l).linkPageReset l
  let d := d.dlDown l
  let d := ((d.incSat cnt l).wr Link.STAT_IN_RESET l 1).wrb Link.RST_STAT_PART_RESET l whole
  d.when whole (fun d => d.partReset m l part)

/-- A hot reset, or what acts as one. -/
def Dev.hotReset (m : FrameStore) (d : Dev) (l : Nat) : Dev :=
  if !d.linkExists l || (d.link l).perst || !d.boot.aoUp then d
  else (d.linkReset m l false Link.RST_CNT_HOT_CNT).evt 0x1C l Link.E_HOT_RESET

def execHotReset (link : Fin 4) (s : State) : Host.Outcome State Fault Refusal := s.updR (fun m d => d.hotReset m link)

/-- A link that was up goes down without PERSTn_N (R464). -/
def execPcieLinkDown (link : Fin 4) (s : State) : Host.Outcome State Fault Refusal :=
  s.updR (fun m d => d.when (d.is Link.LINK_STAT_DL_UP link) (fun d => d.hotReset m link))

/-- PERSTn_N falls; a PF in D3hot with PME_En arms its wake (R466), and a PCIe loop ends (R505). -/
def Dev.perstFall (m : FrameStore) (d : Dev) (l : Nat) : Dev :=
  if !d.linkExists l || (d.link l).perst || !d.boot.aoUp then d
  else
    let f := d.fn (16 * l)
    let armed := f.d3 && f.pmeEn
    let d := (d.wr Test.PLB_CFG_DEPTH 0 0 l).wr Test.PLB_STAT_ACTIVE 0 0 l
    let d := d.setLink l { d.link l with perst := true, armed := armed, waking := false }
    d.linkReset m l armed Link.RST_CNT_FUND_CNT

def execPerstFall (link : Fin 4) (s : State) : Host.Outcome State Fault Refusal := s.updR (fun m d => d.perstFall m link)

/-- PERSTn_N rises: WAKEn_N is released (R470); the link trains. -/
def Dev.perstRise (d : Dev) (l : Nat) : Dev :=
  let h := d.link l
  if !d.linkExists l || !h.perst then d
  else
    let d := d.setLink l { h with perst := false }
    d.when (h.armed && h.waking) (fun d => d.emit (.wake l false))

def execPerstRise (link : Fin 4) (s : State) : Host.Outcome State Fault Refusal := s.upd (fun d => d.perstRise link)

/-- Lanes of a link (R441). -/
def Dev.linkLanes (d : Dev) (l : Nat) : Nat := if d.is Link.LINK_STAT_BIFURCATED (l % 2) then 8 else 16

/-- The Data Link Layer comes up (R474); a wake from D3cold sends PM_PME (R470). -/
def Dev.pcieUp (d : Dev) (l speed width : Nat) (flit : Bool) : Dev :=
  let h := d.link l
  if !d.linkExists l || h.perst || !d.boot.aoUp || d.is Link.LINK_STAT_DL_UP l || speed = 0 || 6 < speed || width = 0 ||
      d.linkLanes l < width || d.rd Test.PLB_CFG_DEPTH 0 l != 0 then d
  else
    let d := (d.wr Link.LINK_STAT_DL_UP l 1).wr Link.STAT_DL_UP l 1
    let d := (d.wr Link.LINK_STAT_SPEED l speed).wrb Link.LINK_STAT_FLIT l flit
    let d := (d.wr Link.LINK_STAT_WIDTH l width).wr Link.LINK_STAT_ACT_WIDTH l width
    let d := d.wr Link.STAT_IN_RESET l 0
    let d := d.evt 0x1C l Link.E_LINK_UP
    let d := d.when (decide (speed < 6) || decide (width < d.linkLanes l)) (fun d => d.evt 0x1C l Link.E_DOWNTRAIN)
    let d := d.setLink l { h with armed := false }
    d.when (h.armed && h.waking) (fun d =>
      (d.setFn (16 * l) { d.fn (16 * l) with pmeStatus := true }).emit (.pme l))

def execPcieLinkUp (link : Fin 4) (speed width : Nat) (flit : Bool) (s : State) : Host.Outcome State Fault Refusal :=
  s.upd (fun d => d.pcieUp link speed width flit)

/-- An FLR of a function (R464). -/
def Dev.flr (d : Dev) (l f : Nat) : Dev :=
  if !d.fnAnswers l f || (d.link l).perst then d
  else
    let d := if f = 0 then d.pfReset l else d.fnReset (16 * l + f)
    (d.incSat Link.RST_CNT_FLR_CNT l).evt 0x1C l Link.E_FLR

def execFlr (link : Fin 4) (fn : Fin 16) (s : State) : Host.Outcome State Fault Refusal := s.upd (fun d => d.flr link fn)

/-- The reference of a PCIe port is lost: its host links take a hot reset (R486). -/
def Dev.pcieRefLoss (m : FrameStore) (d : Dev) (n : Nat) : Dev :=
  if !d.boot.aoUp then d
  else
    let d := d.flt 1 0 (if n = 0 then Fc.F_PCIE_REF_LOSS0 else Fc.F_PCIE_REF_LOSS1)
    (d.hotReset m n).hotReset m (n + 2)

def execPcieRefLoss (port : Fin 2) (s : State) : Host.Outcome State Fault Refusal := s.updR (fun m d => d.pcieRefLoss m port)

/-- The link partner directs the device into Loopback (R506). -/
def Dev.pcieFollow (m : FrameStore) (d : Dev) (l : Nat) : Dev :=
  if !d.is Link.LINK_STAT_DL_UP l then d else (d.hotReset m l).evt 0x1F 0 Test.E_PCIE_FOLLOW

def execPcieFollow (link : Fin 4) (s : State) : Host.Outcome State Fault Refusal := s.updR (fun m d => d.pcieFollow m link)

/-! ## Injections into a link's checkers (R474, R495) -/

/-- The configuration state of a link's functions is used: an armed CFG_DBE acts on the function at hand, which is reset as at
FLR. -/
def Dev.cfgUsed (d : Dev) (l f : Nat) : Dev :=
  if d.armed 0x1C l Link.F_CFG_DBE then
    let d := (d.disarm 0x1C l Link.F_CFG_DBE).flt 0x1C l Link.F_CFG_DBE
    if f = 0 then d.pfReset l else d.fnReset (16 * l + f)
  else d

/-- The replay buffer is used; an uncorrectable error makes the link retrain. -/
def Dev.replayUsed (m : FrameStore) (d : Dev) (l : Nat) : Dev :=
  let u := d.useBuf 0x1C l Link.F_REPLAY_SBE Link.F_REPLAY_DBE
  if u.2 then u.1.hotReset m l else u.1

/-! ## Configuration writes (R443, R445, R457, R458, R462, R463, R468, R470) -/

/-- Requests of a function may go again (R421, R424, R457). -/
def Dev.fnResumes (d : Dev) (fn : Nat) : Dev :=
  ((List.range 256).foldl (fun d q => if d.qrd (64 + q) Dq.RING_CFG_FUNCTION = fn then d.dqFill (64 + q) else d) d).iqGoAll

/-- A write of a configuration field, or of the function's MSI-X table. -/
def Dev.cfgWrite (d : Dev) (l f : Nat) (field : CfgField) (v : Nat) : Dev :=
  let fn := 16 * l + f
  let c := d.fn fn
  let on := v % 2 == 1
  match field with
  | .busMaster => (d.setFn fn { c with bme := on }).fnResumes fn
  | .powerState =>
    let c := if v % 4 = 3 then { c with d3 := true } else if v % 4 = 0 then { c with d3 := false } else c
    ((d.setFn fn c).showDstate l).fnResumes fn
  | .msixEnable => (d.setFn fn { c with msixEn := on }).showIntx l
  | .functionMask => d.setFn fn { c with fnMask := on }
  | .interruptDisable => if f = 0 then (d.setFn fn { c with intxDis := on }).showIntx l else d
  | .pmeEnable => if f = 0 then d.setFn fn { c with pmeEn := on } else d
  | .pmeStatusClear =>
    if f = 0 ∧ on = true then (d.setFn fn { c with pmeStatus := false }).setLink l { d.link l with waking := false } else d
  | .vfEnable =>
    if f = 0 then
      let d := d.setFn fn { c with vfEn := on }
      (List.range 16).foldl (fun d g => d.fnResumes (16 * l + g)) d
    else d
  | .numVfs => if f = 0 ∧ c.vfEn = false then d.setFn fn { c with numVfs := min v d.boot.cfg.totalVfs } else d
  | .completionTimeout => d.setFn fn { c with cplTo := v % 16 }
  | .relaxedOrdering => d.setFn fn { c with relaxed := on }
  | .pasidEnable => d.setFn fn { c with pasid := on }
  | .aspmL1 => d.setFn fn { c with aspmL1 := on }
  | .l0pEnable => d.setFn fn { c with l0pEn := on }
  | .atsEnable =>
    let d := d.setFn fn { c with atsEn := on }
    if on then d else d.setLink l { d.link l with atc := (d.link l).atc.filter (fun e => e.1 != fn) }
  | .maxPayload => if f = 0 then d.setFn fn { c with mps := min 2 (v % 8) } else d
  | .maxReadRequest => if f = 0 then d.setFn fn { c with mrrs := some (min 5 (v % 8)) } else d
  | .ecrcGenEnable => if f = 0 then d.setFn fn { c with ecrcGen := on } else d
  | .ecrcCheckEnable => if f = 0 then d.setFn fn { c with ecrcChk := on } else d
  | .l11Enable => if f = 0 then d.setFn fn { c with l11En := on } else d
  | .l12Enable => if f = 0 then d.setFn fn { c with l12En := on } else d
  | .msixAddr w => if w < fnVectors fn then d.setVec fn w { d.vec fn w with addr := v % 2 ^ 64 / 4 * 4 } else d
  | .msixData w => if w < fnVectors fn then d.setVec fn w { d.vec fn w with data := v % 2 ^ 32 } else d
  | .msixMask w => if w < fnVectors fn then d.setVec fn w { d.vec fn w with masked := on } else d

def execConfigWrite (link : Fin 4) (fn : Fin 16) (field : CfgField) (val : Nat) (s : State) :
    Host.Outcome State Fault Refusal :=
  s.upd (fun d =>
    d.when (d.fnAnswers link fn && d.is Link.LINK_STAT_DL_UP link) (fun d => (d.cfgWrite link fn field val).cfgUsed link fn))

/-! ## Completions (R458–R461) -/

/-- The request of a link with a tag. -/
def Dev.reqOf (d : Dev) (l tag : Nat) : Option HostReq := (d.link l).reqs.find? (fun r => r.tag == tag)

/-- Replace the requests of a link. -/
def Dev.setReqs (d : Dev) (l : Nat) (rs : List HostReq) : Dev := (d.setLink l { d.link l with reqs := rs }).showTags l

/-- A completion for a tag that is not outstanding (R460). -/
def Dev.unexpected (d : Dev) (l : Nat) : Dev :=
  let d := d.setFn (16 * l) { d.fn (16 * l) with aerUnexp := (d.fn (16 * l)).aerUnexp + 1 }
  (d.incSat Link.CPL_CNT_UNEXP_CPL_CNT l).evt 0x1C l Link.E_UNEXP_CPL

/-- A request has not been wholly completed within its timeout (R459): it fails, and its tag is quarantined. -/
def Dev.cplLate (d : Dev) (l : Nat) (r : HostReq) : Dev :=
  let h := d.link l
  let d := (d.setLink l { h with
    reqs := h.reqs.filter (fun x => x.tag != r.tag), quar := h.quar ++ [(r.tag, d.nowL + 2 * r.per)] }).showTags l
  let d := d.setFn r.fn { d.fn r.fn with aerCplTo := (d.fn r.fn).aerCplTo + 1 }
  (((d.incSat Link.CPL_CNT_CPL_TIMEOUT_CNT l).evt 0x1C l Link.E_CPL_TIMEOUT).readFail r).iqGoAll

/-- A completion fails its request: Unsupported Request, Completer Abort, or EP = 1, which AER reports too (R461). -/
def Dev.cplFail (d : Dev) (l : Nat) (r : HostReq) (poisoned : Bool) : Dev :=
  let d := d.when poisoned (fun d => d.setFn r.fn { d.fn r.fn with aerPoison := (d.fn r.fn).aerPoison + 1 })
  ((d.setReqs l ((d.link l).reqs.filter (fun x => x.tag != r.tag))).readFail r).iqGoAll

/-- A completion arrives with data, or with a failing status or EP = 1 (R460, R461). Where its request's timeout has run
out in this cycle or before, the timeout acts first. -/
def Dev.completion (d : Dev) (l tag len : Nat) (status : CplStatus) : Dev :=
  match d.reqOf l tag with
  | none => if (d.link l).stale.contains tag then d.incSat Link.STALE_CNT_STALE_CPL_CNT l else d.unexpected l
  | some r =>
    let rest := (d.link l).reqs.filter (fun x => x.tag != tag)
    if r.due ≤ d.nowL then (d.cplLate l r).unexpected l
    else if status ≠ .success then d.cplFail l r (status == .poisoned)
    else if r.len ≤ r.got + len then ((d.setReqs l rest).readDone r).iqGoAll
    else d.setReqs l ((d.link l).reqs.map (fun x => if x.tag = tag then { x with got := x.got + len } else x))

def execCompletion (link : Fin 4) (tag len : Nat) (status : CplStatus) (s : State) : Host.Outcome State Fault Refusal :=
  s.updR (fun m d =>
    d.when (d.is Link.LINK_STAT_DL_UP link) (fun d => (d.completion link tag len status).replayUsed m link))

/-- The timeout of a tag runs out (R458, R459); before it is due nothing happens. A tag that a reset had abandoned is
free again. -/
def Dev.cplTimeout (d : Dev) (l tag : Nat) : Dev :=
  match d.reqOf l tag with
  | none => (d.setLink l { d.link l with stale := (d.link l).stale.filter (fun t => t != tag) }).showTags l
  | some r => if r.due ≤ d.nowL then d.cplLate l r else d

def execCplTimeout (link : Fin 4) (tag : Nat) (s : State) : Host.Outcome State Fault Refusal :=
  s.upd (fun d => d.cplTimeout link tag)

/-- A tag leaves quarantine, once twice its timeout has passed (R459). -/
def execQuarantineEnd (link : Fin 4) (tag : Nat) (s : State) : Host.Outcome State Fault Refusal :=
  s.upd (fun d => ((d.setLink link { d.link link with
    quar := (d.link link).quar.filter (fun x => x.1 != tag || decide (d.nowL < x.2)) }).showTags link).iqGoAll)

/-! ## Link power (R443, R471) -/

/-- The link has been idle for L1_IDLE µs with nothing outstanding, and asks for L1; where the host enables L1.2 or
L1.1 it goes on into that substate, and CLKREQn_N is released. -/
def Dev.l1Entry (d : Dev) (l : Nat) : Dev :=
  let h := d.link l
  if d.is Link.LINK_STAT_DL_UP l && (d.fn (16 * l)).aspmL1 && h.reqs.isEmpty && !h.inL1 then
    let f := d.fn (16 * l)
    let sub := if f.l12En then 2 else if f.l11En then 1 else 0
    let d := (d.setLink l { h with inL1 := true, l1Sub := sub }).emit (.linkPower l 0)
    d.when (sub != 0) (fun d => d.emit (.clkreq l false))
  else d

def execL1Entry (link : Fin 4) (s : State) : Host.Outcome State Fault Refusal := s.upd (fun d => d.l1Entry link)

/-- L0p may change the link's width: FLIT mode, enabled at both ends. -/
def Dev.l0pMay (d : Dev) (l : Nat) : Bool :=
  d.is Link.LINK_STAT_DL_UP l && d.is Link.LINK_STAT_FLIT l && d.is Link.LINK_CFG_L0P_EN l && (d.fn (16 * l)).l0pEn

/-- The width in use takes a value, which the link announces. -/
def Dev.setWidth (d : Dev) (l w : Nat) : Dev := (d.wr Link.LINK_STAT_ACT_WIDTH l w).emit (.linkPower l w)

/-- Low use for 100 µs: half the width, down to x2. -/
def Dev.l0pNarrow (d : Dev) (l : Nat) : Dev :=
  let w := d.rd Link.LINK_STAT_ACT_WIDTH l
  if d.l0pMay l && decide (4 ≤ w) then d.setWidth l (w / 2) else d

def execL0pNarrow (link : Fin 4) (s : State) : Host.Outcome State Fault Refusal := s.upd (fun d => d.l0pNarrow link)

/-- Queued data beyond half the present capacity: the full width again. -/
def Dev.l0pWiden (d : Dev) (l : Nat) : Dev :=
  let w := d.rd Link.LINK_STAT_WIDTH l
  if d.l0pMay l && decide (d.rd Link.LINK_STAT_ACT_WIDTH l < w) then d.setWidth l w else d

def execL0pWiden (link : Fin 4) (s : State) : Host.Outcome State Fault Refusal := s.upd (fun d => d.l0pWiden link)

/-- An invalidation removes a page's translations from the link's cache and is completed (R443). -/
def Dev.atsInvalidate (d : Dev) (l tag page : Nat) : Dev :=
  let h := d.link l
  (d.setLink l { h with atc := h.atc.filter (fun e => e.2 != page) }).emit (.atsDone l tag)

def execAtsInvalidation (link : Fin 4) (tag page : Nat) (s : State) : Host.Outcome State Fault Refusal :=
  s.upd (fun d => d.when (d.is Link.LINK_STAT_DL_UP link) (fun d => d.atsInvalidate link tag page))

end Sys2Proof.Machine
end

