-- ==== Sys2Proof/Machine/SelfTest.lean ====
section
/-!
DEFINITION. The test page and the BIST page: loops, generators and injectors of the camera and press-network ports, PCIe
loops, quadrature generator, frame-store tests, memory and logic BIST, and the JTAG port (R501–R517).
The log's entries 55, 65, 66 and 67 of notes/assumptions name what is DEDUCED or a DESIGN CHOICE here, and marks each.
-/

namespace Sys2Proof.Machine

/-! ## Register blocks of the test page -/

/-- Whether the generator may be enabled with a length and a kind (R503). -/
def Dev.genMay (d : Dev) (p len kind : Nat) : Bool :=
  decide (1 ≤ len) && decide (len ≤ 8192) && !(kind == 1 && d.rd Port.LINE_BYTES p == 0)

/-- A write of LB_CFG of a Flegar block (R502, R503). A write that carries the present DEPTH is no DEPTH write. -/
def Dev.flbCfgWrite (d : Dev) (p v : Nat) : Dev :=
  let old := d.rd LbF.LB_CFG_DEPTH 0 p
  let depth := bits v 0 2
  let len := bits v 16 14
  if depth ≠ old ∧ depth ≠ 0 ∧ (d.rd Port.LB_CTRL_MODE p = 1 ∨ old ≠ 0) then d.badAccess 0x1F 0
  else if v.testBit 3 && !d.genMay p len (bitOf v 4) then d.badAccess 0x1F 0
  else
    let started := v.testBit 3 && (!d.is LbF.LB_CFG_GEN_EN 0 p || d.is LbF.LB_CFG_GEN_KIND 0 p) && !v.testBit 4
    let d := (d.wr LbF.LB_CFG_GEN_LEN 0 len p).wr LbF.LB_CFG_GEN_FMT 0 (bits v 5 2) p
    let d := (d.wr LbF.LB_CFG_GEN_KIND 0 (bitOf v 4) p).wr LbF.LB_CFG_GEN_EN 0 (bitOf v 3) p
    let d := d.wr LbF.LB_CFG_DEPTH 0 depth p
    let d := d.when (depth != old && d.enabled 0x0A p) (fun d => d.loopSet p depth)
    d.when started (fun d => d.testStart p)

/-- LB_CFG of a Flegar block as it stands. -/
def Dev.flbCfg (d : Dev) (p : Nat) : Nat :=
  d.rd LbF.LB_CFG_DEPTH 0 p + 8 * d.rd LbF.LB_CFG_GEN_EN 0 p + 16 * d.rd LbF.LB_CFG_GEN_KIND 0 p +
    32 * d.rd LbF.LB_CFG_GEN_FMT 0 p + 2 ^ 16 * d.rd LbF.LB_CFG_GEN_LEN 0 p

/-- A write of DEPTH of an Ethernet block (R507): EL0 and EL1 take the link down. -/
def Dev.elbCfgWrite (d : Dev) (n v : Nat) : Dev :=
  let depth := bits v 0 2
  let d := d.wr LbF.LB_CFG_DEPTH 0 depth (16 + n)
  let d := d.setLoop (16 + n) { d.loop (16 + n) with depth := depth }
  (d.when (depth == 1 || depth == 2) (fun d => d.ethDown n)).emit (.txDisable n (d.txDisable n))

/-- A write of PLB_CFG of a host link by requester r (R505): one that starts a loop takes the link down, and what its checker then
finds is not the device's to say. -/
def Dev.plbCfgWrite (m : FrameStore) (d : Dev) (r l v : Nat) : Dev :=
  let depth := bits v 0 2
  let old := d.rd Test.PLB_CFG_DEPTH 0 l
  let starts := depth != 0 && depth != old
  if starts && (!d.linkExists l || (decide (r < 64) && r / 16 == l)) then d.badAccess 0x1F 0
  else
    let d := d.when starts (fun d => d.hotReset m l)
    let d := (d.wr Test.PLB_CFG_RATE 0 (bits v 5 3) l).wr Test.PLB_CFG_PATTERN 0 (bitOf v 4) l
    let d := (d.wr Test.PLB_CFG_DEPTH 0 depth l).wrb Test.PLB_STAT_ACTIVE 0 (depth != 0) l
    if starts then
      let d := (d.wr Test.PLB_STAT_LOCKED 0 (d.freeVal 1) l).freeUsed
      let d := (d.wr Test.PLB_STAT_ERR_LANES 0 (d.freeVal 16) l).freeUsed
      (d.wr Test.PLB_ERR_CNT 0 (d.freeVal 32) l).freeUsed
    else d

def execFlbDepth (req : Req) (port : Fin 16) (depth : Fin 4) (s : State) : Host.Outcome State Fault Refusal :=
  s.upd (fun d => d.busW req.num 0x1F 0 (fun d =>
    d.flbCfgWrite port (d.flbCfg port - d.rd LbF.LB_CFG_DEPTH 0 port + depth)))

/-- GEN_EN of a Flegar block; an Ethernet block has none (R520). -/
def execGenEn (req : Req) (unit : LoopUnit) (on : Bool) (s : State) : Host.Outcome State Fault Refusal :=
  s.upd (fun d => d.busW req.num 0x1F 0 (fun d =>
    match unit with
    | .flegar p => d.flbCfgWrite p (d.flbCfg p - 8 * d.rd LbF.LB_CFG_GEN_EN 0 p + 8 * b2n on)
    | .ethernet _ => d))

def execElDepth (req : Req) (port : Fin 2) (depth : Fin 4) (s : State) : Host.Outcome State Fault Refusal :=
  s.upd (fun d => d.busW req.num 0x1F 0 (fun d => d.elbCfgWrite port depth))

def execPlbDepth (req : Req) (link : Fin 4) (depth : Fin 4) (s : State) : Host.Outcome State Fault Refusal :=
  s.updR (fun m d => d.busW req.num 0x1F 0 (fun d =>
    Dev.plbCfgWrite m d req.num link
      (depth + 16 * d.rd Test.PLB_CFG_PATTERN 0 link + 32 * d.rd Test.PLB_CFG_RATE 0 link)))

/-! ## Injectors (R511–R513) -/

/-- A held packet of an Ethernet block goes on: into the receive path, or out (R513). -/
def Dev.elbRelease (d : Dev) (n : Nat) : Dev :=
  let r := d.injRelease (16 + n)
  match r.2 with
  | some (0, bs) =>
    if !crcGood bs then r.1.incSat Eth.ETH_CNT_A_RX_ERR_CNT n
    else r.1.freeUsed.ethFrame n (bs.take (bs.length - 4)) (r.1.rxStamp n (r.1.freeVal 17))
  | some (_, bs) => r.1.emit (.eth n r.1.now bs false)
  | none => r.1

/-- The held packet of a block goes on. -/
def Dev.heldOut (d : Dev) (u : Nat) : Dev := if u < 16 then d.flbRelease u else d.elbRelease (u - 16)

/-- INJ_EN of a block is written: as it rises the injector starts over, as it falls the held packet is released. -/
def Dev.injSet (d : Dev) (u : Nat) (on : Bool) : Dev :=
  let old := d.is LbF.INJ_CFG_INJ_EN 0 u
  let d := d.wrb LbF.INJ_CFG_INJ_EN 0 on u
  if on && !old then d.setLoop u { d.loop u with isMatch := 0, draw := d.rd LbF.INJ_SEED_SEED 0 u }
  else if !on && old then d.heldOut u
  else d

/-- A write of INJ_CFG: while INJ_EN = 1 one that would change another field is discarded (R513). -/
def Dev.injCfgWrite (d : Dev) (u v : Nat) : Dev :=
  let fs := [LbF.INJ_CFG_DIR, LbF.INJ_CFG_ACTION, LbF.INJ_CFG_SELECT, LbF.INJ_CFG_RAND_BIT, LbF.INJ_CFG_HOLD, LbF.INJ_CFG_K,
    LbF.INJ_CFG_N]
  if d.is LbF.INJ_CFG_INJ_EN 0 u && fs.any (fun f => bits v f.lo f.w != d.rd f 0 u) then d.badAccess 0x1F 0
  else (fs.foldl (fun d f => d.wr f 0 (bits v f.lo f.w) u) d).injSet u (v.testBit 31)

def execInjEn (req : Req) (unit : LoopUnit) (on : Bool) (s : State) : Host.Outcome State Fault Refusal :=
  s.upd (fun d => d.busW req.num 0x1F 0 (fun d => d.injSet unit.num on))

/-- 100 µs after a packet was held (R513). -/
def execInjHoldTimeout (unit : LoopUnit) (s : State) : Host.Outcome State Fault Refusal :=
  s.upd (fun d => d.heldOut unit.num)

/-! ## Quadrature generator (R509) -/

/-- A write of QGEN: its fields, and a start that needs the claims of both outputs. While a run is in progress nothing is
taken. -/
def Dev.qgenWrite (d : Dev) (v : Nat) : Dev :=
  if d.is Test.STAT_QGEN_BUSY 0 then d.badAccess 0x1F 0
  else
    let k := bits v 27 3
    let d := ((d.wr Test.QGEN_DIR 0 (bitOf v 30)).wr Test.QGEN_CH 0 k).wr Test.QGEN_EDGES 0 (bits v 0 16)
    if !v.testBit 31 then d
    else if d.holds .tout (2 * k) 0x1F 0 && d.holds .tout (2 * k + 1) 0x1F 0 then
      let per := d.rd Test.QGEN_PERIOD_PERIOD 0 * sampleL
      let d := d.setQgen k ⟨bitOf v 30, bits v 0 16, per, d.nowL, (d.qgen k).place d.nowL⟩
      ((d.wr Test.QGEN_START 0 1).wr Test.STAT_QGEN_BUSY 0 1).emit
        (.quad k (bitOf v 30) (bits v 0 16) (d.rd Test.QGEN_PERIOD_PERIOD 0))
    else d.evt 0x1F 0 evtENABLE_REFUSED

def execQgen (req : Req) (ch : Fin 8) (dir : Bool) (edges : Nat) (s : State) : Host.Outcome State Fault Refusal :=
  s.upd (fun d => d.busW req.num 0x1F 0 (fun d =>
    d.qgenWrite (2 ^ 31 + b2n dir * 2 ^ 30 + ch * 2 ^ 27 + edges % 2 ^ 16)))

/-- The last edge of the run has left. -/
def Dev.qgenOver (d : Dev) : Bool :=
  let h := d.qgen (d.rd Test.QGEN_CH 0)
  decide (h.edges ≤ h.gone d.nowL)

/-- The last edge has left; before it nothing happens (R509). -/
def execQgenDone (s : State) : Host.Outcome State Fault Refusal :=
  s.upd (fun d => d.when (d.is Test.STAT_QGEN_BUSY 0 && d.qgenOver) (fun d =>
    ((d.wr Test.QGEN_START 0 0).wr Test.STAT_QGEN_BUSY 0 0).evt 0x1F 0 Test.E_QGEN_DONE))

/-! ## Frame-store tests (R510) -/

/-- Whether a test may start on a stack. -/
def Dev.hlbMay (d : Dev) (k mode n : Nat) : Bool :=
  match mode with
  | 1 => !d.enabled 0x18 k
  | 2 => d.holds .hbm n 0x1F 0 && d.rgnKind n == 0 && d.enabled 0x19 n && decide (0 < d.rgnBytes n) &&
      decide (stackBytes * k ≤ d.rgnBase n) && decide (d.rgnBase n + d.rgnBytes n ≤ stackBytes * (k + 1))
  | _ => false

/-- A write of HLB_CFG: the march test destroys the region's contents, and leaves the all-zeros words of its last writes. -/
def Dev.hlbWrite (d : Dev) (k v : Nat) : Dev :=
  if d.is Test.HLB_CFG_START 0 k then d.badAccess 0x1F 0
  else
    let mode := bits v 0 2
    let n := bits v 2 6
    if v.testBit 31 && !d.hlbMay k mode n then d.evt 0x1F 0 evtENABLE_REFUSED
    else
      let d := (d.wr Test.HLB_CFG_MODE 0 mode k).wr Test.HLB_CFG_REGION 0 n k
      if !v.testBit 31 then d
      else
        let d := ((d.wr Test.HLB_CFG_START 0 1 k).wr Test.HLB_CFG_PASS 0 0 k).wr Test.HLB_CFG_FAIL 0 0 k
        if mode = 2 then { d.badClear (d.rgnBase n) (d.rgnBytes n) with wbuf := d.wbuf ++ [MemOp.clear (d.rgnBase n) (d.rgnBytes n)] } else d

def execHlbStart (req : Req) (stack : Fin 4) (mode : Fin 4) (region : Fin 64) (s : State) :
    Host.Outcome State Fault Refusal :=
  s.updR (fun _ d => d.busW req.num 0x1F 0 (fun d => d.hlbWrite stack (2 ^ 31 + 4 * region + mode)))

/-- A test completes with its errors; those of the march test act as uncorrectable words (R405, R407, R510). -/
def Dev.hlbDone (d : Dev) (k errors first : Nat) : Dev :=
  if !d.is Test.HLB_CFG_START 0 k then d
  else
    let d := d.wr Test.HLB_CFG_START 0 0 k
    let d := (d.wrb Test.HLB_CFG_PASS 0 (errors == 0) k).wrb Test.HLB_CFG_FAIL 0 (errors != 0) k
    let d := d.when (errors != 0) (fun d => (d.addSat Test.ERR_CNT 0 errors k).wr Test.ERR_ADDR 0 first k)
    let d := d.when (errors != 0 && d.rd Test.HLB_CFG_MODE 0 k == 2 && stackOf first == k) (fun d =>
      let d := (d.hbmDbe first).addSat Hbm.ECC_CNT_DBE_CNT k (errors - 1)
      d.when (d.is Hbm.ECC_CFG_SPARE_AUTO k) (fun d => d.spareCause k (pcOf first)))
    d.evt 0x1F 0 Test.E_HBM_TEST_DONE

def execHbmTestDone (stack : Fin 4) (errors firstAddr : Nat) (s : State) : Host.Outcome State Fault Refusal :=
  s.upd (fun d => d.hlbDone stack errors firstAddr)

/-! ## Built-in self-test (R514–R516) -/

/-- The islands of BIST_SEL. -/
def Dev.bistSel (d : Dev) : List Nat := (List.range 192).filter (fun n => d.islBit Bist.BIST_SEL n)

/-- Whether a run on an island is accepted. -/
def Dev.bistMay (d : Dev) (logic : Bool) (n : Nat) : Bool :=
  islandGateable n && (!logic || (decide (32 ≤ n) && decide (n ≤ 64))) &&
    !((gatePages n).any (fun p => d.enabled (canon p.1 p.2).1 (canon p.1 p.2).2)) &&
    (!d.islBit Isl.GATE n || d.bist.heldMem.contains n || d.bist.heldLogic.contains n)

/-- A run is commanded; while one is in progress it is refused like an access. -/
def Dev.bistRun (d : Dev) (logic : Bool) : Dev :=
  if d.is Bist.BIST_CMD_BUSY 0 then d.badAccess 0x20 0
  else if !d.bistSel.all (d.bistMay logic) then d.evt 0x20 0 evtENABLE_REFUSED
  else
    let d := (d.wr Bist.BIST_CMD_BUSY 0 1).wr Bist.BIST_CMD_BOOT 0 0
    { d with bist := { d.bist with run := some (logic, d.bistSel) } }

/-- A write of BIST_CMD; a command for both tests runs memory BIST. -/
def Dev.bistCmd (d : Dev) (v : Nat) : Dev :=
  if v.testBit 0 then d.bistRun false else if v.testBit 1 then d.bistRun true else d

def execMbistRun (req : Req) (s : State) : Host.Outcome State Fault Refusal :=
  s.upd (fun d => d.busW req.num 0x20 0 (fun d => d.bistCmd 1))

def execLbistRun (req : Req) (s : State) : Host.Outcome State Fault Refusal :=
  s.upd (fun d => d.busW req.num 0x20 0 (fun d => d.bistCmd 2))

/-- Hold an island that failed, or end its hold (R516). -/
def BistH.hold (h : BistH) (logic : Bool) (n : Nat) (on : Bool) : BistH :=
  let f := fun (l : List Nat) => if on then l.filter (· != n) ++ [n] else l.filter (· != n)
  if logic then { h with heldLogic := f h.heldLogic } else { h with heldMem := f h.heldMem }

/-- An island has failed beyond repair (R89, R398, R516). -/
def Dev.bistFails (m : FrameStore) (d : Dev) (logic : Bool) (n : Nat) : Dev :=
  let d := { d with bist := d.bist.hold logic n true }
  let d := (d.setIslBit Bist.BIST_FAIL n true).flt 0x20 0 (if logic then Bist.F_LBIST_FAIL else Bist.F_MBIST_FAIL)
  let d := d.when (!logic) (fun d => d.flt 1 0 Fc.F_SRAM_REPAIR_EXH)
  let d := d.powerOff m n
  if 128 ≤ n then d.laneFail (n - 128)
  else if 48 ≤ n ∧ n ≤ 64 then (d.flt 0x0D (n - 48) Ce.F_ENGINE_FAIL).engFailed m (n - 48)
  else d

/-- An island has passed: its hold by this test ends, its memories read 0, and its island reset begins (R514, R516). -/
def Dev.bistPasses (m : FrameStore) (d : Dev) (logic : Bool) (n : Nat) : Dev :=
  let was := d.bist.heldMem.contains n || d.bist.heldLogic.contains n
  let d := { d with bist := d.bist.hold logic n false }
  let d := d.setIslBit Bist.BIST_FAIL n false
  let held := d.bist.heldMem.contains n || d.bist.heldLogic.contains n
  let d := d.when (!logic) (fun d => (islandPages n).foldl (fun d p => d.dropTabs p.1 p.2) d)
  let d := d.when (was && !held) (fun d => (d.setIslBit Isl.GATE n false).setIslBit Isl.PWR n true)
  d.when (!held) (fun d => d.islReset m n)

/-- A run ends (R514–R516): islands repaired, islands that failed, spare rows used. -/
def Dev.bistDone (m : FrameStore) (d : Dev) (repaired failed : List Nat) (rows : Nat) : Dev :=
  match d.bist.run with
  | none => d
  | some (logic, isl) =>
    let d := { d with bist := { d.bist with run := none } }
    let d := isl.foldl (fun d n =>
      let d := d.when (!logic) (fun d => d.setIslBit Bist.BIST_REP n (repaired.contains n))
      if failed.contains n then d.bistFails m logic n else d.bistPasses m logic n) d
    ((d.wr Bist.BIST_CMD_BUSY 0 0).addSat Bist.ROWS_USED 0 (if logic then 0 else rows)).evt 0x20 0 Bist.E_BIST_DONE

def execBistDone (repaired failed : List Nat) (rows : Nat) (s : State) : Host.Outcome State Fault Refusal :=
  s.updR (fun m d => d.bistDone m repaired failed rows)

/-! ## JTAG (R517) -/

/-- IDCODE (R517). -/
abbrev jtagId : Nat := 0x071604B5

/-- Select an instruction. -/
def Dev.setIr (d : Dev) (op : Nat) : Dev := { d with jtag := { d.jtag with ir := op } }

/-- Drive the boundary register. -/
def Dev.setPins (d : Dev) (pins : Nat) : Dev := { d with jtag := { d.jtag with pins := pins } }

/-- TRST_N resets the TAP only: IDCODE is selected. -/
def execTrstN (s : State) : Host.Outcome State Fault Refusal := s.upd (fun d => d.setIr 0x01)

def execExtest (pins : Nat) (s : State) : Host.Outcome State Fault Refusal :=
  s.upd (fun d => ((d.setIr 0x00).setPins pins).emit (.jtag 0 pins))

def execIdcode (s : State) : Host.Outcome State Fault Refusal :=
  s.upd (fun d => (d.setIr 0x01).emit (.jtag 32 jtagId))

/-- The pins' levels are captured and shifted out, and the boundary register is loaded. -/
def execSamplePreload (pins : Nat) (s : State) : Host.Outcome State Fault Refusal :=
  s.upd (fun d => (((d.setIr 0x02).setPins pins).emit (.jtag 0 (Config.pinCapture d.free))).freeUsed)

def execHighz (s : State) : Host.Outcome State Fault Refusal := s.upd (fun d => d.setIr 0x03)

/-- The pins take the levels loaded before. -/
def execClamp (s : State) : Host.Outcome State Fault Refusal :=
  s.upd (fun d => (d.setIr 0x04).emit (.jtag 0 d.jtag.pins))

def execExtestPulse (pins : Nat) (s : State) : Host.Outcome State Fault Refusal :=
  s.upd (fun d => ((d.setIr 0x05).setPins pins).emit (.jtag 0 pins))

def execExtestTrain (pins : Nat) (s : State) : Host.Outcome State Fault Refusal :=
  s.upd (fun d => ((d.setIr 0x06).setPins pins).emit (.jtag 0 pins))

/-- Every other opcode: one bit of delay, captured as 0, between TDI and TDO. -/
def execBypass (bit : Bool) (s : State) : Host.Outcome State Fault Refusal :=
  s.upd (fun d => (d.setIr 0xFF).emit (.jtag 2 (2 * b2n bit)))

end Sys2Proof.Machine
end

