-- ==== Sys2Proof/Machine/Tables.lean ====
section
/-!
DEFINITION. Tables: sizes, checkers and write rules of every indirect table, the indirect port, and its commands (R53,
R54; R221, R222, R262, R278, R287, R341, R394, R395, R432, R433, R447, R454).
The log's entries 10 and 17 of notes/assumptions name what is DEDUCED or a DESIGN CHOICE here, and marks each.
-/

namespace Sys2Proof.Machine

/-- Windows of a function (R449). -/
def Dev.windows (d : Dev) (fn : Nat) : Nat :=
  2 ^ (bits (if fn % 16 = 0 then d.boot.cfg.pfBar2 else d.boot.cfg.vfBar2) (8 * (fn / 16)) 8 - 28)

/-- Bytes per entry and entries of a table; none where the page has no such table. -/
def Dev.tabInfo (d : Dev) (c i t : Nat) : Option (Nat × Nat) :=
  match c, t with
  | 0x0C, 0 | 0x0C, 1 => some (16, 32768)
  | 0x0D, 0 => some (16, 16)
  | 0x0D, 1 | 0x0D, 4 => some (16, 256)
  | 0x0D, 2 => some (16, 64)
  | 0x0D, 3 => some (8, 131072)
  | 0x0F, 0 => if i = 63 then some (4, 524288) else none
  | 0x0F, 1 => if i = 63 then some (16, 4096) else none
  | 0x13, 0 => some (8, 131072)
  | 0x15, 0 | 0x15, 1 => some (16, 4096)
  | 0x15, 2 => some (1, 4096)
  | 0x17, 0 => some (16, 1024)
  | 0x17, 1 => some (16, 256)
  | 0x17, 2 => some (8, 32)
  | 0x1C, 0 => some (2, 3840)
  | 0x1D, 0 | 0x1D, 1 => some (16, d.windows i)
  | 0x1E, 0 => some (8, fnVectors i)
  | 0x1E, 1 => some (4, 4096)
  | _, _ => none

/-- Pages with an indirect port: CAP.HAS_INDIRECT (R36). -/
def hasIndirect (c i : Nat) : Bool :=
  c == 0x0C || c == 0x0D || (c == 0x0F && i == 63) || c == 0x13 || c == 0x15 || c == 0x17 || c == 0x1C || c == 0x1D || c == 0x1E

/-- Pages whose tables BAR2 windows map: CAP.HAS_WINDOW with a table memory (R36, R450). -/
def hasTabWindow (c i : Nat) : Bool :=
  c == 0x0C || c == 0x0D || (c == 0x0F && i == 63) || c == 0x13

/-- The instance that stands for a page's table: the Compare List is one table of all streams (R221). -/
def tabInst (c i : Nat) : Nat := if c = 0x13 then 0 else i

/-- SBE and DBE bits of the checker of a table; the slot table and the interrupt tables have none. -/
def tabFlt (c t : Nat) : Option (Nat × Nat) :=
  match c with
  | 0x0C => some (Lcu.F_TBL_SBE, Lcu.F_TBL_DBE)
  | 0x0D => some (if t = 4 then (Ce.F_PT_SBE, Ce.F_PT_DBE) else (Ce.F_CT_SBE, Ce.F_CT_DBE))
  | 0x0F => some (if t = 0 then (Pl63.F_CM_SBE, Pl63.F_CM_DBE) else (Pl63.F_HGT_SBE, Pl63.F_HGT_DBE))
  | 0x13 => some (Cs.F_CL_SBE, Cs.F_CL_DBE)
  | 0x15 => some (Ta.F_TA_SBE, Ta.F_TA_DBE)
  | 0x17 => some (Vox.F_VT_SBE, Vox.F_VT_DBE)
  | 0x1D => some (Wtt.F_WTT_SBE, Wtt.F_WTT_DBE)
  | _ => none

/-! ## What an entry may hold -/

/-- A zone class entry (R342). -/
def zoneOk (v : Nat) : Bool :=
  (v.testBit 0 || bits v 1 3 == 0) &&
    (List.range 3).all (fun j =>
      let t := bits v (16 + 16 * j) 16
      t != 0 || !v.testBit (1 + j))

/-- A fiducial entry (R343): an entry that is not VALID is not held to its ranges. -/
def fidOk (v : Nat) : Bool :=
  let on := v.testBit 16
  (!on || bits v 0 16 != 0) && (!on || v.testBit 17 || v.testBit 18) && (!v.testBit 19 || v.testBit 18) &&
    decide (bits v 32 16 ≤ 32767) && decide (bits v 64 32 ≤ 131071) &&
    decide (4 ≤ bits v 96 8) && decide (bits v 96 8 ≤ 128) && decide (4 ≤ bits v 104 8) && decide (bits v 104 8 ≤ 128)

/-- A mask directory entry (R344). -/
def dirOk (v : Nat) : Bool :=
  bits v 0 16 != 0 && decide (bits v 32 32 + bits v 80 16 * bits v 96 16 ≤ 131072)

/-- A patch entry (R395). -/
def patchOk (v : Nat) : Bool :=
  (!v.testBit 16 || bits v 0 16 != 0) && decide (4 ≤ bits v 48 16) && decide (bits v 48 16 ≤ 1024) &&
    decide (4 ≤ bits v 96 16) && decide (bits v 96 16 ≤ 1024)

/-- A Voxord table entry (R278): one that is VALID selects a port. -/
def voxOk (t v : Nat) : Bool :=
  if t = 0 then !v.testBit 72 || bits v 64 2 != 0 else !v.testBit 16 || bits v 24 2 != 0

/-- Whether a page is visible to a partition (R57, R61). -/
def Dev.visibleTo (d : Dev) (p c i : Nat) : Bool :=
  d.implemented c i &&
    (pageShared c || decide (d.pagePart c i = p) || (d.borrowed c i && decide (d.resPart Claims.ACT_CES 16 = p)))

/-- A VF slot entry (R447). -/
def Dev.slotOk (d : Dev) (l idx v : Nat) : Bool :=
  let c := bits v 8 6
  decide (16 ≤ idx % 256) && !decide (c ≤ 0x05) && !(decide (0x1C ≤ c) && decide (c ≤ 0x1E)) &&
    d.visibleTo (d.linkPart l) c (bits v 0 6)

/-- An event-map entry of a function (R432). -/
def Dev.mapOk (d : Dev) (fn idx v : Nat) : Bool :=
  let p := d.linkPart (fn / 16)
  d.visibleTo p (idx / 64) (idx % 64) && decide (bits v 0 11 < fnVectors fn) &&
    (!v.testBit 30 || decide (d.resPart Claims.ACT_DQ_GROUPS (bits v 16 8 / 8) = p))

/-- Store an entry with its page's checker. -/
def Dev.putEntry (d : Dev) (c i t idx v : Nat) : Dev :=
  match tabFlt c t with
  | some (sbe, dbe) => d.putTab c i sbe dbe c (tabInst c i) t idx v
  | none => d.setTab c i t idx v

/-- A write of one entry for a requester's partition; false where it is refused. The page is a field page. -/
def Dev.tabWrite (d : Dev) (part c i t idx v : Nat) : Dev × Bool :=
  let put := fun (ok : Bool) (v : Nat) => if ok then (d.putEntry c i t idx v, true) else (d, false)
  match c, t with
  | 0x0C, _ =>
    put (!(d.enabled 0x0C i && (d.rd Lcu.STAT_BANK_ACTIVE i == t || d.is Lcu.STAT_BANK_PENDING i))) v
  | 0x0D, 0 => put (zoneOk v) v
  | 0x0D, 1 => put (fidOk v) v
  | 0x0D, 2 => put (dirOk v && !(d.rd Ce.MASK_BUSY i).testBit idx) v
  | 0x0D, 4 => put (patchOk v) v
  | 0x0F, 0 => put true (bits v 0 23 + bitOf v 31 * 2 ^ 31)
  | 0x13, _ => d.entryWrite part idx v
  | 0x15, _ => d.taWrite t idx v
  | 0x17, _ => put (voxOk t v) v
  | 0x1C, _ => put (d.slotOk i idx v) v
  | 0x1D, 0 => (d.evt 0x1D i Wtt.E_WTT_BUSY, false)
  | 0x1E, 1 => put (d.mapOk i idx v) v
  | _, _ => put true v

/-! ## The indirect port (R53, R54) -/

/-- The 128-bit image in TBL_DATA. -/
def Dev.tblImage (d : Dev) (c i : Nat) : Nat :=
  (List.range 4).foldl (fun a j => a + d.rd (Tbl.TBL_DATA.at c) i j * 2 ^ (32 * j)) 0

def Dev.setTblImage (d : Dev) (c i v : Nat) : Dev :=
  (List.range 4).foldl (fun d j => d.wr (Tbl.TBL_DATA.at c) i (bits v (32 * j) 32) j) d

/-- VALID of an entry that reads as not VALID while its word is uncorrectable: the Voxord tables (R282), the column map and
height table of Plumb-line (R403). -/
def validBit (c t : Nat) : Option Nat :=
  match c, t with
  | 0x17, 0 => some 72
  | 0x17, _ => some 16
  | 0x0F, 0 => some 31
  | 0x0F, _ => some 24
  | _, _ => none

/-- An image with VALID cleared where its table has such a bit. -/
def notValid (c t v : Nat) : Nat :=
  match validBit c t with
  | some b => if v.testBit b then v - 2 ^ b else v
  | none => v

/-- An entry as a reader other than the block gets it: its checker reports, and an uncorrectable word has no stated value
beside a VALID that reads 0. -/
def Dev.tabGet (d : Dev) (c i t idx bytes : Nat) : Dev × Nat :=
  let k := tabInst c i
  let e := d.tabErr c k t idx
  let v := d.tab c k t idx
  match tabFlt c t with
  | none => (d, v)
  | some (sbe, dbe) =>
    let d := d.readTab c i sbe dbe c k t idx
    if e = 2 then (d.freeUsed, notValid c t (d.freeVal (8 * bytes))) else (d, v)

/-- An operation ends without having been carried out. -/
def Dev.tblRefuse (d : Dev) (c i : Nat) : Dev := d.wr (Tbl.TBL_CMD_ERR.at c) i 1

/-- An operation that was carried out increments INDEX under AUTO_INC. -/
def Dev.tblNext (d : Dev) (c i : Nat) : Dev :=
  d.when (d.is (Tbl.TBL_CMD_AUTO_INC.at c) i) (fun d => d.addWrap (Tbl.TBL_ADDR_INDEX.at c) i 1)

/-- Carry out an operation on the selected entry: the device answers it at once and BUSY stays until TBL_OP_DONE. -/
def Dev.tblOp (d : Dev) (part c i : Nat) (write : Bool) : Dev :=
  let t := d.rd (Tbl.TBL_ADDR_TABLE.at c) i
  let idx := d.rd (Tbl.TBL_ADDR_INDEX.at c) i
  let d := d.wr (Tbl.TBL_CMD_BUSY.at c) i 1
  match d.tabInfo c i t with
  | none => d.tblRefuse c i
  | some (bytes, n) =>
    if n ≤ idx then d.tblRefuse c i
    else if write then
      let r := d.tabWrite part c i t idx (d.tblImage c i % 2 ^ (8 * bytes))
      if r.2 then r.1.tblNext c i else r.1.tblRefuse c i
    else
      let lost := c == 0x13 && d.tabErr c (tabInst c i) t idx == 2
      let r := d.tabGet c i t idx bytes
      if lost then r.1.tblRefuse c i else (r.1.setTblImage c i r.2).tblNext c i

/-- A write of TBL_CMD: while BUSY it is discarded; ERR clears first, then the operation starts (R54). -/
def Dev.tblCmd (d : Dev) (part c i v : Nat) : Dev :=
  if d.is (Tbl.TBL_CMD_BUSY.at c) i then d.badAccess c i
  else
    let d := d.when (v.testBit 30) (fun d => d.wr (Tbl.TBL_CMD_ERR.at c) i 0)
    let d := d.wr (Tbl.TBL_CMD_AUTO_INC.at c) i (bitOf v 2)
    match bits v 0 2 with
    | 1 => d.tblOp part c i false
    | 2 => d.tblOp part c i true
    | _ => d

/-- A write of TBL_ADDR or TBL_DATA while BUSY is discarded (R54). -/
def Dev.tblGuard (d : Dev) (c i : Nat) (k : Dev → Dev) : Dev :=
  if d.is (Tbl.TBL_CMD_BUSY.at c) i then d.badAccess c i else k d

/-- An operation is started with AUTO_INC as it stands. -/
def Dev.tblStart (d : Dev) (r c i op : Nat) : Dev :=
  d.busW r c i (fun d =>
    if hasIndirect c i then d.tblCmd (d.reqPart r) c i (op + 4 * b2n (d.is (Tbl.TBL_CMD_AUTO_INC.at c) i)) else d)

def execTableRead (req : Req) (cls inst : Nat) (s : State) : Host.Outcome State Fault Refusal :=
  s.upd (fun d => d.tblStart req.num cls inst 1)

def execTableWrite (req : Req) (cls inst : Nat) (s : State) : Host.Outcome State Fault Refusal :=
  s.upd (fun d => d.tblStart req.num cls inst 2)

def execTblOpDone (cls inst : Nat) (s : State) : Host.Outcome State Fault Refusal :=
  s.upd (fun d => d.when (d.is (Tbl.TBL_CMD_BUSY.at cls) inst) (fun d => d.wr (Tbl.TBL_CMD_BUSY.at cls) inst 0))

/-- TBL_INFO as it reads for the selected table; an unknown table has no stated value. -/
def Dev.tblInfo (d : Dev) (c i : Nat) : Dev × Nat :=
  match d.tabInfo c i (d.rd (Tbl.TBL_ADDR_TABLE.at c) i) with
  | some (bytes, n) => (d, bytes * 2 ^ 24 + (n - 1))
  | none => (d.freeUsed, d.freeVal 32)

/-- TBL_BASE of a table (R450): 4 KiB pages of the table space; where each stands is the implementation's. -/
def tblBase (c i t : Nat) : Nat := 0x080000000000 + 4096 * (Config.tablePage c (tabInst c i) t % 0xEF000)

/-- TBL_BASE as it reads for the selected table; only a table that a window can map has one stated. -/
def Dev.tblBaseRead (d : Dev) (c i : Nat) : Dev × Nat :=
  let t := d.rd (Tbl.TBL_ADDR_TABLE.at c) i
  if hasTabWindow c i && (d.tabInfo c i t).isSome then (d, tblBase c i t) else (d.freeUsed, d.freeVal 64)

end Sys2Proof.Machine
end

