-- ==== Sys2Proof/Machine/Checkers.lean ====
section
/-!
DEFINITION. Checkers of the pages: injections through FLT_INJ, and the SRAM scrubber (R42, R487, R492, R495).
The log's entries 61 and 62 of notes/assumptions name what is DEDUCED or a DESIGN CHOICE here, and marks each.
-/

namespace Sys2Proof.Machine

/-! ## The gate of the registers that AO holds in a page (R30, R32, R47) -/

/-- Carry a write of an AO-held register of a page, or discard it under R30 and R447. -/
def Dev.busAO (d : Dev) (r c i : Nat) (k : Dev → Dev) : Dev :=
  if !d.implemented c i || !d.reqLive r || (isVf r && !d.vfReaches r c i false) then d
  else if !d.writable r c i || (isVf r && !d.vfReaches r c i true) then d.deny
  else k d

/-! ## Injection (R495) -/

/-- FLT bits whose source is no checker of R495: they ignore FLT_INJ. -/
def notChecker (c b : Nat) : Bool :=
  match c with
  | 0x01 => b == Fc.F_SRAM_REPAIR_EXH
  | 0x02 => b == Nv.F_NV_WEAR
  | 0x08 => b == Lane.F_RX_FAIL
  | 0x0A => b == Port.F_PORT_NARROWED || b == Port.F_PORT_LANES_LOST || b == Port.F_RETRY_EXHAUSTED || b == Port.F_CREDIT_VIOL
  | 0x0D => b == Ce.F_SPARE_IN_USE || b == Ce.F_NO_SPARE
  | 0x10 => b == Pos.F_SER_FAULT || b == Pos.F_WIRE_FAULT || b == Pos.F_QERR_FAULT
  | 0x11 => b == Din.F_WIRE_FAULT
  | 0x18 => b == Hbm.F_PC_FAIL || b == Hbm.F_PC_SPARED
  | 0x20 => true
  | _ => false

/-- The islands a clock monitor other than that of Position/Trigger watches. -/
def clockIslands : List Nat := (List.range 192).filter (fun n => islandKnown n && n != 0 && n != 2)

/-- A checker that watches all the time reports at once: lockstep pairs, watchdogs, clock, supply and temperature monitors, and
a die-to-die transfer with one failed attempt. None where the checker waits for its next operation. -/
def Dev.injNow (m : FrameStore) (d : Dev) (c i b : Nat) : Option Dev :=
  match c with
  | 0x01 =>
    match b with
    | 31 => some (d.flt 1 0 Fc.F_AO_LOCKSTEP)
    | 30 => some (d.flt 1 0 Fc.F_FAB_LOCKSTEP)
    | 29 | 18 => some (d.bridgeCrc 1)
    | 28 => some d.vmon
    | 27 => some (d.flt 1 0 Fc.F_TEMP_CRIT)
    | 26 => some (d.ptClkLoss m)
    | 25 => some (d.freeUsed.islClkLoss m (clockIslands.getD (d.freeVal 16 % clockIslands.length) 1))
    | 24 => some (d.pcieRefLoss m 0)
    | 23 => some (d.pcieRefLoss m 1)
    | 22 => some (d.flt 1 0 Fc.F_XTAL_LOSS)
    | 17 => some d.tempHot
    | _ => none
  | 0x08 => if b = Lane.F_HS_WDOG then some (d.hsWdog m (128 + i)) else none
  | 0x0A =>
    if b = Port.F_HS_WDOG then some (d.hsWdog m (16 + i)) else if b = Port.F_REFOUT_FAIL then some (d.refoutFail i) else none
  | 0x0C => if b = Lcu.F_HS_WDOG then some (d.hsWdog m (32 + i)) else none
  | 0x0D => if b = Ce.F_HS_WDOG then some (d.hsWdog m (48 + i)) else none
  | 0x10 => if b = Pos.F_LOCKSTEP then some (d.when (d.powered 2) (fun d => d.lockstep (.channel (Fin.ofNat 8 i)))) else none
  | 0x12 =>
    if i < 32 then
      if b = Out.F_LOCKSTEP then some (d.when (d.powered 2) (fun d => d.lockstep (.output (Fin.ofNat 32 i))))
      else some d
    else some (d.when (d.powered 2) (fun d => d.lockstep (.generator (Fin.ofNat 16 (i - 32)))))
  | 0x13 =>
    if b = Cs.F_LOCKSTEP then some (d.when (d.powered 2) (fun d => d.lockstep (.stream (Fin.ofNat 32 i)))) else none
  | 0x14 => some (({ d with clkLost := true } : Dev).clkFree.flt 0x14 0 b)
  | 0x16 => if b = Eth.F_HS_WDOG then some (d.hsWdog m 3) else none
  | 0x18 =>
    if b = Hbm.F_HS_WDOG then some (d.hsWdog m (8 + i))
    else if b = Hbm.F_LINK_ERR then (if d.hbmRuns i then some (d.flt 0x18 i b) else none)
    else none
  | 0x1C => if b = Link.F_HS_WDOG then some (d.hsWdog m (5 + i % 2)) else none
  | _ => none

/-- Bit b of FLT_INJ of a field page is written 1. -/
def Dev.injArm (m : FrameStore) (d : Dev) (c i b : Nat) : Dev :=
  match fltSeverity c i b with
  | none => d
  | some sev =>
    if notChecker c b || (sev == 4 && !d.is Fc.FC_CFG_INJ_UNLOCK 0) then d
    else match d.injNow m c i b with
      | some e => e
      | none => d.wr (Hdr.FLT_INJ c) i (d.rd (Hdr.FLT_INJ c) i ||| 2 ^ b)

/-- A write of FLT_INJ of a field page: bits written 0 are disarmed, bits written 1 act in rising order. -/
def Dev.fltInj (m : FrameStore) (d : Dev) (c i v : Nat) : Dev :=
  let old := d.rd (Hdr.FLT_INJ c) i
  let d := d.wr (Hdr.FLT_INJ c) i (old &&& v)
  (List.range 32).foldl (fun d b => if v.testBit b && !old.testBit b then d.injArm m c i b else d) d

def execFltInj (req : Req) (cls inst : Nat) (mask : Word) (s : State) : Host.Outcome State Fault Refusal :=
  s.updR (fun m d => d.busAO req.num cls inst (fun d =>
    d.guard (fun d => d.fltInj m (canon cls inst).1 (canon cls inst).2 mask.toNat)))

/-! ## Scrubbing (R487, R492) -/

/-- The SECDED pairs of a page's SRAMs. -/
def sramPairs (c i : Nat) : List (Nat × Nat) :=
  match c with
  | 0x0A => [(Port.F_RB_SBE, Port.F_RB_DBE)]
  | 0x0B => [(Ingest.F_FIFO_SBE, Ingest.F_FIFO_DBE)]
  | 0x0C => [(Lcu.F_BUF_SBE, Lcu.F_BUF_DBE), (Lcu.F_TBL_SBE, Lcu.F_TBL_DBE)]
  | 0x0D => [(Ce.F_CT_SBE, Ce.F_CT_DBE), (Ce.F_ST_SBE, Ce.F_ST_DBE), (Ce.F_PT_SBE, Ce.F_PT_DBE)]
  | 0x0E => [(Ri.F_BUF_SBE, Ri.F_BUF_DBE)]
  | 0x0F =>
    if i = 63 then [(Pl63.F_CM_SBE, Pl63.F_CM_DBE), (Pl63.F_HGT_SBE, Pl63.F_HGT_DBE)] else [(Pl.F_ACC_SBE, Pl.F_ACC_DBE)]
  | 0x10 => [(Pos.F_HIST_SBE, Pos.F_HIST_DBE)]
  | 0x11 => [(Din.F_EV_SBE, Din.F_EV_DBE)]
  | 0x13 => [(Cs.F_CL_SBE, Cs.F_CL_DBE)]
  | 0x15 => [(Ta.F_TA_SBE, Ta.F_TA_DBE)]
  | 0x16 => [(Eth.F_BUF_SBE, Eth.F_BUF_DBE)]
  | 0x17 => [(Vox.F_VT_SBE, Vox.F_VT_DBE)]
  | 0x1A => [(De.F_STG_SBE, De.F_STG_DBE)]
  | 0x1B => [(Dq.F_CTX_SBE, Dq.F_CTX_DBE)]
  | 0x1C => [(Link.F_REPLAY_SBE, Link.F_REPLAY_DBE)]
  | 0x1D => [(Wtt.F_WTT_SBE, Wtt.F_WTT_DBE)]
  | _ => []

/-- An uncorrectable word in a buffer is found: control packets are abandoned (R133), an event FIFO is flushed (R211), any
other buffer meets it at its next use (DEDUCED, assumption 61). -/
def Dev.bufLost (d : Dev) (c i dbe : Nat) : Dev :=
  match c with
  | 0x0A => (d.ctlAbandon i false).mgmtPump i
  | 0x11 => d.qFlush (16 + i)
  | _ => d.setTabErr c i 0xFE dbe 2

/-- The scrubber reads a word. An index from 2^24 on is a table word: (table + 1) × 2^24 + entry; below it a word of a
buffer. What the word holds already counts as well as what the command brings. -/
def Dev.scrub (d : Dev) (w : SramWord) (err : SramErr) : Dev :=
  let c := (canon w.cls w.inst).1
  let i := (canon w.cls w.inst).2
  let found := match err with
    | .none => 0
    | .single => 1
    | .double => 2
  if !(d.is Fc.FC_CFG_SRAM_SCRUB_EN 0 && d.implemented w.cls w.inst && (sramPairs c i).contains (w.sbe, w.dbe) &&
      !d.silent w.cls w.inst && !d.wedged (islandOf w.cls w.inst)) then d
  else if 2 ^ 24 ≤ w.index then
    let t := w.index / 2 ^ 24 - 1
    let x := w.index % 2 ^ 24
    match max found (d.tabErr c (tabInst c i) t x) with
    | 0 => d
    | 1 => (d.setTabErr c (tabInst c i) t x 0).corrected c i w.sbe (tabKey c (tabInst c i) t x)
    | _ => (d.setTabErr c (tabInst c i) t x 2).tabLost c i w.dbe c x
  else match max found (d.tabErr c i 0xFE w.dbe) with
    | 0 => d
    | 1 => d.corrected c i w.sbe (tabKey c i 0xFF w.index)
    | _ => (d.flt c i w.dbe).bufLost c i w.dbe

def execSramScrub (word : SramWord) (err : SramErr) (s : State) : Host.Outcome State Fault Refusal :=
  s.upd (fun d => d.scrub word err)

end Sys2Proof.Machine
end

