-- ==== Sys2Proof/Machine/Windows.lean ====
section
/-!
DEFINITION. BAR2 windows: the internal address space, translation by the WTT, reads and writes of the mapped objects,
commit of WTT entries (R55, R197, R411, R449–R456).
The log's entry 18 of notes/assumptions names what is DEDUCED or a DESIGN CHOICE here, and marks each.
-/

namespace Sys2Proof.Machine

/-! ## The internal address space (R450) -/

/-- What a window can map: a frame-store region, a table memory, the history ring of a channel. -/
inductive WinObj where
  | region (n : Nat)
  | table (c i t : Nat)
  | ring (k : Nat)
  deriving DecidableEq, Repr

/-- First internal address of the frame store, and of the history rings (R197, R404). -/
abbrev storeBase : Nat := 0x100000000000
abbrev ringBase : Nat := 0x0800F0000000

/-- The table memories that windows can map. -/
def winTables : List (Nat × Nat × Nat) :=
  (List.range 16).flatMap (fun i => [(0x0C, i, 0), (0x0C, i, 1)]) ++
    (List.range 17).flatMap (fun i => (List.range 5).map (fun t => (0x0D, i, t))) ++
    [(0x0F, 63, 0), (0x0F, 63, 1), (0x13, 0, 0)]

/-- Bytes of a table memory, padded to 4 KiB. -/
def Dev.tabSpan (d : Dev) (c i t : Nat) : Nat :=
  match d.tabInfo c i t with
  | some (b, n) => cdiv (b * n) 4096 * 4096
  | none => 0

/-- Internal address and length of an object. -/
def Dev.objSpan (d : Dev) : WinObj → Nat × Nat
  | .region n => (storeBase + d.rgnBase n, d.rgnBytes n)
  | .table c i t => (tblBase c i t, d.tabSpan c i t)
  | .ring k => (ringBase + 0x200000 * k, 0x200000)

/-- Whether n bytes from an internal address lie wholly in an object. -/
def Dev.inObj (d : Dev) (a n : Nat) (o : WinObj) : Bool :=
  let s := d.objSpan o
  decide (s.1 ≤ a) && decide (a + n ≤ s.1 + s.2)

/-- The mappable object in which a span wholly lies. -/
def Dev.objOf (d : Dev) (a n : Nat) : Option WinObj :=
  ((((List.range 64).filter (fun r => d.enabled 0x19 r)).map WinObj.region) ++ (List.range 8).map WinObj.ring ++
    winTables.map (fun x => WinObj.table x.1 x.2.1 x.2.2)).find? (d.inObj a n)

/-- Whether an object belongs to a partition: the Compare List to each that holds a stream (R222, R450). -/
def Dev.objMine (d : Dev) (p : Nat) : WinObj → Bool
  | .region n => d.pagePart 0x19 n == p
  | .table c i _ => if c = 0x13 then (List.range 32).any (fun n => d.pagePart 0x13 n == p) else d.pagePart c i == p
  | .ring k => d.pagePart 0x10 k == p

/-- The page whose island holds an object. -/
def WinObj.page : WinObj → Nat × Nat
  | .region n => (0x19, n)
  | .table c i _ => (c, i)
  | .ring k => (0x10, k)

/-! ## Access to an object -/

/-- n bytes of a table memory from an offset: the checker sees every entry touched; padding reads 0. -/
def Dev.tabBytes (d : Dev) (c i t off n : Nat) : Dev × List Nat :=
  match d.tabInfo c i t with
  | none => (d, zeros n)
  | some (b, cnt) =>
    let first := off / b
    let r := (List.range (cdiv (off + n) b - first)).foldl (fun (a : Dev × List Nat) j =>
      if first + j < cnt then
        let g := a.1.tabGet c i t (first + j) b
        (g.1, a.2 ++ leBytes b g.2)
      else (a.1, a.2 ++ zeros b)) (d, [])
    (r.1, (r.2.drop (off - first * b)).take n)

/-- One entry of a table memory is written by a window, whole: only the Compare List checks it (R55, R222). -/
def Dev.tabStore (d : Dev) (part c i t idx v : Nat) : Dev :=
  match c, t with
  | 0x13, _ =>
    let r := d.entryWrite part idx v
    if r.2 then r.1 else r.1.deny
  | 0x0F, 0 => d.putEntry c i t idx (bits v 0 23 + bitOf v 31 * 2 ^ 31)
  | _, _ => d.putEntry c i t idx v

/-- Write bytes into a table memory: every entry touched is read, changed and written; padding discards them (R55). -/
def Dev.tabPatch (d : Dev) (part c i t off : Nat) (bs : List Nat) : Dev :=
  match d.tabInfo c i t with
  | none => d
  | some (b, cnt) =>
    let first := off / b
    (List.range (cdiv (off + bs.length) b - first)).foldl (fun d j =>
      let idx := first + j
      if idx < cnt then
        let old := leBytes b (d.tab c (tabInst c i) t idx)
        let new := (List.range b).map (fun x =>
          let at? := idx * b + x
          if off ≤ at? ∧ at? < off + bs.length then byteAt bs (at? - off) else old.getD x 0)
        d.tabStore part c i t idx (le new 0 b)
      else d) d

/-- n bytes of a channel's history ring (R197, R198). -/
def Dev.ringBytes (d : Dev) (k off n : Nat) : Dev × List Nat :=
  let first := off / 32
  let r := (List.range (cdiv (off + n) 32 - first)).foldl (fun (a : Dev × List Nat) j =>
    let v := a.1.hist k (first + j)
    (a.1.histRead k ((first + j) % 65536), a.2 ++ leBytes 32 v)) (d, [])
  (r.1, (r.2.drop (off - first * 32)).take n)

/-- Bytes of the frame store as a window reads them: poisoned words are 0, and the completion says so (R405, R453). -/
def storeBytes (m : FrameStore) (a n : Nat) : List Nat × Bool :=
  let bad := m.poisoned a n
  let raw := m.read a n
  (raw.zipIdx.map (fun x => if bad.contains ((a + x.2) / 8) then 0 else x.1), !bad.isEmpty)

/-- Whether the island of an object answers. -/
def Dev.objAnswers (d : Dev) (o : WinObj) : Bool :=
  let i := islandOf o.page.1 o.page.2
  !d.silent o.page.1 o.page.2 && !d.wedged i

/-- A read of a mapped object: data, and whether it is poisoned. -/
def Dev.objRead (m : FrameStore) (d : Dev) (o : WinObj) (a n : Nat) : Dev × List Nat × Bool :=
  let off := a - (d.objSpan o).1
  if !d.objAnswers o then (d, zeros n, false)
  else match o with
    | .region r =>
      if d.rgnKind r = 3 then (d, zeros n, false)
      else
        let x := storeBytes m (a - storeBase) n
        (d.hbmMet m (a - storeBase) n, x.1, x.2)
    | .table c i t =>
      let x := d.tabBytes c i t off n
      (x.1, x.2, false)
    | .ring k =>
      let x := d.ringBytes k off n
      (x.1, x.2, false)

/-- A write of a mapped object (R55, R197, R411): what a region turns away is counted as denied. -/
def Dev.objWrite (d : Dev) (part : Nat) (o : WinObj) (a : Nat) (bs : List Nat) : Dev :=
  if !d.objAnswers o then d
  else match o with
    | .region r =>
      if d.rgnKind r ≠ 3 ∧ (d.rgnKind r = 0 ∨ d.is Rgn.REG_CFG_HOST_WR r) then d.memWrite (a - storeBase) bs else d.deny
    | .table c i t => d.tabPatch part c i t (a - (d.objSpan o).1) bs
    | .ring _ => d

/-! ## Translation (R451–R453) -/

def wttTarget (v : Nat) : Nat := bits v 0 64
def wttLimit (v : Nat) : Nat := bits v 64 17

/-- The internal address of a BAR2 offset under the active entry of its window; b is the direction's enable bit. An entry with an
uncorrectable error acts as VALID = 0 (R452, R476). -/
def Dev.winAddr (d : Dev) (fn o b : Nat) : Dev × Option Nat :=
  let w := o / 2 ^ 28
  let v := d.tab 0x1D fn 0 w
  let bad := d.tabErr 0x1D fn 0 w == 2
  let d := d.readTab 0x1D fn Wtt.F_WTT_SBE Wtt.F_WTT_DBE 0x1D fn 0 w
  let off := o % 2 ^ 28
  if v.testBit wttValid && v.testBit b && !bad && decide (off < wttLimit v * 4096) then (d, some (wttTarget v + off))
  else (d, none)

/-- A request misses (R452). -/
def Dev.winMiss (d : Dev) (fn : Nat) : Dev := (d.incSat Wtt.WTT_CNT_MISS_CNT fn).evt 0x1D fn Wtt.E_WIN_MISS

/-- A request hits an object that is gone or belongs to another partition (R453). -/
def Dev.winDeny (d : Dev) (fn : Nat) : Dev := (d.incSat Wtt.WTT_CNT_DENY_CNT fn).deny

/-- The object of a translated request, if it exists and belongs to the function's partition (R453). -/
def Dev.winObj (d : Dev) (fn a n : Nat) : Option WinObj :=
  (d.objOf a n).filter (fun o => d.objMine (d.linkPart (fn / 16)) o)

/-- A read of n bytes through a window, and its completion. -/
def Dev.winRead (m : FrameStore) (d : Dev) (fn o n : Nat) : Dev :=
  match d.winAddr fn o 97 with
  | (d, none) => (d.winMiss fn).emit (.winData fn (zeros n) false)
  | (d, some a) =>
    match d.winObj fn a n with
    | none => (d.winDeny fn).emit (.winData fn (zeros n) false)
    | some ob =>
      let x := Dev.objRead m d ob a n
      x.1.emit (.winData fn x.2.1 x.2.2)

/-- A write through a window. -/
def Dev.winWrite (d : Dev) (fn o : Nat) (bs : List Nat) : Dev :=
  match d.winAddr fn o 98 with
  | (d, none) => d.winMiss fn
  | (d, some a) =>
    match d.winObj fn a bs.length with
    | none => d.winDeny fn
    | some ob => d.objWrite (d.linkPart (fn / 16)) ob a bs

/-- Whether a request lies in a function's BAR2 and does not cross 4 KiB, as no TLP does (R448, R452). -/
def Dev.inBar2 (d : Dev) (fn o n : Nat) : Bool :=
  decide (o / 2 ^ 28 < d.windows fn) && decide (0 < n) && decide (o % 4096 + n ≤ 4096)

/-- A poisoned write is discarded and reported under AER (R456); a function that does not answer answers Unsupported Request
to a read. JTAG and SMBus have no BAR2. -/
def execWindowWrite (req : Req) (offset : Nat) (bytes : List Nat) (poisoned : Bool) (s : State) :
    Host.Outcome State Fault Refusal :=
  s.updR (fun _ d =>
    match req with
    | .fn _ _ =>
      let f := req.num
      if !d.boot.aoUp || !d.reqLive f || !d.inBar2 f offset bytes.length then d
      else if poisoned then d.setFn f { d.fn f with aerPoison := (d.fn f).aerPoison + 1 }
      else d.winWrite f offset bytes
    | _ => d)

def execWindowRead (req : Req) (offset len : Nat) (s : State) : Host.Outcome State Fault Refusal :=
  s.updR (fun m d =>
    match req with
    | .fn _ _ =>
      let f := req.num
      if !d.boot.aoUp then d
      else if !d.reqLive f then d.emit (.unsupported f)
      else if !d.inBar2 f offset len then d
      else Dev.winRead m d f offset len
    | _ => d)

/-! ## Commit (R454, R455) -/

/-- The lowest reason that refuses the commit of a shadow entry; 0 where there is none. -/
def Dev.wttRefuse (d : Dev) (fn w v : Nat) : Nat :=
  if d.windows fn ≤ w then 1
  else if !v.testBit wttValid then 0
  else if bits v 0 12 != 0 || bits v 81 15 != 0 || bits v 99 29 != 0 || wttLimit v == 0 || decide (65536 < wttLimit v) then 2
  else match d.objOf (wttTarget v) (4096 * wttLimit v) with
    | none => 3
    | some o => if d.objMine (d.linkPart (fn / 16)) o then 0 else 4

/-- A write of WTT_CMD: a COMMIT while BUSY is discarded. A shadow entry with an uncorrectable error commits as VALID = 0. -/
def Dev.wttCmd (d : Dev) (fn v : Nat) : Dev :=
  if v.testBit 8 && d.is Wtt.WTT_CMD_BUSY fn then d.badAccess 0x1D fn
  else
    let w := bits v 0 8
    let d := d.wr Wtt.WTT_CMD_WINDOW fn w
    let d := d.when (v.testBit 9) (fun d => d.clearAll [Wtt.WTT_CNT_DENY_CNT, Wtt.WTT_CNT_MISS_CNT] fn)
    if !v.testBit 8 then d
    else
      let x := d.tab 0x1D fn 1 w
      let x := if d.tabErr 0x1D fn 1 w = 2 ∧ x.testBit wttValid then x - 2 ^ wttValid else x
      let d := d.readTab 0x1D fn Wtt.F_WTT_SBE Wtt.F_WTT_DBE 0x1D fn 1 w
      let why := d.wttRefuse fn w x
      let d := d.wr Wtt.WTT_CMD_REFUSE fn why
      if why ≠ 0 then d.evt 0x1D fn Wtt.E_COMMIT_REFUSED
      else ((d.putEntry 0x1D fn 0 w x).wr Wtt.WTT_CMD_BUSY fn 1).wr Wtt.STAT_BUSY fn 1

def execWttCommit (req : Req) (link : Fin 4) (fn : Fin 16) (window : Nat) (s : State) : Host.Outcome State Fault Refusal :=
  s.upd (fun d => d.busW req.num 0x1D (16 * link + fn) (fun d => d.wttCmd (16 * link + fn) (256 + window % 256)))

/-- Every TLP under the old entry has finished. -/
def execCommitDone (link : Fin 4) (fn : Fin 16) (s : State) : Host.Outcome State Fault Refusal :=
  s.upd (fun d =>
    let f := 16 * link.val + fn.val
    d.when (d.is Wtt.WTT_CMD_BUSY f) (fun d =>
      ((d.wr Wtt.WTT_CMD_BUSY f 0).wr Wtt.STAT_BUSY f 0).evt 0x1D f Wtt.E_COMMIT_DONE))

end Sys2Proof.Machine
end

