-- ==== Sys2Proof/Machine/BusRead.lean ====
section
/-!
DEFINITION. What the registers read: the fields of a page and the words they make, the values that follow the state of the
blocks, the header, latches of 64-bit values and device-time groups, FREEZE (R6, R12, R28–R50, R62, R171, R172, R208).
The log's entries 11, 13, 14 and 21 of notes/assumptions name what is DEDUCED or a DESIGN CHOICE here, and marks each.
-/

namespace Sys2Proof.Machine

/-! ## The fields of a page -/

/-- The queue register blocks of a page (R171, R210, R438). -/
def queueFields (c i : Nat) : List Fld :=
  match c with
  | 0x0B => fieldsQ.map (qFld i)
  | 0x11 => fieldsQ.map (qFld (16 + i))
  | 0x1B => (fieldsQ ++ fieldsDq).map (qFld (if i < 32 then 64 + 8 * i else 320 + 8 * (i - 32)))
  | _ => []

/-- The fields of a field page from 0x040 upwards, and its live STAT bits. -/
def pageFields (c i : Nat) : List Fld :=
  (blockFields c).filter (fun f => decide (f.ilo ≤ i) && decide (i ≤ f.ihi)) ++ queueFields c i ++
    if hasIndirect c i then fieldsTbl.map (fun f => f.at c) else []

/-- Which copy of a field, and which of its words, stands at an offset. -/
def Fld.hit (f : Fld) (o : Nat) : Option (Nat × Nat) :=
  if o < f.off then none
  else
    let j := if f.num ≤ 1 then 0 else (o - f.off) / f.str
    let y := o - f.off - j * f.str
    if j < f.num ∧ y % 4 = 0 ∧ y / 4 < f.words then some (j, y / 4) else none

/-- The fields that stand at an offset, with copy and word. -/
def pageHits (c i o : Nat) : List (Fld × Nat × Nat) :=
  (pageFields c i).filterMap (fun f => (f.hit o).map (fun h => (f, h)))

/-! ## Live values -/

/-- The queue whose block holds copy j of a field at an offset of its page, with the offset in the block. -/
def queueAt (c i off j : Nat) : Option (Nat × Nat) :=
  match c with
  | 0x0B => if 0x40 ≤ off ∧ off < 0x80 then some (i, off - 0x40) else none
  | 0x11 => if 0x40 ≤ off ∧ off < 0x80 then some (16 + i, off - 0x40) else none
  | 0x1B => if 0x100 ≤ off then some ((if i < 32 then 64 + 8 * i else 320 + 8 * (i - 32)) + j, off - 0x100) else none
  | _ => none

/-- No readable item stands at RD_PT; a descriptor is readable once posted. -/
def Dev.qEmpty (d : Dev) (k : Nat) : Bool :=
  if 320 ≤ k then (d.queue k).rd == (d.queue k).wr else (d.itemAtRd k).isNone

/-- What a queue register shows of the queue (R162–R172). -/
def Dev.queueLive (d : Dev) (k o lo : Nat) : Option Nat :=
  let q := d.queue k
  match o, lo with
  | 0x04, 0 => some (d.qSize k)
  | 0x14, 31 => some (b2n q.above)
  | 0x14, 30 => some (b2n q.flushBusy)
  | 0x14, 29 => some (b2n q.markValid)
  | 0x14, 28 => some (b2n (d.qEmpty k))
  | 0x14, 27 => some (b2n q.cut)
  | 0x14, 0 => some q.used
  | 0x18, 0 => some (d.qFree k)
  | 0x1C, 0 => some q.resv
  | 0x20, 0 => some q.wr
  | 0x24, 0 => some q.rd
  | 0x28, 0 => some q.mark
  | 0x2C, 0 => some q.rel
  | 0x30, 16 => some q.wmHiCount
  | 0x30, 0 => some q.flushCut
  | 0x34, 16 => some q.rewindCnt
  | 0x34, 0 => some q.idleReads
  | 0x38, 0 => some (if 320 ≤ k then q.used else q.items.length)
  | 0x3C, 0 | 0x3C, 1 | 0x3C, 2 | 0x3C, 3 | 0x3C, 4 => some (bitOf q.evt lo)
  | 0x5C, 8 => some (if 320 ≤ k then 0 else (d.dqh (k - 64)).wait.length)
  | _, _ => none

/-- The claim register that a field of the claims pages belongs to (R63). -/
def claimAt (i off : Nat) : Option Res :=
  match i, off with
  | 1, 0x100 => some .tout
  | 1, 0x180 => some .enc
  | 1, 0x1A0 => some .gen
  | 1, 0x1E0 => some .tc
  | 2, 0x108 => some .range
  | 3, 0x100 => some .hbm
  | _, _ => none

/-- What a claim register shows (R62). -/
def Dev.claimLive (d : Dev) (k : Res) (n lo : Nat) : Nat :=
  let x := d.claim k n
  match lo with
  | 31 => b2n x.held
  | 30 => b2n x.denied
  | 16 => if x.used then d.pagePart x.sCls x.sInst else 0
  | 8 => x.sCls
  | 0 => x.sInst
  | _ => 0

/-- Bit i of a map from a predicate. -/
def mapOf (n : Nat) (f : Nat → Bool) : Nat := (List.range n).foldl (fun a i => if f i then a + 2 ^ i else a) 0

/-- INST_MAPc (R481). -/
def Dev.instMap (d : Dev) (c : Nat) : Nat :=
  mapOf 64 (fun i =>
    if c = 8 then decide (i < 32) && d.fltLive 8 i != 0
    else if c = 9 then decide (i < 32) && d.fltLive 8 (i + 32) != 0
    else d.fltLive c i != 0)

/-- STAT.HIGHEST (R499). -/
def Dev.highest (d : Dev) : Nat := ((List.range 5).reverse.find? (fun s => d.anyFlt s)).getD 0

/-- The engine reads its port's rewind pass (R355). -/
def Dev.linePass (d : Dev) (e : Nat) : Bool :=
  match d.portOf e with
  | some p => ((d.passSeg p).bind (d.segOf p)).any (fun s => s.engine == some e)
  | none => false

/-- Tile rows that wait at an engine (R353). -/
def Dev.backlog (d : Dev) (e : Nat) : Nat :=
  match d.portOf e with
  | some p =>
    let mine := (d.track p).segs.filter (fun s => s.engine == some e && s.st.live)
    min 31 ((mine.map (fun s => ((s.tiles.map (fun t => t.1)).eraseDups).length)).foldl (· + ·) 0)
  | none => 0

/-- The sector with the highest wear counter, the lowest on a tie, and its count (R494). -/
def Dev.wearMax (d : Dev) : Nat × Nat :=
  d.wear.foldl (fun a e => if a.2 < e.2 then e else a) (0, 0)

/-- A loop or an injector is in effect (R519). -/
def Dev.loopAny (d : Dev) : Bool :=
  (List.range 18).any (fun u => (d.loop u).depth != 0 || d.is LbF.INJ_CFG_INJ_EN 0 u) ||
    (List.range 4).any (fun l => d.rd Test.PLB_CFG_DEPTH 0 l != 0)

/-- Fields of position channels, inputs and outputs whose value follows the block. -/
def Dev.liveTrigger (d : Dev) (c i : Nat) (f : Fld) (j : Nat) : Option Nat :=
  if f = Pos.POSITION then some (uInt 64 (d.posWord i))
  else if f = Pos.SPEED then some (uInt 64 (d.speed i))
  else if f = Pos.HIST_BASE then some (ringBase + 0x200000 * i)
  else if f = Pos.STAT_SER_HOLD then some (b2n (d.is Pos.STAT_SER_HOLD i && !d.serReached i))
  else if f = Pos.STAT_FAULT then some (b2n (d.posFault i))
  else if f = Din.EV_ITEM then some ((d.din i).words.getD j 0)
  else if f = Din.STAT_PRECISE then some (b2n (d.is Din.DIN_CFG_TC_EN i && d.holds .tc (d.rd Din.DIN_CFG_TC i) 0x11 i))
  else if f = Out.STAT_ACTIVE ∧ c = 0x12 then some (b2n (d.outActive i == some true))
  else none

/-- Fields of the fault collector, the AO page, the NV store, the island page and the test page whose value follows the
state. -/
def Dev.liveDevice (d : Dev) (r : Nat) (f : Fld) (j : Nat) : Option Nat :=
  if f = AO.REQ_ID_FUNCTION then some r
  else if f = AO.REQ_ID_PART then some (d.reqPart r)
  else if f = AO.DEGRADED_CNT then some d.health.degraded
  else if f = AO.HEALTH_REC_SPARE_MAP then some d.health.spareMap
  else if f = AO.HEALTH_REC_TEMP_MAX then some d.health.tempMax
  else if f = AO.LAST_DEG then some d.health.lastDeg
  else if f = Nv.NV_WEAR_MAX_WEAR_MAX then some d.wearMax.2
  else if f = Nv.NV_WEAR_SEC_SECTOR then some d.wearMax.1
  else if f = Nv.NV_HEALTH_SEQ_SEQ then some d.health.seq
  else if f = Fc.CLASS_MAP then some (mapOf 33 (fun c => d.instMap c != 0))
  else if f = Fc.INST_MAP then some (d.instMap j)
  else if f = Fc.STAT_GUARANTEE_OK then some (b2n d.guaranteeOk)
  else if f = Fc.STAT_KA_RUNNING then some (b2n ((List.range 17).any (fun e => (d.ce e).kaSince.isSome)))
  else if f = Fc.STAT_HIGHEST then some d.highest
  else if f = Tu.TIME then some d.now
  else if f = Tu.CAP_MAP_HELD then some (mapOf 16 (fun n => (d.claim .tc n).held))
  else if f = Ta.TA_STAT_PENDING then
    some (d.tabs.filter (fun e => e.1 / 2 ^ 24 == (0x15 * 64) * 256 + 2 && e.2.testBit 0)).length
  else if f = Test.STAT_LOOP_ANY then some (b2n d.loopAny)
  else none

/-- Fields of engines, reference intake, regions, queues and host pages whose value follows the state. -/
def Dev.liveStore (d : Dev) (i : Nat) (f : Fld) : Option Nat :=
  if f = Ri.STAT_SEG_WAIT then some (b2n (d.iq.any (fun e => e.2.waiting == 1)))
  else if f = Ri.STAT_SPACE_WAIT then some (b2n (d.iq.any (fun e => e.2.waiting == 2)))
  else if f = Ce.STAT_LINE_PASS then some (b2n (d.linePass i))
  else if f = Ce.STAT_BACKLOG then some (d.backlog i)
  else if f = Ce.STAT_SERVING then some (b2n (d.portOf i).isSome)
  else if f = Ce.STAT_SERVED_PORT then some ((d.portOf i).getD 0)
  else if f = Rgn.REG_ADDR then some (storeBase + d.rgnBase i)
  else if f = Rgn.SLOTS then some (d.rgnSlots i)
  else if f = Rgn.SEQ_WRAP then some (if d.rgnRing i then d.rgnWrap i else 0)
  else if f = Dq.STAT_ENABLED then
    some (mapOf 8 (fun j => d.qrd ((if i < 32 then 64 + 8 * i else 320 + 8 * (i - 32)) + j) Dq.RING_CFG_Q_EN == 1))
  else if f = Dq.GRP_PEND then
    some (mapOf 8 (fun j =>
      let k := (if i < 32 then 64 + 8 * i else 320 + 8 * (i - 32)) + j
      (d.queue k).evt &&& d.qrd k Q.Q_EVT_Q_EVT_EN != 0))
  else if f = Int.INT_INFO_VECTORS then some (fnVectors i)
  else if f = Link.LINK_STAT_PART then some (d.linkPart i)
  else if f = Link.LINK_STAT_VFS then some (if (d.fn (16 * i)).vfEn then (d.fn (16 * i)).numVfs else 0)
  else if f = Wtt.WTT_INFO_WINDOWS then some (d.windows i)
  else none

/-- The value of copy j of a field in a field page, as requester r would read it were the page not frozen. What the spec does
not state is a free value: TBL_INFO and TBL_BASE of a table that is none, the level of a pad nothing drives, a scrub pass. -/
def Dev.fieldNow (d : Dev) (r c i : Nat) (f : Fld) (j : Nat) : Dev × Nat :=
  let given (v : Option Nat) : Dev × Nat := (d, v.getD (d.rd f i j) % 2 ^ f.w)
  if f.acc = .wo then (d, 0)
  else match queueAt c i f.off j with
    | some (k, o) => given (d.queueLive k o f.lo)
    | none =>
      if f = Tbl.TBL_INFO_ENTRY_BYTES.at c then (d.tblInfo c i).map id (fun v => v / 2 ^ 24)
      else if f = Tbl.TBL_INFO_ENTRIES_M1.at c then (d.tblInfo c i).map id (fun v => v % 2 ^ 24)
      else if f = Tbl.TBL_BASE.at c then d.tblBaseRead c i
      else if f = Out.STAT_READBACK ∧ c = 0x12 then
        match d.readback i with
        | some v => (d, v)
        | none => (d.freeUsed, d.freeVal 1)
      else if f = Fc.STAT_SCRUBBING then
        if d.is Fc.FC_CFG_SRAM_SCRUB_EN 0 then (d.freeUsed, d.freeVal 1) else (d, 0)
      else match c with
        | 0x04 =>
          match claimAt i f.off with
          | some k => (d, d.claimLive k j f.lo)
          | none => given none
        | 0x05 => given (if f = Isl.PWR ∧ j = 0 then some (d.rd f i 0 ||| 1) else none)
        | 0x10 | 0x11 | 0x12 => given (d.liveTrigger c i f j)
        | 0x00 | 0x01 | 0x02 | 0x14 | 0x15 | 0x1F => given (d.liveDevice r f j)
        | 0x1A => given (if f = De.DE_STAT_WR_INFLIGHT then some d.wrInflight else none)
        | 0x0D | 0x0E | 0x19 | 0x1B | 0x1C | 0x1D | 0x1E => given (d.liveStore i f)
        | _ => given none

/-! ## FREEZE (R39, R172) -/

/-- Pages with CAP.HAS_FREEZE: those whose sections say so, and those of lanes and ports, whose registers R39 names under
FREEZE; the collector's CTRL takes no write (R37). -/
def hasFreeze (c i : Nat) : Bool :=
  c == 0x01 || (decide (0x08 ≤ c) && decide (c ≤ 0x0E)) || (c == 0x0F && decide (i < 17)) ||
    (decide (0x10 ≤ c) && decide (c ≤ 0x13)) || c == 0x18 || c == 0x1A || c == 0x1B || c == 0x1C

/-- A field that FREEZE holds: in a register from 0x040 upwards whose fields are all RO, but not what a queue's block keeps live,
nor EV_ITEM, which the reads of R205 fill. -/
def frozenField (c i : Nat) (f : Fld) (j : Nat) : Bool :=
  decide (0x40 ≤ f.off) && f != Din.EV_ITEM &&
    (List.range f.words).all (fun w => (pageHits c i (f.off + j * f.str + 4 * w)).all (fun h => h.1.acc == .ro)) &&
    !(match queueAt c i f.off j with
      | some (_, o) => o == 0x14 && decide (28 ≤ f.lo)
      | none => false)

/-- The copies of the fields of a page that FREEZE holds. -/
def frozenFields (c i : Nat) : List (Fld × Nat) :=
  ((pageFields c i).flatMap (fun f => (List.range f.num).map (fun j => (f, j)))).filter (fun x => frozenField c i x.1 x.2)

/-- FREEZE rises: the held registers keep what they read now. -/
def Dev.freezeOn (d : Dev) (c i : Nat) : Dev :=
  (frozenFields c i).foldl (fun d x =>
    let v := d.fieldNow 0 c i x.1 x.2
    { v.1 with frozen := mput v.1.frozen (x.1.key i x.2) v.2 }) (d.wr (Hdr.FREEZE c) i 1)

/-- FREEZE falls. -/
def Dev.freezeOff (d : Dev) (c i : Nat) : Dev :=
  let d := d.wr (Hdr.FREEZE c) i 0
  { d with frozen := d.frozen.filter (fun e => e.1 / (32 * 4096) != c * 64 + i) }

/-- A write of FREEZE in a field page: where CAP.HAS_FREEZE is 0 the bit is not there. -/
def Dev.setFreeze (d : Dev) (c i : Nat) (on : Bool) : Dev :=
  if !hasFreeze c i || alwaysOn c || d.is (Hdr.FREEZE c) i == on then d
  else if on then d.freezeOn c i else d.freezeOff c i

/-- The value of copy j of a field of a field page, frozen or live. -/
def Dev.fieldRead (d : Dev) (r c i : Nat) (f : Fld) (j : Nat) : Dev × Nat :=
  match mfind d.frozen (f.key i j) with
  | some v => (d, v)
  | none => d.fieldNow r c i f j

/-! ## Latches (R12, R45, R208) -/

/-- Key of what a requester has latched or staged of the value at an offset of a field page. -/
def reqKey (r c i o : Nat) : Nat := r * 2 ^ 32 + bar0 c i o

/-- Latch a value for a requester. -/
def Dev.latched (d : Dev) (r c i o v : Nat) : Dev := { d with latch := mput d.latch (reqKey r c i o) v }

/-- A read of the low word of POSITION takes SPEED, LIMIT_EXCESS and the time of the sample along. -/
def Dev.latchPosition (d : Dev) (r k : Nat) : Dev :=
  let v (d : Dev) (f : Fld) : Nat := (d.fieldRead r 0x10 k f 0).2
  let e := ((d.latched r 0x10 k 0x078 (v d Pos.POSITION)).latched r 0x10 k 0x080 (v d Pos.SPEED)).latched r 0x10 k 0x098
    (v d Pos.LIMIT_EXCESS)
  if d.is (Hdr.FREEZE 0x10) k then e else e.latched r 0x10 k 0x088 d.now

/-- Word w of copy j of a field of more than 32 bits, as requester r reads it. SNAP_TIME, and SPEED and LIMIT_EXCESS once the
requester has read POSITION, come from its latch alone. -/
def Dev.wideRead (d : Dev) (r c i : Nat) (f : Fld) (j w : Nat) : Dev × Nat :=
  let o := f.off + j * f.str
  let held := mfind d.latch (reqKey r c i o)
  let word := fun v => bits v (32 * w) 32
  if f = Pos.SNAP_TIME then (d, word (held.getD 0))
  else if w = 0 then
    if f = Pos.POSITION then
      let d := d.latchPosition r i
      (d, word (mget d.latch (reqKey r c i o) 0))
    else if (f = Pos.SPEED ∨ f = Pos.LIMIT_EXCESS) ∧ (mfind d.latch (reqKey r c i 0x078)).isSome then
      (d, word (held.getD 0))
    else
      let v := d.fieldRead r c i f j
      (v.1.latched r c i o v.2, word v.2)
  else match held with
    | some v => (d, word v)
    | none => (d.fieldRead r c i f j).map id word

/-! ## The header (R32–R43) -/

/-- PAGE_ID.DIE (R25, R33, R485). -/
def pageDie (c i : Nat) : Nat :=
  match c with
  | 0x09 => 1
  | 0x0A | 0x0B | 0x0C => i / 8 % 2
  | 0x0D => if 8 ≤ i ∧ i < 16 then 1 else 0
  | 0x0F => if 8 ≤ i ∧ i < 16 then 1 else 0
  | 0x18 => i / 2
  | 0x1C => i % 2
  | 0x1D | 0x1E => i / 16 % 2
  | _ => 0

/-- PAGE_ID (R33). -/
def pageId (c i : Nat) : Nat := 2 ^ 31 + pageDie c i * 2 ^ 30 + islandOf c i * 2 ^ 16 + c * 2 ^ 8 + i

/-- Pages whose block can hold claims. -/
def hasClaims (c : Nat) : Bool :=
  c == 0x0A || c == 0x0C || c == 0x0D || c == 0x0E || (decide (0x10 ≤ c) && decide (c ≤ 0x15)) || c == 0x1F

/-- CAP.BLOCK. -/
def capBlock (c i : Nat) : Nat :=
  match c with
  | 0x08 | 0x09 | 0x0A | 0x10 => 7
  | 0x0B | 0x11 => 1
  | 0x0C => 3
  | 0x0D => 6 + (if i = 16 then 1 else 0)
  | _ => 0

/-- CAP (R36). -/
def pageCap (c i : Nat) : Nat :=
  b2n (islandGateable (islandOf c i)) * 2 ^ 31 + b2n (hasClaims c) * 2 ^ 30 + b2n (hasIndirect c i) * 2 ^ 29 +
    b2n (hasTabWindow c i || c == 0x10 || c == 0x19) * 2 ^ 28 + b2n (hasFreeze c i) * 2 ^ 27 + capBlock c i

/-- OWNER (R43). -/
def Dev.pageOwner (d : Dev) (c i : Nat) : Nat :=
  d.claimCount c i * 2 ^ 8 + b2n (pageShared c) * 2 ^ 4 + b2n (d.borrowed c i) * 2 ^ 3 + d.pagePart c i

/-- STAT bits 31:26 while the island answers (R38, R40). -/
def Dev.statHead (d : Dev) (c i : Nat) : Nat :=
  let p := canon c i
  b2n (d.resetting c i) * 2 ^ 29 + b2n (d.is (Hdr.FREEZE p.1) p.2) * 2 ^ 28 +
    b2n (d.enabled p.1 p.2 && !d.resetting c i) * 2 ^ 27 + b2n (d.claimsOk p.1 p.2) * 2 ^ 26

/-- The FLT_EN word: implemented bits, those of FATAL sources at 1 (R42, R478). -/
def Dev.fltEn (d : Dev) (c i : Nat) : Nat :=
  mapOf 32 (fun b => match fltSeverity c i b with
    | some s => s == 4 || !(d.rd (Hdr.FLT_DIS c) i).testBit b
    | none => false)

/-- A register that AO holds in a page. -/
def Dev.headAO (d : Dev) (c i o : Nat) : Nat :=
  let p := canon c i
  match o with
  | 0x00 => pageId c i
  | 0x04 => 0x0100
  | 0x08 => pageCap c i
  | 0x20 => d.rd (Hdr.FLT p.1) p.2
  | 0x24 => d.fltEn p.1 p.2
  | 0x28 => d.rd (Hdr.FLT_INJ p.1) p.2
  | 0x2C => d.pageOwner c i
  | _ => 0

/-- Add up what the fields at an offset of a field page read. -/
def Dev.fieldsRead (d : Dev) (r c i o : Nat) : Dev × Nat :=
  (pageHits c i o).foldl (fun a h =>
    let v := if 1 < h.1.words then a.1.wideRead r c i h.1 h.2.1 h.2.2
      else (a.1.fieldRead r c i h.1 h.2.1).map id (fun v => v * 2 ^ h.1.lo)
    (v.1, a.2 + v.2)) (d, 0)

/-- A Block register of a page whose island answers. -/
def Dev.blockRead (d : Dev) (r c i o : Nat) : Dev × Nat :=
  let p := canon c i
  match o with
  | 0x0C => (d, b2n (d.enabled p.1 p.2) + 2 * b2n (d.resetting c i) + 4 * b2n (d.is (Hdr.FREEZE p.1) p.2))
  | 0x10 => if d.resetting c i then (d, d.statHead c i) else (d.fieldsRead r p.1 p.2 0x10).map id (fun v => v + d.statHead c i)
  | _ =>
    if d.resetting c i then (d, 0)
    else match o with
      | 0x14 => (d, d.rd (Hdr.EVT p.1) p.2)
      | 0x18 => (d, d.rd (Hdr.EVT_EN p.1) p.2)
      | _ =>
        if o < 0x40 then (d, 0)
        else if p.1 = 0x11 ∧ o = 0xC0 then d.evItem0 p.2
        else if p.1 = 0x08 ∧ o = 0x54 then
          (d.fieldsRead r p.1 p.2 o).map (fun d => d.wr Lane.FOM_INFO_FOM_MIN p.2 0xFF) id
        else d.fieldsRead r p.1 p.2 o

/-- A claim register, or a range of the Compare List, is visible by its resource (R31, R560). -/
def Dev.claimSeen (d : Dev) (r i o : Nat) : Bool :=
  let mine (k : Res) (n : Nat) : Bool := match d.claimPart k n with
    | none => true
    | some p => d.reqPart r == p
  if o < 0x100 then true
  else match i with
    | 1 =>
      if o < 0x180 then mine .tout ((o - 0x100) / 4) else if o < 0x1A0 then mine .enc ((o - 0x180) / 4)
      else if o < 0x1E0 then mine .gen ((o - 0x1A0) / 4) else true
    | 2 => mine .range ((o - 0x100) / 16)
    | 3 => mine .hbm ((o - 0x100) / 4)
    | _ => true

/-- What requester r reads at an offset of a bus page (R30, R38, R47–R49). -/
def Dev.wordRead (d : Dev) (r c i o : Nat) : Dev × Nat :=
  if !d.implemented c i || !d.readable r c i || (c == 4 && !d.claimSeen r i o) then (d, 0)
  else if o < 0x0C ∨ (0x20 ≤ o ∧ o < 0x30) then (d, d.headAO c i o)
  else if aoHeld c o then d.blockRead r c i o
  else if d.wedged (islandOf c i) then (d, if o = 0x10 then 0x40000000 else 0xFFFFFFFF)
  else if d.silent c i then (d, if o = 0x10 then 0x80000000 else 0)
  else d.blockRead r c i o

/-! ## Addresses (R28, R446, R447) -/

/-- The page and offset that a requester's address names, and whether the slot it passes is read-only; none where a VF's slot
is not assigned. -/
def Dev.target (d : Dev) (r addr : Nat) : Option (Nat × Nat × Nat × Bool) :=
  if isVf r then (d.vfSlot r (bits addr 12 8)).map (fun s => (s.1.1, s.1.2, bits addr 0 12, s.2))
  else some (bits addr 18 6, bits addr 12 6, bits addr 0 12, false)

/-- A read of one word by a requester. -/
def Dev.addrRead (d : Dev) (r addr : Nat) : Dev × Nat :=
  match d.target r addr with
  | none => (d, 0)
  | some (c, i, o, _) => d.wordRead r c i (o / 4 * 4)

/-- A read of n words at an address: two are read one after the other, the lower first; a longer read is turned away. -/
def Dev.busRead (d : Dev) (r addr n : Nat) : Dev :=
  if n < 2 then d.reply r (fun d => d.addrRead r addr)
  else if n = 2 then d.reply r (fun d =>
    let lo := d.addrRead r addr
    (lo.1.addrRead r (addr + 4)).map id (fun hi => lo.2 + hi * 2 ^ 32))
  else d.when d.boot.aoUp (fun d => d.emit (.unsupported r))

/-- LOW_WORD_READ: a read of one or more words at an address, answered to its requester (R29, R45). -/
def execLowWordRead (req : Req) (span : ReadSpan) (s : State) : Host.Outcome State Fault Refusal :=
  s.upd (fun d => d.busRead req.num span.addr span.dws)

/-- A read of FOM_INFO (R99). -/
def execFomInfoRead (req : Req) (lane : Fin 64) (s : State) : Host.Outcome State Fault Refusal :=
  s.upd (fun d => d.busR req.num (lanePage lane).1 (lanePage lane).2 (fun d =>
    d.blockRead req.num (lanePage lane).1 (lanePage lane).2 0x54))

/-- A write of CTRL.FREEZE (R37, R39). -/
def execFreeze (req : Req) (cls inst : Nat) (on : Bool) (s : State) : Host.Outcome State Fault Refusal :=
  s.upd (fun d => d.busCtrl req.num cls inst (fun d => d.setFreeze (canon cls inst).1 (canon cls inst).2 on))

/-! ## Identity in configuration space (R444) -/

/-- The Class Code: processing accelerator. -/
abbrev classCode : Nat := 0x120000

/-- Vendor ID, Device ID, Class Code, Subsystem Vendor ID and Subsystem ID of function f of a link, and the Device Serial
Number. -/
def Dev.cfgIdent (d : Dev) (f : Nat) : List Nat :=
  let ids := d.boot.cfg.ids
  [ids.getD 0 0, ids.getD (if f = 0 then 1 else 2) 0, classCode, ids.getD 3 0, ids.getD 4 0, Config.serialNumber % 2 ^ 64]

/-! ## The health capability (R472) -/

/-- FAULT_INFO of the health capability. -/
def Dev.faultInfo (d : Dev) : Nat :=
  d.rd Fc.SUMMARY_FIRST_CLASS 0 + 8 * d.rd Fc.SUMMARY_FIRST_TIE 0 + 16 * d.rd AO.ACCESS_STAT_WEDGE 0 +
    32 * d.rd AO.HEALTH_PINS_REPLACE 0 + 64 * d.rd AO.HEALTH_PINS_FAULT 0

/-- The 32 bytes that the PF of link l shows at configuration offset 0x600: a capability of ID 0x000B, version 1, with a
next pointer that the spec does not state; TEMP_MAX with its sign carried to 16 bits. -/
def Dev.healthCap (d : Dev) (l next : Nat) : List Nat :=
  leBytes 4 (0x0001000B + next % 2 ^ 12 * 2 ^ 20) ++ leBytes 4 0x02017160 ++
    [d.rd AO.DEV_HEALTH_HEALTH 0, d.faultInfo, d.owner + 4 * d.linkPart l + 16 * l, 0] ++
    leBytes 4 (d.rd AO.DEV_ID_PART_NUM 0 * 2 ^ 16 + d.rd AO.DEV_ID_FAMILY 0 * 2 ^ 8 + d.rd AO.DEV_ID_DEV_REV 0) ++
    leBytes 4 d.health.degraded ++
    leBytes 4 (d.rd AO.WEDGE_FIRST_VALID 0 * 2 ^ 31 + d.rd AO.WEDGE_FIRST_OFFSET 0) ++
    leBytes 2 (uInt 16 (sInt 8 d.health.tempMax)) ++ zeros 6

end Sys2Proof.Machine
end

