-- ==== Sys2Proof/Machine/RegFields.lean ====
section
/-!
DEFINITION. Writes of registers, field by field: fields of one word, staged words of wide values (R12, R46), what a write
may not hold, and what is locked while a block runs (R29, R41, R65; R77, R150, R173, R177, R210, R230, R238, R239, R280, R281,
R305, R334, R400, R409, R414, R431, R437, R438, R498, R533).
The log's entry 15 of notes/assumptions names what is DEDUCED or a DESIGN CHOICE here, and marks each.
-/

namespace Sys2Proof.Machine

/-! ## Wide values (R12, R46) -/

/-- The word of a wide field whose write applies it: the high word of a pair, word 2 of a device-time group. -/
def Fld.top (f : Fld) : Nat := if f.w ≤ 64 then 1 else 2

/-- A write that names a resource its enabled block does not hold is undone (R65). -/
def Dev.named (d : Dev) (c i : Nat) (k : Dev → Dev) : Dev :=
  let e := k d
  if d.enabled c i && !e.claimsOk c i then d.evt c i evtENABLE_REFUSED else e

/-- A wide value is applied: limits, INCR and PD_POST act, a refused device time changes nothing (R10). -/
def Dev.wideApply (d : Dev) (c i : Nat) (f : Fld) (j v : Nat) : Dev :=
  if f = Pos.LIMIT_LO then d.limitWrite i false v
  else if f = Pos.LIMIT_HI then d.limitWrite i true v
  else if f = Tu.INCR then d.incrWrite v
  else if f = Tu.STEP_MAG ∧ badNS v then d.evt c i evtBAD_TIME
  else if f = Eth.PD_POST then d.pdSample i (sInt 64 v)
  else if f = Cs.BASE then
    let d := d.wr f i v j
    d.when (d.enabled c i) (fun d => d.setStream i { d.stream i with baseDue := true })
  else if f = Test.PAD_E then d.named c i (fun d => d.wr f i v j)
  else d.wr f i v j

/-- A word of a wide field is written by requester r: lower words are staged, the top word applies the value. -/
def Dev.wideWrite (d : Dev) (r c i : Nat) (f : Fld) (j w v : Nat) : Dev :=
  let at? := fun k => reqKey r c i (f.off + j * f.str + 4 * k)
  if w < f.top then { d with stage := mput d.stage (at? w) v }
  else if w = f.top then
    let low := (List.range f.top).foldl (fun a k =>
      a + (match mfind d.stage (at? k) with
        | some x => x
        | none => bits (d.rd f i j) (32 * k) 32) * 2 ^ (32 * k)) 0
    let d := { d with stage := (List.range f.top).foldl (fun s k => mdrop s (at? k)) d.stage }
    d.wideApply c i f j ((low + v * 2 ^ (32 * f.top)) % 2 ^ f.w)
  else d

/-! ## Plain registers (R6) -/

/-- A word is written to one field that stands in it. -/
def Dev.fieldWrite (r c i v : Nat) (d : Dev) (h : Fld × Nat × Nat) : Dev :=
  let f := h.1
  match f.acc with
  | .ro => d
  | .rw1c => d.wr f i (d.rd f i h.2.1 &&& (2 ^ f.w - 1 - bits v f.lo f.w)) h.2.1
  | .wo | .w1s => if 1 < f.words then d.wideWrite r c i f h.2.1 h.2.2 v else d
  | .rw => if 1 < f.words then d.wideWrite r c i f h.2.1 h.2.2 v else d.wr f i (bits v f.lo f.w) h.2.1

/-- A word is written to a register whose fields have no effect beyond what they hold. -/
def Dev.plainWord (d : Dev) (r c i o v : Nat) : Dev := (pageHits c i o).foldl (Dev.fieldWrite r c i v) d

/-- What software has written in a register of one word. -/
def Dev.rwWord (d : Dev) (c i o : Nat) : Nat :=
  (pageHits c i o).foldl (fun a h => if h.1.acc = .rw then a + d.rd h.1 i h.2.1 * 2 ^ h.1.lo else a) 0

/-- Counters from one offset to another are cleared: every RO field there. -/
def Dev.clearRegs (d : Dev) (c i first last : Nat) : Dev :=
  (List.range ((last - first) / 4 + 1)).foldl (fun d n =>
    (pageHits c i (first + 4 * n)).foldl (fun d h => if h.1.acc = .ro then d.wr h.1 i 0 h.2.1 else d) d) d

/-! ## Locked registers -/

/-- The queue whose register block holds an offset of a page, and the offset in it. -/
def queueReg (c i o : Nat) : Option (Nat × Nat) :=
  match c with
  | 0x0B => if 0x40 ≤ o ∧ o < 0x80 then some (i, o - 0x40) else none
  | 0x11 => if 0x40 ≤ o ∧ o < 0x80 then some (16 + i, o - 0x40) else none
  | 0x1B =>
    if 0x100 ≤ o then
      some ((if i < 32 then 64 + 8 * i else 320 + 8 * (i - 32)) + (o - 0x100) / 0x1E0, (o - 0x100) % 0x1E0)
    else none
  | _ => none

/-- Registers that take no write at all as things stand. -/
def Dev.lockedReg (d : Dev) (c i o : Nat) : Bool :=
  let en := d.enabled c i
  (0xFC0 ≤ o && hasIndirect c i && d.is (Tbl.TBL_CMD_BUSY.at c) i && (o == 0xFC0 || decide (0xFE0 ≤ o))) ||
  match c with
  | 0x02 => d.is Nv.NV_CMD_BUSY 0 && (decide (0x40 ≤ o) && decide (o ≤ 0x4C))
  | 0x04 => i == 2 && decide (0x100 ≤ o) && decide (o < 0x300) && decide (o % 16 < 8) && (d.claim .range ((o - 0x100) / 16)).held
  | 0x08 => d.is Lane.LANE_CFG_ADAPT_EN i && decide (0x5C ≤ o) && decide (o ≤ 0x6C)
  | 0x0C => en && ((decide (0x40 ≤ o) && decide (o ≤ 0x60)))
  | 0x0D => en && (o == 0x10C || o == 0x110 || o == 0x118 || o == 0x11C)
  | 0x0E => en && (o == 0x40 || (decide (0x80 ≤ o) && decide (o < 0x180) && decide (o % 16 < 8)) ||
      (decide (0x180 ≤ o) && decide (o < 0x1C0)))
  | 0x10 => en && (o == 0x4C || o == 0x50 || o == 0x54)
  | 0x12 => en && decide (32 ≤ i) && (o == 0x40 || o == 0x44 || o == 0x48)
  | 0x13 => en && (o == 0x40 || o == 0x44 || o == 0x48 || (decide (0x60 ≤ o) && decide (o < 0x80)))
  | 0x16 => en && (o == 0x48 || o == 0x4C)
  | 0x17 => en && decide (0x40 ≤ o) && decide (o ≤ 0x4C)
  | 0x19 => en && (o == 0x40 || o == 0x44)
  | 0x1A => en && decide (0x100 ≤ o) && decide (o < 0x180)
  | 0x1B => match queueReg c i o with
    | some (k, y) => (y == 0x40 || y == 0x44 || y == 0x50 || y == 0x54) && d.qrd k Dq.RING_CFG_Q_EN == 1
    | none => false
  | 0x1F =>
    decide (0x100 ≤ o) && decide (o < 0x340) && (o % 32 == 8 || o % 32 == 12 || o % 32 == 16) &&
      d.is LbF.INJ_CFG_INJ_EN 0 ((o - 0x100) / 32)
  | _ => false

/-- The bits of a register that a write may not change as things stand. -/
def Dev.lockedBits (d : Dev) (c i o : Nat) : Nat :=
  let en := d.enabled c i
  match c, o with
  | 0x0A, 0x40 => if en then 0x37B else 0
  | 0x10, 0x40 => if en then 0xB else 0
  | 0x10, 0x48 => if en then 0xFFFFF else 0
  | 0x11, 0x80 => if en then 0x1FF1 else 0
  | 0x12, 0x40 => if en && decide (i < 32) then 0xF8003 else 0
  | 0x16, 0x40 => if en then 0x3FFF0003 else 0
  | 0x1B, _ => match queueReg c i o with
    | some (k, 0x48) => if d.qrd k Dq.RING_CFG_Q_EN = 1 then 0x3F011F else 0
    | _ => 0
  | _, _ => 0

/-- A write would change locked bits; bits that no field holds are not there to change. -/
def Dev.lockedChange (d : Dev) (c i o v : Nat) : Bool :=
  let m := d.lockedBits c i o
  m != 0 && (pageHits c i o).any (fun h =>
    h.1.acc == .rw && m.testBit h.1.lo && bits v h.1.lo h.1.w != d.rd h.1 i h.2.1)

/-! ## Values a register does not take -/

/-- A channel, a stream, an input, a queue or a port of a partition. -/
def Dev.encIn (d : Dev) (p k : Nat) : Bool := decide (d.resPart Claims.ACT_ENCODERS k = p)
def Dev.streamIn (d : Dev) (p n : Nat) : Bool := decide (d.resPart Claims.ACT_STREAMS n = p)
def Dev.dinIn (d : Dev) (p n : Nat) : Bool := decide (n < 24) && decide (d.resPart Claims.ACT_DIN n = p)
def Dev.dqIn (d : Dev) (p q : Nat) : Bool := decide (d.resPart Claims.ACT_DQ_GROUPS (q / 8) = p)
def Dev.portIn (d : Dev) (p n : Nat) : Bool := decide (n < 16) && decide (d.resPart Claims.ACT_PORTS n = p)

/-- A write that its page's rules discard for what it names: something of another partition, a value out of range. -/
def Dev.badValue (d : Dev) (c i o v : Nat) : Bool :=
  let p := d.pagePart c i
  match c with
  | 0x01 => o == 0x4C && (bits v 16 8 == 0 || bits v 8 4 == 0 || decide (4 < bits v 0 3))
  | 0x0B => o == 0x80 && bits v 16 16 == 0
  | 0x0C => o == 0x4C && !d.encIn p (bits v 0 3)
  | 0x0D =>
    (o == 0x10C && (List.range 4).any (fun j => !d.dqIn p (bits v (8 * j) 8))) || (o == 0x110 && !d.streamIn p (bits v 20 5)) ||
      (o == 0x114 && v % 32 != 0)
  | 0x11 => o == 0x80 && v.testBit 4 && !d.encIn p (bits v 5 3)
  | 0x12 =>
    if i < 32 then o == 0x40 && bits v 8 2 == 3
    else o == 0x40 && (!d.encIn p (bits v 0 3) ||
      match bits v 12 2 with
      | 0 => false
      | 1 => !d.streamIn p (bits v 16 5)
      | _ => !d.dinIn p (bits v 16 5))
  | 0x13 =>
    (o == 0x40 && (!d.encIn p (bits v 0 3) || ((bits v 20 2 == 1 || bits v 20 2 == 2) && !d.dinIn p (bits v 24 5)))) ||
      (decide (0x60 ≤ o) && decide (o < 0x80) && v.testBit 30 && !d.portIn p (bits v 16 5))
  | 0x1A =>
    decide (0x100 ≤ o) && decide (o < 0x180) && !d.dqIn (d.resPart Claims.ACT_PORTS ((o - 0x100) / 8)) (bits v 0 8)
  | 0x1B => match queueReg c i o with
    | some (_, 0x48) => decide (d.linkPart (bits v 20 2) ≠ p)
    | _ => false
  | 0x1C => o == 0x48 && !d.streamIn p (bits v 8 5)
  | _ => false

end Sys2Proof.Machine
end

