-- ==== Sys2Proof/Machine/NvStore.lean ====
section
/-!
DEFINITION. The NV store page: reads, writes, lock and unlock (R494, R528, R532–R534).
The log's entries 10 and 69 of notes/assumptions name what is DEDUCED or a DESIGN CHOICE here, and marks each.
-/

namespace Sys2Proof.Machine

/-- A word is read: one that fails its CRC sets NV_CRC and is recorded (R494). -/
def Dev.nvRead (d : Dev) (a : Nat) : Dev :=
  if d.nvGood a then d else (d.wr Nv.NV_ERR_ADDR_WORD 0 a).flt 2 0 Nv.F_NV_CRC

/-- Whether software may write a word as the locks stand (R528, R534). -/
def Dev.nvMay (d : Dev) (a : Nat) : Bool :=
  if a < 0x200 then !d.is Nv.NV_STAT_LOCKED 0
  else if a < 0x400 then false
  else if a < 0xE000 then d.is Nv.NV_STAT_VENDOR_OPEN 0
  else true

/-- A word is written by software; an armed injection fails its read-back check once (R494, R495). -/
def Dev.nvWrite (d : Dev) (a v : Nat) : Dev :=
  let d := d.nvStore a v
  let d := if d.armed 2 0 Nv.F_NV_WRITE_FAIL then (d.disarm 2 0 Nv.F_NV_WRITE_FAIL).flt 2 0 Nv.F_NV_WRITE_FAIL else d
  d.when d.worn (fun d => d.flt 2 0 Nv.F_NV_WEAR)

/-- LOCK of BFLAGS in the stored word 0 (R529). -/
def Dev.lockStored (d : Dev) : Bool := (d.nvData 0).testBit 48

/-- NV_CHALLENGE takes a new value (R534). -/
def Dev.newChallenge (d : Dev) : Dev := (d.wr Nv.NV_CHALLENGE 0 (d.freeVal 64)).freeUsed

/-- What an operation does, and the REFUSE code it ends with. -/
def Dev.nvDo (d : Dev) (x : NvOp) : Dev × Nat :=
  match x.op with
  | 1 => ((d.nvRead x.word).wr Nv.NV_DATA 0 (d.nvData x.word), 0)
  | 2 =>
    if !d.nvMay x.word then (d, 1)
    else if !d.is Nv.NV_STAT_PWR_OK 0 then (d, 2)
    else (d.nvWrite x.word x.data, 0)
  | 3 =>
    let d := d.nvRead 0
    (d.when d.lockStored (fun d => (d.wr Nv.NV_STAT_LOCKED 0 1).wr Nv.NV_STAT_VENDOR_OPEN 0 0), 0)
  | _ =>
    if d.nvHold then (d.incSat Nv.NV_STAT_UNLOCK_FAILS 0, 4)
    else if Config.unlockResponse (d.rd Nv.NV_CHALLENGE 0) Config.serialNumber % 2 ^ 64 = x.resp then
      ((d.wr Nv.NV_STAT_LOCKED 0 0).wr Nv.NV_STAT_VENDOR_OPEN 0 1, 0)
    else
      let d := (d.incSat Nv.NV_STAT_UNLOCK_FAILS 0).evt 2 0 Nv.E_UNLOCK_FAIL
      (({ d with nvHold := true } : Dev).newChallenge, 3)

/-- An operation starts: what it works on is taken, BUSY sets. -/
def Dev.nvStart (d : Dev) (op : Nat) : Dev :=
  if d.is Nv.NV_CMD_BUSY 0 then d.badAccess 2 0
  else if op = 0 ∨ 4 < op then d
  else ({ d with nvOp := some ⟨op, d.rd Nv.NV_ADDR_WORD 0, d.rd Nv.NV_DATA 0, d.rd Nv.NV_RESPONSE 0⟩ } : Dev).wr Nv.NV_CMD_BUSY 0 1

/-- A write of NV_CMD: ERR clears first, then OP starts. -/
def Dev.nvCmd (d : Dev) (v : Nat) : Dev :=
  (d.when (v.testBit 30) (fun d => d.wr Nv.NV_CMD_ERR 0 0)).nvStart (bits v 0 4)

/-- The operation under way ends: REFUSE and ERR show how, OP_DONE is raised. -/
def Dev.nvDone (d : Dev) : Dev :=
  match d.nvOp with
  | none => d
  | some x =>
    let r := ({ d with nvOp := none } : Dev).nvDo x
    let d := ((r.1.wr Nv.NV_CMD_BUSY 0 0).wr Nv.NV_CMD_REFUSE 0 r.2).wrb Nv.NV_CMD_ERR 0 (r.2 != 0)
    d.evt 2 0 Nv.E_OP_DONE

def execNvRead (req : Req) (s : State) : Host.Outcome State Fault Refusal :=
  s.upd (fun d => d.busW req.num 2 0 (fun d => d.nvStart 1))

def execNvWrite (req : Req) (s : State) : Host.Outcome State Fault Refusal :=
  s.upd (fun d => d.busW req.num 2 0 (fun d => d.nvStart 2))

def execCommitLock (req : Req) (s : State) : Host.Outcome State Fault Refusal :=
  s.upd (fun d => d.busW req.num 2 0 (fun d => d.nvStart 3))

def execUnlock (req : Req) (s : State) : Host.Outcome State Fault Refusal :=
  s.upd (fun d => d.busW req.num 2 0 (fun d => d.nvStart 4))

def execNvOpDone (s : State) : Host.Outcome State Fault Refusal := s.upd Dev.nvDone

/-- 1 s after a wrong response. -/
def execUnlockHoldoffEnd (s : State) : Host.Outcome State Fault Refusal := s.upd (fun d => { d with nvHold := false })

end Sys2Proof.Machine
end

