-- ==== Sys2Proof/Machine/Partition.lean ====
section
/-!
DEFINITION. The partition table: commit and its refusals (R56–R61).
The log's entries 10 and 19 of notes/assumptions name what is DEDUCED or a DESIGN CHOICE here, and marks each.
-/

namespace Sys2Proof.Machine

/-- Active and shadow fields of a partition-table entry, links apart, with how many resources each has (R56). -/
def partMasks : List (Fld × Fld × Nat) :=
  [(Claims.ACT_PORTS, Claims.SHD_PORTS, 16), (Claims.ACT_CES, Claims.SHD_CES, 17),
   (Claims.ACT_GENERATORS, Claims.SHD_GENERATORS, 16), (Claims.ACT_ENCODERS, Claims.SHD_ENCODERS, 8),
   (Claims.ACT_STREAMS, Claims.SHD_STREAMS, 32), (Claims.ACT_TOUT, Claims.SHD_TOUT, 32), (Claims.ACT_DIN, Claims.SHD_DIN, 24),
   (Claims.ACT_DQ_GROUPS, Claims.SHD_DQ_GROUPS, 32), (Claims.ACT_IQ_GROUPS, Claims.SHD_IQ_GROUPS, 8),
   (Claims.ACT_HBM_REGIONS, Claims.SHD_HBM_REGIONS, 64)]

/-- Every active field with its shadow. -/
def partFields : List (Fld × Fld) :=
  (Claims.ACT_VALID, Claims.SHD_VALID) :: (Claims.ACT_LINKS, Claims.SHD_LINKS) :: partMasks.map (fun m => (m.1, m.2.1))

/-- The entries of the shadow copy that are VALID and have a resource. -/
def Dev.shadowHas (d : Dev) (f : Fld) (n : Nat) : List Nat :=
  (List.range 4).filter (fun k => d.is Claims.SHD_VALID 0 k && (d.rd f 0 k).testBit n)

/-- The partition of a resource under the shadow copy. -/
def Dev.shadowPart (d : Dev) (f : Fld) (n : Nat) : Nat := ((d.shadowHas f n).head?).getD d.owner

/-- A resource changes partition by a commit. -/
def Dev.moves (d : Dev) (act shd : Fld) (n : Nat) : Bool := d.resPart act n != d.shadowPart shd n

/-- The field pages of a resource (R31, R56). -/
def resPages (f : Fld) (n : Nat) : List (Nat × Nat) :=
  if f = Claims.ACT_PORTS then
    (List.range 4).map (fun j => (0x08, 4 * n + j)) ++ [(0x0A, n), (0x0B, n), (0x0C, n)]
  else if f = Claims.ACT_CES then [(0x0D, n), (0x0F, n)]
  else if f = Claims.ACT_GENERATORS then [(0x12, 32 + n)]
  else if f = Claims.ACT_ENCODERS then [(0x10, n)]
  else if f = Claims.ACT_STREAMS then [(0x13, n)]
  else if f = Claims.ACT_TOUT then [(0x12, n)]
  else if f = Claims.ACT_DIN then [(0x11, n)]
  else if f = Claims.ACT_DQ_GROUPS then [(0x1B, n)]
  else if f = Claims.ACT_IQ_GROUPS then [(0x1B, 32 + n)]
  else [(0x19, n)]

/-- The claim registers of a resource (R63). -/
def resClaims (f : Fld) (n : Nat) : List (Res × Nat) :=
  if f = Claims.ACT_GENERATORS then [(.gen, n)]
  else if f = Claims.ACT_ENCODERS then [(.enc, n)]
  else if f = Claims.ACT_STREAMS then [(.range, n)]
  else if f = Claims.ACT_TOUT then [(.tout, n)]
  else if f = Claims.ACT_HBM_REGIONS then [(.hbm, n)]
  else []

/-- Some resource that changes partition has a property. -/
def Dev.anyMoved (d : Dev) (p : Fld → Nat → Bool) : Bool :=
  partMasks.any (fun m => (List.range m.2.2).any (fun n => d.moves m.1 m.2.1 n && p m.1 n))

/-- The REFUSE code of a commit, 0 where it is accepted: the lowest that applies (R60). -/
def Dev.commitRefuse (d : Dev) : Nat :=
  let links := (List.range 4).filter (fun l => d.linkExists l)
  let moved := (List.range 4).filter (fun l => d.moves Claims.ACT_LINKS Claims.SHD_LINKS l)
  if ((Claims.ACT_LINKS, Claims.SHD_LINKS, 4) :: partMasks).any (fun m =>
      (List.range m.2.2).any (fun n => decide (1 < (d.shadowHas m.2.1 n).length))) then 1
  else if d.anyMoved (fun f n => (resPages f n).any (fun p => d.enabled p.1 p.2)) then 2
  else if d.anyMoved (fun f n =>
      (resPages f n).any (fun p => d.claimCount p.1 p.2 != 0) || (resClaims f n).any (fun c => (d.claim c.1 c.2).held)) then 3
  else if links.all (fun l => d.shadowPart Claims.SHD_LINKS l != d.owner) then 4
  else if moved.any (fun l => (List.range 16).any (fun f => (d.fn (16 * l + f)).bme)) then 5
  else if d.moves Claims.ACT_CES Claims.SHD_CES 16 && d.is Ce.SPARE_STAT_SERVING 16 &&
      d.resPart Claims.ACT_CES (d.rd Ce.SPARE_STAT_SERVED_ENGINE 16) != d.resPart Claims.ACT_CES 16 then 6
  else 0

/-- Entry k of the active table takes what a reader gives for each field; the shadow copy too where it is loaded with it. -/
def Dev.loadEntry (d : Dev) (shadow : Bool) (k : Nat) (v : Fld × Fld → Nat) : Dev :=
  partFields.foldl (fun d f =>
    let x := v f
    let d := d.wr f.1 0 x k
    if shadow then d.wr f.2 0 x k else d) d

/-- PT_CTRL.COMMIT is written 1 (R59, R60): the whole table takes effect at once, and BUSY reads 1 until the commit is complete. -/
def Dev.commit (d : Dev) : Dev :=
  if d.is Claims.PT_CTRL_BUSY 0 then d
  else
    let n := d.commitRefuse
    if n ≠ 0 then d.wr Claims.PT_CTRL_REFUSE 0 n
    else
      let e := (List.range 4).foldl (fun e k => e.loadEntry false k (fun f => d.rd f.2 0 k)) d
      (e.wr Claims.PT_CTRL_REFUSE 0 0).wr Claims.PT_CTRL_BUSY 0 1

def execPartitionCommit (req : Req) (s : State) : Host.Outcome State Fault Refusal :=
  s.upd (fun d => d.busW req.num 4 0 Dev.commit)

def execPartitionCommitDone (s : State) : Host.Outcome State Fault Refusal :=
  s.upd (fun d => d.wr Claims.PT_CTRL_BUSY 0 0)

end Sys2Proof.Machine
end

