-- ==== Sys2Proof/Machine/Startup.lean ====
section
/-!
DEFINITION. Device reset and boot (R58, R441, R444, R445, R449, R493, R514, R516, R523–R531, R544).
The log's entries 1, 66, 69 and 70 of notes/assumptions name what is DEDUCED or a DESIGN CHOICE here, and marks each.
-/

namespace Sys2Proof.Machine

/-! ## Device reset (R523) -/

/-- Device reset: everything returns to its reset state but the NV store; pins, the JTAG port and what the board presents are
outside it. The frame store loses its contents. -/
def Dev.devReset (d : Dev) : Dev :=
  let links := (List.range 4).foldl (fun m l => mset m l { LinkH.reset with perst := (d.link l).perst } default) []
  let boot := { Dev.reset.boot with board := d.boot.board }
  { Dev.reset with
    nv := d.nv, wear := d.wear, sent := d.sent, free := d.free, ticks := d.ticks, jtag := d.jtag
    links := links
    boot := boot
    wbuf := [MemOp.clear 0 (4 * stackBytes)] }

/-- A word write of the NV store that is in progress is completed before the reset (R527, R544). -/
def Dev.nvFinish (d : Dev) : Dev :=
  match d.nvOp with
  | some x => d.when (x.op == 2) Dev.nvDone
  | none => d

/-- A word write that a RESET_N pulse cuts off leaves its word at a value the spec does not state. -/
def Dev.nvCut (d : Dev) : Dev :=
  match d.nvOp with
  | some x =>
    if x.op = 2 ∧ d.nvMay x.word = true then { d.freeUsed with nv := mset d.nv x.word (d.freeVal 72) 0 } else d
  | none => d

/-! ## The boot area (R528–R531) -/

/-- Words of the boot area that fail their CRC, in rising order; a word never written is zero and passes. -/
def Dev.bootBad (d : Dev) : List Nat :=
  (d.nv.filter (fun e => decide (e.1 < 0x200) && !d.nvGood e.1)).map (fun e => e.1)

/-- The boot area is used: its first word passes and holds MAGIC and BOOT_VER. -/
def Dev.bootUsed (d : Dev) : Bool := d.nvGood 0 && d.nvData 0 % 2 ^ 48 == 0x0100_54_42_52_4B

/-- A field of a word of the boot area; none where the area or the word is not used. -/
def Dev.bootField (d : Dev) (word lo w : Nat) : Option Nat :=
  if d.bootUsed && d.nvGood word then some (bits (d.nvData word) lo w) else none

/-- A bit of BFLAGS. -/
def Dev.bflag (d : Dev) (b : Nat) : Bool := (d.bootField 0 (48 + b) 1).getD 0 == 1

/-- A byte that must lie in a range. -/
def Dev.bootByte (d : Dev) (word lo least most dflt : Nat) : Nat :=
  match d.bootField word lo 8 with
  | some v => if least ≤ v ∧ v ≤ most then v else dflt
  | none => dflt

/-- The rate of a port: an entry without VALID, or with the code that R67 does not list, gives the default. -/
def Dev.bootRate (d : Dev) (p : Nat) : Nat :=
  match d.bootField 4 (4 * p) 4 with
  | some v => if v.testBit 3 ∧ v % 4 ≠ 3 then v % 4 else 0
  | none => 0

/-- The values of the boot area, or their defaults. -/
def Dev.bootCfg (d : Dev) : BootCfg :=
  let cal := d.nv.filter (fun e => decide (0x400 ≤ e.1) && decide (e.1 < 0x800))
  let four (f : Nat → Nat) : Nat := (List.range 4).foldl (fun a n => a + f n * 256 ^ n) 0
  { rates := (List.range 16).foldl (fun a p => a + d.bootRate p * 4 ^ p) 0
    macs := (List.range 2).map (fun n => (d.bootField (5 + n) 0 48).getD (Config.factoryMac cal n % 2 ^ 48))
    node := (d.bootField 7 0 16).getD 0
    totalVfs := d.bootByte 1 8 0 15 15
    pfBar2 := four (fun n => d.bootByte 1 (32 + 8 * n) 28 36 36)
    vfBar2 := four (fun n => d.bootByte 2 (8 * n) 28 32 32)
    ids := [(d.bootField 2 32 16).getD (Config.vendorId % 2 ^ 16), (d.bootField 2 48 16).getD 0x7160,
      (d.bootField 3 0 16).getD 0x7161, (d.bootField 3 16 16).getD (Config.vendorId % 2 ^ 16), (d.bootField 3 32 16).getD 0] }

/-- The partition defaults are used: PART_DEF_VALID, and all their words pass. -/
def Dev.partDef (d : Dev) : Bool := d.bflag 3 && (d.bootBad).all (fun a => decide (a < 8) || decide (72 ≤ a))

/-- A field of entry k of the partition defaults, which have the layout of R56. -/
def Dev.partDefField (d : Dev) (k : Nat) (f : Fld) : Nat :=
  let o := 64 + 128 * k + (f.off - 0x100)
  bits (d.nvData (o / 8) / 2 ^ (o % 8 * 8) + d.nvData (o / 8 + 1) * 2 ^ (64 - o % 8 * 8)) f.lo f.w

/-- A bifurcation setting: the boot area's where it has one, else the strap's (R441). -/
def Dev.bifurcated (d : Dev) (n : Nat) (strap : Bool) : Bool := if d.bflag (4 + 2 * n) then d.bflag (5 + 2 * n) else strap

/-- Owner partition, identities, sizes, bifurcation and partition table are fixed (step 3 of R524). -/
def Dev.bootArea (d : Dev) (s : Straps) : Dev :=
  let bad := d.bootBad
  let d := bad.foldl Dev.nvRead d
  let d := { d with boot := { d.boot with cfg := d.bootCfg } }
  let d := (d.wr AO.BOOT_STAT_BAD_WORDS 0 (min bad.length 255)).wrb AO.BOOT_STAT_DEFAULTED 0 (!d.bootUsed)
  let d := d.wrb Nv.NV_STAT_LOCKED 0 (!d.nvGood 0 || d.lockStored)
  let nv := d.bflag 1 && (d.bootField 1 0 2).isSome
  let d := (d.wrb AO.OWNER_INFO_SRC 0 nv).wr AO.OWNER_INFO_OWNER 0 (if nv then (d.bootField 1 0 2).getD 0 else s.ownSel % 4)
  let d := [(0, d.bifurcated 0 s.h0Bif), (1, d.bifurcated 1 s.h1Bif)].foldl (fun d x =>
    (d.wrb Link.LINK_STAT_BIFURCATED x.1 x.2).wrb Link.LINK_STAT_BIFURCATED (x.1 + 2) x.2) d
  let d := d.wrb AO.BOOT_STAT_PART_DEF 0 d.partDef
  let d := d.when d.partDef (fun d =>
    (List.range 4).foldl (fun e k => e.loadEntry true k (fun f => d.partDefField k f.1)) d)
  d.when (!d.bootUsed || !bad.isEmpty) (fun d => d.evt 2 0 Nv.E_BOOT_DEFAULTED)

/-! ## The health record (R493) -/

/-- A copy of the record as its words say. -/
def Dev.hrecCopy (d : Dev) (copy : Nat) : HealthRec :=
  let w := fun j => d.nvData (hrecBase copy + j)
  { seq := bits (w 0) 0 32, degraded := bits (w 0) 32 32, lastDeg := bits (w 1) 0 32, tempMax := bits (w 1) 32 8,
    spareMap := bits (w 1) 40 8, sparedPc := bits (w 2) 0 32, powerOn := bits (w 2) 32 32, copy := copy }

/-- A copy is valid. -/
def Dev.hrecGood (d : Dev) (copy : Nat) : Bool := (List.range 4).all (fun j => d.nvGood (hrecBase copy + j))

/-- The record in use: of two valid copies the one with the higher SEQ; from zero where there is none. -/
def Dev.hrecPick (d : Dev) : HealthRec :=
  let a := d.hrecCopy 0
  let b := d.hrecCopy 1
  if d.hrecGood 0 && (!d.hrecGood 1 || decide (b.seq ≤ a.seq)) then a
  else if d.hrecGood 1 then b
  else { (default : HealthRec) with copy := 1 }

/-- The record is chosen and counted up. -/
def Dev.hrecTake (d : Dev) : Dev :=
  let h := d.hrecPick
  { d with health := { h with powerOn := min (h.powerOn + 1) (2 ^ 32 - 1) } }

/-- What reading the two copies found is recorded, the record taken is rewritten, and the spares it names are in use from the
outset. -/
def Dev.hrecBoot (d : Dev) : Dev :=
  let h := d.health
  let bad := ((List.range 2).flatMap (fun c => (List.range 4).map (fun j => hrecBase c + j))).filter (fun a => !d.nvGood a)
  let d := (bad.foldl Dev.nvRead d).hrecWrite
  let d := d.when d.worn (fun d => d.flt 2 0 Nv.F_NV_WEAR)
  (List.range 4).foldl (fun d k => d.when (h.spareMap.testBit k) (fun d => d.flt 0x18 k Hbm.F_PC_SPARED)) d

/-- The spare a stack uses, as the health record has it. -/
def Dev.spareStat (d : Dev) : Dev :=
  (List.range 4).foldl (fun d k =>
    d.when (d.health.spareMap.testBit k) (fun d =>
      (d.wr Hbm.STAT_SPARED k 1).wr Hbm.STAT_SPARED_PC k (bits d.health.sparedPc (5 * k) 5))) d

/-! ## The steps of R524 -/

/-- Steps 1 to 3: the AO island leaves reset, samples the straps and reads the NV store. -/
def Dev.bootAO (d : Dev) (s : Straps) : Dev :=
  let d := { d with boot := { d.boot with aoUp := true, board := some s, refWait := false, keyBy := none } }
  let d := d.hrecTake
  let d := d.when (!s.crystal) (fun d => d.flt 1 0 Fc.F_XTAL_LOSS)
  let d := ((d.wr AO.BOOT_STAT_OWN_SEL 0 s.ownSel).wrb AO.BOOT_STAT_H0_BIF 0 s.h0Bif).wrb AO.BOOT_STAT_H1_BIF 0 s.h1Bif
  let d := d.wr AO.BOOT_STAT_SMB_ADDR 0 s.smbAddr
  ((d.bootArea s).hrecBoot).newChallenge

/-- Boot memory BIST of every island (step 5): what failed stays gated where it can be, and the spare rows used are not stated. -/
def Dev.bootBist (d : Dev) (s : Straps) : Dev :=
  let known := (List.range 192).filter islandKnown
  let d := (d.wr AO.BOOT_STAT_MBIST_RAN 0 1).wr Bist.BIST_CMD_BOOT 0 1
  let d := known.foldl (fun d n => d.when (s.bistRepaired.contains n) (fun d => d.setIslBit Bist.BIST_REP n true)) d
  let d := d.when (!s.bistRepaired.isEmpty) (fun d => (d.wr Bist.ROWS_USED 0 (d.freeVal 16)).freeUsed)
  let d := known.foldl (fun d n => d.when (s.bistFailed.contains n) (fun d =>
    if islandGateable n then d.bistFails FrameStore.reset false n
    else ((d.setIslBit Bist.BIST_FAIL n true).flt 0x20 0 Bist.F_MBIST_FAIL).flt 1 0 Fc.F_SRAM_REPAIR_EXH)) d
  d.evt 0x20 0 Bist.E_BIST_DONE

/-- Pages whose reset values the boot fixes. -/
def bootPages : List (Nat × Nat) :=
  (List.range 16).map (fun p => (0x0A, p)) ++ (List.range 64).map (fun l => (0x08, l)) ++
    [(0x16, 0), (0x16, 1), (0x17, 0)] ++ (List.range 64).map (fun n => (0x19, n))

/-- Steps 4 to 6, with REFCLK there or given up. -/
def Dev.bootRest (d : Dev) (s : Straps) : Dev :=
  let d := { d with boot := { d.boot with refWait := false } }
  let d := d.wrb AO.BOOT_STAT_REFCLK_OK 0 s.refclk
  let d := ([1, 2] : List Nat).foldl (fun d n => d.setIslBit Isl.PWR n true) d
  let d := d.when (!s.refclk) (fun d => ({ d with clkLost := true } : Dev).clkFree.flt 0x14 0 Tu.F_REFCLK_LOSS)
  let d := bootPages.foldl (fun d p => d.bootValues p.1 p.2) d
  let d := d.when (d.bflag 2) (fun d => d.bootBist s)
  let d := d.spareStat
  let d := ((List.range 192).filter islandKnown).foldl (fun d n =>
    d.when (n != 0 && !d.islBit Isl.GATE n) (fun d => d.setIslBit Isl.PWR n true)) d
  let d := (List.range 4).foldl (fun d l => d.when (d.linkExists l) (fun d => d.wr Link.STAT_IN_RESET l 1)) d
  (d.wr AO.BOOT_STAT_BOOT_DONE 0 1).wr AO.BOOT_TIME 0 s.bootMicros

/-- A boot: where REFCLK is absent it waits at step 4 (R525). -/
def Dev.bootRun (d : Dev) (s : Straps) : Dev :=
  let d := d.bootAO s
  if s.refclk then d.bootRest s else { d with boot := { d.boot with refWait := true } }

/-- A device reset with the boot that follows it, with what the board presents. -/
def Dev.resetAndBoot (d : Dev) : Dev :=
  let d := d.devReset
  match d.boot.board with
  | some s => d.bootRun s
  | none => d

/-! ## The commands -/

/-- Supplies are good: the device boots; without effect where it has booted. -/
def execPwrGoodRise (straps : Straps) (s : State) : Host.Outcome State Fault Refusal :=
  s.updR (fun _ d => if d.boot.aoUp then d else d.bootRun straps)

/-- The wait for REFCLK of R525 is over; straps.refclk says whether REFCLK came in time. -/
def execRefclkWaitExpiry (straps : Straps) (s : State) : Host.Outcome State Fault Refusal :=
  s.updR (fun _ d => if d.boot.refWait then ({ d with boot := { d.boot with board := some straps } } : Dev).bootRest straps else d)

/-- RESET_N has been low; less than 1 µs is no reset. -/
def execResetN (lowNs : Nat) (s : State) : Host.Outcome State Fault Refusal :=
  s.updR (fun _ d => if lowNs < 1000 then d else d.nvCut.resetAndBoot)

/-- A write of DEV_RESET (R527). -/
def Dev.resetKey (d : Dev) (r v : Nat) : Dev :=
  let none? := ({ d with boot := { d.boot with keyBy := none } } : Dev)
  let live : Option Nat := match d.boot.keyBy with
    | some (q, t) => if d.ticks ≤ t + 781250 then some q else none
    | none => none
  match live with
  | some q => if q = r ∧ v = 0x7160C0DE then none?.nvFinish.resetAndBoot else none?.badAccess 0 0
  | none =>
    if v = 0xC0DE7160 then { d with boot := { d.boot with keyBy := some (r, d.ticks) } } else none?.badAccess 0 0

def execDevReset (req : Req) (val : Word) (s : State) : Host.Outcome State Fault Refusal :=
  s.updR (fun _ d => d.busW req.num 0 0 (fun d => d.resetKey req.num val.toNat))

/-- PWR_GOOD falls: a word write in progress completes, and the device is in reset until it rises again (R523, R544). -/
def execPwrGoodFall (s : State) : Host.Outcome State Fault Refusal :=
  s.updR (fun _ d =>
    let d := d.nvFinish.devReset
    { d with boot := { d.boot with board := none } })

end Sys2Proof.Machine
end

