-- ==== Sys2Proof/Machine/RegWrite.lean ====
section
/-!
DEFINITION. What a write of each register does (R6, R37, R41, R42, R46, R50, R53, R59, R62, R99, R150, R171, R173, R208, R210,
R237–R239, R278–R281, R307, R334, R372, R400, R402, R434, R437, R438, R473, R475, R498, R500, R519–R522, R527).
The log's entries 15 and 16 of notes/assumptions name what is DEDUCED or a DESIGN CHOICE here, and marks each.
-/

namespace Sys2Proof.Machine

/-! ## Queue blocks (R166, R168, R171, R172, R414, R438) -/

/-- While an enabled Q_EVT bit is set the queue raises the QUEUE event of its page (R172). -/
def Dev.qRaise (d : Dev) (k : Nat) : Dev :=
  if (d.queue k).evt &&& d.qrd k Q.Q_EVT_Q_EVT_EN = 0 then d else d.evt (qPage k).1 (qPage k).2 0

/-- RING_CFG of a queue with Q_EN: a rise starts the queue anew (R416), items that wait and descriptors posted go on. -/
def Dev.ringCfgWrite (d : Dev) (k v : Nat) : Dev :=
  let was := d.qrd k Dq.RING_CFG_Q_EN == 1
  let d := (d.qwr k Dq.RING_CFG_FUNCTION (bits v 16 6)).qwr k Dq.RING_CFG_LOG2_ENTRIES (bits v 0 5)
  let d := d.when (decide (k < 320)) (fun d => d.qwr k Dq.RING_CFG_FULL_DROP (bitOf v 8))
  let d := d.qSettle k
  if v.testBit 31 && !was then
    let d := (d.qwr k Dq.RING_CFG_Q_EN 1).qEnable k
    if k < 320 then d.dqFill k else d.iqGo (k - 320)
  else if !v.testBit 31 then d.qOff k
  else d

/-- PTR_POST of a queue (R415, R424): the slots an intake queue is handed stand in host memory, and what they hold is not the
device's to say. -/
def Dev.postWrite (d : Dev) (k v : Nat) : Dev :=
  if k < 320 then d.ptrPost (k - 64) v
  else
    let n := min (pdiff v (d.queue k).wr) (d.qSize k)
    let e := (List.range n).foldl (fun (a : Dev × List (List Nat)) _ => (a.1.freeUsed, a.2 ++ [leBytes 32 (a.1.freeVal 256)])) (d, [])
    e.1.intakePost (k - 320) v e.2

/-- A write to a register of a queue's block; none where it is plain. -/
def Dev.queueWrite (d : Dev) (k o v : Nat) : Option Dev :=
  let p := qPage k
  match o with
  | 0x00 =>
    let d := d.qwr k Q.Q_CFG_AUTO_RELEASE (bitOf v 31)
    some (d.when (decide (k < 16)) (fun d => d.qwr k Q.Q_CFG_CT_THRESH (bits v 0 24)))
  | 0x08 =>
    let hi := bits v 0 24
    some (if hi ≤ d.qrd k Q.Q_WM_LO_WM_LO_LEVEL ∨ d.qSize k < hi then d.badAccess p.1 p.2
      else (d.qwr k Q.Q_WM_HI_WM_HI_LEVEL hi).qSettle k)
  | 0x0C =>
    let lo := bits v 0 24
    some (if d.qrd k Q.Q_WM_HI_WM_HI_LEVEL ≤ lo ∨ d.qSize k < d.qrd k Q.Q_WM_HI_WM_HI_LEVEL then d.badAccess p.1 p.2
      else (d.qwr k Q.Q_WM_LO_WM_LO_LEVEL lo).qSettle k)
  | 0x10 => some (d.qCmd k v)
  | 0x3C =>
    let q := d.queue k
    let d := d.setQueue k { q with evt := q.evt &&& (31 - bits v 0 5) }
    some ((d.qwr k Q.Q_EVT_Q_EVT_EN (bits v 16 5)).qRaise k)
  | 0x48 => some (d.ringCfgWrite k v)
  | 0x4C => some (d.postWrite k v)
  | _ => none

/-! ## Lanes and ports (R68–R99, R137–R150) -/

/-- Registers of a lane. -/
def Dev.laneWrite (d : Dev) (l o v : Nat) : Option Dev :=
  match o with
  | 0x40 =>
    let flip := d.rd Lane.LANE_CFG_RX_INV l != bitOf v 1
    let d := [Lane.LANE_CFG_EXCLUDE, Lane.LANE_CFG_AUTO_POL, Lane.LANE_CFG_TX_INV, Lane.LANE_CFG_RX_INV,
      Lane.LANE_CFG_ADAPT_EN].foldl (fun d f => d.wr f l (bits v f.lo f.w)) d
    some ((d.when flip (fun d => d.wr Lane.STAT_POL_INV l (bitOf v 1))).portEval (l / 4))
  | 0x44 => some (d.ffeWrite l (bits v 16 4) (bits v 8 5) (bits v 0 4))
  | 0x48 =>
    some (([Lane.ADAPT_CFG_FOM_GOOD, Lane.ADAPT_CFG_FOM_DROP, Lane.ADAPT_CFG_ADAPT_TD_MIN].foldl
      (fun d f => d.wr f l (bits v f.lo f.w)) d).laneGood l)
  | 0x4C =>
    let d := (d.wr Lane.ADAPT_CFG2_REVERT_LIMIT l (bits v 12 4)).wr Lane.ADAPT_CFG2_FOM_FAIL l (bits v 0 8)
    some ((d.laneGood l).portEval (l / 4))
  | 0x50 =>
    let d := d.when (v.testBit 4) (fun d => d.laneClrCnt l)
    let d := d.when (v.testBit 3) (fun d => d.cmdClearStuck l)
    let d := d.when (v.testBit 2) (fun d => d.cmdRestart l)
    let d := d.when (v.testBit 1) (fun d => d.cmdSnapNow l)
    some (d.when (v.testBit 0) (fun d => d.cmdRevertNow l))
  | 0x60 | 0x64 | 0x68 | 0x6C =>
    some ((List.range 4).foldl (fun d b =>
      let n := o - 0x60 + b
      if n < 15 then d.wr (tapFlds.getD n Lane.TAP1) l (clampTap n (bits v (8 * b) 8)) else d) d)
  | 0x80 => some (d.scanWrite l (bits v 24 5) (bits v 16 8) (bits v 8 7) (v.testBit 0))
  | _ => none

/-- LG_CFG: REFOUT stops where it is cleared, and a spread with new settings starts anew (R69, R71, R142). -/
def Dev.lgCfgWrite (d : Dev) (p v : Nat) : Dev :=
  let off := d.is Port.LG_CFG_REFOUT_EN p && !v.testBit 2
  let was := d.is Port.LG_STAT_REFOUT_OK p
  let spread := [Port.LG_CFG_SSC_FREQ, Port.LG_CFG_SSC_DEPTH, Port.LG_CFG_SSC_EN].any (fun f => d.rd f p != bits v f.lo f.w)
  let d := d.when (off || spread) (fun d => d.sscStop p)
  let d := d.rateWrite p (bits v 0 2)
  let d := [Port.LG_CFG_EXPECT_MASK, Port.LG_CFG_AUTO_NARROW, Port.LG_CFG_LANE_FAIL_TIME, Port.LG_CFG_SSC_FREQ,
    Port.LG_CFG_SSC_DEPTH, Port.LG_CFG_SSC_EN, Port.LG_CFG_REFOUT_EN].foldl (fun d f => d.wr f p (bits v f.lo f.w)) d
  let d := d.when off (fun d => d.wr Port.LG_STAT_REFOUT_OK p 0)
  (d.when (off && was) (fun d => d.evt 0x0A p Port.E_REFOUT_FAULT)).portEval p

/-- Registers of a Flegar port. -/
def Dev.portWrite (d : Dev) (p o v : Nat) : Option Dev :=
  match o with
  | 0x40 => some (d.lgCfgWrite p v)
  | 0x50 => some (d.when (v.testBit 0) (fun d => d.cmdWiden p))
  | 0x68 => some (d.named 0x0A p (fun d =>
      [Port.TRIG_CFG_GEN_EN, Port.TRIG_CFG_GEN, Port.TRIG_CFG_ACTION, Port.TRIG_CFG_TRIG_LEAD].foldl
        (fun d f => d.wr f p (bits v f.lo f.w)) d))
  | 0x90 =>
    let d := d.when (v.testBit 0) (fun d => d.cmdTimeAck p)
    some (d.when (v.testBit 1) (fun d => d.timeReq p))
  | 0x94 =>
    let op := bits v 16 2
    let n := bits v 0 9
    some (if op ≠ 0 then d.cmdMgmt p op n
      else if n < 4 ∨ 256 < n ∨ n % 4 ≠ 0 then d.badAccess 0x0A p
      else d.wr Port.MGMT_CMD_COUNT p n)
  | 0x9C =>
    some (match bits v 16 2 with
    | 0 => (d.cmdLb2Exit p).wr Port.LB_CTRL_DURATION p (bits v 0 16)
    | 1 => d.cmdLb2Enter p (bits v 0 16)
    | x => (d.wr Port.LB_CTRL_MODE p x).wr Port.LB_CTRL_DURATION p (bits v 0 16))
  | 0xB8 => some (d.when (v.testBit 0) (fun d => d.clearRegs 0x0A p 0xA4 0xB4))
  | _ => none

/-! ## Position and triggers (R191, R208, R210, R237–R239) -/

/-- POS_CMD: each bit acts, REBASE last. -/
def Dev.posCmd (d : Dev) (k v : Nat) : Dev :=
  let d := d.when (v.testBit 4) (fun d => d.clearRegs 0x10 k 0xE0 0xE8)
  let d := d.when (v.testBit 1) (fun d => d.cmdClrExcess k)
  let d := d.when (v.testBit 2) (fun d => d.cmdClrSuspect k)
  let d := d.when (v.testBit 3) (fun d => d.cmdZArm k)
  let d := d.when (v.testBit 5) (fun d => d.idStart k)
  d.when (v.testBit 0) (fun d => d.rebase k)

/-- Registers of outputs, generators, compare streams, channels and inputs. -/
def Dev.triggerWrite (d : Dev) (r c i o v : Nat) : Option Dev :=
  match c, o with
  | 0x10, 0x40 =>
    let rise := v.testBit 7 && !d.is Pos.ENC_CFG_LIMIT_EN i
    some ((d.plainWord r c i o v).when rise (fun d => d.confineAll i))
  | 0x10, 0x48 =>
    let rise := v.testBit 31 && !d.is Pos.HIST_CFG_HIST_EN i
    some ((d.plainWord r c i o v).when rise (fun d => d.setChan i { d.chan i with gap := true }))
  | 0x10, 0x70 => some (d.posCmd i v)
  | 0x11, 0x80 =>
    let inv := d.rd Din.DIN_CFG_INV i
    let e := d.plainWord r c i o v
    let e := e.when (!e.is Din.DIN_CFG_DIFF i) (fun e => e.wr Din.STAT_WIRE i 0)
    some (e.when (e.rd Din.DIN_CFG_INV i != inv || (d.is Din.STAT_WIRE i && !e.is Din.STAT_WIRE i)) (fun e => e.dinAgain i inv))
  | 0x11, 0x88 => some (d.when (v.testBit 0) (fun d => d.clearRegs 0x11 i 0x90 0x90))
  | 0x12, 0x48 =>
    if i < 32 then
      let d := d.when (v.testBit 1) (fun d => d.clearRegs 0x12 i 0x50 0x50)
      some (d.when (v.testBit 0) (fun d => d.cmdSafeExit i))
    else none
  | 0x12, 0x68 => if i < 32 then none else some (d.named 0x12 i (fun d => d.wr Gen.GEN_OUT_MASK i v))
  | 0x12, 0x70 => if i < 32 then none else some (d.genCmd (i - 32) v)
  | 0x13, 0xA0 => some (d.availWrite i v)
  | 0x13, 0xA8 => some (d.csCmd i v)
  | 0x14, 0x70 => some (d.tuCmd v)
  | 0x15, 0x44 => some (d.taCmd v)
  | _, _ => none

/-! ## The test page (R501–R522) -/

/-- Registers of the test page. -/
def Dev.testWrite (m : FrameStore) (d : Dev) (r o v : Nat) : Option Dev :=
  let u := (o - 0x100) / 32
  if 0x100 ≤ o ∧ o < 0x340 then
    if o % 32 = 0 then some (if u < 16 then d.flbCfgWrite u v else d.elbCfgWrite (u - 16) v)
    else if o % 32 = 4 then some (d.injCfgWrite u v)
    else none
  else if 0x380 ≤ o ∧ o < 0x3C0 ∧ o % 16 = 0 then some (Dev.plbCfgWrite m d r ((o - 0x380) / 16) v)
  else if 0x480 ≤ o ∧ o < 0x4C0 ∧ o % 16 = 0 then some (d.hlbWrite ((o - 0x480) / 16) v)
  else match o with
    | 0x40 => some (d.when (v.testBit 0) (fun d =>
        let d := (List.range 18).foldl (fun d u => d.clearRegs 0x1F 0 (0x114 + 32 * u) (0x11C + 32 * u)) d
        (List.range 4).foldl (fun d n => (d.wr Test.PLB_ERR_CNT 0 0 n).wr Test.ERR_CNT 0 0 n) d))
    | 0x404 => some (d.named 0x1F 0 (fun d => d.wr Test.ROUTE_E 0 v))
    | 0x40C => some (d.qgenWrite v)
    | _ => none

/-! ## Device pages (R50, R51, R59, R63, R498, R500, R516, R522, R527) -/

/-- FC_CFG: KA_EN as it rises reads the known-answer image (R489). -/
def Dev.fcCfgWrite (d : Dev) (v : Nat) : Dev :=
  d.guard (fun d =>
    let rise := v.testBit 4 && !d.is Fc.FC_CFG_KA_EN 0
    let d := [Fc.FC_CFG_INJ_UNLOCK, Fc.FC_CFG_SRAM_SCRUB_S, Fc.FC_CFG_KA_PERIOD, Fc.FC_CFG_KA_EN, Fc.FC_CFG_SRAM_SCRUB_EN,
      Fc.FC_CFG_ALERT_CLASS].foldl (fun d f => d.wr f 0 (bits v f.lo f.w)) d
    d.when rise Dev.kaCheck)

/-- FC_CMD. -/
def Dev.fcCmd (d : Dev) (v : Nat) : Dev :=
  let d := d.when (v.testBit 1) (fun d => d.clearRegs 1 0 0x50 0x58)
  let d := d.when (v.testBit 0) Dev.summaryClr
  d.when (v.testBit 2) Dev.kaNow

/-- Bits of ISL_GATE or of ISL_RESET, word w, in rising order. -/
def Dev.islWrite (m : FrameStore) (d : Dev) (reset : Bool) (w v : Nat) : Dev :=
  (List.range 32).foldl (fun d b =>
    if reset then (if v.testBit b then Dev.islReset m d (32 * w + b) else d)
    else Dev.gateWrite m d (32 * w + b) (v.testBit b)) d

/-- Registers of the device page, the fault collector, the NV store, islands, the partition table and the BIST page. -/
def Dev.deviceWrite (m : FrameStore) (d : Dev) (r c i o v : Nat) : Option Dev :=
  match c, o with
  | 0x00, 0x48 => some (d.accessClr v)
  | 0x00, 0x88 => some (d.healthCmd v)
  | 0x00, 0xA8 => some (d.resetKey r v)
  | 0x01, 0x48 => some (d.fcCmd v)
  | 0x01, 0x4C => some (d.fcCfgWrite v)
  | 0x02, 0x40 => some (d.nvCmd v)
  | 0x05, _ =>
    if 0x40 ≤ o ∧ o < 0x58 then some (d.islWrite m false ((o - 0x40) / 4) v)
    else if 0x60 ≤ o ∧ o < 0x78 then some (d.islWrite m true ((o - 0x60) / 4) v)
    else none
  | 0x04, _ =>
    if i ≠ 0 then none
    else if o = 0x40 then some (d.when (v.testBit 0) Dev.commit)
    else if 0x300 ≤ o ∧ d.is Claims.PT_CTRL_BUSY 0 then some d
    else none
  | 0x20, 0x40 => some (d.bistCmd v)
  | _, _ => none

/-! ## The other blocks -/

/-- Registers of line conditioning, reference intake, engines, the network, the frame store, delivery and host pages. -/
def Dev.blockWrite (m : FrameStore) (d : Dev) (c i o v : Nat) : Option Dev :=
  match c, o with
  | 0x0B, 0x98 => some (d.when (v.testBit 0) (fun d => d.clearRegs 0x0B i 0x90 0x94))
  | 0x0C, 0x64 => some (d.lcuCmd i v)
  | 0x0D, 0x58 => some (d.cmpCmd i v)
  | 0x0D, 0x108 => some (d.named 0x0D i (fun d =>
      [Ce.SNAG_CFG_SNAG_MAX, Ce.SNAG_CFG_SNAG_TILE_MAX, Ce.SNAG_CFG_SNAG_TILES_EN, Ce.SNAG_CFG_SNAG_REGION].foldl
        (fun d f => d.wr f i (bits v f.lo f.w)) d))
  | 0x0D, 0x120 => some (d.ceCmd m i v)
  | 0x0E, 0x44 => some (d.when (v.testBit 0) (fun d => d.clearRegs 0x0E 0 0x58 0x5C))
  | 0x0F, 0x48 => if i = 63 then none else some (d.plCmd i v)
  | 0x16, 0x68 =>
    let d := d.when (v.testBit 31 && !d.is Eth.MASTER_PORT_WATCH_EN i) (fun d => d.setEth i { d.eth i with syncAt := d.nowL })
    some ((d.wr Eth.MASTER_PORT_WATCH_EN i (bits v 31 1)).wr Eth.MASTER_PORT_PORT_NUM i (bits v 0 16))
  | 0x16, 0xB0 => some (d.ethCmd i v)
  | 0x17, 0x58 => some (d.when (v.testBit 0) (fun d => d.clearRegs 0x17 0 0x60 0x64))
  | 0x18, 0x44 =>
    let d := d.wr Hbm.HBM_CMD_PC i (bits v 8 5)
    let d := d.when (v.testBit 0) (fun d => d.clearRegs 0x18 i 0x4C 0x4C)
    some (d.when (v.testBit 1) (fun d => d.spareCause i (bits v 8 5)))
  | 0x1A, 0x4C => some (d.when (v.testBit 0) (fun d => d.clearRegs 0x1A 0 0x48 0x48))
  | 0x1C, 0x64 => some (d.intxAck i (bits v 0 11))
  | 0x1C, 0x68 =>
    some (d.when (v.testBit 0) (fun d => (d.clearRegs 0x1C i 0x50 0x50).clearRegs 0x1C i 0x60 0x60))
  | 0x1D, 0x40 => some (d.wttCmd i v)
  | 0x1E, 0x44 => some (d.when (v.testBit 0) (fun d => d.clearRegs 0x1E i 0x4C 0x4C))
  | _, _ => none

/-! ## One register of a field page -/

/-- What a write of the register at an offset from 0x040 upwards of a field page does; none where it is plain. -/
def Dev.special (m : FrameStore) (d : Dev) (r c i o v : Nat) : Option Dev :=
  if o = 0xFC4 ∧ hasIndirect c i then some (d.tblCmd (d.reqPart r) c i v)
  else match queueReg c i o with
    | some (k, y) => d.queueWrite k y v
    | none =>
      match c with
      | 0x08 => d.laneWrite i o v
      | 0x0A => d.portWrite i o v
      | 0x10 | 0x11 | 0x12 | 0x13 | 0x14 | 0x15 => d.triggerWrite r c i o v
      | 0x00 | 0x01 | 0x02 | 0x04 | 0x05 | 0x20 => d.deviceWrite m r c i o v
      | 0x1F => d.testWrite m r o v
      | _ => d.blockWrite m c i o v

/-- A write of the register at an offset from 0x040 upwards of a field page that takes it. -/
def Dev.blockReg (m : FrameStore) (d : Dev) (r c i o v : Nat) : Dev :=
  if (pageHits c i o).isEmpty then d
  else if d.lockedReg c i o || d.lockedChange c i o v || d.badValue c i o v then d.badAccess c i
  else
    let k := fun (d : Dev) => (d.special m r c i o v).getD (d.plainWord r c i o v)
    if c = 0x1F then (k d).routed
    else if c = 0x18 then d.guard k
    else k d

end Sys2Proof.Machine
end

