-- ==== Sys2Proof/Machine/Bus.lean ====
section
/-!
DEFINITION. Register writes as they arrive from a requester: the shape of an access, the page header, claim registers, and the
commands that are writes of a particular kind (R6, R12, R28–R30, R37, R41, R42, R44, R46, R49, R63, R171).
The log's entries 11, 16 and 21 of notes/assumptions name what is DEDUCED or a DESIGN CHOICE here, and marks each.
-/

namespace Sys2Proof.Machine

/-! ## The header of a page (R32–R43) -/

/-- A write of CTRL: SRST wins over what else the write asks for; in the pages without it nothing happens (R37, R38). -/
def Dev.ctrlWrite (m : FrameStore) (d : Dev) (c i v : Nat) : Dev :=
  if alwaysOn c then d
  else if v.testBit 1 then d.srst m c i
  else (d.setFreeze (canon c i).1 (canon c i).2 (v.testBit 2)).setEn c i (v.testBit 0)

/-- The FLT_EN bits of a page that software can clear: implemented, and not of a FATAL source (R42, R478). -/
def fltMaskable (c i : Nat) : Nat := mapOf 32 (fun b => match fltSeverity c i b with
  | some s => s != 4
  | none => false)

/-- A write of FLT: ones clear; a stack's ERR_ADDR is cleared with DBE (R434). -/
def Dev.fltClear (d : Dev) (c i v : Nat) : Dev :=
  let d := d.wr (Hdr.FLT c) i (d.rd (Hdr.FLT c) i &&& (2 ^ 32 - 1 - v % 2 ^ 32))
  d.when (c == 0x18 && v.testBit Hbm.F_DBE) (fun d => d.wr Hbm.ERR_ADDR i 0)

/-- A write of FLT_EN. -/
def Dev.fltEnWrite (d : Dev) (c i v : Nat) : Dev := d.wr (Hdr.FLT_DIS c) i (fltMaskable c i &&& (2 ^ 32 - 1 - v % 2 ^ 32))

/-- A write of EVT: ones clear; a queue with an enabled event pending raises it again (R41, R172). -/
def Dev.evtClear (d : Dev) (c i v : Nat) : Dev :=
  let d := d.wr (Hdr.EVT c) i (d.rd (Hdr.EVT c) i &&& (2 ^ 32 - 1 - v % 2 ^ 32))
  (pageQueues c i).foldl Dev.qRaise d

/-- A write of EVT_FORCE: each bit as if its event had occurred (R41). -/
def Dev.evtForce (d : Dev) (c i v : Nat) : Dev :=
  (List.range 32).foldl (fun d b => d.when (v.testBit b) (fun d => d.evt c i b)) d

/-- A write of a Block register of a page that takes it. -/
def Dev.blockWord (m : FrameStore) (d : Dev) (r c i o v : Nat) : Dev :=
  let p := canon c i
  match o with
  | 0x14 => d.evtClear p.1 p.2 v
  | 0x18 => d.setEvtEn p.1 p.2 v
  | 0x1C => d.evtForce p.1 p.2 v
  | _ => if o < 0x40 then d else Dev.blockReg m d r p.1 p.2 o v

/-! ## Claim registers (R62, R63) -/

/-- The operation that a word written to a claim register asks for. -/
def Dev.claimWord (d : Dev) (r : Nat) (k : Res) (n v : Nat) : Dev :=
  d.busClaim r k n (fun d => d.claimOp k n (bits v 28 2) (bits v 8 6) (bits v 0 6))

/-- The claim register's resource at an offset of the claims pages, where R63 places one. -/
def claimOffset (i o : Nat) : Option (Res × Nat) :=
  match i with
  | 1 =>
    if o < 0x180 then some (.tout, (o - 0x100) / 4)
    else if o < 0x1A0 then some (.enc, (o - 0x180) / 4)
    else if o < 0x1E0 then some (.gen, (o - 0x1A0) / 4)
    else some (.tc, (o - 0x1E0) / 4)
  | 2 => some (.range, (o - 0x100) / 16)
  | 3 => some (.hbm, (o - 0x100) / 4)
  | _ => none

/-- A write in instances 1 to 3 of class 0x04 from offset 0x100 on. -/
def Dev.claimsWrite (m : FrameStore) (d : Dev) (r i o v : Nat) : Dev :=
  match claimOffset i o with
  | some (.range, n) =>
    if o % 16 = 8 then d.claimWord r .range n v
    else if o % 16 < 8 then d.busClaim r .range n (fun d => Dev.blockReg m d r 4 2 o v)
    else d
  | some (k, n) => d.claimWord r k n v
  | none => d

/-! ## One word (R6) -/

/-- A word written to a register of a bus page by requester r. -/
def Dev.wordWrite (m : FrameStore) (d : Dev) (r c i o v : Nat) : Dev :=
  let p := canon c i
  if o = 0x0C then d.busCtrl r c i (fun d => d.ctrlWrite m c i v)
  else if o < 0x0C ∨ o = 0x2C then d.busAO r c i id
  else if o = 0x20 then d.busAO r c i (fun d => d.guard (fun d => d.fltClear p.1 p.2 v))
  else if o = 0x24 then d.busAO r c i (fun d => d.guard (fun d => d.fltEnWrite p.1 p.2 v))
  else if o = 0x28 then d.busAO r c i (fun d => d.guard (fun d => d.fltInj m p.1 p.2 v))
  else if c = 4 ∧ i ≠ 0 ∧ 0x100 ≤ o then d.claimsWrite m r i o v
  else d.busW r c i (fun d => d.blockWord m r c i o v)

/-! ## An access (R28–R30, R446, R447) -/

/-- A write that reaches a page with a shape that R29 does not allow: it is for whom the register is for, and sets BAD_ACCESS
in the page. -/
def Dev.misshapen (d : Dev) (r c i o : Nat) : Dev :=
  if o = 0x0C then d.busCtrl r c i (fun d => d.badAccess (canon c i).1 (canon c i).2)
  else if c = 4 ∧ i ≠ 0 ∧ 0x100 ≤ o then
    match claimOffset i o with
    | some (k, n) => d.busClaim r k n (fun d => d.badAccess 4 i)
    | none => d
  else if aoHeld c o then
    d.busAO r c i (fun d => d.when (!d.silent c i && !d.wedged (islandOf c i)) (fun d => d.badAccess (canon c i).1 (canon c i).2))
  else d.busW r c i (fun d => d.badAccess (canon c i).1 (canon c i).2)

/-- The words of a write at their offsets, lower offset first. -/
def Dev.wordsWrite (m : FrameStore) (d : Dev) (r c i o : Nat) : List Nat → Dev
  | [] => d
  | v :: vs => (d.wordWrite m r c i o v).wordsWrite m r c i (o + 4) vs

/-- A memory write in BAR0: one DW, or two at an 8-byte-aligned offset, with every byte enable. -/
def Dev.busWrite (m : FrameStore) (d : Dev) (r addr : Nat) (dws : List Nat) (allBytes : Bool) : Dev :=
  match d.target r addr with
  | none => d
  | some (c, i, o, readOnly) =>
    if readOnly then (if d.implemented c i && d.reqLive r then d.deny else d)
    else if allBytes && addr % 4 == 0 && (dws.length == 1 || (dws.length == 2 && addr % 8 == 0)) then
      d.wordsWrite m r c i o dws
    else d.misshapen r c i o

/-- REGISTER_WRITE: a write of one or two words, or of a shape that is discarded. -/
def execRegisterWrite (req : Req) (addr : Nat) (dws : List Word) (allBytes : Bool) (s : State) :
    Host.Outcome State Fault Refusal :=
  s.updR (fun m d => d.busWrite m req.num addr (dws.map (fun w => w.toNat)) allBytes)

/-- LOW_WORD_WRITE: the low word of a 64-bit register is staged for its requester (R46). -/
def execLowWordWrite (req : Req) (addr : Nat) (val : Word) (s : State) : Host.Outcome State Fault Refusal :=
  s.updR (fun m d => d.busWrite m req.num addr [val.toNat] true)

/-- HIGH_WORD_WRITE: the high word applies both (R46). -/
def execHighWordWrite (req : Req) (addr : Nat) (val : Word) (s : State) : Host.Outcome State Fault Refusal :=
  s.updR (fun m d => d.busWrite m req.num addr [val.toNat] true)

/-- TIME_GROUP_WRITE: word 2 of a device-time group makes the time take effect (R10, R12). -/
def execTimeGroupWrite (req : Req) (addr : Nat) (val : Word) (s : State) : Host.Outcome State Fault Refusal :=
  s.updR (fun m d => d.busWrite m req.num addr [val.toNat] true)

/-- EVT_FORCE of a page (R41). -/
def execEvtForce (req : Req) (cls inst : Nat) (mask : Word) (s : State) : Host.Outcome State Fault Refusal :=
  s.upd (fun d => d.busW req.num cls inst (fun d => d.evtForce (canon cls inst).1 (canon cls inst).2 mask.toNat))

/-! ## Clearing counters (R171 and the pages' CLR_CNT bits) -/

/-- The registers and bits of CLR_CNT in a page. -/
def clrCntBits (c i : Nat) : List (Nat × Nat) :=
  match c with
  | 0x01 => [(0x48, 1)]
  | 0x08 => [(0x50, 4)]
  | 0x0A => [(0xB8, 0)]
  | 0x0B => [(0x98, 0)]
  | 0x0C => [(0x64, 2)]
  | 0x0D => [(0x58, 0), (0x120, 2)]
  | 0x0E => [(0x44, 0)]
  | 0x0F => if i = 63 then [] else [(0x48, 1)]
  | 0x10 => [(0x70, 4)]
  | 0x11 => [(0x88, 0)]
  | 0x12 => if i < 32 then [(0x48, 1)] else [(0x70, 2)]
  | 0x13 => [(0xA8, 3)]
  | 0x14 => [(0x70, 2)]
  | 0x15 => [(0x44, 0)]
  | 0x16 => [(0xB0, 2)]
  | 0x17 => [(0x58, 0)]
  | 0x18 => [(0x44, 0)]
  | 0x1A => [(0x4C, 0)]
  | 0x1C => [(0x68, 0)]
  | 0x1D => [(0x40, 9)]
  | 0x1E => [(0x44, 0)]
  | 0x1F => [(0x40, 0)]
  | _ => []

/-- CLR_CNT in a page: its bit is written with what software wrote beside it. -/
def Dev.clrCnt (m : FrameStore) (d : Dev) (r c i : Nat) : Dev :=
  let p := canon c i
  (clrCntBits p.1 p.2).foldl (fun d x => Dev.blockReg m d r p.1 p.2 x.1 (d.rwWord p.1 p.2 x.1 ||| 2 ^ x.2)) d

/-- CLR_CNT of a queue (R171), or of a page. -/
def execClrCnt (req : Req) (cls inst : Nat) (queue : Option QueueId) (s : State) : Host.Outcome State Fault Refusal :=
  s.updR (fun m d =>
    match queue with
    | some q => d.busQ req.num q.num (fun d => d.qCmd q.num 16)
    | none => d.busW req.num cls inst (fun d => d.clrCnt m req.num cls inst))

/-! ## Accesses without an answer (R49) -/

/-- An access to a Block register that its island leaves unanswered: the island becomes wedged, and a read gives all-ones. An
access that no island has to answer is as any other. -/
def Dev.accTimeout (m : FrameStore) (d : Dev) (r addr : Nat) (isWrite : Bool) : Dev :=
  match d.target r addr with
  | none => if isWrite then d else d.reply r (fun d => (d, 0))
  | some (c, i, o, readOnly) =>
    let n := islandOf c i
    let seen := d.implemented c i && d.reqLive r && !d.silent c i && !d.wedged n && !aoHeld c o &&
      (if isWrite then d.writable r c i && !readOnly else d.readable r c i)
    if seen then
      let d := d.wr AO.ACCESS_STAT_ACC_TIMEOUT 0 1
      let d := d.when (!d.is AO.WEDGE_FIRST_VALID 0) (fun d =>
        (d.wr AO.WEDGE_FIRST_VALID 0 1).wr AO.WEDGE_FIRST_OFFSET 0 (bar0 c i o))
      let d := d.wedge m n
      if isWrite then d else d.reply r (fun d => (d, 0xFFFFFFFF))
    else if isWrite then
      if readOnly then (if d.implemented c i && d.reqLive r then d.deny else d)
      else if aoHeld c o then d.busAO r c i id
      else d.busW r c i id
    else d.reply r (fun d => d.addrRead r addr)

def execAccTimeout (req : Req) (addr : Nat) (isWrite : Bool) (s : State) : Host.Outcome State Fault Refusal :=
  s.updR (fun m d => d.accTimeout m req.num addr isWrite)

end Sys2Proof.Machine
end

