-- ==== Sys2Proof/Machine/SideBand.lean ====
section
/-!
DEFINITION. Register access beside PCIe: the SMBus target and JTAG REGACC (R45, R497, R517, R518).
The log's entries 67 and 68 of notes/assumptions name what is DEDUCED or a DESIGN CHOICE here, and marks each.
-/

namespace Sys2Proof.Machine

/-- The packet error code of a SET_ADDR: CRC-8 over the target's address, the command, the count and the block. PRESUMED: the
SMBus standard's polynomial x^8 + x^2 + x + 1 (assumption 68). -/
def Dev.smbPec (d : Dev) (bytes : List Nat) : Nat :=
  crc8Run 7 0 ([2 * d.smbTarget, 1, 3] ++ bytes.take 3)

/-- SET_ADDR: a block of 3 bytes, little-endian, and a fourth byte where the host sends a PEC. An offset that is not
4-aligned is not acknowledged, nor another length, nor a wrong PEC. -/
def execSmbSetAddr (bytes : List Nat) (s : State) : Host.Outcome State Fault Refusal :=
  s.upd (fun d =>
    if d.boot.aoUp && (bytes.length == 3 || (bytes.length == 4 && bytes.getD 3 0 == d.smbPec bytes)) &&
        le bytes 0 3 % 4 == 0 then { d with smbAddr := le bytes 0 3 } else d)

/-- What the SMBus target reads at its offset: only what AO answers (R47, R497). -/
def Dev.smbWord (d : Dev) : Dev × Nat :=
  match d.target 0xFF d.smbAddr with
  | some (c, i, o, _) => if aoHeld c o then d.wordRead 0xFF c i o else (d, 0)
  | none => (d, 0)

/-- READ: the register's 4 bytes, and the offset advances. -/
def execSmbRead (s : State) : Host.Outcome State Fault Refusal :=
  s.upd (fun d =>
    if d.boot.aoUp then
      let x := d.smbWord
      ({ x.1 with smbAddr := (x.1.smbAddr + 4) % 2 ^ 24 } : Dev).emit (.smbus (leBytes 4 x.2))
    else d)

/-- The access that a REGACC register holds at Update-DR. -/
def Dev.regacc (m : FrameStore) (d : Dev) (x : Nat) : Dev :=
  if !d.boot.aoUp then d
  else if x.testBit 63 then d.busWrite m 0xFE (bits x 32 24) [bits x 0 32] true
  else
    let v := d.addrRead 0xFE (bits x 32 24)
    { v.1 with jtag := { v.1.jtag with result := v.2 } }

/-- REGACC: the scan shifts out the result of the last read, and at its Update-DR the access is carried out. -/
def execRegacc (shifted : Nat) (s : State) : Host.Outcome State Fault Refusal :=
  s.updR (fun m d => ((d.setIr 0x80).emit (.jtag 64 (bits d.jtag.result 0 32))).regacc m shifted)

end Sys2Proof.Machine
end

