-- ==== Sys2Proof/Machine/Dispatch.lean ====
section
/-!
DEFINITION. One arm for each command: one direct call of its meaning.
-/

namespace Sys2Proof.Machine

def exec (i : Instr) (s : State) : Host.Outcome State Fault Refusal :=
  match i with
  | .registerWrite req addr dws allBytes => Sys2Proof.Machine.execRegisterWrite req addr dws allBytes s
  | .evtForce req cls inst mask => Sys2Proof.Machine.execEvtForce req cls inst mask s
  | .en req cls inst on => Sys2Proof.Machine.execEn req cls inst on s
  | .srst req cls inst => Sys2Proof.Machine.execSrst req cls inst s
  | .srstComplete cls inst => Sys2Proof.Machine.execSrstComplete cls inst s
  | .freeze req cls inst on => Sys2Proof.Machine.execFreeze req cls inst on s
  | .lowWordRead req span => Sys2Proof.Machine.execLowWordRead req span s
  | .lowWordWrite req addr val => Sys2Proof.Machine.execLowWordWrite req addr val s
  | .highWordWrite req addr val => Sys2Proof.Machine.execHighWordWrite req addr val s
  | .timeGroupWrite req addr val => Sys2Proof.Machine.execTimeGroupWrite req addr val s
  | .accTimeout req addr isWrite => Sys2Proof.Machine.execAccTimeout req addr isWrite s
  | .hsWdog island => Sys2Proof.Machine.execHsWdog island s
  | .accessStatClear req mask => Sys2Proof.Machine.execAccessStatClear req mask s
  | .islGate req island on => Sys2Proof.Machine.execIslGate req island on s
  | .islPwr island => Sys2Proof.Machine.execIslPwr island s
  | .islReset req island => Sys2Proof.Machine.execIslReset req island s
  | .islResetDone island => Sys2Proof.Machine.execIslResetDone island s
  | .tableRead req cls inst => Sys2Proof.Machine.execTableRead req cls inst s
  | .tableWrite req cls inst => Sys2Proof.Machine.execTableWrite req cls inst s
  | .tblOpDone cls inst => Sys2Proof.Machine.execTblOpDone cls inst s
  | .windowWrite req offset bytes poisoned => Sys2Proof.Machine.execWindowWrite req offset bytes poisoned s
  | .windowRead req offset len => Sys2Proof.Machine.execWindowRead req offset len s
  | .partitionCommit req => Sys2Proof.Machine.execPartitionCommit req s
  | .partitionCommitDone => Sys2Proof.Machine.execPartitionCommitDone s
  | .acquire req res n cls inst => Sys2Proof.Machine.execAcquire req res n cls inst s
  | .claimRelease req res n cls inst => Sys2Proof.Machine.execClaimRelease req res n cls inst s
  | .clrCnt req cls inst queue => Sys2Proof.Machine.execClrCnt req cls inst queue s
  | .pwrGoodRise straps => Sys2Proof.Machine.execPwrGoodRise straps s
  | .refclkWaitExpiry straps => Sys2Proof.Machine.execRefclkWaitExpiry straps s
  | .resetN lowNs => Sys2Proof.Machine.execResetN lowNs s
  | .devReset req val => Sys2Proof.Machine.execDevReset req val s
  | .pwrGoodFall => Sys2Proof.Machine.execPwrGoodFall s
  | .rateWrite req port rate => Sys2Proof.Machine.execRateWrite req port rate s
  | .refoutOk port => Sys2Proof.Machine.execRefoutOk port s
  | .refoutFail port => Sys2Proof.Machine.execRefoutFail port s
  | .refoutRelock port => Sys2Proof.Machine.execRefoutRelock port s
  | .txFfeWrite req lane amp post pre => Sys2Proof.Machine.execTxFfeWrite req lane amp post pre s
  | .adaptWindow lane moves => Sys2Proof.Machine.execAdaptWindow lane moves s
  | .acquisitionEnd lane => Sys2Proof.Machine.execAcquisitionEnd lane s
  | .tdWindow lane transitions => Sys2Proof.Machine.execTdWindow lane transitions s
  | .fomUpdate lane top bottom left right => Sys2Proof.Machine.execFomUpdate lane top bottom left right s
  | .snapshotTick lane => Sys2Proof.Machine.execSnapshotTick lane s
  | .snapNow req lane => Sys2Proof.Machine.execSnapNow req lane s
  | .revertNow req lane => Sys2Proof.Machine.execRevertNow req lane s
  | .restart req lane => Sys2Proof.Machine.execRestart req lane s
  | .clearStuck req lane => Sys2Proof.Machine.execClearStuck req lane s
  | .adaptEn req lane on => Sys2Proof.Machine.execAdaptEn req lane on s
  | .scanStart req lane dwellLog2 vOff hOff => Sys2Proof.Machine.execScanStart req lane dwellLog2 vOff hOff s
  | .scanDone lane mismatches => Sys2Proof.Machine.execScanDone lane mismatches s
  | .comma lane slot block => Sys2Proof.Machine.execComma lane slot block s
  | .headerLock lane headers => Sys2Proof.Machine.execHeaderLock lane headers s
  | .superframeCheck port frames => Sys2Proof.Machine.execSuperframeCheck port frames s
  | .laneFailed lane => Sys2Proof.Machine.execLaneFailed lane s
  | .narrowTimeout port => Sys2Proof.Machine.execNarrowTimeout port s
  | .widen req port => Sys2Proof.Machine.execWiden req port s
  | .rateCheck port => Sys2Proof.Machine.execRateCheck port s
  | .nolock port => Sys2Proof.Machine.execNolock port s
  | .linePacket port slots => Sys2Proof.Machine.execLinePacket port slots s
  | .framePacket port slots => Sys2Proof.Machine.execFramePacket port slots s
  | .testPacket port slots => Sys2Proof.Machine.execTestPacket port slots s
  | .lineTimeout port => Sys2Proof.Machine.execLineTimeout port s
  | .trigSend port => Sys2Proof.Machine.execTrigSend port s
  | .creditPacket port slots => Sys2Proof.Machine.execCreditPacket port slots s
  | .creditSend port => Sys2Proof.Machine.execCreditSend port s
  | .retryTimeout port => Sys2Proof.Machine.execRetryTimeout port s
  | .timeReq port => Sys2Proof.Machine.execTimeReq port s
  | .timeNow req port => Sys2Proof.Machine.execTimeNow req port s
  | .timeResp port slots => Sys2Proof.Machine.execTimeResp port slots s
  | .timeRespTimeout port => Sys2Proof.Machine.execTimeRespTimeout port s
  | .timeAck req port => Sys2Proof.Machine.execTimeAck req port s
  | .mgmtRead req port count => Sys2Proof.Machine.execMgmtRead req port count s
  | .mgmtWrite req port count => Sys2Proof.Machine.execMgmtWrite req port count s
  | .mgmtIdRead req port count => Sys2Proof.Machine.execMgmtIdRead req port count s
  | .mgmtResponse port slots => Sys2Proof.Machine.execMgmtResponse port slots s
  | .mgmtTimeout port => Sys2Proof.Machine.execMgmtTimeout port s
  | .idDone port => Sys2Proof.Machine.execIdDone port s
  | .lb2Enter req port duration => Sys2Proof.Machine.execLb2Enter req port duration s
  | .lb2Exit req port => Sys2Proof.Machine.execLb2Exit req port s
  | .lb2Duration port => Sys2Proof.Machine.execLb2Duration port s
  | .queueMark req queue => Sys2Proof.Machine.execQueueMark req queue s
  | .queueRewind req queue => Sys2Proof.Machine.execQueueRewind req queue s
  | .queueRelease req queue => Sys2Proof.Machine.execQueueRelease req queue s
  | .queueFlush req queue => Sys2Proof.Machine.execQueueFlush req queue s
  | .queueFlushDone queue => Sys2Proof.Machine.execQueueFlushDone queue s
  | .quadEdge ch ab early => Sys2Proof.Machine.execQuadEdge ch ab early s
  | .qerrWindow ch => Sys2Proof.Machine.execQerrWindow ch s
  | .wire pair live level => Sys2Proof.Machine.execWire pair live level s
  | .index z => Sys2Proof.Machine.execIndex z s
  | .zArm req ch => Sys2Proof.Machine.execZArm req ch s
  | .serFrame ch dataHigh => Sys2Proof.Machine.execSerFrame ch dataHigh s
  | .serReading ch data early delay => Sys2Proof.Machine.execSerReading ch data early delay s
  | .stopped ch => Sys2Proof.Machine.execStopped ch s
  | .limitWrite req ch high val => Sys2Proof.Machine.execLimitWrite req ch high val s
  | .rebase req ch => Sys2Proof.Machine.execRebase req ch s
  | .clrExcess req ch => Sys2Proof.Machine.execClrExcess req ch s
  | .clrSuspect req ch => Sys2Proof.Machine.execClrSuspect req ch s
  | .histSample ch => Sys2Proof.Machine.execHistSample ch s
  | .lockstep unit => Sys2Proof.Machine.execLockstep unit s
  | .qualifiedEdge input rising early => Sys2Proof.Machine.execQualifiedEdge input rising early s
  | .evItem0Read req input => Sys2Proof.Machine.execEvItem0Read req input s
  | .idPoll ch ack => Sys2Proof.Machine.execIdPoll ch ack s
  | .idRead req ch => Sys2Proof.Machine.execIdRead req ch s
  | .adapterIdDone ch record => Sys2Proof.Machine.execAdapterIdDone ch record s
  | .busErr bus => Sys2Proof.Machine.execBusErr bus s
  | .generatorLine gen => Sys2Proof.Machine.execGeneratorLine gen s
  | .gateOpen req gen => Sys2Proof.Machine.execGateOpen req gen s
  | .gateClose req gen => Sys2Proof.Machine.execGateClose req gen s
  | .entryLoad stream => Sys2Proof.Machine.execEntryLoad stream s
  | .streamFire stream => Sys2Proof.Machine.execStreamFire stream s
  | .arm req stream => Sys2Proof.Machine.execArm req stream s
  | .stop req stream => Sys2Proof.Machine.execStop req stream s
  | .reload req stream => Sys2Proof.Machine.execReload req stream s
  | .availPt req stream val => Sys2Proof.Machine.execAvailPt req stream val s
  | .pulseEnd out => Sys2Proof.Machine.execPulseEnd out s
  | .driveFault out => Sys2Proof.Machine.execDriveFault out s
  | .safeExit req out => Sys2Proof.Machine.execSafeExit req out s
  | .incrWrite req incr => Sys2Proof.Machine.execIncrWrite req incr s
  | .stepFwd req => Sys2Proof.Machine.execStepFwd req s
  | .stepBack req => Sys2Proof.Machine.execStepBack req s
  | .refclkLoss => Sys2Proof.Machine.execRefclkLoss s
  | .tbLockstep => Sys2Proof.Machine.execTbLockstep s
  | .ethRx port frame good => Sys2Proof.Machine.execEthRx port frame good s
  | .ethTx port desc frame => Sys2Proof.Machine.execEthTx port desc frame s
  | .pdelayReq port frame => Sys2Proof.Machine.execPdelayReq port frame s
  | .pdelayInterval port => Sys2Proof.Machine.execPdelayInterval port s
  | .pdelayResp port frame followUp ago => Sys2Proof.Machine.execPdelayResp port frame followUp ago s
  | .pdelayLost port => Sys2Proof.Machine.execPdelayLost port s
  | .pdPost req port val => Sys2Proof.Machine.execPdPost req port val s
  | .pdAck req port => Sys2Proof.Machine.execPdAck req port s
  | .masterLost port => Sys2Proof.Machine.execMasterLost port s
  | .ethLinkUp port => Sys2Proof.Machine.execEthLinkUp port s
  | .ethLinkDown port => Sys2Proof.Machine.execEthLinkDown port s
  | .modAbs port => Sys2Proof.Machine.execModAbs port s
  | .sfpIdRead req port => Sys2Proof.Machine.execSfpIdRead req port s
  | .sfpIdDone port record => Sys2Proof.Machine.execSfpIdDone port record s
  | .sfpDiag port diag los txFault => Sys2Proof.Machine.execSfpDiag port diag los txFault s
  | .timedActionNone entry => Sys2Proof.Machine.execTimedActionNone entry s
  | .expose entry => Sys2Proof.Machine.execExpose entry s
  | .pulse entry => Sys2Proof.Machine.execPulse entry s
  | .voxordAction entry => Sys2Proof.Machine.execVoxordAction entry s
  | .segmentAction entry => Sys2Proof.Machine.execSegmentAction entry s
  | .colourCycle entry => Sys2Proof.Machine.execColourCycle entry s
  | .plumbCycle entry => Sys2Proof.Machine.execPlumbCycle entry s
  | .voxSend => Sys2Proof.Machine.execVoxSend s
  | .voxRetry msg => Sys2Proof.Machine.execVoxRetry msg s
  | .voxAck frame => Sys2Proof.Machine.execVoxAck frame s
  | .wakeMsg frame => Sys2Proof.Machine.execWakeMsg frame s
  | .lineItem port => Sys2Proof.Machine.execLineItem port s
  | .bankSwitch req lcu => Sys2Proof.Machine.execBankSwitch req lcu s
  | .mtxCommit req lcu => Sys2Proof.Machine.execMtxCommit req lcu s
  | .intakePtrPost req queue val descs => Sys2Proof.Machine.execIntakePtrPost req queue val descs s
  | .segDescriptor queue record => Sys2Proof.Machine.execSegDescriptor queue record s
  | .refTile queue record => Sys2Proof.Machine.execRefTile queue record s
  | .profile queue record => Sys2Proof.Machine.execProfile queue record s
  | .colmap queue record => Sys2Proof.Machine.execColmap queue record s
  | .clist queue record => Sys2Proof.Machine.execClist queue record s
  | .segmentOpen port => Sys2Proof.Machine.execSegmentOpen port s
  | .segmentEndTime port => Sys2Proof.Machine.execSegmentEndTime port s
  | .keying port => Sys2Proof.Machine.execKeying port s
  | .compareTile engine => Sys2Proof.Machine.execCompareTile engine s
  | .workComplete port => Sys2Proof.Machine.execWorkComplete port s
  | .deadline port => Sys2Proof.Machine.execDeadline port s
  | .stalled port => Sys2Proof.Machine.execStalled port s
  | .takeover req engine => Sys2Proof.Machine.execTakeover req engine s
  | .giveBack req => Sys2Proof.Machine.execGiveBack req s
  | .clearAcc req engine => Sys2Proof.Machine.execClearAcc req engine s
  | .hbmReady stack => Sys2Proof.Machine.execHbmReady stack s
  | .scrubPass stack => Sys2Proof.Machine.execScrubPass stack s
  | .spareNow req stack pc => Sys2Proof.Machine.execSpareNow req stack pc s
  | .spareDone stack => Sys2Proof.Machine.execSpareDone stack s
  | .writeBack queue slot desc => Sys2Proof.Machine.execWriteBack queue slot desc s
  | .ptrPost req queue val => Sys2Proof.Machine.execPtrPost req queue val s
  | .msixMessage link fn vector => Sys2Proof.Machine.execMsixMessage link fn vector s
  | .intxAck req link vector => Sys2Proof.Machine.execIntxAck req link vector s
  | .perstFall link => Sys2Proof.Machine.execPerstFall link s
  | .perstRise link => Sys2Proof.Machine.execPerstRise link s
  | .hotReset link => Sys2Proof.Machine.execHotReset link s
  | .pcieLinkDown link => Sys2Proof.Machine.execPcieLinkDown link s
  | .pcieLinkUp link speed width flit => Sys2Proof.Machine.execPcieLinkUp link speed width flit s
  | .flr link fn => Sys2Proof.Machine.execFlr link fn s
  | .configWrite link fn field val => Sys2Proof.Machine.execConfigWrite link fn field val s
  | .completion link tag len status => Sys2Proof.Machine.execCompletion link tag len status s
  | .cplTimeout link tag => Sys2Proof.Machine.execCplTimeout link tag s
  | .quarantineEnd link tag => Sys2Proof.Machine.execQuarantineEnd link tag s
  | .wttCommit req link fn window => Sys2Proof.Machine.execWttCommit req link fn window s
  | .commitDone link fn => Sys2Proof.Machine.execCommitDone link fn s
  | .l1Entry link => Sys2Proof.Machine.execL1Entry link s
  | .l0pNarrow link => Sys2Proof.Machine.execL0pNarrow link s
  | .l0pWiden link => Sys2Proof.Machine.execL0pWiden link s
  | .pcieFollow link => Sys2Proof.Machine.execPcieFollow link s
  | .summaryClr req => Sys2Proof.Machine.execSummaryClr req s
  | .replaceClr req => Sys2Proof.Machine.execReplaceClr req s
  | .alertClr req => Sys2Proof.Machine.execAlertClr req s
  | .alertResponse => Sys2Proof.Machine.execAlertResponse s
  | .smbSetAddr bytes => Sys2Proof.Machine.execSmbSetAddr bytes s
  | .smbRead => Sys2Proof.Machine.execSmbRead s
  | .kaNow req => Sys2Proof.Machine.execKaNow req s
  | .kaRun engine => Sys2Proof.Machine.execKaRun engine s
  | .kaRunDone engine lcuDigest engineDigest => Sys2Proof.Machine.execKaRunDone engine lcuDigest engineDigest s
  | .kaTimeout engine => Sys2Proof.Machine.execKaTimeout engine s
  | .sramScrub word err => Sys2Proof.Machine.execSramScrub word err s
  | .fltInj req cls inst mask => Sys2Proof.Machine.execFltInj req cls inst mask s
  | .xtalLoss => Sys2Proof.Machine.execXtalLoss s
  | .vmon => Sys2Proof.Machine.execVmon s
  | .tempCrit temp => Sys2Proof.Machine.execTempCrit temp s
  | .tempHot temp => Sys2Proof.Machine.execTempHot temp s
  | .hbmHot stack temp => Sys2Proof.Machine.execHbmHot stack temp s
  | .ptClkLoss => Sys2Proof.Machine.execPtClkLoss s
  | .islClkLoss island => Sys2Proof.Machine.execIslClkLoss island s
  | .pcieRefLoss port => Sys2Proof.Machine.execPcieRefLoss port s
  | .bridgeCrc attempts => Sys2Proof.Machine.execBridgeCrc attempts s
  | .aoLockstep => Sys2Proof.Machine.execAoLockstep s
  | .fabLockstep => Sys2Proof.Machine.execFabLockstep s
  | .flbDepth req port depth => Sys2Proof.Machine.execFlbDepth req port depth s
  | .genEn req unit on => Sys2Proof.Machine.execGenEn req unit on s
  | .elDepth req port depth => Sys2Proof.Machine.execElDepth req port depth s
  | .plbDepth req link depth => Sys2Proof.Machine.execPlbDepth req link depth s
  | .qgen req ch dir edges => Sys2Proof.Machine.execQgen req ch dir edges s
  | .qgenDone => Sys2Proof.Machine.execQgenDone s
  | .hlbStart req stack mode region => Sys2Proof.Machine.execHlbStart req stack mode region s
  | .hbmTestDone stack errors firstAddr => Sys2Proof.Machine.execHbmTestDone stack errors firstAddr s
  | .injEn req unit on => Sys2Proof.Machine.execInjEn req unit on s
  | .injHoldTimeout unit => Sys2Proof.Machine.execInjHoldTimeout unit s
  | .mbistRun req => Sys2Proof.Machine.execMbistRun req s
  | .lbistRun req => Sys2Proof.Machine.execLbistRun req s
  | .bistDone repaired failed rows => Sys2Proof.Machine.execBistDone repaired failed rows s
  | .trstN => Sys2Proof.Machine.execTrstN s
  | .extest pins => Sys2Proof.Machine.execExtest pins s
  | .idcode => Sys2Proof.Machine.execIdcode s
  | .samplePreload pins => Sys2Proof.Machine.execSamplePreload pins s
  | .highz => Sys2Proof.Machine.execHighz s
  | .clamp => Sys2Proof.Machine.execClamp s
  | .extestPulse pins => Sys2Proof.Machine.execExtestPulse pins s
  | .extestTrain pins => Sys2Proof.Machine.execExtestTrain pins s
  | .bypass bit => Sys2Proof.Machine.execBypass bit s
  | .regacc shifted => Sys2Proof.Machine.execRegacc shifted s
  | .nvRead req => Sys2Proof.Machine.execNvRead req s
  | .nvWrite req => Sys2Proof.Machine.execNvWrite req s
  | .commitLock req => Sys2Proof.Machine.execCommitLock req s
  | .unlock req => Sys2Proof.Machine.execUnlock req s
  | .unlockHoldoffEnd => Sys2Proof.Machine.execUnlockHoldoffEnd s
  | .nvOpDone => Sys2Proof.Machine.execNvOpDone s
  | .modAbsHigh port => Sys2Proof.Machine.execModAbsHigh port s
  | .fomInfoRead req lane => Sys2Proof.Machine.execFomInfoRead req lane s
  | .sampledLevelChange input edge => Sys2Proof.Machine.execSampledLevelChange input edge s
  | .histWaitExpiry lcu => Sys2Proof.Machine.execHistWaitExpiry lcu s
  | .evaluationComplete engine => Sys2Proof.Machine.execEvaluationComplete engine s
  | .hbmScrubRead addr err => Sys2Proof.Machine.execHbmScrubRead addr err s
  | .lb2ResponseTimeout port => Sys2Proof.Machine.execLb2ResponseTimeout port s
  | .atsInvalidation link tag page => Sys2Proof.Machine.execAtsInvalidation link tag page s
  | .tempMaxRise temp => Sys2Proof.Machine.execTempMaxRise temp s

end Sys2Proof.Machine
end

