-- ==== Sys2Proof/Machine/Idle.lean ====
section
/-!
DEFINITION. What a step does while no command waits: one cycle of the timebase, the inputs that outputs are routed to,
generated lines whose time has come, the peer-delay requests whose 100 ms are over, and the pointer mirrors that have become
due (R241, R256, R417, R503, R508).
The log's entry 2 of notes/assumptions names what is DEDUCED or a DESIGN CHOICE here, and marks each.
-/

namespace Sys2Proof.Machine

/-- No command waits: time passes by one timebase cycle. -/
def execIdle (s : State) : Host.Outcome State Fault Refusal := 
  s.upd (fun d => (((d.tick.routed.linesDue).pdClose 0).pdClose 1).mirrors)

end Sys2Proof.Machine
end

