-- ==== Sys2Proof/Safety.lean ====
section
/-!
DEFINITION. What counts as a sound state and as an access that reaches its page, in the terms claims use.
-/

namespace Sys2Proof.Machine

/-- A sound state: the frame store in its canonical form, and nothing a command wrote still on its way to it. Every step keeps
this. -/
structure State.Inv (s : State) : Prop where
  mem : Memory.wf s.mem
  landed : s.dev.wbuf = []

/-- A write of requester r to a Block register of page (c, i) reaches the page and is taken: the page is implemented, the requester
is live, sees the page and may write it (a VF through a slot that takes writes), and the page's island answers (R30, R38, R48,
R49, R57, R446, R447). -/
def Dev.takes (d : Dev) (r c i : Nat) : Bool :=
  d.implemented c i && d.reqLive r && d.writable r c i && (!isVf r || d.vfReaches r c i true) &&
    (aoHeld c 0x40 || d.answers c i)

/-- A write of a requester reaches the page of a lane (R16). -/
abbrev Dev.takesLane (d : Dev) (r : Req) (l : Nat) : Prop := d.takes r.num (lanePage l).1 (lanePage l).2 = true

/-- The commands that may write to the frame store: resets and boots, lines and tiles on their way through the pipeline,
window and register writes, segments and engines that end. -/
def mayStore : Instr → Bool
  | .registerWrite .. | .lowWordWrite .. | .highWordWrite .. | .timeGroupWrite .. | .accTimeout .. | .clrCnt ..
  | .srst .. | .islGate .. | .islReset .. | .windowWrite .. | .windowRead .. | .hsWdog .. | .pwrGoodRise ..
  | .refclkWaitExpiry .. | .resetN .. | .devReset .. | .pwrGoodFall | .histSample .. | .histWaitExpiry .. | .lineItem ..
  | .segDescriptor .. | .refTile .. | .profile .. | .segmentOpen .. | .keying .. | .compareTile .. | .workComplete ..
  | .deadline .. | .stalled .. | .takeover .. | .giveBack .. | .hbmScrubRead .. | .writeBack .. | .perstFall ..
  | .hotReset .. | .pcieLinkDown .. | .completion .. | .pcieFollow .. | .kaRunDone .. | .kaTimeout .. | .fltInj ..
  | .ptClkLoss | .islClkLoss .. | .pcieRefLoss .. | .plbDepth .. | .hlbStart .. | .bistDone .. | .regacc .. => true
  | _ => false

/-- A run is safe when every step of it answers a next state: no command faults or is refused. -/
def SafeStep (s : State) : Prop := ∃ t, step s = .next t

end Sys2Proof.Machine
end

