-- ==== Sys2Proof/Certificates/Slice0/Obligations.lean ====
section
/-!
DEFINITION. The statements.
-/

open Sys2Proof Sys2Proof.Machine

/-! ## The block as a whole -/

/-- The command at the front of the queue is carried out on the rest of the queue.
On points the spec leaves open this states the model's choices: assumption 71. -/
def Obligations.StepCarriesOutFrontCommand : Prop :=
  ∀ (s : State) (c : Instr) (rest : List Instr), s.pending = c :: rest → step s = exec c { s with pending := rest }

/-- No command faults or is refused, and none touches the queue: a step always answers a next state whose queue is the tail
of the one before.
On points the spec leaves open this states the model's choices: assumption 72. -/
def Obligations.StepAlwaysAnswers : Prop :=
  (∀ (c : Instr) (s : State), ∃ t, exec c s = .next t ∧ t.pending = s.pending) ∧
    ∀ s : State, ∃ t, step s = .next t ∧ t.pending = s.pending.tail

/-- With no command waiting a step is one timebase cycle, the inputs that outputs are routed to, the generated lines whose time has
come, the peer-delay windows that are over and the pointer mirrors that are due; the frame store and the empty queue stay (the
model's choice, assumption 2). -/
def Obligations.IdleStepTicks : Prop :=
  ∀ s : State, s.pending = [] → ∃ t, step s = .next t ∧ t.mem = s.mem ∧ t.pending = [] ∧
    t = s.withDev (((s.dev.tick.routed.linesDue.pdClose 0).pdClose 1).mirrors)

/-- The soundness invariant holds at reset.
On points the spec leaves open this states the model's choices: assumptions 1 and 5. -/
def Obligations.ResetIsSound : Prop := State.reset.Inv

/-- The soundness invariant is kept by every step: whatever the command, the frame store stays in its canonical form and
everything the command wrote has landed. -/
def Obligations.StepKeepsSound : Prop := ∀ s t : State, s.Inv → step s = .next t → t.Inv

/-- A command that is not among those that may store leaves every byte of the frame store as it was. -/
def Obligations.OnlyStoringCommandsWrite : Prop :=
  ∀ (c : Instr) (s t : State), mayStore c = false → exec c s = .next t → t.mem = s.mem

/-! ## Lanes (R73–R87) -/

/-- TX_FFE: the three taps are taken, or PRE + POST > 31 discards the write with BAD_ACCESS (R73).
SNAP_NOW copies the coefficients. RESTART starts adaptation anew, from the rate defaults while ADAPT_EN is 1, and the
coefficients hold while it is 0 (the model's choice, assumption 22). ADAPT_EN takes the value written. CLEAR_STUCK ends a stop
and forgets the reverts counted (R76, R77, R81, R84, R85).
REVERT_NOW with a valid snapshot loads the coefficients from the snapshot store, counts and raises ADAPT_REVERT; without
one it is ignored (R83).
Completes: txFfeWrite, snapNow, restart, adaptEn, clearStuck, revertNow.
On points the spec leaves open this states the model's choices: assumptions 16, 22 and 23. -/
def Obligations.LaneControl : Prop :=
  (∀ (s : State) (r : Req) (l : Fin 64) (amp post pre : Nat), s.dev.takesLane r l →
     (pre % 16 + post % 32 ≤ 31 → exec (.txFfeWrite r l amp post pre) s = .next (s.withDev
       (((s.dev.wr Lane.TX_FFE_AMP l amp).wr Lane.TX_FFE_POST l post).wr Lane.TX_FFE_PRE l pre))) ∧
     (31 < pre % 16 + post % 32 → exec (.txFfeWrite r l amp post pre) s = .next (s.withDev
       (s.dev.evt 0x08 l evtBAD_ACCESS)))) ∧
  (∀ (s : State) (r : Req) (l : Fin 64), s.dev.takesLane r l →
     exec (.snapNow r l) s = .next (s.withDev
       ((((s.dev.setLane l { s.dev.lane l with snap := s.dev.coeffs l }).wr Lane.FOM_INFO_SNAP_FOM l
         (s.dev.rd Lane.FOM_INFO_FOM l)).wr Lane.FOM_INFO_FOM_HWM l (s.dev.rd Lane.FOM_INFO_FOM l)).wr
           Lane.STAT_SNAP_VALID l 1)) ∧
     (∃ t, exec (.restart r l) s = .next t ∧ t.mem = s.mem ∧
       (s.dev.is Lane.LANE_CFG_ADAPT_EN l = true → t.dev.rd Lane.RX_EQ_CTLE l = Config.ctleDefault (s.dev.laneRate l) % 2 ^ 4 ∧
         t.dev.rd Lane.RX_EQ_VGA l = Config.vgaDefault (s.dev.laneRate l) % 2 ^ 6 ∧ ∀ f ∈ tapFlds, t.dev.rd f l = 0) ∧
       (s.dev.is Lane.LANE_CFG_ADAPT_EN l = false → t.dev.coeffs l = s.dev.coeffs l) ∧ t.dev.rd Lane.STAT_SNAP_VALID l = 0 ∧ t.dev.rd Lane.STAT_ACQUIRING l = 1 ∧
       t.dev.rd Lane.STAT_ADAPT_STUCK l = 0 ∧ (t.dev.lane l).snap = [] ∧ ∀ m, m ≠ l.val → t.dev.lane m = s.dev.lane m) ∧
     (∀ on, exec (.adaptEn r l on) s = .next (s.withDev (s.dev.wrb Lane.LANE_CFG_ADAPT_EN l on))) ∧
     (s.dev.is Lane.STAT_ADAPT_STUCK l = true → exec (.clearStuck r l) s = .next (s.withDev
       ((s.dev.wr Lane.STAT_ADAPT_STUCK l 0).setLane l { s.dev.lane l with reverts := [] }))) ∧
     (s.dev.is Lane.STAT_ADAPT_STUCK l = false → exec (.clearStuck r l) s = .next (s.withDev s.dev))) ∧
  (∀ (s : State) (r : Req) (l : Fin 64), s.dev.takesLane r l →
     (s.dev.is Lane.STAT_SNAP_VALID l = false → exec (.revertNow r l) s = .next (s.withDev s.dev)) ∧
     (s.dev.is Lane.STAT_SNAP_VALID l = true → ∃ t, exec (.revertNow r l) s = .next t ∧ t.mem = s.mem ∧
       t.dev.rd Lane.RX_EQ_CTLE l = (s.dev.setCoeffs l (s.dev.lane l).snap).rd Lane.RX_EQ_CTLE l ∧
       t.dev.rd Lane.RX_EQ_VGA l = (s.dev.setCoeffs l (s.dev.lane l).snap).rd Lane.RX_EQ_VGA l ∧
       (∀ f ∈ tapFlds, t.dev.rd f l = (s.dev.setCoeffs l (s.dev.lane l).snap).rd f l) ∧
       t.dev.rd Lane.CNT_A_REVERT_CNT l = satAdd 16 (s.dev.rd Lane.CNT_A_REVERT_CNT l) 1 % 2 ^ 16 ∧
       (t.dev.rd (Hdr.EVT 0x08) l).testBit Lane.E_ADAPT_REVERT = true ∧ (t.dev.lane l).awaitFom = true ∧
       ∀ m, m ≠ l.val → t.dev.lane m = s.dev.lane m))

/-- What the receiver itself reports: the acquisition phase ends 1 ms into header lock, a transition-count window ends in an enabled
lane with TD_LOW set or clear and each fall counted, the snapshot tick of an enabled lane that adapts passes with a snapshot or
without; a disabled lane's receiver reports nothing (R76, R80, R81, R97).
One 4,096-bit window of adaptation in an enabled lane that adapts: CTLE, VGA and every tap move by at most one step, four
while acquiring, and stay in their ranges; a lane that does not adapt keeps them (R80, R84, R97); an armed COEFF_PAR injection reloads
them instead (R75, R76, R100).
Completes: acquisitionEnd, tdWindow, snapshotTick, adaptWindow.
On points the spec leaves open this states the model's choices: assumptions 22 and 23. -/
def Obligations.LaneMonitoring : Prop :=
  (∀ (s : State) (l : Fin 64),
     (s.dev.is Lane.STAT_HDR_LOCK l = true →
       exec (.acquisitionEnd l) s = .next (s.withDev (s.dev.wr Lane.STAT_ACQUIRING l 0))) ∧
     (s.dev.is Lane.STAT_HDR_LOCK l = false → exec (.acquisitionEnd l) s = .next (s.withDev s.dev)) ∧
     (s.dev.enabled 0x08 l = true →
       (∀ n, s.dev.rd Lane.ADAPT_CFG_ADAPT_TD_MIN l ≤ n → exec (.tdWindow l n) s = .next (s.withDev
         ((s.dev.wr Lane.STAT_TD_LOW l 0).showFomHeld l))) ∧
       (∀ n, n < s.dev.rd Lane.ADAPT_CFG_ADAPT_TD_MIN l → s.dev.is Lane.STAT_TD_LOW l = false →
         exec (.tdWindow l n) s = .next (s.withDev ((((s.dev.wr Lane.STAT_TD_LOW l 1).showFomHeld l).incSat
           Lane.CNT_A_TD_FROZEN_CNT l).evt 0x08 l Lane.E_TD_LOW))) ∧
       (∀ n, n < s.dev.rd Lane.ADAPT_CFG_ADAPT_TD_MIN l → s.dev.is Lane.STAT_TD_LOW l = true →
         exec (.tdWindow l n) s = .next (s.withDev ((s.dev.wr Lane.STAT_TD_LOW l 1).showFomHeld l)))) ∧
     ((s.dev.enabled 0x08 l = false ∨ s.dev.is Lane.LANE_CFG_ADAPT_EN l = false) →
       exec (.snapshotTick l) s = .next (s.withDev s.dev)) ∧
     (s.dev.enabled 0x08 l = false → ∀ n, exec (.tdWindow l n) s = .next (s.withDev s.dev)) ∧
     (s.dev.enabled 0x08 l = true → s.dev.is Lane.LANE_CFG_ADAPT_EN l = true →
       ((s.dev.rd Lane.FOM_INFO_FOM l < s.dev.rd Lane.ADAPT_CFG_FOM_GOOD l ∨
           s.dev.is Lane.STAT_TD_LOW l = true ∨ (s.dev.lane l).revertSinceTick = true) →
         exec (.snapshotTick l) s = .next (s.withDev
           (s.dev.setLane l { s.dev.lane l with tick := (s.dev.lane l).tick + 1, revertSinceTick := false }))) ∧
       (s.dev.rd Lane.ADAPT_CFG_FOM_GOOD l ≤ s.dev.rd Lane.FOM_INFO_FOM l →
           s.dev.is Lane.STAT_TD_LOW l = false → (s.dev.lane l).revertSinceTick = false →
         ∃ t, exec (.snapshotTick l) s = .next t ∧ t.mem = s.mem ∧ (t.dev.lane l).snap = s.dev.coeffs l ∧
           (t.dev.lane l).tick = (s.dev.lane l).tick + 1 ∧ t.dev.coeffs l = s.dev.coeffs l ∧
           t.dev.rd Lane.FOM_INFO_SNAP_FOM l = s.dev.rd Lane.FOM_INFO_FOM l % 2 ^ 8 ∧
           t.dev.rd Lane.FOM_INFO_FOM_HWM l = s.dev.rd Lane.FOM_INFO_FOM l % 2 ^ 8 ∧ t.dev.rd Lane.STAT_SNAP_VALID l = 1))) ∧
  (∀ (s : State) (l : Fin 64) (mv : List Int),
    (s.dev.armed 0x08 l Lane.F_COEFF_PAR = true → exec (.adaptWindow l mv) s = .next (s.withDev
       (((s.dev.disarm 0x08 l Lane.F_COEFF_PAR).flt 0x08 l Lane.F_COEFF_PAR).coeffPar l))) ∧
    (s.dev.armed 0x08 l Lane.F_COEFF_PAR = false → (s.dev.is Lane.LANE_CFG_ADAPT_EN l = false ∨
       s.dev.is Lane.STAT_ADAPT_STUCK l = true ∨ s.dev.is Lane.STAT_TD_LOW l = true ∨ s.dev.enabled 0x08 l = false) →
       exec (.adaptWindow l mv) s = .next (s.withDev s.dev)) ∧
    (s.dev.armed 0x08 l Lane.F_COEFF_PAR = false →
     s.dev.is Lane.LANE_CFG_ADAPT_EN l = true → s.dev.is Lane.STAT_ADAPT_STUCK l = false →
     s.dev.is Lane.STAT_TD_LOW l = false → s.dev.enabled 0x08 l = true →
     ∃ t, exec (.adaptWindow l mv) s = .next t ∧ t.mem = s.mem ∧ t.dev.lanes = s.dev.lanes ∧
       let m : Int := if s.dev.is Lane.STAT_ACQUIRING l then 4 else 1
       t.dev.rd Lane.RX_EQ_CTLE l =
         (clampI 0 15 ((s.dev.rd Lane.RX_EQ_CTLE l : Int) + clampI (-m) m (mv.getD 0 0))).toNat ∧
       t.dev.rd Lane.RX_EQ_VGA l =
         (clampI 0 63 ((s.dev.rd Lane.RX_EQ_VGA l : Int) + clampI (-m) m (mv.getD 1 0))).toNat ∧
       ∀ j, j < 15 → ∀ f, tapFlds[j]? = some f → t.dev.rdI f l =
         clampI (-tapLimit j) (tapLimit j) (s.dev.rdI f l + clampI (-m) m (mv.getD (j + 2) 0))))

/-- A round of the eye monitor: the four points move one step, EH, EW and FOM follow, then the port is looked at again (R78,
R90); while FOM_HELD or with the lane disabled nothing of the lane moves (R80).
An eye scan: START in an enabled lane takes the offsets and sets BUSY, the end of the dwell sets DONE and the saturated count and
raises SCAN_DONE; a START while BUSY, and one with a dwell or an offset out of range, is discarded with BAD_ACCESS; in a disabled lane
the offsets are taken and nothing starts; without a scan there is no dwell to end (R86, R97, R99).
Completes: fomUpdate, scanStart, scanDone.
On points the spec leaves open this states the model's choices: assumption 23. -/
def Obligations.FomAndEyeScan : Prop :=
  (∀ (s : State) (l : Fin 64) (a b c e : Nat),
     exec (.fomUpdate l a b c e) s = .next (s.withDev ((s.dev.fomUpdate l a b c e).portEval (lanePort l))) ∧
     ((s.dev.is Lane.STAT_FOM_HELD l = true ∨ s.dev.enabled 0x08 l = false) → s.dev.fomUpdate l a b c e = s.dev) ∧
     (s.dev.is Lane.STAT_FOM_HELD l = false → s.dev.enabled 0x08 l = true →
       let u := s.dev.fomUpdate l a b c e
       let h := s.dev.lane l
       (u.lane l).top = eyeStep h.top a ∧ (u.lane l).bottom = eyeStep h.bottom b ∧
       (u.lane l).left = eyeStep h.left c ∧ (u.lane l).right = eyeStep h.right e ∧
       u.rd Lane.EYE_EH l = (clampI 0 128 (eyeStep h.top a + eyeStep h.bottom b)).toNat ∧
       u.rd Lane.EYE_EW l = (clampI 0 64 (eyeStep h.left c + eyeStep h.right e)).toNat ∧
       u.rd Lane.FOM_INFO_FOM l = min 255 ((u.rd Lane.EYE_EH l * u.rd Lane.EYE_EW l) >>> 5) ∧
       u.rd Lane.STAT_FOM l = u.rd Lane.FOM_INFO_FOM l)) ∧
  (∀ (s : State) (r : Req) (l : Fin 64), s.dev.takesLane r l →
     (∀ dw v h, 16 ≤ dw % 32 → dw % 32 ≤ 30 → -32 ≤ sInt 7 h → sInt 7 h ≤ 32 →
       (s.dev.is Lane.SCAN_CTRL_BUSY l = false → s.dev.enabled 0x08 l = true → exec (.scanStart r l dw v h) s = .next (s.withDev
         ((((((s.dev.wr Lane.SCAN_CTRL_DWELL_LOG2 l dw).wr Lane.SCAN_CTRL_V_OFF l v).wr Lane.SCAN_CTRL_H_OFF l h).wr
           Lane.SCAN_CTRL_BUSY l 1).wr Lane.SCAN_RES_DONE l 0).showFomHeld l))) ∧
       (s.dev.is Lane.SCAN_CTRL_BUSY l = false → s.dev.enabled 0x08 l = false → exec (.scanStart r l dw v h) s = .next (s.withDev
         (((s.dev.wr Lane.SCAN_CTRL_DWELL_LOG2 l dw).wr Lane.SCAN_CTRL_V_OFF l v).wr Lane.SCAN_CTRL_H_OFF l h))) ∧
       (s.dev.is Lane.SCAN_CTRL_BUSY l = true → exec (.scanStart r l dw v h) s = .next (s.withDev
         (s.dev.evt 0x08 l evtBAD_ACCESS)))) ∧
     (∀ dw v h, dw % 32 < 16 ∨ 30 < dw % 32 ∨ sInt 7 h < -32 ∨ 32 < sInt 7 h →
       exec (.scanStart r l dw v h) s = .next (s.withDev (s.dev.evt 0x08 l evtBAD_ACCESS))) ∧
     (∀ n, s.dev.is Lane.SCAN_CTRL_BUSY l = true → exec (.scanDone l n) s = .next (s.withDev
       (((((s.dev.wr Lane.SCAN_CTRL_BUSY l 0).wr Lane.SCAN_RES_DONE l 1).wr Lane.SCAN_RES_ERR_CNT l
         (min n (2 ^ 24 - 1))).showFomHeld l).evt 0x08 l Lane.E_SCAN_DONE))) ∧
     (∀ n, s.dev.is Lane.SCAN_CTRL_BUSY l = false → exec (.scanDone l n) s = .next (s.withDev s.dev)))

/-! ## Lane locks and the active set (R87–R96, R107–R115) -/

/-- A comma on a lane that takes no part (disabled, its port disabled, no header lock) changes nothing. Otherwise the block passes
the polarity of the lane, as its receiver takes it: an inverted comma counts towards R87; any other block ends that count, and one
that is no comma does nothing more; a comma puts its MASK into FAR_MASK, ends a comma lock whose logical lane it contradicts, feeds
the burst or single-comma lock, and the port is looked at again (R87, R88, R107–R110).
The fourth inverted comma in consecutive slots toggles RX_INV, shows it in POL_INV and raises POL_FLIP while AUTO_POL is 1; fewer
only count, and one in a slot that does not follow the last starts the count again (R87).
Completes: comma. -/
def Obligations.CommasSeen : Prop :=
  (∀ (s : State) (l : Fin 64) (slot hdr : Nat) (bytes : List Nat),
     let b := s.dev.rxBall l (hdr % 4, le bytes 0 8)
     let pay := blockBytes b.2
     let d0 := s.dev.setLane l { s.dev.lane l with invCommas := 0 }
     ((s.dev.enabled 0x08 l = false ∨ s.dev.enabled 0x0A (lanePort l) = false ∨ s.dev.is Lane.STAT_HDR_LOCK l = false) →
       exec (.comma l slot ⟨hdr, bytes⟩) s = .next (s.withDev s.dev)) ∧
     (s.dev.enabled 0x08 l = true → s.dev.enabled 0x0A (lanePort l) = true → s.dev.is Lane.STAT_HDR_LOCK l = true →
       (b.1 = 1 → isInvComma pay = true → exec (.comma l slot ⟨hdr, bytes⟩) s = .next (s.withDev (s.dev.commaInverse l slot))) ∧
       (b.1 ≠ 1 ∨ isInvComma pay = false → b.1 ≠ 2 ∨ isComma pay = false →
         exec (.comma l slot ⟨hdr, bytes⟩) s = .next (s.withDev d0)) ∧
       (b.1 = 2 → isComma pay = true →
         let d := d0.wr Port.LG_STAT_FAR_MASK (lanePort l) (bits (byteAt pay 7) 2 4)
         let e := if d.is Lane.STAT_COMMA_LOCK l && d.rd Lane.STAT_RX_LOGICAL l != byteAt pay 7 % 4 then d.commaLost l else d
         exec (.comma l slot ⟨hdr, bytes⟩) s = .next (s.withDev ((if (byteAt pay 7).testBit 6 then e.commaBurst l slot (byteAt pay 7)
           else e.commaSingle l slot (byteAt pay 7)).portEval (lanePort l)))))) ∧
  (∀ (d : Dev) (l slot : Nat),
     let h := d.lane l
     let n := if h.invCommas ≠ 0 ∧ slot = h.invSlot + 1 then h.invCommas + 1 else 1
     (d.is Lane.LANE_CFG_AUTO_POL l = false → d.commaInverse l slot = d) ∧
     (d.is Lane.LANE_CFG_AUTO_POL l = true →
       (n < 4 → d.commaInverse l slot = d.setLane l { h with invCommas := n, invSlot := slot }) ∧
       (4 ≤ n → d.commaInverse l slot =
         (((d.setLane l { h with invCommas := 0 }).wrb Lane.LANE_CFG_RX_INV l (!d.is Lane.LANE_CFG_RX_INV l)).wrb
           Lane.STAT_POL_INV l (!d.is Lane.LANE_CFG_RX_INV l)).evt 0x08 l Lane.E_POL_FLIP)))

/-- Received block headers: the sixty-fourth valid one in a row gives header lock and raises LOCK_GAINED, an invalid one starts
the count again and moves the alignment by one bit; a lane in lock loses it with sixteen invalid ones among the last sixty-four
(R111).
Super-frames pass one after another. At the end of each a comma-locked lane that saw no comma in it loses its lock the second time in a row, the
comma-locked lanes of EXPECT_MASK more than 64 slots behind another lose it with DESKEW_ERR, the port is looked at again, and the
next super-frame begins with commas; TEST traffic goes on where its packet in flight is gone (R108–R110, R112, R116, R149, R503).
Completes: headerLock, superframeCheck. -/
def Obligations.FrameHeaders : Prop :=
  ((∀ (s : State) (l : Fin 64) (hs : List Nat),
     (s.dev.enabled 0x08 l = true → s.dev.enabled 0x0A (lanePort l) = true → exec (.headerLock l hs) s = .next (s.withDev
       ((hs.foldl (fun d h => d.header l h) s.dev).portEval (lanePort l)))) ∧
     ((s.dev.enabled 0x08 l = false ∨ s.dev.enabled 0x0A (lanePort l) = false) →
       exec (.headerLock l hs) s = .next (s.withDev s.dev))) ∧
   (∀ (d : Dev) (l h : Nat), d.is Lane.STAT_HDR_LOCK l = false →
     ((h % 4 = 1 ∨ h % 4 = 2) → (d.lane l).hdrRun + 1 < 64 →
       d.header l h = d.setLane l { d.lane l with hdrRun := (d.lane l).hdrRun + 1 }) ∧
     ((h % 4 = 1 ∨ h % 4 = 2) → 64 ≤ (d.lane l).hdrRun + 1 →
       (d.header l h).is Lane.STAT_HDR_LOCK l = true ∧ ((d.header l h).rd (Hdr.EVT 0x08) l).testBit Lane.E_LOCK_GAINED = true ∧
         ((d.header l h).lane l).lostAt = none) ∧
     (h % 4 = 0 ∨ h % 4 = 3 →
       d.header l h = d.setLane l { d.lane l with hdrRun := 0, align := ((d.lane l).align + 1) % 66 })) ∧
   (∀ (d : Dev) (l h : Nat), d.is Lane.STAT_HDR_LOCK l = true →
     let bad := decide (h % 4 = 0 ∨ h % 4 = 3)
     let e := if bad then d.incSat Lane.CNT_B_HDR_ERR_CNT l else d
     (16 ≤ ((bad :: (d.lane l).hdrWin).take 64).count true → d.header l h = e.hdrLost l) ∧
     (((bad :: (d.lane l).hdrWin).take 64).count true < 16 →
       d.header l h = e.setLane l { d.lane l with hdrWin := (bad :: (d.lane l).hdrWin).take 64 } ∧
       (d.header l h).is Lane.STAT_HDR_LOCK l = true))) ∧
  ((∀ (s : State) (p : Fin 16) (n : Nat), exec (.superframeCheck p n) s = .next (s.withDev
     ((List.range n).foldl (fun (d : Dev) _ => d.superframePass p) s.dev))) ∧
   (∀ (a : Dev) (p : Nat), ∀ d, d = ((a.superframe p).portEval p).superframeSend p →
     ∀ e, e = (if d.testRuns p = true ∧ d.linkUp p = true ∧ (d.loop p).lastTest = [] then
         d.testSend p (d.rd LbF.LB_CFG_GEN_LEN 0 p) else d) →
       a.superframePass p = (if (e.port p).lb = .active ∧ (e.loop p).expect = [] then e.testSend p 8192 else e)) ∧
   (∀ (d : Dev) (p : Nat),
     (d.enabled 0x0A p = false → d.superframeSend p = d) ∧
     (d.enabled 0x0A p = true → d.linkUp p = true → d.superframeSend p = (d.sendCommas p 1).sendIdle p) ∧
     (d.enabled 0x0A p = true → d.linkUp p = false → d.superframeSend p = (d.sendCommas p 8).sendIdle p) ∧
     d.superframe p = (let e := (portLanes p).foldl (fun d l => d.commaMissed l) d
       ((e.alignLanes p).filter (e.tooLate (e.alignLanes p))).foldl
         (fun d l => (d.commaLost l).evt 0x0A p Port.E_DESKEW_ERR) e)) ∧
   ∀ (d : Dev) (l : Nat),
     (d.is Lane.STAT_COMMA_LOCK l = false → d.commaMissed l = d) ∧
     (d.is Lane.STAT_COMMA_LOCK l = true →
       ((d.lane l).sawComma = true → d.commaMissed l = d.setLane l { d.lane l with missed := 0, sawComma := false }) ∧
       ((d.lane l).sawComma = false → (d.lane l).missed = 0 → d.commaMissed l = d.setLane l { d.lane l with missed := 1 }) ∧
       ((d.lane l).sawComma = false → (d.lane l).missed ≠ 0 → d.commaMissed l = d.commaLost l)))

/-- The active set of R90: all four lanes where both masks have all four, else the two lowest common lanes, else none.
A lane for which a condition of R89 has lasted its time shows FAILED with LANE_FAILED and RX_FAIL and its port is looked at
again; without one, nothing happens; the camera that does not follow within the time takes the port down with PORT_LANES_LOST (R89,
R92, R94).
WIDEN judges the four lanes again and brings back the excluded logical lanes whose carrier has been good for 100 ms: their bits
of EXCLUDED and FAILED clear, and the port is looked at again; without such a lane only that (R95).
LOCK_TIMEOUT on an enabled port that is not up: NOLOCK shows and is raised, and the lanes without header lock restart their
adaptation (R115).
Completes: laneFailed, narrowTimeout, widen, nolock.
On points the spec leaves open this states the model's choices: assumption 24. -/
def Obligations.ActiveLanes : Prop :=
  (∀ near far : Nat, near < 16 → far < 16 →
     (activeSet near far = 0xF ↔ near = 0xF ∧ far = 0xF) ∧
     (∀ i, i < 4 → (activeSet near far).testBit i = true → near.testBit i = true ∧ far.testBit i = true) ∧
     (maskWidth (near &&& far) = 1 → activeSet near far = 0) ∧
     (2 ≤ maskWidth (near &&& far) → maskWidth (near &&& far) < 4 → maskWidth (activeSet near far) = 2 ∧
       ∀ i j, i < j → j < 4 → (activeSet near far).testBit j = true → (near &&& far).testBit i = true →
         (activeSet near far).testBit i = true)) ∧
  (∀ (s : State),
     (∀ l : Fin 64, (s.dev.enabled 0x0A (lanePort l) = false ∨ s.dev.failDue l = false) →
       exec (.laneFailed l) s = .next (s.withDev s.dev)) ∧
     (∀ l : Fin 64, s.dev.enabled 0x0A (lanePort l) = true → s.dev.failDue l = true →
       let p := lanePort l
       let d := ((s.dev.wr Lane.STAT_FAILED l 1).evt 0x08 l Lane.E_LANE_FAILED).flt 0x08 l Lane.F_RX_FAIL
       (d.is Port.LG_CFG_AUTO_NARROW p = false → exec (.laneFailed l) s = .next (s.withDev (d.portEval p))) ∧
       (d.is Port.LG_CFG_AUTO_NARROW p = true → ∀ o, o = (d.lane l).known.or ((List.range 4).find? (fun i =>
           (d.rd Port.LG_CFG_EXPECT_MASK p).testBit i && (d.carrier p i).isNone && !(d.rd Port.LG_STAT_EXCLUDED p).testBit i)) →
         (o = none → exec (.laneFailed l) s = .next (s.withDev (d.portEval p))) ∧
         ∀ i, o = some i → exec (.laneFailed l) s = .next
           (s.withDev ((d.wr Port.LG_STAT_EXCLUDED p (d.rd Port.LG_STAT_EXCLUDED p ||| 2 ^ i)).portEval p)))) ∧
     (∀ (l : Fin 64) (t : Nat),
       (s.dev.is Lane.STAT_HDR_LOCK l = false → (s.dev.lane l).lostAt = some t → t + s.dev.laneFailTime (lanePort l) ≤ s.dev.nowL →
         s.dev.failDue l = true) ∧
       ((s.dev.lane l).lowSince = some t → t + s.dev.laneFailTime (lanePort l) ≤ s.dev.nowL → s.dev.failDue l = true)) ∧
     (∀ p : Fin 16, s.dev.is Port.LG_STAT_NARROW_PENDING p = true → exec (.narrowTimeout p) s = .next (s.withDev
       ((((s.dev.setActive p 0).flt 0x0A p Port.F_PORT_LANES_LOST).portDown p).sendBurst p))) ∧
     (∀ p : Fin 16, s.dev.is Port.LG_STAT_NARROW_PENDING p = false →
       exec (.narrowTimeout p) s = .next (s.withDev s.dev))) ∧
  (∀ (s : State) (r : Req) (p : Fin 16), s.dev.takes r.num 0x0A p = true →
     let d := (portLanes p).foldl (fun d l => d.laneGood l) s.dev
     let good := fun i : Nat => (d.rd Port.LG_STAT_EXCLUDED p).testBit i && match d.carrier p i with
       | some l => match (d.lane l).goodSince with
         | some t => decide (t + 100000000 * nsL ≤ d.nowL)
         | none => false
       | none => false
     ((∀ i, i < 4 → good i = false) → exec (.widen r p) s = .next (s.withDev (d.portEval p))) ∧
     (∀ i, i < 4 → good i = true → (∀ j, j < 4 → j ≠ i → good j = false) → ∀ l, d.carrier p i = some l →
       exec (.widen r p) s = .next (s.withDev
         (((d.wr Port.LG_STAT_EXCLUDED p (d.rd Port.LG_STAT_EXCLUDED p - 2 ^ i)).wr Lane.STAT_FAILED l 0).portEval p)))) ∧
  (∀ (s : State) (p : Fin 16),
     (s.dev.enabled 0x0A p = true → s.dev.linkUp p = false → exec (.nolock p) s = .next (s.withDev
       ((portLanes p).foldl (fun d l => if d.is Lane.STAT_HDR_LOCK l then d else d.adaptStart l)
         ((s.dev.wr Port.STAT_NOLOCK p 1).evt 0x0A p Port.E_NOLOCK)))) ∧
     ((s.dev.enabled 0x0A p = false ∨ s.dev.linkUp p = true) → exec (.nolock p) s = .next (s.withDev s.dev)))

/-- RATE is taken while the port is disabled and loads the rate's TX_FFE defaults into its four lanes; while it is enabled a
changed RATE is discarded with BAD_ACCESS (R68, R74).
REFOUT: its limits met or regained show REFOUT_OK while it is enabled, and an enabled port starts with a burst and is looked at;
losing lock clears REFOUT_OK with REFOUT_FAIL, takes NEAR_MASK and the port down (R69, R72, R116).
The 1 ms rate check: CAPACITY by RATE and width, DEMAND from the trigger starts (or line starts) of the millisecond, and
RATE_WARN with its event when the demand exceeds the capacity (R96).
Completes: rateWrite, refoutOk, refoutRelock, refoutFail, rateCheck.
On points the spec leaves open this states the model's choices: assumptions 22 and 25. -/
def Obligations.RateAndRefout : Prop :=
  (∀ (s : State) (r : Req) (p : Fin 16) (v : Fin 4), s.dev.takes r.num 0x0A p = true →
     (s.dev.rd Port.LG_CFG_RATE p = v.val → exec (.rateWrite r p v) s = .next (s.withDev s.dev)) ∧
     (s.dev.rd Port.LG_CFG_RATE p ≠ v.val → s.dev.enabled 0x0A p = true →
       exec (.rateWrite r p v) s = .next (s.withDev (s.dev.evt 0x0A p evtBAD_ACCESS))) ∧
     (s.dev.rd Port.LG_CFG_RATE p ≠ v.val → s.dev.enabled 0x0A p = false →
       ∃ t, exec (.rateWrite r p v) s = .next t ∧ t.mem = s.mem ∧ t.dev.rd Port.LG_CFG_RATE p = v.val ∧
         ∀ l ∈ portLanes p, t.dev.rd Lane.TX_FFE_PRE l = (ffeDefault v).1 ∧
           t.dev.rd Lane.TX_FFE_POST l = (ffeDefault v).2.1 ∧ t.dev.rd Lane.TX_FFE_AMP l = (ffeDefault v).2.2)) ∧
  (∀ (s : State) (p : Fin 16),
     (s.dev.is Port.LG_CFG_REFOUT_EN p = true → s.dev.is Port.LG_STAT_REFOUT_OK p = false →
       ∀ d, d = s.dev.wr Port.LG_STAT_REFOUT_OK p 1 →
       (s.dev.enabled 0x0A p = false → exec (.refoutOk p) s = .next (s.withDev d) ∧
         exec (.refoutRelock p) s = .next (s.withDev d)) ∧
       (s.dev.enabled 0x0A p = true → exec (.refoutOk p) s = .next (s.withDev ((d.sendBurst p).portEval p)) ∧
         exec (.refoutRelock p) s = .next (s.withDev ((d.sendBurst p).portEval p)))) ∧
     ((s.dev.is Port.LG_CFG_REFOUT_EN p = false ∨ s.dev.is Port.LG_STAT_REFOUT_OK p = true) →
       exec (.refoutOk p) s = .next (s.withDev s.dev) ∧ exec (.refoutRelock p) s = .next (s.withDev s.dev)) ∧
     (∀ d, d = (s.dev.wr Port.LG_STAT_REFOUT_OK p 0).flt 0x0A p Port.F_REFOUT_FAIL →
       ∀ e, e = (if s.dev.is Port.LG_STAT_REFOUT_OK p then d.evt 0x0A p Port.E_REFOUT_FAULT else d) →
       exec (.refoutFail p) s = .next (s.withDev ((((((portLanes p).foldl (fun d l => if d.is Lane.STAT_HDR_LOCK l then d.hdrLost l
         else d) e).setActive p 0).portDown p).sscStop p).wr Port.LG_STAT_NEAR_MASK p 0)))) ∧
  (∀ (s : State) (p : Fin 16),
     let h := s.dev.port p
     let starts := if h.trigStarts = 0 then h.lineStarts else h.trigStarts
     let w := s.dev.rd Port.LG_STAT_WIDTH p
     let cap := if w = 4 then capacity4 (s.dev.rd Port.LG_CFG_RATE p)
       else if w = 2 then capacity4 (s.dev.rd Port.LG_CFG_RATE p) / 2 else 0
     let dem := s.dev.rd Port.LINE_BYTES p * starts / 1000
     let warn := w != 0 && s.dev.rd Port.LINE_BYTES p != 0 && decide (cap < dem)
     let d := (((s.dev.setPort p { h with trigStarts := 0, lineStarts := 0 }).wr Port.RATE_INFO_CAPACITY p cap).wr
       Port.RATE_INFO_DEMAND p (min dem 65535)).wrb Port.LG_STAT_RATE_WARN p warn
     exec (.rateCheck p) s = .next (s.withDev
       (if warn && !s.dev.is Port.LG_STAT_RATE_WARN p then d.evt 0x0A p Port.E_RATE_WARN else d)))

/-! ## Flegar packets (R118–R149, R153–R160) -/

/-- Blocks that arrive at a disabled port, or one that is not up, change nothing. At a port that is up they are taken slot by slot, one
block for each lane of ACTIVE_MASK, and the port is looked at again (R113). A block of a lane passes its polarity, header and
descrambler; a lane without header lock gives no valid block (R103, R104, R111). In the port stream a START block begins a packet, data
blocks go on with it, END_n completes it, and anything else inside it is a framing error that drops it, counted with CRC_ERR (R105,
R106, R118). A LINE or FRAME packet is charged at its START (R160); one that is complete gives its reservation back and, with no
injector in the way, goes to the rule of its type.
What the checks of a packet lead to, and which rule a good and known packet goes to (R118, R119, R120–R127); in the far-end loop
every packet but TEST is dropped (R149), and in LB3 none is passed on (R501, R504).
Completes: linePacket, framePacket, testPacket, creditPacket, timeResp, mgmtResponse. -/
def Obligations.PacketsIn : Prop :=
  ((∀ (s : State) (p : Fin 16) (slots : List LaneSlot),
     ∀ c ∈ [Instr.linePacket p slots, .framePacket p slots, .testPacket p slots, .creditPacket p slots, .timeResp p slots,
       .mgmtResponse p slots],
     ((s.dev.enabled 0x0A p = false ∨ s.dev.linkUp p = false) → exec c s = .next (s.withDev s.dev)) ∧
     (s.dev.enabled 0x0A p = true → s.dev.linkUp p = true → exec c s = .next (s.withDev
       (((slots.map (fun row => (s.dev.activeLanes p).zip row)).flatten.foldl (fun d x => d.portBlock p x) s.dev).portEval p)))) ∧
   (∀ (d : Dev) (p i h v l : Nat), l = d.inLane p i → ∀ raw, raw = d.rxBall l (h % 4, v % 2 ^ 64) →
     ∀ e, e = (if d.enabled 0x08 l then d.header l raw.1 else d) → ∀ r, r = e.laneTake l raw → r.1.loopDepth p ≠ 3 →
     r.1.lbOn p = false →
     (r.1.linkUp p = false → d.portBlock p (i, h, v) = r.1) ∧
     (r.1.linkUp p = true →
       (e.is Lane.STAT_HDR_LOCK l = true → d.portBlock p (i, h, v) = r.1.portStream p r.2) ∧
       (e.is Lane.STAT_HDR_LOCK l = false → d.portBlock p (i, h, v) = r.1.portStream p (0, r.2.2)))) ∧
   ∀ (d : Dev) (p : Nat) (b : Nat × Nat),
     let bs := blockBytes b.2
     let typ := byteAt bs 0
     let isStart := b.1 = 2 ∧ typ = 0x78
     ((d.port p).rx = none → ¬ isStart → d.portStream p b = d) ∧
     ((d.port p).rx = none → isStart → d.portStream p b = d.rxStart p (bs.drop 1)) ∧
     (∀ pk, (d.port p).rx = some pk →
       (b.1 = 1 → d.portStream p b = d.setPort p { d.port p with rx := some (pk ++ bs) }) ∧
       (b.1 = 2 → 0xE0 ≤ typ → typ ≤ 0xE7 → d.portStream p b = d.rxEnd p (pk ++ (bs.drop 1).take (typ - 0xE0))) ∧
       (isStart → d.portStream p b = ((d.rxCut p).rxCrcErr p).rxStart p (bs.drop 1)) ∧
       (b.1 ≠ 1 → ¬ (b.1 = 2 ∧ 0xE0 ≤ typ ∧ typ ≤ 0xE7) → ¬ isStart → d.portStream p b = (d.rxCut p).rxCrcErr p)) ∧
     (∀ pk, ∀ e, e = d.setPort p { d.port p with rx := some pk } →
       (byteAt pk 0 = 1 ∨ byteAt pk 0 = 2 → d.rxStart p pk = e.ingCharge p (le pk 4 2)) ∧
       (byteAt pk 0 ≠ 1 → byteAt pk 0 ≠ 2 → d.rxStart p pk = e)) ∧
     (∀ pk, ∀ e, e = (d.setPort p { d.port p with rx := none }).rxReturn p pk → e.is LbF.INJ_CFG_INJ_EN 0 p = false →
       (e.loop p).held = none → d.rxEnd p pk = e.rxPacket p pk)) ∧
  (∀ (d : Dev) (p : Nat) (bs : List Nat),
     (pktGood bs = false → d.testRuns p = false → d.rxPacket p bs =
       (d.incSat Port.CNT_A_CRC_ERR_CNT p).evt 0x0A p Port.E_CRC_ERR) ∧
     (pktGood bs = true → (d.port p).lb = .active → byteAt bs 0 ≠ 0x0F → d.rxPacket p bs = d) ∧
     (pktGood bs = true → d.loopDepth p = 3 → (d.port p).lb ≠ .active → pktKnown bs = true → d.rxPacket p bs = d) ∧
     (pktGood bs = true → d.loopDepth p ≠ 3 → (d.port p).lb ≠ .active →
       (pktKnown bs = false → d.rxPacket p bs = (d.incSat Port.CNT_D_UNKNOWN_CNT p).evt 0x0A p Port.E_UNKNOWN_PKT) ∧
       (pktKnown bs = true →
         (byteAt bs 0 = 0x01 → d.rxPacket p bs = d.rxLine p bs) ∧ (byteAt bs 0 = 0x02 → d.rxPacket p bs = d.rxFrame p bs) ∧
         (byteAt bs 0 = 0x04 → d.rxPacket p bs = d.rxTime p bs) ∧ (byteAt bs 0 = 0x05 → d.rxPacket p bs = d.rxMgmt p bs) ∧
         (byteAt bs 0 = 0x06 → d.rxPacket p bs = d.rxCredit p bs) ∧
         (byteAt bs 0 = 0x0F → d.rxPacket p bs = d.rxTest p bs))))

/-- A LINE or FRAME packet charged beyond the credit granted sets CREDIT_VIOL and makes no item (R130); a LINE packet within it
goes to port ingest, a started line and dropped lines being counted on the way.
The fragment that completes a line in assembly closes it: a readable item of the line's units at the unit it was opened at,
complete or, with bytes that never came, marked INCOMPLETE in its trailer and counted (R153–R156).
LINE_TIMEOUT closes the line in assembly with the timeout mark and ends swallowing (R156, R167).
Completes: lineTimeout.
On points the spec leaves open this states the model's choices: assumption 28. -/
def Obligations.LinesAssembled : Prop :=
  (∀ (d : Dev) (p : Nat) (bs : List Nat),
     (d.overCredit p = true → d.rxLine p bs = d.flt 0x0A p Port.F_CREDIT_VIOL ∧
       d.rxFrame p bs = d.flt 0x0A p Port.F_CREDIT_VIOL ∧ ∀ k, ((d.rxLine p bs).queue k).items = (d.queue k).items) ∧
     (d.overCredit p = false → d.rxFrame p bs = d.ingFrame p bs (d.is Port.STAT_TIME_SUSPECT p) ∧
       let h := d.port p
       let num := le bs 8 4
       let e := d.setPort p { h with lineStarts := h.lineStarts + bitOf (byteAt bs 22) 0, dropLine := some num }
       (byteAt bs 23 = 0 ∨ h.dropLine = some num → d.rxLine p bs = e.ingLine p bs (e.is Port.STAT_TIME_SUSPECT p)) ∧
       (byteAt bs 23 ≠ 0 → h.dropLine ≠ some num →
         ∀ f, f = (e.addSat Port.CNT_A_CAM_DROP_CNT p (byteAt bs 23)).evt 0x0A p Port.E_CAM_DROP →
         d.rxLine p bs = f.ingLine p bs (f.is Port.STAT_TIME_SUSPECT p)))) ∧
  (∀ (d : Dev) (p : Nat) (o : OpenLine) (timeout : Bool), p < 16 → (d.ing p).line = some o →
     let rest := o.bytes - o.pay.length
     let miss := o.miss + rest
     let t := d.ingClose p timeout
     (t.ing p).line = none ∧ (t.ing p).itemSeq = ((d.ing p).itemSeq + 1) % 2 ^ 16 ∧
       (t.queue p).wr = (o.start + lineUnits o.bytes) % 2 ^ 32 ∧
       (t.queue p).items = (d.queue p).items.filter (fun x => x.start != o.start) ++
         [⟨o.start, lineUnits o.bytes, o.hdr, o.pay ++ zeros rest,
           itemTrl (b2n (miss != 0) + 2 * b2n timeout) o.drop o.lost miss o.expDur (d.ing p).itemSeq, true⟩]) ∧
  (∀ (s : State) (p : Fin 16), ∃ t, exec (.lineTimeout p) s = .next t ∧ t.mem = s.mem ∧
     t = s.withDev (((s.dev.ingClose p true).setIng p { (s.dev.ingClose p true).ing p with swallow := none }).showIng p) ∧
     (t.dev.ing p).swallow = none ∧ t.dev.rd Ingest.STAT_SWALLOWING p = 0)

/-- A queued trigger: the line generator of a device-side loop takes an exposure; a trigger that is late, that meets TIME_VALID 0, the
far-end loop or a device-side loop is dropped with TRIG_LATE; one that the trigger buffer has lost is abandoned (R151); with a full
window it waits; otherwise it leaves as a TRIG packet with the next TRIG_ID (R123, R131, R143, R503).
CREDIT is sent on a port that is up and in neither the outermost nor the far-end loop, with the VID_LIMIT of R160, which holds
while port ingest is disabled, and the last SEQ accepted (R126, R128, R133); else nothing is.
RETRY_TIME passes for the oldest outstanding control packet of a port that is up: after seven retries all are abandoned with
RETRY_EXHAUSTED, before that all are sent again in order; packets that the retry buffer has lost are abandoned; without one
outstanding, with the port down or in the far-end loop nothing happens (R133, R134, R149, R151).
Completes: trigSend, creditSend, retryTimeout.
On points the spec leaves open this states the model's choices: assumptions 3 and 25. -/
def Obligations.PacketsOut : Prop :=
  (∀ (s : State) (p : Fin 16),
     ((s.dev.port p).trigs = [] → exec (.trigSend p) s = .next (s.withDev s.dev)) ∧
     ∀ x ts, (s.dev.port p).trigs = x :: ts → ∀ u, u = s.dev.useBuf 0x0A p Port.F_RB_SBE Port.F_RB_DBE → ∀ d, d = u.1 →
       let pop := d.setPort p { d.port p with trigs := ts }
       let bad := !d.is Port.STAT_TIME_VALID p || d.lbOn p || d.loopDepth p != 0 || d.trigLate p x.act
       (u.2 = true → exec (.trigSend p) s = .next (s.withDev (pop.incSat Port.CNT_E_TRIG_ABANDON_CNT p))) ∧
       (u.2 = false → d.lineGenOn p = true → x.action = 1 → exec (.trigSend p) s = .next (s.withDev (pop.genTrigger p x))) ∧
       (u.2 = false → (d.lineGenOn p = false ∨ x.action ≠ 1) →
         (bad = true → exec (.trigSend p) s = .next (s.withDev
           ((pop.incSat Port.CNT_B_TRIG_LATE_CNT p).evt 0x0A p Port.E_TRIG_LATE))) ∧
         (bad = false → d.windowOpen p = false → exec (.trigSend p) s = .next (s.withDev d)) ∧
         (bad = false → d.windowOpen p = true → exec (.trigSend p) s = .next (s.withDev
           ((pop.setPort p { pop.port p with trigCount := (d.port p).trigCount + 1 }).sendCtl p true x.act
             (fun sync seq => trigPkt sync seq ((d.port p).trigCount % 2 ^ 16) (tImg x.act) x.action x.out x.width x.expo)))))) ∧
  (∀ (s : State) (p : Fin 16),
     ((s.dev.linkUp p = false ∨ s.dev.loopDepth p = 3 ∨ s.dev.lbOn p = true) → exec (.creditSend p) s = .next (s.withDev s.dev)) ∧
     (s.dev.linkUp p = true → s.dev.loopDepth p ≠ 3 → s.dev.lbOn p = false →
       ∀ d, d = (if s.dev.enabled 0x0B p then s.dev.wr Ingest.VID_LIMIT p (s.dev.vidLimit p) else s.dev) →
       exec (.creditSend p) s = .next (s.withDev (d.sendPkt p
         (creditPkt (d.rd Ingest.VID_LIMIT p) ((d.port p).lastAck.getD 0) (if (d.port p).lastAck.isSome then 3 else 2)))))) ∧
  (∀ (s : State) (p : Fin 16),
     (((s.dev.port p).out = [] ∨ s.dev.linkUp p = false ∨ s.dev.lbOn p = true) →
       exec (.retryTimeout p) s = .next (s.withDev s.dev)) ∧
     ∀ c cs, (s.dev.port p).out = c :: cs → s.dev.linkUp p = true → s.dev.lbOn p = false →
       ∀ u, u = s.dev.useBuf 0x0A p Port.F_RB_SBE Port.F_RB_DBE →
       (u.2 = true → exec (.retryTimeout p) s = .next (s.withDev ((u.1.ctlAbandon p false).mgmtPump p))) ∧
       (u.2 = false → 7 ≤ c.retries → exec (.retryTimeout p) s = .next (s.withDev ((u.1.ctlAbandon p true).mgmtPump p))) ∧
       (u.2 = false → c.retries < 7 → exec (.retryTimeout p) s = .next (s.withDev
         (((c :: cs).foldl (fun d c => d.resend p c) (u.1.setPort p { s.dev.port p with out := [] })).showOut p))))

/-- A TIME exchange starts on a port that is up with TIME_EN, outside the loops: the next XID, T1 the present time, DELAY_ASYM and
PD_STEP_LIMIT taken for it, CORR 0 while a step of the path is pending and the correction kept for later; with a spread reference
the REQ carries its settings and phase; TIME_NOW does the same for software (R124, R137–R139, R142, R150).
No response within 100 µs loses the exchange: TIME_LOST_CNT counts, and the eighth loss in a row makes the port's time suspect
with TIME_STALE (R139, R140); without one under way, or in the far-end loop, nothing is lost (R149). TIME_ACK accepts the present path delay (R139).
A response with the XID and T1 of the exchange under way, within the limits of R139: its delay and offset are taken; as the first
since the port came up, or with its delay within PD_STEP_LIMIT of the last good one, the exchange is accepted; else PD_STEP is
pending, and while it is the exchange is not accepted; one with another XID is ignored, one outside the limits is lost (R139).
Completes: timeReq, timeNow, timeRespTimeout, timeAck.
On points the spec leaves open this states the model's choices: assumption 26. -/
def Obligations.TimeTransfer : Prop :=
  (∀ (s : State) (p : Fin 16),
     (∀ r : Req, s.dev.takes r.num 0x0A p = true → exec (.timeNow r p) s = exec (.timeReq p) s) ∧
     ((s.dev.linkUp p = false ∨ s.dev.is Port.PORT_CFG_TIME_EN p = false ∨ s.dev.loopDepth p ≠ 0 ∨ s.dev.lbOn p = true) →
       exec (.timeReq p) s = .next (s.withDev s.dev)) ∧
     (s.dev.linkUp p = true → s.dev.is Port.PORT_CFG_TIME_EN p = true → s.dev.loopDepth p = 0 → s.dev.lbOn p = false →
       (s.dev.is Port.LG_CFG_SSC_EN p = false → s.dev.sscBegin p = s.dev) ∧
       (s.dev.is Port.STAT_PD_STEP_PENDING p = true → s.dev.nextCorr p = 0) ∧
       ∀ d, d = s.dev.sscBegin p →
       let h := d.port p
       let corr := uInt 64 (d.nextCorr p)
       let ssc := d.is Port.LG_CFG_SSC_EN p
       exec (.timeReq p) s = .next (s.withDev ((d.setPort p { h with
         xid := (h.xid + 1) % 2 ^ 16, exch := some ⟨h.xid, d.now, corr⟩
         asym := d.rd Port.DELAY_ASYM p, pdLimit := d.rd Port.PD_STEP_LIMIT p
         corr := if d.is Port.STAT_PD_STEP_PENDING p && !h.corrSet then h.corr else 0
         corrSet := false, stepDue := false }).sendPkt p
           (timePkt h.xid (b2n h.corrSet + 2 * b2n ssc + 4 * b2n h.stepDue) (if ssc then d.sscPhase p else 0) d.now corr
             (d.rd Tu.INCR 0) (if ssc then d.rd Port.LG_CFG_SSC_DEPTH p + 8 * d.rd Port.LG_CFG_SSC_FREQ p else 0)))))) ∧
  (∀ (s : State) (p : Fin 16),
     ((s.dev.port p).exch.isSome = true → s.dev.lbOn p = false → exec (.timeRespTimeout p) s = .next (s.withDev
       (let h := s.dev.port p
        let d := (s.dev.setPort p { h with exch := none, invalidRun := h.invalidRun + 1 }).incSat Port.CNT_D_TIME_LOST_CNT p
        if h.invalidRun + 1 = 8 then
          ((d.setPort p { d.port p with
              staleOnly := !s.dev.is Port.STAT_TIME_SUSPECT p || (d.port p).staleOnly }).wr Port.STAT_TIME_SUSPECT p 1).evt
            0x0A p Port.E_TIME_STALE
        else d))) ∧
     (((s.dev.port p).exch = none ∨ s.dev.lbOn p = true) → exec (.timeRespTimeout p) s = .next (s.withDev s.dev)) ∧
     (∀ r : Req, s.dev.takes r.num 0x0A p = true → exec (.timeAck r p) s = .next (s.withDev
       ((((s.dev.wr Port.D_GOOD p (s.dev.rd Port.PATH_DELAY p)).wr Port.STAT_PD_STEP_PENDING p 0).wr
         Port.STAT_TIME_SUSPECT p 0).setPort p { s.dev.port p with staleOnly := false })))) ∧
  (∀ (d : Dev) (p : Nat) (bs : List Nat) (x : Exch), (d.port p).exch = some x →
     (le bs 6 2 ≠ x.xid → d.rxTime p bs = d) ∧
     let t1 : Int := tLin x.t1
     let t2 : Int := tLin (le bs 28 12)
     let t3 : Int := tLin (le bs 44 12)
     let t4 : Int := d.nowL
     let dl := (t4 - t1 - (t3 - t2)) / 2
     let th := ((t2 - t1) - (t4 - t3)) / 2 - d.asym p
     (le bs 6 2 = x.xid → (le bs 12 12 ≠ x.t1 ∨ le bs 60 8 ≠ x.corr ∨ t3 - t2 < 0 ∨ (50000 * nsL : Nat) < t3 - t2 ∨ dl < 0 ∨
       (100000 * nsL : Nat) < t4 - t1) → d.rxTime p bs = d.exchLost p) ∧
     (le bs 6 2 = x.xid → le bs 12 12 = x.t1 → le bs 60 8 = x.corr → 0 ≤ t3 - t2 → t3 - t2 ≤ (50000 * nsL : Nat) → 0 ≤ dl →
       t4 - t1 ≤ (100000 * nsL : Nat) →
       ∀ e, e = ((d.setPort p { d.port p with exch := none, invalidRun := 0, validSinceEn := true }).wrI Port.PATH_DELAY p dl).wrI
         Port.OFFSET p th →
       ((d.port p).dGoodValid = false → d.rxTime p bs = e.exchAccept p dl th) ∧
       ((d.port p).dGoodValid = true → (d.port p).pdLimit < (dl - e.rd Port.D_GOOD p).natAbs →
         ∀ f, f = (e.wr Port.STAT_PD_STEP_PENDING p 1).wr Port.STAT_TIME_SUSPECT p 1 →
         d.rxTime p bs = (f.setPort p { f.port p with staleOnly := false }).evt 0x0A p Port.E_PD_STEP) ∧
       ((d.port p).dGoodValid = true → (dl - e.rd Port.D_GOOD p).natAbs ≤ (d.port p).pdLimit →
         d.rxTime p bs = if e.is Port.STAT_PD_STEP_PENDING p then e else e.exchAccept p dl th)))

/-- A MGMT command with a COUNT of 4 to 256 in whole words while none is busy goes BUSY and is sent when the link allows;
otherwise it is discarded with BAD_ACCESS (R145, R150).
No MGMT response within 5 ms ends a software request with STATUS 8 and an identity read with nothing read (R145, R146); a LOOPBACK request has its own limit (R149).
The camera's identity record is complete: a good one shows ID_VALID, a bad one ID_BAD, ID_DONE is raised (R146).
Completes: mgmtRead, mgmtWrite, mgmtIdRead, mgmtTimeout, idDone.
On points the spec leaves open this states the model's choices: assumption 27. -/
def Obligations.Management : Prop :=
  (∀ (s : State) (r : Req) (p : Fin 16) (n : Nat), s.dev.takes r.num 0x0A p = true →
     ∀ x ∈ [(1, Instr.mgmtRead r p n), (2, .mgmtWrite r p n), (3, .mgmtIdRead r p n)],
     ((s.dev.is Port.MGMT_CMD_BUSY p = true ∨ n < 4 ∨ 256 < n ∨ n % 4 ≠ 0) →
       exec x.2 s = .next (s.withDev (s.dev.evt 0x0A p evtBAD_ACCESS))) ∧
     (s.dev.is Port.MGMT_CMD_BUSY p = false → 4 ≤ n → n ≤ 256 → n % 4 = 0 →
       let d := (((s.dev.wr Port.MGMT_CMD_COUNT p n).wr Port.MGMT_CMD_BUSY p 1).wr Port.MGMT_CMD_STATUS p 0).wr
         Port.STAT_MGMT_BUSY p 1
       exec x.2 s = .next (s.withDev ((d.setPort p { d.port p with
         swMgmt := some ⟨.software, x.1, 0, n, s.dev.rd Port.MGMT_ADDR_ADDR p⟩ }).mgmtPump p)))) ∧
  (∀ (s : State) (p : Fin 16),
     ((s.dev.port p).mgmt = none → exec (.mgmtTimeout p) s = .next (s.withDev s.dev)) ∧
     ∀ m, (s.dev.port p).mgmt = some m →
       (m.user = .software → exec (.mgmtTimeout p) s = .next (s.withDev
         (((((((s.dev.setPort p { s.dev.port p with mgmt := none }).wr Port.MGMT_CMD_STATUS p 8).wr Port.MGMT_CMD_BUSY p 0).wr
           Port.STAT_MGMT_BUSY p 0).evt 0x0A p Port.E_MGMT_DONE).mgmtPump p)))) ∧
       (m.user = .identity → exec (.mgmtTimeout p) s = .next (s.withDev
         (s.dev.setPort p { s.dev.port p with mgmt := none, idBuf := zeros 4096, idRead := some 16 }))) ∧
       (m.user = .loopEnter ∨ m.user = .loopExit → exec (.mgmtTimeout p) s = .next (s.withDev s.dev))) ∧
  (∀ (s : State) (p : Fin 16),
     ((s.dev.port p).idRead ≠ some 16 → exec (.idDone p) s = .next (s.withDev s.dev)) ∧
     ((s.dev.port p).idRead = some 16 → ∃ t, exec (.idDone p) s = .next t ∧ t.mem = s.mem ∧
       (t.dev.port p).idRead = none ∧
       t.dev.rd Port.ID_STAT_ID_VALID p = b2n (recordGood 4096 (s.dev.port p).idBuf) ∧
       t.dev.rd Port.ID_STAT_ID_BAD p = b2n (!recordGood 4096 (s.dev.port p).idBuf) ∧
       (t.dev.rd (Hdr.EVT 0x0A) p).testBit Port.E_ID_DONE = true))

/-- The far-end loop: entering it is refused while the camera is known not to have it or a device-side depth is set; otherwise MODE
and DURATION are taken and, on a port that is up and in no loop yet, the camera is asked as soon as MGMT requests run and none is
outstanding. A request not yet sent is dropped by MODE 0; leaving asks the camera again, by software or when DURATION elapses, within
the transmit window (R131); no answer ends it with LB_STATUS 2 (R145, R149).
Completes: lb2Enter, lb2Exit, lb2Duration, lb2ResponseTimeout.
On points the spec leaves open this states the model's choices: assumption 27. -/
def Obligations.FarEndLoop : Prop :=
  ∀ (s : State) (r : Req) (p : Fin 16), s.dev.takes r.num 0x0A p = true →
    let h := s.dev.port p
    (∀ n, ((s.dev.is Port.ID_STAT_ID_VALID p = true ∧ h.lb2Ok = false) ∨ s.dev.rd LbF.LB_CFG_DEPTH 0 p ≠ 0) →
      exec (.lb2Enter r p n) s = .next (s.withDev (s.dev.evt 0x0A p evtBAD_ACCESS))) ∧
    (∀ n, (s.dev.is Port.ID_STAT_ID_VALID p = false ∨ h.lb2Ok = true) → s.dev.rd LbF.LB_CFG_DEPTH 0 p = 0 →
      ∀ d, d = (s.dev.wr Port.LB_CTRL_MODE p 1).wr Port.LB_CTRL_DURATION p n →
      ((h.lb ≠ .off ∨ s.dev.linkUp p = false) → exec (.lb2Enter r p n) s = .next (s.withDev d)) ∧
      (h.lb = .off → s.dev.linkUp p = true → exec (.lb2Enter r p n) s = .next (s.withDev
        (((d.wr Port.LB_CTRL_LB_STATUS p 0).setPort p { h with lb := .entering }).mgmtPump p)))) ∧
    (h.lb = .active →
      exec (.lb2Duration p) s = .next (s.withDev ((s.dev.setPort p { h with lb := .leaving }).mgmtPump p)) ∧
      exec (.lb2Exit r p) s = .next (s.withDev (((s.dev.wr Port.LB_CTRL_MODE p 0).setPort p
        { h with lb := .leaving }).mgmtPump p))) ∧
    (h.lb ≠ .active → exec (.lb2Duration p) s = .next (s.withDev s.dev)) ∧
    ((h.lb = .off ∨ h.lb = .leaving) → exec (.lb2Exit r p) s = .next (s.withDev (s.dev.wr Port.LB_CTRL_MODE p 0))) ∧
    ((h.lb = .off ∨ h.lb = .active) → exec (.lb2ResponseTimeout p) s = .next (s.withDev s.dev)) ∧
    (h.lb = .entering →
      (h.loopAsked = true → exec (.lb2ResponseTimeout p) s = .next (s.withDev
          (((s.dev.setPort p { h with mgmt := none }).lb2End p 2 false).mgmtPump p)) ∧
        exec (.lb2Exit r p) s = .next (s.withDev (s.dev.wr Port.LB_CTRL_MODE p 0))) ∧
      (h.loopAsked = false → exec (.lb2ResponseTimeout p) s = .next (s.withDev s.dev) ∧
        exec (.lb2Exit r p) s = .next (s.withDev (((s.dev.wr Port.LB_CTRL_MODE p 0).setPort p
          { h with lb := .off }).mgmtPump p)))) ∧
    (h.lb = .leaving → exec (.lb2ResponseTimeout p) s = .next (s.withDev
      (((s.dev.setPort p { h with mgmt := none }).lb2End p 2 true).mgmtPump p))) ∧
    ∀ d : Dev, ((d.port p).mgmt.isSome = true ∨ d.mgmtRuns p = false ∨ d.windowOpen p = false → d.mgmtPump p = d) ∧
      ((d.port p).mgmt = none → d.mgmtRuns p = true → d.windowOpen p = true →
        ((d.port p).lb = .leaving → d.mgmtPump p = d.mgmtSend p ⟨.loopExit, 4, 0, 4, 0⟩) ∧
        ((d.port p).lb = .entering → (d.port p).idRead = none → d.mgmtPump p = d.mgmtSend p ⟨.loopEnter, 4, 0, 4, 0⟩))

/-! ## Queues (R161–R172) -/

/-- Software MARK, REWIND and RELEASE of a queue whose consumer is not enabled and that is not flushing: the marked unit is
held; REWIND goes back to it and counts, or without a mark raises NO_MARK; RELEASE frees everything read (R165, R166); CLR_CNT
clears a queue's counters, and those of a page (R171, R437). While
the consuming block is enabled they are discarded with BAD_ACCESS; during a flush they are ignored (R167).
FLUSH empties a queue: the pointers meet at WR_PT, marks and reservations go, the flush counts as under way; its end
clears FLUSH_BUSY and raises FLUSH_DONE (R167).
Completes: queueMark, queueRewind, queueRelease, clrCnt, queueFlush, queueFlushDone.
On points the spec leaves open this states the model's choices: assumption 29. -/
def Obligations.Queues : Prop :=
  (∀ (s : State) (r : Req) (q : QueueId), let k := q.num
     s.dev.takes r.num (qPage k).1 (qPage k).2 = true →
     (∀ c i, qConsumer k = some (c, i) → s.dev.enabled c i = true →
       ∀ x ∈ [Instr.queueMark r q, .queueRewind r q, .queueRelease r q],
         exec x s = .next (s.withDev (s.dev.evt (qPage k).1 (qPage k).2 evtBAD_ACCESS))) ∧
     ((∀ c i, qConsumer k = some (c, i) → s.dev.enabled c i = false) → (s.dev.queue k).flushBusy = true →
       ∀ x ∈ [Instr.queueMark r q, .queueRewind r q, .queueRelease r q], exec x s = .next (s.withDev s.dev)) ∧
     ((∀ c i, qConsumer k = some (c, i) → s.dev.enabled c i = false) → (s.dev.queue k).flushBusy = false →
       (∃ t, exec (.queueMark r q) s = .next t ∧ t.mem = s.mem ∧ (t.dev.queue k).mark = (s.dev.queue k).rd ∧
         (t.dev.queue k).markValid = true ∧ (t.dev.queue k).rd = (s.dev.queue k).rd ∧
         (t.dev.queue k).items = (s.dev.queue k).items) ∧
       ((s.dev.queue k).markValid = true → ∃ t, exec (.queueRewind r q) s = .next t ∧ t.mem = s.mem ∧
         (t.dev.queue k).rd = (s.dev.queue k).mark ∧
         (t.dev.queue k).rewindCnt = satAdd 16 (s.dev.queue k).rewindCnt 1) ∧
       ((s.dev.queue k).markValid = false → exec (.queueRewind r q) s = .next (s.withDev (s.dev.qEvt k 3))) ∧
       exec (.queueRelease r q) s = .next (s.withDev (s.dev.qRelease k)) ∧
       (k < 64 → ∃ t, exec (.queueRelease r q) s = .next t ∧ t.mem = s.mem ∧
         (t.dev.queue k).rel = (s.dev.queue k).rd ∧ (t.dev.queue k).markValid = false)) ∧
     (∀ a b h, h = s.dev.setQueue k { s.dev.queue k with wmHiCount := 0, flushCut := 0, rewindCnt := 0, idleReads := 0 } →
       (k < 64 → exec (.clrCnt r a b (some q)) s = .next (s.landed h)) ∧
       (64 ≤ k → exec (.clrCnt r a b (some q)) s = .next (s.landed
         ((h.qwr k Dq.Q_CNT_C_DROP_CNT 0).qwr k Dq.Q_CNT_C_DESC_ERR_CNT 0)))) ∧
     (∀ c i, s.dev.takes r.num c i = true → exec (.clrCnt r c i none) s = .next (s.landed (s.dev.clrCnt s.mem r.num c i))) ∧
     (s.dev.takes r.num 0x1A 0 = true → ∃ t, exec (.clrCnt r 0x1A 0 none) s = .next t ∧
       t.dev.rd De.DE_CNT_DATA_ERR_CNT 0 = 0 ∧ t.dev.rd De.DE_CNT_REUSED_CNT 0 = 0)) ∧
  (∀ (s : State) (r : Req) (q : QueueId), let k := q.num
     (s.dev.takes r.num (qPage k).1 (qPage k).2 = true → ∃ t, exec (.queueFlush r q) s = .next t ∧ t.mem = s.mem ∧
       t = s.withDev (s.dev.qFlush k) ∧
       (t.dev.queue k).items = [] ∧ (t.dev.queue k).wr = (s.dev.queue k).wr ∧ (t.dev.queue k).rd = (t.dev.queue k).wr ∧ (t.dev.queue k).rel = (t.dev.queue k).wr ∧
       (t.dev.queue k).markValid = false) ∧
     ((s.dev.queue k).flushBusy = true → exec (.queueFlushDone q) s = .next (s.withDev
       (((s.dev.setQueue k { s.dev.queue k with flushBusy := false }).qEvt k 2).dqFill k))) ∧
     ((s.dev.queue k).flushBusy = false → exec (.queueFlushDone q) s = .next (s.withDev s.dev)))

/-! ## Pages, their gate and their header (R6, R29, R30, R37–R39, R41, R42, R45–R50) -/

/-- The gate of a write: a requester that is not live, and a VF none of whose slots reaches the page, are ignored, as is a page that is
not implemented; a page of another partition, and a page that a VF reaches through read-only slots alone, count it as denied; a wedged
island, a page in soft reset ignore it; a gated island counts it (R30, R38, R48, R49, R50, R447, R456). EVT_FORCE stands for all.
On points the spec leaves open this states the model's choices: assumptions 11 and 12. -/
def Obligations.GateTurnsAway : Prop :=
  ∀ (s : State) (r : Req) (c i : Nat) (v : Word),
    let seen := !isVf r.num || s.dev.vfReaches r.num c i false
    let may := s.dev.writable r.num c i && (!isVf r.num || s.dev.vfReaches r.num c i true)
    ((s.dev.implemented c i = false ∨ s.dev.reqLive r.num = false ∨ seen = false) →
      exec (.evtForce r c i v) s = .next (s.withDev s.dev)) ∧
    (s.dev.implemented c i = true → s.dev.reqLive r.num = true → seen = true →
      (may = false → exec (.evtForce r c i v) s = .next (s.withDev s.dev.deny)) ∧
      (may = true → aoHeld c 0x40 = false →
        (s.dev.wedged (islandOf c i) = true → exec (.evtForce r c i v) s = .next (s.withDev s.dev)) ∧
        (s.dev.wedged (islandOf c i) = false → s.dev.silent c i = true →
          exec (.evtForce r c i v) s = .next (s.withDev s.dev.gatedWrite)) ∧
        (s.dev.wedged (islandOf c i) = false → s.dev.silent c i = false → s.dev.resetting c i = true →
          exec (.evtForce r c i v) s = .next (s.withDev s.dev))))

/-- The registers of a page that takes a write, at an address that names the page for the requester (a VF's through a slot that takes
writes). EVT_FORCE sets the forced bits and clears none; ones written to EVT and FLT clear, and ERR_ADDR of a stack with its DBE;
FLT_EN keeps FATAL bits at 1; a Block register takes its word: no register there changes nothing, a locked register or a value it
does not take is BAD_ACCESS, a field that software writes takes its bits, a register with an effect of its own has it; two words go
to the lower offset first. A write with a missing byte enable or a shape that R29 does not allow is discarded with BAD_ACCESS, at
Block registers, at CTRL and at claim registers of the requester's partition. A read of one or two words is answered; a longer one,
and one of a function that does not answer, is an Unsupported Request; PAGE_ID reads as R33 says (R6, R28, R29, R33, R41, R42, R45,
R434).
Completes: registerWrite, evtForce, lowWordRead.
On points the spec leaves open this states the model's choices: assumptions 8 and 11. -/
def Obligations.HeaderAccess : Prop :=
  ∀ (s : State) (r : Req) (c i a : Nat) (v : Word),
    let p := canon c i
    (s.dev.takes r.num c i = true → exec (.evtForce r c i v) s = .next (s.withDev (s.dev.evtForce p.1 p.2 v.toNat)) ∧
      ∃ t, exec (.evtForce r c i v) s = .next t ∧ t.mem = s.mem ∧ ∀ b, b < 32 →
        (s.dev.rd (Hdr.EVT p.1) p.2).testBit b = true ∨ v.toNat.testBit b = true →
        (t.dev.rd (Hdr.EVT p.1) p.2).testBit b = true) ∧
    (s.dev.target r.num a = none → ∀ ws all, exec (.registerWrite r a ws all) s = .next (s.landed s.dev)) ∧
    (∀ o ro, s.dev.target r.num a = some (c, i, o, ro) →
      (ro = true → s.dev.implemented c i = true → s.dev.reqLive r.num = true → ∀ ws all,
        exec (.registerWrite r a ws all) s = .next (s.landed s.dev.deny)) ∧
      (ro = false → s.dev.takes r.num c i = true → a % 4 = 0 →
        (∀ w : Word, a % 8 = 0 → exec (.registerWrite r a [v, w] true) s = .next (s.landed
          (Dev.wordWrite s.mem (Dev.wordWrite s.mem s.dev r.num c i o v.toNat) r.num c i (o + 4) w.toNat))) ∧
        (o = 0x14 → aoHeld c 0x40 = false → pageQueues p.1 p.2 = [] → exec (.registerWrite r a [v] true) s = .next (s.landed
          (s.dev.wr (Hdr.EVT p.1) p.2 (s.dev.rd (Hdr.EVT p.1) p.2 &&& (2 ^ 32 - 1 - v.toNat))))) ∧
        (o = 0x20 → exec (.registerWrite r a [v] true) s = .next (s.landed (s.dev.guard (fun d =>
          let e := d.wr (Hdr.FLT p.1) p.2 (d.rd (Hdr.FLT p.1) p.2 &&& (2 ^ 32 - 1 - v.toNat))
          if p.1 = 0x18 ∧ v.toNat.testBit Hbm.F_DBE = true then e.wr Hbm.ERR_ADDR p.2 0 else e)))) ∧
        (o = 0x24 → exec (.registerWrite r a [v] true) s = .next (s.landed (s.dev.guard (fun d =>
          d.wr (Hdr.FLT_DIS p.1) p.2 (fltMaskable p.1 p.2 &&& (2 ^ 32 - 1 - v.toNat)))))) ∧
        (0x40 ≤ o → ¬ (c = 4 ∧ i ≠ 0 ∧ 0x100 ≤ o) →
          exec (.registerWrite r a [v] true) s = .next (s.landed (Dev.blockReg s.mem s.dev r.num p.1 p.2 o v.toNat)) ∧
          (pageHits p.1 p.2 o = [] → exec (.registerWrite r a [v] true) s = .next (s.landed s.dev)) ∧
          (∀ h hs, pageHits p.1 p.2 o = h :: hs →
            ((s.dev.lockedReg p.1 p.2 o || s.dev.lockedChange p.1 p.2 o v.toNat || s.dev.badValue p.1 p.2 o v.toNat) = true →
              exec (.registerWrite r a [v] true) s = .next (s.landed (s.dev.evt p.1 p.2 evtBAD_ACCESS))) ∧
            ((s.dev.lockedReg p.1 p.2 o || s.dev.lockedChange p.1 p.2 o v.toNat || s.dev.badValue p.1 p.2 o v.toNat) = false →
              p.1 ≠ 0x18 → p.1 ≠ 0x1F →
              (∀ e, Dev.special s.mem s.dev r.num p.1 p.2 o v.toNat = some e →
                exec (.registerWrite r a [v] true) s = .next (s.landed e)) ∧
              (Dev.special s.mem s.dev r.num p.1 p.2 o v.toNat = none → hs = [] → h.1.acc = .rw → h.1.words = 1 →
                exec (.registerWrite r a [v] true) s = .next (s.landed
                  (s.dev.wr h.1 p.2 (bits v.toNat h.1.lo h.1.w) h.2.1)))))) ∧
        (aoHeld c o = false → o ≠ 0x0C → ¬ (c = 4 ∧ i ≠ 0 ∧ 0x100 ≤ o) → ∀ ws all, (all = false ∨ ws.length = 0 ∨ 2 < ws.length ∨
            ws.length = 2 ∧ a % 8 ≠ 0) → exec (.registerWrite r a ws all) s = .next (s.landed (s.dev.evt p.1 p.2 evtBAD_ACCESS)))) ∧
      (ro = false → o = 0x0C → s.dev.takes r.num c i = true → s.dev.resetting c i = false →
        exec (.registerWrite r a [v] false) s = .next (s.landed (s.dev.evt p.1 p.2 evtBAD_ACCESS))) ∧
      (ro = false → c = 4 → i ≠ 0 → 0x100 ≤ o → ∀ k n, claimOffset i o = some (k, n) → n < k.count → isVf r.num = false →
        s.dev.reqLive r.num = true → s.dev.boot.aoUp = true → s.dev.claimPart k n = some (s.dev.reqPart r.num) →
        exec (.registerWrite r a [v] false) s = .next (s.landed (s.dev.evt 4 i evtBAD_ACCESS)))) ∧
    (s.dev.boot.aoUp = true →
      (∀ n, 2 < n → exec (.lowWordRead r ⟨a, n⟩) s = .next (s.withDev (s.dev.emit (.unsupported r.num)))) ∧
      (s.dev.reqLive r.num = false → ∀ n, exec (.lowWordRead r ⟨a, n⟩) s = .next (s.withDev (s.dev.emit (.unsupported r.num)))) ∧
      (s.dev.reqLive r.num = true →
        (∀ x, x = s.dev.addrRead r.num a → exec (.lowWordRead r ⟨a, 1⟩) s = .next (s.withDev (x.1.emit (.answer r.num x.2))) ∧
          ∀ y, y = x.1.addrRead r.num (a + 4) → exec (.lowWordRead r ⟨a, 2⟩) s = .next (s.withDev
            (y.1.emit (.answer r.num (x.2 + y.2 * 2 ^ 32))))) ∧
        (∀ ro, s.dev.target r.num a = some (c, i, 0, ro) → c < 64 → i < 64 → s.dev.implemented c i = true →
          s.dev.readable r.num c i = true → exec (.lowWordRead r ⟨a, 1⟩) s = .next (s.withDev
            (s.dev.emit (.answer r.num (2 ^ 31 + pageDie c i * 2 ^ 30 + islandOf c i * 2 ^ 16 + c * 2 ^ 8 + i))))) ∧
        (∀ o ro, s.dev.target r.num a = some (c, i, o, ro) → o % 4 = 0 → 0x30 ≤ o → c ≠ 4 → s.dev.implemented c i = true →
          s.dev.readable r.num c i = true → aoHeld c o = false →
          (s.dev.wedged (islandOf c i) = true → exec (.lowWordRead r ⟨a, 1⟩) s = .next (s.withDev
            (s.dev.emit (.answer r.num 0xFFFFFFFF)))) ∧
          (s.dev.wedged (islandOf c i) = false → s.dev.silent c i = true → exec (.lowWordRead r ⟨a, 1⟩) s = .next (s.withDev
            (s.dev.emit (.answer r.num 0)))) ∧
          (s.dev.wedged (islandOf c i) = false → s.dev.silent c i = false → ∀ x, x = s.dev.blockRead r.num c i o →
            exec (.lowWordRead r ⟨a, 1⟩) s = .next (s.withDev (x.1.emit (.answer r.num x.2))))))) ∧
    (s.dev.boot.aoUp = false → ∀ n, exec (.lowWordRead r ⟨a, n⟩) s = .next (s.withDev s.dev))

/-- EN of a page that takes the write: without effect in the always-on pages; refused with ENABLE_REFUSED where a claim or a
condition is missing; else EN is 1 and the block starts, under the watch of the guarantee for a stack and an engine (R491); EN = 0
stops it; a claimed region keeps EN; while the page is in soft reset a write of CTRL is discarded with BAD_ACCESS (R29, R37, R38,
R65, R409).
A soft reset leaves EN 0 and SRST_BUSY 1 until the device reports it complete; in the pages listed, which keep nothing and
have no value from the boot, every other register field above the header and every live STAT bit is at its reset value; in the
always-on pages SRST does nothing; while the page's island is in reset its completion is the island's (R37, R38, R52).
FREEZE: without effect where CAP.HAS_FREEZE is 0 and in the always-on pages; as it rises every held field keeps what it
reads; as it falls nothing of the page is held (R37, R39).
Completes: en, srst, srstComplete, freeze.
On points the spec leaves open this states the model's choices: assumptions 14 and 64. -/
def Obligations.PageControl : Prop :=
  (∀ (s : State) (r : Req) (c i : Nat),
     let p := canon c i
     (s.dev.resetting c i = true → s.dev.implemented c i = true → s.dev.reqLive r.num = true → s.dev.writable r.num c i = true →
       (isVf r.num = false ∨ s.dev.vfReaches r.num c i true = true) → s.dev.wedged (islandOf c i) = false →
       s.dev.silent c i = false → ∀ on, ∀ x ∈ [Instr.en r c i on, .freeze r c i on],
         exec x s = .next (s.withDev (s.dev.evt p.1 p.2 evtBAD_ACCESS)) ∧
         exec (.srst r c i) s = .next (s.landed (s.dev.evt p.1 p.2 evtBAD_ACCESS))) ∧
     (s.dev.takes r.num c i = true → s.dev.resetting c i = false →
       (alwaysOn c = true → ∀ on, exec (.en r c i on) s = .next (s.withDev s.dev)) ∧
       (alwaysOn c = false → s.dev.enabled p.1 p.2 = true → exec (.en r c i true) s = .next (s.withDev s.dev)) ∧
       (alwaysOn c = false → s.dev.enabled p.1 p.2 = false → c ≠ 0x18 → c ≠ 0x0D →
         (s.dev.mayEnable p.1 p.2 = false →
           exec (.en r c i true) s = .next (s.withDev (s.dev.evt p.1 p.2 evtENABLE_REFUSED))) ∧
         (s.dev.mayEnable p.1 p.2 = true →
           exec (.en r c i true) s = .next (s.withDev ((s.dev.wr (Hdr.EN p.1) p.2 1).onEnable p.1 p.2)) ∧
           ((p.1 = 0x0F ∨ p.1 = 0x12 ∧ p.2 < 32 ∨ p.1 = 0x17 ∨ p.1 = 0x19 ∨ p.1 = 0x1B) →
             exec (.en r c i true) s = .next (s.withDev (s.dev.wr (Hdr.EN p.1) p.2 1))))) ∧
       (c = 0x18 ∨ c = 0x0D → s.dev.enabled c i = false →
         (s.dev.mayEnable c i = false →
           exec (.en r c i true) s = .next (s.withDev (s.dev.guard (fun d => d.evt c i evtENABLE_REFUSED)))) ∧
         (s.dev.mayEnable c i = true →
           exec (.en r c i true) s = .next (s.withDev (s.dev.guard (fun d => (d.wr (Hdr.EN c) i 1).onEnable c i))))) ∧
       (c = 0x19 → s.dev.enabled 0x19 i = true → (s.dev.claim .hbm i).held = true →
         exec (.en r c i false) s = .next (s.withDev (s.dev.evt 0x19 i evtBAD_ACCESS))) ∧
       (s.dev.enabled p.1 p.2 = false → exec (.en r c i false) s = .next (s.withDev s.dev)) ∧
       (alwaysOn c = false → s.dev.enabled p.1 p.2 = true → (c = 0x19 → (s.dev.claim .hbm i).held = false) →
         exec (.en r c i false) s = .next (s.withDev ((s.dev.wr (Hdr.EN p.1) p.2 0).onDisable p.1 p.2
           (if p.1 = 0x10 then s.dev.posWord p.2 else 0))) ∧
         ((p.1 = 0x0F ∨ p.1 = 0x15 ∨ p.1 = 0x17 ∨ p.1 = 0x19 ∨ p.1 = 0x1A ∨ p.1 = 0x1B) →
           exec (.en r c i false) s = .next (s.withDev (s.dev.wr (Hdr.EN p.1) p.2 0)))))) ∧
  (∀ (s : State) (r : Req) (c i : Nat), s.dev.takes r.num c i = true → s.dev.resetting c i = false →
     let p := canon c i
     (alwaysOn c = true → exec (.srst r c i) s = .next (s.landed s.dev)) ∧
     (alwaysOn c = false → exec (.srst r c i) s = .next (s.landed (s.dev.softReset s.mem c i)) ∧
       ∃ t, exec (.srst r c i) s = .next t ∧ t.dev.rd (Hdr.EN p.1) p.2 = 0 ∧ t.dev.resetting c i = true ∧
       (c ∈ [0x13, 0x15, 0x1A, 0x1B, 0x1D, 0x1E] → ∀ (f : Fld) (j : Nat), resetKey c i (f.key i j) = true →
         f.key i j ≠ (Hdr.SRST_BUSY c).key i 0 → t.dev.rd f i j = f.rst)) ∧
     (s.dev.islBit Isl.RESET (islandOf c i) = false →
       exec (.srstComplete c i) s = .next (s.withDev (s.dev.wr (Hdr.SRST_BUSY p.1) p.2 0))) ∧
     (s.dev.islBit Isl.RESET (islandOf c i) = true → exec (.srstComplete c i) s = .next (s.withDev s.dev))) ∧
  (∀ (s : State) (r : Req) (c i : Nat), s.dev.takes r.num c i = true → s.dev.resetting c i = false →
     let p := canon c i
     ((hasFreeze p.1 p.2 = false ∨ alwaysOn p.1 = true) → ∀ on, exec (.freeze r c i on) s = .next (s.withDev s.dev)) ∧
     (hasFreeze p.1 p.2 = true → alwaysOn p.1 = false → s.dev.is (Hdr.FREEZE p.1) p.2 = false →
       ∃ t, exec (.freeze r c i true) s = .next t ∧ t.mem = s.mem ∧ t.dev.is (Hdr.FREEZE p.1) p.2 = true ∧
         ∀ x ∈ frozenFields p.1 p.2, ∃ v, mfind t.dev.frozen (x.1.key p.2 x.2) = some v ∧
           ∀ q, t.dev.fieldRead q p.1 p.2 x.1 x.2 = (t.dev, v)) ∧
     (∀ on, s.dev.is (Hdr.FREEZE p.1) p.2 = on → exec (.freeze r c i on) s = .next (s.withDev s.dev)) ∧
     (hasFreeze p.1 p.2 = true → alwaysOn p.1 = false → s.dev.is (Hdr.FREEZE p.1) p.2 = true →
       exec (.freeze r c i false) s = .next (s.withDev { s.dev.wr (Hdr.FREEZE p.1) p.2 0 with
         frozen := s.dev.frozen.filter (fun e => e.1 / (32 * 4096) != p.1 * 64 + p.2) })))

/-- Values of more than 32 bits, at an address that names the register for the requester: the lower words are staged for their
requester and change nothing else, the top word applies the whole value, with the register's present word for a lower one not staged
(the model's choice, assumption 13); a device time whose NS is out of range is discarded with BAD_TIME (R10, R12, R46).
Completes: lowWordWrite, highWordWrite, timeGroupWrite.
On points the spec leaves open this states the model's choices: assumption 13. -/
def Obligations.WideWrites : Prop :=
  ∀ (s : State) (r : Req) (v : Word) (a : Nat), a % 4 = 0 →
    (∀ k, k < 8 → s.dev.takes r.num 0x10 k = true →
      (s.dev.target r.num a = some (0x10, k, 0x68, false) → exec (.lowWordWrite r a v) s = .next (s.landed
        { s.dev with stage := mput s.dev.stage (reqKey r.num 0x10 k 0x68) v.toNat })) ∧
      (s.dev.target r.num a = some (0x10, k, 0x6C, false) →
        ∀ x, x = (mfind s.dev.stage (reqKey r.num 0x10 k 0x68)).getD (bits (s.dev.rd Pos.REBASE_OFFSET k) 0 32) →
        exec (.highWordWrite r a v) s = .next (s.landed
          (({ s.dev with stage := mdrop s.dev.stage (reqKey r.num 0x10 k 0x68) } : Dev).wr Pos.REBASE_OFFSET k
            ((x + v.toNat * 2 ^ 32) % 2 ^ 64))))) ∧
    (s.dev.takes r.num 0x14 0 = true → s.dev.target r.num a = some (0x14, 0, 0x68, false) →
      ∀ lo hi, lo = (mfind s.dev.stage (reqKey r.num 0x14 0 0x60)).getD (bits (s.dev.rd Tu.STEP_MAG 0) 0 32) →
      hi = (mfind s.dev.stage (reqKey r.num 0x14 0 0x64)).getD (bits (s.dev.rd Tu.STEP_MAG 0) 32 32) →
      ∃ t, exec (.timeGroupWrite r a v) s = .next t ∧ t.dev.clk = s.dev.clk ∧
        let x := (lo + hi * 2 ^ 32 + v.toNat * 2 ^ 64) % 2 ^ 128
        (badNS x = false → t.dev.rd Tu.STEP_MAG 0 = x) ∧
        (badNS x = true → t.dev.rd Tu.STEP_MAG 0 = s.dev.rd Tu.STEP_MAG 0 ∧
          (t.dev.rd (Hdr.EVT 0x14) 0).testBit evtBAD_TIME = true))

/-- An access that an island leaves unanswered, and a handshake watchdog, wedge the island: WEDGE_MAP has it, the first offset is
kept, a read gives all-ones, the watchdog's FLT bits set; an access that no island has to answer is as any other; a watchdog of an
island without power does nothing; ACCESS_STAT bits written 1 clear with what belongs to them (R24, R49, R50).
Completes: accTimeout, hsWdog, accessStatClear.
On points the spec leaves open this states the model's choices: assumptions 20 and 21. -/
def Obligations.WedgedIslands : Prop :=
  ∀ (s : State) (r : Req) (c i o a : Nat) (ro : Bool), s.dev.target r.num a = some (c, i, o, ro) →
    let n := islandOf c i
    (aoHeld c o = false → s.dev.implemented c i = true → s.dev.reqLive r.num = true → s.dev.silent c i = false →
      s.dev.wedged n = false →
      ∀ d, d = s.dev.wr AO.ACCESS_STAT_ACC_TIMEOUT 0 1 →
      ∀ e, e = (if s.dev.is AO.WEDGE_FIRST_VALID 0 then d else (d.wr AO.WEDGE_FIRST_VALID 0 1).wr AO.WEDGE_FIRST_OFFSET 0
        (bar0 c i o)) →
      (s.dev.readable r.num c i = true → exec (.accTimeout r a false) s = .next (s.landed
        ((Dev.wedge s.mem e n).reply r.num (fun d => (d, 0xFFFFFFFF))))) ∧
      (s.dev.writable r.num c i = true → ro = false → exec (.accTimeout r a true) s = .next (s.landed (Dev.wedge s.mem e n)))) ∧
    ((aoHeld c o = true ∨ s.dev.silent c i = true ∨ s.dev.wedged n = true) → exec (.accTimeout r a false) s = .next (s.landed
      (s.dev.reply r.num (fun d => d.addrRead r.num a)))) ∧
    (s.dev.powered n = true → 0 < n → islandKnown n = true →
      exec (.hsWdog n) s = .next (s.landed (Dev.wedge s.mem ((s.dev.wdogPages n).foldl (fun d p => d.flt p.1 p.2.1 p.2.2) s.dev) n)) ∧
      (n < 48 → ∃ t, exec (.hsWdog n) s = .next t ∧ t.dev.wedged n = true ∧
        ∀ p ∈ s.dev.wdogPages n, (t.dev.rd (Hdr.FLT p.1) p.2.1).testBit p.2.2 = true)) ∧
    (s.dev.powered n = false → exec (.hsWdog n) s = .next (s.landed s.dev)) ∧
    (0 < n → n < 48 → islandKnown n = true → s.dev.wedged n = false →
      s.dev.wedge s.mem n = (s.dev.setIslBit AO.WEDGE_MAP_ISL n true).wr AO.ACCESS_STAT_WEDGE 0 1) ∧
    (∀ m : Word, s.dev.takes r.num 0 0 = true → exec (.accessStatClear r m) s = .next (s.withDev (s.dev.accessClr m.toNat))) ∧
    s.dev.accessClr 5 = (((((s.dev.wr AO.ACCESS_STAT_DENIED 0 0).wr AO.ACCESS_CNT_DENIED_CNT 0 0).wr
      AO.ACCESS_STAT_ACC_TIMEOUT 0 0).wr AO.WEDGE_FIRST_VALID 0 0).wr AO.WEDGE_FIRST_OFFSET 0 0) ∧
    s.dev.accessClr 2 = (s.dev.wr AO.ACCESS_STAT_GATED_WR 0 0).wr AO.ACCESS_CNT_GATED_WR_CNT 0 0

/-- Islands: gating is refused while a block of the island is enabled or holds a claim, takes the power and the tables of the
island otherwise; ungating gives power back once the island has it; ISL_RESET resets the island's pages and its completion ends
their resets and the wedge; an island that cannot be gated, or already is as asked, and one that a failed self test holds stay as
they are (R51, R52, R516).
Completes: islGate, islPwr, islReset, islResetDone.
On points the spec leaves open this states the model's choices: assumptions 10 and 20. -/
def Obligations.Islands : Prop :=
  ∀ (s : State) (r : Req) (n : Nat), s.dev.takes r.num 5 0 = true →
   (∀ on, (islandGateable n = false ∨ s.dev.islBit Isl.GATE n = on) → exec (.islGate r n on) s = .next (s.landed s.dev)) ∧
   ((islandKnown n = false ∨ n = 0 ∨ s.dev.islBit Isl.RESET n = true) → exec (.islReset r n) s = .next (s.landed s.dev)) ∧
   (s.dev.islBit Isl.RESET n = false → exec (.islResetDone n) s = .next (s.withDev s.dev)) ∧
   (s.dev.islBit Isl.RESET n = true → ∀ d, d = (islandPages n).foldl (fun d p => d.srstDone p.1 p.2)
      ((s.dev.setIslBit Isl.RESET n false).unwedge n) → exec (.islResetDone n) s = .next (s.withDev
        (if d.islBit Isl.GATE n then d else d.setIslBit Isl.PWR n true))) ∧
   (islandGateable n = false → exec (.islPwr n) s = .next (s.withDev s.dev)) ∧
   (islandKnown n = true → n ≠ 0 → s.dev.islBit Isl.RESET n = false →
      (128 ≤ n → s.dev.enabled 0x08 (n - 128) = false →
        exec (.islReset r n) s = .next (s.landed (s.dev.setIslBit Isl.RESET n true))) ∧
      (128 ≤ n → s.dev.enabled 0x08 (n - 128) = true →
        exec (.islReset r n) s = .next (s.landed (((s.dev.setIslBit Isl.RESET n true).laneStop (n - 128)).laneEnable (n - 128)))) ∧
      (n < 128 → exec (.islReset r n) s = .next (s.landed
        ((islandPages n).foldl (fun d p => d.srst s.mem p.1 p.2) (s.dev.setIslBit Isl.RESET n true))))) ∧
   (islandGateable n = true →
    (s.dev.islBit Isl.GATE n = false → (gatePages n).any (fun p =>
        s.dev.enabled (canon p.1 p.2).1 (canon p.1 p.2).2 || s.dev.claimCount p.1 p.2 != 0) = true →
      exec (.islGate r n true) s = .next (s.landed (s.dev.evt 5 0 evtENABLE_REFUSED))) ∧
    (s.dev.islBit Isl.GATE n = false → (gatePages n).any (fun p =>
        s.dev.enabled (canon p.1 p.2).1 (canon p.1 p.2).2 || s.dev.claimCount p.1 p.2 != 0) = false →
      exec (.islGate r n true) s = .next (s.landed (s.dev.powerOff s.mem n)) ∧
      ∃ t, exec (.islGate r n true) s = .next t ∧ t.dev.gated n = true ∧ t.dev.islBit Isl.GATE n = true ∧
        t.dev.islBit Isl.PWR n = false) ∧
    (s.dev.islBit Isl.GATE n = true → n ∉ s.dev.bist.heldMem → n ∉ s.dev.bist.heldLogic →
      exec (.islGate r n false) s = .next (s.landed (s.dev.setIslBit Isl.GATE n false))) ∧
    (s.dev.islBit Isl.GATE n = true → (n ∈ s.dev.bist.heldMem ∨ n ∈ s.dev.bist.heldLogic) →
      exec (.islGate r n false) s = .next (s.landed s.dev)) ∧
    (s.dev.boot.aoUp = true → s.dev.islBit Isl.GATE n = false → s.dev.wedged n = false →
      exec (.islPwr n) s = .next (s.withDev (s.dev.setIslBit Isl.PWR n true))) ∧
    (s.dev.islBit Isl.GATE n = true → exec (.islPwr n) s = .next (s.withDev s.dev)) ∧
    (s.dev.islBit Isl.RESET n = true → s.dev.islBit Isl.GATE n = false →
      ∃ t, exec (.islResetDone n) s = .next t ∧ t.mem = s.mem ∧ t.dev.islBit Isl.PWR n = true ∧
        t.dev.islBit Isl.RESET n = false ∧ t.dev.wedged n = false))

/-! ## Tables, windows, partitions and claims (R53–R65, R447–R456) -/

/-- The indirect port of a page: a read puts the entry into TBL_DATA; a write stores TBL_DATA where the entry may hold it and sets
ERR where it may not; an unknown table or entry sets ERR and changes no table; while BUSY an operation is refused, and the device's
report ends BUSY; a page without the port does nothing (R53, R54). The Voxord tables stand for the rest in what a write stores.
Completes: tableRead, tableWrite, tblOpDone.
On points the spec leaves open this states the model's choices: assumption 17. -/
def Obligations.IndirectTables : Prop :=
  ∀ (s : State) (r : Req) (c i : Nat),
   (s.dev.is (Tbl.TBL_CMD_BUSY.at c) i = false → exec (.tblOpDone c i) s = .next (s.withDev s.dev)) ∧
   (s.dev.is (Tbl.TBL_CMD_BUSY.at c) i = true →
      exec (.tblOpDone c i) s = .next (s.withDev (s.dev.wr (Tbl.TBL_CMD_BUSY.at c) i 0))) ∧
   (s.dev.takes r.num c i = true → hasIndirect c i = false →
      exec (.tableRead r c i) s = .next (s.withDev s.dev) ∧ exec (.tableWrite r c i) s = .next (s.withDev s.dev)) ∧
   (s.dev.takes r.num c i = true → hasIndirect c i = true →
    let t := s.dev.rd (Tbl.TBL_ADDR_TABLE.at c) i
    let n := s.dev.rd (Tbl.TBL_ADDR_INDEX.at c) i
    let busy := (s.dev.wrb (Tbl.TBL_CMD_AUTO_INC.at c) i (s.dev.is (Tbl.TBL_CMD_AUTO_INC.at c) i)).wr (Tbl.TBL_CMD_BUSY.at c) i 1
    (s.dev.is (Tbl.TBL_CMD_BUSY.at c) i = true →
      exec (.tableRead r c i) s = .next (s.withDev (s.dev.evt c i evtBAD_ACCESS)) ∧
      exec (.tableWrite r c i) s = .next (s.withDev (s.dev.evt c i evtBAD_ACCESS))) ∧
    (s.dev.is (Tbl.TBL_CMD_BUSY.at c) i = false → (s.dev.tabInfo c i t = none ∨ ∃ b m, s.dev.tabInfo c i t = some (b, m) ∧ m ≤ n) →
      exec (.tableRead r c i) s = .next (s.withDev (busy.wr (Tbl.TBL_CMD_ERR.at c) i 1)) ∧
      exec (.tableWrite r c i) s = .next (s.withDev (busy.wr (Tbl.TBL_CMD_ERR.at c) i 1))) ∧
    (s.dev.is (Tbl.TBL_CMD_BUSY.at c) i = false → ∀ b m, s.dev.tabInfo c i t = some (b, m) → n < m →
      s.dev.tabErr c (tabInst c i) t n = 0 → exec (.tableRead r c i) s = .next (s.withDev
        ((busy.setTblImage c i (s.dev.tab c (tabInst c i) t n)).tblNext c i))) ∧
    (s.dev.is (Tbl.TBL_CMD_BUSY.at c) i = false → ∀ b m, s.dev.tabInfo c i t = some (b, m) → n < m →
      (∀ w, w = busy.tabWrite (s.dev.reqPart r.num) c i t n (s.dev.tblImage c i % 2 ^ (8 * b)) →
        exec (.tableWrite r c i) s = .next (s.withDev
          (if w.2 then w.1.tblNext c i else w.1.wr (Tbl.TBL_CMD_ERR.at c) i 1))) ∧
      ((c = 0x13 → s.dev.tabErr 0x13 0 t n ≠ 2) → ∀ w, w = busy.tabGet c i t n b → exec (.tableRead r c i) s = .next (s.withDev
        ((w.1.setTblImage c i w.2).tblNext c i)))) ∧
    (s.dev.is (Tbl.TBL_CMD_BUSY.at c) i = false → c = 0x17 → ∀ b m, s.dev.tabInfo c i t = some (b, m) → n < m →
      ∃ u, exec (.tableWrite r c i) s = .next u ∧ u.mem = s.mem ∧
        (voxOk t (s.dev.tblImage c i % 2 ^ (8 * b)) = true →
          u.dev.tab c i t n = s.dev.tblImage c i % 2 ^ (8 * b) ∧
          ∀ k, k ≠ tabKey c i t n → mget u.dev.tabs k 0 = mget s.dev.tabs k 0) ∧
        (voxOk t (s.dev.tblImage c i % 2 ^ (8 * b)) = false →
          u.dev.is (Tbl.TBL_CMD_ERR.at c) i = true ∧ u.dev.tabs = s.dev.tabs)))

/-- A BAR2 window onto a region of the frame store: a write that the region takes stores its bytes at the translated address and
changes no other byte, a read answers the bytes there; a request that no active entry admits is a miss; a poisoned write is
discarded and reported; an object that is gone or another partition's is denied; of another object a request gets what that object
answers; a function that does not answer ignores a write and answers a read as unsupported; JTAG and the SMBus have no BAR2
(R451–R456).
Completes: windowWrite, windowRead.
On points the spec leaves open this states the model's choices: assumptions 1 and 18. -/
def Obligations.WindowAccess : Prop :=
 (∀ (s : State) (l : Fin 4) (f : Fin 16) (o n : Nat) (bs : List Nat) (x : Bool), s.dev.boot.aoUp = true →
    s.dev.reqLive (16 * l + f) = false → exec (.windowWrite (.fn l f) o bs x) s = .next (s.landed s.dev) ∧
      exec (.windowRead (.fn l f) o n) s = .next (s.landed (s.dev.emit (.unsupported (16 * l + f))))) ∧
 (∀ (s : State) (o n : Nat) (bs : List Nat) (x : Bool), ∀ r ∈ [Req.jtag, .smbus],
    exec (.windowWrite r o bs x) s = .next (s.landed s.dev) ∧ exec (.windowRead r o n) s = .next (s.landed s.dev)) ∧
  ∀ (s : State) (l : Fin 4) (f : Fin 16) (o : Nat) (bs : List Nat), s.Inv → s.dev.boot.aoUp = true →
    s.dev.reqLive (16 * l + f) = true → s.dev.inBar2 (16 * l + f) o bs.length = true → (∀ b ∈ bs, b < 256) →
    let fn := 16 * l.val + f.val
    let v := s.dev.tab 0x1D fn 0 (o / 2 ^ 28)
    let a := wttTarget v + o % 2 ^ 28
    (exec (.windowWrite (.fn l f) o bs true) s = .next (s.landed
      (s.dev.setFn fn { s.dev.fn fn with aerPoison := (s.dev.fn fn).aerPoison + 1 }))) ∧
    (s.dev.tabErr 0x1D fn 0 (o / 2 ^ 28) = 0 → v.testBit wttValid = false →
      exec (.windowWrite (.fn l f) o bs false) s = .next (s.landed
        ((s.dev.incSat Wtt.WTT_CNT_MISS_CNT fn).evt 0x1D fn Wtt.E_WIN_MISS)) ∧
      exec (.windowRead (.fn l f) o bs.length) s = .next (s.landed
        (((s.dev.incSat Wtt.WTT_CNT_MISS_CNT fn).evt 0x1D fn Wtt.E_WIN_MISS).emit (.winData fn (zeros bs.length) false)))) ∧
    (s.dev.tabErr 0x1D fn 0 (o / 2 ^ 28) = 0 → v.testBit wttValid = true → o % 2 ^ 28 < wttLimit v * 4096 →
      (v.testBit 98 = true →
        (s.dev.winObj fn a bs.length = none → exec (.windowWrite (.fn l f) o bs false) s = .next (s.landed
          ((s.dev.incSat Wtt.WTT_CNT_DENY_CNT fn).deny))) ∧
        (∀ b, s.dev.winObj fn a bs.length = some b → exec (.windowWrite (.fn l f) o bs false) s = .next (s.landed
          (s.dev.objWrite (s.dev.linkPart (fn / 16)) b a bs)))) ∧
      (v.testBit 97 = true →
        (s.dev.winObj fn a bs.length = none → exec (.windowRead (.fn l f) o bs.length) s = .next (s.landed
          (((s.dev.incSat Wtt.WTT_CNT_DENY_CNT fn).deny).emit (.winData fn (zeros bs.length) false)))) ∧
        (∀ b, s.dev.winObj fn a bs.length = some b → ∀ x, x = Dev.objRead s.mem s.dev b a bs.length →
          exec (.windowRead (.fn l f) o bs.length) s = .next (s.landed (x.1.emit (.winData fn x.2.1 x.2.2)))))) ∧
    (s.dev.tabErr 0x1D fn 0 (o / 2 ^ 28) = 0 → v.testBit wttValid = true → o % 2 ^ 28 < wttLimit v * 4096 →
      ∀ n, s.dev.winObj fn a bs.length = some (.region n) → s.dev.objAnswers (.region n) = true → storeBase ≤ a →
      (v.testBit 98 = true → s.dev.rgnKind n = 0 → (∀ b, b < 32 → s.dev.armed 0x18 ((a - storeBase) / 25769803776) b = false) →
        ∃ t, exec (.windowWrite (.fn l f) o bs false) s = .next t ∧
          (∀ j, j < bs.length → t.mem.byte (a - storeBase + j) = bs.getD j 0) ∧
          ∀ x, (x < a - storeBase ∨ a - storeBase + bs.length ≤ x) → t.mem.byte x = s.mem.byte x) ∧
      (v.testBit 97 = true → s.dev.rgnKind n ≠ 3 → s.mem.poisoned (a - storeBase) bs.length = [] →
        ∃ t, exec (.windowRead (.fn l f) o bs.length) s = .next t ∧ t.mem = s.mem ∧
          t.dev.sent = s.dev.sent ++ [.winData fn (s.mem.read (a - storeBase) bs.length) false]))

/-- PT_CTRL.COMMIT: ignored while BUSY; a refusal changes only REFUSE; else every VALID bit and mask of the active table takes the
shadow's value, REFUSE is 0 and BUSY is 1 until the commit is done (R59, R60).
Completes: partitionCommit, partitionCommitDone.
On points the spec leaves open this states the model's choices: assumptions 10 and 19. -/
def Obligations.PartitionCommit : Prop :=
  ∀ (s : State) (r : Req), s.dev.takes r.num 4 0 = true →
    (s.dev.is Claims.PT_CTRL_BUSY 0 = true → exec (.partitionCommit r) s = .next (s.withDev s.dev)) ∧
    (s.dev.is Claims.PT_CTRL_BUSY 0 = false → s.dev.commitRefuse ≠ 0 →
      exec (.partitionCommit r) s = .next (s.withDev (s.dev.wr Claims.PT_CTRL_REFUSE 0 s.dev.commitRefuse))) ∧
    (s.dev.is Claims.PT_CTRL_BUSY 0 = false → s.dev.commitRefuse = 0 →
      ∃ t, exec (.partitionCommit r) s = .next t ∧ t.mem = s.mem ∧ t.dev.rd Claims.PT_CTRL_REFUSE 0 = 0 ∧
        t.dev.is Claims.PT_CTRL_BUSY 0 = true ∧
        ∀ f ∈ partFields, ∀ k, k < 4 → t.dev.rd f.1 0 k = s.dev.rd f.2 0 k % 2 ^ f.1.w) ∧
    exec .partitionCommitDone s = .next (s.withDev (s.dev.wr Claims.PT_CTRL_BUSY 0 0))

/-- Claim registers. They answer no VF, no function that is not live, and count a write of another partition as denied; capture units
take writes of every partition (R31, R560). ACQUIRE by a page that may hold the resource (its class, a region's KIND, its partition)
gives it the claim, or DENIED and CLAIM_CONFLICT where another page holds it, or DENIED and BAD_ACCESS where the page may not hold it;
a compare-list range that leaves the list is RANGE_BAD, one that overlaps another held range a conflict; RELEASE by the holder ends the
claim, unless its block is enabled; of a free resource it only clears DENIED (R62–R64, R408, R560).
Completes: acquire, claimRelease.
On points the spec leaves open this states the model's choices: assumption 19. -/
def Obligations.ClaimRegisters : Prop :=
  ∀ (s : State) (r : Req) (k : Res) (n c i : Nat), c < 64 → i < 64 →
   ((isVf r.num = true ∨ s.dev.reqLive r.num = false ∨ s.dev.boot.aoUp = false ∨ k.count ≤ n) →
     exec (.acquire r k n c i) s = .next (s.withDev s.dev) ∧ exec (.claimRelease r k n c i) s = .next (s.withDev s.dev)) ∧
   (isVf r.num = false → s.dev.reqLive r.num = true → s.dev.boot.aoUp = true → n < k.count →
    (∀ p, s.dev.claimPart k n = some p → p ≠ s.dev.reqPart r.num →
      exec (.acquire r k n c i) s = .next (s.withDev s.dev.deny) ∧
      exec (.claimRelease r k n c i) s = .next (s.withDev s.dev.deny)) ∧
    ((s.dev.claimPart k n = none ∨ s.dev.claimPart k n = some (s.dev.reqPart r.num)) →
    let x := s.dev.claim k n
    let part := decide (s.dev.claimPart k n = none ∨ s.dev.claimPart k n = some (s.dev.pagePart c i))
    let may := resEligible k n c i && s.dev.kindClaims k n c && s.dev.implemented c i && part
    let blocker := if k = .range then s.dev.rangeBlocker n else none
    (may = false → exec (.acquire r k n c i) s = .next (s.withDev
      ((s.dev.setClaim k n { x with denied := true, sCls := c, sInst := i, used := true }).evt 4 k.inst evtBAD_ACCESS))) ∧
    (may = true → x.held = false → (k = .range → s.dev.rangeInside n = true) → blocker = none →
      exec (.acquire r k n c i) s = .next (s.withDev
        (s.dev.setClaim k n { held := true, denied := false, hCls := c, hInst := i, sCls := c, sInst := i, used := true }))) ∧
    (may = true → x.held = false → k = .range → s.dev.rangeInside n = false → exec (.acquire r k n c i) s = .next (s.withDev
      ((s.dev.claimFail k n c i c i).evt 4 2 Claims.E_RANGE_BAD))) ∧
    (may = true → x.held = false → (k = .range → s.dev.rangeInside n = true) → ∀ m, blocker = some m →
      exec (.acquire r k n c i) s = .next (s.withDev
        (s.dev.claimFail k n c i (s.dev.claim .range m).hCls (s.dev.claim .range m).hInst))) ∧
    (may = true → x.held = true → x.hCls = c → x.hInst = i → exec (.acquire r k n c i) s = .next (s.withDev
      (s.dev.setClaim k n { x with denied := false, sCls := c, sInst := i, used := true }))) ∧
    (may = true → x.held = true → ¬ (x.hCls = c ∧ x.hInst = i) → exec (.acquire r k n c i) s = .next (s.withDev
      (((s.dev.setClaim k n { x with denied := true, sCls := x.hCls, sInst := x.hInst, used := true }).evt
        (canon c i).1 (canon c i).2 evtCLAIM_CONFLICT).evt 4 k.inst evtCLAIM_CONFLICT))) ∧
    (x.held = false → exec (.claimRelease r k n c i) s = .next (s.withDev
      (s.dev.setClaim k n { x with denied := false, sCls := c, sInst := i, used := true }))) ∧
    (x.held = true → x.hCls = c → x.hInst = i → s.dev.enabled c i = false → exec (.claimRelease r k n c i) s = .next (s.withDev
      (s.dev.setClaim k n { x with held := false, denied := false, sCls := c, sInst := i, used := true }))) ∧
    (x.held = true → x.hCls = c → x.hInst = i → s.dev.enabled c i = true → exec (.claimRelease r k n c i) s = .next (s.withDev
      (s.dev.evt 4 k.inst Claims.E_CLAIM_IN_USE))) ∧
    (x.held = true → ¬ (x.hCls = c ∧ x.hInst = i) → exec (.claimRelease r k n c i) s = .next (s.withDev
      (s.dev.evt 4 k.inst evtCLAIM_CONFLICT)))))

/-! ## Power, reset and boot (R523–R527, R544) -/

/-- Power and reset: supplies that come good boot a device that has not booted; the wait for REFCLK ends at its time; RESET_N below
1 µs is no reset, longer it resets the device, which boots again; DEV_RESET needs its two keys from one requester in order; PWR_GOOD
falling leaves a device in reset that keeps its NV store (R523–R527, R544).
Completes: pwrGoodRise, refclkWaitExpiry, resetN, devReset, pwrGoodFall.
On points the spec leaves open this states the model's choices: assumptions 5 and 70. -/
def Obligations.PowerAndReset : Prop :=
  ∀ (s : State) (r : Req) (x : Straps),
    (s.dev.boot.aoUp = true → exec (.pwrGoodRise x) s = .next (s.landed s.dev)) ∧
    (s.dev.boot.aoUp = false → x.refclk = true →
      ∃ t, exec (.pwrGoodRise x) s = .next t ∧ t.dev.rd AO.BOOT_STAT_BOOT_DONE 0 = 1 ∧
        t.dev.rd AO.BOOT_TIME 0 = x.bootMicros % 2 ^ AO.BOOT_TIME.w) ∧
    (s.dev.boot.aoUp = false → x.refclk = false →
      ∃ t, exec (.pwrGoodRise x) s = .next t ∧ t.dev.boot.refWait = true) ∧
    (s.dev.boot.refWait = false → exec (.refclkWaitExpiry x) s = .next (s.landed s.dev)) ∧
    (s.dev.boot.refWait = true →
      ∃ t, exec (.refclkWaitExpiry x) s = .next t ∧ t.dev.rd AO.BOOT_STAT_BOOT_DONE 0 = 1) ∧
    (∀ n, n < 1000 → exec (.resetN n) s = .next (s.landed s.dev)) ∧
    (∀ n, 1000 ≤ n → s.dev.boot.board = none → s.dev.nvOp = none →
      ∃ t, exec (.resetN n) s = .next t ∧ t.dev.nv = s.dev.nv ∧ t.dev.wear = s.dev.wear ∧ t.dev.regs = Dev.reset.regs ∧
        t.dev.boot.aoUp = false) ∧
    (∀ n, 1000 ≤ n → ∀ y, s.dev.boot.board = some y → y.refclk = true → ∃ t, exec (.resetN n) s = .next t ∧
      t = s.landed (s.dev.nvCut.devReset.bootRun y) ∧ t.dev.rd AO.BOOT_STAT_BOOT_DONE 0 = 1 ∧
      t.dev.rd AO.BOOT_TIME 0 = y.bootMicros % 2 ^ AO.BOOT_TIME.w) ∧
    (s.dev.takes r.num 0 0 = true → s.dev.boot.keyBy = none →
      exec (.devReset r 0xC0DE7160#32) s = .next (s.landed
        { s.dev with boot := { s.dev.boot with keyBy := some (r.num, s.dev.ticks) } }) ∧
      ∀ v : Word, v ≠ 0xC0DE7160#32 → exec (.devReset r v) s = .next (s.landed (s.dev.evt 0 0 evtBAD_ACCESS))) ∧
    (s.dev.takes r.num 0 0 = true → ∀ t0, s.dev.boot.keyBy = some (r.num, t0) → s.dev.ticks ≤ t0 + 781250 →
      exec (.devReset r 0x7160C0DE#32) s = .next (s.landed
        ({ s.dev with boot := { s.dev.boot with keyBy := none } } : Dev).nvFinish.resetAndBoot) ∧
      ∀ v : Word, v ≠ 0x7160C0DE#32 → exec (.devReset r v) s = .next (s.landed
        (({ s.dev with boot := { s.dev.boot with keyBy := none } } : Dev).evt 0 0 evtBAD_ACCESS))) ∧
    (s.dev.nvOp = none → ∃ t, exec .pwrGoodFall s = .next t ∧ t.dev.nv = s.dev.nv ∧ t.dev.wear = s.dev.wear ∧
      t.dev.regs = Dev.reset.regs ∧ t.dev.claims = [] ∧ t.dev.boot.aoUp = false ∧ t.dev.boot.board = none)

/-! ## The Position Unit (R176–R200, R206, R207) -/

/-- Quadrature: 00, 10, 11, 01 is forward (R180). A sample of A and B, with the levels a route or a pad force gives them, changes what
follows the channel (R178, R508, R509); levels that stay change nothing else; in a disabled channel the filtered levels alone follow
(R561); one changed level counts one, both changed count nothing but an illegal transition (R180, R181), beyond QERR_LIMIT in a window
a fault (R182). The index, the window and the stop time do what R182, R183 and R194 say.
Completes: quadEdge, index, qerrWindow, stopped. -/
def Obligations.QuadratureEdges : Prop :=
  (quadStep 0 0 1 0 = 1 ∧ quadStep 1 0 1 1 = 1 ∧ quadStep 1 1 0 1 = 1 ∧ quadStep 0 1 0 0 = 1 ∧
    quadStep 0 0 0 1 = -1 ∧ quadStep 0 1 1 1 = -1 ∧ quadStep 1 1 1 0 = -1 ∧ quadStep 1 0 0 0 = -1) ∧
  (∀ (s : State) (k : Fin 8),
    (s.dev.powered 2 = false → ∀ a b y, ∀ c ∈ ([.quadEdge k (a, b) y, .index ⟨k, a, y⟩, .qerrWindow k, .stopped k] : List Instr),
      exec c s = .next (s.withDev s.dev)) ∧
    (s.dev.powered 2 = true →
      let h := s.dev.chan k
      (∀ a b y, exec (.quadEdge k (a, b) y) s = .next (s.withDev
        ((s.dev.quadEdge k (s.dev.encPad k 0 a) (s.dev.encPad k 1 b) y).follow k))) ∧
      (∀ z y, exec (.index ⟨k, z, y⟩) s = .next (s.withDev (s.dev.indexEdge k (s.dev.encPad k 2 z) y))) ∧
      (∀ p x, s.dev.routedE k = false → s.dev.padE k p = 0 → s.dev.encPad k p x = x) ∧
      (s.dev.enabled 0x10 k = true → s.dev.quadMode k = true →
        exec (.qerrWindow k) s = .next (s.withDev (s.dev.setChan k { h with qwin := 0 }))) ∧
      ((s.dev.enabled 0x10 k = false ∨ s.dev.quadMode k = false) → exec (.qerrWindow k) s = .next (s.withDev s.dev)) ∧
      ((s.dev.enabled 0x10 k = false ∨ s.dev.is Pos.STAT_STOPPED k = true ∨ h.stuck = true ∨ s.dev.hasMoved k = false ∨
          s.dev.nowL < h.tEdge + s.dev.rd Pos.STOP_TIME k * 1000 * nsL) → exec (.stopped k) s = .next (s.withDev s.dev)) ∧
      (s.dev.enabled 0x10 k = true → s.dev.is Pos.STAT_STOPPED k = false → h.stuck = false → s.dev.hasMoved k = true →
        h.tEdge + s.dev.rd Pos.STOP_TIME k * 1000 * nsL ≤ s.dev.nowL →
        exec (.stopped k) s = .next (s.withDev
          (((s.dev.setChan k { h with
            word := s.dev.posWord k, m := 0, edges := [], spd := if s.dev.quadMode k = true then 0 else h.spd }).wr
              Pos.STAT_STOPPED k 1).evt 0x10 k Pos.E_STOPPED))))) ∧
  ∀ (d : Dev) (k : Fin 8),
    let h := d.chan k
    (∀ a b y e, e = (d.keepWord k).setChan k { (d.keepWord k).chan k with rawA := a % 2, rawB := b % 2 } →
      let a' := if d.is Pos.STAT_WIRE_A k then h.fA else a % 2
      let b' := if d.is Pos.STAT_WIRE_B k then h.fB else b % 2
      let t := d.momentL y - edgeDelay
      let q := quadStep h.fA h.fB a' b'
      (a' = h.fA → b' = h.fB → d.quadEdge k a b y = e) ∧
      (a' ≠ h.fA ∨ b' ≠ h.fB → (d.enabled 0x10 k = false ∨ d.quadMode k = false ∨ h.stuck = true) →
        d.quadEdge k a b y = e.setLevels k a' b') ∧
      (d.enabled 0x10 k = true → d.quadMode k = true → h.stuck = false →
        ∀ g, g = (e.setLevels k a' b').setChan k { (e.setLevels k a' b').chan k with lastFilt := some t } →
        (a' ≠ h.fA → b' ≠ h.fB →
          ∀ x, x = ((g.setChan k { g.chan k with qwin := h.qwin + 1 }).incSat Pos.CNT_A_ILLEGAL_CNT k).evt 0x10 k Pos.E_QERR →
          (h.qwin + 1 ≤ d.rd Pos.ENC_CFG_QERR_LIMIT k → d.quadEdge k a b y = x) ∧
          (d.rd Pos.ENC_CFG_QERR_LIMIT k < h.qwin + 1 →
            d.quadEdge k a b y = (x.setSuspect k).flt 0x10 k Pos.F_QERR_FAULT)) ∧
        (a' ≠ h.fA ∧ b' = h.fB ∨ a' = h.fA ∧ b' ≠ h.fB →
          (∀ x, h.lastFilt = some x → t < x + 20 * nsL → d.quadEdge k a b y =
            ((g.incSat Pos.CNT_B_OVERSPEED_CNT k).evt 0x10 k Pos.E_OVERSPEED).countEdge k
              (if d.is Pos.ENC_CFG_DIR_INV k then -q else q) t) ∧
          ((∀ x, h.lastFilt = some x → x + 20 * nsL ≤ t) → d.quadEdge k a b y =
            g.countEdge k (if d.is Pos.ENC_CFG_DIR_INV k then -q else q) t)))) ∧
    (∀ (q : Int) (t : Nat), (d.limits k).1 ≤ h.cnt + q → h.cnt + q ≤ (d.limits k).2 →
      ((d.countEdge k q t).chan k).cnt = h.cnt + q ∧ (d.countEdge k q t).rd Pos.STAT_STOPPED k = 0 ∧
      ((d.countEdge k q t).chan k).tEdge = t ∧
      (q ≠ 0 → (d.countEdge k q t).rd Pos.STAT_DIR_NEG k = b2n (decide (h.cnt + q < h.cnt)))) ∧
    (∀ (q : Int) (t : Nat), (d.limits k).2 < h.cnt + q →
      ((d.countEdge k q t).chan k).cnt = (d.limits k).2 ∧ (d.countEdge k q t).rd Pos.STAT_AT_LIMIT_HI k = 1 ∧
      (d.countEdge k q t).rd Pos.STAT_AT_LIMIT_LO k = 0) ∧
    ∀ z y, ∀ e, e = d.zLevel k z →
      let idx := h.fZ = 0 ∧ z % 2 = 1 ∧ d.is Pos.STAT_WIRE_Z k = false ∧ d.enabled 0x10 k = true ∧ d.quadMode k = true ∧
        h.stuck = false ∧ (d.is Pos.ENC_CFG_Z_QUAL k = true → h.fA = 1 ∧ h.fB = 1) ∧
        (d.rd Pos.ENC_CFG_Z_MODE k = 1 ∨ d.rd Pos.ENC_CFG_Z_MODE k = 2 ∧ d.is Pos.STAT_Z_ARMED k = true)
      (¬ idx → d.indexEdge k z y = e) ∧
      (idx → ∀ x, x = (e.wrI Pos.INDEX_POS k (e.posWord k)).wr Pos.INDEX_TIME k (tImg (d.momentL y - edgeDelay)) →
        (d.rd Pos.ENC_CFG_Z_MODE k = 2 → d.indexEdge k z y = (x.wr Pos.STAT_Z_ARMED k 0).evt 0x10 k Pos.E_INDEX) ∧
        (d.rd Pos.ENC_CFG_Z_MODE k ≠ 2 → d.indexEdge k z y = x.evt 0x10 k Pos.E_INDEX))

/-- The settings and commands of a channel: a limit that is not a whole count or does not leave a range is discarded, a good one is
taken, and a count outside the new limits moves to the nearer one with the position, the distance going to LIMIT_EXCESS (R191);
Z_ARM, CLR_EXCESS and CLR_SUSPECT, which spare what the same sample added or caused (R183, R190, R193, R199); REBASE moves count,
epoch and offset, or is refused (R192).
Completes: zArm, clrExcess, clrSuspect, limitWrite, rebase.
On points the spec leaves open this states the model's choices: assumptions 10 and 31. -/
def Obligations.PositionSettings : Prop :=
  (∀ (s : State) (r : Req) (k : Fin 8), s.dev.takes r.num 0x10 k = true →
    let h := s.dev.chan k
    (exec (.zArm r k) s = .next (s.withDev (s.dev.wr Pos.STAT_Z_ARMED k 1))) ∧
    (h.exSample ≠ some s.dev.sample → exec (.clrExcess r k) s = .next (s.withDev (s.dev.wr Pos.LIMIT_EXCESS k 0))) ∧
    (h.exSample = some s.dev.sample → exec (.clrExcess r k) s = .next (s.withDev (s.dev.wrI Pos.LIMIT_EXCESS k h.exAdd))) ∧
    (s.dev.wireLive k = false → s.dev.posFault k = false → h.suspSample ≠ some s.dev.sample →
      exec (.clrSuspect r k) s = .next (s.withDev (s.dev.wr Pos.STAT_POS_SUSPECT k 0))) ∧
    ((s.dev.wireLive k = true ∨ s.dev.posFault k = true ∨ h.suspSample = some s.dev.sample) →
      exec (.clrSuspect r k) s = .next (s.withDev s.dev)) ∧
    (∀ (high : Bool) (v : BitVec 64),
      let lo := if high then s.dev.rdI Pos.LIMIT_LO k else sInt 64 v.toNat
      let hi := if high then sInt 64 v.toNat else s.dev.rdI Pos.LIMIT_HI k
      (v.toNat % 256 ≠ 0 ∨ hi ≤ lo →
        exec (.limitWrite r k high v) s = .next (s.withDev (s.dev.evt 0x10 k evtBAD_ACCESS))) ∧
      (v.toNat % 256 = 0 → lo < hi → exec (.limitWrite r k high v) s = .next (s.withDev
        (((s.dev.wr (if high then Pos.LIMIT_HI else Pos.LIMIT_LO) k v.toNat).confine k).follow k)))) ∧
    (s.dev.rebaseRefused k = true → exec (.rebase r k) s = .next (s.withDev (s.dev.evt 0x10 k Pos.E_REBASE_REFUSED))) ∧
    (s.dev.rebaseRefused k = false → ∃ t, exec (.rebase r k) s = .next t ∧ t.mem = s.mem ∧
      (t.dev.chan k).cnt = h.cnt - s.dev.rdI Pos.REBASE_OFFSET k / 256 ∧
      (t.dev.chan k).word = h.word - s.dev.rdI Pos.REBASE_OFFSET k ∧
      t.dev.rd Pos.STAT_EPOCH k = (s.dev.rd Pos.STAT_EPOCH k + 1) % 16 ∧
      t.dev.rd Pos.EPOCH_OFS k ((s.dev.rd Pos.STAT_EPOCH k + 1) % 16) = uInt 64 (s.dev.rdI Pos.REBASE_OFFSET k) % 2 ^ 64 ∧
      (t.dev.rd (Hdr.EVT 0x10) k).testBit Pos.E_REBASE_DONE = true)) ∧
  ∀ (d : Dev) (k : Fin 8),
    let c := (d.chan k).cnt
    let l := d.limits k
    ((d.chan k).stuck = true ∨ (l.1 ≤ c ∧ c ≤ l.2) → d.confine k = d) ∧
    ((d.chan k).stuck = false → l.2 < c → ∀ t, t = d.confine k →
      (t.chan k).cnt = l.2 ∧ (t.chan k).word = 256 * l.2 ∧ t.rd Pos.STAT_AT_LIMIT_HI k = 1 ∧ t.rd Pos.STAT_AT_LIMIT_LO k = 0 ∧
      t.rd Pos.STAT_DIR_NEG k = 1 ∧
      t.rd Pos.LIMIT_EXCESS k = uInt 64 (d.rdI Pos.LIMIT_EXCESS k + 256 * (c - l.2)) % 2 ^ 64 ∧
      (t.rd (Hdr.EVT 0x10) k).testBit Pos.E_LIMIT_HI = true) ∧
    ((d.chan k).stuck = false → l.1 ≤ l.2 → c < l.1 → ∀ t, t = d.confine k →
      (t.chan k).cnt = l.1 ∧ (t.chan k).word = 256 * l.1 ∧ t.rd Pos.STAT_AT_LIMIT_LO k = 1 ∧ t.rd Pos.STAT_AT_LIMIT_HI k = 0 ∧
      t.rd Pos.STAT_DIR_NEG k = 0 ∧
      t.rd Pos.LIMIT_EXCESS k = uInt 64 (d.rdI Pos.LIMIT_EXCESS k + 256 * (c - l.1)) % 2 ^ 64 ∧
      (t.rd (Hdr.EVT 0x10) k).testBit Pos.E_LIMIT_LO = true)

/-- Serial sensors, history and the adapter's identity: a frame starts on an idle-high line or is an error 5 (R184, R187); the
frame under way gives its reading, or the error that discards it: a WIRE on A during it is error 6, a missing acknowledge error 1
(R184–R187); the first good SSI reading sets the count from SER_BASE (R186); a sample goes into the ring at HIST_SEQ (R195); the LCUs
that wait for it go on (R293); an adapter found, read, or lost (R206, R207); a live WIRE of a checked pair makes the position suspect
(R178, R199).
Completes: serFrame, serReading, histSample, idPoll, idRead, adapterIdDone, busErr, wire.
On points the spec leaves open this states the model's choices: assumption 32. -/
def Obligations.SerialHistoryIdentity : Prop :=
  (∀ (s : State) (k : Fin 8),
    let h := s.dev.chan k
    (s.dev.powered 2 = false → ∀ hi bs y dl ack, ∀ c ∈ ([.serFrame k hi, .serReading k bs y dl, .idPoll k ack,
      .adapterIdDone k bs] : List Instr), exec c s = .next (s.withDev s.dev)) ∧
    (s.dev.powered 2 = true →
      ((s.dev.enabled 0x10 k = false ∨ s.dev.serMode k = false ∨ h.stuck = true) → ∀ hi,
        exec (.serFrame k hi) s = .next (s.withDev s.dev)) ∧
      (s.dev.enabled 0x10 k = true → s.dev.serMode k = true → h.stuck = false →
        exec (.serFrame k true) s = .next (s.withDev
          ((s.dev.setChan k { h with frame := some (s.dev.nowL, s.dev.is Pos.STAT_WIRE_A k) }).emit
            (.serClk k s.dev.nowL (s.dev.rd Pos.SER_CFG_SER_CLK_DIV k)
              (if s.dev.rd Pos.ENC_CFG_MODE k = 3 then s.dev.rd Pos.SER_TIMING_SAMPLE_DLY k else 0)))) ∧
        exec (.serFrame k false) s = .next (s.withDev ((s.dev.setChan k { h with frame := none }).serErr k 5))) ∧
      (∀ bs y dl, exec (.serReading k bs y dl) s = .next (s.withDev ((s.dev.serReading k bs y dl).follow k))) ∧
      (s.dev.is Pos.ID_CFG_ID_POLL k = false → ∀ ack, exec (.idPoll k ack) s = .next (s.withDev s.dev)) ∧
      (s.dev.is Pos.ID_CFG_ID_POLL k = true → ∀ ack, ∃ t, exec (.idPoll k ack) s = .next t ∧ t.mem = s.mem ∧
        t.dev.is Pos.ID_STAT_PRESENT k = ack ∧
        (s.dev.is Pos.ID_STAT_PRESENT k ≠ ack → (t.dev.rd (Hdr.EVT 0x10) k).testBit Pos.E_ID_CHANGE = true) ∧
        t.dev.sent = s.dev.sent ++ (if ack = true ∧ s.dev.is Pos.ID_STAT_PRESENT k = false then [.idBus k 256] else [])) ∧
      (∀ bs, ∃ t, exec (.adapterIdDone k bs) s = .next t ∧ t.mem = s.mem ∧
        t.dev.is Pos.ID_STAT_ID_VALID k = (recordGood 256 bs && byteAt bs 8 == 2) ∧
        t.dev.is Pos.ID_STAT_ID_BAD k = (!(recordGood 256 bs && byteAt bs 8 == 2)) ∧ t.dev.is Pos.ID_STAT_BUS_ERR k = false ∧
        (t.dev.rd (Hdr.EVT 0x10) k).testBit Pos.E_ID_DONE = true) ∧
      (∀ (p : Fin 3) (live : Bool) (lv : Nat), s.dev.padE k p = 0 →
        (s.dev.wireChecked (.enc k p) = false → exec (.wire (.enc k p) live lv) s = .next (s.withDev s.dev)) ∧
        (s.dev.wireChecked (.enc k p) = true → exec (.wire (.enc k p) live lv) s = .next (s.withDev
          ((s.dev.wireEnc k p live lv).follow k)))) ∧
      (∀ (p : Fin 3) (live : Bool) (lv : Nat), exec (.wire (.enc k p) live lv) s = .next (s.withDev
        (s.dev.wireOne (.enc k p) live lv))) ∧
      (∀ (live : Bool) (lv : Nat),
        (s.dev.padE k 0 = 0 ∧ s.dev.padE k 1 = 0 → exec (.wire (.encAB k) live lv) s = .next (s.withDev
          (s.dev.wireOne (.encAB k) live lv))) ∧
        (¬ (s.dev.padE k 0 = 0 ∧ s.dev.padE k 1 = 0) → exec (.wire (.encAB k) live lv) s = .next (s.withDev
          ((s.dev.wireOne (.enc k 0) live (bitOf lv 0)).wireOne (.enc k 1) live (bitOf lv 1)))))) ∧
    (exec (.histSample k) s = .next (s.landed ((List.range 16).foldl (fun (d : Dev) p =>
      if d.scrCh p = k.val then d.lcuRetry p false else d) (s.dev.histSample k)))) ∧
    (∀ r : Req, s.dev.takes r.num 0x10 k = true → exec (.idRead r k) s = .next (s.withDev (s.dev.emit (.idBus k 256)))) ∧
    (exec (.busErr (.adapter k)) s = .next (s.withDev ((s.dev.wr Pos.ID_STAT_BUS_ERR k 1).emit (.idRecover k)))) ∧
    ∀ n : Fin 2, exec (.busErr (.sfp n)) s = .next (s.withDev
      ((s.dev.wr Eth.SFP_STAT_BUS_ERR n 1).emit (.idRecover (8 + n))))) ∧
  ∀ (d : Dev) (k : Fin 8),
    let h := d.chan k
    (∀ code t, t = d.serErr k code → t.rd Pos.SER_STAT_LAST_ERR k = code % 2 ^ Pos.SER_STAT_LAST_ERR.w ∧
      (t.rd (Hdr.EVT 0x10) k).testBit Pos.E_SER_ERR = true ∧ (t.chan k).errRun = h.errRun + 1 ∧ (t.chan k).cnt = h.cnt ∧
      (h.errRun = 3 → t.rd Pos.STAT_POS_SUSPECT k = 1 ∧ (t.rd (Hdr.FLT 0x10) k).testBit Pos.F_SER_FAULT = true)) ∧
    (∀ bs y dl e, e = d.keepWord k →
      (h.frame = none → d.serReading k bs y dl = e) ∧
      ((d.enabled 0x10 k = false ∨ d.serMode k = false ∨ h.stuck = true) → d.serReading k bs y dl = e) ∧
      (∀ start w, h.frame = some (start, w) → d.enabled 0x10 k = true → d.serMode k = true → h.stuck = false →
        ∀ f, f = e.setChan k { e.chan k with frame := none } →
        ∀ g, g = (if d.rd Pos.ENC_CFG_MODE k = 2 ∧ bs.getD 0 1 = 0 then f.wr Pos.SER_STAT_LINE_DELAY k (min 65535 dl) else f) →
        (w = true → d.serReading k bs y dl = g.serErr k 6) ∧
        (w = false →
          (∀ code, d.serParse k bs = .inl code → d.serReading k bs y dl = g.serErr k code) ∧
          (∀ raw, d.serParse k bs = .inr (raw, false) →
            d.serReading k bs y dl = (g.wr Pos.SER_RAW k raw).serCount k raw (d.latchTime k (start - y % cycleL))) ∧
          (∀ raw, d.serParse k bs = .inr (raw, true) →
            d.serReading k bs y dl =
              ((g.evt 0x10 k Pos.E_SER_WARN).wr Pos.SER_RAW k raw).serCount k raw (d.latchTime k (start - y % cycleL)))))) ∧
    (d.rd Pos.ENC_CFG_MODE k = 2 → d.serParse k [] = .inl 1) ∧
    (∀ bs, d.rd Pos.ENC_CFG_MODE k ≠ 2 → d.is Pos.SER_CFG_SSI_ERRBIT k = false → d.is Pos.SER_CFG_GRAY k = false →
      d.serParse k bs = .inr (bitsVal (bs.take (d.rd Pos.SER_CFG_POS_BITS k)), false)) ∧
    (∀ raw t : Nat, h.nRead = 0 → (d.limits k).1 ≤ (raw : Int) - d.rdI Pos.SER_BASE k →
      (raw : Int) - d.rdI Pos.SER_BASE k ≤ (d.limits k).2 →
      ((d.serCount k raw t).chan k).cnt = (raw : Int) - d.rdI Pos.SER_BASE k ∧ ((d.serCount k raw t).chan k).nRead = 1 ∧
      ((d.serCount k raw t).chan k).errRun = 0 ∧ (d.serCount k raw t).rd Pos.STAT_STOPPED k = 0) ∧
    ((d.enabled 0x10 k = false ∨ d.is Pos.HIST_CFG_HIST_EN k = false) → d.histSample k = d) ∧
    (d.enabled 0x10 k = true → d.is Pos.HIST_CFG_HIST_EN k = true → ∀ t, t = d.histSample k →
      t.tab 0x10 k 0 (d.rd Pos.HIST_SEQ k % 65536) = d.histImage k ∧
      t.rd Pos.HIST_SEQ k = (d.rd Pos.HIST_SEQ k + 1) % 2 ^ 32 ∧ (t.chan k).gap = false) ∧
    (∀ p : Nat, p < 3 → d.is (wireStat p) k = false → ∀ lv t, t = d.wireEnc k p true lv → t.is (wireStat p) k = true ∧
      (t.rd (Hdr.EVT 0x10) k).testBit Pos.E_WIRE = true ∧
      (p ≠ 2 → t.rd Pos.STAT_POS_SUSPECT k = 1 ∧ (t.rd (Hdr.FLT 0x10) k).testBit Pos.F_WIRE_FAULT = true)) ∧
    (d.is Pos.STAT_WIRE_A k = true → d.is Pos.STAT_WIRE_B k = true → ∀ lv, d.wireBoth k false lv =
      ((d.wr Pos.STAT_WIRE_A k 0).wr Pos.STAT_WIRE_B k 0).quadEdge k (bitOf lv 0) (bitOf lv 1) 0)

/-! ## Triggers (R201–R240) -/

/-- Line generators: a line is issued at NEXT_POS, after what the streams and the lower generators have to do in the same sample
(R215), counted and stamped, and the grid goes on, while one that comes too soon is skipped and counted (R216, R219, R220); the gate
opens on a new grid with LINE_CNT 0 and closes (R217).
Completes: generatorLine, gateOpen, gateClose.
On points the spec leaves open this states the model's choices: assumption 33. -/
def Obligations.LineGenerators : Prop :=
  (∀ (s : State) (r : Req) (g : Fin 16),
    let i := 32 + g.val
    let k := s.dev.genCh g
    (s.dev.powered 2 = true → exec (.generatorLine g) s = .next (s.withDev ((s.dev.linesTo g).genReach g))) ∧
    (s.dev.powered 2 = false → exec (.generatorLine g) s = .next (s.withDev s.dev)) ∧
    (s.dev.takes r.num 0x12 i = true →
      (s.dev.genOn g = false → exec (.gateOpen r g) s = .next (s.withDev s.dev)) ∧
      (s.dev.genOn g = true → exec (.gateOpen r g) s = .next (s.withDev
          (s.dev.genOpenAt g (s.dev.genPhase g (s.dev.posWord k)) (s.dev.wordBefore k) true)) ∧
        (s.dev.rd Gen.LINES_PER_GATE i = 0 → ∃ t, exec (.gateOpen r g) s = .next t ∧ t.mem = s.mem ∧
          t.dev.rd Gen.STAT_OPEN i = 1 ∧ t.dev.rd Gen.LINE_CNT i = 0 ∧
          (t.dev.gen g).origin = some (s.dev.genPhase g (s.dev.posWord k)) ∧
          (t.dev.rd (Hdr.EVT 0x12) i).testBit Gen.E_GATE_OPEN = true)) ∧
      (s.dev.is Gen.STAT_OPEN i = true → exec (.gateClose r g) s = .next (s.withDev
        ((s.dev.wr Gen.STAT_OPEN i 0).evt 0x12 i Gen.E_GATE_CLOSE))) ∧
      (s.dev.is Gen.STAT_OPEN i = false → exec (.gateClose r g) s = .next (s.withDev s.dev)))) ∧
  ∀ (d : Dev) (g : Fin 16),
    let i := 32 + g.val
    let k := d.genCh g
    let p := (d.gen g).next
    ∀ e, e = d.holdGen g → ∀ f, f = e.fireTime k (e.posWord k) p →
      let due := e.genOn g = true ∧ e.is Gen.STAT_OPEN i = true ∧ e.chanLive k = true ∧ e.is Gen.STAT_HOLD i = false ∧
        reached (e.genDir g) (e.posWord k) p = true
      (¬ due → d.genReach g = e) ∧
      (due → e.genTooFast g f = true → d.genReach g = ((e.incSat Gen.GEN_CNT_SKIP_CNT i).evt 0x12 i Gen.E_TOO_FAST).genAdvance g ∧
        ((d.genReach g).gen g).k = (d.gen g).k + 1 ∧ (d.genReach g).rd Gen.LINE_CNT i = d.rd Gen.LINE_CNT i ∧
        ((d.genReach g).rd (Hdr.EVT 0x12) i).testBit Gen.E_TOO_FAST = true) ∧
      (due → e.genTooFast g f = false → d.genReach g = (e.genLine g p f).genAdvance g ∧
        (d.rd Gen.GEN_OUT_MASK i = 0 → (d.claim .gen g).held = false → ∀ t, t = d.genReach g →
          t.rd Gen.LINE_CNT i = (d.rd Gen.LINE_CNT i + 1) % 2 ^ Gen.LINE_CNT.w ∧
          t.rd Gen.LAST_LINE_POS i = uInt 64 p % 2 ^ 64 ∧ t.rd Gen.LAST_LINE_TIME i = tImg f % 2 ^ Gen.LAST_LINE_TIME.w ∧
          (t.gen g).k = (d.gen g).k + 1 ∧ (t.gen g).last = some p))

/-- Outputs and lockstep pairs: a pulse ends at its time (R231), a pad that disagrees while driven is a fault (R232), SAFE_EXIT
needs every FATAL bit clear (R233), a lockstep pair that disagrees stops its unit (R200, R235).
Completes: pulseEnd, driveFault, safeExit, lockstep.
On points the spec leaves open this states the model's choices: assumption 35. -/
def Obligations.OutputsAndLockstep : Prop :=
  (∀ (s : State),
    (s.dev.powered 2 = false → ∀ (m : Fin 32) (u : LockUnit), ∀ c ∈ ([.pulseEnd m, .driveFault m, .lockstep u] : List Instr),
      exec c s = .next (s.withDev s.dev)) ∧
    (s.dev.powered 2 = true →
      (∀ u, exec (.lockstep u) s = .next (s.withDev (s.dev.lockstep u))) ∧
      ∀ m : Fin 32,
        exec (.pulseEnd m) s = .next (s.withDev (s.dev.setOutp m { s.dev.outp m with
          pulses := (s.dev.outp m).pulses.filter (fun x => decide (s.dev.nowL < x.2)) })) ∧
        (s.dev.outActive m = none → exec (.driveFault m) s = .next (s.withDev s.dev)) ∧
        (∀ b, s.dev.outActive m = some b → exec (.driveFault m) s = .next (s.withDev (s.dev.flt 0x12 m Out.F_DRIVE_FAULT)) ∧
          (((s.dev.flt 0x12 m Out.F_DRIVE_FAULT).rd (Hdr.FLT 0x12) m).testBit Out.F_DRIVE_FAULT = true))) ∧
    (∀ (r : Req) (m : Fin 32), s.dev.takes r.num 0x12 m = true →
      let fatal := s.dev.fltPages.any (fun p => (List.range 32).any (fun b =>
        (s.dev.rd (Hdr.FLT p.1) p.2).testBit b && fltSeverity p.1 p.2 b == some 4))
      (fatal = false → exec (.safeExit r m) s = .next (s.withDev (s.dev.wr Out.STAT_SAFE_ACTIVE m 0))) ∧
      (fatal = true → exec (.safeExit r m) s = .next (s.withDev s.dev)))) ∧
  ∀ (d : Dev),
    (∀ m : Fin 32, d.lockstep (.output m) =
      (d.setOutp m { d.outp m with fault := true, pulses := [] }).flt 0x12 m Out.F_LOCKSTEP) ∧
    (∀ k : Fin 8, ∀ t, t = d.lockstep (.channel k) → (t.chan k).stuck = true ∧
      (t.chan k).word = d.posWord k ∧ (t.chan k).spd = d.speed k ∧ t.rd Pos.STAT_POS_SUSPECT k = 1 ∧
      (t.rd (Hdr.FLT 0x10) k).testBit Pos.F_LOCKSTEP = true) ∧
    (∀ g : Fin 16, ∀ t, t = d.lockstep (.generator g) → (t.gen g).fault = true ∧
      t.is Gen.STAT_OPEN (32 + g) = false ∧ (t.rd (Hdr.FLT 0x12) (32 + g)).testBit Gen.F_LOCKSTEP = true) ∧
    ∀ n : Fin 32, ∀ t, t = d.lockstep (.stream n) → (t.stream n).fault = true ∧
      t.rd Cs.STAT_STATE n = 6 ∧ t.rd Cs.STAT_LATCHED n = 0 ∧ (t.stream n).loadDue = false ∧
      (t.rd (Hdr.FLT 0x13) n).testBit Cs.F_LOCKSTEP = true

/-- Compare streams: ARM, STOP, RELOAD and AVAIL_PT (R223, R225, R229); the lower streams act first in a sample (R215); an entry
ahead is latched one sample after the load fell due, a missed one counted, an empty ring starves the stream (R225–R227); a reached
entry fires (R228).
Completes: arm, stop, reload, availPt, entryLoad, streamFire.
On points the spec leaves open this states the model's choices: assumption 34. -/
def Obligations.CompareStreams : Prop :=
  (∀ (s : State) (r : Req) (n : Fin 32),
    let st := s.dev.csState n
    let h := s.dev.stream n
    let lp := s.dev.rd Cs.LOAD_PT n
    (s.dev.powered 2 = true → exec (.entryLoad n) s = .next (s.withDev ((s.dev.streamsTo n).csLoad n)) ∧
      exec (.streamFire n) s = .next (s.withDev ((s.dev.streamsTo n).csReach n))) ∧
    (s.dev.powered 2 = false → exec (.entryLoad n) s = .next (s.withDev s.dev) ∧
      exec (.streamFire n) s = .next (s.withDev s.dev)) ∧
    (s.dev.takes r.num 0x13 n = true →
      (exec (.arm r n) s = .next (s.withDev (s.dev.csArm n none))) ∧
      ((st = 0 ∨ st = 5 ∨ st = 6) → exec (.stop r n) s = .next (s.withDev s.dev)) ∧
      (st ≠ 0 → st ≠ 5 → st ≠ 6 → exec (.stop r n) s = .next (s.withDev
        ((((s.dev.setStream n { h with loadDue := false, reload := false }).wr Cs.STAT_LATCHED n 0).wr Cs.STAT_STATE n 5).evt
          0x13 n Cs.E_DONE))) ∧
      (s.dev.is Cs.STAT_LATCHED n = true → exec (.reload r n) s = .next (s.withDev
        ((s.dev.setStream n { h with loadDue := true, reload := true, dueAt := s.dev.sample }).wr Cs.STAT_LATCHED n 0))) ∧
      (s.dev.is Cs.STAT_LATCHED n = false → exec (.reload r n) s = .next (s.withDev s.dev)) ∧
      (∀ v : Word,
        (s.dev.rd Claims.CLR_LEN 2 n < pdiff v.toNat lp →
          exec (.availPt r n v) s = .next (s.withDev (s.dev.evt 0x13 n evtBAD_ACCESS))) ∧
        (pdiff v.toNat lp ≤ s.dev.rd Claims.CLR_LEN 2 n →
          (v.toNat = lp ∨ st ≠ 4 ∧ ¬ (st = 3 ∧ h.heldFrom = 4) →
            exec (.availPt r n v) s = .next (s.withDev (s.dev.wr Cs.AVAIL_PT n v.toNat))) ∧
          (v.toNat ≠ lp → st = 4 → exec (.availPt r n v) s = .next (s.withDev
            (((s.dev.wr Cs.AVAIL_PT n v.toNat).setStream n
              { h with loadDue := true, reload := false, dueAt := s.dev.sample }).wr Cs.STAT_STATE n 2))) ∧
          (v.toNat ≠ lp → st = 3 → h.heldFrom = 4 → exec (.availPt r n v) s = .next (s.withDev
            ((s.dev.wr Cs.AVAIL_PT n v.toNat).setStream n
              { h with heldFrom := 2, loadDue := true, reload := false, dueAt := s.dev.sample }))))))) ∧
  ∀ (d : Dev) (n : Fin 32),
    let st := d.csState n
    let k := d.rd Cs.CS_CFG_CH n
    let dir := d.rd Cs.CS_CFG_DIR n
    ((d.enabled 0x13 n = false ∨ st = 0 ∨ st = 6) → ∀ w, d.csArm n w = d) ∧
    (d.enabled 0x13 n = true → st ≠ 0 → st ≠ 6 → ∀ t, t = d.csArm n none →
      t.rd Cs.STAT_STATE n = (if d.csSrc n = false ∧ d.against k dir = true then 3 else 2) ∧
      t.rd Cs.STAT_LATCHED n = 0 ∧ (t.stream n).loadDue = true ∧ (t.stream n).reload = false ∧
      (t.stream n).base = d.rdI Cs.BASE n ∧ (t.stream n).idx = d.rd Cs.START_IDX n ∧
      (st = 2 ∨ st = 3 ∨ st = 4 → (t.rd (Hdr.EVT 0x13) n).testBit Cs.E_ARM_OVERRUN = true)) ∧
    (d.csSrc n = true ∨ d.enabled 0x13 n = false ∨ d.against k dir = false ∧ st ≠ 3 → d.holdCs n = d) ∧
    ∀ e, e = d.holdCs n →
      let h := e.stream n
      let ring := e.is Cs.CS_CFG_MODE n
      let lp := e.rd Cs.LOAD_PT n
      let ready := e.csState n = 2 ∧ h.loadDue = true ∧ h.dueAt ≠ e.sample ∧ e.csLive n = true
      let idx := if h.reload then h.latchedIdx
        else if ring then e.rd Claims.CLR_BASE 2 n + lp % max 1 (e.rd Claims.CLR_LEN 2 n) else h.idx
      (¬ ready → d.csLoad n = e) ∧
      (ready → ring = true → h.reload = false → lp = e.rd Cs.AVAIL_PT n → d.csLoad n =
        ((e.setStream n { h with loadDue := false }).wr Cs.STAT_STATE n 4).evt 0x13 n Cs.E_STARVED) ∧
      (ready → ¬ (ring = true ∧ h.reload = false ∧ lp = e.rd Cs.AVAIL_PT n) →
        (e.tabErr 0x13 0 0 idx = 2 → d.csLoad n = (e.readTab 0x13 n Cs.F_CL_SBE Cs.F_CL_DBE 0x13 0 0 idx).csDbe n) ∧
        (e.tabErr 0x13 0 0 idx = 0 → h.reload = true → d.csLoad n = e.csJudge n idx) ∧
        (e.tabErr 0x13 0 0 idx = 0 → h.reload = false → d.csLoad n = (e.addWrap Cs.LOAD_PT n 1).csJudge n idx)) ∧
      (∀ j,
        let x := e.listEntry j
        let p := (if h.baseDue then e.rdI Cs.BASE n else h.base) + (if h.chain then e.rdI Cs.LOOP_STEP n else 0) +
          sInt 40 (bits x 24 40)
        ∀ t, t = e.csJudge n j →
        (bits x 3 2 = 3 ∨ 4 ≤ bits x 0 3 → t.rd Cs.STAT_STATE n = 5 ∧ (t.rd (Hdr.EVT 0x13) n).testBit Cs.E_BAD_ENTRY = true) ∧
        (bits x 3 2 ≠ 3 → bits x 0 3 < 4 → p ≠ e.csWord n →
          (behind dir (e.csWord n) p = false → t.rd Cs.STAT_LATCHED n = 1 ∧ (t.stream n).pos = p ∧
            (t.stream n).latchedIdx = j ∧ t.rd Cs.NEXT_ENTRY n = x % 2 ^ 64) ∧
          (behind dir (e.csWord n) p = true → t.rd Cs.STAT_LATCHED n = 0 ∧
            (t.rd (Hdr.EVT 0x13) n).testBit Cs.E_COMPARE_MISS = true))) ∧
      (let hit := e.csState n = 2 ∧ e.is Cs.STAT_LATCHED n = true ∧ e.csLive n = true ∧
          reached dir (e.csWord n) h.pos = true
        let x := e.rd Cs.NEXT_ENTRY n
        (¬ hit → d.csReach n = e) ∧
        (hit → d.csReach n = e.csFire n x h.pos ∧
          (bits x 16 8 = 0 → bits x 0 3 = 0 → bits x 5 8 = 0 → ∀ t, t = d.csReach n →
            t.rd Cs.FIRED_CNT n = (e.rd Cs.FIRED_CNT n + 1) % 2 ^ Cs.FIRED_CNT.w ∧
            t.rd Cs.LAST_FIRE_POS n = uInt 64 h.pos % 2 ^ 64 ∧ t.rd Cs.STAT_LATCHED n = 0 ∧
            (t.rd (Hdr.EVT 0x13) n).testBit Cs.E_FIRE = true ∧ (bits x 3 2 = 1 → t.rd Cs.STAT_STATE n = 5))))

/-- Digital inputs: a level that differs starts a run and a return ends it as a glitch; a run that has lasted for DEBOUNCE is the level,
at once where DEBOUNCE is 0, and with EN an edge that counts and is an event (R202–R204); INV acts after the sampler (R201); an item is
read whole or the idle item is (R164, R205); a live WIRE is a fault (R201).
Completes: sampledLevelChange, qualifiedEdge, evItem0Read, wire.
On points the spec leaves open this states the model's choices: assumptions 30 and 35. -/
def Obligations.DigitalInputs : Prop :=
  (∀ (s : State) (r : Req) (n : Fin 24),
    (s.dev.powered 2 = false → ∀ lv y l rise, exec (.sampledLevelChange n ⟨lv, y, l⟩) s = .next (s.withDev s.dev) ∧
      exec (.qualifiedEdge n rise y) s = .next (s.withDev s.dev)) ∧
    (s.dev.powered 2 = true →
      (∀ lv y l, exec (.sampledLevelChange n ⟨lv, y, l⟩) s = .next (s.withDev (s.dev.dinLevel n (s.dev.dinPad n lv) y l))) ∧
      (∀ lv, s.dev.routedD n = false → s.dev.padD n = 0 → s.dev.dinPad n lv = lv) ∧
      (∀ rise y,
        ((s.dev.din n).run = none → exec (.qualifiedEdge n rise y) s = .next (s.withDev s.dev)) ∧
        (∀ t0, (s.dev.din n).run = some t0 →
          (s.dev.rd Din.STAT_RAW n ≠ b2n rise ∨ s.dev.rd Din.STAT_LEVEL n = b2n rise ∨ s.dev.momentL y < t0 + s.dev.debounceL n →
            exec (.qualifiedEdge n rise y) s = .next (s.withDev s.dev)) ∧
          (s.dev.rd Din.STAT_RAW n = b2n rise → s.dev.rd Din.STAT_LEVEL n ≠ b2n rise → t0 + s.dev.debounceL n ≤ s.dev.momentL y →
            exec (.qualifiedEdge n rise y) s = .next (s.withDev (s.dev.dinAccept n (s.dev.din n) t0))))) ∧
      (∀ live lv, exec (.wire (.din n) live lv) s = .next (s.withDev (s.dev.wireOne (.din n) live lv))) ∧
      (∀ live lv, s.dev.padD n = 0 → s.dev.wireChecked (.din n) = true →
        exec (.wire (.din n) live lv) s = .next (s.withDev (s.dev.wireDin n live lv)))) ∧
    (∀ x, x = s.dev.readAt r.num 0x11 n (fun d => d.evItem0 n) → s.dev.boot.aoUp = true →
      (s.dev.reqLive r.num = true → exec (.evItem0Read r n) s = .next (s.withDev (x.1.emit (.answer r.num x.2)))) ∧
      (s.dev.reqLive r.num = false → exec (.evItem0Read r n) s = .next (s.withDev (s.dev.emit (.unsupported r.num))))) ∧
    (s.dev.takes r.num 0x11 n = true → s.dev.boot.aoUp = true → s.dev.tabErr 0x11 n 0xFE Din.F_EV_DBE ≠ 2 →
      s.dev.armed 0x11 n Din.F_EV_DBE = false → s.dev.armed 0x11 n Din.F_EV_SBE = false →
      (s.dev.itemAtRd (16 + n) = none → ∃ t, exec (.evItem0Read r n) s = .next t ∧ t.mem = s.mem ∧
        t.dev.sent = s.dev.sent ++ [.answer r.num 0] ∧ (t.dev.din n).words = [0, 0, 0, 0, 0, 0, 0, 0] ∧
        (t.dev.queue (16 + n)).idleReads = satAdd 16 (s.dev.queue (16 + n)).idleReads 1) ∧
      ∀ x, s.dev.itemAtRd (16 + n) = some x → ∃ t, exec (.evItem0Read r n) s = .next t ∧ t.mem = s.mem ∧
        t.dev.sent = s.dev.sent ++ [.answer r.num (le x.hdr 0 4)] ∧
        (t.dev.din n).words = (List.range 8).map (fun j => le x.hdr (4 * j) 4))) ∧
  ∀ (d : Dev) (n : Fin 24),
    let h := d.din n
    (∀ lv y l, let raw := (lv + d.rd Din.DIN_CFG_INV n) % 2
      ∀ e, e = d.wr Din.STAT_RAW n raw →
      (d.is Din.STAT_WIRE n = true → d.dinLevel n lv y l = e) ∧
      (d.is Din.STAT_WIRE n = false → raw = d.rd Din.STAT_LEVEL n →
        (h.run = none → d.dinLevel n lv y l = e) ∧
        (h.run.isSome = true → d.dinLevel n lv y l =
          ((e.setDin n { h with run := none }).wr Din.STAT_DEBOUNCING n 0).incSat Din.DIN_CNT_GLITCH_CNT n)) ∧
      (d.is Din.STAT_WIRE n = false → raw ≠ d.rd Din.STAT_LEVEL n →
        (h.run.isSome = true → d.dinLevel n lv y l = e) ∧
        (h.run = none → d.debounceL n ≠ 0 → ∀ t, t = d.dinLevel n lv y l →
          (t.din n).run = some (d.momentL y) ∧ (t.din n).runTc = d.momentL y - l % sampleL ∧
          t.rd Din.STAT_DEBOUNCING n = 1 ∧ t.rd Din.STAT_LEVEL n = d.rd Din.STAT_LEVEL n ∧ t.rd Din.STAT_RAW n = raw) ∧
        (h.run = none → d.debounceL n = 0 → d.enabled 0x11 n = false → ∀ t, t = d.dinLevel n lv y l →
          (t.din n).run = none ∧ t.rd Din.STAT_DEBOUNCING n = 0 ∧ t.rd Din.STAT_LEVEL n = raw))) ∧
    (∀ t0 x,
      (d.enabled 0x11 n = false → d.dinAccept n x t0 =
        ((d.wr Din.STAT_LEVEL n (d.rd Din.STAT_RAW n)).wr Din.STAT_DEBOUNCING n 0).setDin n { x with run := none }) ∧
      (d.enabled 0x11 n = true → ∀ t, t = d.dinAccept n x t0 →
        t.rd Din.STAT_LEVEL n = d.rd Din.STAT_RAW n % 2 ∧ t.rd Din.EDGE_CNT n = (d.rd Din.EDGE_CNT n + 1) % 2 ^ Din.EDGE_CNT.w ∧
        (t.rd (Hdr.EVT 0x11) n).testBit (if d.rd Din.STAT_RAW n = 1 then Din.E_RISE else Din.E_FALL) = true)) ∧
    (d.is Din.STAT_WIRE n = false → ∀ lv t, t = d.wireDin n true lv → t.is Din.STAT_WIRE n = true ∧
      (t.rd (Hdr.FLT 0x11) n).testBit Din.F_WIRE_FAULT = true)

/-! ## Device time (R10, R241–R248) and timed actions (R261–R266) -/

/-- INCR outside its range is discarded, inside it is taken, every port asks for the time, and INCR_TIME is the time of the cycle it
acts in, the next (R137, R244); a step moves the clock by STEP_MAG or is refused (R245); a loss of REFCLK or of lockstep is FATAL and
leaves device time not valid (R248).
Completes: incrWrite, stepFwd, stepBack, refclkLoss, tbLockstep.
On points the spec leaves open this states the model's choices: assumption 36. -/
def Obligations.DeviceClock : Prop :=
  ∀ (s : State) (r : Req),
    (s.dev.takes r.num 0x14 0 = true →
      (∀ v, v < 2 ^ 48 → 0x0147AE147AE1 + 703687441 < v ∨ v + 703687441 < 0x0147AE147AE1 →
        exec (.incrWrite r v) s = .next (s.withDev (s.dev.evt 0x14 0 evtBAD_ACCESS))) ∧
      (∀ v, v ≤ 0x0147AE147AE1 + 703687441 → 0x0147AE147AE1 ≤ v + 703687441 →
        exec (.incrWrite r v) s = .next (s.withDev ((List.range 16).foldl (fun (d : Dev) p => d.timeReq p)
          ((({ s.dev with incrDue := true } : Dev).wr Tu.INCR 0 v).incSat Tu.TU_CNT_INCR_CNT 0))) ∧
        ∃ t, exec (.incrWrite r v) s = .next t ∧ t.mem = s.mem ∧ t.dev.rd Tu.INCR 0 = v ∧ t.dev.incrDue = true ∧
          t.dev.clk = s.dev.clk) ∧
      exec (.stepFwd r) s = .next (s.withDev (s.dev.step? false)) ∧ exec (.stepBack r) s = .next (s.withDev (s.dev.step? true)) ∧
      (s.dev.clk.count + tLin (s.dev.rd Tu.STEP_MAG 0) * 2 ^ 24 < 2 ^ 48 * 1000000000 * 2 ^ 40 →
        ∃ t, exec (.stepFwd r) s = .next t ∧ t.mem = s.mem ∧
          t.dev.clk = clockOf (s.dev.clk.count + tLin (s.dev.rd Tu.STEP_MAG 0) * 2 ^ 24) ∧
          t.dev.rd Tu.STEP_TIME 0 = s.dev.now % 2 ^ 128 ∧ (t.dev.rd (Hdr.EVT 0x14) 0).testBit Tu.E_STEPPED = true) ∧
      (tLin (s.dev.rd Tu.STEP_MAG 0) * 2 ^ 24 ≤ s.dev.clk.count → s.dev.clk.count < 2 ^ 48 * 1000000000 * 2 ^ 40 →
        ∃ t, exec (.stepBack r) s = .next t ∧ t.mem = s.mem ∧
          t.dev.clk = clockOf (s.dev.clk.count - tLin (s.dev.rd Tu.STEP_MAG 0) * 2 ^ 24) ∧
          (t.dev.rd (Hdr.EVT 0x14) 0).testBit Tu.E_STEPPED = true) ∧
      (s.dev.clk.count < tLin (s.dev.rd Tu.STEP_MAG 0) * 2 ^ 24 →
        exec (.stepBack r) s = .next (s.withDev (s.dev.evt 0x14 0 Tu.E_STEP_REFUSED)))) ∧
    (s.dev.boot.aoUp = true →
      (∃ t, exec .refclkLoss s = .next t ∧ t.mem = s.mem ∧ t.dev.clkLost = true ∧
        (t.dev.rd (Hdr.FLT 0x14) 0).testBit Tu.F_REFCLK_LOSS = true) ∧
      (∃ t, exec .tbLockstep s = .next t ∧ t.mem = s.mem ∧ t.dev.clkLost = true ∧
        (t.dev.rd (Hdr.FLT 0x14) 0).testBit Tu.F_TB_LOCKSTEP = true)) ∧
    (s.dev.boot.aoUp = false → exec .refclkLoss s = .next (s.withDev s.dev) ∧ exec .tbLockstep s = .next (s.withDev s.dev)) ∧
    (s.dev.powered 1 = true → s.dev.clkLost = false → (s.dev.tick).clk = clockOf (s.dev.clk.count + s.dev.rd Tu.INCR 0) ∧
      (s.dev.incrDue = true → (s.dev.tick).rd Tu.INCR_TIME 0 = (s.dev.tick).now % 2 ^ Tu.INCR_TIME.w ∧
        (s.dev.tick).incrDue = false))

/-- The Timed Action Table: an entry not due, or of another kind, does nothing; one that cannot be read is invalidated; one that is due
does what its KIND says and goes on as executed or refused; a one-shot entry of KIND 0 ends (R263, R265, R282, R376).
Completes: timedActionNone, expose, pulse, voxordAction, segmentAction, colourCycle, plumbCycle.
On points the spec leaves open this states the model's choices: assumption 37. -/
def Obligations.TimedActions : Prop :=
  ∀ (s : State) (e : Fin 4096),
    let d := s.dev
    let en := d.taEntry e
    let t := d.taTime e
    let arg := taArg en
    (d.taReady e = false → ∀ c ∈ ([.timedActionNone e, .expose e, .pulse e, .voxordAction e, .segmentAction e, .colourCycle e,
      .plumbCycle e] : List Instr), exec c s = .next (s.withDev s.dev)) ∧
    (taKind en ≠ 0 → exec (.timedActionNone e) s = .next (s.withDev s.dev)) ∧
    (taKind en ≠ 1 → exec (.expose e) s = .next (s.withDev s.dev)) ∧
    (taKind en ≠ 3 → exec (.pulse e) s = .next (s.withDev s.dev)) ∧
    (taKind en ≠ 4 → exec (.voxordAction e) s = .next (s.withDev s.dev)) ∧
    (taKind en ≠ 5 → exec (.segmentAction e) s = .next (s.withDev s.dev)) ∧
    (taKind en ≠ 2 ∨ arg.testBit 24 = true → exec (.colourCycle e) s = .next (s.withDev s.dev)) ∧
    (taKind en ≠ 2 ∨ arg.testBit 24 = false → exec (.plumbCycle e) s = .next (s.withDev s.dev)) ∧
    (taKind en = 0 → d.taReady e = true → (d.tabErr 0x15 0 0 e = 2 ∨ d.tabErr 0x15 0 1 e = 2) →
      exec (.timedActionNone e) s = .next (s.withDev (d.taRead e).1)) ∧
    (d.taReady e = true → d.tabErr 0x15 0 0 e = 0 → d.tabErr 0x15 0 1 e = 0 →
      (taKind en = 0 → exec (.timedActionNone e) s = .next (s.withDev (d.taDid e true))) ∧
      (taKind en = 0 → taPeriod en = 0 → taCount en = 0 → ∃ u, exec (.timedActionNone e) s = .next u ∧ u.mem = s.mem ∧
        u.dev.rd Ta.EXEC_CNT 0 = (d.rd Ta.EXEC_CNT 0 + 1) % 2 ^ 32 ∧ taValid (u.dev.taEntry e) = false ∧
        (u.dev.taStat e).testBit 0 = false ∧ (u.dev.taStat e).testBit 1 = true) ∧
      (taKind en = 1 → exec (.expose e) s = .next (s.withDev
        (((maskPorts (bits arg 0 16)).foldl (fun d p =>
          if d.portGated p then d else d.portTrigger p (tLin t) (bits arg 16 8) 0 0 0) d).taDid e
            ((maskPorts (bits arg 0 16)).all (fun p => !d.portGated p))))) ∧
      (taKind en = 3 → exec (.pulse e) s = .next (s.withDev
        ((d.pulse 0x15 0 (bits arg 0 5) (max (tLin t) d.nowL / sampleL * sampleL) (max (tLin t) d.nowL) (bits arg 8 24) true).taDid
          e (d.holds .tout (bits arg 0 5) 0x15 0)))) ∧
      (taKind en = 3 → d.holds .tout (bits arg 0 5) 0x15 0 = true → d.outSafe (bits arg 0 5) = false →
        d.rd Out.OUT_CFG_FORCE (bits arg 0 5) = 0 → d.is Out.OUT_CFG_FINE_EN (bits arg 0 5) = false → bits arg 8 24 ≠ 0 →
        ∃ u, exec (.pulse e) s = .next u ∧ u.mem = s.mem ∧
          let a := cdiv (max (tLin t) d.nowL + 20 * nsL + d.rd Out.OUT_DELAY (bits arg 0 5) * sampleL) sampleL * sampleL
          u.dev.sent = d.sent ++ [.pulse (bits arg 0 5) a (a + bits arg 8 24 * sampleL)] ∧
          (u.dev.outp (bits arg 0 5)).pulses =
            (pulseAdd d.nowL (d.outp (bits arg 0 5)).pulses a (a + bits arg 8 24 * sampleL)).1) ∧
      (taKind en = 4 → exec (.voxordAction e) s = .next (s.withDev
        ((d.voxAction (bits arg 0 8) 2 0 e 0 t 0).1.taDid e (d.voxAction (bits arg 0 8) 2 0 e 0 t 0).2))) ∧
      (taKind en = 5 → exec (.segmentAction e) s = .next (s.withDev
        ((d.segAction (bits arg 0 4)).1.taDid e (d.segAction (bits arg 0 4)).2))) ∧
      (taKind en = 5 → (d.track (bits arg 0 4)).segs.find? (fun s => s.st == .declared) = none →
        exec (.segmentAction e) s = .next (s.withDev (d.taDid e false))) ∧
      (taKind en = 5 → ∀ x, (d.track (bits arg 0 4)).segs.find? (fun s => s.st == .declared) = some x → x.timed = true →
        x.started = false → exec (.segmentAction e) s = .next (s.withDev
          ((d.modSeg (bits arg 0 4) x.num (fun y => { y with
            started := true, fixed := true, s := d.posWord x.ch
            e := d.posWord x.ch + along y.dir (le y.desc 24 8) })).taDid e true))) ∧
      (taKind en = 2 → arg.testBit 24 = false → exec (.colourCycle e) s = .next (s.withDev
        ((d.taCycle arg (fun d n => d.regReport n t)).1.taDid e (d.taCycle arg (fun d n => d.regReport n t)).2))) ∧
      (taKind en = 2 → arg.testBit 24 = true → exec (.plumbCycle e) s = .next (s.withDev
        ((d.taCycle arg (fun d n => d.plSwap n t)).1.taDid e (d.taCycle arg (fun d n => d.plSwap n t)).2))))

/-! ## The Ethernet ports (R250–R260) and Voxord (R267–R277) -/

/-- Path delays: a sample posted or measured is PATH_DELAY, the first is D_GOOD, a step beyond the limit is pending until PD_ACK
(R256, R257); a request is remembered with its stamp; a response within 100 ms gives a sample, held until they are over, when a
request without one counts as lost and the sample of a single responder is posted (R256); a foreign request is answered (R255); a
master that falls silent (R258). The injector of the port is at rest.
Completes: pdPost, pdAck, masterLost, pdelayLost, pdelayInterval, pdelayReq, pdelayResp.
On points the spec leaves open this states the model's choices: assumptions 38 and 39. -/
def Obligations.PathDelay : Prop :=
  (∀ (s : State) (r : Req) (p : Fin 2),
    let d := s.dev
    let h := d.eth p
    let due := d.ethRuns p = true ∧ d.is Eth.MASTER_PORT_WATCH_EN p = true ∧ d.is Eth.STAT_HOLDOVER p = false ∧
      h.syncAt + d.rd Eth.PTP_CFG_SYNC_TIMEOUT p * 1000000 * nsL ≤ d.nowL
    (d.takes r.num 0x16 p = true →
      (∀ v : BitVec 64, exec (.pdPost r p v) s = .next (s.withDev (d.pdSample p v.toInt))) ∧
      exec (.pdAck r p) s = .next (s.withDev
        ((d.wr Eth.D_GOOD p (d.rd Eth.PATH_DELAY p)).wr Eth.STAT_PD_STEP_PENDING p 0))) ∧
    (∀ v : Int,
      (d.is Eth.STAT_D_GOOD_VALID p = false → d.pdSample p v =
        ((d.wrI Eth.PATH_DELAY p v).wrI Eth.D_GOOD p v).wr Eth.STAT_D_GOOD_VALID p 1) ∧
      (d.is Eth.STAT_D_GOOD_VALID p = true →
        (d.is Eth.STAT_PD_STEP_PENDING p = true → d.pdSample p v = d.wrI Eth.PATH_DELAY p v) ∧
        (d.is Eth.STAT_PD_STEP_PENDING p = false →
          (d.rd Eth.PD_STEP_LIMIT p < (v - sInt 64 (d.rd Eth.D_GOOD p)).natAbs → d.pdSample p v =
            ((d.wrI Eth.PATH_DELAY p v).wr Eth.STAT_PD_STEP_PENDING p 1).evt 0x16 p Eth.E_PD_STEP) ∧
          ((v - sInt 64 (d.rd Eth.D_GOOD p)).natAbs ≤ d.rd Eth.PD_STEP_LIMIT p → d.pdSample p v =
            (d.wrI Eth.PATH_DELAY p v).wrI Eth.D_GOOD p v)))) ∧
    ((due → exec (.masterLost p) s = .next (s.withDev ((d.wr Eth.STAT_HOLDOVER p 1).evt 0x16 p Eth.E_MASTER_LOST))) ∧
      (¬ due → exec (.masterLost p) s = .next (s.withDev d))) ∧
    exec (.pdelayLost p) s = .next (s.withDev (d.pdClose p)) ∧
    (h.reqs.all (fun x => decide (d.nowL < x.leftAt + 100000000 * nsL)) = true → d.pdClose p = d) ∧
    (∀ x, h.reqs = [x] → x.leftAt + 100000000 * nsL ≤ d.nowL → ∀ e, e = d.setEth p { h with reqs := [] } →
      (x.sample = none → d.pdClose p = e.incSat Eth.ETH_CNT_B_PDELAY_LOST_CNT p) ∧
      (∀ v, x.sample = some v → (x.srcs.length ≤ 1 → d.pdClose p = e.pdSample p v) ∧
        (1 < x.srcs.length → d.pdClose p = e))) ∧
    exec (.pdelayInterval p) s = .next (s.withDev (d.pdSend p)) ∧
    ((d.ethLive p = false ∨ d.is Eth.PTP_CFG_INIT_EN p = false ∨ d.ethLoop p = 3) → d.pdSend p = d) ∧
    (∀ f y, exec (.pdelayReq p ⟨f, y⟩) s = .next (s.withDev (d.ethRx p f true (d.rxStamp p y)))) ∧
    (∀ f y, exec (.pdelayResp p f [] y) s = .next (s.withDev (d.ethRx p f true (d.rxStamp p y)))) ∧
    ∀ f g y, g ≠ [] → ∀ e, e = d.ethRx p f true (d.rxAgo p y) →
      exec (.pdelayResp p f g y) s = .next (s.withDev (e.ethRx p g true (e.rxStamp p 0)))) ∧
  ∀ (d : Dev) (p : Fin 2), d.is LbF.INJ_CFG_INJ_EN 0 (16 + p) = false → (d.loop (16 + p)).held = none →
    let h := d.eth p
    (d.ethLive p = true → d.is Eth.PTP_CFG_INIT_EN p = true → d.ethLoop p ≠ 3 → ∀ t, t = d.pdSend p →
      (t.eth p).pdSeq = (h.pdSeq + 1) % 65536 ∧ t.sent.length = d.sent.length + 1 ∧
      (⟨h.pdSeq, d.txStamp p, d.nowL, [], none, false, none⟩ : PdReq) ∈ (t.eth p).reqs) ∧
    ∀ f : List Nat, d.ethLive p = true → d.ethLoop p ≠ 3 → 68 ≤ f.length → f.length ≤ d.rd Eth.MAX_FRAME p → crcGood f = true →
      d.tabErr 0x16 p 0xFE Eth.F_BUF_DBE ≠ 2 → d.armed 0x16 p Eth.F_BUF_DBE = false → d.armed 0x16 p Eth.F_BUF_SBE = false →
      d.is Eth.MASTER_PORT_WATCH_EN p = false →
      let g := f.take (f.length - 4)
      d.ethTakes p g = true → etherType g = 0x88F7 → d.rd Vox.VOX_CFG_VOX_ETYPE 0 ≠ 0x88F7 → be g 12 2 ≠ 0x8100 →
      ptpDomain g 14 = d.rd Eth.PTP_CFG_DOMAIN p → d.rd Eth.ETH_CFG_RX_Q p < 256 → ∀ u t, t = d.ethRx p f true u →
      (ptpType g 14 = 2 → d.is Eth.PTP_CFG_RESP_EN p = true → t.rd Eth.ETH_CNT_B_PDELAY_RESP_CNT p =
        satAdd Eth.ETH_CNT_B_PDELAY_RESP_CNT.w (d.rd Eth.ETH_CNT_B_PDELAY_RESP_CNT p) 1 % 2 ^ Eth.ETH_CNT_B_PDELAY_RESP_CNT.w) ∧
      (ptpType g 14 = 3 → (byteAt g 20).testBit 1 = false → be g 58 10 = d.portIdent p →
        ∀ x, h.reqs = [x] → x.seq = ptpSeq g 14 → x.srcs = [] → x.sample = none → d.nowL < x.leftAt + 100000000 * nsL →
        (t.eth p).reqs = [{ x with
          srcs := [ptpSrc g 14], done := true, sample := some (((u : Int) - x.t1 - ptpCorr g 14) / 2) }])

/-- Frames, links and modules of an Ethernet port: a frame is heard while the link is up (R259); with the injector at rest and no
far-end loop a bad frame is counted, a good one that nothing in the device takes goes to RX_Q (R250, R251); a transmit descriptor is
sent, after the Voxord messages that wait, or fails with status 1 (R251, R275); the link (R257, R259); the module's pins and records
(R260, R535).
Completes: ethRx, ethTx, ethLinkUp, ethLinkDown, modAbs, modAbsHigh, sfpIdDone, sfpDiag, sfpIdRead.
On points the spec leaves open this states the model's choices: assumption 38. -/
def Obligations.EthernetPorts : Prop :=
  (∀ (s : State) (r : Req) (p : Fin 2),
    let d := s.dev
    let h := d.eth p
    (∀ f g y, exec (.ethRx p ⟨f, y⟩ g) s = .next (s.withDev (d.ethRx p f g (d.rxStamp p y)))) ∧
    ((d.ethRuns p = false ∨ d.ethLinkUp p = false ∨ d.ethLooped p = true) → ∀ f g t, d.ethRx p f g t = d) ∧
    (∀ desc f, d.txHead p = none → exec (.ethTx p desc f) s = .next (s.withDev d)) ∧
    (∀ x, d.txHead p = some x → ∀ desc f,
      (desc.take 32 ≠ x.raw → exec (.ethTx p desc f) s = .next (s.withDev d)) ∧
      (desc.take 32 = x.raw → exec (.ethTx p desc f) s = .next (s.withDev (d.ethSend p x f)))) ∧
    (d.ethRuns p = true → d.ethLooped p = false → d.ethLinkUp p = false → exec (.ethLinkUp p) s = .next (s.withDev
      ((d.wr Eth.STAT_LINK_UP p 1).evt 0x16 p Eth.E_LINK_UP))) ∧
    ((d.ethRuns p = false ∨ d.ethLooped p = true ∨ d.ethLinkUp p = true) → exec (.ethLinkUp p) s = .next (s.withDev d)) ∧
    (d.ethLinkUp p = true → exec (.ethLinkDown p) s = .next (s.withDev
      ((((d.setEth p { h with reqs := h.reqs.filter (fun x => x.sample.isNone) }).wr Eth.STAT_LINK_UP p 0).wr
        Eth.STAT_D_GOOD_VALID p 0).evt 0x16 p Eth.E_LINK_DOWN))) ∧
    (d.ethLinkUp p = false → exec (.ethLinkDown p) s = .next (s.withDev d)) ∧
    (d.silent 0x16 p = true → ∀ bs los fault, ∀ c ∈ ([.modAbs p, .modAbsHigh p, .sfpIdDone p bs, .sfpDiag p bs los fault] :
      List Instr), exec c s = .next (s.withDev d)) ∧
    (d.silent 0x16 p = false →
      (d.is Eth.SFP_STAT_PRESENT p = true → exec (.modAbs p) s = .next (s.withDev d)) ∧
      (d.is Eth.SFP_STAT_PRESENT p = false → exec (.modAbsHigh p) s = .next (s.withDev d) ∧
        ∀ bs, exec (.sfpIdDone p bs) s = .next (s.withDev d)) ∧
      (d.is Eth.SFP_STAT_PRESENT p = false → ∃ t, exec (.modAbs p) s = .next t ∧ t.mem = s.mem ∧
        t.dev.is Eth.SFP_STAT_PRESENT p = true ∧ t.dev.sent = d.sent ++ [.idBus (8 + p) 96] ∧
        (t.dev.rd (Hdr.EVT 0x16) p).testBit Eth.E_ID_CHANGE = true) ∧
      (d.is Eth.SFP_STAT_PRESENT p = true → ∃ t, exec (.modAbsHigh p) s = .next t ∧ t.mem = s.mem ∧
        t.dev.is Eth.SFP_STAT_PRESENT p = false ∧ t.dev.sent = d.sent ∧
        (t.dev.rd (Hdr.EVT 0x16) p).testBit Eth.E_ID_CHANGE = true) ∧
      (d.is Eth.SFP_STAT_PRESENT p = true → ∀ bs, ∃ t, exec (.sfpIdDone p bs) s = .next t ∧ t.mem = s.mem ∧
        (t.dev.rd (Hdr.EVT 0x16) p).testBit Eth.E_ID_DONE = true ∧ (bs.length < 96 → t.dev.is Eth.SFP_STAT_ID_BAD p = true)) ∧
      (∀ bs los fault, ∃ t, exec (.sfpDiag p bs los fault) s = .next t ∧ t.mem = s.mem ∧
        t.dev.is Eth.SFP_STAT_LOS p = los ∧ t.dev.is Eth.SFP_STAT_TX_FAULT p = fault)) ∧
    (d.takes r.num 0x16 p = true →
      (d.is Eth.SFP_STAT_PRESENT p = true → exec (.sfpIdRead r p) s = .next (s.withDev (d.emit (.idBus (8 + p) 96)))) ∧
      (d.is Eth.SFP_STAT_PRESENT p = false → exec (.sfpIdRead r p) s = .next (s.withDev d)))) ∧
  ∀ (d : Dev) (p : Fin 2), d.is LbF.INJ_CFG_INJ_EN 0 (16 + p) = false → (d.loop (16 + p)).held = none →
    (d.ethLive p = true → d.ethLoop p ≠ 3 →
      (∀ f g t, (g = false ∨ f.length < 64 ∨ d.rd Eth.MAX_FRAME p < f.length ∨ crcGood f = false) →
        d.ethRx p f g t = d.incSat Eth.ETH_CNT_A_RX_ERR_CNT p) ∧
      (∀ f t, 64 ≤ f.length → f.length ≤ d.rd Eth.MAX_FRAME p → crcGood f = true →
        d.tabErr 0x16 p 0xFE Eth.F_BUF_DBE ≠ 2 → d.armed 0x16 p Eth.F_BUF_DBE = false → d.armed 0x16 p Eth.F_BUF_SBE = false →
        let g := f.take (f.length - 4)
        (d.ethTakes p g = false → d.ethRx p f true t = d) ∧
        (d.ethTakes p g = true → ptpOfs g = none → d.voxForUs g = false →
          d.ethRx p f true t = d.ethDeliver p g t ∧
          (d.qrd (64 + d.rd Eth.ETH_CFG_RX_Q p) Dq.RING_CFG_Q_EN ≠ 1 →
            d.ethRx p f true t = (d.incSat Eth.ETH_CNT_A_RX_DROP_CNT p).evt 0x16 p Eth.E_RX_DROP)))) ∧
    ∀ (x : IDesc) f, d.vox.queue = [] →
      let q := d.rd Eth.ETH_CFG_TX_Q p
      ((d.ethLoop p = 3 ∨ d.ethLinkUp p = false ∧ d.ethLooped p = false) →
        d.ethSend p x f = (d.iqPut q 1 (txBack 1 0 none)).iqGo q) ∧
      (d.ethLinkUp p = true → d.ethLoop p = 0 → bits (byteAt x.raw 1) 1 2 = 0 → d.tabErr 0x16 p 0xFE Eth.F_BUF_DBE ≠ 2 →
        d.armed 0x16 p Eth.F_BUF_DBE = false → d.armed 0x16 p Eth.F_BUF_SBE = false →
        d.ethSend p x f = ((d.freeUsed.emit (.eth p d.now (withCrc (padFrame ((f ++ zeros x.len).take x.len))) false)).iqPut q 0
          (txBack 0 x.len none)).iqGo q)

/-- Voxord: the first message of the lowest priority number leaves with the next SEQ (R275); a message without its ACK is sent
again or given up (R276); an ACK of an outstanding message ends it, another ACK goes to software; a message heard before within 100 ms
is counted, acknowledged again and discarded; a wake message of this domain for this node wakes the links; any other is acknowledged
and goes to software (R276, R277).
Completes: voxSend, voxRetry, voxAck, wakeMsg.
On points the spec leaves open this states the model's choices: assumption 40. -/
def Obligations.Voxord : Prop :=
  ∀ (s : State),
    let d := s.dev
    let v := d.vox
    exec .voxSend s = .next (s.withDev d.voxLeave) ∧
    (d.voxOn = false ∨ voxNext v.queue = none → exec .voxSend s = .next (s.withDev d)) ∧
    (d.voxOn = true → ∀ i m, voxNext v.queue = some i → v.queue[i]? = some m →
      ∃ t, exec .voxSend s = .next t ∧ t.mem = s.mem ∧ t.dev.vox.queue = v.queue.eraseIdx i ∧
        t.dev.vox.seq = (v.seq + 1) % 2 ^ 16 ∧ t.dev.rd Vox.SENT_CNT 0 = (d.rd Vox.SENT_CNT 0 + 1) % 2 ^ 32 ∧
        t.dev.vox.out = if m.ackReq && !m.group then v.out ++ [⟨v.seq, 0, m⟩] else v.out) ∧
    (∀ q, (d.voxOn = false ∨ v.out.find? (fun o => o.seq == q) = none) → exec (.voxRetry q) s = .next (s.withDev d)) ∧
    (d.voxOn = true → ∀ q o, v.out.find? (fun o => o.seq == q) = some o →
      (o.tries < d.rd Vox.VOX_RETRY_RETRIES 0 → ∃ t, exec (.voxRetry q) s = .next t ∧ t.mem = s.mem ∧
        t.dev.vox.out = v.out.filter (fun x => x.seq != q) ++ [{ o with tries := o.tries + 1 }]) ∧
      (d.rd Vox.VOX_RETRY_RETRIES 0 ≤ o.tries → exec (.voxRetry q) s = .next (s.withDev
        ((((({ d with vox := { v with out := v.out.filter (fun x => x.seq != q) } } : Dev).wr Vox.LAST_NOACK_SEQ 0 q).wr
          Vox.LAST_NOACK_DST 0 o.msg.dst).incSat Vox.VOX_CNT_B_NOACK_CNT 0).evt 0x17 0 Vox.E_NO_ACK)))) ∧
    ∀ f, exec (.voxAck f) s = .next (s.withDev (d.voxRx 3 f).1) ∧ exec (.wakeMsg f) s = .next (s.withDev (d.voxRx 3 f).1) ∧
      (d.voxForUs f = false → d.voxRx 3 f = (d, false)) ∧
      (d.voxForUs f = true →
        let h := voxHdr f
        let src := be h 6 2
        let seq := be h 8 2
        let dup := v.seen.any (fun x => x.1 == src && x.2.1 == seq && decide (d.nowL < x.2.2 + 100000000 * nsL))
        let mine := v.out.any (fun o => o.seq == be h 16 2 && o.msg.dst == src)
        (dup = true → d.voxRx 3 f = ((d.incSat Vox.VOX_CNT_B_DUP_CNT 0).voxAckTo h 3, true)) ∧
        (dup = false →
          (byteAt h 1 = 0x7E → mine = true → d.voxRx 3 f = ((({ d with vox := { v with
            out := v.out.filter (fun o => !(o.seq == be h 16 2 && o.msg.dst == src)) } } : Dev).voxSaw src seq), true)) ∧
          (byteAt h 1 = 0x7E → mine = false → d.voxRx 3 f = (d.voxSaw src seq, false)) ∧
          (byteAt h 1 = 0x10 → d.voxRx 3 f = (((d.voxSaw src seq).voxAckTo h 3).wakeEvent 1 0, true)) ∧
          (byteAt h 1 ≠ 0x7E → byteAt h 1 ≠ 0x10 → d.voxRx 3 f = ((d.voxSaw src seq).voxAckTo h 3, false))))

/-! ## Line Conditioning (R283–R306) -/

/-- An LCU reads one item: nothing while it is off or a line waits for its history sample; the idle item where there is none, an
area frame left open at port down closing there (R175, R304); an incomplete item waits; a pointer in error flushes the queue (R175). An
item is checked first (R175); a line item of a rewind pass goes to the pass (R299); any other is counted in LINES_IN, one of another
format or width in FMT_ERR_CNT, and goes on as a row of a frame or as a line (R283, R284, R304); a line without a position is excluded,
with NO_POS (R293); what waited for the history goes on (R293).
BANK_SWITCH is pending until the next line, a second one before that is refused with BAD_ACCESS (R291); MTX_COMMIT is pending
until the next line (R288).
Completes: lineItem, histWaitExpiry, bankSwitch, mtxCommit.
On points the spec leaves open this states the model's choices: assumptions 41, 42 and 43. -/
def Obligations.LineConditioning : Prop :=
  ((∀ (s : State) (p : Fin 16),
     exec (.lineItem p) s = .next (s.landed (s.dev.lcuRead p)) ∧
     exec (.histWaitExpiry p) s = .next (s.landed (s.dev.lcuRetry p true))) ∧
   ∀ (d : Dev) (p : Fin 16),
     let h := d.lcu p
     let bad := d.enabled 0x0B p = true ∧ d.armed 0x0B p Ingest.F_PTR_ERR = true
     ((d.lcuRuns p = false ∨ h.pend.isSome = true) → d.lcuRead p = d) ∧
     (d.lcuRuns p = true → h.pend = none → bad →
       ∀ e, e = ((d.disarm 0x0B p Ingest.F_PTR_ERR).flt 0x0B p Ingest.F_PTR_ERR).qFlush p →
         d.lcuRead p = e.setQueue p { e.queue p with mark := (e.queue p).wr }) ∧
     (d.lcuRuns p = true → h.pend = none → ¬ bad →
       (d.lcuItem p = none → d.is Port.STAT_LINK_UP p = true → d.lcuRead p = d.qIdle p) ∧
       (d.lcuItem p = none → d.is Port.STAT_LINK_UP p = false → d.lcuRead p = (d.frameClose p true true).1.qIdle p) ∧
       ∀ x, d.lcuItem p = some x → (x.done = false → d.lcuRead p = d) ∧ (x.done = true → d.lcuRead p = d.lcuTake p x false)) ∧
     (∀ x force c, c = d.itemCheck p x →
       (c.2 = none → d.lcuTake p x force = c.1) ∧
       (∀ y, c.2 = some y →
         (byteAt x.hdr 0 ≠ 1 → d.lcuTake p x force = c.1.lcuFrame p y force) ∧
         (byteAt x.hdr 0 = 1 →
           (∀ n, (c.1.lcu p).pass = .reread n → d.lcuTake p x force = (c.1.passLine p y).lineDone p y) ∧
           ((∀ n, (c.1.lcu p).pass ≠ .reread n) → ∀ e, e = c.1.addWrap Lcu.LINES_IN p 1 →
             e.rd Lcu.LINES_IN p = (c.1.rd Lcu.LINES_IN p + 1) % 2 ^ 32 ∧
             (e.lineOk p y = false → d.lcuTake p x force = (e.fmtErr p).lineDone p y) ∧
             (e.lineOk p y = true → e.is Lcu.LCU_CFG_AREA p = true → d.lcuTake p x force = e.lcuRow p y) ∧
             (e.lineOk p y = true → e.is Lcu.LCU_CFG_AREA p = false → d.lcuTake p x force = e.lcuLine p y))))) ∧
     (∀ l : SLine, ∀ c, c = d.lookupCheck (d.scrCh p) → ∀ e, e = (c.setLcu p { c.lcu p with tail := none }).passMark p none →
       ∀ g, g = (if l.inc = true ∧ e.is Lcu.LCU_CFG_INC_USE p = false then e.incSat Lcu.CNT_A_INC_DROP_CNT p else e) →
       ∀ u, u = (g.incSat Lcu.CNT_A_NO_POS_CNT p).evt 0x0C p Lcu.E_NO_POS →
         d.lineUse p l none = u.setLcu p { u.lcu p with excl := true }) ∧
     ∀ force, ((d.lcuRuns p = false ∨ d.is Lcu.STAT_HIST_WAIT p = false) → d.lcuRetry p force = d) ∧
       (d.lcuRuns p = true → d.is Lcu.STAT_HIST_WAIT p = true →
         (d.lcuItem p = none → d.lcuRetry p force = d) ∧
         ∀ x, d.lcuItem p = some x →
           (h.pend = none → d.lcuRetry p force = d.lcuTake p x force) ∧
           ∀ l, h.pend = some l →
             (d.lineLookup p l.tc = none → force = false → d.lcuRetry p force = d) ∧
             ((d.lineLookup p l.tc).isSome = true ∨ force = true → d.lcuRetry p force =
               (((d.setLcu p { h with pend := none }).wr Lcu.STAT_HIST_WAIT p 0).lineUse p l
                 ((d.lineLookup p l.tc).getD none)).lineDone p x))) ∧
  (∀ (s : State) (r : Req) (p : Fin 16), s.dev.takes r.num 0x0C p = true →
     (s.dev.is Lcu.STAT_BANK_PENDING p = false → exec (.bankSwitch r p) s = .next (s.withDev (s.dev.wr Lcu.STAT_BANK_PENDING p 1))) ∧
     (s.dev.is Lcu.STAT_BANK_PENDING p = true → exec (.bankSwitch r p) s = .next (s.withDev (s.dev.badAccess 0x0C p))) ∧
     exec (.mtxCommit r p) s = .next (s.withDev (s.dev.wr Lcu.STAT_MTX_PENDING p 1)))

/-! ## Intake (R310–R325, R394, R424–R427) -/

/-- A post of REL_PT beyond the ring, or behind what was posted, is refused; a good one hands over its descriptors (R424).
The records of a load: nothing without the oldest load at work; reference intake disabled refuses with 0x10 (R311); a refused
record ends the load with its status, one without room waits, a good one is taken: a segment is declared (R313–R315), a tile enters
its area (R317–R319), a profile is loaded or made invalid (R323–R325), Column Map and compare-list entries are written (R394,
R427).
Completes: intakePtrPost, segDescriptor, refTile, profile, colmap, clist.
On points the spec leaves open this states the model's choices: assumptions 52 and 53. -/
def Obligations.IntakeLoads : Prop :=
  (∀ (s : State) (r : Req) (q : Fin 64) (val : Word) (descs : List (List Nat)),
     s.dev.takes r.num (qPage (320 + q)).1 (qPage (320 + q)).2 = true →
     let h := s.dev.queue (320 + q)
     exec (.intakePtrPost r q val descs) s = .next (s.withDev (s.dev.intakePost q val.toNat descs)) ∧
     ((pdiff val.toNat h.rel < pdiff h.wr h.rel ∨ s.dev.qSize (320 + q) < pdiff val.toNat h.rel) →
       exec (.intakePtrPost r q val descs) s = .next (s.withDev (s.dev.badAccess 0x1B (32 + q / 8)))) ∧
     (pdiff h.wr h.rel ≤ pdiff val.toNat h.rel → pdiff val.toNat h.rel ≤ s.dev.qSize (320 + q) →
       s.dev.qCtx (320 + q) = (s.dev, true) →
       ∀ new, new = (List.range (pdiff val.toNat h.wr)).map (fun i =>
         ({ raw := (descs.getD i []).take 32, taken := false, fetched := 0, accepted := 0, consumed := 0, fail := 0 } : IDesc)) →
       exec (.intakePtrPost r q val descs) s = .next (s.withDev
         ((((s.dev.setIqh q { s.dev.iqh q with descs := (s.dev.iqh q).descs ++ new }).setQueue (320 + q)
           { h with wr := val.toNat % 2 ^ 32 }).qSettle (320 + q)).iqGo q)))) ∧
  ((∀ (s : State) (q : Fin 64) (rec : List Nat),
     let d := s.dev
     exec (.segDescriptor q rec) s = .next (s.landed (d.takeSeg s.mem q rec)) ∧
     exec (.refTile q rec) s = .next (s.landed (d.takeTile s.mem q rec)) ∧
     exec (.profile q rec) s = .next (s.landed (d.takeProfile q rec)) ∧
     exec (.colmap q rec) s = .next (s.withDev (d.takeColmap q rec)) ∧
     exec (.clist q rec) s = .next (s.withDev (d.takeClist q rec))) ∧
   ∀ (m : FrameStore) (d : Dev) (q : Fin 64) (rec : List Nat),
     let r := rec.take 128
     let n := le rec 4 4
     (d.headLoad q 0x50 128 = none → d.takeSeg m q rec = d) ∧
     (d.headLoad q 0x51 (64 + n) = none → d.takeTile m q rec = d) ∧
     (d.headLoad q 0x52 (64 + n) = none → d.takeProfile q rec = d) ∧
     (d.headLoad q 0x53 (16 + n) = none → d.takeColmap q rec = d) ∧
     (d.headLoad q 0x54 (16 + n) = none → d.takeClist q rec = d) ∧
     (∀ x, d.headLoad q 0x50 128 = some x →
       (d.enabled 0x0E 0 = false → d.takeSeg m q rec = d.riRefuse q 0x10) ∧
       (d.riStage = (d, 0) → x.consumed + 128 ≤ x.len →
         (d.segStatus m q r ≠ 0 → d.takeSeg m q rec = d.riRefuse q (d.segStatus m q r)) ∧
         (d.segStatus m q r = 0 → 64 ≤ ((d.track (byteAt r 2)).segs.filter (fun y => y.st.holds)).length →
           d.takeSeg m q rec = d.recordWaits q 1 Ri.RI_CNT_A_SEG_WAIT_CNT Ri.E_SEG_WAIT) ∧
         (d.segStatus m q r = 0 → ((d.track (byteAt r 2)).segs.filter (fun y => y.st.holds)).length < 64 →
           d.takeSeg m q rec = (d.segDeclare r).recordTaken q 128 1 0))) ∧
     (∀ x, d.headLoad q 0x51 (64 + n) = some x → d.riStage = (d, 0) → x.consumed + (64 + n) ≤ x.len →
       (d.tileStatus q rec ≠ 0 → d.tileStatus q rec ≠ 0x19 →
         d.takeTile m q rec = d.riRefuse q (d.tileStatus q rec)) ∧
       (d.tileStatus q rec = 0x19 → d.takeTile m q rec =
         ((d.incSat Ri.RI_CNT_B_THOKEN_ERR_CNT 0).evt 0x0E 0 Ri.E_THOKEN_ERR).riRefuse q 0x19) ∧
       (d.tileStatus q rec = 0 → ∀ p a g, (maskPorts (tileMask rec)).head? = some p → d.areaOf p = some a →
         d.liveSeg p (tileNum rec) = some g → ∀ size, size = cdiv (64 + n) 256 * 256 →
         ((d.area a).used + size ≤ d.areaBytes a →
           d.takeTile m q rec = (d.tileEnter a g rec size).recordTaken q (64 + n) 1 0) ∧
         (d.areaBytes a < (d.area a).used + size →
           (d.area a).tiles.all (fun t => t.seg == tileNum rec && t.mask == tileMask rec) = false →
           d.takeTile m q rec = d.recordWaits q 2 Ri.RI_CNT_B_SPACE_WAIT_CNT Ri.E_SPACE_WAIT) ∧
         (d.areaBytes a < (d.area a).used + size →
           (d.area a).tiles.all (fun t => t.seg == tileNum rec && t.mask == tileMask rec) = true →
           d.takeTile m q rec = d.tileNoSpace m q rec))) ∧
     (∀ x, d.headLoad q 0x52 (64 + n) = some x → d.riStage = (d, 0) → x.len = 64 + n →
       (d.profStatus q rec ≠ 0 → d.takeProfile q rec = d.riRefuse q (d.profStatus q rec)) ∧
       (d.profStatus q rec = 0 → (byteAt rec 1).testBit 0 = true → d.takeProfile q rec =
         ((((d.profDrop (byteAt rec 2)).memWrite (d.profByte (byteAt rec 2)) (rec.take profBytes)).wr Ri.PROF_VALID 0
           (d.rd Ri.PROF_VALID 0 ||| 2 ^ byteAt rec 2)).evt 0x0E 0 Ri.E_PROFILE_LOADED).recordTaken q (64 + n) 1 0) ∧
       (d.profStatus q rec = 0 → (byteAt rec 1).testBit 0 = false →
         d.takeProfile q rec = ((d.profDrop (byteAt rec 2)).wr Ri.PROF_VALID 0
           (d.rd Ri.PROF_VALID 0 &&& (2 ^ 64 - 1 - 2 ^ byteAt rec 2))).recordTaken q (64 + n) 1 0)) ∧
     (∀ x, d.headLoad q 0x53 (16 + n) = some x → d.riStage = (d, 0) → byteAt rec 0 = 0x53 → byteAt rec 1 = 1 → byteAt rec 2 < 16 →
       byteAt rec 3 = 0 → le rec 12 4 ≠ 0 → le rec 8 4 + le rec 12 4 ≤ 32768 → n = 4 * le rec 12 4 →
       x.len = 16 + n →
       (d.resPart Claims.ACT_PORTS (byteAt rec 2) ≠ d.loadPart q → d.takeColmap q rec = d.riRefuse q 0x12) ∧
       (d.resPart Claims.ACT_PORTS (byteAt rec 2) = d.loadPart q → d.takeColmap q rec =
         ((List.range (le rec 12 4)).foldl (fun (a : Dev) i => a.putTab 0x0F 63 Pl63.F_CM_SBE Pl63.F_CM_DBE 0x0F 63 0
           (32768 * byteAt rec 2 + le rec 8 4 + i) (bits (le rec (16 + 4 * i) 4) 0 23 + bitOf (le rec (16 + 4 * i) 4) 31 * 2 ^ 31))
           d).recordTaken q (16 + n) (le rec 12 4) 0)) ∧
     (∀ x, d.headLoad q 0x54 (16 + n) = some x →
       ((byteAt rec 0 ≠ 0x54 ∨ byteAt rec 1 % 2 = 0) → d.takeClist q rec = d.loadFails q 0x20) ∧
       (byteAt rec 0 = 0x54 → byteAt rec 1 % 2 = 1 → byteAt rec 1 ≠ 1 ∨ le rec 2 2 ≠ 0 → d.takeClist q rec = d.loadFails q 0x22) ∧
       (byteAt rec 0 = 0x54 → byteAt rec 1 = 1 → le rec 2 2 = 0 →
         (le rec 12 4 = 0 ∨ 131072 < le rec 8 4 + le rec 12 4 ∨ n ≠ 8 * le rec 12 4 ∨ x.len ≠ 16 + n →
           d.takeClist q rec = d.loadFails q 0x24) ∧
         (le rec 12 4 ≠ 0 → le rec 8 4 + le rec 12 4 ≤ 131072 → n = 8 * le rec 12 4 → x.len = 16 + n →
           ∀ out : Dev × Nat, out = (List.range (le rec 12 4)).foldl (fun (a : Dev × Nat) i =>
             let w := a.1.entryWrite (a.1.loadPart q) (le rec 8 4 + i) (le rec (16 + 8 * i) 8)
             if w.2 = true then (w.1, a.2 + 1) else (a.1.deny, a.2)) (d, 0) →
           d.takeClist q rec = out.1.recordTaken q (16 + n) out.2 (if out.2 = le rec 12 4 then 0 else 0x23)))) ∧
     ∀ i v,
       (∀ k, d.entryStream (d.loadPart q) i = some k →
         d.entryWrite (d.loadPart q) i v = (d.putTab 0x13 k Cs.F_CL_SBE Cs.F_CL_DBE 0x13 0 0 i v, true)) ∧
       (d.entryStream (d.loadPart q) i = none → d.entryWrite (d.loadPart q) i v = (d, false)))

/-! ## Segments and engines (R345–R403) -/

/-- A port's oldest declared segment opens at its engine once no other is in production (R376); without an engine it is cut with
reason 0x0F, on a bad grid with 0x0B, after what its engine finds at the start (R382, R345, R348); a LINE_DY fiducial with
REREAD_LINES asks for a rewind pass (R299). A segment whose end position is reached is closing, its end time noted (R377).
Completes: segmentOpen, segmentEndTime.
On points the spec leaves open this states the model's choices: assumption 44. -/
def Obligations.SegmentOpensAndEnds : Prop :=
  (∀ (s : State) (p : Fin 16),
    exec (.segmentOpen p) s = .next (s.landed (s.dev.segOpen s.mem p)) ∧
    exec (.segmentEndTime p) s = .next (s.withDev (s.dev.segEndDue p))) ∧
  ∀ (m : FrameStore) (d : Dev) (p : Fin 16),
    let segs := (d.track p).segs
    (segs.find? (fun x => x.st == .declared) = none → d.segOpen m p = d) ∧
    (∀ x, segs.find? (fun x => x.st == .declared) = some x →
      let stays := segs.any (fun x => x.running && x.wasOpen && !x.produced) = true ∨ d.lcuRuns p = false ∨ x.fixed = false ∨
        x.timed = true ∧ x.started = false
      let g := d.gridBad p x
      let ep := d.posEpoch x.ch
      (stays → d.segOpen m p = d) ∧
      (¬ stays → ∀ a, a = d.modSeg p x.num (fun z => { z with
          wasOpen := true, openEpoch := ep, openAt := d.nowL, gS := z.s, gE := z.e, rows := g.2 }) →
        (a.serveOf p = none → d.segOpen m p = a.cutSeg m p x.num (if g.1 then 0x0B else 0x0F)) ∧
        (∀ e, a.serveOf p = some e → ∀ y, y = a.engStart m e p x g.2 →
          ∀ b, b = y.1.modSeg p x.num (fun z => { z with engine := some e, eng := some y.2.1 }) →
          (∀ r, y.2.2 = some r → d.segOpen m p = b.cutSeg m p x.num r) ∧
          (y.2.2 = none → g.1 = true → d.segOpen m p = b.cutSeg m p x.num 0x0B) ∧
          (y.2.2 = none → g.1 = false →
            ∀ c, c = ((b.modSeg p x.num (fun z => { z with st := .opened })).noteEnd p x).lcuOpen p x.num x.pageId x.s g.2 ep →
            let pass := y.2.1.cfg.reread ≠ 0 ∧ y.2.1.fids.any (fun f => fidLine f.2) = true
            (¬ pass → d.segOpen m p = (c.screedTail p).showSegs p) ∧
            (pass → d.segOpen m p = ((c.passAsk p x.num y.2.1.cfg.reread).screedTail p).showSegs p))))) ∧
    (∀ f, f = (fun x : Seg => (x.st == .opened || (x.st == .declared && x.fixed && !x.timed)) && d.segReached x x.e) →
      (segs.find? f = none → d.segEndDue p = d) ∧
      ∀ x, segs.find? f = some x → d.segEndDue p = d.segEnd p x.num) ∧
    ∀ n, ∀ y ∈ ((d.segEnd p n).track p).segs, y.num = n → y.st = .closing ∧ y.endAt = some d.nowL ∧
      ∃ x ∈ segs, x.num = n ∧ y.streak = d.is Pl.STAT_STREAK_ACTIVE (x.engine.getD ((d.serveOf p).getD p)) ∧
        (x.wasOpen = true → y.gE = x.gE) ∧ (x.wasOpen = false → y.gE = x.e)

/-- Keying and the comparison of tiles: each waits for its tiles and its reference tiles, a wait being counted once (R333, R349);
Keying waits for the rewind pass of its segment too (R355); a reference tile read uncorrectable cuts the segment with reason 9
(R382); Keying then searches its fiducials, measures line positions and fits (R350–R356), and a tile is read and its row judged with
the last of its columns (R357–R367).
Completes: keying, compareTile.
On points the spec leaves open this states the model's choices: assumptions 45, 46 and 47. -/
def Obligations.EngineWork : Prop :=
  (∀ (s : State) (p : Fin 16) (e : Fin 17),
    exec (.keying p) s = .next (s.landed (s.dev.keying s.mem p)) ∧
    exec (.compareTile e) s = .next (s.landed (s.dev.compareTile s.mem e))) ∧
  ∀ (m : FrameStore) (d : Dev) (p : Fin 16) (e : Fin 17),
    (d.atWork p = none → d.keying m p = d) ∧
    (∀ k x g0 g, d.atWork p = some (k, x, g0) → g = d.begun p x g0 →
      let rows := cdiv (min g.cfg.keyRows x.rows) 256
      let tiles := x.tiles.filter (fun t => decide (t.1 < rows))
      let passOn := (d.lcu p).asks.any (fun a => a.1 == some x.num)
      let need := refNeed x g
      ((g.keyed = true ∨ tiles.length < rows * d.lcuCols p ∨ passOn = true ∨ d.engineOk k = false) → d.keying m p = d) ∧
      (g.keyed = false → rows * d.lcuCols p ≤ tiles.length → passOn = false → d.engineOk k = true →
        (d.refReady p x need = false → d.keying m p = d.refWait k p x g) ∧
        (d.refReady p x need = true → ∀ im y, im = tiles.foldl (fun (a : Dev × List TileImg) t =>
            ((a.1.tileRead m p t.1 t.2.1 t.2.2).1, a.2 ++ [(a.1.tileRead m p t.1 t.2.1 t.2.2).2])) (d, []) →
          y = im.1.refRead m p x g.prof need →
          (y.2.1 = false → d.keying m p = y.1.cutSeg m p x.num 9) ∧
          (y.2.1 = true → g.cfg.reread = 0 → ∀ found, found = g.fids.filterMap (fun f =>
              fidSearch im.2 y.2.2 g.start f.1 f.2) →
            d.keying m p = (y.1.addSat Ce.KEY_CNT_A_FID_MISS_CNT k (g.fids.length - found.length)).keyed m k p x g im.2 found
              [])))) ∧
    (∀ k x g, d.refWait k p x g = if g.waitRef then d.modEng p x.num (fun _ => g) else
      ((d.modEng p x.num (fun _ => { g with waitRef := true })).incSat Ce.CE_CNT_D_REF_WAIT_CNT k).evt 0x0D k Ce.E_REF_WAIT) ∧
    (d.workOf e = none → d.compareTile m e = d) ∧
    (∀ pt x g0 g, d.workOf e = some (pt, x, g0) → g = d.begun pt x g0 →
      (x.tiles = [] → d.compareTile m e = d) ∧
      (∀ r c q rest, x.tiles = (r, c, q) :: rest →
        ((g.keyed = false ∨ d.engineOk e = false) → d.compareTile m e = d) ∧
        (g.keyed = true → d.engineOk e = true →
          (d.refReady pt x (refNeed x g) = false → d.compareTile m e = d.refWait e pt x g) ∧
          (d.refReady pt x (refNeed x g) = true → ∀ t g2 b, t = d.tileRead m pt r c q →
            g2 = { g with waitRef := false, tiles := g.tiles ++ [t.2] } →
            b = (t.1.modSeg pt x.num (fun y => { y with tiles := rest })).modEng pt x.num (fun _ => g2) →
            (c + 1 < b.lcuCols pt → d.compareTile m e = b) ∧
            (b.lcuCols pt ≤ c + 1 → d.compareTile m e = b.rowIn m e pt { x with tiles := rest } g2 r)))))

/-- A closing segment whose rows are all judged is complete, and verdicts form in order (R379, R381); the deadline of a
segment cuts the earlier ones that are not complete with reason 3 (R381), then that segment, unless its work is complete, with reason
0x12 if it never opened, 2 if it waits for a reference tile that is still missing, 1 otherwise (R377, R380); a segment open too long
stalls with reason 4 (R378). A verdict is UNINSPECTED for too many uninspected rows, a patch or a register error not measured, else
FAIL or PASS by its checks (R383).
Completes: workComplete, deadline, stalled.
On points the spec leaves open this states the model's choices: assumptions 44 and 48. -/
def Obligations.SegmentVerdicts : Prop :=
  (∀ (s : State) (p : Fin 16),
    exec (.workComplete p) s = .next (s.landed (s.dev.workComplete s.mem p)) ∧
    exec (.deadline p) s = .next (s.landed (s.dev.deadline s.mem p)) ∧
    exec (.stalled p) s = .next (s.landed (s.dev.stalled s.mem p))) ∧
  (∀ (m : FrameStore) (d : Dev) (p : Fin 16),
    let segs := (d.track p).segs
    (segs.find? (fun x => x.done && x.st == .closing) = none → d.workComplete m p = d) ∧
    (∀ x, segs.find? (fun x => x.done && x.st == .closing) = some x → d.workComplete m p =
      (((d.finishEng m p x).modSeg p x.num (fun y => { y with st := .complete })).showSegs p).settle p) ∧
    (segs.find? d.pastDeadline = none → d.deadline m p = d) ∧
    (∀ x, segs.find? d.pastDeadline = some x →
      ∀ b, b = ((segs.takeWhile (fun y => y.num != x.num)).filter (fun y => y.st.live)).foldl (fun (a : Dev) y =>
        if y.done then a.complete m p y
        else ((a.cutSeg m p y.num 3).incSat Ce.CE_CNT_C_ORDER_CUT_CNT (y.page p)).evt 0x0D (y.page p) Ce.E_ORDER_CUT) d →
      (x.st ≠ .closing → d.deadline m p = b) ∧
      (x.st = .closing → x.done = true → d.deadline m p = b.complete m p x) ∧
      (x.st = .closing → x.done = false → x.wasOpen = false → d.deadline m p = b.cutSeg m p x.num 0x12) ∧
      (x.st = .closing → x.done = false → x.wasOpen = true → ∀ n,
        n = (if (x.eng.map (fun g => g.waitRef && !b.refReady p x (refNeed x g))).getD false then 2 else 1) →
        d.deadline m p = ((b.cutSeg m p x.num n).incSat Ce.CE_CNT_C_DEADLINE_CNT (x.page p)).evt 0x0D (x.page p)
          Ce.E_DEADLINE)) ∧
    (∀ x : Seg, (x.endAt = none → d.pastDeadline x = false) ∧
      ∀ t, x.endAt = some t →
        t + (if le x.desc 40 4 = 0 then 250000 else le x.desc 40 4) * 1000 * nsL ≤ d.nowL → d.pastDeadline x = true) ∧
    (∀ f, f = (fun x : Seg => x.st == .opened && (x.eng.map (fun g =>
        g.cfg.stall != 0 && decide (x.openAt + g.cfg.stall * 1000000 * nsL ≤ d.nowL))).getD false) →
      (segs.find? f = none → d.stalled m p = d) ∧
      (∀ x, segs.find? f = some x → d.stalled m p = (d.cutSeg m p x.num 4).evt 0x0D (x.page p) Ce.E_STALLED))) ∧
  ∀ (d : Dev) (p : Nat) (x : Seg) (g : EngSeg), x.eng = some g →
    (g.cfg.niMax < g.niRows → d.judge p x = (2, 5)) ∧
    (g.niRows ≤ g.cfg.niMax → x.check 3 = true → g.patches.any (fun t => !t.measured (d.lcuWidth p) x.rows) = true →
      d.judge p x = (2, 0x10)) ∧
    (g.niRows ≤ g.cfg.niMax → x.check 3 = false → x.check 2 = true → g.kflags.testBit 4 = false → d.judge p x = (2, 0x11)) ∧
    (g.niRows ≤ g.cfg.niMax → x.check 3 = false → x.check 2 = false →
      d.judge p x = (if d.failMask p x = 0 then (0, 0) else (1, 0))) ∧
    (x.check 0 = false → x.check 1 = false → x.check 2 = false → x.check 3 = false → d.failMask p x = 0)

/-- TAKEOVER at the spare does nothing; at an engine it is ENGINE_FAIL, and NO_SPARE where the spare cannot serve (R398); GIVE_BACK
is refused while no engine is served or the served one is not sound, and returns the pages otherwise (R399); a takeover that the spare serves sets
SERVING and SERVED_ENGINE (R398). CLEAR_ACC empties the bank in use (R402); an evaluation that ends counts a cycle and frees its bank
(R391, R403).
Completes: takeover, giveBack, clearAcc, evaluationComplete.
On points the spec leaves open this states the model's choices: assumptions 49 and 51. -/
def Obligations.SpareAndStreaks : Prop :=
  ∀ (s : State) (r : Req) (e : Fin 17),
    let d := s.dev
    (d.takes r.num 0x0D e = true →
      exec (.takeover r e) s = .next (s.landed (d.takeover s.mem e)) ∧
      (e.val = 16 → exec (.takeover r e) s = .next (s.landed d)) ∧
      (e.val ≠ 16 → ∀ f, f = d.flt 0x0D e Ce.F_ENGINE_FAIL →
        (f.is Ce.STAT_FAILED e = true → exec (.takeover r e) s = .next (s.landed f)) ∧
        (f.is Ce.STAT_FAILED e = false → ((f.wr Ce.STAT_FAILED e 1).engineOk 16 = false ∨ f.is Ce.SPARE_STAT_SERVING 16 = true) →
          exec (.takeover r e) s = .next (s.landed ((f.wr Ce.STAT_FAILED e 1).flt 0x0D e Ce.F_NO_SPARE))) ∧
        (f.is Ce.STAT_FAILED e = false → (f.wr Ce.STAT_FAILED e 1).engineOk 16 = true → f.is Ce.SPARE_STAT_SERVING 16 = false →
          ∃ t, exec (.takeover r e) s = .next t ∧ t.dev.is Ce.SPARE_STAT_SERVING 16 = true ∧
            t.dev.rd Ce.SPARE_STAT_SERVED_ENGINE 16 = e))) ∧
    (d.takes r.num 0x0D 16 = true →
      let k := d.rd Ce.SPARE_STAT_SERVED_ENGINE 16
      let flt := d.rd (Hdr.FLT 0x0D) k
      (exec (.giveBack r) s = .next (s.landed d.cmdGiveBack)) ∧
      ((d.is Ce.SPARE_STAT_SERVING 16 = false ∨ flt.testBit Ce.F_ENGINE_FAIL = true ∨ flt.testBit Ce.F_HS_WDOG = true ∨
          d.enabled 0x0D k = false) → exec (.giveBack r) s = .next (s.landed (d.badAccess 0x0D 16))) ∧
      (d.is Ce.SPARE_STAT_SERVING 16 = true → flt.testBit Ce.F_ENGINE_FAIL = false → flt.testBit Ce.F_HS_WDOG = false →
        d.enabled 0x0D k = true → exec (.giveBack r) s = .next (s.landed
          (((d.setCe 16 { d.ce 16 with giveBack := true }).wr Ce.STAT_FAILED k 0).spareCheck k)))) ∧
    (d.takes r.num 0x0F e = true →
      exec (.clearAcc r e) s = .next (s.withDev (d.setCe e ((d.ce e).plClear (d.ce e).bank))) ∧
      ∃ t, exec (.clearAcc r e) s = .next t ∧ t.mem = s.mem ∧ t.dev.regs = d.regs ∧
      ∀ ink x, ink < 8 → x < 32768 → (t.dev.ce e).plN? (d.ce e).bank ink x = 0 ∧ (t.dev.ce e).plD? (d.ce e).bank ink x = 0) ∧
    (exec (.evaluationComplete e) s = .next (s.withDev (d.plDone e))) ∧
    ((d.ce e).evalBank = none → exec (.evaluationComplete e) s = .next (s.withDev d)) ∧
    (∀ b, (d.ce e).evalBank = some b → ∃ t, exec (.evaluationComplete e) s = .next t ∧ t.mem = s.mem ∧
      (t.dev.ce e).evalBank = none ∧ t.dev.rd Pl.STAT_EVALUATING e = 0 ∧
      (t.dev.rd (Hdr.EVT 0x0F) e).testBit Pl.E_CYCLE_DONE = true)

/-! ## The frame store's stacks (R404–R407, R434, R435) and delivery (R414–R422) -/

/-- A stack trains, an injected interface error then acting (R434, R495), scrubs (R406), spares a pseudo-channel, once, a further
cause being PC_FAIL (R407), and gets hot (R435). A scrub read of an uncorrectable word poisons it, with DBE (R405).
Completes: hbmReady, scrubPass, spareNow, spareDone, hbmHot, hbmScrubRead.
On points the spec leaves open this states the model's choices: assumption 55. -/
def Obligations.Stacks : Prop :=
  (∀ (s : State) (r : Req) (k : Fin 4),
    let d := s.dev
    let h := d.hbmh k
    (d.enabled 0x18 k = true → d.silent 0x18 k = false → d.is Hbm.STAT_READY k = false →
      (d.armed 0x18 k Hbm.F_LINK_ERR = false → exec (.hbmReady k) s = .next (s.withDev (d.wr Hbm.STAT_READY k 1))) ∧
      (d.armed 0x18 k Hbm.F_LINK_ERR = true → exec (.hbmReady k) s = .next (s.withDev
        (((d.wr Hbm.STAT_READY k 1).disarm 0x18 k Hbm.F_LINK_ERR).flt 0x18 k Hbm.F_LINK_ERR)))) ∧
    ((d.enabled 0x18 k = false ∨ d.silent 0x18 k = true ∨ d.is Hbm.STAT_READY k = true) →
      exec (.hbmReady k) s = .next (s.withDev d)) ∧
    ((d.hbmRuns k = false ∨ d.is Hbm.ECC_CFG_SCRUB_EN k = false) → exec (.scrubPass k) s = .next (s.withDev d)) ∧
    (d.hbmRuns k = true → d.is Hbm.ECC_CFG_SCRUB_EN k = true → exec (.scrubPass k) s = .next (s.withDev
      (((d.addWrap Hbm.SCRUB_STAT_PASS_CNT k 1).wr Hbm.SCRUB_STAT_PROGRESS k 0).evt 0x18 k Hbm.E_SCRUB_PASS))) ∧
    (d.takes r.num 0x18 k = true → ∀ (pc : Fin 32), exec (.spareNow r k pc) s = .next (s.withDev
      ((d.wr Hbm.HBM_CMD_PC k pc).spareCause k pc))) ∧
    (h.copying = none → exec (.spareDone k) s = .next (s.withDev d)) ∧
    (∀ pc, h.copying = some pc → exec (.spareDone k) s = .next (s.withDev
      (((d.setHbmh k { h with copying := none }).evt 0x18 k Hbm.E_SPARE_DONE).spareTake k pc))) ∧
    (∀ temp, d.rd Hbm.HBM_TEMP_TEMP k < 95 → 95 ≤ temp → temp < 2 ^ Hbm.HBM_TEMP_TEMP.w → exec (.hbmHot k temp) s = .next
      (s.withDev ((d.wr Hbm.HBM_TEMP_TEMP k temp).evt 0x18 k Hbm.E_HOT))) ∧
    (∀ temp, (temp < 95 ∨ 95 ≤ d.rd Hbm.HBM_TEMP_TEMP k) → exec (.hbmHot k temp) s = .next (s.withDev
      (d.wr Hbm.HBM_TEMP_TEMP k temp))) ∧
    (∀ a, (stackOf a = k.val → (d.hbmRuns k = false ∨ d.is Hbm.ECC_CFG_SCRUB_EN k = false)) ∨ 4 ≤ stackOf a →
      stackOf a = k.val ∨ 4 ≤ stackOf a → ∀ x, exec (.hbmScrubRead a x) s = .next (s.landed d)) ∧
    (∀ a, stackOf a = k.val → d.hbmRuns k = true → d.is Hbm.ECC_CFG_SCRUB_EN k = true → ∀ f,
      f = (d.wr Hbm.SCRUB_STAT_PROGRESS k (a % stackBytes * 100 / stackBytes)).hbmFix (a / 8 * 8) 8 →
      (mget s.mem.poison (a / 8) false = true → ∀ x, exec (.hbmScrubRead a x) s = .next (s.landed (f.hbmLost (a / 8)))) ∧
      (mget s.mem.poison (a / 8) false = false →
        exec (.hbmScrubRead a .none) s = .next (s.landed f) ∧ exec (.hbmScrubRead a .single) s = .next (s.landed (f.hbmSbe a)) ∧
        (f.is Hbm.ECC_CFG_SPARE_AUTO k = false → ∃ t, exec (.hbmScrubRead a .double) s = .next t ∧
          mget t.mem.poison (a / 8) false = true ∧ (t.dev.rd (Hdr.FLT 0x18) k).testBit Hbm.F_DBE = true)))) ∧
  ∀ (d : Dev) (k : Fin 4) (pc : Fin 32),
    let h := d.hbmh k
    ((d.is Hbm.STAT_SPARED k = true ∨ h.copying.isSome = true) → d.spareCause k pc = d.flt 0x18 k Hbm.F_PC_FAIL) ∧
    (d.is Hbm.STAT_SPARED k = false → h.copying = none → d.spareCause k pc =
      (d.setHbmh k { errs := h.errs.filter (fun e => e.1 != pc.val), copying := some pc.val }).wr Hbm.STAT_COPYING k 1) ∧
    ∀ t, t = d.spareTake k pc → t.rd Hbm.STAT_SPARED k = 1 ∧ t.rd Hbm.STAT_SPARED_PC k = pc ∧ t.rd Hbm.STAT_COPYING k = 0 ∧
      (t.rd (Hdr.FLT 0x18) k).testBit Hbm.F_PC_SPARED = true ∧ t.health.spareMap = d.health.spareMap ||| 2 ^ k.val ∧
      bits t.health.sparedPc (5 * k) 5 = pc

/-- The read point goes where it is posted, a post beyond the write point is refused (R415); an item's write-back leaves when its slot
is the next in ring order, a slot without a posted descriptor is SKIPPED (R416, R418, R422).
Completes: ptrPost, writeBack.
On points the spec leaves open this states the model's choices: assumption 54. -/
def Obligations.Delivery : Prop :=
  ∀ (s : State) (r : Req) (q : Fin 256),
    let d := s.dev
    let k := 64 + q.val
    let h := d.queue k
    (d.takes r.num (qPage k).1 (qPage k).2 = true → ∀ val : Word,
      (pdiff h.wr h.rd < pdiff val.toNat h.rd → exec (.ptrPost r q val) s = .next (s.withDev (d.badAccess 0x1B (q / 8)))) ∧
      (pdiff val.toNat h.rd ≤ pdiff h.wr h.rd → ∀ f, f = d.setQueue k { h with rd := val.toNat % 2 ^ 32, cut := false } →
        ((f.qrd k Q.Q_CFG_AUTO_RELEASE ≠ 1 ∨ h.markValid = true) → exec (.ptrPost r q val) s = .next (s.withDev f)) ∧
        (f.qrd k Q.Q_CFG_AUTO_RELEASE = 1 → h.markValid = false → exec (.ptrPost r q val) s = .next (s.withDev (f.qRelease k))))) ∧
    (∀ slot desc, exec (.writeBack q slot desc) s = .next (s.landed (d.writeBack s.mem q slot desc)) ∧
      (((d.dqh q).move = [] ∨ d.deRuns = false ∨ d.qrd k Dq.RING_CFG_Q_EN ≠ 1 ∨ d.mayIssue (d.qFn k) = false ∨
          slot ≠ h.wr % d.qSize k) → exec (.writeBack q slot desc) s = .next (s.landed d)) ∧
      (∀ x rest c, (d.dqh q).move = x :: rest → d.deRuns = true → d.qrd k Dq.RING_CFG_Q_EN = 1 → d.mayIssue (d.qFn k) = true →
        slot = h.wr % d.qSize k → c = d.qCtx k →
        (c.2 = false → exec (.writeBack q slot desc) s = .next (s.landed c.1)) ∧
        (c.2 = true → descPosted desc = true → exec (.writeBack q slot desc) s = .next (s.landed
          ((c.1.setDqh q { c.1.dqh q with move := rest }).deliver s.mem k x (le desc 8 8) (le desc 16 4)))) ∧
        (c.2 = true → descPosted desc = false → exec (.writeBack q slot desc) s = .next (s.landed (c.1.skipSlot k x)))))

/-- The sampled coverage of an ink at raster coordinates in 1/256 pixel, between the four blurred pixels around (R329). -/
def Obligations.SampledCoverage : Prop :=
  ∀ (r : Ref) (k : Nat) (u v : Int),
    let b := fun (m j : Int) => (r.blur k m j : Int)
    let mu := u >>> 8
    let fu := (u >>> 4) % 16
    let mv := v >>> 8
    let fv := (v >>> 4) % 16
    (r.sample k u v : Int) = (b mu mv * (16 - fu) * (16 - fv) + b (mu + 1) mv * fu * (16 - fv) + b mu (mv + 1) * (16 - fu) * fv +
      b (mu + 1) (mv + 1) * fu * fv + 128) >>> 8

/-! ## Host links (R440–R471) -/

/-- A due vector sends its message, or shows in the PBA while masked, disabled or unable to issue, or signals by INTA where the PF
uses it, or waits for MIN_GAP (R433, R462, R463); INTX_ACK clears a PBA bit (R463). A reset of a link takes the link down, counts,
resets its functions and, as the last of its partition that is up, the partition (R464–R467); the link comes up with its speed and
width (R474); a link that goes down without PERSTn_N, or is directed into Loopback, or loses its reference, takes a hot reset (R464,
R486, R506); PERSTn_N rises and WAKEn_N is released (R470); an FLR is counted (R464).
Completes: msixMessage, intxAck, hotReset, perstFall, perstRise, pcieLinkDown, pcieLinkUp, pcieFollow, flr.
On points the spec leaves open this states the model's choices: assumptions 56 and 57. -/
def Obligations.MessagesAndLinkResets : Prop :=
  (∀ (s : State) (r : Req) (l : Fin 4) (f : Fin 16),
    let d := s.dev
    let fn := 16 * l.val + f.val
    let up := d.is Link.LINK_STAT_DL_UP l
    (∀ v, exec (.msixMessage l f v) s = .next (s.withDev (d.msix fn v))) ∧
    (d.takes r.num 0x1C l = true → ∀ v, exec (.intxAck r l v) s = .next (s.withDev
      ((d.setVec (16 * l) (v % 2048) { d.vec (16 * l) (v % 2048) with pba := false }).showIntx l))) ∧
    exec (.hotReset l) s = .next (s.landed (d.hotReset s.mem l)) ∧
    exec (.perstFall l) s = .next (s.landed (d.perstFall s.mem l)) ∧
    exec (.perstRise l) s = .next (s.withDev (d.perstRise l)) ∧
    (∀ speed width flit, exec (.pcieLinkUp l speed width flit) s = .next (s.withDev (d.pcieUp l speed width flit))) ∧
    exec (.flr l f) s = .next (s.withDev (d.flr l f)) ∧
    (up = true → exec (.pcieLinkDown l) s = exec (.hotReset l) s ∧
      exec (.pcieFollow l) s = .next (s.landed ((d.hotReset s.mem l).evt 0x1F 0 Test.E_PCIE_FOLLOW))) ∧
    (up = false → exec (.pcieLinkDown l) s = .next (s.landed d) ∧ exec (.pcieFollow l) s = .next (s.landed d))) ∧
  ∀ (m : FrameStore) (d : Dev) (l : Fin 4) (f : Fin 16),
    let fn := 16 * l.val + f.val
    let h := d.link l
    (∀ v,
      let x := d.vec fn v
      let on := d.linkExists l = true ∧ v < fnVectors fn ∧ d.silent 0x1E fn = false
      let go := d.vecDue fn v = true ∨ x.pba = true ∧ d.intxMode fn = false
      let held := x.masked = true ∨ (d.fn fn).fnMask = true ∨ (d.fn fn).msixEn = false ∨ d.mayIssue fn = false
      let y : Vec := { x with risen := false, items := 0, firstAt := 0, lastAt := some d.nowL, gapHeld := false }
      ((¬ on ∨ ¬ go) → d.msix fn v = d) ∧
      (on → go → d.vecGap fn v = false → x.gapHeld = true → d.msix fn v = d) ∧
      (on → go → d.vecGap fn v = false → x.gapHeld = false →
        d.msix fn v = (d.setVec fn v { x with gapHeld := true }).addWrap Int.GAP_HELD_CNT fn 1) ∧
      (on → go → d.vecGap fn v = true → d.intxMode fn = true →
        d.msix fn v = (d.setVec fn v { y with pba := true }).showIntx l) ∧
      (on → go → d.vecGap fn v = true → d.intxMode fn = false →
        (held → d.msix fn v = d.setVec fn v { x with pba := true }) ∧
        (¬ held → d.msix fn v = (((d.setVec fn v { y with pba := false }).addWrap Int.MSG_CNT fn 1).l1Exit l).emit
          (.msix fn v x.addr x.data (d.marks fn))))) ∧
    ((d.linkExists l = false ∨ h.perst = true ∨ d.boot.aoUp = false) → d.hotReset m l = d ∧ d.perstFall m l = d) ∧
    (d.linkExists l = true → h.perst = false → d.boot.aoUp = true →
      d.hotReset m l = (d.linkReset m l false Link.RST_CNT_HOT_CNT).evt 0x1C l Link.E_HOT_RESET ∧
      d.perstFall m l = (((d.wr Test.PLB_CFG_DEPTH 0 0 l).wr Test.PLB_STAT_ACTIVE 0 0 l).setLink l { h with
        perst := true, armed := (d.fn (16 * l)).d3 && (d.fn (16 * l)).pmeEn, waking := false }).linkReset m l
          ((d.fn (16 * l)).d3 && (d.fn (16 * l)).pmeEn) Link.RST_CNT_FUND_CNT) ∧
    ((d.linkExists l = false ∨ h.perst = false) → d.perstRise l = d) ∧
    (d.linkExists l = true → h.perst = true → ∀ t, t = d.perstRise l → (t.link l).perst = false ∧
      t.sent = d.sent ++ if h.armed && h.waking then [.wake l false] else []) ∧
    (∀ speed width flit,
      let trains := d.linkExists l = true ∧ h.perst = false ∧ d.boot.aoUp = true ∧ d.is Link.LINK_STAT_DL_UP l = false ∧
        1 ≤ speed ∧ speed ≤ 6 ∧ 1 ≤ width ∧ width ≤ d.linkLanes l ∧ d.rd Test.PLB_CFG_DEPTH 0 l = 0
      (¬ trains → d.pcieUp l speed width flit = d) ∧
      (trains → ∀ t, t = d.pcieUp l speed width flit → t.is Link.LINK_STAT_DL_UP l = true ∧
        t.rd Link.LINK_STAT_SPEED l = speed ∧ t.rd Link.LINK_STAT_WIDTH l = width ∧ t.rd Link.STAT_IN_RESET l = 0 ∧
        (t.rd (Hdr.EVT 0x1C) l).testBit Link.E_LINK_UP = true ∧ (t.link l).armed = false ∧
        (h.armed = true → h.waking = true → (t.fn (16 * l)).pmeStatus = true ∧ t.sent = d.sent ++ [.pme l]))) ∧
    ((d.fnAnswers l f = false ∨ h.perst = true) → d.flr l f = d) ∧
    (d.fnAnswers l f = true → h.perst = false → d.flr l f =
      ((if f.val = 0 then d.pfReset l else d.fnReset fn).incSat Link.RST_CNT_FLR_CNT l).evt 0x1C l Link.E_FLR)

/-- Configuration writes set the fields of a function that answers (R443, R445); a completion ends or advances its request, fails it,
or comes too late, one that is not outstanding is unexpected, or stale after a reset (R459–R461); a timeout puts the tag in quarantine
for twice its length (R459), and a tag leaves it when that is over; a window is committed, or refused with its reason (R451–R455);
L1 and its substates, L0p and ATS invalidation (R443, R471).
Completes: configWrite, completion, cplTimeout, quarantineEnd, wttCommit, commitDone, l1Entry, l0pNarrow, l0pWiden,
atsInvalidation.
On points the spec leaves open this states the model's choices: assumption 58. -/
def Obligations.RequestsAndLinkPower : Prop :=
  (∀ (s : State) (r : Req) (l : Fin 4) (f : Fin 16),
    let d := s.dev
    let fn := 16 * l.val + f.val
    let h := d.link l
    let up := d.is Link.LINK_STAT_DL_UP l
    ((up = false ∨ d.fnAnswers l f = false) → ∀ x v, exec (.configWrite l f x v) s = .next (s.withDev d)) ∧
    (up = true → d.fnAnswers l f = true → ∀ x v, exec (.configWrite l f x v) s = .next (s.withDev
      ((d.cfgWrite l f x v).cfgUsed l f))) ∧
    (up = false → ∀ tag len st, exec (.completion l tag len st) s = .next (s.landed d)) ∧
    (up = true → ∀ tag len st, exec (.completion l tag len st) s = .next (s.landed
      ((d.completion l tag len st).replayUsed s.mem l))) ∧
    (∀ tag, exec (.cplTimeout l tag) s = .next (s.withDev (d.cplTimeout l tag))) ∧
    (∀ tag, exec (.quarantineEnd l tag) s = .next (s.withDev (((d.setLink l { h with
      quar := h.quar.filter (fun x => x.1 != tag || decide (d.nowL < x.2)) }).showTags l).iqGoAll))) ∧
    (d.takes r.num 0x1D fn = true →
      (∀ w, exec (.wttCommit r l f w) s = .next (s.withDev (d.wttCmd fn (256 + w % 256)))) ∧
      (d.is Wtt.WTT_CMD_BUSY fn = true → ∀ w, exec (.wttCommit r l f w) s = .next (s.withDev (d.badAccess 0x1D fn)))) ∧
    (d.is Wtt.WTT_CMD_BUSY fn = false → exec (.commitDone l f) s = .next (s.withDev d)) ∧
    (d.is Wtt.WTT_CMD_BUSY fn = true → exec (.commitDone l f) s = .next (s.withDev
      (((d.wr Wtt.WTT_CMD_BUSY fn 0).wr Wtt.STAT_BUSY fn 0).evt 0x1D fn Wtt.E_COMMIT_DONE))) ∧
    (up = true → (d.fn (16 * l)).aspmL1 = true → h.reqs = [] → h.inL1 = false →
      ((d.fn (16 * l)).l12En = false → (d.fn (16 * l)).l11En = false → exec (.l1Entry l) s = .next (s.withDev
        ((d.setLink l { h with inL1 := true, l1Sub := 0 }).emit (.linkPower l 0)))) ∧
      ((d.fn (16 * l)).l12En = false → (d.fn (16 * l)).l11En = true → exec (.l1Entry l) s = .next (s.withDev
        (((d.setLink l { h with inL1 := true, l1Sub := 1 }).emit (.linkPower l 0)).emit (.clkreq l false)))) ∧
      ((d.fn (16 * l)).l12En = true → exec (.l1Entry l) s = .next (s.withDev
        (((d.setLink l { h with inL1 := true, l1Sub := 2 }).emit (.linkPower l 0)).emit (.clkreq l false))))) ∧
    ((up = false ∨ (d.fn (16 * l)).aspmL1 = false ∨ h.reqs ≠ [] ∨ h.inL1 = true) → exec (.l1Entry l) s = .next (s.withDev d)) ∧
    (let w := d.rd Link.LINK_STAT_ACT_WIDTH l
     (d.l0pMay l = true → 4 ≤ w → exec (.l0pNarrow l) s = .next (s.withDev (d.setWidth l (w / 2)))) ∧
     (w < 4 → exec (.l0pNarrow l) s = .next (s.withDev d)) ∧
     (d.l0pMay l = true → w < d.rd Link.LINK_STAT_WIDTH l → exec (.l0pWiden l) s = .next (s.withDev
       (d.setWidth l (d.rd Link.LINK_STAT_WIDTH l)))) ∧
     (d.rd Link.LINK_STAT_WIDTH l ≤ w → exec (.l0pWiden l) s = .next (s.withDev d)) ∧
     (d.l0pMay l = false → exec (.l0pNarrow l) s = .next (s.withDev d) ∧ exec (.l0pWiden l) s = .next (s.withDev d))) ∧
    (up = false → ∀ tag pg, exec (.atsInvalidation l tag pg) s = .next (s.withDev d)) ∧
    (up = true → ∀ tag pg, exec (.atsInvalidation l tag pg) s = .next (s.withDev
      ((d.setLink l { h with atc := h.atc.filter (fun e => e.2 != pg) }).emit (.atsDone l tag))))) ∧
  ∀ (m : FrameStore) (d : Dev) (l : Fin 4) (f : Fin 16),
    let fn := 16 * l.val + f.val
    let c := d.fn fn
    let h := d.link l
    (d.armed 0x1C l Link.F_CFG_DBE = false → d.cfgUsed l f = d) ∧
    (d.armed 0x1C l Link.F_CFG_DBE = true → ∀ e, e = (d.disarm 0x1C l Link.F_CFG_DBE).flt 0x1C l Link.F_CFG_DBE →
      (f.val = 0 → d.cfgUsed l f = e.pfReset l) ∧ (f.val ≠ 0 → d.cfgUsed l f = e.fnReset fn)) ∧
    (∀ v, d.cfgWrite l f .busMaster v = (d.setFn fn { c with bme := v % 2 == 1 }).fnResumes fn ∧
      d.cfgWrite l f .functionMask v = d.setFn fn { c with fnMask := v % 2 == 1 } ∧
      d.cfgWrite l f .msixEnable v = (d.setFn fn { c with msixEn := v % 2 == 1 }).showIntx l ∧
      d.cfgWrite l f .relaxedOrdering v = d.setFn fn { c with relaxed := v % 2 == 1 } ∧
      d.cfgWrite l f .pasidEnable v = d.setFn fn { c with pasid := v % 2 == 1 } ∧
      d.cfgWrite l f .completionTimeout v = d.setFn fn { c with cplTo := v % 16 } ∧
      (v % 4 = 3 → d.cfgWrite l f .powerState v = ((d.setFn fn { c with d3 := true }).showDstate l).fnResumes fn) ∧
      (v % 4 = 0 → d.cfgWrite l f .powerState v = ((d.setFn fn { c with d3 := false }).showDstate l).fnResumes fn) ∧
      (f.val = 0 → d.cfgWrite l f .pmeEnable v = d.setFn fn { c with pmeEn := v % 2 == 1 } ∧
        d.cfgWrite l f .maxPayload v = d.setFn fn { c with mps := min 2 (v % 8) } ∧
        d.cfgWrite l f .ecrcGenEnable v = d.setFn fn { c with ecrcGen := v % 2 == 1 } ∧
        d.cfgWrite l f .numVfs v = if c.vfEn = false then d.setFn fn { c with numVfs := min v d.boot.cfg.totalVfs } else d) ∧
      (f.val ≠ 0 → ∀ x ∈ ([.interruptDisable, .pmeEnable, .pmeStatusClear, .vfEnable, .numVfs, .maxPayload, .maxReadRequest,
        .ecrcGenEnable, .ecrcCheckEnable, .l11Enable, .l12Enable] : List CfgField), d.cfgWrite l f x v = d) ∧
      ∀ w, (w < fnVectors fn →
          d.cfgWrite l f (.msixMask w) v = d.setVec fn w { d.vec fn w with masked := v % 2 == 1 } ∧
          d.cfgWrite l f (.msixAddr w) v = d.setVec fn w { d.vec fn w with addr := v % 2 ^ 64 / 4 * 4 } ∧
          d.cfgWrite l f (.msixData w) v = d.setVec fn w { d.vec fn w with data := v % 2 ^ 32 }) ∧
        (fnVectors fn ≤ w → ∀ x ∈ ([.msixMask w, .msixAddr w, .msixData w] : List CfgField), d.cfgWrite l f x v = d)) ∧
    (∀ u, u = d.useBuf 0x1C l Link.F_REPLAY_SBE Link.F_REPLAY_DBE →
      (u.2 = false → d.replayUsed m l = u.1) ∧ (u.2 = true → d.replayUsed m l = u.1.hotReset m l)) ∧
    (∀ tag len st,
      (d.reqOf l tag = none →
        (h.stale.contains tag = true → d.completion l tag len st = d.incSat Link.STALE_CNT_STALE_CPL_CNT l) ∧
        (h.stale.contains tag = false → d.completion l tag len st = d.unexpected l)) ∧
      ∀ x, d.reqOf l tag = some x →
        (x.due ≤ d.nowL → d.completion l tag len st = (d.cplLate l x).unexpected l) ∧
        (d.nowL < x.due → st ≠ .success → d.completion l tag len st = d.cplFail l x (st == .poisoned)) ∧
        (d.nowL < x.due → x.got + len < x.len → d.completion l tag len .success =
          d.setReqs l (h.reqs.map (fun y => if y.tag = tag then { y with got := y.got + len } else y))) ∧
        (d.nowL < x.due → x.len ≤ x.got + len → d.completion l tag len .success =
          ((d.setReqs l (h.reqs.filter (fun y => y.tag != tag))).readDone x).iqGoAll)) ∧
    (∀ tag, d.reqOf l tag = none →
      d.cplTimeout l tag = (d.setLink l { h with stale := h.stale.filter (fun t => t != tag) }).showTags l) ∧
    (∀ tag x, d.reqOf l tag = some x →
      (d.nowL < x.due → d.cplTimeout l tag = d) ∧ (x.due ≤ d.nowL → d.cplTimeout l tag = d.cplLate l x)) ∧
    (∀ x, ∀ b, b = (d.setLink l { h with
        reqs := h.reqs.filter (fun y => y.tag != x.tag), quar := h.quar ++ [(x.tag, d.nowL + 2 * x.per)] }).showTags l →
      d.cplLate l x = ((((b.setFn x.fn { b.fn x.fn with aerCplTo := (b.fn x.fn).aerCplTo + 1 }).incSat
        Link.CPL_CNT_CPL_TIMEOUT_CNT l).evt 0x1C l Link.E_CPL_TIMEOUT).readFail x).iqGoAll) ∧
    (∀ w, w < 256 → d.is Wtt.WTT_CMD_BUSY fn = false → ∀ x why,
      x = (if d.tabErr 0x1D fn 1 w = 2 ∧ (d.tab 0x1D fn 1 w).testBit wttValid = true
        then d.tab 0x1D fn 1 w - 2 ^ wttValid else d.tab 0x1D fn 1 w) →
      ∀ e, e = (d.wr Wtt.WTT_CMD_WINDOW fn w).readTab 0x1D fn Wtt.F_WTT_SBE Wtt.F_WTT_DBE 0x1D fn 1 w →
      why = e.wttRefuse fn w x →
      (why ≠ 0 → d.wttCmd fn (256 + w) = (e.wr Wtt.WTT_CMD_REFUSE fn why).evt 0x1D fn Wtt.E_COMMIT_REFUSED) ∧
      (why = 0 → d.wttCmd fn (256 + w) =
        (((e.wr Wtt.WTT_CMD_REFUSE fn 0).putEntry 0x1D fn 0 w x).wr Wtt.WTT_CMD_BUSY fn 1).wr Wtt.STAT_BUSY fn 1))

/-! ## The fault collector, health and monitors (R480–R500) -/

/-- The commands of the collector and of the health page (R480, R483, R488), the alert response (R488, R497), the SMBus target
(R497): SET_ADDR with a 4-aligned offset is taken, with or without its packet error code, a READ advances it. SUMMARY_CLR acts before
the faults of its own AO cycle (R480).
Known-answer runs: one starts where it may (R489), and one that ends with both digests right only counts; a wrong engine digest,
or no end within 5 ms, fails the engine (R490).
Completes: summaryClr, replaceClr, alertClr, alertResponse, smbSetAddr, smbRead, kaNow, kaRun, kaRunDone, kaTimeout.
On points the spec leaves open this states the model's choices: assumptions 59 and 68. -/
def Obligations.HealthAndKnownAnswers : Prop :=
  (∀ (s : State) (r : Req),
     let d := s.dev
     (d.takes r.num 1 0 = true → ∀ e, e = d.clearAll [Fc.SUMMARY_FIRST_CLASS, Fc.SUMMARY_FIRST_TIE, Fc.FIRST_SRC_BIT,
         Fc.FIRST_SRC_CLASS, Fc.FIRST_SRC_INSTANCE] 0 →
       ((d.firstCycle.cls = 0 ∨ d.firstCycle.cycle ≠ d.aoCycle) → exec (.summaryClr r) s = .next (s.withDev e)) ∧
       (d.firstCycle.cls ≠ 0 → d.firstCycle.cycle = d.aoCycle →
         exec (.summaryClr r) s = .next (s.withDev (e.showFirst.evt 1 0 Fc.E_FIRST))) ∧
       e.rd Fc.SUMMARY_FIRST_CLASS 0 = 0 ∧ e.rd Fc.SUMMARY_FIRST_TIE 0 = 0 ∧ e.rd Fc.FIRST_SRC_CLASS 0 = 0) ∧
     (d.takes r.num 0 0 = true →
       (d.rd AO.DEV_HEALTH_HEALTH 0 = 0 → exec (.replaceClr r) s = .next (s.withDev d)) ∧
       (d.rd AO.DEV_HEALTH_HEALTH 0 ≠ 0 → d.anyFlt 2 = true → exec (.replaceClr r) s = .next (s.withDev (d.badAccess 0 0))) ∧
       (d.rd AO.DEV_HEALTH_HEALTH 0 = 1 → d.anyFlt 2 = false → exec (.replaceClr r) s = .next (s.withDev (d.setHealth 0))) ∧
       (1 < d.rd AO.DEV_HEALTH_HEALTH 0 → d.anyFlt 2 = false → exec (.replaceClr r) s = .next (s.withDev d)) ∧
       exec (.alertClr r) s = .next (s.withDev (d.wr AO.HEALTH_PINS_ALERT 0 0))) ∧
     (d.boot.aoUp = true → d.is AO.HEALTH_PINS_ALERT 0 = true → ∃ t, exec .alertResponse s = .next t ∧ t.mem = s.mem ∧
       t.dev.is AO.HEALTH_PINS_ALERT 0 = false ∧
       t.dev.sent = d.sent ++ [.smbus [2 * (0x5C + d.rd AO.BOOT_STAT_SMB_ADDR 0)]]) ∧
     ((d.boot.aoUp = false ∨ d.is AO.HEALTH_PINS_ALERT 0 = false) → exec .alertResponse s = .next (s.withDev d)) ∧
     (∀ bs, let good := d.boot.aoUp = true ∧ (bs.length = 3 ∨ bs.length = 4 ∧ bs.getD 3 0 = d.smbPec bs) ∧ le bs 0 3 % 4 = 0
       (good → exec (.smbSetAddr bs) s = .next (s.withDev { d with smbAddr := le bs 0 3 })) ∧
       (¬ good → exec (.smbSetAddr bs) s = .next (s.withDev d))) ∧
     (d.boot.aoUp = false → exec .smbRead s = .next (s.withDev d)) ∧
     (d.boot.aoUp = true → ∀ w, w = d.smbWord → exec .smbRead s = .next (s.withDev
       (({ w.1 with smbAddr := (w.1.smbAddr + 4) % 2 ^ 24 } : Dev).emit (.smbus (leBytes 4 w.2)))))) ∧
  (∀ (s : State) (r : Req) (e : Fin 17),
     let d := s.dev
     let h := d.ce e
     (d.takes r.num 1 0 = true → exec (.kaNow r) s = .next (s.withDev ((List.range 17).foldl (fun d e => d.kaStart e) d))) ∧
     (d.kaMay e = false → exec (.kaRun e) s = .next (s.withDev d)) ∧
     (d.is Fc.FC_CFG_KA_EN 0 = false → exec (.kaRun e) s = .next (s.withDev d)) ∧
     (∀ a b, exec (.kaRunDone e a b) s = .next (s.landed (d.kaDone s.mem e a b))) ∧
     (exec (.kaTimeout e) s = .next (s.landed (d.kaTimeout s.mem e))) ∧
     (d.is Fc.FC_CFG_KA_EN 0 = true → d.enabled 0x0D e = true → d.silent 0x0D e = false → d.wedged (48 + e) = false →
       d.kaBad = false → h.kaSince = none → exec (.kaRun e) s = .next (s.withDev
         (d.setCe e { h with kaSince := some d.nowL }))) ∧
     (h.kaSince = none → ∀ a b, exec (.kaRunDone e a b) s = .next (s.landed d) ∧ exec (.kaTimeout e) s = .next (s.landed d)) ∧
     (h.kaSince.isSome = true → d.armed 1 0 Fc.F_KA_LCU = false → d.armed 0x0D e Ce.F_ENGINE_FAIL = false →
       ∀ c, c = (d.setCe e { h with kaSince := none }).addWrap Fc.KA_RUNS 0 1 →
       exec (.kaRunDone e (Config.kaLcuDigest d.kaImage) (Config.kaEngineDigest d.kaImage)) s = .next (s.landed c) ∧
       ∀ x, x ≠ Config.kaEngineDigest d.kaImage →
         exec (.kaRunDone e (Config.kaLcuDigest d.kaImage) x) s = .next (s.landed (c.kaFailed s.mem e))) ∧
     (∀ t, h.kaSince = some t →
       (d.nowL < t + 5000000 * nsL → exec (.kaTimeout e) s = .next (s.landed d)) ∧
       (t + 5000000 * nsL ≤ d.nowL → exec (.kaTimeout e) s = .next (s.landed
         ((d.setCe e { h with kaSince := none }).kaFailed s.mem e)))))

/-- The monitors (R486, R493, R498, R544), each with its FLT bit: crystal, supplies, temperatures, clocks, PCIe references, die-to-die
transfers, lockstep pairs; a lost island clock leaves the island not powered (R51). The SRAM scrubber (R487, R492) and injection
(R495): a word with one error is written back, a locked FATAL injection does nothing, another checker is armed.
Completes: xtalLoss, aoLockstep, vmon, bridgeCrc, pcieRefLoss, tempCrit, tempHot, tempMaxRise, fabLockstep, ptClkLoss,
islClkLoss, sramScrub, fltInj.
On points the spec leaves open this states the model's choices: assumptions 20, 60 and 61. -/
def Obligations.Monitors : Prop :=
  ∀ (s : State) (r : Req),
    let d := s.dev
    (d.boot.aoUp = true →
      exec .xtalLoss s = .next (s.withDev (d.flt 1 0 Fc.F_XTAL_LOSS)) ∧
      exec .aoLockstep s = .next (s.withDev (d.flt 1 0 Fc.F_AO_LOCKSTEP)) ∧
      (d.is Nv.NV_STAT_PWR_OK 0 = true → exec .vmon s = .next (s.withDev (d.flt 1 0 Fc.F_VMON))) ∧
      (d.is Nv.NV_STAT_PWR_OK 0 = false → exec .vmon s = .next (s.withDev d)) ∧
      (∀ n, 1 ≤ n → n < 8 → exec (.bridgeCrc n) s = .next (s.withDev (d.flt 1 0 Fc.F_BRIDGE_CRC))) ∧
      (∀ n, 8 ≤ n → exec (.bridgeCrc n) s = .next (s.withDev ((d.flt 1 0 Fc.F_BRIDGE_CRC).flt 1 0 Fc.F_BRIDGE_FAIL))) ∧
      exec (.bridgeCrc 0) s = .next (s.withDev d) ∧
      (∀ p : Fin 2, exec (.pcieRefLoss p) s = .next (s.landed
        (((d.flt 1 0 (if p.val = 0 then Fc.F_PCIE_REF_LOSS0 else Fc.F_PCIE_REF_LOSS1)).hotReset s.mem p).hotReset s.mem (p + 2)))) ∧
      (∀ v, -128 ≤ v → v < d.rdI Fc.TEMP_CFG_TEMP_WARN 0 → v < 110 → v ≤ sInt 8 d.health.tempMax →
        ∀ c ∈ [Instr.tempCrit v, .tempHot v, .tempMaxRise v],
          exec c s = .next (s.withDev (d.wrI Fc.TEMP_CFG_TEMP_NOW 0 v))) ∧
      (∀ v, 110 ≤ v → v ≤ 127 → ∀ c ∈ [Instr.tempCrit v, .tempHot v, .tempMaxRise v],
        ∃ t, exec c s = .next t ∧ t.mem = s.mem ∧ (t.dev.rd (Hdr.FLT 1) 0).testBit Fc.F_TEMP_CRIT = true)) ∧
    (d.boot.aoUp = false → (∀ n v, ∀ c ∈ ([.xtalLoss, .aoLockstep, .vmon, .bridgeCrc n, .tempCrit v, .tempHot v,
        .tempMaxRise v] : List Instr), exec c s = .next (s.withDev d)) ∧
      ∀ p, exec (.pcieRefLoss p) s = .next (s.landed d)) ∧
    (∀ v, ∀ c ∈ ([.tempCrit v, .tempHot v, .tempMaxRise v] : List Instr), exec c s = .next (s.withDev (d.tempSeen v))) ∧
    (d.powered 4 = true → exec .fabLockstep s = .next (s.withDev (d.flt 1 0 Fc.F_FAB_LOCKSTEP))) ∧
    (d.powered 4 = false → exec .fabLockstep s = .next (s.withDev d)) ∧
    (d.powered 2 = true → exec .ptClkLoss s = .next (s.landed ((d.flt 1 0 Fc.F_PT_CLK_LOSS).unclock s.mem 2)) ∧
      ∃ t, exec .ptClkLoss s = .next t ∧ t.dev.powered 2 = false) ∧
    (d.powered 2 = false → exec .ptClkLoss s = .next (s.landed d)) ∧
    (∀ n, islandKnown n = true → n ≠ 0 → n ≠ 2 → d.powered n = true → exec (.islClkLoss n) s = .next (s.landed
      ((d.flt 1 0 Fc.F_ISL_CLK_LOSS).unclock s.mem n))) ∧
    (∀ n, (islandKnown n = false ∨ n = 0 ∨ n = 2 ∨ d.powered n = false) → exec (.islClkLoss n) s = .next (s.landed d)) ∧
    (∀ w e, exec (.sramScrub w e) s = .next (s.withDev (d.scrub w e))) ∧
    (∀ c i m, d.takes r.num c i = true → exec (.fltInj r c i m) s = .next (s.landed
      (d.guard (fun e => e.fltInj s.mem (canon c i).1 (canon c i).2 m.toNat)))) ∧
    (∀ w : SramWord, d.is Fc.FC_CFG_SRAM_SCRUB_EN 0 = true → d.implemented w.cls w.inst = true → canon w.cls w.inst = (w.cls, w.inst) →
      (sramPairs w.cls w.inst).contains (w.sbe, w.dbe) = true → d.silent w.cls w.inst = false →
      d.wedged (islandOf w.cls w.inst) = false → w.index < 2 ^ 24 → d.tabErr w.cls w.inst 0xFE w.dbe = 0 →
      exec (.sramScrub w .none) s = .next (s.withDev d) ∧
      exec (.sramScrub w .single) s = .next (s.withDev (d.corrected w.cls w.inst w.sbe (tabKey w.cls w.inst 0xFF w.index))) ∧
      exec (.sramScrub w .double) s = .next (s.withDev ((d.flt w.cls w.inst w.dbe).bufLost w.cls w.inst w.dbe))) ∧
    (d.is Fc.FC_CFG_SRAM_SCRUB_EN 0 = false → ∀ w e, exec (.sramScrub w e) s = .next (s.withDev d)) ∧
    (d.takes r.num 0x0B 0 = true → d.guaranteeOk = false → d.rd (Hdr.FLT_INJ 0x0B) 0 = 0 → ∃ t, exec (.fltInj r 0x0B 0 (BitVec.ofNat 32 (2 ^ Ingest.F_FIFO_DBE))) s = .next t ∧
      t.mem = s.mem ∧ t.dev.rd (Hdr.FLT_INJ 0x0B) 0 = 2 ^ Ingest.F_FIFO_DBE)

/-! ## Self-test (R501–R517) -/

/-- Loops, generators and injectors: DEPTH in effect at an enabled port (R502, R507), a PCIe loop refused on the writer's own link
(R505), INJ_EN starts the injector over (R511–R513). The quadrature generator needs both outputs (R509); the frame-store tests need
an enabled region of the tester, and end with their result (R510).
Completes: flbDepth, genEn, elDepth, plbDepth, injEn, injHoldTimeout, qgen, qgenDone, hlbStart, hbmTestDone.
On points the spec leaves open this states the model's choices: assumptions 62 and 65. -/
def Obligations.LoopsAndGenerators : Prop :=
  (∀ (s : State) (r : Req), s.dev.takes r.num 0x1F 0 = true →
    let d := s.dev
    (∀ (p : Fin 16) (n : Fin 4), exec (.flbDepth r p n) s = .next (s.withDev
      (d.flbCfgWrite p (d.flbCfg p - d.rd LbF.LB_CFG_DEPTH 0 p + n)))) ∧
    (∀ (p : Fin 16) (on : Bool), exec (.genEn r (.flegar p) on) s = .next (s.withDev
      (d.flbCfgWrite p (d.flbCfg p - 8 * d.rd LbF.LB_CFG_GEN_EN 0 p + 8 * b2n on)))) ∧
    (∀ (l n : Fin 4), exec (.plbDepth r l n) s = .next (s.landed (Dev.plbCfgWrite s.mem d r.num l
      (n + 16 * d.rd Test.PLB_CFG_PATTERN 0 l + 32 * d.rd Test.PLB_CFG_RATE 0 l)))) ∧
    (∀ (u : LoopUnit) (on : Bool), exec (.injEn r u on) s = .next (s.withDev (d.injSet u.num on))) ∧
    (∀ (k : Fin 8) (dir : Bool) (n : Nat), exec (.qgen r k dir n) s = .next (s.withDev
      (d.qgenWrite (2 ^ 31 + b2n dir * 2 ^ 30 + k * 2 ^ 27 + n % 2 ^ 16)))) ∧
    (∀ (k mode : Fin 4) (n : Fin 64), exec (.hlbStart r k mode n) s = .next (s.landed
      (d.hlbWrite k (2 ^ 31 + 4 * n + mode)))) ∧
    (∀ (p : Fin 16) (n : Fin 4) (len : Nat), d.rd LbF.LB_CFG_DEPTH 0 p = 0 → d.rd LbF.LB_CFG_GEN_EN 0 p = 0 →
      d.rd LbF.LB_CFG_GEN_KIND 0 p < 2 → d.rd LbF.LB_CFG_GEN_FMT 0 p < 4 → d.rd LbF.LB_CFG_GEN_LEN 0 p = len → 1 ≤ len → len ≤ 8192 →
      (d.rd Port.LB_CTRL_MODE p = 1 → n.val ≠ 0 → exec (.flbDepth r p n) s = .next (s.withDev (d.badAccess 0x1F 0))) ∧
      (d.rd Port.LB_CTRL_MODE p ≠ 1 → d.enabled 0x0A p = false → ∃ t, exec (.flbDepth r p n) s = .next t ∧ t.mem = s.mem ∧
        t.dev.rd LbF.LB_CFG_DEPTH 0 p = n.val ∧ t.dev.rd LbF.LB_CFG_GEN_LEN 0 p = len) ∧
      (d.rd LbF.LB_CFG_GEN_KIND 0 p = 0 → ∃ t, exec (.genEn r (.flegar p) true) s = .next t ∧ t.mem = s.mem ∧
        t.dev.rd LbF.LB_CFG_GEN_EN 0 p = 1)) ∧
    (∀ p b, exec (.genEn r (.ethernet p) b) s = .next (s.withDev d)) ∧
    (∀ (p : Fin 2) (n : Fin 4) c, c = (d.wr LbF.LB_CFG_DEPTH 0 n.val (16 + p)).setLoop (16 + p) { d.loop (16 + p) with depth := n.val } →
      (n.val = 0 ∨ n.val = 3 → exec (.elDepth r p n) s = .next (s.withDev (c.emit (.txDisable p (c.txDisable p))))) ∧
      (n.val = 1 ∨ n.val = 2 → ∀ e, e = c.ethDown p →
        exec (.elDepth r p n) s = .next (s.withDev (e.emit (.txDisable p (e.txDisable p)))))) ∧
    (∀ (l : Fin 4) (n : Fin 4), n.val ≠ 0 → n.val ≠ d.rd Test.PLB_CFG_DEPTH 0 l →
      (d.linkExists l = false ∨ r.num < 64 ∧ r.num / 16 = l.val) → d.rd Test.PLB_CFG_PATTERN 0 l < 2 →
      d.rd Test.PLB_CFG_RATE 0 l < 8 → exec (.plbDepth r l n) s = .next (s.landed (d.badAccess 0x1F 0))) ∧
    (∀ l : Fin 4, d.rd Test.PLB_CFG_PATTERN 0 l < 2 → d.rd Test.PLB_CFG_RATE 0 l < 8 → ∃ t, exec (.plbDepth r l 0) s = .next t ∧
      t.dev.rd Test.PLB_CFG_DEPTH 0 l = 0 ∧ t.dev.rd Test.PLB_STAT_ACTIVE 0 l = 0) ∧
    (∀ u : LoopUnit,
      (d.is LbF.INJ_CFG_INJ_EN 0 u.num = false → ∃ t, exec (.injEn r u true) s = .next t ∧ t.mem = s.mem ∧
        t.dev.is LbF.INJ_CFG_INJ_EN 0 u.num = true ∧ (t.dev.loop u.num).isMatch = 0 ∧
        (t.dev.loop u.num).draw = d.rd LbF.INJ_SEED_SEED 0 u.num)) ∧
    (∀ (k : Fin 8) (dir : Bool) (n : Nat), n < 2 ^ 16 →
      (d.is Test.STAT_QGEN_BUSY 0 = true → exec (.qgen r k dir n) s = .next (s.withDev (d.badAccess 0x1F 0))) ∧
      (d.is Test.STAT_QGEN_BUSY 0 = false → d.holds .tout (2 * k) 0x1F 0 = true → d.holds .tout (2 * k + 1) 0x1F 0 = true →
        ∃ t, exec (.qgen r k dir n) s = .next t ∧ t.mem = s.mem ∧ t.dev.is Test.STAT_QGEN_BUSY 0 = true ∧
          t.dev.sent = d.sent ++ [.quad k (b2n dir) n (d.rd Test.QGEN_PERIOD_PERIOD 0)] ∧
          t.dev.qgen k = ⟨b2n dir, n, d.rd Test.QGEN_PERIOD_PERIOD 0 * sampleL, d.nowL, (d.qgen k).place d.nowL⟩)) ∧
    (∀ (k mode : Fin 4) (n : Fin 64), d.is Test.HLB_CFG_START 0 k = false →
      (d.hlbMay k mode n = false → exec (.hlbStart r k mode n) s = .next (s.landed (d.evt 0x1F 0 evtENABLE_REFUSED))) ∧
      (d.hlbMay k mode n = true → ∃ t, exec (.hlbStart r k mode n) s = .next t ∧ t.dev.rd Test.HLB_CFG_START 0 k = 1 ∧
        t.dev.rd Test.HLB_CFG_MODE 0 k = mode.val ∧ t.dev.rd Test.HLB_CFG_REGION 0 k = n.val))) ∧
  ∀ (s : State),
    let d := s.dev
    (∀ (p : Fin 2), d.txDisable p = (!d.enabled 0x16 p || d.ethLooped p)) ∧
    (∀ u : LoopUnit, exec (.injHoldTimeout u) s = .next (s.withDev (d.heldOut u.num))) ∧
    (d.is Test.STAT_QGEN_BUSY 0 = true → d.qgenOver = true → exec .qgenDone s = .next (s.withDev
      (((d.wr Test.QGEN_START 0 0).wr Test.STAT_QGEN_BUSY 0 0).evt 0x1F 0 Test.E_QGEN_DONE))) ∧
    ((d.is Test.STAT_QGEN_BUSY 0 = false ∨ d.qgenOver = false) → exec .qgenDone s = .next (s.withDev d)) ∧
    (∀ (k : Fin 4) n a, exec (.hbmTestDone k n a) s = .next (s.withDev (d.hlbDone k n a))) ∧
    (∀ (k : Fin 4), d.is Test.HLB_CFG_START 0 k = false → ∀ n a, exec (.hbmTestDone k n a) s = .next (s.withDev d)) ∧
    (∀ k : Fin 4, d.is Test.HLB_CFG_START 0 k = true → ∀ a, ∃ t, exec (.hbmTestDone k 0 a) s = .next t ∧ t.mem = s.mem ∧
      t.dev.rd Test.HLB_CFG_START 0 k = 0 ∧ t.dev.rd Test.HLB_CFG_PASS 0 k = 1 ∧ t.dev.rd Test.HLB_CFG_FAIL 0 k = 0 ∧
      (t.dev.rd (Hdr.EVT 0x1F) 0).testBit Test.E_HBM_TEST_DONE = true)

/-- Memory and logic BIST are refused while busy or where an island may not be tested, and otherwise run (R514–R516); a run that ends
raises BIST_DONE. JTAG: the selected instruction, the boundary register, the identity 0x071604B5 (R517); TRST_N selects IDCODE.
Completes: mbistRun, lbistRun, bistDone, extest, extestPulse, extestTrain, samplePreload, idcode, trstN, highz, clamp,
bypass, regacc.
On points the spec leaves open this states the model's choices: assumptions 66 and 67. -/
def Obligations.SelfTestsAndJtag : Prop :=
  ∀ (s : State) (r : Req),
    let d := s.dev
    (d.takes r.num 0x20 0 = true → ∀ lg : Bool, ∀ c, c = (if lg then Instr.lbistRun r else .mbistRun r) →
      (d.is Bist.BIST_CMD_BUSY 0 = true → exec c s = .next (s.withDev (d.badAccess 0x20 0))) ∧
      (d.is Bist.BIST_CMD_BUSY 0 = false → d.bistSel.all (d.bistMay lg) = false →
        exec c s = .next (s.withDev (d.evt 0x20 0 evtENABLE_REFUSED))) ∧
      (d.is Bist.BIST_CMD_BUSY 0 = false → d.bistSel.all (d.bistMay lg) = true → ∃ t, exec c s = .next t ∧ t.mem = s.mem ∧
        t.dev.rd Bist.BIST_CMD_BUSY 0 = 1 ∧ t.dev.bist.run = some (lg, d.bistSel))) ∧
    (∀ a b n, exec (.bistDone a b n) s = .next (s.landed (d.bistDone s.mem a b n))) ∧
    (d.bist.run = none → ∀ a b n, exec (.bistDone a b n) s = .next (s.landed d)) ∧
    (∀ lg, d.bist.run = some (lg, []) → ∀ a b n, ∃ t, exec (.bistDone a b n) s = .next t ∧ t.dev.bist.run = none ∧
      t.dev.rd Bist.BIST_CMD_BUSY 0 = 0 ∧ (t.dev.rd (Hdr.EVT 0x20) 0).testBit Bist.E_BIST_DONE = true) ∧
    (∀ p : Nat, ∀ c ∈ [(Instr.extest p, 0x00), (.extestPulse p, 0x05), (.extestTrain p, 0x06)],
      exec c.1 s = .next (s.withDev (({ d with jtag := { d.jtag with ir := c.2, pins := p } } : Dev).emit (.jtag 0 p)))) ∧
    (∀ p, ∃ t, exec (.samplePreload p) s = .next t ∧ t.mem = s.mem ∧ t.dev.jtag.ir = 0x02 ∧ t.dev.jtag.pins = p ∧
      t.dev.sent.length = d.sent.length + 1) ∧
    exec .idcode s = .next (s.withDev (({ d with jtag := { d.jtag with ir := 0x01 } } : Dev).emit (.jtag 32 0x071604B5))) ∧
    exec .trstN s = .next (s.withDev { d with jtag := { d.jtag with ir := 0x01 } }) ∧
    exec .highz s = .next (s.withDev { d with jtag := { d.jtag with ir := 0x03 } }) ∧
    exec .clamp s = .next (s.withDev (({ d with jtag := { d.jtag with ir := 0x04 } } : Dev).emit (.jtag 0 d.jtag.pins))) ∧
    (∀ b, exec (.bypass b) s = .next (s.withDev
      (({ d with jtag := { d.jtag with ir := 0xFF } } : Dev).emit (.jtag 2 (2 * b2n b))))) ∧
    (d.boot.aoUp = false → ∀ x, exec (.regacc x) s = .next (s.landed
      (({ d with jtag := { d.jtag with ir := 0x80 } } : Dev).emit (.jtag 64 (bits d.jtag.result 0 32))))) ∧
    (∀ x, exec (.regacc x) s = .next (s.landed ((({ d with jtag := { d.jtag with ir := 0x80 } } : Dev).emit
      (.jtag 64 (bits d.jtag.result 0 32))).regacc s.mem x))) ∧
    (d.boot.aoUp = true → ∀ x b v, x.testBit 63 = false →
      b = ({ d with jtag := { d.jtag with ir := 0x80 } } : Dev).emit (.jtag 64 (bits d.jtag.result 0 32)) →
      v = b.addrRead 0xFE (bits x 32 24) →
      exec (.regacc x) s = .next (s.landed { v.1 with jtag := { v.1.jtag with result := v.2 } }))

/-- The NV store: an operation takes its word and data and is busy until it is done (R532); a read gives the stored word, a write
refused by a lock or without supply leaves it (R528, R534), COMMIT_LOCK locks where the strap word says so, UNLOCK needs the right
response and counts wrong ones (R534); FOM_INFO is answered to its reader (R99).
Completes: nvRead, nvWrite, commitLock, unlock, nvOpDone, unlockHoldoffEnd, fomInfoRead.
On points the spec leaves open this states the model's choices: assumptions 7 and 69. -/
def Obligations.NvStore : Prop :=
  ∀ (s : State) (r : Req),
    let d := s.dev
    (d.takes r.num 2 0 = true →
      (d.is Nv.NV_CMD_BUSY 0 = true → ∀ c ∈ [Instr.nvRead r, .nvWrite r, .commitLock r, .unlock r],
        exec c s = .next (s.withDev (d.badAccess 2 0))) ∧
      (d.is Nv.NV_CMD_BUSY 0 = false → ∀ c ∈ [(Instr.nvRead r, 1), (.nvWrite r, 2), (.commitLock r, 3), (.unlock r, 4)],
        exec c.1 s = .next (s.withDev (({ d with nvOp := some ⟨c.2, d.rd Nv.NV_ADDR_WORD 0, d.rd Nv.NV_DATA 0,
          d.rd Nv.NV_RESPONSE 0⟩ } : Dev).wr Nv.NV_CMD_BUSY 0 1)))) ∧
    (exec .nvOpDone s = .next (s.withDev d.nvDone)) ∧
    (d.nvOp = none → exec .nvOpDone s = .next (s.withDev d)) ∧
    (∀ x, d.nvOp = some x → ∃ t, exec .nvOpDone s = .next t ∧ t.mem = s.mem ∧ t.dev.nvOp = none ∧
      t.dev.rd Nv.NV_CMD_BUSY 0 = 0 ∧ (t.dev.rd (Hdr.EVT 2) 0).testBit Nv.E_OP_DONE = true ∧
      (x.op = 1 → t.dev.rd Nv.NV_DATA 0 = d.nvData x.word % 2 ^ Nv.NV_DATA.w ∧ t.dev.rd Nv.NV_CMD_REFUSE 0 = 0 ∧
        (d.nvGood x.word = true → t.dev.nv = d.nv)) ∧
      (x.op = 3 → d.nvGood 0 = true → d.lockStored = true →
        t.dev.rd Nv.NV_STAT_LOCKED 0 = 1 ∧ t.dev.rd Nv.NV_STAT_VENDOR_OPEN 0 = 0) ∧
      (x.op = 2 → d.nvMay x.word = false → t.dev.nv = d.nv ∧ t.dev.rd Nv.NV_CMD_REFUSE 0 = 1 ∧ t.dev.rd Nv.NV_CMD_ERR 0 = 1) ∧
      (x.op = 2 → d.nvMay x.word = true → d.is Nv.NV_STAT_PWR_OK 0 = false → t.dev.nv = d.nv ∧ t.dev.rd Nv.NV_CMD_REFUSE 0 = 2) ∧
      (x.op = 4 → d.nvHold = true → t.dev.rd Nv.NV_CMD_REFUSE 0 = 4 ∧ t.dev.rd Nv.NV_STAT_LOCKED 0 = d.rd Nv.NV_STAT_LOCKED 0) ∧
      (x.op = 4 → d.nvHold = false →
        Config.unlockResponse (d.rd Nv.NV_CHALLENGE 0) Config.serialNumber % 2 ^ 64 = x.resp →
        t.dev.rd Nv.NV_STAT_LOCKED 0 = 0 ∧ t.dev.rd Nv.NV_STAT_VENDOR_OPEN 0 = 1) ∧
      (x.op = 4 → d.nvHold = false →
        Config.unlockResponse (d.rd Nv.NV_CHALLENGE 0) Config.serialNumber % 2 ^ 64 ≠ x.resp →
        t.dev.nvHold = true ∧ t.dev.rd Nv.NV_CMD_REFUSE 0 = 3 ∧ (t.dev.rd (Hdr.EVT 2) 0).testBit Nv.E_UNLOCK_FAIL = true)) ∧
    exec .unlockHoldoffEnd s = .next (s.withDev { d with nvHold := false }) ∧
    (∀ l : Fin 64, d.boot.aoUp = false → exec (.fomInfoRead r l) s = .next (s.withDev d)) ∧
    (∀ l : Fin 64, d.boot.aoUp = true → d.reqLive r.num = true → d.implemented (lanePage l).1 (lanePage l).2 = true →
      d.readable r.num (lanePage l).1 (lanePage l).2 = true →
      (isVf r.num = false ∨ d.vfReaches r.num (lanePage l).1 (lanePage l).2 false = true) → d.answers (lanePage l).1 (lanePage l).2 = true →
      ∀ x, x = d.blockRead r.num (lanePage l).1 (lanePage l).2 0x54 →
      exec (.fomInfoRead r l) s = .next (s.withDev (x.1.emit (.answer r.num x.2))))

/-! ## Events and faults (R39–R42, R477–R483) -/

/-- Raising an event sets its EVT bit, keeps the bits set before, and changes nothing but registers, queues and vectors (R39–R41). A
checker's fault sets its FLT bit (R42) and, when the source is FATAL and the bit was 0, makes DEV_HEALTH 2 and drives every output to its
SAFE level (R233, R483); nothing but registers, queues, vectors and the health record changes. A bit that is set already is no new
fault; one whose FLT_EN bit is 0 sets and raises none; FLT_EN of a FATAL source reads 1 (R477, R478). While no wear counter of the NV
store is at its limit, no NV_WEAR comes on top. -/
def Obligations.EventsAndFaults : Prop :=
  ∀ (d : Dev) (c i b : Nat), b < 32 →
    (((d.evt c i b).rd (Hdr.EVT c) i).testBit b = true ∧
      (∀ n, n < 32 → (d.rd (Hdr.EVT c) i).testBit n = true → ((d.evt c i b).rd (Hdr.EVT c) i).testBit n = true) ∧
      d.evt c i b = { d with
        regs := (d.evt c i b).regs, dq := (d.evt c i b).dq, queues := (d.evt c i b).queues, vecs := (d.evt c i b).vecs }) ∧
    (∀ sev, fltSeverity c i b = some sev → ((d.flt c i b).rd (Hdr.FLT c) i).testBit b = true) ∧
    (fltSeverity c i b = some 4 → (d.rd (Hdr.FLT c) i).testBit b = false →
      (d.flt c i b).rd AO.DEV_HEALTH_HEALTH 0 = 2 ∧ ∀ m, m < 32 → (d.flt c i b).is Out.STAT_SAFE_ACTIVE m = true) ∧
    (d.worn = false → ((d.rd (Hdr.FLT c) i).testBit b = true ∨ fltSeverity c i b = none) → d.flt c i b = d) ∧
    (∀ sev, fltSeverity c i b = some sev → (d.rd (Hdr.FLT c) i).testBit b = false →
      ∀ e, e = d.wr (Hdr.FLT c) i (d.rd (Hdr.FLT c) i ||| 2 ^ b) →
      (d.worn = false → sev ≠ 4 → (d.rd (Hdr.FLT_DIS c) i).testBit b = true → d.flt c i b = e) ∧
      ((sev = 4 ∨ (d.rd (Hdr.FLT_DIS c) i).testBit b = false) → (e.react (uncanon c i).1 (uncanon c i).2 b sev).worn = false →
        d.flt c i b = e.react (uncanon c i).1 (uncanon c i).2 b sev)) ∧
    (fltSeverity c i b = some 4 → (d.fltEn c i).testBit b = true) ∧
    d.flt c i b = { d with
      regs := (d.flt c i b).regs, dq := (d.flt c i b).dq, queues := (d.flt c i b).queues, vecs := (d.flt c i b).vecs
      nv := (d.flt c i b).nv, wear := (d.flt c i b).wear, health := (d.flt c i b).health
      firstCycle := (d.flt c i b).firstCycle }
end

