-- ==== Sys2Proof/Laws/KMap.lean ====
section
/-!
SUPPORT. Laws of sparse maps: what is read after a write, and that every operation keeps the canonical form.
-/

namespace Sys2Proof.Machine

variable {α : Type}

@[simp] theorem mfind_nil (k : Nat) : mfind ([] : KMap α) k = none := rfl

@[simp] theorem mget_nil (k : Nat) (d : α) : mget ([] : KMap α) k d = d := rfl

theorem mfind_mdrop_self (m : KMap α) (k : Nat) : mfind (mdrop m k) k = none := by
  induction m with
  | nil => rfl
  | cons e m ih =>
    obtain ⟨j, v⟩ := e
    by_cases h : j = k
    · simp [mdrop, h, ih]
    · simp [mdrop, h, mfind, Ne.symm h, ih]

theorem mfind_mdrop_ne (m : KMap α) {k j : Nat} (h : j ≠ k) : mfind (mdrop m k) j = mfind m j := by
  induction m with
  | nil => rfl
  | cons e m ih =>
    obtain ⟨a, v⟩ := e
    by_cases ha : a = k
    · have : j ≠ a := ha ▸ h
      simp [mdrop, ha, mfind, h, ih]
    · by_cases hj : j = a
      · simp [mdrop, ha, mfind, hj]
      · simp [mdrop, ha, mfind, hj, ih]

theorem mfind_mins_ne (m : KMap α) {k j : Nat} (v : α) (h : j ≠ k) : mfind (mins m k v) j = mfind m j := by
  induction m with
  | nil => simp [mins, mfind, h]
  | cons e m ih =>
    obtain ⟨a, w⟩ := e
    by_cases ha : k < a
    · simp [mins, ha, mfind, h]
    · by_cases hj : j = a
      · simp [mins, ha, mfind, hj]
      · simp [mins, ha, mfind, hj, ih]

theorem mfind_mins_self (m : KMap α) (k : Nat) (v : α) (h : mfind m k = none) : mfind (mins m k v) k = some v := by
  induction m with
  | nil => simp [mins, mfind]
  | cons e m ih =>
    obtain ⟨a, w⟩ := e
    have hk : k ≠ a := by intro hk; simp [mfind, hk] at h
    have hm : mfind m k = none := by simpa [mfind, hk] using h
    by_cases ha : k < a
    · simp [mins, ha, mfind]
    · simp [mins, ha, mfind, hk, ih hm]

@[simp] theorem mfind_mput_self (m : KMap α) (k : Nat) (v : α) : mfind (mput m k v) k = some v :=
  mfind_mins_self _ _ _ (mfind_mdrop_self m k)

theorem mfind_mput_ne (m : KMap α) {k j : Nat} (v : α) (h : j ≠ k) : mfind (mput m k v) j = mfind m j := by
  rw [mput, mfind_mins_ne _ _ h, mfind_mdrop_ne _ h]

/-- A written key reads back. -/
@[simp] theorem mget_mset_self [DecidableEq α] (m : KMap α) (k : Nat) (v d : α) : mget (mset m k v d) k d = v := by
  unfold mset
  split
  · next h => simp [mget, mfind_mdrop_self, h]
  · simp [mget]

/-- Every other key reads as before. -/
theorem mget_mset_ne [DecidableEq α] (m : KMap α) {k j : Nat} (v d e : α) (h : j ≠ k) :
    mget (mset m k v d) j e = mget m j e := by
  by_cases hv : v = d
  · simp only [mset, hv, ↓reduceIte, mget, mfind_mdrop_ne _ h]
  · simp only [mset, hv, ↓reduceIte, mget, mfind_mput_ne _ _ h]

/-! ## The canonical form -/

theorem mrising_cons {e : Nat × α} {m : KMap α} : mrising (e :: m) = true ↔ mrising m = true ∧ ∀ x ∈ m, e.1 < x.1 := by
  induction m generalizing e with
  | nil => simp [mrising]
  | cons f m ih =>
    constructor
    · intro h
      simp only [mrising, Bool.and_eq_true, decide_eq_true_eq] at h
      refine ⟨h.2, fun x hx => ?_⟩
      rcases List.mem_cons.1 hx with rfl | hx
      · exact h.1
      · exact Nat.lt_trans h.1 ((ih.1 h.2).2 x hx)
    · intro h
      simp only [mrising, Bool.and_eq_true, decide_eq_true_eq]
      exact ⟨h.2 f (by simp), h.1⟩

theorem mdrop_eq_filter (m : KMap α) (k : Nat) : mdrop m k = m.filter (fun e => decide (e.1 ≠ k)) := by
  induction m with
  | nil => rfl
  | cons e m ih =>
    obtain ⟨j, v⟩ := e
    by_cases h : j = k <;> simp [mdrop, h, ih]

theorem mrising_filter (m : KMap α) (p : Nat × α → Bool) (h : mrising m = true) : mrising (m.filter p) = true := by
  induction m with
  | nil => rfl
  | cons e m ih =>
    rw [mrising_cons] at h
    by_cases hp : p e
    · rw [List.filter_cons_of_pos hp, mrising_cons]
      exact ⟨ih h.1, fun x hx => h.2 x ((List.mem_filter.1 hx).1)⟩
    · rw [List.filter_cons_of_neg hp]
      exact ih h.1

theorem mem_mins {m : KMap α} {k : Nat} {v : α} {x : Nat × α} : x ∈ mins m k v ↔ x = (k, v) ∨ x ∈ m := by
  induction m with
  | nil => simp [mins]
  | cons e m ih =>
    obtain ⟨a, w⟩ := e
    by_cases ha : k < a
    · simp [mins, ha]
    · simp only [mins, ha, ↓reduceIte, List.mem_cons, ih]
      exact or_left_comm

theorem mrising_mins (m : KMap α) (k : Nat) (v : α) (h : mrising m = true) (hk : ∀ x ∈ m, x.1 ≠ k) :
    mrising (mins m k v) = true := by
  induction m with
  | nil => rfl
  | cons e m ih =>
    obtain ⟨a, w⟩ := e
    have h' := mrising_cons.1 h
    by_cases ha : k < a
    · simp only [mins, ha, ↓reduceIte]
      rw [mrising_cons]
      refine ⟨h, fun x hx => ?_⟩
      rcases List.mem_cons.1 hx with rfl | hx
      · exact ha
      · exact Nat.lt_trans ha (h'.2 x hx)
    · simp only [mins, ha, ↓reduceIte]
      rw [mrising_cons]
      refine ⟨ih h'.1 (fun x hx => hk x (List.mem_cons_of_mem _ hx)), fun x hx => ?_⟩
      rcases mem_mins.1 hx with rfl | hx
      · have := hk (a, w) (by simp)
        simp only at this ⊢
        omega
      · exact h'.2 x hx

/-- A filter keeps the canonical form. -/
theorem mwf_filter [DecidableEq α] (m : KMap α) (d : α) (p : Nat × α → Bool) (h : mwf m d = true) :
    mwf (m.filter p) d = true := by
  simp only [mwf, Bool.and_eq_true, List.all_eq_true] at h ⊢
  exact ⟨mrising_filter m p h.1, fun x hx => h.2 x ((List.mem_filter.1 hx).1)⟩

/-- A write keeps the canonical form. -/
theorem mwf_mset [DecidableEq α] (m : KMap α) (k : Nat) (v d : α) (h : mwf m d = true) : mwf (mset m k v d) d = true := by
  have hd : mwf (mdrop m k) d = true := by rw [mdrop_eq_filter]; exact mwf_filter m d _ h
  unfold mset
  split
  · exact hd
  · next hv =>
    simp only [mwf, Bool.and_eq_true, List.all_eq_true] at hd ⊢
    refine ⟨mrising_mins _ _ _ hd.1 (fun x hx => ?_), fun x hx => ?_⟩
    · rw [mdrop_eq_filter] at hx
      simpa using (List.mem_filter.1 hx).2
    · rcases mem_mins.1 hx with rfl | hx
      · simpa using hv
      · exact hd.2 x hx

end Sys2Proof.Machine
end

