-- ==== Sys2Proof/Laws/State.lean ====
section
/-!
SUPPORT. What each named update of the device leaves alone, field by field, and what it sets.
-/

namespace Sys2Proof.Machine

/-! ### wr -/

@[simp] theorem Dev.wr_tabs (d : Dev) (f : Fld) (i v j : Nat) : (d.wr f i v j).tabs = d.tabs := rfl
@[simp] theorem Dev.wr_bad (d : Dev) (f : Fld) (i v j : Nat) : (d.wr f i v j).bad = d.bad := rfl
@[simp] theorem Dev.wr_latch (d : Dev) (f : Fld) (i v j : Nat) : (d.wr f i v j).latch = d.latch := rfl
@[simp] theorem Dev.wr_stage (d : Dev) (f : Fld) (i v j : Nat) : (d.wr f i v j).stage = d.stage := rfl
@[simp] theorem Dev.wr_frozen (d : Dev) (f : Fld) (i v j : Nat) : (d.wr f i v j).frozen = d.frozen := rfl
@[simp] theorem Dev.wr_claims (d : Dev) (f : Fld) (i v j : Nat) : (d.wr f i v j).claims = d.claims := rfl
@[simp] theorem Dev.wr_queues (d : Dev) (f : Fld) (i v j : Nat) : (d.wr f i v j).queues = d.queues := rfl
@[simp] theorem Dev.wr_dq (d : Dev) (f : Fld) (i v j : Nat) : (d.wr f i v j).dq = d.dq := rfl
@[simp] theorem Dev.wr_iq (d : Dev) (f : Fld) (i v j : Nat) : (d.wr f i v j).iq = d.iq := rfl
@[simp] theorem Dev.wr_vecs (d : Dev) (f : Fld) (i v j : Nat) : (d.wr f i v j).vecs = d.vecs := rfl
@[simp] theorem Dev.wr_fns (d : Dev) (f : Fld) (i v j : Nat) : (d.wr f i v j).fns = d.fns := rfl
@[simp] theorem Dev.wr_lanes (d : Dev) (f : Fld) (i v j : Nat) : (d.wr f i v j).lanes = d.lanes := rfl
@[simp] theorem Dev.wr_ports (d : Dev) (f : Fld) (i v j : Nat) : (d.wr f i v j).ports = d.ports := rfl
@[simp] theorem Dev.wr_ingest (d : Dev) (f : Fld) (i v j : Nat) : (d.wr f i v j).ingest = d.ingest := rfl
@[simp] theorem Dev.wr_pos (d : Dev) (f : Fld) (i v j : Nat) : (d.wr f i v j).pos = d.pos := rfl
@[simp] theorem Dev.wr_dins (d : Dev) (f : Fld) (i v j : Nat) : (d.wr f i v j).dins = d.dins := rfl
@[simp] theorem Dev.wr_gens (d : Dev) (f : Fld) (i v j : Nat) : (d.wr f i v j).gens = d.gens := rfl
@[simp] theorem Dev.wr_streams (d : Dev) (f : Fld) (i v j : Nat) : (d.wr f i v j).streams = d.streams := rfl
@[simp] theorem Dev.wr_outs (d : Dev) (f : Fld) (i v j : Nat) : (d.wr f i v j).outs = d.outs := rfl
@[simp] theorem Dev.wr_qgens (d : Dev) (f : Fld) (i v j : Nat) : (d.wr f i v j).qgens = d.qgens := rfl
@[simp] theorem Dev.wr_vox (d : Dev) (f : Fld) (i v j : Nat) : (d.wr f i v j).vox = d.vox := rfl
@[simp] theorem Dev.wr_lcus (d : Dev) (f : Fld) (i v j : Nat) : (d.wr f i v j).lcus = d.lcus := rfl
@[simp] theorem Dev.wr_areas (d : Dev) (f : Fld) (i v j : Nat) : (d.wr f i v j).areas = d.areas := rfl
@[simp] theorem Dev.wr_tracks (d : Dev) (f : Fld) (i v j : Nat) : (d.wr f i v j).tracks = d.tracks := rfl
@[simp] theorem Dev.wr_ces (d : Dev) (f : Fld) (i v j : Nat) : (d.wr f i v j).ces = d.ces := rfl
@[simp] theorem Dev.wr_hbm (d : Dev) (f : Fld) (i v j : Nat) : (d.wr f i v j).hbm = d.hbm := rfl
@[simp] theorem Dev.wr_wbuf (d : Dev) (f : Fld) (i v j : Nat) : (d.wr f i v j).wbuf = d.wbuf := rfl
@[simp] theorem Dev.wr_loops (d : Dev) (f : Fld) (i v j : Nat) : (d.wr f i v j).loops = d.loops := rfl
@[simp] theorem Dev.wr_links (d : Dev) (f : Fld) (i v j : Nat) : (d.wr f i v j).links = d.links := rfl
@[simp] theorem Dev.wr_eths (d : Dev) (f : Fld) (i v j : Nat) : (d.wr f i v j).eths = d.eths := rfl
@[simp] theorem Dev.wr_boot (d : Dev) (f : Fld) (i v j : Nat) : (d.wr f i v j).boot = d.boot := rfl
@[simp] theorem Dev.wr_nvOp (d : Dev) (f : Fld) (i v j : Nat) : (d.wr f i v j).nvOp = d.nvOp := rfl
@[simp] theorem Dev.wr_nvHold (d : Dev) (f : Fld) (i v j : Nat) : (d.wr f i v j).nvHold = d.nvHold := rfl
@[simp] theorem Dev.wr_bist (d : Dev) (f : Fld) (i v j : Nat) : (d.wr f i v j).bist = d.bist := rfl
@[simp] theorem Dev.wr_jtag (d : Dev) (f : Fld) (i v j : Nat) : (d.wr f i v j).jtag = d.jtag := rfl
@[simp] theorem Dev.wr_smbAddr (d : Dev) (f : Fld) (i v j : Nat) : (d.wr f i v j).smbAddr = d.smbAddr := rfl
@[simp] theorem Dev.wr_kaBad (d : Dev) (f : Fld) (i v j : Nat) : (d.wr f i v j).kaBad = d.kaBad := rfl
@[simp] theorem Dev.wr_sbeSeen (d : Dev) (f : Fld) (i v j : Nat) : (d.wr f i v j).sbeSeen = d.sbeSeen := rfl
@[simp] theorem Dev.wr_spareRows (d : Dev) (f : Fld) (i v j : Nat) : (d.wr f i v j).spareRows = d.spareRows := rfl
@[simp] theorem Dev.wr_nv (d : Dev) (f : Fld) (i v j : Nat) : (d.wr f i v j).nv = d.nv := rfl
@[simp] theorem Dev.wr_wear (d : Dev) (f : Fld) (i v j : Nat) : (d.wr f i v j).wear = d.wear := rfl
@[simp] theorem Dev.wr_health (d : Dev) (f : Fld) (i v j : Nat) : (d.wr f i v j).health = d.health := rfl
@[simp] theorem Dev.wr_clk (d : Dev) (f : Fld) (i v j : Nat) : (d.wr f i v j).clk = d.clk := rfl
@[simp] theorem Dev.wr_clkLost (d : Dev) (f : Fld) (i v j : Nat) : (d.wr f i v j).clkLost = d.clkLost := rfl
@[simp] theorem Dev.wr_ticks (d : Dev) (f : Fld) (i v j : Nat) : (d.wr f i v j).ticks = d.ticks := rfl
@[simp] theorem Dev.wr_taSince (d : Dev) (f : Fld) (i v j : Nat) : (d.wr f i v j).taSince = d.taSince := rfl
@[simp] theorem Dev.wr_firstCycle (d : Dev) (f : Fld) (i v j : Nat) : (d.wr f i v j).firstCycle = d.firstCycle := rfl
@[simp] theorem Dev.wr_incrDue (d : Dev) (f : Fld) (i v j : Nat) : (d.wr f i v j).incrDue = d.incrDue := rfl
@[simp] theorem Dev.wr_free (d : Dev) (f : Fld) (i v j : Nat) : (d.wr f i v j).free = d.free := rfl
@[simp] theorem Dev.wr_sent (d : Dev) (f : Fld) (i v j : Nat) : (d.wr f i v j).sent = d.sent := rfl
@[simp] theorem Dev.wr_lane (d : Dev) (f : Fld) (i v j : Nat) (m : Nat) : (d.wr f i v j).lane m = d.lane m := rfl
@[simp] theorem Dev.wr_port (d : Dev) (f : Fld) (i v j : Nat) (m : Nat) : (d.wr f i v j).port m = d.port m := rfl
@[simp] theorem Dev.wr_ing (d : Dev) (f : Fld) (i v j : Nat) (m : Nat) : (d.wr f i v j).ing m = d.ing m := rfl
@[simp] theorem Dev.wr_chan (d : Dev) (f : Fld) (i v j : Nat) (m : Nat) : (d.wr f i v j).chan m = d.chan m := rfl
@[simp] theorem Dev.wr_din (d : Dev) (f : Fld) (i v j : Nat) (m : Nat) : (d.wr f i v j).din m = d.din m := rfl
@[simp] theorem Dev.wr_gen (d : Dev) (f : Fld) (i v j : Nat) (m : Nat) : (d.wr f i v j).gen m = d.gen m := rfl
@[simp] theorem Dev.wr_stream (d : Dev) (f : Fld) (i v j : Nat) (m : Nat) : (d.wr f i v j).stream m = d.stream m := rfl
@[simp] theorem Dev.wr_outp (d : Dev) (f : Fld) (i v j : Nat) (m : Nat) : (d.wr f i v j).outp m = d.outp m := rfl
@[simp] theorem Dev.wr_queue (d : Dev) (f : Fld) (i v j : Nat) (m : Nat) : (d.wr f i v j).queue m = d.queue m := rfl
@[simp] theorem Dev.wr_dqh (d : Dev) (f : Fld) (i v j : Nat) (m : Nat) : (d.wr f i v j).dqh m = d.dqh m := rfl
@[simp] theorem Dev.wr_iqh (d : Dev) (f : Fld) (i v j : Nat) (m : Nat) : (d.wr f i v j).iqh m = d.iqh m := rfl
@[simp] theorem Dev.wr_fn (d : Dev) (f : Fld) (i v j : Nat) (m : Nat) : (d.wr f i v j).fn m = d.fn m := rfl
@[simp] theorem Dev.wr_link (d : Dev) (f : Fld) (i v j : Nat) (m : Nat) : (d.wr f i v j).link m = d.link m := rfl
@[simp] theorem Dev.wr_lcu (d : Dev) (f : Fld) (i v j : Nat) (m : Nat) : (d.wr f i v j).lcu m = d.lcu m := rfl
@[simp] theorem Dev.wr_ce (d : Dev) (f : Fld) (i v j : Nat) (m : Nat) : (d.wr f i v j).ce m = d.ce m := rfl
@[simp] theorem Dev.wr_track (d : Dev) (f : Fld) (i v j : Nat) (m : Nat) : (d.wr f i v j).track m = d.track m := rfl
@[simp] theorem Dev.wr_area (d : Dev) (f : Fld) (i v j : Nat) (m : Nat) : (d.wr f i v j).area m = d.area m := rfl
@[simp] theorem Dev.wr_hbmh (d : Dev) (f : Fld) (i v j : Nat) (m : Nat) : (d.wr f i v j).hbmh m = d.hbmh m := rfl
@[simp] theorem Dev.wr_eth (d : Dev) (f : Fld) (i v j : Nat) (m : Nat) : (d.wr f i v j).eth m = d.eth m := rfl
@[simp] theorem Dev.wr_loop (d : Dev) (f : Fld) (i v j : Nat) (m : Nat) : (d.wr f i v j).loop m = d.loop m := rfl
@[simp] theorem Dev.wr_vec (d : Dev) (f : Fld) (i v j : Nat) (m p : Nat) : (d.wr f i v j).vec m p = d.vec m p := rfl
@[simp] theorem Dev.wr_claim (d : Dev) (f : Fld) (i v j : Nat) (k : Res) (m : Nat) : (d.wr f i v j).claim k m = d.claim k m := rfl
@[simp] theorem Dev.wr_tab (d : Dev) (f : Fld) (i v j : Nat) (p q x y : Nat) : (d.wr f i v j).tab p q x y = d.tab p q x y := rfl

/-! ### emit -/

@[simp] theorem Dev.emit_regs (d : Dev) (e : Emission) : (d.emit e).regs = d.regs := rfl
@[simp] theorem Dev.emit_tabs (d : Dev) (e : Emission) : (d.emit e).tabs = d.tabs := rfl
@[simp] theorem Dev.emit_bad (d : Dev) (e : Emission) : (d.emit e).bad = d.bad := rfl
@[simp] theorem Dev.emit_latch (d : Dev) (e : Emission) : (d.emit e).latch = d.latch := rfl
@[simp] theorem Dev.emit_stage (d : Dev) (e : Emission) : (d.emit e).stage = d.stage := rfl
@[simp] theorem Dev.emit_frozen (d : Dev) (e : Emission) : (d.emit e).frozen = d.frozen := rfl
@[simp] theorem Dev.emit_claims (d : Dev) (e : Emission) : (d.emit e).claims = d.claims := rfl
@[simp] theorem Dev.emit_queues (d : Dev) (e : Emission) : (d.emit e).queues = d.queues := rfl
@[simp] theorem Dev.emit_dq (d : Dev) (e : Emission) : (d.emit e).dq = d.dq := rfl
@[simp] theorem Dev.emit_iq (d : Dev) (e : Emission) : (d.emit e).iq = d.iq := rfl
@[simp] theorem Dev.emit_vecs (d : Dev) (e : Emission) : (d.emit e).vecs = d.vecs := rfl
@[simp] theorem Dev.emit_fns (d : Dev) (e : Emission) : (d.emit e).fns = d.fns := rfl
@[simp] theorem Dev.emit_lanes (d : Dev) (e : Emission) : (d.emit e).lanes = d.lanes := rfl
@[simp] theorem Dev.emit_ports (d : Dev) (e : Emission) : (d.emit e).ports = d.ports := rfl
@[simp] theorem Dev.emit_ingest (d : Dev) (e : Emission) : (d.emit e).ingest = d.ingest := rfl
@[simp] theorem Dev.emit_pos (d : Dev) (e : Emission) : (d.emit e).pos = d.pos := rfl
@[simp] theorem Dev.emit_dins (d : Dev) (e : Emission) : (d.emit e).dins = d.dins := rfl
@[simp] theorem Dev.emit_gens (d : Dev) (e : Emission) : (d.emit e).gens = d.gens := rfl
@[simp] theorem Dev.emit_streams (d : Dev) (e : Emission) : (d.emit e).streams = d.streams := rfl
@[simp] theorem Dev.emit_outs (d : Dev) (e : Emission) : (d.emit e).outs = d.outs := rfl
@[simp] theorem Dev.emit_qgens (d : Dev) (e : Emission) : (d.emit e).qgens = d.qgens := rfl
@[simp] theorem Dev.emit_vox (d : Dev) (e : Emission) : (d.emit e).vox = d.vox := rfl
@[simp] theorem Dev.emit_lcus (d : Dev) (e : Emission) : (d.emit e).lcus = d.lcus := rfl
@[simp] theorem Dev.emit_areas (d : Dev) (e : Emission) : (d.emit e).areas = d.areas := rfl
@[simp] theorem Dev.emit_tracks (d : Dev) (e : Emission) : (d.emit e).tracks = d.tracks := rfl
@[simp] theorem Dev.emit_ces (d : Dev) (e : Emission) : (d.emit e).ces = d.ces := rfl
@[simp] theorem Dev.emit_hbm (d : Dev) (e : Emission) : (d.emit e).hbm = d.hbm := rfl
@[simp] theorem Dev.emit_wbuf (d : Dev) (e : Emission) : (d.emit e).wbuf = d.wbuf := rfl
@[simp] theorem Dev.emit_loops (d : Dev) (e : Emission) : (d.emit e).loops = d.loops := rfl
@[simp] theorem Dev.emit_links (d : Dev) (e : Emission) : (d.emit e).links = d.links := rfl
@[simp] theorem Dev.emit_eths (d : Dev) (e : Emission) : (d.emit e).eths = d.eths := rfl
@[simp] theorem Dev.emit_boot (d : Dev) (e : Emission) : (d.emit e).boot = d.boot := rfl
@[simp] theorem Dev.emit_nvOp (d : Dev) (e : Emission) : (d.emit e).nvOp = d.nvOp := rfl
@[simp] theorem Dev.emit_nvHold (d : Dev) (e : Emission) : (d.emit e).nvHold = d.nvHold := rfl
@[simp] theorem Dev.emit_bist (d : Dev) (e : Emission) : (d.emit e).bist = d.bist := rfl
@[simp] theorem Dev.emit_jtag (d : Dev) (e : Emission) : (d.emit e).jtag = d.jtag := rfl
@[simp] theorem Dev.emit_smbAddr (d : Dev) (e : Emission) : (d.emit e).smbAddr = d.smbAddr := rfl
@[simp] theorem Dev.emit_kaBad (d : Dev) (e : Emission) : (d.emit e).kaBad = d.kaBad := rfl
@[simp] theorem Dev.emit_sbeSeen (d : Dev) (e : Emission) : (d.emit e).sbeSeen = d.sbeSeen := rfl
@[simp] theorem Dev.emit_spareRows (d : Dev) (e : Emission) : (d.emit e).spareRows = d.spareRows := rfl
@[simp] theorem Dev.emit_nv (d : Dev) (e : Emission) : (d.emit e).nv = d.nv := rfl
@[simp] theorem Dev.emit_wear (d : Dev) (e : Emission) : (d.emit e).wear = d.wear := rfl
@[simp] theorem Dev.emit_health (d : Dev) (e : Emission) : (d.emit e).health = d.health := rfl
@[simp] theorem Dev.emit_clk (d : Dev) (e : Emission) : (d.emit e).clk = d.clk := rfl
@[simp] theorem Dev.emit_clkLost (d : Dev) (e : Emission) : (d.emit e).clkLost = d.clkLost := rfl
@[simp] theorem Dev.emit_ticks (d : Dev) (e : Emission) : (d.emit e).ticks = d.ticks := rfl
@[simp] theorem Dev.emit_taSince (d : Dev) (e : Emission) : (d.emit e).taSince = d.taSince := rfl
@[simp] theorem Dev.emit_firstCycle (d : Dev) (e : Emission) : (d.emit e).firstCycle = d.firstCycle := rfl
@[simp] theorem Dev.emit_incrDue (d : Dev) (e : Emission) : (d.emit e).incrDue = d.incrDue := rfl
@[simp] theorem Dev.emit_free (d : Dev) (e : Emission) : (d.emit e).free = d.free := rfl
@[simp] theorem Dev.emit_rd (d : Dev) (e : Emission) (g : Fld) (p q : Nat) : (d.emit e).rd g p q = d.rd g p q := rfl
@[simp] theorem Dev.emit_lane (d : Dev) (e : Emission) (m : Nat) : (d.emit e).lane m = d.lane m := rfl
@[simp] theorem Dev.emit_port (d : Dev) (e : Emission) (m : Nat) : (d.emit e).port m = d.port m := rfl
@[simp] theorem Dev.emit_ing (d : Dev) (e : Emission) (m : Nat) : (d.emit e).ing m = d.ing m := rfl
@[simp] theorem Dev.emit_chan (d : Dev) (e : Emission) (m : Nat) : (d.emit e).chan m = d.chan m := rfl
@[simp] theorem Dev.emit_din (d : Dev) (e : Emission) (m : Nat) : (d.emit e).din m = d.din m := rfl
@[simp] theorem Dev.emit_gen (d : Dev) (e : Emission) (m : Nat) : (d.emit e).gen m = d.gen m := rfl
@[simp] theorem Dev.emit_stream (d : Dev) (e : Emission) (m : Nat) : (d.emit e).stream m = d.stream m := rfl
@[simp] theorem Dev.emit_outp (d : Dev) (e : Emission) (m : Nat) : (d.emit e).outp m = d.outp m := rfl
@[simp] theorem Dev.emit_queue (d : Dev) (e : Emission) (m : Nat) : (d.emit e).queue m = d.queue m := rfl
@[simp] theorem Dev.emit_dqh (d : Dev) (e : Emission) (m : Nat) : (d.emit e).dqh m = d.dqh m := rfl
@[simp] theorem Dev.emit_iqh (d : Dev) (e : Emission) (m : Nat) : (d.emit e).iqh m = d.iqh m := rfl
@[simp] theorem Dev.emit_fn (d : Dev) (e : Emission) (m : Nat) : (d.emit e).fn m = d.fn m := rfl
@[simp] theorem Dev.emit_link (d : Dev) (e : Emission) (m : Nat) : (d.emit e).link m = d.link m := rfl
@[simp] theorem Dev.emit_lcu (d : Dev) (e : Emission) (m : Nat) : (d.emit e).lcu m = d.lcu m := rfl
@[simp] theorem Dev.emit_ce (d : Dev) (e : Emission) (m : Nat) : (d.emit e).ce m = d.ce m := rfl
@[simp] theorem Dev.emit_track (d : Dev) (e : Emission) (m : Nat) : (d.emit e).track m = d.track m := rfl
@[simp] theorem Dev.emit_area (d : Dev) (e : Emission) (m : Nat) : (d.emit e).area m = d.area m := rfl
@[simp] theorem Dev.emit_hbmh (d : Dev) (e : Emission) (m : Nat) : (d.emit e).hbmh m = d.hbmh m := rfl
@[simp] theorem Dev.emit_eth (d : Dev) (e : Emission) (m : Nat) : (d.emit e).eth m = d.eth m := rfl
@[simp] theorem Dev.emit_loop (d : Dev) (e : Emission) (m : Nat) : (d.emit e).loop m = d.loop m := rfl
@[simp] theorem Dev.emit_vec (d : Dev) (e : Emission) (m p : Nat) : (d.emit e).vec m p = d.vec m p := rfl
@[simp] theorem Dev.emit_claim (d : Dev) (e : Emission) (k : Res) (m : Nat) : (d.emit e).claim k m = d.claim k m := rfl
@[simp] theorem Dev.emit_tab (d : Dev) (e : Emission) (p q x y : Nat) : (d.emit e).tab p q x y = d.tab p q x y := rfl

/-! ### freeUsed -/

@[simp] theorem Dev.freeUsed_regs (d : Dev) : (d.freeUsed).regs = d.regs := rfl
@[simp] theorem Dev.freeUsed_tabs (d : Dev) : (d.freeUsed).tabs = d.tabs := rfl
@[simp] theorem Dev.freeUsed_bad (d : Dev) : (d.freeUsed).bad = d.bad := rfl
@[simp] theorem Dev.freeUsed_latch (d : Dev) : (d.freeUsed).latch = d.latch := rfl
@[simp] theorem Dev.freeUsed_stage (d : Dev) : (d.freeUsed).stage = d.stage := rfl
@[simp] theorem Dev.freeUsed_frozen (d : Dev) : (d.freeUsed).frozen = d.frozen := rfl
@[simp] theorem Dev.freeUsed_claims (d : Dev) : (d.freeUsed).claims = d.claims := rfl
@[simp] theorem Dev.freeUsed_queues (d : Dev) : (d.freeUsed).queues = d.queues := rfl
@[simp] theorem Dev.freeUsed_dq (d : Dev) : (d.freeUsed).dq = d.dq := rfl
@[simp] theorem Dev.freeUsed_iq (d : Dev) : (d.freeUsed).iq = d.iq := rfl
@[simp] theorem Dev.freeUsed_vecs (d : Dev) : (d.freeUsed).vecs = d.vecs := rfl
@[simp] theorem Dev.freeUsed_fns (d : Dev) : (d.freeUsed).fns = d.fns := rfl
@[simp] theorem Dev.freeUsed_lanes (d : Dev) : (d.freeUsed).lanes = d.lanes := rfl
@[simp] theorem Dev.freeUsed_ports (d : Dev) : (d.freeUsed).ports = d.ports := rfl
@[simp] theorem Dev.freeUsed_ingest (d : Dev) : (d.freeUsed).ingest = d.ingest := rfl
@[simp] theorem Dev.freeUsed_pos (d : Dev) : (d.freeUsed).pos = d.pos := rfl
@[simp] theorem Dev.freeUsed_dins (d : Dev) : (d.freeUsed).dins = d.dins := rfl
@[simp] theorem Dev.freeUsed_gens (d : Dev) : (d.freeUsed).gens = d.gens := rfl
@[simp] theorem Dev.freeUsed_streams (d : Dev) : (d.freeUsed).streams = d.streams := rfl
@[simp] theorem Dev.freeUsed_outs (d : Dev) : (d.freeUsed).outs = d.outs := rfl
@[simp] theorem Dev.freeUsed_qgens (d : Dev) : (d.freeUsed).qgens = d.qgens := rfl
@[simp] theorem Dev.freeUsed_vox (d : Dev) : (d.freeUsed).vox = d.vox := rfl
@[simp] theorem Dev.freeUsed_lcus (d : Dev) : (d.freeUsed).lcus = d.lcus := rfl
@[simp] theorem Dev.freeUsed_areas (d : Dev) : (d.freeUsed).areas = d.areas := rfl
@[simp] theorem Dev.freeUsed_tracks (d : Dev) : (d.freeUsed).tracks = d.tracks := rfl
@[simp] theorem Dev.freeUsed_ces (d : Dev) : (d.freeUsed).ces = d.ces := rfl
@[simp] theorem Dev.freeUsed_hbm (d : Dev) : (d.freeUsed).hbm = d.hbm := rfl
@[simp] theorem Dev.freeUsed_wbuf (d : Dev) : (d.freeUsed).wbuf = d.wbuf := rfl
@[simp] theorem Dev.freeUsed_loops (d : Dev) : (d.freeUsed).loops = d.loops := rfl
@[simp] theorem Dev.freeUsed_links (d : Dev) : (d.freeUsed).links = d.links := rfl
@[simp] theorem Dev.freeUsed_eths (d : Dev) : (d.freeUsed).eths = d.eths := rfl
@[simp] theorem Dev.freeUsed_boot (d : Dev) : (d.freeUsed).boot = d.boot := rfl
@[simp] theorem Dev.freeUsed_nvOp (d : Dev) : (d.freeUsed).nvOp = d.nvOp := rfl
@[simp] theorem Dev.freeUsed_nvHold (d : Dev) : (d.freeUsed).nvHold = d.nvHold := rfl
@[simp] theorem Dev.freeUsed_bist (d : Dev) : (d.freeUsed).bist = d.bist := rfl
@[simp] theorem Dev.freeUsed_jtag (d : Dev) : (d.freeUsed).jtag = d.jtag := rfl
@[simp] theorem Dev.freeUsed_smbAddr (d : Dev) : (d.freeUsed).smbAddr = d.smbAddr := rfl
@[simp] theorem Dev.freeUsed_kaBad (d : Dev) : (d.freeUsed).kaBad = d.kaBad := rfl
@[simp] theorem Dev.freeUsed_sbeSeen (d : Dev) : (d.freeUsed).sbeSeen = d.sbeSeen := rfl
@[simp] theorem Dev.freeUsed_spareRows (d : Dev) : (d.freeUsed).spareRows = d.spareRows := rfl
@[simp] theorem Dev.freeUsed_nv (d : Dev) : (d.freeUsed).nv = d.nv := rfl
@[simp] theorem Dev.freeUsed_wear (d : Dev) : (d.freeUsed).wear = d.wear := rfl
@[simp] theorem Dev.freeUsed_health (d : Dev) : (d.freeUsed).health = d.health := rfl
@[simp] theorem Dev.freeUsed_clk (d : Dev) : (d.freeUsed).clk = d.clk := rfl
@[simp] theorem Dev.freeUsed_clkLost (d : Dev) : (d.freeUsed).clkLost = d.clkLost := rfl
@[simp] theorem Dev.freeUsed_ticks (d : Dev) : (d.freeUsed).ticks = d.ticks := rfl
@[simp] theorem Dev.freeUsed_taSince (d : Dev) : (d.freeUsed).taSince = d.taSince := rfl
@[simp] theorem Dev.freeUsed_firstCycle (d : Dev) : (d.freeUsed).firstCycle = d.firstCycle := rfl
@[simp] theorem Dev.freeUsed_incrDue (d : Dev) : (d.freeUsed).incrDue = d.incrDue := rfl
@[simp] theorem Dev.freeUsed_sent (d : Dev) : (d.freeUsed).sent = d.sent := rfl
@[simp] theorem Dev.freeUsed_rd (d : Dev) (g : Fld) (p q : Nat) : (d.freeUsed).rd g p q = d.rd g p q := rfl
@[simp] theorem Dev.freeUsed_lane (d : Dev) (m : Nat) : (d.freeUsed).lane m = d.lane m := rfl
@[simp] theorem Dev.freeUsed_port (d : Dev) (m : Nat) : (d.freeUsed).port m = d.port m := rfl
@[simp] theorem Dev.freeUsed_ing (d : Dev) (m : Nat) : (d.freeUsed).ing m = d.ing m := rfl
@[simp] theorem Dev.freeUsed_chan (d : Dev) (m : Nat) : (d.freeUsed).chan m = d.chan m := rfl
@[simp] theorem Dev.freeUsed_din (d : Dev) (m : Nat) : (d.freeUsed).din m = d.din m := rfl
@[simp] theorem Dev.freeUsed_gen (d : Dev) (m : Nat) : (d.freeUsed).gen m = d.gen m := rfl
@[simp] theorem Dev.freeUsed_stream (d : Dev) (m : Nat) : (d.freeUsed).stream m = d.stream m := rfl
@[simp] theorem Dev.freeUsed_outp (d : Dev) (m : Nat) : (d.freeUsed).outp m = d.outp m := rfl
@[simp] theorem Dev.freeUsed_queue (d : Dev) (m : Nat) : (d.freeUsed).queue m = d.queue m := rfl
@[simp] theorem Dev.freeUsed_dqh (d : Dev) (m : Nat) : (d.freeUsed).dqh m = d.dqh m := rfl
@[simp] theorem Dev.freeUsed_iqh (d : Dev) (m : Nat) : (d.freeUsed).iqh m = d.iqh m := rfl
@[simp] theorem Dev.freeUsed_fn (d : Dev) (m : Nat) : (d.freeUsed).fn m = d.fn m := rfl
@[simp] theorem Dev.freeUsed_link (d : Dev) (m : Nat) : (d.freeUsed).link m = d.link m := rfl
@[simp] theorem Dev.freeUsed_lcu (d : Dev) (m : Nat) : (d.freeUsed).lcu m = d.lcu m := rfl
@[simp] theorem Dev.freeUsed_ce (d : Dev) (m : Nat) : (d.freeUsed).ce m = d.ce m := rfl
@[simp] theorem Dev.freeUsed_track (d : Dev) (m : Nat) : (d.freeUsed).track m = d.track m := rfl
@[simp] theorem Dev.freeUsed_area (d : Dev) (m : Nat) : (d.freeUsed).area m = d.area m := rfl
@[simp] theorem Dev.freeUsed_hbmh (d : Dev) (m : Nat) : (d.freeUsed).hbmh m = d.hbmh m := rfl
@[simp] theorem Dev.freeUsed_eth (d : Dev) (m : Nat) : (d.freeUsed).eth m = d.eth m := rfl
@[simp] theorem Dev.freeUsed_loop (d : Dev) (m : Nat) : (d.freeUsed).loop m = d.loop m := rfl
@[simp] theorem Dev.freeUsed_vec (d : Dev) (m p : Nat) : (d.freeUsed).vec m p = d.vec m p := rfl
@[simp] theorem Dev.freeUsed_claim (d : Dev) (k : Res) (m : Nat) : (d.freeUsed).claim k m = d.claim k m := rfl
@[simp] theorem Dev.freeUsed_tab (d : Dev) (p q x y : Nat) : (d.freeUsed).tab p q x y = d.tab p q x y := rfl

/-! ### done -/

@[simp] theorem Dev.done_regs (d : Dev) : (d.done).regs = d.regs := rfl
@[simp] theorem Dev.done_tabs (d : Dev) : (d.done).tabs = d.tabs := rfl
@[simp] theorem Dev.done_bad (d : Dev) : (d.done).bad = d.bad := rfl
@[simp] theorem Dev.done_latch (d : Dev) : (d.done).latch = d.latch := rfl
@[simp] theorem Dev.done_stage (d : Dev) : (d.done).stage = d.stage := rfl
@[simp] theorem Dev.done_frozen (d : Dev) : (d.done).frozen = d.frozen := rfl
@[simp] theorem Dev.done_claims (d : Dev) : (d.done).claims = d.claims := rfl
@[simp] theorem Dev.done_queues (d : Dev) : (d.done).queues = d.queues := rfl
@[simp] theorem Dev.done_dq (d : Dev) : (d.done).dq = d.dq := rfl
@[simp] theorem Dev.done_iq (d : Dev) : (d.done).iq = d.iq := rfl
@[simp] theorem Dev.done_vecs (d : Dev) : (d.done).vecs = d.vecs := rfl
@[simp] theorem Dev.done_fns (d : Dev) : (d.done).fns = d.fns := rfl
@[simp] theorem Dev.done_lanes (d : Dev) : (d.done).lanes = d.lanes := rfl
@[simp] theorem Dev.done_ports (d : Dev) : (d.done).ports = d.ports := rfl
@[simp] theorem Dev.done_ingest (d : Dev) : (d.done).ingest = d.ingest := rfl
@[simp] theorem Dev.done_pos (d : Dev) : (d.done).pos = d.pos := rfl
@[simp] theorem Dev.done_dins (d : Dev) : (d.done).dins = d.dins := rfl
@[simp] theorem Dev.done_gens (d : Dev) : (d.done).gens = d.gens := rfl
@[simp] theorem Dev.done_streams (d : Dev) : (d.done).streams = d.streams := rfl
@[simp] theorem Dev.done_outs (d : Dev) : (d.done).outs = d.outs := rfl
@[simp] theorem Dev.done_qgens (d : Dev) : (d.done).qgens = d.qgens := rfl
@[simp] theorem Dev.done_vox (d : Dev) : (d.done).vox = d.vox := rfl
@[simp] theorem Dev.done_lcus (d : Dev) : (d.done).lcus = d.lcus := rfl
@[simp] theorem Dev.done_areas (d : Dev) : (d.done).areas = d.areas := rfl
@[simp] theorem Dev.done_tracks (d : Dev) : (d.done).tracks = d.tracks := rfl
@[simp] theorem Dev.done_ces (d : Dev) : (d.done).ces = d.ces := rfl
@[simp] theorem Dev.done_hbm (d : Dev) : (d.done).hbm = d.hbm := rfl
@[simp] theorem Dev.done_loops (d : Dev) : (d.done).loops = d.loops := rfl
@[simp] theorem Dev.done_links (d : Dev) : (d.done).links = d.links := rfl
@[simp] theorem Dev.done_eths (d : Dev) : (d.done).eths = d.eths := rfl
@[simp] theorem Dev.done_boot (d : Dev) : (d.done).boot = d.boot := rfl
@[simp] theorem Dev.done_nvOp (d : Dev) : (d.done).nvOp = d.nvOp := rfl
@[simp] theorem Dev.done_nvHold (d : Dev) : (d.done).nvHold = d.nvHold := rfl
@[simp] theorem Dev.done_bist (d : Dev) : (d.done).bist = d.bist := rfl
@[simp] theorem Dev.done_jtag (d : Dev) : (d.done).jtag = d.jtag := rfl
@[simp] theorem Dev.done_smbAddr (d : Dev) : (d.done).smbAddr = d.smbAddr := rfl
@[simp] theorem Dev.done_kaBad (d : Dev) : (d.done).kaBad = d.kaBad := rfl
@[simp] theorem Dev.done_sbeSeen (d : Dev) : (d.done).sbeSeen = d.sbeSeen := rfl
@[simp] theorem Dev.done_spareRows (d : Dev) : (d.done).spareRows = d.spareRows := rfl
@[simp] theorem Dev.done_nv (d : Dev) : (d.done).nv = d.nv := rfl
@[simp] theorem Dev.done_wear (d : Dev) : (d.done).wear = d.wear := rfl
@[simp] theorem Dev.done_health (d : Dev) : (d.done).health = d.health := rfl
@[simp] theorem Dev.done_clk (d : Dev) : (d.done).clk = d.clk := rfl
@[simp] theorem Dev.done_clkLost (d : Dev) : (d.done).clkLost = d.clkLost := rfl
@[simp] theorem Dev.done_ticks (d : Dev) : (d.done).ticks = d.ticks := rfl
@[simp] theorem Dev.done_taSince (d : Dev) : (d.done).taSince = d.taSince := rfl
@[simp] theorem Dev.done_firstCycle (d : Dev) : (d.done).firstCycle = d.firstCycle := rfl
@[simp] theorem Dev.done_incrDue (d : Dev) : (d.done).incrDue = d.incrDue := rfl
@[simp] theorem Dev.done_free (d : Dev) : (d.done).free = d.free := rfl
@[simp] theorem Dev.done_sent (d : Dev) : (d.done).sent = d.sent := rfl
@[simp] theorem Dev.done_rd (d : Dev) (g : Fld) (p q : Nat) : (d.done).rd g p q = d.rd g p q := rfl
@[simp] theorem Dev.done_lane (d : Dev) (m : Nat) : (d.done).lane m = d.lane m := rfl
@[simp] theorem Dev.done_port (d : Dev) (m : Nat) : (d.done).port m = d.port m := rfl
@[simp] theorem Dev.done_ing (d : Dev) (m : Nat) : (d.done).ing m = d.ing m := rfl
@[simp] theorem Dev.done_chan (d : Dev) (m : Nat) : (d.done).chan m = d.chan m := rfl
@[simp] theorem Dev.done_din (d : Dev) (m : Nat) : (d.done).din m = d.din m := rfl
@[simp] theorem Dev.done_gen (d : Dev) (m : Nat) : (d.done).gen m = d.gen m := rfl
@[simp] theorem Dev.done_stream (d : Dev) (m : Nat) : (d.done).stream m = d.stream m := rfl
@[simp] theorem Dev.done_outp (d : Dev) (m : Nat) : (d.done).outp m = d.outp m := rfl
@[simp] theorem Dev.done_queue (d : Dev) (m : Nat) : (d.done).queue m = d.queue m := rfl
@[simp] theorem Dev.done_dqh (d : Dev) (m : Nat) : (d.done).dqh m = d.dqh m := rfl
@[simp] theorem Dev.done_iqh (d : Dev) (m : Nat) : (d.done).iqh m = d.iqh m := rfl
@[simp] theorem Dev.done_fn (d : Dev) (m : Nat) : (d.done).fn m = d.fn m := rfl
@[simp] theorem Dev.done_link (d : Dev) (m : Nat) : (d.done).link m = d.link m := rfl
@[simp] theorem Dev.done_lcu (d : Dev) (m : Nat) : (d.done).lcu m = d.lcu m := rfl
@[simp] theorem Dev.done_ce (d : Dev) (m : Nat) : (d.done).ce m = d.ce m := rfl
@[simp] theorem Dev.done_track (d : Dev) (m : Nat) : (d.done).track m = d.track m := rfl
@[simp] theorem Dev.done_area (d : Dev) (m : Nat) : (d.done).area m = d.area m := rfl
@[simp] theorem Dev.done_hbmh (d : Dev) (m : Nat) : (d.done).hbmh m = d.hbmh m := rfl
@[simp] theorem Dev.done_eth (d : Dev) (m : Nat) : (d.done).eth m = d.eth m := rfl
@[simp] theorem Dev.done_loop (d : Dev) (m : Nat) : (d.done).loop m = d.loop m := rfl
@[simp] theorem Dev.done_vec (d : Dev) (m p : Nat) : (d.done).vec m p = d.vec m p := rfl
@[simp] theorem Dev.done_claim (d : Dev) (k : Res) (m : Nat) : (d.done).claim k m = d.claim k m := rfl
@[simp] theorem Dev.done_tab (d : Dev) (p q x y : Nat) : (d.done).tab p q x y = d.tab p q x y := rfl

/-! ### setTab -/

@[simp] theorem Dev.setTab_regs (d : Dev) (c n t i v : Nat) : (d.setTab c n t i v).regs = d.regs := rfl
@[simp] theorem Dev.setTab_latch (d : Dev) (c n t i v : Nat) : (d.setTab c n t i v).latch = d.latch := rfl
@[simp] theorem Dev.setTab_stage (d : Dev) (c n t i v : Nat) : (d.setTab c n t i v).stage = d.stage := rfl
@[simp] theorem Dev.setTab_frozen (d : Dev) (c n t i v : Nat) : (d.setTab c n t i v).frozen = d.frozen := rfl
@[simp] theorem Dev.setTab_claims (d : Dev) (c n t i v : Nat) : (d.setTab c n t i v).claims = d.claims := rfl
@[simp] theorem Dev.setTab_queues (d : Dev) (c n t i v : Nat) : (d.setTab c n t i v).queues = d.queues := rfl
@[simp] theorem Dev.setTab_dq (d : Dev) (c n t i v : Nat) : (d.setTab c n t i v).dq = d.dq := rfl
@[simp] theorem Dev.setTab_iq (d : Dev) (c n t i v : Nat) : (d.setTab c n t i v).iq = d.iq := rfl
@[simp] theorem Dev.setTab_vecs (d : Dev) (c n t i v : Nat) : (d.setTab c n t i v).vecs = d.vecs := rfl
@[simp] theorem Dev.setTab_fns (d : Dev) (c n t i v : Nat) : (d.setTab c n t i v).fns = d.fns := rfl
@[simp] theorem Dev.setTab_lanes (d : Dev) (c n t i v : Nat) : (d.setTab c n t i v).lanes = d.lanes := rfl
@[simp] theorem Dev.setTab_ports (d : Dev) (c n t i v : Nat) : (d.setTab c n t i v).ports = d.ports := rfl
@[simp] theorem Dev.setTab_ingest (d : Dev) (c n t i v : Nat) : (d.setTab c n t i v).ingest = d.ingest := rfl
@[simp] theorem Dev.setTab_pos (d : Dev) (c n t i v : Nat) : (d.setTab c n t i v).pos = d.pos := rfl
@[simp] theorem Dev.setTab_dins (d : Dev) (c n t i v : Nat) : (d.setTab c n t i v).dins = d.dins := rfl
@[simp] theorem Dev.setTab_gens (d : Dev) (c n t i v : Nat) : (d.setTab c n t i v).gens = d.gens := rfl
@[simp] theorem Dev.setTab_streams (d : Dev) (c n t i v : Nat) : (d.setTab c n t i v).streams = d.streams := rfl
@[simp] theorem Dev.setTab_outs (d : Dev) (c n t i v : Nat) : (d.setTab c n t i v).outs = d.outs := rfl
@[simp] theorem Dev.setTab_qgens (d : Dev) (c n t i v : Nat) : (d.setTab c n t i v).qgens = d.qgens := rfl
@[simp] theorem Dev.setTab_vox (d : Dev) (c n t i v : Nat) : (d.setTab c n t i v).vox = d.vox := rfl
@[simp] theorem Dev.setTab_lcus (d : Dev) (c n t i v : Nat) : (d.setTab c n t i v).lcus = d.lcus := rfl
@[simp] theorem Dev.setTab_areas (d : Dev) (c n t i v : Nat) : (d.setTab c n t i v).areas = d.areas := rfl
@[simp] theorem Dev.setTab_tracks (d : Dev) (c n t i v : Nat) : (d.setTab c n t i v).tracks = d.tracks := rfl
@[simp] theorem Dev.setTab_ces (d : Dev) (c n t i v : Nat) : (d.setTab c n t i v).ces = d.ces := rfl
@[simp] theorem Dev.setTab_hbm (d : Dev) (c n t i v : Nat) : (d.setTab c n t i v).hbm = d.hbm := rfl
@[simp] theorem Dev.setTab_wbuf (d : Dev) (c n t i v : Nat) : (d.setTab c n t i v).wbuf = d.wbuf := rfl
@[simp] theorem Dev.setTab_loops (d : Dev) (c n t i v : Nat) : (d.setTab c n t i v).loops = d.loops := rfl
@[simp] theorem Dev.setTab_links (d : Dev) (c n t i v : Nat) : (d.setTab c n t i v).links = d.links := rfl
@[simp] theorem Dev.setTab_eths (d : Dev) (c n t i v : Nat) : (d.setTab c n t i v).eths = d.eths := rfl
@[simp] theorem Dev.setTab_boot (d : Dev) (c n t i v : Nat) : (d.setTab c n t i v).boot = d.boot := rfl
@[simp] theorem Dev.setTab_nvOp (d : Dev) (c n t i v : Nat) : (d.setTab c n t i v).nvOp = d.nvOp := rfl
@[simp] theorem Dev.setTab_nvHold (d : Dev) (c n t i v : Nat) : (d.setTab c n t i v).nvHold = d.nvHold := rfl
@[simp] theorem Dev.setTab_bist (d : Dev) (c n t i v : Nat) : (d.setTab c n t i v).bist = d.bist := rfl
@[simp] theorem Dev.setTab_jtag (d : Dev) (c n t i v : Nat) : (d.setTab c n t i v).jtag = d.jtag := rfl
@[simp] theorem Dev.setTab_smbAddr (d : Dev) (c n t i v : Nat) : (d.setTab c n t i v).smbAddr = d.smbAddr := rfl
@[simp] theorem Dev.setTab_kaBad (d : Dev) (c n t i v : Nat) : (d.setTab c n t i v).kaBad = d.kaBad := rfl
@[simp] theorem Dev.setTab_sbeSeen (d : Dev) (c n t i v : Nat) : (d.setTab c n t i v).sbeSeen = d.sbeSeen := rfl
@[simp] theorem Dev.setTab_spareRows (d : Dev) (c n t i v : Nat) : (d.setTab c n t i v).spareRows = d.spareRows := rfl
@[simp] theorem Dev.setTab_nv (d : Dev) (c n t i v : Nat) : (d.setTab c n t i v).nv = d.nv := rfl
@[simp] theorem Dev.setTab_wear (d : Dev) (c n t i v : Nat) : (d.setTab c n t i v).wear = d.wear := rfl
@[simp] theorem Dev.setTab_health (d : Dev) (c n t i v : Nat) : (d.setTab c n t i v).health = d.health := rfl
@[simp] theorem Dev.setTab_clk (d : Dev) (c n t i v : Nat) : (d.setTab c n t i v).clk = d.clk := rfl
@[simp] theorem Dev.setTab_clkLost (d : Dev) (c n t i v : Nat) : (d.setTab c n t i v).clkLost = d.clkLost := rfl
@[simp] theorem Dev.setTab_ticks (d : Dev) (c n t i v : Nat) : (d.setTab c n t i v).ticks = d.ticks := rfl
@[simp] theorem Dev.setTab_taSince (d : Dev) (c n t i v : Nat) : (d.setTab c n t i v).taSince = d.taSince := rfl
@[simp] theorem Dev.setTab_firstCycle (d : Dev) (c n t i v : Nat) : (d.setTab c n t i v).firstCycle = d.firstCycle := rfl
@[simp] theorem Dev.setTab_incrDue (d : Dev) (c n t i v : Nat) : (d.setTab c n t i v).incrDue = d.incrDue := rfl
@[simp] theorem Dev.setTab_free (d : Dev) (c n t i v : Nat) : (d.setTab c n t i v).free = d.free := rfl
@[simp] theorem Dev.setTab_sent (d : Dev) (c n t i v : Nat) : (d.setTab c n t i v).sent = d.sent := rfl
@[simp] theorem Dev.setTab_rd (d : Dev) (c n t i v : Nat) (g : Fld) (p q : Nat) : (d.setTab c n t i v).rd g p q = d.rd g p q := rfl

/-! ### setTabErr -/

@[simp] theorem Dev.setTabErr_regs (d : Dev) (c n t i e : Nat) : (d.setTabErr c n t i e).regs = d.regs := rfl
@[simp] theorem Dev.setTabErr_tabs (d : Dev) (c n t i e : Nat) : (d.setTabErr c n t i e).tabs = d.tabs := rfl
@[simp] theorem Dev.setTabErr_latch (d : Dev) (c n t i e : Nat) : (d.setTabErr c n t i e).latch = d.latch := rfl
@[simp] theorem Dev.setTabErr_stage (d : Dev) (c n t i e : Nat) : (d.setTabErr c n t i e).stage = d.stage := rfl
@[simp] theorem Dev.setTabErr_frozen (d : Dev) (c n t i e : Nat) : (d.setTabErr c n t i e).frozen = d.frozen := rfl
@[simp] theorem Dev.setTabErr_claims (d : Dev) (c n t i e : Nat) : (d.setTabErr c n t i e).claims = d.claims := rfl
@[simp] theorem Dev.setTabErr_queues (d : Dev) (c n t i e : Nat) : (d.setTabErr c n t i e).queues = d.queues := rfl
@[simp] theorem Dev.setTabErr_dq (d : Dev) (c n t i e : Nat) : (d.setTabErr c n t i e).dq = d.dq := rfl
@[simp] theorem Dev.setTabErr_iq (d : Dev) (c n t i e : Nat) : (d.setTabErr c n t i e).iq = d.iq := rfl
@[simp] theorem Dev.setTabErr_vecs (d : Dev) (c n t i e : Nat) : (d.setTabErr c n t i e).vecs = d.vecs := rfl
@[simp] theorem Dev.setTabErr_fns (d : Dev) (c n t i e : Nat) : (d.setTabErr c n t i e).fns = d.fns := rfl
@[simp] theorem Dev.setTabErr_lanes (d : Dev) (c n t i e : Nat) : (d.setTabErr c n t i e).lanes = d.lanes := rfl
@[simp] theorem Dev.setTabErr_ports (d : Dev) (c n t i e : Nat) : (d.setTabErr c n t i e).ports = d.ports := rfl
@[simp] theorem Dev.setTabErr_ingest (d : Dev) (c n t i e : Nat) : (d.setTabErr c n t i e).ingest = d.ingest := rfl
@[simp] theorem Dev.setTabErr_pos (d : Dev) (c n t i e : Nat) : (d.setTabErr c n t i e).pos = d.pos := rfl
@[simp] theorem Dev.setTabErr_dins (d : Dev) (c n t i e : Nat) : (d.setTabErr c n t i e).dins = d.dins := rfl
@[simp] theorem Dev.setTabErr_gens (d : Dev) (c n t i e : Nat) : (d.setTabErr c n t i e).gens = d.gens := rfl
@[simp] theorem Dev.setTabErr_streams (d : Dev) (c n t i e : Nat) : (d.setTabErr c n t i e).streams = d.streams := rfl
@[simp] theorem Dev.setTabErr_outs (d : Dev) (c n t i e : Nat) : (d.setTabErr c n t i e).outs = d.outs := rfl
@[simp] theorem Dev.setTabErr_qgens (d : Dev) (c n t i e : Nat) : (d.setTabErr c n t i e).qgens = d.qgens := rfl
@[simp] theorem Dev.setTabErr_vox (d : Dev) (c n t i e : Nat) : (d.setTabErr c n t i e).vox = d.vox := rfl
@[simp] theorem Dev.setTabErr_lcus (d : Dev) (c n t i e : Nat) : (d.setTabErr c n t i e).lcus = d.lcus := rfl
@[simp] theorem Dev.setTabErr_areas (d : Dev) (c n t i e : Nat) : (d.setTabErr c n t i e).areas = d.areas := rfl
@[simp] theorem Dev.setTabErr_tracks (d : Dev) (c n t i e : Nat) : (d.setTabErr c n t i e).tracks = d.tracks := rfl
@[simp] theorem Dev.setTabErr_ces (d : Dev) (c n t i e : Nat) : (d.setTabErr c n t i e).ces = d.ces := rfl
@[simp] theorem Dev.setTabErr_hbm (d : Dev) (c n t i e : Nat) : (d.setTabErr c n t i e).hbm = d.hbm := rfl
@[simp] theorem Dev.setTabErr_wbuf (d : Dev) (c n t i e : Nat) : (d.setTabErr c n t i e).wbuf = d.wbuf := rfl
@[simp] theorem Dev.setTabErr_loops (d : Dev) (c n t i e : Nat) : (d.setTabErr c n t i e).loops = d.loops := rfl
@[simp] theorem Dev.setTabErr_links (d : Dev) (c n t i e : Nat) : (d.setTabErr c n t i e).links = d.links := rfl
@[simp] theorem Dev.setTabErr_eths (d : Dev) (c n t i e : Nat) : (d.setTabErr c n t i e).eths = d.eths := rfl
@[simp] theorem Dev.setTabErr_boot (d : Dev) (c n t i e : Nat) : (d.setTabErr c n t i e).boot = d.boot := rfl
@[simp] theorem Dev.setTabErr_nvOp (d : Dev) (c n t i e : Nat) : (d.setTabErr c n t i e).nvOp = d.nvOp := rfl
@[simp] theorem Dev.setTabErr_nvHold (d : Dev) (c n t i e : Nat) : (d.setTabErr c n t i e).nvHold = d.nvHold := rfl
@[simp] theorem Dev.setTabErr_bist (d : Dev) (c n t i e : Nat) : (d.setTabErr c n t i e).bist = d.bist := rfl
@[simp] theorem Dev.setTabErr_jtag (d : Dev) (c n t i e : Nat) : (d.setTabErr c n t i e).jtag = d.jtag := rfl
@[simp] theorem Dev.setTabErr_smbAddr (d : Dev) (c n t i e : Nat) : (d.setTabErr c n t i e).smbAddr = d.smbAddr := rfl
@[simp] theorem Dev.setTabErr_kaBad (d : Dev) (c n t i e : Nat) : (d.setTabErr c n t i e).kaBad = d.kaBad := rfl
@[simp] theorem Dev.setTabErr_sbeSeen (d : Dev) (c n t i e : Nat) : (d.setTabErr c n t i e).sbeSeen = d.sbeSeen := rfl
@[simp] theorem Dev.setTabErr_spareRows (d : Dev) (c n t i e : Nat) : (d.setTabErr c n t i e).spareRows = d.spareRows := rfl
@[simp] theorem Dev.setTabErr_nv (d : Dev) (c n t i e : Nat) : (d.setTabErr c n t i e).nv = d.nv := rfl
@[simp] theorem Dev.setTabErr_wear (d : Dev) (c n t i e : Nat) : (d.setTabErr c n t i e).wear = d.wear := rfl
@[simp] theorem Dev.setTabErr_health (d : Dev) (c n t i e : Nat) : (d.setTabErr c n t i e).health = d.health := rfl
@[simp] theorem Dev.setTabErr_clk (d : Dev) (c n t i e : Nat) : (d.setTabErr c n t i e).clk = d.clk := rfl
@[simp] theorem Dev.setTabErr_clkLost (d : Dev) (c n t i e : Nat) : (d.setTabErr c n t i e).clkLost = d.clkLost := rfl
@[simp] theorem Dev.setTabErr_ticks (d : Dev) (c n t i e : Nat) : (d.setTabErr c n t i e).ticks = d.ticks := rfl
@[simp] theorem Dev.setTabErr_taSince (d : Dev) (c n t i e : Nat) : (d.setTabErr c n t i e).taSince = d.taSince := rfl
@[simp] theorem Dev.setTabErr_firstCycle (d : Dev) (c n t i e : Nat) : (d.setTabErr c n t i e).firstCycle = d.firstCycle := rfl
@[simp] theorem Dev.setTabErr_incrDue (d : Dev) (c n t i e : Nat) : (d.setTabErr c n t i e).incrDue = d.incrDue := rfl
@[simp] theorem Dev.setTabErr_free (d : Dev) (c n t i e : Nat) : (d.setTabErr c n t i e).free = d.free := rfl
@[simp] theorem Dev.setTabErr_sent (d : Dev) (c n t i e : Nat) : (d.setTabErr c n t i e).sent = d.sent := rfl
@[simp] theorem Dev.setTabErr_rd (d : Dev) (c n t i e : Nat) (g : Fld) (p q : Nat) : (d.setTabErr c n t i e).rd g p q = d.rd g p q := rfl

/-! ### setClaim -/

@[simp] theorem Dev.setClaim_regs (d : Dev) (k : Res) (n : Nat) (x : Claim) : (d.setClaim k n x).regs = d.regs := rfl
@[simp] theorem Dev.setClaim_tabs (d : Dev) (k : Res) (n : Nat) (x : Claim) : (d.setClaim k n x).tabs = d.tabs := rfl
@[simp] theorem Dev.setClaim_bad (d : Dev) (k : Res) (n : Nat) (x : Claim) : (d.setClaim k n x).bad = d.bad := rfl
@[simp] theorem Dev.setClaim_latch (d : Dev) (k : Res) (n : Nat) (x : Claim) : (d.setClaim k n x).latch = d.latch := rfl
@[simp] theorem Dev.setClaim_stage (d : Dev) (k : Res) (n : Nat) (x : Claim) : (d.setClaim k n x).stage = d.stage := rfl
@[simp] theorem Dev.setClaim_frozen (d : Dev) (k : Res) (n : Nat) (x : Claim) : (d.setClaim k n x).frozen = d.frozen := rfl
@[simp] theorem Dev.setClaim_queues (d : Dev) (k : Res) (n : Nat) (x : Claim) : (d.setClaim k n x).queues = d.queues := rfl
@[simp] theorem Dev.setClaim_dq (d : Dev) (k : Res) (n : Nat) (x : Claim) : (d.setClaim k n x).dq = d.dq := rfl
@[simp] theorem Dev.setClaim_iq (d : Dev) (k : Res) (n : Nat) (x : Claim) : (d.setClaim k n x).iq = d.iq := rfl
@[simp] theorem Dev.setClaim_vecs (d : Dev) (k : Res) (n : Nat) (x : Claim) : (d.setClaim k n x).vecs = d.vecs := rfl
@[simp] theorem Dev.setClaim_fns (d : Dev) (k : Res) (n : Nat) (x : Claim) : (d.setClaim k n x).fns = d.fns := rfl
@[simp] theorem Dev.setClaim_lanes (d : Dev) (k : Res) (n : Nat) (x : Claim) : (d.setClaim k n x).lanes = d.lanes := rfl
@[simp] theorem Dev.setClaim_ports (d : Dev) (k : Res) (n : Nat) (x : Claim) : (d.setClaim k n x).ports = d.ports := rfl
@[simp] theorem Dev.setClaim_ingest (d : Dev) (k : Res) (n : Nat) (x : Claim) : (d.setClaim k n x).ingest = d.ingest := rfl
@[simp] theorem Dev.setClaim_pos (d : Dev) (k : Res) (n : Nat) (x : Claim) : (d.setClaim k n x).pos = d.pos := rfl
@[simp] theorem Dev.setClaim_dins (d : Dev) (k : Res) (n : Nat) (x : Claim) : (d.setClaim k n x).dins = d.dins := rfl
@[simp] theorem Dev.setClaim_gens (d : Dev) (k : Res) (n : Nat) (x : Claim) : (d.setClaim k n x).gens = d.gens := rfl
@[simp] theorem Dev.setClaim_streams (d : Dev) (k : Res) (n : Nat) (x : Claim) : (d.setClaim k n x).streams = d.streams := rfl
@[simp] theorem Dev.setClaim_outs (d : Dev) (k : Res) (n : Nat) (x : Claim) : (d.setClaim k n x).outs = d.outs := rfl
@[simp] theorem Dev.setClaim_qgens (d : Dev) (k : Res) (n : Nat) (x : Claim) : (d.setClaim k n x).qgens = d.qgens := rfl
@[simp] theorem Dev.setClaim_vox (d : Dev) (k : Res) (n : Nat) (x : Claim) : (d.setClaim k n x).vox = d.vox := rfl
@[simp] theorem Dev.setClaim_lcus (d : Dev) (k : Res) (n : Nat) (x : Claim) : (d.setClaim k n x).lcus = d.lcus := rfl
@[simp] theorem Dev.setClaim_areas (d : Dev) (k : Res) (n : Nat) (x : Claim) : (d.setClaim k n x).areas = d.areas := rfl
@[simp] theorem Dev.setClaim_tracks (d : Dev) (k : Res) (n : Nat) (x : Claim) : (d.setClaim k n x).tracks = d.tracks := rfl
@[simp] theorem Dev.setClaim_ces (d : Dev) (k : Res) (n : Nat) (x : Claim) : (d.setClaim k n x).ces = d.ces := rfl
@[simp] theorem Dev.setClaim_hbm (d : Dev) (k : Res) (n : Nat) (x : Claim) : (d.setClaim k n x).hbm = d.hbm := rfl
@[simp] theorem Dev.setClaim_wbuf (d : Dev) (k : Res) (n : Nat) (x : Claim) : (d.setClaim k n x).wbuf = d.wbuf := rfl
@[simp] theorem Dev.setClaim_loops (d : Dev) (k : Res) (n : Nat) (x : Claim) : (d.setClaim k n x).loops = d.loops := rfl
@[simp] theorem Dev.setClaim_links (d : Dev) (k : Res) (n : Nat) (x : Claim) : (d.setClaim k n x).links = d.links := rfl
@[simp] theorem Dev.setClaim_eths (d : Dev) (k : Res) (n : Nat) (x : Claim) : (d.setClaim k n x).eths = d.eths := rfl
@[simp] theorem Dev.setClaim_boot (d : Dev) (k : Res) (n : Nat) (x : Claim) : (d.setClaim k n x).boot = d.boot := rfl
@[simp] theorem Dev.setClaim_nvOp (d : Dev) (k : Res) (n : Nat) (x : Claim) : (d.setClaim k n x).nvOp = d.nvOp := rfl
@[simp] theorem Dev.setClaim_nvHold (d : Dev) (k : Res) (n : Nat) (x : Claim) : (d.setClaim k n x).nvHold = d.nvHold := rfl
@[simp] theorem Dev.setClaim_bist (d : Dev) (k : Res) (n : Nat) (x : Claim) : (d.setClaim k n x).bist = d.bist := rfl
@[simp] theorem Dev.setClaim_jtag (d : Dev) (k : Res) (n : Nat) (x : Claim) : (d.setClaim k n x).jtag = d.jtag := rfl
@[simp] theorem Dev.setClaim_smbAddr (d : Dev) (k : Res) (n : Nat) (x : Claim) : (d.setClaim k n x).smbAddr = d.smbAddr := rfl
@[simp] theorem Dev.setClaim_kaBad (d : Dev) (k : Res) (n : Nat) (x : Claim) : (d.setClaim k n x).kaBad = d.kaBad := rfl
@[simp] theorem Dev.setClaim_sbeSeen (d : Dev) (k : Res) (n : Nat) (x : Claim) : (d.setClaim k n x).sbeSeen = d.sbeSeen := rfl
@[simp] theorem Dev.setClaim_spareRows (d : Dev) (k : Res) (n : Nat) (x : Claim) : (d.setClaim k n x).spareRows = d.spareRows := rfl
@[simp] theorem Dev.setClaim_nv (d : Dev) (k : Res) (n : Nat) (x : Claim) : (d.setClaim k n x).nv = d.nv := rfl
@[simp] theorem Dev.setClaim_wear (d : Dev) (k : Res) (n : Nat) (x : Claim) : (d.setClaim k n x).wear = d.wear := rfl
@[simp] theorem Dev.setClaim_health (d : Dev) (k : Res) (n : Nat) (x : Claim) : (d.setClaim k n x).health = d.health := rfl
@[simp] theorem Dev.setClaim_clk (d : Dev) (k : Res) (n : Nat) (x : Claim) : (d.setClaim k n x).clk = d.clk := rfl
@[simp] theorem Dev.setClaim_clkLost (d : Dev) (k : Res) (n : Nat) (x : Claim) : (d.setClaim k n x).clkLost = d.clkLost := rfl
@[simp] theorem Dev.setClaim_ticks (d : Dev) (k : Res) (n : Nat) (x : Claim) : (d.setClaim k n x).ticks = d.ticks := rfl
@[simp] theorem Dev.setClaim_taSince (d : Dev) (k : Res) (n : Nat) (x : Claim) : (d.setClaim k n x).taSince = d.taSince := rfl
@[simp] theorem Dev.setClaim_firstCycle (d : Dev) (k : Res) (n : Nat) (x : Claim) : (d.setClaim k n x).firstCycle = d.firstCycle := rfl
@[simp] theorem Dev.setClaim_incrDue (d : Dev) (k : Res) (n : Nat) (x : Claim) : (d.setClaim k n x).incrDue = d.incrDue := rfl
@[simp] theorem Dev.setClaim_free (d : Dev) (k : Res) (n : Nat) (x : Claim) : (d.setClaim k n x).free = d.free := rfl
@[simp] theorem Dev.setClaim_sent (d : Dev) (k : Res) (n : Nat) (x : Claim) : (d.setClaim k n x).sent = d.sent := rfl
@[simp] theorem Dev.setClaim_rd (d : Dev) (k : Res) (n : Nat) (x : Claim) (g : Fld) (p q : Nat) : (d.setClaim k n x).rd g p q = d.rd g p q := rfl

/-! ### setLane -/

@[simp] theorem Dev.setLane_regs (d : Dev) (n : Nat) (x : LaneH) : (d.setLane n x).regs = d.regs := rfl
@[simp] theorem Dev.setLane_tabs (d : Dev) (n : Nat) (x : LaneH) : (d.setLane n x).tabs = d.tabs := rfl
@[simp] theorem Dev.setLane_bad (d : Dev) (n : Nat) (x : LaneH) : (d.setLane n x).bad = d.bad := rfl
@[simp] theorem Dev.setLane_latch (d : Dev) (n : Nat) (x : LaneH) : (d.setLane n x).latch = d.latch := rfl
@[simp] theorem Dev.setLane_stage (d : Dev) (n : Nat) (x : LaneH) : (d.setLane n x).stage = d.stage := rfl
@[simp] theorem Dev.setLane_frozen (d : Dev) (n : Nat) (x : LaneH) : (d.setLane n x).frozen = d.frozen := rfl
@[simp] theorem Dev.setLane_claims (d : Dev) (n : Nat) (x : LaneH) : (d.setLane n x).claims = d.claims := rfl
@[simp] theorem Dev.setLane_queues (d : Dev) (n : Nat) (x : LaneH) : (d.setLane n x).queues = d.queues := rfl
@[simp] theorem Dev.setLane_dq (d : Dev) (n : Nat) (x : LaneH) : (d.setLane n x).dq = d.dq := rfl
@[simp] theorem Dev.setLane_iq (d : Dev) (n : Nat) (x : LaneH) : (d.setLane n x).iq = d.iq := rfl
@[simp] theorem Dev.setLane_vecs (d : Dev) (n : Nat) (x : LaneH) : (d.setLane n x).vecs = d.vecs := rfl
@[simp] theorem Dev.setLane_fns (d : Dev) (n : Nat) (x : LaneH) : (d.setLane n x).fns = d.fns := rfl
@[simp] theorem Dev.setLane_ports (d : Dev) (n : Nat) (x : LaneH) : (d.setLane n x).ports = d.ports := rfl
@[simp] theorem Dev.setLane_ingest (d : Dev) (n : Nat) (x : LaneH) : (d.setLane n x).ingest = d.ingest := rfl
@[simp] theorem Dev.setLane_pos (d : Dev) (n : Nat) (x : LaneH) : (d.setLane n x).pos = d.pos := rfl
@[simp] theorem Dev.setLane_dins (d : Dev) (n : Nat) (x : LaneH) : (d.setLane n x).dins = d.dins := rfl
@[simp] theorem Dev.setLane_gens (d : Dev) (n : Nat) (x : LaneH) : (d.setLane n x).gens = d.gens := rfl
@[simp] theorem Dev.setLane_streams (d : Dev) (n : Nat) (x : LaneH) : (d.setLane n x).streams = d.streams := rfl
@[simp] theorem Dev.setLane_outs (d : Dev) (n : Nat) (x : LaneH) : (d.setLane n x).outs = d.outs := rfl
@[simp] theorem Dev.setLane_qgens (d : Dev) (n : Nat) (x : LaneH) : (d.setLane n x).qgens = d.qgens := rfl
@[simp] theorem Dev.setLane_vox (d : Dev) (n : Nat) (x : LaneH) : (d.setLane n x).vox = d.vox := rfl
@[simp] theorem Dev.setLane_lcus (d : Dev) (n : Nat) (x : LaneH) : (d.setLane n x).lcus = d.lcus := rfl
@[simp] theorem Dev.setLane_areas (d : Dev) (n : Nat) (x : LaneH) : (d.setLane n x).areas = d.areas := rfl
@[simp] theorem Dev.setLane_tracks (d : Dev) (n : Nat) (x : LaneH) : (d.setLane n x).tracks = d.tracks := rfl
@[simp] theorem Dev.setLane_ces (d : Dev) (n : Nat) (x : LaneH) : (d.setLane n x).ces = d.ces := rfl
@[simp] theorem Dev.setLane_hbm (d : Dev) (n : Nat) (x : LaneH) : (d.setLane n x).hbm = d.hbm := rfl
@[simp] theorem Dev.setLane_wbuf (d : Dev) (n : Nat) (x : LaneH) : (d.setLane n x).wbuf = d.wbuf := rfl
@[simp] theorem Dev.setLane_loops (d : Dev) (n : Nat) (x : LaneH) : (d.setLane n x).loops = d.loops := rfl
@[simp] theorem Dev.setLane_links (d : Dev) (n : Nat) (x : LaneH) : (d.setLane n x).links = d.links := rfl
@[simp] theorem Dev.setLane_eths (d : Dev) (n : Nat) (x : LaneH) : (d.setLane n x).eths = d.eths := rfl
@[simp] theorem Dev.setLane_boot (d : Dev) (n : Nat) (x : LaneH) : (d.setLane n x).boot = d.boot := rfl
@[simp] theorem Dev.setLane_nvOp (d : Dev) (n : Nat) (x : LaneH) : (d.setLane n x).nvOp = d.nvOp := rfl
@[simp] theorem Dev.setLane_nvHold (d : Dev) (n : Nat) (x : LaneH) : (d.setLane n x).nvHold = d.nvHold := rfl
@[simp] theorem Dev.setLane_bist (d : Dev) (n : Nat) (x : LaneH) : (d.setLane n x).bist = d.bist := rfl
@[simp] theorem Dev.setLane_jtag (d : Dev) (n : Nat) (x : LaneH) : (d.setLane n x).jtag = d.jtag := rfl
@[simp] theorem Dev.setLane_smbAddr (d : Dev) (n : Nat) (x : LaneH) : (d.setLane n x).smbAddr = d.smbAddr := rfl
@[simp] theorem Dev.setLane_kaBad (d : Dev) (n : Nat) (x : LaneH) : (d.setLane n x).kaBad = d.kaBad := rfl
@[simp] theorem Dev.setLane_sbeSeen (d : Dev) (n : Nat) (x : LaneH) : (d.setLane n x).sbeSeen = d.sbeSeen := rfl
@[simp] theorem Dev.setLane_spareRows (d : Dev) (n : Nat) (x : LaneH) : (d.setLane n x).spareRows = d.spareRows := rfl
@[simp] theorem Dev.setLane_nv (d : Dev) (n : Nat) (x : LaneH) : (d.setLane n x).nv = d.nv := rfl
@[simp] theorem Dev.setLane_wear (d : Dev) (n : Nat) (x : LaneH) : (d.setLane n x).wear = d.wear := rfl
@[simp] theorem Dev.setLane_health (d : Dev) (n : Nat) (x : LaneH) : (d.setLane n x).health = d.health := rfl
@[simp] theorem Dev.setLane_clk (d : Dev) (n : Nat) (x : LaneH) : (d.setLane n x).clk = d.clk := rfl
@[simp] theorem Dev.setLane_clkLost (d : Dev) (n : Nat) (x : LaneH) : (d.setLane n x).clkLost = d.clkLost := rfl
@[simp] theorem Dev.setLane_ticks (d : Dev) (n : Nat) (x : LaneH) : (d.setLane n x).ticks = d.ticks := rfl
@[simp] theorem Dev.setLane_taSince (d : Dev) (n : Nat) (x : LaneH) : (d.setLane n x).taSince = d.taSince := rfl
@[simp] theorem Dev.setLane_firstCycle (d : Dev) (n : Nat) (x : LaneH) : (d.setLane n x).firstCycle = d.firstCycle := rfl
@[simp] theorem Dev.setLane_incrDue (d : Dev) (n : Nat) (x : LaneH) : (d.setLane n x).incrDue = d.incrDue := rfl
@[simp] theorem Dev.setLane_free (d : Dev) (n : Nat) (x : LaneH) : (d.setLane n x).free = d.free := rfl
@[simp] theorem Dev.setLane_sent (d : Dev) (n : Nat) (x : LaneH) : (d.setLane n x).sent = d.sent := rfl
@[simp] theorem Dev.setLane_rd (d : Dev) (n : Nat) (x : LaneH) (g : Fld) (p q : Nat) : (d.setLane n x).rd g p q = d.rd g p q := rfl
@[simp] theorem Dev.lane_setLane (d : Dev) (n : Nat) (x : LaneH) : (d.setLane n x).lane n = x := mget_mset_self _ _ _ _
theorem Dev.lane_setLane_ne (d : Dev) (n : Nat) (x : LaneH) (m : Nat) (h : m ≠ n) : (d.setLane n x).lane m = d.lane m := mget_mset_ne _ _ _ _ h

/-! ### setPort -/

@[simp] theorem Dev.setPort_regs (d : Dev) (n : Nat) (x : PortH) : (d.setPort n x).regs = d.regs := rfl
@[simp] theorem Dev.setPort_tabs (d : Dev) (n : Nat) (x : PortH) : (d.setPort n x).tabs = d.tabs := rfl
@[simp] theorem Dev.setPort_bad (d : Dev) (n : Nat) (x : PortH) : (d.setPort n x).bad = d.bad := rfl
@[simp] theorem Dev.setPort_latch (d : Dev) (n : Nat) (x : PortH) : (d.setPort n x).latch = d.latch := rfl
@[simp] theorem Dev.setPort_stage (d : Dev) (n : Nat) (x : PortH) : (d.setPort n x).stage = d.stage := rfl
@[simp] theorem Dev.setPort_frozen (d : Dev) (n : Nat) (x : PortH) : (d.setPort n x).frozen = d.frozen := rfl
@[simp] theorem Dev.setPort_claims (d : Dev) (n : Nat) (x : PortH) : (d.setPort n x).claims = d.claims := rfl
@[simp] theorem Dev.setPort_queues (d : Dev) (n : Nat) (x : PortH) : (d.setPort n x).queues = d.queues := rfl
@[simp] theorem Dev.setPort_dq (d : Dev) (n : Nat) (x : PortH) : (d.setPort n x).dq = d.dq := rfl
@[simp] theorem Dev.setPort_iq (d : Dev) (n : Nat) (x : PortH) : (d.setPort n x).iq = d.iq := rfl
@[simp] theorem Dev.setPort_vecs (d : Dev) (n : Nat) (x : PortH) : (d.setPort n x).vecs = d.vecs := rfl
@[simp] theorem Dev.setPort_fns (d : Dev) (n : Nat) (x : PortH) : (d.setPort n x).fns = d.fns := rfl
@[simp] theorem Dev.setPort_lanes (d : Dev) (n : Nat) (x : PortH) : (d.setPort n x).lanes = d.lanes := rfl
@[simp] theorem Dev.setPort_ingest (d : Dev) (n : Nat) (x : PortH) : (d.setPort n x).ingest = d.ingest := rfl
@[simp] theorem Dev.setPort_pos (d : Dev) (n : Nat) (x : PortH) : (d.setPort n x).pos = d.pos := rfl
@[simp] theorem Dev.setPort_dins (d : Dev) (n : Nat) (x : PortH) : (d.setPort n x).dins = d.dins := rfl
@[simp] theorem Dev.setPort_gens (d : Dev) (n : Nat) (x : PortH) : (d.setPort n x).gens = d.gens := rfl
@[simp] theorem Dev.setPort_streams (d : Dev) (n : Nat) (x : PortH) : (d.setPort n x).streams = d.streams := rfl
@[simp] theorem Dev.setPort_outs (d : Dev) (n : Nat) (x : PortH) : (d.setPort n x).outs = d.outs := rfl
@[simp] theorem Dev.setPort_qgens (d : Dev) (n : Nat) (x : PortH) : (d.setPort n x).qgens = d.qgens := rfl
@[simp] theorem Dev.setPort_vox (d : Dev) (n : Nat) (x : PortH) : (d.setPort n x).vox = d.vox := rfl
@[simp] theorem Dev.setPort_lcus (d : Dev) (n : Nat) (x : PortH) : (d.setPort n x).lcus = d.lcus := rfl
@[simp] theorem Dev.setPort_areas (d : Dev) (n : Nat) (x : PortH) : (d.setPort n x).areas = d.areas := rfl
@[simp] theorem Dev.setPort_tracks (d : Dev) (n : Nat) (x : PortH) : (d.setPort n x).tracks = d.tracks := rfl
@[simp] theorem Dev.setPort_ces (d : Dev) (n : Nat) (x : PortH) : (d.setPort n x).ces = d.ces := rfl
@[simp] theorem Dev.setPort_hbm (d : Dev) (n : Nat) (x : PortH) : (d.setPort n x).hbm = d.hbm := rfl
@[simp] theorem Dev.setPort_wbuf (d : Dev) (n : Nat) (x : PortH) : (d.setPort n x).wbuf = d.wbuf := rfl
@[simp] theorem Dev.setPort_loops (d : Dev) (n : Nat) (x : PortH) : (d.setPort n x).loops = d.loops := rfl
@[simp] theorem Dev.setPort_links (d : Dev) (n : Nat) (x : PortH) : (d.setPort n x).links = d.links := rfl
@[simp] theorem Dev.setPort_eths (d : Dev) (n : Nat) (x : PortH) : (d.setPort n x).eths = d.eths := rfl
@[simp] theorem Dev.setPort_boot (d : Dev) (n : Nat) (x : PortH) : (d.setPort n x).boot = d.boot := rfl
@[simp] theorem Dev.setPort_nvOp (d : Dev) (n : Nat) (x : PortH) : (d.setPort n x).nvOp = d.nvOp := rfl
@[simp] theorem Dev.setPort_nvHold (d : Dev) (n : Nat) (x : PortH) : (d.setPort n x).nvHold = d.nvHold := rfl
@[simp] theorem Dev.setPort_bist (d : Dev) (n : Nat) (x : PortH) : (d.setPort n x).bist = d.bist := rfl
@[simp] theorem Dev.setPort_jtag (d : Dev) (n : Nat) (x : PortH) : (d.setPort n x).jtag = d.jtag := rfl
@[simp] theorem Dev.setPort_smbAddr (d : Dev) (n : Nat) (x : PortH) : (d.setPort n x).smbAddr = d.smbAddr := rfl
@[simp] theorem Dev.setPort_kaBad (d : Dev) (n : Nat) (x : PortH) : (d.setPort n x).kaBad = d.kaBad := rfl
@[simp] theorem Dev.setPort_sbeSeen (d : Dev) (n : Nat) (x : PortH) : (d.setPort n x).sbeSeen = d.sbeSeen := rfl
@[simp] theorem Dev.setPort_spareRows (d : Dev) (n : Nat) (x : PortH) : (d.setPort n x).spareRows = d.spareRows := rfl
@[simp] theorem Dev.setPort_nv (d : Dev) (n : Nat) (x : PortH) : (d.setPort n x).nv = d.nv := rfl
@[simp] theorem Dev.setPort_wear (d : Dev) (n : Nat) (x : PortH) : (d.setPort n x).wear = d.wear := rfl
@[simp] theorem Dev.setPort_health (d : Dev) (n : Nat) (x : PortH) : (d.setPort n x).health = d.health := rfl
@[simp] theorem Dev.setPort_clk (d : Dev) (n : Nat) (x : PortH) : (d.setPort n x).clk = d.clk := rfl
@[simp] theorem Dev.setPort_clkLost (d : Dev) (n : Nat) (x : PortH) : (d.setPort n x).clkLost = d.clkLost := rfl
@[simp] theorem Dev.setPort_ticks (d : Dev) (n : Nat) (x : PortH) : (d.setPort n x).ticks = d.ticks := rfl
@[simp] theorem Dev.setPort_taSince (d : Dev) (n : Nat) (x : PortH) : (d.setPort n x).taSince = d.taSince := rfl
@[simp] theorem Dev.setPort_firstCycle (d : Dev) (n : Nat) (x : PortH) : (d.setPort n x).firstCycle = d.firstCycle := rfl
@[simp] theorem Dev.setPort_incrDue (d : Dev) (n : Nat) (x : PortH) : (d.setPort n x).incrDue = d.incrDue := rfl
@[simp] theorem Dev.setPort_free (d : Dev) (n : Nat) (x : PortH) : (d.setPort n x).free = d.free := rfl
@[simp] theorem Dev.setPort_sent (d : Dev) (n : Nat) (x : PortH) : (d.setPort n x).sent = d.sent := rfl
@[simp] theorem Dev.setPort_rd (d : Dev) (n : Nat) (x : PortH) (g : Fld) (p q : Nat) : (d.setPort n x).rd g p q = d.rd g p q := rfl
@[simp] theorem Dev.port_setPort (d : Dev) (n : Nat) (x : PortH) : (d.setPort n x).port n = x := mget_mset_self _ _ _ _
theorem Dev.port_setPort_ne (d : Dev) (n : Nat) (x : PortH) (m : Nat) (h : m ≠ n) : (d.setPort n x).port m = d.port m := mget_mset_ne _ _ _ _ h

/-! ### setIng -/

@[simp] theorem Dev.setIng_regs (d : Dev) (n : Nat) (x : IngestH) : (d.setIng n x).regs = d.regs := rfl
@[simp] theorem Dev.setIng_tabs (d : Dev) (n : Nat) (x : IngestH) : (d.setIng n x).tabs = d.tabs := rfl
@[simp] theorem Dev.setIng_bad (d : Dev) (n : Nat) (x : IngestH) : (d.setIng n x).bad = d.bad := rfl
@[simp] theorem Dev.setIng_latch (d : Dev) (n : Nat) (x : IngestH) : (d.setIng n x).latch = d.latch := rfl
@[simp] theorem Dev.setIng_stage (d : Dev) (n : Nat) (x : IngestH) : (d.setIng n x).stage = d.stage := rfl
@[simp] theorem Dev.setIng_frozen (d : Dev) (n : Nat) (x : IngestH) : (d.setIng n x).frozen = d.frozen := rfl
@[simp] theorem Dev.setIng_claims (d : Dev) (n : Nat) (x : IngestH) : (d.setIng n x).claims = d.claims := rfl
@[simp] theorem Dev.setIng_queues (d : Dev) (n : Nat) (x : IngestH) : (d.setIng n x).queues = d.queues := rfl
@[simp] theorem Dev.setIng_dq (d : Dev) (n : Nat) (x : IngestH) : (d.setIng n x).dq = d.dq := rfl
@[simp] theorem Dev.setIng_iq (d : Dev) (n : Nat) (x : IngestH) : (d.setIng n x).iq = d.iq := rfl
@[simp] theorem Dev.setIng_vecs (d : Dev) (n : Nat) (x : IngestH) : (d.setIng n x).vecs = d.vecs := rfl
@[simp] theorem Dev.setIng_fns (d : Dev) (n : Nat) (x : IngestH) : (d.setIng n x).fns = d.fns := rfl
@[simp] theorem Dev.setIng_lanes (d : Dev) (n : Nat) (x : IngestH) : (d.setIng n x).lanes = d.lanes := rfl
@[simp] theorem Dev.setIng_ports (d : Dev) (n : Nat) (x : IngestH) : (d.setIng n x).ports = d.ports := rfl
@[simp] theorem Dev.setIng_pos (d : Dev) (n : Nat) (x : IngestH) : (d.setIng n x).pos = d.pos := rfl
@[simp] theorem Dev.setIng_dins (d : Dev) (n : Nat) (x : IngestH) : (d.setIng n x).dins = d.dins := rfl
@[simp] theorem Dev.setIng_gens (d : Dev) (n : Nat) (x : IngestH) : (d.setIng n x).gens = d.gens := rfl
@[simp] theorem Dev.setIng_streams (d : Dev) (n : Nat) (x : IngestH) : (d.setIng n x).streams = d.streams := rfl
@[simp] theorem Dev.setIng_outs (d : Dev) (n : Nat) (x : IngestH) : (d.setIng n x).outs = d.outs := rfl
@[simp] theorem Dev.setIng_qgens (d : Dev) (n : Nat) (x : IngestH) : (d.setIng n x).qgens = d.qgens := rfl
@[simp] theorem Dev.setIng_vox (d : Dev) (n : Nat) (x : IngestH) : (d.setIng n x).vox = d.vox := rfl
@[simp] theorem Dev.setIng_lcus (d : Dev) (n : Nat) (x : IngestH) : (d.setIng n x).lcus = d.lcus := rfl
@[simp] theorem Dev.setIng_areas (d : Dev) (n : Nat) (x : IngestH) : (d.setIng n x).areas = d.areas := rfl
@[simp] theorem Dev.setIng_tracks (d : Dev) (n : Nat) (x : IngestH) : (d.setIng n x).tracks = d.tracks := rfl
@[simp] theorem Dev.setIng_ces (d : Dev) (n : Nat) (x : IngestH) : (d.setIng n x).ces = d.ces := rfl
@[simp] theorem Dev.setIng_hbm (d : Dev) (n : Nat) (x : IngestH) : (d.setIng n x).hbm = d.hbm := rfl
@[simp] theorem Dev.setIng_wbuf (d : Dev) (n : Nat) (x : IngestH) : (d.setIng n x).wbuf = d.wbuf := rfl
@[simp] theorem Dev.setIng_loops (d : Dev) (n : Nat) (x : IngestH) : (d.setIng n x).loops = d.loops := rfl
@[simp] theorem Dev.setIng_links (d : Dev) (n : Nat) (x : IngestH) : (d.setIng n x).links = d.links := rfl
@[simp] theorem Dev.setIng_eths (d : Dev) (n : Nat) (x : IngestH) : (d.setIng n x).eths = d.eths := rfl
@[simp] theorem Dev.setIng_boot (d : Dev) (n : Nat) (x : IngestH) : (d.setIng n x).boot = d.boot := rfl
@[simp] theorem Dev.setIng_nvOp (d : Dev) (n : Nat) (x : IngestH) : (d.setIng n x).nvOp = d.nvOp := rfl
@[simp] theorem Dev.setIng_nvHold (d : Dev) (n : Nat) (x : IngestH) : (d.setIng n x).nvHold = d.nvHold := rfl
@[simp] theorem Dev.setIng_bist (d : Dev) (n : Nat) (x : IngestH) : (d.setIng n x).bist = d.bist := rfl
@[simp] theorem Dev.setIng_jtag (d : Dev) (n : Nat) (x : IngestH) : (d.setIng n x).jtag = d.jtag := rfl
@[simp] theorem Dev.setIng_smbAddr (d : Dev) (n : Nat) (x : IngestH) : (d.setIng n x).smbAddr = d.smbAddr := rfl
@[simp] theorem Dev.setIng_kaBad (d : Dev) (n : Nat) (x : IngestH) : (d.setIng n x).kaBad = d.kaBad := rfl
@[simp] theorem Dev.setIng_sbeSeen (d : Dev) (n : Nat) (x : IngestH) : (d.setIng n x).sbeSeen = d.sbeSeen := rfl
@[simp] theorem Dev.setIng_spareRows (d : Dev) (n : Nat) (x : IngestH) : (d.setIng n x).spareRows = d.spareRows := rfl
@[simp] theorem Dev.setIng_nv (d : Dev) (n : Nat) (x : IngestH) : (d.setIng n x).nv = d.nv := rfl
@[simp] theorem Dev.setIng_wear (d : Dev) (n : Nat) (x : IngestH) : (d.setIng n x).wear = d.wear := rfl
@[simp] theorem Dev.setIng_health (d : Dev) (n : Nat) (x : IngestH) : (d.setIng n x).health = d.health := rfl
@[simp] theorem Dev.setIng_clk (d : Dev) (n : Nat) (x : IngestH) : (d.setIng n x).clk = d.clk := rfl
@[simp] theorem Dev.setIng_clkLost (d : Dev) (n : Nat) (x : IngestH) : (d.setIng n x).clkLost = d.clkLost := rfl
@[simp] theorem Dev.setIng_ticks (d : Dev) (n : Nat) (x : IngestH) : (d.setIng n x).ticks = d.ticks := rfl
@[simp] theorem Dev.setIng_taSince (d : Dev) (n : Nat) (x : IngestH) : (d.setIng n x).taSince = d.taSince := rfl
@[simp] theorem Dev.setIng_firstCycle (d : Dev) (n : Nat) (x : IngestH) : (d.setIng n x).firstCycle = d.firstCycle := rfl
@[simp] theorem Dev.setIng_incrDue (d : Dev) (n : Nat) (x : IngestH) : (d.setIng n x).incrDue = d.incrDue := rfl
@[simp] theorem Dev.setIng_free (d : Dev) (n : Nat) (x : IngestH) : (d.setIng n x).free = d.free := rfl
@[simp] theorem Dev.setIng_sent (d : Dev) (n : Nat) (x : IngestH) : (d.setIng n x).sent = d.sent := rfl
@[simp] theorem Dev.setIng_rd (d : Dev) (n : Nat) (x : IngestH) (g : Fld) (p q : Nat) : (d.setIng n x).rd g p q = d.rd g p q := rfl
@[simp] theorem Dev.ing_setIng (d : Dev) (n : Nat) (x : IngestH) : (d.setIng n x).ing n = x := mget_mset_self _ _ _ _
theorem Dev.ing_setIng_ne (d : Dev) (n : Nat) (x : IngestH) (m : Nat) (h : m ≠ n) : (d.setIng n x).ing m = d.ing m := mget_mset_ne _ _ _ _ h

/-! ### setChan -/

@[simp] theorem Dev.setChan_regs (d : Dev) (n : Nat) (x : PosH) : (d.setChan n x).regs = d.regs := rfl
@[simp] theorem Dev.setChan_tabs (d : Dev) (n : Nat) (x : PosH) : (d.setChan n x).tabs = d.tabs := rfl
@[simp] theorem Dev.setChan_bad (d : Dev) (n : Nat) (x : PosH) : (d.setChan n x).bad = d.bad := rfl
@[simp] theorem Dev.setChan_latch (d : Dev) (n : Nat) (x : PosH) : (d.setChan n x).latch = d.latch := rfl
@[simp] theorem Dev.setChan_stage (d : Dev) (n : Nat) (x : PosH) : (d.setChan n x).stage = d.stage := rfl
@[simp] theorem Dev.setChan_frozen (d : Dev) (n : Nat) (x : PosH) : (d.setChan n x).frozen = d.frozen := rfl
@[simp] theorem Dev.setChan_claims (d : Dev) (n : Nat) (x : PosH) : (d.setChan n x).claims = d.claims := rfl
@[simp] theorem Dev.setChan_queues (d : Dev) (n : Nat) (x : PosH) : (d.setChan n x).queues = d.queues := rfl
@[simp] theorem Dev.setChan_dq (d : Dev) (n : Nat) (x : PosH) : (d.setChan n x).dq = d.dq := rfl
@[simp] theorem Dev.setChan_iq (d : Dev) (n : Nat) (x : PosH) : (d.setChan n x).iq = d.iq := rfl
@[simp] theorem Dev.setChan_vecs (d : Dev) (n : Nat) (x : PosH) : (d.setChan n x).vecs = d.vecs := rfl
@[simp] theorem Dev.setChan_fns (d : Dev) (n : Nat) (x : PosH) : (d.setChan n x).fns = d.fns := rfl
@[simp] theorem Dev.setChan_lanes (d : Dev) (n : Nat) (x : PosH) : (d.setChan n x).lanes = d.lanes := rfl
@[simp] theorem Dev.setChan_ports (d : Dev) (n : Nat) (x : PosH) : (d.setChan n x).ports = d.ports := rfl
@[simp] theorem Dev.setChan_ingest (d : Dev) (n : Nat) (x : PosH) : (d.setChan n x).ingest = d.ingest := rfl
@[simp] theorem Dev.setChan_dins (d : Dev) (n : Nat) (x : PosH) : (d.setChan n x).dins = d.dins := rfl
@[simp] theorem Dev.setChan_gens (d : Dev) (n : Nat) (x : PosH) : (d.setChan n x).gens = d.gens := rfl
@[simp] theorem Dev.setChan_streams (d : Dev) (n : Nat) (x : PosH) : (d.setChan n x).streams = d.streams := rfl
@[simp] theorem Dev.setChan_outs (d : Dev) (n : Nat) (x : PosH) : (d.setChan n x).outs = d.outs := rfl
@[simp] theorem Dev.setChan_qgens (d : Dev) (n : Nat) (x : PosH) : (d.setChan n x).qgens = d.qgens := rfl
@[simp] theorem Dev.setChan_vox (d : Dev) (n : Nat) (x : PosH) : (d.setChan n x).vox = d.vox := rfl
@[simp] theorem Dev.setChan_lcus (d : Dev) (n : Nat) (x : PosH) : (d.setChan n x).lcus = d.lcus := rfl
@[simp] theorem Dev.setChan_areas (d : Dev) (n : Nat) (x : PosH) : (d.setChan n x).areas = d.areas := rfl
@[simp] theorem Dev.setChan_tracks (d : Dev) (n : Nat) (x : PosH) : (d.setChan n x).tracks = d.tracks := rfl
@[simp] theorem Dev.setChan_ces (d : Dev) (n : Nat) (x : PosH) : (d.setChan n x).ces = d.ces := rfl
@[simp] theorem Dev.setChan_hbm (d : Dev) (n : Nat) (x : PosH) : (d.setChan n x).hbm = d.hbm := rfl
@[simp] theorem Dev.setChan_wbuf (d : Dev) (n : Nat) (x : PosH) : (d.setChan n x).wbuf = d.wbuf := rfl
@[simp] theorem Dev.setChan_loops (d : Dev) (n : Nat) (x : PosH) : (d.setChan n x).loops = d.loops := rfl
@[simp] theorem Dev.setChan_links (d : Dev) (n : Nat) (x : PosH) : (d.setChan n x).links = d.links := rfl
@[simp] theorem Dev.setChan_eths (d : Dev) (n : Nat) (x : PosH) : (d.setChan n x).eths = d.eths := rfl
@[simp] theorem Dev.setChan_boot (d : Dev) (n : Nat) (x : PosH) : (d.setChan n x).boot = d.boot := rfl
@[simp] theorem Dev.setChan_nvOp (d : Dev) (n : Nat) (x : PosH) : (d.setChan n x).nvOp = d.nvOp := rfl
@[simp] theorem Dev.setChan_nvHold (d : Dev) (n : Nat) (x : PosH) : (d.setChan n x).nvHold = d.nvHold := rfl
@[simp] theorem Dev.setChan_bist (d : Dev) (n : Nat) (x : PosH) : (d.setChan n x).bist = d.bist := rfl
@[simp] theorem Dev.setChan_jtag (d : Dev) (n : Nat) (x : PosH) : (d.setChan n x).jtag = d.jtag := rfl
@[simp] theorem Dev.setChan_smbAddr (d : Dev) (n : Nat) (x : PosH) : (d.setChan n x).smbAddr = d.smbAddr := rfl
@[simp] theorem Dev.setChan_kaBad (d : Dev) (n : Nat) (x : PosH) : (d.setChan n x).kaBad = d.kaBad := rfl
@[simp] theorem Dev.setChan_sbeSeen (d : Dev) (n : Nat) (x : PosH) : (d.setChan n x).sbeSeen = d.sbeSeen := rfl
@[simp] theorem Dev.setChan_spareRows (d : Dev) (n : Nat) (x : PosH) : (d.setChan n x).spareRows = d.spareRows := rfl
@[simp] theorem Dev.setChan_nv (d : Dev) (n : Nat) (x : PosH) : (d.setChan n x).nv = d.nv := rfl
@[simp] theorem Dev.setChan_wear (d : Dev) (n : Nat) (x : PosH) : (d.setChan n x).wear = d.wear := rfl
@[simp] theorem Dev.setChan_health (d : Dev) (n : Nat) (x : PosH) : (d.setChan n x).health = d.health := rfl
@[simp] theorem Dev.setChan_clk (d : Dev) (n : Nat) (x : PosH) : (d.setChan n x).clk = d.clk := rfl
@[simp] theorem Dev.setChan_clkLost (d : Dev) (n : Nat) (x : PosH) : (d.setChan n x).clkLost = d.clkLost := rfl
@[simp] theorem Dev.setChan_ticks (d : Dev) (n : Nat) (x : PosH) : (d.setChan n x).ticks = d.ticks := rfl
@[simp] theorem Dev.setChan_taSince (d : Dev) (n : Nat) (x : PosH) : (d.setChan n x).taSince = d.taSince := rfl
@[simp] theorem Dev.setChan_firstCycle (d : Dev) (n : Nat) (x : PosH) : (d.setChan n x).firstCycle = d.firstCycle := rfl
@[simp] theorem Dev.setChan_incrDue (d : Dev) (n : Nat) (x : PosH) : (d.setChan n x).incrDue = d.incrDue := rfl
@[simp] theorem Dev.setChan_free (d : Dev) (n : Nat) (x : PosH) : (d.setChan n x).free = d.free := rfl
@[simp] theorem Dev.setChan_sent (d : Dev) (n : Nat) (x : PosH) : (d.setChan n x).sent = d.sent := rfl
@[simp] theorem Dev.setChan_rd (d : Dev) (n : Nat) (x : PosH) (g : Fld) (p q : Nat) : (d.setChan n x).rd g p q = d.rd g p q := rfl
@[simp] theorem Dev.chan_setChan (d : Dev) (n : Nat) (x : PosH) : (d.setChan n x).chan n = x := mget_mset_self _ _ _ _
theorem Dev.chan_setChan_ne (d : Dev) (n : Nat) (x : PosH) (m : Nat) (h : m ≠ n) : (d.setChan n x).chan m = d.chan m := mget_mset_ne _ _ _ _ h

/-! ### setDin -/

@[simp] theorem Dev.setDin_regs (d : Dev) (n : Nat) (x : DinH) : (d.setDin n x).regs = d.regs := rfl
@[simp] theorem Dev.setDin_tabs (d : Dev) (n : Nat) (x : DinH) : (d.setDin n x).tabs = d.tabs := rfl
@[simp] theorem Dev.setDin_bad (d : Dev) (n : Nat) (x : DinH) : (d.setDin n x).bad = d.bad := rfl
@[simp] theorem Dev.setDin_latch (d : Dev) (n : Nat) (x : DinH) : (d.setDin n x).latch = d.latch := rfl
@[simp] theorem Dev.setDin_stage (d : Dev) (n : Nat) (x : DinH) : (d.setDin n x).stage = d.stage := rfl
@[simp] theorem Dev.setDin_frozen (d : Dev) (n : Nat) (x : DinH) : (d.setDin n x).frozen = d.frozen := rfl
@[simp] theorem Dev.setDin_claims (d : Dev) (n : Nat) (x : DinH) : (d.setDin n x).claims = d.claims := rfl
@[simp] theorem Dev.setDin_queues (d : Dev) (n : Nat) (x : DinH) : (d.setDin n x).queues = d.queues := rfl
@[simp] theorem Dev.setDin_dq (d : Dev) (n : Nat) (x : DinH) : (d.setDin n x).dq = d.dq := rfl
@[simp] theorem Dev.setDin_iq (d : Dev) (n : Nat) (x : DinH) : (d.setDin n x).iq = d.iq := rfl
@[simp] theorem Dev.setDin_vecs (d : Dev) (n : Nat) (x : DinH) : (d.setDin n x).vecs = d.vecs := rfl
@[simp] theorem Dev.setDin_fns (d : Dev) (n : Nat) (x : DinH) : (d.setDin n x).fns = d.fns := rfl
@[simp] theorem Dev.setDin_lanes (d : Dev) (n : Nat) (x : DinH) : (d.setDin n x).lanes = d.lanes := rfl
@[simp] theorem Dev.setDin_ports (d : Dev) (n : Nat) (x : DinH) : (d.setDin n x).ports = d.ports := rfl
@[simp] theorem Dev.setDin_ingest (d : Dev) (n : Nat) (x : DinH) : (d.setDin n x).ingest = d.ingest := rfl
@[simp] theorem Dev.setDin_pos (d : Dev) (n : Nat) (x : DinH) : (d.setDin n x).pos = d.pos := rfl
@[simp] theorem Dev.setDin_gens (d : Dev) (n : Nat) (x : DinH) : (d.setDin n x).gens = d.gens := rfl
@[simp] theorem Dev.setDin_streams (d : Dev) (n : Nat) (x : DinH) : (d.setDin n x).streams = d.streams := rfl
@[simp] theorem Dev.setDin_outs (d : Dev) (n : Nat) (x : DinH) : (d.setDin n x).outs = d.outs := rfl
@[simp] theorem Dev.setDin_qgens (d : Dev) (n : Nat) (x : DinH) : (d.setDin n x).qgens = d.qgens := rfl
@[simp] theorem Dev.setDin_vox (d : Dev) (n : Nat) (x : DinH) : (d.setDin n x).vox = d.vox := rfl
@[simp] theorem Dev.setDin_lcus (d : Dev) (n : Nat) (x : DinH) : (d.setDin n x).lcus = d.lcus := rfl
@[simp] theorem Dev.setDin_areas (d : Dev) (n : Nat) (x : DinH) : (d.setDin n x).areas = d.areas := rfl
@[simp] theorem Dev.setDin_tracks (d : Dev) (n : Nat) (x : DinH) : (d.setDin n x).tracks = d.tracks := rfl
@[simp] theorem Dev.setDin_ces (d : Dev) (n : Nat) (x : DinH) : (d.setDin n x).ces = d.ces := rfl
@[simp] theorem Dev.setDin_hbm (d : Dev) (n : Nat) (x : DinH) : (d.setDin n x).hbm = d.hbm := rfl
@[simp] theorem Dev.setDin_wbuf (d : Dev) (n : Nat) (x : DinH) : (d.setDin n x).wbuf = d.wbuf := rfl
@[simp] theorem Dev.setDin_loops (d : Dev) (n : Nat) (x : DinH) : (d.setDin n x).loops = d.loops := rfl
@[simp] theorem Dev.setDin_links (d : Dev) (n : Nat) (x : DinH) : (d.setDin n x).links = d.links := rfl
@[simp] theorem Dev.setDin_eths (d : Dev) (n : Nat) (x : DinH) : (d.setDin n x).eths = d.eths := rfl
@[simp] theorem Dev.setDin_boot (d : Dev) (n : Nat) (x : DinH) : (d.setDin n x).boot = d.boot := rfl
@[simp] theorem Dev.setDin_nvOp (d : Dev) (n : Nat) (x : DinH) : (d.setDin n x).nvOp = d.nvOp := rfl
@[simp] theorem Dev.setDin_nvHold (d : Dev) (n : Nat) (x : DinH) : (d.setDin n x).nvHold = d.nvHold := rfl
@[simp] theorem Dev.setDin_bist (d : Dev) (n : Nat) (x : DinH) : (d.setDin n x).bist = d.bist := rfl
@[simp] theorem Dev.setDin_jtag (d : Dev) (n : Nat) (x : DinH) : (d.setDin n x).jtag = d.jtag := rfl
@[simp] theorem Dev.setDin_smbAddr (d : Dev) (n : Nat) (x : DinH) : (d.setDin n x).smbAddr = d.smbAddr := rfl
@[simp] theorem Dev.setDin_kaBad (d : Dev) (n : Nat) (x : DinH) : (d.setDin n x).kaBad = d.kaBad := rfl
@[simp] theorem Dev.setDin_sbeSeen (d : Dev) (n : Nat) (x : DinH) : (d.setDin n x).sbeSeen = d.sbeSeen := rfl
@[simp] theorem Dev.setDin_spareRows (d : Dev) (n : Nat) (x : DinH) : (d.setDin n x).spareRows = d.spareRows := rfl
@[simp] theorem Dev.setDin_nv (d : Dev) (n : Nat) (x : DinH) : (d.setDin n x).nv = d.nv := rfl
@[simp] theorem Dev.setDin_wear (d : Dev) (n : Nat) (x : DinH) : (d.setDin n x).wear = d.wear := rfl
@[simp] theorem Dev.setDin_health (d : Dev) (n : Nat) (x : DinH) : (d.setDin n x).health = d.health := rfl
@[simp] theorem Dev.setDin_clk (d : Dev) (n : Nat) (x : DinH) : (d.setDin n x).clk = d.clk := rfl
@[simp] theorem Dev.setDin_clkLost (d : Dev) (n : Nat) (x : DinH) : (d.setDin n x).clkLost = d.clkLost := rfl
@[simp] theorem Dev.setDin_ticks (d : Dev) (n : Nat) (x : DinH) : (d.setDin n x).ticks = d.ticks := rfl
@[simp] theorem Dev.setDin_taSince (d : Dev) (n : Nat) (x : DinH) : (d.setDin n x).taSince = d.taSince := rfl
@[simp] theorem Dev.setDin_firstCycle (d : Dev) (n : Nat) (x : DinH) : (d.setDin n x).firstCycle = d.firstCycle := rfl
@[simp] theorem Dev.setDin_incrDue (d : Dev) (n : Nat) (x : DinH) : (d.setDin n x).incrDue = d.incrDue := rfl
@[simp] theorem Dev.setDin_free (d : Dev) (n : Nat) (x : DinH) : (d.setDin n x).free = d.free := rfl
@[simp] theorem Dev.setDin_sent (d : Dev) (n : Nat) (x : DinH) : (d.setDin n x).sent = d.sent := rfl
@[simp] theorem Dev.setDin_rd (d : Dev) (n : Nat) (x : DinH) (g : Fld) (p q : Nat) : (d.setDin n x).rd g p q = d.rd g p q := rfl
@[simp] theorem Dev.din_setDin (d : Dev) (n : Nat) (x : DinH) : (d.setDin n x).din n = x := mget_mset_self _ _ _ _
theorem Dev.din_setDin_ne (d : Dev) (n : Nat) (x : DinH) (m : Nat) (h : m ≠ n) : (d.setDin n x).din m = d.din m := mget_mset_ne _ _ _ _ h

/-! ### setGen -/

@[simp] theorem Dev.setGen_regs (d : Dev) (n : Nat) (x : GenH) : (d.setGen n x).regs = d.regs := rfl
@[simp] theorem Dev.setGen_tabs (d : Dev) (n : Nat) (x : GenH) : (d.setGen n x).tabs = d.tabs := rfl
@[simp] theorem Dev.setGen_bad (d : Dev) (n : Nat) (x : GenH) : (d.setGen n x).bad = d.bad := rfl
@[simp] theorem Dev.setGen_latch (d : Dev) (n : Nat) (x : GenH) : (d.setGen n x).latch = d.latch := rfl
@[simp] theorem Dev.setGen_stage (d : Dev) (n : Nat) (x : GenH) : (d.setGen n x).stage = d.stage := rfl
@[simp] theorem Dev.setGen_frozen (d : Dev) (n : Nat) (x : GenH) : (d.setGen n x).frozen = d.frozen := rfl
@[simp] theorem Dev.setGen_claims (d : Dev) (n : Nat) (x : GenH) : (d.setGen n x).claims = d.claims := rfl
@[simp] theorem Dev.setGen_queues (d : Dev) (n : Nat) (x : GenH) : (d.setGen n x).queues = d.queues := rfl
@[simp] theorem Dev.setGen_dq (d : Dev) (n : Nat) (x : GenH) : (d.setGen n x).dq = d.dq := rfl
@[simp] theorem Dev.setGen_iq (d : Dev) (n : Nat) (x : GenH) : (d.setGen n x).iq = d.iq := rfl
@[simp] theorem Dev.setGen_vecs (d : Dev) (n : Nat) (x : GenH) : (d.setGen n x).vecs = d.vecs := rfl
@[simp] theorem Dev.setGen_fns (d : Dev) (n : Nat) (x : GenH) : (d.setGen n x).fns = d.fns := rfl
@[simp] theorem Dev.setGen_lanes (d : Dev) (n : Nat) (x : GenH) : (d.setGen n x).lanes = d.lanes := rfl
@[simp] theorem Dev.setGen_ports (d : Dev) (n : Nat) (x : GenH) : (d.setGen n x).ports = d.ports := rfl
@[simp] theorem Dev.setGen_ingest (d : Dev) (n : Nat) (x : GenH) : (d.setGen n x).ingest = d.ingest := rfl
@[simp] theorem Dev.setGen_pos (d : Dev) (n : Nat) (x : GenH) : (d.setGen n x).pos = d.pos := rfl
@[simp] theorem Dev.setGen_dins (d : Dev) (n : Nat) (x : GenH) : (d.setGen n x).dins = d.dins := rfl
@[simp] theorem Dev.setGen_streams (d : Dev) (n : Nat) (x : GenH) : (d.setGen n x).streams = d.streams := rfl
@[simp] theorem Dev.setGen_outs (d : Dev) (n : Nat) (x : GenH) : (d.setGen n x).outs = d.outs := rfl
@[simp] theorem Dev.setGen_qgens (d : Dev) (n : Nat) (x : GenH) : (d.setGen n x).qgens = d.qgens := rfl
@[simp] theorem Dev.setGen_vox (d : Dev) (n : Nat) (x : GenH) : (d.setGen n x).vox = d.vox := rfl
@[simp] theorem Dev.setGen_lcus (d : Dev) (n : Nat) (x : GenH) : (d.setGen n x).lcus = d.lcus := rfl
@[simp] theorem Dev.setGen_areas (d : Dev) (n : Nat) (x : GenH) : (d.setGen n x).areas = d.areas := rfl
@[simp] theorem Dev.setGen_tracks (d : Dev) (n : Nat) (x : GenH) : (d.setGen n x).tracks = d.tracks := rfl
@[simp] theorem Dev.setGen_ces (d : Dev) (n : Nat) (x : GenH) : (d.setGen n x).ces = d.ces := rfl
@[simp] theorem Dev.setGen_hbm (d : Dev) (n : Nat) (x : GenH) : (d.setGen n x).hbm = d.hbm := rfl
@[simp] theorem Dev.setGen_wbuf (d : Dev) (n : Nat) (x : GenH) : (d.setGen n x).wbuf = d.wbuf := rfl
@[simp] theorem Dev.setGen_loops (d : Dev) (n : Nat) (x : GenH) : (d.setGen n x).loops = d.loops := rfl
@[simp] theorem Dev.setGen_links (d : Dev) (n : Nat) (x : GenH) : (d.setGen n x).links = d.links := rfl
@[simp] theorem Dev.setGen_eths (d : Dev) (n : Nat) (x : GenH) : (d.setGen n x).eths = d.eths := rfl
@[simp] theorem Dev.setGen_boot (d : Dev) (n : Nat) (x : GenH) : (d.setGen n x).boot = d.boot := rfl
@[simp] theorem Dev.setGen_nvOp (d : Dev) (n : Nat) (x : GenH) : (d.setGen n x).nvOp = d.nvOp := rfl
@[simp] theorem Dev.setGen_nvHold (d : Dev) (n : Nat) (x : GenH) : (d.setGen n x).nvHold = d.nvHold := rfl
@[simp] theorem Dev.setGen_bist (d : Dev) (n : Nat) (x : GenH) : (d.setGen n x).bist = d.bist := rfl
@[simp] theorem Dev.setGen_jtag (d : Dev) (n : Nat) (x : GenH) : (d.setGen n x).jtag = d.jtag := rfl
@[simp] theorem Dev.setGen_smbAddr (d : Dev) (n : Nat) (x : GenH) : (d.setGen n x).smbAddr = d.smbAddr := rfl
@[simp] theorem Dev.setGen_kaBad (d : Dev) (n : Nat) (x : GenH) : (d.setGen n x).kaBad = d.kaBad := rfl
@[simp] theorem Dev.setGen_sbeSeen (d : Dev) (n : Nat) (x : GenH) : (d.setGen n x).sbeSeen = d.sbeSeen := rfl
@[simp] theorem Dev.setGen_spareRows (d : Dev) (n : Nat) (x : GenH) : (d.setGen n x).spareRows = d.spareRows := rfl
@[simp] theorem Dev.setGen_nv (d : Dev) (n : Nat) (x : GenH) : (d.setGen n x).nv = d.nv := rfl
@[simp] theorem Dev.setGen_wear (d : Dev) (n : Nat) (x : GenH) : (d.setGen n x).wear = d.wear := rfl
@[simp] theorem Dev.setGen_health (d : Dev) (n : Nat) (x : GenH) : (d.setGen n x).health = d.health := rfl
@[simp] theorem Dev.setGen_clk (d : Dev) (n : Nat) (x : GenH) : (d.setGen n x).clk = d.clk := rfl
@[simp] theorem Dev.setGen_clkLost (d : Dev) (n : Nat) (x : GenH) : (d.setGen n x).clkLost = d.clkLost := rfl
@[simp] theorem Dev.setGen_ticks (d : Dev) (n : Nat) (x : GenH) : (d.setGen n x).ticks = d.ticks := rfl
@[simp] theorem Dev.setGen_taSince (d : Dev) (n : Nat) (x : GenH) : (d.setGen n x).taSince = d.taSince := rfl
@[simp] theorem Dev.setGen_firstCycle (d : Dev) (n : Nat) (x : GenH) : (d.setGen n x).firstCycle = d.firstCycle := rfl
@[simp] theorem Dev.setGen_incrDue (d : Dev) (n : Nat) (x : GenH) : (d.setGen n x).incrDue = d.incrDue := rfl
@[simp] theorem Dev.setGen_free (d : Dev) (n : Nat) (x : GenH) : (d.setGen n x).free = d.free := rfl
@[simp] theorem Dev.setGen_sent (d : Dev) (n : Nat) (x : GenH) : (d.setGen n x).sent = d.sent := rfl
@[simp] theorem Dev.setGen_rd (d : Dev) (n : Nat) (x : GenH) (g : Fld) (p q : Nat) : (d.setGen n x).rd g p q = d.rd g p q := rfl
@[simp] theorem Dev.gen_setGen (d : Dev) (n : Nat) (x : GenH) : (d.setGen n x).gen n = x := mget_mset_self _ _ _ _
theorem Dev.gen_setGen_ne (d : Dev) (n : Nat) (x : GenH) (m : Nat) (h : m ≠ n) : (d.setGen n x).gen m = d.gen m := mget_mset_ne _ _ _ _ h

/-! ### setStream -/

@[simp] theorem Dev.setStream_regs (d : Dev) (n : Nat) (x : CsH) : (d.setStream n x).regs = d.regs := rfl
@[simp] theorem Dev.setStream_tabs (d : Dev) (n : Nat) (x : CsH) : (d.setStream n x).tabs = d.tabs := rfl
@[simp] theorem Dev.setStream_bad (d : Dev) (n : Nat) (x : CsH) : (d.setStream n x).bad = d.bad := rfl
@[simp] theorem Dev.setStream_latch (d : Dev) (n : Nat) (x : CsH) : (d.setStream n x).latch = d.latch := rfl
@[simp] theorem Dev.setStream_stage (d : Dev) (n : Nat) (x : CsH) : (d.setStream n x).stage = d.stage := rfl
@[simp] theorem Dev.setStream_frozen (d : Dev) (n : Nat) (x : CsH) : (d.setStream n x).frozen = d.frozen := rfl
@[simp] theorem Dev.setStream_claims (d : Dev) (n : Nat) (x : CsH) : (d.setStream n x).claims = d.claims := rfl
@[simp] theorem Dev.setStream_queues (d : Dev) (n : Nat) (x : CsH) : (d.setStream n x).queues = d.queues := rfl
@[simp] theorem Dev.setStream_dq (d : Dev) (n : Nat) (x : CsH) : (d.setStream n x).dq = d.dq := rfl
@[simp] theorem Dev.setStream_iq (d : Dev) (n : Nat) (x : CsH) : (d.setStream n x).iq = d.iq := rfl
@[simp] theorem Dev.setStream_vecs (d : Dev) (n : Nat) (x : CsH) : (d.setStream n x).vecs = d.vecs := rfl
@[simp] theorem Dev.setStream_fns (d : Dev) (n : Nat) (x : CsH) : (d.setStream n x).fns = d.fns := rfl
@[simp] theorem Dev.setStream_lanes (d : Dev) (n : Nat) (x : CsH) : (d.setStream n x).lanes = d.lanes := rfl
@[simp] theorem Dev.setStream_ports (d : Dev) (n : Nat) (x : CsH) : (d.setStream n x).ports = d.ports := rfl
@[simp] theorem Dev.setStream_ingest (d : Dev) (n : Nat) (x : CsH) : (d.setStream n x).ingest = d.ingest := rfl
@[simp] theorem Dev.setStream_pos (d : Dev) (n : Nat) (x : CsH) : (d.setStream n x).pos = d.pos := rfl
@[simp] theorem Dev.setStream_dins (d : Dev) (n : Nat) (x : CsH) : (d.setStream n x).dins = d.dins := rfl
@[simp] theorem Dev.setStream_gens (d : Dev) (n : Nat) (x : CsH) : (d.setStream n x).gens = d.gens := rfl
@[simp] theorem Dev.setStream_outs (d : Dev) (n : Nat) (x : CsH) : (d.setStream n x).outs = d.outs := rfl
@[simp] theorem Dev.setStream_qgens (d : Dev) (n : Nat) (x : CsH) : (d.setStream n x).qgens = d.qgens := rfl
@[simp] theorem Dev.setStream_vox (d : Dev) (n : Nat) (x : CsH) : (d.setStream n x).vox = d.vox := rfl
@[simp] theorem Dev.setStream_lcus (d : Dev) (n : Nat) (x : CsH) : (d.setStream n x).lcus = d.lcus := rfl
@[simp] theorem Dev.setStream_areas (d : Dev) (n : Nat) (x : CsH) : (d.setStream n x).areas = d.areas := rfl
@[simp] theorem Dev.setStream_tracks (d : Dev) (n : Nat) (x : CsH) : (d.setStream n x).tracks = d.tracks := rfl
@[simp] theorem Dev.setStream_ces (d : Dev) (n : Nat) (x : CsH) : (d.setStream n x).ces = d.ces := rfl
@[simp] theorem Dev.setStream_hbm (d : Dev) (n : Nat) (x : CsH) : (d.setStream n x).hbm = d.hbm := rfl
@[simp] theorem Dev.setStream_wbuf (d : Dev) (n : Nat) (x : CsH) : (d.setStream n x).wbuf = d.wbuf := rfl
@[simp] theorem Dev.setStream_loops (d : Dev) (n : Nat) (x : CsH) : (d.setStream n x).loops = d.loops := rfl
@[simp] theorem Dev.setStream_links (d : Dev) (n : Nat) (x : CsH) : (d.setStream n x).links = d.links := rfl
@[simp] theorem Dev.setStream_eths (d : Dev) (n : Nat) (x : CsH) : (d.setStream n x).eths = d.eths := rfl
@[simp] theorem Dev.setStream_boot (d : Dev) (n : Nat) (x : CsH) : (d.setStream n x).boot = d.boot := rfl
@[simp] theorem Dev.setStream_nvOp (d : Dev) (n : Nat) (x : CsH) : (d.setStream n x).nvOp = d.nvOp := rfl
@[simp] theorem Dev.setStream_nvHold (d : Dev) (n : Nat) (x : CsH) : (d.setStream n x).nvHold = d.nvHold := rfl
@[simp] theorem Dev.setStream_bist (d : Dev) (n : Nat) (x : CsH) : (d.setStream n x).bist = d.bist := rfl
@[simp] theorem Dev.setStream_jtag (d : Dev) (n : Nat) (x : CsH) : (d.setStream n x).jtag = d.jtag := rfl
@[simp] theorem Dev.setStream_smbAddr (d : Dev) (n : Nat) (x : CsH) : (d.setStream n x).smbAddr = d.smbAddr := rfl
@[simp] theorem Dev.setStream_kaBad (d : Dev) (n : Nat) (x : CsH) : (d.setStream n x).kaBad = d.kaBad := rfl
@[simp] theorem Dev.setStream_sbeSeen (d : Dev) (n : Nat) (x : CsH) : (d.setStream n x).sbeSeen = d.sbeSeen := rfl
@[simp] theorem Dev.setStream_spareRows (d : Dev) (n : Nat) (x : CsH) : (d.setStream n x).spareRows = d.spareRows := rfl
@[simp] theorem Dev.setStream_nv (d : Dev) (n : Nat) (x : CsH) : (d.setStream n x).nv = d.nv := rfl
@[simp] theorem Dev.setStream_wear (d : Dev) (n : Nat) (x : CsH) : (d.setStream n x).wear = d.wear := rfl
@[simp] theorem Dev.setStream_health (d : Dev) (n : Nat) (x : CsH) : (d.setStream n x).health = d.health := rfl
@[simp] theorem Dev.setStream_clk (d : Dev) (n : Nat) (x : CsH) : (d.setStream n x).clk = d.clk := rfl
@[simp] theorem Dev.setStream_clkLost (d : Dev) (n : Nat) (x : CsH) : (d.setStream n x).clkLost = d.clkLost := rfl
@[simp] theorem Dev.setStream_ticks (d : Dev) (n : Nat) (x : CsH) : (d.setStream n x).ticks = d.ticks := rfl
@[simp] theorem Dev.setStream_taSince (d : Dev) (n : Nat) (x : CsH) : (d.setStream n x).taSince = d.taSince := rfl
@[simp] theorem Dev.setStream_firstCycle (d : Dev) (n : Nat) (x : CsH) : (d.setStream n x).firstCycle = d.firstCycle := rfl
@[simp] theorem Dev.setStream_incrDue (d : Dev) (n : Nat) (x : CsH) : (d.setStream n x).incrDue = d.incrDue := rfl
@[simp] theorem Dev.setStream_free (d : Dev) (n : Nat) (x : CsH) : (d.setStream n x).free = d.free := rfl
@[simp] theorem Dev.setStream_sent (d : Dev) (n : Nat) (x : CsH) : (d.setStream n x).sent = d.sent := rfl
@[simp] theorem Dev.setStream_rd (d : Dev) (n : Nat) (x : CsH) (g : Fld) (p q : Nat) : (d.setStream n x).rd g p q = d.rd g p q := rfl
@[simp] theorem Dev.stream_setStream (d : Dev) (n : Nat) (x : CsH) : (d.setStream n x).stream n = x := mget_mset_self _ _ _ _
theorem Dev.stream_setStream_ne (d : Dev) (n : Nat) (x : CsH) (m : Nat) (h : m ≠ n) : (d.setStream n x).stream m = d.stream m := mget_mset_ne _ _ _ _ h

/-! ### setOutp -/

@[simp] theorem Dev.setOutp_regs (d : Dev) (n : Nat) (x : OutH) : (d.setOutp n x).regs = d.regs := rfl
@[simp] theorem Dev.setOutp_tabs (d : Dev) (n : Nat) (x : OutH) : (d.setOutp n x).tabs = d.tabs := rfl
@[simp] theorem Dev.setOutp_bad (d : Dev) (n : Nat) (x : OutH) : (d.setOutp n x).bad = d.bad := rfl
@[simp] theorem Dev.setOutp_latch (d : Dev) (n : Nat) (x : OutH) : (d.setOutp n x).latch = d.latch := rfl
@[simp] theorem Dev.setOutp_stage (d : Dev) (n : Nat) (x : OutH) : (d.setOutp n x).stage = d.stage := rfl
@[simp] theorem Dev.setOutp_frozen (d : Dev) (n : Nat) (x : OutH) : (d.setOutp n x).frozen = d.frozen := rfl
@[simp] theorem Dev.setOutp_claims (d : Dev) (n : Nat) (x : OutH) : (d.setOutp n x).claims = d.claims := rfl
@[simp] theorem Dev.setOutp_queues (d : Dev) (n : Nat) (x : OutH) : (d.setOutp n x).queues = d.queues := rfl
@[simp] theorem Dev.setOutp_dq (d : Dev) (n : Nat) (x : OutH) : (d.setOutp n x).dq = d.dq := rfl
@[simp] theorem Dev.setOutp_iq (d : Dev) (n : Nat) (x : OutH) : (d.setOutp n x).iq = d.iq := rfl
@[simp] theorem Dev.setOutp_vecs (d : Dev) (n : Nat) (x : OutH) : (d.setOutp n x).vecs = d.vecs := rfl
@[simp] theorem Dev.setOutp_fns (d : Dev) (n : Nat) (x : OutH) : (d.setOutp n x).fns = d.fns := rfl
@[simp] theorem Dev.setOutp_lanes (d : Dev) (n : Nat) (x : OutH) : (d.setOutp n x).lanes = d.lanes := rfl
@[simp] theorem Dev.setOutp_ports (d : Dev) (n : Nat) (x : OutH) : (d.setOutp n x).ports = d.ports := rfl
@[simp] theorem Dev.setOutp_ingest (d : Dev) (n : Nat) (x : OutH) : (d.setOutp n x).ingest = d.ingest := rfl
@[simp] theorem Dev.setOutp_pos (d : Dev) (n : Nat) (x : OutH) : (d.setOutp n x).pos = d.pos := rfl
@[simp] theorem Dev.setOutp_dins (d : Dev) (n : Nat) (x : OutH) : (d.setOutp n x).dins = d.dins := rfl
@[simp] theorem Dev.setOutp_gens (d : Dev) (n : Nat) (x : OutH) : (d.setOutp n x).gens = d.gens := rfl
@[simp] theorem Dev.setOutp_streams (d : Dev) (n : Nat) (x : OutH) : (d.setOutp n x).streams = d.streams := rfl
@[simp] theorem Dev.setOutp_qgens (d : Dev) (n : Nat) (x : OutH) : (d.setOutp n x).qgens = d.qgens := rfl
@[simp] theorem Dev.setOutp_vox (d : Dev) (n : Nat) (x : OutH) : (d.setOutp n x).vox = d.vox := rfl
@[simp] theorem Dev.setOutp_lcus (d : Dev) (n : Nat) (x : OutH) : (d.setOutp n x).lcus = d.lcus := rfl
@[simp] theorem Dev.setOutp_areas (d : Dev) (n : Nat) (x : OutH) : (d.setOutp n x).areas = d.areas := rfl
@[simp] theorem Dev.setOutp_tracks (d : Dev) (n : Nat) (x : OutH) : (d.setOutp n x).tracks = d.tracks := rfl
@[simp] theorem Dev.setOutp_ces (d : Dev) (n : Nat) (x : OutH) : (d.setOutp n x).ces = d.ces := rfl
@[simp] theorem Dev.setOutp_hbm (d : Dev) (n : Nat) (x : OutH) : (d.setOutp n x).hbm = d.hbm := rfl
@[simp] theorem Dev.setOutp_wbuf (d : Dev) (n : Nat) (x : OutH) : (d.setOutp n x).wbuf = d.wbuf := rfl
@[simp] theorem Dev.setOutp_loops (d : Dev) (n : Nat) (x : OutH) : (d.setOutp n x).loops = d.loops := rfl
@[simp] theorem Dev.setOutp_links (d : Dev) (n : Nat) (x : OutH) : (d.setOutp n x).links = d.links := rfl
@[simp] theorem Dev.setOutp_eths (d : Dev) (n : Nat) (x : OutH) : (d.setOutp n x).eths = d.eths := rfl
@[simp] theorem Dev.setOutp_boot (d : Dev) (n : Nat) (x : OutH) : (d.setOutp n x).boot = d.boot := rfl
@[simp] theorem Dev.setOutp_nvOp (d : Dev) (n : Nat) (x : OutH) : (d.setOutp n x).nvOp = d.nvOp := rfl
@[simp] theorem Dev.setOutp_nvHold (d : Dev) (n : Nat) (x : OutH) : (d.setOutp n x).nvHold = d.nvHold := rfl
@[simp] theorem Dev.setOutp_bist (d : Dev) (n : Nat) (x : OutH) : (d.setOutp n x).bist = d.bist := rfl
@[simp] theorem Dev.setOutp_jtag (d : Dev) (n : Nat) (x : OutH) : (d.setOutp n x).jtag = d.jtag := rfl
@[simp] theorem Dev.setOutp_smbAddr (d : Dev) (n : Nat) (x : OutH) : (d.setOutp n x).smbAddr = d.smbAddr := rfl
@[simp] theorem Dev.setOutp_kaBad (d : Dev) (n : Nat) (x : OutH) : (d.setOutp n x).kaBad = d.kaBad := rfl
@[simp] theorem Dev.setOutp_sbeSeen (d : Dev) (n : Nat) (x : OutH) : (d.setOutp n x).sbeSeen = d.sbeSeen := rfl
@[simp] theorem Dev.setOutp_spareRows (d : Dev) (n : Nat) (x : OutH) : (d.setOutp n x).spareRows = d.spareRows := rfl
@[simp] theorem Dev.setOutp_nv (d : Dev) (n : Nat) (x : OutH) : (d.setOutp n x).nv = d.nv := rfl
@[simp] theorem Dev.setOutp_wear (d : Dev) (n : Nat) (x : OutH) : (d.setOutp n x).wear = d.wear := rfl
@[simp] theorem Dev.setOutp_health (d : Dev) (n : Nat) (x : OutH) : (d.setOutp n x).health = d.health := rfl
@[simp] theorem Dev.setOutp_clk (d : Dev) (n : Nat) (x : OutH) : (d.setOutp n x).clk = d.clk := rfl
@[simp] theorem Dev.setOutp_clkLost (d : Dev) (n : Nat) (x : OutH) : (d.setOutp n x).clkLost = d.clkLost := rfl
@[simp] theorem Dev.setOutp_ticks (d : Dev) (n : Nat) (x : OutH) : (d.setOutp n x).ticks = d.ticks := rfl
@[simp] theorem Dev.setOutp_taSince (d : Dev) (n : Nat) (x : OutH) : (d.setOutp n x).taSince = d.taSince := rfl
@[simp] theorem Dev.setOutp_firstCycle (d : Dev) (n : Nat) (x : OutH) : (d.setOutp n x).firstCycle = d.firstCycle := rfl
@[simp] theorem Dev.setOutp_incrDue (d : Dev) (n : Nat) (x : OutH) : (d.setOutp n x).incrDue = d.incrDue := rfl
@[simp] theorem Dev.setOutp_free (d : Dev) (n : Nat) (x : OutH) : (d.setOutp n x).free = d.free := rfl
@[simp] theorem Dev.setOutp_sent (d : Dev) (n : Nat) (x : OutH) : (d.setOutp n x).sent = d.sent := rfl
@[simp] theorem Dev.setOutp_rd (d : Dev) (n : Nat) (x : OutH) (g : Fld) (p q : Nat) : (d.setOutp n x).rd g p q = d.rd g p q := rfl
@[simp] theorem Dev.outp_setOutp (d : Dev) (n : Nat) (x : OutH) : (d.setOutp n x).outp n = x := mget_mset_self _ _ _ _
theorem Dev.outp_setOutp_ne (d : Dev) (n : Nat) (x : OutH) (m : Nat) (h : m ≠ n) : (d.setOutp n x).outp m = d.outp m := mget_mset_ne _ _ _ _ h

/-! ### setQueue -/

@[simp] theorem Dev.setQueue_regs (d : Dev) (n : Nat) (x : QueueH) : (d.setQueue n x).regs = d.regs := rfl
@[simp] theorem Dev.setQueue_tabs (d : Dev) (n : Nat) (x : QueueH) : (d.setQueue n x).tabs = d.tabs := rfl
@[simp] theorem Dev.setQueue_bad (d : Dev) (n : Nat) (x : QueueH) : (d.setQueue n x).bad = d.bad := rfl
@[simp] theorem Dev.setQueue_latch (d : Dev) (n : Nat) (x : QueueH) : (d.setQueue n x).latch = d.latch := rfl
@[simp] theorem Dev.setQueue_stage (d : Dev) (n : Nat) (x : QueueH) : (d.setQueue n x).stage = d.stage := rfl
@[simp] theorem Dev.setQueue_frozen (d : Dev) (n : Nat) (x : QueueH) : (d.setQueue n x).frozen = d.frozen := rfl
@[simp] theorem Dev.setQueue_claims (d : Dev) (n : Nat) (x : QueueH) : (d.setQueue n x).claims = d.claims := rfl
@[simp] theorem Dev.setQueue_dq (d : Dev) (n : Nat) (x : QueueH) : (d.setQueue n x).dq = d.dq := rfl
@[simp] theorem Dev.setQueue_iq (d : Dev) (n : Nat) (x : QueueH) : (d.setQueue n x).iq = d.iq := rfl
@[simp] theorem Dev.setQueue_vecs (d : Dev) (n : Nat) (x : QueueH) : (d.setQueue n x).vecs = d.vecs := rfl
@[simp] theorem Dev.setQueue_fns (d : Dev) (n : Nat) (x : QueueH) : (d.setQueue n x).fns = d.fns := rfl
@[simp] theorem Dev.setQueue_lanes (d : Dev) (n : Nat) (x : QueueH) : (d.setQueue n x).lanes = d.lanes := rfl
@[simp] theorem Dev.setQueue_ports (d : Dev) (n : Nat) (x : QueueH) : (d.setQueue n x).ports = d.ports := rfl
@[simp] theorem Dev.setQueue_ingest (d : Dev) (n : Nat) (x : QueueH) : (d.setQueue n x).ingest = d.ingest := rfl
@[simp] theorem Dev.setQueue_pos (d : Dev) (n : Nat) (x : QueueH) : (d.setQueue n x).pos = d.pos := rfl
@[simp] theorem Dev.setQueue_dins (d : Dev) (n : Nat) (x : QueueH) : (d.setQueue n x).dins = d.dins := rfl
@[simp] theorem Dev.setQueue_gens (d : Dev) (n : Nat) (x : QueueH) : (d.setQueue n x).gens = d.gens := rfl
@[simp] theorem Dev.setQueue_streams (d : Dev) (n : Nat) (x : QueueH) : (d.setQueue n x).streams = d.streams := rfl
@[simp] theorem Dev.setQueue_outs (d : Dev) (n : Nat) (x : QueueH) : (d.setQueue n x).outs = d.outs := rfl
@[simp] theorem Dev.setQueue_qgens (d : Dev) (n : Nat) (x : QueueH) : (d.setQueue n x).qgens = d.qgens := rfl
@[simp] theorem Dev.setQueue_vox (d : Dev) (n : Nat) (x : QueueH) : (d.setQueue n x).vox = d.vox := rfl
@[simp] theorem Dev.setQueue_lcus (d : Dev) (n : Nat) (x : QueueH) : (d.setQueue n x).lcus = d.lcus := rfl
@[simp] theorem Dev.setQueue_areas (d : Dev) (n : Nat) (x : QueueH) : (d.setQueue n x).areas = d.areas := rfl
@[simp] theorem Dev.setQueue_tracks (d : Dev) (n : Nat) (x : QueueH) : (d.setQueue n x).tracks = d.tracks := rfl
@[simp] theorem Dev.setQueue_ces (d : Dev) (n : Nat) (x : QueueH) : (d.setQueue n x).ces = d.ces := rfl
@[simp] theorem Dev.setQueue_hbm (d : Dev) (n : Nat) (x : QueueH) : (d.setQueue n x).hbm = d.hbm := rfl
@[simp] theorem Dev.setQueue_wbuf (d : Dev) (n : Nat) (x : QueueH) : (d.setQueue n x).wbuf = d.wbuf := rfl
@[simp] theorem Dev.setQueue_loops (d : Dev) (n : Nat) (x : QueueH) : (d.setQueue n x).loops = d.loops := rfl
@[simp] theorem Dev.setQueue_links (d : Dev) (n : Nat) (x : QueueH) : (d.setQueue n x).links = d.links := rfl
@[simp] theorem Dev.setQueue_eths (d : Dev) (n : Nat) (x : QueueH) : (d.setQueue n x).eths = d.eths := rfl
@[simp] theorem Dev.setQueue_boot (d : Dev) (n : Nat) (x : QueueH) : (d.setQueue n x).boot = d.boot := rfl
@[simp] theorem Dev.setQueue_nvOp (d : Dev) (n : Nat) (x : QueueH) : (d.setQueue n x).nvOp = d.nvOp := rfl
@[simp] theorem Dev.setQueue_nvHold (d : Dev) (n : Nat) (x : QueueH) : (d.setQueue n x).nvHold = d.nvHold := rfl
@[simp] theorem Dev.setQueue_bist (d : Dev) (n : Nat) (x : QueueH) : (d.setQueue n x).bist = d.bist := rfl
@[simp] theorem Dev.setQueue_jtag (d : Dev) (n : Nat) (x : QueueH) : (d.setQueue n x).jtag = d.jtag := rfl
@[simp] theorem Dev.setQueue_smbAddr (d : Dev) (n : Nat) (x : QueueH) : (d.setQueue n x).smbAddr = d.smbAddr := rfl
@[simp] theorem Dev.setQueue_kaBad (d : Dev) (n : Nat) (x : QueueH) : (d.setQueue n x).kaBad = d.kaBad := rfl
@[simp] theorem Dev.setQueue_sbeSeen (d : Dev) (n : Nat) (x : QueueH) : (d.setQueue n x).sbeSeen = d.sbeSeen := rfl
@[simp] theorem Dev.setQueue_spareRows (d : Dev) (n : Nat) (x : QueueH) : (d.setQueue n x).spareRows = d.spareRows := rfl
@[simp] theorem Dev.setQueue_nv (d : Dev) (n : Nat) (x : QueueH) : (d.setQueue n x).nv = d.nv := rfl
@[simp] theorem Dev.setQueue_wear (d : Dev) (n : Nat) (x : QueueH) : (d.setQueue n x).wear = d.wear := rfl
@[simp] theorem Dev.setQueue_health (d : Dev) (n : Nat) (x : QueueH) : (d.setQueue n x).health = d.health := rfl
@[simp] theorem Dev.setQueue_clk (d : Dev) (n : Nat) (x : QueueH) : (d.setQueue n x).clk = d.clk := rfl
@[simp] theorem Dev.setQueue_clkLost (d : Dev) (n : Nat) (x : QueueH) : (d.setQueue n x).clkLost = d.clkLost := rfl
@[simp] theorem Dev.setQueue_ticks (d : Dev) (n : Nat) (x : QueueH) : (d.setQueue n x).ticks = d.ticks := rfl
@[simp] theorem Dev.setQueue_taSince (d : Dev) (n : Nat) (x : QueueH) : (d.setQueue n x).taSince = d.taSince := rfl
@[simp] theorem Dev.setQueue_firstCycle (d : Dev) (n : Nat) (x : QueueH) : (d.setQueue n x).firstCycle = d.firstCycle := rfl
@[simp] theorem Dev.setQueue_incrDue (d : Dev) (n : Nat) (x : QueueH) : (d.setQueue n x).incrDue = d.incrDue := rfl
@[simp] theorem Dev.setQueue_free (d : Dev) (n : Nat) (x : QueueH) : (d.setQueue n x).free = d.free := rfl
@[simp] theorem Dev.setQueue_sent (d : Dev) (n : Nat) (x : QueueH) : (d.setQueue n x).sent = d.sent := rfl
@[simp] theorem Dev.setQueue_rd (d : Dev) (n : Nat) (x : QueueH) (g : Fld) (p q : Nat) : (d.setQueue n x).rd g p q = d.rd g p q := rfl
@[simp] theorem Dev.queue_setQueue (d : Dev) (n : Nat) (x : QueueH) : (d.setQueue n x).queue n = x := mget_mset_self _ _ _ _
theorem Dev.queue_setQueue_ne (d : Dev) (n : Nat) (x : QueueH) (m : Nat) (h : m ≠ n) : (d.setQueue n x).queue m = d.queue m := mget_mset_ne _ _ _ _ h

/-! ### setDqh -/

@[simp] theorem Dev.setDqh_regs (d : Dev) (n : Nat) (x : DqH) : (d.setDqh n x).regs = d.regs := rfl
@[simp] theorem Dev.setDqh_tabs (d : Dev) (n : Nat) (x : DqH) : (d.setDqh n x).tabs = d.tabs := rfl
@[simp] theorem Dev.setDqh_bad (d : Dev) (n : Nat) (x : DqH) : (d.setDqh n x).bad = d.bad := rfl
@[simp] theorem Dev.setDqh_latch (d : Dev) (n : Nat) (x : DqH) : (d.setDqh n x).latch = d.latch := rfl
@[simp] theorem Dev.setDqh_stage (d : Dev) (n : Nat) (x : DqH) : (d.setDqh n x).stage = d.stage := rfl
@[simp] theorem Dev.setDqh_frozen (d : Dev) (n : Nat) (x : DqH) : (d.setDqh n x).frozen = d.frozen := rfl
@[simp] theorem Dev.setDqh_claims (d : Dev) (n : Nat) (x : DqH) : (d.setDqh n x).claims = d.claims := rfl
@[simp] theorem Dev.setDqh_queues (d : Dev) (n : Nat) (x : DqH) : (d.setDqh n x).queues = d.queues := rfl
@[simp] theorem Dev.setDqh_iq (d : Dev) (n : Nat) (x : DqH) : (d.setDqh n x).iq = d.iq := rfl
@[simp] theorem Dev.setDqh_vecs (d : Dev) (n : Nat) (x : DqH) : (d.setDqh n x).vecs = d.vecs := rfl
@[simp] theorem Dev.setDqh_fns (d : Dev) (n : Nat) (x : DqH) : (d.setDqh n x).fns = d.fns := rfl
@[simp] theorem Dev.setDqh_lanes (d : Dev) (n : Nat) (x : DqH) : (d.setDqh n x).lanes = d.lanes := rfl
@[simp] theorem Dev.setDqh_ports (d : Dev) (n : Nat) (x : DqH) : (d.setDqh n x).ports = d.ports := rfl
@[simp] theorem Dev.setDqh_ingest (d : Dev) (n : Nat) (x : DqH) : (d.setDqh n x).ingest = d.ingest := rfl
@[simp] theorem Dev.setDqh_pos (d : Dev) (n : Nat) (x : DqH) : (d.setDqh n x).pos = d.pos := rfl
@[simp] theorem Dev.setDqh_dins (d : Dev) (n : Nat) (x : DqH) : (d.setDqh n x).dins = d.dins := rfl
@[simp] theorem Dev.setDqh_gens (d : Dev) (n : Nat) (x : DqH) : (d.setDqh n x).gens = d.gens := rfl
@[simp] theorem Dev.setDqh_streams (d : Dev) (n : Nat) (x : DqH) : (d.setDqh n x).streams = d.streams := rfl
@[simp] theorem Dev.setDqh_outs (d : Dev) (n : Nat) (x : DqH) : (d.setDqh n x).outs = d.outs := rfl
@[simp] theorem Dev.setDqh_qgens (d : Dev) (n : Nat) (x : DqH) : (d.setDqh n x).qgens = d.qgens := rfl
@[simp] theorem Dev.setDqh_vox (d : Dev) (n : Nat) (x : DqH) : (d.setDqh n x).vox = d.vox := rfl
@[simp] theorem Dev.setDqh_lcus (d : Dev) (n : Nat) (x : DqH) : (d.setDqh n x).lcus = d.lcus := rfl
@[simp] theorem Dev.setDqh_areas (d : Dev) (n : Nat) (x : DqH) : (d.setDqh n x).areas = d.areas := rfl
@[simp] theorem Dev.setDqh_tracks (d : Dev) (n : Nat) (x : DqH) : (d.setDqh n x).tracks = d.tracks := rfl
@[simp] theorem Dev.setDqh_ces (d : Dev) (n : Nat) (x : DqH) : (d.setDqh n x).ces = d.ces := rfl
@[simp] theorem Dev.setDqh_hbm (d : Dev) (n : Nat) (x : DqH) : (d.setDqh n x).hbm = d.hbm := rfl
@[simp] theorem Dev.setDqh_wbuf (d : Dev) (n : Nat) (x : DqH) : (d.setDqh n x).wbuf = d.wbuf := rfl
@[simp] theorem Dev.setDqh_loops (d : Dev) (n : Nat) (x : DqH) : (d.setDqh n x).loops = d.loops := rfl
@[simp] theorem Dev.setDqh_links (d : Dev) (n : Nat) (x : DqH) : (d.setDqh n x).links = d.links := rfl
@[simp] theorem Dev.setDqh_eths (d : Dev) (n : Nat) (x : DqH) : (d.setDqh n x).eths = d.eths := rfl
@[simp] theorem Dev.setDqh_boot (d : Dev) (n : Nat) (x : DqH) : (d.setDqh n x).boot = d.boot := rfl
@[simp] theorem Dev.setDqh_nvOp (d : Dev) (n : Nat) (x : DqH) : (d.setDqh n x).nvOp = d.nvOp := rfl
@[simp] theorem Dev.setDqh_nvHold (d : Dev) (n : Nat) (x : DqH) : (d.setDqh n x).nvHold = d.nvHold := rfl
@[simp] theorem Dev.setDqh_bist (d : Dev) (n : Nat) (x : DqH) : (d.setDqh n x).bist = d.bist := rfl
@[simp] theorem Dev.setDqh_jtag (d : Dev) (n : Nat) (x : DqH) : (d.setDqh n x).jtag = d.jtag := rfl
@[simp] theorem Dev.setDqh_smbAddr (d : Dev) (n : Nat) (x : DqH) : (d.setDqh n x).smbAddr = d.smbAddr := rfl
@[simp] theorem Dev.setDqh_kaBad (d : Dev) (n : Nat) (x : DqH) : (d.setDqh n x).kaBad = d.kaBad := rfl
@[simp] theorem Dev.setDqh_sbeSeen (d : Dev) (n : Nat) (x : DqH) : (d.setDqh n x).sbeSeen = d.sbeSeen := rfl
@[simp] theorem Dev.setDqh_spareRows (d : Dev) (n : Nat) (x : DqH) : (d.setDqh n x).spareRows = d.spareRows := rfl
@[simp] theorem Dev.setDqh_nv (d : Dev) (n : Nat) (x : DqH) : (d.setDqh n x).nv = d.nv := rfl
@[simp] theorem Dev.setDqh_wear (d : Dev) (n : Nat) (x : DqH) : (d.setDqh n x).wear = d.wear := rfl
@[simp] theorem Dev.setDqh_health (d : Dev) (n : Nat) (x : DqH) : (d.setDqh n x).health = d.health := rfl
@[simp] theorem Dev.setDqh_clk (d : Dev) (n : Nat) (x : DqH) : (d.setDqh n x).clk = d.clk := rfl
@[simp] theorem Dev.setDqh_clkLost (d : Dev) (n : Nat) (x : DqH) : (d.setDqh n x).clkLost = d.clkLost := rfl
@[simp] theorem Dev.setDqh_ticks (d : Dev) (n : Nat) (x : DqH) : (d.setDqh n x).ticks = d.ticks := rfl
@[simp] theorem Dev.setDqh_taSince (d : Dev) (n : Nat) (x : DqH) : (d.setDqh n x).taSince = d.taSince := rfl
@[simp] theorem Dev.setDqh_firstCycle (d : Dev) (n : Nat) (x : DqH) : (d.setDqh n x).firstCycle = d.firstCycle := rfl
@[simp] theorem Dev.setDqh_incrDue (d : Dev) (n : Nat) (x : DqH) : (d.setDqh n x).incrDue = d.incrDue := rfl
@[simp] theorem Dev.setDqh_free (d : Dev) (n : Nat) (x : DqH) : (d.setDqh n x).free = d.free := rfl
@[simp] theorem Dev.setDqh_sent (d : Dev) (n : Nat) (x : DqH) : (d.setDqh n x).sent = d.sent := rfl
@[simp] theorem Dev.setDqh_rd (d : Dev) (n : Nat) (x : DqH) (g : Fld) (p q : Nat) : (d.setDqh n x).rd g p q = d.rd g p q := rfl
@[simp] theorem Dev.dqh_setDqh (d : Dev) (n : Nat) (x : DqH) : (d.setDqh n x).dqh n = x := mget_mset_self _ _ _ _
theorem Dev.dqh_setDqh_ne (d : Dev) (n : Nat) (x : DqH) (m : Nat) (h : m ≠ n) : (d.setDqh n x).dqh m = d.dqh m := mget_mset_ne _ _ _ _ h

/-! ### setIqh -/

@[simp] theorem Dev.setIqh_regs (d : Dev) (n : Nat) (x : IqH) : (d.setIqh n x).regs = d.regs := rfl
@[simp] theorem Dev.setIqh_tabs (d : Dev) (n : Nat) (x : IqH) : (d.setIqh n x).tabs = d.tabs := rfl
@[simp] theorem Dev.setIqh_bad (d : Dev) (n : Nat) (x : IqH) : (d.setIqh n x).bad = d.bad := rfl
@[simp] theorem Dev.setIqh_latch (d : Dev) (n : Nat) (x : IqH) : (d.setIqh n x).latch = d.latch := rfl
@[simp] theorem Dev.setIqh_stage (d : Dev) (n : Nat) (x : IqH) : (d.setIqh n x).stage = d.stage := rfl
@[simp] theorem Dev.setIqh_frozen (d : Dev) (n : Nat) (x : IqH) : (d.setIqh n x).frozen = d.frozen := rfl
@[simp] theorem Dev.setIqh_claims (d : Dev) (n : Nat) (x : IqH) : (d.setIqh n x).claims = d.claims := rfl
@[simp] theorem Dev.setIqh_queues (d : Dev) (n : Nat) (x : IqH) : (d.setIqh n x).queues = d.queues := rfl
@[simp] theorem Dev.setIqh_dq (d : Dev) (n : Nat) (x : IqH) : (d.setIqh n x).dq = d.dq := rfl
@[simp] theorem Dev.setIqh_vecs (d : Dev) (n : Nat) (x : IqH) : (d.setIqh n x).vecs = d.vecs := rfl
@[simp] theorem Dev.setIqh_fns (d : Dev) (n : Nat) (x : IqH) : (d.setIqh n x).fns = d.fns := rfl
@[simp] theorem Dev.setIqh_lanes (d : Dev) (n : Nat) (x : IqH) : (d.setIqh n x).lanes = d.lanes := rfl
@[simp] theorem Dev.setIqh_ports (d : Dev) (n : Nat) (x : IqH) : (d.setIqh n x).ports = d.ports := rfl
@[simp] theorem Dev.setIqh_ingest (d : Dev) (n : Nat) (x : IqH) : (d.setIqh n x).ingest = d.ingest := rfl
@[simp] theorem Dev.setIqh_pos (d : Dev) (n : Nat) (x : IqH) : (d.setIqh n x).pos = d.pos := rfl
@[simp] theorem Dev.setIqh_dins (d : Dev) (n : Nat) (x : IqH) : (d.setIqh n x).dins = d.dins := rfl
@[simp] theorem Dev.setIqh_gens (d : Dev) (n : Nat) (x : IqH) : (d.setIqh n x).gens = d.gens := rfl
@[simp] theorem Dev.setIqh_streams (d : Dev) (n : Nat) (x : IqH) : (d.setIqh n x).streams = d.streams := rfl
@[simp] theorem Dev.setIqh_outs (d : Dev) (n : Nat) (x : IqH) : (d.setIqh n x).outs = d.outs := rfl
@[simp] theorem Dev.setIqh_qgens (d : Dev) (n : Nat) (x : IqH) : (d.setIqh n x).qgens = d.qgens := rfl
@[simp] theorem Dev.setIqh_vox (d : Dev) (n : Nat) (x : IqH) : (d.setIqh n x).vox = d.vox := rfl
@[simp] theorem Dev.setIqh_lcus (d : Dev) (n : Nat) (x : IqH) : (d.setIqh n x).lcus = d.lcus := rfl
@[simp] theorem Dev.setIqh_areas (d : Dev) (n : Nat) (x : IqH) : (d.setIqh n x).areas = d.areas := rfl
@[simp] theorem Dev.setIqh_tracks (d : Dev) (n : Nat) (x : IqH) : (d.setIqh n x).tracks = d.tracks := rfl
@[simp] theorem Dev.setIqh_ces (d : Dev) (n : Nat) (x : IqH) : (d.setIqh n x).ces = d.ces := rfl
@[simp] theorem Dev.setIqh_hbm (d : Dev) (n : Nat) (x : IqH) : (d.setIqh n x).hbm = d.hbm := rfl
@[simp] theorem Dev.setIqh_wbuf (d : Dev) (n : Nat) (x : IqH) : (d.setIqh n x).wbuf = d.wbuf := rfl
@[simp] theorem Dev.setIqh_loops (d : Dev) (n : Nat) (x : IqH) : (d.setIqh n x).loops = d.loops := rfl
@[simp] theorem Dev.setIqh_links (d : Dev) (n : Nat) (x : IqH) : (d.setIqh n x).links = d.links := rfl
@[simp] theorem Dev.setIqh_eths (d : Dev) (n : Nat) (x : IqH) : (d.setIqh n x).eths = d.eths := rfl
@[simp] theorem Dev.setIqh_boot (d : Dev) (n : Nat) (x : IqH) : (d.setIqh n x).boot = d.boot := rfl
@[simp] theorem Dev.setIqh_nvOp (d : Dev) (n : Nat) (x : IqH) : (d.setIqh n x).nvOp = d.nvOp := rfl
@[simp] theorem Dev.setIqh_nvHold (d : Dev) (n : Nat) (x : IqH) : (d.setIqh n x).nvHold = d.nvHold := rfl
@[simp] theorem Dev.setIqh_bist (d : Dev) (n : Nat) (x : IqH) : (d.setIqh n x).bist = d.bist := rfl
@[simp] theorem Dev.setIqh_jtag (d : Dev) (n : Nat) (x : IqH) : (d.setIqh n x).jtag = d.jtag := rfl
@[simp] theorem Dev.setIqh_smbAddr (d : Dev) (n : Nat) (x : IqH) : (d.setIqh n x).smbAddr = d.smbAddr := rfl
@[simp] theorem Dev.setIqh_kaBad (d : Dev) (n : Nat) (x : IqH) : (d.setIqh n x).kaBad = d.kaBad := rfl
@[simp] theorem Dev.setIqh_sbeSeen (d : Dev) (n : Nat) (x : IqH) : (d.setIqh n x).sbeSeen = d.sbeSeen := rfl
@[simp] theorem Dev.setIqh_spareRows (d : Dev) (n : Nat) (x : IqH) : (d.setIqh n x).spareRows = d.spareRows := rfl
@[simp] theorem Dev.setIqh_nv (d : Dev) (n : Nat) (x : IqH) : (d.setIqh n x).nv = d.nv := rfl
@[simp] theorem Dev.setIqh_wear (d : Dev) (n : Nat) (x : IqH) : (d.setIqh n x).wear = d.wear := rfl
@[simp] theorem Dev.setIqh_health (d : Dev) (n : Nat) (x : IqH) : (d.setIqh n x).health = d.health := rfl
@[simp] theorem Dev.setIqh_clk (d : Dev) (n : Nat) (x : IqH) : (d.setIqh n x).clk = d.clk := rfl
@[simp] theorem Dev.setIqh_clkLost (d : Dev) (n : Nat) (x : IqH) : (d.setIqh n x).clkLost = d.clkLost := rfl
@[simp] theorem Dev.setIqh_ticks (d : Dev) (n : Nat) (x : IqH) : (d.setIqh n x).ticks = d.ticks := rfl
@[simp] theorem Dev.setIqh_taSince (d : Dev) (n : Nat) (x : IqH) : (d.setIqh n x).taSince = d.taSince := rfl
@[simp] theorem Dev.setIqh_firstCycle (d : Dev) (n : Nat) (x : IqH) : (d.setIqh n x).firstCycle = d.firstCycle := rfl
@[simp] theorem Dev.setIqh_incrDue (d : Dev) (n : Nat) (x : IqH) : (d.setIqh n x).incrDue = d.incrDue := rfl
@[simp] theorem Dev.setIqh_free (d : Dev) (n : Nat) (x : IqH) : (d.setIqh n x).free = d.free := rfl
@[simp] theorem Dev.setIqh_sent (d : Dev) (n : Nat) (x : IqH) : (d.setIqh n x).sent = d.sent := rfl
@[simp] theorem Dev.setIqh_rd (d : Dev) (n : Nat) (x : IqH) (g : Fld) (p q : Nat) : (d.setIqh n x).rd g p q = d.rd g p q := rfl
@[simp] theorem Dev.iqh_setIqh (d : Dev) (n : Nat) (x : IqH) : (d.setIqh n x).iqh n = x := mget_mset_self _ _ _ _
theorem Dev.iqh_setIqh_ne (d : Dev) (n : Nat) (x : IqH) (m : Nat) (h : m ≠ n) : (d.setIqh n x).iqh m = d.iqh m := mget_mset_ne _ _ _ _ h

/-! ### setVec -/

@[simp] theorem Dev.setVec_regs (d : Dev) (n v : Nat) (x : Vec) : (d.setVec n v x).regs = d.regs := rfl
@[simp] theorem Dev.setVec_tabs (d : Dev) (n v : Nat) (x : Vec) : (d.setVec n v x).tabs = d.tabs := rfl
@[simp] theorem Dev.setVec_bad (d : Dev) (n v : Nat) (x : Vec) : (d.setVec n v x).bad = d.bad := rfl
@[simp] theorem Dev.setVec_latch (d : Dev) (n v : Nat) (x : Vec) : (d.setVec n v x).latch = d.latch := rfl
@[simp] theorem Dev.setVec_stage (d : Dev) (n v : Nat) (x : Vec) : (d.setVec n v x).stage = d.stage := rfl
@[simp] theorem Dev.setVec_frozen (d : Dev) (n v : Nat) (x : Vec) : (d.setVec n v x).frozen = d.frozen := rfl
@[simp] theorem Dev.setVec_claims (d : Dev) (n v : Nat) (x : Vec) : (d.setVec n v x).claims = d.claims := rfl
@[simp] theorem Dev.setVec_queues (d : Dev) (n v : Nat) (x : Vec) : (d.setVec n v x).queues = d.queues := rfl
@[simp] theorem Dev.setVec_dq (d : Dev) (n v : Nat) (x : Vec) : (d.setVec n v x).dq = d.dq := rfl
@[simp] theorem Dev.setVec_iq (d : Dev) (n v : Nat) (x : Vec) : (d.setVec n v x).iq = d.iq := rfl
@[simp] theorem Dev.setVec_fns (d : Dev) (n v : Nat) (x : Vec) : (d.setVec n v x).fns = d.fns := rfl
@[simp] theorem Dev.setVec_lanes (d : Dev) (n v : Nat) (x : Vec) : (d.setVec n v x).lanes = d.lanes := rfl
@[simp] theorem Dev.setVec_ports (d : Dev) (n v : Nat) (x : Vec) : (d.setVec n v x).ports = d.ports := rfl
@[simp] theorem Dev.setVec_ingest (d : Dev) (n v : Nat) (x : Vec) : (d.setVec n v x).ingest = d.ingest := rfl
@[simp] theorem Dev.setVec_pos (d : Dev) (n v : Nat) (x : Vec) : (d.setVec n v x).pos = d.pos := rfl
@[simp] theorem Dev.setVec_dins (d : Dev) (n v : Nat) (x : Vec) : (d.setVec n v x).dins = d.dins := rfl
@[simp] theorem Dev.setVec_gens (d : Dev) (n v : Nat) (x : Vec) : (d.setVec n v x).gens = d.gens := rfl
@[simp] theorem Dev.setVec_streams (d : Dev) (n v : Nat) (x : Vec) : (d.setVec n v x).streams = d.streams := rfl
@[simp] theorem Dev.setVec_outs (d : Dev) (n v : Nat) (x : Vec) : (d.setVec n v x).outs = d.outs := rfl
@[simp] theorem Dev.setVec_qgens (d : Dev) (n v : Nat) (x : Vec) : (d.setVec n v x).qgens = d.qgens := rfl
@[simp] theorem Dev.setVec_vox (d : Dev) (n v : Nat) (x : Vec) : (d.setVec n v x).vox = d.vox := rfl
@[simp] theorem Dev.setVec_lcus (d : Dev) (n v : Nat) (x : Vec) : (d.setVec n v x).lcus = d.lcus := rfl
@[simp] theorem Dev.setVec_areas (d : Dev) (n v : Nat) (x : Vec) : (d.setVec n v x).areas = d.areas := rfl
@[simp] theorem Dev.setVec_tracks (d : Dev) (n v : Nat) (x : Vec) : (d.setVec n v x).tracks = d.tracks := rfl
@[simp] theorem Dev.setVec_ces (d : Dev) (n v : Nat) (x : Vec) : (d.setVec n v x).ces = d.ces := rfl
@[simp] theorem Dev.setVec_hbm (d : Dev) (n v : Nat) (x : Vec) : (d.setVec n v x).hbm = d.hbm := rfl
@[simp] theorem Dev.setVec_wbuf (d : Dev) (n v : Nat) (x : Vec) : (d.setVec n v x).wbuf = d.wbuf := rfl
@[simp] theorem Dev.setVec_loops (d : Dev) (n v : Nat) (x : Vec) : (d.setVec n v x).loops = d.loops := rfl
@[simp] theorem Dev.setVec_links (d : Dev) (n v : Nat) (x : Vec) : (d.setVec n v x).links = d.links := rfl
@[simp] theorem Dev.setVec_eths (d : Dev) (n v : Nat) (x : Vec) : (d.setVec n v x).eths = d.eths := rfl
@[simp] theorem Dev.setVec_boot (d : Dev) (n v : Nat) (x : Vec) : (d.setVec n v x).boot = d.boot := rfl
@[simp] theorem Dev.setVec_nvOp (d : Dev) (n v : Nat) (x : Vec) : (d.setVec n v x).nvOp = d.nvOp := rfl
@[simp] theorem Dev.setVec_nvHold (d : Dev) (n v : Nat) (x : Vec) : (d.setVec n v x).nvHold = d.nvHold := rfl
@[simp] theorem Dev.setVec_bist (d : Dev) (n v : Nat) (x : Vec) : (d.setVec n v x).bist = d.bist := rfl
@[simp] theorem Dev.setVec_jtag (d : Dev) (n v : Nat) (x : Vec) : (d.setVec n v x).jtag = d.jtag := rfl
@[simp] theorem Dev.setVec_smbAddr (d : Dev) (n v : Nat) (x : Vec) : (d.setVec n v x).smbAddr = d.smbAddr := rfl
@[simp] theorem Dev.setVec_kaBad (d : Dev) (n v : Nat) (x : Vec) : (d.setVec n v x).kaBad = d.kaBad := rfl
@[simp] theorem Dev.setVec_sbeSeen (d : Dev) (n v : Nat) (x : Vec) : (d.setVec n v x).sbeSeen = d.sbeSeen := rfl
@[simp] theorem Dev.setVec_spareRows (d : Dev) (n v : Nat) (x : Vec) : (d.setVec n v x).spareRows = d.spareRows := rfl
@[simp] theorem Dev.setVec_nv (d : Dev) (n v : Nat) (x : Vec) : (d.setVec n v x).nv = d.nv := rfl
@[simp] theorem Dev.setVec_wear (d : Dev) (n v : Nat) (x : Vec) : (d.setVec n v x).wear = d.wear := rfl
@[simp] theorem Dev.setVec_health (d : Dev) (n v : Nat) (x : Vec) : (d.setVec n v x).health = d.health := rfl
@[simp] theorem Dev.setVec_clk (d : Dev) (n v : Nat) (x : Vec) : (d.setVec n v x).clk = d.clk := rfl
@[simp] theorem Dev.setVec_clkLost (d : Dev) (n v : Nat) (x : Vec) : (d.setVec n v x).clkLost = d.clkLost := rfl
@[simp] theorem Dev.setVec_ticks (d : Dev) (n v : Nat) (x : Vec) : (d.setVec n v x).ticks = d.ticks := rfl
@[simp] theorem Dev.setVec_taSince (d : Dev) (n v : Nat) (x : Vec) : (d.setVec n v x).taSince = d.taSince := rfl
@[simp] theorem Dev.setVec_firstCycle (d : Dev) (n v : Nat) (x : Vec) : (d.setVec n v x).firstCycle = d.firstCycle := rfl
@[simp] theorem Dev.setVec_incrDue (d : Dev) (n v : Nat) (x : Vec) : (d.setVec n v x).incrDue = d.incrDue := rfl
@[simp] theorem Dev.setVec_free (d : Dev) (n v : Nat) (x : Vec) : (d.setVec n v x).free = d.free := rfl
@[simp] theorem Dev.setVec_sent (d : Dev) (n v : Nat) (x : Vec) : (d.setVec n v x).sent = d.sent := rfl
@[simp] theorem Dev.setVec_rd (d : Dev) (n v : Nat) (x : Vec) (g : Fld) (p q : Nat) : (d.setVec n v x).rd g p q = d.rd g p q := rfl

/-! ### setFn -/

@[simp] theorem Dev.setFn_regs (d : Dev) (n : Nat) (x : FnCfg) : (d.setFn n x).regs = d.regs := rfl
@[simp] theorem Dev.setFn_tabs (d : Dev) (n : Nat) (x : FnCfg) : (d.setFn n x).tabs = d.tabs := rfl
@[simp] theorem Dev.setFn_bad (d : Dev) (n : Nat) (x : FnCfg) : (d.setFn n x).bad = d.bad := rfl
@[simp] theorem Dev.setFn_latch (d : Dev) (n : Nat) (x : FnCfg) : (d.setFn n x).latch = d.latch := rfl
@[simp] theorem Dev.setFn_stage (d : Dev) (n : Nat) (x : FnCfg) : (d.setFn n x).stage = d.stage := rfl
@[simp] theorem Dev.setFn_frozen (d : Dev) (n : Nat) (x : FnCfg) : (d.setFn n x).frozen = d.frozen := rfl
@[simp] theorem Dev.setFn_claims (d : Dev) (n : Nat) (x : FnCfg) : (d.setFn n x).claims = d.claims := rfl
@[simp] theorem Dev.setFn_queues (d : Dev) (n : Nat) (x : FnCfg) : (d.setFn n x).queues = d.queues := rfl
@[simp] theorem Dev.setFn_dq (d : Dev) (n : Nat) (x : FnCfg) : (d.setFn n x).dq = d.dq := rfl
@[simp] theorem Dev.setFn_iq (d : Dev) (n : Nat) (x : FnCfg) : (d.setFn n x).iq = d.iq := rfl
@[simp] theorem Dev.setFn_vecs (d : Dev) (n : Nat) (x : FnCfg) : (d.setFn n x).vecs = d.vecs := rfl
@[simp] theorem Dev.setFn_lanes (d : Dev) (n : Nat) (x : FnCfg) : (d.setFn n x).lanes = d.lanes := rfl
@[simp] theorem Dev.setFn_ports (d : Dev) (n : Nat) (x : FnCfg) : (d.setFn n x).ports = d.ports := rfl
@[simp] theorem Dev.setFn_ingest (d : Dev) (n : Nat) (x : FnCfg) : (d.setFn n x).ingest = d.ingest := rfl
@[simp] theorem Dev.setFn_pos (d : Dev) (n : Nat) (x : FnCfg) : (d.setFn n x).pos = d.pos := rfl
@[simp] theorem Dev.setFn_dins (d : Dev) (n : Nat) (x : FnCfg) : (d.setFn n x).dins = d.dins := rfl
@[simp] theorem Dev.setFn_gens (d : Dev) (n : Nat) (x : FnCfg) : (d.setFn n x).gens = d.gens := rfl
@[simp] theorem Dev.setFn_streams (d : Dev) (n : Nat) (x : FnCfg) : (d.setFn n x).streams = d.streams := rfl
@[simp] theorem Dev.setFn_outs (d : Dev) (n : Nat) (x : FnCfg) : (d.setFn n x).outs = d.outs := rfl
@[simp] theorem Dev.setFn_qgens (d : Dev) (n : Nat) (x : FnCfg) : (d.setFn n x).qgens = d.qgens := rfl
@[simp] theorem Dev.setFn_vox (d : Dev) (n : Nat) (x : FnCfg) : (d.setFn n x).vox = d.vox := rfl
@[simp] theorem Dev.setFn_lcus (d : Dev) (n : Nat) (x : FnCfg) : (d.setFn n x).lcus = d.lcus := rfl
@[simp] theorem Dev.setFn_areas (d : Dev) (n : Nat) (x : FnCfg) : (d.setFn n x).areas = d.areas := rfl
@[simp] theorem Dev.setFn_tracks (d : Dev) (n : Nat) (x : FnCfg) : (d.setFn n x).tracks = d.tracks := rfl
@[simp] theorem Dev.setFn_ces (d : Dev) (n : Nat) (x : FnCfg) : (d.setFn n x).ces = d.ces := rfl
@[simp] theorem Dev.setFn_hbm (d : Dev) (n : Nat) (x : FnCfg) : (d.setFn n x).hbm = d.hbm := rfl
@[simp] theorem Dev.setFn_wbuf (d : Dev) (n : Nat) (x : FnCfg) : (d.setFn n x).wbuf = d.wbuf := rfl
@[simp] theorem Dev.setFn_loops (d : Dev) (n : Nat) (x : FnCfg) : (d.setFn n x).loops = d.loops := rfl
@[simp] theorem Dev.setFn_links (d : Dev) (n : Nat) (x : FnCfg) : (d.setFn n x).links = d.links := rfl
@[simp] theorem Dev.setFn_eths (d : Dev) (n : Nat) (x : FnCfg) : (d.setFn n x).eths = d.eths := rfl
@[simp] theorem Dev.setFn_boot (d : Dev) (n : Nat) (x : FnCfg) : (d.setFn n x).boot = d.boot := rfl
@[simp] theorem Dev.setFn_nvOp (d : Dev) (n : Nat) (x : FnCfg) : (d.setFn n x).nvOp = d.nvOp := rfl
@[simp] theorem Dev.setFn_nvHold (d : Dev) (n : Nat) (x : FnCfg) : (d.setFn n x).nvHold = d.nvHold := rfl
@[simp] theorem Dev.setFn_bist (d : Dev) (n : Nat) (x : FnCfg) : (d.setFn n x).bist = d.bist := rfl
@[simp] theorem Dev.setFn_jtag (d : Dev) (n : Nat) (x : FnCfg) : (d.setFn n x).jtag = d.jtag := rfl
@[simp] theorem Dev.setFn_smbAddr (d : Dev) (n : Nat) (x : FnCfg) : (d.setFn n x).smbAddr = d.smbAddr := rfl
@[simp] theorem Dev.setFn_kaBad (d : Dev) (n : Nat) (x : FnCfg) : (d.setFn n x).kaBad = d.kaBad := rfl
@[simp] theorem Dev.setFn_sbeSeen (d : Dev) (n : Nat) (x : FnCfg) : (d.setFn n x).sbeSeen = d.sbeSeen := rfl
@[simp] theorem Dev.setFn_spareRows (d : Dev) (n : Nat) (x : FnCfg) : (d.setFn n x).spareRows = d.spareRows := rfl
@[simp] theorem Dev.setFn_nv (d : Dev) (n : Nat) (x : FnCfg) : (d.setFn n x).nv = d.nv := rfl
@[simp] theorem Dev.setFn_wear (d : Dev) (n : Nat) (x : FnCfg) : (d.setFn n x).wear = d.wear := rfl
@[simp] theorem Dev.setFn_health (d : Dev) (n : Nat) (x : FnCfg) : (d.setFn n x).health = d.health := rfl
@[simp] theorem Dev.setFn_clk (d : Dev) (n : Nat) (x : FnCfg) : (d.setFn n x).clk = d.clk := rfl
@[simp] theorem Dev.setFn_clkLost (d : Dev) (n : Nat) (x : FnCfg) : (d.setFn n x).clkLost = d.clkLost := rfl
@[simp] theorem Dev.setFn_ticks (d : Dev) (n : Nat) (x : FnCfg) : (d.setFn n x).ticks = d.ticks := rfl
@[simp] theorem Dev.setFn_taSince (d : Dev) (n : Nat) (x : FnCfg) : (d.setFn n x).taSince = d.taSince := rfl
@[simp] theorem Dev.setFn_firstCycle (d : Dev) (n : Nat) (x : FnCfg) : (d.setFn n x).firstCycle = d.firstCycle := rfl
@[simp] theorem Dev.setFn_incrDue (d : Dev) (n : Nat) (x : FnCfg) : (d.setFn n x).incrDue = d.incrDue := rfl
@[simp] theorem Dev.setFn_free (d : Dev) (n : Nat) (x : FnCfg) : (d.setFn n x).free = d.free := rfl
@[simp] theorem Dev.setFn_sent (d : Dev) (n : Nat) (x : FnCfg) : (d.setFn n x).sent = d.sent := rfl
@[simp] theorem Dev.setFn_rd (d : Dev) (n : Nat) (x : FnCfg) (g : Fld) (p q : Nat) : (d.setFn n x).rd g p q = d.rd g p q := rfl
@[simp] theorem Dev.fn_setFn (d : Dev) (n : Nat) (x : FnCfg) : (d.setFn n x).fn n = x := mget_mset_self _ _ _ _
theorem Dev.fn_setFn_ne (d : Dev) (n : Nat) (x : FnCfg) (m : Nat) (h : m ≠ n) : (d.setFn n x).fn m = d.fn m := mget_mset_ne _ _ _ _ h

/-! ### setLink -/

@[simp] theorem Dev.setLink_regs (d : Dev) (n : Nat) (x : LinkH) : (d.setLink n x).regs = d.regs := rfl
@[simp] theorem Dev.setLink_tabs (d : Dev) (n : Nat) (x : LinkH) : (d.setLink n x).tabs = d.tabs := rfl
@[simp] theorem Dev.setLink_bad (d : Dev) (n : Nat) (x : LinkH) : (d.setLink n x).bad = d.bad := rfl
@[simp] theorem Dev.setLink_latch (d : Dev) (n : Nat) (x : LinkH) : (d.setLink n x).latch = d.latch := rfl
@[simp] theorem Dev.setLink_stage (d : Dev) (n : Nat) (x : LinkH) : (d.setLink n x).stage = d.stage := rfl
@[simp] theorem Dev.setLink_frozen (d : Dev) (n : Nat) (x : LinkH) : (d.setLink n x).frozen = d.frozen := rfl
@[simp] theorem Dev.setLink_claims (d : Dev) (n : Nat) (x : LinkH) : (d.setLink n x).claims = d.claims := rfl
@[simp] theorem Dev.setLink_queues (d : Dev) (n : Nat) (x : LinkH) : (d.setLink n x).queues = d.queues := rfl
@[simp] theorem Dev.setLink_dq (d : Dev) (n : Nat) (x : LinkH) : (d.setLink n x).dq = d.dq := rfl
@[simp] theorem Dev.setLink_iq (d : Dev) (n : Nat) (x : LinkH) : (d.setLink n x).iq = d.iq := rfl
@[simp] theorem Dev.setLink_vecs (d : Dev) (n : Nat) (x : LinkH) : (d.setLink n x).vecs = d.vecs := rfl
@[simp] theorem Dev.setLink_fns (d : Dev) (n : Nat) (x : LinkH) : (d.setLink n x).fns = d.fns := rfl
@[simp] theorem Dev.setLink_lanes (d : Dev) (n : Nat) (x : LinkH) : (d.setLink n x).lanes = d.lanes := rfl
@[simp] theorem Dev.setLink_ports (d : Dev) (n : Nat) (x : LinkH) : (d.setLink n x).ports = d.ports := rfl
@[simp] theorem Dev.setLink_ingest (d : Dev) (n : Nat) (x : LinkH) : (d.setLink n x).ingest = d.ingest := rfl
@[simp] theorem Dev.setLink_pos (d : Dev) (n : Nat) (x : LinkH) : (d.setLink n x).pos = d.pos := rfl
@[simp] theorem Dev.setLink_dins (d : Dev) (n : Nat) (x : LinkH) : (d.setLink n x).dins = d.dins := rfl
@[simp] theorem Dev.setLink_gens (d : Dev) (n : Nat) (x : LinkH) : (d.setLink n x).gens = d.gens := rfl
@[simp] theorem Dev.setLink_streams (d : Dev) (n : Nat) (x : LinkH) : (d.setLink n x).streams = d.streams := rfl
@[simp] theorem Dev.setLink_outs (d : Dev) (n : Nat) (x : LinkH) : (d.setLink n x).outs = d.outs := rfl
@[simp] theorem Dev.setLink_qgens (d : Dev) (n : Nat) (x : LinkH) : (d.setLink n x).qgens = d.qgens := rfl
@[simp] theorem Dev.setLink_vox (d : Dev) (n : Nat) (x : LinkH) : (d.setLink n x).vox = d.vox := rfl
@[simp] theorem Dev.setLink_lcus (d : Dev) (n : Nat) (x : LinkH) : (d.setLink n x).lcus = d.lcus := rfl
@[simp] theorem Dev.setLink_areas (d : Dev) (n : Nat) (x : LinkH) : (d.setLink n x).areas = d.areas := rfl
@[simp] theorem Dev.setLink_tracks (d : Dev) (n : Nat) (x : LinkH) : (d.setLink n x).tracks = d.tracks := rfl
@[simp] theorem Dev.setLink_ces (d : Dev) (n : Nat) (x : LinkH) : (d.setLink n x).ces = d.ces := rfl
@[simp] theorem Dev.setLink_hbm (d : Dev) (n : Nat) (x : LinkH) : (d.setLink n x).hbm = d.hbm := rfl
@[simp] theorem Dev.setLink_wbuf (d : Dev) (n : Nat) (x : LinkH) : (d.setLink n x).wbuf = d.wbuf := rfl
@[simp] theorem Dev.setLink_loops (d : Dev) (n : Nat) (x : LinkH) : (d.setLink n x).loops = d.loops := rfl
@[simp] theorem Dev.setLink_eths (d : Dev) (n : Nat) (x : LinkH) : (d.setLink n x).eths = d.eths := rfl
@[simp] theorem Dev.setLink_boot (d : Dev) (n : Nat) (x : LinkH) : (d.setLink n x).boot = d.boot := rfl
@[simp] theorem Dev.setLink_nvOp (d : Dev) (n : Nat) (x : LinkH) : (d.setLink n x).nvOp = d.nvOp := rfl
@[simp] theorem Dev.setLink_nvHold (d : Dev) (n : Nat) (x : LinkH) : (d.setLink n x).nvHold = d.nvHold := rfl
@[simp] theorem Dev.setLink_bist (d : Dev) (n : Nat) (x : LinkH) : (d.setLink n x).bist = d.bist := rfl
@[simp] theorem Dev.setLink_jtag (d : Dev) (n : Nat) (x : LinkH) : (d.setLink n x).jtag = d.jtag := rfl
@[simp] theorem Dev.setLink_smbAddr (d : Dev) (n : Nat) (x : LinkH) : (d.setLink n x).smbAddr = d.smbAddr := rfl
@[simp] theorem Dev.setLink_kaBad (d : Dev) (n : Nat) (x : LinkH) : (d.setLink n x).kaBad = d.kaBad := rfl
@[simp] theorem Dev.setLink_sbeSeen (d : Dev) (n : Nat) (x : LinkH) : (d.setLink n x).sbeSeen = d.sbeSeen := rfl
@[simp] theorem Dev.setLink_spareRows (d : Dev) (n : Nat) (x : LinkH) : (d.setLink n x).spareRows = d.spareRows := rfl
@[simp] theorem Dev.setLink_nv (d : Dev) (n : Nat) (x : LinkH) : (d.setLink n x).nv = d.nv := rfl
@[simp] theorem Dev.setLink_wear (d : Dev) (n : Nat) (x : LinkH) : (d.setLink n x).wear = d.wear := rfl
@[simp] theorem Dev.setLink_health (d : Dev) (n : Nat) (x : LinkH) : (d.setLink n x).health = d.health := rfl
@[simp] theorem Dev.setLink_clk (d : Dev) (n : Nat) (x : LinkH) : (d.setLink n x).clk = d.clk := rfl
@[simp] theorem Dev.setLink_clkLost (d : Dev) (n : Nat) (x : LinkH) : (d.setLink n x).clkLost = d.clkLost := rfl
@[simp] theorem Dev.setLink_ticks (d : Dev) (n : Nat) (x : LinkH) : (d.setLink n x).ticks = d.ticks := rfl
@[simp] theorem Dev.setLink_taSince (d : Dev) (n : Nat) (x : LinkH) : (d.setLink n x).taSince = d.taSince := rfl
@[simp] theorem Dev.setLink_firstCycle (d : Dev) (n : Nat) (x : LinkH) : (d.setLink n x).firstCycle = d.firstCycle := rfl
@[simp] theorem Dev.setLink_incrDue (d : Dev) (n : Nat) (x : LinkH) : (d.setLink n x).incrDue = d.incrDue := rfl
@[simp] theorem Dev.setLink_free (d : Dev) (n : Nat) (x : LinkH) : (d.setLink n x).free = d.free := rfl
@[simp] theorem Dev.setLink_sent (d : Dev) (n : Nat) (x : LinkH) : (d.setLink n x).sent = d.sent := rfl
@[simp] theorem Dev.setLink_rd (d : Dev) (n : Nat) (x : LinkH) (g : Fld) (p q : Nat) : (d.setLink n x).rd g p q = d.rd g p q := rfl
@[simp] theorem Dev.link_setLink (d : Dev) (n : Nat) (x : LinkH) : (d.setLink n x).link n = x := mget_mset_self _ _ _ _
theorem Dev.link_setLink_ne (d : Dev) (n : Nat) (x : LinkH) (m : Nat) (h : m ≠ n) : (d.setLink n x).link m = d.link m := mget_mset_ne _ _ _ _ h

end Sys2Proof.Machine
end

