-- ==== Sys2Proof/Laws/Regs.lean ====
section
/-!
SUPPORT. Laws of register fields: a field written reads back, every other field reads as before.
-/

namespace Sys2Proof.Machine

/-- A field written reads back what its width holds. -/
@[simp] theorem Dev.rd_wr (d : Dev) (f : Fld) (i v j : Nat) : (d.wr f i v j).rd f i j = v % 2 ^ f.w :=
  mget_mset_self _ _ _ _

/-- A field at another place reads as before. -/
theorem Dev.rd_wr_ne (d : Dev) (f g : Fld) (i v j p q : Nat) (h : g.key p q ≠ f.key i j) :
    (d.wr f i v j).rd g p q = d.rd g p q := mget_mset_ne _ _ _ _ h

theorem Fld.key_zero (f : Fld) (i : Nat) : f.key i 0 = ((f.cls * 262144 + f.off) * 32 + f.lo) + i * 131072 := by
  simp only [Fld.key, Nat.zero_mul, Nat.add_zero]
  omega

/-- Two fields of one page at different places. -/
theorem Fld.key_ne (f g : Fld) (i : Nat) (h : (g.cls * 262144 + g.off) * 32 + g.lo ≠ (f.cls * 262144 + f.off) * 32 + f.lo) :
    g.key i 0 ≠ f.key i 0 := by
  rw [Fld.key_zero, Fld.key_zero]
  exact fun e => h (Nat.add_right_cancel e)

/-- A field at another place of the same page reads as before; the premise is decided for named fields. -/
theorem Dev.rd_wr_off (d : Dev) (f g : Fld) (i v : Nat)
    (h : (g.cls * 262144 + g.off) * 32 + g.lo ≠ (f.cls * 262144 + f.off) * 32 + f.lo) :
    (d.wr f i v).rd g i = d.rd g i := Dev.rd_wr_ne _ _ _ _ _ _ _ _ (Fld.key_ne f g i h)

theorem Dev.rd_wrb_off (d : Dev) (f g : Fld) (i : Nat) (b : Bool)
    (h : (g.cls * 262144 + g.off) * 32 + g.lo ≠ (f.cls * 262144 + f.off) * 32 + f.lo) :
    (d.wrb f i b).rd g i = d.rd g i := Dev.rd_wr_off _ _ _ _ _ h

theorem Dev.rd_lt (d : Dev) (f : Fld) (i v j : Nat) : (d.wr f i v j).rd f i j < 2 ^ f.w := by
  rw [Dev.rd_wr]
  exact Nat.mod_lt _ (Nat.two_pow_pos _)

@[simp] theorem Dev.when_true (d : Dev) (k : Dev → Dev) : d.when true k = k d := rfl
@[simp] theorem Dev.when_false (d : Dev) (k : Dev → Dev) : d.when false k = d := rfl

/-- A change under a condition keeps what the change keeps. -/
theorem Dev.when_keeps {β : Type} (p : Dev → β) (d : Dev) (c : Bool) (k : Dev → Dev) (h : p (k d) = p d) :
    p (d.when c k) = p d := by
  cases c
  · rfl
  · exact h

theorem Dev.is_eq (d : Dev) (f : Fld) (i j : Nat) : d.is f i j = (d.rd f i j != 0) := rfl

@[simp] theorem Dev.rd_wrb (d : Dev) (f : Fld) (i j : Nat) (b : Bool) : (d.wrb f i b j).rd f i j = b2n b % 2 ^ f.w :=
  Dev.rd_wr _ _ _ _ _

theorem Dev.rd_wrb_ne (d : Dev) (f g : Fld) (i j p q : Nat) (b : Bool) (h : g.key p q ≠ f.key i j) :
    (d.wrb f i b j).rd g p q = d.rd g p q := Dev.rd_wr_ne _ _ _ _ _ _ _ _ h

theorem Dev.rd_addSat_ne (d : Dev) (f g : Fld) (i j n p q : Nat) (h : g.key p q ≠ f.key i j) :
    (d.addSat f i n j).rd g p q = d.rd g p q := Dev.rd_wr_ne _ _ _ _ _ _ _ _ h

theorem Dev.rd_incSat_ne (d : Dev) (f g : Fld) (i j p q : Nat) (h : g.key p q ≠ f.key i j) :
    (d.incSat f i j).rd g p q = d.rd g p q := Dev.rd_wr_ne _ _ _ _ _ _ _ _ h

theorem Dev.rd_addWrap_ne (d : Dev) (f g : Fld) (i j n p q : Nat) (h : g.key p q ≠ f.key i j) :
    (d.addWrap f i n j).rd g p q = d.rd g p q := Dev.rd_wr_ne _ _ _ _ _ _ _ _ h

/-- A saturating count counts up to its largest value. -/
theorem Dev.rd_incSat (d : Dev) (f : Fld) (i j : Nat) (h : d.rd f i j < 2 ^ f.w) :
    (d.incSat f i j).rd f i j = min (d.rd f i j + 1) (2 ^ f.w - 1) := by
  have hp := Nat.two_pow_pos f.w
  simp only [Dev.incSat, Dev.addSat, Dev.rd_wr, satAdd]
  split
  · rw [Nat.mod_eq_of_lt (by omega)]
    omega
  · rw [Nat.mod_eq_of_lt (by omega)]
    omega

end Sys2Proof.Machine
end

