-- ==== Sys2Proof/Laws/Flags.lean ====
section
/-!
SUPPORT. What raising an event can do, said once (R41, R172, R421, R432): the EVT registers only gain bits, the registers of queue
pages and the hidden state of queues and vectors may change, nothing else does.
-/

namespace Sys2Proof.Machine

/-- Keys of registers that raising an event may change: EVT of any page, and the queue blocks of class 0x1B. -/
def evtKey (k : Nat) : Bool := k / 32 % 4096 == 0x14 || (k / (32 * 4096 * 64) == 0x1B && decide (0x100 ≤ k / 32 % 4096))

/-- What raising events leads to. -/
structure Raised (d e : Dev) : Prop where
  regs : ∀ k r, evtKey k = false → mget e.regs k r = mget d.regs k r
  rest : e = { d with regs := e.regs, dq := e.dq, queues := e.queues, vecs := e.vecs }
  evts : ∀ c i b, b < 32 → (d.rd (Hdr.EVT c) i).testBit b = true → (e.rd (Hdr.EVT c) i).testBit b = true
  queue : ∀ k, (e.queue k).items = (d.queue k).items ∧ (e.queue k).wr = (d.queue k).wr ∧ (e.queue k).rd = (d.queue k).rd ∧
    (e.queue k).mark = (d.queue k).mark ∧ (e.queue k).rel = (d.queue k).rel ∧
    (e.queue k).markValid = (d.queue k).markValid

theorem Raised.refl (d : Dev) : Raised d d :=
  ⟨fun _ _ _ => rfl, rfl, fun _ _ _ _ h => h, fun _ => ⟨rfl, rfl, rfl, rfl, rfl, rfl⟩⟩

theorem Raised.trans {a b c : Dev} (h : Raised a b) (g : Raised b c) : Raised a c where
  regs k r hk := (g.regs k r hk).trans (h.regs k r hk)
  rest := by
    have h1 := g.rest
    rw [h.rest] at h1
    exact h1
  evts x i n hn hb := g.evts x i n hn (h.evts x i n hn hb)
  queue k := by
    have h1 := h.queue k
    have h2 := g.queue k
    exact ⟨h2.1.trans h1.1, h2.2.1.trans h1.2.1, h2.2.2.1.trans h1.2.2.1, h2.2.2.2.1.trans h1.2.2.2.1,
      h2.2.2.2.2.1.trans h1.2.2.2.2.1, h2.2.2.2.2.2.trans h1.2.2.2.2.2⟩

theorem Raised.foldl {β : Type} (l : List β) (f : Dev → β → Dev) (h : ∀ d x, Raised d (f d x)) (d : Dev) :
    Raised d (l.foldl f d) := by
  induction l generalizing d with
  | nil => exact Raised.refl d
  | cons x l ih => exact (h d x).trans (ih _)

theorem evt_key (c i : Nat) : (Hdr.EVT c).key i 0 / 32 % 4096 = 0x14 := by
  simp only [Hdr.EVT, Fld.key]
  omega

theorem evt_key_inj {c i c' i' : Nat} (h : (Hdr.EVT c').key i' 0 = (Hdr.EVT c).key i 0) :
    c' * 64 + i' = c * 64 + i := by
  simp only [Hdr.EVT, Fld.key] at h
  omega

/-- An EVT bit is set. -/
theorem Raised.wrEvt (d : Dev) (c i b : Nat) : Raised d (d.wr (Hdr.EVT c) i (d.rd (Hdr.EVT c) i ||| 2 ^ b)) where
  regs k r hk := by
    apply mget_mset_ne
    intro h
    rw [h] at hk
    simp [evtKey, evt_key] at hk
  rest := rfl
  evts c' i' n hn h := by
    by_cases hk : (Hdr.EVT c').key i' 0 = (Hdr.EVT c).key i 0
    · have hr : ∀ d : Dev, d.rd (Hdr.EVT c') i' = d.rd (Hdr.EVT c) i := by
        intro d
        simp only [Dev.rd, hk]
        rfl
      rw [hr] at h ⊢
      rw [Dev.rd_wr]
      have hw : (Hdr.EVT c).w = 32 := rfl
      rw [hw, Nat.testBit_mod_two_pow]
      simp [hn, Nat.testBit_or, h]
    · rw [Dev.rd_wr_ne _ _ _ _ _ _ _ _ hk]
      exact h
  queue _ := ⟨rfl, rfl, rfl, rfl, rfl, rfl⟩

theorem Raised.setQueue (d : Dev) (k : Nat) (q : QueueH) (h : q.items = (d.queue k).items ∧ q.wr = (d.queue k).wr ∧
    q.rd = (d.queue k).rd ∧ q.mark = (d.queue k).mark ∧ q.rel = (d.queue k).rel ∧ q.markValid = (d.queue k).markValid) :
    Raised d (d.setQueue k q) where
  regs _ _ _ := rfl
  rest := rfl
  evts _ _ _ _ h := h
  queue j := by
    by_cases hj : j = k
    · subst hj; simpa using h
    · rw [Dev.queue_setQueue_ne _ _ _ _ hj]
      exact ⟨rfl, rfl, rfl, rfl, rfl, rfl⟩

theorem Raised.setDqh (d : Dev) (k : Nat) (h : DqH) : Raised d (d.setDqh k h) :=
  ⟨fun _ _ _ => rfl, rfl, fun _ _ _ _ h => h, fun _ => ⟨rfl, rfl, rfl, rfl, rfl, rfl⟩⟩

theorem Raised.setVec (d : Dev) (f v : Nat) (x : Vec) : Raised d (d.setVec f v x) :=
  ⟨fun _ _ _ => rfl, rfl, fun _ _ _ _ h => h, fun _ => ⟨rfl, rfl, rfl, rfl, rfl, rfl⟩⟩

theorem Raised.when (d : Dev) (c : Bool) (k : Dev → Dev) (h : Raised d (k d)) : Raised d (d.when c k) := by
  cases c
  · exact Raised.refl d
  · exact h

theorem drop_key (q : Nat) (hq : q < 256) : (qFld (64 + q) Dq.Q_CNT_C_DROP_CNT).key (qPage (64 + q)).2 (qIdx (64 + q)) =
    ((0x1B * 64 + q / 8) * 4096 + (0x160 + q % 8 * 0x1E0)) * 32 + 16 := by
  have h1 : ¬ 64 + q < 16 := by omega
  have h2 : ¬ 64 + q < 40 := by omega
  have h3 : 64 + q < 320 := by omega
  have h4 : ¬ 64 + q < 64 := by omega
  simp only [qFld, qPage, qIdx, Fld.key, h1, h2, h3, h4, if_true, if_false, Dq.Q_CNT_C_DROP_CNT]
  omega

/-- The DROP count of a delivery queue's page. -/
theorem Raised.drop (d : Dev) (q v : Nat) (hq : q < 256) : Raised d (d.qwr (64 + q) Dq.Q_CNT_C_DROP_CNT v) where
  regs k r hk := by
    apply mget_mset_ne
    intro h
    rw [drop_key q hq] at h
    have h1 : k / (32 * 4096 * 64) = 0x1B := by omega
    have h2 : k / 32 % 4096 = 0x160 + q % 8 * 0x1E0 := by omega
    simp only [evtKey, h1, h2] at hk
    simp at hk
    omega
  rest := rfl
  evts c i n _ h := by
    rw [Dev.qwr, Dev.rd_wr_ne]
    · exact h
    · rw [drop_key q hq]
      simp only [Hdr.EVT, Fld.key, ne_eq]
      omega
  queue _ := ⟨rfl, rfl, rfl, rfl, rfl, rfl⟩

/-- A way of raising an event that does no more than this. -/
abbrev Raises (f : Dev → Nat → Nat → Nat → Dev) : Prop := ∀ d c i b, Raised d (f d c i b)

theorem Raised.qEvtW {f : Dev → Nat → Nat → Nat → Dev} (hf : Raises f) (d : Dev) (k b : Nat) :
    Raised d (Machine.qEvtW f d k b) := by
  have h := Raised.setQueue d k { d.queue k with evt := (d.queue k).evt ||| 2 ^ b } ⟨rfl, rfl, rfl, rfl, rfl, rfl⟩
  unfold Machine.qEvtW
  simp only
  split
  · exact h
  · exact h.trans (hf _ _ _ _)

theorem Raised.qSettleW {f : Dev → Nat → Nat → Nat → Dev} (hf : Raises f) (d : Dev) (k : Nat) :
    Raised d (Machine.qSettleW f d k) := by
  unfold Machine.qSettleW
  simp only
  refine Raised.trans (Raised.trans (Raised.trans (Raised.setQueue d k _ ?_) (Raised.when _ _ _ (Raised.qEvtW hf _ _ _)))
    (Raised.when _ _ _ (Raised.qEvtW hf _ _ _))) (Raised.when _ _ _ (Raised.qEvtW hf _ _ _))
  exact ⟨rfl, rfl, rfl, rfl, rfl, rfl⟩

theorem Raised.pushItemW {f : Dev → Nat → Nat → Nat → Dev} (hf : Raises f) (d : Dev) (q : Nat) (x : DItem) (hq : q < 256) :
    Raised d (Machine.pushItemW f d q x) := by
  have hd : ∀ d : Dev, Raised d (f ((d.setDqh q { d.dqh q with lost := true }).qwr (64 + q) Dq.Q_CNT_C_DROP_CNT
      (satAdd 16 ((d.setDqh q { d.dqh q with lost := true }).qrd (64 + q) Dq.Q_CNT_C_DROP_CNT) 1)) 0x1B (q / 8) Dq.E_DROP) :=
    fun d => ((Raised.setDqh d q _).trans (Raised.drop _ q _ hq)).trans (hf _ _ _ _)
  unfold Machine.pushItemW
  simp only
  split
  · exact hd d
  · split
    · refine ((Raised.setDqh d q _).trans (Raised.setQueue _ _ _ ?_)).trans (Raised.qSettleW hf _ _)
      exact ⟨rfl, rfl, rfl, rfl, rfl, rfl⟩
    · split
      · exact Raised.setDqh d q _
      · exact hd d

theorem bits_lt (v lo w : Nat) : bits v lo w < 2 ^ w := Nat.mod_lt _ (Nat.two_pow_pos _)

theorem Raised.requestRise {f : Dev → Nat → Nat → Nat → Dev} (hf : Raises f) (d : Dev) (c i e n : Nat) :
    Raised d (Machine.requestRise f d c i e n) := by
  unfold Machine.requestRise
  refine Raised.foldl _ _ (fun d fn => ?_) d
  simp only
  split
  · split
    · exact (Raised.setVec _ _ _ _).trans (Raised.pushItemW hf _ _ _ (bits_lt _ _ 8))
    · exact Raised.setVec _ _ _ _
  · exact Raised.refl d

theorem Raised.raiseF (n : Nat) : Raises (Machine.raiseF n) := by
  induction n with
  | zero => exact fun d c i b => Raised.wrEvt d c i b
  | succ n ih =>
    intro d c i b
    unfold Machine.raiseF
    simp only
    split
    · exact (Raised.wrEvt d c i b).trans (Raised.requestRise ih _ _ _ _ _)
    · exact Raised.wrEvt d c i b

/-- What Dev.evt can do. -/
theorem Dev.evt_raised (d : Dev) (c i b : Nat) : Raised d (d.evt c i b) := Raised.raiseF 41 d c i b

theorem Dev.badAccess_raised (d : Dev) (c i : Nat) : Raised d (d.badAccess c i) := Dev.evt_raised _ _ _ _

theorem Dev.qSettle_raised (d : Dev) (k : Nat) : Raised d (d.qSettle k) := Raised.qSettleW Dev.evt_raised d k

theorem Dev.push_raised (d : Dev) (q : Nat) (x : DItem) (h : q < 256) : Raised d (d.push q x) :=
  Raised.pushItemW Dev.evt_raised d q x h

/-- The event's own bit is set. -/
theorem Dev.evt_set (d : Dev) (c i b : Nat) (hb : b < 32) : ((d.evt c i b).rd (Hdr.EVT c) i).testBit b = true := by
  have h1 : ((d.wr (Hdr.EVT c) i (d.rd (Hdr.EVT c) i ||| 2 ^ b)).rd (Hdr.EVT c) i).testBit b = true := by
    rw [Dev.rd_wr]
    have hw : (Hdr.EVT c).w = 32 := rfl
    rw [hw, Nat.testBit_mod_two_pow]
    simp [hb, Nat.testBit_or, Nat.testBit_two_pow_self]
  unfold Dev.evt Machine.raiseF
  simp only
  split
  · exact (Raised.requestRise (Raised.raiseF 40) _ _ _ _ _).evts c i b hb h1
  · exact h1

/-- Fields that raising an event leaves alone. -/
abbrev Fld.quiet (f : Fld) (i j : Nat) : Prop := evtKey (f.key i j) = false

/-- A field of a class without delivery queues is quiet unless it stands in EVT; the premises are decided for named fields. -/
theorem Fld.quiet_of (f : Fld) (i : Nat) (ho : f.off < 4096 ∧ f.lo < 32 ∧ f.off ≠ 0x14 ∧ f.cls ≠ 0x1B) (hi : i < 64) :
    f.quiet i 0 := by
  have h1 : f.key i 0 / 32 % 4096 = f.off := by
    simp only [Fld.key, Nat.zero_mul, Nat.add_zero]
    omega
  have h2 : f.key i 0 / (32 * 4096 * 64) = f.cls := by
    simp only [Fld.key, Nat.zero_mul, Nat.add_zero]
    omega
  simp [Fld.quiet, evtKey, h1, h2, ho.2.2.1, ho.2.2.2]

theorem Raised.rd {d e : Dev} (h : Raised d e) (f : Fld) (i j : Nat) (q : f.quiet i j) : e.rd f i j = d.rd f i j :=
  h.regs _ _ q

theorem Dev.evt_rd (d : Dev) (c i b : Nat) (f : Fld) (p j : Nat) (q : f.quiet p j) : (d.evt c i b).rd f p j = d.rd f p j :=
  (Dev.evt_raised d c i b).rd f p j q

end Sys2Proof.Machine
end

