-- ==== Sys2Proof/Laws/Faults.lean ====
section
/-!
SUPPORT. What a fault can do, said once (R42, R233, R477–R483, R488, R493): FLT and EVT registers, the collector's and the AO
and NV pages, the outputs' safe state, the health record; nothing else changes.
-/

namespace Sys2Proof.Machine

/-- Keys of registers that a fault may change. -/
def fltKey (k : Nat) : Bool :=
  evtKey k || k / 32 % 4096 == 0x20 || decide (k / (32 * 4096 * 64) ≤ 2) ||
    (k / (32 * 4096 * 64) == 0x12 && k / 32 % 4096 == 0x10)

/-- What faults lead to. -/
structure Faulted (d e : Dev) : Prop where
  regs : ∀ k r, fltKey k = false → mget e.regs k r = mget d.regs k r
  rest : e =
    { d with
      regs := e.regs, dq := e.dq, queues := e.queues, vecs := e.vecs
      nv := e.nv, wear := e.wear, health := e.health, firstCycle := e.firstCycle }
  evts : ∀ c i b, b < 32 → (d.rd (Hdr.EVT c) i).testBit b = true → (e.rd (Hdr.EVT c) i).testBit b = true
  flts : ∀ c i b, b < 32 → (d.rd (Hdr.FLT c) i).testBit b = true → (e.rd (Hdr.FLT c) i).testBit b = true
  queue : ∀ k, (e.queue k).items = (d.queue k).items ∧ (e.queue k).wr = (d.queue k).wr ∧ (e.queue k).rd = (d.queue k).rd ∧
    (e.queue k).mark = (d.queue k).mark ∧ (e.queue k).rel = (d.queue k).rel ∧
    (e.queue k).markValid = (d.queue k).markValid

theorem Faulted.refl (d : Dev) : Faulted d d :=
  ⟨fun _ _ _ => rfl, rfl, fun _ _ _ _ h => h, fun _ _ _ _ h => h, fun _ => ⟨rfl, rfl, rfl, rfl, rfl, rfl⟩⟩

theorem Faulted.trans {a b c : Dev} (h : Faulted a b) (g : Faulted b c) : Faulted a c where
  regs k r hk := (g.regs k r hk).trans (h.regs k r hk)
  rest := by
    have h1 := g.rest
    rw [h.rest] at h1
    exact h1
  evts x i n hn hb := g.evts x i n hn (h.evts x i n hn hb)
  flts x i n hn hb := g.flts x i n hn (h.flts x i n hn hb)
  queue k := by
    have h1 := h.queue k
    have h2 := g.queue k
    exact ⟨h2.1.trans h1.1, h2.2.1.trans h1.2.1, h2.2.2.1.trans h1.2.2.1, h2.2.2.2.1.trans h1.2.2.2.1,
      h2.2.2.2.2.1.trans h1.2.2.2.2.1, h2.2.2.2.2.2.trans h1.2.2.2.2.2⟩

theorem flt_key (c i : Nat) : (Hdr.FLT c).key i 0 / 32 % 4096 = 0x20 := by
  simp only [Hdr.FLT, Fld.key]
  omega

theorem flt_quiet (c i : Nat) : evtKey ((Hdr.FLT c).key i 0) = false := by
  simp only [evtKey, flt_key]
  simp

theorem Raised.faulted {d e : Dev} (h : Raised d e) : Faulted d e where
  regs k r hk := h.regs k r (by simp only [fltKey, Bool.or_eq_false_iff] at hk; exact hk.1.1.1)
  rest := by
    obtain ⟨_, hr, _, _⟩ := h
    rw [hr]
  evts := h.evts
  flts c i b _ hb := by rw [h.rd _ _ _ (flt_quiet c i)]; exact hb
  queue := h.queue

theorem Faulted.evt (d : Dev) (c i b : Nat) : Faulted d (d.evt c i b) := (Dev.evt_raised d c i b).faulted

/-- A register of the fault set that is no EVT register. -/
theorem Faulted.wr (d : Dev) (f : Fld) (i v j : Nat) (hk : fltKey (f.key i j) = true) (he : f.key i j / 32 % 4096 ≠ 0x14)
    (hf : f.key i j / 32 % 4096 ≠ 0x20) : Faulted d (d.wr f i v j) where
  regs k r hk' := by
    apply mget_mset_ne
    intro h
    rw [h, hk] at hk'
    exact Bool.noConfusion hk'
  rest := rfl
  evts c p n _ h := by
    rw [Dev.rd_wr_ne]
    · exact h
    · intro h1
      exact he (h1 ▸ evt_key c p)
  flts c p n _ h := by
    rw [Dev.rd_wr_ne]
    · exact h
    · intro h1
      exact hf (h1 ▸ flt_key c p)
  queue _ := ⟨rfl, rfl, rfl, rfl, rfl, rfl⟩

theorem Faulted.when (d : Dev) (c : Bool) (k : Dev → Dev) (h : Faulted d (k d)) : Faulted d (d.when c k) := by
  cases c
  · exact Faulted.refl d
  · exact h

theorem Faulted.foldl {β : Type} (l : List β) (f : Dev → β → Dev) (h : ∀ d x, Faulted d (f d x)) (d : Dev) :
    Faulted d (l.foldl f d) := by
  induction l generalizing d with
  | nil => exact Faulted.refl d
  | cons x l ih => exact (h d x).trans (ih _)

theorem Faulted.foldlMem {β : Type} (l : List β) (f : Dev → β → Dev) (h : ∀ d, ∀ x ∈ l, Faulted d (f d x)) (d : Dev) :
    Faulted d (l.foldl f d) := by
  induction l generalizing d with
  | nil => exact Faulted.refl d
  | cons x l ih => exact (h d x (by simp)).trans (ih (fun d y hy => h d y (by simp [hy])) _)

/-- Registers of classes 0x00 to 0x02. -/
theorem Faulted.wrAo (d : Dev) (f : Fld) (v : Nat) (hc : f.cls ≤ 2) (ho : f.off < 4096) (hl : f.lo < 32)
    (he : f.off ≠ 0x14 ∧ f.off ≠ 0x20) : Faulted d (d.wr f 0 v) := by
  apply Faulted.wr
  · simp only [fltKey, Bool.or_eq_true, decide_eq_true_eq]
    left; right
    simp only [Fld.key]
    omega
  · simp only [Fld.key]
    omega
  · simp only [Fld.key]
    omega

theorem Faulted.nvSet (d : Dev) (x : KMap Nat) (y : KMap Nat) : Faulted d { d with nv := x, wear := y } :=
  ⟨fun _ _ _ => rfl, rfl, fun _ _ _ _ h => h, fun _ _ _ _ h => h, fun _ => ⟨rfl, rfl, rfl, rfl, rfl, rfl⟩⟩

theorem Faulted.setHealthRec (d : Dev) (h : HealthRec) : Faulted d { d with health := h } :=
  ⟨fun _ _ _ => rfl, rfl, fun _ _ _ _ h => h, fun _ _ _ _ h => h, fun _ => ⟨rfl, rfl, rfl, rfl, rfl, rfl⟩⟩

theorem Faulted.setCycle (d : Dev) (h : CycleH) : Faulted d { d with firstCycle := h } :=
  ⟨fun _ _ _ => rfl, rfl, fun _ _ _ _ h => h, fun _ _ _ _ h => h, fun _ => ⟨rfl, rfl, rfl, rfl, rfl, rfl⟩⟩

theorem Faulted.nvStore (d : Dev) (a v : Nat) : Faulted d (d.nvStore a v) :=
  (Faulted.wrAo d (Hdr.FLT_INJ 2) _ (by decide) (by decide) (by decide) (by decide)).trans (Faulted.nvSet _ _ _)

theorem Faulted.hrecWrite (d : Dev) : Faulted d d.hrecWrite := by
  unfold Dev.hrecWrite
  split
  · exact (Faulted.foldl _ _ (fun d j => Faulted.nvStore d _ _) d).trans (Faulted.setHealthRec _ _)
  · exact Faulted.refl d

theorem Faulted.alert (d : Dev) : Faulted d d.alert :=
  Faulted.wrAo d AO.HEALTH_PINS_ALERT _ (by decide) (by decide) (by decide) (by decide)

theorem Faulted.setHealth (d : Dev) (h : Nat) : Faulted d (d.setHealth h) := by
  unfold Dev.setHealth
  split
  · exact Faulted.refl d
  · exact ((((Faulted.wrAo d AO.DEV_HEALTH_HEALTH _ (by decide) (by decide) (by decide) (by decide)).trans
      (Faulted.wrAo _ AO.HEALTH_PINS_REPLACE _ (by decide) (by decide) (by decide) (by decide))).trans
      (Faulted.wrAo _ AO.HEALTH_PINS_FAULT _ (by decide) (by decide) (by decide) (by decide))).trans
      (Faulted.evt _ _ _ _)).trans (Faulted.alert _)

theorem Faulted.safeAll (d : Dev) : Faulted d d.safeAll := by
  unfold Dev.safeAll
  refine Faulted.foldlMem _ _ (fun d m hm => ?_) d
  have hm : m < 32 := List.mem_range.1 hm
  split
  · exact Faulted.refl d
  · refine (Faulted.wr d Out.STAT_SAFE_ACTIVE m 1 0 ?_ ?_ ?_).trans (Faulted.evt _ _ _ _)
    · simp only [fltKey, Bool.or_eq_true, Bool.and_eq_true, beq_iff_eq, Fld.key, Out.STAT_SAFE_ACTIVE]
      right
      omega
    · simp only [Fld.key, Out.STAT_SAFE_ACTIVE]
      omega
    · simp only [Fld.key, Out.STAT_SAFE_ACTIVE]
      omega

theorem Faulted.src (d : Dev) (b c i : Nat) :
    Faulted d (((d.wr Fc.FIRST_SRC_BIT 0 b).wr Fc.FIRST_SRC_CLASS 0 c).wr Fc.FIRST_SRC_INSTANCE 0 i) :=
  ((Faulted.wrAo d Fc.FIRST_SRC_BIT _ (by decide) (by decide) (by decide) (by decide)).trans
    (Faulted.wrAo _ Fc.FIRST_SRC_CLASS _ (by decide) (by decide) (by decide) (by decide))).trans
    (Faulted.wrAo _ Fc.FIRST_SRC_INSTANCE _ (by decide) (by decide) (by decide) (by decide))

theorem Faulted.showFirst (d : Dev) : Faulted d d.showFirst :=
  (((Faulted.wrAo d Fc.SUMMARY_FIRST_CLASS _ (by decide) (by decide) (by decide) (by decide)).trans
    (Faulted.wrAo _ Fc.SUMMARY_FIRST_TIE _ (by decide) (by decide) (by decide) (by decide))).trans
    (Faulted.src _ _ _ _)).trans (Faulted.setCycle _ _)

theorem Faulted.summary (d : Dev) (c i b s : Nat) : Faulted d (d.summary c i b s) := by
  unfold Dev.summary
  simp only
  split
  · exact ((Faulted.setCycle d _).trans (Faulted.showFirst _)).trans (Faulted.evt _ _ _ _)
  · split
    · exact (Faulted.setCycle d _).trans (Faulted.showFirst _)
    · exact Faulted.setCycle d _

theorem cntOfClass_ao (s : Nat) : (cntOfClass s).cls ≤ 2 ∧ (cntOfClass s).off < 4096 ∧ (cntOfClass s).lo < 32 ∧
    (cntOfClass s).off ≠ 0x14 ∧ (cntOfClass s).off ≠ 0x20 := by
  unfold cntOfClass
  split <;> decide

theorem Faulted.react (d : Dev) (c i b s : Nat) : Faulted d (d.react c i b s) := by
  have hn := cntOfClass_ao s
  unfold Dev.react
  simp only
  refine Faulted.trans (Faulted.trans (Faulted.trans (Faulted.trans
    (Faulted.wrAo d (cntOfClass s) _ hn.1 hn.2.1 hn.2.2.1 hn.2.2.2) (Faulted.when _ _ _ ?_)) (Faulted.when _ _ _ ?_))
    (Faulted.when _ _ _ ?_)) (Faulted.when _ _ _ ?_)
  · exact Faulted.summary _ _ _ _ _
  · refine Faulted.trans ?_ (Faulted.hrecWrite _)
    refine Faulted.trans ?_ (Faulted.setHealthRec _ _)
    split
    · exact Faulted.refl _
    · exact Faulted.setHealth _ _
  · exact (Faulted.setHealth _ _).trans (Faulted.safeAll _)
  · exact Faulted.alert _

/-- An FLT bit is set. -/
theorem Faulted.wrFlt (d : Dev) (c i b : Nat) : Faulted d (d.wr (Hdr.FLT c) i (d.rd (Hdr.FLT c) i ||| 2 ^ b)) where
  regs k r hk := by
    apply mget_mset_ne
    intro h
    rw [h] at hk
    simp [fltKey, flt_key] at hk
  rest := rfl
  evts c' p n _ h := by
    rw [Dev.rd_wr_ne]
    · exact h
    · intro h1
      have := h1 ▸ evt_key c' p
      rw [flt_key] at this
      exact absurd this (by decide)
  flts c' p n hn h := by
    by_cases hk : (Hdr.FLT c').key p 0 = (Hdr.FLT c).key i 0
    · have hr : ∀ d : Dev, d.rd (Hdr.FLT c') p = d.rd (Hdr.FLT c) i := by
        intro d
        simp only [Dev.rd, hk]
        rfl
      rw [hr] at h ⊢
      rw [Dev.rd_wr]
      have hw : (Hdr.FLT c).w = 32 := rfl
      rw [hw, Nat.testBit_mod_two_pow]
      simp [hn, Nat.testBit_or, h]
    · rw [Dev.rd_wr_ne _ _ _ _ _ _ _ _ hk]
      exact h
  queue _ := ⟨rfl, rfl, rfl, rfl, rfl, rfl⟩

theorem Faulted.fltCore (d : Dev) (c i b : Nat) : Faulted d (d.fltCore c i b) := by
  unfold Dev.fltCore
  split
  · exact Faulted.refl d
  · split
    · exact Faulted.refl d
    · simp only
      split
      · exact Faulted.wrFlt _ _ _ _
      · exact (Faulted.wrFlt _ _ _ b).trans (Faulted.react _ _ _ _ _)

/-- What Dev.flt can do. -/
theorem Dev.flt_faulted (d : Dev) (c i b : Nat) : Faulted d (d.flt c i b) := by
  unfold Dev.flt
  simp only
  split
  · exact (Faulted.fltCore _ _ _ _).trans (Faulted.fltCore _ _ _ _)
  · exact Faulted.fltCore _ _ _ _

/-- A checker's own bit is set. -/
theorem Dev.flt_set (d : Dev) (c i b s : Nat) (hb : b < 32) (hs : fltSeverity c i b = some s) :
    ((d.flt c i b).rd (Hdr.FLT c) i).testBit b = true := by
  have h1 : ((d.wr (Hdr.FLT c) i (d.rd (Hdr.FLT c) i ||| 2 ^ b)).rd (Hdr.FLT c) i).testBit b = true := by
    rw [Dev.rd_wr]
    have hw : (Hdr.FLT c).w = 32 := rfl
    rw [hw, Nat.testBit_mod_two_pow]
    simp [hb, Nat.testBit_or, Nat.testBit_two_pow_self]
  have h2 : ((d.fltCore c i b).rd (Hdr.FLT c) i).testBit b = true := by
    unfold Dev.fltCore
    rw [hs]
    simp only
    split
    · next h => exact h
    · split
      · exact h1
      · exact (Faulted.react _ _ _ _ _).flts c i b hb h1
  unfold Dev.flt
  simp only
  split
  · exact (Faulted.fltCore _ _ _ _).flts c i b hb h2
  · exact h2

/-- Fields that a fault leaves alone. -/
abbrev Fld.calm (f : Fld) (i j : Nat) : Prop := fltKey (f.key i j) = false

theorem Faulted.rd {d e : Dev} (h : Faulted d e) (f : Fld) (i j : Nat) (q : f.calm i j) : e.rd f i j = d.rd f i j :=
  h.regs _ _ q

theorem Dev.flt_rd (d : Dev) (c i b : Nat) (f : Fld) (p j : Nat) (q : f.calm p j) : (d.flt c i b).rd f p j = d.rd f p j :=
  (Dev.flt_faulted d c i b).rd f p j q

end Sys2Proof.Machine
end

