-- ==== Sys2Proof/Laws/Memory.lean ====
section
/-!
SUPPORT. Laws of the frame store: every change keeps the canonical form, a byte written reads back, and every byte outside what
is written reads as before.
-/

namespace Sys2Proof.Machine

theorem cellsOf_mem {a : Nat} {bs : List Nat} {c : Host.Cell} (h : c ∈ cellsOf a bs) :
    a ≤ c.1 ∧ c.1 < a + bs.length ∧ c.2 ≠ 0 := by
  induction bs generalizing a with
  | nil => simp [cellsOf] at h
  | cons b bs ih =>
    have step : c ∈ cellsOf (a + 1) bs → a ≤ c.1 ∧ c.1 < a + (b :: bs).length ∧ c.2 ≠ 0 := by
      intro h
      have := ih h
      simp only [List.length_cons]
      exact ⟨by omega, by omega, this.2.2⟩
    unfold cellsOf at h
    split at h
    · exact step h
    · next hb =>
      rcases List.mem_cons.1 h with rfl | h
      · simp only [List.length_cons]
        refine ⟨Nat.le_refl _, by omega, fun h0 => hb ?_⟩
        have := congrArg BitVec.toNat h0
        simpa [BitVec.toNat_ofNat] using this
      · exact step h

theorem mrising_cellsOf (a : Nat) (bs : List Nat) : mrising (cellsOf a bs) = true := by
  induction bs generalizing a with
  | nil => rfl
  | cons b bs ih =>
    unfold cellsOf
    split
    · exact ih _
    · rw [mrising_cons]
      exact ⟨ih _, fun x hx => by have := (cellsOf_mem hx).1; simp only; omega⟩

theorem mrising_append {α : Type} {m n : KMap α} :
    mrising (m ++ n) = true ↔ mrising m = true ∧ mrising n = true ∧ ∀ x ∈ m, ∀ y ∈ n, x.1 < y.1 := by
  induction m with
  | nil => simp [mrising]
  | cons e m ih =>
    rw [List.cons_append, mrising_cons, mrising_cons, ih]
    constructor
    · rintro ⟨⟨h1, h2, h3⟩, h4⟩
      refine ⟨⟨h1, fun x hx => h4 x (by simp [hx])⟩, h2, fun x hx y hy => ?_⟩
      rcases List.mem_cons.1 hx with rfl | hx
      · exact h4 y (by simp [hy])
      · exact h3 x hx y hy
    · rintro ⟨⟨h1, h2⟩, h3, h4⟩
      refine ⟨⟨h1, h3, fun x hx y hy => h4 x (by simp [hx]) y hy⟩, fun x hx => ?_⟩
      rcases List.mem_append.1 hx with hx | hx
      · exact h2 x hx
      · exact h4 e (by simp) x hx

theorem mem_takeWhile {α : Type} {p : α → Bool} {l : List α} {x : α} (h : x ∈ l.takeWhile p) : x ∈ l ∧ p x = true := by
  induction l with
  | nil => simp at h
  | cons e l ih =>
    by_cases hp : p e
    · rw [List.takeWhile_cons_of_pos hp] at h
      rcases List.mem_cons.1 h with rfl | h
      · exact ⟨by simp, hp⟩
      · exact ⟨by simp [(ih h).1], (ih h).2⟩
    · rw [List.takeWhile_cons_of_neg hp] at h
      simp at h

theorem takeWhile_eq_filter (m : KMap α) (a : Nat) (h : mrising m = true) :
    m.takeWhile (fun c => decide (c.1 < a)) = m.filter (fun c => decide (c.1 < a)) := by
  induction m with
  | nil => rfl
  | cons e m ih =>
    have h' := mrising_cons.1 h
    by_cases he : e.1 < a
    · simp [he, ih h'.1]
    · have : ∀ x ∈ m, ¬ x.1 < a := fun x hx => by have := h'.2 x hx; omega
      rw [List.takeWhile_cons_of_neg (by simpa using he), List.filter_cons_of_neg (by simpa using he)]
      symm
      rw [List.filter_eq_nil_iff]
      simpa using this

theorem dropWhile_eq_filter (m : KMap α) (a : Nat) (h : mrising m = true) :
    m.dropWhile (fun c => decide (c.1 < a)) = m.filter (fun c => decide (a ≤ c.1)) := by
  induction m with
  | nil => rfl
  | cons e m ih =>
    have h' := mrising_cons.1 h
    by_cases he : e.1 < a
    · rw [List.dropWhile_cons_of_pos (by simpa using he), List.filter_cons_of_neg (by simpa using he), ih h'.1]
    · rw [List.dropWhile_cons_of_neg (by simpa using he), List.filter_cons_of_pos (by simpa using he)]
      congr 1
      symm
      rw [List.filter_eq_self]
      intro x hx
      have := h'.2 x hx
      simp only [decide_eq_true_eq]
      omega

theorem cellsWrite_wf (cs : List Host.Cell) (a : Nat) (bs : List Nat) (h : mwf cs 0 = true) :
    mwf (cellsWrite cs a bs) 0 = true := by
  simp only [mwf, Bool.and_eq_true, List.all_eq_true, decide_eq_true_eq] at h ⊢
  rw [cellsWrite, takeWhile_eq_filter _ _ h.1, dropWhile_eq_filter _ _ h.1]
  refine ⟨?_, fun x hx => ?_⟩
  · rw [mrising_append, mrising_append]
    refine ⟨⟨mrising_filter _ _ h.1, mrising_cellsOf _ _, fun x hx y hy => ?_⟩, mrising_filter _ _ h.1, fun x hx y hy => ?_⟩
    · have h1 := (List.mem_filter.1 hx).2
      have h2 := (cellsOf_mem hy).1
      simp only [decide_eq_true_eq] at h1
      omega
    · have h2 := (List.mem_filter.1 hy).2
      simp only [decide_eq_true_eq] at h2
      rcases List.mem_append.1 hx with hx | hx
      · have h1 := (List.mem_filter.1 hx).2
        simp only [decide_eq_true_eq] at h1
        omega
      · have h1 := (cellsOf_mem hx).2.1
        omega
  · rcases List.mem_append.1 hx with hx | hx
    · rcases List.mem_append.1 hx with hx | hx
      · exact h.2 x (List.mem_filter.1 hx).1
      · exact (cellsOf_mem hx).2.2
    · exact h.2 x (List.mem_filter.1 hx).1

/-- Every change of the frame store keeps the canonical form. -/
theorem apply_wf (m : FrameStore) (o : MemOp) (h : Memory.wf m) : Memory.wf (m.apply o) := by
  cases o with
  | bytes a bs => exact ⟨cellsWrite_wf _ _ _ h.1, mwf_filter _ _ _ h.2⟩
  | poison w => exact ⟨h.1, by simpa [FrameStore.apply] using mwf_mset m.poison w true false h.2⟩
  | clear a n => exact ⟨mwf_filter _ _ _ h.1, mwf_filter _ _ _ h.2⟩

/-- So does any list of changes. -/
theorem applyAll_wf (os : List MemOp) (m : FrameStore) (h : Memory.wf m) : Memory.wf (os.foldl FrameStore.apply m) := by
  induction os generalizing m with
  | nil => exact h
  | cons o os ih => exact ih _ (apply_wf m o h)

theorem reset_mem_wf : Memory.wf FrameStore.reset := ⟨rfl, rfl⟩

/-! ## Bytes -/

theorem byte_eq_mget (m : FrameStore) (x : Nat) : m.byte x = (mget m.cells x 0).toNat := by
  unfold FrameStore.byte mget
  generalize m.cells = cs
  induction cs with
  | nil => rfl
  | cons e cs ih =>
    obtain ⟨a, v⟩ := e
    by_cases h : a = x
    · simp [mfind, h]
    · rw [List.find?_cons_of_neg (by simpa using h)]
      simp only [mfind, Ne.symm h, ↓reduceIte]
      exact ih

theorem mfind_append {α : Type} (m n : KMap α) (k : Nat) : mfind (m ++ n) k = (mfind m k).or (mfind n k) := by
  induction m with
  | nil => rfl
  | cons e m ih =>
    obtain ⟨j, v⟩ := e
    by_cases h : k = j <;> simp [mfind, h, ih]

theorem mfind_eq_none {α : Type} {m : KMap α} {k : Nat} (h : ∀ x ∈ m, x.1 ≠ k) : mfind m k = none := by
  induction m with
  | nil => rfl
  | cons e m ih =>
    obtain ⟨j, v⟩ := e
    have hj : k ≠ j := fun hk => h (j, v) (by simp) hk.symm
    simp only [mfind, hj, ↓reduceIte]
    exact ih (fun x hx => h x (by simp [hx]))

theorem mfind_filter_pos {α : Type} (m : KMap α) (p : Nat → Bool) {k : Nat} (h : p k = true) :
    mfind (m.filter (fun e => p e.1)) k = mfind m k := by
  induction m with
  | nil => rfl
  | cons e m ih =>
    obtain ⟨j, v⟩ := e
    by_cases hk : k = j
    · subst hk; simp [mfind, h]
    · by_cases hp : p j <;> simp [mfind, hp, hk, ih]

theorem mget_cellsOf (a : Nat) (bs : List Nat) (x : Nat) :
    mget (cellsOf a bs) x 0 = if a ≤ x ∧ x < a + bs.length then BitVec.ofNat 8 (bs.getD (x - a) 0) else 0 := by
  induction bs generalizing a with
  | nil =>
    have : ¬ (a ≤ x ∧ x < a + ([] : List Nat).length) := by simp
    rw [if_neg this]
    rfl
  | cons b bs ih =>
    have key : mget (cellsOf a (b :: bs)) x 0 = if x = a then BitVec.ofNat 8 b else mget (cellsOf (a + 1) bs) x 0 := by
      by_cases hb : b % 256 = 0
      · simp only [cellsOf, hb, ↓reduceIte]
        split
        · next hx =>
          have : mfind (cellsOf (a + 1) bs) x = none :=
            mfind_eq_none (fun c hc => by have := (cellsOf_mem hc).1; omega)
          have h0 : BitVec.ofNat 8 b = 0#8 := by
            apply BitVec.eq_of_toNat_eq
            simpa [BitVec.toNat_ofNat] using hb
          simp [mget, this, h0]
        · rfl
      · by_cases hx : x = a <;> simp [cellsOf, hb, mget, mfind, hx]
    rw [key, ih]
    by_cases hx : x = a
    · subst hx; simp
    · simp only [hx, ↓reduceIte, List.length_cons]
      by_cases hr : a ≤ x ∧ x < a + (bs.length + 1)
      · have h1 : a + 1 ≤ x ∧ x < a + 1 + bs.length := by omega
        rw [if_pos hr, if_pos h1]
        have : x - a = (x - (a + 1)) + 1 := by omega
        rw [this]
        simp
      · have h1 : ¬ (a + 1 ≤ x ∧ x < a + 1 + bs.length) := by omega
        rw [if_neg hr, if_neg h1]

/-- After a write a byte in the written range reads what was written, every other byte reads as before. -/
theorem byte_apply_bytes (m : FrameStore) (h : Memory.wf m) (a : Nat) (bs : List Nat) (x : Nat) :
    (m.apply (.bytes a bs)).byte x = if a ≤ x ∧ x < a + bs.length then bs.getD (x - a) 0 % 256 else m.byte x := by
  have hr : mrising m.cells = true := by
    have := h.1
    simp only [mwf, Bool.and_eq_true] at this
    exact this.1
  rw [byte_eq_mget, byte_eq_mget]
  simp only [FrameStore.apply, cellsWrite, takeWhile_eq_filter _ _ hr, dropWhile_eq_filter _ _ hr]
  have hc := mget_cellsOf a bs x
  by_cases hx : a ≤ x ∧ x < a + bs.length
  · rw [if_pos hx] at hc ⊢
    have h1 : mfind (m.cells.filter (fun c => decide (c.1 < a))) x = none := by
      apply mfind_eq_none
      intro c hc0
      have := (List.mem_filter.1 hc0).2
      simp only [decide_eq_true_eq] at this
      omega
    have h2 : mfind (m.cells.filter (fun c => decide (a + bs.length ≤ c.1))) x = none := by
      apply mfind_eq_none
      intro c hc0
      have := (List.mem_filter.1 hc0).2
      simp only [decide_eq_true_eq] at this
      omega
    have : mget (List.filter (fun c => decide (c.1 < a)) m.cells ++ cellsOf a bs ++
        List.filter (fun c => decide (a + bs.length ≤ c.1)) m.cells) x 0 = mget (cellsOf a bs) x 0 := by
      simp only [mget, mfind_append, h1, h2, Option.none_or, Option.or_none]
    rw [this, hc]
    simp [BitVec.toNat_ofNat]
  · rw [if_neg hx] at hc ⊢
    have h2 : mfind (cellsOf a bs) x = none := by
      apply mfind_eq_none
      intro c hc0
      have := cellsOf_mem hc0
      omega
    congr 1
    simp only [mget, mfind_append, h2, Option.or_none]
    by_cases hl : x < a
    · have h3 := mfind_filter_pos m.cells (fun j => decide (j < a)) (k := x) (by simpa using hl)
      have h4 : mfind (m.cells.filter (fun c => decide (a + bs.length ≤ c.1))) x = none := by
        apply mfind_eq_none
        intro c hc0
        have := (List.mem_filter.1 hc0).2
        simp only [decide_eq_true_eq] at this
        omega
      rw [h3, h4, Option.or_none]
    · have h3 := mfind_filter_pos m.cells (fun j => decide (a + bs.length ≤ j)) (k := x) (by simp; omega)
      have h4 : mfind (m.cells.filter (fun c => decide (c.1 < a))) x = none := by
        apply mfind_eq_none
        intro c hc0
        have := (List.mem_filter.1 hc0).2
        simp only [decide_eq_true_eq] at this
        omega
      rw [h3, h4, Option.none_or]

end Sys2Proof.Machine
end

