-- ==== Sys2Proof/Laws/Access.lean ====
section
/-!
SUPPORT. What a command can do to the state as a whole, and what the access gate can do, said once.
-/

namespace Sys2Proof.Machine

@[simp] theorem State.withDev_dev (s : State) (d : Dev) : (s.withDev d).dev = d.done := rfl
@[simp] theorem State.withDev_mem (s : State) (d : Dev) : (s.withDev d).mem = s.mem := rfl
@[simp] theorem State.withDev_pending (s : State) (d : Dev) : (s.withDev d).pending = s.pending := rfl
@[simp] theorem State.landed_dev (s : State) (d : Dev) : (s.landed d).dev = d.done := rfl
@[simp] theorem State.landed_pending (s : State) (d : Dev) : (s.landed d).pending = s.pending := rfl

/-- A device that leaves nothing on its way to the frame store leaves the frame store as it was. -/
theorem State.landed_eq (s : State) (d : Dev) (h : d.wbuf = []) : s.landed d = s.withDev d := by
  rw [State.landed, State.withDev, h]
  rfl

/-- A command of a powered island does what it asks for. -/
theorem State.updOn_eq (s : State) (n : Nat) (f : Dev → Dev) (hp : s.dev.powered n = true) :
    s.updOn n f = .next (s.withDev (f s.dev)) := by
  simp only [State.updOn, State.upd, hp]
  rfl

/-! ## What raising events and faults leaves of the device -/

theorem Dev.evt_rest (d : Dev) (c i b : Nat) : d.evt c i b =
    { d with
      regs := (d.evt c i b).regs, dq := (d.evt c i b).dq
      queues := (d.evt c i b).queues, vecs := (d.evt c i b).vecs } := (Dev.evt_raised d c i b).rest

@[simp] theorem Dev.evt_wbuf (d : Dev) (c i b : Nat) : (d.evt c i b).wbuf = d.wbuf := by rw [Dev.evt_rest]
@[simp] theorem Dev.evt_sent (d : Dev) (c i b : Nat) : (d.evt c i b).sent = d.sent := by rw [Dev.evt_rest]
@[simp] theorem Dev.evt_clk (d : Dev) (c i b : Nat) : (d.evt c i b).clk = d.clk := by rw [Dev.evt_rest]
@[simp] theorem Dev.evt_ports (d : Dev) (c i b : Nat) : (d.evt c i b).ports = d.ports := by rw [Dev.evt_rest]
@[simp] theorem Dev.evt_lanes (d : Dev) (c i b : Nat) : (d.evt c i b).lanes = d.lanes := by rw [Dev.evt_rest]
@[simp] theorem Dev.evt_pos (d : Dev) (c i b : Nat) : (d.evt c i b).pos = d.pos := by rw [Dev.evt_rest]
@[simp] theorem Dev.evt_tabs (d : Dev) (c i b : Nat) : (d.evt c i b).tabs = d.tabs := by rw [Dev.evt_rest]
@[simp] theorem Dev.evt_claims (d : Dev) (c i b : Nat) : (d.evt c i b).claims = d.claims := by rw [Dev.evt_rest]
@[simp] theorem Dev.evt_links (d : Dev) (c i b : Nat) : (d.evt c i b).links = d.links := by rw [Dev.evt_rest]
@[simp] theorem Dev.evt_fns (d : Dev) (c i b : Nat) : (d.evt c i b).fns = d.fns := by rw [Dev.evt_rest]
@[simp] theorem Dev.evt_boot (d : Dev) (c i b : Nat) : (d.evt c i b).boot = d.boot := by rw [Dev.evt_rest]
@[simp] theorem Dev.evt_nv (d : Dev) (c i b : Nat) : (d.evt c i b).nv = d.nv := by rw [Dev.evt_rest]
@[simp] theorem Dev.evt_nvOp (d : Dev) (c i b : Nat) : (d.evt c i b).nvOp = d.nvOp := by rw [Dev.evt_rest]
@[simp] theorem Dev.evt_nvHold (d : Dev) (c i b : Nat) : (d.evt c i b).nvHold = d.nvHold := by rw [Dev.evt_rest]
@[simp] theorem Dev.evt_free (d : Dev) (c i b : Nat) : (d.evt c i b).free = d.free := by rw [Dev.evt_rest]
@[simp] theorem Dev.evt_ces (d : Dev) (c i b : Nat) : (d.evt c i b).ces = d.ces := by rw [Dev.evt_rest]
@[simp] theorem Dev.evt_hbm (d : Dev) (c i b : Nat) : (d.evt c i b).hbm = d.hbm := by rw [Dev.evt_rest]
@[simp] theorem Dev.evt_bist (d : Dev) (c i b : Nat) : (d.evt c i b).bist = d.bist := by rw [Dev.evt_rest]
@[simp] theorem Dev.evt_streams (d : Dev) (c i b : Nat) : (d.evt c i b).streams = d.streams := by rw [Dev.evt_rest]
@[simp] theorem Dev.evt_outs (d : Dev) (c i b : Nat) : (d.evt c i b).outs = d.outs := by rw [Dev.evt_rest]
@[simp] theorem Dev.evt_gens (d : Dev) (c i b : Nat) : (d.evt c i b).gens = d.gens := by rw [Dev.evt_rest]

@[simp] theorem Dev.badAccess_wbuf (d : Dev) (c i : Nat) : (d.badAccess c i).wbuf = d.wbuf := Dev.evt_wbuf _ _ _ _

theorem Dev.flt_rest (d : Dev) (c i b : Nat) : d.flt c i b =
    { d with
      regs := (d.flt c i b).regs, dq := (d.flt c i b).dq
      queues := (d.flt c i b).queues, vecs := (d.flt c i b).vecs
      nv := (d.flt c i b).nv, wear := (d.flt c i b).wear
      health := (d.flt c i b).health, firstCycle := (d.flt c i b).firstCycle } := (Dev.flt_faulted d c i b).rest

@[simp] theorem Dev.flt_wbuf (d : Dev) (c i b : Nat) : (d.flt c i b).wbuf = d.wbuf := by rw [Dev.flt_rest]
@[simp] theorem Dev.flt_sent (d : Dev) (c i b : Nat) : (d.flt c i b).sent = d.sent := by rw [Dev.flt_rest]
@[simp] theorem Dev.flt_clk (d : Dev) (c i b : Nat) : (d.flt c i b).clk = d.clk := by rw [Dev.flt_rest]
@[simp] theorem Dev.flt_clkLost (d : Dev) (c i b : Nat) : (d.flt c i b).clkLost = d.clkLost := by rw [Dev.flt_rest]
@[simp] theorem Dev.flt_ports (d : Dev) (c i b : Nat) : (d.flt c i b).ports = d.ports := by rw [Dev.flt_rest]
@[simp] theorem Dev.flt_pos (d : Dev) (c i b : Nat) : (d.flt c i b).pos = d.pos := by rw [Dev.flt_rest]
@[simp] theorem Dev.flt_tabs (d : Dev) (c i b : Nat) : (d.flt c i b).tabs = d.tabs := by rw [Dev.flt_rest]
@[simp] theorem Dev.flt_outs (d : Dev) (c i b : Nat) : (d.flt c i b).outs = d.outs := by rw [Dev.flt_rest]
@[simp] theorem Dev.flt_boot (d : Dev) (c i b : Nat) : (d.flt c i b).boot = d.boot := by rw [Dev.flt_rest]

@[simp] theorem Dev.when_wbuf (d : Dev) (c : Bool) (k : Dev → Dev) (h : (k d).wbuf = d.wbuf) : (d.when c k).wbuf = d.wbuf :=
  Dev.when_keeps Dev.wbuf d c k h

@[simp] theorem Dev.wrb_wbuf (d : Dev) (f : Fld) (i j : Nat) (b : Bool) : (d.wrb f i b j).wbuf = d.wbuf := rfl
@[simp] theorem Dev.incSat_wbuf (d : Dev) (f : Fld) (i j : Nat) : (d.incSat f i j).wbuf = d.wbuf := rfl
@[simp] theorem Dev.addSat_wbuf (d : Dev) (f : Fld) (i j n : Nat) : (d.addSat f i n j).wbuf = d.wbuf := rfl
@[simp] theorem Dev.addWrap_wbuf (d : Dev) (f : Fld) (i j n : Nat) : (d.addWrap f i n j).wbuf = d.wbuf := rfl

/-! ## The access gate -/

theorem Dev.vfReaches_read (d : Dev) (r c i : Nat) (h : d.vfReaches r c i true = true) : d.vfReaches r c i false = true := by
  simp only [Dev.vfReaches, List.any_eq_true] at h ⊢
  obtain ⟨n, hn, hp⟩ := h
  refine ⟨n, hn, ?_⟩
  revert hp
  cases d.vfSlot r n with
  | none => exact id
  | some x =>
    intro hp
    simp only [Bool.and_eq_true] at hp ⊢
    exact ⟨hp.1, rfl⟩

/-- A write that its page takes does what it asks for. -/
theorem Dev.busW_takes (d : Dev) (r c i : Nat) (k : Dev → Dev) (h : d.takes r c i = true) : d.busW r c i k = k d := by
  simp only [Dev.takes, Dev.answers, Bool.and_eq_true, Bool.or_eq_true, Bool.not_eq_true'] at h
  obtain ⟨⟨⟨⟨h1, h2⟩, h3⟩, h4⟩, h5⟩ := h
  have h4' : (isVf r && !d.vfReaches r c i false) = false := by
    rcases h4 with h4 | h4
    · simp [h4]
    · simp [Dev.vfReaches_read _ _ _ _ h4]
  have h4'' : (isVf r && !d.vfReaches r c i true) = false := by
    rcases h4 with h4 | h4 <;> simp [h4]
  unfold Dev.busW
  simp only [h1, h2, h3, h4', h4'']
  rcases h5 with h5 | ⟨⟨h5, h6⟩, h7⟩
  · simp [h5]
  · cases hA : aoHeld c 0x40 <;> simp [h5, h6, h7]

/-- A software command whose page takes it does what it asks for. -/
theorem State.upd_busW (s : State) (r c i : Nat) (k : Dev → Dev) (h : s.dev.takes r c i = true) :
    s.upd (fun d => d.busW r c i k) = .next (s.withDev (k s.dev)) := by
  simp only [State.upd, Dev.busW_takes _ _ _ _ _ h]

theorem State.upd_busLane (s : State) (r : Req) (l : Nat) (k : Dev → Dev) (h : s.dev.takesLane r l) :
    s.upd (fun d => d.busLane r.num l k) = .next (s.withDev (k s.dev)) := State.upd_busW s _ _ _ k h

theorem State.updR_busW (s : State) (r c i : Nat) (k : FrameStore → Dev → Dev) (h : s.dev.takes r c i = true) :
    s.updR (fun m d => d.busW r c i (k m)) = .next (s.landed (k s.mem s.dev)) := by
  simp only [State.updR, Dev.busW_takes _ _ _ _ _ h]

/-- A write changes nothing, counts a denial or a discard, or does what it asks for. -/
theorem Dev.busW_cases (d : Dev) (r c i : Nat) (k : Dev → Dev) :
    d.busW r c i k = d ∨ d.busW r c i k = d.deny ∨ d.busW r c i k = d.gatedWrite ∨ d.busW r c i k = k d := by
  unfold Dev.busW
  split
  · exact .inl rfl
  · split
    · exact .inr (.inl rfl)
    · split
      · exact .inr (.inr (.inr rfl))
      · split
        · exact .inl rfl
        · split
          · exact .inr (.inr (.inl rfl))
          · split
            · exact .inl rfl
            · exact .inr (.inr (.inr rfl))

end Sys2Proof.Machine
end

