-- ==== Sys2Proof/Laws/Step.lean ====
section
/-!
SUPPORT. What a command can do to the state, said once over all commands.
-/

namespace Sys2Proof.Machine

/-- A command that may not store leaves the frame store alone. -/
theorem exec_keeps (c : Instr) (s : State) (h : mayStore c = false) : ∃ d, exec c s = .next (s.withDev d) := by
  unfold exec
  split <;> first | cases h; done | exact ⟨_, rfl⟩

/-- A command that may store answers a next state in which what it wrote has landed. -/
theorem exec_stores (c : Instr) (s : State) (h : mayStore c = true) : ∃ d, exec c s = .next (s.landed d) := by
  unfold exec
  split <;> first | cases h; done | exact ⟨_, rfl⟩

end Sys2Proof.Machine
end

