-- ==== Sys2Proof/WellFormed.lean ====
section
/-!
DEFINITION. Well-formed commands: every operand in the range its carrier has. The meanings take ill-formed commands too (they
use the bits that exist); claims about operands may assume this form.
-/

namespace Sys2Proof

/-- Bytes. -/
def bytesOk (bs : List Nat) : Bool := bs.all (fun b => decide (b < 256))

/-- Slots of a port's active set: at most four blocks each, of a 2-bit header and a 64-bit payload. -/
def slotsOk (ss : List LaneSlot) : Bool :=
  ss.all (fun s => decide (s.length ≤ 4) && s.all (fun b => decide (b.1 < 4) && decide (b.2 < 2 ^ 64)))

/-- A page as BAR0 numbers it (R28). -/
def pageOk (c i : Nat) : Bool := decide (c < 64) && decide (i < 64)

/-- A byte offset in BAR0 (R28). -/
def addrOk (a : Nat) : Bool := decide (a < 2 ^ 24)

/-- An island number (R34). -/
def islandOk (n : Nat) : Bool := decide (n < 192)

/-- What the board presents: two-bit straps, a 32-bit time. -/
def strapsOk (s : Straps) : Bool := decide (s.ownSel < 4) && decide (s.smbAddr < 4) && decide (s.bootMicros < 2 ^ 32)

/-- Every operand of a command is in its range. -/
def Instr.wf : Instr → Bool
  | .registerWrite _ addr dws _ => addrOk addr && decide (dws.length ≤ 1024) && decide (dws ≠ [])
  | .evtForce _ c i _ => pageOk c i
  | .en _ c i _ => pageOk c i
  | .srst _ c i => pageOk c i
  | .srstComplete c i => pageOk c i
  | .freeze _ c i _ => pageOk c i
  | .lowWordRead _ x => addrOk x.addr && decide (x.addr % 4 = 0) && decide (1 ≤ x.dws) && decide (x.dws ≤ 1024)
  | .lowWordWrite _ a _ => addrOk a && decide (a % 8 = 0)
  | .highWordWrite _ a _ => addrOk a && decide (a % 8 = 4)
  | .timeGroupWrite _ a _ => addrOk a && decide (a % 4 = 0)
  | .accTimeout _ a _ => addrOk a
  | .hsWdog n => islandOk n
  | .accessStatClear _ _ => true
  | .islGate _ n _ => islandOk n
  | .islPwr n => islandOk n
  | .islReset _ n => islandOk n
  | .islResetDone n => islandOk n
  | .tableRead _ c i => pageOk c i
  | .tableWrite _ c i => pageOk c i
  | .tblOpDone c i => pageOk c i
  | .windowWrite _ _ bs _ => bytesOk bs
  | .windowRead _ _ n => decide (n ≤ 4096)
  | .partitionCommit _ => true
  | .partitionCommitDone => true
  | .acquire _ k n c i => decide (n < k.count) && pageOk c i
  | .claimRelease _ k n c i => decide (n < k.count) && pageOk c i
  | .clrCnt _ c i _ => pageOk c i
  | .pwrGoodRise s => strapsOk s
  | .refclkWaitExpiry s => strapsOk s
  | .resetN _ => true
  | .devReset _ _ => true
  | .pwrGoodFall => true
  | .rateWrite _ _ _ => true
  | .refoutOk _ => true
  | .refoutFail _ => true
  | .refoutRelock _ => true
  | .txFfeWrite _ _ a p q => decide (a < 16) && decide (p < 32) && decide (q < 16)
  | .adaptWindow _ moves => moves.all (fun m => decide (m.natAbs < 2 ^ 31))
  | .acquisitionEnd _ => true
  | .tdWindow _ _ => true
  | .fomUpdate _ t b l r => decide (t < 256) && decide (b < 256) && decide (l < 256) && decide (r < 256)
  | .snapshotTick _ => true
  | .snapNow _ _ => true
  | .revertNow _ _ => true
  | .restart _ _ => true
  | .clearStuck _ _ => true
  | .adaptEn _ _ _ => true
  | .scanStart _ _ w v h => decide (w < 32) && decide (v < 256) && decide (h < 128)
  | .scanDone _ _ => true
  | .comma _ _ b => decide (b.header < 4) && bytesOk b.payload && decide (b.payload.length = 8)
  | .headerLock _ hs => hs.all (fun h => decide (h < 4))
  | .superframeCheck _ _ => true
  | .laneFailed _ => true
  | .narrowTimeout _ => true
  | .widen _ _ => true
  | .rateCheck _ => true
  | .nolock _ => true
  | .linePacket _ ss => slotsOk ss
  | .framePacket _ ss => slotsOk ss
  | .testPacket _ ss => slotsOk ss
  | .lineTimeout _ => true
  | .trigSend _ => true
  | .creditPacket _ ss => slotsOk ss
  | .creditSend _ => true
  | .retryTimeout _ => true
  | .timeReq _ => true
  | .timeNow _ _ => true
  | .timeResp _ ss => slotsOk ss
  | .timeRespTimeout _ => true
  | .timeAck _ _ => true
  | .mgmtRead _ _ n => decide (n < 512)
  | .mgmtWrite _ _ n => decide (n < 512)
  | .mgmtIdRead _ _ n => decide (n < 512)
  | .mgmtResponse _ ss => slotsOk ss
  | .mgmtTimeout _ => true
  | .idDone _ => true
  | .lb2Enter _ _ n => decide (n < 2 ^ 16)
  | .lb2Exit _ _ => true
  | .lb2Duration _ => true
  | .queueMark _ _ => true
  | .queueRewind _ _ => true
  | .queueRelease _ _ => true
  | .queueFlush _ _ => true
  | .queueFlushDone _ => true
  | .quadEdge _ ab _ => decide (ab.1 < 2) && decide (ab.2 < 2)
  | .qerrWindow _ => true
  | .wire _ _ level => decide (level < 4)
  | .index z => decide (z.level < 2)
  | .zArm _ _ => true
  | .serFrame _ _ => true
  | .serReading _ bits _ _ => bytesOk bits
  | .stopped _ => true
  | .limitWrite _ _ _ _ => true
  | .rebase _ _ => true
  | .clrExcess _ _ => true
  | .clrSuspect _ _ => true
  | .histSample _ => true
  | .lockstep _ => true
  | .qualifiedEdge _ _ _ => true
  | .evItem0Read _ _ => true
  | .idPoll _ _ => true
  | .idRead _ _ => true
  | .adapterIdDone _ bs => bytesOk bs
  | .busErr _ => true
  | .generatorLine _ => true
  | .gateOpen _ _ => true
  | .gateClose _ _ => true
  | .entryLoad _ => true
  | .streamFire _ => true
  | .arm _ _ => true
  | .stop _ _ => true
  | .reload _ _ => true
  | .availPt _ _ _ => true
  | .pulseEnd _ => true
  | .driveFault _ => true
  | .safeExit _ _ => true
  | .incrWrite _ n => decide (n < 2 ^ 48)
  | .stepFwd _ => true
  | .stepBack _ => true
  | .refclkLoss => true
  | .tbLockstep => true
  | .ethRx _ f _ => bytesOk f.bytes
  | .ethTx _ desc f => bytesOk desc && decide (desc.length = 32) && bytesOk f
  | .pdelayReq _ f => bytesOk f.bytes
  | .pdelayInterval _ => true
  | .pdelayResp _ f g _ => bytesOk f && bytesOk g
  | .pdelayLost _ => true
  | .pdPost _ _ _ => true
  | .pdAck _ _ => true
  | .masterLost _ => true
  | .ethLinkUp _ => true
  | .ethLinkDown _ => true
  | .modAbs _ => true
  | .sfpIdRead _ _ => true
  | .sfpIdDone _ bs => bytesOk bs
  | .sfpDiag _ bs _ _ => bytesOk bs
  | .timedActionNone _ => true
  | .expose _ => true
  | .pulse _ => true
  | .voxordAction _ => true
  | .segmentAction _ => true
  | .colourCycle _ => true
  | .plumbCycle _ => true
  | .voxSend => true
  | .voxRetry _ => true
  | .voxAck f => bytesOk f
  | .wakeMsg f => bytesOk f
  | .lineItem _ => true
  | .bankSwitch _ _ => true
  | .mtxCommit _ _ => true
  | .intakePtrPost _ _ _ ds => ds.all (fun x => bytesOk x && decide (x.length = 32))
  | .segDescriptor _ bs => bytesOk bs
  | .refTile _ bs => bytesOk bs
  | .profile _ bs => bytesOk bs
  | .colmap _ bs => bytesOk bs
  | .clist _ bs => bytesOk bs
  | .segmentOpen _ => true
  | .segmentEndTime _ => true
  | .keying _ => true
  | .compareTile _ => true
  | .workComplete _ => true
  | .deadline _ => true
  | .stalled _ => true
  | .takeover _ _ => true
  | .giveBack _ => true
  | .clearAcc _ _ => true
  | .hbmReady _ => true
  | .scrubPass _ => true
  | .spareNow _ _ _ => true
  | .spareDone _ => true
  | .writeBack _ _ x => bytesOk x && decide (x.length = 32)
  | .ptrPost _ _ _ => true
  | .msixMessage _ _ v => decide (v < 2048)
  | .intxAck _ _ v => decide (v < 2048)
  | .perstFall _ => true
  | .perstRise _ => true
  | .hotReset _ => true
  | .pcieLinkDown _ => true
  | .pcieLinkUp _ _ _ _ => true
  | .flr _ _ => true
  | .configWrite _ _ _ v => decide (v < 2 ^ 32)
  | .completion _ _ _ _ => true
  | .cplTimeout _ _ => true
  | .quarantineEnd _ _ => true
  | .wttCommit _ _ _ _ => true
  | .commitDone _ _ => true
  | .l1Entry _ => true
  | .l0pNarrow _ => true
  | .l0pWiden _ => true
  | .pcieFollow _ => true
  | .summaryClr _ => true
  | .replaceClr _ => true
  | .alertClr _ => true
  | .alertResponse => true
  | .smbSetAddr bs => bytesOk bs
  | .smbRead => true
  | .kaNow _ => true
  | .kaRun _ => true
  | .kaRunDone _ _ _ => true
  | .kaTimeout _ => true
  | .sramScrub w _ => pageOk w.cls w.inst && decide (w.sbe < 32) && decide (w.dbe < 32)
  | .fltInj _ c i _ => pageOk c i
  | .xtalLoss => true
  | .vmon => true
  | .tempCrit t => decide (-128 ≤ t) && decide (t < 128)
  | .tempHot t => decide (-128 ≤ t) && decide (t < 128)
  | .hbmHot _ t => decide (t < 256)
  | .ptClkLoss => true
  | .islClkLoss n => islandOk n
  | .pcieRefLoss _ => true
  | .bridgeCrc _ => true
  | .aoLockstep => true
  | .fabLockstep => true
  | .flbDepth _ _ _ => true
  | .genEn _ _ _ => true
  | .elDepth _ _ _ => true
  | .plbDepth _ _ _ => true
  | .qgen _ _ _ n => decide (n < 2 ^ 16)
  | .qgenDone => true
  | .hlbStart _ _ _ _ => true
  | .hbmTestDone _ _ _ => true
  | .injEn _ _ _ => true
  | .injHoldTimeout _ => true
  | .mbistRun _ => true
  | .lbistRun _ => true
  | .bistDone a b _ => a.all islandOk && b.all islandOk
  | .trstN => true
  | .extest _ => true
  | .idcode => true
  | .samplePreload _ => true
  | .highz => true
  | .clamp => true
  | .extestPulse _ => true
  | .extestTrain _ => true
  | .bypass _ => true
  | .regacc x => decide (x < 2 ^ 64)
  | .nvRead _ => true
  | .nvWrite _ => true
  | .commitLock _ => true
  | .unlock _ => true
  | .unlockHoldoffEnd => true
  | .nvOpDone => true
  | .modAbsHigh _ => true
  | .fomInfoRead _ _ => true
  | .sampledLevelChange _ e => decide (e.level < 2)
  | .histWaitExpiry _ => true
  | .evaluationComplete _ => true
  | .hbmScrubRead a _ => decide (a < 103079215104)
  | .lb2ResponseTimeout _ => true
  | .atsInvalidation _ _ _ => true
  | .tempMaxRise t => decide (-128 ≤ t) && decide (t < 128)

end Sys2Proof
end

