-- ==== Sys2Proof/Tests/Slice0.lean ====
section
/-!
SUPPORT. The model's own tests: the worked examples of the spec, the well-formedness checks, and for every statement of the
package a witness (wit_ and the statement's name), one clause after another: concrete states and operands that meet each
clause's hypotheses together.
-/

open Sys2Proof Sys2Proof.Machine

set_option Elab.async false

namespace Sys2Proof.Tests

/-! ## Witnesses of the statements -/

/-- A booted device with every island powered. -/
def up : Dev := [0, 1, 2, 3, 4, 5].foldl (fun d k => d.wr Isl.PWR 0 0xFFFFFFFF k)
  { Dev.reset with boot := { Dev.reset.boot with aoUp := true } }
def up2 : Dev := (((up.wr Link.LINK_STAT_DL_UP 0 1).wr Link.LINK_STAT_DL_UP 1 1).setLink 0 default).setLink 1 default
def st (d : Dev) : State := { State.reset with dev := d }

/-! Lanes and the port's lane group. -/

namespace Lanes

def laneOn : Dev := ((up.wr (Hdr.EN 0x08) 5 1).wr (Hdr.EN 0x0A) 1 1).wr Lane.STAT_HDR_LOCK 5 1
def w0 : State := st up
def w1 : State := st (up.wr Lane.STAT_ADAPT_STUCK 5 1)
def w2 : State := st ((up.wr Lane.STAT_SNAP_VALID 5 1).setLane 5 {(default:LaneH) with snap := [3,4,5,6,7,8,9,1,2,3,4,5,6,7,8,9,1]})
def w5 : State := st laneOn
def w6 : State := st (up.wr Lane.STAT_TD_LOW 5 1)
def w9 : State := st ((laneOn.wr Lane.LANE_CFG_ADAPT_EN 5 1).wr Lane.FOM_INFO_FOM 5 200)
def w12 : State := st (up.wr Lane.SCAN_CTRL_BUSY 5 1)
def w13 : Dev := laneOn.wr Lane.LANE_CFG_AUTO_POL 5 1
def w14 : Dev := w13.setLane 5 {(default:LaneH) with invCommas := 3, invSlot := 8}
def w15 : Dev := up.setLane 5 {(default:LaneH) with hdrRun := 63}
def w16 : Dev := laneOn.setLane 5 {(default:LaneH) with hdrWin := List.replicate 15 true}
def w17 : Dev := up.wr Lane.STAT_COMMA_LOCK 5 1
def w18 : Dev := (up.wr Lane.STAT_COMMA_LOCK 5 1).setLane 5 {(default:LaneH) with missed := 1}
def w19 : State := st (laneOn.setLane 5 {(default:LaneH) with known := some 1})
def w21 : State := st (laneOn.wr Port.LG_STAT_NARROW_PENDING 1 1)
def w22 : State := st (laneOn.wr Port.LG_CFG_AUTO_NARROW 1 0)
def w23 : State := st (laneOn.wr Port.LG_CFG_REFOUT_EN 1 1)
def w1a : State := st ((up.wr Lane.LANE_CFG_ADAPT_EN 5 0))
theorem wit_LaneControl :
    (w0.dev.takesLane Req.jtag 5 ∧ 3 % 16 + 28 % 32 ≤ 31) ∧
    (w0.dev.takesLane Req.jtag 5 ∧ 31 < 15 % 16 + 28 % 32) ∧
    (w0.dev.takesLane Req.jtag 5 ∧ w0.dev.is Lane.LANE_CFG_ADAPT_EN 5 = true) ∧
    (w1a.dev.takesLane Req.jtag 5 ∧ w1a.dev.is Lane.LANE_CFG_ADAPT_EN 5 = false) ∧
    (w1.dev.takesLane Req.jtag 5 ∧ w1.dev.is Lane.STAT_ADAPT_STUCK 5 = true) ∧
    (w0.dev.takesLane Req.jtag 5 ∧ w0.dev.is Lane.STAT_ADAPT_STUCK 5 = false) ∧
    (w0.dev.takesLane Req.jtag 5 ∧ w0.dev.is Lane.STAT_SNAP_VALID 5 = false) ∧
    (w2.dev.takesLane Req.jtag 5 ∧ w2.dev.is Lane.STAT_SNAP_VALID 5 = true) := by
  refine ⟨?_, ?_, ?_, ?_, ?_, ?_, ?_, ?_⟩ <;> decide +kernel

def w5t : State := st (laneOn.wr Lane.ADAPT_CFG_ADAPT_TD_MIN 5 0)
def w6t : State := st (laneOn.wr Lane.STAT_TD_LOW 5 1)
def w5c : State := st ((laneOn.wr Lane.LANE_CFG_ADAPT_EN 5 1).wr (Hdr.FLT_INJ 0x08) 5 (2 ^ Lane.F_COEFF_PAR))
theorem wit_LaneMonitoring :
    (w5.dev.is Lane.STAT_HDR_LOCK 5 = true) ∧
    (w0.dev.is Lane.STAT_HDR_LOCK 5 = false) ∧
    (w5.dev.enabled 8 5 = true ∧ w5.dev.rd Lane.ADAPT_CFG_ADAPT_TD_MIN 5 ≤ 100000) ∧
    (w5.dev.enabled 8 5 = true ∧ 0 < w5.dev.rd Lane.ADAPT_CFG_ADAPT_TD_MIN 5 ∧ w5.dev.is Lane.STAT_TD_LOW 5 = false) ∧
    (w6t.dev.enabled 8 5 = true ∧ 0 < w6t.dev.rd Lane.ADAPT_CFG_ADAPT_TD_MIN 5 ∧ w6t.dev.is Lane.STAT_TD_LOW 5 = true) ∧
    (w0.dev.enabled 8 5 = false) ∧
    (w5.dev.enabled 8 5 = true ∧ w5.dev.is Lane.LANE_CFG_ADAPT_EN 5 = true ∧ w5.dev.rd Lane.FOM_INFO_FOM 5 < w5.dev.rd Lane.ADAPT_CFG_FOM_GOOD 5) ∧
    (w9.dev.enabled 8 5 = true ∧ w9.dev.is Lane.LANE_CFG_ADAPT_EN 5 = true ∧ w9.dev.rd Lane.ADAPT_CFG_FOM_GOOD 5 ≤ w9.dev.rd Lane.FOM_INFO_FOM 5 ∧ w9.dev.is Lane.STAT_TD_LOW 5 = false ∧ (w9.dev.lane 5).revertSinceTick = false) ∧
    (w5c.dev.armed 8 5 Lane.F_COEFF_PAR = true) ∧
    (w0.dev.armed 8 5 Lane.F_COEFF_PAR = false ∧ w0.dev.enabled 8 5 = false) ∧
    (w5.dev.armed 8 5 Lane.F_COEFF_PAR = false ∧ w5.dev.is Lane.LANE_CFG_ADAPT_EN 5 = true ∧ w5.dev.is Lane.STAT_ADAPT_STUCK 5 = false ∧ w5.dev.is Lane.STAT_TD_LOW 5 = false ∧ w5.dev.enabled 8 5 = true) := by
  refine ⟨?_, ?_, ?_, ?_, ?_, ?_, ?_, ?_, ?_, ?_, ?_⟩ <;> decide +kernel

def w12a : State := st (laneOn.wr Lane.SCAN_CTRL_BUSY 5 1)
theorem wit_FomAndEyeScan :
    (w0.dev.is Lane.STAT_FOM_HELD 5 = true ∨ w0.dev.enabled 8 5 = false) ∧
    (w5.dev.is Lane.STAT_FOM_HELD 5 = false ∧ w5.dev.enabled 8 5 = true) ∧
    (w5.dev.takesLane Req.jtag 5 ∧ 16 ≤ 16 % 32 ∧ 16 % 32 ≤ 30 ∧ -32 ≤ sInt 7 100 ∧ sInt 7 100 ≤ 32 ∧ w5.dev.is Lane.SCAN_CTRL_BUSY 5 = false ∧ w5.dev.enabled 8 5 = true) ∧
    (w0.dev.takesLane Req.jtag 5 ∧ 16 ≤ 30 % 32 ∧ 30 % 32 ≤ 30 ∧ -32 ≤ sInt 7 32 ∧ sInt 7 32 ≤ 32 ∧ w0.dev.is Lane.SCAN_CTRL_BUSY 5 = false ∧ w0.dev.enabled 8 5 = false) ∧
    (w12a.dev.takesLane Req.jtag 5 ∧ 16 ≤ 16 % 32 ∧ 16 % 32 ≤ 30 ∧ -32 ≤ sInt 7 96 ∧ sInt 7 96 ≤ 32 ∧ w12a.dev.is Lane.SCAN_CTRL_BUSY 5 = true) ∧
    (w0.dev.takesLane Req.jtag 5 ∧ 15 % 32 < 16 ∧ 30 < 31 % 32 ∧ sInt 7 95 < -32 ∧ 32 < sInt 7 33) ∧
    (w12a.dev.is Lane.SCAN_CTRL_BUSY 5 = true) ∧
    (w5.dev.is Lane.SCAN_CTRL_BUSY 5 = false) := by
  refine ⟨?_, ?_, ?_, ?_, ?_, ?_, ?_, ?_⟩ <;> decide +kernel

def com : List Nat := commaHead ++ [comma7 1 15 1]
def inv : List Nat := com.map (fun b => 255 - b)
theorem wit_CommasSeen :
    (w0.dev.enabled 8 5 = false ∨ w0.dev.enabled 10 (lanePort 5) = false ∨ w0.dev.is Lane.STAT_HDR_LOCK 5 = false) ∧
    (w5.dev.enabled 8 5 = true ∧ w5.dev.enabled 10 (lanePort 5) = true ∧ w5.dev.is Lane.STAT_HDR_LOCK 5 = true ∧ (w5.dev.rxBall 5 (1, le inv 0 8)).1 = 1 ∧ isInvComma (blockBytes (w5.dev.rxBall 5 (1, le inv 0 8)).2) = true) ∧
    (w5.dev.enabled 8 5 = true ∧ w5.dev.enabled 10 (lanePort 5) = true ∧ w5.dev.is Lane.STAT_HDR_LOCK 5 = true ∧ (w5.dev.rxBall 5 (1, 0)).1 = 1 ∧ isInvComma (blockBytes (w5.dev.rxBall 5 (1, 0)).2) = false) ∧
    (w5.dev.enabled 8 5 = true ∧ w5.dev.enabled 10 (lanePort 5) = true ∧ w5.dev.is Lane.STAT_HDR_LOCK 5 = true ∧ (w5.dev.rxBall 5 (2, le com 0 8)).1 = 2 ∧ isComma (blockBytes (w5.dev.rxBall 5 (2, le com 0 8)).2) = true) ∧
    (w0.dev.is Lane.LANE_CFG_AUTO_POL 5 = false ∨ (st (w13.wr Lane.LANE_CFG_AUTO_POL 5 0)).dev.is Lane.LANE_CFG_AUTO_POL 5 = false) ∧
    (w13.is Lane.LANE_CFG_AUTO_POL 5 = true ∧ (w13.lane 5).invCommas = 0) ∧
    (w14.is Lane.LANE_CFG_AUTO_POL 5 = true ∧ ¬ ((w14.lane 5).invCommas ≠ 0 ∧ 10 = (w14.lane 5).invSlot + 1)) ∧
    (w14.is Lane.LANE_CFG_AUTO_POL 5 = true ∧ (w14.lane 5).invCommas ≠ 0 ∧ 9 = (w14.lane 5).invSlot + 1 ∧ 4 ≤ (w14.lane 5).invCommas + 1) := by
  refine ⟨?_, ?_, ?_, ?_, ?_, ?_, ?_, ?_⟩ <;> decide +kernel

def pup : Dev := laneOn.wr Port.STAT_LINK_UP 1 1
def tst : Dev := (pup.setPort 1 {(default:PortH) with lb := .active})
theorem wit_FrameHeaders :
    (w5.dev.enabled 8 5 = true ∧ w5.dev.enabled 10 (lanePort 5) = true) ∧
    (w0.dev.enabled 8 5 = false ∨ w0.dev.enabled 10 (lanePort 5) = false) ∧
    (up.is Lane.STAT_HDR_LOCK 5 = false ∧ (1 % 4 = 1 ∨ 1 % 4 = 2) ∧ (up.lane 5).hdrRun + 1 < 64) ∧
    (w15.is Lane.STAT_HDR_LOCK 5 = false ∧ (1 % 4 = 1 ∨ 1 % 4 = 2) ∧ 64 ≤ (w15.lane 5).hdrRun + 1) ∧
    (up.is Lane.STAT_HDR_LOCK 5 = false ∧ (0 % 4 = 0 ∨ 0 % 4 = 3)) ∧
    (w16.is Lane.STAT_HDR_LOCK 5 = true ∧ 16 ≤ List.count true (List.take 64 (decide (0 % 4 = 0 ∨ 0 % 4 = 3) :: (w16.lane 5).hdrWin))) ∧
    (laneOn.is Lane.STAT_HDR_LOCK 5 = true ∧ List.count true (List.take 64 (decide (0 % 4 = 0 ∨ 0 % 4 = 3) :: (laneOn.lane 5).hdrWin)) < 16) ∧
    (laneOn.is Lane.STAT_COMMA_LOCK 5 = false) ∧
    (w17.is Lane.STAT_COMMA_LOCK 5 = true ∧ ((w17.setLane 5 {(default:LaneH) with sawComma := true}).lane 5).sawComma = true) ∧
    (w17.is Lane.STAT_COMMA_LOCK 5 = true ∧ (w17.lane 5).sawComma = false ∧ (w17.lane 5).missed = 0) ∧
    (w18.is Lane.STAT_COMMA_LOCK 5 = true ∧ (w18.lane 5).sawComma = false ∧ (w18.lane 5).missed ≠ 0) ∧
    (up.enabled 10 1 = false) ∧
    (pup.enabled 10 1 = true ∧ pup.linkUp 1 = true) ∧
    (laneOn.enabled 10 1 = true ∧ laneOn.linkUp 1 = false) ∧
    ((((tst.superframe 1).portEval 1).superframeSend 1 |>.port 1).lb = .active) := by
  refine ⟨?_, ?_, ?_, ?_, ?_, ?_, ?_, ?_, ?_, ?_, ?_, ?_, ?_, ?_, ?_⟩ <;> decide +kernel

def tnow : Dev := {laneOn with clk := ⟨3, 3500, 0⟩}
def fl : Dev := (tnow.wr Lane.STAT_HDR_LOCK 5 0).setLane 5 {(default:LaneH) with lostAt := some 5}
def fk : Dev := fl.setLane 5 {(fl.lane 5) with known := some 1}
def low : Dev := tnow.setLane 5 {(default:LaneH) with lowSince := some 5}
def lost : Dev := (fl.wr Port.LG_STAT_EXCLUDED 1 15)
def wid : Dev := ((tnow.wr Lane.STAT_COMMA_LOCK 5 1).wr Lane.STAT_RX_LOGICAL 5 1).wr Lane.FOM_INFO_FOM 5 255
def wide : Dev := (wid.wr Port.LG_STAT_EXCLUDED 1 2).setLane 5 {(default:LaneH) with goodSince := some 5}
def goods (d : Dev) (p i : Nat) : Bool := let e := (portLanes p).foldl (fun d l => d.laneGood l) d
  (e.rd Port.LG_STAT_EXCLUDED p).testBit i && match e.carrier p i with
    | some l => (match (e.lane l).goodSince with | some t => decide (t + 100000000 * nsL ≤ e.nowL) | none => false)
    | none => false
theorem wit_ActiveLanes :
    ((activeSet 15 15).testBit 0 = true) ∧
    (maskWidth (15 &&& 8) = 1) ∧
    (2 ≤ maskWidth (15 &&& 5) ∧ maskWidth (15 &&& 5) < 4 ∧ (activeSet 15 5).testBit 2 = true ∧ (15 &&& 5).testBit 0 = true) ∧
    (w0.dev.enabled 10 (lanePort 5) = false ∧ w0.dev.failDue 5 = false) ∧
    ((fl.wr Port.LG_CFG_AUTO_NARROW 1 0).enabled 10 (lanePort 5) = true ∧ (fl.wr Port.LG_CFG_AUTO_NARROW 1 0).failDue 5 = true ∧ (((((fl.wr Port.LG_CFG_AUTO_NARROW 1 0).wr Lane.STAT_FAILED 5 1).evt 0x08 5 Lane.E_LANE_FAILED).flt 0x08 5 Lane.F_RX_FAIL).is Port.LG_CFG_AUTO_NARROW (lanePort 5)) = false) ∧
    (fk.enabled 10 (lanePort 5) = true ∧ fk.failDue 5 = true ∧ (((fk.wr Lane.STAT_FAILED 5 1).evt 0x08 5 Lane.E_LANE_FAILED).flt 0x08 5 Lane.F_RX_FAIL).is Port.LG_CFG_AUTO_NARROW (lanePort 5) = true ∧ ((((fk.wr Lane.STAT_FAILED 5 1).evt 0x08 5 Lane.E_LANE_FAILED).flt 0x08 5 Lane.F_RX_FAIL).lane 5).known = some 1) ∧
    (lost.enabled 10 (lanePort 5) = true ∧ lost.failDue 5 = true ∧ lost.is Port.LG_CFG_AUTO_NARROW 1 = true ∧ (lost.lane 5).known = none ∧ (List.range 4).find? (fun i => (lost.rd Port.LG_CFG_EXPECT_MASK 1).testBit i && (lost.carrier 1 i).isNone && !(lost.rd Port.LG_STAT_EXCLUDED 1).testBit i) = none) ∧
    (fl.is Lane.STAT_HDR_LOCK 5 = false ∧ (fl.lane 5).lostAt = some 5 ∧ 5 + fl.laneFailTime (lanePort 5) ≤ fl.nowL) ∧
    ((low.lane 5).lowSince = some 5 ∧ 5 + low.laneFailTime (lanePort 5) ≤ low.nowL) ∧
    (w21.dev.is Port.LG_STAT_NARROW_PENDING 1 = true) ∧
    (w0.dev.is Port.LG_STAT_NARROW_PENDING 1 = false) ∧
    (w0.dev.takes 0xFE 10 1 = true ∧ goods w0.dev 1 0 = false ∧ goods w0.dev 1 1 = false ∧ goods w0.dev 1 2 = false ∧ goods w0.dev 1 3 = false) ∧
    (wide.takes 0xFE 10 1 = true ∧ goods wide 1 1 = true ∧ goods wide 1 0 = false ∧ goods wide 1 2 = false ∧ goods wide 1 3 = false ∧ (((portLanes 1).foldl (fun d l => d.laneGood l) wide).carrier 1 1) = some 5) ∧
    (w5.dev.enabled 10 1 = true ∧ w5.dev.linkUp 1 = false) ∧
    (w0.dev.enabled 10 1 = false ∨ w0.dev.linkUp 1 = true) := by
  refine ⟨?_, ?_, ?_, ?_, ?_, ?_, ?_, ?_, ?_, ?_, ?_, ?_, ?_, ?_, ?_⟩ <;> decide +kernel

def ro : Dev := up.wr Port.LG_CFG_REFOUT_EN 1 1
theorem wit_RateAndRefout :
    (w0.dev.takes 0xFE 10 1 = true ∧ w0.dev.rd Port.LG_CFG_RATE 1 = 0) ∧
    (w5.dev.takes 0xFE 10 1 = true ∧ w5.dev.rd Port.LG_CFG_RATE 1 ≠ 1 ∧ w5.dev.enabled 10 1 = true) ∧
    (w0.dev.takes 0xFE 10 1 = true ∧ w0.dev.rd Port.LG_CFG_RATE 1 ≠ 3 ∧ w0.dev.enabled 10 1 = false) ∧
    (ro.is Port.LG_CFG_REFOUT_EN 1 = true ∧ ro.is Port.LG_STAT_REFOUT_OK 1 = false ∧ (ro.wr Port.LG_STAT_REFOUT_OK 1 1 |>.enabled 10 1) = false ∧ ro.enabled 10 1 = false) ∧
    (w23.dev.is Port.LG_CFG_REFOUT_EN 1 = true ∧ w23.dev.is Port.LG_STAT_REFOUT_OK 1 = false ∧ w23.dev.enabled 10 1 = true) ∧
    ((up.wr Port.LG_CFG_REFOUT_EN 1 0).is Port.LG_CFG_REFOUT_EN 1 = false ∨ w23.dev.is Port.LG_STAT_REFOUT_OK 1 = true) ∧
    ((ro.wr Port.LG_STAT_REFOUT_OK 1 1).is Port.LG_STAT_REFOUT_OK 1 = true) := by
  refine ⟨?_, ?_, ?_, ?_, ?_, ?_, ?_⟩ <;> decide +kernel

end Lanes

/-! Packets, time transfer, management, loops and queues. -/

namespace Flegar

def pk : Dev := ((up.wr (Hdr.EN 0x0A) 1 1).wr Port.STAT_LINK_UP 1 1).wr (Hdr.EN 0x0B) 1 1
def pkt (typ n : Nat) : List Nat := withCrc (pktHdr typ 1 0 n 0 ++ List.replicate (n - 12) 2)
def mg : List Nat := withCrc (pktHdr 5 1 0 20 0 ++ [129, 0,0,0, 0,0,0,0])
def tm : List Nat := withCrc (pktHdr 4 0 0 80 0 ++ [2] ++ zeros 67)
def ol : OpenLine := ⟨7, 3, 100, 1, 1, zeros 64, zeros 60, 5, 2, 9, 1⟩
def lnOpen : Dev := pk.setIng 1 {(default:IngestH) with line := some ol, itemSeq := 65535, swallow := some 4}
def trg : Trig := ⟨5000000000000, 1, 2, 3, 4⟩
def tr1 : Dev := pk.setPort 1 {(default:PortH) with trigs := [trg, trg], trigCount := 65535}
def tr2 : Dev := (tr1.wr Port.STAT_TIME_VALID 1 1)
def tr3 : Dev := tr2.setPort 1 {(tr2.port 1) with out := List.replicate 40 ⟨1, [1,2], 2, true, 5⟩}
def cp (n : Nat) : Dev := pk.setPort 1 {(default:PortH) with out := [⟨1, [1,2,3,4,5,6,7,8,9,10,11,12,13,14], n, true, 5⟩, ⟨2, [1,2,3,4,5,6,7,8,9,10,11,12,13,14], 3, false, 5⟩]}
def t1 : Nat := 3 * 2 ^ 48 + 100 * 2 ^ 16
def t2 : Nat := 3 * 2 ^ 48 + 1000 * 2 ^ 16
def t3 : Nat := 3 * 2 ^ 48 + 2000 * 2 ^ 16
def tp : Dev := {pk with clk := ⟨3, 3500, 0⟩}
def tpe : Dev := tp.setPort 1 {(default:PortH) with exch := some ⟨9, t1, 7⟩, xid := 10}
def trs (xid t1 t2 t3 : Nat) (corr : Nat) : List Nat := withCrc (pktHdr 4 0 0 80 0 |>.take 6 |> (· ++ leBytes 2 xid ++ [2,0,0,0] ++ leBytes 16 t1 ++ leBytes 16 t2 ++ leBytes 16 t3 ++ leBytes 8 corr ++ zeros 8))
def mgm (u : MgmtUser) : Mgmt := ⟨u, 1, 3, 4, 100⟩
def lbs (x : Lb2) : Dev := pk.setPort 1 {(default:PortH) with lb := x, mgmt := some (mgm .loopEnter)}
def qi : QItem := ⟨3, 2, zeros 64, [], [], true⟩
def qs (k : Nat) : Dev := up2.setQueue k {(default:QueueH) with wr := 9, rd := 5, mark := 3, rel := 3, markValid := true, items := [qi], flushBusy := false}
def qf (k : Nat) : Dev := up2.setQueue k {(default:QueueH) with wr := 9, rd := 9, rel := 9, flushBusy := true}
def w0 : State := st up
def w1 : State := st pk
def w2 : Dev := pk.wr Ingest.VID_LIMIT 1 1000
def w3 : Dev := (pk.wr Ingest.VID_LIMIT 1 10).wr Ingest.RX_UNITS 1 11
def w5 : State := st tr1
def w6 : State := st tr2
def w7 : State := st tr3
def w8 : State := st (cp 7)
def w11 : State := st tpe
def w15 : State := st (pk.setPort 1 {(default:PortH) with mgmt := some (mgm .software)})
def w16 : State := st (pk.setPort 1 {(default:PortH) with mgmt := some (mgm .identity), idRead := some 3})
def w17 : State := st (pk.setPort 1 {(default:PortH) with idRead := some 16, idBuf := zeros 4096})
def w18 : State := st (pk.wr Port.ID_STAT_ID_VALID 1 1)
def w19 : State := st (lbs .active)
def w20 : State := st (lbs .entering)
def w21 : State := st (lbs .leaving)
def w22 : State := st (pk.setPort 1 {(default:PortH) with lb := .entering, mgmt := some (mgm .software)})
def w23 : State := st up2
def w24 : State := st (qs 1)
def w28 : State := st (qf 1)
def w31 : State := st ((qs 1).wr (Hdr.EN 0x0C) 1 1)
def lk : Dev := (pk.wr Lane.STAT_HDR_LOCK 4 1).wr (Hdr.EN 0x08) 4 1
def lkr (k : Nat) (b : Nat × Nat) : Dev × (Nat × Nat) := let d := if k = 0 then pk else lk
  let e := if d.enabled 8 (d.inLane 1 0) then d.header (d.inLane 1 0) (d.rxBall (d.inLane 1 0) b).1 else d
  e.laneTake (d.inLane 1 0) (d.rxBall (d.inLane 1 0) b)
def rxo : Dev := pk.setPort 1 {(default:PortH) with rx := some [1,2,3,4,5,6,7]}
def st0 : Nat := 0x78 + 256 * 1
def lb3 : Dev := pk.setLoop 1 {(pk.loop 1) with depth := 3}
def far : Dev := pk.setPort 1 {(default:PortH) with lb := .active}
theorem wit_PacketsIn :
    (w0.dev.enabled 10 1 = false ∨ w0.dev.linkUp 1 = false) ∧
    (w1.dev.enabled 10 1 = true ∧ w1.dev.linkUp 1 = true) ∧
    ((lkr 0 (1, 5)).1.loopDepth 1 ≠ 3 ∧ (lkr 0 (1, 5)).1.lbOn 1 = false ∧ (lkr 0 (1, 5)).1.linkUp 1 = true ∧ pk.is Lane.STAT_HDR_LOCK (pk.inLane 1 0) = false) ∧
    ((lkr 1 (1, 5)).1.loopDepth 1 ≠ 3 ∧ (lkr 1 (1, 5)).1.lbOn 1 = false ∧ (lkr 1 (1, 5)).1.linkUp 1 = true ∧ (lk.header (lk.inLane 1 0) 1).is Lane.STAT_HDR_LOCK (lk.inLane 1 0) = true) ∧
    ((up.laneTake (up.inLane 1 0) (1, 5)).1.linkUp 1 = false ∧ (up.laneTake (up.inLane 1 0) (1, 5)).1.loopDepth 1 ≠ 3 ∧ (up.laneTake (up.inLane 1 0) (1, 5)).1.lbOn 1 = false) ∧
    ((pk.port 1).rx = none ∧ ¬ ((1, st0).1 = 2 ∧ byteAt (blockBytes (1, st0).2) 0 = 0x78)) ∧
    ((pk.port 1).rx = none ∧ byteAt (blockBytes st0) 0 = 0x78) ∧
    ((rxo.port 1).rx = some [1,2,3,4,5,6,7] ∧ 0xE0 ≤ byteAt (blockBytes 0xE3) 0 ∧ byteAt (blockBytes 0xE7) 0 ≤ 0xE7 ∧ byteAt (blockBytes 0x1E) 0 = 0x1E) ∧
    ((byteAt [1,2] 0 = 1 ∧ byteAt [2,2] 0 = 2) ∧ byteAt [5,2] 0 ≠ 1 ∧ byteAt [5,2] 0 ≠ 2) ∧
    (((rxo.setPort 1 { rxo.port 1 with rx := none }).rxReturn 1 mg).is LbF.INJ_CFG_INJ_EN 0 1 = false ∧ (((rxo.setPort 1 { rxo.port 1 with rx := none }).rxReturn 1 mg).loop 1).held = none) ∧
    (pktGood [] = false ∧ pk.testRuns 1 = false) ∧
    (pktGood mg = true ∧ (far.port 1).lb = .active ∧ byteAt mg 0 ≠ 0x0F) ∧
    (pktGood mg = true ∧ lb3.loopDepth 1 = 3 ∧ (lb3.port 1).lb ≠ Lb2.active ∧ pktKnown mg = true) ∧
    (pktGood (pkt 9 30) = true ∧ pk.loopDepth 1 ≠ 3 ∧ (pk.port 1).lb ≠ Lb2.active ∧ pktKnown (pkt 9 30) = false) ∧
    (pktGood (pkt 1 100) = true ∧ pk.loopDepth 1 ≠ 3 ∧ (pk.port 1).lb ≠ Lb2.active ∧ pktKnown (pkt 1 100) = true ∧ byteAt (pkt 1 100) 0 = 1) ∧
    (pktGood (pkt 2 40) = true ∧ pk.loopDepth 1 ≠ 3 ∧ (pk.port 1).lb ≠ Lb2.active ∧ pktKnown (pkt 2 40) = true ∧ byteAt (pkt 2 40) 0 = 2) ∧
    (pktGood tm = true ∧ pk.loopDepth 1 ≠ 3 ∧ (pk.port 1).lb ≠ Lb2.active ∧ pktKnown tm = true ∧ byteAt tm 0 = 4) ∧
    (pktGood mg = true ∧ pk.loopDepth 1 ≠ 3 ∧ (pk.port 1).lb ≠ Lb2.active ∧ pktKnown mg = true ∧ byteAt mg 0 = 5) ∧
    (pktGood (pkt 6 20) = true ∧ pk.loopDepth 1 ≠ 3 ∧ (pk.port 1).lb ≠ Lb2.active ∧ pktKnown (pkt 6 20) = true ∧ byteAt (pkt 6 20) 0 = 6) ∧
    (pktGood (pkt 15 20) = true ∧ pk.loopDepth 1 ≠ 3 ∧ (pk.port 1).lb ≠ Lb2.active ∧ pktKnown (pkt 15 20) = true ∧ byteAt (pkt 15 20) 0 = 15) := by
  refine ⟨?_, ?_, ?_, ?_, ?_, ?_, ?_, ?_, ?_, ?_, ?_, ?_, ?_, ?_, ?_, ?_, ?_, ?_, ?_, ?_⟩ <;> decide +kernel

def lnp (drop : Nat) : List Nat := (pkt 1 100).take 23 ++ [drop] ++ (pkt 1 100).drop 24
theorem wit_LinesAssembled :
    (w3.overCredit 1 = true) ∧
    (w2.overCredit 1 = false ∧ byteAt (lnp 0) 23 = 0) ∧
    (w2.overCredit 1 = false ∧ ((w2.setPort 1 {w2.port 1 with dropLine := some (le (lnp 5) 8 4)}).port 1).dropLine = some (le (lnp 5) 8 4)) ∧
    (w2.overCredit 1 = false ∧ byteAt (lnp 5) 23 ≠ 0 ∧ (w2.port 1).dropLine ≠ some (le (lnp 5) 8 4)) ∧
    ((lnOpen.ing 1).line = some ol) := by
  refine ⟨?_, ?_, ?_, ?_, ?_⟩ <;> decide +kernel

def gen1 : Dev := ((tr1.wr LbF.LB_CFG_GEN_EN 0 1 1).wr LbF.LB_CFG_GEN_KIND 0 1 1).setLoop 1 {(tr1.loop 1) with depth := 1}
def rbl : Dev := tr2.setTabErr 0x0A 1 0xFE Port.F_RB_DBE 2
theorem wit_PacketsOut :
    ((w0.dev.port 1).trigs = []) ∧
    ((w5.dev.port 1).trigs = [trg, trg] ∧ (w5.dev.useBuf 0x0A 1 Port.F_RB_SBE Port.F_RB_DBE).2 = false ∧ (w5.dev.lineGenOn 1 = false ∨ trg.action ≠ 1) ∧ w5.dev.is Port.STAT_TIME_VALID 1 = false) ∧
    ((gen1.port 1).trigs = [trg, trg] ∧ (gen1.useBuf 0x0A 1 Port.F_RB_SBE Port.F_RB_DBE).2 = false ∧ gen1.lineGenOn 1 = true ∧ trg.action = 1) ∧
    ((w7.dev.port 1).trigs = [trg, trg] ∧ (w7.dev.useBuf 0x0A 1 Port.F_RB_SBE Port.F_RB_DBE).2 = false ∧ w7.dev.lineGenOn 1 = false ∧ (!w7.dev.is Port.STAT_TIME_VALID 1 || w7.dev.lbOn 1 || w7.dev.loopDepth 1 != 0 || w7.dev.trigLate 1 trg.act) = false ∧ w7.dev.windowOpen 1 = false) ∧
    ((w6.dev.port 1).trigs = [trg, trg] ∧ (w6.dev.useBuf 0x0A 1 Port.F_RB_SBE Port.F_RB_DBE).2 = false ∧ w6.dev.lineGenOn 1 = false ∧ (!w6.dev.is Port.STAT_TIME_VALID 1 || w6.dev.lbOn 1 || w6.dev.loopDepth 1 != 0 || w6.dev.trigLate 1 trg.act) = false ∧ w6.dev.windowOpen 1 = true) ∧
    ((rbl.port 1).trigs = [trg, trg] ∧ (rbl.useBuf 0x0A 1 Port.F_RB_SBE Port.F_RB_DBE).2 = true) ∧
    (w0.dev.linkUp 1 = false ∨ w0.dev.loopDepth 1 = 3 ∨ w0.dev.lbOn 1 = true) ∧
    (w1.dev.linkUp 1 = true ∧ w1.dev.loopDepth 1 ≠ 3 ∧ w1.dev.lbOn 1 = false) ∧
    ((w0.dev.port 1).out = []) ∧
    ((w8.dev.port 1).out ≠ [] ∧ w8.dev.linkUp 1 = true ∧ w8.dev.lbOn 1 = false ∧ (w8.dev.useBuf 10 1 Port.F_RB_SBE Port.F_RB_DBE).2 = false ∧ 7 ≤ ((w8.dev.port 1).out.headD default).retries) ∧
    ((w7.dev.port 1).out ≠ [] ∧ w7.dev.linkUp 1 = true ∧ w7.dev.lbOn 1 = false ∧ (w7.dev.useBuf 10 1 Port.F_RB_SBE Port.F_RB_DBE).2 = false ∧ ((w7.dev.port 1).out.headD default).retries < 7) ∧
    ((rbl.setPort 1 {rbl.port 1 with out := [default]} |>.port 1).out ≠ [] ∧ (rbl.setPort 1 {rbl.port 1 with out := [default]}).linkUp 1 = true ∧ (rbl.setPort 1 {rbl.port 1 with out := [default]} |>.useBuf 10 1 Port.F_RB_SBE Port.F_RB_DBE).2 = true) := by
  refine ⟨?_, ?_, ?_, ?_, ?_, ?_, ?_, ?_, ?_, ?_, ?_, ?_⟩ <;> decide +kernel

def ssc : Dev := tp.wr Port.LG_CFG_SSC_EN 1 1
def tpg : Dev := tpe.setPort 1 {tpe.port 1 with dGoodValid := true, pdLimit := 1000000000}
def good9 : List Nat := trs 9 t1 t2 t3 7
theorem wit_TimeTransfer :
    (w0.dev.takes 0xFE 10 1 = true) ∧
    (w0.dev.linkUp 1 = false ∨ w0.dev.is Port.PORT_CFG_TIME_EN 1 = false) ∧
    (w1.dev.linkUp 1 = true ∧ w1.dev.is Port.PORT_CFG_TIME_EN 1 = true ∧ w1.dev.loopDepth 1 = 0 ∧ w1.dev.lbOn 1 = false ∧ w1.dev.is Port.LG_CFG_SSC_EN 1 = false) ∧
    (ssc.linkUp 1 = true ∧ ssc.is Port.PORT_CFG_TIME_EN 1 = true ∧ ssc.loopDepth 1 = 0 ∧ ssc.lbOn 1 = false ∧ ssc.is Port.LG_CFG_SSC_EN 1 = true) ∧
    ((tp.wr Port.STAT_PD_STEP_PENDING 1 1).is Port.STAT_PD_STEP_PENDING 1 = true) ∧
    ((w11.dev.port 1).exch.isSome = true ∧ w11.dev.lbOn 1 = false) ∧
    ((w0.dev.port 1).exch = none ∨ w0.dev.lbOn 1 = true) ∧
    ((tpe.port 1).exch = some ⟨9, t1, 7⟩ ∧ le (trs 8 t1 t2 t3 7) 6 2 ≠ 9) ∧
    ((tpe.port 1).exch = some ⟨9, t1, 7⟩ ∧ le (trs 9 t2 t2 t3 7) 6 2 = 9 ∧ le (trs 9 t2 t2 t3 7) 12 12 ≠ t1) ∧
    (le good9 6 2 = 9 ∧ le good9 12 12 = t1 ∧ le good9 60 8 = 7 ∧ (0:Int) ≤ (tLin (le good9 44 12) : Int) - tLin (le good9 28 12) ∧ (tLin (le good9 44 12) : Int) - tLin (le good9 28 12) ≤ (50000 * nsL : Nat) ∧ (0:Int) ≤ ((tpe.nowL : Int) - tLin t1 - ((tLin (le good9 44 12) : Int) - tLin (le good9 28 12))) / 2 ∧ (tpe.nowL : Int) - tLin t1 ≤ (100000 * nsL : Nat) ∧ (tpe.port 1).dGoodValid = false) ∧
    ((tpg.port 1).dGoodValid = true ∧ (((tpg.nowL : Int) - tLin t1 - ((tLin (le good9 44 12) : Int) - tLin (le good9 28 12))) / 2 - tpg.rd Port.D_GOOD 1).natAbs ≤ (tpg.port 1).pdLimit) ∧
    (((tpg.setPort 1 {tpg.port 1 with pdLimit := 0}).port 1).pdLimit < (((tpg.nowL : Int) - tLin t1 - ((tLin (le good9 44 12) : Int) - tLin (le good9 28 12))) / 2 - tpg.rd Port.D_GOOD 1).natAbs) := by
  refine ⟨?_, ?_, ?_, ?_, ?_, ?_, ?_, ?_, ?_, ?_, ?_, ?_⟩ <;> decide +kernel

theorem wit_Management :
    (w1.dev.takes 0xFE 10 1 = true ∧ (w1.dev.is Port.MGMT_CMD_BUSY 1 = true ∨ 260 < 4 ∨ 256 < 260 ∨ 260 % 4 ≠ 0)) ∧
    (w1.dev.takes 0xFE 10 1 = true ∧ w1.dev.is Port.MGMT_CMD_BUSY 1 = false ∧ 4 ≤ 4 ∧ 4 ≤ 256 ∧ 4 % 4 = 0 ∧ 256 % 4 = 0) ∧
    ((w1.dev.port 1).mgmt = none) ∧
    ((w15.dev.port 1).mgmt.any (fun v1 => decide (v1.user = MgmtUser.software)) = true) ∧
    ((w16.dev.port 1).mgmt.any (fun v1 => decide (v1.user = MgmtUser.identity)) = true) ∧
    ((w20.dev.port 1).mgmt.any (fun v1 => decide (v1.user = MgmtUser.loopEnter)) = true) ∧
    ((w1.dev.port 1).idRead ≠ some 16) ∧
    ((w17.dev.port 1).idRead = some 16) := by
  refine ⟨?_, ?_, ?_, ?_, ?_, ?_, ?_, ?_⟩ <;> decide +kernel

theorem wit_FarEndLoop :
    (w18.dev.takes 0xFE 10 1 = true ∧ w18.dev.is Port.ID_STAT_ID_VALID 1 = true ∧ (w18.dev.port 1).lb2Ok = false) ∧
    (w1.dev.takes 0xFE 10 1 = true ∧ w1.dev.is Port.ID_STAT_ID_VALID 1 = false ∧ w1.dev.rd LbF.LB_CFG_DEPTH 0 1 = 0 ∧ (w1.dev.port 1).lb = Lb2.off ∧ w1.dev.linkUp 1 = true) ∧
    (w0.dev.takes 0xFE 10 1 = true ∧ w0.dev.is Port.ID_STAT_ID_VALID 1 = false ∧ w0.dev.rd LbF.LB_CFG_DEPTH 0 1 = 0 ∧ ((w0.dev.port 1).lb ≠ Lb2.off ∨ w0.dev.linkUp 1 = false)) ∧
    (w20.dev.takes 0xFE 10 1 = true ∧ (w20.dev.port 1).lb = Lb2.entering ∧ (w20.dev.port 1).loopAsked = true) ∧
    (w22.dev.takes 0xFE 10 1 = true ∧ (w22.dev.port 1).lb = Lb2.entering ∧ (w22.dev.port 1).loopAsked = false) ∧
    (w21.dev.takes 0xFE 10 1 = true ∧ (w21.dev.port 1).lb = Lb2.leaving) ∧
    (w19.dev.takes 0xFE 10 1 = true ∧ (w19.dev.port 1).lb = Lb2.active) ∧
    ((w15.dev.port 1).mgmt.isSome = true) ∧
    (((pk.setPort 1 {(default:PortH) with lb := .leaving}).port 1).mgmt = none ∧ (pk.setPort 1 {(default:PortH) with lb := .leaving}).mgmtRuns 1 = true ∧ (pk.setPort 1 {(default:PortH) with lb := .leaving}).windowOpen 1 = true) ∧
    (((pk.setPort 1 {(default:PortH) with lb := .entering}).port 1).idRead = none ∧ (pk.setPort 1 {(default:PortH) with lb := .entering}).mgmtRuns 1 = true ∧ (pk.setPort 1 {(default:PortH) with lb := .entering}).windowOpen 1 = true) := by
  refine ⟨?_, ?_, ?_, ?_, ?_, ?_, ?_, ?_, ?_, ?_⟩ <;> decide +kernel

def w24f : State := st ((qs 1).setQueue 1 {(qs 1).queue 1 with flushBusy := true})
theorem wit_Queues :
    (w31.dev.takes 0xFE (qPage (QueueId.line 1).num).1 (qPage (QueueId.line 1).num).2 = true ∧ qConsumer (QueueId.line 1).num = some (12, 1) ∧ w31.dev.enabled 12 1 = true) ∧
    (w24f.dev.takes 0xFE (qPage (QueueId.line 1).num).1 (qPage (QueueId.line 1).num).2 = true ∧ qConsumer (QueueId.line 1).num = some (12, 1) ∧ w24f.dev.enabled 12 1 = false ∧ (w24f.dev.queue (QueueId.line 1).num).flushBusy = true) ∧
    (w24.dev.takes 0xFE (qPage (QueueId.line 1).num).1 (qPage (QueueId.line 1).num).2 = true ∧ qConsumer (QueueId.line 1).num = some (12, 1) ∧ w24.dev.enabled 12 1 = false ∧ (w24.dev.queue (QueueId.line 1).num).flushBusy = false ∧ (w24.dev.queue (QueueId.line 1).num).markValid = true) ∧
    (w23.dev.takes 0xFE (qPage (QueueId.line 1).num).1 (qPage (QueueId.line 1).num).2 = true ∧ qConsumer (QueueId.line 1).num = some (12, 1) ∧ w23.dev.enabled 12 1 = false ∧ (w23.dev.queue (QueueId.line 1).num).flushBusy = false ∧ (w23.dev.queue (QueueId.line 1).num).markValid = false) ∧
    (w23.dev.takes 0xFE (qPage (QueueId.line 1).num).1 (qPage (QueueId.line 1).num).2 = true ∧ qConsumer (QueueId.line 1).num = some (12, 1) ∧ w23.dev.enabled 12 1 = false ∧ (w23.dev.queue (QueueId.line 1).num).flushBusy = false ∧ (QueueId.line 1).num < 64) ∧
    (w23.dev.takes 0xFE (qPage (QueueId.delivery 6).num).1 (qPage (QueueId.delivery 6).num).2 = true ∧ 64 ≤ (QueueId.delivery 6).num) ∧
    (w23.dev.takes 0xFE (qPage (QueueId.line 1).num).1 (qPage (QueueId.line 1).num).2 = true ∧ w23.dev.takes 0xFE 26 0 = true) ∧
    ((w28.dev.queue (QueueId.line 1).num).flushBusy = true) ∧
    ((w23.dev.queue (QueueId.line 1).num).flushBusy = false) := by
  refine ⟨?_, ?_, ?_, ?_, ?_, ?_, ?_, ?_, ?_⟩ <;> decide +kernel

end Flegar

/-! Pages, islands, tables, windows, partitions, claims, power. -/

namespace Pages

def gate32 : Dev := (up.setIslBit Isl.GATE 33 true).setIslBit Isl.PWR 33 false
def wed : Dev := up.setIslBit AO.WEDGE_MAP_ISL 33 true
def gated (n : Nat) : Dev := (up.setIslBit Isl.GATE n true).setIslBit Isl.PWR n false
def vt (t n b : Nat) : Dev := ((up.wr (Tbl.TBL_ADDR_TABLE.at 0x17) 0 t).wr (Tbl.TBL_ADDR_INDEX.at 0x17) 0 n).setTblImage 0x17 0 b
def wd : Dev := ((((up2.wr (Hdr.EN 0x19) 4 1).wr Rgn.REG_LOC_BASE 4 10).wr Rgn.REG_LOC_SIZE 4 1).wr Rgn.REG_CFG_KIND 4 0)
def wx (v : Nat) : Dev := wd.setTab 0x1D 16 0 0 v
def vv (fl : Nat) : Nat := (storeBase + 10 * 2097152) + 100 * 2 ^ 64 + fl * 2 ^ 96
def clm (c i : Nat) : Dev := up2.setClaim .tout 5 {(default:Claim) with held := true, hCls := c, hInst := i}
def straps (b : Bool) : Straps := ⟨0, false, false, 1, true, b, [], [], 5000⟩
def key (v t : Nat) : Dev := {up with boot := {up.boot with keyBy := some (0xFE, t)}, ticks := v}
def w0 : State := st up
def w1 : State := st up2
def w3 : State := st ((up2.wr Claims.ACT_VALID 0 1 2).wr Claims.ACT_LINKS 0 2 2)
def w4 : State := st gate32
def w5 : State := st wed
def w6 : State := st (up.wr (Hdr.SRST_BUSY 0x0C) 1 1)
def w9 : State := st (up.wr (Hdr.EN 0x0F) 1 1)
def w11 : State := st (up.wr (Hdr.FREEZE 0x1A) 0 1)
def w12 : State := st (((up.wr (Hdr.EN 0x19) 3 1).setClaim .hbm 3 {(default:Claim) with held := true, hCls := 0x0C}))
def w17 : State := st {up with stage := mput (mput (mput [] (reqKey 0xFE 0x10 3 0x68) 7) (reqKey 0xFE 0x14 0 0x60) 9) (reqKey 0xFE 0x14 0 0x64) 11}
def w21 : State := st (gated 33)
def w22 : State := st (up.wr (Hdr.EN 0x0C) 1 1)
def w23 : State := st (up.setIslBit Isl.RESET 33 true)
def w27 : State := st (up.wr (Tbl.TBL_CMD_BUSY.at 0x17) 0 1)
def w28 : State := st (vt 9 0 5)
def w34 : State := st (up.wr Claims.PT_CTRL_BUSY 0 1)
def w35 : State := st (((up.wr Claims.SHD_VALID 0 1 2).wr Claims.SHD_LINKS 0 2 2).wr Claims.SHD_VALID 0 1 3 |>.wr Claims.SHD_LINKS 0 2 3)
def w36 : State := st (clm 0x13 2)
def w37 : State := st (clm 0x15 0)
def w38 : State := st ((clm 0x13 2).wr (Hdr.EN 0x13) 2 1)
def w40 : State := st {up with boot := {up.boot with aoUp := false, refWait := true}}
def w41 : State := st (key 781260 10)
def w43 : State := st wd
def w44 : State := st (wx (vv 7))
def w44n : State := st (((wx (vv 7)).wr Claims.ACT_VALID 0 1 2).wr Claims.ACT_HBM_REGIONS 0 (2 ^ 64 - 1) 2)
theorem wit_GateTurnsAway :
    (w0.dev.reqLive 0xFE = true ∧ (!isVf 0xFE || w0.dev.vfReaches 0xFE 63 0 false) = true ∧ w0.dev.implemented 63 0 = false) ∧
    (up.reqLive (Req.fn 1 0).num = false) ∧
    (isVf (Req.fn 1 1).num = true ∧ up2.vfReaches (Req.fn 1 1).num 12 1 false = false) ∧
    (isVf (Req.fn 1 0).num = false ∧ w3.dev.reqLive (Req.fn 1 0).num = true ∧ w3.dev.implemented 12 1 = true ∧ w3.dev.writable (Req.fn 1 0).num 12 1 = false) ∧
    (isVf 0xFE = false ∧ w5.dev.reqLive 0xFE = true ∧ w5.dev.implemented 12 1 = true ∧ w5.dev.writable 0xFE 12 1 = true ∧ aoHeld 12 64 = false ∧ w5.dev.wedged (islandOf 12 1) = true) ∧
    (isVf 0xFE = false ∧ w4.dev.reqLive 0xFE = true ∧ w4.dev.implemented 12 1 = true ∧ w4.dev.writable 0xFE 12 1 = true ∧ aoHeld 12 64 = false ∧ w4.dev.wedged (islandOf 12 1) = false ∧ w4.dev.silent 12 1 = true) ∧
    (isVf 0xFE = false ∧ w6.dev.reqLive 0xFE = true ∧ w6.dev.implemented 12 1 = true ∧ w6.dev.writable 0xFE 12 1 = true ∧ aoHeld 12 64 = false ∧ w6.dev.wedged (islandOf 12 1) = false ∧ w6.dev.silent 12 1 = false ∧ w6.dev.resetting 12 1 = true) := by
  refine ⟨?_, ?_, ?_, ?_, ?_, ?_, ?_⟩ <;> decide +kernel

def hb : Dev := up.wr (Hdr.SRST_BUSY 0x0C) 1 1
theorem wit_HeaderAccess :
    (w0.dev.takes 0xFE 12 1 = true) ∧
    (up2.target (Req.fn 1 1).num (20 * 4096) = none) ∧
    (w0.dev.target 0xFE (bar0 12 1 0x14) = some (12, 1, 0x14, false) ∧ w0.dev.takes 0xFE 12 1 = true ∧ bar0 12 1 0x14 % 4 = 0 ∧ aoHeld 12 0x40 = false ∧ pageQueues (canon 12 1).1 (canon 12 1).2 = []) ∧
    (w0.dev.target 0xFE (bar0 12 1 0x20) = some (12, 1, 0x20, false) ∧ bar0 12 1 0x20 % 8 = 0 ∧ w0.dev.target 0xFE (bar0 12 1 0x24) = some (12, 1, 0x24, false)) ∧
    (w0.dev.takes 0xFE 0x18 1 = true ∧ w0.dev.target 0xFE (bar0 0x18 1 0x20) = some (0x18, 1, 0x20, false)) ∧
    (w0.dev.target 0xFE (bar0 10 1 0x040) = some (10, 1, 0x040, false) ∧ 0x40 ≤ 0x40 ∧ pageHits 10 1 0x040 ≠ [] ∧ aoHeld 10 0x40 = false) ∧
    (w0.dev.target 0xFE (bar0 12 1 0xFFC) = some (12, 1, 0xFFC, false) ∧ pageHits 12 1 0xFFC = []) ∧
    (w0.dev.target 0xFE (bar0 12 1 0x0C) = some (12, 1, 0x0C, false) ∧ w0.dev.resetting 12 1 = false) ∧
    (w0.dev.target 0xFE (bar0 4 1 0x100) = some (4, 1, 0x100, false) ∧ (claimOffset 1 0x100).any (fun x => decide (x.2 < x.1.count ∧ w0.dev.claimPart x.1 x.2 = some (w0.dev.reqPart 0xFE))) = true ∧ isVf 0xFE = false ∧ w0.dev.reqLive 0xFE = true ∧ w0.dev.boot.aoUp = true) ∧
    (w0.dev.boot.aoUp = true ∧ up.reqLive (Req.fn 1 0).num = false) ∧
    (w0.dev.reqLive 0xFE = true ∧ w0.dev.target 0xFE (bar0 12 1 0) = some (12, 1, 0, false) ∧ w0.dev.readable 0xFE 12 1 = true ∧ w0.dev.implemented 12 1 = true) ∧
    (w5.dev.target 0xFE (bar0 12 1 0x40) = some (12, 1, 0x40, false) ∧ w5.dev.wedged (islandOf 12 1) = true ∧ w5.dev.readable 0xFE 12 1 = true) ∧
    (w4.dev.target 0xFE (bar0 12 1 0x40) = some (12, 1, 0x40, false) ∧ w4.dev.silent 12 1 = true ∧ w4.dev.wedged (islandOf 12 1) = false ∧ w4.dev.readable 0xFE 12 1 = true) ∧
    (w0.dev.target 0xFE (bar0 12 1 0x40) = some (12, 1, 0x40, false) ∧ w0.dev.silent 12 1 = false ∧ w0.dev.wedged (islandOf 12 1) = false) ∧
    (State.reset.dev.boot.aoUp = false) := by
  refine ⟨?_, ?_, ?_, ?_, ?_, ?_, ?_, ?_, ?_, ?_, ?_, ?_, ?_, ?_, ?_⟩ <;> decide +kernel

def vro : Dev := (((up2.wr Claims.ACT_VALID 0 1 1).wr Claims.ACT_LINKS 0 2 1))
def hst : Dev := up.wr (Hdr.EN 0x18) 1 1
def frz (d : Dev) : Bool := d.is (Hdr.FREEZE 0x1A) 0
theorem wit_PageControl :
    (w6.dev.resetting 12 1 = true ∧ w6.dev.implemented 12 1 = true ∧ w6.dev.reqLive 0xFE = true ∧ w6.dev.writable 0xFE 12 1 = true ∧ isVf 0xFE = false ∧ w6.dev.wedged (islandOf 12 1) = false ∧ w6.dev.silent 12 1 = false) ∧
    (w0.dev.takes 0xFE 5 0 = true ∧ w0.dev.resetting 5 0 = false ∧ alwaysOn 5 = true) ∧
    (w0.dev.takes 0xFE 10 1 = true ∧ w0.dev.resetting 10 1 = false ∧ alwaysOn 10 = false ∧ w0.dev.enabled (canon 10 1).1 (canon 10 1).2 = false ∧ w0.dev.mayEnable (canon 10 1).1 (canon 10 1).2 = false) ∧
    (w0.dev.takes 0xFE 15 1 = true ∧ w0.dev.resetting 15 1 = false ∧ alwaysOn 15 = false ∧ w0.dev.enabled (canon 15 1).1 (canon 15 1).2 = false ∧ w0.dev.mayEnable (canon 15 1).1 (canon 15 1).2 = true ∧ (canon 15 1).1 = 15) ∧
    (w9.dev.takes 0xFE 15 1 = true ∧ w9.dev.resetting 15 1 = false ∧ alwaysOn 15 = false ∧ w9.dev.enabled (canon 15 1).1 (canon 15 1).2 = true) ∧
    (w0.dev.takes 0xFE 0x18 1 = true ∧ w0.dev.resetting 0x18 1 = false ∧ w0.dev.enabled 0x18 1 = false ∧ w0.dev.mayEnable 0x18 1 = true) ∧
    (w0.dev.takes 0xFE 0x0D 1 = true ∧ w0.dev.resetting 0x0D 1 = false ∧ w0.dev.enabled 0x0D 1 = false) ∧
    (w12.dev.takes 0xFE 25 3 = true ∧ w12.dev.resetting 25 3 = false ∧ w12.dev.enabled 25 3 = true ∧ (w12.dev.claim Res.hbm 3).held = true) ∧
    (w0.dev.takes 0xFE 15 1 = true ∧ w0.dev.resetting 15 1 = false ∧ alwaysOn 15 = false ∧ w0.dev.islBit Isl.RESET (islandOf 15 1) = false) ∧
    (w0.dev.takes 0xFE 0x13 1 = true ∧ w0.dev.resetting 0x13 1 = false ∧ resetKey 0x13 1 (Cs.OUT_SLOT_OUT.key 1 0) = true ∧ Cs.OUT_SLOT_OUT.key 1 0 ≠ (Hdr.SRST_BUSY 0x13).key 1 0) ∧
    (w23.dev.takes 0xFE 5 0 = true ∧ w23.dev.islBit Isl.RESET (islandOf 12 1) = true) ∧
    (w0.dev.takes 0xFE 5 0 = true ∧ w0.dev.resetting 5 0 = false ∧ (hasFreeze (canon 5 0).1 (canon 5 0).2 = false ∨ alwaysOn (canon 5 0).1 = true)) ∧
    (w0.dev.takes 0xFE 15 1 = true ∧ w0.dev.resetting 15 1 = false ∧ hasFreeze (canon 15 1).1 (canon 15 1).2 = true ∧ alwaysOn (canon 15 1).1 = false ∧ w0.dev.is (Hdr.FREEZE (canon 15 1).1) (canon 15 1).2 = false) ∧
    (w11.dev.takes 0xFE 26 0 = true ∧ w11.dev.resetting 26 0 = false ∧ hasFreeze (canon 26 0).1 (canon 26 0).2 = true ∧ alwaysOn (canon 26 0).1 = false ∧ w11.dev.is (Hdr.FREEZE (canon 26 0).1) (canon 26 0).2 = true) := by
  refine ⟨?_, ?_, ?_, ?_, ?_, ?_, ?_, ?_, ?_, ?_, ?_, ?_, ?_, ?_⟩ <;> decide +kernel

theorem wit_WideWrites :
    (w0.dev.takes 0xFE 16 3 = true ∧ bar0 16 3 0x68 % 4 = 0 ∧ w0.dev.target 0xFE (bar0 16 3 0x68) = some (16, 3, 0x68, false)) ∧
    (w17.dev.takes 0xFE 16 3 = true ∧ w17.dev.target 0xFE (bar0 16 3 0x6C) = some (16, 3, 0x6C, false) ∧ (mfind w17.dev.stage (reqKey 0xFE 16 3 104)).isSome = true) ∧
    (w17.dev.takes 0xFE 20 0 = true ∧ w17.dev.target 0xFE (bar0 20 0 0x68) = some (20, 0, 0x68, false) ∧ badNS ((9 + 11 * 2 ^ 32 + 2 * 2 ^ 64) % 2 ^ 128) = false) ∧
    (w17.dev.takes 0xFE 20 0 = true ∧ badNS ((2 ^ 31 * 2 ^ 16 + 2 * 2 ^ 64) % 2 ^ 128) = true) := by
  refine ⟨?_, ?_, ?_, ?_⟩ <;> decide +kernel

theorem wit_WedgedIslands :
    (w0.dev.target 0xFE (bar0 12 3 0x40) = some (12, 3, 0x40, false) ∧ aoHeld 12 0x40 = false ∧ w0.dev.implemented 12 3 = true ∧ w0.dev.reqLive 0xFE = true ∧ w0.dev.silent 12 3 = false ∧ w0.dev.wedged (islandOf 12 3) = false ∧ w0.dev.readable 0xFE 12 3 = true ∧ w0.dev.writable 0xFE 12 3 = true) ∧
    (w0.dev.target 0xFE (bar0 12 1 0) = some (12, 1, 0, false) ∧ aoHeld 12 0 = true) ∧
    (w5.dev.target 0xFE (bar0 12 1 0x40) = some (12, 1, 0x40, false) ∧ w5.dev.wedged (islandOf 12 1) = true) ∧
    (w0.dev.powered (islandOf 12 3) = true ∧ 0 < islandOf 12 3 ∧ islandOf 12 3 < 48 ∧ islandKnown (islandOf 12 3) = true ∧ w0.dev.wedged (islandOf 12 3) = false) ∧
    (w21.dev.powered 33 = false) ∧
    (w0.dev.takes 0xFE 0 0 = true) := by
  refine ⟨?_, ?_, ?_, ?_, ?_, ?_⟩ <;> decide +kernel

def gm : Dev := {gated 33 with bist := {(gated 33).bist with heldMem := [33]}}
theorem wit_Islands :
    (w0.dev.takes 0xFE 5 0 = true ∧ (islandGateable 0 = false ∨ w0.dev.islBit Isl.GATE 0 = false)) ∧
    (w0.dev.takes 0xFE 5 0 = true ∧ (islandKnown 0 = false ∨ (0:Nat) = 0)) ∧
    (w0.dev.takes 0xFE 5 0 = true ∧ islandKnown 33 = true ∧ w0.dev.islBit Isl.RESET 33 = false ∧ 33 < 128) ∧
    (w0.dev.takes 0xFE 5 0 = true ∧ islandKnown 135 = true ∧ 128 ≤ 135 ∧ w0.dev.islBit Isl.RESET 135 = false ∧ w0.dev.enabled 8 (135 - 128) = false) ∧
    ((up.wr (Hdr.EN 0x08) 7 1).takes 0xFE 5 0 = true ∧ (up.wr (Hdr.EN 0x08) 7 1).islBit Isl.RESET 135 = false ∧ (up.wr (Hdr.EN 0x08) 7 1).enabled 8 (135 - 128) = true) ∧
    (w22.dev.takes 0xFE 5 0 = true ∧ islandGateable 33 = true ∧ w22.dev.islBit Isl.GATE 33 = false ∧ ((gatePages 33).any fun p => w22.dev.enabled (canon p.1 p.2).1 (canon p.1 p.2).2 || w22.dev.claimCount p.1 p.2 != 0) = true) ∧
    (w0.dev.takes 0xFE 5 0 = true ∧ islandGateable 33 = true ∧ w0.dev.islBit Isl.GATE 33 = false ∧ ((gatePages 33).any fun p => w0.dev.enabled (canon p.1 p.2).1 (canon p.1 p.2).2 || w0.dev.claimCount p.1 p.2 != 0) = false) ∧
    (w21.dev.takes 0xFE 5 0 = true ∧ islandGateable 33 = true ∧ w21.dev.islBit Isl.GATE 33 = true ∧ ¬33 ∈ w21.dev.bist.heldMem ∧ ¬33 ∈ w21.dev.bist.heldLogic) ∧
    (gm.takes 0xFE 5 0 = true ∧ gm.islBit Isl.GATE 33 = true ∧ 33 ∈ gm.bist.heldMem) ∧
    (w0.dev.takes 0xFE 5 0 = true ∧ islandGateable 33 = true ∧ w0.dev.boot.aoUp = true ∧ w0.dev.islBit Isl.GATE 33 = false ∧ w0.dev.wedged 33 = false) ∧
    (w23.dev.takes 0xFE 5 0 = true ∧ islandGateable 33 = true ∧ w23.dev.islBit Isl.RESET 33 = true ∧ w23.dev.islBit Isl.GATE 33 = false) := by
  refine ⟨?_, ?_, ?_, ?_, ?_, ?_, ?_, ?_, ?_, ?_, ?_⟩ <;> decide +kernel

def w28w : State := st (vt 1 0 5)
theorem wit_IndirectTables :
    (w0.dev.is (Tbl.TBL_CMD_BUSY.at 23) 0 = false) ∧
    (w0.dev.takes 0xFE 15 1 = true ∧ hasIndirect 15 1 = false) ∧
    (w0.dev.takes 0xFE 23 0 = true ∧ hasIndirect 23 0 = true ∧ w0.dev.is (Tbl.TBL_CMD_BUSY.at 23) 0 = false ∧ (w0.dev.tabInfo 23 0 (w0.dev.rd (Tbl.TBL_ADDR_TABLE.at 23) 0)).any (fun v1 => decide (w0.dev.rd (Tbl.TBL_ADDR_INDEX.at 23) 0 < v1.2 ∧ w0.dev.tabErr 23 (tabInst 23 0) (w0.dev.rd (Tbl.TBL_ADDR_TABLE.at 23) 0) (w0.dev.rd (Tbl.TBL_ADDR_INDEX.at 23) 0) = 0)) = true) ∧
    (w27.dev.takes 0xFE 23 0 = true ∧ hasIndirect 23 0 = true ∧ w27.dev.is (Tbl.TBL_CMD_BUSY.at 23) 0 = true) ∧
    (w28.dev.takes 0xFE 23 0 = true ∧ hasIndirect 23 0 = true ∧ w28.dev.is (Tbl.TBL_CMD_BUSY.at 23) 0 = false ∧ (w28.dev.tabInfo 23 0 (w28.dev.rd (Tbl.TBL_ADDR_TABLE.at 23) 0)).all (fun e => decide (e.2 ≤ w28.dev.rd (Tbl.TBL_ADDR_INDEX.at 23) 0)) = true) ∧
    (voxOk 0 0 = true ∧ voxOk 0 (2 ^ 72) = false) := by
  refine ⟨?_, ?_, ?_, ?_, ?_, ?_⟩ <;> decide +kernel

theorem wit_PartitionCommit :
    (w34.dev.takes 0xFE 4 0 = true ∧ w34.dev.is Claims.PT_CTRL_BUSY 0 = true) ∧
    (w35.dev.takes 0xFE 4 0 = true ∧ w35.dev.is Claims.PT_CTRL_BUSY 0 = false ∧ w35.dev.commitRefuse ≠ 0) ∧
    (w0.dev.takes 0xFE 4 0 = true ∧ w0.dev.is Claims.PT_CTRL_BUSY 0 = false ∧ w0.dev.commitRefuse = 0) := by
  refine ⟨?_, ?_, ?_⟩ <;> decide +kernel

theorem wit_ClaimRegisters :
    ((isVf (Req.fn 1 1).num = true ∨ w1.dev.reqLive (Req.fn 1 1).num = false) ∧ Res.tout.count ≤ Res.tout.count) ∧
    (isVf 0xFE = false ∧ w1.dev.reqLive 0xFE = true ∧ w1.dev.boot.aoUp = true ∧ 5 < Res.tout.count ∧ Res.tout ≠ Res.range ∧ w1.dev.claimPart Res.tout 5 = some 0 ∧ w1.dev.reqPart 0xFE = 0 ∧ (resEligible Res.tout 5 16 2 && w1.dev.kindClaims Res.tout 5 16 && w1.dev.implemented 16 2 && decide (w1.dev.pagePart 16 2 = 0)) = false) ∧
    (isVf 0xFE = false ∧ w1.dev.reqLive 0xFE = true ∧ 5 < Res.tout.count ∧ w1.dev.claimPart Res.tout 5 = some 0 ∧ w1.dev.reqPart 0xFE = 0 ∧ (resEligible Res.tout 5 19 2 && w1.dev.kindClaims Res.tout 5 19 && w1.dev.implemented 19 2 && decide (w1.dev.pagePart 19 2 = 0)) = true ∧ (w1.dev.claim Res.tout 5).held = false) ∧
    (w37.dev.reqLive 0xFE = true ∧ w37.dev.claimPart Res.tout 5 = some 0 ∧ w37.dev.reqPart 0xFE = 0 ∧ (resEligible Res.tout 5 19 2 && w37.dev.kindClaims Res.tout 5 19 && w37.dev.implemented 19 2 && decide (w37.dev.pagePart 19 2 = 0)) = true ∧ (w37.dev.claim Res.tout 5).held = true ∧ ¬((w37.dev.claim Res.tout 5).hCls = 19 ∧ (w37.dev.claim Res.tout 5).hInst = 2)) ∧
    (w36.dev.reqLive 0xFE = true ∧ w36.dev.claimPart Res.tout 5 = some 0 ∧ w36.dev.reqPart 0xFE = 0 ∧ (w36.dev.claim Res.tout 5).held = true ∧ (w36.dev.claim Res.tout 5).hCls = 19 ∧ (w36.dev.claim Res.tout 5).hInst = 2 ∧ w36.dev.enabled 19 2 = false) ∧
    (w38.dev.reqLive 0xFE = true ∧ w38.dev.claimPart Res.tout 5 = some 0 ∧ w38.dev.reqPart 0xFE = 0 ∧ (w38.dev.claim Res.tout 5).held = true ∧ (w38.dev.claim Res.tout 5).hCls = 19 ∧ (w38.dev.claim Res.tout 5).hInst = 2 ∧ w38.dev.enabled 19 2 = true) ∧
    (isVf (Req.fn 1 0).num = false ∧ w3.dev.reqLive (Req.fn 1 0).num = true ∧ w3.dev.boot.aoUp = true ∧ w3.dev.claimPart Res.tout 5 = some 0 ∧ w3.dev.reqPart (Req.fn 1 0).num ≠ 0) ∧
    (w1.dev.rangeInside 3 = false ∧ 3 < Res.range.count ∧ (w1.dev.claim Res.range 3).held = false) := by
  refine ⟨?_, ?_, ?_, ?_, ?_, ?_, ?_, ?_⟩ <;> decide +kernel

theorem wit_PowerAndReset :
    (w0.dev.boot.aoUp = true) ∧
    (State.reset.dev.boot.aoUp = false ∧ (straps true).refclk = true) ∧
    (State.reset.dev.boot.aoUp = false ∧ (straps false).refclk = false) ∧
    (State.reset.dev.boot.refWait = false) ∧
    (w40.dev.boot.refWait = true) ∧
    (1000 ≤ 1000 ∧ State.reset.dev.boot.board = none ∧ State.reset.dev.nvOp = none) ∧
    (1000 ≤ 1000 ∧ ({up with boot := {up.boot with board := some (straps true)}} : Dev).boot.board = some (straps true) ∧ (straps true).refclk = true) ∧
    (w41.dev.takes 0xFE 0 0 = true ∧ w41.dev.boot.keyBy.any (fun v1 => decide (v1.1 = 0xFE ∧ w41.dev.ticks ≤ v1.2 + 781250)) = true) ∧
    (w0.dev.takes 0xFE 0 0 = true ∧ w0.dev.boot.keyBy = none ∧ 3 ≠ 3235803488#32) := by
  refine ⟨?_, ?_, ?_, ?_, ?_, ?_, ?_, ?_, ?_⟩ <;> decide +kernel

theorem wit_WindowAccess :
    (Memory.wf w43.mem ∧ w43.dev.boot.aoUp = true ∧ w43.dev.reqLive (16 * 1 + 0) = true ∧ w43.dev.inBar2 (16 * 1 + 0) 5 [1, 0, 3].length = true ∧ (∀ b ∈ [1, 0, 3], b < 256) ∧ w43.dev.tabErr 29 (16 * 1 + 0) 0 (5 / 2 ^ 28) = 0 ∧ (w43.dev.tab 29 (16 * 1 + 0) 0 (5 / 2 ^ 28)).testBit wttValid = false) ∧
    (Memory.wf w44.mem ∧ w44.dev.boot.aoUp = true ∧ w44.dev.reqLive (16 * 1 + 0) = true ∧ w44.dev.inBar2 (16 * 1 + 0) 5 [1, 0, 3].length = true ∧ (∀ b ∈ [1, 0, 3], b < 256) ∧ w44.dev.tabErr 29 (16 * 1 + 0) 0 (5 / 2 ^ 28) = 0 ∧ (w44.dev.tab 29 (16 * 1 + 0) 0 (5 / 2 ^ 28)).testBit wttValid = true ∧ 5 % 2 ^ 28 < wttLimit (w44.dev.tab 29 (16 * 1 + 0) 0 (5 / 2 ^ 28)) * 4096 ∧ w44.dev.winObj (16 * 1 + 0) (wttTarget (w44.dev.tab 29 (16 * 1 + 0) 0 (5 / 2 ^ 28)) + 5 % 2 ^ 28) [1, 0, 3].length = some (WinObj.region 4) ∧ w44.dev.objAnswers (WinObj.region 4) = true ∧ storeBase ≤ wttTarget (w44.dev.tab 29 (16 * 1 + 0) 0 (5 / 2 ^ 28)) + 5 % 2 ^ 28 ∧ (w44.dev.tab 29 (16 * 1 + 0) 0 (5 / 2 ^ 28)).testBit 98 = true ∧ w44.dev.rgnKind 4 = 0 ∧ (∀ (b : Nat), b < 32 → w44.dev.armed 24 ((wttTarget (w44.dev.tab 29 (16 * 1 + 0) 0 (5 / 2 ^ 28)) + 5 % 2 ^ 28 - storeBase) / 25769803776) b = false)) ∧
    (Memory.wf w44.mem ∧ w44.dev.boot.aoUp = true ∧ w44.dev.reqLive (16 * 1 + 0) = true ∧ w44.dev.inBar2 (16 * 1 + 0) 5 [1, 0, 3].length = true ∧ (∀ b ∈ [1, 0, 3], b < 256) ∧ w44.dev.tabErr 29 (16 * 1 + 0) 0 (5 / 2 ^ 28) = 0 ∧ (w44.dev.tab 29 (16 * 1 + 0) 0 (5 / 2 ^ 28)).testBit wttValid = true ∧ 5 % 2 ^ 28 < wttLimit (w44.dev.tab 29 (16 * 1 + 0) 0 (5 / 2 ^ 28)) * 4096 ∧ w44.dev.winObj (16 * 1 + 0) (wttTarget (w44.dev.tab 29 (16 * 1 + 0) 0 (5 / 2 ^ 28)) + 5 % 2 ^ 28) [1, 0, 3].length = some (WinObj.region 4) ∧ w44.dev.objAnswers (WinObj.region 4) = true ∧ storeBase ≤ wttTarget (w44.dev.tab 29 (16 * 1 + 0) 0 (5 / 2 ^ 28)) + 5 % 2 ^ 28 ∧ (w44.dev.tab 29 (16 * 1 + 0) 0 (5 / 2 ^ 28)).testBit 97 = true ∧ w44.dev.rgnKind 4 ≠ 3 ∧ w44.mem.poisoned (wttTarget (w44.dev.tab 29 (16 * 1 + 0) 0 (5 / 2 ^ 28)) + 5 % 2 ^ 28 - storeBase) [1, 0, 3].length = []) ∧
    (up.boot.aoUp = true ∧ up.reqLive (16 * 1 + 0) = false) ∧
    ((w44n.dev.winObj 16 (wttTarget (w44n.dev.tab 29 16 0 0) + 5) 3).isNone = true ∧ (w44n.dev.tab 29 16 0 0).testBit 97 = true ∧ (w44n.dev.tab 29 16 0 0).testBit 98 = true) := by
  refine ⟨?_, ?_, ?_, ?_, ?_⟩ <;> decide +kernel

end Pages

/-! Encoder channels, generators, streams, inputs. -/

namespace Positions

def q0 : Dev := ((up.wr (Hdr.EN 0x10) 3 1).wr Pos.ENC_CFG_MODE 3 1)
def q1 : Dev := (q0.setChan 3 {(default:PosH) with fA := 1, fB := 0, cnt := 100, qwin := 3})
def lim : Dev := (((q1.wr Pos.ENC_CFG_LIMIT_EN 3 1).wr Pos.LIMIT_HI 3 (200*256)).wr Pos.LIMIT_LO 3 (50*256)).setChan 3 {(q1.chan 3) with cnt := 100}
def ser (m : Nat) : Dev := (q0.wr Pos.ENC_CFG_MODE 3 m)
def g0 : Dev := (((q1.wr (Hdr.EN 0x12) 35 1).wr Gen.STAT_OPEN 35 1).wr Gen.GEN_CFG_CH 35 3)
def cs (st : Nat) : Dev := ((q1.wr (Hdr.EN 0x13) 3 1).wr Cs.STAT_STATE 3 st).wr Cs.CS_CFG_CH 3 3
def csl (st : Nat) (x : CsH) : Dev := (cs st).setStream 3 x
def ent : Nat := (1 + 8*1) + 2^24 * 200 * 256
def gt : Nat := 4000 * 65536
def mo (d : Dev) : Dev := {d with clk := ⟨50,0,0⟩}
def cdl : CsH := {(default:CsH) with loadDue := true, dueAt := 99999, idx := 7}
def w0 : State := st q1
def w1 : State := st ((q1.wr Pos.ENC_CFG_LIMIT_EN 3 1).wr Pos.LIMIT_HI 3 (100*256))
def w2 : State := st (q1.setChan 3 {(q1.chan 3) with qwin := 500})
def w5 : State := st ((mo q1).setChan 3 {(q1.chan 3) with edges := [5], m := 2})
def w6 : State := st (q1.wr Pos.ENC_CFG_Z_MODE 3 1)
def w9 : State := st up
def w10 : State := st (cs 1)
def w16 : State := st ((cs 2).wr Cs.STAT_LATCHED 3 1)
def w17 : State := st ((cs 4).wr Claims.CLR_LEN 2 8 3)
def w18 : State := st ((csl 2 cdl).wr Cs.CS_CFG_MODE 3 1)
def w19 : State := st ((csl 2 cdl).setTab 0x13 0 0 7 ent)
def w20 : State := st ((csl 2 cdl).setTab 0x13 0 0 7 9)
def w23 : State := st (ser 2)
def w24 : State := st ((ser 3).wr Pos.SER_CFG_POS_BITS 3 20)
def w25 : State := st ((ser 2).wr Pos.STAT_WIRE_A 3 1)
def w28 : State := st ((up.wr Pos.ID_CFG_ID_POLL 3 0))
def w30 : State := st (g0.setGen 3 {(default:GenH) with origin := some 0, next := 25600, k := 5})
def w32 : State := st (g0.wr Gen.STAT_OPEN 35 0)
def w33 : State := st ((g0.setGen 3 {(default:GenH) with origin := some 0, next := 25600, k := 5, lastFire := some 0}).wr Gen.MIN_PERIOD 35 9999)
def w34 : State := st (up.setDin 5 {(default:DinH) with run := some 3})
def w35 : State := st ((up.setDin 5 {(default:DinH) with run := some 3}).wr Din.STAT_RAW 5 1)
def w36 : State := st (((up.wr (Hdr.EN 0x11) 5 1).setDin 5 {(default:DinH) with run := some 3}).wr Din.STAT_RAW 5 1)
def w38 : State := st (up.setQueue 21 {(default:QueueH) with wr := 1, items := [⟨0,1,[1,2,3,4,5],[],[],true⟩]})
def w40 : State := st ((up.wr Din.DIN_CFG_DIFF 5 1).wr (Hdr.EN 0x11) 5 1)
def w41 : State := st (q1.wr Pos.STAT_WIRE_A 3 1)
def w44 : State := st lim
def w46 : State := st (q1.wr Pos.REBASE_OFFSET 3 513)
def w47 : State := st (up.setOutp 5 {(default:OutH) with pulses := [(0, 0)]})
def w48 : State := st (up.setOutp 5 {(default:OutH) with pulses := [(0, 100), (200, 300)]})
def w49 : State := st (up.wr (Hdr.FLT 0x14) 0 0xFFFFFFFF)
def w50 : State := st (((up.wr Out.OUT_CFG_FORCE 5 1).wr Out.STAT_SAFE_ACTIVE 5 0).wr (Hdr.EN 0x12) 5 1)
def gq (d : Dev) : Dev := let e := (d.keepWord 3).setChan 3 {((d.keepWord 3).chan 3) with rawA := 0, rawB := 1}
  e
theorem wit_QuadratureEdges :
    (State.reset.dev.powered 2 = false) ∧
    (w0.dev.powered 2 = true ∧ w0.dev.routedE 3 = false ∧ w0.dev.padE 3 0 = 0) ∧
    (w0.dev.powered 2 = true ∧ w0.dev.enabled 16 3 = true ∧ w0.dev.quadMode 3 = true) ∧
    (w9.dev.powered 2 = true ∧ w9.dev.enabled 16 3 = false) ∧
    (w0.dev.hasMoved 3 = false) ∧
    (w5.dev.powered 2 = true ∧ w5.dev.enabled 16 3 = true ∧ w5.dev.is Pos.STAT_STOPPED 3 = false ∧ (w5.dev.chan 3).stuck = false ∧ w5.dev.hasMoved 3 = true ∧ (w5.dev.chan 3).tEdge + w5.dev.rd Pos.STOP_TIME 3 * 1000 * nsL ≤ w5.dev.nowL) ∧
    (w0.dev.is Pos.STAT_WIRE_A 3 = false ∧ w0.dev.is Pos.STAT_WIRE_B 3 = false ∧ 1 % 2 = (w0.dev.chan 3).fA ∧ 0 % 2 = (w0.dev.chan 3).fB) ∧
    (up.enabled 16 3 = false ∧ 1 % 2 ≠ (up.chan 3).fA) ∧
    (w0.dev.enabled 16 3 = true ∧ w0.dev.quadMode 3 = true ∧ (w0.dev.chan 3).stuck = false ∧ w0.dev.is Pos.STAT_WIRE_A 3 = false ∧ w0.dev.is Pos.STAT_WIRE_B 3 = false ∧ 0 ≠ (w0.dev.chan 3).fA ∧ 1 ≠ (w0.dev.chan 3).fB ∧ (w0.dev.chan 3).qwin + 1 ≤ w0.dev.rd Pos.ENC_CFG_QERR_LIMIT 3) ∧
    (w2.dev.enabled 16 3 = true ∧ w2.dev.quadMode 3 = true ∧ (w2.dev.chan 3).stuck = false ∧ w2.dev.is Pos.STAT_WIRE_A 3 = false ∧ w2.dev.is Pos.STAT_WIRE_B 3 = false ∧ 0 ≠ (w2.dev.chan 3).fA ∧ 1 ≠ (w2.dev.chan 3).fB ∧ w2.dev.rd Pos.ENC_CFG_QERR_LIMIT 3 < (w2.dev.chan 3).qwin + 1) ∧
    ((0 ≠ (w0.dev.chan 3).fA ∧ 0 = (w0.dev.chan 3).fB) ∧ (w0.dev.chan 3).lastFilt = none) ∧
    (((q1.setChan 3 {(q1.chan 3) with lastFilt := some (gt * 9)}).chan 3).lastFilt = some (gt * 9) ∧ (q1.setChan 3 {(q1.chan 3) with lastFilt := some (gt * 9)}).momentL 0 - edgeDelay < gt * 9 + 20 * nsL) ∧
    ((w0.dev.limits 3).1 ≤ (w0.dev.chan 3).cnt + 1 ∧ (w0.dev.chan 3).cnt + 1 ≤ (w0.dev.limits 3).2) ∧
    ((w1.dev.limits 3).2 < (w1.dev.chan 3).cnt + 1) ∧
    (w0.dev.rd Pos.ENC_CFG_Z_MODE 3 = 0) ∧
    ((w6.dev.chan 3).fZ = 0 ∧ 1 % 2 = 1 ∧ w6.dev.enabled 16 3 = true ∧ w6.dev.quadMode 3 = true ∧ (w6.dev.chan 3).stuck = false ∧ w6.dev.is Pos.STAT_WIRE_Z 3 = false ∧ (w6.dev.is Pos.ENC_CFG_Z_QUAL 3 = true → (w6.dev.chan 3).fA = 1 ∧ (w6.dev.chan 3).fB = 1) ∧ w6.dev.rd Pos.ENC_CFG_Z_MODE 3 = 1) ∧
    (((q1.wr Pos.ENC_CFG_Z_MODE 3 2).wr Pos.STAT_Z_ARMED 3 1).rd Pos.ENC_CFG_Z_MODE 3 = 2 ∧ ((q1.wr Pos.ENC_CFG_Z_MODE 3 2).wr Pos.STAT_Z_ARMED 3 1).is Pos.STAT_Z_ARMED 3 = true ∧ (q1.chan 3).fZ = 0) := by
  refine ⟨?_, ?_, ?_, ?_, ?_, ?_, ?_, ?_, ?_, ?_, ?_, ?_, ?_, ?_, ?_, ?_, ?_⟩ <;> decide +kernel

def rdy (d : Dev) : Bool := let e := d.holdCs 3
  e.csState 3 == 2 && (e.stream 3).loadDue && (e.stream 3).dueAt != e.sample && e.csLive 3
def plc (d : Dev) : Int := let e := d.holdCs 3
  (if (e.stream 3).baseDue then e.rdI Cs.BASE 3 else (e.stream 3).base) + (if (e.stream 3).chain then e.rdI Cs.LOOP_STEP 3 else 0) + sInt 40 (bits (e.listEntry 7) 24 40)
def hitC (d : Dev) : Bool := let e := d.holdCs 3
  e.csState 3 == 2 && e.is Cs.STAT_LATCHED 3 && e.csLive 3 && reached (d.rd Cs.CS_CFG_DIR 3) (e.csWord 3) (e.stream 3).pos
theorem wit_CompareStreams :
    (w9.dev.powered 2 = true ∧ State.reset.dev.powered 2 = false) ∧
    (w9.dev.takes 0xFE 19 3 = true ∧ (w9.dev.enabled 19 3 = false ∨ w9.dev.csState 3 = 0 ∨ w9.dev.csState 3 = 6)) ∧
    (w10.dev.takes 0xFE 19 3 = true ∧ w10.dev.enabled 19 3 = true ∧ w10.dev.csState 3 ≠ 0 ∧ w10.dev.csState 3 ≠ 6) ∧
    ((cs 4).enabled 19 3 = true ∧ (cs 4).csState 3 = 4) ∧
    (w9.dev.takes 0xFE 19 3 = true ∧ (w9.dev.csState 3 = 0 ∨ w9.dev.csState 3 = 5 ∨ w9.dev.csState 3 = 6)) ∧
    (w10.dev.takes 0xFE 19 3 = true ∧ w10.dev.csState 3 ≠ 0 ∧ w10.dev.csState 3 ≠ 5 ∧ w10.dev.csState 3 ≠ 6) ∧
    (w16.dev.takes 0xFE 19 3 = true ∧ w16.dev.is Cs.STAT_LATCHED 3 = true) ∧
    (w9.dev.takes 0xFE 19 3 = true ∧ w9.dev.is Cs.STAT_LATCHED 3 = false) ∧
    (w9.dev.takes 0xFE 19 3 = true ∧ w9.dev.rd Claims.CLR_LEN 2 3 < pdiff (5#32).toNat (w9.dev.rd Cs.LOAD_PT 3)) ∧
    (w17.dev.takes 0xFE 19 3 = true ∧ pdiff (8#32).toNat (w17.dev.rd Cs.LOAD_PT 3) ≤ w17.dev.rd Claims.CLR_LEN 2 3 ∧ (8#32).toNat ≠ w17.dev.rd Cs.LOAD_PT 3 ∧ w17.dev.csState 3 = 4) ∧
    (((csl 3 {(default:CsH) with heldFrom := 4}).wr Claims.CLR_LEN 2 8 3).csState 3 = 3 ∧ (((csl 3 {(default:CsH) with heldFrom := 4}).wr Claims.CLR_LEN 2 8 3).stream 3).heldFrom = 4) ∧
    (w17.dev.takes 0xFE 19 3 = true ∧ (0#32).toNat = w17.dev.rd Cs.LOAD_PT 3) ∧
    (w9.dev.enabled 19 3 = false) ∧
    (rdy w9.dev = false ∧ hitC w9.dev = false) ∧
    (rdy w18.dev = true ∧ (w18.dev.holdCs 3).is Cs.CS_CFG_MODE 3 = true ∧ ((w18.dev.holdCs 3).stream 3).reload = false ∧ (w18.dev.holdCs 3).rd Cs.LOAD_PT 3 = (w18.dev.holdCs 3).rd Cs.AVAIL_PT 3) ∧
    (rdy w19.dev = true ∧ (w19.dev.holdCs 3).is Cs.CS_CFG_MODE 3 = false ∧ (w19.dev.holdCs 3).tabErr 19 0 0 7 = 0 ∧ ((w19.dev.holdCs 3).stream 3).reload = false ∧ ((w19.dev.holdCs 3).stream 3).idx = 7) ∧
    (rdy (w19.dev.setTabErr 19 0 0 7 2) = true ∧ ((w19.dev.setTabErr 19 0 0 7 2).holdCs 3).tabErr 19 0 0 7 = 2) ∧
    (bits ((w19.dev.holdCs 3).listEntry 7) 3 2 ≠ 3 ∧ bits ((w19.dev.holdCs 3).listEntry 7) 0 3 < 4 ∧ plc w19.dev ≠ (w19.dev.holdCs 3).csWord 3 ∧ behind (w19.dev.rd Cs.CS_CFG_DIR 3) ((w19.dev.holdCs 3).csWord 3) (plc w19.dev) = false) ∧
    (bits ((w20.dev.holdCs 3).listEntry 7) 3 2 ≠ 3 ∧ bits ((w20.dev.holdCs 3).listEntry 7) 0 3 < 4 ∧ plc w20.dev ≠ (w20.dev.holdCs 3).csWord 3 ∧ behind (w20.dev.rd Cs.CS_CFG_DIR 3) ((w20.dev.holdCs 3).csWord 3) (plc w20.dev) = true) ∧
    (4 ≤ bits ((w20.dev.setTab 0x13 0 0 7 6).listEntry 7) 0 3) ∧
    (hitC w16.dev = true ∧ bits ((w16.dev.holdCs 3).rd Cs.NEXT_ENTRY 3) 16 8 = 0 ∧ bits ((w16.dev.holdCs 3).rd Cs.NEXT_ENTRY 3) 0 3 = 0 ∧ bits ((w16.dev.holdCs 3).rd Cs.NEXT_ENTRY 3) 5 8 = 0) := by
  refine ⟨?_, ?_, ?_, ?_, ?_, ?_, ?_, ?_, ?_, ?_, ?_, ?_, ?_, ?_, ?_, ?_, ?_, ?_, ?_, ?_, ?_⟩ <;> decide +kernel

def serF (m : Nat) (w : Bool) : Dev := (ser m).setChan 3 {((ser m).chan 3) with frame := some (gt, w)}
def ssi : Dev := (serF 3 false).wr Pos.SER_CFG_POS_BITS 3 20
theorem wit_SerialHistoryIdentity :
    (State.reset.dev.powered 2 = false) ∧
    (w0.dev.powered 2 = true ∧ (w0.dev.enabled 16 3 = false ∨ w0.dev.serMode 3 = false)) ∧
    (w23.dev.powered 2 = true ∧ w23.dev.enabled 16 3 = true ∧ w23.dev.serMode 3 = true ∧ (w23.dev.chan 3).stuck = false) ∧
    (w28.dev.powered 2 = true ∧ w28.dev.is Pos.ID_CFG_ID_POLL 3 = false) ∧
    (w23.dev.powered 2 = true ∧ w23.dev.is Pos.ID_CFG_ID_POLL 3 = true ∧ w23.dev.is Pos.ID_STAT_PRESENT 3 = false) ∧
    (w0.dev.padE 3 0 = 0 ∧ w0.dev.wireChecked (WirePair.enc 3 0) = true) ∧
    (w9.dev.padE 3 2 = 0 ∧ w9.dev.wireChecked (WirePair.enc 3 2) = false) ∧
    (w0.dev.padE 3 0 = 0 ∧ w0.dev.padE 3 1 = 0) ∧
    (w23.dev.takes 0xFE 16 3 = true) ∧
    (((ser 2).setChan 3 {(default:PosH) with errRun := 3} |>.chan 3).errRun = 3) ∧
    ((w23.dev.chan 3).frame = none) ∧
    (((serF 2 true).chan 3).frame = some (gt, true) ∧ (serF 2 true).enabled 16 3 = true ∧ (serF 2 true).serMode 3 = true ∧ ((serF 2 true).chan 3).stuck = false) ∧
    (((serF 2 false).chan 3).frame = some (gt, false) ∧ (serF 2 false).rd Pos.ENC_CFG_MODE 3 = 2 ∧ (serF 2 false).serParse 3 [] = .inl 1) ∧
    ((ssi.chan 3).frame = some (gt, false) ∧ ssi.enabled 16 3 = true ∧ ssi.serMode 3 = true ∧ ssi.rd Pos.ENC_CFG_MODE 3 ≠ 2 ∧ ssi.is Pos.SER_CFG_SSI_ERRBIT 3 = false ∧ ssi.is Pos.SER_CFG_GRAY 3 = false ∧ ssi.serParse 3 (List.replicate 20 1) = .inr (1048575, false)) ∧
    ((ssi.chan 3).nRead = 0 ∧ (ssi.limits 3).1 ≤ (1048575 : Int) - ssi.rdI Pos.SER_BASE 3 ∧ (1048575 : Int) - ssi.rdI Pos.SER_BASE 3 ≤ (ssi.limits 3).2) ∧
    (w9.dev.enabled 16 3 = false ∨ w9.dev.is Pos.HIST_CFG_HIST_EN 3 = false) ∧
    (w23.dev.enabled 16 3 = true ∧ w23.dev.is Pos.HIST_CFG_HIST_EN 3 = true) ∧
    (1 < 3 ∧ w0.dev.is (wireStat 1) 3 = false) ∧
    (((q1.wr Pos.STAT_WIRE_A 3 1).wr Pos.STAT_WIRE_B 3 1).is Pos.STAT_WIRE_A 3 = true ∧ ((q1.wr Pos.STAT_WIRE_A 3 1).wr Pos.STAT_WIRE_B 3 1).is Pos.STAT_WIRE_B 3 = true) := by
  refine ⟨?_, ?_, ?_, ?_, ?_, ?_, ?_, ?_, ?_, ?_, ?_, ?_, ?_, ?_, ?_, ?_, ?_, ?_, ?_⟩ <;> decide +kernel

def due3 (d : Dev) : Bool := let e := d.holdGen 3
  e.genOn 3 && e.is Gen.STAT_OPEN 35 && e.chanLive 3 && !e.is Gen.STAT_HOLD 35 && reached (e.genDir 3) (e.posWord 3) (d.gen 3).next
def fast3 (d : Dev) : Bool := let e := d.holdGen 3
  e.genTooFast 3 (e.fireTime 3 (e.posWord 3) (d.gen 3).next)
theorem wit_LineGenerators :
    (w30.dev.powered 2 = true) ∧
    (State.reset.dev.powered 2 = false) ∧
    (w30.dev.takes 0xFE 18 (32 + 3) = true ∧ w9.dev.genOn 3 = false) ∧
    (w32.dev.genOn 3 = true ∧ w32.dev.takes 0xFE 18 (32 + 3) = true ∧ w32.dev.rd Gen.LINES_PER_GATE (32 + 3) = 0) ∧
    (w30.dev.takes 0xFE 18 (32 + 3) = true ∧ w30.dev.is Gen.STAT_OPEN (32 + 3) = true) ∧
    (w32.dev.takes 0xFE 18 (32 + 3) = true ∧ w32.dev.is Gen.STAT_OPEN (32 + 3) = false) ∧
    (w30.dev.genCh 3 = 3 ∧ due3 w30.dev = true ∧ fast3 w30.dev = false ∧ w30.dev.rd Gen.GEN_OUT_MASK (32 + 3) = 0 ∧ (w30.dev.claim Res.gen 3).held = false) ∧
    (w33.dev.genCh 3 = 3 ∧ due3 w33.dev = true ∧ fast3 w33.dev = true) ∧
    (due3 w32.dev = false) := by
  refine ⟨?_, ?_, ?_, ?_, ?_, ?_, ?_, ?_, ?_⟩ <;> decide +kernel

theorem wit_DigitalInputs :
    (State.reset.dev.powered 2 = false) ∧
    (w9.dev.powered 2 = true ∧ w9.dev.routedD 5 = false ∧ w9.dev.padD 5 = 0 ∧ (w9.dev.din 5).run = none) ∧
    ((w34.dev.din 5).run = some 3 ∧ w34.dev.rd Din.STAT_RAW 5 ≠ b2n true) ∧
    ((mo w35.dev).powered 2 = true ∧ ((mo w35.dev).din 5).run = some 3 ∧ (mo w35.dev).rd Din.STAT_RAW 5 = b2n true ∧ (mo w35.dev).rd Din.STAT_LEVEL 5 ≠ b2n true ∧ 3 + (mo w35.dev).debounceL 5 ≤ (mo w35.dev).momentL 0) ∧
    (w40.dev.powered 2 = true ∧ w40.dev.padD 5 = 0 ∧ w40.dev.wireChecked (WirePair.din 5) = true) ∧
    (w9.dev.boot.aoUp = true ∧ w9.dev.reqLive 0xFE = true ∧ up.reqLive (Req.fn 1 0).num = false) ∧
    (w9.dev.takes 0xFE 17 5 = true ∧ w9.dev.boot.aoUp = true ∧ w9.dev.tabErr 17 5 254 Din.F_EV_DBE ≠ 2 ∧ w9.dev.armed 17 5 Din.F_EV_DBE = false ∧ w9.dev.armed 17 5 Din.F_EV_SBE = false ∧ w9.dev.itemAtRd (16 + 5) = none) ∧
    (w38.dev.takes 0xFE 17 5 = true ∧ w38.dev.tabErr 17 5 254 Din.F_EV_DBE ≠ 2 ∧ w38.dev.armed 17 5 Din.F_EV_DBE = false ∧ w38.dev.armed 17 5 Din.F_EV_SBE = false ∧ (w38.dev.itemAtRd (16 + 5)).isSome = true) ∧
    ((w40.dev.wr Din.STAT_WIRE 5 1).is Din.STAT_WIRE 5 = true ∧ w40.dev.is Din.STAT_WIRE 5 = false) ∧
    (w9.dev.is Din.STAT_WIRE 5 = false ∧ (0 + w9.dev.rd Din.DIN_CFG_INV 5) % 2 = w9.dev.rd Din.STAT_LEVEL 5 ∧ (w9.dev.din 5).run = none) ∧
    (w34.dev.is Din.STAT_WIRE 5 = false ∧ (0 + w34.dev.rd Din.DIN_CFG_INV 5) % 2 = w34.dev.rd Din.STAT_LEVEL 5 ∧ (w34.dev.din 5).run.isSome = true) ∧
    (w34.dev.is Din.STAT_WIRE 5 = false ∧ (1 + w34.dev.rd Din.DIN_CFG_INV 5) % 2 ≠ w34.dev.rd Din.STAT_LEVEL 5 ∧ (w34.dev.din 5).run.isSome = true) ∧
    ((up.wr Din.DEBOUNCE 5 4).is Din.STAT_WIRE 5 = false ∧ (1 + (up.wr Din.DEBOUNCE 5 4).rd Din.DIN_CFG_INV 5) % 2 ≠ (up.wr Din.DEBOUNCE 5 4).rd Din.STAT_LEVEL 5 ∧ ((up.wr Din.DEBOUNCE 5 4).din 5).run = none ∧ (up.wr Din.DEBOUNCE 5 4).debounceL 5 ≠ 0) ∧
    ((w9.dev.din 5).run = none ∧ w9.dev.debounceL 5 = 0 ∧ w9.dev.enabled 17 5 = false ∧ w9.dev.is Din.STAT_WIRE 5 = false ∧ (1 + w9.dev.rd Din.DIN_CFG_INV 5) % 2 ≠ w9.dev.rd Din.STAT_LEVEL 5) ∧
    (w35.dev.enabled 17 5 = false ∧ w36.dev.enabled 17 5 = true) := by
  refine ⟨?_, ?_, ?_, ?_, ?_, ?_, ?_, ?_, ?_, ?_, ?_, ?_, ?_, ?_, ?_⟩ <;> decide +kernel

def limOut (n : Int) : Dev := lim.setChan 3 {(lim.chan 3) with cnt := n}
theorem wit_PositionSettings :
    (w9.dev.takes 0xFE 16 3 = true ∧ w9.dev.wireLive 3 = false ∧ w9.dev.posFault 3 = false ∧ (w9.dev.chan 3).suspSample ≠ some w9.dev.sample ∧ (w9.dev.chan 3).exSample ≠ some w9.dev.sample) ∧
    (((up.setChan 3 {(default:PosH) with exSample := some up.sample}).chan 3).exSample = some (up.setChan 3 {(default:PosH) with exSample := some up.sample}).sample) ∧
    (w41.dev.takes 0xFE 16 3 = true ∧ (w41.dev.wireLive 3 = true ∨ w41.dev.posFault 3 = true)) ∧
    (w44.dev.takes 0xFE 16 3 = true ∧ ((51201#64).toNat % 256 ≠ 0 ∨ sInt 64 (51201#64).toNat ≤ w44.dev.rdI Pos.LIMIT_LO 3)) ∧
    (w44.dev.takes 0xFE 16 3 = true ∧ (51200#64).toNat % 256 = 0 ∧ w44.dev.rdI Pos.LIMIT_LO 3 < sInt 64 (51200#64).toNat) ∧
    (w44.dev.takes 0xFE 16 3 = true ∧ (30720#64).toNat % 256 = 0 ∧ sInt 64 (30720#64).toNat < w44.dev.rdI Pos.LIMIT_HI 3) ∧
    (w46.dev.takes 0xFE 16 3 = true ∧ w46.dev.rebaseRefused 3 = true) ∧
    (w9.dev.takes 0xFE 16 3 = true ∧ w9.dev.rebaseRefused 3 = false) ∧
    (((lim.limits 3).1 ≤ (lim.chan 3).cnt ∧ (lim.chan 3).cnt ≤ (lim.limits 3).2)) ∧
    (((limOut 250).chan 3).stuck = false ∧ ((limOut 250).limits 3).2 < ((limOut 250).chan 3).cnt) ∧
    (((limOut 20).chan 3).stuck = false ∧ ((limOut 20).limits 3).1 ≤ ((limOut 20).limits 3).2 ∧ ((limOut 20).chan 3).cnt < ((limOut 20).limits 3).1) := by
  refine ⟨?_, ?_, ?_, ?_, ?_, ?_, ?_, ?_, ?_, ?_, ?_⟩ <;> decide +kernel

theorem wit_OutputsAndLockstep :
    (State.reset.dev.powered 2 = false) ∧
    (w47.dev.powered 2 = true ∧ (w47.dev.outp 5).pulses.filter (fun x => decide (w47.dev.nowL < x.2)) = []) ∧
    (w48.dev.powered 2 = true ∧ (w48.dev.outp 5).pulses.filter (fun x => decide (w48.dev.nowL < x.2)) = [(0, 100), (200, 300)]) ∧
    (w9.dev.powered 2 = true ∧ w9.dev.outActive 5 = none) ∧
    (w50.dev.powered 2 = true ∧ (w50.dev.outActive 5).isSome = true) ∧
    (w9.dev.takes 0xFE 18 5 = true ∧ (w9.dev.fltPages.any fun p => (List.range 32).any fun b => (w9.dev.rd (Hdr.FLT p.1) p.2).testBit b && fltSeverity p.1 p.2 b == some 4) = false) ∧
    (w49.dev.takes 0xFE 18 5 = true ∧ (w49.dev.fltPages.any fun p => (List.range 32).any fun b => (w49.dev.rd (Hdr.FLT p.1) p.2).testBit b && fltSeverity p.1 p.2 b == some 4) = true) := by
  refine ⟨?_, ?_, ?_, ?_, ?_, ?_, ?_⟩ <;> decide +kernel

end Positions

/-! Device clock, timed actions, Ethernet, Voxord. -/

namespace Nets

def fast : Dev := {up with clk := ⟨50,0,0⟩}
def taE (v tm : Nat) : Dev := ((((fast.wr (Hdr.EN 0x15) 0 1).setTab 0x15 0 1 7 (v+2^72)).setTab 0x15 0 0 7 tm).setTab 0x15 0 2 7 1)
def sg : Seg := {(default : Seg) with st := .declared, desc := [0x50, 5] ++ zeros 126, num := 3}
def et : Dev := ((((fast.wr (Hdr.EN 0x16) 1 1).wr Eth.STAT_LINK_UP 1 1).wr Eth.PTP_CFG_INIT_EN 1 1).wr Eth.PTP_CFG_RESP_EN 1 1).wr Eth.MASTER_PORT_WATCH_EN 1 0
def pdr : PdReq := ⟨5, 100, 100, [], none, false, none⟩
def etr : Dev := et.setEth 1 {(default:EthH) with reqs := [pdr], pdSeq := 65535}
def ptp (ty seq : Nat) (tail : List Nat) : List Nat := withCrc (beBytes 6 0x0180C200000E ++ beBytes 6 7 ++ [0x88, 0xF7] ++ [ty, 2] ++ [0, 54, 0, 0, 0, 0] ++ zeros 8 ++ zeros 4 ++ beBytes 10 77 ++ beBytes 2 seq ++ [0,0] ++ zeros 10 ++ tail)
def fr (n : Nat) : List Nat := withCrc (List.replicate 6 255 ++ zeros 6 ++ [0x12,0x34] ++ zeros n)
def td : IDesc := {(default:IDesc) with raw := [0x31,1,0,0,60,0,0,0] ++ zeros 24, taken := true, fetched := 5000}
def etx : Dev := (((((et.wr (Hdr.EN 0x1B) 32 1).setIqh 0 {(default:IqH) with descs := [td]}).wr (Hdr.EN 0x1A) 0 1)).qwr 320 Dq.RING_CFG_Q_EN 1 |>.setFn 0 {(default:FnCfg) with bme := true})
def vm : VoxMsg := {(default:VoxMsg) with ackReq := true, dst := 9, prio := 2, ports := 3}
def vx : Dev := ((et.wr (Hdr.EN 0x17) 0 1).wr (Hdr.EN 0x16) 0 1)
def vq : Dev := {vx with vox := {vx.vox with queue := [{vm with prio := 3}, vm], out := [⟨4, 0, vm⟩, ⟨6, 200, vm⟩], seq := 65535}}
def vf (ty fl src seq : Nat) (tail : List Nat) : List Nat := zeros 12 ++ beBytes 2 (vx.rd Vox.VOX_CFG_VOX_ETYPE 0) ++ [1, ty, vx.rd Vox.VOX_CFG_DOMAIN 0, fl] ++ beBytes 2 (vx.rd Vox.VOX_ID_NODE_ID 0) ++ beBytes 2 src ++ beBytes 2 seq ++ zeros 6 ++ tail
def w0 : State := st fast
def w2 : State := st (fast.wr Tu.STEP_MAG 0 (2^48*51))
def w3 : State := st (fast.wr Eth.STAT_D_GOOD_VALID 1 1)
def w4 : State := st (et.wr Eth.MASTER_PORT_WATCH_EN 1 1)
def w5 : State := st et
def w6 : State := st etr
def w9 : State := st vx
def w10 : State := st vq
def w11 : State := st (taE 0 0)
def w12 : State := st (taE 0 (2^48*100))
def w13 : State := st (taE (2^64 + 2^96 * (7 + 2^16*5)) 0)
def w14 : State := st (taE (3*2^64 + 2^96 * (7 + 2^8*50)) 0)
def w15 : State := st ((((((taE (3*2^64 + 2^96 * (7 + 2^8*50)) 0).setClaim .tout 7 {(default:Claim) with held := true, hCls := 0x15}).wr Out.STAT_SAFE_ACTIVE 7 0).wr (Hdr.EN 0x12) 7 1)).wr Out.OUT_DELAY 7 3)
def w16 : State := st (taE (4*2^64 + 2^96 * 7) 0)
def w17 : State := st (taE (5*2^64 + 2^96 * 7) 0)
def w18 : State := st ((taE (5*2^64 + 2^96 * 7) 0).setTrack 7 {(default:TrackH) with segs := [sg]})
def w19 : State := st (taE (2*2^64 + 2^96 * 7) 0)
def w20 : State := st (taE (2*2^64 + 2^96 * (7+2^24)) 0)
def w21 : State := st (et.wr Eth.STAT_LINK_UP 1 0)
def w22 : State := st etx
def w23 : State := st (etx.wr Eth.STAT_LINK_UP 1 0)
def w24 : State := st (fast.wr Eth.SFP_STAT_PRESENT 1 1)
theorem wit_DeviceClock :
    (w0.dev.takes 0xFE 20 0 = true ∧ 0 < 2 ^ 48 ∧ (1407374883553 + 703687441 < 0 ∨ 0 + 703687441 < 1407374883553)) ∧
    (w0.dev.takes 0xFE 20 0 = true ∧ 1407374883553 ≤ 1407374883553 + 703687441) ∧
    (w0.dev.takes 0xFE 20 0 = true ∧ w0.dev.clk.count + tLin (w0.dev.rd Tu.STEP_MAG 0) * 2 ^ 24 < 2 ^ 48 * 1000000000 * 2 ^ 40) ∧
    (w0.dev.takes 0xFE 20 0 = true ∧ tLin (w0.dev.rd Tu.STEP_MAG 0) * 2 ^ 24 ≤ w0.dev.clk.count ∧ w0.dev.clk.count < 2 ^ 48 * 1000000000 * 2 ^ 40) ∧
    (w2.dev.takes 0xFE 20 0 = true ∧ w2.dev.clk.count < tLin (w2.dev.rd Tu.STEP_MAG 0) * 2 ^ 24) ∧
    (w0.dev.boot.aoUp = true) ∧
    (State.reset.dev.boot.aoUp = false) ∧
    (w0.dev.powered 1 = true ∧ w0.dev.clkLost = false ∧ ({fast with incrDue := true} : Dev).incrDue = true) := by
  refine ⟨?_, ?_, ?_, ?_, ?_, ?_, ?_, ?_⟩ <;> decide +kernel

def etn : Dev := {etr with clk := ⟨0,0,0⟩}
def etv (v : PdReq) : Dev := etr.setEth 1 {(etr.eth 1) with reqs := [v]}
def preq : List Nat := ptp 2 9 (zeros 10)
def prsp : List Nat := ptp 3 5 (beBytes 10 (et.portIdent 1))
def cut4 (f : List Nat) : List Nat := f.take (f.length - 4)
theorem wit_PathDelay :
    (w0.dev.takes 0xFE 22 1 = true) ∧
    (w0.dev.is Eth.STAT_D_GOOD_VALID 1 = false) ∧
    ((fast.wr Eth.STAT_D_GOOD_VALID 1 1).is Eth.STAT_D_GOOD_VALID 1 = true ∧ ((fast.wr Eth.STAT_D_GOOD_VALID 1 1).wr Eth.STAT_PD_STEP_PENDING 1 1).is Eth.STAT_PD_STEP_PENDING 1 = true) ∧
    (w3.dev.is Eth.STAT_D_GOOD_VALID 1 = true ∧ w3.dev.is Eth.STAT_PD_STEP_PENDING 1 = false ∧ w3.dev.rd Eth.PD_STEP_LIMIT 1 < ((70000000 : Int) - sInt 64 (w3.dev.rd Eth.D_GOOD 1)).natAbs ∧ ((0 : Int) - sInt 64 (w3.dev.rd Eth.D_GOOD 1)).natAbs ≤ w3.dev.rd Eth.PD_STEP_LIMIT 1) ∧
    (w4.dev.ethRuns 1 = true ∧ w4.dev.is Eth.MASTER_PORT_WATCH_EN 1 = true ∧ w4.dev.is Eth.STAT_HOLDOVER 1 = false ∧ (w4.dev.eth 1).syncAt + w4.dev.rd Eth.PTP_CFG_SYNC_TIMEOUT 1 * 1000000 * nsL ≤ w4.dev.nowL) ∧
    (w0.dev.ethRuns 1 = false) ∧
    ((w0.dev.eth 1).reqs.all (fun x => decide (w0.dev.nowL < x.leftAt + 100000000 * nsL)) = true) ∧
    ((w6.dev.eth 1).reqs = [pdr] ∧ pdr.leftAt + 100000000 * nsL ≤ w6.dev.nowL ∧ pdr.sample = none) ∧
    (((etv {pdr with sample := some 7, srcs := [4]}).eth 1).reqs = [{pdr with sample := some 7, srcs := [4]}] ∧ ({pdr with sample := some 7, srcs := [4]} : PdReq).srcs.length ≤ 1) ∧
    (((etv {pdr with sample := some 7, srcs := [4, 6]}).eth 1).reqs = [{pdr with sample := some 7, srcs := [4, 6]}] ∧ 1 < ({pdr with sample := some 7, srcs := [4, 6]} : PdReq).srcs.length) ∧
    (w0.dev.ethLive 1 = false ∨ w0.dev.is Eth.PTP_CFG_INIT_EN 1 = false ∨ w0.dev.ethLoop 1 = 3) ∧
    (w4.dev.is LbF.INJ_CFG_INJ_EN 0 (16 + 1) = false ∧ (w4.dev.loop (16 + 1)).held = none ∧ w4.dev.ethLive 1 = true ∧ w4.dev.is Eth.PTP_CFG_INIT_EN 1 = true ∧ w4.dev.ethLoop 1 ≠ 3) ∧
    (w5.dev.is LbF.INJ_CFG_INJ_EN 0 (16 + 1) = false ∧ (w5.dev.loop (16 + 1)).held = none ∧ w5.dev.ethLive 1 = true ∧ w5.dev.ethLoop 1 ≠ 3 ∧ 68 ≤ preq.length ∧ preq.length ≤ w5.dev.rd Eth.MAX_FRAME 1 ∧ crcGood preq = true ∧ w5.dev.tabErr 22 1 254 Eth.F_BUF_DBE ≠ 2 ∧ w5.dev.armed 22 1 Eth.F_BUF_DBE = false ∧ w5.dev.armed 22 1 Eth.F_BUF_SBE = false ∧ w5.dev.is Eth.MASTER_PORT_WATCH_EN 1 = false ∧ w5.dev.ethTakes 1 (cut4 preq) = true ∧ etherType (cut4 preq) = 35063 ∧ w5.dev.rd Vox.VOX_CFG_VOX_ETYPE 0 ≠ 35063 ∧ be (cut4 preq) 12 2 ≠ 33024 ∧ ptpDomain (cut4 preq) 14 = w5.dev.rd Eth.PTP_CFG_DOMAIN 1 ∧ w5.dev.rd Eth.ETH_CFG_RX_Q 1 < 256 ∧ ptpType (cut4 preq) 14 = 2 ∧ w5.dev.is Eth.PTP_CFG_RESP_EN 1 = true) ∧
    (etn.is LbF.INJ_CFG_INJ_EN 0 (16 + 1) = false ∧ (etn.loop (16 + 1)).held = none ∧ etn.ethLive 1 = true ∧ etn.ethLoop 1 ≠ 3 ∧ 68 ≤ prsp.length ∧ prsp.length ≤ etn.rd Eth.MAX_FRAME 1 ∧ crcGood prsp = true ∧ etn.tabErr 22 1 254 Eth.F_BUF_DBE ≠ 2 ∧ etn.armed 22 1 Eth.F_BUF_DBE = false ∧ etn.armed 22 1 Eth.F_BUF_SBE = false ∧ etn.is Eth.MASTER_PORT_WATCH_EN 1 = false ∧ etn.ethTakes 1 (cut4 prsp) = true ∧ etherType (cut4 prsp) = 35063 ∧ etn.rd Vox.VOX_CFG_VOX_ETYPE 0 ≠ 35063 ∧ be (cut4 prsp) 12 2 ≠ 33024 ∧ ptpDomain (cut4 prsp) 14 = etn.rd Eth.PTP_CFG_DOMAIN 1 ∧ etn.rd Eth.ETH_CFG_RX_Q 1 < 256 ∧ ptpType (cut4 prsp) 14 = 3 ∧ (byteAt (cut4 prsp) 20).testBit 1 = false ∧ be (cut4 prsp) 58 10 = etn.portIdent 1 ∧ (etn.eth 1).reqs = [pdr] ∧ pdr.seq = ptpSeq (cut4 prsp) 14 ∧ pdr.srcs = [] ∧ pdr.sample = none ∧ etn.nowL < pdr.leftAt + 100000000 * nsL) := by
  refine ⟨?_, ?_, ?_, ?_, ?_, ?_, ?_, ?_, ?_, ?_, ?_, ?_, ?_, ?_⟩ <;> decide +kernel

def vdup : Dev := {vx with vox := {vx.vox with seen := [(9, 3, 5)]}, clk := ⟨0,0,0⟩}
def heard (d : Dev) (f : List Nat) : Bool := d.vox.seen.any (fun x => x.1 == be (voxHdr f) 6 2 && x.2.1 == be (voxHdr f) 8 2 && decide (d.nowL < x.2.2 + 100000000 * nsL))
def minesA (d : Dev) (f : List Nat) : Bool := d.vox.out.any (fun o => o.seq == be (voxHdr f) 16 2 && o.msg.dst == be (voxHdr f) 6 2)
def ackF : List Nat := vf 126 0 9 3 [0, 4, 0, 0]
theorem wit_Voxord :
    (w9.dev.voxOn = true ∧ voxNext w9.dev.vox.queue = none) ∧
    (w10.dev.voxOn = true ∧ voxNext w10.dev.vox.queue = some 1 ∧ w10.dev.vox.queue[1]? = some vm) ∧
    (List.find? (fun o => o.seq == 4) w9.dev.vox.out = none) ∧
    (w10.dev.voxOn = true ∧ (List.find? (fun o => o.seq == 4) w10.dev.vox.out).any (fun v1 => decide (v1.tries < w10.dev.rd Vox.VOX_RETRY_RETRIES 0)) = true) ∧
    (w10.dev.voxOn = true ∧ (List.find? (fun o => o.seq == 6) w10.dev.vox.out).any (fun v1 => decide (w10.dev.rd Vox.VOX_RETRY_RETRIES 0 ≤ v1.tries)) = true) ∧
    (w9.dev.voxForUs [] = false) ∧
    (vdup.voxForUs ackF = true ∧ heard vdup ackF = true) ∧
    (w10.dev.voxForUs ackF = true ∧ heard w10.dev ackF = false ∧ byteAt (voxHdr ackF) 1 = 0x7E ∧ minesA w10.dev ackF = true) ∧
    (w9.dev.voxForUs ackF = true ∧ heard w9.dev ackF = false ∧ minesA w9.dev ackF = false) ∧
    (w9.dev.voxForUs (vf 16 0 9 3 [0, 0, 0, 0]) = true ∧ heard w9.dev (vf 16 0 9 3 [0, 0, 0, 0]) = false ∧ byteAt (voxHdr (vf 16 0 9 3 [0, 0, 0, 0])) 1 = 0x10) ∧
    (w9.dev.voxForUs (vf 2 1 9 3 [0, 0, 0, 0]) = true ∧ heard w9.dev (vf 2 1 9 3 [0, 0, 0, 0]) = false ∧ byteAt (voxHdr (vf 2 1 9 3 [0, 0, 0, 0])) 1 = 2) := by
  refine ⟨?_, ?_, ?_, ?_, ?_, ?_, ?_, ?_, ?_, ?_, ?_⟩ <;> decide +kernel

theorem wit_TimedActions :
    (w12.dev.taReady 7 = false) ∧
    (w11.dev.taReady 7 = true ∧ w11.dev.tabErr 21 0 0 7 = 0 ∧ w11.dev.tabErr 21 0 1 7 = 0 ∧ taKind (w11.dev.taEntry 7) = 0 ∧ taPeriod (w11.dev.taEntry 7) = 0 ∧ taCount (w11.dev.taEntry 7) = 0) ∧
    (w13.dev.taReady 7 = true ∧ w13.dev.tabErr 21 0 0 7 = 0 ∧ w13.dev.tabErr 21 0 1 7 = 0 ∧ taKind (w13.dev.taEntry 7) = 1) ∧
    (w14.dev.taReady 7 = true ∧ w14.dev.tabErr 21 0 0 7 = 0 ∧ w14.dev.tabErr 21 0 1 7 = 0 ∧ taKind (w14.dev.taEntry 7) = 3) ∧
    (w15.dev.taReady 7 = true ∧ w15.dev.tabErr 21 0 0 7 = 0 ∧ w15.dev.tabErr 21 0 1 7 = 0 ∧ taKind (w15.dev.taEntry 7) = 3 ∧ w15.dev.holds Res.tout (bits (taArg (w15.dev.taEntry 7)) 0 5) 21 0 = true ∧ w15.dev.outSafe (bits (taArg (w15.dev.taEntry 7)) 0 5) = false ∧ w15.dev.rd Out.OUT_CFG_FORCE (bits (taArg (w15.dev.taEntry 7)) 0 5) = 0 ∧ w15.dev.is Out.OUT_CFG_FINE_EN (bits (taArg (w15.dev.taEntry 7)) 0 5) = false ∧ bits (taArg (w15.dev.taEntry 7)) 8 24 ≠ 0) ∧
    (w16.dev.taReady 7 = true ∧ w16.dev.tabErr 21 0 0 7 = 0 ∧ w16.dev.tabErr 21 0 1 7 = 0 ∧ taKind (w16.dev.taEntry 7) = 4) ∧
    (w17.dev.taReady 7 = true ∧ w17.dev.tabErr 21 0 0 7 = 0 ∧ w17.dev.tabErr 21 0 1 7 = 0 ∧ taKind (w17.dev.taEntry 7) = 5 ∧ List.find? (fun s => s.st == SegState.declared) (w17.dev.track (bits (taArg (w17.dev.taEntry 7)) 0 4)).segs = none) ∧
    (w18.dev.taReady 7 = true ∧ w18.dev.tabErr 21 0 0 7 = 0 ∧ w18.dev.tabErr 21 0 1 7 = 0 ∧ taKind (w18.dev.taEntry 7) = 5 ∧ (List.find? (fun s => s.st == SegState.declared) (w18.dev.track (bits (taArg (w18.dev.taEntry 7)) 0 4)).segs).any (fun v1 => decide (v1.timed = true ∧ v1.started = false)) = true) ∧
    (w19.dev.taReady 7 = true ∧ w19.dev.tabErr 21 0 0 7 = 0 ∧ w19.dev.tabErr 21 0 1 7 = 0 ∧ taKind (w19.dev.taEntry 7) = 2 ∧ (taArg (w19.dev.taEntry 7)).testBit 24 = false) ∧
    (w20.dev.taReady 7 = true ∧ w20.dev.tabErr 21 0 0 7 = 0 ∧ w20.dev.tabErr 21 0 1 7 = 0 ∧ taKind (w20.dev.taEntry 7) = 2 ∧ (taArg (w20.dev.taEntry 7)).testBit 24 = true) ∧
    (taKind (w11.dev.taEntry 7) ≠ 1 ∧ taKind (w11.dev.taEntry 7) ≠ 3 ∧ taKind (w11.dev.taEntry 7) ≠ 4 ∧ taKind (w11.dev.taEntry 7) ≠ 5 ∧ taKind (w13.dev.taEntry 7) ≠ 0) ∧
    (taKind (w11.dev.taEntry 7) ≠ 2 ∨ (taArg (w11.dev.taEntry 7)).testBit 24 = true) ∧
    (taKind ((w11.dev.setTabErr 21 0 0 7 2).taEntry 7) = 0 ∧ (w11.dev.setTabErr 21 0 0 7 2).taReady 7 = true ∧ (w11.dev.setTabErr 21 0 0 7 2).tabErr 21 0 0 7 = 2) := by
  refine ⟨?_, ?_, ?_, ?_, ?_, ?_, ?_, ?_, ?_, ?_, ?_, ?_, ?_⟩ <;> decide +kernel

theorem wit_EthernetPorts :
    (w0.dev.is LbF.INJ_CFG_INJ_EN 0 (16 + 1) = false ∧ (w0.dev.loop (16 + 1)).held = none ∧ (w0.dev.ethRuns 1 = false ∨ w0.dev.ethLinkUp 1 = false)) ∧
    (w5.dev.is LbF.INJ_CFG_INJ_EN 0 (16 + 1) = false ∧ (w5.dev.loop (16 + 1)).held = none ∧ w5.dev.ethLive 1 = true ∧ (true = false ∨ ([] : List Nat).length < 64 ∨ w5.dev.rd Eth.MAX_FRAME 1 < ([] : List Nat).length ∨ crcGood [] = false)) ∧
    (w0.dev.is LbF.INJ_CFG_INJ_EN 0 (16 + 1) = false ∧ (w0.dev.loop (16 + 1)).held = none ∧ w0.dev.txHead 1 = none) ∧
    (w21.dev.is LbF.INJ_CFG_INJ_EN 0 (16 + 1) = false ∧ (w21.dev.loop (16 + 1)).held = none ∧ w21.dev.ethRuns 1 = true ∧ w21.dev.ethLooped 1 = false ∧ w21.dev.ethLinkUp 1 = false) ∧
    (w5.dev.is LbF.INJ_CFG_INJ_EN 0 (16 + 1) = false ∧ (w5.dev.loop (16 + 1)).held = none ∧ w5.dev.ethLinkUp 1 = true) ∧
    (w0.dev.is LbF.INJ_CFG_INJ_EN 0 (16 + 1) = false ∧ (w0.dev.loop (16 + 1)).held = none ∧ w0.dev.silent 22 1 = false ∧ w0.dev.is Eth.SFP_STAT_PRESENT 1 = false) ∧
    (w24.dev.is LbF.INJ_CFG_INJ_EN 0 (16 + 1) = false ∧ (w24.dev.loop (16 + 1)).held = none ∧ w24.dev.silent 22 1 = false ∧ w24.dev.is Eth.SFP_STAT_PRESENT 1 = true) ∧
    (w24.dev.is LbF.INJ_CFG_INJ_EN 0 (16 + 1) = false ∧ (w24.dev.loop (16 + 1)).held = none ∧ w24.dev.takes 0xFE 22 1 = true ∧ w24.dev.is Eth.SFP_STAT_PRESENT 1 = true) ∧
    (w5.dev.is LbF.INJ_CFG_INJ_EN 0 (16 + 1) = false ∧ (w5.dev.loop (16 + 1)).held = none ∧ w5.dev.ethLive 1 = true ∧ 64 ≤ (fr 46).length ∧ (fr 46).length ≤ w5.dev.rd Eth.MAX_FRAME 1 ∧ crcGood (fr 46) = true ∧ w5.dev.tabErr 22 1 254 Eth.F_BUF_DBE ≠ 2 ∧ w5.dev.armed 22 1 Eth.F_BUF_DBE = false ∧ w5.dev.armed 22 1 Eth.F_BUF_SBE = false ∧ w5.dev.ethTakes 1 (List.take ((fr 46).length - 4) (fr 46)) = true ∧ ptpOfs (List.take ((fr 46).length - 4) (fr 46)) = none ∧ w5.dev.voxForUs (List.take ((fr 46).length - 4) (fr 46)) = false ∧ w5.dev.qrd (64 + w5.dev.rd Eth.ETH_CFG_RX_Q 1) Dq.RING_CFG_Q_EN ≠ 1) ∧
    (w23.dev.is LbF.INJ_CFG_INJ_EN 0 (16 + 1) = false ∧ (w23.dev.loop (16 + 1)).held = none ∧ (w23.dev.txHead 1).any (fun v1 => decide (List.take 32 td.raw = v1.raw ∧ w23.dev.ethLinkUp 1 = false ∧ w23.dev.ethLooped 1 = false)) = true) ∧
    (w22.dev.is LbF.INJ_CFG_INJ_EN 0 (16 + 1) = false ∧ (w22.dev.loop (16 + 1)).held = none ∧ (w22.dev.txHead 1).any (fun v1 => decide (List.take 32 td.raw = v1.raw ∧ w22.dev.ethLinkUp 1 = true ∧ w22.dev.ethLoop 1 = 0 ∧ bits (byteAt v1.raw 1) 1 2 = 0 ∧ w22.dev.tabErr 22 1 254 Eth.F_BUF_DBE ≠ 2 ∧ w22.dev.armed 22 1 Eth.F_BUF_DBE = false ∧ w22.dev.armed 22 1 Eth.F_BUF_SBE = false)) = true) ∧
    ((w23.dev.txHead 1).any (fun v1 => decide (List.take 32 [1, 2] ≠ v1.raw)) = true) ∧
    (State.reset.dev.silent 22 1 = true) ∧
    (w0.dev.ethLinkUp 1 = false) ∧
    (w22.dev.vox.queue = []) ∧
    (w5.dev.ethTakes 1 (List.replicate 6 3 ++ zeros 60) = false) := by
  refine ⟨?_, ?_, ?_, ?_, ?_, ?_, ?_, ?_, ?_, ?_, ?_, ?_, ?_, ?_, ?_, ?_⟩ <;> decide +kernel

end Nets

/-! Line conditioning. -/

namespace Lines

def lc : Dev := (((up.wr (Hdr.EN 0x0C) 1 1).wr (Hdr.EN 0x0B) 1 1).wr Lcu.LCU_CFG_FMT_EXP 1 1).wr Lcu.LCU_WIDTH_WIDTH 1 4
def it (done : Bool) (typ : Nat) (fmt w : Nat) : QItem := ⟨0, 3, [typ, 0] ++ leBytes 2 fmt ++ leBytes 4 w ++ zeros 56, zeros w, zeros 16, done⟩
def lq (x : QItem) : Dev := lc.setQueue 1 {(default:QueueH) with wr := 3, items := [x]}
def w0 : State := st up
def w1 : State := st (lc.wr Port.STAT_LINK_UP 1 1)
def w2 : State := st (lq (it false 1 1 4))
def w3 : State := st (lq (it true 1 1 4))
def w4 : State := st (lq (it true 1 3 4))
def w5 : State := st (up.wr Lcu.STAT_BANK_PENDING 1 1)
def w6 : State := st (((lq (it true 1 1 4)).setLcu 1 {(default:LcuH) with pend := some default}).wr Lcu.STAT_HIST_WAIT 1 1)
def w1p : State := st (((lc.wr Port.STAT_LINK_UP 1 1).wr (Hdr.FLT_INJ 0x0B) 1 (2 ^ Ingest.F_PTR_ERR)))
def w6n : State := st ((lq (it true 1 1 4)).wr Lcu.STAT_HIST_WAIT 1 1)
def q1 (d : Dev) : QItem := (d.itemCheck 1 (it true 1 1 4)).2.getD default
def rr : Dev := (lq (it true 1 1 4)).setLcu 1 {(default:LcuH) with pass := .reread 3}
theorem wit_LineConditioning :
    (w0.dev.lcuRuns 1 = false ∨ (w0.dev.lcu 1).pend.isSome = true) ∧
    (w1p.dev.lcuRuns 1 = true ∧ (w1p.dev.lcu 1).pend = none ∧ w1p.dev.enabled 11 1 = true ∧ w1p.dev.armed 11 1 Ingest.F_PTR_ERR = true) ∧
    (w1.dev.lcuRuns 1 = true ∧ (w1.dev.lcu 1).pend = none ∧ w1.dev.armed 11 1 Ingest.F_PTR_ERR = false ∧ w1.dev.lcuItem 1 = none ∧ w1.dev.is Port.STAT_LINK_UP 1 = true) ∧
    (lc.lcuRuns 1 = true ∧ (lc.lcu 1).pend = none ∧ lc.armed 11 1 Ingest.F_PTR_ERR = false ∧ lc.lcuItem 1 = none ∧ lc.is Port.STAT_LINK_UP 1 = false) ∧
    (w2.dev.lcuRuns 1 = true ∧ (w2.dev.lcu 1).pend = none ∧ w2.dev.armed 11 1 Ingest.F_PTR_ERR = false ∧ w2.dev.lcuItem 1 = some (it false 1 1 4) ∧ (it false 1 1 4).done = false) ∧
    (w3.dev.lcuRuns 1 = true ∧ w3.dev.lcuItem 1 = some (it true 1 1 4) ∧ (it true 1 1 4).done = true) ∧
    ((((lq (it true 1 1 4)).wr (Hdr.FLT_INJ 0x0B) 1 (2 ^ Ingest.F_FIFO_SBE)).itemCheck 1 (it true 1 1 4)).2.isSome = true) ∧
    ((w3.dev.itemCheck 1 (it true 2 1 4)).2.isSome = true ∧ byteAt (it true 2 1 4).hdr 0 ≠ 1) ∧
    ((rr.itemCheck 1 (it true 1 1 4)).2.isSome = true ∧ ((rr.itemCheck 1 (it true 1 1 4)).1.lcu 1).pass = .reread 3 ∧ byteAt (it true 1 1 4).hdr 0 = 1) ∧
    (((w3.dev.itemCheck 1 (it true 1 1 4)).1.lcu 1).pass = Pass.none ∧ ((w3.dev.itemCheck 1 (it true 1 1 4)).1.addWrap Lcu.LINES_IN 1 1).lineOk 1 (q1 w3.dev) = true ∧ ((w3.dev.itemCheck 1 (it true 1 1 4)).1.addWrap Lcu.LINES_IN 1 1).is Lcu.LCU_CFG_AREA 1 = false) ∧
    (((w3.dev.wr Lcu.LCU_CFG_AREA 1 1).addWrap Lcu.LINES_IN 1 1).is Lcu.LCU_CFG_AREA 1 = true ∧ ((w3.dev.wr Lcu.LCU_CFG_AREA 1 1).addWrap Lcu.LINES_IN 1 1).lineOk 1 {it true 1 1 4 with hdr := patch (it true 1 1 4).hdr 1 [4]} = true) ∧
    (((w4.dev.itemCheck 1 (it true 1 3 4)).1.addWrap Lcu.LINES_IN 1 1).lineOk 1 ((w4.dev.itemCheck 1 (it true 1 3 4)).2.getD default) = false) ∧
    (w0.dev.lcuRuns 1 = false ∨ w0.dev.is Lcu.STAT_HIST_WAIT 1 = false) ∧
    ((lc.wr Lcu.STAT_HIST_WAIT 1 1).lcuRuns 1 = true ∧ (lc.wr Lcu.STAT_HIST_WAIT 1 1).is Lcu.STAT_HIST_WAIT 1 = true ∧ (lc.wr Lcu.STAT_HIST_WAIT 1 1).lcuItem 1 = none) ∧
    (w6n.dev.lcuRuns 1 = true ∧ w6n.dev.is Lcu.STAT_HIST_WAIT 1 = true ∧ (w6n.dev.lcu 1).pend = none ∧ (w6n.dev.lcuItem 1).isSome = true) ∧
    (w6.dev.lcuRuns 1 = true ∧ w6.dev.is Lcu.STAT_HIST_WAIT 1 = true ∧ (w6.dev.lcu 1).pend = some default ∧ (w6.dev.lcuItem 1).isSome = true ∧ w6.dev.lineLookup 1 (default : SLine).tc = none) ∧
    (w0.dev.takes 0xFE 12 1 = true ∧ w0.dev.is Lcu.STAT_BANK_PENDING 1 = false) ∧
    (w5.dev.takes 0xFE 12 1 = true ∧ w5.dev.is Lcu.STAT_BANK_PENDING 1 = true) := by
  refine ⟨?_, ?_, ?_, ?_, ?_, ?_, ?_, ?_, ?_, ?_, ?_, ?_, ?_, ?_, ?_, ?_, ?_, ?_⟩ <;> decide +kernel

theorem wit_LineConditioning_lost :
    ((lc.wr (Hdr.FLT_INJ 0x0B) 1 (2 ^ Ingest.F_FIFO_DBE)).itemCheck 1 (it true 1 1 0)).2 = none := by
  have h : ((lc.wr (Hdr.FLT_INJ 0x0B) 1 (2 ^ Ingest.F_FIFO_DBE)).useBuf 0x0B 1 Ingest.F_FIFO_SBE Ingest.F_FIFO_DBE).2 = true := by
    decide +kernel
  have n : cdiv (it true 1 1 0).pay.length 8 = 0 := by decide
  unfold Dev.itemCheck
  simp only [h, n, if_true]
  rw [if_neg (by omega)]
end Lines

/-! Reference intake. -/

namespace Loads

def ri : Dev := (((((up2.wr (Hdr.EN 0x1B) 32 1).wr (Hdr.EN 0x1A) 0 1).wr (Hdr.EN 0x0E) 0 1).qwr 325 Dq.RING_CFG_Q_EN 1).setFn 0 {(default:FnCfg) with bme := true})
def ld (k len cons : Nat) : IDesc := {(default:IDesc) with raw := [k,1,0,0] ++ leBytes 4 len ++ zeros 24, taken := true, fetched := len, consumed := cons}
def lo (k len cons : Nat) : Dev := ((ri.setIqh 5 {(default:IqH) with descs := [ld k len cons]})).setQueue 325 {(default:QueueH) with wr := 1}
def seg (num : Nat) : List Nat := [0x50,1,1,2] ++ leBytes 4 num ++ zeros 36 ++ leBytes 4 256 ++ leBytes 4 256 ++ [1,1,3,0] ++ zeros 8 ++ leBytes 4 (2^24) ++ zeros 8 ++ leBytes 4 (2^24) ++ zeros 48
def sOn (d : Dev) : Dev := (((d.wr Ri.RA_SEL_SEL_EN 0 1 1).wr Ri.RA_SEL_AREA 0 2 1).wr Ri.PROF_VALID 0 8).wr Ri.RA_SIZE_SIZE 0 100 2
def sm : FrameStore := {cells := [(98307, 3), (98312, 0xFF), (98313, 0xFF), (98314, 0xFF),(98315, 0xFF)], poison := []}
def sg (st : SegState) (num : Nat) : Seg := {(default:Seg) with num := num, desc := seg num, st := st}
def full (d : Dev) : Dev := d.setTrack 1 {(default:TrackH) with segs := List.replicate 64 (sg .declared 4)}
def tile (num flag pb : Nat) : List Nat := [0x51,1] ++ leBytes 2 2 ++ leBytes 4 (cdiv pb 8 * 8) ++ leBytes 4 num ++ zeros 4 ++ leBytes 3 pb ++ [flag] ++ zeros 44 ++ zeros (cdiv pb 8 * 8)
def tl (len : Nat) (a : AreaH) (size : Nat) : Dev := (((sOn (lo 0x51 len 0)).setTrack 1 {(default:TrackH) with segs := [sg .declared 4]}).setArea 2 a).wr Ri.RA_SIZE_SIZE 0 size 2
def prof (fl : Nat) : List Nat := [0x52, fl, 3, 1] ++ leBytes 4 (if fl = 1 then 26888 else 0) ++ [0,0xFF,0xFF,0xFF] ++ zeros 52 ++ (if fl = 1 then (List.range 8).flatMap (fun _ => zeros 32 ++ leBytes 2 32768 ++ zeros 16 ++ leBytes 2 32768 ++ zeros 28) ++ zeros 26244 ++ zeros 4 else [])
def inkBlock : List Nat := zeros 32 ++ (leBytes 2 32768 ++ (zeros 16 ++ (leBytes 2 32768 ++ zeros 28)))
def profHead : List Nat := [0x52, 1, 3, 1, 8, 105, 0, 0, 0, 0xFF, 0xFF, 0xFF] ++ (zeros 52 ++ (inkBlock ++ (inkBlock ++ (inkBlock ++ (inkBlock ++ (inkBlock ++ (inkBlock ++ (inkBlock ++ inkBlock))))))))
def profRec : List Nat := profHead ++ zeros 26248
def cm (port n : Nat) : List Nat := [0x53,1,port,0] ++ leBytes 4 (4*n) ++ leBytes 4 7 ++ leBytes 4 n ++ zeros (4*n)
def cl (n : Nat) : List Nat := [0x54,1,0,0] ++ leBytes 4 (8*n) ++ leBytes 4 7 ++ leBytes 4 n ++ zeros (8*n)
def w0 : State := st (up2.setQueue 325 {(default:QueueH) with wr := 7, rel := 3})
def w2 : State := st (lo 0x50 256 0)
def w4 : State := st ((lo 0x50 256 0).wr (Hdr.EN 0x0E) 0 0)
def w5 : State := {st (sOn (lo 0x50 256 0)) with mem := sm}
def w6 : State := {st (sOn (full (lo 0x50 256 128))) with mem := sm}
def w7 : State := st (tl 20000 default 100)
def w8 : State := st (tl 20000 {(default:AreaH) with tiles := [⟨9,2,0,0,0,409600-1000⟩]} 100)
def w9 : State := st (lo 0x52 64 0)
def w10 : State := st (lo 0x52 26952 0)
def w11 : State := st (lo 0x53 20 0)
def w12 : State := st ((lo 0x53 20 0).wr Claims.ACT_VALID 0 1 2 |>.wr Claims.ACT_PORTS 0 2 2)
def w13 : State := st (lo 0x54 24 0)
def w14 : State := st ((((lo 0x54 24 0).setClaim .range 6 {(default:Claim) with held := true, hCls := 0x13, hInst := 6}).wr Claims.CLR_LEN 2 20 6))

theorem profHead_length : profHead.length = 704 := by decide +kernel

theorem byteAt_tail (i : Nat) (h : 704 ≤ i) : byteAt profRec i = 0 := by
  unfold byteAt profRec zeros
  rw [List.getD_eq_getElem?_getD, List.getElem?_append_right (by rw [profHead_length]; exact h), List.getElem?_replicate]
  split <;> rfl

theorem getD_arr (i : Nat) : profRec.toArray.getD i 0 = profRec.getD i 0 := by
  simp [Array.getD_eq_getD_getElem?, List.getD_eq_getElem?_getD]

theorem ink_drop (k j : Nat) : profRec.getD (64 + (80 * k + j)) 0 = (profRec.drop (64 + 80 * k)).getD j 0 := by
  rw [List.getD_eq_getElem?_getD, List.getD_eq_getElem?_getD, List.getElem?_drop, Nat.add_assoc]

theorem profRec_ok : profOk profRec.toArray = true := by
  unfold profOk half profChan profDom
  simp only [getD_arr, Nat.add_assoc, ink_drop]
  decide +kernel

theorem profRec_blank : blank profRec 26948 4 = true := by
  unfold blank profRec zeros
  rw [List.drop_append, List.drop_eq_nil_of_le (by rw [profHead_length]; omega)]
  rw [List.nil_append, profHead_length, List.drop_replicate, List.take_replicate, List.all_replicate]
  rfl

theorem profRec_fields : profFields profRec = true := by
  unfold profFields
  rw [profRec_blank]
  have h : (List.range 6561).all (fun n => decide (byteAt profRec (704 + 4 * n + 3) < 64)) = true := by
    rw [List.all_eq_true]; intro n _; rw [byteAt_tail _ (by omega)]; rfl
  rw [h]
  decide +kernel

theorem wit_IntakeLoads :
    (w0.dev.takes 0xFE (qPage (320 + 5)).1 (qPage (320 + 5)).2 = true ∧ (pdiff (6) (w0.dev.queue (320 + 5)).rel < pdiff (w0.dev.queue (320 + 5)).wr (w0.dev.queue (320 + 5)).rel ∨ w0.dev.qSize (320 + 5) < pdiff (6) (w0.dev.queue (320 + 5)).rel)) ∧
    (w0.dev.takes 0xFE (qPage (320 + 5)).1 (qPage (320 + 5)).2 = true ∧ pdiff (w0.dev.queue (320 + 5)).wr (w0.dev.queue (320 + 5)).rel ≤ pdiff (9) (w0.dev.queue (320 + 5)).rel ∧ pdiff (9) (w0.dev.queue (320 + 5)).rel ≤ w0.dev.qSize (320 + 5) ∧ w0.dev.qCtx (320 + 5) = (w0.dev, true)) ∧
    (w0.dev.headLoad 5 80 128 = none) ∧
    (w0.dev.headLoad 5 81 (64 + le default 4 4) = none) ∧
    (w0.dev.headLoad 5 82 (64 + le default 4 4) = none) ∧
    (w0.dev.headLoad 5 83 (16 + le default 4 4) = none) ∧
    (w0.dev.headLoad 5 84 (16 + le default 4 4) = none) ∧
    ((w4.dev.headLoad 5 80 128).isSome = true ∧ w4.dev.enabled 14 0 = false) ∧
    ((w2.dev.headLoad 5 80 128).any (fun v1 => decide (w2.dev.riStage = (w2.dev, 0) ∧ v1.consumed + 128 ≤ v1.len ∧ Dev.segStatus w2.mem w2.dev 5 (List.take 128 [0]) ≠ 0)) = true) ∧
    ((w6.dev.headLoad 5 80 128).any (fun v1 => decide (w6.dev.riStage = (w6.dev, 0) ∧ v1.consumed + 128 ≤ v1.len ∧ Dev.segStatus w6.mem w6.dev 5 (List.take 128 (seg 5)) = 0 ∧ 64 ≤ (List.filter (fun y => y.st.holds) (w6.dev.track (byteAt (List.take 128 (seg 5)) 2)).segs).length)) = true) ∧
    ((w5.dev.headLoad 5 80 128).any (fun v1 => decide (w5.dev.riStage = (w5.dev, 0) ∧ v1.consumed + 128 ≤ v1.len ∧ Dev.segStatus w5.mem w5.dev 5 (List.take 128 (seg 5)) = 0 ∧ (List.filter (fun y => y.st.holds) (w5.dev.track (byteAt (List.take 128 (seg 5)) 2)).segs).length < 64)) = true) ∧
    ((w7.dev.headLoad 5 81 (64 + le (tile 9 0 8192) 4 4)).any (fun v1 => decide (w7.dev.riStage = (w7.dev, 0) ∧ v1.consumed + (64 + le (tile 9 0 8192) 4 4) ≤ v1.len ∧ w7.dev.tileStatus 5 (tile 9 0 8192) ≠ 0 ∧ w7.dev.tileStatus 5 (tile 9 0 8192) ≠ 25)) = true) ∧
    ((w7.dev.headLoad 5 81 (64 + le (tile 4 128 100) 4 4)).any (fun v1 => decide (w7.dev.riStage = (w7.dev, 0) ∧ v1.consumed + (64 + le (tile 4 128 100) 4 4) ≤ v1.len ∧ w7.dev.tileStatus 5 (tile 4 128 100) = 25)) = true) ∧
    ((w7.dev.headLoad 5 81 (64 + le (tile 4 0 8192) 4 4)).any (fun v1 => decide (w7.dev.riStage = (w7.dev, 0) ∧ v1.consumed + (64 + le (tile 4 0 8192) 4 4) ≤ v1.len ∧ w7.dev.tileStatus 5 (tile 4 0 8192) = 0 ∧ (maskPorts (tileMask (tile 4 0 8192))).head?.any (fun v2 => decide ((w7.dev.areaOf v2).any (fun v3 => decide ((w7.dev.liveSeg v2 (tileNum (tile 4 0 8192))).isSome = true ∧ (w7.dev.area v3).used + cdiv (64 + le (tile 4 0 8192) 4 4) 256 * 256 ≤ w7.dev.areaBytes v3)) = true)) = true)) = true) ∧
    ((w8.dev.headLoad 5 81 (64 + le (tile 4 0 8192) 4 4)).any (fun v1 => decide (w8.dev.riStage = (w8.dev, 0) ∧ v1.consumed + (64 + le (tile 4 0 8192) 4 4) ≤ v1.len ∧ w8.dev.tileStatus 5 (tile 4 0 8192) = 0 ∧ (maskPorts (tileMask (tile 4 0 8192))).head?.any (fun v2 => decide ((w8.dev.areaOf v2).any (fun v3 => decide ((w8.dev.liveSeg v2 (tileNum (tile 4 0 8192))).isSome = true ∧ w8.dev.areaBytes v3 < (w8.dev.area v3).used + cdiv (64 + le (tile 4 0 8192) 4 4) 256 * 256 ∧ ((w8.dev.area v3).tiles.all fun t => t.seg == tileNum (tile 4 0 8192) && t.mask == tileMask (tile 4 0 8192)) = false)) = true)) = true)) = true) ∧
    ((w9.dev.headLoad 5 82 (64 + le ([82, 0, 70] ++ zeros 61) 4 4)).any (fun v1 => decide (w9.dev.riStage = (w9.dev, 0) ∧ v1.len = 64 + le ([82, 0, 70] ++ zeros 61) 4 4 ∧ w9.dev.profStatus 5 ([82, 0, 70] ++ zeros 61) ≠ 0)) = true) ∧
    ((w10.dev.headLoad 5 82 (64 + le profRec 4 4)).any (fun v1 => decide (w10.dev.riStage = (w10.dev, 0) ∧ v1.len = 64 + le profRec 4 4 ∧ (byteAt profRec 1).testBit 0 = true)) = true) ∧
    ((w9.dev.headLoad 5 82 (64 + le (prof 0) 4 4)).any (fun v1 => decide (w9.dev.riStage = (w9.dev, 0) ∧ v1.len = 64 + le (prof 0) 4 4 ∧ w9.dev.profStatus 5 (prof 0) = 0 ∧ (byteAt (prof 0) 1).testBit 0 = false)) = true) ∧
    ((w12.dev.headLoad 5 83 (16 + le (cm 1 1) 4 4)).any (fun v1 => decide (w12.dev.riStage = (w12.dev, 0) ∧ byteAt (cm 1 1) 0 = 83 ∧ byteAt (cm 1 1) 1 = 1 ∧ byteAt (cm 1 1) 2 < 16 ∧ byteAt (cm 1 1) 3 = 0 ∧ le (cm 1 1) 12 4 ≠ 0 ∧ le (cm 1 1) 8 4 + le (cm 1 1) 12 4 ≤ 32768 ∧ le (cm 1 1) 4 4 = 4 * le (cm 1 1) 12 4 ∧ v1.len = 16 + le (cm 1 1) 4 4 ∧ w12.dev.resPart Claims.ACT_PORTS (byteAt (cm 1 1) 2) ≠ w12.dev.loadPart 5)) = true) ∧
    ((w11.dev.headLoad 5 83 (16 + le (cm 1 1) 4 4)).any (fun v1 => decide (w11.dev.riStage = (w11.dev, 0) ∧ byteAt (cm 1 1) 0 = 83 ∧ byteAt (cm 1 1) 1 = 1 ∧ byteAt (cm 1 1) 2 < 16 ∧ byteAt (cm 1 1) 3 = 0 ∧ le (cm 1 1) 12 4 ≠ 0 ∧ le (cm 1 1) 8 4 + le (cm 1 1) 12 4 ≤ 32768 ∧ le (cm 1 1) 4 4 = 4 * le (cm 1 1) 12 4 ∧ v1.len = 16 + le (cm 1 1) 4 4 ∧ w11.dev.resPart Claims.ACT_PORTS (byteAt (cm 1 1) 2) = w11.dev.loadPart 5 ∧ le (cm 1 1) 12 4 = 1)) = true) ∧
    ((w13.dev.headLoad 5 84 (16 + le (0 :: cl 1) 4 4)).isSome = true ∧ (byteAt (0 :: cl 1) 0 ≠ 84 ∨ byteAt (0 :: cl 1) 1 % 2 = 0)) ∧
    ((w14.dev.headLoad 5 84 (16 + le (cl 1) 4 4)).any (fun v1 => decide (byteAt (cl 1) 0 = 84 ∧ byteAt (cl 1) 1 = 1 ∧ le (cl 1) 2 2 = 0 ∧ le (cl 1) 12 4 = 1 ∧ le (cl 1) 8 4 < 131072 ∧ le (cl 1) 4 4 = 8 ∧ v1.len = 16 + le (cl 1) 4 4 ∧ (w14.dev.entryStream (w14.dev.loadPart 5) (le (cl 1) 8 4)).isSome = true)) = true) ∧
    ((w13.dev.headLoad 5 84 (16 + le (cl 1) 4 4)).any (fun v1 => decide (byteAt (cl 1) 0 = 84 ∧ byteAt (cl 1) 1 = 1 ∧ le (cl 1) 2 2 = 0 ∧ le (cl 1) 12 4 = 1 ∧ le (cl 1) 8 4 < 131072 ∧ le (cl 1) 4 4 = 8 ∧ v1.len = 16 + le (cl 1) 4 4 ∧ w13.dev.entryStream (w13.dev.loadPart 5) (le (cl 1) 8 4) = none)) = true) := by
  refine ⟨?_, ?_, ?_, ?_, ?_, ?_, ?_, ?_, ?_, ?_, ?_, ?_, ?_, ?_, ?_, ?_, ?_, ?_, ?_, ?_, ?_, ?_, ?_⟩ <;> decide +kernel

theorem wit_IntakeLoads_profile : w10.dev.profStatus 5 profRec = 0 := by
  have a : w10.dev.loadPart 5 = 0 := by decide +kernel
  have b : (w10.dev.rd Ri.PROF_BUSY 0).testBit 3 = false := by decide +kernel
  have e : byteAt profRec 2 = 3 := by decide +kernel
  unfold Dev.profStatus
  rw [profRec_fields, profRec_ok, a, e, b]
  decide
def w8s : State := st (tl 20000 {(default:AreaH) with loading := some (4, 2), tiles := [⟨4,2,1,1,0,409600-1000⟩]} 100)
theorem wit_IntakeLoads_more :
    ((w8s.dev.headLoad 5 81 (64 + le (tile 4 0 8192) 4 4)).any (fun v1 => decide (w8s.dev.riStage = (w8s.dev, 0) ∧ v1.consumed + (64 + le (tile 4 0 8192) 4 4) ≤ v1.len ∧ w8s.dev.tileStatus 5 (tile 4 0 8192) = 0 ∧ (maskPorts (tileMask (tile 4 0 8192))).head? = some 1 ∧ w8s.dev.areaOf 1 = some 2 ∧ (w8s.dev.liveSeg 1 (tileNum (tile 4 0 8192))).isSome = true ∧ w8s.dev.areaBytes 2 < (w8s.dev.area 2).used + cdiv (64 + le (tile 4 0 8192) 4 4) 256 * 256 ∧ ((w8s.dev.area 2).tiles.all fun t => t.seg == tileNum (tile 4 0 8192) && t.mask == tileMask (tile 4 0 8192)) = true)) = true) ∧
    ((w13.dev.headLoad 5 84 (16 + le [84, 3] 4 4)).isSome = true ∧ byteAt [84, 3] 0 = 84 ∧ byteAt [84, 3] 1 % 2 = 1 ∧ byteAt [84, 3] 1 ≠ 1) ∧
    ((w13.dev.headLoad 5 84 (16 + le (cl 1) 4 4)).any (fun v1 => decide (le (cl 1) 12 4 ≠ 0 ∧ le (cl 1) 8 4 + le (cl 1) 12 4 ≤ 131072 ∧ le (cl 1) 4 4 = 8 * le (cl 1) 12 4 ∧ v1.len = 16 + le (cl 1) 4 4)) = true) ∧
    ((w13.dev.headLoad 5 84 (16 + le ([84, 1, 0, 0] ++ leBytes 4 8 ++ leBytes 4 131072 ++ leBytes 4 1 ++ zeros 8) 4 4)).isSome = true ∧ 131072 < le ([84, 1, 0, 0] ++ leBytes 4 8 ++ leBytes 4 131072 ++ leBytes 4 1 ++ zeros 8) 8 4 + le ([84, 1, 0, 0] ++ leBytes 4 8 ++ leBytes 4 131072 ++ leBytes 4 1 ++ zeros 8) 12 4) := by
  refine ⟨?_, ?_, ?_, ?_⟩ <;> decide +kernel

end Loads

/-! Segments and verdicts. -/

namespace Segments

def q1 : Dev := ((((up.wr (Hdr.EN 0x10) 2 1).wr Pos.ENC_CFG_MODE 2 1).wr (Hdr.EN 0x0C) 1 1).wr (Hdr.EN 0x0D) 1 1).wr Lcu.SCR_CFG_SCR_CH 1 2
def sgd (fl num : Nat) : List Nat := [0x50,fl,1,2] ++ leBytes 4 num ++ zeros 36 ++ leBytes 4 256 ++ leBytes 4 256 ++ [1,1,3,0] ++ zeros 8 ++ leBytes 4 (2^24) ++ zeros 8 ++ leBytes 4 (2^24) ++ zeros 48
def sg (st : SegState) (num : Nat) : Seg := {(default:Seg) with num := num, desc := sgd 1 num, st := st, s := 0, e := 256*500, fixed := true, rows := 10}
def tr (d : Dev) (xs : List Seg) : Dev := d.setTrack 1 {(default:TrackH) with segs := xs}
def qn : Dev := (q1.wr Ri.PROF_VALID 0 8)
def g0 : EngSeg := {(default:EngSeg) with cfg := {(default:EngCfg) with keyRows := 10, niMax := 5}, start := [2^24,0,0,2^24,0,0], terms := [2^24,0,0,2^24,0,0]}
def es (g : EngSeg) (ts : List (Nat × Nat × Nat)) : Seg := {sg .opened 4 with wasOpen := true, engine := some 1, eng := some g, tiles := ts}
def wd (g : EngSeg) (ts : List (Nat × Nat × Nat)) : Dev := (tr q1 [es g ts]).wr Lcu.LCU_WIDTH_WIDTH 1 256
def fid : Nat × Nat := (1, 100 + 5 * 2^32)
def ar (d : Dev) : Dev := ((((d.wr Ri.RA_SEL_SEL_EN 0 1 1).wr Ri.RA_SEL_AREA 0 2 1).wr Ri.RA_SIZE_SIZE 0 100 2).setArea 2 {(default:AreaH) with tiles := [⟨4,2,0,0,0,8448⟩]})
def clo (g : EngSeg) : Seg := {es g [] with st := .closing, produced := true, endAt := some 0}
def w0 : State := st q1
def w1 : State := st (tr q1 [sg .declared 4])
def w2 : State := st (tr (q1.wr (Hdr.EN 0x0D) 1 0) [sg .declared 4])
def w3 : State := st (tr (q1.wr (Hdr.EN 0x0D) 1 0) [{sg .declared 4 with e := 0}])
def w4 : State := st (tr q1 [{sg .declared 4 with e := 0}])
def w5 : State := st (tr q1 [{sg .declared 4 with e := 0}, {sg .opened 3 with wasOpen := true}])
def w6 : State := st (tr qn [sg .declared 4])
def w9 : State := st (wd g0 [])
def w10 : State := st (wd g0 [(0,0,0)])
def w11 : State := st (wd {g0 with keyed := true} [(0,0,0)])
def w12 : State := st (wd {g0 with fids := [fid]} [(0,0,0)])
def w14 : State := {st (ar (wd {g0 with fids := [fid]} [(0,0,0)])) with mem := {cells := [], poison := [(0, true)]}}
def w15 : State := st (ar (wd {g0 with keyed := true} [(0,0,0)]))
def w16 : State := st (tr q1 [clo {g0 with keyed := true, rowsJudged := 1}])
def w17 : State := st (tr {q1 with clk := ⟨50,0,0⟩} [clo g0])
def w18 : State := st (tr {q1 with clk := ⟨50,0,0⟩} [{clo g0 with wasOpen := false}])
def w20 : State := st (tr {q1 with clk := ⟨50,0,0⟩} [{es {g0 with cfg := {g0.cfg with stall := 3}} [] with openAt := 0}])
def w21 : Seg := {es g0 [] with desc := patch (sgd 1 4) 55 [0]}
def w22 : Seg := {es {g0 with niRows := 6} [] with desc := patch (sgd 1 4) 55 [0]}
def w23 : Seg := {es {g0 with patches := [{(default:PatchH) with lost := true}]} [] with desc := patch (sgd 1 4) 55 [8]}
def w24 : Seg := {es g0 [] with desc := patch (sgd 1 4) 55 [4]}
def w25 : State := st (tr {q1 with clk := ⟨50,0,0⟩} [clo {g0 with keyed := true, rowsJudged := 1}])
def opn (d : Dev) (p : Nat) (x : Seg) : Dev := d.modSeg p x.num (fun z => { z with wasOpen := true, openEpoch := d.posEpoch x.ch, openAt := d.nowL, gS := z.s, gE := z.e, rows := (d.gridBad p x).2 })
def stays (d : Dev) (p : Nat) (x : Seg) : Bool := (d.track p).segs.any (fun x => x.running && x.wasOpen && !x.produced) || !d.lcuRuns p || !x.fixed || (x.timed && !x.started)
def fstD (d : Dev) (p : Nat) : Option Seg := (d.track p).segs.find? (fun x => x.st == .declared)
def stt (m : FrameStore) (d : Dev) (p : Nat) (x : Seg) : Option Nat := ((opn d p x).serveOf p).bind (fun e => ((opn d p x).engStart m e p x (d.gridBad p x).2).2.2)
def endF (d : Dev) (x : Seg) : Bool := (x.st == .opened || (x.st == .declared && x.fixed && !x.timed)) && d.segReached x x.e
theorem wit_SegmentOpensAndEnds :
    (fstD w0.dev 1 = none) ∧
    ((fstD w5.dev 1).any (fun x => stays w5.dev 1 x) = true) ∧
    ((fstD w2.dev 1).any (fun x => !stays w2.dev 1 x && ((opn w2.dev 1 x).serveOf 1).isNone) = true) ∧
    ((fstD w4.dev 1).any (fun x => !stays w4.dev 1 x && ((opn w4.dev 1 x).serveOf 1).isSome && (w4.dev.gridBad 1 x).1) = true) ∧
    ((fstD w1.dev 1).any (fun x => !stays w1.dev 1 x && ((opn w1.dev 1 x).serveOf 1).isSome && (stt w1.mem w1.dev 1 x).isSome) = true) ∧
    ((fstD w6.dev 1).any (fun x => !stays w6.dev 1 x && !(w6.dev.gridBad 1 x).1 && ((opn w6.dev 1 x).serveOf 1).isSome && (stt w6.mem w6.dev 1 x).isNone) = true) ∧
    (List.find? (endF w0.dev) (w0.dev.track 1).segs = none) ∧
    ((List.find? (endF w3.dev) (w3.dev.track 1).segs).isSome = true) := by
  refine ⟨?_, ?_, ?_, ?_, ?_, ?_, ?_, ?_⟩ <;> decide +kernel

def w12w : State := st (wd {g0 with fids := [fid], waitRef := true} [(0,0,0)])
def rowsK (g : EngSeg) (x : Seg) : Nat := cdiv (min g.cfg.keyRows x.rows) 256
def tilesK (g : EngSeg) (x : Seg) : List (Nat × Nat × Nat) := x.tiles.filter (fun t => decide (t.1 < rowsK g x))
def keyReady (s : State) : Bool := (s.dev.atWork 1).any (fun v => let g := s.dev.begun 1 v.2.1 v.2.2
  !g.keyed && decide (rowsK g v.2.1 * s.dev.lcuCols 1 ≤ (tilesK g v.2.1).length) && !(s.dev.lcu 1).asks.any (fun a => a.1 == some v.2.1.num) && s.dev.engineOk v.1)
def keyRefs (s : State) : Bool := (s.dev.atWork 1).any (fun v => let g := s.dev.begun 1 v.2.1 v.2.2
  s.dev.refReady 1 v.2.1 (refNeed v.2.1 g))
def keyRead (s : State) : Bool := (s.dev.atWork 1).any (fun v => let g := s.dev.begun 1 v.2.1 v.2.2
  (((tilesK g v.2.1).foldl (fun (a : Dev × List TileImg) t => ((a.1.tileRead s.mem 1 t.1 t.2.1 t.2.2).1, a.2 ++ [(a.1.tileRead s.mem 1 t.1 t.2.1 t.2.2).2])) (s.dev, [])).1.refRead s.mem 1 v.2.1 g.prof (refNeed v.2.1 g)).2.1)
def cmpReady (d : Dev) : Bool := (d.workOf 1).any (fun v => let g := d.begun v.1 v.2.1 v.2.2
  !v.2.1.tiles.isEmpty && g.keyed && d.engineOk 1)
def cmpRefs (d : Dev) : Bool := (d.workOf 1).any (fun v => d.refReady v.1 v.2.1 (refNeed v.2.1 (d.begun v.1 v.2.1 v.2.2)))
theorem wit_EngineWork :
    (w0.dev.atWork 1 = none) ∧
    ((w9.dev.atWork 1).isSome = true ∧ keyReady w9 = false) ∧
    (keyReady w12 = true ∧ keyRefs w12 = false) ∧
    (keyReady w14 = true ∧ keyRefs w14 = true ∧ keyRead w14 = false) ∧
    (keyReady w10 = true ∧ keyRefs w10 = true ∧ keyRead w10 = true ∧ (w10.dev.atWork 1).any (fun v => (w10.dev.begun 1 v.2.1 v.2.2).cfg.reread == 0) = true) ∧
    (((w12w.dev.atWork 1).any fun v => (w12w.dev.begun 1 v.2.1 v.2.2).waitRef) = true ∧ ((w12.dev.atWork 1).any fun v => (w12.dev.begun 1 v.2.1 v.2.2).waitRef) = false) ∧
    (w0.dev.workOf 1 = none) ∧
    ((w9.dev.workOf 1).any (fun v => v.2.1.tiles.isEmpty) = true) ∧
    ((w10.dev.workOf 1).any (fun v => !v.2.1.tiles.isEmpty && !(w10.dev.begun 1 v.2.1 v.2.2).keyed) = true) ∧
    (cmpReady w11.dev = true ∧ cmpRefs w11.dev = false) ∧
    (cmpReady w15.dev = true ∧ cmpRefs w15.dev = true ∧ w15.dev.lcuCols 1 ≤ 0 + 1) ∧
    (0 + 1 < (w15.dev.wr Lcu.LCU_WIDTH_WIDTH 1 257).lcuCols 1) := by
  refine ⟨?_, ?_, ?_, ?_, ?_, ?_, ?_, ?_, ?_, ?_, ?_, ?_⟩ <;> decide +kernel

def w19 : State := st (tr {q1 with clk := ⟨50,0,0⟩} [{clo {g0 with waitRef := true, fids := [fid]} with num := 4}])
def stallF (d : Dev) (x : Seg) : Bool := x.st == .opened && (x.eng.map (fun g => g.cfg.stall != 0 && decide (x.openAt + g.cfg.stall * 1000000 * nsL ≤ d.nowL))).getD false
def w26 : State := st (tr {q1 with clk := ⟨50,0,0⟩} [{clo {g0 with keyed := true, rowsJudged := 1} with st := .complete}])
theorem wit_SegmentVerdicts :
    (List.find? (fun x => x.done && x.st == SegState.closing) (w0.dev.track 1).segs = none) ∧
    ((List.find? (fun x => x.done && x.st == SegState.closing) (w16.dev.track 1).segs).isSome = true) ∧
    (List.find? w0.dev.pastDeadline (w0.dev.track 1).segs = none) ∧
    ((List.find? w26.dev.pastDeadline (w26.dev.track 1).segs).any (fun v1 => decide (v1.st ≠ .closing)) = true) ∧
    ((List.find? w25.dev.pastDeadline (w25.dev.track 1).segs).any (fun v1 => decide (v1.st = .closing ∧ v1.done = true)) = true) ∧
    ((List.find? w18.dev.pastDeadline (w18.dev.track 1).segs).any (fun v1 => decide (v1.st = .closing ∧ v1.done = false ∧ v1.wasOpen = false)) = true) ∧
    ((List.find? w17.dev.pastDeadline (w17.dev.track 1).segs).any (fun v1 => decide (v1.st = .closing ∧ v1.done = false ∧ v1.wasOpen = true ∧ (v1.eng.map (fun g => g.waitRef)).getD false = false)) = true) ∧
    ((List.find? w19.dev.pastDeadline (w19.dev.track 1).segs).any (fun v1 => decide (v1.st = .closing ∧ v1.done = false ∧ v1.wasOpen = true ∧ (v1.eng.map (fun g => g.waitRef && !w19.dev.refReady 1 v1 (refNeed v1 g))).getD false = true)) = true) ∧
    ((sg .declared 4).endAt = none ∧ (clo g0).endAt = some 0 ∧ 0 + (if le (clo g0).desc 40 4 = 0 then 250000 else le (clo g0).desc 40 4) * 1000 * nsL ≤ w17.dev.nowL) ∧
    (List.find? (stallF w0.dev) (w0.dev.track 1).segs = none) ∧
    ((List.find? (stallF w20.dev) (w20.dev.track 1).segs).isSome = true) ∧
    (w22.eng.any (fun v1 => decide (v1.cfg.niMax < v1.niRows)) = true) ∧
    (w23.eng.any (fun v1 => decide (v1.niRows ≤ v1.cfg.niMax ∧ w23.check 3 = true ∧ (v1.patches.any fun t => !t.measured (q1.lcuWidth 1) w23.rows) = true)) = true) ∧
    (w24.eng.any (fun v1 => decide (v1.niRows ≤ v1.cfg.niMax ∧ w24.check 3 = false ∧ w24.check 2 = true ∧ v1.kflags.testBit 4 = false)) = true) ∧
    (w21.eng.any (fun v1 => decide (v1.niRows ≤ v1.cfg.niMax ∧ w21.check 3 = false ∧ w21.check 2 = false)) = true) ∧
    (w21.check 0 = false ∧ w21.check 1 = false ∧ w21.check 2 = false ∧ w21.check 3 = false) := by
  refine ⟨?_, ?_, ?_, ?_, ?_, ?_, ?_, ?_, ?_, ?_, ?_, ?_, ?_, ?_, ?_, ?_⟩ <;> decide +kernel

end Segments

/-! Streaks, frame store, delivery. -/

namespace Stores

def ce : Dev := (((up.wr (Hdr.EN 0x0D) 1 1).wr (Hdr.EN 0x0D) 16 1))
def srv (e : Nat) : Dev := ((ce.wr Ce.SPARE_STAT_SERVING 16 1).wr Ce.SPARE_STAT_SERVED_ENGINE 16 e)
def hb : Dev := ((up.wr (Hdr.EN 0x18) 2 1).wr Hbm.STAT_READY 2 1).wr Hbm.ECC_CFG_SCRUB_EN 2 1
def di : DItem := {(default:DItem) with typ := 1, body := .bytes [1,2,3,4]}
def dq : Dev := ((((((up2.wr (Hdr.EN 0x1B) 1 1).wr (Hdr.EN 0x1A) 0 1).qwr 78 Dq.RING_CFG_Q_EN 1).setFn 0 {(default:FnCfg) with bme := true}).setDqh 14 {(default:DqH) with move := [di]}).setQueue 78 {(default:QueueH) with wr := 9, rd := 7, rel := 7})
def w0 : State := st ce
def w1 : State := st up
def w2 : State := st (srv 1)
def w4 : State := st (ce.wr Ce.STAT_FAILED 1 1)
def w5 : State := st (ce.setCe 1 {(default:CeH) with evalBank := some 1})
def w7 : State := st ((up.wr (Hdr.EN 0x18) 2 1).wr Hbm.STAT_READY 2 0)
def w8 : State := st hb
def w9 : State := st (hb.setHbmh 2 {(default:HbmH) with copying := some 7, errs := [(7,3),(9,1)]})
def w11 : State := st (hb.wr Hbm.STAT_SPARED 2 1)
def w12 : State := st (hb.wr Hbm.ECC_CFG_SPARE_AUTO 2 0)
def w13 : State := st dq
def w15 : State := st (dq.qwr 78 Q.Q_CFG_AUTO_RELEASE 0)
theorem wit_SpareAndStreaks :
    (w0.dev.takes 0xFE 13 16 = true) ∧
    (w4.dev.takes 0xFE 13 1 = true ∧ (w4.dev.flt 13 1 Ce.F_ENGINE_FAIL).is Ce.STAT_FAILED 1 = true) ∧
    (w1.dev.takes 0xFE 13 1 = true ∧ (w1.dev.flt 13 1 Ce.F_ENGINE_FAIL).is Ce.STAT_FAILED 1 = false ∧ ((w1.dev.flt 13 1 Ce.F_ENGINE_FAIL).wr Ce.STAT_FAILED 1 1).engineOk 16 = false) ∧
    (w0.dev.takes 0xFE 13 1 = true ∧ (w0.dev.flt 13 1 Ce.F_ENGINE_FAIL).is Ce.STAT_FAILED 1 = false ∧ ((w0.dev.flt 13 1 Ce.F_ENGINE_FAIL).wr Ce.STAT_FAILED 1 1).engineOk 16 = true ∧ (w0.dev.flt 13 1 Ce.F_ENGINE_FAIL).is Ce.SPARE_STAT_SERVING 16 = false) ∧
    (w0.dev.is Ce.SPARE_STAT_SERVING 16 = false) ∧
    (w2.dev.takes 0xFE 13 16 = true ∧ w2.dev.is Ce.SPARE_STAT_SERVING 16 = true ∧ (w2.dev.rd (Hdr.FLT 13) (w2.dev.rd Ce.SPARE_STAT_SERVED_ENGINE 16)).testBit Ce.F_ENGINE_FAIL = false ∧ (w2.dev.rd (Hdr.FLT 13) (w2.dev.rd Ce.SPARE_STAT_SERVED_ENGINE 16)).testBit Ce.F_HS_WDOG = false ∧ w2.dev.enabled 13 (w2.dev.rd Ce.SPARE_STAT_SERVED_ENGINE 16) = true) ∧
    (w0.dev.takes 0xFE 15 16 = true) ∧
    ((w0.dev.ce 16).evalBank = none) ∧
    ((w5.dev.ce 1).evalBank = some 1) := by
  refine ⟨?_, ?_, ?_, ?_, ?_, ?_, ?_, ?_, ?_⟩ <;> decide +kernel

def hfix (d : Dev) : Dev := (d.wr Hbm.SCRUB_STAT_PROGRESS 2 ((25769803776 * 2 + 640) % stackBytes * 100 / stackBytes)).hbmFix ((25769803776 * 2 + 640) / 8 * 8) 8
theorem wit_Stacks :
    (w7.dev.enabled 24 2 = true ∧ w7.dev.silent 24 2 = false ∧ w7.dev.is Hbm.STAT_READY 2 = false ∧ w7.dev.armed 24 2 Hbm.F_LINK_ERR = false) ∧
    ((w7.dev.wr (Hdr.FLT_INJ 24) 2 (2 ^ Hbm.F_LINK_ERR)).armed 24 2 Hbm.F_LINK_ERR = true) ∧
    (w1.dev.enabled 24 2 = false) ∧
    (w1.dev.hbmRuns 2 = false) ∧
    (w8.dev.hbmRuns 2 = true ∧ w8.dev.is Hbm.ECC_CFG_SCRUB_EN 2 = true) ∧
    (w9.dev.takes 0xFE 24 2 = true ∧ (w9.dev.hbmh 2).copying = some 7) ∧
    (w11.dev.is Hbm.STAT_SPARED 2 = true ∧ (w11.dev.hbmh 2).copying = none) ∧
    (w1.dev.is Hbm.STAT_SPARED 2 = false ∧ (w1.dev.hbmh 2).copying = none) ∧
    (w1.dev.rd Hbm.HBM_TEMP_TEMP 2 < 95 ∧ 95 ≤ 95 ∧ 95 < 2 ^ Hbm.HBM_TEMP_TEMP.w) ∧
    (stackOf (25769803776 * 2 + 640) = 2 ∧ (w1.dev.hbmRuns 2 = false ∨ w1.dev.is Hbm.ECC_CFG_SCRUB_EN 2 = false)) ∧
    (4 ≤ stackOf (25769803776 * 4)) ∧
    (stackOf (25769803776 * 2 + 640) = 2 ∧ w8.dev.hbmRuns 2 = true ∧ w8.dev.is Hbm.ECC_CFG_SCRUB_EN 2 = true ∧ mget w8.mem.poison ((25769803776 * 2 + 640) / 8) false = false) ∧
    (mget ({cells := [], poison := [((25769803776 * 2 + 640) / 8, true)]} : FrameStore).poison ((25769803776 * 2 + 640) / 8) false = true) ∧
    (w12.dev.hbmRuns 2 = true ∧ w12.dev.is Hbm.ECC_CFG_SCRUB_EN 2 = true ∧ mget w12.mem.poison ((25769803776 * 2 + 640) / 8) false = false ∧ (hfix w12.dev).is Hbm.ECC_CFG_SPARE_AUTO 2 = false) := by
  refine ⟨?_, ?_, ?_, ?_, ?_, ?_, ?_, ?_, ?_, ?_, ?_, ?_, ?_, ?_⟩ <;> decide +kernel

def rdAt (d : Dev) (v : Nat) : Dev := d.setQueue 78 { d.queue 78 with rd := v % 2 ^ 32, cut := false }
theorem wit_Delivery :
    (w1.dev.takes 0xFE (qPage (64 + 14)).1 (qPage (64 + 14)).2 = true ∧ pdiff (w1.dev.queue (64 + 14)).wr (w1.dev.queue (64 + 14)).rd < pdiff (8#32).toNat (w1.dev.queue (64 + 14)).rd) ∧
    (w15.dev.takes 0xFE (qPage (64 + 14)).1 (qPage (64 + 14)).2 = true ∧ pdiff (8#32).toNat (w15.dev.queue (64 + 14)).rd ≤ pdiff (w15.dev.queue (64 + 14)).wr (w15.dev.queue (64 + 14)).rd ∧ (rdAt w15.dev 8).qrd (64 + 14) Q.Q_CFG_AUTO_RELEASE ≠ 1) ∧
    (w13.dev.takes 0xFE (qPage (64 + 14)).1 (qPage (64 + 14)).2 = true ∧ pdiff (8#32).toNat (w13.dev.queue (64 + 14)).rd ≤ pdiff (w13.dev.queue (64 + 14)).wr (w13.dev.queue (64 + 14)).rd ∧ (rdAt w13.dev 8).qrd (64 + 14) Q.Q_CFG_AUTO_RELEASE = 1 ∧ (w13.dev.queue (64 + 14)).markValid = false) ∧
    ((w1.dev.dqh 14).move = []) ∧
    ((w13.dev.dqh 14).move = [di] ∧ w13.dev.deRuns = true ∧ w13.dev.qrd (64 + 14) Dq.RING_CFG_Q_EN = 1 ∧ w13.dev.mayIssue (w13.dev.qFn (64 + 14)) = true ∧ 9 = (w13.dev.queue (64 + 14)).wr % w13.dev.qSize (64 + 14) ∧ (w13.dev.qCtx (64 + 14)).2 = true ∧ descPosted (zeros 8 ++ leBytes 8 4096 ++ leBytes 4 65536 ++ zeros 12) = true) ∧
    ((w13.dev.qCtx (64 + 14)).2 = true ∧ descPosted (zeros 32) = false) ∧
    (((dq.wr (Hdr.FLT_INJ 0x1B) (qPage 78).2 (2 ^ Dq.F_CTX_DBE)).qCtx 78).2 = false ∧ (dq.wr (Hdr.FLT_INJ 0x1B) (qPage 78).2 (2 ^ Dq.F_CTX_DBE)).deRuns = true) := by
  refine ⟨?_, ?_, ?_, ?_, ?_, ?_, ?_⟩ <;> decide +kernel

end Stores

/-! Messages, links, requests. -/

namespace Hosts

def lk : Dev := up2.setFn 16 {(default:FnCfg) with bme := true, msixEn := true}
def vc (x : Vec) : Dev := lk.setVec 16 3 x
def v0 : Vec := {(default:Vec) with addr := 4096, data := 77, risen := true}
def rq : HostReq := { (default : HostReq) with tag := 5, fn := 16, len := 100, got := 20, per := 7, due := 1000 }
def fcd : Dev := ((up.wr (Hdr.EN 0x0D) 1 1))
def sw : SramWord := ⟨0x0B, 0, Ingest.F_FIFO_SBE, Ingest.F_FIFO_DBE, 5⟩
def w0 : State := st up2
def w1 : State := st (vc v0)
def w4 : State := st (vc {v0 with masked := true})
def w5 : State := st ((vc {v0 with lastAt := some 0}).setTab 0x1E 16 0 3 100)
def w6 : State := st (up2.setLink 1 {(default:LinkH) with perst := true})
def w8 : State := st (up2.wr Link.LINK_STAT_DL_UP 1 0)
def w9 : State := st (up2.setLink 1 {(default:LinkH) with stale := [6]})
def w10 : State := st (up2.setLink 1 {(default:LinkH) with reqs := [rq], quar := [(5, 0)]})
def w11 : State := st (up2.setFn 16 {(default:FnCfg) with vfEn := true})
def w12 : State := st (up2.wr Wtt.WTT_CMD_BUSY 16 1)
def w13 : State := st ((up2.setTab 0x1D 16 1 3 (2^96)).wr Wtt.WTT_CMD_REFUSE 16 0)
def w16 : State := st (up2.setFn 16 {(default:FnCfg) with aspmL1 := true})
def w17 : State := st ((up2.setFn 16 {(default:FnCfg) with l0pEn := true}).wr Link.LINK_STAT_ACT_WIDTH 1 16 |>.wr Link.LINK_STAT_WIDTH 1 16 |>.wr Link.LINK_STAT_FLIT 1 1)
def w18 : State := st (((up2.setFn 16 {(default:FnCfg) with l0pEn := true}).wr Link.LINK_STAT_ACT_WIDTH 1 4).wr Link.LINK_STAT_WIDTH 1 16 |>.wr Link.LINK_STAT_FLIT 1 1)
def w19 : State := st up
def w20 : State := st ((up.wr AO.DEV_HEALTH_HEALTH 0 1).wr (Hdr.FLT 1) 0 0xFFFFFFFF)
def w21 : State := st (up.wr AO.DEV_HEALTH_HEALTH 0 1)
def w23 : State := st (up.wr AO.HEALTH_PINS_ALERT 0 1)
def w24 : State := st fcd
def w25 : State := st (fcd.wr Fc.FC_CFG_KA_EN 0 0)
def w27 : State := st ((fcd.wr Fc.FC_CFG_KA_EN 0 1).setCe 1 {(default:CeH) with kaSince := some 0})
def w28 : State := st ({fcd with clk := ⟨50,0,0⟩}.setCe 1 {(default:CeH) with kaSince := some 0})
def w30 : State := st (up.wr Nv.NV_STAT_PWR_OK 0 0)
def w32 : State := st (up.wr Fc.FC_CFG_SRAM_SCRUB_EN 0 0)
def w33 : State := st (up.setIslBit Isl.PWR 2 false)
def w10l : State := st { w10.dev with clk := ⟨50,0,0⟩ }
def onV (d : Dev) : Bool := d.linkExists 1 && decide (3 < fnVectors 16) && !d.silent 0x1E 16
def goV (d : Dev) : Bool := d.vecDue 16 3 || ((d.vec 16 3).pba && !d.intxMode 16)
def heldV (d : Dev) : Bool := (d.vec 16 3).masked || (d.fn 16).fnMask || !(d.fn 16).msixEn || !d.mayIssue 16
def trainsL (d : Dev) (sp w : Nat) : Bool := d.linkExists 1 && !(d.link 1).perst && d.boot.aoUp && !d.is Link.LINK_STAT_DL_UP 1 && decide (1 ≤ sp ∧ sp ≤ 6 ∧ 1 ≤ w ∧ w ≤ d.linkLanes 1) && d.rd Test.PLB_CFG_DEPTH 0 1 == 0
def w1x : State := st ((lk.setFn 16 {(default:FnCfg) with bme := true, msixEn := false}).setVec 16 3 v0)
def w8a : State := st (w8.dev.setLink 1 {(default:LinkH) with armed := true, waking := true})
theorem wit_MessagesAndLinkResets :
    (w0.dev.takes 0xFE 28 1 = true) ∧
    (w0.dev.is Link.LINK_STAT_DL_UP 1 = true ∧ w8.dev.is Link.LINK_STAT_DL_UP 1 = false) ∧
    (onV w0.dev = true ∧ goV w0.dev = false) ∧
    (onV w5.dev = true ∧ goV w5.dev = true ∧ w5.dev.vecGap 16 3 = false ∧ (w5.dev.vec 16 3).gapHeld = false) ∧
    (onV w5.dev = true ∧ goV (w5.dev.setVec 16 3 {v0 with lastAt := some 0, gapHeld := true}) = true ∧ (w5.dev.setVec 16 3 {v0 with lastAt := some 0, gapHeld := true}).vecGap 16 3 = false) ∧
    (onV w1x.dev = true ∧ goV w1x.dev = true ∧ w1x.dev.vecGap 16 3 = true ∧ w1x.dev.intxMode 16 = true) ∧
    (onV w4.dev = true ∧ goV w4.dev = true ∧ w4.dev.vecGap 16 3 = true ∧ w4.dev.intxMode 16 = false ∧ heldV w4.dev = true) ∧
    (onV w1.dev = true ∧ goV w1.dev = true ∧ w1.dev.vecGap 16 3 = true ∧ w1.dev.intxMode 16 = false ∧ heldV w1.dev = false) ∧
    (w6.dev.linkExists 1 = false ∨ (w6.dev.link 1).perst = true) ∧
    (w0.dev.linkExists 1 = true ∧ (w0.dev.link 1).perst = false ∧ w0.dev.boot.aoUp = true) ∧
    (w6.dev.linkExists 1 = true ∧ (w6.dev.link 1).perst = true) ∧
    (trainsL w0.dev 1 1 = false) ∧
    (trainsL w8.dev 1 1 = true ∧ trainsL w8.dev 6 (w8.dev.linkLanes 1) = true) ∧
    (trainsL w8a.dev 1 1 = true ∧ (w8a.dev.link 1).armed = true ∧ (w8a.dev.link 1).waking = true) ∧
    (w6.dev.fnAnswers 1 3 = false) ∧
    (w0.dev.fnAnswers 1 0 = true ∧ (w0.dev.link 1).perst = false) := by
  refine ⟨?_, ?_, ?_, ?_, ?_, ?_, ?_, ?_, ?_, ?_, ?_, ?_, ?_, ?_, ?_, ?_⟩ <;> decide +kernel

def w16c : State := st (up2.setFn 16 {(default:FnCfg) with aspmL1 := true, l11En := true})
def w16d : State := st (up2.setFn 16 {(default:FnCfg) with aspmL1 := true, l12En := true})
def w0i : Dev := up2.wr (Hdr.FLT_INJ 28) 1 (2 ^ Link.F_CFG_DBE)
def wre (d : Dev) (w : Nat) : Nat := ((d.wr Wtt.WTT_CMD_WINDOW 16 w).readTab 0x1D 16 Wtt.F_WTT_SBE Wtt.F_WTT_DBE 0x1D 16 1 w).wttRefuse 16 w (if d.tabErr 0x1D 16 1 w = 2 ∧ (d.tab 0x1D 16 1 w).testBit wttValid = true then d.tab 0x1D 16 1 w - 2 ^ wttValid else d.tab 0x1D 16 1 w)
theorem wit_RequestsAndLinkPower :
    (w8.dev.is Link.LINK_STAT_DL_UP 1 = false ∨ w8.dev.fnAnswers 1 0 = false) ∧
    (w0.dev.is Link.LINK_STAT_DL_UP 1 = true ∧ w0.dev.fnAnswers 1 0 = true) ∧
    (w12.dev.takes 0xFE 29 (16 * 1 + 0) = true ∧ w12.dev.is Wtt.WTT_CMD_BUSY (16 * 1 + 0) = true) ∧
    (w0.dev.takes 0xFE 29 (16 * 1 + 0) = true ∧ w0.dev.is Wtt.WTT_CMD_BUSY (16 * 1 + 0) = false) ∧
    (w16.dev.is Link.LINK_STAT_DL_UP 1 = true ∧ (w16.dev.fn (16 * 1)).aspmL1 = true ∧ (w16.dev.link 1).reqs = [] ∧ (w16.dev.link 1).inL1 = false ∧ (w16.dev.fn (16 * 1)).l12En = false ∧ (w16.dev.fn (16 * 1)).l11En = false) ∧
    (w16c.dev.is Link.LINK_STAT_DL_UP 1 = true ∧ (w16c.dev.fn (16 * 1)).aspmL1 = true ∧ (w16c.dev.link 1).reqs = [] ∧ (w16c.dev.link 1).inL1 = false ∧ (w16c.dev.fn (16 * 1)).l12En = false ∧ (w16c.dev.fn (16 * 1)).l11En = true) ∧
    (w16d.dev.is Link.LINK_STAT_DL_UP 1 = true ∧ (w16d.dev.fn (16 * 1)).aspmL1 = true ∧ (w16d.dev.link 1).reqs = [] ∧ (w16d.dev.link 1).inL1 = false ∧ (w16d.dev.fn (16 * 1)).l12En = true) ∧
    (w0.dev.is Link.LINK_STAT_DL_UP 1 = false ∨ (w0.dev.fn (16 * 1)).aspmL1 = false) ∧
    (w17.dev.l0pMay 1 = true ∧ 4 ≤ w17.dev.rd Link.LINK_STAT_ACT_WIDTH 1) ∧
    (w0.dev.rd Link.LINK_STAT_ACT_WIDTH 1 < 4) ∧
    (w18.dev.l0pMay 1 = true ∧ w18.dev.rd Link.LINK_STAT_ACT_WIDTH 1 < w18.dev.rd Link.LINK_STAT_WIDTH 1) ∧
    (w17.dev.rd Link.LINK_STAT_WIDTH 1 ≤ w17.dev.rd Link.LINK_STAT_ACT_WIDTH 1) ∧
    (w0.dev.l0pMay 1 = false) ∧
    (w0.dev.armed 28 1 Link.F_CFG_DBE = false ∧ w0i.armed 28 1 Link.F_CFG_DBE = true) ∧
    (7 % 4 = 3 ∧ 4 % 4 = 0 ∧ 3 < fnVectors 16 ∧ fnVectors 16 ≤ 5000 ∧ (w11.dev.fn 16).vfEn = true ∧ (w0.dev.fn 16).vfEn = false) ∧
    ((w0.dev.useBuf 28 1 Link.F_REPLAY_SBE Link.F_REPLAY_DBE).2 = false ∧ ((up2.wr (Hdr.FLT_INJ 28) 1 (2 ^ Link.F_REPLAY_DBE)).useBuf 28 1 Link.F_REPLAY_SBE Link.F_REPLAY_DBE).2 = true) ∧
    (w9.dev.reqOf 1 6 = none ∧ (w9.dev.link 1).stale.contains 6 = true) ∧
    (w0.dev.reqOf 1 5 = none ∧ (w0.dev.link 1).stale.contains 5 = false) ∧
    (w10.dev.reqOf 1 5 = some rq ∧ w10.dev.nowL < rq.due ∧ rq.got + 64 < rq.len ∧ rq.len ≤ rq.got + 80) ∧
    (w10l.dev.reqOf 1 5 = some rq ∧ rq.due ≤ w10l.dev.nowL) ∧
    (w13.dev.is Wtt.WTT_CMD_BUSY 16 = false ∧ wre w13.dev 3 ≠ 0) ∧
    (w0.dev.is Wtt.WTT_CMD_BUSY 16 = false ∧ wre w0.dev 3 = 0) := by
  refine ⟨?_, ?_, ?_, ?_, ?_, ?_, ?_, ?_, ?_, ?_, ?_, ?_, ?_, ?_, ?_, ?_, ?_, ?_, ?_, ?_, ?_, ?_⟩ <;> decide +kernel

def sumc (c n : Nat) : Dev := { up with firstCycle := { up.firstCycle with cls := c, cycle := n } }
def smbGood (d : Dev) (bs : List Nat) : Bool := d.boot.aoUp && (bs.length == 3 || (bs.length == 4 && bs.getD 3 0 == d.smbPec bs)) && le bs 0 3 % 4 == 0
theorem wit_HealthAndKnownAnswers :
    (w19.dev.takes 0xFE 1 0 = true ∧ w19.dev.firstCycle.cls = 0) ∧
    ((sumc 3 up.aoCycle).takes 0xFE 1 0 = true ∧ (sumc 3 up.aoCycle).firstCycle.cls ≠ 0 ∧ (sumc 3 up.aoCycle).firstCycle.cycle = (sumc 3 up.aoCycle).aoCycle) ∧
    ((sumc 3 (up.aoCycle + 1)).firstCycle.cycle ≠ (sumc 3 (up.aoCycle + 1)).aoCycle) ∧
    (w19.dev.takes 0xFE 0 0 = true ∧ w19.dev.rd AO.DEV_HEALTH_HEALTH 0 = 0) ∧
    (w20.dev.takes 0xFE 0 0 = true ∧ w20.dev.rd AO.DEV_HEALTH_HEALTH 0 ≠ 0 ∧ w20.dev.anyFlt 2 = true) ∧
    (w21.dev.takes 0xFE 0 0 = true ∧ w21.dev.rd AO.DEV_HEALTH_HEALTH 0 = 1 ∧ w21.dev.anyFlt 2 = false) ∧
    ((up.wr AO.DEV_HEALTH_HEALTH 0 2).takes 0xFE 0 0 = true ∧ 1 < (up.wr AO.DEV_HEALTH_HEALTH 0 2).rd AO.DEV_HEALTH_HEALTH 0 ∧ (up.wr AO.DEV_HEALTH_HEALTH 0 2).anyFlt 2 = false) ∧
    (w23.dev.boot.aoUp = true ∧ w23.dev.is AO.HEALTH_PINS_ALERT 0 = true) ∧
    (w19.dev.is AO.HEALTH_PINS_ALERT 0 = false) ∧
    (smbGood w19.dev [4, 1, 0] = true ∧ smbGood w19.dev [4, 1, 0, w19.dev.smbPec [4, 1, 0, 0]] = true) ∧
    (smbGood w19.dev [5, 1, 0] = false ∧ smbGood w19.dev [] = false) ∧
    (State.reset.dev.boot.aoUp = false ∧ w19.dev.boot.aoUp = true) ∧
    (w25.dev.is Fc.FC_CFG_KA_EN 0 = false ∧ w19.dev.kaMay 1 = false) ∧
    (w24.dev.is Fc.FC_CFG_KA_EN 0 = true ∧ w24.dev.enabled 13 1 = true ∧ w24.dev.silent 13 1 = false ∧ w24.dev.wedged (48 + 1) = false ∧ w24.dev.kaBad = false ∧ (w24.dev.ce 1).kaSince = none) ∧
    ((w19.dev.ce 0).kaSince = none) ∧
    ((w27.dev.ce 1).kaSince.isSome = true ∧ w27.dev.armed 1 0 Fc.F_KA_LCU = false ∧ w27.dev.armed 13 1 Ce.F_ENGINE_FAIL = false) ∧
    ((w27.dev.ce 1).kaSince.any (fun v1 => decide (w27.dev.nowL < v1 + 5000000 * nsL)) = true) ∧
    ((w28.dev.ce 1).kaSince.any (fun v1 => decide (v1 + 5000000 * nsL ≤ w28.dev.nowL)) = true) := by
  refine ⟨?_, ?_, ?_, ?_, ?_, ?_, ?_, ?_, ?_, ?_, ?_, ?_, ?_, ?_, ?_, ?_, ?_, ?_⟩ <;> decide +kernel

theorem wit_Monitors :
    (w19.dev.boot.aoUp = true ∧ w19.dev.is Nv.NV_STAT_PWR_OK 0 = true) ∧
    (w30.dev.boot.aoUp = true ∧ w30.dev.is Nv.NV_STAT_PWR_OK 0 = false) ∧
    (w19.dev.boot.aoUp = true ∧ 1 ≤ 1) ∧
    (w19.dev.boot.aoUp = true ∧ 8 ≤ 8) ∧
    (w19.dev.boot.aoUp = true ∧ -128 ≤ -128 ∧ -128 < w19.dev.rdI Fc.TEMP_CFG_TEMP_WARN 0 ∧ -128 < 110 ∧ -128 ≤ sInt 8 w19.dev.health.tempMax) ∧
    (w19.dev.boot.aoUp = true ∧ 110 ≤ 110 ∧ 110 ≤ 127) ∧
    (w19.dev.powered 4 = true) ∧
    (w19.dev.powered 2 = true) ∧
    (w33.dev.powered 2 = false) ∧
    (islandKnown 1 = true ∧ 1 ≠ 0 ∧ 1 ≠ 2 ∧ w19.dev.powered 1 = true) ∧
    (w19.dev.is Fc.FC_CFG_SRAM_SCRUB_EN 0 = true ∧ w19.dev.implemented sw.cls sw.inst = true ∧ canon sw.cls sw.inst = (sw.cls, sw.inst) ∧ (sramPairs sw.cls sw.inst).contains (sw.sbe, sw.dbe) = true ∧ w19.dev.silent sw.cls sw.inst = false ∧ w19.dev.wedged (islandOf sw.cls sw.inst) = false ∧ sw.index < 2 ^ 24 ∧ w19.dev.tabErr sw.cls sw.inst 254 sw.dbe = 0) ∧
    (w32.dev.is Fc.FC_CFG_SRAM_SCRUB_EN 0 = false) ∧
    (w32.dev.takes 0xFE 11 0 = true ∧ w32.dev.guaranteeOk = false ∧ w32.dev.rd (Hdr.FLT_INJ 11) 0 = 0) ∧
    (State.reset.dev.boot.aoUp = false) ∧
    (State.reset.dev.powered 4 = false) ∧
    (islandKnown 2 = true ∧ ((2:Nat) = 0 ∨ (2:Nat) = 2)) := by
  refine ⟨?_, ?_, ?_, ?_, ?_, ?_, ?_, ?_, ?_, ?_, ?_, ?_, ?_, ?_, ?_, ?_⟩ <;> decide +kernel

end Hosts

/-! Health, monitors, loops, self tests, NV store, faults. -/

namespace Selfs

def nvo (op w dat resp : Nat) : Dev := {up with nvOp := some ⟨op, w, dat, resp⟩}
def w0 : State := st up2
def w1 : State := st (up2.wr Port.LB_CTRL_MODE 3 1)
def w2 : State := st (up2.wr Test.STAT_QGEN_BUSY 0 1)
def w3 : State := st (up2.wr Test.HLB_CFG_START 0 1 3)
def w4 : State := st ((up2.setClaim .tout 6 {(default:Claim) with held := true, hCls := 0x1F}).setClaim .tout 7 {(default:Claim) with held := true, hCls := 0x1F})
def w6 : State := st up
def w8 : State := st ((up.wr Bist.BIST_SEL 0 2 1).wr (Hdr.EN 0x0C) 1 1)
def w9 : State := st (up.wr Bist.BIST_CMD_BUSY 0 1)
def w10 : State := st {up with bist := ⟨some (true, []), [], []⟩}
def w12 : State := st (up.wr Nv.NV_CMD_BUSY 0 1)
def w13 : State := st (nvo 1 5 0 0)
def w24 : Dev := up.wr (Hdr.FLT_DIS 0x0A) 1 0xFFFFFFFF
def w25 : Dev := (up.wr (Hdr.EVT 0x14) 0 5)
theorem wit_LoopsAndGenerators :
    (w1.dev.takes 0xFE 31 0 = true ∧ w1.dev.rd LbF.LB_CFG_DEPTH 0 3 = 0 ∧ w1.dev.rd LbF.LB_CFG_GEN_EN 0 3 = 0 ∧ w1.dev.rd LbF.LB_CFG_GEN_KIND 0 3 < 2 ∧ w1.dev.rd LbF.LB_CFG_GEN_FMT 0 3 < 4 ∧ 1 ≤ w1.dev.rd LbF.LB_CFG_GEN_LEN 0 3 ∧ w1.dev.rd LbF.LB_CFG_GEN_LEN 0 3 ≤ 8192 ∧ w1.dev.rd Port.LB_CTRL_MODE 3 = 1 ∧ 1 ≠ 0) ∧
    (w0.dev.takes 0xFE 31 0 = true ∧ w0.dev.rd LbF.LB_CFG_DEPTH 0 3 = 0 ∧ w0.dev.rd LbF.LB_CFG_GEN_EN 0 3 = 0 ∧ w0.dev.rd LbF.LB_CFG_GEN_KIND 0 3 < 2 ∧ w0.dev.rd LbF.LB_CFG_GEN_FMT 0 3 < 4 ∧ 1 ≤ w0.dev.rd LbF.LB_CFG_GEN_LEN 0 3 ∧ w0.dev.rd LbF.LB_CFG_GEN_LEN 0 3 ≤ 8192 ∧ w0.dev.rd Port.LB_CTRL_MODE 3 ≠ 1 ∧ w0.dev.enabled 10 3 = false) ∧
    (w0.dev.takes 0xFE 31 0 = true ∧ w0.dev.rd LbF.LB_CFG_DEPTH 0 3 = 0 ∧ w0.dev.rd LbF.LB_CFG_GEN_EN 0 3 = 0 ∧ w0.dev.rd LbF.LB_CFG_GEN_KIND 0 3 < 2 ∧ w0.dev.rd LbF.LB_CFG_GEN_FMT 0 3 < 4 ∧ 1 ≤ w0.dev.rd LbF.LB_CFG_GEN_LEN 0 3 ∧ w0.dev.rd LbF.LB_CFG_GEN_LEN 0 3 ≤ 8192 ∧ w0.dev.rd LbF.LB_CFG_GEN_KIND 0 3 = 0) ∧
    (w0.dev.takes 0xFE 31 0 = true ∧ (0 = 0 ∨ 0 = 3)) ∧
    (w0.dev.takes 0xFE 31 0 = true ∧ (1 = 1 ∨ 1 = 2)) ∧
    (w0.dev.takes 0xFE 31 0 = true ∧ 1 ≠ 0 ∧ 1 ≠ w0.dev.rd Test.PLB_CFG_DEPTH 0 2 ∧ (w0.dev.linkExists 2 = false ∨ 0xFE < 64 ∧ 0xFE / 16 = 2) ∧ w0.dev.rd Test.PLB_CFG_PATTERN 0 2 < 2 ∧ w0.dev.rd Test.PLB_CFG_RATE 0 2 < 8) ∧
    (w0.dev.takes 0xFE 31 0 = true ∧ w0.dev.rd Test.PLB_CFG_PATTERN 0 1 < 2 ∧ w0.dev.rd Test.PLB_CFG_RATE 0 1 < 8) ∧
    (w0.dev.takes 0xFE 31 0 = true ∧ w0.dev.is LbF.INJ_CFG_INJ_EN 0 (LoopUnit.flegar 3).num = false) ∧
    (w2.dev.takes 0xFE 31 0 = true ∧ 0 < 2 ^ 16 ∧ w2.dev.is Test.STAT_QGEN_BUSY 0 = true) ∧
    (w4.dev.takes 0xFE 31 0 = true ∧ 65535 < 2 ^ 16 ∧ w4.dev.is Test.STAT_QGEN_BUSY 0 = false ∧ w4.dev.holds Res.tout (2 * 3) 31 0 = true ∧ w4.dev.holds Res.tout (2 * 3 + 1) 31 0 = true) ∧
    (w0.dev.takes 0xFE 31 0 = true ∧ w0.dev.is Test.STAT_QGEN_BUSY 0 = false) ∧
    (w4.dev.takes 0xFE 31 0 = true ∧ w4.dev.is Test.HLB_CFG_START 0 3 = false ∧ w4.dev.hlbMay 3 0 65535 = false) ∧
    (w0.dev.takes 0xFE 31 0 = true ∧ w0.dev.is Test.HLB_CFG_START 0 3 = false ∧ w0.dev.hlbMay 3 1 0 = true) ∧
    (w3.dev.takes 0xFE 31 0 = true ∧ w3.dev.is Test.HLB_CFG_START 0 3 = true) ∧
    ((up2.wr Test.STAT_QGEN_BUSY 0 1).is Test.STAT_QGEN_BUSY 0 = true ∧ (up2.wr Test.STAT_QGEN_BUSY 0 1).qgenOver = true) ∧
    (w0.dev.is Test.STAT_QGEN_BUSY 0 = false ∨ w0.dev.qgenOver = false) ∧
    (w0.dev.is Test.HLB_CFG_START 0 3 = false) := by
  refine ⟨?_, ?_, ?_, ?_, ?_, ?_, ?_, ?_, ?_, ?_, ?_, ?_, ?_, ?_, ?_, ?_, ?_⟩ <;> decide +kernel

theorem wit_SelfTestsAndJtag :
    (w9.dev.takes 0xFE 32 0 = true ∧ w9.dev.is Bist.BIST_CMD_BUSY 0 = true) ∧
    (w8.dev.takes 0xFE 32 0 = true ∧ w8.dev.is Bist.BIST_CMD_BUSY 0 = false ∧ w8.dev.bistSel.all (w8.dev.bistMay true) = false ∧ w8.dev.bistSel.all (w8.dev.bistMay false) = false) ∧
    (w6.dev.takes 0xFE 32 0 = true ∧ w6.dev.is Bist.BIST_CMD_BUSY 0 = false ∧ w6.dev.bistSel.all (w6.dev.bistMay true) = true ∧ w6.dev.bistSel.all (w6.dev.bistMay false) = true) ∧
    (w6.dev.bist.run = none) ∧
    (w10.dev.bist.run = some (true, [])) ∧
    (State.reset.dev.boot.aoUp = false) ∧
    (w6.dev.boot.aoUp = true ∧ (2 ^ 32 * 64).testBit 63 = false) := by
  refine ⟨?_, ?_, ?_, ?_, ?_, ?_, ?_⟩ <;> decide +kernel

theorem wit_NvStore :
    (w12.dev.takes 0xFE 2 0 = true ∧ w12.dev.is Nv.NV_CMD_BUSY 0 = true) ∧
    (w6.dev.takes 0xFE 2 0 = true ∧ w6.dev.is Nv.NV_CMD_BUSY 0 = false) ∧
    (w6.dev.nvOp = none) ∧
    ((w13.dev.nvOp = some { op := 1, word := 5, data := 0, resp := 0 })) ∧
    (State.reset.dev.boot.aoUp = false) ∧
    (w6.dev.boot.aoUp = true ∧ w6.dev.reqLive 0xFE = true ∧ w6.dev.implemented (lanePage 5).1 (lanePage 5).2 = true ∧ w6.dev.readable 0xFE (lanePage 5).1 (lanePage 5).2 = true ∧ (isVf 0xFE = false ∨ w6.dev.vfReaches 0xFE (lanePage 5).1 (lanePage 5).2 false = true) ∧ w6.dev.answers (lanePage 5).1 (lanePage 5).2 = true) ∧
    ((nvo 2 0x250 0 0).nvOp = some ⟨2, 0x250, 0, 0⟩ ∧ (nvo 2 0x250 0 0).nvMay 0x250 = false) ∧
    ((nvo 2 5 0 0).nvMay 5 = true ∧ ((nvo 3 5 0 0).nvStore 0 (2 ^ 48)).nvGood 0 = true) ∧
    (((nvo 2 1024 0 0).wr Nv.NV_STAT_PWR_OK 0 0).is Nv.NV_STAT_PWR_OK 0 = false) ∧
    ((nvo 4 5 0 0).nvHold = false ∧ ({nvo 4 5 0 0 with nvHold := true} : Dev).nvHold = true) := by
  refine ⟨?_, ?_, ?_, ?_, ?_, ?_, ?_, ?_, ?_, ?_⟩ <;> decide +kernel

theorem wit_EventsAndFaults :
    ((w25.rd (Hdr.EVT 20) 0).testBit 0 = true) ∧
    (fltSeverity 20 0 0 = some 4 ∧ (up.rd (Hdr.FLT 20) 0).testBit 0 = false) ∧
    (up.worn = false ∧ ((up.rd (Hdr.FLT 20) 0).testBit 5 = true ∨ fltSeverity 20 0 5 = none)) ∧
    ((fltSeverity 10 1 31).any (fun v1 => decide ((w24.rd (Hdr.FLT 10) 1).testBit 31 = false ∧ w24.worn = false ∧ v1 ≠ 4 ∧ (w24.rd (Hdr.FLT_DIS 10) 1).testBit 31 = true)) = true) ∧
    ((fltSeverity 20 0 0).any (fun v1 => decide ((up.rd (Hdr.FLT 20) 0).testBit 0 = false ∧ (v1 = 4 ∨ (up.rd (Hdr.FLT_DIS 20) 0).testBit 0 = false) ∧ ((up.wr (Hdr.FLT 20) 0 (up.rd (Hdr.FLT 20) 0 ||| 2 ^ 0)).react (uncanon 20 0).1 (uncanon 20 0).2 0 v1).worn = false)) = true) := by
  refine ⟨?_, ?_, ?_, ?_, ?_⟩ <;> decide +kernel

end Selfs

/-! The block as a whole. -/

/-- A state in which one command waits. -/
def one (c : Instr) : State := { State.reset with pending := [c] }

theorem wit_StepCarriesOutFrontCommand : (one .trstN).pending = .trstN :: [] := rfl

theorem wit_IdleStepTicks : State.reset.pending = [] := rfl

theorem wit_OnlyStoringCommandsWrite : mayStore .trstN = false ∧ ∃ t, exec .trstN State.reset = .next t := ⟨rfl, _, rfl⟩

theorem wit_StepKeepsSound : State.reset.Inv ∧ ∃ t, step (one .trstN) = .next t := ⟨⟨by decide +kernel, by decide +kernel⟩, ⟨_, rfl⟩⟩

theorem wit_HealthAndKnownAnswers_digest (n : List (Nat × Nat)) : ∃ x, x ≠ Config.kaEngineDigest n :=
  ⟨Config.kaEngineDigest n + 1, by omega⟩

/-! ## Well-formed commands: each check refuses -/

theorem test_wf_pages : Instr.wf (.srst .jtag 64 0) = false ∧ Instr.wf (.en .jtag 0 64 true) = false ∧
    Instr.wf (.evtForce .jtag 64 0 0) = false ∧ Instr.wf (.srstComplete 0 64) = false ∧ Instr.wf (.freeze .jtag 64 0 true) = false ∧
    Instr.wf (.tableRead .jtag 64 0) = false ∧ Instr.wf (.tableWrite .jtag 0 64) = false ∧ Instr.wf (.tblOpDone 64 0) = false ∧
    Instr.wf (.clrCnt .jtag 64 0 none) = false ∧ Instr.wf (.fltInj .jtag 0 64 0) = false ∧
    Instr.wf (.acquire .jtag .tout 0 64 0) = false ∧ Instr.wf (.claimRelease .jtag .enc 0 0 64) = false := by decide

theorem test_wf_addresses : Instr.wf (.registerWrite .jtag (2 ^ 24) [0] true) = false ∧
    Instr.wf (.registerWrite .jtag 0 [] true) = false ∧ Instr.wf (.lowWordRead .jtag ⟨2, 1⟩) = false ∧ Instr.wf (.lowWordRead .jtag ⟨0, 0⟩) = false ∧
    Instr.wf (.lowWordWrite .jtag 4 0) = false ∧ Instr.wf (.highWordWrite .jtag 8 0) = false ∧
    Instr.wf (.timeGroupWrite .jtag 2 0) = false ∧ Instr.wf (.accTimeout .jtag (2 ^ 24) true) = false ∧
    Instr.wf (.windowWrite .jtag 0 [256] false) = false ∧ Instr.wf (.windowRead .jtag 0 4097) = false ∧
    Instr.wf (.acquire .jtag .enc 8 0x10 0) = false ∧ Instr.wf (.claimRelease .jtag .hbm 64 0x0C 0) = false := by decide +kernel

theorem test_wf_islands : Instr.wf (.hsWdog 192) = false ∧ Instr.wf (.islGate .jtag 192 true) = false ∧
    Instr.wf (.islPwr 192) = false ∧ Instr.wf (.islReset .jtag 192) = false ∧ Instr.wf (.islResetDone 192) = false ∧
    Instr.wf (.islClkLoss 192) = false ∧ Instr.wf (.bistDone [192] [] 0) = false ∧ Instr.wf (.bistDone [] [192] 0) = false := by
  decide

theorem test_wf_straps : Instr.wf (.pwrGoodRise ⟨4, false, false, 0, true, true, [], [], 0⟩) = false ∧
    Instr.wf (.refclkWaitExpiry ⟨0, false, false, 4, true, true, [], [], 0⟩) = false ∧
    Instr.wf (.pwrGoodRise ⟨0, false, false, 0, true, true, [], [], 2 ^ 32⟩) = false := by decide

theorem test_wf_lanes : Instr.wf (.txFfeWrite .jtag 0 16 0 0) = false ∧ Instr.wf (.txFfeWrite .jtag 0 0 32 0) = false ∧
    Instr.wf (.txFfeWrite .jtag 0 0 0 16) = false ∧ Instr.wf (.adaptWindow 0 [2 ^ 31]) = false ∧
    Instr.wf (.fomUpdate 0 256 0 0 0) = false ∧ Instr.wf (.scanStart .jtag 0 32 0 0) = false ∧
    Instr.wf (.scanStart .jtag 0 0 256 0) = false ∧ Instr.wf (.scanStart .jtag 0 0 0 128) = false ∧
    Instr.wf (.comma 0 0 ⟨4, commaHead ++ [1]⟩) = false ∧ Instr.wf (.comma 0 0 ⟨2, [1]⟩) = false ∧
    Instr.wf (.headerLock 0 [4]) = false := by decide

theorem test_wf_ports : Instr.wf (.linePacket 0 [[(4, 0)]]) = false ∧ Instr.wf (.framePacket 0 [[(1, 2 ^ 64)]]) = false ∧
    Instr.wf (.testPacket 0 [[(1, 0), (1, 0), (1, 0), (1, 0), (1, 0)]]) = false ∧ Instr.wf (.creditPacket 0 [[(4, 0)]]) = false ∧
    Instr.wf (.timeResp 0 [[(4, 0)]]) = false ∧ Instr.wf (.mgmtRead .jtag 0 512) = false ∧ Instr.wf (.mgmtWrite .jtag 0 512) = false ∧
    Instr.wf (.mgmtIdRead .jtag 0 512) = false ∧ Instr.wf (.mgmtResponse 0 [[(1, 2 ^ 64)]]) = false ∧
    Instr.wf (.lb2Enter .jtag 0 (2 ^ 16)) = false := by decide

theorem test_wf_positions : Instr.wf (.quadEdge 0 (2, 0) 0) = false ∧ Instr.wf (.quadEdge 0 (0, 2) 0) = false ∧
    Instr.wf (.index ⟨0, 2, 0⟩) = false ∧ Instr.wf (.wire (.din 0) true 4) = false ∧ Instr.wf (.serReading 0 [256] 0 0) = false ∧
    Instr.wf (.adapterIdDone 0 [256]) = false ∧ Instr.wf (.incrWrite .jtag (2 ^ 48)) = false ∧
    Instr.wf (.sampledLevelChange 0 ⟨2, 0, 0⟩) = false := by decide

theorem test_wf_nets : Instr.wf (.ethRx 0 ⟨[256], 0⟩ true) = false ∧ Instr.wf (.ethTx 0 [] []) = false ∧
    Instr.wf (.ethTx 0 (zeros 32) [256]) = false ∧ Instr.wf (.pdelayReq 0 ⟨[256], 0⟩) = false ∧
    Instr.wf (.pdelayResp 0 [256] [] 0) = false ∧ Instr.wf (.pdelayResp 0 [] [256] 0) = false ∧
    Instr.wf (.sfpIdDone 0 [256]) = false ∧
    Instr.wf (.sfpDiag 0 [256] false false) = false ∧ Instr.wf (.voxAck [256]) = false ∧ Instr.wf (.wakeMsg [256]) = false := by
  decide

theorem test_wf_records : Instr.wf (.intakePtrPost .jtag 0 0 [[1]]) = false ∧ Instr.wf (.segDescriptor 0 [256]) = false ∧
    Instr.wf (.refTile 0 [256]) = false ∧ Instr.wf (.profile 0 [256]) = false ∧ Instr.wf (.colmap 0 [256]) = false ∧
    Instr.wf (.clist 0 [256]) = false ∧ Instr.wf (.writeBack 0 0 [1]) = false := by decide

theorem test_wf_hosts : Instr.wf (.msixMessage 0 0 2048) = false ∧ Instr.wf (.intxAck .jtag 0 2048) = false ∧
    Instr.wf (.configWrite 0 0 .busMaster (2 ^ 32)) = false ∧ Instr.wf (.smbSetAddr [256]) = false ∧
    Instr.wf (.hbmScrubRead 103079215104 .none) = false := by decide

theorem test_wf_selfs : Instr.wf (.sramScrub ⟨64, 0, 0, 1, 0⟩ .single) = false ∧ Instr.wf (.sramScrub ⟨0, 0, 32, 1, 0⟩ .single) = false ∧
    Instr.wf (.sramScrub ⟨0, 0, 0, 32, 0⟩ .single) = false ∧ Instr.wf (.tempCrit 128) = false ∧ Instr.wf (.tempHot (-129)) = false ∧
    Instr.wf (.hbmHot 0 256) = false ∧ Instr.wf (.tempMaxRise 128) = false ∧ Instr.wf (.qgen .jtag 0 true (2 ^ 16)) = false ∧
    Instr.wf (.regacc (2 ^ 64)) = false := by decide

/-! ## The table spells no words -/

theorem test_no_words : decodeTableWord 64 0 = none ∧ State.reset.withFetchWord 64 0 = State.reset := ⟨rfl, rfl⟩

/-! ## The spec's worked examples -/

/-- The tag's time field (worked example of R12). -/
theorem test_time_image :
    leBytes 12 (0x6A18A500 * 2 ^ 48 + 0x0EE6B280 * 2 ^ 16 + 0x8000) = [0x00, 0x80, 0x80, 0xB2, 0xE6, 0x0E, 0x00, 0xA5, 0x18, 0x6A, 0x00, 0x00] := by
  decide

/-- The same time in a VERDICT message, most significant byte first (worked example of R277). -/
theorem test_time_vox :
    voxTime (0x6A18A500 * 2 ^ 48 + 0x0EE6B280 * 2 ^ 16 + 0x8000) = [0x00, 0x00, 0x6A, 0x18, 0xA5, 0x00, 0x0E, 0xE6, 0xB2, 0x80, 0x80, 0x00] := by
  decide

/-- LCU9's page and PAGE_ID (worked example of R44). -/
theorem test_page_id : bar0 0x0C 9 0 = 0x309000 ∧ bar0 0x0C 9 0x14 = 0x309014 ∧ islandOf 0x0C 9 = 0x29 ∧ pageId 0x0C 9 = 0xC0290C09 := by
  decide

/-- The register window of CLAIM_T5 (worked example of R65). -/
theorem test_claim_addr : bar0 0x04 1 0x114 = 0x101114 ∧ bar0 0x13 4 0x14 = 0x4C4014 := by decide

/-- Partition 1 holds streams S4 and S7 and output T5, and S7 holds T5. -/
def claimDev : Dev := (((up2.wr Claims.ACT_VALID 0 1 1).wr Claims.ACT_STREAMS 0 0x90 1).wr Claims.ACT_TOUT 0 0x20 1).setClaim .tout 5
  { (default : Claim) with held := true, used := true, hCls := 0x13, hInst := 7, sCls := 0x13, sInst := 7 }

/-- S4's ACQUIRE is refused: DENIED with the holder shown, CLAIM_CONFLICT in S4's EVT (worked example of R65). -/
theorem test_claim_conflict :
    (claimDev.claimAcquire .tout 5 0x13 4).claim .tout 5 =
      { (default : Claim) with held := true, used := true, denied := true, hCls := 0x13, hInst := 7, sCls := 0x13, sInst := 7 } ∧
    (claimDev.claimAcquire .tout 5 0x13 4).rd (Hdr.EVT 0x13) 4 = 0x40000000 := by
  constructor <;> decide +kernel

/-- S7 releases, and S4's second ACQUIRE holds T5. -/
theorem test_claim_moves : (((claimDev.claimRelease .tout 5 0x13 7).claimAcquire .tout 5 0x13 4).claim .tout 5).held = true ∧
    (((claimDev.claimRelease .tout 5 0x13 7).claimAcquire .tout 5 0x13 4).claim .tout 5).hInst = 4 := by
  constructor <;> decide +kernel

/-- Near 0b1101 and far 0b1011 leave logical lanes 0 and 3 (worked example of R95). -/
theorem test_active_set : activeSet 0b1101 0b1011 = 0b1001 ∧ maskWidth (activeSet 0b1101 0b1011) = 2 := by decide

/-- One quadrature cycle forward is four counts up (R180). -/
theorem test_quad_forward : quadStep 0 0 1 0 = 1 ∧ quadStep 1 0 1 1 = 1 ∧ quadStep 1 1 0 1 = 1 ∧ quadStep 0 1 0 0 = 1 ∧
    quadStep 0 0 0 1 = -1 := by decide

/-- Sixteen intervals in 16,000 ns are 1,000,000 counts/s; one in 1,500 ns is 666,666.67 counts/s (worked example of R194). -/
theorem test_speed : spdOf 16 (16000 * 65536) = 0x0000000F42400000 ∧ spdOf 1 (1500 * 65536) = 0x0000000A2C2AAAAA := by
  constructor <;> decide +kernel

/-- CAPACITY by rate (R96). -/
theorem test_capacity : capacity4 2 = 25000 ∧ capacity4 1 = 12130 ∧ capacity4 0 = 4850 := by decide

/-- Sizing of a pixel (worked example of R291). -/
theorem test_sizing :
    let e := 200 + 200 * 2 ^ 16 + 216 * 2 ^ 32 + 5120 * 2 ^ 48 + 4506 * 2 ^ 64 + 5734 * 2 ^ 80
    sizeSample e 0 180 = (3350, false) ∧ sizeSample e 1 150 = (2420, false) ∧ sizeSample e 2 90 = (1713, false) := by
  decide +kernel

/-- The colour matrix of the same pixel (worked example of R291). -/
theorem test_matrix :
    ((((up.wr Lcu.LCU_CFG_MATRIX_EN 0 1).wr Lcu.LCU_CFG_FMT_EXP 0 3).setLcu 0 { (default : LcuH) with
      mtx := [4915, 65536 - 614, 65536 - 205, 65536 - 410, 5120, 65536 - 614, 65536 - 82, 65536 - 819, 4997, 0, 0, 32] }).mtxLine 0 1
        { (default : SLine) with smp := #[3350, 2420, 1713] }).smp = #[3571, 2433, 1571] := by
  decide +kernel

/-- The Thoken plane of the worked example of R322. -/
theorem test_thoken_bytes : (cdiv 598 8 = 75) ∧
    (thoken 2 ([0x04, 0x60, 0x32, 0x38, 0x00, 0x26, 0x16, 0xE0, 0x11, 0x02, 0x40] ++ zeros 64)).isSome = true := by
  constructor <;> decide +kernel

/-- The keyed terms of the worked example of R354. -/
theorem test_keyed_terms :
    let fs : List Found := [⟨0, 1000 * 2 ^ 32 + 100 * 2 ^ 64 + 2 ^ 17, 52, -24, 1⟩, ⟨1, 1000 * 2 ^ 32 + 400 * 2 ^ 64 + 2 ^ 17, 60, -4, 1⟩]
    keyedTerms [0x01000000, 0, 0, 0x01000000, 0, 0] (fitModel 2 fs) = [16777216, -27962, 0, 16707311, -789, 491] ∧
      rasterAt [16777216, -27962, 0, 16707311, -789, 491] 1000 100 = (255168, 25984) := by
  decide +kernel

/-- The check value of CRC-32 over the digits 1 to 9 (R119). -/
theorem test_crc32 : crc32 [0x31, 0x32, 0x33, 0x34, 0x35, 0x36, 0x37, 0x38, 0x39] = 0xCBF43926 := by decide +kernel

/-- Port 1 at T4 = 1,462.5 ns, with a request out since T1 = 1,000 ns, DELAY_ASYM 0.25 ns (worked example of R142). -/
def exchDev : Dev := { Flegar.pk with clk := ⟨0, 1462, 2 ^ 39⟩ }.setPort 1
  { (default : PortH) with asym := 16384, exch := some ⟨9, 1000 * 2 ^ 16, 0⟩, xid := 10 }

/-- The exchange of the worked example of R142 gives D = 31.25 ns and an offset of 3.0 ns. -/
theorem test_exchange :
    ((exchDev.rxPacket 1 (Flegar.trs 9 (1000 * 2 ^ 16) (1034 * 2 ^ 16 + 2 ^ 15) (1434 * 2 ^ 16 + 2 ^ 15) 0)).rd Port.PATH_DELAY 1,
     (exchDev.rxPacket 1 (Flegar.trs 9 (1000 * 2 ^ 16) (1034 * 2 ^ 16 + 2 ^ 15) (1434 * 2 ^ 16 + 2 ^ 15) 0)).rd Port.OFFSET 1) =
      (2048000, 0x30000) := by
  decide +kernel

/-- FAULT_INFO of the worked example of ch. 15: FIRST_CLASS 3, FIRST_TIE 1 and REPLACE_N asserted (R472, R500). -/
theorem test_fault_info :
    ((((up.wr Fc.SUMMARY_FIRST_CLASS 0 3).wr Fc.SUMMARY_FIRST_TIE 0 1).wr AO.HEALTH_PINS_REPLACE 0 1).healthCap 1 0)[9]? = some 0x2B := by
  decide +kernel

/-! ## Single steps -/

/-- A read of LCU9's PAGE_ID answers the requester with it (worked example of R44). -/
theorem test_read_page_id : exec (.lowWordRead .jtag ⟨bar0 0x0C 9 0, 1⟩) (st up) =
    .next ((st up).withDev (up.emit (.answer 0xFE 0xC0290C09))) := by
  have h : up.reply 0xFE (fun d => d.addrRead 0xFE (bar0 0x0C 9 0)) = up.emit (.answer 0xFE 0xC0290C09) := by decide +kernel
  exact congrArg (fun d => Host.Outcome.next ((st up).withDev d)) h

/-- A write of CTRL enables an ingest page; an LCU that holds no region is refused with ENABLE_REFUSED (R37, R65, R305). -/
theorem test_enable : ((up.busWrite State.reset.mem 0xFE (bar0 0x0B 5 0x0C) [1] true).rd (Hdr.EN 0x0B) 5,
    (up.busWrite State.reset.mem 0xFE (bar0 0x0C 9 0x0C) [1] true).rd (Hdr.EN 0x0C) 9,
    (up.busWrite State.reset.mem 0xFE (bar0 0x0C 9 0x0C) [1] true).rd (Hdr.EVT 0x0C) 9) = (1, 0, 0x20000000) := by
  decide +kernel

/-- The same page in an island that is gated reads 0 in CTRL, and EVT reads GATED (R48). -/
theorem test_read_gated : ((Pages.gated 41).wordRead 0xFE 0x0C 9 0x0C).2 = 0 ∧ ((Pages.gated 41).wordRead 0xFE 0x0C 9 0x10).2 = 0x80000000 := by
  constructor <;> decide +kernel

end Sys2Proof.Tests
end

