-- ==== Sys2Proof/Proofs/QuadratureEdges.lean ====
section
/-!
PROOFS. The quadrature channel (R178–R183, R190, R194): what its updates leave of the registers and of the channel, what one
sample of A and B does as one equation over the device before it, what a counted edge does at the limits, what an index does, and
from these the statement O32.
-/

open Sys2Proof

namespace Sys2Proof.Machine

/-! ### Reads of a channel's page after its own updates -/

/-- The place of a field in its page; fields at different places are written apart. -/
abbrev Fld.place (f : Fld) : Nat := (f.cls * 262144 + f.off) * 32 + f.lo

/-- An event leaves a field of a channel's page as it was; the premise is decided for named fields. -/
theorem Dev.rd_evt_chan (d : Dev) (c i b : Nat) (f : Fld) (k : Fin 8)
    (h : f.off < 4096 ∧ f.lo < 32 ∧ f.off ≠ 0x14 ∧ f.cls ≠ 0x1B) : (d.evt c i b).rd f k = d.rd f k :=
  Dev.evt_rd d c i b f k 0 (Fld.quiet_of f k h (by omega))

theorem Dev.rd_incSat_off (d : Dev) (f g : Fld) (i : Nat) (h : g.place ≠ f.place) : (d.incSat f i).rd g i = d.rd g i :=
  Dev.rd_wr_off d f g i _ h

@[simp] theorem Dev.evt_chan (d : Dev) (c i b m : Nat) : (d.evt c i b).chan m = d.chan m := by
  simp only [Dev.chan, Dev.evt_pos]

theorem Dev.is_congr {d e : Dev} {f : Fld} {i : Nat} (h : e.rd f i = d.rd f i) : e.is f i = d.is f i :=
  congrArg (· != 0) h

theorem Dev.enabled_congr {d e : Dev} {c i : Nat} (h : e.rd (Hdr.EN c) i = d.rd (Hdr.EN c) i) :
    e.enabled c i = d.enabled c i := congrArg (alwaysOn c || ·) (Dev.is_congr h)

theorem Dev.quadMode_congr {d e : Dev} {k : Nat} (h : e.rd Pos.ENC_CFG_MODE k = d.rd Pos.ENC_CFG_MODE k) :
    e.quadMode k = d.quadMode k := congrArg (· == 1) h

theorem Dev.momentL_congr {d e : Dev} (h : e.clk = d.clk) (y : Nat) : e.momentL y = d.momentL y := by
  simp only [Dev.momentL, Dev.nowL, Dev.now, h]

/-! ### The stages of a sample of A and B (R178–R182) -/

/-- Keeping the word of the sample before changes at most the two fields of the channel that hold it. -/
theorem Dev.keepWord_cases (d : Dev) (k : Nat) :
    d.keepWord k = d ∨ ∃ w s, d.keepWord k = d.setChan k { d.chan k with wPrev := w, wSample := s } := by
  unfold Dev.keepWord
  simp only
  split
  · exact .inl rfl
  · exact .inr ⟨_, _, rfl⟩

/-- The device that has taken a sample's raw levels. -/
def Dev.sampleAB (d : Dev) (k a b : Nat) : Dev :=
  (d.keepWord k).setChan k { (d.keepWord k).chan k with rawA := a % 2, rawB := b % 2 }

@[simp] theorem Dev.rd_sampleAB (d : Dev) (k a b : Nat) (f : Fld) (i j : Nat) :
    (d.sampleAB k a b).rd f i j = d.rd f i j := by
  obtain h | ⟨w, s, h⟩ := d.keepWord_cases k <;> rw [Dev.sampleAB, h] <;> rfl

@[simp] theorem Dev.clk_sampleAB (d : Dev) (k a b : Nat) : (d.sampleAB k a b).clk = d.clk := by
  obtain h | ⟨w, s, h⟩ := d.keepWord_cases k <;> rw [Dev.sampleAB, h] <;> rfl

/-- Of the channel, taking raw levels leaves what the filter and the window hold. -/
theorem Dev.chan_sampleAB (d : Dev) (k a b : Nat) :
    ((d.sampleAB k a b).chan k).fA = (d.chan k).fA ∧ ((d.sampleAB k a b).chan k).fB = (d.chan k).fB ∧
      ((d.sampleAB k a b).chan k).stuck = (d.chan k).stuck ∧ ((d.sampleAB k a b).chan k).qwin = (d.chan k).qwin ∧
      ((d.sampleAB k a b).chan k).lastFilt = (d.chan k).lastFilt := by
  obtain h | ⟨w, s, h⟩ := d.keepWord_cases k <;>
    simp only [Dev.sampleAB, h, Dev.chan_setChan, and_self]

/-- The filtered level that a sample leaves on A, held while WIRE is live (R178). -/
def Dev.filtA (d : Dev) (k a : Nat) : Nat := if d.is Pos.STAT_WIRE_A k then (d.chan k).fA else a % 2

/-- The same on B. -/
def Dev.filtB (d : Dev) (k b : Nat) : Nat := if d.is Pos.STAT_WIRE_B k then (d.chan k).fB else b % 2

/-- A filtered change comes less than 20 ns after the one before it (R181). -/
def Dev.tooFast (d : Dev) (k t : Nat) : Bool :=
  match (d.chan k).lastFilt with
  | some x => decide (t < x + 20 * nsL)
  | none => false

/-- The filtered levels take new values at a time. -/
def Dev.filtered (d : Dev) (k a b t : Nat) : Dev :=
  (d.setLevels k a b).setChan k { (d.setLevels k a b).chan k with lastFilt := some t }

/-- An illegal transition, the n-th of its window, is counted and raises QERR (R181). -/
def Dev.illegal (d : Dev) (k n : Nat) : Dev :=
  ((d.setChan k { d.chan k with qwin := n }).incSat Pos.CNT_A_ILLEGAL_CNT k).evt 0x10 k Pos.E_QERR

/-- An edge that comes too fast is counted and raises OVERSPEED (R181). -/
def Dev.overspeed (d : Dev) (k : Nat) : Dev := (d.incSat Pos.CNT_B_OVERSPEED_CNT k).evt 0x10 k Pos.E_OVERSPEED

/-- The direction a count takes: DIR_INV turns it (R180). -/
def Dev.quadDir (d : Dev) (k : Nat) (q : Int) : Int := if d.is Pos.ENC_CFG_DIR_INV k then -q else q

theorem Dev.tooFast_of_lt {d : Dev} {k t x : Nat} (hx : (d.chan k).lastFilt = some x) (ht : t < x + 20 * nsL) :
    d.tooFast k t = true := by
  simp only [Dev.tooFast, hx, ht, decide_true]

theorem Dev.not_tooFast {d : Dev} {k t : Nat} (h : ∀ x, (d.chan k).lastFilt = some x → x + 20 * nsL ≤ t) :
    d.tooFast k t = false := by
  unfold Dev.tooFast
  split
  · next x hx => exact decide_eq_false (Nat.not_lt.2 (h x hx))
  · rfl

/-- A field other than the two levels reads as before they are shown. -/
theorem Dev.rd_setLevels (d : Dev) (k a b : Nat) (f : Fld)
    (h : f.place ≠ Pos.STAT_LEVEL_A.place ∧ f.place ≠ Pos.STAT_LEVEL_B.place) :
    (d.setLevels k a b).rd f k = d.rd f k := by
  rw [Dev.setLevels, Dev.rd_wr_off _ _ _ _ _ h.2, Dev.rd_wr_off _ _ _ _ _ h.1, Dev.setChan_rd]

theorem Dev.rd_filtered (d : Dev) (k a b t : Nat) (f : Fld)
    (h : f.place ≠ Pos.STAT_LEVEL_A.place ∧ f.place ≠ Pos.STAT_LEVEL_B.place) :
    (d.filtered k a b t).rd f k = d.rd f k := by
  rw [Dev.filtered, Dev.setChan_rd, Dev.rd_setLevels _ _ _ _ _ h]

theorem Dev.rd_limit_illegal (d : Dev) (k : Fin 8) (n : Nat) :
    (d.illegal k n).rd Pos.ENC_CFG_QERR_LIMIT k = d.rd Pos.ENC_CFG_QERR_LIMIT k := by
  rw [Dev.illegal, Dev.rd_evt_chan _ _ _ _ _ _ (by decide), Dev.rd_incSat_off _ _ _ _ (by decide), Dev.setChan_rd]

theorem Dev.rd_dir_overspeed (d : Dev) (k : Fin 8) :
    (d.overspeed k).rd Pos.ENC_CFG_DIR_INV k = d.rd Pos.ENC_CFG_DIR_INV k := by
  rw [Dev.overspeed, Dev.rd_evt_chan _ _ _ _ _ _ (by decide), Dev.rd_incSat_off _ _ _ _ (by decide)]

/-! ### What a sample of A and B does -/

/-- A sample of A and B, with everything it reads read from the device before it. The proof names the model's stages in their own
order, shows each to be one of the stages above, and that no stage changes a field the next one reads. -/
theorem Dev.quadEdge_eq (d : Dev) (k : Fin 8) (a b y : Nat) :
    d.quadEdge k a b y =
      if d.filtA k a = (d.chan k).fA ∧ d.filtB k b = (d.chan k).fB then d.sampleAB k a b
      else if !d.enabled 0x10 k || !d.quadMode k || (d.chan k).stuck then
        (d.sampleAB k a b).setLevels k (d.filtA k a) (d.filtB k b)
      else
        let t := d.momentL y - edgeDelay
        let g := (d.sampleAB k a b).filtered k (d.filtA k a) (d.filtB k b) t
        if d.filtA k a ≠ (d.chan k).fA ∧ d.filtB k b ≠ (d.chan k).fB then
          (g.illegal k ((d.chan k).qwin + 1)).when (decide (d.rd Pos.ENC_CFG_QERR_LIMIT k < (d.chan k).qwin + 1))
            (fun e => (e.setSuspect k).flt 0x10 k Pos.F_QERR_FAULT)
        else
          (g.when (d.tooFast k t) (fun e => e.overspeed k)).countEdge k
            (d.quadDir k (quadStep (d.chan k).fA (d.chan k).fB (d.filtA k a) (d.filtB k b))) t := by
  obtain ⟨hA, hB, hstuck, hwin, hlast⟩ := d.chan_sampleAB k a b
  have his : ∀ f, (d.sampleAB k a b).is f k = d.is f k := fun f => Dev.is_congr (d.rd_sampleAB k a b f k 0)
  unfold Dev.quadEdge
  extract_lets d₀ h₀ e h a' b' l t fast h₁ g h₂ w x f q t' g'
  have he : e = d.sampleAB k a b := rfl
  have ha : a' = d.filtA k a := by simp only [a', h, he, his, hA, Dev.filtA]
  have hb : b' = d.filtB k b := by simp only [b', h, he, his, hB, Dev.filtB]
  have hl : l = (d.sampleAB k a b).setLevels k (d.filtA k a) (d.filtB k b) := by rw [← he, ← ha, ← hb]
  have ht : t = t' := congrArg (· - edgeDelay) (Dev.momentL_congr (d.clk_sampleAB k a b) y)
  have hg : g = g' := by
    simp only [g, h₁, hl, ht]
    rfl
  have hx : x = g'.illegal k ((d.chan k).qwin + 1) := by
    simp only [x, w, h₂, hg, h, he, hwin, Dev.illegal]
  have hfast : fast = d.tooFast k t' := by
    simp only [fast, h, he, ht, hlast]
    rfl
  have hf : f = g'.when (d.tooFast k t') (fun e => e.overspeed k) := by
    simp only [f, hg, hfast, Dev.overspeed]
  have hq : q = quadStep (d.chan k).fA (d.chan k).fB (d.filtA k a) (d.filtB k b) := by
    simp only [q, h, he, hA, hB, ha, hb]
  have hen : l.enabled 0x10 k = d.enabled 0x10 k := Dev.enabled_congr (by
    rw [hl, Dev.rd_setLevels _ _ _ _ _ (by decide), Dev.rd_sampleAB])
  have hmode : l.quadMode k = d.quadMode k := Dev.quadMode_congr (by
    rw [hl, Dev.rd_setLevels _ _ _ _ _ (by decide), Dev.rd_sampleAB])
  have hlimit : x.rd Pos.ENC_CFG_QERR_LIMIT k = d.rd Pos.ENC_CFG_QERR_LIMIT k := by
    rw [hx, Dev.rd_limit_illegal, Dev.rd_filtered _ _ _ _ _ _ (by decide), Dev.rd_sampleAB]
  have hdir : f.is Pos.ENC_CFG_DIR_INV k = d.is Pos.ENC_CFG_DIR_INV k := Dev.is_congr (by
    rw [hf, Dev.when_keeps (fun u => u.rd Pos.ENC_CFG_DIR_INV k) _ _ _ (Dev.rd_dir_overspeed _ _),
      Dev.rd_filtered _ _ _ _ _ _ (by decide), Dev.rd_sampleAB])
  rw [hen, hmode, hlimit, hdir, hq, hf, hx, hl, ha, hb, ht]
  simp only [h, he, hA, hB, hstuck, hwin, Dev.quadDir]

section Sample

variable {d : Dev} {k : Fin 8} {a b : Nat} (y : Nat)

/-- Levels that stay change nothing but the raw levels. -/
theorem Dev.quadEdge_still (hA : d.filtA k a = (d.chan k).fA) (hB : d.filtB k b = (d.chan k).fB) :
    d.quadEdge k a b y = d.sampleAB k a b := by
  rw [Dev.quadEdge_eq, if_pos ⟨hA, hB⟩]

/-- Where the channel does not count, the filtered levels alone follow (R561). -/
theorem Dev.quadEdge_idle (hc : d.filtA k a ≠ (d.chan k).fA ∨ d.filtB k b ≠ (d.chan k).fB)
    (hi : d.enabled 0x10 k = false ∨ d.quadMode k = false ∨ (d.chan k).stuck = true) :
    d.quadEdge k a b y = (d.sampleAB k a b).setLevels k (d.filtA k a) (d.filtB k b) := by
  rw [Dev.quadEdge_eq, if_neg (fun h => hc.elim (· h.1) (· h.2)), if_pos]
  simpa only [Bool.or_eq_true, Bool.not_eq_true', or_assoc] using hi

variable (hen : d.enabled 0x10 k = true) (hmode : d.quadMode k = true) (hstuck : (d.chan k).stuck = false)
include hen hmode hstuck

/-- Both levels changed: an illegal transition, and beyond the limit of the window a fault (R181, R182). -/
theorem Dev.quadEdge_both (hA : d.filtA k a ≠ (d.chan k).fA) (hB : d.filtB k b ≠ (d.chan k).fB) :
    d.quadEdge k a b y =
      (((d.sampleAB k a b).filtered k (d.filtA k a) (d.filtB k b) (d.momentL y - edgeDelay)).illegal k
        ((d.chan k).qwin + 1)).when (decide (d.rd Pos.ENC_CFG_QERR_LIMIT k < (d.chan k).qwin + 1))
          (fun e => (e.setSuspect k).flt 0x10 k Pos.F_QERR_FAULT) := by
  rw [Dev.quadEdge_eq, if_neg (fun h => hA h.1),
    if_neg (by simp only [hen, hmode, hstuck, Bool.not_true, Bool.or_self, Bool.false_eq_true, not_false_eq_true])]
  exact if_pos ⟨hA, hB⟩

/-- One level changed: one count (R180). -/
theorem Dev.quadEdge_one (hc : d.filtA k a ≠ (d.chan k).fA ∧ d.filtB k b = (d.chan k).fB ∨
      d.filtA k a = (d.chan k).fA ∧ d.filtB k b ≠ (d.chan k).fB) :
    d.quadEdge k a b y =
      (((d.sampleAB k a b).filtered k (d.filtA k a) (d.filtB k b) (d.momentL y - edgeDelay)).when
        (d.tooFast k (d.momentL y - edgeDelay)) (fun e => e.overspeed k)).countEdge k
          (d.quadDir k (quadStep (d.chan k).fA (d.chan k).fB (d.filtA k a) (d.filtB k b))) (d.momentL y - edgeDelay) := by
  rw [Dev.quadEdge_eq, if_neg (fun h => hc.elim (fun c => c.1 h.1) (fun c => c.2 h.2)),
    if_neg (by simp only [hen, hmode, hstuck, Bool.not_true, Bool.or_self, Bool.false_eq_true, not_false_eq_true])]
  exact if_neg (fun h => hc.elim (fun c => h.2 c.2) (fun c => h.1 c.1))

end Sample

/-! ### A counted edge and the limits (R180, R190, R194) -/

/-- The limits of a channel are those of its three fields. -/
theorem Dev.limits_congr {d e : Dev} {k : Nat} (hen : e.rd Pos.ENC_CFG_LIMIT_EN k = d.rd Pos.ENC_CFG_LIMIT_EN k)
    (hlo : e.rd Pos.LIMIT_LO k = d.rd Pos.LIMIT_LO k) (hhi : e.rd Pos.LIMIT_HI k = d.rd Pos.LIMIT_HI k) :
    e.limits k = d.limits k := by
  simp only [Dev.limits, Dev.is_congr hen, Dev.rdI, hlo, hhi]

/-- The channel an edge leaves before it is counted: its speed is new and it is not stopped. -/
def Dev.edgeSeen (d : Dev) (k : Nat) (q : Int) (t : Nat) : Dev := (d.quadSpeed k q t).wr Pos.STAT_STOPPED k 0

@[simp] theorem Dev.cnt_edgeSeen (d : Dev) (k : Nat) (q : Int) (t : Nat) :
    ((d.edgeSeen k q t).chan k).cnt = (d.chan k).cnt := by
  simp only [Dev.edgeSeen, Dev.quadSpeed, Dev.wr_chan, Dev.chan_setChan]

@[simp] theorem Dev.tEdge_edgeSeen (d : Dev) (k : Nat) (q : Int) (t : Nat) : ((d.edgeSeen k q t).chan k).tEdge = t := by
  simp only [Dev.edgeSeen, Dev.quadSpeed, Dev.wr_chan, Dev.chan_setChan]

theorem Dev.stopped_edgeSeen (d : Dev) (k : Nat) (q : Int) (t : Nat) :
    (d.edgeSeen k q t).rd Pos.STAT_STOPPED k = 0 := by
  rw [Dev.edgeSeen, Dev.rd_wr, Nat.zero_mod]

@[simp] theorem Dev.limits_edgeSeen (d : Dev) (k : Nat) (q : Int) (t : Nat) :
    (d.edgeSeen k q t).limits k = d.limits k :=
  Dev.limits_congr (Dev.rd_wr_off _ _ _ _ _ (by decide)) (Dev.rd_wr_off _ _ _ _ _ (by decide))
    (Dev.rd_wr_off _ _ _ _ _ (by decide))

theorem Dev.countEdge_eq (d : Dev) (k : Nat) (q : Int) (t : Nat) :
    d.countEdge k q t = ((d.edgeSeen k q t).setCount k ((d.chan k).cnt + q)).showDir k (d.chan k).cnt := by
  rw [← Dev.cnt_edgeSeen d k q t]
  rfl

/-- A count within the limits is taken as it is. -/
theorem Dev.setCount_within {d : Dev} {k : Nat} {c : Int} (hlo : (d.limits k).1 ≤ c) (hhi : c ≤ (d.limits k).2) :
    d.setCount k c = ((d.setChan k { d.chan k with cnt := c, atLimit := false }).wr Pos.STAT_AT_LIMIT_HI k 0).wr
      Pos.STAT_AT_LIMIT_LO k 0 := by
  simp only [Dev.setCount, Int.not_lt.2 hlo, Int.not_lt.2 hhi, if_false]

/-- A count above the limits is held at the high one, which the channel shows. -/
theorem Dev.setCount_above {d : Dev} {k : Fin 8} {c : Int} (h : (d.limits k).2 < c) :
    ((d.setCount k c).chan k).cnt = (d.limits k).2 ∧ (d.setCount k c).rd Pos.STAT_AT_LIMIT_HI k = 1 ∧
      (d.setCount k c).rd Pos.STAT_AT_LIMIT_LO k = 0 := by
  simp only [Dev.setCount, h, if_true]
  generalize he : (((d.setChan k _).addExcess k _).wr Pos.STAT_AT_LIMIT_HI k 1).wr Pos.STAT_AT_LIMIT_LO k 0 = e
  have hcnt : (e.chan k).cnt = (d.limits k).2 := by
    simp only [← he, Dev.addExcess, Dev.wrI, Dev.chan_setChan, Dev.wr_chan]
  have hhi : e.rd Pos.STAT_AT_LIMIT_HI k = 1 := by
    rw [← he, Dev.rd_wr_off _ _ _ _ _ (by decide), Dev.rd_wr]
    rfl
  have hlo : e.rd Pos.STAT_AT_LIMIT_LO k = 0 := by rw [← he, Dev.rd_wr, Nat.zero_mod]
  refine ⟨?_, ?_, ?_⟩
  · rw [Dev.when_keeps (fun u => (u.chan k).cnt) _ _ _ (by rw [Dev.evt_chan]), hcnt]
  · rw [Dev.when_keeps (fun u => u.rd Pos.STAT_AT_LIMIT_HI k) _ _ _ (Dev.rd_evt_chan _ _ _ _ _ _ (by decide)), hhi]
  · rw [Dev.when_keeps (fun u => u.rd Pos.STAT_AT_LIMIT_LO k) _ _ _ (Dev.rd_evt_chan _ _ _ _ _ _ (by decide)), hlo]

@[simp] theorem Dev.cnt_showDir (d : Dev) (k : Nat) (old : Int) : ((d.showDir k old).chan k).cnt = (d.chan k).cnt := by
  unfold Dev.showDir
  simp only
  split
  · rfl
  · rw [Dev.wrb, Dev.wr_chan, Dev.chan_setChan]

@[simp] theorem Dev.tEdge_showDir (d : Dev) (k : Nat) (old : Int) :
    ((d.showDir k old).chan k).tEdge = (d.chan k).tEdge := by
  unfold Dev.showDir
  simp only
  split
  · rfl
  · rw [Dev.wrb, Dev.wr_chan, Dev.chan_setChan]

theorem Dev.rd_showDir_off (d : Dev) (k : Nat) (old : Int) (f : Fld) (h : f.place ≠ Pos.STAT_DIR_NEG.place) :
    (d.showDir k old).rd f k = d.rd f k := by
  unfold Dev.showDir
  simp only
  split
  · rfl
  · rw [Dev.rd_wrb_off _ _ _ _ _ h, Dev.setChan_rd]

/-- A count that changed shows its direction. -/
theorem Dev.rd_showDir (d : Dev) (k : Nat) (old : Int) (h : (d.chan k).cnt ≠ old) :
    (d.showDir k old).rd Pos.STAT_DIR_NEG k = b2n (decide ((d.chan k).cnt < old)) := by
  rw [Dev.showDir, if_neg h, Dev.rd_wrb]
  cases decide ((d.chan k).cnt < old) <;> rfl

/-- An edge within the limits counts, ends the stop, stamps the channel and shows its direction. -/
theorem Dev.countEdge_within {d : Dev} {k : Fin 8} {q : Int} {t : Nat} (hlo : (d.limits k).1 ≤ (d.chan k).cnt + q)
    (hhi : (d.chan k).cnt + q ≤ (d.limits k).2) :
    ((d.countEdge k q t).chan k).cnt = (d.chan k).cnt + q ∧ (d.countEdge k q t).rd Pos.STAT_STOPPED k = 0 ∧
      ((d.countEdge k q t).chan k).tEdge = t ∧
      (q ≠ 0 → (d.countEdge k q t).rd Pos.STAT_DIR_NEG k =
        b2n (decide ((d.chan k).cnt + q < (d.chan k).cnt))) := by
  rw [← Dev.limits_edgeSeen d k q t] at hlo hhi
  have hset := Dev.setCount_within hlo hhi
  have hcnt : (((d.edgeSeen k q t).setCount k ((d.chan k).cnt + q)).chan k).cnt = (d.chan k).cnt + q := by
    rw [hset, Dev.wr_chan, Dev.wr_chan, Dev.chan_setChan]
  rw [Dev.countEdge_eq]
  refine ⟨?_, ?_, ?_, fun hq => ?_⟩
  · rw [Dev.cnt_showDir, hcnt]
  · rw [Dev.rd_showDir_off _ _ _ _ (by decide), hset, Dev.rd_wr_off _ _ _ _ _ (by decide),
      Dev.rd_wr_off _ _ _ _ _ (by decide), Dev.setChan_rd, Dev.stopped_edgeSeen]
  · rw [Dev.tEdge_showDir, hset, Dev.wr_chan, Dev.wr_chan, Dev.chan_setChan, Dev.tEdge_edgeSeen]
  · rw [Dev.rd_showDir _ _ _ (by rw [hcnt]; omega), hcnt]

/-- An edge beyond the high limit leaves the count there. -/
theorem Dev.countEdge_above {d : Dev} {k : Fin 8} {q : Int} {t : Nat} (h : (d.limits k).2 < (d.chan k).cnt + q) :
    ((d.countEdge k q t).chan k).cnt = (d.limits k).2 ∧ (d.countEdge k q t).rd Pos.STAT_AT_LIMIT_HI k = 1 ∧
      (d.countEdge k q t).rd Pos.STAT_AT_LIMIT_LO k = 0 := by
  obtain ⟨hcnt, hhi, hlo⟩ := Dev.setCount_above (d := d.edgeSeen k q t) (by rwa [Dev.limits_edgeSeen])
  rw [Dev.countEdge_eq]
  refine ⟨?_, ?_, ?_⟩
  · rw [Dev.cnt_showDir, hcnt, Dev.limits_edgeSeen]
  · rw [Dev.rd_showDir_off _ _ _ _ (by decide), hhi]
  · rw [Dev.rd_showDir_off _ _ _ _ (by decide), hlo]

/-! ### The index (R183) -/

/-- A rise of Z that is an index: the channel counts and its Z is not held, the qualifier and the mode let it. -/
def Dev.IsIndex (d : Dev) (k z : Nat) : Prop :=
  (d.chan k).fZ = 0 ∧ z % 2 = 1 ∧ d.is Pos.STAT_WIRE_Z k = false ∧ d.enabled 0x10 k = true ∧ d.quadMode k = true ∧
    (d.chan k).stuck = false ∧ (d.is Pos.ENC_CFG_Z_QUAL k = true → (d.chan k).fA = 1 ∧ (d.chan k).fB = 1) ∧
    (d.rd Pos.ENC_CFG_Z_MODE k = 1 ∨ d.rd Pos.ENC_CFG_Z_MODE k = 2 ∧ d.is Pos.STAT_Z_ARMED k = true)

/-- What refuses an index, as the model tests it. -/
def Dev.noIndex (d : Dev) (k z : Nat) : Bool :=
  !((d.chan k).fZ == 0 && z % 2 == 1 && !d.is Pos.STAT_WIRE_Z k) || !d.enabled 0x10 k || !d.quadMode k ||
    (d.chan k).stuck || (d.is Pos.ENC_CFG_Z_QUAL k && !((d.chan k).fA == 1 && (d.chan k).fB == 1)) ||
    !(d.rd Pos.ENC_CFG_Z_MODE k == 1 || (d.rd Pos.ENC_CFG_Z_MODE k == 2 && d.is Pos.STAT_Z_ARMED k))

theorem Dev.noIndex_eq_false {d : Dev} {k z : Nat} : d.noIndex k z = false ↔ d.IsIndex k z := by
  simp only [Dev.noIndex, Dev.IsIndex, Bool.or_eq_false_iff, Bool.not_eq_false', Bool.and_eq_true, Bool.and_eq_false_imp,
    Bool.or_eq_true, Bool.not_eq_true', beq_iff_eq, and_assoc]

theorem Dev.rd_zLevel (d : Dev) (k z : Nat) (f : Fld) (h : f.place ≠ Pos.STAT_LEVEL_Z.place) :
    (d.zLevel k z).rd f k = d.rd f k := by
  unfold Dev.zLevel
  simp only
  split
  · rfl
  · rw [Dev.rd_wr_off _ _ _ _ _ h]
    rfl

theorem Dev.clk_zLevel (d : Dev) (k z : Nat) : (d.zLevel k z).clk = d.clk := by
  unfold Dev.zLevel
  simp only
  split <;> rfl

/-- The index is stored with its position and its time. -/
def Dev.indexStored (d : Dev) (k : Nat) (t : Nat) : Dev :=
  (d.wrI Pos.INDEX_POS k (d.posWord k)).wr Pos.INDEX_TIME k (tImg t)

/-- A level of Z, with everything that decides on an index read from the device before it. -/
theorem Dev.indexEdge_eq (d : Dev) (k z y : Nat) :
    d.indexEdge k z y =
      if d.noIndex k z then d.zLevel k z
      else (((d.zLevel k z).indexStored k (d.momentL y - edgeDelay)).when (d.rd Pos.ENC_CFG_Z_MODE k == 2)
        (fun e => e.wr Pos.STAT_Z_ARMED k 0)).evt 0x10 k Pos.E_INDEX := by
  unfold Dev.indexEdge
  extract_lets h mode rise e x
  have hen : e.enabled 0x10 k = d.enabled 0x10 k := Dev.enabled_congr (d.rd_zLevel k z _ (by decide))
  have hmode : e.quadMode k = d.quadMode k := Dev.quadMode_congr (d.rd_zLevel k z _ (by decide))
  have hqual : e.is Pos.ENC_CFG_Z_QUAL k = d.is Pos.ENC_CFG_Z_QUAL k := Dev.is_congr (d.rd_zLevel k z _ (by decide))
  have harm : e.is Pos.STAT_Z_ARMED k = d.is Pos.STAT_Z_ARMED k := Dev.is_congr (d.rd_zLevel k z _ (by decide))
  have hx : x = (d.zLevel k z).indexStored k (d.momentL y - edgeDelay) := by
    rw [← Dev.momentL_congr (d.clk_zLevel k z) y]
    rfl
  rw [hen, hmode, hqual, harm, hx]
  rfl

theorem Dev.indexEdge_of_not_isIndex {d : Dev} {k z : Nat} (y : Nat) (h : ¬ d.IsIndex k z) :
    d.indexEdge k z y = d.zLevel k z := by
  rw [Dev.indexEdge_eq, if_pos (by rwa [← Bool.not_eq_false, Dev.noIndex_eq_false])]

theorem Dev.indexEdge_of_isIndex {d : Dev} {k z : Nat} (y : Nat) (h : d.IsIndex k z) :
    d.indexEdge k z y =
      (((d.zLevel k z).indexStored k (d.momentL y - edgeDelay)).when (d.rd Pos.ENC_CFG_Z_MODE k == 2)
        (fun e => e.wr Pos.STAT_Z_ARMED k 0)).evt 0x10 k Pos.E_INDEX := by
  rw [Dev.indexEdge_eq, if_neg (by rw [Dev.noIndex_eq_false.2 h]; exact Bool.false_ne_true)]

/-! ### Commands of the island -/

/-- An island that is not powered and clocked does nothing (R51, R523). -/
theorem State.updOn_unpowered (s : State) (n : Nat) (f : Dev → Dev) (hp : s.dev.powered n = false) :
    s.updOn n f = .next (s.withDev s.dev) := by
  simp only [State.updOn, State.upd, hp, Dev.when_false]

/-- The level of a pair that is neither routed nor forced is the environment's (R508, R509). -/
theorem Dev.encPad_free {d : Dev} {k p : Nat} (hr : d.routedE k = false) (hp : d.padE k p = 0) (x : Nat) :
    d.encPad k p x = x := by
  simp only [Dev.encPad, hr, hp, Bool.false_eq_true, if_false, if_true]

/-- The window's end clears the count of a channel that counts edges, and does nothing to another (R182). -/
theorem exec_qerrWindow {s : State} (k : Fin 8) (hp : s.dev.powered 2 = true) :
    exec (.qerrWindow k) s = .next (s.withDev
      (if !s.dev.enabled 0x10 k || !s.dev.quadMode k then s.dev
        else s.dev.setChan k { s.dev.chan k with qwin := 0 })) :=
  State.updOn_eq s 2 _ hp

/-- What keeps a channel from stopping (R189, R194). -/
def Dev.noStop (d : Dev) (k : Nat) : Bool :=
  !d.enabled 0x10 k || d.is Pos.STAT_STOPPED k || (d.chan k).stuck || !d.hasMoved k ||
    decide (d.nowL < (d.chan k).tEdge + d.rd Pos.STOP_TIME k * 1000 * nsL)

/-- A channel that stops keeps its word and raises STOPPED (R189, R194). -/
def Dev.stop (d : Dev) (k : Nat) : Dev :=
  ((d.setChan k { d.chan k with
    word := d.posWord k, m := 0, edges := [], spd := if d.quadMode k then 0 else (d.chan k).spd }).wr
      Pos.STAT_STOPPED k 1).evt 0x10 k Pos.E_STOPPED

theorem exec_stopped {s : State} (k : Fin 8) (hp : s.dev.powered 2 = true) :
    exec (.stopped k) s = .next (s.withDev (if s.dev.noStop k then s.dev else s.dev.stop k)) :=
  State.updOn_eq s 2 _ hp

theorem Dev.noStop_eq_true {d : Dev} {k : Nat} :
    d.noStop k = true ↔ d.enabled 0x10 k = false ∨ d.is Pos.STAT_STOPPED k = true ∨ (d.chan k).stuck = true ∨
      d.hasMoved k = false ∨ d.nowL < (d.chan k).tEdge + d.rd Pos.STOP_TIME k * 1000 * nsL := by
  simp only [Dev.noStop, Bool.or_eq_true, Bool.not_eq_true', decide_eq_true_eq, or_assoc]

/-! ### The statement -/

/-- Settles O32: the commands by the rule of a powered island, the sample of A and B by its equation, the edge by what the count
does at the limits, the index by its condition. -/
theorem quadratureEdges : Obligations.QuadratureEdges := by
  unfold Obligations.QuadratureEdges
  refine ⟨by decide, fun s k => ⟨fun hp a b y c hc => ?_, fun hp => ?_⟩, fun d k => ?_⟩
  · simp only [List.mem_cons, List.not_mem_nil, or_false] at hc
    rcases hc with rfl | rfl | rfl | rfl <;> exact State.updOn_unpowered s 2 _ hp
  · refine ⟨fun a b y => State.updOn_eq s 2 _ hp, fun z y => State.updOn_eq s 2 _ hp,
      fun p x hr hpad => Dev.encPad_free hr hpad x, fun hen hmode => ?_, fun hoff => ?_, fun hno => ?_,
      fun hen hstop hstuck hmoved ht => ?_⟩
    · rw [exec_qerrWindow k hp, if_neg (by simp only [hen, hmode, Bool.not_true, Bool.or_self, Bool.false_eq_true,
        not_false_eq_true])]
    · rw [exec_qerrWindow k hp, if_pos (by simpa only [Bool.or_eq_true, Bool.not_eq_true'] using hoff)]
    · rw [exec_stopped k hp, if_pos (Dev.noStop_eq_true.2 hno)]
    · rw [exec_stopped k hp, if_neg]
      · rfl
      · rw [Dev.noStop_eq_true]
        simp only [hen, hstop, hstuck, hmoved, Nat.not_lt.2 ht, Bool.true_eq_false, Bool.false_eq_true, or_self,
          not_false_eq_true]
  · refine ⟨fun a b y e he => ?_, fun q t hlo hhi => Dev.countEdge_within hlo hhi,
      fun q t h => Dev.countEdge_above h, fun z y e he => ⟨fun hno => ?_, fun hidx x hx => ⟨fun hm => ?_, fun hm => ?_⟩⟩⟩
    · subst he
      refine ⟨Dev.quadEdge_still y, Dev.quadEdge_idle y, fun hen hmode hstuck g hg =>
        ⟨fun hA hB x hx => ⟨fun hle => ?_, fun hlt => ?_⟩, fun hc => ⟨fun x hx ht => ?_, fun hslow => ?_⟩⟩⟩
      · subst hx hg
        exact (Dev.quadEdge_both y hen hmode hstuck hA hB).trans (by rw [decide_eq_false (Nat.not_lt.2 hle), Dev.when_false]; rfl)
      · subst hx hg
        exact (Dev.quadEdge_both y hen hmode hstuck hA hB).trans (by rw [decide_eq_true hlt, Dev.when_true]; rfl)
      · subst hg
        exact (Dev.quadEdge_one y hen hmode hstuck hc).trans (by rw [Dev.tooFast_of_lt hx ht, Dev.when_true]; rfl)
      · subst hg
        exact (Dev.quadEdge_one y hen hmode hstuck hc).trans (by rw [Dev.not_tooFast hslow, Dev.when_false]; rfl)
    · subst he
      exact Dev.indexEdge_of_not_isIndex y hno
    · subst he hx
      rw [Dev.indexEdge_of_isIndex y hidx, hm, beq_self_eq_true, Dev.when_true, Dev.indexStored]
    · subst he hx
      rw [Dev.indexEdge_of_isIndex y hidx, beq_eq_false_iff_ne.2 hm, Dev.when_false, Dev.indexStored]

end Sys2Proof.Machine
end

