-- ==== Sys2Proof/Proofs/SampledCoverage.lean ====
section
/-!
PROOFS. The sampled coverage (R329): the model counts in naturals and divides, where the spec writes arithmetic shifts of whole
numbers. A fraction of a coordinate is one of 16 steps, so no weight is cut off at 0; from this the statement O52.
-/

open Sys2Proof

namespace Sys2Proof.Machine

/-! ### The weights of the four pixels -/

/-- The weight of the pixel on a coordinate's far side: the fraction itself, in sixteenths. -/
theorem toNat_sixteenths (i : Int) : ((i % 16).toNat : Int) = i % 16 :=
  Int.toNat_of_nonneg (Int.emod_nonneg i (by decide))

/-- The weight of the pixel on a coordinate's near side: the fraction is below 16, so the natural difference is the true one. -/
theorem sub_toNat_sixteenths (i : Int) : ((16 - (i % 16).toNat : Nat) : Int) = 16 - i % 16 := by
  have hlt : i % 16 < 16 := Int.emod_lt_of_pos i (by decide)
  rw [Int.ofNat_sub (Int.toNat_le.2 (Int.le_of_lt hlt)), toNat_sixteenths]
  rfl

/-- The sample as a whole number: the four blurred pixels by their weights, rounded (R329). -/
theorem Ref.sample_cast (r : Ref) (k : Nat) (u v : Int) :
    (r.sample k u v : Int) =
      (r.blur k (u / 256) (v / 256) * (16 - u / 16 % 16) * (16 - v / 16 % 16) +
        r.blur k (u / 256 + 1) (v / 256) * (u / 16 % 16) * (16 - v / 16 % 16) +
        r.blur k (u / 256) (v / 256 + 1) * (16 - u / 16 % 16) * (v / 16 % 16) +
        r.blur k (u / 256 + 1) (v / 256 + 1) * (u / 16 % 16) * (v / 16 % 16) + 128) / 256 := by
  simp only [Ref.sample, Int.natCast_ediv, Int.natCast_add, Int.natCast_mul, toNat_sixteenths, sub_toNat_sixteenths,
    Int.cast_ofNat_Int]

/-! ### The shifts -/

/-- An arithmetic shift by 8, its amount read as a whole number or as a natural one. -/
theorem shiftRight_eight (i : Int) : i >>> 8 = i / 256 ∧ i >>> (8 : Nat) = i / 256 := by
  have hnat : i >>> (8 : Nat) = i / 256 := Int.shiftRight_eq_div_pow i 8
  have hint : i >>> 8 = i >>> (8 : Nat) := by cases i <;> rfl
  exact ⟨hint.trans hnat, hnat⟩

/-- An arithmetic shift by 4, its amount read as a whole number or as a natural one. -/
theorem shiftRight_four (i : Int) : i >>> 4 = i / 16 ∧ i >>> (4 : Nat) = i / 16 := by
  have hnat : i >>> (4 : Nat) = i / 16 := Int.shiftRight_eq_div_pow i 4
  have hint : i >>> 4 = i >>> (4 : Nat) := by cases i <;> rfl
  exact ⟨hint.trans hnat, hnat⟩

/-! ### The statement -/

/-- Settles O52: the shifts of R329 are the divisions of the sample's equation. -/
theorem sampledCoverage : Obligations.SampledCoverage := by
  intro r k u v
  simp only [shiftRight_eight, shiftRight_four]
  exact r.sample_cast k u v

end Sys2Proof.Machine
end

