-- ==== Sys2Proof/Proofs/EventsAndFaults.lean ====
section
/-!
PROOFS. Events and faults (R39–R42, R233, R477–R483): what a checker's fault leads to in each of its cases, that the reaction to a
FATAL source brings the device to its alarm state and that nothing a later fault does takes it out again, and from these the
statement O60.
-/

open Sys2Proof

namespace Sys2Proof.Machine

/-! ### A map of bits, read bit by bit (R42) -/

theorem mapOf_succ (n : Nat) (f : Nat → Bool) : mapOf (n + 1) f = if f n then 2 ^ n + mapOf n f else mapOf n f := by
  simp only [mapOf, List.range_succ, List.foldl_append, List.foldl_cons, List.foldl_nil, Nat.add_comm]

theorem mapOf_lt (n : Nat) (f : Nat → Bool) : mapOf n f < 2 ^ n := by
  induction n with
  | zero => exact Nat.one_pos
  | succ n ih =>
    rw [mapOf_succ, Nat.pow_succ]
    split <;> omega

theorem testBit_mapOf (n : Nat) (f : Nat → Bool) (b : Nat) (hb : b < n) : (mapOf n f).testBit b = f b := by
  induction n with
  | zero => exact absurd hb (Nat.not_lt_zero b)
  | succ n ih =>
    rw [mapOf_succ]
    rcases Nat.lt_succ_iff_lt_or_eq.1 hb with h | rfl
    · split
      · rw [Nat.testBit_two_pow_add_gt h, ih h]
      · exact ih h
    · have hlow : (mapOf b f).testBit b = false := Nat.testBit_lt_two_pow (mapOf_lt b f)
      split
      · next hf => rw [Nat.testBit_two_pow_add_eq, hlow, hf, Bool.not_false]
      · next hf => rw [hlow, Bool.eq_false_iff.2 hf]

/-- FLT_EN of a FATAL source reads 1 (R478). -/
theorem Dev.fltEn_fatal (d : Dev) {c i b : Nat} (hb : b < 32) (hs : fltSeverity c i b = some 4) :
    (d.fltEn c i).testBit b = true := by
  rw [Dev.fltEn, testBit_mapOf _ _ _ hb, hs]
  rfl

/-! ### A fault, case by case (R42, R477, R478) -/

/-- The device with the FLT bit of a source set. -/
def Dev.fltFlag (d : Dev) (c i b : Nat) : Dev := d.wr (Hdr.FLT c) i (d.rd (Hdr.FLT c) i ||| 2 ^ b)

/-- Setting the bit leaves FLT_EN of the page. -/
theorem Dev.rd_fltDis_fltFlag (d : Dev) (c i b : Nat) : (d.fltFlag c i b).rd (Hdr.FLT_DIS c) i = d.rd (Hdr.FLT_DIS c) i :=
  Dev.rd_wr_off _ _ _ _ _ (by simp only [Hdr.FLT, Hdr.FLT_DIS]; omega)

/-- No such source, or its bit is set already: no new fault. -/
theorem Dev.fltCore_of_not_new {d : Dev} {c i b : Nat}
    (h : (d.rd (Hdr.FLT c) i).testBit b = true ∨ fltSeverity c i b = none) : d.fltCore c i b = d := by
  unfold Dev.fltCore
  split
  · rfl
  · next hs =>
    obtain hset | hnone := h
    · exact if_pos hset
    · simp only [hnone, reduceCtorEq] at hs

section New

variable {d : Dev} {c i b sev : Nat} (hs : fltSeverity c i b = some sev) (hnew : (d.rd (Hdr.FLT c) i).testBit b = false)
include hs hnew

/-- A new fault sets its bit; a disabled source that is not FATAL raises none, every other has its class's reaction. -/
theorem Dev.fltCore_of_new :
    d.fltCore c i b =
      if ((d.fltFlag c i b).rd (Hdr.FLT_DIS c) i).testBit b && sev != 4 then d.fltFlag c i b
      else (d.fltFlag c i b).react (uncanon c i).1 (uncanon c i).2 b sev := by
  unfold Dev.fltCore
  rw [hs]
  exact if_neg (by rw [hnew]; exact Bool.false_ne_true)

theorem Dev.fltCore_of_disabled (hsev : sev ≠ 4) (hdis : (d.rd (Hdr.FLT_DIS c) i).testBit b = true) :
    d.fltCore c i b = d.fltFlag c i b := by
  rw [Dev.fltCore_of_new hs hnew, Dev.rd_fltDis_fltFlag, hdis, if_pos (by simpa only [Bool.true_and, bne_iff_ne] using hsev)]

theorem Dev.fltCore_of_enabled (hen : sev = 4 ∨ (d.rd (Hdr.FLT_DIS c) i).testBit b = false) :
    d.fltCore c i b = (d.fltFlag c i b).react (uncanon c i).1 (uncanon c i).2 b sev := by
  rw [Dev.fltCore_of_new hs hnew, Dev.rd_fltDis_fltFlag, if_neg]
  obtain rfl | hdis := hen
  · simp only [bne_self_eq_false, Bool.and_false, Bool.false_eq_true, not_false_eq_true]
  · simp only [hdis, Bool.false_and, Bool.false_eq_true, not_false_eq_true]

end New

/-- Everything a fault can do before the wear counters are looked at. -/
theorem Dev.fltCore_cases (d : Dev) (c i b : Nat) :
    d.fltCore c i b = d ∨ d.fltCore c i b = d.fltFlag c i b ∨
      ∃ sev, d.fltCore c i b = (d.fltFlag c i b).react (uncanon c i).1 (uncanon c i).2 b sev := by
  cases hs : fltSeverity c i b with
  | none => exact .inl (Dev.fltCore_of_not_new (.inr hs))
  | some sev =>
    cases hset : (d.rd (Hdr.FLT c) i).testBit b with
    | true => exact .inl (Dev.fltCore_of_not_new (.inl hset))
    | false =>
      rw [Dev.fltCore_of_new hs hset]
      split
      · exact .inr (.inl rfl)
      · exact .inr (.inr ⟨sev, rfl⟩)

/-- With no wear counter at its limit afterwards, no NV_WEAR comes on top (R494). -/
theorem Dev.flt_eq_fltCore {d e : Dev} {c i b : Nat} (h : d.fltCore c i b = e) (hw : e.worn = false) : d.flt c i b = e := by
  unfold Dev.flt
  simp only [h, hw, Bool.false_eq_true, if_false]

/-! ### The alarm state: DEV_HEALTH 2 and outputs at their SAFE level (R233, R483) -/

/-- DEV_HEALTH is 2 and the first n outputs present their SAFE level. -/
def Dev.Alarmed (d : Dev) (n : Nat) : Prop :=
  d.rd AO.DEV_HEALTH_HEALTH 0 = 2 ∧ ∀ m, m < n → d.is Out.STAT_SAFE_ACTIVE m = true

/-- Where DEV_HEALTH and the outputs' safe state read as before, the alarm state stays. -/
theorem Dev.Alarmed.congr {d e : Dev} {n : Nat} (h : d.Alarmed n)
    (hh : e.rd AO.DEV_HEALTH_HEALTH 0 = d.rd AO.DEV_HEALTH_HEALTH 0)
    (hs : ∀ m, e.rd Out.STAT_SAFE_ACTIVE m = d.rd Out.STAT_SAFE_ACTIVE m) : e.Alarmed n :=
  ⟨hh.trans h.1, fun m hm => (Dev.is_congr (hs m)).trans (h.2 m hm)⟩

/-- What keeps every register keeps the alarm state. -/
theorem Dev.Alarmed.of_regs {d e : Dev} {n : Nat} (h : d.Alarmed n) (hr : e.regs = d.regs) : e.Alarmed n :=
  h.congr (by simp only [Dev.rd, hr]) (fun m => by simp only [Dev.rd, hr])

/-- The place of an output's safe state, told from those of the AO, NV and collector pages and from every FLT register. -/
theorem safeActive_key (m : Nat) :
    Out.STAT_SAFE_ACTIVE.key m 0 / 32 % 4096 = 0x10 ∧ 0x12 ≤ Out.STAT_SAFE_ACTIVE.key m 0 / (32 * 4096 * 64) := by
  simp only [Fld.key, Out.STAT_SAFE_ACTIVE]
  omega

theorem safeActive_quiet (m : Nat) : Out.STAT_SAFE_ACTIVE.quiet m 0 := by
  simp only [Fld.quiet, evtKey, (safeActive_key m).1, Nat.reduceBEq, Nat.reduceLeDiff, decide_false, Bool.and_false,
    Bool.or_false]

/-- Events leave the alarm state. -/
theorem Dev.Alarmed.raised {d e : Dev} {n : Nat} (h : d.Alarmed n) (hr : Raised d e) : e.Alarmed n :=
  h.congr (hr.rd _ _ _ (Fld.quiet_of _ _ (by decide) (by decide))) (fun m => hr.rd _ _ _ (safeActive_quiet m))

/-- So does a register of classes 0x00 to 0x02 other than DEV_HEALTH; the premises are decided for named fields. -/
theorem Dev.Alarmed.wrAo {d : Dev} {n : Nat} (h : d.Alarmed n) (f : Fld) (v : Nat)
    (hf : f.cls ≤ 2 ∧ f.off < 4096 ∧ f.lo < 32 ∧ AO.DEV_HEALTH_HEALTH.place ≠ f.place) : (d.wr f 0 v).Alarmed n := by
  obtain ⟨hc, ho, hl, hp⟩ := hf
  refine h.congr (Dev.rd_wr_off _ _ _ _ _ hp) (fun m => Dev.rd_wr_ne _ _ _ _ _ _ _ _ (fun hk => ?_))
  have hm := (safeActive_key m).2
  rw [hk, Fld.key_zero] at hm
  omega

/-- So does setting an FLT bit. -/
theorem Dev.Alarmed.fltFlag {d : Dev} {n : Nat} (h : d.Alarmed n) (c i b : Nat) : (d.fltFlag c i b).Alarmed n := by
  refine h.congr (Dev.rd_wr_ne _ _ _ _ _ _ _ _ (fun hk => ?_)) (fun m => Dev.rd_wr_ne _ _ _ _ _ _ _ _ (fun hk => ?_))
  · have hflt := flt_key c i
    rw [← hk] at hflt
    exact absurd hflt (by decide)
  · have hflt := flt_key c i
    rw [← hk, (safeActive_key m).1] at hflt
    exact absurd hflt (by decide)

/-- A change under a condition keeps the alarm state where the change does. -/
theorem Dev.Alarmed.when {d : Dev} {n : Nat} (h : d.Alarmed n) (c : Bool) (k : Dev → Dev)
    (hk : c = true → (k d).Alarmed n) : (d.when c k).Alarmed n := by
  cases c with
  | true => exact hk rfl
  | false => exact h

/-! ### The parts of a reaction keep the alarm state -/

theorem cntOfClass_place_ne (sev : Nat) : AO.DEV_HEALTH_HEALTH.place ≠ (cntOfClass sev).place := by
  unfold cntOfClass
  split <;> decide

theorem Dev.Alarmed.incClass {d : Dev} {n : Nat} (h : d.Alarmed n) (sev : Nat) : (d.incSat (cntOfClass sev) 0).Alarmed n := by
  obtain ⟨hc, ho, hl, -⟩ := cntOfClass_ao sev
  exact h.wrAo _ _ ⟨hc, ho, hl, cntOfClass_place_ne sev⟩

theorem Dev.Alarmed.alert {d : Dev} {n : Nat} (h : d.Alarmed n) : d.alert.Alarmed n :=
  h.wrAo AO.HEALTH_PINS_ALERT 1 (by decide)

theorem Dev.Alarmed.showFirst {d : Dev} {n : Nat} (h : d.Alarmed n) : d.showFirst.Alarmed n :=
  (((((h.wrAo Fc.SUMMARY_FIRST_CLASS _ (by decide)).wrAo Fc.SUMMARY_FIRST_TIE _ (by decide)).wrAo Fc.FIRST_SRC_BIT _
    (by decide)).wrAo Fc.FIRST_SRC_CLASS _ (by decide)).wrAo Fc.FIRST_SRC_INSTANCE _ (by decide)).of_regs rfl

theorem Dev.Alarmed.summary {d : Dev} {n : Nat} (h : d.Alarmed n) (c i b sev : Nat) : (d.summary c i b sev).Alarmed n := by
  unfold Dev.summary
  extract_lets _ e
  have he : e.Alarmed n := h.of_regs rfl
  split
  · exact he.showFirst.raised (Dev.evt_raised _ _ _ _)
  · split
    · exact he.showFirst
    · exact he

theorem Dev.Alarmed.setHealthRec {d : Dev} {n : Nat} (h : d.Alarmed n) (r : HealthRec) :
    Dev.Alarmed { d with health := r } n := h.of_regs rfl

theorem Dev.Alarmed.nvStore {d : Dev} {n : Nat} (h : d.Alarmed n) (a v : Nat) : (d.nvStore a v).Alarmed n :=
  (h.wrAo (Hdr.FLT_INJ 2) _ (by decide)).of_regs rfl

theorem Dev.Alarmed.foldl {β : Type} {n : Nat} (f : Dev → β → Dev) (hf : ∀ d : Dev, d.Alarmed n → ∀ x, (f d x).Alarmed n)
    (l : List β) {d : Dev} (h : d.Alarmed n) : (l.foldl f d).Alarmed n := by
  induction l generalizing d with
  | nil => exact h
  | cons x l ih => exact ih (hf d h x)

theorem Dev.Alarmed.hrecWrite {d : Dev} {n : Nat} (h : d.Alarmed n) : d.hrecWrite.Alarmed n := by
  unfold Dev.hrecWrite
  split
  · exact (Dev.Alarmed.foldl _ (fun _ hd _ => hd.nvStore _ _) _ h).setHealthRec _
  · exact h

/-! ### The reaction to a FATAL source -/

/-- DEV_HEALTH takes 2, whatever it was. -/
theorem Dev.setHealth_two (d : Dev) : (d.setHealth 2).Alarmed 0 := by
  unfold Dev.setHealth
  split
  · next h => exact ⟨h, fun _ hm => absurd hm (Nat.not_lt_zero _)⟩
  · have hw : (d.wr AO.DEV_HEALTH_HEALTH 0 2).Alarmed 0 := ⟨Dev.rd_wr _ _ _ _ _, fun _ hm => absurd hm (Nat.not_lt_zero _)⟩
    exact (((hw.wrAo AO.HEALTH_PINS_REPLACE _ (by decide)).wrAo AO.HEALTH_PINS_FAULT _ (by decide)).raised
      (Dev.evt_raised _ _ _ _)).alert

/-- One more output is driven to its SAFE level. -/
theorem Dev.Alarmed.wrSafe {d : Dev} {n : Nat} (h : d.Alarmed n) : (d.wr Out.STAT_SAFE_ACTIVE n 1).Alarmed (n + 1) := by
  refine ⟨?_, fun m hm => ?_⟩
  · rw [Dev.rd_wr_ne, h.1]
    intro hk
    have hp := (safeActive_key n).1
    rw [← hk] at hp
    exact absurd hp (by decide)
  · rw [Dev.is_eq]
    rcases Nat.lt_succ_iff_lt_or_eq.1 hm with hlt | rfl
    · rw [Dev.rd_wr_ne]
      · exact h.2 m hlt
      · simp only [Fld.key, Out.STAT_SAFE_ACTIVE]
        omega
    · rw [Dev.rd_wr]
      rfl

/-- Driving the outputs one after the other drives them all. -/
theorem Dev.Alarmed.safeAll {d : Dev} (h : d.Alarmed 0) : d.safeAll.Alarmed 32 := by
  unfold Dev.safeAll
  generalize 32 = n
  induction n with
  | zero => exact h
  | succ n ih =>
    rw [List.range_succ, List.foldl_append, List.foldl_cons, List.foldl_nil]
    split
    · next hn =>
      refine ⟨ih.1, fun m hm => ?_⟩
      rcases Nat.lt_succ_iff_lt_or_eq.1 hm with hlt | rfl
      · exact ih.2 m hlt
      · exact hn
    · exact ih.wrSafe.raised (Dev.evt_raised _ _ _ _)

/-- A DEGRADED fault does not lower DEV_HEALTH: FATAL stands (R483). -/
theorem Dev.Alarmed.ite_setHealth {d : Dev} {n : Nat} (h : d.Alarmed n) (x : Nat) :
    (if d.rd AO.DEV_HEALTH_HEALTH 0 = 2 then d else d.setHealth x).Alarmed n := by
  rw [if_pos h.1]
  exact h

/-- A FATAL source's reaction ends in the alarm state, and every other reaction keeps it. -/
theorem Dev.react_alarmed (d : Dev) (c i b sev : Nat) (h : sev = 4 ∨ d.Alarmed 32) : (d.react c i b sev).Alarmed 32 := by
  unfold Dev.react
  extract_lets d₁ d₂ d₃ d₄
  have h₄ : d₄.Alarmed 32 := by
    obtain rfl | h := h
    · exact (Dev.setHealth_two d₃).safeAll
    · have h₂ : d₂.Alarmed 32 := (h.incClass sev).when _ _ (fun _ => (h.incClass sev).summary c i b sev)
      have h₃ : d₃.Alarmed 32 := h₂.when _ _ (fun _ => ((h₂.ite_setHealth 1).setHealthRec _).hrecWrite)
      exact h₃.when _ _ (fun _ => (Dev.setHealth_two d₃).safeAll)
  exact h₄.when _ _ (fun _ => h₄.alert)

/-- No fault takes the device out of the alarm state. -/
theorem Dev.Alarmed.fltCore {d : Dev} (h : d.Alarmed 32) (c i b : Nat) : (d.fltCore c i b).Alarmed 32 := by
  obtain he | he | ⟨sev, he⟩ := d.fltCore_cases c i b <;> rw [he]
  · exact h
  · exact h.fltFlag c i b
  · exact Dev.react_alarmed _ _ _ _ _ (.inr (h.fltFlag c i b))

/-- A new fault of a FATAL source brings the device to the alarm state (R233, R483). -/
theorem Dev.flt_alarmed {d : Dev} {c i b : Nat} (hs : fltSeverity c i b = some 4)
    (hnew : (d.rd (Hdr.FLT c) i).testBit b = false) : (d.flt c i b).Alarmed 32 := by
  have h : (d.fltCore c i b).Alarmed 32 := by
    rw [Dev.fltCore_of_enabled hs hnew (.inl rfl)]
    exact Dev.react_alarmed _ _ _ _ _ (.inl rfl)
  unfold Dev.flt
  simp only
  split
  · exact h.fltCore 2 0 Nv.F_NV_WEAR
  · exact h

/-! ### The statement -/

/-- Settles O60: the frames by what an event and a fault can do, the exact results by the cases of a fault, the FATAL source by the
alarm state. -/
theorem eventsAndFaults : Obligations.EventsAndFaults := by
  unfold Obligations.EventsAndFaults
  intro d c i b hb
  refine ⟨⟨Dev.evt_set d c i b hb, fun n hn => (Dev.evt_raised d c i b).evts c i n hn, (Dev.evt_raised d c i b).rest⟩,
    fun sev hs => Dev.flt_set d c i b sev hb hs, fun hs hnew => Dev.flt_alarmed hs hnew,
    fun hw hold => Dev.flt_eq_fltCore (Dev.fltCore_of_not_new hold) hw, fun sev hs hnew e he => ⟨fun hw hsev hdis => ?_,
    fun hen hw => ?_⟩, fun hs => Dev.fltEn_fatal d hb hs, (Dev.flt_faulted d c i b).rest⟩
  · subst he
    exact Dev.flt_eq_fltCore (Dev.fltCore_of_disabled hs hnew hsev hdis) hw
  · subst he
    exact Dev.flt_eq_fltCore (Dev.fltCore_of_enabled hs hnew hen) hw

end Sys2Proof.Machine
end

