-- ==== Sys2Proof/Proofs/WholeBlock.lean ====
section
/-!
PROOFS. The block as a whole: a command answers a next state whose frame store is the old one with what the command wrote, and a
step is a command on the rest of the queue or one idle tick; from these the statements O1 to O6.
-/

open Sys2Proof

namespace Sys2Proof.Machine

/-! ### What a command and a step answer -/

/-- Every command answers the state in which what it wrote has landed, or the state with its frame store as it was. -/
theorem exec_answers (c : Instr) (s : State) :
    ∃ d, exec c s = .next (s.landed d) ∨ exec c s = .next (s.withDev d) := by
  cases h : mayStore c with
  | true => exact (exec_stores c s h).imp fun _ => .inl
  | false => exact (exec_keeps c s h).imp fun _ => .inr

theorem step_cons {s : State} {c : Instr} {rest : List Instr} (h : s.pending = c :: rest) :
    step s = exec c { s with pending := rest } := by
  simp only [step, h]

theorem step_nil {s : State} (h : s.pending = []) :
    step s = .next (s.withDev (((s.dev.tick.routed.linesDue.pdClose 0).pdClose 1).mirrors)) := by
  simp only [step, h, execIdle, State.upd]

theorem Dev.wbuf_done (d : Dev) : d.done.wbuf = [] := rfl

/-- The frame store after a step is the old one with a list of changes made, the queue is the tail, and nothing is on its way. -/
theorem step_answers (s : State) :
    ∃ t, step s = .next t ∧ t.pending = s.pending.tail ∧ t.dev.wbuf = [] ∧
      ∃ os : List MemOp, t.mem = os.foldl FrameStore.apply s.mem := by
  cases h : s.pending with
  | nil =>
    exact ⟨_, step_nil h, (State.withDev_pending _ _).trans h, Dev.wbuf_done _, [], State.withDev_mem _ _⟩
  | cons c rest =>
    rw [step_cons h]
    obtain ⟨d, he | he⟩ := exec_answers c { s with pending := rest } <;> rw [he]
    · exact ⟨_, rfl, State.landed_pending _ _, Dev.wbuf_done d, d.wbuf, rfl⟩
    · exact ⟨_, rfl, State.withDev_pending _ _, Dev.wbuf_done d, [], State.withDev_mem _ _⟩

/-! ### The statements -/

/-- Settles O1, by the equation of a step with a command waiting. -/
theorem stepCarriesOutFrontCommand : Obligations.StepCarriesOutFrontCommand :=
  fun _ _ _ h => step_cons h

/-- Settles O2: neither form of an answer touches the queue. -/
theorem stepAlwaysAnswers : Obligations.StepAlwaysAnswers := by
  refine ⟨fun c s => ?_, fun s => ?_⟩
  · obtain ⟨d, he | he⟩ := exec_answers c s
    · exact ⟨_, he, State.landed_pending s d⟩
    · exact ⟨_, he, State.withDev_pending s d⟩
  · obtain ⟨t, ht, hq, -, -⟩ := step_answers s
    exact ⟨t, ht, hq⟩

/-- Settles O3, by the equation of an idle step. -/
theorem idleStepTicks : Obligations.IdleStepTicks :=
  fun s h => ⟨_, step_nil h, State.withDev_mem s _, (State.withDev_pending s _).trans h, rfl⟩

/-- Settles O4: the frame store of reset is empty. -/
theorem resetIsSound : Obligations.ResetIsSound := ⟨reset_mem_wf, rfl⟩

/-- Settles O5: every change that a command makes to the frame store keeps its canonical form. -/
theorem stepKeepsSound : Obligations.StepKeepsSound := by
  intro s t hs ht
  obtain ⟨t', ht', -, hland, os, hmem⟩ := step_answers s
  obtain rfl : t' = t := Host.Outcome.next.inj (ht'.symm.trans ht)
  exact ⟨hmem ▸ applyAll_wf os s.mem hs.mem, hland⟩

/-- Settles O6: a command that may not store answers the state with its frame store. -/
theorem onlyStoringCommandsWrite : Obligations.OnlyStoringCommandsWrite := by
  intro c s t hc ht
  obtain ⟨d, he⟩ := exec_keeps c s hc
  obtain rfl : s.withDev d = t := Host.Outcome.next.inj (he.symm.trans ht)
  exact State.withDev_mem s d

end Sys2Proof.Machine
end

