-- ==== Sys2Proof/Proofs/Reads.lean ====
section
/-!
PROOFS. Reading a field after an update of the device: changes under a condition, fields at different places of a page, events and
faults, folds of changes, and a list of fields written one after the other.
-/

open Sys2Proof

namespace Sys2Proof.Machine

/-! ### Changes under a condition -/

theorem Dev.when_of_eq_true {d : Dev} {c : Bool} {k : Dev → Dev} (h : c = true) : d.when c k = k d := by
  rw [h, Dev.when_true]

theorem Dev.when_of_eq_false {d : Dev} {c : Bool} {k : Dev → Dev} (h : c = false) : d.when c k = d := by
  rw [h, Dev.when_false]

/-! ### Fields at different places -/

/-- Fields at different places of their pages differ in every page. -/
theorem Dev.rd_wr_spot (d : Dev) (f g : Fld) (i p v : Nat)
    (h : f.off < 4096 ∧ g.off < 4096 ∧ f.lo < 32 ∧ g.lo < 32 ∧ (g.off ≠ f.off ∨ g.lo ≠ f.lo)) :
    (d.wr f i v).rd g p = d.rd g p :=
  Dev.rd_wr_ne _ _ _ _ _ _ _ _ (by simp only [Fld.key]; omega)

/-- A field reads as before in every other page of its class. -/
theorem Dev.rd_wr_inst (d : Dev) (f g : Fld) (i p v : Nat)
    (h : f.cls = g.cls ∧ f.off < 4096 ∧ g.off < 4096 ∧ f.lo < 32 ∧ g.lo < 32) (hi : p ≠ i) :
    (d.wr f i v).rd g p = d.rd g p :=
  Dev.rd_wr_ne _ _ _ _ _ _ _ _ (by simp only [Fld.key]; omega)

/-- Fields of different classes differ in every page. -/
theorem Dev.rd_wr_class (d : Dev) (f g : Fld) (i p v : Nat)
    (h : f.cls ≠ g.cls ∧ f.off < 4096 ∧ g.off < 4096 ∧ f.lo < 32 ∧ g.lo < 32) (hi : i < 64) (hp : p < 64) :
    (d.wr f i v).rd g p = d.rd g p :=
  Dev.rd_wr_ne _ _ _ _ _ _ _ _ (by simp only [Fld.key]; omega)

theorem Dev.is_wr_off (d : Dev) (f g : Fld) (i v : Nat) (h : g.place ≠ f.place) : (d.wr f i v).is g i = d.is g i :=
  Dev.is_congr (Dev.rd_wr_off d f g i v h)

theorem Dev.is_wrb_off (d : Dev) (f g : Fld) (i : Nat) (b : Bool) (h : g.place ≠ f.place) :
    (d.wrb f i b).is g i = d.is g i :=
  Dev.is_wr_off d f g i _ h

/-- A truth value written into a field of one bit reads back. -/
theorem Dev.is_wrb (d : Dev) (f : Fld) (i : Nat) (b : Bool) (h : f.w = 1) : (d.wrb f i b).is f i = b := by
  rw [Dev.is_eq, Dev.rd_wrb, h]
  cases b <;> rfl

theorem Dev.rd_incSat_self (d : Dev) (f : Fld) (i : Nat) :
    (d.incSat f i).rd f i = satAdd f.w (d.rd f i) 1 % 2 ^ f.w :=
  Dev.rd_wr _ _ _ _ _

theorem Dev.is_eq_false_iff {d : Dev} {f : Fld} {i : Nat} : d.is f i = false ↔ d.rd f i = 0 := by
  rw [Dev.is_eq, bne_eq_false_iff_eq]

/-- Where the register map is the same, every field is. -/
theorem Dev.rd_of_regs {d e : Dev} (h : e.regs = d.regs) (f : Fld) (i j : Nat) : e.rd f i j = d.rd f i j := by
  simp only [Dev.rd, h]

/-! ### Events and faults -/

/-- An event leaves every field but EVT and the queue pages'; the premise is decided for named fields. -/
theorem Dev.rd_evt_off (d : Dev) (c i b : Nat) (f : Fld) {n : Nat} (k : Fin n)
    (h : f.off < 4096 ∧ f.lo < 32 ∧ f.off ≠ 0x14 ∧ f.cls ≠ 0x1B ∧ n ≤ 64) : (d.evt c i b).rd f k = d.rd f k :=
  Dev.evt_rd d c i b f k 0 (Fld.quiet_of f k ⟨h.1, h.2.1, h.2.2.1, h.2.2.2.1⟩ (Nat.lt_of_lt_of_le k.2 h.2.2.2.2))

theorem Dev.is_evt_off (d : Dev) (c i b : Nat) (f : Fld) {n : Nat} (k : Fin n)
    (h : f.off < 4096 ∧ f.lo < 32 ∧ f.off ≠ 0x14 ∧ f.cls ≠ 0x1B ∧ n ≤ 64) : (d.evt c i b).is f k = d.is f k :=
  Dev.is_congr (Dev.rd_evt_off d c i b f k h)

/-- A field that is neither in EVT nor in FLT nor in a page that faults write is left by a fault; the premise is decided for
named fields. -/
theorem Fld.calm_of (f : Fld) {n : Nat} (k : Fin n)
    (h : f.off < 4096 ∧ f.lo < 32 ∧ f.off ≠ 0x14 ∧ f.off ≠ 0x20 ∧ f.cls ≠ 0x1B ∧ 2 < f.cls ∧ (f.cls ≠ 0x12 ∨ f.off ≠ 0x10) ∧
      n ≤ 64) : f.calm k 0 := by
  obtain ⟨ho, hl, he, hf, hq, ha, hs, hn⟩ := h
  have hk := k.2
  have hoff : f.key k 0 / 32 % 4096 = f.off := by
    rw [Fld.key]
    omega
  have hcls : f.key k 0 / (32 * 4096 * 64) = f.cls := by
    rw [Fld.key]
    omega
  simp only [Fld.calm, fltKey, evtKey, hoff, hcls, Bool.or_eq_false_iff, Bool.and_eq_false_iff, beq_eq_false_iff_ne,
    decide_eq_false_iff_not, Nat.not_le]
  exact ⟨⟨⟨⟨he, .inl hq⟩, hf⟩, ha⟩, hs⟩

theorem Dev.rd_flt_off (d : Dev) (c i b : Nat) (f : Fld) {n : Nat} (k : Fin n)
    (h : f.off < 4096 ∧ f.lo < 32 ∧ f.off ≠ 0x14 ∧ f.off ≠ 0x20 ∧ f.cls ≠ 0x1B ∧ 2 < f.cls ∧ (f.cls ≠ 0x12 ∨ f.off ≠ 0x10) ∧
      n ≤ 64) : (d.flt c i b).rd f k = d.rd f k :=
  Dev.flt_rd d c i b f k 0 (Fld.calm_of f k h)

theorem Dev.is_flt_off (d : Dev) (c i b : Nat) (f : Fld) {n : Nat} (k : Fin n)
    (h : f.off < 4096 ∧ f.lo < 32 ∧ f.off ≠ 0x14 ∧ f.off ≠ 0x20 ∧ f.cls ≠ 0x1B ∧ 2 < f.cls ∧ (f.cls ≠ 0x12 ∨ f.off ≠ 0x10) ∧
      n ≤ 64) : (d.flt c i b).is f k = d.is f k :=
  Dev.is_congr (Dev.rd_flt_off d c i b f k h)

/-- A field below the queue blocks and outside EVT is left by an event in every page, whatever its number. -/
theorem Dev.rd_evt_low (d : Dev) (c i b : Nat) (f : Fld) (k : Nat) (h : f.off < 256 ∧ f.lo < 32 ∧ f.off ≠ 0x14) :
    (d.evt c i b).rd f k = d.rd f k := by
  obtain ⟨ho, hl, he⟩ := h
  refine Dev.evt_rd d c i b f k 0 ?_
  have hoff : f.key k 0 / 32 % 4096 = f.off := by
    rw [Fld.key]
    omega
  simp only [Fld.quiet, evtKey, hoff, Bool.or_eq_false_iff, Bool.and_eq_false_iff, beq_eq_false_iff_ne,
    decide_eq_false_iff_not]
  exact ⟨he, .inr (by omega)⟩

theorem Dev.is_evt_low (d : Dev) (c i b : Nat) (f : Fld) (k : Nat) (h : f.off < 256 ∧ f.lo < 32 ∧ f.off ≠ 0x14) :
    (d.evt c i b).is f k = d.is f k :=
  Dev.is_congr (Dev.rd_evt_low d c i b f k h)

@[simp] theorem Dev.evt_lane (d : Dev) (c i b m : Nat) : (d.evt c i b).lane m = d.lane m := by
  simp only [Dev.lane, Dev.evt_lanes]

@[simp] theorem Dev.evt_port (d : Dev) (c i b m : Nat) : (d.evt c i b).port m = d.port m := by
  simp only [Dev.port, Dev.evt_ports]

/-! ### Properties that changes keep -/

/-- A property that holds before a change and that the change keeps holds after it, whether or not it was made. -/
theorem Dev.when_induct (P : Dev → Prop) (d : Dev) (c : Bool) (k : Dev → Dev) (hd : P d) (hk : P d → P (k d)) :
    P (d.when c k) := by
  cases c with
  | true => exact hk hd
  | false => exact hd

/-- Folds whose steps agree on the elements of the list agree. -/
theorem foldl_agree {α β : Type} {f g : α → β → α} {l : List β} (h : ∀ a, ∀ x ∈ l, f a x = g a x) (a : α) :
    l.foldl f a = l.foldl g a := by
  induction l generalizing a with
  | nil => rfl
  | cons x l ih =>
    rw [List.foldl_cons, List.foldl_cons, h a x List.mem_cons_self]
    exact ih (fun b y hy => h b y (List.mem_cons_of_mem _ hy)) _

/-- What every change of a fold keeps, the fold keeps. -/
theorem foldl_keeps {β γ : Type} (q : Dev → γ) (f : Dev → β → Dev) (l : List β)
    (h : ∀ d : Dev, ∀ x ∈ l, q (f d x) = q d) (d : Dev) : q (l.foldl f d) = q d := by
  induction l generalizing d with
  | nil => rfl
  | cons x l ih =>
    rw [List.foldl_cons, ih (fun d y hy => h d y (List.mem_cons_of_mem _ hy)), h d x List.mem_cons_self]

/-- A property that every change of a fold keeps holds after the fold. -/
theorem foldl_induct {β : Type} (P : Dev → Prop) (f : Dev → β → Dev) (l : List β)
    (h : ∀ d : Dev, P d → ∀ x ∈ l, P (f d x)) {d : Dev} (hd : P d) : P (l.foldl f d) := by
  induction l generalizing d with
  | nil => exact hd
  | cons x l ih => exact ih (fun d hd y hy => h d hd y (List.mem_cons_of_mem _ hy)) (h d hd x List.mem_cons_self)

/-! ### A list of fields of one page, written one after the other -/

/-- Write each field of a list with its value. -/
def Dev.wrAll (d : Dev) (l : Nat) (es : List (Fld × Nat)) : Dev := es.foldl (fun d e => d.wr e.1 l e.2) d

theorem Dev.rd_wrAll_off (d : Dev) (l : Nat) (es : List (Fld × Nat)) (f : Fld) (h : ∀ e ∈ es, f.place ≠ e.1.place) :
    (d.wrAll l es).rd f l = d.rd f l :=
  foldl_keeps (fun d => d.rd f l) _ es (fun d e he => Dev.rd_wr_off d e.1 f l e.2 (h e he)) d

/-- A field of the list reads its value, where the fields of the list stand at different places. -/
theorem Dev.rd_wrAll (d : Dev) (l : Nat) (es : List (Fld × Nat)) (hn : (es.map (fun e => e.1.place)).Nodup) (f : Fld) (v : Nat)
    (h : (f, v) ∈ es) : (d.wrAll l es).rd f l = v % 2 ^ f.w := by
  induction es generalizing d with
  | nil => exact absurd h List.not_mem_nil
  | cons e es ih =>
    rw [List.map_cons, List.nodup_cons] at hn
    rw [Dev.wrAll, List.foldl_cons]
    rcases List.mem_cons.1 h with rfl | h
    · refine (Dev.rd_wrAll_off _ l es f fun e he heq => hn.1 ?_).trans (Dev.rd_wr _ _ _ _ _)
      exact List.mem_map.2 ⟨e, he, heq.symm⟩
    · exact ih _ hn.2 h

@[simp] theorem Dev.wrAll_lanes (d : Dev) (l : Nat) (es : List (Fld × Nat)) : (d.wrAll l es).lanes = d.lanes := by
  rw [Dev.wrAll]
  exact foldl_keeps Dev.lanes _ es (fun d e _ => Dev.wr_lanes d e.1 l e.2 0) d

end Sys2Proof.Machine
end

