-- ==== Sys2Proof/Proofs/Lanes.lean ====
section
/-!
PROOFS. Lanes (R73–R87): what loading coefficients, a start of adaptation, a revert, an adaptation window and a round of the eye
monitor leave of a lane's fields and of its receiver; from these the statements O7, O8 and O9.
-/

open Sys2Proof

namespace Sys2Proof.Machine

/-! ### Coefficients (R75, R81) -/

theorem Dev.setCoeffs_eq_wrAll (d : Dev) (l : Nat) (vs : List Nat) : d.setCoeffs l vs = d.wrAll l (coeffFlds.zip vs) := rfl

theorem Dev.rd_setCoeffs_off (d : Dev) (l : Nat) (vs : List Nat) (f : Fld) (h : ∀ g ∈ coeffFlds, f.place ≠ g.place) :
    (d.setCoeffs l vs).rd f l = d.rd f l :=
  Dev.rd_wrAll_off d l _ f fun e he => h e.1 (List.of_mem_zip he).1

@[simp] theorem Dev.setCoeffs_lanes (d : Dev) (l : Nat) (vs : List Nat) : (d.setCoeffs l vs).lanes = d.lanes :=
  Dev.wrAll_lanes d l _

@[simp] theorem Dev.setCoeffs_lane (d : Dev) (l : Nat) (vs : List Nat) (m : Nat) : (d.setCoeffs l vs).lane m = d.lane m := by
  simp only [Dev.lane, Dev.setCoeffs_lanes]

/-- What keeps the coefficients' fields keeps the coefficients. -/
theorem Dev.coeffs_congr {d e : Dev} {l : Nat} (h : ∀ f ∈ coeffFlds, e.rd f l = d.rd f l) : e.coeffs l = d.coeffs l :=
  List.map_congr_left h

/-- Each coefficient of a full list reads its value. -/
theorem Dev.rd_setCoeffs (d : Dev) (l : Nat) (vs : List Nat) (hv : coeffFlds.length ≤ vs.length) (f : Fld) (v : Nat)
    (h : (f, v) ∈ coeffFlds.zip vs) : (d.setCoeffs l vs).rd f l = v % 2 ^ f.w := by
  refine Dev.rd_wrAll d l _ ?_ f v h
  have hmap : (coeffFlds.zip vs).map (fun e => e.1.place) = ((coeffFlds.zip vs).map Prod.fst).map Fld.place := by
    rw [List.map_map]
    rfl
  rw [hmap, List.map_fst_zip hv]
  decide

/-- The rate defaults give CTLE and VGA their values and every tap 0 (R76, R99). -/
theorem Dev.rd_coeffDefaults (d : Dev) (l : Nat) :
    (d.coeffDefaults l).rd Lane.RX_EQ_CTLE l = Config.ctleDefault (d.laneRate l) % 2 ^ 4 ∧
      (d.coeffDefaults l).rd Lane.RX_EQ_VGA l = Config.vgaDefault (d.laneRate l) % 2 ^ 6 ∧
      ∀ f ∈ tapFlds, (d.coeffDefaults l).rd f l = 0 := by
  have hread := fun f v => Dev.rd_setCoeffs d l
    ([Config.ctleDefault (d.laneRate l), Config.vgaDefault (d.laneRate l)] ++ zeros 15) (Nat.le_refl 17) f v
  have hzip : ∀ f ∈ tapFlds, (f, 0) ∈ tapFlds.zip (zeros 15) := by decide
  refine ⟨hread Lane.RX_EQ_CTLE _ List.mem_cons_self,
    hread Lane.RX_EQ_VGA _ (List.mem_cons_of_mem _ List.mem_cons_self), fun f hf => ?_⟩
  exact (hread f 0 (List.mem_cons_of_mem _ (List.mem_cons_of_mem _ (hzip f hf)))).trans (Nat.zero_mod _)

/-! ### A start of adaptation (R76, R77, R85) -/

/-- The fields that a start of adaptation sets beside the coefficients. -/
def startFlds : List Fld := [Lane.STAT_SNAP_VALID, Lane.STAT_ACQUIRING, Lane.STAT_ADAPT_STUCK]

theorem Dev.rd_adaptStart_off (d : Dev) (l : Nat) (f : Fld) (h : ∀ g ∈ startFlds, f.place ≠ g.place) :
    (d.adaptStart l).rd f l = (d.when (d.is Lane.LANE_CFG_ADAPT_EN l) (fun d => d.coeffDefaults l)).rd f l := by
  simp only [startFlds, List.forall_mem_cons, List.not_mem_nil, false_implies, implies_true, and_true] at h
  obtain ⟨hsnap, hacq, hstuck⟩ := h
  rw [Dev.adaptStart, Dev.setLane_rd, Dev.rd_wr_off _ _ _ _ _ hstuck, Dev.rd_wr_off _ _ _ _ _ hacq, Dev.rd_wr_off _ _ _ _ _ hsnap]

theorem coeffFlds_not_startFlds : ∀ f ∈ coeffFlds, ∀ g ∈ startFlds, f.place ≠ g.place := by decide

theorem Dev.rd_adaptStart_stat (d : Dev) (l : Nat) :
    (d.adaptStart l).rd Lane.STAT_SNAP_VALID l = 0 ∧ (d.adaptStart l).rd Lane.STAT_ACQUIRING l = 1 ∧
      (d.adaptStart l).rd Lane.STAT_ADAPT_STUCK l = 0 := by
  refine ⟨?_, ?_, ?_⟩
  · rw [Dev.adaptStart, Dev.setLane_rd, Dev.rd_wr_off _ _ _ _ _ (by decide), Dev.rd_wr_off _ _ _ _ _ (by decide), Dev.rd_wr,
      Nat.zero_mod]
  · rw [Dev.adaptStart, Dev.setLane_rd, Dev.rd_wr_off _ _ _ _ _ (by decide), Dev.rd_wr]
    rfl
  · rw [Dev.adaptStart, Dev.setLane_rd, Dev.rd_wr, Nat.zero_mod]

theorem Dev.adaptStart_lane_ne (d : Dev) (l m : Nat) (h : m ≠ l) : (d.adaptStart l).lane m = d.lane m := by
  rw [Dev.adaptStart, Dev.lane_setLane_ne _ _ _ _ h]
  simp only [Dev.wr_lane]
  exact Dev.when_keeps (fun d => d.lane m) _ _ _ (Dev.setCoeffs_lane _ _ _ _)

/-! ### A revert (R83, R84) -/

/-- The fields that a revert changes beside the coefficients, EVT left out. -/
def revertFlds : List Fld := [Lane.CNT_A_REVERT_CNT, Lane.STAT_ADAPT_STUCK]

/-- Of the registers a revert changes the coefficients, its count, ADAPT_STUCK and events. -/
theorem Dev.rd_laneRevert_off (d : Dev) (l : Fin 64) (f : Fld)
    (h : (∀ g ∈ revertFlds, f.place ≠ g.place) ∧ f.off < 4096 ∧ f.lo < 32 ∧ f.off ≠ 0x14 ∧ f.cls ≠ 0x1B) :
    (d.laneRevert l).rd f l = (d.setCoeffs l (d.lane l).snap).rd f l := by
  obtain ⟨hp, ho, hl, he, hc⟩ := h
  simp only [revertFlds, List.forall_mem_cons, List.not_mem_nil, false_implies, implies_true, and_true] at hp
  obtain ⟨hcnt, hstuck⟩ := hp
  have hevt : ∀ (d : Dev) (b : Nat), (d.evt 0x08 l b).rd f l = d.rd f l :=
    fun d b => Dev.rd_evt_off d _ _ b f l ⟨ho, hl, he, hc, by decide⟩
  rw [Dev.laneRevert]
  refine (Dev.when_keeps (fun d => d.rd f l) _ _ _ ?_).trans ?_
  · rw [hevt, Dev.rd_wr_off _ _ _ _ _ hstuck]
  · rw [Dev.setLane_rd, hevt, Dev.rd_incSat_off _ _ _ _ hcnt]

/-- The reverts that count towards REVERT_LIMIT, the one at work first (R84). -/
def LaneH.revertsNow (h : LaneH) : List Nat := h.tick :: h.reverts.filter (fun t => decide (h.tick < t + 1000))

theorem Dev.laneRevert_lanes (d : Dev) (l : Nat) :
    (d.laneRevert l).lanes =
      (d.setLane l { d.lane l with revertSinceTick := true, awaitFom := true, reverts := (d.lane l).revertsNow }).lanes := by
  rw [Dev.laneRevert]
  refine (Dev.when_keeps Dev.lanes _ _ _ ?_).trans ?_
  · rw [Dev.evt_lanes, Dev.wr_lanes]
  · simp only [Dev.setLane, Dev.evt_lanes]
    rw [show (Dev.incSat (d.setCoeffs l (d.lane l).snap) Lane.CNT_A_REVERT_CNT l).lanes = d.lanes from Dev.setCoeffs_lanes _ _ _]
    rfl

theorem Dev.laneRevert_lane (d : Dev) (l m : Nat) :
    (d.laneRevert l).lane m =
      (d.setLane l { d.lane l with revertSinceTick := true, awaitFom := true, reverts := (d.lane l).revertsNow }).lane m := by
  simp only [Dev.lane, Dev.laneRevert_lanes]

theorem Dev.rd_laneRevert_cnt (d : Dev) (l : Fin 64) :
    (d.laneRevert l).rd Lane.CNT_A_REVERT_CNT l = satAdd 16 (d.rd Lane.CNT_A_REVERT_CNT l) 1 % 2 ^ 16 := by
  have hevt : ∀ (d : Dev) (b : Nat), (d.evt 0x08 l b).rd Lane.CNT_A_REVERT_CNT l = d.rd Lane.CNT_A_REVERT_CNT l :=
    fun d b => Dev.rd_evt_off d _ _ b _ l (by decide)
  rw [Dev.laneRevert]
  refine (Dev.when_keeps (fun d => d.rd Lane.CNT_A_REVERT_CNT l) _ _ _ ?_).trans ?_
  · rw [hevt, Dev.rd_wr_off _ _ _ _ _ (by decide)]
  · rw [Dev.setLane_rd, hevt, Dev.rd_incSat_self, Dev.rd_setCoeffs_off _ _ _ _ (by decide)]
    rfl

/-- A revert raises ADAPT_REVERT. -/
theorem Dev.laneRevert_evt (d : Dev) (l : Nat) :
    ((d.laneRevert l).rd (Hdr.EVT 0x08) l).testBit Lane.E_ADAPT_REVERT = true := by
  have hset : ∀ (d : Dev) (x : LaneH), (((d.evt 0x08 l Lane.E_ADAPT_REVERT).setLane l x).rd (Hdr.EVT 0x08) l).testBit
      Lane.E_ADAPT_REVERT = true := fun d _ => Dev.evt_set d 0x08 l _ (by decide)
  rw [Dev.laneRevert]
  refine Dev.when_induct (fun e => (e.rd (Hdr.EVT 0x08) l).testBit Lane.E_ADAPT_REVERT = true) _ _ _ (hset _ _) fun h => ?_
  refine (Dev.evt_raised _ _ _ _).evts _ _ _ (by decide) ?_
  rwa [Dev.rd_wr_off _ _ _ _ _ (by decide)]

/-! ### The commands of a lane -/

/-- Settles O7: each command by the gate and by what its operation leaves. -/
theorem laneControl : Obligations.LaneControl := by
  unfold Obligations.LaneControl
  refine ⟨fun s r l amp post pre ht => ⟨fun hle => ?_, fun hlt => ?_⟩, fun s r l ht => ⟨?_, ?_, fun on => ?_, fun hs => ?_,
    fun hs => ?_⟩,
    fun s r l ht => ⟨fun hv => ?_, fun hv => ?_⟩⟩
  · exact (State.upd_busLane s r l _ ht).trans (by rw [Dev.ffeWrite, if_neg (Nat.not_lt.2 hle)])
  · exact (State.upd_busLane s r l _ ht).trans (by rw [Dev.ffeWrite, if_pos hlt, Dev.badAccess])
  · exact State.upd_busLane s r l _ ht
  · obtain ⟨hsnap, hacq, hstuck⟩ := s.dev.rd_adaptStart_stat l
    refine ⟨_, State.upd_busLane s r l _ ht, State.withDev_mem _ _, fun hen => ?_, fun hen => ?_, hsnap, hacq, hstuck, ?_,
      fun m hm => s.dev.adaptStart_lane_ne l m hm⟩
    · have hread : ∀ f ∈ coeffFlds, (s.dev.adaptStart l).rd f l = (s.dev.coeffDefaults l).rd f l := fun f hf => by
        rw [Dev.rd_adaptStart_off _ _ _ (coeffFlds_not_startFlds f hf), hen, Dev.when_true]
      obtain ⟨hctle, hvga, htap⟩ := s.dev.rd_coeffDefaults l
      exact ⟨(hread _ List.mem_cons_self).trans hctle, (hread _ (List.mem_cons_of_mem _ List.mem_cons_self)).trans hvga,
        fun f hf => (hread f (List.mem_cons_of_mem _ (List.mem_cons_of_mem _ hf))).trans (htap f hf)⟩
    · refine Dev.coeffs_congr fun f hf => ?_
      rw [State.withDev_dev, Dev.done_rd, Dev.cmdRestart, Dev.rd_adaptStart_off _ _ _ (coeffFlds_not_startFlds f hf), hen,
        Dev.when_false]
    · exact congrArg LaneH.snap (Dev.lane_setLane _ _ _)
  · exact State.upd_busLane s r l _ ht
  · exact (State.upd_busLane s r l _ ht).trans (by rw [Dev.cmdClearStuck, hs, Dev.when_true])
  · exact (State.upd_busLane s r l _ ht).trans (by rw [Dev.cmdClearStuck, hs, Dev.when_false])
  · exact (State.upd_busLane s r l _ ht).trans (by rw [Dev.cmdRevertNow, hv, Dev.when_false])
  · have hexec : exec (.revertNow r l) s = .next (s.withDev (s.dev.laneRevert l)) :=
      (State.upd_busLane s r l _ ht).trans (by rw [Dev.cmdRevertNow, hv, Dev.when_true])
    refine ⟨_, hexec, State.withDev_mem _ _, Dev.rd_laneRevert_off _ _ _ (by decide), Dev.rd_laneRevert_off _ _ _ (by decide),
      fun f hf => Dev.rd_laneRevert_off _ _ _ ?_, Dev.rd_laneRevert_cnt _ _, Dev.laneRevert_evt _ _, ?_, fun m hm => ?_⟩
    · revert f
      decide
    · rw [State.withDev_dev, Dev.done_lane, Dev.laneRevert_lane, Dev.lane_setLane]
    · rw [State.withDev_dev, Dev.done_lane, Dev.laneRevert_lane, Dev.lane_setLane_ne _ _ _ _ hm]

/-! ### What the receiver reports (R76, R80, R81) -/

/-- A snapshot keeps the coefficients. -/
theorem Dev.laneSnap_coeffs (d : Dev) (l : Nat) : (d.laneSnap l).coeffs l = d.coeffs l := by
  refine Dev.coeffs_congr fun f hf => ?_
  have hplace : ∀ f ∈ coeffFlds, ∀ g ∈ [Lane.STAT_SNAP_VALID, Lane.FOM_INFO_FOM_HWM, Lane.FOM_INFO_SNAP_FOM],
      f.place ≠ g.place := by decide
  have h := hplace f hf
  simp only [List.forall_mem_cons, List.not_mem_nil, false_implies, implies_true, and_true] at h
  obtain ⟨hvalid, hhwm, hsnap⟩ := h
  rw [Dev.laneSnap, Dev.rd_wr_off _ _ _ _ _ hvalid, Dev.rd_wr_off _ _ _ _ _ hhwm, Dev.rd_wr_off _ _ _ _ _ hsnap, Dev.setLane_rd]

theorem Dev.laneSnap_fom (d : Dev) (l : Nat) :
    (d.laneSnap l).rd Lane.FOM_INFO_SNAP_FOM l = d.rd Lane.FOM_INFO_FOM l % 2 ^ 8 ∧
      (d.laneSnap l).rd Lane.FOM_INFO_FOM_HWM l = d.rd Lane.FOM_INFO_FOM l % 2 ^ 8 ∧
      (d.laneSnap l).rd Lane.STAT_SNAP_VALID l = 1 := by
  refine ⟨?_, ?_, ?_⟩
  · rw [Dev.laneSnap, Dev.rd_wr_off _ _ _ _ _ (by decide), Dev.rd_wr_off _ _ _ _ _ (by decide), Dev.rd_wr]
    rfl
  · rw [Dev.laneSnap, Dev.rd_wr_off _ _ _ _ _ (by decide), Dev.rd_wr]
    rfl
  · rw [Dev.laneSnap, Dev.rd_wr]
    rfl

theorem Dev.laneSnap_lane (d : Dev) (l : Nat) : (d.laneSnap l).lane l = { d.lane l with snap := d.coeffs l } := by
  simp only [Dev.laneSnap, Dev.wr_lane, Dev.lane_setLane]

/-- The end of a transition-count window in an enabled lane: TD_LOW as counted, and each fall counted with its event. -/
theorem exec_tdWindow (s : State) (l : Fin 64) (n : Nat) (hen : s.dev.enabled 0x08 l = true) :
    exec (.tdWindow l n) s = .next (s.withDev
      (((s.dev.wrb Lane.STAT_TD_LOW l (decide (n < s.dev.rd Lane.ADAPT_CFG_ADAPT_TD_MIN l))).showFomHeld l).when
        (decide (n < s.dev.rd Lane.ADAPT_CFG_ADAPT_TD_MIN l) && !s.dev.is Lane.STAT_TD_LOW l)
        (fun d => (d.incSat Lane.CNT_A_TD_FROZEN_CNT l).evt 0x08 l Lane.E_TD_LOW))) := by
  change execTdWindow l n s = _
  rw [execTdWindow, State.upd, hen, Dev.when_true]

/-- The snapshot tick of an enabled lane that adapts. -/
theorem exec_snapshotTick (s : State) (l : Fin 64) (hen : s.dev.enabled 0x08 l = true)
    (had : s.dev.is Lane.LANE_CFG_ADAPT_EN l = true) (d : Dev)
    (hd : d = s.dev.when (decide (s.dev.rd Lane.ADAPT_CFG_FOM_GOOD l ≤ s.dev.rd Lane.FOM_INFO_FOM l) &&
      !s.dev.is Lane.STAT_TD_LOW l && !(s.dev.lane l).revertSinceTick) (fun d => d.laneSnap l)) :
    exec (.snapshotTick l) s = .next (s.withDev
      (d.setLane l { d.lane l with tick := (s.dev.lane l).tick + 1, revertSinceTick := false })) := by
  subst hd
  change execSnapshotTick l s = _
  rw [execSnapshotTick, State.upd, hen, had]
  rfl

/-! ### A window of adaptation (R75, R76, R80) -/

theorem clampI_mem {lo hi : Int} (h : lo ≤ hi) (v : Int) : lo ≤ clampI lo hi v ∧ clampI lo hi v ≤ hi := by
  unfold clampI
  split
  · omega
  · split <;> omega

/-- A value that eight bits hold is its own image. -/
theorem sInt_uInt_eight {x : Int} (hlo : -128 ≤ x) (hhi : x < 128) : sInt 8 (uInt 8 x % 2 ^ 8) = x := by
  have hmod : uInt 8 x % 2 ^ 8 % 2 ^ 8 = (x % 256).toNat := by
    simp only [uInt]
    omega
  rw [sInt, hmod]
  split <;> omega

/-- The taps of a list move, each within its range. -/
def Dev.moveTaps (d : Dev) (l : Nat) (mv : Nat → Int) (es : List (Fld × Nat)) : Dev :=
  es.foldl (fun d e => d.wrI e.1 l (clampI (-tapLimit e.2) (tapLimit e.2) (d.rdI e.1 l + mv (e.2 + 2)))) d

theorem Dev.rd_moveTaps_off (d : Dev) (l : Nat) (mv : Nat → Int) (es : List (Fld × Nat)) (f : Fld)
    (h : ∀ e ∈ es, f.place ≠ e.1.place) : (d.moveTaps l mv es).rd f l = d.rd f l := by
  rw [Dev.moveTaps]
  exact foldl_keeps (fun d => d.rd f l) _ es (fun d e he => Dev.rd_wr_off d e.1 f l _ (h e he)) d

theorem Dev.moveTaps_lanes (d : Dev) (l : Nat) (mv : Nat → Int) (es : List (Fld × Nat)) :
    (d.moveTaps l mv es).lanes = d.lanes := by
  rw [Dev.moveTaps]
  exact foldl_keeps Dev.lanes _ es (fun d e _ => Dev.wr_lanes d e.1 l _ 0) d

theorem tapLimit_range (j : Nat) : 0 ≤ tapLimit j ∧ tapLimit j ≤ 100 := by
  unfold tapLimit
  split
  · omega
  · split <;> omega

/-- A tap of the list reads its old value moved, where the taps of the list stand at different places. -/
theorem Dev.rdI_moveTaps (d : Dev) (l : Nat) (mv : Nat → Int) (es : List (Fld × Nat))
    (hn : (es.map (fun e => e.1.place)).Nodup) (f : Fld) (j : Nat) (h : (f, j) ∈ es) (hw : f.w = 8) :
    (d.moveTaps l mv es).rdI f l = clampI (-tapLimit j) (tapLimit j) (d.rdI f l + mv (j + 2)) := by
  induction es generalizing d with
  | nil => exact absurd h List.not_mem_nil
  | cons e es ih =>
    rw [List.map_cons, List.nodup_cons] at hn
    rw [Dev.moveTaps, List.foldl_cons, ← Dev.moveTaps]
    rcases List.mem_cons.1 h with rfl | h
    · have hlim := tapLimit_range j
      have hmem := clampI_mem (show -tapLimit j ≤ tapLimit j by omega) (d.rdI f l + mv (j + 2))
      rw [Dev.rdI, Dev.rd_moveTaps_off _ _ _ _ _ fun e he heq => hn.1 (List.mem_map.2 ⟨e, he, heq.symm⟩), Dev.wrI, Dev.rd_wr,
        hw]
      exact sInt_uInt_eight (x := clampI (-tapLimit j) (tapLimit j) (d.rdI f l + mv (j + 2))) (by omega) (by omega)
    · have hne : f.place ≠ e.1.place := fun heq => hn.1 (List.mem_map.2 ⟨_, h, heq⟩)
      have hkeep : ∀ x, (d.wrI e.1 l x).rdI f l = d.rdI f l := fun x => by
        rw [Dev.rdI, Dev.wrI, Dev.rd_wr_off _ _ _ _ _ hne, ← Dev.rdI]
      rw [ih _ hn.2 h, hkeep]

/-- CTLE and VGA move, each within its range. -/
def Dev.moveEq (d : Dev) (l : Nat) (mv : Nat → Int) : Dev :=
  let e := d.wr Lane.RX_EQ_CTLE l (clampI 0 15 ((d.rd Lane.RX_EQ_CTLE l : Int) + mv 0)).toNat
  e.wr Lane.RX_EQ_VGA l (clampI 0 63 ((e.rd Lane.RX_EQ_VGA l : Int) + mv 1)).toNat

theorem Dev.rd_moveEq (d : Dev) (l : Nat) (mv : Nat → Int) :
    (d.moveEq l mv).rd Lane.RX_EQ_CTLE l = (clampI 0 15 ((d.rd Lane.RX_EQ_CTLE l : Int) + mv 0)).toNat ∧
      (d.moveEq l mv).rd Lane.RX_EQ_VGA l = (clampI 0 63 ((d.rd Lane.RX_EQ_VGA l : Int) + mv 1)).toNat := by
  have hctle := clampI_mem (show (0 : Int) ≤ 15 by decide) (d.rd Lane.RX_EQ_CTLE l + mv 0)
  have hvga := clampI_mem (show (0 : Int) ≤ 63 by decide) (d.rd Lane.RX_EQ_VGA l + mv 1)
  refine ⟨?_, ?_⟩
  · rw [Dev.moveEq, Dev.rd_wr_off _ _ _ _ _ (by decide), Dev.rd_wr]
    exact Nat.mod_eq_of_lt (show _ < 16 by omega)
  · rw [Dev.moveEq, Dev.rd_wr, Dev.rd_wr_off _ _ _ _ _ (by decide)]
    exact Nat.mod_eq_of_lt (show _ < 64 by omega)

theorem Dev.rd_moveEq_tap (d : Dev) (l : Nat) (mv : Nat → Int) (f : Fld) (h : f ∈ tapFlds) :
    (d.moveEq l mv).rd f l = d.rd f l := by
  have hplace : ∀ f ∈ tapFlds, f.place ≠ Lane.RX_EQ_CTLE.place ∧ f.place ≠ Lane.RX_EQ_VGA.place := by decide
  obtain ⟨hc, hv⟩ := hplace f h
  rw [Dev.moveEq, Dev.rd_wr_off _ _ _ _ _ hv, Dev.rd_wr_off _ _ _ _ _ hc]

/-- How far a coefficient moves in a window: one step, four while acquiring. -/
def Dev.adaptMove (d : Dev) (l : Nat) (moves : List Int) (i : Nat) : Int :=
  clampI (-(if d.is Lane.STAT_ACQUIRING l then 4 else 1)) (if d.is Lane.STAT_ACQUIRING l then 4 else 1) (moves.getD i 0)

/-- What holds adaptation. -/
def Dev.adaptHeld (d : Dev) (l : Nat) : Bool :=
  !d.is Lane.LANE_CFG_ADAPT_EN l || d.is Lane.STAT_ADAPT_STUCK l || d.is Lane.STAT_TD_LOW l || !d.enabled 0x08 l

theorem Dev.adaptWindow_eq (d : Dev) (l : Nat) (moves : List Int) :
    d.adaptWindow l moves =
      if d.adaptHeld l then d else (d.moveEq l (d.adaptMove l moves)).moveTaps l (d.adaptMove l moves) tapFlds.zipIdx := rfl

theorem exec_adaptWindow (s : State) (l : Fin 64) (mv : List Int) (h : s.dev.armed 0x08 l Lane.F_COEFF_PAR = false) :
    exec (.adaptWindow l mv) s = .next (s.withDev (s.dev.adaptWindow l mv)) := by
  change execAdaptWindow l mv s = _
  rw [execAdaptWindow, State.upd, h]
  rfl

/-- Settles O8: the windows and ticks by their equations, the window of adaptation by what the moves leave of each coefficient. -/
theorem laneMonitoring : Obligations.LaneMonitoring := by
  unfold Obligations.LaneMonitoring
  refine ⟨fun s l => ⟨fun h => ?_, fun h => ?_, fun hen => ⟨fun n hn => ?_, fun n hn hlow => ?_, fun n hn hlow => ?_⟩, fun h => ?_,
    fun hen n => ?_, fun hen had => ⟨fun h => ?_, fun hgood hlow hrev => ?_⟩⟩,
    fun s l mv => ⟨fun h => ?_, fun harm h => ?_, fun harm had hstuck hlow hen => ?_⟩⟩
  · change execAcquisitionEnd l s = _
    rw [execAcquisitionEnd, State.upd, h, Dev.when_true]
  · change execAcquisitionEnd l s = _
    rw [execAcquisitionEnd, State.upd, h, Dev.when_false]
  · rw [exec_tdWindow s l n hen, decide_eq_false (Nat.not_lt.2 hn), Bool.false_and, Dev.when_false]
    rfl
  · rw [exec_tdWindow s l n hen, decide_eq_true hn, hlow, Bool.not_false, Bool.and_self, Dev.when_true]
    rfl
  · rw [exec_tdWindow s l n hen, decide_eq_true hn, hlow, Bool.not_true, Bool.and_false, Dev.when_false]
    rfl
  · change execSnapshotTick l s = _
    rw [execSnapshotTick, State.upd, if_neg]
    obtain h | h := h <;> simp only [h, Bool.false_and, Bool.and_false, Bool.false_eq_true, not_false_eq_true]
  · change execTdWindow l n s = _
    rw [execTdWindow, State.upd, hen, Dev.when_false]
  · refine exec_snapshotTick s l hen had _ ?_
    have hno : (decide (s.dev.rd Lane.ADAPT_CFG_FOM_GOOD l ≤ s.dev.rd Lane.FOM_INFO_FOM l) && !s.dev.is Lane.STAT_TD_LOW l &&
        !(s.dev.lane l).revertSinceTick) = false := by
      obtain h | h | h := h
      · rw [decide_eq_false (Nat.not_le.2 h), Bool.false_and, Bool.false_and]
      · rw [h, Bool.not_true, Bool.and_false, Bool.false_and]
      · rw [h, Bool.not_true, Bool.and_false]
    rw [hno, Dev.when_false]
  · have hexec := exec_snapshotTick s l hen had (s.dev.laneSnap l) (by
      rw [decide_eq_true hgood, hlow, hrev, Bool.not_false, Bool.and_self, Bool.and_self, Dev.when_true])
    obtain ⟨hsnap, hhwm, hvalid⟩ := s.dev.laneSnap_fom l
    refine ⟨_, hexec, State.withDev_mem _ _, ?_, ?_, ?_, hsnap, hhwm, hvalid⟩
    · rw [State.withDev_dev, Dev.done_lane, Dev.lane_setLane, Dev.laneSnap_lane]
    · rw [State.withDev_dev, Dev.done_lane, Dev.lane_setLane]
    · exact s.dev.laneSnap_coeffs l
  · change execAdaptWindow l mv s = _
    rw [execAdaptWindow, State.upd, if_pos h]
  · rw [exec_adaptWindow s l mv harm, Dev.adaptWindow_eq, if_pos]
    obtain h | h | h | h := h <;> simp only [Dev.adaptHeld, h, Bool.not_false, Bool.or_true, Bool.true_or]
  · have hrun : s.dev.adaptHeld l = false := by
      simp only [Dev.adaptHeld, had, hstuck, hlow, hen, Bool.not_true, Bool.or_self]
    rw [exec_adaptWindow s l mv harm, Dev.adaptWindow_eq, hrun, if_neg Bool.false_ne_true]
    obtain ⟨hctle, hvga⟩ := s.dev.rd_moveEq l (s.dev.adaptMove l mv)
    have hoff : ∀ f ∈ [Lane.RX_EQ_CTLE, Lane.RX_EQ_VGA], ∀ e ∈ tapFlds.zipIdx, f.place ≠ e.1.place := by decide
    refine ⟨_, rfl, State.withDev_mem _ _, ?_, ?_, ?_, fun j hj f hf => ?_⟩
    · rw [State.withDev_dev, Dev.done_lanes, Dev.moveTaps_lanes]
      rfl
    · rw [State.withDev_dev, Dev.done_rd, Dev.rd_moveTaps_off _ _ _ _ _ (hoff _ (by decide)), hctle]
      rfl
    · rw [State.withDev_dev, Dev.done_rd, Dev.rd_moveTaps_off _ _ _ _ _ (hoff _ (by decide)), hvga]
      rfl
    · have hmem : f ∈ tapFlds := List.mem_of_getElem? hf
      have hw : ∀ f ∈ tapFlds, f.w = 8 := by decide
      have hmove := Dev.rdI_moveTaps (s.dev.moveEq l (s.dev.adaptMove l mv)) l (s.dev.adaptMove l mv) tapFlds.zipIdx
        (by decide) f j (List.mem_zipIdx_iff_getElem?.2 hf) (hw f hmem)
      rw [State.withDev_dev, Dev.rdI, Dev.done_rd, ← Dev.rdI, hmove, Dev.rdI, Dev.rd_moveEq_tap _ _ _ _ hmem, ← Dev.rdI]
      rfl

/-! ### A round of the eye monitor (R78, R82, R83) -/

/-- The four boundary points of an eye. -/
def LaneH.eye (h : LaneH) : Int × Int × Int × Int := (h.top, h.bottom, h.left, h.right)

theorem Dev.rd_laneGood (d : Dev) (l : Nat) (f : Fld) (i : Nat) : (d.laneGood l).rd f i = d.rd f i := rfl

theorem Dev.laneGood_eye (d : Dev) (l : Nat) : ((d.laneGood l).lane l).eye = (d.lane l).eye := by
  rw [Dev.laneGood, Dev.lane_setLane]
  rfl

theorem Dev.laneRevert_eye (d : Dev) (l : Nat) : ((d.laneRevert l).lane l).eye = (d.lane l).eye := by
  rw [Dev.laneRevert_lane, Dev.lane_setLane]
  rfl

/-- The points of an eye after a round. -/
def LaneH.eyeMoved (h : LaneH) (a b c e : Nat) : LaneH :=
  { h with top := eyeStep h.top a, bottom := eyeStep h.bottom b, left := eyeStep h.left c, right := eyeStep h.right e }

/-- What a round writes: the points, EH, EW, FOM with its marks. -/
def Dev.eyeRound (d : Dev) (l : Nat) (h : LaneH) (hwm low : Nat) : Dev :=
  let eh := eyeSpan h.top h.bottom 128
  let ew := eyeSpan h.left h.right 64
  let fom := min 255 ((eh * ew) >>> 5)
  ((((((d.setLane l { h with awaitFom := false }).wr Lane.EYE_EH l eh).wr Lane.EYE_EW l ew).wr Lane.FOM_INFO_FOM l fom).wr
    Lane.STAT_FOM l fom).wr Lane.FOM_INFO_FOM_HWM l hwm).wr Lane.FOM_INFO_FOM_MIN l low

/-- A round in a lane that measures: what it writes, then the fall below FOM_FAIL and the revert where they are due. -/
theorem Dev.fomUpdate_eq (d : Dev) (l a b c e : Nat) (hheld : d.is Lane.STAT_FOM_HELD l = false)
    (hen : d.enabled 0x08 l = true) :
    ∃ hwm low fall back, d.fomUpdate l a b c e =
      (((d.eyeRound l ((d.lane l).eyeMoved a b c e) hwm low).when fall (fun d => d.evt 0x08 l Lane.E_FOM_LOW)).when back
        (fun d => d.laneRevert l)).laneGood l := by
  rw [Dev.fomUpdate, if_neg (by simp only [hheld, hen, Bool.not_true, Bool.or_self, Bool.false_eq_true, not_false_eq_true])]
  exact ⟨_, _, _, _, rfl⟩

/-- The fields that show a round. -/
def roundFlds : List Fld := [Lane.EYE_EH, Lane.EYE_EW, Lane.FOM_INFO_FOM, Lane.STAT_FOM]

theorem roundFlds_apart : ∀ f ∈ roundFlds, (∀ g ∈ coeffFlds, f.place ≠ g.place) ∧ (∀ g ∈ revertFlds, f.place ≠ g.place) ∧
    f.off < 4096 ∧ f.lo < 32 ∧ f.off ≠ 0x14 ∧ f.cls ≠ 0x1B := by decide

/-- An event and a revert leave the fields that show a round. -/
theorem Dev.rd_afterRound (d : Dev) (l : Fin 64) (fall back : Bool) (f : Fld) (hf : f ∈ roundFlds) :
    (((d.when fall (fun d => d.evt 0x08 l Lane.E_FOM_LOW)).when back (fun d => d.laneRevert l)).laneGood l).rd f l =
      d.rd f l := by
  obtain ⟨hcoeff, hrev, ho, hl, he, hc⟩ := roundFlds_apart f hf
  rw [Dev.rd_laneGood]
  refine (Dev.when_keeps (fun d => d.rd f l) _ _ _ ?_).trans (Dev.when_keeps (fun d => d.rd f l) _ _ _ ?_)
  · rw [Dev.rd_laneRevert_off _ _ _ ⟨hrev, ho, hl, he, hc⟩, Dev.rd_setCoeffs_off _ _ _ _ hcoeff]
  · exact Dev.rd_evt_off _ _ _ _ _ _ ⟨ho, hl, he, hc, by decide⟩

theorem Dev.eye_afterRound (d : Dev) (l : Nat) (fall back : Bool) :
    ((((d.when fall (fun d => d.evt 0x08 l Lane.E_FOM_LOW)).when back (fun d => d.laneRevert l)).laneGood l).lane l).eye =
      (d.lane l).eye := by
  rw [Dev.laneGood_eye]
  refine (Dev.when_keeps (fun d => (d.lane l).eye) _ _ _ (Dev.laneRevert_eye _ _)).trans
    (Dev.when_keeps (fun d => (d.lane l).eye) _ _ _ ?_)
  rw [Dev.evt_lane]

theorem Dev.rd_eyeRound (d : Dev) (l : Nat) (h : LaneH) (hwm low : Nat) :
    (d.eyeRound l h hwm low).rd Lane.EYE_EH l = eyeSpan h.top h.bottom 128 ∧
      (d.eyeRound l h hwm low).rd Lane.EYE_EW l = eyeSpan h.left h.right 64 ∧
      (d.eyeRound l h hwm low).rd Lane.FOM_INFO_FOM l = min 255 ((eyeSpan h.top h.bottom 128 * eyeSpan h.left h.right 64) >>> 5) ∧
      (d.eyeRound l h hwm low).rd Lane.STAT_FOM l =
        min 255 ((eyeSpan h.top h.bottom 128 * eyeSpan h.left h.right 64) >>> 5) := by
  have heh := clampI_mem (show (0 : Int) ≤ (128 : Nat) by decide) (h.top + h.bottom)
  have hew := clampI_mem (show (0 : Int) ≤ (64 : Nat) by decide) (h.left + h.right)
  refine ⟨?_, ?_, ?_, ?_⟩
  · rw [Dev.eyeRound, Dev.rd_wr_off _ _ _ _ _ (by decide), Dev.rd_wr_off _ _ _ _ _ (by decide),
      Dev.rd_wr_off _ _ _ _ _ (by decide), Dev.rd_wr_off _ _ _ _ _ (by decide), Dev.rd_wr_off _ _ _ _ _ (by decide), Dev.rd_wr]
    exact Nat.mod_eq_of_lt (show (clampI 0 (128 : Nat) (h.top + h.bottom)).toNat < 256 by omega)
  · rw [Dev.eyeRound, Dev.rd_wr_off _ _ _ _ _ (by decide), Dev.rd_wr_off _ _ _ _ _ (by decide),
      Dev.rd_wr_off _ _ _ _ _ (by decide), Dev.rd_wr_off _ _ _ _ _ (by decide), Dev.rd_wr]
    exact Nat.mod_eq_of_lt (show (clampI 0 (64 : Nat) (h.left + h.right)).toNat < 128 by omega)
  · rw [Dev.eyeRound, Dev.rd_wr_off _ _ _ _ _ (by decide), Dev.rd_wr_off _ _ _ _ _ (by decide),
      Dev.rd_wr_off _ _ _ _ _ (by decide), Dev.rd_wr]
    exact Nat.mod_eq_of_lt (Nat.lt_of_le_of_lt (Nat.min_le_left _ _) (by decide))
  · rw [Dev.eyeRound, Dev.rd_wr_off _ _ _ _ _ (by decide), Dev.rd_wr_off _ _ _ _ _ (by decide), Dev.rd_wr]
    exact Nat.mod_eq_of_lt (Nat.lt_of_le_of_lt (Nat.min_le_left _ _) (by decide))

theorem Dev.eyeRound_eye (d : Dev) (l : Nat) (h : LaneH) (hwm low : Nat) :
    ((d.eyeRound l h hwm low).lane l).eye = h.eye := by
  simp only [Dev.eyeRound, Dev.wr_lane, Dev.lane_setLane]
  rfl

/-! ### An eye scan (R86, R97, R99) -/

/-- A scan command that names a dwell or an offset out of range. -/
theorem Dev.scanWrite_bad (d : Dev) (l dw v h : Nat) (hr : dw % 32 < 16 ∨ 30 < dw % 32 ∨ sInt 7 h < -32 ∨ 32 < sInt 7 h) :
    d.scanWrite l dw v h true = d.evt 0x08 l evtBAD_ACCESS := if_pos hr

theorem Dev.scanWrite_good (d : Dev) (l dw v h : Nat) (hlo : 16 ≤ dw % 32) (hhi : dw % 32 ≤ 30) (hl : -32 ≤ sInt 7 h)
    (hr : sInt 7 h ≤ 32) :
    d.scanWrite l dw v h true = if d.is Lane.SCAN_CTRL_BUSY l then d.evt 0x08 l evtBAD_ACCESS
      else (((d.wr Lane.SCAN_CTRL_DWELL_LOG2 l dw).wr Lane.SCAN_CTRL_V_OFF l v).wr Lane.SCAN_CTRL_H_OFF l h).when
        (d.enabled 0x08 l) (fun d => ((d.wr Lane.SCAN_CTRL_BUSY l 1).wr Lane.SCAN_RES_DONE l 0).showFomHeld l) := by
  have hen : ((((d.wr Lane.SCAN_CTRL_DWELL_LOG2 l dw).wr Lane.SCAN_CTRL_V_OFF l v).wr Lane.SCAN_CTRL_H_OFF l h).enabled 0x08 l) =
      d.enabled 0x08 l := Dev.enabled_congr (by
    rw [Dev.rd_wr_off _ _ _ _ _ (by decide), Dev.rd_wr_off _ _ _ _ _ (by decide), Dev.rd_wr_off _ _ _ _ _ (by decide)])
  rw [Dev.scanWrite, if_neg (by omega)]
  simp only [Bool.true_and, hen, Dev.badAccess]

/-- Settles O9: a round by what it writes and what follows it, a scan by its command's cases. -/
theorem fomAndEyeScan : Obligations.FomAndEyeScan := by
  unfold Obligations.FomAndEyeScan
  refine ⟨fun s l a b c e => ⟨rfl, fun h => ?_, fun hheld hen => ?_⟩, fun s r l ht =>
    ⟨fun dw v h hlo hhi hl hr => ⟨fun hbusy hen => ?_, fun hbusy hen => ?_, fun hbusy => ?_⟩, fun dw v h hr => ?_, fun n hb => ?_,
      fun n hb => ?_⟩⟩
  · rw [Dev.fomUpdate, if_pos]
    obtain h | h := h <;> simp only [h, Bool.not_false, Bool.or_true, Bool.true_or]
  · obtain ⟨hwm, low, fall, back, hu⟩ := s.dev.fomUpdate_eq l a b c e hheld hen
    have hrd : ∀ f ∈ roundFlds, (s.dev.fomUpdate l a b c e).rd f l =
        (s.dev.eyeRound l ((s.dev.lane l).eyeMoved a b c e) hwm low).rd f l := fun f hf => by
      rw [hu, Dev.rd_afterRound _ _ _ _ _ hf]
    have heye : ((s.dev.fomUpdate l a b c e).lane l).eye = ((s.dev.lane l).eyeMoved a b c e).eye := by
      rw [hu, Dev.eye_afterRound, Dev.eyeRound_eye]
    simp only [LaneH.eye, Prod.mk.injEq] at heye
    obtain ⟨htop, hbottom, hleft, hright⟩ := heye
    obtain ⟨heh, hew, hfom, hstat⟩ := s.dev.rd_eyeRound l ((s.dev.lane l).eyeMoved a b c e) hwm low
    have hEH := (hrd Lane.EYE_EH (by decide)).trans heh
    have hEW := (hrd Lane.EYE_EW (by decide)).trans hew
    have hFOM := (hrd Lane.FOM_INFO_FOM (by decide)).trans hfom
    refine ⟨htop, hbottom, hleft, hright, hEH, hEW, ?_, ((hrd Lane.STAT_FOM (by decide)).trans hstat).trans hFOM.symm⟩
    rw [hEH, hEW, hFOM]
  · exact (State.upd_busLane s r l _ ht).trans (by
      rw [Dev.scanWrite_good _ _ _ _ _ hlo hhi hl hr, hbusy, if_neg Bool.false_ne_true, hen, Dev.when_true])
  · exact (State.upd_busLane s r l _ ht).trans (by
      rw [Dev.scanWrite_good _ _ _ _ _ hlo hhi hl hr, hbusy, if_neg Bool.false_ne_true, hen, Dev.when_false])
  · exact (State.upd_busLane s r l _ ht).trans (by rw [Dev.scanWrite_good _ _ _ _ _ hlo hhi hl hr, if_pos hbusy])
  · exact (State.upd_busLane s r l _ ht).trans (by rw [Dev.scanWrite_bad _ _ _ _ _ hr])
  · change execScanDone l n s = _
    rw [execScanDone, State.upd, hb, Dev.when_true]
  · change execScanDone l n s = _
    rw [execScanDone, State.upd, hb, Dev.when_false]

end Sys2Proof.Machine
end

