-- ==== Sys2Proof/Proofs/LaneLocks.lean ====
section
/-!
PROOFS. Locks of a lane and the active set (R87–R115): what a comma, a header, a super-frame, a failed lane and the commands of a
port lead to, case by case; from these the statements O10 to O13.
-/

open Sys2Proof

namespace Sys2Proof.Machine

/-! ### Commas (R87, R107–R110) -/

/-- A block ends the count of inverted commas. -/
def Dev.invCleared (d : Dev) (l : Nat) : Dev := d.setLane l { d.lane l with invCommas := 0 }

/-- A comma is taken: FAR_MASK, a lock it contradicts, the burst or the single comma. -/
def Dev.commaTaken (d : Dev) (l slot b7 : Nat) : Dev :=
  let d := d.wr Port.LG_STAT_FAR_MASK (lanePort l) (bits b7 2 4)
  let d := d.when (d.is Lane.STAT_COMMA_LOCK l && d.rd Lane.STAT_RX_LOGICAL l != b7 % 4) (fun d => d.commaLost l)
  if b7.testBit 6 then d.commaBurst l slot b7 else d.commaSingle l slot b7

/-- A block with a comma's look, by its kinds. -/
theorem Dev.comma_eq (d : Dev) (l slot hdr : Nat) (bytes : List Nat) (b : Nat × Nat)
    (hb : b = d.rxBall l (hdr % 4, le bytes 0 8)) :
    d.comma l slot hdr bytes =
      if !d.enabled 0x08 l || !d.enabled 0x0A (lanePort l) || !d.is Lane.STAT_HDR_LOCK l then d
      else if b.1 == 1 && isInvComma (blockBytes b.2) then d.commaInverse l slot
      else if b.1 != 2 || !isComma (blockBytes b.2) then d.invCleared l
      else ((d.invCleared l).commaTaken l slot (byteAt (blockBytes b.2) 7)).portEval (lanePort l) := by
  subst hb
  rfl

theorem exec_comma (s : State) (l : Fin 64) (slot hdr : Nat) (bytes : List Nat) :
    exec (.comma l slot ⟨hdr, bytes⟩) s = .next (s.withDev (s.dev.comma l slot hdr bytes)) := rfl

/-- The same in a lane that takes part. -/
theorem Dev.comma_eq_of_lock (d : Dev) (l slot hdr : Nat) (bytes : List Nat) (b : Nat × Nat)
    (hb : b = d.rxBall l (hdr % 4, le bytes 0 8)) (hl : d.enabled 0x08 l = true) (hp : d.enabled 0x0A (lanePort l) = true)
    (hk : d.is Lane.STAT_HDR_LOCK l = true) :
    d.comma l slot hdr bytes =
      if b.1 == 1 && isInvComma (blockBytes b.2) then d.commaInverse l slot
      else if b.1 != 2 || !isComma (blockBytes b.2) then d.invCleared l
      else ((d.invCleared l).commaTaken l slot (byteAt (blockBytes b.2) 7)).portEval (lanePort l) := by
  rw [Dev.comma_eq d l slot hdr bytes b hb, hl, hp, hk]
  rfl

/-- The inverted commas counted in consecutive slots (R87). -/
def LaneH.invCount (h : LaneH) (slot : Nat) : Nat :=
  if h.invCommas ≠ 0 ∧ slot = h.invSlot + 1 then h.invCommas + 1 else 1

theorem Dev.commaInverse_eq (d : Dev) (l slot : Nat) :
    d.commaInverse l slot =
      if !d.is Lane.LANE_CFG_AUTO_POL l then d
      else if (d.lane l).invCount slot < 4 then
        d.setLane l { d.lane l with invCommas := (d.lane l).invCount slot, invSlot := slot }
      else (((d.invCleared l).wrb Lane.LANE_CFG_RX_INV l (!d.is Lane.LANE_CFG_RX_INV l)).wrb Lane.STAT_POL_INV l
        (!d.is Lane.LANE_CFG_RX_INV l)).evt 0x08 l Lane.E_POL_FLIP := rfl

/-- Settles O10, by the kinds of a block and by the count of inverted commas. -/
theorem commasSeen : Obligations.CommasSeen := by
  unfold Obligations.CommasSeen
  refine ⟨fun s l slot hdr bytes => ⟨fun h => ?_, fun hl hp hk => ⟨fun h1 hinv => ?_, fun hno hno' => ?_, fun h2 hc => ?_⟩⟩,
    fun d l slot => ⟨fun h => ?_, fun h => ⟨fun hn => ?_, fun hn => ?_⟩⟩⟩
  · rw [exec_comma, Dev.comma_eq _ _ _ _ _ _ rfl, if_pos]
    obtain h | h | h := h <;> simp only [h, Bool.not_false, Bool.or_true, Bool.true_or]
  · rw [exec_comma, Dev.comma_eq_of_lock _ _ _ _ _ _ rfl hl hp hk, h1, hinv]
    rfl
  · rw [exec_comma, Dev.comma_eq_of_lock _ _ _ _ _ _ rfl hl hp hk, if_neg, if_pos]
    · rfl
    · obtain h | h := hno' <;> simp only [h, bne_iff_ne, ne_eq, not_false_eq_true, Bool.or_eq_true, Bool.not_false, true_or,
      or_true]
    · obtain h | h := hno <;> simp only [h, beq_iff_eq, Bool.and_eq_true, false_and, and_false, Bool.false_eq_true,
        not_false_eq_true]
  · rw [exec_comma, Dev.comma_eq_of_lock _ _ _ _ _ _ rfl hl hp hk, h2, hc]
    exact rfl
  · exact (Dev.commaInverse_eq d l slot).trans (if_pos (by rw [h]; rfl))
  · exact (Dev.commaInverse_eq d l slot).trans ((if_neg (by rw [h]; exact Bool.false_ne_true)).trans (if_pos hn))
  · exact (Dev.commaInverse_eq d l slot).trans
      ((if_neg (by rw [h]; exact Bool.false_ne_true)).trans (if_neg (Nat.not_lt.2 hn)))

/-! ### Headers (R103, R111) -/

/-- A received header is no block header (R103). -/
def badHeader (h : Nat) : Bool := decide (h % 4 = 0 ∨ h % 4 = 3)

theorem badHeader_eq (h : Nat) : badHeader h = !(h % 4 == 1 || h % 4 == 2) := by
  have hlt : h % 4 < 4 := Nat.mod_lt _ (by decide)
  unfold badHeader
  generalize h % 4 = x at hlt
  revert x
  decide

theorem count_true_eq (l : List Bool) : l.count true = (l.filter id).length := by
  rw [List.count_eq_countP, List.countP_eq_length_filter]
  congr 1
  exact List.filter_congr fun b _ => by cases b <;> rfl

/-- The window of a lane's last headers, with one more. -/
def LaneH.hdrWinNext (h : LaneH) (bad : Bool) : List Bool := (bad :: h.hdrWin).take 64

/-- A lane gains header lock, with a descrambler of its own state. -/
def Dev.hdrGained (d : Dev) (l : Nat) : Dev :=
  ((((d.setLane l { d.lane l with
    hdrRun := 0, hdrWin := [], lockSince := some d.nowL, lostAt := none, dscr := d.freeVal 58 }).freeUsed).wr
      Lane.STAT_HDR_LOCK l 1).laneGood l).evt 0x08 l Lane.E_LOCK_GAINED

/-- One received block header, by the lock of its lane. -/
theorem Dev.header_eq (d : Dev) (l h : Nat) :
    d.header l h =
      if d.is Lane.STAT_HDR_LOCK l then
        let e := d.when (badHeader h) (fun d => d.incSat Lane.CNT_B_HDR_ERR_CNT l)
        if 16 ≤ ((d.lane l).hdrWinNext (badHeader h)).count true then e.hdrLost l
        else e.setLane l { d.lane l with hdrWin := (d.lane l).hdrWinNext (badHeader h) }
      else if badHeader h then
        d.setLane l { d.lane l with hdrRun := 0, align := ((d.lane l).align + 1) % 66 }
      else if (d.lane l).hdrRun + 1 < 64 then d.setLane l { d.lane l with hdrRun := (d.lane l).hdrRun + 1 }
      else d.hdrGained l := by
  rw [badHeader_eq, count_true_eq, Dev.header]
  cases h % 4 == 1 || h % 4 == 2 <;> rfl

theorem Dev.hdrGained_lock (d : Dev) (l : Nat) : (d.hdrGained l).is Lane.STAT_HDR_LOCK l = true := by
  rw [Dev.hdrGained, Dev.is_evt_low _ _ _ _ _ _ (by decide), Dev.is_eq, Dev.rd_laneGood, Dev.rd_wr]
  rfl

theorem Dev.hdrGained_evt (d : Dev) (l : Nat) :
    ((d.hdrGained l).rd (Hdr.EVT 0x08) l).testBit Lane.E_LOCK_GAINED = true :=
  Dev.evt_set _ _ _ _ (by decide)

theorem Dev.hdrGained_lostAt (d : Dev) (l : Nat) : ((d.hdrGained l).lane l).lostAt = none := by
  simp only [Dev.hdrGained, Dev.evt_lane, Dev.laneGood, Dev.lane_setLane, Dev.wr_lane, Dev.freeUsed_lane]

/-! ### Super-frames (R108–R112) -/

theorem Dev.commaMissed_eq (d : Dev) (l : Nat) :
    d.commaMissed l =
      if !d.is Lane.STAT_COMMA_LOCK l then d
      else if (d.lane l).sawComma then d.setLane l { d.lane l with missed := 0, sawComma := false }
      else if (d.lane l).missed + 1 < 2 then d.setLane l { d.lane l with missed := (d.lane l).missed + 1 }
      else d.commaLost l := rfl

/-- TEST traffic of a generator goes on where its packet in flight is gone (R503). -/
def Dev.testOn (d : Dev) (p : Nat) : Dev :=
  if d.testRuns p = true ∧ d.linkUp p = true ∧ (d.loop p).lastTest = [] then d.testSend p (d.rd LbF.LB_CFG_GEN_LEN 0 p) else d

/-- The same in the far-end loop (R149). -/
def Dev.lb2TestOn (d : Dev) (p : Nat) : Dev :=
  if (d.port p).lb = .active ∧ (d.loop p).expect = [] then d.testSend p 8192 else d

theorem Dev.testOn_eq (d : Dev) (p : Nat) :
    d.testOn p = d.when (d.testRuns p && d.linkUp p && (d.loop p).lastTest.isEmpty) (fun d =>
      d.testSend p (d.rd LbF.LB_CFG_GEN_LEN 0 p)) := by
  simp only [Dev.testOn, Dev.when, Bool.and_eq_true, List.isEmpty_iff, and_assoc]

theorem Dev.lb2TestOn_eq (d : Dev) (p : Nat) :
    d.lb2TestOn p = d.when ((d.port p).lb == .active && (d.loop p).expect.isEmpty) (fun d => d.testSend p 8192) := by
  simp only [Dev.lb2TestOn, Dev.when, Bool.and_eq_true, List.isEmpty_iff, beq_iff_eq]

theorem Dev.superframePass_eq (d : Dev) (p : Nat) :
    d.superframePass p = ((((d.superframe p).portEval p).superframeSend p).testOn p).lb2TestOn p := by
  rw [Dev.lb2TestOn_eq, Dev.testOn_eq, Dev.superframePass]

/-- Settles O11, by the cases of a header, of a super-frame's end and of a comma missed. -/
theorem frameHeaders : Obligations.FrameHeaders := by
  unfold Obligations.FrameHeaders
  refine ⟨⟨fun s l hs => ⟨fun hl hp => ?_, fun h => ?_⟩, fun d l h hno => ⟨fun hv hlt => ?_, fun hv hle => ?_, fun hv => ?_⟩,
    fun d l h hlock => ⟨fun hle => ?_, fun hlt => ?_⟩⟩,
    fun s p n => rfl, fun a p d hd e he => ?_, fun d p => ⟨fun hen => ?_, fun hen hup => ?_, fun hen hup => ?_, rfl⟩,
    fun d l => ⟨fun h => ?_, fun h => ⟨fun hsaw => ?_, fun hsaw hm => ?_, fun hsaw hm => ?_⟩⟩⟩
  · change execHeaderLock l hs s = _
    rw [execHeaderLock, State.upd, hl, hp]
    rfl
  · change execHeaderLock l hs s = _
    rw [execHeaderLock, State.upd, if_neg]
    obtain h | h := h <;> simp only [h, Bool.false_and, Bool.and_false, Bool.false_eq_true, not_false_eq_true]
  · have hbad : badHeader h = false := decide_eq_false (by omega)
    rw [Dev.header_eq, hno, hbad]
    exact if_pos hlt
  · have hbad : badHeader h = false := decide_eq_false (by omega)
    have hgain : d.header l h = d.hdrGained l := by
      rw [Dev.header_eq, hno, hbad]
      exact if_neg (Nat.not_lt.2 hle)
    rw [hgain]
    exact ⟨d.hdrGained_lock l, d.hdrGained_evt l, d.hdrGained_lostAt l⟩
  · have hbad : badHeader h = true := decide_eq_true hv
    rw [Dev.header_eq, hno, hbad]
    rfl
  · rw [Dev.header_eq, hlock]
    exact if_pos hle
  · have hkeep : d.header l h = (d.when (badHeader h) (fun d => d.incSat Lane.CNT_B_HDR_ERR_CNT l)).setLane l
        { d.lane l with hdrWin := (d.lane l).hdrWinNext (badHeader h) } := by
      rw [Dev.header_eq, hlock]
      exact if_neg (Nat.not_le.2 hlt)
    refine ⟨hkeep, ?_⟩
    rw [hkeep]
    exact (Dev.when_keeps (fun d => d.is Lane.STAT_HDR_LOCK l) d _ _ (Dev.is_wr_off _ _ _ _ _ (by decide))).trans hlock
  · rw [Dev.superframePass_eq, ← hd, Dev.testOn, ← he, Dev.lb2TestOn]
  · exact if_pos (by rw [hen]; rfl)
  · rw [Dev.superframeSend, hen, hup]
    rfl
  · rw [Dev.superframeSend, hen, hup]
    rfl
  · rw [Dev.commaMissed_eq, h]
    rfl
  · rw [Dev.commaMissed_eq, h, hsaw]
    rfl
  · simp only [Dev.commaMissed_eq, h, hsaw, hm, Bool.not_true, Bool.false_eq_true, if_false]
    rfl
  · simp only [Dev.commaMissed_eq, h, hsaw, Bool.not_true, Bool.false_eq_true, if_false]
    exact if_neg (by omega)

/-! ### The active set (R90) -/

/-- The active set of the lanes that both masks have. -/
theorem activeSet_and {near far : Nat} (hn : near < 16) : activeSet near far = activeSet (near &&& far) 0xF := by
  have hlt : near &&& far < 2 ^ 4 := Nat.lt_of_le_of_lt Nat.and_le_left hn
  have hand : ∀ x < 2 ^ 4, x &&& 0xF &&& 0xF = x &&& 0xF := by decide
  rw [activeSet, activeSet, hand _ hlt]

/-! The active set of a set of common lanes: all of it, a part of it, none of it, the two lowest of it. -/

theorem activeSet_all : ∀ h < 16, activeSet h 0xF = 0xF ↔ h = 0xF := by decide

theorem activeSet_subset : ∀ h < 16, ∀ i < 4, (activeSet h 0xF).testBit i = true → h.testBit i = true := by decide

theorem activeSet_single : ∀ h < 16, maskWidth h = 1 → activeSet h 0xF = 0 := by decide

theorem activeSet_pair : ∀ h < 16, 2 ≤ maskWidth h → maskWidth h < 4 → maskWidth (activeSet h 0xF) = 2 := by decide

theorem activeSet_lowest : ∀ (h : Fin 16) (j i : Fin 4), i < j → maskWidth h < 4 → (activeSet h 0xF).testBit j = true →
    h.val.testBit i = true → (activeSet h 0xF).testBit i = true := by decide

theorem and_eq_fifteen {near far : Nat} (hn : near < 16) (hf : far < 16) :
    near &&& far = 0xF ↔ near = 0xF ∧ far = 0xF := by
  have h : ∀ x < 16, ∀ y < 16, x &&& y = 0xF ↔ x = 0xF ∧ y = 0xF := by decide
  exact h near hn far hf

/-! ### Failed lanes (R89, R92, R94) -/

/-- The logical lane that a failed lane carried, or one that is missing. -/
def Dev.failedLogical (d : Dev) (l : Nat) : Option Nat :=
  (d.lane l).known.or ((List.range 4).find? (fun i => (d.rd Port.LG_CFG_EXPECT_MASK (lanePort l)).testBit i &&
    (d.carrier (lanePort l) i).isNone && !(d.rd Port.LG_STAT_EXCLUDED (lanePort l)).testBit i))

/-- A lane shows FAILED, with LANE_FAILED and RX_FAIL. -/
def Dev.failShown (d : Dev) (l : Nat) : Dev :=
  ((d.wr Lane.STAT_FAILED l 1).evt 0x08 l Lane.E_LANE_FAILED).flt 0x08 l Lane.F_RX_FAIL

theorem Dev.laneFail_eq (d : Dev) (l : Nat) (e : Dev) (he : e = d.failShown l) :
    d.laneFail l = ((match e.failedLogical l with
      | some i => e.when (e.is Port.LG_CFG_AUTO_NARROW (lanePort l)) (fun d =>
          d.wr Port.LG_STAT_EXCLUDED (lanePort l) (d.rd Port.LG_STAT_EXCLUDED (lanePort l) ||| 2 ^ i))
      | none => e)).portEval (lanePort l) := by
  subst he
  have hlog : ∀ e : Dev, e.failedLogical l = match (e.lane l).known with
      | some i => some i
      | none => (List.range 4).find? (fun i => (e.rd Port.LG_CFG_EXPECT_MASK (lanePort l)).testBit i &&
          (e.carrier (lanePort l) i).isNone && !(e.rd Port.LG_STAT_EXCLUDED (lanePort l)).testBit i) := by
    intro e
    rw [Dev.failedLogical]
    cases (e.lane l).known <;> rfl
  rw [hlog]
  rfl

theorem exec_laneFailed (s : State) (l : Fin 64) :
    exec (.laneFailed l) s = .next (s.withDev
      (s.dev.when (s.dev.enabled 0x0A (lanePort l) && s.dev.failDue l) (fun d => d.laneFail l))) := rfl

/-- A condition of R89 that began at a time has lasted for LANE_FAIL_TIME. -/
def Dev.failPast (d : Dev) (l : Nat) (o : Option Nat) : Bool :=
  match o with
  | some t => decide (t + d.laneFailTime (lanePort l) ≤ d.nowL)
  | none => false

theorem Dev.failPast_some {d : Dev} {l t : Nat} (h : t + d.laneFailTime (lanePort l) ≤ d.nowL) :
    d.failPast l (some t) = true := decide_eq_true h

theorem Dev.failDue_eq (d : Dev) (l : Nat) :
    d.failDue l = ((!d.is Lane.STAT_HDR_LOCK l && d.failPast l (d.lane l).lostAt) || d.failPast l (d.lane l).lowSince ||
      (d.lockFails l && d.failPast l (d.port (lanePort l)).firstLock)) := rfl

theorem exec_narrowTimeout (s : State) (p : Fin 16) :
    exec (.narrowTimeout p) s = .next (s.withDev
      (s.dev.when (s.dev.is Port.LG_STAT_NARROW_PENDING p) (fun d => d.lanesLost p))) := rfl

/-! ### WIDEN (R95) -/

/-- An excluded logical lane whose carrier has been good for 100 ms. -/
def Dev.widenGood (d : Dev) (p i : Nat) : Bool :=
  (d.rd Port.LG_STAT_EXCLUDED p).testBit i && match d.carrier p i with
    | some l => match (d.lane l).goodSince with
      | some t => decide (t + 100000000 * nsL ≤ d.nowL)
      | none => false
    | none => false

/-- An excluded logical lane comes back. -/
def Dev.widenBack (d : Dev) (p i : Nat) : Dev :=
  match d.carrier p i with
  | some l => (d.wr Port.LG_STAT_EXCLUDED p (d.rd Port.LG_STAT_EXCLUDED p - 2 ^ i)).wr Lane.STAT_FAILED l 0
  | none => d.wr Port.LG_STAT_EXCLUDED p (d.rd Port.LG_STAT_EXCLUDED p - 2 ^ i)

/-- WIDEN judges the lanes, brings the good ones back one after the other and looks at the port. -/
theorem Dev.cmdWiden_eq (d e : Dev) (p : Nat) (he : e = (portLanes p).foldl (fun d l => d.laneGood l) d) :
    d.cmdWiden p = (((List.range 4).filter (e.widenGood p)).foldl (fun d i => d.widenBack p i) e).portEval p := by
  subst he
  have hback : (fun (d : Dev) i => d.widenBack p i) = fun (d : Dev) i =>
      match (d.wr Port.LG_STAT_EXCLUDED p (d.rd Port.LG_STAT_EXCLUDED p - 2 ^ i)).carrier p i with
      | some l => (d.wr Port.LG_STAT_EXCLUDED p (d.rd Port.LG_STAT_EXCLUDED p - 2 ^ i)).wr Lane.STAT_FAILED l 0
      | none => d.wr Port.LG_STAT_EXCLUDED p (d.rd Port.LG_STAT_EXCLUDED p - 2 ^ i) := by
    funext d i
    have hcar : (d.wr Port.LG_STAT_EXCLUDED p (d.rd Port.LG_STAT_EXCLUDED p - 2 ^ i)).carrier p i = d.carrier p i := by
      unfold Dev.carrier Dev.is
      simp only [Dev.rd_wr_spot _ Port.LG_STAT_EXCLUDED Lane.STAT_COMMA_LOCK _ _ _ (by decide),
        Dev.rd_wr_spot _ Port.LG_STAT_EXCLUDED Lane.STAT_RX_LOGICAL _ _ _ (by decide)]
    rw [hcar]
    rfl
  rw [hback]
  rfl

/-- Where one of four passes a test and no other does, it is what the test leaves. -/
theorem filter_range_four {f : Nat → Bool} {i : Nat} (hi : i < 4) (hf : f i = true) (ho : ∀ j, j < 4 → j ≠ i → f j = false) :
    (List.range 4).filter f = [i] := by
  have hrange : List.range 4 = [0, 1, 2, 3] := rfl
  have hval : ∀ j, j < 4 → f j = decide (j = i) := fun j hj => by
    by_cases h : j = i
    · rw [h, hf, decide_eq_true rfl]
    · rw [ho j hj h, decide_eq_false h]
  rw [List.filter_congr fun j hj => hval j (List.mem_range.1 hj), hrange]
  have hall : ∀ i < 4, [0, 1, 2, 3].filter (fun j => decide (j = i)) = [i] := by decide
  exact hall i hi

/-- Settles O12: the active set by that of the common lanes, the commands by their cases. -/
theorem activeLanes : Obligations.ActiveLanes := by
  unfold Obligations.ActiveLanes
  refine ⟨fun near far hn hf => ?_, fun s => ⟨fun l h => ?_, fun l hen hdue => ⟨fun hnar => ?_, fun hnar o ho => ?_⟩, fun l t =>
    ⟨fun hk hlost ht => ?_, fun hlow ht => ?_⟩, fun p h => ?_, fun p h => ?_⟩, fun s r p ht => ?_,
    fun s p => ⟨fun hen hup => ?_, fun h => ?_⟩⟩
  · have hlt : near &&& far < 16 := Nat.lt_of_le_of_lt Nat.and_le_left hn
    rw [activeSet_and hn]
    refine ⟨(activeSet_all _ hlt).trans (and_eq_fifteen hn hf), fun i hi h => ?_, activeSet_single _ hlt,
      fun h2 h4 => ⟨activeSet_pair _ hlt h2 h4, fun i j hij hj hset hcom => 
        activeSet_lowest ⟨_, hlt⟩ ⟨j, hj⟩ ⟨i, Nat.lt_trans hij hj⟩ hij h4 hset hcom⟩⟩
    have hbit := activeSet_subset _ hlt i hi h
    rwa [Nat.testBit_and, Bool.and_eq_true] at hbit
  · rw [exec_laneFailed, Dev.when_of_eq_false]
    obtain h | h := h <;> simp only [h, Bool.false_and, Bool.and_false]
  · rw [exec_laneFailed, hen, hdue, Bool.and_self, Dev.when_true, Dev.laneFail_eq _ _ _ rfl, Dev.failShown, hnar]
    cases Dev.failedLogical _ _ <;> rfl
  · have hfail : exec (.laneFailed l) s = .next (s.withDev (s.dev.laneFail l)) := by
      rw [exec_laneFailed, hen, hdue, Bool.and_self, Dev.when_true]
    replace ho : o = (s.dev.failShown l).failedLogical l := ho
    rw [hfail, Dev.laneFail_eq _ _ _ rfl, ← ho]
    refine ⟨fun hnone => ?_, fun i hi => ?_⟩
    · subst hnone
      rfl
    · subst hi
      exact congrArg (fun d => Host.Outcome.next (s.withDev (Dev.portEval d (lanePort l)))) (Dev.when_of_eq_true hnar)
  · rw [Dev.failDue_eq, hk, hlost, Dev.failPast_some ht]
    rfl
  · rw [Dev.failDue_eq, hlow, Dev.failPast_some ht, Bool.or_true, Bool.true_or]
  · rw [exec_narrowTimeout, h, Dev.when_true, Dev.lanesLost]
  · rw [exec_narrowTimeout, h, Dev.when_false]
  · intro d good
    have hwiden : exec (.widen r p) s = .next (s.withDev
        (((List.range 4).filter good |>.foldl (fun d i => d.widenBack p i) d).portEval p)) := by
      refine (State.upd_busW s _ _ _ _ ht).trans ?_
      rw [Dev.cmdWiden_eq _ _ _ rfl]
      rfl
    clear_value good
    rw [hwiden]
    refine ⟨fun hno => ?_, fun i hi hgood hother l hl => ?_⟩
    · rw [List.filter_eq_nil_iff.2 fun i hi => Bool.eq_false_iff.1 (hno i (List.mem_range.1 hi)), List.foldl_nil]
    · rw [filter_range_four hi hgood hother, List.foldl_cons, List.foldl_nil, Dev.widenBack, hl]
  · change execNolock p s = _
    rw [execNolock, State.upd, hen, hup, Bool.not_false, Bool.and_self, Dev.when_true]
    refine congrArg (fun f => Host.Outcome.next (s.withDev (List.foldl f _ (portLanes p)))) ?_
    funext d l
    cases d.is Lane.STAT_HDR_LOCK l <;> rfl
  · change execNolock p s = _
    rw [execNolock, State.upd, Dev.when_of_eq_false]
    obtain h | h := h <;> simp only [h, Bool.false_and, Bool.and_false, Bool.not_true]

/-! ### RATE and REFOUT (R68–R74) -/

/-- A lane shows the TX_FFE default of a rate (R74). -/
def Dev.FfeIs (d : Dev) (rate l : Nat) : Prop :=
  d.rd Lane.TX_FFE_PRE l = (ffeDefault rate).1 ∧ d.rd Lane.TX_FFE_POST l = (ffeDefault rate).2.1 ∧
    d.rd Lane.TX_FFE_AMP l = (ffeDefault rate).2.2

theorem ffeDefault_fits (rate : Fin 4) : (ffeDefault rate).1 % 2 ^ 4 = (ffeDefault rate).1 ∧
    (ffeDefault rate).2.1 % 2 ^ 5 = (ffeDefault rate).2.1 ∧ (ffeDefault rate).2.2 % 2 ^ 4 = (ffeDefault rate).2.2 := by
  revert rate
  decide

theorem Dev.ffeDefaults_self (d : Dev) (l : Nat) (rate : Fin 4) : (d.ffeDefaults l rate).FfeIs rate l := by
  obtain ⟨hpre, hpost, hamp⟩ := ffeDefault_fits rate
  refine ⟨?_, ?_, ?_⟩
  · rw [Dev.ffeDefaults, Dev.rd_wr_off _ _ _ _ _ (by decide), Dev.rd_wr_off _ _ _ _ _ (by decide), Dev.rd_wr]
    exact hpre
  · rw [Dev.ffeDefaults, Dev.rd_wr_off _ _ _ _ _ (by decide), Dev.rd_wr]
    exact hpost
  · rw [Dev.ffeDefaults, Dev.rd_wr]
    exact hamp

theorem Dev.rd_ffeDefaults_ne (d : Dev) (l m rate : Nat) (f : Fld) (h : m ≠ l)
    (hf : f.cls = 0x08 ∧ f.off < 4096 ∧ f.lo < 32) : (d.ffeDefaults l rate).rd f m = d.rd f m := by
  obtain ⟨hc, ho, hl⟩ := hf
  rw [Dev.ffeDefaults, Dev.rd_wr_inst _ _ _ _ _ _ ⟨hc.symm, by decide, ho, by decide, hl⟩ h,
    Dev.rd_wr_inst _ _ _ _ _ _ ⟨hc.symm, by decide, ho, by decide, hl⟩ h,
    Dev.rd_wr_inst _ _ _ _ _ _ ⟨hc.symm, by decide, ho, by decide, hl⟩ h]

/-- The default of another lane, or the same once more, leaves a lane's default. -/
theorem Dev.FfeIs.ffeDefaults {d : Dev} {rate : Fin 4} {l : Nat} (h : d.FfeIs rate l) (m : Nat) :
    (d.ffeDefaults m rate).FfeIs rate l := by
  by_cases hm : l = m
  · exact hm ▸ d.ffeDefaults_self l rate
  · obtain ⟨hpre, hpost, hamp⟩ := h
    exact ⟨(d.rd_ffeDefaults_ne m l rate _ hm (by decide)).trans hpre, (d.rd_ffeDefaults_ne m l rate _ hm (by decide)).trans hpost,
      (d.rd_ffeDefaults_ne m l rate _ hm (by decide)).trans hamp⟩

theorem Dev.ffeIs_foldl (d : Dev) (rate : Fin 4) (ls : List Nat) (l : Nat) (h : l ∈ ls) :
    (ls.foldl (fun d l => d.ffeDefaults l rate) d).FfeIs rate l := by
  induction ls generalizing d with
  | nil => exact absurd h List.not_mem_nil
  | cons m ls ih =>
    rcases List.mem_cons.1 h with rfl | h
    · exact foldl_induct (fun d => d.FfeIs rate l) _ ls (fun d hd m _ => hd.ffeDefaults m) (d.ffeDefaults_self l rate)
    · exact ih _ h

theorem Dev.rd_rate_ffeFold (d : Dev) (rate p : Nat) (ls : List Nat) :
    (ls.foldl (fun d l => d.ffeDefaults l rate) d).rd Port.LG_CFG_RATE p = d.rd Port.LG_CFG_RATE p :=
  foldl_keeps (fun d => d.rd Port.LG_CFG_RATE p) _ ls (fun d l _ => by
    rw [Dev.ffeDefaults, Dev.rd_wr_spot _ _ _ _ _ _ (by decide), Dev.rd_wr_spot _ _ _ _ _ _ (by decide),
      Dev.rd_wr_spot _ _ _ _ _ _ (by decide)]) d

theorem Dev.rateWrite_eq (d : Dev) (p v : Nat) :
    d.rateWrite p v = if v = d.rd Port.LG_CFG_RATE p then d else if d.enabled 0x0A p then d.evt 0x0A p evtBAD_ACCESS
      else (portLanes p).foldl (fun d l => d.ffeDefaults l v) (d.wr Port.LG_CFG_RATE p v) := rfl

theorem Dev.refoutGood_of_idle {d : Dev} {p : Nat} (h : d.is Port.LG_CFG_REFOUT_EN p = false ∨
    d.is Port.LG_STAT_REFOUT_OK p = true) : d.refoutGood p = d := by
  refine if_pos ?_
  obtain h | h := h <;> simp only [h, Bool.not_false, Bool.true_or, Bool.or_true]

theorem Dev.refoutGood_of_due {d : Dev} {p : Nat} (hen : d.is Port.LG_CFG_REFOUT_EN p = true)
    (hok : d.is Port.LG_STAT_REFOUT_OK p = false) :
    d.refoutGood p = (d.wr Port.LG_STAT_REFOUT_OK p 1).when (d.enabled 0x0A p) (fun d => (d.sendBurst p).portEval p) := by
  have hpage : (d.wr Port.LG_STAT_REFOUT_OK p 1).enabled 0x0A p = d.enabled 0x0A p :=
    Dev.enabled_congr (Dev.rd_wr_off _ _ _ _ _ (by decide))
  rw [Dev.refoutGood, hen, hok, ← hpage]
  rfl

/-- Settles O13: RATE by the defaults of its lanes, REFOUT by its cases, the rate check by its equation. -/
theorem rateAndRefout : Obligations.RateAndRefout := by
  unfold Obligations.RateAndRefout
  refine ⟨fun s r p v ht => ⟨fun h => ?_, fun h hen => ?_, fun h hen => ?_⟩, fun s p => ⟨fun hen hok d hd => ⟨fun hoff => ?_,
    fun hon => ?_⟩,
    fun h => ?_, fun d hd e he => ?_⟩, fun s p => rfl⟩
  · exact (State.upd_busW s _ _ _ _ ht).trans (by rw [Dev.rateWrite_eq, if_pos h.symm])
  · exact (State.upd_busW s _ _ _ _ ht).trans (by rw [Dev.rateWrite_eq, if_neg (Ne.symm h), if_pos hen])
  · have hexec : exec (.rateWrite r p v) s = .next (s.withDev
        ((portLanes p).foldl (fun d l => d.ffeDefaults l v) (s.dev.wr Port.LG_CFG_RATE p v))) :=
      (State.upd_busW s _ _ _ _ ht).trans (by
        rw [Dev.rateWrite_eq, if_neg (Ne.symm h), hen, if_neg Bool.false_ne_true])
    refine ⟨_, hexec, State.withDev_mem _ _, ?_, fun l hl => ?_⟩
    · rw [State.withDev_dev, Dev.done_rd, Dev.rd_rate_ffeFold, Dev.rd_wr]
      exact Nat.mod_eq_of_lt v.2
    · exact Dev.ffeIs_foldl (s.dev.wr Port.LG_CFG_RATE p v) v _ l hl
  · have hgood : s.dev.refoutGood p = d := by
      rw [Dev.refoutGood_of_due hen hok, hoff, Dev.when_false, hd]
    exact ⟨congrArg (fun d => Host.Outcome.next (s.withDev d)) hgood, congrArg (fun d => Host.Outcome.next (s.withDev d)) hgood⟩
  · have hgood : s.dev.refoutGood p = (d.sendBurst p).portEval p := by
      rw [Dev.refoutGood_of_due hen hok, hon, Dev.when_true, hd]
    exact ⟨congrArg (fun d => Host.Outcome.next (s.withDev d)) hgood, congrArg (fun d => Host.Outcome.next (s.withDev d)) hgood⟩
  · have hgood := Dev.refoutGood_of_idle h
    exact ⟨congrArg (fun d => Host.Outcome.next (s.withDev d)) hgood, congrArg (fun d => Host.Outcome.next (s.withDev d)) hgood⟩
  · subst he hd
    rfl

end Sys2Proof.Machine
end

