-- ==== Sys2Proof/Proofs/Packets.lean ====
section
/-!
PROOFS. Packets of a Flegar port (R103–R134, R137–R142, R153–R160): what arrives block by block, the rule of each packet type, and
what leaves; from these the statements O14 to O17.
-/

open Sys2Proof

namespace Sys2Proof.Machine

/-! ### Blocks received (R103–R106, R113) -/

/-- The six commands with blocks of a port are one. -/
theorem exec_packets (s : State) (p : Fin 16) (slots : List LaneSlot) :
    ∀ c ∈ [Instr.linePacket p slots, .framePacket p slots, .testPacket p slots, .creditPacket p slots, .timeResp p slots,
      .mgmtResponse p slots], exec c s = .next (s.withDev (s.dev.portRx p slots)) := by
  simp only [List.forall_mem_cons]
  exact ⟨rfl, rfl, rfl, rfl, rfl, rfl, fun _ h => absurd h List.not_mem_nil⟩

theorem Dev.portRx_eq (d : Dev) (p : Nat) (slots : List LaneSlot) :
    d.portRx p slots =
      if !d.enabled 0x0A p || !d.linkUp p then d
      else ((slots.map (fun row => (d.activeLanes p).zip row)).flatten.foldl (fun d x => d.portBlock p x) d).portEval p := rfl

/-- A block of a lane: header, polarity and descrambler, then the loops and the port stream. -/
theorem Dev.portBlock_eq {d e : Dev} {p i h v l : Nat} {raw : Nat × Nat} {r : Dev × Nat × Nat} (hl : l = d.inLane p i)
    (hraw : raw = d.rxBall l (h % 4, v % 2 ^ 64)) (he : e = if d.enabled 0x08 l then d.header l raw.1 else d)
    (hr : r = e.laneTake l raw) {b : Nat × Nat} (hb : b = if e.is Lane.STAT_HDR_LOCK l then r.2 else (0, r.2.2)) :
    d.portBlock p (i, h, v) =
      if !r.1.linkUp p then r.1
      else ((r.1.when (r.1.loopDepth p == 3) (fun d => d.lb3Return p i b)).lb2Block p b).portStream p b := by
  subst hb hr he hraw hl
  rfl

theorem Dev.lb2Block_eq_of_off {d : Dev} {p : Nat} (b : Nat × Nat) (h : d.lbOn p = false) : d.lb2Block p b = d := by
  simp only [Dev.lb2Block, h, Bool.not_false, Bool.true_or, if_true]

/-- Outside the loops that return blocks, a block of a lane goes to the port stream. -/
theorem Dev.portBlock_eq_of_off {d e : Dev} {p i h v l : Nat} {raw : Nat × Nat} {r : Dev × Nat × Nat} (hl : l = d.inLane p i)
    (hraw : raw = d.rxBall l (h % 4, v % 2 ^ 64)) (he : e = if d.enabled 0x08 l then d.header l raw.1 else d)
    (hr : r = e.laneTake l raw) (h3 : r.1.loopDepth p ≠ 3) (hlb : r.1.lbOn p = false) :
    d.portBlock p (i, h, v) =
      if !r.1.linkUp p then r.1
      else r.1.portStream p (if e.is Lane.STAT_HDR_LOCK l then r.2 else (0, r.2.2)) := by
  rw [Dev.portBlock_eq hl hraw he hr rfl, Dev.when_of_eq_false (beq_eq_false_iff_ne.2 h3), Dev.lb2Block_eq_of_off _ hlb]

/-- A block that begins a packet. -/
def startsPacket (b : Nat × Nat) : Bool := b.1 == 2 && byteAt (blockBytes b.2) 0 == 0x78

theorem startsPacket_eq_true_iff {b : Nat × Nat} : startsPacket b = true ↔ b.1 = 2 ∧ byteAt (blockBytes b.2) 0 = 0x78 := by
  rw [startsPacket, Bool.and_eq_true, beq_iff_eq, beq_iff_eq]

theorem Dev.portStream_eq_of_none {d : Dev} {p : Nat} (b : Nat × Nat) (h : (d.port p).rx = none) :
    d.portStream p b = d.when (startsPacket b) (fun d => d.rxStart p ((blockBytes b.2).drop 1)) := by
  rw [Dev.portStream, h]
  rfl

theorem Dev.portStream_eq_of_some {d : Dev} {p : Nat} (b : Nat × Nat) {pk : List Nat} (h : (d.port p).rx = some pk) :
    d.portStream p b =
      if b.1 = 1 then d.setPort p { d.port p with rx := some (pk ++ blockBytes b.2) }
      else if b.1 = 2 ∧ 0xE0 ≤ byteAt (blockBytes b.2) 0 ∧ byteAt (blockBytes b.2) 0 ≤ 0xE7 then
        d.rxEnd p (pk ++ ((blockBytes b.2).drop 1).take (byteAt (blockBytes b.2) 0 - 0xE0))
      else ((d.rxCut p).rxCrcErr p).when (startsPacket b) (fun d => d.rxStart p ((blockBytes b.2).drop 1)) := by
  rw [Dev.portStream, h]
  rfl

theorem Dev.rxStart_eq (d : Dev) (p : Nat) (pk : List Nat) :
    d.rxStart p pk = (d.setPort p { d.port p with rx := some pk }).when (byteAt pk 0 == 1 || byteAt pk 0 == 2)
      (fun d => d.ingCharge p (le pk 4 2)) := rfl

/-- An injector that is off and holds no packet lets every packet pass. -/
theorem Dev.inject_eq_of_off {d : Dev} {u : Nat} (dir typ : Nat) (bs : List Nat) (hoff : d.is LbF.INJ_CFG_INJ_EN 0 u = false)
    (hheld : (d.loop u).held = none) : d.inject u dir typ bs = (d, [bs]) := by
  simp only [Dev.inject, hoff, Bool.false_and, Bool.not_false, if_true, Dev.injPass, hheld]

theorem Dev.rxEnd_eq_of_off {d e : Dev} {p : Nat} {pk : List Nat}
    (he : e = (d.setPort p { d.port p with rx := none }).rxReturn p pk) (hoff : e.is LbF.INJ_CFG_INJ_EN 0 p = false)
    (hheld : (e.loop p).held = none) : d.rxEnd p pk = e.rxPacket p pk := by
  rw [Dev.rxEnd, ← he, Dev.inject_eq_of_off _ _ _ hoff hheld]
  rfl

/-! ### The rule of a packet (R118–R127, R149, R504) -/

theorem Dev.rxPacket_eq (d : Dev) (p : Nat) (bs : List Nat) :
    d.rxPacket p bs =
      if !pktGood bs then d.rxCrcErr p
      else if (d.port p).lb == .active && byteAt bs 0 != 0x0F then d
      else if d.loopDepth p == 3 && (byteAt bs 0 == 0x0F || pktKnown bs) then d
      else if !pktKnown bs then d.rxUnknown p
      else match byteAt bs 0 with
        | 0x01 => d.rxLine p bs
        | 0x02 => d.rxFrame p bs
        | 0x04 => d.rxTime p bs
        | 0x05 => d.rxMgmt p bs
        | 0x06 => d.rxCredit p bs
        | _ => d.rxTest p bs := by
  rw [Dev.rxPacket] <;> rfl

/-- A good packet outside the far-end loop and LB3 goes to the rule of its type, or is of unknown type. -/
theorem Dev.rxPacket_eq_of_good {d : Dev} {p : Nat} {bs : List Nat} (hg : pktGood bs = true) (h3 : d.loopDepth p ≠ 3)
    (hlb : (d.port p).lb ≠ .active) :
    d.rxPacket p bs =
      if !pktKnown bs then d.rxUnknown p
      else match byteAt bs 0 with
        | 0x01 => d.rxLine p bs
        | 0x02 => d.rxFrame p bs
        | 0x04 => d.rxTime p bs
        | 0x05 => d.rxMgmt p bs
        | 0x06 => d.rxCredit p bs
        | _ => d.rxTest p bs := by
  rw [Dev.rxPacket_eq, hg, beq_eq_false_iff_ne.2 hlb, beq_eq_false_iff_ne.2 h3]
  rfl

/-- Settles O14, by the equations of a block, of the port stream and of a packet. -/
theorem packetsIn : Obligations.PacketsIn := by
  unfold Obligations.PacketsIn
  refine ⟨⟨fun s p slots c hc => ⟨fun h => ?_, fun he hu => ?_⟩, fun d p i h v l hl raw hraw e he r hr h3 hlb =>
    ⟨fun hu => ?_, fun hu => ⟨fun hk => ?_, fun hk => ?_⟩⟩, fun d p b => ⟨fun hn hs => ?_, fun hn hs => ?_, fun pk hpk =>
      ⟨fun h1 => ?_, fun h2 h3 h4 => ?_, fun hs => ?_, fun h1 h2 hs => ?_⟩, fun pk e he => ⟨fun ht => ?_, fun h1 h2 => ?_⟩,
      fun pk e he hoff hheld => ?_⟩⟩, fun d p bs => ⟨fun hg ht => ?_, fun hg hlb hb => ?_, fun hg h3 hlb hk => ?_,
      fun hg h3 hlb => ⟨fun hk => ?_, fun hk => ⟨fun hb => ?_, fun hb => ?_, fun hb => ?_, fun hb => ?_, fun hb => ?_,
        fun hb => ?_⟩⟩⟩⟩
  · rw [exec_packets s p slots c hc, Dev.portRx_eq, if_pos]
    obtain h | h := h <;> simp only [h, Bool.not_false, Bool.or_true, Bool.true_or]
  · rw [exec_packets s p slots c hc, Dev.portRx_eq, he, hu]
    rfl
  · rw [Dev.portBlock_eq_of_off hl hraw he hr h3 hlb, hu]
    rfl
  · rw [Dev.portBlock_eq_of_off hl hraw he hr h3 hlb, hu, hk]
    rfl
  · rw [Dev.portBlock_eq_of_off hl hraw he hr h3 hlb, hu, hk]
    rfl
  · rw [Dev.portStream_eq_of_none _ hn, Dev.when_of_eq_false]
    exact Bool.eq_false_iff.2 fun h => hs (startsPacket_eq_true_iff.1 h)
  · rw [Dev.portStream_eq_of_none _ hn, Dev.when_of_eq_true (startsPacket_eq_true_iff.2 hs)]
  · rw [Dev.portStream_eq_of_some _ hpk, if_pos h1]
  · rw [Dev.portStream_eq_of_some _ hpk, if_neg (by omega), if_pos ⟨h2, h3, h4⟩]
  · rw [Dev.portStream_eq_of_some _ hpk, if_neg (by omega), if_neg (by omega),
      Dev.when_of_eq_true (startsPacket_eq_true_iff.2 hs)]
  · rw [Dev.portStream_eq_of_some _ hpk, if_neg h1, if_neg h2, Dev.when_of_eq_false]
    exact Bool.eq_false_iff.2 fun h => hs (startsPacket_eq_true_iff.1 h)
  · rw [Dev.rxStart_eq, ← he, Dev.when_of_eq_true]
    simpa only [Bool.or_eq_true, beq_iff_eq] using ht
  · rw [Dev.rxStart_eq, ← he, Dev.when_of_eq_false]
    rw [beq_eq_false_iff_ne.2 h1, beq_eq_false_iff_ne.2 h2]
    rfl
  · exact Dev.rxEnd_eq_of_off he hoff hheld
  · rw [Dev.rxPacket_eq, hg, Dev.rxCrcErr, ht]
    rfl
  · rw [Dev.rxPacket_eq, hg, hlb, bne_iff_ne.2 hb]
    rfl
  · rw [Dev.rxPacket_eq, hg, beq_eq_false_iff_ne.2 hlb, h3, hk, Bool.or_true]
    rfl
  · rw [Dev.rxPacket_eq_of_good hg h3 hlb, hk]
    rfl
  all_goals
    rw [Dev.rxPacket_eq_of_good hg h3 hlb, hk, hb]
    rfl

/-! ### LINE and FRAME packets, and lines in assembly (R120, R130, R153–R156, R167) -/

/-- A LINE packet within the credit counts a line start and remembers its line. -/
def Dev.lineStarted (d : Dev) (p : Nat) (bs : List Nat) : Dev :=
  d.setPort p { d.port p with
    lineStarts := (d.port p).lineStarts + bitOf (byteAt bs 22) 0, dropLine := some (le bs 8 4) }

/-- The dropped lines that a LINE packet reports, counted once for each line. -/
def Dev.linePrepared (d : Dev) (p : Nat) (bs : List Nat) : Dev :=
  (d.lineStarted p bs).when (byteAt bs 23 != 0 && (d.port p).dropLine != some (le bs 8 4)) (fun d =>
    (d.addSat Port.CNT_A_CAM_DROP_CNT p (byteAt bs 23)).evt 0x0A p Port.E_CAM_DROP)

theorem Dev.rxLine_eq (d : Dev) (p : Nat) (bs : List Nat) :
    d.rxLine p bs =
      if d.overCredit p then d.flt 0x0A p Port.F_CREDIT_VIOL
      else (d.linePrepared p bs).ingLine p bs ((d.linePrepared p bs).is Port.STAT_TIME_SUSPECT p) := rfl

theorem Dev.rxFrame_eq (d : Dev) (p : Nat) (bs : List Nat) :
    d.rxFrame p bs =
      if d.overCredit p then d.flt 0x0A p Port.F_CREDIT_VIOL else d.ingFrame p bs (d.is Port.STAT_TIME_SUSPECT p) := rfl

theorem Raised.ing {d e : Dev} (h : Raised d e) (p : Nat) : e.ing p = d.ing p := by
  rw [h.rest]
  rfl

/-- What port ingest knows of a line in assembly, and its line FIFO. -/
def Dev.lineView (d : Dev) (p : Nat) : IngestH × List QItem × Nat := (d.ing p, (d.queue p).items, (d.queue p).wr)

theorem Raised.lineView {d e : Dev} (h : Raised d e) (p : Nat) : e.lineView p = d.lineView p := by
  obtain ⟨hitems, hwr, -⟩ := h.queue p
  rw [Dev.lineView, h.ing, hitems, hwr]
  rfl

theorem Dev.lineView_wr (d : Dev) (f : Fld) (i v p : Nat) : (d.wr f i v).lineView p = d.lineView p := rfl

theorem Dev.lineView_showIng (d : Dev) (p : Nat) : (d.showIng p).lineView p = d.lineView p := by
  rw [Dev.showIng, Dev.wrb, Dev.wrb, Dev.lineView_wr, Dev.lineView_wr]

/-- The line in assembly closed: its item in the line FIFO and the next ITEM_SEQ. -/
def Dev.lineClosed (d : Dev) (p : Nat) (o : OpenLine) (it : QItem) : Dev :=
  let d := d.setIng p { d.ing p with line := none, itemSeq := ((d.ing p).itemSeq + 1) % 2 ^ 16 }
  d.setQueue p { d.queue p with
    wr := (o.start + lineUnits o.bytes) % 2 ^ 32
    items := (d.queue p).items.filter (fun x => x.start != o.start) ++ [it] }

theorem Dev.lineView_lineClosed (d : Dev) (p : Nat) (o : OpenLine) (it : QItem) :
    (d.lineClosed p o it).lineView p =
      ({ d.ing p with line := none, itemSeq := ((d.ing p).itemSeq + 1) % 2 ^ 16 },
        (d.queue p).items.filter (fun x => x.start != o.start) ++ [it], (o.start + lineUnits o.bytes) % 2 ^ 32) := by
  rw [Dev.lineView, Dev.lineClosed, Dev.queue_setQueue]
  exact congrArg (fun x => (x, _, _)) (Dev.ing_setIng _ _ _)

/-- The item of a line that closes. -/
def OpenLine.item (o : OpenLine) (timeout : Bool) (seq : Nat) : QItem :=
  let rest := o.bytes - o.pay.length
  ⟨o.start, lineUnits o.bytes, o.hdr, o.pay ++ zeros rest,
    itemTrl (b2n (o.miss + rest != 0) + 2 * b2n timeout) o.drop o.lost (o.miss + rest) o.expDur seq, true⟩

theorem Dev.ingClose_eq {d : Dev} {p : Nat} {o : OpenLine} (timeout : Bool) (h : (d.ing p).line = some o) :
    d.ingClose p timeout =
      (((((d.lineClosed p o (o.item timeout (d.ing p).itemSeq)).qSettle p).addWrap Ingest.LINES_IN p 1).when
        (o.miss + (o.bytes - o.pay.length) != 0) (fun d =>
          (d.incSat Ingest.PI_CNT_A_INCOMPLETE_CNT p).evt 0x0B p Ingest.E_INCOMPLETE)).when timeout (fun d =>
          (d.incSat Ingest.PI_CNT_B_TIMEOUT_CNT p).evt 0x0B p Ingest.E_LINE_TIMEOUT)).showIng p := by
  rw [Dev.ingClose, h]
  rfl

/-- Behind the closed line only counts, events and what is shown follow. -/
theorem Dev.lineView_ingClose {d : Dev} {p : Nat} {o : OpenLine} (timeout : Bool) (h : (d.ing p).line = some o) :
    (d.ingClose p timeout).lineView p = (d.lineClosed p o (o.item timeout (d.ing p).itemSeq)).lineView p := by
  have hcount : ∀ (d : Dev) (c : Bool) (f : Fld) (b : Nat),
      (d.when c (fun d => (d.incSat f p).evt 0x0B p b)).lineView p = d.lineView p := fun d c f b =>
    Dev.when_keeps (Dev.lineView · p) _ _ _ ((Dev.evt_raised _ _ _ _).lineView p)
  rw [Dev.ingClose_eq timeout h, Dev.lineView_showIng, hcount, hcount, Dev.addWrap, Dev.lineView_wr,
    (Dev.qSettle_raised _ _).lineView]

theorem Dev.rd_showIng_swallowing (d : Dev) (p : Nat) :
    (d.showIng p).rd Ingest.STAT_SWALLOWING p = b2n (d.ing p).swallow.isSome := by
  rw [Dev.showIng, Dev.rd_wrb]
  cases (d.ing p).swallow <;> rfl

theorem exec_lineTimeout (s : State) (p : Fin 16) :
    exec (.lineTimeout p) s = .next (s.withDev (((s.dev.ingClose p true).setIng p
      { (s.dev.ingClose p true).ing p with swallow := none }).showIng p)) := rfl

/-- Settles O15, by the equations of the two packet types and by what stays of a line that closes. -/
theorem linesAssembled : Obligations.LinesAssembled := by
  unfold Obligations.LinesAssembled
  refine ⟨fun d p bs => ⟨fun h => ?_, fun h => ⟨?_, fun hd => ?_, fun hn hd f hf => ?_⟩⟩, fun d p o timeout hp ho => ?_,
    fun s p => ⟨_, exec_lineTimeout s p, State.withDev_mem s _, rfl, ?_, ?_⟩⟩
  · rw [Dev.rxLine_eq, Dev.rxFrame_eq, if_pos h]
    exact ⟨rfl, if_pos h, fun k => ((Dev.flt_faulted d 0x0A p Port.F_CREDIT_VIOL).queue k).1⟩
  · rw [Dev.rxFrame_eq, h]
    rfl
  · have hq : d.linePrepared p bs = d.lineStarted p bs := by
      refine Dev.when_of_eq_false ?_
      obtain h0 | h0 := hd
      · rw [h0]
        rfl
      · rw [bne_eq_false_iff_eq.2 h0, Bool.and_false]
    rw [Dev.rxLine_eq, h, hq]
    rfl
  · have hq : d.linePrepared p bs = f := by
      rw [hf]
      exact Dev.when_of_eq_true (by rw [bne_iff_ne.2 hn, bne_iff_ne.2 hd]; rfl)
    rw [Dev.rxLine_eq, h, hq]
    rfl
  · have hv : ((d.ingClose p timeout).lineView p) = (d.lineClosed p o (o.item timeout (d.ing p).itemSeq)).lineView p :=
      Dev.lineView_ingClose timeout ho
    rw [Dev.lineView_lineClosed] at hv
    simp only [Dev.lineView, Prod.mk.injEq] at hv
    obtain ⟨hing, hitems, hwr⟩ := hv
    exact ⟨congrArg IngestH.line hing, congrArg IngestH.itemSeq hing, hwr, hitems⟩
  · rw [State.withDev_dev, Dev.done_ing]
    exact (congrArg IngestH.swallow (Dev.ing_setIng _ _ _))
  · rw [State.withDev_dev, Dev.done_rd, Dev.rd_showIng_swallowing, Dev.ing_setIng]
    rfl

/-! ### Triggers, credits and retries (R123–R134, R143, R151) -/

theorem exec_trigSend (s : State) (p : Fin 16) : exec (.trigSend p) s = .next (s.withDev (s.dev.trigSend p)) := rfl

/-- The next trigger of the queue, by what the trigger buffer, the loops, its time and the window say. -/
theorem Dev.trigSend_eq {d : Dev} {p : Nat} {x : Trig} {ts : List Trig} (h : (d.port p).trigs = x :: ts) {u : Dev × Bool}
    (hu : u = d.useBuf 0x0A p Port.F_RB_SBE Port.F_RB_DBE) :
    d.trigSend p =
      if u.2 then (u.1.setPort p { u.1.port p with trigs := ts }).incSat Port.CNT_E_TRIG_ABANDON_CNT p
      else if u.1.lineGenOn p && x.action == 1 then (u.1.setPort p { u.1.port p with trigs := ts }).genTrigger p x
      else if !u.1.is Port.STAT_TIME_VALID p || u.1.lbOn p || u.1.loopDepth p != 0 || u.1.trigLate p x.act then
        (u.1.setPort p { u.1.port p with trigs := ts }).trigDrop p
      else if !u.1.windowOpen p then u.1
      else
        let pop := u.1.setPort p { u.1.port p with trigs := ts }
        (pop.setPort p { pop.port p with trigCount := (u.1.port p).trigCount + 1 }).sendCtl p true x.act
          (fun sync seq => trigPkt sync seq ((u.1.port p).trigCount % 2 ^ 16) (tImg x.act) x.action x.out x.width x.expo) := by
  subst hu
  rw [Dev.trigSend, h]

/-- The line generator takes exposures only, and only while it runs. -/
theorem lineGen_leaves {on : Bool} {action : Nat} (h : on = false ∨ action ≠ 1) : (on && action == 1) = false := by
  obtain h | h := h
  · rw [h]
    rfl
  · rw [beq_eq_false_iff_ne.2 h, Bool.and_false]

theorem exec_creditSend (s : State) (p : Fin 16) : exec (.creditSend p) s = .next (s.withDev (s.dev.sendCredit p)) := rfl

/-- CREDIT with the limit as it stands and the last SEQ accepted. -/
def Dev.creditOut (d : Dev) (p : Nat) : Dev :=
  d.sendPkt p (creditPkt (d.rd Ingest.VID_LIMIT p) ((d.port p).lastAck.getD 0) (if (d.port p).lastAck.isSome then 3 else 2))

theorem Dev.sendCredit_eq (d : Dev) (p : Nat) :
    d.sendCredit p =
      if !d.linkUp p || d.loopDepth p == 3 || d.lbOn p then d
      else (d.when (d.enabled 0x0B p) (fun d => d.wr Ingest.VID_LIMIT p (d.vidLimit p))).creditOut p := by
  rw [Dev.sendCredit]
  generalize d.when (d.enabled 0x0B p) (fun d => d.wr Ingest.VID_LIMIT p (d.vidLimit p)) = e
  cases h : (e.port p).lastAck <;> simp only [Dev.creditOut, h, Option.getD_some, Option.getD_none, Option.isSome_some,
    Option.isSome_none, Bool.false_eq_true, if_true, if_false]

/-- RETRY_TIME passes for the oldest packet that waits for its acknowledgement. -/
theorem exec_retryTimeout {s : State} {p : Fin 16} {c : CtlPkt} {cs : List CtlPkt} (h : (s.dev.port p).out = c :: cs)
    {u : Dev × Bool} (hu : u = s.dev.useBuf 0x0A p Port.F_RB_SBE Port.F_RB_DBE) :
    exec (.retryTimeout p) s = .next (s.withDev
      (if !s.dev.linkUp p || s.dev.lbOn p then s.dev
      else if u.2 then (u.1.ctlAbandon p false).mgmtPump p
      else if 7 ≤ c.retries then (u.1.ctlAbandon p true).mgmtPump p
      else ((c :: cs).foldl (fun d c => d.resend p c) (u.1.setPort p { s.dev.port p with out := [] })).showOut p)) := by
  change execRetryTimeout p s = _
  subst hu
  simp only [execRetryTimeout, State.upd, h]

theorem exec_retryTimeout_idle {s : State} {p : Fin 16} (h : (s.dev.port p).out = []) :
    exec (.retryTimeout p) s = .next (s.withDev s.dev) := by
  change execRetryTimeout p s = _
  simp only [execRetryTimeout, State.upd, h]

/-- Settles O16, by the equations of the three commands. -/
theorem packetsOut : Obligations.PacketsOut := by
  unfold Obligations.PacketsOut
  refine ⟨fun s p => ⟨fun h => ?_, fun x ts h u hu d hd => ⟨fun h2 => ?_, fun h2 hg ha => ?_, fun h2 hga => ⟨fun hb => ?_,
    fun hb hw => ?_, fun hb hw => ?_⟩⟩⟩, fun s p => ⟨fun h => ?_, fun hu h3 hlb d hd => ?_⟩,
    fun s p => ⟨fun h => ?_, fun c cs h hup hlb u hu => ⟨fun h2 => ?_, fun h2 h7 => ?_, fun h2 h7 => ?_⟩⟩⟩
  · rw [exec_trigSend, Dev.trigSend, h]
  · rw [exec_trigSend, Dev.trigSend_eq h hu, if_pos h2, hd]
  · rw [exec_trigSend, Dev.trigSend_eq h hu, if_neg (ne_true_of_eq_false h2), ← hd, if_pos (by rw [hg, ha]; rfl)]
  · rw [exec_trigSend, Dev.trigSend_eq h hu, if_neg (ne_true_of_eq_false h2), ← hd,
      if_neg (ne_true_of_eq_false (lineGen_leaves hga)), if_pos hb]
    rfl
  · rw [exec_trigSend, Dev.trigSend_eq h hu, if_neg (ne_true_of_eq_false h2), ← hd,
      if_neg (ne_true_of_eq_false (lineGen_leaves hga)), if_neg (ne_true_of_eq_false hb), if_pos (by rw [hw]; rfl)]
  · rw [exec_trigSend, Dev.trigSend_eq h hu, if_neg (ne_true_of_eq_false h2), ← hd,
      if_neg (ne_true_of_eq_false (lineGen_leaves hga)), if_neg (ne_true_of_eq_false hb), if_neg (by rw [hw]; decide)]
  · rw [exec_creditSend, Dev.sendCredit_eq, if_pos]
    obtain h | h | h := h <;> simp only [h, Bool.not_false, Bool.true_or, Bool.or_true, BEq.rfl]
  · rw [exec_creditSend, Dev.sendCredit_eq, hu, beq_eq_false_iff_ne.2 h3, hlb, hd]
    rfl
  · obtain h | h := h
    · exact exec_retryTimeout_idle h
    · cases ho : (s.dev.port p).out with
      | nil => exact exec_retryTimeout_idle ho
      | cons c cs =>
        rw [exec_retryTimeout ho rfl, if_pos]
        obtain h | h := h <;> simp only [h, Bool.not_false, Bool.true_or, Bool.or_true]
  · rw [exec_retryTimeout h hu, hup, hlb, h2]
    rfl
  · rw [exec_retryTimeout h hu, hup, hlb, h2]
    exact congrArg (fun d => Host.Outcome.next (s.withDev d)) (if_pos h7)
  · rw [exec_retryTimeout h hu, hup, hlb, h2]
    exact congrArg (fun d => Host.Outcome.next (s.withDev d)) (if_neg (Nat.not_le.2 h7))

/-! ### TIME exchanges (R124, R137–R142) -/

/-- The REQ of an exchange leaves, and what the exchange takes for itself. -/
def Dev.timeAsk (d : Dev) (p : Nat) : Dev :=
  let h := d.port p
  let corr := uInt 64 (d.nextCorr p)
  let ssc := d.is Port.LG_CFG_SSC_EN p
  (d.setPort p { h with
    xid := (h.xid + 1) % 2 ^ 16, exch := some ⟨h.xid, d.now, corr⟩
    asym := d.rd Port.DELAY_ASYM p, pdLimit := d.rd Port.PD_STEP_LIMIT p
    corr := if d.is Port.STAT_PD_STEP_PENDING p && !h.corrSet then h.corr else 0
    corrSet := false, stepDue := false }).sendPkt p
      (timePkt h.xid (b2n h.corrSet + 2 * b2n ssc + 4 * b2n h.stepDue) (if ssc then d.sscPhase p else 0) d.now corr
        (d.rd Tu.INCR 0) (if ssc then d.rd Port.LG_CFG_SSC_DEPTH p + 8 * d.rd Port.LG_CFG_SSC_FREQ p else 0))

theorem Dev.timeReq_eq (d : Dev) (p : Nat) :
    d.timeReq p =
      if !d.linkUp p || !d.is Port.PORT_CFG_TIME_EN p || d.loopDepth p != 0 || d.lbOn p then d
      else (d.sscBegin p).timeAsk p := by
  simp only [Dev.timeReq, Dev.timeAsk, Dev.setPort_rd]

theorem exec_timeReq (s : State) (p : Fin 16) : exec (.timeReq p) s = .next (s.withDev (s.dev.timeReq p)) := rfl

theorem exec_timeNow {s : State} {r : Req} {p : Fin 16} (ht : s.dev.takes r.num 0x0A p = true) :
    exec (.timeNow r p) s = .next (s.withDev (s.dev.timeReq p)) :=
  State.upd_busW s _ _ _ _ ht

theorem Dev.sscBegin_eq_of_off {d : Dev} {p : Nat} (h : d.is Port.LG_CFG_SSC_EN p = false) : d.sscBegin p = d := by
  rw [Dev.sscBegin, h, Bool.false_and, Dev.when_false]

theorem Dev.nextCorr_eq_of_pending {d : Dev} {p : Nat} (h : d.is Port.STAT_PD_STEP_PENDING p = true) : d.nextCorr p = 0 := by
  rw [Dev.nextCorr, if_pos h]

/-- The exchange under way is over and counts as lost. -/
def Dev.exchDropped (d : Dev) (p : Nat) : Dev :=
  (d.setPort p { d.port p with exch := none, invalidRun := (d.port p).invalidRun + 1 }).incSat Port.CNT_D_TIME_LOST_CNT p

theorem Dev.is_suspect_exchDropped (d : Dev) (p : Nat) :
    (d.exchDropped p).is Port.STAT_TIME_SUSPECT p = d.is Port.STAT_TIME_SUSPECT p :=
  Dev.is_congr (Dev.rd_incSat_off _ _ _ _ (by decide))

/-- An exchange is lost; the eighth in a row makes the time suspect. -/
theorem Dev.exchLost_eq_when (d : Dev) (p : Nat) :
    d.exchLost p = (d.exchDropped p).when ((d.port p).invalidRun + 1 == 8) (fun d =>
      ((d.setPort p { d.port p with staleOnly := !d.is Port.STAT_TIME_SUSPECT p || (d.port p).staleOnly }).wr
        Port.STAT_TIME_SUSPECT p 1).evt 0x0A p Port.E_TIME_STALE) := rfl

theorem Dev.exchLost_eq (d : Dev) (p : Nat) :
    d.exchLost p =
      if (d.port p).invalidRun + 1 = 8 then
        (((d.exchDropped p).setPort p { (d.exchDropped p).port p with
          staleOnly := !d.is Port.STAT_TIME_SUSPECT p || ((d.exchDropped p).port p).staleOnly }).wr
            Port.STAT_TIME_SUSPECT p 1).evt 0x0A p Port.E_TIME_STALE
      else d.exchDropped p := by
  rw [← Dev.is_suspect_exchDropped, Dev.exchLost_eq_when]
  by_cases h : (d.port p).invalidRun + 1 = 8
  · rw [if_pos h, Dev.when_of_eq_true (beq_iff_eq.2 h)]
  · rw [if_neg h, Dev.when_of_eq_false (beq_eq_false_iff_ne.2 h)]

theorem exec_timeRespTimeout (s : State) (p : Fin 16) :
    exec (.timeRespTimeout p) s =
      .next (s.withDev (s.dev.when ((s.dev.port p).exch.isSome && !s.dev.lbOn p) (fun d => d.exchLost p))) := rfl

theorem exec_timeAck {s : State} {r : Req} {p : Fin 16} (ht : s.dev.takes r.num 0x0A p = true) :
    exec (.timeAck r p) s = .next (s.withDev (s.dev.cmdTimeAck p)) :=
  State.upd_busW s _ _ _ _ ht

/-- Settles O17, by the equations of a request, of a loss and of a response. -/
theorem timeTransfer : Obligations.TimeTransfer := by
  unfold Obligations.TimeTransfer
  refine ⟨fun s p => ⟨fun r ht => ?_, fun h => ?_, fun hu he h0 hlb => ⟨Dev.sscBegin_eq_of_off, Dev.nextCorr_eq_of_pending,
    fun d hd => ?_⟩⟩, fun s p => ⟨fun hx hlb => ?_, fun h => ?_, fun r ht => ?_⟩, fun d p bs x hx => ⟨fun hid => ?_, ?_⟩⟩
  · rw [exec_timeNow ht, exec_timeReq]
  · rw [exec_timeReq, Dev.timeReq_eq, if_pos]
    obtain h | h | h | h := h
    · rw [h]
      rfl
    · rw [h, Bool.not_false, Bool.or_true]
      rfl
    · rw [bne_iff_ne.2 h, Bool.or_true]
      rfl
    · rw [h, Bool.or_true]
  · rw [exec_timeReq, Dev.timeReq_eq, if_neg (by rw [hu, he, h0, hlb]; decide), ← hd]
    rfl
  · rw [exec_timeRespTimeout, Dev.when_of_eq_true (by rw [hx, hlb]; rfl), Dev.exchLost_eq]
    rfl
  · rw [exec_timeRespTimeout, Dev.when_of_eq_false]
    obtain h | h := h
    · rw [h]
      rfl
    · rw [h, Bool.not_true, Bool.and_false]
  · rw [exec_timeAck ht]
    rfl
  · rw [Dev.rxTime, hx]
    exact if_pos hid
  · rw [Dev.rxTime, hx]
    dsimp only
    refine ⟨fun hid hbad => ?_, fun hid h1 h2 h3 h4 h5 h6 e he => ⟨fun hv => ?_, fun hv hs f hf => ?_, fun hv hs => ?_⟩⟩
    · rw [if_neg (not_not_intro hid), if_pos hbad]
    all_goals
      rw [if_neg (not_not_intro hid), if_neg (by omega), ← he, hv]
    · exact if_pos rfl
    · rw [Bool.not_true, if_neg Bool.false_ne_true, if_pos hs, hf]
    · rw [Bool.not_true, if_neg Bool.false_ne_true, if_neg (Nat.not_lt.2 hs)]

end Sys2Proof.Machine
end

