-- ==== Sys2Proof/Proofs/PortCommands.lean ====
section
/-!
PROOFS. Management, the far-end loop and the queues of a port (R145–R150, R165–R171): what a command and a timeout lead to, and what
sending a packet leaves alone; from these the statements O18 to O20.
-/

open Sys2Proof

namespace Sys2Proof.Machine

/-! ### What sending leaves alone -/

/-- What the port's page shows of the camera's identity, the identity read, and the port's events. -/
def Dev.idView (d : Dev) (p : Nat) : Option Nat × Nat × Nat × Nat :=
  ((d.port p).idRead, d.rd Port.ID_STAT_ID_VALID p, d.rd Port.ID_STAT_ID_BAD p, d.rd (Hdr.EVT 0x0A) p)

theorem Dev.idView_of_regs {d e : Dev} {p : Nat} (hr : e.regs = d.regs) (hp : (e.port p).idRead = (d.port p).idRead) :
    e.idView p = d.idView p := by
  simp only [Dev.idView, Dev.rd_of_regs hr, hp]

theorem Dev.idView_setPort (d : Dev) (p : Nat) (h : PortH) (hi : h.idRead = (d.port p).idRead) :
    (d.setPort p h).idView p = d.idView p :=
  Dev.idView_of_regs rfl (by rw [Dev.port_setPort, hi])

theorem Dev.idView_setLoop (d : Dev) (p u : Nat) (x : LoopH) : (d.setLoop u x).idView p = d.idView p := rfl

theorem Dev.idView_emit (d : Dev) (p : Nat) (e : Emission) : (d.emit e).idView p = d.idView p := rfl

/-- A field of the port's page that shows nothing of these. -/
theorem Dev.idView_wr_port (d : Dev) (p : Nat) (f : Fld) (v : Nat)
    (h : Port.ID_STAT_ID_VALID.place ≠ f.place ∧ Port.ID_STAT_ID_BAD.place ≠ f.place ∧ (Hdr.EVT 0x0A).place ≠ f.place) :
    (d.wr f p v).idView p = d.idView p := by
  obtain ⟨hv, hb, he⟩ := h
  simp only [Dev.idView, Dev.wr_port, Dev.rd_wr_off _ _ _ _ _ hv, Dev.rd_wr_off _ _ _ _ _ hb, Dev.rd_wr_off _ _ _ _ _ he]

/-- A field of the test page's injectors. -/
theorem Dev.idView_wr_test (d : Dev) {p u : Nat} (f : Fld) (v : Nat) (hp : p < 16) (hu : u < 18)
    (hf : f.cls = 0x1F ∧ f.off < 0x400 ∧ f.lo < 32 ∧ f.str = 32) : (d.wr f 0 v u).idView p = d.idView p := by
  obtain ⟨hc, ho, hl, hs⟩ := hf
  have hk : ∀ g : Fld, g.cls = 0x0A → g.off < 4096 → g.lo < 32 → (d.wr f 0 v u).rd g p = d.rd g p := by
    intro g gc go gl
    refine Dev.rd_wr_ne _ _ _ _ _ _ _ _ ?_
    simp only [Fld.key, hc, hs, gc]
    omega
  simp only [Dev.idView, Dev.wr_port, hk Port.ID_STAT_ID_VALID rfl (by decide) (by decide),
    hk Port.ID_STAT_ID_BAD rfl (by decide) (by decide), hk (Hdr.EVT 0x0A) rfl (by decide) (by decide)]

theorem Dev.idView_injPass (d : Dev) {p : Nat} (hp : p < 16) (dir : Nat) (bs : List Nat) :
    (d.injPass p dir bs).1.idView p = d.idView p := by
  have hshow : ∀ d : Dev, (d.showHeld p).idView p = d.idView p := fun d =>
    Dev.idView_wr_test d LbF.INJ_STAT_HELD _ hp (by omega) (by decide)
  unfold Dev.injPass
  simp only
  split
  · split
    · rfl
    · split
      · exact hshow _
      · rfl
  · rfl

/-- What the injector does with a packet that its selection has looked at (R512, R513). -/
def Dev.injAct (d : Dev) (u dir : Nat) (bs : List Nat) (h : LoopH) (hit : Bool) : Dev × List (List Nat) :=
  let d := d.setLoop u h
  if !hit || h.held.isSome then d.injPass u dir bs
  else
    let d := d.incSat LbF.INJ_STAT_INJ_CNT 0 u
    match d.rd LbF.INJ_CFG_ACTION 0 u with
    | 1 => (d, [])
    | 2 =>
      if d.is LbF.INJ_CFG_RAND_BIT 0 u then
        (d.setLoop u { h with draw := prbsStep h.draw }).injPass u dir (flipBit bs (prbsStep h.draw))
      else d.injPass u dir (flipBit bs (d.rd LbF.INJ_CFG2_BIT_POS 0 u))
    | 3 => ((d.setLoop u { h with held := some bs, heldDir := dir, passLeft := d.rd LbF.INJ_CFG_HOLD 0 u }).showHeld u, [])
    | _ => d.injPass u dir bs

/-- The selection's draw or count moves on, and whether it hits (R512). -/
def Dev.injDrawn (d : Dev) (u : Nat) : LoopH :=
  let h := d.loop u
  if d.is LbF.INJ_CFG_SELECT 0 u then { h with draw := prbsStep h.draw } else { h with isMatch := h.isMatch + 1 }

def Dev.injHit (d : Dev) (u : Nat) : Bool :=
  if d.is LbF.INJ_CFG_SELECT 0 u then prbsStep (d.loop u).draw % 2 ^ d.rd LbF.INJ_CFG_K 0 u == 0
  else (d.injDrawn u).isMatch % d.rd LbF.INJ_CFG_N 0 u == 0

theorem Dev.inject_eq (d : Dev) (u dir typ : Nat) (bs : List Nat) :
    d.inject u dir typ bs =
      if !(d.is LbF.INJ_CFG_INJ_EN 0 u && d.rd LbF.INJ_CFG_DIR 0 u == dir) then d.injPass u dir bs
      else if d.rd LbF.INJ_TYPE_TYPE_SEL 0 u ≠ 0 ∧ d.rd LbF.INJ_TYPE_TYPE_SEL 0 u ≠ typ then d.injPass u dir bs
      else d.injAct u dir bs (d.injDrawn u) (d.injHit u) := rfl

theorem Dev.idView_injAct (d : Dev) {p : Nat} (hp : p < 16) (dir : Nat) (bs : List Nat) (h : LoopH) (hit : Bool) :
    (d.injAct p dir bs h hit).1.idView p = d.idView p := by
  have hcnt : ∀ d : Dev, (d.incSat LbF.INJ_STAT_INJ_CNT 0 p).idView p = d.idView p := fun d =>
    Dev.idView_wr_test d LbF.INJ_STAT_INJ_CNT _ hp (by omega) (by decide)
  have hpass : ∀ (d : Dev) (bs : List Nat), (d.injPass p dir bs).1.idView p = d.idView p := fun d bs =>
    Dev.idView_injPass d hp dir bs
  unfold Dev.injAct
  simp only
  split
  · exact hpass _ bs
  · split
    · exact hcnt _
    · split
      · exact (hpass _ _).trans ((Dev.idView_setLoop _ _ _ _).trans (hcnt _))
      · exact (hpass _ _).trans (hcnt _)
    · exact (Dev.idView_wr_test _ LbF.INJ_STAT_HELD _ hp (by omega) (by decide)).trans
        ((Dev.idView_setLoop _ _ _ _).trans (hcnt _))
    · exact (hpass _ _).trans (hcnt _)

theorem Dev.idView_inject (d : Dev) {p : Nat} (hp : p < 16) (dir typ : Nat) (bs : List Nat) :
    (d.inject p dir typ bs).1.idView p = d.idView p := by
  rw [Dev.inject_eq]
  split
  · exact Dev.idView_injPass d hp dir bs
  · split
    · exact Dev.idView_injPass d hp dir bs
    · exact Dev.idView_injAct d hp dir bs _ _

/-- What every step of a fold keeps of the device that it carries with it. -/
theorem foldl_fst_keeps {α β γ : Type} (q : Dev → γ) (f : Dev × α → β → Dev × α) (h : ∀ a x, q (f a x).1 = q a.1) (l : List β)
    (a : Dev × α) : q (l.foldl f a).1 = q a.1 := by
  induction l generalizing a with
  | nil => rfl
  | cons x l ih => rw [List.foldl_cons, ih, h]

/-- What both branches of a choice keep, the choice keeps. -/
theorem ite_keeps {γ : Type} {c : Prop} [Decidable c] (q : Dev → γ) {a b : Dev} {v : γ} (ha : q a = v) (hb : q b = v) :
    q (if c then a else b) = v := by
  split
  · exact ha
  · exact hb

theorem Dev.idView_laneSend (d : Dev) (p l : Nat) (b : Nat × Nat) : (d.laneSend l b).1.idView p = d.idView p := rfl

theorem Dev.idView_sendCommas (d : Dev) (p n : Nat) : (d.sendCommas p n).idView p = d.idView p := by
  have h : (d.setPort p { d.port p with txSlot := n }).idView p = d.idView p := Dev.idView_setPort _ _ _ rfl
  exact ite_keeps (Dev.idView · p) h ((Dev.idView_emit _ _ _).trans h)

theorem Dev.idView_slotRow (d : Dev) (p : Nat) (bs : List (Nat × Nat)) : (d.slotRow p bs).1.idView p = d.idView p := by
  rw [Dev.slotRow]
  refine foldl_fst_keeps (Dev.idView · p) _ ?_ _ _
  intro a i
  exact Dev.idView_laneSend _ _ _ _

theorem Dev.idView_slotSend (d : Dev) (p : Nat) (bs : List (Nat × Nat)) : (d.slotSend p bs).1.idView p = d.idView p := by
  simp only [Dev.slotSend]
  rw [Dev.idView_setPort, Dev.idView_slotRow]
  · exact Dev.when_keeps (Dev.idView · p) _ _ _ (Dev.idView_sendCommas _ _ _)
  · rfl

theorem Dev.idView_pcsSend (d : Dev) (p : Nat) (bs : List Nat) : (d.pcsSend p bs).idView p = d.idView p := by
  rw [Dev.pcsSend, Dev.idView_emit]
  refine (foldl_fst_keeps (Dev.idView · p) _ ?_ _ _).trans (Dev.when_keeps (Dev.idView · p) _ _ _ (Dev.idView_setLoop _ _ _ _))
  intro a row
  exact Dev.idView_slotSend _ _ _

theorem Dev.idView_sendPkt (d : Dev) {p : Nat} (hp : p < 16) (bs : List Nat) : (d.sendPkt p bs).idView p = d.idView p :=
  (foldl_keeps (Dev.idView · p) _ _ (fun d b _ => Dev.idView_pcsSend d p b) _).trans (Dev.idView_inject d hp _ _ _)

theorem Dev.idView_showOut (d : Dev) (p : Nat) : (d.showOut p).idView p = d.idView p :=
  Dev.idView_wr_port d p Port.STAT_CTRL_OUT _ (by decide)

theorem Dev.idView_sendCtl (d : Dev) {p : Nat} (hp : p < 16) (isTrig : Bool) (act : Nat) (mk : Nat → Nat → List Nat) :
    (d.sendCtl p isTrig act mk).idView p = d.idView p := by
  rw [Dev.sendCtl, Dev.idView_sendPkt _ hp, Dev.idView_showOut, Dev.idView_setPort,
    Dev.idView_wr_port d p Port.STAT_SYNC_PENDING _ (by decide)]
  rfl

theorem Dev.idView_mgmtSend (d : Dev) {p : Nat} (hp : p < 16) (m : Mgmt) : (d.mgmtSend p m).idView p = d.idView p := by
  rw [Dev.mgmtSend, Dev.idView_sendCtl _ hp, Dev.idView_setPort]
  rfl

theorem Dev.idView_mgmtPump (d : Dev) {p : Nat} (hp : p < 16) : (d.mgmtPump p).idView p = d.idView p := by
  unfold Dev.mgmtPump
  simp only
  split
  · rfl
  · split
    · exact Dev.when_keeps (Dev.idView · p) _ _ _ (Dev.idView_mgmtSend _ hp _)
    · split
      · split
        · exact Dev.idView_mgmtSend _ hp _
        · rfl
      · split
        · exact Dev.idView_mgmtSend _ hp _
        · split
          · exact (Dev.idView_mgmtSend _ hp _).trans (Dev.idView_setPort _ _ _ rfl)
          · rfl

/-! ### MGMT (R145, R146, R149) -/

/-- The three MGMT commands are one with an operation. -/
theorem exec_mgmt {s : State} {r : Req} {p : Fin 16} (n : Nat) (ht : s.dev.takes r.num 0x0A p = true) :
    ∀ x ∈ [(1, Instr.mgmtRead r p n), (2, .mgmtWrite r p n), (3, .mgmtIdRead r p n)],
      exec x.2 s = .next (s.withDev (s.dev.cmdMgmt p x.1 n)) := by
  simp only [List.forall_mem_cons]
  exact ⟨State.upd_busW s _ _ _ _ ht, State.upd_busW s _ _ _ _ ht, State.upd_busW s _ _ _ _ ht,
    fun _ h => absurd h List.not_mem_nil⟩

/-- A MGMT command that is taken shows BUSY and is sent when the link allows. -/
def Dev.mgmtBegin (d : Dev) (p op n : Nat) : Dev :=
  let e := (((d.wr Port.MGMT_CMD_COUNT p n).wr Port.MGMT_CMD_BUSY p 1).wr Port.MGMT_CMD_STATUS p 0).wr Port.STAT_MGMT_BUSY p 1
  (e.setPort p { e.port p with swMgmt := some ⟨.software, op, 0, n, d.rd Port.MGMT_ADDR_ADDR p⟩ }).mgmtPump p

theorem Dev.cmdMgmt_eq (d : Dev) (p op n : Nat) :
    d.cmdMgmt p op n =
      if d.is Port.MGMT_CMD_BUSY p ∨ n < 4 ∨ 256 < n ∨ n % 4 ≠ 0 then d.badAccess 0x0A p else d.mgmtBegin p op n := by
  rw [Dev.cmdMgmt, Dev.mgmtBegin]
  simp only [Dev.rd_wr_off _ _ Port.MGMT_ADDR_ADDR _ _ (show Port.MGMT_ADDR_ADDR.place ≠ Port.MGMT_CMD_COUNT.place by decide),
    Dev.rd_wr_off _ _ Port.MGMT_ADDR_ADDR _ _ (show Port.MGMT_ADDR_ADDR.place ≠ Port.MGMT_CMD_BUSY.place by decide),
    Dev.rd_wr_off _ _ Port.MGMT_ADDR_ADDR _ _ (show Port.MGMT_ADDR_ADDR.place ≠ Port.MGMT_CMD_STATUS.place by decide),
    Dev.rd_wr_off _ _ Port.MGMT_ADDR_ADDR _ _ (show Port.MGMT_ADDR_ADDR.place ≠ Port.STAT_MGMT_BUSY.place by decide)]

theorem exec_mgmtTimeout_none {s : State} {p : Fin 16} (h : (s.dev.port p).mgmt = none) :
    exec (.mgmtTimeout p) s = .next (s.withDev s.dev) := by
  change execMgmtTimeout p s = _
  simp only [execMgmtTimeout, State.upd, h]

theorem exec_mgmtTimeout {s : State} {p : Fin 16} {m : Mgmt} (h : (s.dev.port p).mgmt = some m) :
    exec (.mgmtTimeout p) s = .next (s.withDev (match m.user with
      | .software => ((s.dev.setPort p { s.dev.port p with mgmt := none }).mgmtDone p 8).mgmtPump p
      | .identity => s.dev.setPort p { s.dev.port p with mgmt := none, idBuf := zeros 4096, idRead := some 16 }
      | _ => s.dev)) := by
  change execMgmtTimeout p s = _
  simp only [execMgmtTimeout, State.upd, h] <;> rfl

/-! ### The identity record (R146) -/

/-- Writing a module directory's entry leaves every field of the other pages. -/
theorem Dev.rd_mdSet (d : Dev) {i p : Nat} (stat : Nat) (body : List Nat) (f : Fld) (hi : i < 26) (hp : p < 64)
    (hf : f.cls ≠ 3 ∧ f.off < 4096 ∧ f.lo < 32) : (d.mdSet i stat body).rd f p = d.rd f p := by
  obtain ⟨hc, ho, hl⟩ := hf
  have hw : ∀ (d : Dev) (v j : Nat), j < 832 → (d.wr Md.ENTRY 0 v j).rd f p = d.rd f p := by
    intro d v j hj
    refine Dev.rd_wr_ne _ _ _ _ _ _ _ _ ?_
    simp only [Fld.key, Md.ENTRY]
    omega
  refine (foldl_keeps (fun d => d.rd f p) _ _ (fun d w hmem => hw d _ _ ?_) _).trans (hw _ _ _ (by omega))
  have := List.mem_range.1 hmem
  omega

theorem Dev.rd_mdPost (d : Dev) {i : Nat} (kind : Nat) (valid mismatch : Bool) (body : List Nat) (f : Fld) {n : Nat} (k : Fin n)
    (hi : i < 26) (hf : f.cls ≠ 3 ∧ f.off < 4096 ∧ f.lo < 32 ∧ f.off ≠ 0x14 ∧ f.cls ≠ 0x1B ∧ n ≤ 64) :
    (d.mdPost i kind valid mismatch body).rd f k = d.rd f k := by
  obtain ⟨hc, ho, hl, he, hb, hn⟩ := hf
  have hset := fun stat => Dev.rd_mdSet d stat body f hi (Nat.lt_of_lt_of_le k.2 hn) ⟨hc, ho, hl⟩
  unfold Dev.mdPost
  simp only
  split
  · exact hset _
  · exact (Dev.rd_evt_off _ _ _ _ f k ⟨ho, hl, he, hb, hn⟩).trans (hset _)

/-- What an identity record shows of itself: VALID or BAD, an unsupported RATE, other lanes. -/
def Dev.idShown (d : Dev) (p : Nat) : Dev :=
  let bs := (d.port p).idBuf
  let ok := recordGood 4096 bs
  let lanes := if d.rd Port.LG_CFG_EXPECT_MASK p = 0xF then 4 else 2
  let rateBad := ok && !(byteAt bs 68).testBit (d.rd Port.LG_CFG_RATE p)
  let lanesBad := ok && byteAt bs 69 != lanes
  ((((d.wrb Port.ID_STAT_ID_VALID p ok).wrb Port.ID_STAT_ID_BAD p (!ok)).wrb Port.ID_STAT_RATE_UNSUP p rateBad).wrb
    Port.ID_STAT_LANES_MISMATCH p lanesBad).mdPost p 1 ok (rateBad || lanesBad) (mdCamera bs)

/-- What the port keeps of an identity record. -/
def PortH.idKept (h : PortH) : PortH :=
  let ok := recordGood 4096 h.idBuf
  { h with
    idRead := none, idBuf := []
    idPrev := if ok then some (recordIdent h.idBuf) else h.idPrev
    lb2Ok := ok && (byteAt h.idBuf 71).testBit 1 }

/-- Another camera than the one before. -/
def PortH.idChanged (h : PortH) : Bool :=
  match h.idPrev with
  | some r => recordGood 4096 h.idBuf && r != recordIdent h.idBuf
  | none => false

theorem exec_idDone (s : State) (p : Fin 16) :
    exec (.idDone p) s = .next (s.withDev
      (if (s.dev.port p).idRead ≠ some 16 then s.dev
      else ((((s.dev.idShown p).setPort p (s.dev.port p).idKept).evt 0x0A p Port.E_ID_DONE).when (s.dev.port p).idChanged
        (fun d => d.evt 0x0A p Port.E_ID_CHANGE)).mgmtPump p)) := rfl

theorem Dev.rd_idShown_valid (d : Dev) (p : Fin 16) :
    (d.idShown p).rd Port.ID_STAT_ID_VALID p = b2n (recordGood 4096 (d.port p).idBuf) := by
  rw [Dev.idShown, Dev.rd_mdPost _ _ _ _ _ _ _ (by omega) (by decide), Dev.rd_wrb_off _ _ _ _ _ (by decide),
    Dev.rd_wrb_off _ _ _ _ _ (by decide), Dev.rd_wrb_off _ _ _ _ _ (by decide), Dev.rd_wrb]
  cases recordGood 4096 (d.port p).idBuf <;> rfl

theorem Dev.rd_idShown_bad (d : Dev) (p : Fin 16) :
    (d.idShown p).rd Port.ID_STAT_ID_BAD p = b2n (!recordGood 4096 (d.port p).idBuf) := by
  rw [Dev.idShown, Dev.rd_mdPost _ _ _ _ _ _ _ (by omega) (by decide), Dev.rd_wrb_off _ _ _ _ _ (by decide),
    Dev.rd_wrb_off _ _ _ _ _ (by decide), Dev.rd_wrb]
  cases recordGood 4096 (d.port p).idBuf <;> rfl

/-- An event of the port leaves what the page shows of the identity, and EVT keeps its bits. -/
theorem Dev.idView_evt (d : Dev) (p : Fin 16) (b : Nat) :
    ((d.evt 0x0A p b).port p).idRead = (d.port p).idRead ∧
      (d.evt 0x0A p b).rd Port.ID_STAT_ID_VALID p = d.rd Port.ID_STAT_ID_VALID p ∧
      (d.evt 0x0A p b).rd Port.ID_STAT_ID_BAD p = d.rd Port.ID_STAT_ID_BAD p :=
  ⟨by rw [Dev.evt_port], Dev.rd_evt_off _ _ _ _ _ p (by decide), Dev.rd_evt_off _ _ _ _ _ p (by decide)⟩

/-- The record shown and kept, and ID_DONE raised. -/
def Dev.idPosted (d : Dev) (p : Nat) : Dev :=
  (((d.idShown p).setPort p (d.port p).idKept).evt 0x0A p Port.E_ID_DONE).when (d.port p).idChanged
    (fun d => d.evt 0x0A p Port.E_ID_CHANGE)

theorem exec_idDone_posted {s : State} {p : Fin 16} (h : (s.dev.port p).idRead = some 16) :
    exec (.idDone p) s = .next (s.withDev ((s.dev.idPosted p).mgmtPump p)) := by
  rw [exec_idDone, if_neg (not_not_intro h)]
  rfl

theorem Dev.idView_idPosted (d : Dev) (p : Fin 16) :
    ((d.idPosted p).port p).idRead = none ∧
      (d.idPosted p).rd Port.ID_STAT_ID_VALID p = b2n (recordGood 4096 (d.port p).idBuf) ∧
      (d.idPosted p).rd Port.ID_STAT_ID_BAD p = b2n (!recordGood 4096 (d.port p).idBuf) ∧
      ((d.idPosted p).rd (Hdr.EVT 0x0A) p).testBit Port.E_ID_DONE = true := by
  obtain ⟨hr, hv, hb⟩ := ((d.idShown p).setPort p (d.port p).idKept).idView_evt p Port.E_ID_DONE
  rw [Dev.port_setPort] at hr
  rw [Dev.setPort_rd, Dev.rd_idShown_valid] at hv
  rw [Dev.setPort_rd, Dev.rd_idShown_bad] at hb
  have he := Dev.evt_set ((d.idShown p).setPort p (d.port p).idKept) 0x0A p Port.E_ID_DONE (by decide)
  rw [Dev.idPosted]
  refine Dev.when_induct (fun e => (e.port p).idRead = none ∧ e.rd Port.ID_STAT_ID_VALID p = _ ∧
    e.rd Port.ID_STAT_ID_BAD p = _ ∧ (e.rd (Hdr.EVT 0x0A) p).testBit Port.E_ID_DONE = true) _ _ _ ⟨hr, hv, hb, he⟩ ?_
  rintro ⟨hr, hv, hb, he⟩
  obtain ⟨hr', hv', hb'⟩ := Dev.idView_evt _ p Port.E_ID_CHANGE
  exact ⟨hr'.trans hr, hv'.trans hv, hb'.trans hb, (Dev.evt_raised _ _ _ _).evts _ _ _ (by decide) he⟩

/-- Settles O18: the identity that is shown stays through the events and the request that follow. -/
theorem management : Obligations.Management := by
  unfold Obligations.Management
  refine ⟨fun s r p n ht x hx => ⟨fun h => ?_, fun hb h4 h256 hm => ?_⟩, fun s p => ⟨exec_mgmtTimeout_none, fun m hm =>
    ⟨fun hu => ?_, fun hu => ?_, fun hu => ?_⟩⟩, fun s p => ⟨fun h => ?_, fun h => ?_⟩⟩
  · rw [exec_mgmt n ht x hx, Dev.cmdMgmt_eq, if_pos h]
    rfl
  · rw [exec_mgmt n ht x hx, Dev.cmdMgmt_eq, if_neg]
    · rfl
    · simp only [hb, Bool.false_eq_true, false_or]
      omega
  · rw [exec_mgmtTimeout hm, hu]
    rfl
  · rw [exec_mgmtTimeout hm, hu]
  · obtain hu | hu := hu <;> rw [exec_mgmtTimeout hm, hu]
  · rw [exec_idDone, if_pos h]
  · obtain ⟨hr, hv, hb, he⟩ := Dev.idView_idPosted s.dev p
    have hpump := Dev.idView_mgmtPump (s.dev.idPosted p) p.2
    simp only [Dev.idView, Prod.mk.injEq] at hpump
    obtain ⟨hr', hv', hb', he'⟩ := hpump
    refine ⟨_, exec_idDone_posted h, State.withDev_mem s _, ?_⟩
    rw [State.withDev_dev, Dev.done_port, Dev.done_rd, Dev.done_rd, Dev.done_rd, hr', hv', hb', he']
    exact ⟨hr, hv, hb, he⟩

/-! ### The far-end loop (R145, R149) -/

/-- MODE and DURATION of a request to enter the loop are taken. -/
def Dev.lb2Asked (d : Dev) (p n : Nat) : Dev := (d.wr Port.LB_CTRL_MODE p 1).wr Port.LB_CTRL_DURATION p n

theorem Dev.linkUp_lb2Asked (d : Dev) (p n : Nat) : (d.lb2Asked p n).linkUp p = d.linkUp p :=
  (Dev.is_wr_off _ _ Port.STAT_LINK_UP _ _ (by decide)).trans (Dev.is_wr_off _ _ Port.STAT_LINK_UP _ _ (by decide))

theorem exec_lb2Enter {s : State} {r : Req} {p : Fin 16} (n : Nat) (ht : s.dev.takes r.num 0x0A p = true) :
    exec (.lb2Enter r p n) s = .next (s.withDev
      (if (s.dev.is Port.ID_STAT_ID_VALID p && !(s.dev.port p).lb2Ok) || s.dev.rd LbF.LB_CFG_DEPTH 0 p != 0 then
        s.dev.badAccess 0x0A p
      else if (s.dev.port p).lb ≠ .off ∨ !s.dev.linkUp p then s.dev.lb2Asked p n
      else (((s.dev.lb2Asked p n).wr Port.LB_CTRL_LB_STATUS p 0).setPort p
        { s.dev.port p with lb := .entering }).mgmtPump p)) := by
  rw [← Dev.linkUp_lb2Asked s.dev p n]
  exact State.upd_busW s _ _ _ _ ht

theorem exec_lb2Exit {s : State} {r : Req} {p : Fin 16} (ht : s.dev.takes r.num 0x0A p = true) :
    exec (.lb2Exit r p) s = .next (s.withDev
      (if (s.dev.port p).lb = .entering ∧ !(s.dev.port p).loopAsked then
        ((s.dev.wr Port.LB_CTRL_MODE p 0).setPort p { s.dev.port p with lb := .off }).mgmtPump p
      else (s.dev.wr Port.LB_CTRL_MODE p 0).lb2Leave p)) :=
  State.upd_busW s _ _ _ _ ht

theorem exec_lb2Duration (s : State) (p : Fin 16) : exec (.lb2Duration p) s = .next (s.withDev (s.dev.lb2Leave p)) := rfl

theorem Dev.lb2Leave_of_active {d : Dev} {p : Nat} (h : (d.port p).lb = .active) :
    d.lb2Leave p = (d.setPort p { d.port p with lb := .leaving }).mgmtPump p := if_pos h

theorem Dev.lb2Leave_of_ne {d : Dev} {p : Nat} (h : (d.port p).lb ≠ .active) : d.lb2Leave p = d := if_neg h

theorem Dev.lb2Leave_modeOff_of_active {d : Dev} {p : Nat} (h : (d.port p).lb = .active) :
    (d.wr Port.LB_CTRL_MODE p 0).lb2Leave p =
      ((d.wr Port.LB_CTRL_MODE p 0).setPort p { d.port p with lb := .leaving }).mgmtPump p := if_pos h

theorem Dev.lb2Leave_modeOff_of_ne {d : Dev} {p : Nat} (h : (d.port p).lb ≠ .active) :
    (d.wr Port.LB_CTRL_MODE p 0).lb2Leave p = d.wr Port.LB_CTRL_MODE p 0 := if_neg h

theorem exec_lb2ResponseTimeout (s : State) (p : Fin 16) :
    exec (.lb2ResponseTimeout p) s = .next (s.withDev (match (s.dev.port p).lb with
      | .entering => s.dev.when (s.dev.port p).loopAsked (fun d =>
          ((d.setPort p { s.dev.port p with mgmt := none }).lb2End p 2 false).mgmtPump p)
      | .leaving => ((s.dev.setPort p { s.dev.port p with mgmt := none }).lb2End p 2 true).mgmtPump p
      | _ => s.dev)) := rfl

theorem exec_lb2ResponseTimeout_entering {s : State} {p : Fin 16} (h : (s.dev.port p).lb = .entering) :
    exec (.lb2ResponseTimeout p) s = .next (s.withDev (s.dev.when (s.dev.port p).loopAsked (fun d =>
      ((d.setPort p { s.dev.port p with mgmt := none }).lb2End p 2 false).mgmtPump p))) := by
  rw [exec_lb2ResponseTimeout, h]

theorem exec_lb2ResponseTimeout_leaving {s : State} {p : Fin 16} (h : (s.dev.port p).lb = .leaving) :
    exec (.lb2ResponseTimeout p) s = .next (s.withDev
      (((s.dev.setPort p { s.dev.port p with mgmt := none }).lb2End p 2 true).mgmtPump p)) := by
  rw [exec_lb2ResponseTimeout, h]

/-- MGMT requests wait for the one outstanding, for the link and for the window. -/
theorem Dev.mgmtPump_of_held {d : Dev} {p : Nat}
    (h : (d.port p).mgmt.isSome = true ∨ d.mgmtRuns p = false ∨ d.windowOpen p = false) : d.mgmtPump p = d := by
  refine if_pos ?_
  obtain h | h | h := h <;> simp only [h, Bool.not_false, Bool.true_or, Bool.or_true]

/-- Where a MGMT request may leave, the loops and the identity come before software. -/
theorem Dev.mgmtPump_of_free {d : Dev} {p : Nat} (hm : (d.port p).mgmt = none) (hr : d.mgmtRuns p = true)
    (hw : d.windowOpen p = true) :
    d.mgmtPump p =
      if d.lbOn p then d.when ((d.port p).lb == .leaving) (fun d => d.mgmtSend p ⟨.loopExit, 4, 0, 4, 0⟩)
      else match (d.port p).idRead with
        | some n => if n < 16 then d.mgmtSend p ⟨.identity, 3, 0, 256, 256 * n⟩ else d
        | none =>
          if (d.port p).lb = .entering then d.mgmtSend p ⟨.loopEnter, 4, 0, 4, 0⟩
          else match (d.port p).swMgmt with
            | some m => (d.setPort p { d.port p with swMgmt := none }).mgmtSend p m
            | none => d := by
  refine if_neg ?_
  rw [hm, hr, hw]
  decide

/-- Where the camera is not known to lack the loop and no depth is set, the request is taken. -/
theorem exec_lb2Enter_taken {s : State} {r : Req} {p : Fin 16} (n : Nat) (ht : s.dev.takes r.num 0x0A p = true)
    (hok : s.dev.is Port.ID_STAT_ID_VALID p = false ∨ (s.dev.port p).lb2Ok = true) (hd : s.dev.rd LbF.LB_CFG_DEPTH 0 p = 0) :
    exec (.lb2Enter r p n) s = .next (s.withDev
      (if (s.dev.port p).lb ≠ .off ∨ !s.dev.linkUp p then s.dev.lb2Asked p n
      else (((s.dev.lb2Asked p n).wr Port.LB_CTRL_LB_STATUS p 0).setPort p
        { s.dev.port p with lb := .entering }).mgmtPump p)) := by
  rw [exec_lb2Enter n ht, if_neg]
  rw [hd]
  obtain hv | ho := hok
  · rw [hv, Bool.false_and]
    decide
  · rw [ho, Bool.not_true, Bool.and_false]
    decide

/-- A loop that is not waiting to be asked for is left. -/
theorem exec_lb2Exit_leaves {s : State} {r : Req} {p : Fin 16} (ht : s.dev.takes r.num 0x0A p = true)
    (h : (s.dev.port p).lb = .entering → (s.dev.port p).loopAsked = true) :
    exec (.lb2Exit r p) s = .next (s.withDev ((s.dev.wr Port.LB_CTRL_MODE p 0).lb2Leave p)) := by
  rw [exec_lb2Exit ht, if_neg]
  rintro ⟨he, hq⟩
  rw [h he] at hq
  exact Bool.false_ne_true hq

/-- Settles O19, by the phase of the loop. -/
theorem farEndLoop : Obligations.FarEndLoop := by
  unfold Obligations.FarEndLoop
  refine fun s r p ht => ⟨fun n h => ?_, fun n hok hd d hdd => ⟨fun h => ?_, fun hoff hup => ?_⟩, fun ha => ⟨?_, ?_⟩,
    fun ha => ?_, fun h => ?_, fun h => ?_, fun he => ⟨fun hq => ⟨?_, ?_⟩, fun hq => ⟨?_, ?_⟩⟩, fun hl => ?_,
    fun d => ⟨Dev.mgmtPump_of_held, fun hm hr hw => ⟨fun hl => ?_, fun he hi => ?_⟩⟩⟩
  · rw [exec_lb2Enter n ht, if_pos]
    · rfl
    · obtain ⟨hv, ho⟩ | h := h
      · rw [hv, show (s.dev.port p).lb2Ok = false from ho]
        rfl
      · rw [bne_iff_ne.2 h, Bool.or_true]
  · rw [exec_lb2Enter_taken n ht hok hd, if_pos, hdd]
    · rfl
    · exact h.imp_right fun h => by rw [h]; rfl
  · rw [exec_lb2Enter_taken n ht hok hd, if_neg, hdd]
    · rfl
    · rw [show (s.dev.port p).lb = .off from hoff, hup]
      decide
  · rw [exec_lb2Duration, Dev.lb2Leave_of_active ha]
  · rw [exec_lb2Exit_leaves ht, Dev.lb2Leave_modeOff_of_active ha]
    exact fun h => nomatch h.symm.trans ha
  · rw [exec_lb2Duration, Dev.lb2Leave_of_ne ha]
  · have hne : ∀ x, (s.dev.port p).lb = x → x = .off ∨ x = .leaving := fun x hx => hx ▸ h
    rw [exec_lb2Exit_leaves ht, Dev.lb2Leave_modeOff_of_ne]
    · intro ha
      obtain h | h := hne _ ha <;> exact nomatch h
    · intro he
      obtain h | h := hne _ he <;> exact nomatch h
  · rw [exec_lb2ResponseTimeout]
    obtain h | h := h <;> rw [show (s.dev.port p).lb = _ from h]
  · rw [exec_lb2ResponseTimeout_entering he, Dev.when_of_eq_true hq]
  · rw [exec_lb2Exit_leaves ht fun _ => hq, Dev.lb2Leave_modeOff_of_ne]
    exact fun ha => nomatch he.symm.trans ha
  · rw [exec_lb2ResponseTimeout_entering he, Dev.when_of_eq_false hq]
  · rw [exec_lb2Exit ht, if_pos]
    exact ⟨he, by rw [show (s.dev.port p).loopAsked = false from hq]; rfl⟩
  · exact exec_lb2ResponseTimeout_leaving hl
  · rw [Dev.mgmtPump_of_free hm hr hw, if_pos, Dev.when_of_eq_true]
    · rw [hl]
      rfl
    · rw [Dev.lbOn, hl]
      rfl
  · rw [Dev.mgmtPump_of_free hm hr hw, if_neg, hi]
    · exact if_pos he
    · rw [Dev.lbOn, he]
      decide

/-! ### Queues (R165–R167, R171) -/

/-- The counters of a queue cleared. -/
def Dev.qCleared (d : Dev) (k : Nat) : Dev :=
  d.setQueue k { d.queue k with wmHiCount := 0, flushCut := 0, rewindCnt := 0, idleReads := 0 }

/-- CLR_CNT of a queue; a delivery or intake queue has two counters more. -/
def Dev.qClear (d : Dev) (k : Nat) : Dev :=
  if 64 ≤ k then ((d.qCleared k).qwr k Dq.Q_CNT_C_DROP_CNT 0).qwr k Dq.Q_CNT_C_DESC_ERR_CNT 0 else d.qCleared k

theorem Dev.qCmd_eq (d : Dev) (k v : Nat) :
    d.qCmd k v =
      if v.testBit 3 then d.qFlush k
      else ((((d.when (v.testBit 4) (fun d => d.qClear k)).when (v.testBit 2) (fun d => d.qSoft k (fun d => d.qRelease k))).when
        (v.testBit 1) (fun d => d.qSoft k (fun d => d.qRewind k))).when (v.testBit 0) (fun d =>
          d.qSoft k (fun d => d.qMark k))) := rfl

theorem Dev.qCmd_mark (d : Dev) (k : Nat) : d.qCmd k 1 = d.qSoft k (fun d => d.qMark k) := by
  rw [Dev.qCmd_eq, if_neg (by decide), Dev.when_of_eq_true (by decide), Dev.when_of_eq_false (by decide),
    Dev.when_of_eq_false (by decide), Dev.when_of_eq_false (by decide)]

theorem Dev.qCmd_rewind (d : Dev) (k : Nat) : d.qCmd k 2 = d.qSoft k (fun d => d.qRewind k) := by
  rw [Dev.qCmd_eq, if_neg (by decide), Dev.when_of_eq_false (by decide), Dev.when_of_eq_true (by decide),
    Dev.when_of_eq_false (by decide), Dev.when_of_eq_false (by decide)]

theorem Dev.qCmd_release (d : Dev) (k : Nat) : d.qCmd k 4 = d.qSoft k (fun d => d.qRelease k) := by
  rw [Dev.qCmd_eq, if_neg (by decide), Dev.when_of_eq_false (by decide), Dev.when_of_eq_false (by decide),
    Dev.when_of_eq_true (by decide), Dev.when_of_eq_false (by decide)]

theorem Dev.qCmd_flush (d : Dev) (k : Nat) : d.qCmd k 8 = d.qFlush k := by
  rw [Dev.qCmd_eq, if_pos (by decide)]

theorem Dev.qCmd_clear (d : Dev) (k : Nat) : d.qCmd k 16 = d.qClear k := by
  rw [Dev.qCmd_eq, if_neg (by decide), Dev.when_of_eq_false (by decide), Dev.when_of_eq_false (by decide),
    Dev.when_of_eq_false (by decide), Dev.when_of_eq_true (by decide)]

theorem Dev.qSoft_of_busy {d : Dev} {k c i : Nat} (op : Dev → Dev) (hc : qConsumer k = some (c, i))
    (he : d.enabled c i = true) : d.qSoft k op = d.badAccess (qPage k).1 (qPage k).2 := by
  rw [Dev.qSoft, hc]
  exact if_pos he

theorem Dev.qSoft_of_idle {d : Dev} {k : Nat} (op : Dev → Dev)
    (h : ∀ c i, qConsumer k = some (c, i) → d.enabled c i = false) :
    d.qSoft k op = if (d.queue k).flushBusy then d else op d := by
  rw [Dev.qSoft]
  cases hc : qConsumer k with
  | none => exact if_neg Bool.false_ne_true
  | some x => exact if_neg (ne_true_of_eq_false (h x.1 x.2 hc))

/-- The three commands of a queue that its consumer may hold off. -/
theorem exec_queueSoft {s : State} {r : Req} {q : QueueId}
    (ht : s.dev.takes r.num (qPage q.num).1 (qPage q.num).2 = true) :
    exec (.queueMark r q) s = .next (s.withDev (s.dev.qSoft q.num (fun d => d.qMark q.num))) ∧
      exec (.queueRewind r q) s = .next (s.withDev (s.dev.qSoft q.num (fun d => d.qRewind q.num))) ∧
      exec (.queueRelease r q) s = .next (s.withDev (s.dev.qSoft q.num (fun d => d.qRelease q.num))) := by
  rw [← Dev.qCmd_mark, ← Dev.qCmd_rewind, ← Dev.qCmd_release]
  exact ⟨State.upd_busW s _ _ _ _ ht, State.upd_busW s _ _ _ _ ht, State.upd_busW s _ _ _ _ ht⟩

/-- Where neither the consumer nor a flush holds them off, they act. -/
theorem exec_queueSoft_idle {s : State} {r : Req} {q : QueueId}
    (ht : s.dev.takes r.num (qPage q.num).1 (qPage q.num).2 = true)
    (hi : ∀ c i, qConsumer q.num = some (c, i) → s.dev.enabled c i = false) (hf : (s.dev.queue q.num).flushBusy = false) :
    exec (.queueMark r q) s = .next (s.withDev (s.dev.qMark q.num)) ∧
      exec (.queueRewind r q) s = .next (s.withDev (s.dev.qRewind q.num)) ∧
      exec (.queueRelease r q) s = .next (s.withDev (s.dev.qRelease q.num)) := by
  have h : ∀ op, s.dev.qSoft q.num op = op s.dev := fun op => by
    rw [Dev.qSoft_of_idle op hi, if_neg (ne_true_of_eq_false hf)]
  obtain ⟨hmark, hrewind, hrelease⟩ := exec_queueSoft ht
  rw [hmark, hrewind, hrelease, h, h, h]
  exact ⟨rfl, rfl, rfl⟩

theorem exec_queueSoft_mem {s : State} {r : Req} {q : QueueId}
    (ht : s.dev.takes r.num (qPage q.num).1 (qPage q.num).2 = true) :
    ∀ x ∈ [Instr.queueMark r q, .queueRewind r q, .queueRelease r q],
      ∃ op, exec x s = .next (s.withDev (s.dev.qSoft q.num op)) := by
  obtain ⟨hmark, hrewind, hrelease⟩ := exec_queueSoft ht
  simp only [List.forall_mem_cons]
  exact ⟨⟨_, hmark⟩, ⟨_, hrewind⟩, ⟨_, hrelease⟩, fun _ h => absurd h List.not_mem_nil⟩

theorem exec_queueFlush {s : State} {r : Req} {q : QueueId} (ht : s.dev.takes r.num (qPage q.num).1 (qPage q.num).2 = true) :
    exec (.queueFlush r q) s = .next (s.withDev (s.dev.qFlush q.num)) := by
  rw [← Dev.qCmd_flush]
  exact State.upd_busW s _ _ _ _ ht

theorem exec_clrCnt_queue {s : State} {r : Req} {q : QueueId} (a b : Nat)
    (ht : s.dev.takes r.num (qPage q.num).1 (qPage q.num).2 = true) :
    exec (.clrCnt r a b (some q)) s = .next (s.landed (s.dev.qCmd q.num 16)) :=
  State.updR_busW s _ _ _ (fun _ d => d.qCmd q.num 16) ht

theorem exec_clrCnt_page {s : State} {r : Req} {c i : Nat} (ht : s.dev.takes r.num c i = true) :
    exec (.clrCnt r c i none) s = .next (s.landed (s.dev.clrCnt s.mem r.num c i)) :=
  State.updR_busW s _ _ _ (fun m d => d.clrCnt m r.num c i) ht

/-- MARK holds the unit at RD_PT and moves nothing. -/
theorem Dev.queue_qMark (d : Dev) (k : Nat) :
    ((d.qMark k).queue k).mark = (d.queue k).rd ∧ ((d.qMark k).queue k).markValid = true ∧
      ((d.qMark k).queue k).rd = (d.queue k).rd ∧ ((d.qMark k).queue k).items = (d.queue k).items := by
  obtain ⟨hitems, -, hrd, hmark, -, hvalid⟩ :=
    (Dev.qSettle_raised (d.setQueue k { d.queue k with mark := (d.queue k).rd, markValid := true }) k).queue k
  rw [Dev.queue_setQueue] at hitems hrd hmark hvalid
  exact ⟨hmark, hvalid, hrd, hitems⟩

theorem Dev.queue_qRewind {d : Dev} {k : Nat} (h : (d.queue k).markValid = true) :
    ((d.qRewind k).queue k).rd = (d.queue k).mark ∧
      ((d.qRewind k).queue k).rewindCnt = satAdd 16 (d.queue k).rewindCnt 1 := by
  rw [Dev.qRewind, if_pos h, Dev.queue_setQueue]
  exact ⟨rfl, rfl⟩

theorem Dev.qRewind_eq_of_unmarked {d : Dev} {k : Nat} (h : (d.queue k).markValid = false) : d.qRewind k = d.qEvt k 3 :=
  if_neg (ne_true_of_eq_false h)

/-- RELEASE of a queue of the device frees what was read. -/
theorem Dev.queue_qRelease (d : Dev) {k : Nat} (hk : k < 64) :
    ((d.qRelease k).queue k).rel = (d.queue k).rd ∧ ((d.qRelease k).queue k).markValid = false := by
  have h : d.qRelease k = (d.setQueue k { d.queue k with
      rel := (d.queue k).rd, markValid := false
      items := (d.queue k).items.filter (fun x =>
        decide (pdiff x.start (d.queue k).rd < pdiff (d.queue k).wr (d.queue k).rd) || !x.done) }).qSettle k := by
    rw [Dev.qRelease, Dev.dqFill, if_neg (by omega), if_neg (by omega)]
  obtain ⟨-, -, -, -, hrel, hvalid⟩ := (Dev.qSettle_raised (d.setQueue k { d.queue k with
      rel := (d.queue k).rd, markValid := false
      items := (d.queue k).items.filter (fun x =>
        decide (pdiff x.start (d.queue k).rd < pdiff (d.queue k).wr (d.queue k).rd) || !x.done) }) k).queue k
  rw [Dev.queue_setQueue] at hrel hvalid
  rw [h]
  exact ⟨hrel, hvalid⟩

/-- What a flush settles of a queue: its items, pointers and mark. -/
def Dev.ringView (d : Dev) (k : Nat) : List QItem × Nat × Nat × Nat × Bool :=
  ((d.queue k).items, (d.queue k).wr, (d.queue k).rd, (d.queue k).rel, (d.queue k).markValid)

theorem Raised.ringView {d e : Dev} (h : Raised d e) (k : Nat) : e.ringView k = d.ringView k := by
  obtain ⟨hitems, hwr, hrd, -, hrel, hvalid⟩ := h.queue k
  rw [Dev.ringView, hitems, hwr, hrd, hrel, hvalid]
  rfl

theorem Dev.ringView_of_queues {d e : Dev} (h : e.queues = d.queues) (k : Nat) : e.ringView k = d.ringView k := by
  simp only [Dev.ringView, Dev.queue, h]

theorem Dev.ringView_lcuFlushed (d : Dev) (k : Nat) : (d.lcuFlushed k).ringView k = d.ringView k :=
  Dev.when_keeps (Dev.ringView · k) _ _ _ (Dev.ringView_of_queues rfl k)

/-- A queue flushed: its pointers meet at WR_PT, its items and its mark go. -/
def Dev.qEmptied (d : Dev) (k : Nat) (q : QueueH) : Dev :=
  d.setQueue k { q with
    rd := q.wr, rel := q.wr, resv := 0, items := [], markValid := false, flushBusy := true
    flushCut := if q.items.any (fun x => !x.done) || (decide (k < 16) && (d.ing k).line.isSome) then satAdd 16 q.flushCut 1
      else q.flushCut }

theorem Dev.ringView_qEmptied (d : Dev) (k : Nat) (q : QueueH) :
    (d.qEmptied k q).ringView k = ([], q.wr, q.wr, q.wr, false) := by
  rw [Dev.ringView, Dev.qEmptied, Dev.queue_setQueue]

theorem Dev.wr_qCutTaken (d : Dev) (k : Nat) : ((d.qCutTaken k).queue k).wr = (d.queue k).wr := by
  rw [Dev.qCutTaken]
  refine ite_keeps (fun d => (d.queue k).wr) ?_ rfl
  rw [Dev.queue_setQueue]

/-- The line in assembly of a flushed line FIFO is swallowed. -/
def Dev.lineSwallowed (d : Dev) (k : Nat) : Dev :=
  match (d.ing k).line with
  | some o => d.setIng k { d.ing k with line := none, swallow := some o.num, prev := some o.num }
  | none => d

/-- The items of a flushed delivery queue that wait or move go. -/
def Dev.dqEmptied (d : Dev) (k : Nat) : Dev :=
  (d.setDqh (k - 64) { d.dqh (k - 64) with wait := [], move := [] }).setQueue k
    { d.queue k with flushCut := satAdd 16 (d.queue k).flushCut (d.dqh (k - 64)).move.length }

/-- The descriptors of a flushed intake queue go, and what was read for them belongs to nobody. -/
def Dev.iqEmptied (d : Dev) (k : Nat) : Dev :=
  let d := d.setIqh (k - 320) { d.iqh (k - 320) with descs := [], waiting := 0 }
  { d with links := d.links.map (fun e => (e.1, { e.2 with reqs := e.2.reqs.map (fun r =>
      if (r.use = 0 ∧ r.arg = k - 320) ∨ (r.use = 1 ∧ r.arg / 2 ^ 32 = k - 320) then { r with use := 9 } else r) })) }

/-- What a flush takes from the producer of the queue. -/
def Dev.producerFlushed (d : Dev) (k : Nat) : Dev :=
  if k < 16 then d.lineSwallowed k
  else if 64 ≤ k ∧ k < 320 then d.dqEmptied k
  else if 320 ≤ k then d.iqEmptied k
  else d

/-- What port ingest shows after a flush of its line FIFO. -/
def Dev.ingestShown (d : Dev) (k : Nat) : Dev :=
  if k < 16 then (d.wrb Ingest.STAT_SWALLOWING k (d.ing k).swallow.isSome).wr Ingest.STAT_ASSEMBLING k 0 else d

/-- Where the released slots of an intake queue began. -/
def Dev.flushNoted (d : Dev) (k : Nat) : Dev :=
  d.when (decide (320 ≤ k) && (d.queue k).rel != (d.queue k).wr) (fun e => e.qwr k Dq.FLUSH_FROM (d.queue k).rel)

/-- FLUSH as its parts. -/
theorem Dev.qFlush_eq (d : Dev) (k : Nat) :
    d.qFlush k = ((((((d.qCutTaken k).flushNoted k).qEmptied k ((d.qCutTaken k).queue k)).when (decide (k < 16))
      (fun d => d.lcuFlushed k)).producerFlushed k).ingestShown k).qSettle k := rfl

theorem Dev.ringView_producerFlushed (d : Dev) (k : Nat) : (d.producerFlushed k).ringView k = d.ringView k := by
  refine ite_keeps (Dev.ringView · k) ?_ (ite_keeps (Dev.ringView · k) ?_ (ite_keeps (Dev.ringView · k) ?_ rfl))
  · rw [Dev.lineSwallowed]
    split
    · exact Dev.ringView_of_queues rfl k
    · rfl
  · rw [Dev.ringView, Dev.dqEmptied, Dev.queue_setQueue]
    rfl
  · exact Dev.ringView_of_queues rfl k

theorem Dev.ringView_ingestShown (d : Dev) (k : Nat) : (d.ingestShown k).ringView k = d.ringView k :=
  ite_keeps (Dev.ringView · k) (Dev.ringView_of_queues rfl k) rfl

theorem Dev.ringView_qFlush (d : Dev) (k : Nat) :
    (d.qFlush k).ringView k = ([], (d.queue k).wr, (d.queue k).wr, (d.queue k).wr, false) := by
  rw [Dev.qFlush_eq, (Dev.qSettle_raised _ _).ringView, Dev.ringView_ingestShown, Dev.ringView_producerFlushed]
  refine (Dev.when_keeps (Dev.ringView · k) _ _ (fun d => d.lcuFlushed k) (Dev.ringView_lcuFlushed _ _)).trans ?_
  rw [Dev.ringView_qEmptied, Dev.wr_qCutTaken]

/-! ### CLR_CNT of the delivery page (R437) -/

/-- CLR_CNT of the delivery page writes its bit of DE_CMD, which clears the two counters. -/
theorem Dev.clrCnt_delivery (m : FrameStore) (d : Dev) (r : Nat) :
    d.clrCnt m r 0x1A 0 = d.clearRegs 0x1A 0 0x48 0x48 := by
  have hbit : (d.rwWord 0x1A 0 0x4C ||| 2 ^ 0).testBit 0 = true := by
    rw [Nat.testBit_or]
    exact Bool.or_true _
  change Dev.blockReg m d r 0x1A 0 0x4C (d.rwWord 0x1A 0 0x4C ||| 2 ^ 0) = _
  generalize d.rwWord 0x1A 0 0x4C ||| 2 ^ 0 = v at hbit
  have hlock : d.lockedReg 0x1A 0 0x4C = false := by
    simp [Dev.lockedReg]
  have hspecial : d.special m r 0x1A 0 0x4C v = some (d.when (v.testBit 0) (fun d => d.clearRegs 0x1A 0 0x48 0x48)) := rfl
  rw [Dev.blockReg, if_neg (by decide), hlock, if_neg (by exact Bool.false_ne_true)]
  simp only [show ¬ (0x1A = 0x1F) by decide, show ¬ (0x1A = 0x18) by decide, if_false, hspecial, Option.getD_some]
  exact Dev.when_of_eq_true hbit

theorem Dev.rd_clearRegs_delivery (d : Dev) :
    (d.clearRegs 0x1A 0 0x48 0x48).rd De.DE_CNT_DATA_ERR_CNT 0 = 0 ∧
      (d.clearRegs 0x1A 0 0x48 0x48).rd De.DE_CNT_REUSED_CNT 0 = 0 := by
  have h : d.clearRegs 0x1A 0 0x48 0x48 = (d.wr De.DE_CNT_REUSED_CNT 0 0).wr De.DE_CNT_DATA_ERR_CNT 0 0 := rfl
  rw [h]
  exact ⟨Dev.rd_wr _ _ _ _ _, (Dev.rd_wr_off _ _ De.DE_CNT_REUSED_CNT _ _ (by decide)).trans (Dev.rd_wr _ _ _ _ _)⟩

theorem exec_queueFlushDone (s : State) (q : QueueId) :
    exec (.queueFlushDone q) s = .next (s.withDev (s.dev.when (s.dev.queue q.num).flushBusy (fun d =>
      ((d.setQueue q.num { s.dev.queue q.num with flushBusy := false }).qEvt q.num 2).dqFill q.num))) := rfl

/-- Settles O20, by the equations of the commands and by what they leave of a queue. -/
theorem queues : Obligations.Queues := by
  unfold Obligations.Queues
  refine ⟨fun s r q ht => ⟨fun c i hc he x hx => ?_, fun hi hf x hx => ?_, fun hi hf => ?_,
    fun a b h hh => ⟨fun hk => ?_, fun hk => ?_⟩, fun c i hci => exec_clrCnt_page hci, fun hde => ?_⟩,
    fun s r q => ⟨fun ht => ?_, fun hf => ?_, fun hf => ?_⟩⟩
  · obtain ⟨op, hx⟩ := exec_queueSoft_mem ht x hx
    rw [hx, Dev.qSoft_of_busy _ hc he]
    rfl
  · obtain ⟨op, hx⟩ := exec_queueSoft_mem ht x hx
    rw [hx, Dev.qSoft_of_idle _ hi, if_pos hf]
  · obtain ⟨hmark, hrewind, hrelease⟩ := exec_queueSoft_idle ht hi hf
    refine ⟨⟨_, hmark, State.withDev_mem s _, ?_⟩, fun hm => ⟨_, hrewind, State.withDev_mem s _, ?_⟩, fun hm => ?_, hrelease,
      fun hk => ⟨_, hrelease, State.withDev_mem s _, ?_⟩⟩
    · rw [State.withDev_dev, Dev.done_queue]
      exact s.dev.queue_qMark q.num
    · rw [State.withDev_dev, Dev.done_queue]
      exact Dev.queue_qRewind hm
    · rw [hrewind, Dev.qRewind_eq_of_unmarked hm]
    · rw [State.withDev_dev, Dev.done_queue]
      exact s.dev.queue_qRelease hk
  · rw [exec_clrCnt_queue a b ht, Dev.qCmd_clear, Dev.qClear, if_neg (Nat.not_le.2 hk), show h = s.dev.qCleared q.num from hh]
  · rw [exec_clrCnt_queue a b ht, Dev.qCmd_clear, Dev.qClear, if_pos hk, show h = s.dev.qCleared q.num from hh]
  · refine ⟨_, exec_clrCnt_page hde, ?_⟩
    rw [State.landed_dev, Dev.done_rd, Dev.done_rd, Dev.clrCnt_delivery]
    exact s.dev.rd_clearRegs_delivery
  · have hring := s.dev.ringView_qFlush q.num
    simp only [Dev.ringView, Prod.mk.injEq] at hring
    obtain ⟨hitems, hwr, hrd, hrel, hvalid⟩ := hring
    refine ⟨_, exec_queueFlush ht, State.withDev_mem s _, rfl, ?_⟩
    rw [State.withDev_dev, Dev.done_queue]
    exact ⟨hitems, hwr, hrd.trans hwr.symm, hrel.trans hwr.symm, hvalid⟩
  · rw [exec_queueFlushDone, Dev.when_of_eq_true hf]
  · rw [exec_queueFlushDone, Dev.when_of_eq_false hf]

end Sys2Proof.Machine
end

