-- ==== Sys2Proof/Proofs/Pages.lean ====
section
/-!
PROOFS. Pages (R6, R28–R50): the gate of a write, the registers of a header, what a write and a read of a page do, EN, soft reset
and FREEZE; from these the statements O21 to O23.
-/

open Sys2Proof

namespace Sys2Proof.Machine

/-! ### The gate (R30, R38, R47–R49) -/

/-- A requester that sees a page: none but a VF needs a slot for it. -/
def Dev.sees (d : Dev) (r c i : Nat) : Bool := !isVf r || d.vfReaches r c i false

/-- A requester that may write a page that it sees. -/
def Dev.mayWrite (d : Dev) (r c i : Nat) : Bool := d.writable r c i && (!isVf r || d.vfReaches r c i true)

theorem Dev.busW_eq (d : Dev) (r c i : Nat) (k : Dev → Dev) :
    d.busW r c i k =
      if !d.implemented c i || !d.reqLive r || !d.sees r c i then d
      else if !d.mayWrite r c i then d.deny
      else if aoHeld c 0x40 then k d
      else if d.wedged (islandOf c i) then d
      else if d.silent c i then d.gatedWrite
      else if d.resetting c i then d
      else k d := by
  rw [Dev.busW, Dev.sees, Dev.mayWrite, Bool.not_or, Bool.not_and, Bool.not_or, Bool.not_not]

theorem Dev.busAO_eq (d : Dev) (r c i : Nat) (k : Dev → Dev) :
    d.busAO r c i k =
      if !d.implemented c i || !d.reqLive r || !d.sees r c i then d
      else if !d.mayWrite r c i then d.deny
      else k d := by
  rw [Dev.busAO, Dev.sees, Dev.mayWrite, Bool.not_or, Bool.not_and, Bool.not_or, Bool.not_not]

/-- The gate stands open to a requester that the page is for. -/
theorem Dev.busW_eq_of_may {d : Dev} {r c i : Nat} (k : Dev → Dev) (hi : d.implemented c i = true) (hl : d.reqLive r = true)
    (hs : d.sees r c i = true) (hm : d.mayWrite r c i = true) (ha : aoHeld c 0x40 = false) :
    d.busW r c i k =
      if d.wedged (islandOf c i) then d
      else if d.silent c i then d.gatedWrite
      else if d.resetting c i then d
      else k d := by
  rw [Dev.busW_eq, hi, hl, hs, hm, ha]
  rfl

/-- What a write that its page takes says of its requester. -/
theorem Dev.takes_iff (d : Dev) (r c i : Nat) :
    d.takes r c i = true ↔ d.implemented c i = true ∧ d.reqLive r = true ∧ d.mayWrite r c i = true ∧
      (aoHeld c 0x40 || d.answers c i) = true := by
  simp only [Dev.takes, Dev.mayWrite, Bool.and_eq_true, and_assoc]

theorem Dev.sees_of_mayWrite {d : Dev} {r c i : Nat} (h : d.mayWrite r c i = true) : d.sees r c i = true := by
  rw [Dev.mayWrite, Bool.and_eq_true, Bool.or_eq_true] at h
  rw [Dev.sees, Bool.or_eq_true]
  exact h.2.imp_right (Dev.vfReaches_read _ _ _ _)

/-- A write of an AO-held register that the page takes does what it asks for. -/
theorem Dev.busAO_takes (d : Dev) (r c i : Nat) (k : Dev → Dev) (h : d.takes r c i = true) : d.busAO r c i k = k d := by
  obtain ⟨hi, hl, hm, -⟩ := (d.takes_iff r c i).1 h
  rw [Dev.busAO_eq, hi, hl, hm, Dev.sees_of_mayWrite hm]
  rfl

theorem exec_evtForce (s : State) (r : Req) (c i : Nat) (v : Word) :
    exec (.evtForce r c i v) s = .next (s.withDev (s.dev.busW r.num c i (fun d =>
      d.evtForce (canon c i).1 (canon c i).2 v.toNat))) := rfl

/-- Settles O21, by the equation of the gate. -/
theorem gateTurnsAway : Obligations.GateTurnsAway := by
  unfold Obligations.GateTurnsAway
  refine fun s r c i v => ⟨fun h => ?_, fun hi hl hs => ⟨fun hm => ?_, fun hm ha => ⟨fun hw => ?_, fun hw hq => ?_,
    fun hw hq hr => ?_⟩⟩⟩
  · rw [exec_evtForce, Dev.busW_eq, if_pos]
    obtain h | h | h := h
    · rw [h]
      rfl
    · rw [h, Bool.not_false, Bool.or_true]
      rfl
    · rw [show s.dev.sees r.num c i = false from h, Bool.not_false, Bool.or_true]
  · rw [exec_evtForce, Dev.busW_eq, hi, hl, show s.dev.sees r.num c i = true from hs,
      show s.dev.mayWrite r.num c i = false from hm]
    rfl
  all_goals rw [exec_evtForce, Dev.busW_eq_of_may _ hi hl hs hm ha, hw]
  · rfl
  · rw [hq]
    rfl
  · rw [hq, hr]
    rfl

/-! ### EVT_FORCE (R41) -/

theorem Dev.evtForce_raised (d : Dev) (c i v : Nat) : Raised d (d.evtForce c i v) :=
  Raised.foldl _ _ (fun d b => Raised.when _ _ _ (Dev.evt_raised d c i b)) d

/-- A forced bit is set. -/
theorem Dev.evtForce_set (d : Dev) (c i v : Nat) {b : Nat} (hb : b < 32) (hv : v.testBit b = true) :
    ((d.evtForce c i v).rd (Hdr.EVT c) i).testBit b = true := by
  obtain ⟨l, m, hlm⟩ := List.append_of_mem (List.mem_range.2 hb)
  have hstep : ∀ (d : Dev) (x : Nat), Raised d (d.when (v.testBit x) (fun d => d.evt c i x)) := fun d x =>
    Raised.when _ _ _ (Dev.evt_raised d c i x)
  rw [Dev.evtForce, hlm, List.foldl_append, List.foldl_cons]
  refine (Raised.foldl _ _ hstep _).evts c i b hb ?_
  rw [Dev.when_of_eq_true hv]
  exact Dev.evt_set _ c i b hb

/-! ### Writes (R6, R28–R30, R41, R42) -/

theorem exec_registerWrite (s : State) (r : Req) (a : Nat) (ws : List Word) (all : Bool) :
    exec (.registerWrite r a ws all) s =
      .next (s.landed (Dev.busWrite s.mem s.dev r.num a (ws.map (fun w => w.toNat)) all)) := rfl

/-- An access has a shape that R29 allows. -/
def wellShaped (a n : Nat) (all : Bool) : Bool := all && a % 4 == 0 && (n == 1 || (n == 2 && a % 8 == 0))

theorem Dev.busWrite_none {m : FrameStore} {d : Dev} {r a : Nat} (ws : List Nat) (all : Bool) (h : d.target r a = none) :
    Dev.busWrite m d r a ws all = d := by
  rw [Dev.busWrite, h]

theorem Dev.busWrite_some {m : FrameStore} {d : Dev} {r a c i o : Nat} {ro : Bool} (ws : List Nat) (all : Bool)
    (h : d.target r a = some (c, i, o, ro)) :
    Dev.busWrite m d r a ws all =
      if ro then (if d.implemented c i && d.reqLive r then d.deny else d)
      else if wellShaped a ws.length all then Dev.wordsWrite m d r c i o ws
      else d.misshapen r c i o := by
  rw [Dev.busWrite, h]
  rfl

/-- One word at an address of four bytes goes to its register. -/
theorem exec_registerWrite_one {s : State} {r : Req} {a c i o : Nat} (v : Word) (h : s.dev.target r.num a = some (c, i, o, false))
    (ha : a % 4 = 0) :
    exec (.registerWrite r a [v] true) s = .next (s.landed (Dev.wordWrite s.mem s.dev r.num c i o v.toNat)) := by
  rw [exec_registerWrite, Dev.busWrite_some _ _ h, if_neg Bool.false_ne_true, if_pos]
  · rfl
  · rw [wellShaped, ha]
    rfl

theorem exec_registerWrite_two {s : State} {r : Req} {a c i o : Nat} (v w : Word)
    (h : s.dev.target r.num a = some (c, i, o, false)) (ha : a % 8 = 0) :
    exec (.registerWrite r a [v, w] true) s = .next (s.landed
      (Dev.wordWrite s.mem (Dev.wordWrite s.mem s.dev r.num c i o v.toNat) r.num c i (o + 4) w.toNat)) := by
  rw [exec_registerWrite, Dev.busWrite_some _ _ h, if_neg Bool.false_ne_true, if_pos]
  · rfl
  · rw [wellShaped, ha, show a % 4 = 0 by omega]
    rfl

/-- A shape that R29 does not allow. -/
theorem exec_registerWrite_misshapen {s : State} {r : Req} {a c i o : Nat} {ws : List Word} {all : Bool}
    (h : s.dev.target r.num a = some (c, i, o, false)) (hs : wellShaped a ws.length all = false) :
    exec (.registerWrite r a ws all) s = .next (s.landed (s.dev.misshapen r.num c i o)) := by
  rw [exec_registerWrite, Dev.busWrite_some _ _ h, if_neg Bool.false_ne_true, List.length_map, if_neg (ne_true_of_eq_false hs)]

/-- A word of a Block register that is no claim register passes the gate. -/
theorem Dev.wordWrite_block {m : FrameStore} {d : Dev} {r c i o : Nat} (v : Nat) (ht : d.takes r c i = true)
    (ho : o = 0x14 ∨ 0x40 ≤ o) (hc : ¬ (c = 4 ∧ i ≠ 0 ∧ 0x100 ≤ o)) :
    Dev.wordWrite m d r c i o v = Dev.blockWord m d r c i o v := by
  rw [Dev.wordWrite, if_neg (by omega), if_neg (by omega), if_neg (by omega), if_neg (by omega), if_neg (by omega), if_neg hc,
    Dev.busW_takes _ _ _ _ _ ht]

theorem Dev.blockWord_of_le {m : FrameStore} {d : Dev} {r c i o : Nat} (v : Nat) (ho : 0x40 ≤ o) :
    Dev.blockWord m d r c i o v = Dev.blockReg m d r (canon c i).1 (canon c i).2 o v := by
  unfold Dev.blockWord
  simp only
  split
  · omega
  · omega
  · omega
  · rw [if_neg (Nat.not_lt.2 ho)]

/-- A word of an AO-held register of FLT, FLT_EN. -/
theorem Dev.wordWrite_flt {m : FrameStore} {d : Dev} {r c i : Nat} (v : Nat) (ht : d.takes r c i = true) :
    Dev.wordWrite m d r c i 0x20 v = d.guard (fun d => d.fltClear (canon c i).1 (canon c i).2 v) ∧
      Dev.wordWrite m d r c i 0x24 v = d.guard (fun d => d.fltEnWrite (canon c i).1 (canon c i).2 v) := by
  constructor
  · rw [Dev.wordWrite, if_neg (by decide), if_neg (by decide), if_pos rfl, Dev.busAO_takes _ _ _ _ _ ht]
  · rw [Dev.wordWrite, if_neg (by decide), if_neg (by decide), if_neg (by decide), if_pos rfl, Dev.busAO_takes _ _ _ _ _ ht]

theorem Word.toNat_mod (v : Word) : v.toNat % 2 ^ 32 = v.toNat := Nat.mod_eq_of_lt v.isLt

theorem Dev.evtClear_eq {d : Dev} {c i : Nat} (v : Word) (h : pageQueues c i = []) :
    d.evtClear c i v.toNat = d.wr (Hdr.EVT c) i (d.rd (Hdr.EVT c) i &&& (2 ^ 32 - 1 - v.toNat)) := by
  rw [Dev.evtClear, h, Word.toNat_mod]
  rfl

theorem Dev.blockWord_evt (m : FrameStore) (d : Dev) (r c i v : Nat) :
    Dev.blockWord m d r c i 0x14 v = d.evtClear (canon c i).1 (canon c i).2 v := rfl

/-- Ones written to FLT clear, and ERR_ADDR of a stack with its DBE (R42, R434). -/
theorem Dev.fltClear_eq (d : Dev) (c i : Nat) (v : Word) :
    d.fltClear c i v.toNat =
      let e := d.wr (Hdr.FLT c) i (d.rd (Hdr.FLT c) i &&& (2 ^ 32 - 1 - v.toNat))
      if c = 0x18 ∧ v.toNat.testBit Hbm.F_DBE = true then e.wr Hbm.ERR_ADDR i 0 else e := by
  rw [Dev.fltClear, Word.toNat_mod]
  by_cases h : c = 0x18 ∧ v.toNat.testBit Hbm.F_DBE = true
  · refine Eq.trans (Dev.when_of_eq_true ?_) (if_pos h).symm
    rw [h.1, h.2]
    rfl
  · refine Eq.trans (Dev.when_of_eq_false ?_) (if_neg h).symm
    rw [Bool.and_eq_false_iff, beq_eq_false_iff_ne, ← Bool.not_eq_true]
    exact Classical.not_and_iff_not_or_not.1 h

/-- A write of a bad shape to a Block register is discarded with BAD_ACCESS. -/
theorem Dev.misshapen_block {d : Dev} {r c i o : Nat} (ht : d.takes r c i = true) (ho : o ≠ 0x0C)
    (hc : ¬ (c = 4 ∧ i ≠ 0 ∧ 0x100 ≤ o)) (ha : aoHeld c o = false) :
    d.misshapen r c i o = d.badAccess (canon c i).1 (canon c i).2 := by
  rw [Dev.misshapen, if_neg ho, if_neg hc, ha, if_neg Bool.false_ne_true, Dev.busW_takes _ _ _ _ _ ht]

/-- The same at CTRL outside a soft reset. -/
theorem Dev.misshapen_ctrl {d : Dev} {r c i : Nat} (ht : d.takes r c i = true) (hr : d.resetting c i = false) :
    d.misshapen r c i 0x0C = d.badAccess (canon c i).1 (canon c i).2 := by
  rw [Dev.misshapen, if_pos rfl, Dev.busCtrl, hr, if_neg (by exact Bool.false_ne_true), Dev.busW_takes _ _ _ _ _ ht]

/-- The same at a claim register of the requester's partition. -/
theorem Dev.misshapen_claim {d : Dev} {r i o n : Nat} {k : Res} (hi : i ≠ 0) (ho : 0x100 ≤ o)
    (hk : claimOffset i o = some (k, n)) (hn : n < k.count) (hv : isVf r = false) (hl : d.reqLive r = true)
    (hb : d.boot.aoUp = true) (hp : d.claimPart k n = some (d.reqPart r)) :
    d.misshapen r 4 i o = d.badAccess 4 i := by
  rw [Dev.misshapen, if_neg (by omega), if_pos ⟨rfl, hi, ho⟩, hk]
  simp only
  rw [Dev.busClaim, if_neg, hp]
  · exact if_pos rfl
  · rw [hv, hl, hb]
    simpa using hn

/-! ### A Block register (R6, R29) -/

theorem Dev.blockReg_of_none {m : FrameStore} {d : Dev} {r c i o : Nat} (v : Nat) (h : pageHits c i o = []) :
    Dev.blockReg m d r c i o v = d := by
  rw [Dev.blockReg, h]
  exact if_pos rfl

/-- What a write of a register may not do as things stand. -/
def Dev.refuses (d : Dev) (c i o v : Nat) : Bool := d.lockedReg c i o || d.lockedChange c i o v || d.badValue c i o v

theorem Dev.blockReg_of_refused {m : FrameStore} {d : Dev} {r c i o v : Nat} {h : Fld × Nat × Nat} {hs : List (Fld × Nat × Nat)}
    (hp : pageHits c i o = h :: hs) (hr : d.refuses c i o v = true) : Dev.blockReg m d r c i o v = d.badAccess c i := by
  rw [Dev.blockReg, hp, if_neg (by exact Bool.false_ne_true)]
  exact if_pos hr

theorem Dev.blockReg_of_taken {m : FrameStore} {d : Dev} {r c i o v : Nat} {h : Fld × Nat × Nat} {hs : List (Fld × Nat × Nat)}
    (hp : pageHits c i o = h :: hs) (hr : d.refuses c i o v = false) (h8 : c ≠ 0x18) (hF : c ≠ 0x1F) :
    Dev.blockReg m d r c i o v = (d.special m r c i o v).getD (d.plainWord r c i o v) := by
  rw [Dev.blockReg, hp, if_neg (by exact Bool.false_ne_true)]
  exact (if_neg (ne_true_of_eq_false hr)).trans ((if_neg hF).trans (if_neg h8))

/-- A register of one plain field takes its bits. -/
theorem Dev.plainWord_one {d : Dev} {r c i o : Nat} (v : Nat) {h : Fld × Nat × Nat} (hp : pageHits c i o = [h])
    (ha : h.1.acc = .rw) (hw : h.1.words = 1) : d.plainWord r c i o v = d.wr h.1 i (bits v h.1.lo h.1.w) h.2.1 := by
  rw [Dev.plainWord, hp, List.foldl_cons, List.foldl_nil, Dev.fieldWrite, ha, hw]
  rfl

/-! ### Reads (R28, R29, R33) -/

theorem exec_lowWordRead (s : State) (r : Req) (a n : Nat) :
    exec (.lowWordRead r ⟨a, n⟩) s = .next (s.withDev (s.dev.busRead r.num a n)) := rfl

theorem Dev.reply_of_live {d : Dev} {r : Nat} (k : Dev → Dev × Nat) (hb : d.boot.aoUp = true) (hl : d.reqLive r = true) :
    d.reply r k = (k d).1.emit (.answer r (k d).2) := by
  rw [Dev.reply, hb, hl]
  rfl

theorem Dev.reply_of_dead {d : Dev} {r : Nat} (k : Dev → Dev × Nat) (hb : d.boot.aoUp = true) (hl : d.reqLive r = false) :
    d.reply r k = d.emit (.unsupported r) := by
  rw [Dev.reply, hb, hl]
  rfl

theorem Dev.reply_of_down {d : Dev} {r : Nat} (k : Dev → Dev × Nat) (hb : d.boot.aoUp = false) : d.reply r k = d := by
  rw [Dev.reply, hb]
  rfl

theorem Dev.emit_map_id (r : Nat) (g : Nat → Nat) (x : Dev × Nat) :
    (x.map id g).1.emit (.answer r (x.map id g).2) = x.1.emit (.answer r (g x.2)) := rfl

/-- A read of two words takes the lower one first. -/
theorem Dev.busRead_two {d : Dev} {r a : Nat} {x y : Dev × Nat} (hb : d.boot.aoUp = true) (hl : d.reqLive r = true)
    (hx : x = d.addrRead r a) (hy : y = x.1.addrRead r (a + 4)) :
    d.busRead r a 2 = y.1.emit (.answer r (x.2 + y.2 * 2 ^ 32)) := by
  rw [Dev.busRead, if_neg (by decide), if_pos rfl, Dev.reply_of_live _ hb hl, ← hx]
  dsimp only
  rw [← hy]
  exact Dev.emit_map_id r (fun hi => x.2 + hi * 2 ^ 32) y

theorem Dev.addrRead_some {d : Dev} {r a c i o : Nat} {ro : Bool} (h : d.target r a = some (c, i, o, ro)) :
    d.addrRead r a = d.wordRead r c i (o / 4 * 4) := by
  rw [Dev.addrRead, h]

theorem Dev.wordRead_pageId {d : Dev} {r c i : Nat} (hi : d.implemented c i = true) (hr : d.readable r c i = true) :
    d.wordRead r c i 0 = (d, pageId c i) := by
  have hseen : d.claimSeen r i 0 = true := by
    unfold Dev.claimSeen
    exact if_pos (by decide)
  rw [Dev.wordRead, hi, hr, hseen, Bool.not_true, Bool.and_false, if_neg (by exact Bool.false_ne_true),
    if_pos (.inl (by decide))]
  rfl

/-- A Block register of a page that the requester sees. -/
theorem Dev.wordRead_block {d : Dev} {r c i o : Nat} (hi : d.implemented c i = true) (hr : d.readable r c i = true)
    (ho : 0x30 ≤ o) (hc : c ≠ 4) (ha : aoHeld c o = false) :
    d.wordRead r c i o =
      if d.wedged (islandOf c i) then (d, 0xFFFFFFFF)
      else if d.silent c i then (d, 0)
      else d.blockRead r c i o := by
  rw [Dev.wordRead, hi, hr, beq_eq_false_iff_ne.2 hc, if_neg (by exact Bool.false_ne_true), if_neg (by omega), ha,
    if_neg (by exact Bool.false_ne_true), if_neg (show o ≠ 0x10 by omega), if_neg (show o ≠ 0x10 by omega)]

/-- Settles O22, by the equations of a write and of a read. -/
theorem headerAccess : Obligations.HeaderAccess := by
  unfold Obligations.HeaderAccess
  refine fun s r c i a v => ⟨fun ht => ⟨?_, ?_⟩, fun h ws all => ?_, fun o ro h => ⟨fun hro hi hl ws all => ?_,
    fun hro ht ha => ?_, fun hro ho ht hr => ?_, fun hro hc hi ho k n hk hn hv hl hb hp => ?_⟩,
    fun hb => ⟨fun n hn => ?_, fun hl n => ?_, fun hl => ⟨fun x hx => ⟨?_, fun y hy => ?_⟩, fun ro h hc hi him hr => ?_,
    fun o ro h ho4 ho hc him hr hao => ⟨fun hw => ?_, fun hw hq => ?_, fun hw hq x hx => ?_⟩⟩⟩, fun hb n => ?_⟩
  · rw [exec_evtForce, Dev.busW_takes _ _ _ _ _ ht]
  · rw [exec_evtForce, Dev.busW_takes _ _ _ _ _ ht]
    refine ⟨_, rfl, State.withDev_mem s _, fun b hb hset => ?_⟩
    rw [State.withDev_dev, Dev.done_rd]
    exact hset.elim ((s.dev.evtForce_raised _ _ _).evts _ _ b hb) (s.dev.evtForce_set _ _ _ hb)
  · rw [exec_registerWrite, Dev.busWrite_none _ _ h]
  · rw [exec_registerWrite, Dev.busWrite_some _ _ h, if_pos hro, hi, hl, if_pos (by exact rfl)]
  · subst hro
    refine ⟨fun w ha8 => exec_registerWrite_two v w h ha8, fun ho hao hq => ?_, fun ho => ?_, fun ho => ?_,
      fun ho hc => ?_, fun hao ho hc ws all hbad => ?_⟩
    · subst ho
      rw [exec_registerWrite_one v h ha, Dev.wordWrite_block _ ht (.inl rfl) (fun h => by omega), ← Dev.evtClear_eq v hq,
        Dev.blockWord_evt]
    · subst ho
      rw [exec_registerWrite_one v h ha, (Dev.wordWrite_flt _ ht).1]
      simp only [Dev.fltClear_eq]
    · subst ho
      rw [exec_registerWrite_one v h ha, (Dev.wordWrite_flt _ ht).2]
      simp only [Dev.fltEnWrite, Word.toNat_mod]
    · have hreg : exec (.registerWrite r a [v] true) s =
          .next (s.landed (Dev.blockReg s.mem s.dev r.num (canon c i).1 (canon c i).2 o v.toNat)) := by
        rw [exec_registerWrite_one v h ha, Dev.wordWrite_block _ ht (.inr ho) hc, Dev.blockWord_of_le _ ho]
      refine ⟨hreg, fun hp => ?_, fun x xs hp => ⟨fun hr => ?_, fun hr h8 hF => ⟨fun e he => ?_, fun he hxs hacc hw => ?_⟩⟩⟩
      · rw [hreg, Dev.blockReg_of_none _ hp]
      · rw [hreg, Dev.blockReg_of_refused hp hr, Dev.badAccess]
      · rw [hreg, Dev.blockReg_of_taken hp hr h8 hF, he, Option.getD_some]
      · subst hxs
        rw [hreg, Dev.blockReg_of_taken hp hr h8 hF, he, Option.getD_none, Dev.plainWord_one _ hp hacc hw]
    · rw [exec_registerWrite_misshapen h (by
        obtain hbad | hbad | hbad | ⟨hbad, ha8⟩ := hbad
        · rw [hbad]
          rfl
        · rw [wellShaped, hbad]
          exact Bool.and_false _
        · rw [wellShaped, beq_eq_false_iff_ne.2 (show ws.length ≠ 1 by omega),
            beq_eq_false_iff_ne.2 (show ws.length ≠ 2 by omega)]
          exact Bool.and_false _
        · rw [wellShaped, hbad, beq_eq_false_iff_ne.2 ha8]
          exact Bool.and_false _), Dev.misshapen_block ht ho hc hao, Dev.badAccess]
  · subst hro ho
    rw [exec_registerWrite_misshapen h rfl, Dev.misshapen_ctrl ht hr, Dev.badAccess]
  · subst hro hc
    rw [exec_registerWrite_misshapen h rfl, Dev.misshapen_claim hi ho hk hn hv hl hb hp, Dev.badAccess]
  · rw [exec_lowWordRead, Dev.busRead, if_neg (by omega), if_neg (by omega), Dev.when_of_eq_true hb]
  · rw [exec_lowWordRead, Dev.busRead]
    split
    · rw [Dev.reply_of_dead _ hb hl]
    · split
      · rw [Dev.reply_of_dead _ hb hl]
      · rw [Dev.when_of_eq_true hb]
  · rw [exec_lowWordRead, Dev.busRead, if_pos (by decide), Dev.reply_of_live _ hb hl, hx]
  · rw [exec_lowWordRead, Dev.busRead_two hb hl hx hy]
  · rw [exec_lowWordRead, Dev.busRead, if_pos (by decide), Dev.reply_of_live _ hb hl, Dev.addrRead_some h,
      Dev.wordRead_pageId him hr, pageId]
  rotate_right
  · rw [exec_lowWordRead, Dev.busRead]
    split
    · rw [Dev.reply_of_down _ hb]
    · split
      · rw [Dev.reply_of_down _ hb]
      · rw [Dev.when_of_eq_false hb]
  all_goals
    rw [exec_lowWordRead, Dev.busRead, if_pos (by decide), Dev.reply_of_live _ hb hl, Dev.addrRead_some h,
      show o / 4 * 4 = o by omega, Dev.wordRead_block him hr ho hc hao, hw]
  · rw [if_pos rfl]
  · rw [if_neg (by exact Bool.false_ne_true), hq, if_pos rfl]
  · rw [if_neg (by exact Bool.false_ne_true), hq, if_neg (by exact Bool.false_ne_true), hx]

/-! ### CTRL: EN (R37, R65) -/

theorem canon_of_ne {c : Nat} (i : Nat) (h : c ≠ 0x09) : canon c i = (c, i) := if_neg h

theorem exec_en (s : State) (r : Req) (c i : Nat) (on : Bool) :
    exec (.en r c i on) s = .next (s.withDev (s.dev.busCtrl r.num c i (fun d => d.setEn c i on))) := rfl

theorem exec_srst (s : State) (r : Req) (c i : Nat) :
    exec (.srst r c i) s = .next (s.landed (s.dev.busCtrl r.num c i (fun d => d.srst s.mem c i))) := rfl

theorem exec_freeze (s : State) (r : Req) (c i : Nat) (on : Bool) :
    exec (.freeze r c i on) s =
      .next (s.withDev (s.dev.busCtrl r.num c i (fun d => d.setFreeze (canon c i).1 (canon c i).2 on))) := rfl

theorem Dev.busCtrl_takes {d : Dev} {r c i : Nat} (k : Dev → Dev) (ht : d.takes r c i = true)
    (hr : d.resetting c i = false) : d.busCtrl r c i k = k d := by
  rw [Dev.busCtrl, hr]
  exact (if_neg Bool.false_ne_true).trans (Dev.busW_takes _ _ _ _ _ ht)

/-- While its page is in soft reset a write of CTRL is discarded with BAD_ACCESS (R29). -/
theorem Dev.busCtrl_resetting {d : Dev} {r c i : Nat} (k : Dev → Dev) (hr : d.resetting c i = true)
    (hi : d.implemented c i = true) (hl : d.reqLive r = true) (hw : d.writable r c i = true)
    (hv : isVf r = false ∨ d.vfReaches r c i true = true) (hg : d.wedged (islandOf c i) = false)
    (hq : d.silent c i = false) : d.busCtrl r c i k = d.evt (canon c i).1 (canon c i).2 evtBAD_ACCESS := by
  have hvf : (!isVf r || d.vfReaches r c i true) = true := by
    rw [Bool.or_eq_true, Bool.not_eq_true']
    exact hv
  rw [Dev.busCtrl, hr, hi, hl, hw, hvf, hg, hq, Dev.badAccess]
  exact if_pos rfl

theorem Dev.enable_of_on {d : Dev} {c i : Nat} (h : (alwaysOn c || d.enabled (canon c i).1 (canon c i).2) = true) :
    d.enable c i = d := if_pos h

theorem Dev.enable_of_off {d : Dev} {c i : Nat} (ha : alwaysOn c = false) (h : d.enabled (canon c i).1 (canon c i).2 = false) :
    d.enable c i =
      if d.mayEnable (canon c i).1 (canon c i).2 then
        (d.wr (Hdr.EN (canon c i).1) (canon c i).2 1).onEnable (canon c i).1 (canon c i).2
      else d.evt (canon c i).1 (canon c i).2 evtENABLE_REFUSED := by
  rw [Dev.enable]
  exact if_neg (by rw [ha, h]; exact Bool.false_ne_true)

theorem Dev.stopBlock_of_off {d : Dev} {c i : Nat} (h : d.enabled (canon c i).1 (canon c i).2 = false) :
    d.stopBlock c i = d := by
  rw [Dev.stopBlock]
  exact if_pos (by rw [h, Bool.not_false, Bool.or_true])

theorem Dev.stopBlock_of_on {d : Dev} {c i : Nat} (ha : alwaysOn c = false) (h : d.enabled (canon c i).1 (canon c i).2 = true) :
    d.stopBlock c i = (d.wr (Hdr.EN (canon c i).1) (canon c i).2 0).onDisable (canon c i).1 (canon c i).2
      (if (canon c i).1 = 0x10 then d.posWord (canon c i).2 else 0) := by
  rw [Dev.stopBlock]
  exact if_neg (by rw [ha, h]; exact Bool.false_ne_true)

/-- Pages whose blocks do nothing as EN rises. -/
theorem Dev.onEnable_plain (d : Dev) {c i : Nat} (h : c = 0x0F ∨ c = 0x12 ∧ i < 32 ∨ c = 0x17 ∨ c = 0x19 ∨ c = 0x1B) :
    d.onEnable c i = d := by
  obtain rfl | ⟨rfl, hi⟩ | rfl | rfl | rfl := h
  case inr.inl => exact if_pos hi
  all_goals rfl

/-- Pages whose blocks do nothing as EN falls. -/
theorem Dev.onDisable_plain (d : Dev) {c : Nat} (i : Nat) (w : Int)
    (h : c = 0x0F ∨ c = 0x15 ∨ c = 0x17 ∨ c = 0x19 ∨ c = 0x1A ∨ c = 0x1B) : d.onDisable c i w = d := by
  obtain rfl | rfl | rfl | rfl | rfl | rfl := h <;> rfl

theorem Dev.setEn_alwaysOn {d : Dev} {c : Nat} (i : Nat) (on : Bool) (h : alwaysOn c = true) : d.setEn c i on = d := if_pos h

theorem Dev.setEn_false {d : Dev} {c : Nat} (i : Nat) (h : alwaysOn c = false) : d.setEn c i false = d.disable c i :=
  (if_neg (ne_true_of_eq_false h)).trans (if_pos rfl)

theorem Dev.setEn_true {d : Dev} {c : Nat} (i : Nat) (h : alwaysOn c = false) (hc : c ≠ 0x18 ∧ c ≠ 0x0D) :
    d.setEn c i true = d.enable c i :=
  (if_neg (ne_true_of_eq_false h)).trans ((if_neg (by exact Bool.false_ne_true)).trans (if_neg (by omega)))

/-- A stack and an engine start under the watch of the guarantee (R491). -/
theorem Dev.setEn_watched {d : Dev} {c : Nat} (i : Nat) (hc : c = 0x18 ∨ c = 0x0D) :
    d.setEn c i true = d.guard (fun d => d.enable c i) := by
  have h : alwaysOn c = false := by rcases hc with rfl | rfl <;> rfl
  exact (if_neg (ne_true_of_eq_false h)).trans ((if_neg (by exact Bool.false_ne_true)).trans (if_pos hc))

theorem Dev.guard_congr {d : Dev} {k k' : Dev → Dev} (h : k d = k' d) : d.guard k = d.guard k' := by
  simp only [Dev.guard, h]

/-- A change that leaves the device alone does so under the watch of the guarantee. -/
theorem Dev.guard_of_eq {d : Dev} {k : Dev → Dev} (h : k d = d) : d.guard k = d := by
  rw [Dev.guard, h]
  exact if_neg (by cases d.guaranteeOk <;> exact Bool.false_ne_true)

theorem Dev.disable_claimed {d : Dev} {i : Nat} (he : d.enabled 0x19 i = true) (h : (d.claim .hbm i).held = true) :
    d.disable 0x19 i = d.evt 0x19 i evtBAD_ACCESS := by
  rw [Dev.disable, if_pos ⟨rfl, h⟩, if_pos he, Dev.badAccess]

theorem Dev.disable_of_off {d : Dev} {c i : Nat} (h : d.enabled (canon c i).1 (canon c i).2 = false) : d.disable c i = d := by
  rw [Dev.disable]
  split
  · next hc =>
    rw [canon_of_ne i (by omega)] at h
    exact if_neg (ne_true_of_eq_false h)
  · exact Dev.stopBlock_of_off h

theorem Dev.disable_free {d : Dev} {c i : Nat} (h : c = 0x19 → (d.claim .hbm i).held = false) :
    d.disable c i = d.stopBlock c i :=
  if_neg (fun ⟨hc, hh⟩ => ne_true_of_eq_false (h hc) hh)

/-! ### Soft reset (R37, R38) -/

/-- The pages whose soft reset keeps nothing and takes no value from the boot. -/
def plainPages : List Nat := [0x13, 0x15, 0x1A, 0x1B, 0x1D, 0x1E]

theorem plainPages_cases {P : Nat → Prop} {c : Nat} (h : c ∈ plainPages) (h13 : P 0x13) (h15 : P 0x15) (h1A : P 0x1A)
    (h1B : P 0x1B) (h1D : P 0x1D) (h1E : P 0x1E) : P c := by
  simp only [plainPages, List.mem_cons, List.not_mem_nil, or_false] at h
  rcases h with rfl | rfl | rfl | rfl | rfl | rfl <;> assumption

theorem softKeep_plain {c : Nat} (i : Nat) (h : c ∈ plainPages) : softKeep c i = [] :=
  plainPages_cases (P := fun c => softKeep c i = []) h rfl rfl rfl rfl rfl rfl

theorem Dev.bootValues_plain (d : Dev) {c : Nat} (i : Nat) (h : c ∈ plainPages) : d.bootValues c i = d :=
  plainPages_cases (P := fun c => d.bootValues c i = d) h rfl rfl rfl rfl rfl rfl

theorem Dev.keeping_nil (d : Dev) (i : Nat) (k : Dev → Dev) : d.keeping [] i k = k d := rfl

/-- The device as the block of a page has stopped and forgotten what it holds below its registers. -/
def Dev.blockEmptied (m : FrameStore) (d : Dev) (c i : Nat) : Dev :=
  Dev.blockHidden m (d.stopBlock c i) (canon c i).1 (canon c i).2

/-- The registers of a page as a soft reset leaves them but for CTRL.EN and SRST_BUSY. -/
def Dev.softRegs (m : FrameStore) (d : Dev) (c i : Nat) : Dev :=
  let p := canon c i
  (((d.blockEmptied m c i).keeping (softKeep p.1 p.2) p.2 (fun d => d.dropPage c i)).bootValues p.1 p.2).when (p.1 == 0x11)
    (fun e => e.dinAgain p.2 ((d.blockEmptied m c i).rd Din.DIN_CFG_INV p.2))

theorem Dev.softReset_eq (m : FrameStore) (d : Dev) (c i : Nat) :
    d.softReset m c i =
      ((d.softRegs m c i).wr (Hdr.EN (canon c i).1) (canon c i).2 0).wr (Hdr.SRST_BUSY (canon c i).1) (canon c i).2 1 := rfl

theorem Dev.softRegs_plain {m : FrameStore} {d : Dev} {c i : Nat} (h : c ∈ plainPages) :
    d.softRegs m c i = (d.blockEmptied m c i).dropPage c i := by
  have hc : c ≠ 0x09 ∧ c ≠ 0x11 := plainPages_cases h (P := fun c => c ≠ 0x09 ∧ c ≠ 0x11)
    (by decide) (by decide) (by decide) (by decide) (by decide) (by decide)
  rw [Dev.softRegs, canon_of_ne i hc.1]
  dsimp only
  rw [Dev.when_of_eq_false (beq_eq_false_iff_ne.2 hc.2), softKeep_plain i h, Dev.keeping_nil, Dev.bootValues_plain _ i h]

/-- A register field of a page reads its reset value once the page is dropped. -/
theorem Dev.rd_dropPage {d : Dev} {c i : Nat} (hc : c ≠ 0x09) {f : Fld} {k j : Nat} (h : Machine.resetKey c i (f.key k j) = true) :
    (d.dropPage c i).rd f k j = f.rst := by
  have hnone : mfind (d.dropPage c i).regs (f.key k j) = none := by
    refine mfind_eq_none fun x hx hk => ?_
    rw [Dev.dropPage, canon_of_ne i hc] at hx
    have hkeep := (List.mem_filter.1 hx).2
    rw [hk, h] at hkeep
    exact Bool.false_ne_true hkeep
  rw [Dev.rd, mget, hnone]

/-- A reset value written leaves every field that stands at that place at its reset value. -/
theorem Dev.rd_wr_default {d : Dev} {f g : Fld} {i j k v : Nat} (hk : f.key i j = g.key k 0) (hv : v % 2 ^ g.w = g.rst) :
    (d.wr g k v).rd f i j = f.rst := by
  rw [Dev.rd, Dev.wr, hk, mset, if_pos hv, mget, mfind_mdrop_self]

theorem Dev.softReset_en (m : FrameStore) (d : Dev) (c i : Nat) :
    (d.softReset m c i).rd (Hdr.EN (canon c i).1) (canon c i).2 = 0 := by
  rw [Dev.softReset_eq, Dev.rd_wr_off, Dev.rd_wr]
  · exact Nat.zero_mod _
  · simp only [Hdr.EN, Hdr.SRST_BUSY]
    omega

theorem Dev.softReset_resetting (m : FrameStore) (d : Dev) (c i : Nat) : (d.softReset m c i).resetting c i = true := by
  rw [Dev.softReset_eq, Dev.resetting, Dev.is_eq, Dev.rd_wr]
  rfl

theorem Dev.softReset_fields {m : FrameStore} {d : Dev} {c i : Nat} (h : c ∈ plainPages) {f : Fld} {j : Nat}
    (hk : Machine.resetKey c i (f.key i j) = true) (hb : f.key i j ≠ (Hdr.SRST_BUSY c).key i 0) : (d.softReset m c i).rd f i j =
      f.rst := by
  have hc : c ≠ 0x09 := plainPages_cases h (P := fun c => c ≠ 0x09)
    (by decide) (by decide) (by decide) (by decide) (by decide) (by decide)
  rw [Dev.softReset_eq, canon_of_ne i hc, Dev.rd_wr_ne _ _ _ _ _ _ _ _ hb]
  by_cases he : f.key i j = (Hdr.EN c).key i 0
  · exact Dev.rd_wr_default he rfl
  · rw [Dev.rd_wr_ne _ _ _ _ _ _ _ _ he, Dev.softRegs_plain h, Dev.rd_dropPage hc hk]

theorem exec_srst_taken {s : State} {r : Req} {c i : Nat} (ht : s.dev.takes r.num c i = true)
    (hr : s.dev.resetting c i = false) (ha : alwaysOn c = false) :
    exec (.srst r c i) s = .next (s.landed (s.dev.softReset s.mem c i)) := by
  rw [exec_srst, Dev.busCtrl_takes _ ht hr, Dev.srst, if_neg (ne_true_of_eq_false ha)]

theorem exec_srstComplete (s : State) (c i : Nat) :
    exec (.srstComplete c i) s = .next (s.withDev (s.dev.when (s.dev.implemented c i && !s.dev.islBit Isl.RESET (islandOf c i))
      (fun d => d.srstDone c i))) := rfl

/-! ### FREEZE (R37, R39) -/

/-- What reading a field leaves of the device: all but the free values drawn. -/
theorem Dev.fieldNow_keeps {β : Type} (q : Dev → β) (hq : ∀ d : Dev, q d.freeUsed = q d) (d : Dev) (r c i : Nat) (f : Fld)
    (j : Nat) : q (d.fieldNow r c i f j).1 = q d := by
  have hinfo : q (d.tblInfo c i).1 = q d := by
    rw [Dev.tblInfo]
    split
    · rfl
    · exact hq d
  have hbase : q (d.tblBaseRead c i).1 = q d := by
    unfold Dev.tblBaseRead
    dsimp only
    split
    · rfl
    · exact hq d
  unfold Dev.fieldNow
  dsimp only
  split
  · rfl
  split
  · rfl
  split
  · exact hinfo
  split
  · exact hinfo
  split
  · exact hbase
  split
  · split
    · rfl
    · exact hq d
  split
  · split
    · exact hq d
    · rfl
  split
  case h_1 => split <;> rfl
  all_goals rfl

/-- FREEZE takes a copy of one field. -/
def Dev.freezeField (c i : Nat) (d : Dev) (x : Fld × Nat) : Dev :=
  { (d.fieldNow 0 c i x.1 x.2).1 with
    frozen := mput (d.fieldNow 0 c i x.1 x.2).1.frozen (x.1.key i x.2) (d.fieldNow 0 c i x.1 x.2).2 }

theorem Dev.freezeOn_eq (d : Dev) (c i : Nat) :
    d.freezeOn c i = (frozenFields c i).foldl (Dev.freezeField c i) (d.wr (Hdr.FREEZE c) i 1) := rfl

theorem Dev.freezeField_regs (c i : Nat) (d : Dev) (x : Fld × Nat) : (Dev.freezeField c i d x).regs = d.regs :=
  Dev.fieldNow_keeps Dev.regs (fun _ => rfl) d 0 c i x.1 x.2

/-- A field that has a copy has one. -/
def Dev.hasCopy (d : Dev) (i : Nat) (x : Fld × Nat) : Prop := ∃ v, mfind d.frozen (x.1.key i x.2) = some v

theorem Dev.freezeField_hasCopy (c i : Nat) (d : Dev) (x : Fld × Nat) : (Dev.freezeField c i d x).hasCopy i x :=
  ⟨_, mfind_mput_self _ _ _⟩

theorem Dev.freezeField_keeps_copy (c i : Nat) {d : Dev} (x : Fld × Nat) {y : Fld × Nat} (h : d.hasCopy i y) :
    (Dev.freezeField c i d x).hasCopy i y := by
  by_cases hk : y.1.key i y.2 = x.1.key i x.2
  · obtain ⟨v, hv⟩ := Dev.freezeField_hasCopy c i d x
    exact ⟨v, by rw [hk, hv]⟩
  · obtain ⟨v, hv⟩ := h
    refine ⟨v, ?_⟩
    rw [Dev.freezeField]
    exact (mfind_mput_ne _ _ hk).trans (by rw [Dev.fieldNow_keeps Dev.frozen (fun _ => rfl), hv])

theorem Dev.foldl_freezeField_hasCopy (c i : Nat) (l : List (Fld × Nat)) (d : Dev) {y : Fld × Nat} (h : y ∈ l) :
    (l.foldl (Dev.freezeField c i) d).hasCopy i y := by
  induction l generalizing d with
  | nil => exact absurd h List.not_mem_nil
  | cons x l ih =>
    rcases List.mem_cons.1 h with rfl | h
    · exact foldl_induct (fun d => d.hasCopy i y) _ l (fun d hd x _ => Dev.freezeField_keeps_copy c i x hd)
        (Dev.freezeField_hasCopy c i d y)
    · exact ih _ h

theorem Dev.freezeOn_is (d : Dev) (c i : Nat) : (d.freezeOn c i).is (Hdr.FREEZE c) i = true := by
  rw [Dev.is_eq, Dev.freezeOn_eq, Dev.rd_of_regs (foldl_keeps Dev.regs (Dev.freezeField c i) (frozenFields c i)
    (fun d x _ => Dev.freezeField_regs c i d x) (d.wr (Hdr.FREEZE c) i 1)), Dev.rd_wr]
  rfl

theorem Dev.setFreeze_of_none {d : Dev} {c i : Nat} (on : Bool) (h : hasFreeze c i = false ∨ alwaysOn c = true) :
    d.setFreeze c i on = d :=
  if_pos (by rcases h with h | h <;> rw [h] <;> simp)

theorem Dev.setFreeze_same {d : Dev} {c i : Nat} {on : Bool} (h : d.is (Hdr.FREEZE c) i = on) : d.setFreeze c i on = d :=
  if_pos (by rw [h]; simp)

theorem Dev.setFreeze_change {d : Dev} {c i : Nat} {on : Bool} (hf : hasFreeze c i = true) (ha : alwaysOn c = false)
    (h : d.is (Hdr.FREEZE c) i = !on) : d.setFreeze c i on = if on then d.freezeOn c i else d.freezeOff c i :=
  if_neg (by rw [hf, ha, h]; cases on <;> decide)

theorem Dev.freezeOff_eq (d : Dev) (c i : Nat) :
    d.freezeOff c i = { d.wr (Hdr.FREEZE c) i 0 with
      frozen := d.frozen.filter (fun e => e.1 / (32 * 4096) != c * 64 + i) } := rfl

/-- Settles O23, by the equations of EN, soft reset and FREEZE. -/
theorem pageControl : Obligations.PageControl := by
  unfold Obligations.PageControl
  refine ⟨fun s r c i => ⟨fun hr hi hl hw hv hg hq on x hx => ?_, fun ht hr => ⟨fun ha on => ?_, fun ha he => ?_,
    fun ha he h8 hD => ⟨fun hm => ?_, fun hm => ⟨?_, fun hp => ?_⟩⟩, fun hc he => ⟨fun hm => ?_, fun hm => ?_⟩,
    fun hc he hh => ?_, fun he => ?_, fun ha he hh => ⟨?_, fun hp => ?_⟩⟩⟩,
    fun s r c i ht hr => ⟨fun ha => ?_, fun ha => ⟨exec_srst_taken ht hr ha, _, exec_srst_taken ht hr ha, ?_, ?_,
      fun hc f j hk hb => ?_⟩, fun hb => ?_, fun hb => ?_⟩,
    fun s r c i ht hr => ⟨fun hn on => ?_, fun hf ha hz => ?_, fun on he => ?_, fun hf ha hz => ?_⟩⟩
  · have hgate := fun k => Dev.busCtrl_resetting k hr hi hl hw hv hg hq
    simp only [List.mem_cons, List.not_mem_nil, or_false] at hx
    rw [exec_srst, hgate]
    refine ⟨?_, rfl⟩
    rcases hx with rfl | rfl
    · rw [exec_en, hgate]
    · rw [exec_freeze, hgate]
  · rw [exec_en, Dev.busCtrl_takes _ ht hr, Dev.setEn_alwaysOn i on ha]
  · rw [exec_en, Dev.busCtrl_takes _ ht hr]
    have hsame : s.dev.enable c i = s.dev := Dev.enable_of_on (by rw [he, Bool.or_true])
    by_cases hc : c = 0x18 ∨ c = 0x0D
    · rw [Dev.setEn_watched i hc, Dev.guard_of_eq hsame]
    · rw [Dev.setEn_true i ha (not_or.1 hc), hsame]
  · rw [exec_en, Dev.busCtrl_takes _ ht hr, Dev.setEn_true i ha ⟨h8, hD⟩, Dev.enable_of_off ha he,
      if_neg (ne_true_of_eq_false hm)]
  · rw [exec_en, Dev.busCtrl_takes _ ht hr, Dev.setEn_true i ha ⟨h8, hD⟩, Dev.enable_of_off ha he, if_pos hm]
  · rw [exec_en, Dev.busCtrl_takes _ ht hr, Dev.setEn_true i ha ⟨h8, hD⟩, Dev.enable_of_off ha he, if_pos hm,
      Dev.onEnable_plain _ hp]
  · have hcanon := canon_of_ne i (show c ≠ 0x09 by omega)
    have ha : alwaysOn c = false := by rcases hc with rfl | rfl <;> rfl
    have hoff := Dev.enable_of_off ha (by rw [hcanon]; exact he)
    rw [exec_en, Dev.busCtrl_takes _ ht hr, Dev.setEn_watched i hc, Dev.guard_congr]
    rw [hoff, hcanon, if_neg (ne_true_of_eq_false hm)]
  · have hcanon := canon_of_ne i (show c ≠ 0x09 by omega)
    have ha : alwaysOn c = false := by rcases hc with rfl | rfl <;> rfl
    have hoff := Dev.enable_of_off ha (by rw [hcanon]; exact he)
    rw [exec_en, Dev.busCtrl_takes _ ht hr, Dev.setEn_watched i hc, Dev.guard_congr]
    rw [hoff, hcanon, if_pos hm]
  · subst hc
    rw [exec_en, Dev.busCtrl_takes _ ht hr, Dev.setEn_false i rfl, Dev.disable_claimed he hh]
  · rw [exec_en, Dev.busCtrl_takes _ ht hr]
    cases ha : alwaysOn c with
    | true => rw [Dev.setEn_alwaysOn i false ha]
    | false => rw [Dev.setEn_false i ha, Dev.disable_of_off he]
  · rw [exec_en, Dev.busCtrl_takes _ ht hr, Dev.setEn_false i ha, Dev.disable_free hh, Dev.stopBlock_of_on ha he]
  · rw [exec_en, Dev.busCtrl_takes _ ht hr, Dev.setEn_false i ha, Dev.disable_free hh, Dev.stopBlock_of_on ha he,
      Dev.onDisable_plain _ _ _ hp]
  · rw [exec_srst, Dev.busCtrl_takes _ ht hr, Dev.srst, if_pos ha]
  · rw [State.landed_dev, Dev.done_rd, Dev.softReset_en]
  · rw [State.landed_dev]
    exact Dev.softReset_resetting s.mem s.dev c i
  · rw [State.landed_dev, Dev.done_rd, Dev.softReset_fields hc hk hb]
  · rw [exec_srstComplete, Dev.when_of_eq_true, Dev.srstDone]
    rw [((s.dev.takes_iff _ _ _).1 ht).1, hb]
    rfl
  · rw [exec_srstComplete, Dev.when_of_eq_false]
    rw [hb, Bool.not_true, Bool.and_false]
  · rw [exec_freeze, Dev.busCtrl_takes _ ht hr, Dev.setFreeze_of_none on hn]
  · rw [exec_freeze, Dev.busCtrl_takes _ ht hr, Dev.setFreeze_change hf ha hz, if_pos rfl]
    refine ⟨_, rfl, State.withDev_mem s _, ?_, fun x hx => ?_⟩
    · rw [State.withDev_dev]
      exact Dev.freezeOn_is s.dev _ _
    · obtain ⟨v, hv⟩ := Dev.foldl_freezeField_hasCopy _ _ _ (s.dev.wr (Hdr.FREEZE (canon c i).1) (canon c i).2 1) hx
      refine ⟨v, hv, fun q => ?_⟩
      rw [State.withDev_dev, Dev.freezeOn_eq, Dev.fieldRead, Dev.done_frozen, hv]
  · rw [exec_freeze, Dev.busCtrl_takes _ ht hr, Dev.setFreeze_same he]
  · rw [exec_freeze, Dev.busCtrl_takes _ ht hr, Dev.setFreeze_change hf ha hz, if_neg (by exact Bool.false_ne_true),
      Dev.freezeOff_eq]

end Sys2Proof.Machine
end

