-- ==== Sys2Proof/Proofs/Islands.lean ====
section
/-!
PROOFS. Islands (R24, R49–R52, R516): wedges, watchdogs and ACCESS_STAT, gating, power and reset; from these the statements O25 and
O26.
-/

open Sys2Proof

namespace Sys2Proof.Machine

/-! ### The bit of an island -/

theorem Dev.islBit_setIslBit (d : Dev) (f : Fld) (n : Nat) (b : Bool) (hw : f.w = 32) :
    (d.setIslBit f n b).islBit f n = b := by
  have hn : n % 32 < 32 := Nat.mod_lt _ (by decide)
  rw [Dev.setIslBit, Dev.islBit, Dev.rd_wr, hw, Nat.testBit_mod_two_pow]
  cases b with
  | true => simp [hn, Nat.testBit_or, Nat.testBit_two_pow_self]
  | false =>
    have hm : (2 ^ 32 - 1 - 2 ^ (n % 32)).testBit (n % 32) = false := by
      rw [show 2 ^ 32 - 1 - 2 ^ (n % 32) = 2 ^ 32 - (2 ^ (n % 32) + 1) by omega,
        Nat.testBit_two_pow_sub_succ (Nat.pow_lt_pow_right (by decide) hn), Nat.testBit_two_pow_self]
      simp
    rw [if_neg (by exact Bool.false_ne_true), Nat.testBit_and, hm, Bool.and_false, Bool.and_false]

/-- A write of another field leaves the bit of an island. -/
theorem Dev.islBit_wr_off (d : Dev) (f g : Fld) (i v j n : Nat) (h : g.key 0 (n / 32) ≠ f.key i j) :
    (d.wr f i v j).islBit g n = d.islBit g n := by
  rw [Dev.islBit, Dev.islBit, Dev.rd_wr_ne _ _ _ _ _ _ _ _ h]

theorem Dev.islBit_setIslBit_off (d : Dev) (f g : Fld) (n : Nat) (b : Bool) (h : g.key 0 (n / 32) ≠ f.key 0 (n / 32)) :
    (d.setIslBit f n b).islBit g n = d.islBit g n :=
  Dev.islBit_wr_off _ _ _ _ _ _ _ h

theorem Dev.done_islBit (d : Dev) (f : Fld) (n : Nat) : d.done.islBit f n = d.islBit f n := rfl

theorem islandKnown_le {n : Nat} (h : islandKnown n = true) : n ≤ 191 := by
  simp only [islandKnown, Bool.or_eq_true, Bool.and_eq_true, decide_eq_true_eq] at h
  omega

theorem islandKnown_of_gateable {n : Nat} (h : islandGateable n = true) : islandKnown n = true :=
  (Bool.and_eq_true_iff.1 h).1

theorem Dev.when_not (d : Dev) (b : Bool) (k : Dev → Dev) : d.when (!b) k = if b then d else k d := by
  cases b <;> rfl

/-! ### Wedges (R24, R49) -/

theorem Dev.wedge_of_not {m : FrameStore} {d : Dev} {n : Nat} (h : (!islandKnown n || n == 0 || d.wedged n) = true) :
    d.wedge m n = d := if_pos h

/-- The island shows in WEDGE_MAP. -/
def Dev.wedgeShown (d : Dev) (n : Nat) : Dev := (d.setIslBit AO.WEDGE_MAP_ISL n true).wr AO.ACCESS_STAT_WEDGE 0 1

theorem Dev.wedge_of_low {m : FrameStore} {d : Dev} {n : Nat} (h0 : 0 < n) (hn : n < 48) (hk : islandKnown n = true)
    (hw : d.wedged n = false) : d.wedge m n = d.wedgeShown n := by
  have hnot : ¬ (!islandKnown n || n == 0 || d.wedged n) = true := by
    rw [hk, hw, beq_eq_false_iff_ne.2 (by omega)]
    decide
  rw [Dev.wedge, if_neg hnot]
  exact (if_neg (by omega)).trans (if_neg (by omega))

theorem Dev.wedgeShown_wedged (d : Dev) (n : Nat) : (d.wedgeShown n).wedged n = true := by
  rw [Dev.wedgeShown, Dev.wedged, Dev.islBit_wr_off, Dev.islBit_setIslBit _ _ _ _ rfl]
  simp only [Fld.key, AO.WEDGE_MAP_ISL, AO.ACCESS_STAT_WEDGE]
  omega

/-- Showing a wedge leaves every FLT register. -/
theorem Dev.wedgeShown_flt (d : Dev) {n : Nat} (hn : n < 48) (c i : Nat) :
    (d.wedgeShown n).rd (Hdr.FLT c) i = d.rd (Hdr.FLT c) i := by
  rw [Dev.wedgeShown, Dev.setIslBit, Dev.rd_wr_ne _ _ _ _ _ _ _ _, Dev.rd_wr_ne _ _ _ _ _ _ _ _]
  all_goals
    simp only [Fld.key, AO.WEDGE_MAP_ISL, AO.ACCESS_STAT_WEDGE, Hdr.FLT]
    omega

/-- A wedge of an island below 48 has no effect beside its record: the island is wedged, and every FLT register is as it was. -/
theorem Dev.wedge_low {m : FrameStore} {d : Dev} {n : Nat} (h0 : 0 < n) (hn : n < 48) (hk : islandKnown n = true) :
    (d.wedge m n).wedged n = true ∧ ∀ c i, (d.wedge m n).rd (Hdr.FLT c) i = d.rd (Hdr.FLT c) i := by
  cases hw : d.wedged n with
  | true =>
    rw [Dev.wedge_of_not (by rw [hw, Bool.or_true])]
    exact ⟨hw, fun _ _ => rfl⟩
  | false =>
    rw [Dev.wedge_of_low h0 hn hk hw]
    exact ⟨d.wedgeShown_wedged n, fun c i => d.wedgeShown_flt hn c i⟩

/-! ### The handshake watchdog (R24, R49) -/

/-- An FLT bit that a page has. -/
def isFault (p : Nat × Nat × Nat) : Bool := decide (p.2.2 < 32) && (fltSeverity p.1 p.2.1 p.2.2).isSome

theorem Dev.wdogPages_isFault (d : Dev) (n : Nat) : ∀ p ∈ d.wdogPages n, isFault p = true := by
  refine List.all_eq_true.1 ?_
  unfold Dev.wdogPages
  repeat' split
  all_goals rfl

/-- Each of a list of faults shows in its FLT register. -/
theorem Dev.foldl_flt_set (l : List (Nat × Nat × Nat)) (hl : ∀ p ∈ l, isFault p = true) (d : Dev) {p : Nat × Nat × Nat} (hp : p ∈
    l) :
    ((l.foldl (fun d p => d.flt p.1 p.2.1 p.2.2) d).rd (Hdr.FLT p.1) p.2.1).testBit p.2.2 = true := by
  induction l generalizing d with
  | nil => exact absurd hp List.not_mem_nil
  | cons q l ih =>
    rcases List.mem_cons.1 hp with rfl | hp
    · obtain ⟨hb, hs⟩ := Bool.and_eq_true_iff.1 (hl p List.mem_cons_self)
      obtain ⟨s, hs⟩ := Option.isSome_iff_exists.1 hs
      have hb := of_decide_eq_true hb
      exact (Faulted.foldl l _ (fun d x => Dev.flt_faulted d x.1 x.2.1 x.2.2) _).flts _ _ _ hb (Dev.flt_set d _ _ _ s hb hs)
    · exact ih (fun p hp => hl p (List.mem_cons_of_mem _ hp)) _ hp

/-- The faults of an island's watchdog. -/
def Dev.wdogFaults (d : Dev) (n : Nat) : Dev := (d.wdogPages n).foldl (fun d p => d.flt p.1 p.2.1 p.2.2) d

theorem exec_hsWdog (s : State) (n : Nat) : exec (.hsWdog n) s = .next (s.landed (s.dev.hsWdog s.mem n)) := rfl

theorem Dev.hsWdog_of_powered {m : FrameStore} {d : Dev} {n : Nat} (h0 : 0 < n) (hk : islandKnown n = true)
    (hp : d.powered n = true) : d.hsWdog m n = (d.wdogFaults n).wedge m n := by
  rw [Dev.hsWdog, hk, hp, beq_eq_false_iff_ne.2 (by omega : n ≠ 0)]
  exact if_neg (by decide)

theorem Dev.hsWdog_of_unpowered {m : FrameStore} {d : Dev} {n : Nat} (hp : d.powered n = false) : d.hsWdog m n = d := by
  rw [Dev.hsWdog, hp]
  exact if_pos (by rw [Bool.not_false, Bool.or_true])

/-! ### Accesses without an answer (R49, R50) -/

/-- An access that its island has to answer. -/
def Dev.awaited (d : Dev) (r c i o : Nat) (ro isWrite : Bool) : Bool :=
  d.implemented c i && d.reqLive r && !d.silent c i && !d.wedged (islandOf c i) && !aoHeld c o &&
    (if isWrite then d.writable r c i && !ro else d.readable r c i)

/-- What ACCESS_STAT and WEDGE_FIRST show of an access without an answer. -/
def Dev.timeoutNoted (d : Dev) (c i o : Nat) : Dev :=
  (d.wr AO.ACCESS_STAT_ACC_TIMEOUT 0 1).when (!(d.wr AO.ACCESS_STAT_ACC_TIMEOUT 0 1).is AO.WEDGE_FIRST_VALID 0) (fun d =>
    (d.wr AO.WEDGE_FIRST_VALID 0 1).wr AO.WEDGE_FIRST_OFFSET 0 (bar0 c i o))

theorem exec_accTimeout (s : State) (r : Req) (a : Nat) (w : Bool) :
    exec (.accTimeout r a w) s = .next (s.landed (s.dev.accTimeout s.mem r.num a w)) := rfl

section
variable {m : FrameStore} {d : Dev} {r a c i o : Nat} {ro : Bool}

theorem Dev.accTimeout_read (h : d.target r a = some (c, i, o, ro)) :
    d.accTimeout m r a false =
      if d.awaited r c i o ro false then
        (Dev.wedge m (d.timeoutNoted c i o) (islandOf c i)).reply r (fun d => (d, 0xFFFFFFFF))
      else d.reply r (fun d => d.addrRead r a) := by
  rw [Dev.accTimeout, h]
  rfl

theorem Dev.accTimeout_write (h : d.target r a = some (c, i, o, ro)) (ha : d.awaited r c i o ro true = true) :
    d.accTimeout m r a true = Dev.wedge m (d.timeoutNoted c i o) (islandOf c i) := by
  rw [Dev.accTimeout, h]
  exact if_pos ha

theorem Dev.awaited_iff (w : Bool) :
    d.awaited r c i o ro w = true ↔ d.implemented c i = true ∧ d.reqLive r = true ∧ d.silent c i = false ∧
      d.wedged (islandOf c i) = false ∧ aoHeld c o = false ∧
      (if w then d.writable r c i && !ro else d.readable r c i) = true := by
  simp only [Dev.awaited, Bool.and_eq_true, Bool.not_eq_true', and_assoc]

theorem Dev.timeoutNoted_eq {d : Dev} :
    d.timeoutNoted c i o =
      if d.is AO.WEDGE_FIRST_VALID 0 then d.wr AO.ACCESS_STAT_ACC_TIMEOUT 0 1
      else ((d.wr AO.ACCESS_STAT_ACC_TIMEOUT 0 1).wr AO.WEDGE_FIRST_VALID 0 1).wr AO.WEDGE_FIRST_OFFSET 0 (bar0 c i o) := by
  rw [Dev.timeoutNoted, Dev.is_wr_off _ _ _ _ _ (by decide), Dev.when_not]

end

theorem exec_accessStatClear {s : State} {r : Req} (m : Word) (h : s.dev.takes r.num 0 0 = true) :
    exec (.accessStatClear r m) s = .next (s.withDev (s.dev.accessClr m.toNat)) := State.upd_busW s _ _ _ _ h

/-- Settles O25, by the equations of a wedge, a watchdog and an access without an answer. -/
theorem wedgedIslands : Obligations.WedgedIslands := by
  unfold Obligations.WedgedIslands
  refine fun s r c i o a ro h => ⟨fun ho hi hl hs hw d hd e he => ?_, fun hn => ?_, fun hp h0 hk => ⟨?_, fun hn => ?_⟩,
    fun hp => ?_, fun h0 hn hk hw => Dev.wedge_of_low h0 hn hk hw, fun m ht => exec_accessStatClear m ht, ?_, ?_⟩
  · have hnoted : e = s.dev.timeoutNoted c i o := by rw [he, hd, Dev.timeoutNoted_eq]
    refine ⟨fun hr => ?_, fun hwr hro => ?_⟩
    · rw [exec_accTimeout, Dev.accTimeout_read h, if_pos ((Dev.awaited_iff false).2 ⟨hi, hl, hs, hw, ho, hr⟩), hnoted]
    · rw [exec_accTimeout, Dev.accTimeout_write h, hnoted]
      exact (Dev.awaited_iff true).2 ⟨hi, hl, hs, hw, ho, by rw [if_pos rfl, hwr, hro]; rfl⟩
  · rw [exec_accTimeout, Dev.accTimeout_read h, if_neg]
    intro ha
    obtain ⟨-, -, hs, hw, ho, -⟩ := (Dev.awaited_iff false).1 ha
    rw [hs, hw, ho] at hn
    simp at hn
  · rw [exec_hsWdog, Dev.hsWdog_of_powered h0 hk hp, Dev.wdogFaults]
  · obtain ⟨hwedged, hflt⟩ := Dev.wedge_low (m := s.mem) (d := s.dev.wdogFaults (islandOf c i)) h0 hn hk
    rw [exec_hsWdog, Dev.hsWdog_of_powered h0 hk hp]
    refine ⟨_, rfl, ?_, fun p hp => ?_⟩
    · rw [State.landed_dev, Dev.wedged, Dev.done_islBit]
      exact hwedged
    · rw [State.landed_dev, Dev.done_rd, hflt]
      exact Dev.foldl_flt_set _ (Dev.wdogPages_isFault _ _) _ hp
  · rw [exec_hsWdog, Dev.hsWdog_of_unpowered hp]
  · rw [Dev.accessClr]
    rw [Dev.when_of_eq_true (by decide), Dev.when_of_eq_false (by decide), Dev.when_of_eq_true (by decide)]
  · rw [Dev.accessClr]
    rw [Dev.when_of_eq_false (by decide), Dev.when_of_eq_true (by decide), Dev.when_of_eq_false (by decide)]

/-! ### Gating, power and reset of an island (R51, R52, R516) -/

section
variable {s : State} {r : Req} {n : Nat}

theorem exec_islGate (on : Bool) (h : s.dev.takes r.num 5 0 = true) :
    exec (.islGate r n on) s = .next (s.landed (s.dev.gateWrite s.mem n on)) :=
  State.updR_busW s _ _ _ (fun m d => d.gateWrite m n on) h

theorem exec_islReset (h : s.dev.takes r.num 5 0 = true) :
    exec (.islReset r n) s = .next (s.landed (s.dev.islReset s.mem n)) :=
  State.updR_busW s _ _ _ (fun m d => d.islReset m n) h

end

theorem exec_islPwr (s : State) (n : Nat) : exec (.islPwr n) s = .next (s.withDev (s.dev.powerOn n)) := rfl

theorem exec_islResetDone (s : State) (n : Nat) : exec (.islResetDone n) s = .next (s.withDev (s.dev.islResetDone n)) := rfl

/-- A block of the island is enabled or holds a claim. -/
def Dev.gateHeld (d : Dev) (n : Nat) : Bool :=
  (gatePages n).any (fun p => d.enabled (canon p.1 p.2).1 (canon p.1 p.2).2 || d.claimCount p.1 p.2 != 0)

section
variable {m : FrameStore} {d : Dev} {n : Nat}

theorem Dev.gateWrite_of_not {on : Bool} (h : islandGateable n = false ∨ d.islBit Isl.GATE n = on) : d.gateWrite m n on = d := by
  refine if_pos ?_
  rcases h with h | h <;> rw [h] <;> simp

theorem Dev.gateWrite_on (hg : islandGateable n = true) (h : d.islBit Isl.GATE n = false) :
    d.gateWrite m n true = if d.gateHeld n then d.evt 5 0 evtENABLE_REFUSED else d.powerOff m n := by
  rw [Dev.gateWrite, hg, h]
  exact (if_neg (by decide)).trans (if_pos rfl)

theorem Dev.gateWrite_off (hg : islandGateable n = true) (h : d.islBit Isl.GATE n = true) :
    d.gateWrite m n false =
      if d.bist.heldMem.contains n || d.bist.heldLogic.contains n then d else d.setIslBit Isl.GATE n false := by
  rw [Dev.gateWrite, hg, h]
  exact (if_neg (by decide)).trans (if_neg (by decide))

/-- The pages of an island as it loses power; its GATE and PWR bits are yet to come. -/
def Dev.emptied (m : FrameStore) (d : Dev) (n : Nat) : Dev :=
  ((islandPages n).foldl (fun d p =>
    let q := canon p.1 p.2
    let d := ((d.blockHidden m q.1 q.2).dropTabs p.1 p.2).dropPage p.1 p.2
    (match q.1 with
    | 0x0C => d.setLcu q.2 default
    | 0x0D => d.setCe q.2 default
    | _ => d).bootValues q.1 q.2) d).when (decide (128 ≤ n)) (fun d => d.setLane (n - 128) default)

theorem Dev.powerOff_eq : d.powerOff m n = ((d.emptied m n).setIslBit Isl.GATE n true).setIslBit Isl.PWR n false := rfl

theorem Dev.powerOff_bits : (d.powerOff m n).islBit Isl.GATE n = true ∧ (d.powerOff m n).islBit Isl.PWR n = false := by
  refine ⟨?_, Dev.islBit_setIslBit _ _ _ _ rfl⟩
  rw [Dev.powerOff_eq, Dev.islBit_setIslBit_off, Dev.islBit_setIslBit _ _ _ _ rfl]
  simp only [Fld.key, Isl.GATE, Isl.PWR]
  omega

theorem Dev.powerOn_of_not (h : islandGateable n = false ∨ d.islBit Isl.GATE n = true) : d.powerOn n = d := by
  refine Dev.when_of_eq_false ?_
  rcases h with h | h <;> rw [h] <;> simp

theorem Dev.powerOn_of (hg : islandGateable n = true) (hb : d.boot.aoUp = true) (h : d.islBit Isl.GATE n = false)
    (hw : d.wedged n = false) : d.powerOn n = d.setIslBit Isl.PWR n true := by
  refine Dev.when_of_eq_true ?_
  rw [hg, hb, h, hw]
  rfl

theorem Dev.islReset_of_not (h : islandKnown n = false ∨ n = 0 ∨ d.islBit Isl.RESET n = true) : d.islReset m n = d := by
  refine if_pos ?_
  rcases h with h | h | h <;> rw [h] <;> simp

/-- The pages of an island in reset. -/
def Dev.resetPages (m : FrameStore) (d : Dev) (n : Nat) : Dev :=
  (islandPages n).foldl (fun d p => d.srst m p.1 p.2) (d.setIslBit Isl.RESET n true)

theorem Dev.islReset_of (hk : islandKnown n = true) (h0 : n ≠ 0) (h : d.islBit Isl.RESET n = false) :
    d.islReset m n = (d.resetPages m n).when (decide (128 ≤ n)) (fun d =>
      d.when (d.enabled 0x08 (n - 128)) (fun d => (d.laneStop (n - 128)).laneEnable (n - 128))) := by
  rw [Dev.islReset, hk, h, beq_eq_false_iff_ne.2 h0]
  exact if_neg (by decide)

theorem islandPages_lane (h : 128 ≤ n) : islandPages n = [] := by
  unfold islandPages
  rw [if_neg (by omega), if_neg (by omega), if_neg (by omega), if_neg (by omega), if_neg (by omega), if_neg (by omega),
    if_neg (by omega), if_neg (by omega), if_neg (by omega)]

/-- The island of a lane's receiver has no page of its own. -/
theorem Dev.resetPages_lane (h : 128 ≤ n) : d.resetPages m n = d.setIslBit Isl.RESET n true := by
  rw [Dev.resetPages, islandPages_lane h, List.foldl_nil]

theorem Dev.enabled_setIslBit_reset (b : Bool) (c i : Nat) (hn : n ≤ 191) :
    (d.setIslBit Isl.RESET n b).enabled c i = d.enabled c i := by
  have hj : n / 32 ≤ 5 := by omega
  refine Dev.enabled_congr (Dev.rd_wr_ne _ _ _ _ _ _ _ _ ?_)
  simp only [Fld.key, Hdr.EN, Isl.RESET]
  omega

theorem Dev.islResetDone_of_not (h : d.islBit Isl.RESET n = false) : d.islResetDone n = d := by
  refine if_pos ?_
  rw [h]
  rfl

/-- The pages of an island whose reset is over; power is yet to come. -/
def Dev.resetOver (d : Dev) (n : Nat) : Dev :=
  (islandPages n).foldl (fun d p => d.srstDone p.1 p.2) ((d.setIslBit Isl.RESET n false).unwedge n)

theorem Dev.islResetDone_of (h : d.islBit Isl.RESET n = true) :
    d.islResetDone n =
      if (d.resetOver n).islBit Isl.GATE n then d.resetOver n else (d.resetOver n).setIslBit Isl.PWR n true := by
  rw [Dev.islResetDone, h]
  exact (if_neg (by decide)).trans (Dev.when_not _ _ _)

/-- The end of the pages' resets leaves the bits of islands. -/
theorem Dev.islBit_resetOver {f : Fld} (hf : f.off + 20 < 4096 ∧ 0x14 ≤ f.off ∧ f.str = 4 ∧ f.lo = 0) (hn : n ≤ 191) :
    (d.resetOver n).islBit f n = ((d.setIslBit Isl.RESET n false).unwedge n).islBit f n := by
  obtain ⟨hoff, hlow, hstr, hlo⟩ := hf
  have hj : n / 32 ≤ 5 := by omega
  refine foldl_keeps (fun d => d.islBit f n) _ _ (fun d p _ => Dev.islBit_wr_off _ _ _ _ _ _ _ ?_) _
  simp only [Fld.key, Hdr.SRST_BUSY, hstr, hlo]
  omega

theorem Dev.islBit_unwedge {f : Fld} (h : f.key 0 (n / 32) ≠ AO.ACCESS_STAT_WEDGE.key 0 0)
    (hm : f.key 0 (n / 32) ≠ AO.WEDGE_MAP_ISL.key 0 (n / 32)) : (d.unwedge n).islBit f n = d.islBit f n := by
  rw [Dev.unwedge, Dev.wrb, Dev.islBit_wr_off _ _ _ _ _ _ _ h, Dev.islBit_setIslBit_off _ _ _ _ _ hm]

theorem Dev.unwedge_wedged : (d.unwedge n).wedged n = false := by
  rw [Dev.unwedge, Dev.wrb, Dev.wedged, Dev.islBit_wr_off, Dev.islBit_setIslBit _ _ _ _ rfl]
  simp only [Fld.key, AO.WEDGE_MAP_ISL, AO.ACCESS_STAT_WEDGE]
  omega

/-- Of an island whose reset is over: not in reset, not wedged, gated as before. -/
theorem Dev.resetOver_bits (hn : n ≤ 191) :
    (d.resetOver n).islBit Isl.RESET n = false ∧ (d.resetOver n).wedged n = false ∧
      (d.resetOver n).islBit Isl.GATE n = d.islBit Isl.GATE n := by
  refine ⟨?_, ?_, ?_⟩
  · rw [Dev.islBit_resetOver (by decide) hn, Dev.islBit_unwedge, Dev.islBit_setIslBit _ _ _ _ rfl]
    all_goals
      simp only [Fld.key, Isl.RESET, AO.WEDGE_MAP_ISL, AO.ACCESS_STAT_WEDGE]
      omega
  · rw [Dev.wedged, Dev.islBit_resetOver (by decide) hn, ← Dev.wedged, Dev.unwedge_wedged]
  · rw [Dev.islBit_resetOver (by decide) hn, Dev.islBit_unwedge, Dev.islBit_setIslBit_off]
    all_goals
      simp only [Fld.key, Isl.RESET, Isl.GATE, AO.WEDGE_MAP_ISL, AO.ACCESS_STAT_WEDGE]
      omega

end

theorem Dev.held_of_mem {d : Dev} {n : Nat} (h : n ∈ d.bist.heldMem ∨ n ∈ d.bist.heldLogic) :
    (d.bist.heldMem.contains n || d.bist.heldLogic.contains n) = true := by
  rw [Bool.or_eq_true, List.contains_iff_mem, List.contains_iff_mem]
  exact h

/-- Settles O26, by the equations of a gate write, of power and of an island reset. -/
theorem islands : Obligations.Islands := by
  unfold Obligations.Islands
  refine fun s r n ht => ⟨fun on h => ?_, fun h => ?_, fun h => ?_, fun h d hd => ?_, fun h => ?_,
    fun hk h0 h => ⟨fun hl he => ?_, fun hl he => ?_, fun hl => ?_⟩,
    fun hg => ⟨fun h hheld => ?_, fun h hheld => ⟨?_, _, exec_islGate true ht, ?_⟩, fun h hm hl => ?_, fun h hh => ?_,
      fun hb h hw => ?_, fun h => ?_, fun h hgate => ⟨_, exec_islResetDone s n, State.withDev_mem s _, ?_⟩⟩⟩
  · rw [exec_islGate on ht, Dev.gateWrite_of_not h]
  · rw [exec_islReset ht, Dev.islReset_of_not h]
  · rw [exec_islResetDone, Dev.islResetDone_of_not h]
  · rw [exec_islResetDone, Dev.islResetDone_of h, hd, Dev.resetOver]
  · rw [exec_islPwr, Dev.powerOn_of_not (.inl h)]
  · rw [exec_islReset ht, Dev.islReset_of hk h0 h, Dev.when_of_eq_true (decide_eq_true hl), Dev.resetPages_lane hl,
      Dev.when_of_eq_false ((Dev.enabled_setIslBit_reset _ _ _ (islandKnown_le hk)).trans he)]
  · rw [exec_islReset ht, Dev.islReset_of hk h0 h, Dev.when_of_eq_true (decide_eq_true hl), Dev.resetPages_lane hl,
      Dev.when_of_eq_true ((Dev.enabled_setIslBit_reset _ _ _ (islandKnown_le hk)).trans he)]
  · rw [exec_islReset ht, Dev.islReset_of hk h0 h, Dev.when_of_eq_false (decide_eq_false (by omega)), Dev.resetPages]
  · rw [exec_islGate true ht, Dev.gateWrite_on hg h, Dev.gateHeld, if_pos hheld]
  · rw [exec_islGate true ht, Dev.gateWrite_on hg h, Dev.gateHeld, if_neg (ne_true_of_eq_false hheld)]
  · obtain ⟨hgate, hpwr⟩ := Dev.powerOff_bits (m := s.mem) (d := s.dev) (n := n)
    rw [Dev.gateWrite_on hg h, Dev.gateHeld, if_neg (ne_true_of_eq_false hheld), State.landed_dev, Dev.gated,
      Dev.done_islBit, Dev.done_islBit, hg, hgate]
    exact ⟨rfl, rfl, hpwr⟩
  · rw [exec_islGate false ht, Dev.gateWrite_off hg h, if_neg]
    rw [Bool.or_eq_true, List.contains_iff_mem, List.contains_iff_mem]
    exact fun hh => hh.elim hm hl
  · rw [exec_islGate false ht, Dev.gateWrite_off hg h, if_pos (Dev.held_of_mem hh)]
  · rw [exec_islPwr, Dev.powerOn_of hg hb h hw]
  · rw [exec_islPwr, Dev.powerOn_of_not (.inr h)]
  · obtain ⟨hreset, hwedge, hkeep⟩ := Dev.resetOver_bits (d := s.dev) (islandKnown_le (islandKnown_of_gateable hg))
    rw [Dev.islResetDone_of h, hkeep, hgate, if_neg (by exact Bool.false_ne_true), State.withDev_dev, Dev.wedged,
      Dev.done_islBit, Dev.done_islBit, Dev.done_islBit]
    refine ⟨Dev.islBit_setIslBit _ _ _ _ rfl, ?_, ?_⟩
    · rw [Dev.islBit_setIslBit_off, hreset]
      simp only [Fld.key, Isl.RESET, Isl.PWR]
      omega
    · rw [Dev.islBit_setIslBit_off]
      · exact hwedge
      · simp only [Fld.key, AO.WEDGE_MAP_ISL, Isl.PWR]
        omega

end Sys2Proof.Machine
end

