-- ==== Sys2Proof/Proofs/Access.lean ====
section
/-!
PROOFS. Access to what stands behind the pages (R53–R55, R59–R64, R404, R405, R451–R456): the indirect table port, BAR2 windows, the
partition commit and claim registers; from these the statements O27 to O30.
-/

open Sys2Proof

namespace Sys2Proof.Machine

/-! ### Entries of tables -/

theorem Dev.tabInfo_congr {d e : Dev} (h : e.boot = d.boot) (c i t : Nat) : e.tabInfo c i t = d.tabInfo c i t := by
  unfold Dev.tabInfo Dev.windows
  rw [h]

theorem Dev.readTab_of_clean {d : Dev} {c k t n : Nat} (pc pi sbe dbe : Nat) (h : d.tabErr c k t n = 0) :
    d.readTab pc pi sbe dbe c k t n = d := by
  rw [Dev.readTab, h]
  rfl

/-- An entry without check-bit errors is what its reader gets. -/
theorem Dev.tabGet_of_clean {d : Dev} {c i t n : Nat} (b : Nat) (h : d.tabErr c (tabInst c i) t n = 0) :
    d.tabGet c i t n b = (d, d.tab c (tabInst c i) t n) := by
  unfold Dev.tabGet
  dsimp only
  split
  · rfl
  · rw [Dev.readTab_of_clean _ _ _ _ h, h, if_neg (by decide)]

/-- An entry that is stored reads back, beside its checker's armed injection. -/
theorem Dev.putTab_tabs (d : Dev) (pc pi sbe dbe c k t n v : Nat) :
    (d.putTab pc pi sbe dbe c k t n v).tabs = mset d.tabs (tabKey c k t n) v 0 := by
  unfold Dev.putTab
  dsimp only
  split
  · rfl
  · split <;> rfl

/-! ### The indirect port (R53, R54) -/

/-- The port as an operation is under way. -/
def Dev.tblBusy (d : Dev) (c i : Nat) : Dev := d.wr (Tbl.TBL_CMD_BUSY.at c) i 1

section
variable {d : Dev} {c i : Nat}

theorem Dev.tblCmd_of_busy (part v : Nat) (h : d.is (Tbl.TBL_CMD_BUSY.at c) i = true) :
    d.tblCmd part c i v = d.evt c i evtBAD_ACCESS := if_pos h

theorem Dev.tblCmd_read (part : Nat) (b : Bool) (h : d.is (Tbl.TBL_CMD_BUSY.at c) i = false) :
    d.tblCmd part c i (1 + 4 * b2n b) = (d.wrb (Tbl.TBL_CMD_AUTO_INC.at c) i b).tblOp part c i false := by
  rw [Dev.tblCmd, if_neg (ne_true_of_eq_false h), Dev.wrb]
  cases b with
  | true => rw [Dev.when_of_eq_false (by decide), show bitOf (1 + 4 * b2n true) 2 = b2n true by decide]
            rfl
  | false => rw [Dev.when_of_eq_false (by decide), show bitOf (1 + 4 * b2n false) 2 = b2n false by decide]
             rfl

theorem Dev.tblCmd_write (part : Nat) (b : Bool) (h : d.is (Tbl.TBL_CMD_BUSY.at c) i = false) :
    d.tblCmd part c i (2 + 4 * b2n b) = (d.wrb (Tbl.TBL_CMD_AUTO_INC.at c) i b).tblOp part c i true := by
  rw [Dev.tblCmd, if_neg (ne_true_of_eq_false h), Dev.wrb]
  cases b with
  | true => rw [Dev.when_of_eq_false (by decide), show bitOf (2 + 4 * b2n true) 2 = b2n true by decide]
            rfl
  | false => rw [Dev.when_of_eq_false (by decide), show bitOf (2 + 4 * b2n false) 2 = b2n false by decide]
             rfl

/-- The image in TBL_DATA is that of the four data registers alone. -/
theorem Dev.tblImage_wr {f : Fld} (v : Nat) (h : f.off < 0xFE0 ∧ f.lo < 32) : (d.wr f i v).tblImage c i = d.tblImage c i := by
  refine foldl_agree (fun a j hj => ?_) _
  rw [Dev.rd_wr_ne]
  simp only [Fld.key, Fld.at, Tbl.TBL_DATA]
  have := List.mem_range.1 hj
  omega

variable {t n : Nat} (ht : d.rd (Tbl.TBL_ADDR_TABLE.at c) i = t) (hn : d.rd (Tbl.TBL_ADDR_INDEX.at c) i = n)
include ht hn

/-- An entry that is not there. -/
theorem Dev.tblOp_of_none (part : Nat) (w : Bool) (h : d.tabInfo c i t = none ∨ ∃ b m, d.tabInfo c i t = some (b, m) ∧ m ≤ n) :
    d.tblOp part c i w = (d.tblBusy c i).wr (Tbl.TBL_CMD_ERR.at c) i 1 := by
  unfold Dev.tblOp
  rw [ht, hn]
  dsimp only
  rw [Dev.tabInfo_congr (Dev.wr_boot d _ _ _ _)]
  rcases h with h | ⟨b, m, h, hm⟩
  · rw [h]
    rfl
  · rw [h]
    exact if_pos hm

theorem Dev.tblOp_write {b m : Nat} (part : Nat) (h : d.tabInfo c i t = some (b, m)) (hm : n < m) {w : Dev × Bool}
    (hw : w = (d.tblBusy c i).tabWrite part c i t n (d.tblImage c i % 2 ^ (8 * b))) :
    d.tblOp part c i true = if w.2 then w.1.tblNext c i else w.1.wr (Tbl.TBL_CMD_ERR.at c) i 1 := by
  unfold Dev.tblOp
  rw [ht, hn]
  dsimp only
  rw [Dev.tabInfo_congr (Dev.wr_boot d _ _ _ _), h, Dev.tblImage_wr 1 (by simp only [Fld.at]; decide)]
  dsimp only
  rw [if_neg (by omega), if_pos rfl]
  rw [Dev.tblBusy] at hw
  rw [← hw, Dev.tblRefuse]

theorem Dev.tblOp_read {b m : Nat} (part : Nat) (h : d.tabInfo c i t = some (b, m)) (hm : n < m)
    (hl : c = 0x13 → d.tabErr 0x13 0 t n ≠ 2) {w : Dev × Nat} (hw : w = (d.tblBusy c i).tabGet c i t n b) :
    d.tblOp part c i false = (w.1.setTblImage c i w.2).tblNext c i := by
  have hlost : (c == 0x13 && d.tabErr c (tabInst c i) t n == 2) = false := by
    by_cases hc : c = 0x13
    · subst hc
      rw [beq_eq_false_iff_ne.2 (show d.tabErr 0x13 (tabInst 0x13 i) t n ≠ 2 from hl rfl), Bool.and_false]
    · rw [beq_eq_false_iff_ne.2 hc, Bool.false_and]
  unfold Dev.tblOp
  rw [ht, hn]
  dsimp only
  rw [Dev.tabInfo_congr (Dev.wr_boot d _ _ _ _), h]
  dsimp only
  rw [if_neg (by omega), if_neg (by exact Bool.false_ne_true)]
  rw [Dev.tblBusy] at hw
  rw [← hw]
  exact if_neg (ne_true_of_eq_false hlost)

end

theorem Dev.tblNext_tabs (d : Dev) (c i : Nat) : (d.tblNext c i).tabs = d.tabs :=
  Dev.when_keeps Dev.tabs _ _ (fun d => d.addWrap (Tbl.TBL_ADDR_INDEX.at c) i 1) rfl

/-- The Voxord tables take what selects a port (R278). -/
theorem Dev.tabWrite_voxord (d : Dev) (part i t n v : Nat) :
    d.tabWrite part 0x17 i t n v =
      if voxOk t v then (d.putTab 0x17 i Vox.F_VT_SBE Vox.F_VT_DBE 0x17 i t n v, true) else (d, false) := rfl

section
variable {s : State} {r : Req} {c i : Nat}

theorem exec_tblOpDone : exec (.tblOpDone c i) s = .next (s.withDev (s.dev.when (s.dev.is (Tbl.TBL_CMD_BUSY.at c) i)
    (fun d => d.wr (Tbl.TBL_CMD_BUSY.at c) i 0))) := rfl

/-- An operation of the port of a page that takes the write. -/
def Dev.tblAsked (d : Dev) (r c i op : Nat) : Dev :=
  if hasIndirect c i then d.tblCmd (d.reqPart r) c i (op + 4 * b2n (d.is (Tbl.TBL_CMD_AUTO_INC.at c) i)) else d

theorem exec_tableRead (ht : s.dev.takes r.num c i = true) :
    exec (.tableRead r c i) s = .next (s.withDev (s.dev.tblAsked r.num c i 1)) := State.upd_busW s _ _ _ _ ht

theorem exec_tableWrite (ht : s.dev.takes r.num c i = true) :
    exec (.tableWrite r c i) s = .next (s.withDev (s.dev.tblAsked r.num c i 2)) := State.upd_busW s _ _ _ _ ht

end

/-- AUTO_INC written with what it reads. -/
def Dev.autoKept (d : Dev) (c i : Nat) : Dev :=
  d.wrb (Tbl.TBL_CMD_AUTO_INC.at c) i (d.is (Tbl.TBL_CMD_AUTO_INC.at c) i)

section
variable (d : Dev) (c i : Nat)

theorem Dev.autoKept_addr : (d.autoKept c i).rd (Tbl.TBL_ADDR_TABLE.at c) i = d.rd (Tbl.TBL_ADDR_TABLE.at c) i ∧
    (d.autoKept c i).rd (Tbl.TBL_ADDR_INDEX.at c) i = d.rd (Tbl.TBL_ADDR_INDEX.at c) i := by
  refine ⟨Dev.rd_wr_off _ _ _ _ _ ?_, Dev.rd_wr_off _ _ _ _ _ ?_⟩
  all_goals
    simp only [Fld.at, Tbl.TBL_ADDR_TABLE, Tbl.TBL_ADDR_INDEX, Tbl.TBL_CMD_AUTO_INC]
    omega

theorem Dev.autoKept_image : (d.autoKept c i).tblImage c i = d.tblImage c i :=
  Dev.tblImage_wr _ (by simp only [Fld.at]; decide)

theorem Dev.autoKept_info (t : Nat) : (d.autoKept c i).tabInfo c i t = d.tabInfo c i t :=
  Dev.tabInfo_congr (Dev.wr_boot _ _ _ _ _) _ _ _

end

/-- Settles O27, by the equations of the port's operations. -/
theorem indirectTables : Obligations.IndirectTables := by
  unfold Obligations.IndirectTables
  intro s r c i
  obtain ⟨htab, hidx⟩ := s.dev.autoKept_addr c i
  refine ⟨fun h => ?_, fun h => ?_, fun ht hh => ⟨?_, ?_⟩, fun ht hh => ⟨fun h => ⟨?_, ?_⟩, fun h hn => ⟨?_, ?_⟩,
    fun h b m hi hm he => ?_, fun h b m hi hm => ⟨fun w hw => ?_, fun hl w hw => ?_⟩, fun h hc b m hi hm => ?_⟩⟩
  · rw [exec_tblOpDone, Dev.when_of_eq_false h]
  · rw [exec_tblOpDone, Dev.when_of_eq_true h]
  · rw [exec_tableRead ht, Dev.tblAsked, if_neg (ne_true_of_eq_false hh)]
  · rw [exec_tableWrite ht, Dev.tblAsked, if_neg (ne_true_of_eq_false hh)]
  · rw [exec_tableRead ht, Dev.tblAsked, if_pos hh, Dev.tblCmd_of_busy _ _ h]
  · rw [exec_tableWrite ht, Dev.tblAsked, if_pos hh, Dev.tblCmd_of_busy _ _ h]
  · rw [exec_tableRead ht, Dev.tblAsked, if_pos hh, Dev.tblCmd_read _ _ h, ← Dev.autoKept, Dev.tblOp_of_none htab hidx]
    · rw [Dev.tblBusy, Dev.autoKept]
    · simpa only [Dev.autoKept_info] using hn
  · rw [exec_tableWrite ht, Dev.tblAsked, if_pos hh, Dev.tblCmd_write _ _ h, ← Dev.autoKept, Dev.tblOp_of_none htab hidx]
    · rw [Dev.tblBusy, Dev.autoKept]
    · simpa only [Dev.autoKept_info] using hn
  · rw [exec_tableRead ht, Dev.tblAsked, if_pos hh, Dev.tblCmd_read _ _ h, ← Dev.autoKept,
      Dev.tblOp_read htab hidx _ ((s.dev.autoKept_info c i _).trans hi) hm (fun hc => ?_)
        (Dev.tabGet_of_clean (d := (s.dev.autoKept c i).tblBusy c i) b he).symm]
    · rfl
    · subst hc
      rw [show (s.dev.autoKept 0x13 i).tabErr 0x13 0 _ _ = 0 from he]
      decide
  · rw [exec_tableWrite ht, Dev.tblAsked, if_pos hh, Dev.tblCmd_write _ _ h, ← Dev.autoKept,
      Dev.tblOp_write htab hidx _ ((s.dev.autoKept_info c i _).trans hi) hm (w := w) (by rw [Dev.autoKept_image]; exact hw)]
  · rw [exec_tableRead ht, Dev.tblAsked, if_pos hh, Dev.tblCmd_read _ _ h, ← Dev.autoKept,
      Dev.tblOp_read htab hidx _ ((s.dev.autoKept_info c i _).trans hi) hm hl hw]
  · subst hc
    rw [exec_tableWrite ht, Dev.tblAsked, if_pos hh, Dev.tblCmd_write _ _ h, ← Dev.autoKept,
      Dev.tblOp_write htab hidx _ ((s.dev.autoKept_info 0x17 i _).trans hi) hm (Dev.tabWrite_voxord _ _ _ _ _ _).symm,
      Dev.autoKept_image]
    refine ⟨_, rfl, State.withDev_mem s _, fun hv => ?_, fun hv => ?_⟩
    · rw [hv, if_pos rfl, if_pos rfl, State.withDev_dev]
      refine ⟨?_, fun k hk => ?_⟩
      · rw [Dev.tab, Dev.done_tabs, Dev.tblNext_tabs, Dev.putTab_tabs, mget_mset_self]
      · rw [Dev.done_tabs, Dev.tblNext_tabs, Dev.putTab_tabs, mget_mset_ne _ _ _ _ hk]
        rfl
    · rw [if_neg (ne_true_of_eq_false hv), if_neg (by exact Bool.false_ne_true), State.withDev_dev]
      refine ⟨?_, rfl⟩
      rw [Dev.is_eq, Dev.done_rd, Dev.rd_wr]
      rfl

/-! ### BAR2 windows (R451–R456) -/

/-- The address of a request under an entry without check-bit errors. -/
def Dev.windowed (d : Dev) (fn o b : Nat) : Option Nat :=
  let v := d.tab 0x1D fn 0 (o / 2 ^ 28)
  if v.testBit wttValid && v.testBit b && decide (o % 2 ^ 28 < wttLimit v * 4096) then some (wttTarget v + o % 2 ^ 28) else none

section
variable {m : FrameStore} {d : Dev} {fn o : Nat}

theorem Dev.winAddr_eq (b : Nat) (h : d.tabErr 0x1D fn 0 (o / 2 ^ 28) = 0) : d.winAddr fn o b = (d, d.windowed fn o b) := by
  rw [Dev.winAddr, Dev.windowed, Dev.readTab_of_clean _ _ _ _ h, h]
  rw [show (!(0 == 2 : Bool)) = true by decide, Bool.and_true]
  split <;> rfl

theorem Dev.windowed_invalid (b : Nat) (h : (d.tab 0x1D fn 0 (o / 2 ^ 28)).testBit wttValid = false) :
    d.windowed fn o b = none := if_neg (by rw [h]; exact Bool.false_ne_true)

theorem Dev.windowed_valid {b : Nat} (h : (d.tab 0x1D fn 0 (o / 2 ^ 28)).testBit wttValid = true)
    (hb : (d.tab 0x1D fn 0 (o / 2 ^ 28)).testBit b = true)
    (hl : o % 2 ^ 28 < wttLimit (d.tab 0x1D fn 0 (o / 2 ^ 28)) * 4096) :
    d.windowed fn o b = some (wttTarget (d.tab 0x1D fn 0 (o / 2 ^ 28)) + o % 2 ^ 28) :=
  if_pos (by rw [h, hb, decide_eq_true hl]; rfl)

theorem Dev.winWrite_none (bs : List Nat) (h : d.winAddr fn o 98 = (d, none)) : d.winWrite fn o bs = d.winMiss fn := by
  rw [Dev.winWrite, h]

theorem Dev.winRead_none (n : Nat) (h : d.winAddr fn o 97 = (d, none)) :
    Dev.winRead m d fn o n = (d.winMiss fn).emit (.winData fn (zeros n) false) := by
  rw [Dev.winRead, h]

theorem Dev.winWrite_deny {bs : List Nat} {a : Nat} (h : d.winAddr fn o 98 = (d, some a))
    (ho : d.winObj fn a bs.length = none) : d.winWrite fn o bs = d.winDeny fn := by
  rw [Dev.winWrite, h]
  dsimp only
  rw [ho]

theorem Dev.winWrite_obj {bs : List Nat} {a : Nat} {b : WinObj} (h : d.winAddr fn o 98 = (d, some a))
    (ho : d.winObj fn a bs.length = some b) : d.winWrite fn o bs = d.objWrite (d.linkPart (fn / 16)) b a bs := by
  rw [Dev.winWrite, h]
  dsimp only
  rw [ho]

theorem Dev.winRead_deny {n a : Nat} (h : d.winAddr fn o 97 = (d, some a)) (ho : d.winObj fn a n = none) :
    Dev.winRead m d fn o n = (d.winDeny fn).emit (.winData fn (zeros n) false) := by
  rw [Dev.winRead, h]
  dsimp only
  rw [ho]

theorem Dev.winRead_obj {n a : Nat} {b : WinObj} (h : d.winAddr fn o 97 = (d, some a)) (ho : d.winObj fn a n = some b)
    {x : Dev × List Nat × Bool} (hx : x = Dev.objRead m d b a n) :
    Dev.winRead m d fn o n = x.1.emit (.winData fn x.2.1 x.2.2) := by
  rw [Dev.winRead, h]
  dsimp only
  rw [ho, hx]

end

/-! ### Regions of the frame store (R404, R405) -/

/-- A region for the host's data takes a write whole. -/
theorem Dev.objWrite_region {d : Dev} {n a : Nat} (part : Nat) (bs : List Nat) (ha : d.objAnswers (.region n) = true)
    (hk : d.rgnKind n = 0) : d.objWrite part (.region n) a bs = d.memWrite (a - storeBase) bs := by
  rw [Dev.objWrite, ha, hk]
  exact (if_neg (by decide)).trans (if_pos ⟨by decide, .inl rfl⟩)

/-- What a write leaves on its way to the frame store when no injection waits for it. -/
theorem Dev.memWrite_wbuf {d : Dev} {a : Nat} (bs : List Nat) (hd : d.armed 0x18 (a / 25769803776) Hbm.F_DBE = false)
    (hs : d.armed 0x18 (a / 25769803776) Hbm.F_SBE = false) : (d.memWrite a bs).wbuf = d.wbuf ++ [.bytes a bs] := by
  unfold Dev.memWrite
  dsimp only
  rw [if_neg, if_neg]
  · exact ne_true_of_eq_false hs
  · exact ne_true_of_eq_false hd

/-- Bytes that a sound state writes stand in the frame store, and no other byte changes. -/
theorem State.landed_bytes {s : State} {d : Dev} {a : Nat} {bs : List Nat} (hs : s.Inv) (hw : d.wbuf = [.bytes a bs])
    (hb : ∀ b ∈ bs, b < 256) :
    (∀ j, j < bs.length → (s.landed d).mem.byte (a + j) = bs.getD j 0) ∧
      ∀ x, (x < a ∨ a + bs.length ≤ x) → (s.landed d).mem.byte x = s.mem.byte x := by
  have hmem : (s.landed d).mem = s.mem.apply (.bytes a bs) := by
    rw [State.landed, hw]
    rfl
  rw [hmem]
  refine ⟨fun j hj => ?_, fun x hx => ?_⟩
  · rw [byte_apply_bytes s.mem hs.mem, if_pos (by omega), Nat.add_sub_cancel_left, Nat.mod_eq_of_lt]
    rw [List.getD_eq_getElem?_getD, List.getElem?_eq_getElem hj, Option.getD_some]
    exact hb _ (List.getElem_mem hj)
  · rw [byte_apply_bytes s.mem hs.mem, if_neg (by omega)]

section
variable {β : Type} (q : Dev → β) (hbad : ∀ (d : Dev) x, q { d with bad := x } = q d)
  (hwr : ∀ (d : Dev) f i v j, q (d.wr f i v j) = q d) (hflt : ∀ (d : Dev) c i b, q (d.flt c i b) = q d)
  (hset : ∀ (d : Dev) k x, q (d.setHbmh k x) = q d)
include hbad hwr hflt hset

/-- Corrected words of a range change the stack's registers and what the stack remembers. -/
theorem Dev.hbmFix_keeps (d : Dev) (a n : Nat) : q (d.hbmFix a n) = q d := by
  refine (foldl_keeps q _ _ (fun d e _ => ?_) _).trans (hbad _ _)
  unfold Dev.hbmSbe
  dsimp only
  refine (Dev.when_keeps q _ _ (fun d => d.spareCause _ _) ?_).trans ?_
  · unfold Dev.spareCause
    dsimp only
    split
    · exact hflt _ _ _ _
    · exact (hwr _ _ _ _ _).trans (hset _ _ _)
  · exact (hset _ _ _).trans ((hflt _ _ _ _).trans (hwr _ _ _ _ _))

end

theorem Dev.hbmMet_of_none {m : FrameStore} {a n : Nat} (d : Dev) (h : m.poisoned a n = []) :
    d.hbmMet m a n = d.hbmFix a n := by
  rw [Dev.hbmMet, h, List.foldl_nil]

/-- Without a poisoned word a window reads what the frame store holds. -/
theorem storeBytes_of_none {m : FrameStore} {a n : Nat} (h : m.poisoned a n = []) : storeBytes m a n = (m.read a n, false) := by
  rw [storeBytes, h]
  rw [List.isEmpty_nil, Bool.not_true]
  congr 1
  simp only [List.contains_nil, Bool.false_eq_true, if_false]
  exact List.zipIdx_map_fst 0 _

theorem Dev.objRead_region {m : FrameStore} {d : Dev} {r a n : Nat} (ha : d.objAnswers (.region r) = true)
    (hk : d.rgnKind r ≠ 3) (hp : m.poisoned (a - storeBase) n = []) :
    Dev.objRead m d (.region r) a n = (d.hbmFix (a - storeBase) n, m.read (a - storeBase) n, false) := by
  rw [Dev.objRead, ha, Bool.not_true, if_neg (by exact Bool.false_ne_true)]
  dsimp only
  rw [if_neg hk, storeBytes_of_none hp, Dev.hbmMet_of_none d hp]

/-! ### A request of a function (R448, R452, R456) -/

theorem Req.num_fn (l : Fin 4) (f : Fin 16) : (Req.fn l f).num = 16 * l.val + f.val := rfl

section
variable {s : State} {l : Fin 4} {f : Fin 16} {o : Nat}

theorem exec_windowWrite_fn (bs : List Nat) (x : Bool) :
    exec (.windowWrite (.fn l f) o bs x) s = .next (s.landed (
      if !s.dev.boot.aoUp || !s.dev.reqLive (16 * l.val + f.val) || !s.dev.inBar2 (16 * l.val + f.val) o bs.length then s.dev
      else if x then s.dev.setFn (16 * l.val + f.val)
        { s.dev.fn (16 * l.val + f.val) with aerPoison := (s.dev.fn (16 * l.val + f.val)).aerPoison + 1 }
      else s.dev.winWrite (16 * l.val + f.val) o bs)) := rfl

theorem exec_windowRead_fn (n : Nat) :
    exec (.windowRead (.fn l f) o n) s = .next (s.landed (
      if !s.dev.boot.aoUp then s.dev
      else if !s.dev.reqLive (16 * l.val + f.val) then s.dev.emit (.unsupported (16 * l.val + f.val))
      else if !s.dev.inBar2 (16 * l.val + f.val) o n then s.dev
      else Dev.winRead s.mem s.dev (16 * l.val + f.val) o n)) := rfl

variable (hb : s.dev.boot.aoUp = true) (hl : s.dev.reqLive (16 * l.val + f.val) = true)
include hb hl

theorem exec_windowWrite_poisoned {bs : List Nat} (hi : s.dev.inBar2 (16 * l.val + f.val) o bs.length = true) :
    exec (.windowWrite (.fn l f) o bs true) s = .next (s.landed (s.dev.setFn (16 * l.val + f.val)
      { s.dev.fn (16 * l.val + f.val) with aerPoison := (s.dev.fn (16 * l.val + f.val)).aerPoison + 1 })) := by
  rw [exec_windowWrite_fn, hb, hl, hi, if_neg (by decide), if_pos rfl]

theorem exec_windowWrite {bs : List Nat} (hi : s.dev.inBar2 (16 * l.val + f.val) o bs.length = true) :
    exec (.windowWrite (.fn l f) o bs false) s = .next (s.landed (s.dev.winWrite (16 * l.val + f.val) o bs)) := by
  rw [exec_windowWrite_fn, hb, hl, hi, if_neg (by decide), if_neg (by exact Bool.false_ne_true)]

theorem exec_windowRead {n : Nat} (hi : s.dev.inBar2 (16 * l.val + f.val) o n = true) :
    exec (.windowRead (.fn l f) o n) s = .next (s.landed (Dev.winRead s.mem s.dev (16 * l.val + f.val) o n)) := by
  rw [exec_windowRead_fn, hb, hl, hi, if_neg (by decide), if_neg (by decide), if_neg (by decide)]

end

/-- Settles O28, by the equations of a request: its translation, its object, and what a region of the frame store answers. -/
theorem windowAccess : Obligations.WindowAccess := by
  unfold Obligations.WindowAccess
  refine ⟨fun s l f o n bs x hb hl => ⟨?_, ?_⟩, fun s o n bs x r hr => ?_, fun s l f o bs hinv hb hl hi hbs =>
    ⟨exec_windowWrite_poisoned hb hl hi, fun he hv => ?_, fun he hv hlim => ⟨fun h98 => ⟨fun ho => ?_, fun b ho => ?_⟩,
      fun h97 => ⟨fun ho => ?_, fun b ho x hx => ?_⟩⟩, fun he hv hlim n ho ha hst => ⟨fun h98 hk harm => ?_, fun h97 hk hp => ?_⟩⟩⟩
  · rw [exec_windowWrite_fn, hb, hl, if_pos (by rfl)]
  · rw [exec_windowRead_fn, hb, hl, if_neg (by decide), if_pos (by decide)]
  · simp only [List.mem_cons, List.not_mem_nil, or_false] at hr
    rcases hr with rfl | rfl <;> exact ⟨rfl, rfl⟩
  · have hnone : ∀ b, s.dev.winAddr (16 * l.val + f.val) o b = (s.dev, none) := fun b => by
      rw [Dev.winAddr_eq b he, Dev.windowed_invalid b hv]
    rw [exec_windowWrite hb hl hi, exec_windowRead hb hl hi, Dev.winWrite_none _ (hnone 98), Dev.winRead_none _ (hnone 97),
      Dev.winMiss]
    exact ⟨rfl, rfl⟩
  · rw [exec_windowWrite hb hl hi,
      Dev.winWrite_deny ((Dev.winAddr_eq 98 he).trans (by rw [Dev.windowed_valid hv h98 hlim])) ho, Dev.winDeny]
  · rw [exec_windowWrite hb hl hi,
      Dev.winWrite_obj ((Dev.winAddr_eq 98 he).trans (by rw [Dev.windowed_valid hv h98 hlim])) ho]
  · rw [exec_windowRead hb hl hi,
      Dev.winRead_deny ((Dev.winAddr_eq 97 he).trans (by rw [Dev.windowed_valid hv h97 hlim])) ho, Dev.winDeny]
  · rw [exec_windowRead hb hl hi,
      Dev.winRead_obj ((Dev.winAddr_eq 97 he).trans (by rw [Dev.windowed_valid hv h97 hlim])) ho hx]
  · rw [exec_windowWrite hb hl hi,
      Dev.winWrite_obj ((Dev.winAddr_eq 98 he).trans (by rw [Dev.windowed_valid hv h98 hlim])) ho,
      Dev.objWrite_region _ _ ha hk]
    refine ⟨_, rfl, State.landed_bytes hinv ?_ hbs⟩
    rw [Dev.memWrite_wbuf _ (harm _ (by decide)) (harm _ (by decide)), hinv.landed, List.nil_append]
  · rw [exec_windowRead hb hl hi,
      Dev.winRead_obj ((Dev.winAddr_eq 97 he).trans (by rw [Dev.windowed_valid hv h97 hlim])) ho
        (Dev.objRead_region ha hk hp).symm]
    refine ⟨_, rfl, ?_, ?_⟩
    · rw [State.landed_eq, State.withDev_mem]
      rw [Dev.emit_wbuf, Dev.hbmFix_keeps Dev.wbuf (fun _ _ => rfl) Dev.wr_wbuf Dev.flt_wbuf (fun _ _ _ => rfl)]
      exact hinv.landed
    · rw [State.landed_dev]
      change (Dev.hbmFix s.dev _ _).sent ++ _ = _
      rw [Dev.hbmFix_keeps Dev.sent (fun _ _ => rfl) (fun _ _ _ _ _ => rfl) Dev.flt_sent (fun _ _ _ => rfl)]

/-! ### The partition commit (R59, R60) -/

section
variable {s : State} {r : Req}

theorem exec_partitionCommit (h : s.dev.takes r.num 4 0 = true) :
    exec (.partitionCommit r) s = .next (s.withDev s.dev.commit) := State.upd_busW s _ _ _ _ h

theorem exec_partitionCommitDone : exec .partitionCommitDone s = .next (s.withDev (s.dev.wr Claims.PT_CTRL_BUSY 0 0)) := rfl

end

/-- The fields that a commit writes, entry by entry, each with its shadow and its entry. -/
def commitFields : List ((Fld × Fld) × Nat) := (List.range 4).flatMap (fun k => partFields.map (fun f => (f, k)))

/-- Every field of the active table takes its shadow's value. -/
def Dev.activate (d : Dev) (l : List ((Fld × Fld) × Nat)) (e : Dev) : Dev :=
  l.foldl (fun e x => e.wr x.1.1 0 (d.rd x.1.2 0 x.2) x.2) e

theorem Dev.activate_eq (d e : Dev) :
    (List.range 4).foldl (fun e k => e.loadEntry false k (fun f => d.rd f.2 0 k)) e = d.activate commitFields e := by
  rw [Dev.activate, commitFields, List.foldl_flatMap]
  refine foldl_agree (fun _ k _ => ?_) _
  rw [List.foldl_map]
  rfl

theorem Dev.rd_activate_off (d : Dev) (l : List ((Fld × Fld) × Nat)) (e : Dev) (f : Fld) (k : Nat)
    (h : ∀ x ∈ l, f.key 0 k ≠ x.1.1.key 0 x.2) : (d.activate l e).rd f 0 k = e.rd f 0 k :=
  foldl_keeps (fun e => e.rd f 0 k) _ l (fun _ x hx => Dev.rd_wr_ne _ _ _ _ _ _ _ _ (h x hx)) e

theorem Dev.rd_activate (d : Dev) (l : List ((Fld × Fld) × Nat)) (hn : (l.map (fun x => x.1.1.key 0 x.2)).Nodup) (e : Dev)
    {x : (Fld × Fld) × Nat} (hx : x ∈ l) : (d.activate l e).rd x.1.1 0 x.2 = d.rd x.1.2 0 x.2 % 2 ^ x.1.1.w := by
  induction l generalizing e with
  | nil => exact absurd hx List.not_mem_nil
  | cons y l ih =>
    rw [List.map_cons, List.nodup_cons] at hn
    rw [Dev.activate, List.foldl_cons]
    rcases List.mem_cons.1 hx with rfl | hx
    · refine (Dev.rd_activate_off d l _ _ _ fun z hz heq => hn.1 ?_).trans (Dev.rd_wr _ _ _ _ _)
      exact List.mem_map.2 ⟨z, hz, heq.symm⟩
    · exact ih hn.2 _ hx

theorem commitFields_nodup : (commitFields.map (fun x => x.1.1.key 0 x.2)).Nodup := by decide +kernel

/-- PT_CTRL is not among the fields that a commit writes. -/
theorem commitFields_off : ∀ x ∈ commitFields, x.1.1.key 0 x.2 ≠ Claims.PT_CTRL_REFUSE.key 0 0 ∧
    x.1.1.key 0 x.2 ≠ Claims.PT_CTRL_BUSY.key 0 0 := by decide +kernel

theorem Dev.commit_of_busy {d : Dev} (h : d.is Claims.PT_CTRL_BUSY 0 = true) : d.commit = d := if_pos h

theorem Dev.commit_of_refused {d : Dev} (h : d.is Claims.PT_CTRL_BUSY 0 = false) (hr : d.commitRefuse ≠ 0) :
    d.commit = d.wr Claims.PT_CTRL_REFUSE 0 d.commitRefuse := (if_neg (ne_true_of_eq_false h)).trans (if_pos hr)

theorem Dev.commit_of_ok {d : Dev} (h : d.is Claims.PT_CTRL_BUSY 0 = false) (hr : d.commitRefuse = 0) :
    d.commit = ((d.activate commitFields d).wr Claims.PT_CTRL_REFUSE 0 0).wr Claims.PT_CTRL_BUSY 0 1 := by
  rw [← Dev.activate_eq]
  exact (if_neg (ne_true_of_eq_false h)).trans (if_neg (fun hn => hn hr))

/-- Settles O29, by the writes of a commit, which stand at different places. -/
theorem partitionCommit : Obligations.PartitionCommit := by
  unfold Obligations.PartitionCommit
  refine fun s r ht => ⟨fun h => ?_, fun h hr => ?_, fun h hr => ⟨_, exec_partitionCommit ht, State.withDev_mem s _, ?_, ?_,
    fun f hf k hk => ?_⟩, exec_partitionCommitDone⟩
  · rw [exec_partitionCommit ht, Dev.commit_of_busy h]
  · rw [exec_partitionCommit ht, Dev.commit_of_refused h hr]
  · rw [State.withDev_dev, Dev.done_rd, Dev.commit_of_ok h hr, Dev.rd_wr_off _ _ _ _ _ (by decide), Dev.rd_wr]
    rfl
  · rw [State.withDev_dev, Dev.is_eq, Dev.done_rd, Dev.commit_of_ok h hr, Dev.rd_wr]
    rfl
  · have hx : (f, k) ∈ commitFields :=
      List.mem_flatMap.2 ⟨k, List.mem_range.2 hk, List.mem_map.2 ⟨f, hf, rfl⟩⟩
    obtain ⟨hrefuse, hbusy⟩ := commitFields_off _ hx
    rw [State.withDev_dev, Dev.done_rd, Dev.commit_of_ok h hr, Dev.rd_wr_ne _ _ _ _ _ _ _ _ hbusy,
      Dev.rd_wr_ne _ _ _ _ _ _ _ _ hrefuse, Dev.rd_activate _ _ commitFields_nodup _ hx]

/-! ### Claim registers (R31, R62–R64, R408, R560) -/

section
variable {s : State} {r : Req} {k : Res} {n c i : Nat}

theorem exec_acquire (hc : c < 64) (hi : i < 64) :
    exec (.acquire r k n c i) s = .next (s.withDev (s.dev.busClaim r.num k n (fun d => d.claimAcquire k n c i))) := by
  change Host.Outcome.next (s.withDev (s.dev.busClaim r.num k n (fun d => d.claimAcquire k n (c % 64) (i % 64)))) = _
  rw [Nat.mod_eq_of_lt hc, Nat.mod_eq_of_lt hi]

theorem exec_claimRelease (hc : c < 64) (hi : i < 64) :
    exec (.claimRelease r k n c i) s = .next (s.withDev (s.dev.busClaim r.num k n (fun d => d.claimRelease k n c i))) := by
  change Host.Outcome.next (s.withDev (s.dev.busClaim r.num k n (fun d => d.claimRelease k n (c % 64) (i % 64)))) = _
  rw [Nat.mod_eq_of_lt hc, Nat.mod_eq_of_lt hi]

end

section
variable {d : Dev} {r : Nat} {k : Res} {n c i : Nat}

theorem Dev.busClaim_ignored (f : Dev → Dev)
    (h : isVf r = true ∨ d.reqLive r = false ∨ d.boot.aoUp = false ∨ k.count ≤ n) : d.busClaim r k n f = d := by
  refine if_pos ?_
  rcases h with h | h | h | h
  · rw [h, Bool.or_true]
    rfl
  · rw [h, Bool.not_false, Bool.or_true]
    rfl
  · rw [h, Bool.not_false, Bool.or_true]
  · rw [decide_eq_true h]
    rfl

section
variable (hv : isVf r = false) (hl : d.reqLive r = true) (hb : d.boot.aoUp = true) (hn : n < k.count)
include hv hl hb hn

theorem Dev.busClaim_eq (f : Dev → Dev) :
    d.busClaim r k n f = match d.claimPart k n with
      | none => f d
      | some p => if p = d.reqPart r then f d else d.deny := by
  rw [Dev.busClaim, hv, hl, hb, decide_eq_false (Nat.not_le.2 hn)]
  exact if_neg (by decide)

theorem Dev.busClaim_denied (f : Dev → Dev) {p : Nat} (hp : d.claimPart k n = some p) (hne : p ≠ d.reqPart r) :
    d.busClaim r k n f = d.deny := by
  rw [Dev.busClaim_eq hv hl hb hn, hp]
  exact if_neg hne

theorem Dev.busClaim_taken (f : Dev → Dev) (hp : d.claimPart k n = none ∨ d.claimPart k n = some (d.reqPart r)) :
    d.busClaim r k n f = f d := by
  rw [Dev.busClaim_eq hv hl hb hn]
  rcases hp with hp | hp <;> rw [hp]
  exact if_pos rfl

end

/-- Whether a page may hold a resource: its class, a region's KIND, its partition. -/
def Dev.mayHold (d : Dev) (k : Res) (n c i : Nat) : Bool :=
  resEligible k n c i && d.kindClaims k n c && d.implemented c i &&
    decide (d.claimPart k n = none ∨ d.claimPart k n = some (d.pagePart c i))

/-- The other slot whose range a compare-list slot's range meets. -/
def Dev.blocker (d : Dev) (k : Res) (n : Nat) : Option Nat := if k = .range then d.rangeBlocker n else none

/-- The page that holds a resource is the one that asks. -/
def Dev.holder (d : Dev) (k : Res) (n c i : Nat) : Bool := (d.claim k n).hCls == c && (d.claim k n).hInst == i

theorem Dev.claimAcquire_eq :
    d.claimAcquire k n c i =
      if !d.mayHold k n c i then (d.showClaim k n { d.claim k n with denied := true } c i).badAccess 4 k.inst
      else if (d.claim k n).held && !d.holder k n c i then d.claimFail k n c i (d.claim k n).hCls (d.claim k n).hInst
      else if (d.claim k n).held then d.showClaim k n { d.claim k n with denied := false } c i
      else if k = .range ∧ d.rangeInside n = false then (d.claimFail k n c i c i).evt 4 2 Claims.E_RANGE_BAD
      else match d.blocker k n with
        | some m => d.claimFail k n c i (d.claim .range m).hCls (d.claim .range m).hInst
        | none => d.showClaim k n { d.claim k n with held := true, denied := false, hCls := c, hInst := i } c i := by
  have hpart : (match d.claimPart k n with
      | some p => decide (d.pagePart c i = p)
      | none => true) = decide (d.claimPart k n = none ∨ d.claimPart k n = some (d.pagePart c i)) := by
    cases d.claimPart k n with
    | none => rfl
    | some p => simp only [reduceCtorEq, false_or, Option.some.injEq, eq_comm]
  rw [Dev.mayHold, ← hpart]
  rfl

theorem Dev.claimRelease_eq :
    d.claimRelease k n c i =
      if !(d.claim k n).held then d.showClaim k n { d.claim k n with denied := false } c i
      else if !d.holder k n c i then d.evt 4 k.inst evtCLAIM_CONFLICT
      else if d.enabled c i then d.evt 4 k.inst Claims.E_CLAIM_IN_USE
      else d.showClaim k n { d.claim k n with held := false, denied := false } c i := rfl

theorem Dev.claimRelease_free (hh : (d.claim k n).held = false) :
    d.claimRelease k n c i = d.showClaim k n { d.claim k n with denied := false } c i := if_pos (by rw [hh]; rfl)

theorem Dev.holder_of (hc : (d.claim k n).hCls = c) (hi : (d.claim k n).hInst = i) : d.holder k n c i = true := by
  rw [Dev.holder, hc, hi, BEq.rfl, BEq.rfl]
  rfl

theorem Dev.holder_of_not (h : ¬ ((d.claim k n).hCls = c ∧ (d.claim k n).hInst = i)) : d.holder k n c i = false := by
  rw [Dev.holder, Bool.and_eq_false_iff, beq_eq_false_iff_ne, beq_eq_false_iff_ne]
  exact Classical.not_and_iff_not_or_not.1 h

section
variable (hm : d.mayHold k n c i = true)
include hm

theorem Dev.claimAcquire_foreign (hh : (d.claim k n).held = true) (ho : d.holder k n c i = false) :
    d.claimAcquire k n c i = d.claimFail k n c i (d.claim k n).hCls (d.claim k n).hInst := by
  rw [Dev.claimAcquire_eq, hm, hh, ho]
  exact (if_neg (by decide)).trans (if_pos rfl)

theorem Dev.claimAcquire_own (hh : (d.claim k n).held = true) (ho : d.holder k n c i = true) :
    d.claimAcquire k n c i = d.showClaim k n { d.claim k n with denied := false } c i := by
  rw [Dev.claimAcquire_eq, hm, hh, ho, if_neg (by decide), if_neg (by decide), if_pos rfl]

theorem Dev.claimAcquire_badRange (hh : (d.claim k n).held = false) (hk : k = .range) (hr : d.rangeInside n = false) :
    d.claimAcquire k n c i = (d.claimFail k n c i c i).evt 4 2 Claims.E_RANGE_BAD := by
  rw [Dev.claimAcquire_eq, hm, hh, Bool.false_and, if_neg (by decide), if_neg (by decide), if_neg (by decide), if_pos ⟨hk, hr⟩]

variable (hr : k = .range → d.rangeInside n = true)
include hr

theorem Dev.claimAcquire_blocked (hh : (d.claim k n).held = false) {m : Nat} (hb : d.blocker k n = some m) :
    d.claimAcquire k n c i = d.claimFail k n c i (d.claim .range m).hCls (d.claim .range m).hInst := by
  rw [Dev.claimAcquire_eq, hm, hh, Bool.false_and, if_neg (by decide), if_neg (by decide), if_neg (by decide),
    if_neg (fun h => ne_true_of_eq_false h.2 (hr h.1)), hb]

theorem Dev.claimAcquire_free (hh : (d.claim k n).held = false) (hb : d.blocker k n = none) :
    d.claimAcquire k n c i =
      d.showClaim k n { d.claim k n with held := true, denied := false, hCls := c, hInst := i } c i := by
  rw [Dev.claimAcquire_eq, hm, hh, Bool.false_and, if_neg (by decide), if_neg (by decide), if_neg (by decide),
    if_neg (fun h => ne_true_of_eq_false h.2 (hr h.1)), hb]

end

end

/-- Settles O30, by the equations of ACQUIRE and RELEASE. -/
theorem claimRegisters : Obligations.ClaimRegisters := by
  unfold Obligations.ClaimRegisters
  refine fun s r k n c i hc hi => ⟨fun h => ⟨?_, ?_⟩, fun hv hl hb hn => ⟨fun p hp hne => ⟨?_, ?_⟩, fun hp => ?_⟩⟩
  · rw [exec_acquire hc hi, Dev.busClaim_ignored _ h]
  · rw [exec_claimRelease hc hi, Dev.busClaim_ignored _ h]
  · rw [exec_acquire hc hi, Dev.busClaim_denied hv hl hb hn _ hp hne]
  · rw [exec_claimRelease hc hi, Dev.busClaim_denied hv hl hb hn _ hp hne]
  · rw [exec_acquire hc hi, exec_claimRelease hc hi, Dev.busClaim_taken hv hl hb hn _ hp, Dev.busClaim_taken hv hl hb hn _ hp]
    refine ⟨fun hm => ?_, fun hm hh hr hbl => ?_, fun hm hh hk hr => ?_, fun hm hh hr m hbl => ?_, fun hm hh hx hy => ?_,
      fun hm hh ho => ?_, fun hh => ?_, fun hh hx hy he => ?_, fun hh hx hy he => ?_, fun hh ho => ?_⟩
    · rw [Dev.claimAcquire_eq, show s.dev.mayHold k n c i = false from hm, Bool.not_false, if_pos rfl, Dev.badAccess,
        Dev.showClaim]
    · rw [Dev.claimAcquire_free hm hr hh hbl, Dev.showClaim]
    · rw [Dev.claimAcquire_badRange hm hh hk hr]
    · rw [Dev.claimAcquire_blocked hm hr hh hbl]
    · rw [Dev.claimAcquire_own hm hh (Dev.holder_of hx hy), Dev.showClaim]
    · rw [Dev.claimAcquire_foreign hm hh (Dev.holder_of_not ho), Dev.claimFail, Dev.showClaim]
    · rw [Dev.claimRelease_free hh, Dev.showClaim]
    · rw [Dev.claimRelease_eq, hh, Dev.holder_of hx hy, he, Bool.not_true, if_neg (by exact Bool.false_ne_true),
        if_neg (by exact Bool.false_ne_true), if_neg (by exact Bool.false_ne_true), Dev.showClaim]
    · rw [Dev.claimRelease_eq, hh, Dev.holder_of hx hy, he, Bool.not_true, if_neg (by exact Bool.false_ne_true),
        if_neg (by exact Bool.false_ne_true), if_pos rfl]
    · rw [Dev.claimRelease_eq, hh, Dev.holder_of_not ho, Bool.not_true, if_neg (by exact Bool.false_ne_true), Bool.not_false,
        if_pos rfl]

end Sys2Proof.Machine
end

