-- ==== Sys2Proof/Proofs/Power.lean ====
section
/-!
PROOFS. Power and reset (R523–R527, R544): the boot, RESET_N, DEV_RESET and PWR_GOOD; from these the statement O31.
-/

open Sys2Proof

namespace Sys2Proof.Machine

/-- A boot that ends says so, with its time. -/
theorem Dev.bootRest_done (d : Dev) (x : Straps) :
    (d.bootRest x).rd AO.BOOT_STAT_BOOT_DONE 0 = 1 ∧
      (d.bootRest x).rd AO.BOOT_TIME 0 = x.bootMicros % 2 ^ AO.BOOT_TIME.w :=
  ⟨(Dev.rd_wr_off _ _ _ _ _ (by decide)).trans (Dev.rd_wr _ _ _ _ _), Dev.rd_wr _ _ _ _ _⟩

theorem Dev.bootRun_of_refclk {d : Dev} {x : Straps} (h : x.refclk = true) : d.bootRun x = (d.bootAO x).bootRest x := if_pos h

theorem Dev.bootRun_of_absent {d : Dev} {x : Straps} (h : x.refclk = false) : (d.bootRun x).boot.refWait = true := by
  rw [Dev.bootRun, h, if_neg (by exact Bool.false_ne_true)]

theorem Dev.bootRun_done (d : Dev) {x : Straps} (h : x.refclk = true) :
    (d.bootRun x).rd AO.BOOT_STAT_BOOT_DONE 0 = 1 ∧
      (d.bootRun x).rd AO.BOOT_TIME 0 = x.bootMicros % 2 ^ AO.BOOT_TIME.w := by
  rw [Dev.bootRun_of_refclk h]
  exact Dev.bootRest_done _ x

section
variable {d : Dev}

theorem Dev.nvCut_of_none (h : d.nvOp = none) : d.nvCut = d := by
  rw [Dev.nvCut, h]

theorem Dev.nvFinish_of_none (h : d.nvOp = none) : d.nvFinish = d := by
  rw [Dev.nvFinish, h]

/-- A write that RESET_N cuts off leaves what the board presents. -/
theorem Dev.nvCut_boot : d.nvCut.boot = d.boot := by
  unfold Dev.nvCut
  split
  · split <;> rfl
  · rfl

theorem Dev.resetAndBoot_of_none (h : d.boot.board = none) : d.resetAndBoot = d.devReset := by
  rw [Dev.resetAndBoot]
  simp only [show d.devReset.boot.board = d.boot.board from rfl, h]

theorem Dev.resetAndBoot_of_some {x : Straps} (h : d.boot.board = some x) : d.resetAndBoot = d.devReset.bootRun x := by
  rw [Dev.resetAndBoot]
  simp only [show d.devReset.boot.board = d.boot.board from rfl, h]

/-! ### DEV_RESET (R527) -/

theorem Word.toNat_ne {v : Word} {n : Nat} (h : v ≠ BitVec.ofNat 32 n) : v.toNat ≠ n := fun hn =>
  h (by rw [← hn, BitVec.ofNat_toNat, BitVec.setWidth_eq])

/-- No key of DEV_RESET has been written. -/
def Dev.unkeyed (d : Dev) : Dev := { d with boot := { d.boot with keyBy := none } }

theorem Dev.unkeyed_of_none (h : d.boot.keyBy = none) : d.unkeyed = d := by
  rw [Dev.unkeyed, ← h]

theorem Dev.resetKey_of_none (r v : Nat) (h : d.boot.keyBy = none) :
    d.resetKey r v =
      if v = 0xC0DE7160 then { d with boot := { d.boot with keyBy := some (r, d.ticks) } } else d.evt 0 0 evtBAD_ACCESS := by
  have hnone := Dev.unkeyed_of_none h
  rw [Dev.unkeyed] at hnone
  unfold Dev.resetKey
  simp only [h]
  split
  · rfl
  · rw [hnone, Dev.badAccess]

theorem Dev.resetKey_of_live {r t : Nat} (v : Nat) (h : d.boot.keyBy = some (r, t)) (ht : d.ticks ≤ t + 781250) :
    d.resetKey r v = if v = 0x7160C0DE then d.unkeyed.nvFinish.resetAndBoot else d.unkeyed.evt 0 0 evtBAD_ACCESS := by
  unfold Dev.resetKey
  simp only [h, ht, if_true, true_and]
  rfl

end

section
variable {s : State}

theorem exec_pwrGoodRise (x : Straps) :
    exec (.pwrGoodRise x) s = .next (s.landed (if s.dev.boot.aoUp then s.dev else s.dev.bootRun x)) := rfl

theorem exec_refclkWaitExpiry (x : Straps) :
    exec (.refclkWaitExpiry x) s = .next (s.landed (if s.dev.boot.refWait then
      ({ s.dev with boot := { s.dev.boot with board := some x } } : Dev).bootRest x else s.dev)) := rfl

theorem exec_resetN (n : Nat) :
    exec (.resetN n) s = .next (s.landed (if n < 1000 then s.dev else s.dev.nvCut.resetAndBoot)) := rfl

theorem exec_devReset {r : Req} (v : Word) (h : s.dev.takes r.num 0 0 = true) :
    exec (.devReset r v) s = .next (s.landed (s.dev.resetKey r.num v.toNat)) :=
  State.updR_busW s _ _ _ (fun _ d => d.resetKey r.num v.toNat) h

theorem exec_pwrGoodFall : exec .pwrGoodFall s = .next (s.landed
    { s.dev.nvFinish.devReset with boot := { s.dev.nvFinish.devReset.boot with board := none } }) := rfl

end

/-- Settles O31, by the equations of the boot, of RESET_N, DEV_RESET and PWR_GOOD. -/
theorem powerAndReset : Obligations.PowerAndReset := by
  unfold Obligations.PowerAndReset
  refine fun s r x => ⟨fun h => ?_, fun h hx => ?_, fun h hx => ?_, fun h => ?_, fun h => ?_, fun n hn => ?_, fun n hn hb ho => ?_,
    fun n hn y hb hy => ?_, fun ht hk => ⟨?_, fun v hv => ?_⟩, fun ht t0 hk hlive => ⟨?_, fun v hv => ?_⟩, fun ho => ?_⟩
  · rw [exec_pwrGoodRise, if_pos h]
  · rw [exec_pwrGoodRise, if_neg (ne_true_of_eq_false h)]
    refine ⟨_, rfl, ?_⟩
    rw [State.landed_dev, Dev.done_rd, Dev.done_rd]
    exact s.dev.bootRun_done hx
  · rw [exec_pwrGoodRise, if_neg (ne_true_of_eq_false h)]
    refine ⟨_, rfl, ?_⟩
    rw [State.landed_dev, Dev.done_boot]
    exact Dev.bootRun_of_absent hx
  · rw [exec_refclkWaitExpiry, if_neg (ne_true_of_eq_false h)]
  · rw [exec_refclkWaitExpiry, if_pos h]
    refine ⟨_, rfl, ?_⟩
    rw [State.landed_dev, Dev.done_rd]
    exact (Dev.bootRest_done _ x).1
  · rw [exec_resetN, if_pos hn]
  · rw [exec_resetN, if_neg (Nat.not_lt.2 hn), Dev.nvCut_of_none ho, Dev.resetAndBoot_of_none hb]
    exact ⟨_, rfl, rfl, rfl, rfl, rfl⟩
  · rw [exec_resetN, if_neg (Nat.not_lt.2 hn), Dev.resetAndBoot_of_some (by rw [Dev.nvCut_boot]; exact hb)]
    refine ⟨_, rfl, rfl, ?_⟩
    rw [State.landed_dev, Dev.done_rd, Dev.done_rd]
    exact Dev.bootRun_done _ hy
  · rw [exec_devReset _ ht, Dev.resetKey_of_none _ _ hk, if_pos (by decide)]
  · rw [exec_devReset _ ht, Dev.resetKey_of_none _ _ hk, if_neg (Word.toNat_ne hv)]
  · rw [exec_devReset _ ht, Dev.resetKey_of_live _ hk hlive, if_pos (by decide), Dev.unkeyed]
  · rw [exec_devReset _ ht, Dev.resetKey_of_live _ hk hlive, if_neg (Word.toNat_ne hv), Dev.unkeyed]
  · rw [exec_pwrGoodFall, Dev.nvFinish_of_none ho]
    exact ⟨_, rfl, rfl, rfl, rfl, rfl, rfl, rfl⟩

end Sys2Proof.Machine
end

