-- ==== Sys2Proof/Proofs/Positions.lean ====
section
/-!
PROOFS. Channels of the Position Unit (R177–R199): limits, commands and REBASE; from these the statement O33.
-/

open Sys2Proof

namespace Sys2Proof.Machine

/-! ### A count held at a limit (R190, R191) -/

/-- A count beyond a limit is held there: the part lost goes to LIMIT_EXCESS, one flag sets and the other clears, and the event is
raised where the flag was clear. -/
def Dev.heldAt (d : Dev) (k : Nat) (lim c : Int) (on off : Fld) (b : Nat) : Dev :=
  ((((d.setChan k { d.chan k with cnt := lim, atLimit := true }).addExcess k (256 * (c - lim))).wr on k 1).wr off k 0).when
    (!d.is on k) (fun d => d.evt 0x10 k b)

/-- The two flags of the limits, in one of their orders. -/
def limitFlags (on off : Fld) : Prop :=
  on = Pos.STAT_AT_LIMIT_HI ∧ off = Pos.STAT_AT_LIMIT_LO ∨ on = Pos.STAT_AT_LIMIT_LO ∧ off = Pos.STAT_AT_LIMIT_HI

theorem Dev.setCount_high {d : Dev} {k : Nat} {c : Int} (h : (d.limits k).2 < c) :
    d.setCount k c = d.heldAt k (d.limits k).2 c Pos.STAT_AT_LIMIT_HI Pos.STAT_AT_LIMIT_LO Pos.E_LIMIT_HI := if_pos h

theorem Dev.setCount_low {d : Dev} {k : Nat} {c : Int} (hu : c ≤ (d.limits k).2) (h : c < (d.limits k).1) :
    d.setCount k c = d.heldAt k (d.limits k).1 c Pos.STAT_AT_LIMIT_LO Pos.STAT_AT_LIMIT_HI Pos.E_LIMIT_LO :=
  (if_neg (Int.not_lt.2 hu)).trans (if_pos h)

/-- The channel whose flags are clear, which is what confining starts from. -/
def Dev.flagsClear (d : Dev) (k : Nat) : Dev := (d.wr Pos.STAT_AT_LIMIT_HI k 0).wr Pos.STAT_AT_LIMIT_LO k 0

theorem Dev.limits_flagsClear (d : Dev) (k : Nat) : (d.flagsClear k).limits k = d.limits k := by
  refine Dev.limits_congr ?_ ?_ ?_
  all_goals rw [Dev.flagsClear, Dev.rd_wr_off _ _ _ _ _ (by decide), Dev.rd_wr_off _ _ _ _ _ (by decide)]

theorem Dev.confine_eq (d : Dev) (k : Nat) :
    d.confine k =
      if (d.chan k).stuck || (decide ((d.limits k).1 ≤ (d.chan k).cnt) && decide ((d.chan k).cnt ≤ (d.limits k).2)) then d
      else
        let e := ((d.flagsClear k).setCount k (d.chan k).cnt).showDir k (d.chan k).cnt
        e.setChan k { e.chan k with word := 256 * (e.chan k).cnt } := rfl

theorem Dev.confine_of_not {d : Dev} {k : Nat}
    (h : (d.chan k).stuck = true ∨ ((d.limits k).1 ≤ (d.chan k).cnt ∧ (d.chan k).cnt ≤ (d.limits k).2)) : d.confine k = d := by
  rw [Dev.confine_eq, if_pos]
  simpa only [Bool.or_eq_true, Bool.and_eq_true, decide_eq_true_eq] using h

/-- What is true of a channel once its count, which was beyond a limit, is held there. -/
structure Dev.Confined (d t : Dev) (k : Nat) (lim : Int) (on off : Fld) (b : Nat) : Prop where
  cnt : (t.chan k).cnt = lim
  word : (t.chan k).word = 256 * lim
  on : t.rd on k = 1
  off : t.rd off k = 0
  dir : t.rd Pos.STAT_DIR_NEG k = b2n (decide (lim < (d.chan k).cnt))
  excess : t.rd Pos.LIMIT_EXCESS k = uInt 64 (d.rdI Pos.LIMIT_EXCESS k + 256 * ((d.chan k).cnt - lim)) % 2 ^ 64
  event : (t.rd (Hdr.EVT 0x10) k).testBit b = true

/-- The stages of a count held at a limit, from a channel whose flags are clear. -/
theorem Dev.heldAt_flagsClear (d : Dev) (k : Nat) (lim c : Int) {on off : Fld} (b : Nat) (hf : limitFlags on off) :
    (d.flagsClear k).heldAt k lim c on off b =
      (((((d.flagsClear k).setChan k { d.chan k with cnt := lim, atLimit := true }).addExcess k (256 * (c - lim))).wr
        on k 1).wr off k 0).evt 0x10 k b := by
  have hclear : (d.flagsClear k).is on k = false := by
    rw [Dev.is_eq_false_iff]
    rcases hf with ⟨rfl, rfl⟩ | ⟨rfl, rfl⟩
    · rw [Dev.flagsClear, Dev.rd_wr_off _ _ _ _ _ (by decide), Dev.rd_wr, Nat.zero_mod]
    · rw [Dev.flagsClear, Dev.rd_wr, Nat.zero_mod]
  rw [Dev.heldAt, Dev.when_of_eq_true (by rw [hclear]; rfl)]
  rfl

theorem Dev.rd_addExcess (d : Dev) (k : Nat) (x : Int) :
    (d.addExcess k x).rd Pos.LIMIT_EXCESS k = uInt 64 (d.rdI Pos.LIMIT_EXCESS k + x) % 2 ^ 64 :=
  Dev.rd_wr _ _ _ _ _

theorem Dev.chan_addExcess_cnt (d : Dev) (k : Nat) (x : Int) : ((d.addExcess k x).chan k).cnt = (d.chan k).cnt := by
  rw [Dev.addExcess, Dev.wrI, Dev.wr_chan, Dev.chan_setChan]

theorem Dev.confined_of_held {d e : Dev} {k : Fin 8} {lim : Int} {on off : Fld} {b : Nat} (hf : limitFlags on off)
    (hne : lim ≠ (d.chan k).cnt) (hb : b < 32)
    (he : (d.flagsClear k).setCount k (d.chan k).cnt = (d.flagsClear k).heldAt k lim (d.chan k).cnt on off b)
    (ht : e = ((d.flagsClear k).setCount k (d.chan k).cnt).showDir k (d.chan k).cnt) :
    d.Confined (e.setChan k { e.chan k with word := 256 * (e.chan k).cnt }) k lim on off b := by
  rw [he, Dev.heldAt_flagsClear d k lim _ b hf] at ht
  have hcnt : (e.chan k).cnt = lim := by
    rw [ht, Dev.cnt_showDir, Dev.evt_chan, Dev.wr_chan, Dev.wr_chan, Dev.chan_addExcess_cnt, Dev.chan_setChan]
  refine ⟨?_, ?_, ?_, ?_, ?_, ?_, ?_⟩
  · rw [Dev.chan_setChan, hcnt]
  · rw [Dev.chan_setChan, hcnt]
  · rw [Dev.setChan_rd, ht]
    rcases hf with ⟨rfl, rfl⟩ | ⟨rfl, rfl⟩
    all_goals
      rw [Dev.rd_showDir_off _ _ _ _ (by decide), Dev.rd_evt_chan _ _ _ _ _ _ (by decide), Dev.rd_wr_off _ _ _ _ _ (by decide),
        Dev.rd_wr]
      rfl
  · rw [Dev.setChan_rd, ht]
    rcases hf with ⟨rfl, rfl⟩ | ⟨rfl, rfl⟩
    all_goals
      rw [Dev.rd_showDir_off _ _ _ _ (by decide), Dev.rd_evt_chan _ _ _ _ _ _ (by decide), Dev.rd_wr, Nat.zero_mod]
  · rw [Dev.setChan_rd, ht, Dev.rd_showDir]
    · rw [← Dev.cnt_showDir, ← ht, hcnt]
    · rw [← Dev.cnt_showDir _ _ (d.chan k).cnt, ← ht, hcnt]
      exact hne
  · rw [Dev.setChan_rd, ht, Dev.rd_showDir_off _ _ _ _ (by decide), Dev.rd_evt_chan _ _ _ _ _ _ (by decide)]
    rcases hf with ⟨rfl, rfl⟩ | ⟨rfl, rfl⟩
    all_goals
      rw [Dev.rd_wr_off _ _ _ _ _ (by decide), Dev.rd_wr_off _ _ _ _ _ (by decide), Dev.rd_addExcess, Dev.rdI, Dev.setChan_rd,
        Dev.flagsClear, Dev.rd_wr_off _ _ _ _ _ (by decide), Dev.rd_wr_off _ _ _ _ _ (by decide)]
      rfl
  · rw [Dev.setChan_rd, ht, Dev.rd_showDir_off _ _ _ _ (by decide)]
    exact Dev.evt_set _ _ _ _ hb

theorem Dev.confine_high {d : Dev} {k : Fin 8} (hs : (d.chan k).stuck = false) (h : (d.limits k).2 < (d.chan k).cnt) :
    d.Confined (d.confine k) k (d.limits k).2 Pos.STAT_AT_LIMIT_HI Pos.STAT_AT_LIMIT_LO Pos.E_LIMIT_HI := by
  rw [Dev.confine_eq, hs, decide_eq_false (Int.not_le.2 h), Bool.and_false, if_neg (by decide)]
  refine Dev.confined_of_held (.inl ⟨rfl, rfl⟩) (by omega) (by decide) ?_ rfl
  rw [← Dev.limits_flagsClear d k] at h ⊢
  exact Dev.setCount_high h

theorem Dev.confine_low {d : Dev} {k : Fin 8} (hs : (d.chan k).stuck = false) (hl : (d.limits k).1 ≤ (d.limits k).2)
    (h : (d.chan k).cnt < (d.limits k).1) :
    d.Confined (d.confine k) k (d.limits k).1 Pos.STAT_AT_LIMIT_LO Pos.STAT_AT_LIMIT_HI Pos.E_LIMIT_LO := by
  rw [Dev.confine_eq, hs, decide_eq_false (Int.not_le.2 h), Bool.false_and, if_neg (by decide)]
  refine Dev.confined_of_held (.inr ⟨rfl, rfl⟩) (by omega) (by decide) ?_ rfl
  rw [← Dev.limits_flagsClear d k] at h hl ⊢
  exact Dev.setCount_low (by omega) h

/-! ### REBASE (R192) -/

/-- The channel itself moves by the offset. -/
def Dev.rebaseChan (d : Dev) (k : Nat) (o : Int) : Dev :=
  d.setChan k { d.chan k with
    cnt := (d.chan k).cnt - o / 256, word := (d.chan k).word - o, wPrev := (d.chan k).wPrev - o
    hold := (d.chan k).hold.map (fun w => w - o)
    readings := (d.chan k).readings.map (fun r => { r with cnt := r.cnt - o / 256 }) }

/-- The settings and the index of the channel move with it. -/
def Dev.rebaseRegs (d : Dev) (k : Nat) (o : Int) (ser : Bool) : Dev :=
  let e := d.when ser (fun d => d.wrI Pos.SER_BASE k (d.rdI Pos.SER_BASE k + o))
  e.wrI Pos.INDEX_POS k (e.rdI Pos.INDEX_POS k - o)

/-- The generators of the channel move with it. -/
def Dev.rebaseGens (d : Dev) (k : Nat) (o : Int) : Dev :=
  (List.range 16).foldl (fun d g =>
    if d.genCh g = k then
      let x := d.gen g
      (d.setGen g { x with
        origin := x.origin.map (fun v => v - o), next := x.next - o, last := x.last.map (fun v => v - o) }).showNext g
    else d) d

/-- The segments of the channel move with it. -/
def Dev.rebaseSegs (d : Dev) (k : Nat) (o : Int) : Dev :=
  (List.range 16).foldl (fun d p => d.setTrack p { d.track p with
    segs := (d.track p).segs.map (fun s => if s.ch == k then { s with s := s.s - o, e := s.e - o } else s) }) d

/-- The number of the next epoch. -/
def Dev.nextEpoch (d : Dev) (k : Nat) : Nat := (d.rd Pos.STAT_EPOCH k + 1) % 16

/-- The device before the new epoch is shown. -/
def Dev.rebaseMoved (d : Dev) (k : Nat) (o : Int) : Dev := ((d.rebaseChan k o).rebaseRegs k o (d.serMode k)).rebaseGens k o

theorem Dev.rebase_refused {d : Dev} {k : Nat} (h : d.rebaseRefused k = true) :
    d.rebase k = d.evt 0x10 k Pos.E_REBASE_REFUSED := if_pos h

theorem Dev.rebase_ok {d : Dev} {k : Nat} (h : d.rebaseRefused k = false) {m : Dev}
    (hm : m = d.rebaseMoved k (d.rdI Pos.REBASE_OFFSET k)) :
    d.rebase k =
      (((((m.wr Pos.STAT_EPOCH k (m.nextEpoch k)).wrI Pos.EPOCH_OFS k (d.rdI Pos.REBASE_OFFSET k) (m.nextEpoch k)).rebaseSegs k
        (d.rdI Pos.REBASE_OFFSET k)).incSat Pos.CNT_C_REBASE_CNT k).evt 0x10 k Pos.E_REBASE_DONE) := by
  rw [hm]
  exact if_neg (ne_true_of_eq_false h)

theorem Dev.rebaseGens_keeps {β : Type} (q : Dev → β) (hg : ∀ (d : Dev) g x, q ((d.setGen g x).showNext g) = q d) (d : Dev)
    (k : Nat) (o : Int) : q (d.rebaseGens k o) = q d := by
  refine foldl_keeps q _ _ (fun d g _ => ?_) d
  dsimp only
  split
  · exact hg _ _ _
  · rfl

theorem Dev.rebaseSegs_keeps {β : Type} (q : Dev → β) (ht : ∀ (d : Dev) p x, q (d.setTrack p x) = q d) (d : Dev) (k : Nat)
    (o : Int) : q (d.rebaseSegs k o) = q d :=
  foldl_keeps q _ _ (fun _ _ _ => ht _ _ _) d

theorem Dev.rebaseRegs_keeps {β : Type} (q : Dev → β) (k : Nat)
    (hs : ∀ (d : Dev) v, q (d.wr Pos.SER_BASE k v) = q d) (hi : ∀ (d : Dev) v, q (d.wr Pos.INDEX_POS k v) = q d) (d : Dev)
    (o : Int) (ser : Bool) : q (d.rebaseRegs k o ser) = q d :=
  (hi _ _).trans (Dev.when_keeps q _ _ (fun d => d.wrI Pos.SER_BASE k (d.rdI Pos.SER_BASE k + o)) (hs _ _))

theorem Dev.showNext_chan (d : Dev) (g k : Nat) (x : GenH) : ((d.setGen g x).showNext g).chan k = d.chan k := rfl

theorem Dev.rebaseMoved_chan (d : Dev) (k : Nat) (o : Int) :
    ((d.rebaseMoved k o).chan k).cnt = (d.chan k).cnt - o / 256 ∧ ((d.rebaseMoved k o).chan k).word = (d.chan k).word - o := by
  rw [Dev.rebaseMoved, Dev.rebaseGens_keeps (fun d => d.chan k) (fun _ _ _ => rfl),
    Dev.rebaseRegs_keeps (fun d => d.chan k) k (fun _ _ => rfl) (fun _ _ => rfl), Dev.rebaseChan, Dev.chan_setChan]
  exact ⟨rfl, rfl⟩

theorem Dev.rebaseMoved_epoch (d : Dev) (k : Fin 8) (o : Int) :
    (d.rebaseMoved k o).rd Pos.STAT_EPOCH k = d.rd Pos.STAT_EPOCH k := by
  rw [Dev.rebaseMoved, Dev.rebaseGens_keeps (fun d => d.rd Pos.STAT_EPOCH k),
    Dev.rebaseRegs_keeps (fun d => d.rd Pos.STAT_EPOCH k) k, Dev.rebaseChan, Dev.setChan_rd]
  · exact fun d v => Dev.rd_wr_off _ _ _ _ _ (by decide)
  · exact fun d v => Dev.rd_wr_off _ _ _ _ _ (by decide)
  · intro d g x
    refine (Dev.rd_wr_ne _ _ _ _ _ _ _ _ ?_).trans (Dev.setGen_rd _ _ _ _ _ _)
    simp only [Fld.key, Pos.STAT_EPOCH, Gen.NEXT_POS]
    omega

theorem Dev.epochOfs_quiet (k : Fin 8) {j : Nat} (hj : j < 16) : Pos.EPOCH_OFS.quiet k j := by
  have hk := k.2
  simp only [Fld.quiet, evtKey, Fld.key, Pos.EPOCH_OFS, Bool.or_eq_false_iff, Bool.and_eq_false_iff, beq_eq_false_iff_ne]
  omega

/-- What REBASE leaves of a channel. -/
theorem Dev.rebase_effect {d : Dev} {k : Fin 8} (h : d.rebaseRefused k = false) :
    ((d.rebase k).chan k).cnt = (d.chan k).cnt - d.rdI Pos.REBASE_OFFSET k / 256 ∧
      ((d.rebase k).chan k).word = (d.chan k).word - d.rdI Pos.REBASE_OFFSET k ∧
      (d.rebase k).rd Pos.STAT_EPOCH k = d.nextEpoch k ∧
      (d.rebase k).rd Pos.EPOCH_OFS k (d.nextEpoch k) = uInt 64 (d.rdI Pos.REBASE_OFFSET k) % 2 ^ 64 ∧
      ((d.rebase k).rd (Hdr.EVT 0x10) k).testBit Pos.E_REBASE_DONE = true := by
  have hmoved := d.rebaseMoved_chan k (d.rdI Pos.REBASE_OFFSET k)
  have hepoch : (d.rebaseMoved k (d.rdI Pos.REBASE_OFFSET k)).nextEpoch k = d.nextEpoch k := by
    rw [Dev.nextEpoch, Dev.rebaseMoved_epoch, Dev.nextEpoch]
  have hlt : d.nextEpoch k < 16 := Nat.mod_lt _ (by decide)
  have hchan : (d.rebase k).chan k = (d.rebaseMoved k (d.rdI Pos.REBASE_OFFSET k)).chan k := by
    rw [Dev.rebase_ok h rfl, Dev.evt_chan, Dev.incSat, Dev.addSat, Dev.wr_chan,
      Dev.rebaseSegs_keeps (fun d => d.chan k) (fun _ _ _ => rfl), Dev.wrI, Dev.wr_chan, Dev.wr_chan]
  rw [hchan, Dev.rebase_ok h rfl, hepoch]
  refine ⟨hmoved.1, hmoved.2, ?_, ?_, Dev.evt_set _ _ _ _ (by decide)⟩
  · rw [Dev.rd_evt_chan _ _ _ _ _ _ (by decide), Dev.rd_incSat_off _ _ _ _ (by decide),
      Dev.rebaseSegs_keeps (fun d => d.rd Pos.STAT_EPOCH k) (fun _ _ _ => rfl), Dev.wrI, Dev.rd_wr_ne, Dev.rd_wr]
    · exact Nat.mod_eq_of_lt hlt
    · simp only [Fld.key, Pos.STAT_EPOCH, Pos.EPOCH_OFS]
      omega
  · rw [Dev.evt_rd _ _ _ _ _ _ _ (Dev.epochOfs_quiet k hlt), Dev.incSat, Dev.addSat, Dev.rd_wr_ne,
      Dev.rebaseSegs_keeps (fun e => e.rd Pos.EPOCH_OFS k (d.nextEpoch k)) (fun _ _ _ => rfl), Dev.wrI, Dev.rd_wr]
    · rfl
    · simp only [Fld.key, Pos.CNT_C_REBASE_CNT, Pos.EPOCH_OFS]
      omega

/-! ### Settings and commands -/

section
variable {s : State} {r : Req} {k : Fin 8} (ht : s.dev.takes r.num 0x10 k = true)
include ht

theorem exec_zArm : exec (.zArm r k) s = .next (s.withDev (s.dev.wr Pos.STAT_Z_ARMED k 1)) := State.upd_busW s _ _ _ _ ht

theorem exec_clrExcess : exec (.clrExcess r k) s = .next (s.withDev (s.dev.cmdClrExcess k)) := State.upd_busW s _ _ _ _ ht

theorem exec_clrSuspect : exec (.clrSuspect r k) s = .next (s.withDev (s.dev.cmdClrSuspect k)) :=
  State.upd_busW s _ _ _ _ ht

theorem exec_limitWrite (high : Bool) (v : BitVec 64) :
    exec (.limitWrite r k high v) s = .next (s.withDev (s.dev.limitWrite k high v.toNat)) := State.upd_busW s _ _ _ _ ht

theorem exec_rebase : exec (.rebase r k) s = .next (s.withDev (s.dev.rebase k)) := State.upd_busW s _ _ _ _ ht

end

theorem Dev.cmdClrSuspect_of_cause {d : Dev} {k : Nat}
    (h : d.wireLive k = true ∨ d.posFault k = true ∨ (d.chan k).suspSample = some d.sample) : d.cmdClrSuspect k = d := by
  refine if_pos ?_
  simpa only [Bool.or_eq_true, beq_iff_eq, or_assoc] using h

theorem Dev.cmdClrSuspect_of_none {d : Dev} {k : Nat} (hw : d.wireLive k = false) (hf : d.posFault k = false)
    (hs : (d.chan k).suspSample ≠ some d.sample) : d.cmdClrSuspect k = d.wr Pos.STAT_POS_SUSPECT k 0 := by
  refine if_neg ?_
  rw [hw, hf, beq_eq_false_iff_ne.2 hs]
  decide

/-- Settles O33, by the equations of the settings and what confining and REBASE leave of a channel. -/
theorem positionSettings : Obligations.PositionSettings := by
  unfold Obligations.PositionSettings
  refine ⟨fun s r k ht => ⟨exec_zArm ht, fun he => ?_, fun he => ?_, fun hw hf hs => ?_, fun h => ?_,
    fun high v => ⟨fun hv => ?_, fun hv hlt => ?_⟩, fun h => ?_, fun h => ⟨_, exec_rebase ht, State.withDev_mem s _, ?_⟩⟩,
    fun d k => ⟨Dev.confine_of_not, fun hs h t htt => ?_, fun hs hl h t htt => ?_⟩⟩
  · rw [exec_clrExcess ht, Dev.cmdClrExcess, if_neg he, Dev.wrI, show uInt Pos.LIMIT_EXCESS.w 0 = 0 by decide]
  · rw [exec_clrExcess ht, Dev.cmdClrExcess, if_pos he]
  · rw [exec_clrSuspect ht, Dev.cmdClrSuspect_of_none hw hf hs]
  · rw [exec_clrSuspect ht, Dev.cmdClrSuspect_of_cause h]
  · rw [exec_limitWrite ht, Dev.limitWrite]
    exact congrArg (fun d => Host.Outcome.next (s.withDev d)) (if_pos hv)
  · rw [exec_limitWrite ht, Dev.limitWrite]
    exact congrArg (fun d => Host.Outcome.next (s.withDev d)) (if_neg (fun h => h.elim (fun h => h hv) (Int.not_le.2 hlt)))
  · rw [exec_rebase ht, Dev.rebase_refused h]
  · rw [State.withDev_dev, Dev.done_chan, Dev.done_rd, Dev.done_rd, Dev.done_rd]
    exact Dev.rebase_effect h
  · obtain ⟨hcnt, hword, hon, hoff, hdir, hex, hevt⟩ := Dev.confine_high hs h
    rw [htt, hdir, decide_eq_true h]
    exact ⟨hcnt, hword, hon, hoff, rfl, hex, hevt⟩
  · obtain ⟨hcnt, hword, hon, hoff, hdir, hex, hevt⟩ := Dev.confine_low hs hl h
    rw [htt, hdir, decide_eq_false (Int.not_lt.2 (Int.le_of_lt h))]
    exact ⟨hcnt, hword, hon, hoff, rfl, hex, hevt⟩

end Sys2Proof.Machine
end

