-- ==== Sys2Proof/Proofs/Serial.lean ====
section
/-!
PROOFS. Serial sensors, position history, wire checks and adapter identity (R178, R184–R188, R194–R200, R206, R207, R293); from
these the statement O34.
-/

open Sys2Proof

namespace Sys2Proof.Machine

/-! ### A fault that makes the position suspect (R178, R187, R199) -/

/-- POS_SUSPECT sets and a fault of the channel is reported. -/
def Dev.suspectFlt (d : Dev) (k b : Nat) : Dev := (d.setSuspect k).flt 0x10 k b

theorem Dev.rd_suspectFlt_off (d : Dev) (k : Fin 8) (b : Nat) (f : Fld) (h : f.place ≠ Pos.STAT_POS_SUSPECT.place)
    (hf : f.off < 4096 ∧ f.lo < 32 ∧ f.off ≠ 0x14 ∧ f.off ≠ 0x20 ∧ f.cls ≠ 0x1B ∧ 2 < f.cls ∧ (f.cls ≠ 0x12 ∨ f.off ≠ 0x10)) :
    (d.suspectFlt k b).rd f k = d.rd f k := by
  obtain ⟨ho, hl, he, hflt, hq, ha, hs⟩ := hf
  rw [Dev.suspectFlt, Dev.rd_flt_off _ _ _ _ f k ⟨ho, hl, he, hflt, hq, ha, hs, by decide⟩, Dev.setSuspect,
    Dev.rd_wr_off _ _ _ _ _ h, Dev.setChan_rd]

theorem Dev.rd_suspectFlt (d : Dev) (k : Fin 8) (b : Nat) : (d.suspectFlt k b).rd Pos.STAT_POS_SUSPECT k = 1 := by
  rw [Dev.suspectFlt, Dev.rd_flt_off _ _ _ _ _ k (by decide), Dev.setSuspect, Dev.rd_wr]
  rfl

theorem Dev.suspectFlt_evt (d : Dev) (k : Fin 8) (b : Nat) {e : Nat} (he : e < 32)
    (h : (d.rd (Hdr.EVT 0x10) k).testBit e = true) : ((d.suspectFlt k b).rd (Hdr.EVT 0x10) k).testBit e = true := by
  refine (Dev.flt_faulted _ _ _ _).evts _ _ _ he ?_
  rw [Dev.setSuspect, Dev.rd_wr_off _ _ _ _ _ (by decide), Dev.setChan_rd]
  exact h

theorem Dev.suspectFlt_chan (d : Dev) (k b : Nat) :
    (d.suspectFlt k b).chan k = { d.chan k with suspSample := some d.sample } := by
  rw [Dev.suspectFlt, Dev.chan, Dev.flt_pos, ← Dev.chan, Dev.setSuspect, Dev.wr_chan, Dev.chan_setChan]

/-! ### A discarded frame (R187) -/

/-- The channel that has counted a discarded frame, before the fourth in a row is a fault. -/
def Dev.serErrSeen (d : Dev) (k code : Nat) : Dev :=
  (((d.setChan k { d.chan k with errRun := (d.chan k).errRun + 1 }).wr Pos.SER_STAT_LAST_ERR k code).incSat
    Pos.CNT_B_SER_ERR_CNT k).evt 0x10 k Pos.E_SER_ERR

theorem Dev.serErr_eq (d : Dev) (k code : Nat) :
    d.serErr k code =
      (d.serErrSeen k code).when ((d.chan k).errRun + 1 == 4) (fun d => d.suspectFlt k Pos.F_SER_FAULT) := rfl

theorem Dev.serErrSeen_shows (d : Dev) (k : Fin 8) (code : Nat) :
    (d.serErrSeen k code).rd Pos.SER_STAT_LAST_ERR k = code % 2 ^ Pos.SER_STAT_LAST_ERR.w ∧
      ((d.serErrSeen k code).rd (Hdr.EVT 0x10) k).testBit Pos.E_SER_ERR = true ∧
      (d.serErrSeen k code).chan k = { d.chan k with errRun := (d.chan k).errRun + 1 } := by
  refine ⟨?_, Dev.evt_set _ _ _ _ (by decide), ?_⟩
  · rw [Dev.serErrSeen, Dev.rd_evt_chan _ _ _ _ _ _ (by decide), Dev.rd_incSat_off _ _ _ _ (by decide), Dev.rd_wr]
  · rw [Dev.serErrSeen, Dev.evt_chan, Dev.incSat, Dev.addSat, Dev.wr_chan, Dev.wr_chan, Dev.chan_setChan]

theorem Dev.serErr_shows (d : Dev) (k : Fin 8) (code : Nat) :
    (d.serErr k code).rd Pos.SER_STAT_LAST_ERR k = code % 2 ^ Pos.SER_STAT_LAST_ERR.w ∧
      ((d.serErr k code).rd (Hdr.EVT 0x10) k).testBit Pos.E_SER_ERR = true ∧
      ((d.serErr k code).chan k).errRun = (d.chan k).errRun + 1 ∧ ((d.serErr k code).chan k).cnt = (d.chan k).cnt := by
  obtain ⟨hlast, hevt, hchan⟩ := d.serErrSeen_shows k code
  rw [Dev.serErr_eq]
  refine Dev.when_induct (fun e => e.rd Pos.SER_STAT_LAST_ERR k = code % 2 ^ Pos.SER_STAT_LAST_ERR.w ∧
    (e.rd (Hdr.EVT 0x10) k).testBit Pos.E_SER_ERR = true ∧ (e.chan k).errRun = (d.chan k).errRun + 1 ∧
    (e.chan k).cnt = (d.chan k).cnt) _ _ _ ?_ fun ⟨hlast, hevt, hrun, hcnt⟩ => ?_
  · rw [hchan]
    exact ⟨hlast, hevt, rfl, rfl⟩
  · rw [Dev.suspectFlt_chan, Dev.rd_suspectFlt_off _ _ _ _ (by decide) (by decide)]
    exact ⟨hlast, Dev.suspectFlt_evt _ _ _ (by decide) hevt, hrun, hcnt⟩

theorem Dev.serErr_fourth {d : Dev} {k : Fin 8} (code : Nat) (h : (d.chan k).errRun = 3) :
    (d.serErr k code).rd Pos.STAT_POS_SUSPECT k = 1 ∧
      ((d.serErr k code).rd (Hdr.FLT 0x10) k).testBit Pos.F_SER_FAULT = true := by
  rw [Dev.serErr_eq, h, Dev.when_of_eq_true (by decide)]
  exact ⟨Dev.rd_suspectFlt _ _ _, Dev.flt_set _ _ _ _ 3 (by decide) rfl⟩

/-! ### A frame completes (R184–R188) -/

/-- The channel whose frame under way is over, with the line delay that a BiSS-C frame with an Ack reports. -/
def Dev.frameOver (d : Dev) (k : Nat) (data : List Nat) (delay : Nat) : Dev :=
  (d.setChan k { d.chan k with frame := none }).when (d.rd Pos.ENC_CFG_MODE k == 2 && data.getD 0 1 == 0) (fun d =>
    d.wr Pos.SER_STAT_LINE_DELAY k (min 65535 delay))

theorem Dev.serReading_none {d : Dev} {k : Nat} (bs : List Nat) (y dl : Nat) (h : ((d.keepWord k).chan k).frame = none) :
    d.serReading k bs y dl = d.keepWord k := by
  unfold Dev.serReading
  simp only [h]

theorem Dev.serReading_some {d : Dev} {k : Nat} (bs : List Nat) (y dl : Nat) {start : Nat} {w : Bool}
    (h : ((d.keepWord k).chan k).frame = some (start, w)) :
    d.serReading k bs y dl =
      if !(d.keepWord k).enabled 0x10 k || !(d.keepWord k).serMode k || ((d.keepWord k).chan k).stuck then d.keepWord k
      else if w then ((d.keepWord k).frameOver k bs dl).serErr k 6
      else match ((d.keepWord k).frameOver k bs dl).serParse k bs with
        | .inl code => ((d.keepWord k).frameOver k bs dl).serErr k code
        | .inr (raw, warn) =>
          let d := ((d.keepWord k).frameOver k bs dl).when warn (fun d => d.evt 0x10 k Pos.E_SER_WARN)
          (d.wr Pos.SER_RAW k raw).serCount k raw (d.latchTime k (start - y % cycleL)) := by
  unfold Dev.serReading
  simp only [h] <;> rfl

/-- Keeping the word changes only what the channel remembers of it. -/
theorem Dev.keepWord_rd (d : Dev) (k : Nat) (f : Fld) (i : Nat) : (d.keepWord k).rd f i = d.rd f i := by
  rcases d.keepWord_cases k with h | ⟨w, s, h⟩
  all_goals rw [h]
  exact Dev.setChan_rd _ _ _ _ _ _

theorem Dev.keepWord_frame (d : Dev) (k : Nat) : ((d.keepWord k).chan k).frame = (d.chan k).frame := by
  rcases d.keepWord_cases k with h | ⟨w, s, h⟩
  · rw [h]
  · rw [h, Dev.chan_setChan]

theorem Dev.keepWord_stuck (d : Dev) (k : Nat) : ((d.keepWord k).chan k).stuck = (d.chan k).stuck := by
  rcases d.keepWord_cases k with h | ⟨w, s, h⟩
  · rw [h]
  · rw [h, Dev.chan_setChan]

theorem Dev.serMode_congr {d e : Dev} {k : Nat} (h : e.rd Pos.ENC_CFG_MODE k = d.rd Pos.ENC_CFG_MODE k) :
    e.serMode k = d.serMode k := congrArg (fun m => decide (2 ≤ m)) h

/-- A channel that takes no reading. -/
def Dev.serOff (d : Dev) (k : Nat) : Bool := !d.enabled 0x10 k || !d.serMode k || (d.chan k).stuck

theorem Dev.serOff_of {d : Dev} {k : Nat}
    (h : d.enabled 0x10 k = false ∨ d.serMode k = false ∨ (d.chan k).stuck = true) : d.serOff k = true := by
  rw [Dev.serOff, Bool.or_eq_true, Bool.or_eq_true, Bool.not_eq_true', Bool.not_eq_true', or_assoc]
  exact h

theorem Dev.serOff_eq_false {d : Dev} {k : Nat} (he : d.enabled 0x10 k = true) (hm : d.serMode k = true)
    (hs : (d.chan k).stuck = false) : d.serOff k = false := by
  rw [Dev.serOff, he, hm, hs]
  rfl

theorem Dev.serOff_keepWord (d : Dev) (k : Nat) : (d.keepWord k).serOff k = d.serOff k := by
  rw [Dev.serOff, Dev.serOff, Dev.enabled_congr (Dev.keepWord_rd d k _ _), Dev.serMode_congr (Dev.keepWord_rd d k _ _),
    Dev.keepWord_stuck]

theorem Dev.serReading_off {d : Dev} {k : Nat} (bs : List Nat) (y dl : Nat) (h : d.serOff k = true) :
    d.serReading k bs y dl = d.keepWord k := by
  cases hf : ((d.keepWord k).chan k).frame with
  | none => exact Dev.serReading_none bs y dl hf
  | some x =>
    obtain ⟨start, w⟩ := x
    rw [Dev.serReading_some bs y dl hf]
    exact if_pos ((d.serOff_keepWord k).trans h)

/-- What the reading of a frame that is over looks at is as before. -/
theorem Dev.frameOver_rd (d : Dev) (k : Nat) (bs : List Nat) (dl : Nat) (f : Fld)
    (h : f.place ≠ Pos.SER_STAT_LINE_DELAY.place) : ((d.keepWord k).frameOver k bs dl).rd f k = d.rd f k := by
  rw [Dev.frameOver, Dev.when_keeps (fun d => d.rd f k) _ _ _ (Dev.rd_wr_off _ _ _ _ _ h), Dev.setChan_rd, Dev.keepWord_rd]

theorem Dev.serParse_congr {d e : Dev} {k : Nat} (bs : List Nat)
    (hbits : e.rd Pos.SER_CFG_POS_BITS k = d.rd Pos.SER_CFG_POS_BITS k)
    (hmode : e.rd Pos.ENC_CFG_MODE k = d.rd Pos.ENC_CFG_MODE k)
    (herr : e.rd Pos.SER_CFG_SSI_ERRBIT k = d.rd Pos.SER_CFG_SSI_ERRBIT k)
    (hgray : e.rd Pos.SER_CFG_GRAY k = d.rd Pos.SER_CFG_GRAY k) : e.serParse k bs = d.serParse k bs := by
  simp only [Dev.serParse, hbits, hmode, Dev.is_congr herr, Dev.is_congr hgray]

theorem Dev.frameOver_parse (d : Dev) (k : Nat) (bs : List Nat) (dl : Nat) :
    ((d.keepWord k).frameOver k bs dl).serParse k bs = d.serParse k bs :=
  Dev.serParse_congr bs (Dev.frameOver_rd d k bs dl _ (by decide)) (Dev.frameOver_rd d k bs dl _ (by decide))
    (Dev.frameOver_rd d k bs dl _ (by decide)) (Dev.frameOver_rd d k bs dl _ (by decide))

theorem Dev.latchTime_congr {d e : Dev} {k : Nat}
    (h : e.rd Pos.SER_LATCH_LATCH_OFS k = d.rd Pos.SER_LATCH_LATCH_OFS k) (t : Nat) : e.latchTime k t = d.latchTime k t := by
  rw [Dev.latchTime, Dev.latchTime, Dev.rdI, Dev.rdI, h]

theorem Dev.frameOver_eq (d : Dev) (k : Nat) (bs : List Nat) (dl : Nat) :
    (d.keepWord k).frameOver k bs dl =
      if d.rd Pos.ENC_CFG_MODE k = 2 ∧ bs.getD 0 1 = 0 then
        ((d.keepWord k).setChan k { (d.keepWord k).chan k with frame := none }).wr Pos.SER_STAT_LINE_DELAY k (min 65535 dl)
      else (d.keepWord k).setChan k { (d.keepWord k).chan k with frame := none } := by
  rw [Dev.frameOver, Dev.keepWord_rd]
  split
  · next h => exact Dev.when_of_eq_true (by rw [h.1, h.2]; rfl)
  · next h =>
    refine Dev.when_of_eq_false ?_
    rw [Bool.and_eq_false_iff, beq_eq_false_iff_ne, beq_eq_false_iff_ne]
    exact Decidable.not_and_iff_or_not.1 h

section
variable {d : Dev} {k : Fin 8} (bs : List Nat) (y dl : Nat) {start : Nat} {w : Bool}
  (hf : (d.chan k).frame = some (start, w)) (hon : d.serOff k = false)
include hf hon

theorem Dev.serReading_wire (hw : w = true) :
    d.serReading k bs y dl = ((d.keepWord k).frameOver k bs dl).serErr k 6 := by
  rw [Dev.serReading_some bs y dl ((d.keepWord_frame k).trans hf)]
  exact (if_neg (ne_true_of_eq_false ((d.serOff_keepWord k).trans hon))).trans (if_pos hw)

theorem Dev.serReading_quiet (hw : w = false) :
    d.serReading k bs y dl = match ((d.keepWord k).frameOver k bs dl).serParse k bs with
        | .inl code => ((d.keepWord k).frameOver k bs dl).serErr k code
        | .inr (raw, warn) =>
          let d := ((d.keepWord k).frameOver k bs dl).when warn (fun d => d.evt 0x10 k Pos.E_SER_WARN)
          (d.wr Pos.SER_RAW k raw).serCount k raw (d.latchTime k (start - y % cycleL)) := by
  rw [Dev.serReading_some bs y dl ((d.keepWord_frame k).trans hf)]
  exact (if_neg (ne_true_of_eq_false ((d.serOff_keepWord k).trans hon))).trans (if_neg (ne_true_of_eq_false hw))

theorem Dev.serReading_bad (hw : w = false) {code : Nat} (hp : d.serParse k bs = .inl code) :
    d.serReading k bs y dl = ((d.keepWord k).frameOver k bs dl).serErr k code := by
  rw [Dev.serReading_quiet bs y dl hf hon hw, Dev.frameOver_parse, hp]

theorem Dev.serReading_good (hw : w = false) {raw : Nat} (hp : d.serParse k bs = .inr (raw, false)) :
    d.serReading k bs y dl = ((((d.keepWord k).frameOver k bs dl).wr Pos.SER_RAW k raw).serCount k raw
      (d.latchTime k (start - y % cycleL))) := by
  rw [Dev.serReading_quiet bs y dl hf hon hw, Dev.frameOver_parse, hp]
  simp only [Dev.when_false]
  rw [Dev.latchTime_congr (Dev.frameOver_rd d k bs dl _ (by decide))]

theorem Dev.serReading_warn (hw : w = false) {raw : Nat} (hp : d.serParse k bs = .inr (raw, true)) :
    d.serReading k bs y dl = (((((d.keepWord k).frameOver k bs dl).evt 0x10 k Pos.E_SER_WARN).wr Pos.SER_RAW k raw).serCount k
      raw (d.latchTime k (start - y % cycleL))) := by
  rw [Dev.serReading_quiet bs y dl hf hon hw, Dev.frameOver_parse, hp]
  simp only [Dev.when_true]
  rw [Dev.latchTime_congr ((Dev.rd_evt_chan _ _ _ _ _ _ (by decide)).trans (Dev.frameOver_rd d k bs dl _ (by decide)))]

end

/-! ### Readings (R186, R188, R194) -/

/-- The channel whose count has taken a reading. -/
def Dev.serTaken (d : Dev) (k raw : Nat) : Dev :=
  let h := d.chan k
  let n := d.rd Pos.SER_CFG_POS_BITS k
  let c := if h.nRead = 0 then (raw : Int) - d.rdI Pos.SER_BASE k
    else h.cnt + sInt n ((raw + 2 ^ n - h.lastRaw % 2 ^ n) % 2 ^ n)
  if c = h.cnt ∧ h.nRead ≠ 0 then d else (d.setCount k c).showDir k h.cnt

/-- The channel with what a reading leaves of it, and the marks of a position that goes on or steps back. -/
def Dev.serShown (d : Dev) (k : Nat) (x : PosH) (moved back : Bool) : Dev :=
  (((d.setChan k x).when moved (fun d => d.wr Pos.STAT_STOPPED k 0)).wrb Pos.STAT_SER_HOLD k back).when back (fun d =>
    (d.incSat Pos.CNT_A_BACKSTEP_CNT k).evt 0x10 k Pos.E_BACKSTEP)

theorem Dev.serCount_eq (d : Dev) (k raw t : Nat) : ∃ spd tEdge rs hold back,
    d.serCount k raw t = (d.serTaken k raw).serShown k { (d.serTaken k raw).chan k with
      readings := rs, nRead := (d.chan k).nRead + 1, lastRaw := raw, errRun := 0, spd := spd, tEdge := tEdge, hold := hold }
      (decide (((d.serTaken k raw).chan k).cnt ≠ (d.chan k).cnt ∨ (d.chan k).nRead = 0)) back :=
  ⟨_, _, _, _, _, rfl⟩

theorem Dev.serShown_chan (d : Dev) (k : Nat) (x : PosH) (moved back : Bool) : (d.serShown k x moved back).chan k = x := by
  rw [Dev.serShown, Dev.when_keeps (fun d => d.chan k) _ _ _ ?_, Dev.wrb, Dev.wr_chan,
    Dev.when_keeps (fun d => d.chan k) _ _ _ (Dev.wr_chan _ _ _ _ _ _), Dev.chan_setChan]
  exact (Dev.evt_chan _ _ _ _ _).trans (Dev.wr_chan _ _ _ _ _ _)

theorem Dev.rd_serShown_moved (d : Dev) (k : Fin 8) (x : PosH) (back : Bool) :
    (d.serShown k x true back).rd Pos.STAT_STOPPED k = 0 := by
  rw [Dev.serShown, Dev.when_true, Dev.when_keeps (fun d => d.rd Pos.STAT_STOPPED k) _ _ _ ?_,
    Dev.rd_wrb_off _ _ _ _ _ (by decide), Dev.rd_wr, Nat.zero_mod]
  exact (Dev.rd_evt_chan _ _ _ _ _ _ (by decide)).trans (Dev.rd_incSat_off _ _ _ _ (by decide))

theorem Dev.serTaken_first {d : Dev} {k raw : Nat} (h0 : (d.chan k).nRead = 0)
    (hlo : (d.limits k).1 ≤ (raw : Int) - d.rdI Pos.SER_BASE k)
    (hhi : (raw : Int) - d.rdI Pos.SER_BASE k ≤ (d.limits k).2) :
    ((d.serTaken k raw).chan k).cnt = (raw : Int) - d.rdI Pos.SER_BASE k := by
  simp only [Dev.serTaken, h0, if_true, ne_eq, not_true, and_false, if_false]
  rw [Dev.cnt_showDir, Dev.setCount_within hlo hhi, Dev.wr_chan, Dev.wr_chan, Dev.chan_setChan]

theorem Dev.serCount_first {d : Dev} {k : Fin 8} {raw : Nat} (t : Nat) (h0 : (d.chan k).nRead = 0)
    (hlo : (d.limits k).1 ≤ (raw : Int) - d.rdI Pos.SER_BASE k)
    (hhi : (raw : Int) - d.rdI Pos.SER_BASE k ≤ (d.limits k).2) :
    ((d.serCount k raw t).chan k).cnt = (raw : Int) - d.rdI Pos.SER_BASE k ∧ ((d.serCount k raw t).chan k).nRead = 1 ∧
      ((d.serCount k raw t).chan k).errRun = 0 ∧ (d.serCount k raw t).rd Pos.STAT_STOPPED k = 0 := by
  obtain ⟨spd, tEdge, rs, hold, back, h⟩ := d.serCount_eq k raw t
  rw [h, Dev.serShown_chan, h0, decide_eq_true (Or.inr rfl)]
  exact ⟨Dev.serTaken_first h0 hlo hhi, rfl, rfl, Dev.rd_serShown_moved _ _ _ _⟩

/-! ### History (R195, R293) -/

theorem Dev.rd_putTab_off (d : Dev) (pc pi sbe dbe c k t n v : Nat) (f : Fld) (h : f.place ≠ (Hdr.FLT_INJ pc).place) :
    (d.putTab pc pi sbe dbe c k t n v).rd f pi = d.rd f pi := by
  unfold Dev.putTab
  dsimp only
  split
  · exact Dev.rd_wr_off _ _ _ _ _ h
  · split
    · exact Dev.rd_wr_off _ _ _ _ _ h
    · rfl

/-- The sample in the ring, before HIST_SEQ goes on. -/
def Dev.histPut (d : Dev) (k : Nat) : Dev :=
  d.putTab 0x10 k Pos.F_HIST_SBE Pos.F_HIST_DBE 0x10 k 0 (d.rd Pos.HIST_SEQ k % 65536) (d.histImage k)

theorem Dev.histSample_eq (d : Dev) (k : Nat) :
    d.histSample k =
      if !d.enabled 0x10 k || !d.is Pos.HIST_CFG_HIST_EN k then d
      else ((d.histPut k).addWrap Pos.HIST_SEQ k 1).setChan k
        { ((d.histPut k).addWrap Pos.HIST_SEQ k 1).chan k with gap := false } := rfl

theorem Dev.histSample_off {d : Dev} {k : Nat} (h : d.enabled 0x10 k = false ∨ d.is Pos.HIST_CFG_HIST_EN k = false) :
    d.histSample k = d := by
  rw [Dev.histSample_eq, if_pos]
  rwa [Bool.or_eq_true, Bool.not_eq_true', Bool.not_eq_true']

theorem Dev.histSample_on {d : Dev} {k : Nat} (he : d.enabled 0x10 k = true) (hh : d.is Pos.HIST_CFG_HIST_EN k = true) :
    (d.histSample k).tab 0x10 k 0 (d.rd Pos.HIST_SEQ k % 65536) = d.histImage k ∧
      (d.histSample k).rd Pos.HIST_SEQ k = (d.rd Pos.HIST_SEQ k + 1) % 2 ^ 32 ∧ ((d.histSample k).chan k).gap = false := by
  rw [Dev.histSample_eq, he, hh, if_neg (by decide)]
  refine ⟨?_, ?_, ?_⟩
  · rw [Dev.tab, Dev.setChan_tabs, Dev.addWrap, Dev.wr_tabs, Dev.histPut, Dev.putTab_tabs, mget_mset_self]
  · rw [Dev.setChan_rd, Dev.addWrap, Dev.rd_wr, Dev.histPut, Dev.rd_putTab_off _ _ _ _ _ _ _ _ _ _ _ (by decide)]
    rfl
  · rw [Dev.chan_setChan]

theorem exec_histSample (s : State) (k : Fin 8) :
    exec (.histSample k) s = .next (s.landed ((List.range 16).foldl (fun (d : Dev) p =>
      if d.scrCh p = k.val then d.lcuRetry p false else d) (s.dev.histSample k))) := by
  change Host.Outcome.next (s.landed ((List.range 16).foldl (fun (d : Dev) p =>
    d.when (d.scrCh p == k.val) (fun d => d.lcuRetry p false)) (s.dev.histSample k))) = _
  simp only [Dev.when, beq_iff_eq]

/-! ### Wire checks (R178, R199) -/

theorem wireStat_cases (p : Nat) :
    wireStat p = Pos.STAT_WIRE_A ∨ wireStat p = Pos.STAT_WIRE_B ∨ wireStat p = Pos.STAT_WIRE_Z := by
  unfold wireStat
  split
  · exact .inl rfl
  · exact .inr (.inl rfl)
  · exact .inr (.inr rfl)

/-- The channel that has seen a pair's WIRE rise, before the position is suspect. -/
def Dev.wireSeen (d : Dev) (k p : Nat) : Dev :=
  (((d.wr (wireStat p) k 1).when (p == 0) (fun e =>
    e.setChan k { (d.wr (wireStat p) k 1).chan k with
      frame := ((d.wr (wireStat p) k 1).chan k).frame.map (fun x => (x.1, true)) })).incSat Pos.CNT_C_WIRE_CNT k).evt 0x10 k
    Pos.E_WIRE

theorem Dev.wireRise_eq (d : Dev) (k p : Nat) :
    d.wireRise k p = (d.wireSeen k p).when (p != 2) (fun d => d.suspectFlt k Pos.F_WIRE_FAULT) := rfl

theorem Dev.wireEnc_rise {d : Dev} {k p : Nat} (h : d.is (wireStat p) k = false) (lv : Nat) :
    d.wireEnc k p true lv = d.wireRise k p := by
  rw [Dev.wireEnc, h]
  exact if_pos rfl

theorem Dev.is_wireSeen (d : Dev) (k : Fin 8) (p : Nat) : (d.wireSeen k p).is (wireStat p) k = true := by
  have hw : (d.wr (wireStat p) k 1).rd (wireStat p) k = 1 := by
    rcases wireStat_cases p with h | h | h
    all_goals
      rw [h, Dev.rd_wr]
      rfl
  rw [Dev.is_eq, Dev.wireSeen]
  rcases wireStat_cases p with h | h | h
  all_goals
    rw [h] at hw ⊢
    rw [Dev.rd_evt_chan _ _ _ _ _ _ (by decide), Dev.rd_incSat_off _ _ _ _ (by decide),
      Dev.when_keeps (fun d => d.rd _ k) _ _ _ (Dev.setChan_rd _ _ _ _ _ _), hw]
    rfl

theorem Dev.wireRise_shows (d : Dev) (k : Fin 8) (p : Nat) :
    (d.wireRise k p).is (wireStat p) k = true ∧ ((d.wireRise k p).rd (Hdr.EVT 0x10) k).testBit Pos.E_WIRE = true := by
  have hevt : ((d.wireSeen k p).rd (Hdr.EVT 0x10) k).testBit Pos.E_WIRE = true := Dev.evt_set _ _ _ _ (by decide)
  have his := d.is_wireSeen k p
  rw [Dev.wireRise_eq]
  refine Dev.when_induct (fun e => e.is (wireStat p) k = true ∧ (e.rd (Hdr.EVT 0x10) k).testBit Pos.E_WIRE = true) _ _ _
    ⟨his, hevt⟩ fun ⟨his, hevt⟩ => ⟨?_, Dev.suspectFlt_evt _ _ _ (by decide) hevt⟩
  rw [← his]
  refine Dev.is_congr ?_
  rcases wireStat_cases p with h | h | h
  all_goals rw [h, Dev.rd_suspectFlt_off _ _ _ _ (by decide) (by decide)]

theorem Dev.wireRise_suspect (d : Dev) (k : Fin 8) {p : Nat} (hp : p ≠ 2) :
    (d.wireRise k p).rd Pos.STAT_POS_SUSPECT k = 1 ∧
      ((d.wireRise k p).rd (Hdr.FLT 0x10) k).testBit Pos.F_WIRE_FAULT = true := by
  rw [Dev.wireRise_eq, Dev.when_of_eq_true (bne_iff_ne.2 hp)]
  exact ⟨Dev.rd_suspectFlt _ _ _, Dev.flt_set _ _ _ _ 3 (by decide) rfl⟩

theorem Dev.wireBoth_restored {d : Dev} {k : Nat} (ha : d.is Pos.STAT_WIRE_A k = true) (hb : d.is Pos.STAT_WIRE_B k = true)
    (lv : Nat) :
    d.wireBoth k false lv = ((d.wr Pos.STAT_WIRE_A k 0).wr Pos.STAT_WIRE_B k 0).quadEdge k (bitOf lv 0) (bitOf lv 1) 0 := by
  rw [Dev.wireBoth, ha, hb]
  exact (if_neg (by decide)).trans (if_pos rfl)

/-- With no pad force on a pair, its wire check is what the pad says. -/
theorem Dev.wireOne_free {d : Dev} {k : Fin 8} {p : Fin 3} (h : d.padE k p = 0) (live : Bool) (lv : Nat) :
    d.wireOne (.enc k p) live lv = if !d.wireChecked (.enc k p) then d else (d.wireEnc k p live lv).follow k := by
  simp only [Dev.wireOne, h, if_true] <;> rfl

@[simp] theorem Dev.done_is (d : Dev) (f : Fld) (i j : Nat) : d.done.is f i j = d.is f i j := rfl

@[simp] theorem Dev.emit_sent (d : Dev) (e : Emission) : (d.emit e).sent = d.sent ++ [e] := rfl

/-! ### Adapter identity (R206, R207) -/

theorem Dev.mdPresent_cases (d : Dev) (i : Nat) (b : Bool) :
    d.mdPresent i b = d ∨ ∃ v, d.mdPresent i b = (d.wr Md.ENTRY 0 v (32 * i)).evt 3 0 i := by
  unfold Dev.mdPresent
  simp only
  split
  · exact .inl rfl
  · exact .inr ⟨_, rfl⟩

/-- PRESENT of a directory entry leaves every field of the other pages. -/
theorem Dev.rd_mdPresent (d : Dev) {i : Nat} (b : Bool) (f : Fld) {n : Nat} (k : Fin n) (hi : i < 26)
    (hf : f.cls ≠ 3 ∧ f.off < 4096 ∧ f.lo < 32 ∧ f.off ≠ 0x14 ∧ f.cls ≠ 0x1B ∧ n ≤ 64) :
    (d.mdPresent i b).rd f k = d.rd f k := by
  obtain ⟨hc, ho, hl, he, hb, hn⟩ := hf
  have hk : k.val < 64 := Nat.lt_of_lt_of_le k.2 hn
  rcases d.mdPresent_cases i b with h | ⟨v, h⟩
  all_goals rw [h]
  rw [Dev.rd_evt_off _ _ _ _ f k ⟨ho, hl, he, hb, hn⟩, Dev.rd_wr_ne]
  simp only [Fld.key, Md.ENTRY]
  omega

theorem Dev.mdPresent_sent (d : Dev) (i : Nat) (b : Bool) : (d.mdPresent i b).sent = d.sent := by
  rcases d.mdPresent_cases i b with h | ⟨v, h⟩
  all_goals rw [h]
  exact Dev.evt_sent _ _ _ _

/-- The channel and its directory entry show whether the poll has found an adapter. -/
def Dev.idFound (d : Dev) (k : Nat) (ack : Bool) : Dev := (d.wrb Pos.ID_STAT_PRESENT k ack).mdPresent (16 + k) ack

/-- What the one-second poll leaves: a change is an event, and an adapter that has come is read. -/
def Dev.polled (d : Dev) (k : Nat) (ack : Bool) : Dev :=
  ((d.idFound k ack).when (d.is Pos.ID_STAT_PRESENT k != ack) (fun d => d.evt 0x10 k Pos.E_ID_CHANGE)).when
    (ack && !d.is Pos.ID_STAT_PRESENT k) (fun d => d.emit (.idBus k 256))

theorem exec_idPoll {s : State} (k : Fin 8) (ack : Bool) (hp : s.dev.powered 2 = true) :
    exec (.idPoll k ack) s =
      .next (s.withDev (if !s.dev.is Pos.ID_CFG_ID_POLL k then s.dev else s.dev.polled k ack)) :=
  State.updOn_eq s 2 _ hp

theorem Dev.is_idFound (d : Dev) (k : Fin 8) (ack : Bool) : (d.idFound k ack).is Pos.ID_STAT_PRESENT k = ack := by
  rw [Dev.idFound, Dev.is_congr (Dev.rd_mdPresent _ _ _ k (by omega) (by decide)), Dev.is_wrb _ _ _ _ rfl]

theorem Dev.idFound_sent (d : Dev) (k : Nat) (ack : Bool) : (d.idFound k ack).sent = d.sent :=
  Dev.mdPresent_sent _ _ _

theorem Dev.polled_shows (d : Dev) (k : Fin 8) (ack : Bool) :
    (d.polled k ack).is Pos.ID_STAT_PRESENT k = ack ∧
      (d.is Pos.ID_STAT_PRESENT k ≠ ack → ((d.polled k ack).rd (Hdr.EVT 0x10) k).testBit Pos.E_ID_CHANGE = true) ∧
      (d.polled k ack).sent =
        d.sent ++ (if ack = true ∧ d.is Pos.ID_STAT_PRESENT k = false then [.idBus k 256] else []) := by
  have hemit : ∀ (e : Dev) (f : Fld),
      (e.when (ack && !d.is Pos.ID_STAT_PRESENT k) (fun d => d.emit (.idBus k 256))).rd f k = e.rd f k :=
    fun e f => Dev.when_keeps (fun e => e.rd f k) _ _ _ (Dev.emit_rd _ _ _ _ _)
  refine ⟨?_, fun h => ?_, ?_⟩
  · rw [Dev.polled, Dev.is_congr (hemit _ _), Dev.when_keeps (fun e => e.is Pos.ID_STAT_PRESENT k), Dev.is_idFound]
    exact Dev.is_evt_off _ _ _ _ _ k (by decide)
  · rw [Dev.polled, hemit, Dev.when_of_eq_true (bne_iff_ne.2 h)]
    exact Dev.evt_set _ _ _ _ (by decide)
  · have hsent : ((d.idFound k ack).when (d.is Pos.ID_STAT_PRESENT k != ack) (fun d => d.evt 0x10 k Pos.E_ID_CHANGE)).sent =
        d.sent := (Dev.when_keeps Dev.sent _ _ _ (Dev.evt_sent _ _ _ _)).trans (Dev.idFound_sent _ _ _)
    rw [Dev.polled]
    split
    · next h =>
      rw [Dev.when_of_eq_true (by rw [h.1, h.2]; rfl), Dev.emit_sent, hsent]
    · next h =>
      rw [Dev.when_of_eq_false, hsent, List.append_nil]
      rwa [← Bool.not_eq_true, Bool.and_eq_true, Bool.not_eq_true']

/-- The adapter's record is shown: good or bad, a MODE that does not match, no bus error, and the directory's entry. -/
def Dev.recordShown (d : Dev) (k : Nat) (bs : List Nat) : Dev :=
  let ok := recordGood 256 bs && byteAt bs 8 == 2
  let mis := ok && d.enabled 0x10 k && sensorMode (byteAt bs 64) != d.rd Pos.ENC_CFG_MODE k
  ((((d.wrb Pos.ID_STAT_ID_VALID k ok).wrb Pos.ID_STAT_ID_BAD k (!ok)).wrb Pos.ID_STAT_MODE_MISMATCH k mis).wr
    Pos.ID_STAT_BUS_ERR k 0).mdPost (16 + k) 2 ok mis (mdAdapter bs)

theorem exec_adapterIdDone {s : State} (k : Fin 8) (bs : List Nat) (hp : s.dev.powered 2 = true) : ∃ x changed,
    exec (.adapterIdDone k bs) s = .next (s.withDev ((((s.dev.recordShown k bs).setChan k x).evt 0x10 k Pos.E_ID_DONE).when
      changed (fun d => d.evt 0x10 k Pos.E_ID_CHANGE))) :=
  ⟨_, _, State.updOn_eq s 2 _ hp⟩

theorem Dev.recordShown_shows (d : Dev) (k : Fin 8) (bs : List Nat) :
    (d.recordShown k bs).is Pos.ID_STAT_ID_VALID k = (recordGood 256 bs && byteAt bs 8 == 2) ∧
      (d.recordShown k bs).is Pos.ID_STAT_ID_BAD k = (!(recordGood 256 bs && byteAt bs 8 == 2)) ∧
      (d.recordShown k bs).is Pos.ID_STAT_BUS_ERR k = false := by
  refine ⟨?_, ?_, ?_⟩
  all_goals rw [Dev.recordShown, Dev.is_congr (Dev.rd_mdPost _ _ _ _ _ _ k (by omega) (by decide))]
  · rw [Dev.is_wr_off _ _ _ _ _ (by decide), Dev.is_wrb_off _ _ _ _ _ (by decide), Dev.is_wrb_off _ _ _ _ _ (by decide),
      Dev.is_wrb _ _ _ _ rfl]
  · rw [Dev.is_wr_off _ _ _ _ _ (by decide), Dev.is_wrb_off _ _ _ _ _ (by decide), Dev.is_wrb _ _ _ _ rfl]
  · rw [Dev.is_eq, Dev.rd_wr]
    rfl

/-- What the channel shows of a record stays through its events, and ID_DONE is one of them. -/
theorem Dev.recordKept (d : Dev) (k : Fin 8) (bs : List Nat) (x : PosH) (changed : Bool) :
    let t := (((d.recordShown k bs).setChan k x).evt 0x10 k Pos.E_ID_DONE).when changed (fun d =>
      d.evt 0x10 k Pos.E_ID_CHANGE)
    t.is Pos.ID_STAT_ID_VALID k = (recordGood 256 bs && byteAt bs 8 == 2) ∧
      t.is Pos.ID_STAT_ID_BAD k = (!(recordGood 256 bs && byteAt bs 8 == 2)) ∧ t.is Pos.ID_STAT_BUS_ERR k = false ∧
      (t.rd (Hdr.EVT 0x10) k).testBit Pos.E_ID_DONE = true := by
  obtain ⟨hv, hb, he⟩ := d.recordShown_shows k bs
  have hread : ∀ (f : Fld), (f.off < 4096 ∧ f.lo < 32 ∧ f.off ≠ 0x14 ∧ f.cls ≠ 0x1B) →
      ((((d.recordShown k bs).setChan k x).evt 0x10 k Pos.E_ID_DONE).when changed (fun d =>
        d.evt 0x10 k Pos.E_ID_CHANGE)).is f k = (d.recordShown k bs).is f k := by
    intro f ⟨ho, hl, hevt, hq⟩
    have hf := And.intro ho (And.intro hl (And.intro hevt (And.intro hq (show (8 : Nat) ≤ 64 by decide))))
    rw [Dev.when_keeps (fun d => d.is f k) _ _ _ (Dev.is_evt_off _ _ _ _ f k hf), Dev.is_evt_off _ _ _ _ f k hf]
    exact Dev.is_congr (Dev.setChan_rd _ _ _ _ _ _)
  refine ⟨(hread _ (by decide)).trans hv, (hread _ (by decide)).trans hb, (hread _ (by decide)).trans he, ?_⟩
  refine Dev.when_induct (fun d => (d.rd (Hdr.EVT 0x10) k).testBit Pos.E_ID_DONE = true) _ _ _
    (Dev.evt_set _ _ _ _ (by decide)) fun h => (Dev.evt_raised _ _ _ _).evts _ _ _ (by decide) h

/-- Settles O34, by the equations of the serial frame, the history, the wire checks and the adapter's bus. -/
theorem serialHistoryIdentity : Obligations.SerialHistoryIdentity := by
  unfold Obligations.SerialHistoryIdentity
  refine ⟨fun s k => ⟨fun hp hi bs y dl ack => ?_, fun hp => ⟨fun h hi => ?_, fun he hm hs => ⟨?_, ?_⟩, fun bs y dl => ?_,
      fun h ack => ?_, fun h ack => ⟨_, exec_idPoll k ack hp, State.withDev_mem s _, ?_⟩, fun bs => ?_,
      fun p live lv hpad => ⟨fun h => ?_, fun h => ?_⟩, fun p live lv => State.updOn_eq s 2 _ hp,
      fun live lv => ⟨fun h => ?_, fun h => ?_⟩⟩, exec_histSample s k, fun r ht => State.upd_busW s _ _ _ _ ht, rfl, fun n => rfl⟩,
    fun d k => ⟨fun code t ht => ?_, fun bs y dl e he => ⟨fun h => ?_, fun h => ?_, fun start w hf hen hm hs f hf' g hg => ?_⟩,
      fun h => ?_, fun bs hm herr hgray => ?_, fun raw t h0 hlo hhi => Dev.serCount_first t h0 hlo hhi, Dev.histSample_off,
      fun he hh t ht => ?_, fun p _ h lv t ht => ?_, fun ha hb lv => Dev.wireBoth_restored ha hb lv⟩⟩
  · simp only [List.forall_mem_cons]
    exact ⟨State.updOn_unpowered s 2 _ hp, State.updOn_unpowered s 2 _ hp, State.updOn_unpowered s 2 _ hp,
      State.updOn_unpowered s 2 _ hp, fun _ h => absurd h List.not_mem_nil⟩
  · refine (State.updOn_eq s 2 _ hp).trans (congrArg (fun d => Host.Outcome.next (s.withDev d)) (if_pos ?_))
    exact Dev.serOff_of h
  · refine (State.updOn_eq s 2 _ hp).trans (congrArg (fun d => Host.Outcome.next (s.withDev d)) ?_)
    exact (if_neg (ne_true_of_eq_false (Dev.serOff_eq_false he hm hs))).trans (if_pos rfl)
  · refine (State.updOn_eq s 2 _ hp).trans (congrArg (fun d => Host.Outcome.next (s.withDev d)) ?_)
    exact (if_neg (ne_true_of_eq_false (Dev.serOff_eq_false he hm hs))).trans (if_neg (by decide))
  · exact State.updOn_eq s 2 _ hp
  · rw [exec_idPoll k ack hp, h, if_pos (by decide)]
  · rw [State.withDev_dev, h, if_neg (by decide), Dev.done_is, Dev.done_rd, Dev.done_sent]
    exact Dev.polled_shows _ _ _
  · obtain ⟨x, changed, h⟩ := exec_adapterIdDone k bs hp
    refine ⟨_, h, State.withDev_mem s _, ?_⟩
    rw [State.withDev_dev, Dev.done_is, Dev.done_is, Dev.done_is, Dev.done_rd]
    exact Dev.recordKept _ _ _ _ _
  · refine (State.updOn_eq s 2 _ hp).trans (congrArg (fun d => Host.Outcome.next (s.withDev d)) ?_)
    refine (Dev.wireOne_free hpad live lv).trans (if_pos ?_)
    rw [h]
    rfl
  · refine (State.updOn_eq s 2 _ hp).trans (congrArg (fun d => Host.Outcome.next (s.withDev d)) ?_)
    refine (Dev.wireOne_free hpad live lv).trans (if_neg ?_)
    rw [h]
    decide
  · exact (State.updOn_eq s 2 _ hp).trans (congrArg (fun d => Host.Outcome.next (s.withDev d)) (if_pos h))
  · exact (State.updOn_eq s 2 _ hp).trans (congrArg (fun d => Host.Outcome.next (s.withDev d)) (if_neg h))
  · subst ht
    obtain ⟨hlast, hevt, hrun, hcnt⟩ := d.serErr_shows k code
    exact ⟨hlast, hevt, hrun, hcnt, fun h => Dev.serErr_fourth code h⟩
  · rw [he, Dev.serReading_none bs y dl ((d.keepWord_frame k).trans h)]
  · rw [he, Dev.serReading_off bs y dl (Dev.serOff_of h)]
  · have hon := Dev.serOff_eq_false hen hm hs
    rw [hf', he, ← Dev.frameOver_eq] at hg
    subst hg
    exact ⟨Dev.serReading_wire bs y dl hf hon, fun hw => ⟨fun code => Dev.serReading_bad bs y dl hf hon hw,
      fun raw => Dev.serReading_good bs y dl hf hon hw, fun raw => Dev.serReading_warn bs y dl hf hon hw⟩⟩
  · exact (if_pos h).trans (if_pos rfl)
  · rw [Dev.serParse, if_neg hm, herr, hgray]
    rfl
  · subst ht
    exact Dev.histSample_on he hh
  · rw [ht, Dev.wireEnc_rise h]
    obtain ⟨his, hevt⟩ := d.wireRise_shows k p
    exact ⟨his, hevt, fun hp => d.wireRise_suspect k hp⟩

end Sys2Proof.Machine
end

