-- ==== Sys2Proof/Proofs/Generators.lean ====
section
/-!
PROOFS. Line generators (R214–R220), outputs and lockstep pairs (R200, R231–R235); from these the statements O35 and O36.
-/

open Sys2Proof

namespace Sys2Proof.Machine

/-! ### Shared parts of a generator -/

@[simp] theorem Dev.evt_gen (d : Dev) (c i b m : Nat) : (d.evt c i b).gen m = d.gen m := by
  simp only [Dev.gen, Dev.evt_gens]

@[simp] theorem Dev.evt_claim (d : Dev) (c i b : Nat) (k : Res) (m : Nat) : (d.evt c i b).claim k m = d.claim k m := by
  simp only [Dev.claim, Dev.evt_claims]

@[simp] theorem Dev.flt_gen (d : Dev) (c i b m : Nat) : (d.flt c i b).gen m = d.gen m := by
  rw [Dev.flt_rest]
  rfl

@[simp] theorem Dev.flt_stream (d : Dev) (c i b m : Nat) : (d.flt c i b).stream m = d.stream m := by
  rw [Dev.flt_rest]
  rfl

/-- An event keeps the events that are set. -/
theorem Dev.evt_keeps {d : Dev} {c i e : Nat} (he : e < 32) (h : (d.rd (Hdr.EVT c) i).testBit e = true) (b : Nat) :
    ((d.evt c i b).rd (Hdr.EVT c) i).testBit e = true :=
  (Dev.evt_raised _ _ _ _).evts _ _ _ he h

theorem Dev.holdGen_cases (d : Dev) (g : Nat) :
    d.holdGen g = d ∨ ∃ v, d.holdGen g = d.wr Gen.STAT_HOLD (32 + g) v := by
  unfold Dev.holdGen
  simp only
  split
  · exact .inl rfl
  · split
    · exact .inr ⟨_, rfl⟩
    · split
      · exact .inr ⟨_, rfl⟩
      · split
        · exact .inr ⟨_, rfl⟩
        · exact .inl rfl

theorem Dev.holdGen_keeps {β : Type} (q : Dev → β) (d : Dev) (g : Nat)
    (h : ∀ v, q (d.wr Gen.STAT_HOLD (32 + g) v) = q d) : q (d.holdGen g) = q d := by
  rcases d.holdGen_cases g with hg | ⟨v, hg⟩
  · rw [hg]
  · rw [hg, h]

/-- A gate that closes writes STAT_OPEN and raises its event. -/
theorem Dev.genClose_keeps {β : Type} (q : Dev → β) (d : Dev) (g : Nat)
    (h : q ((d.wr Gen.STAT_OPEN (32 + g) 0).evt 0x12 (32 + g) Gen.E_GATE_CLOSE) = q d) : q (d.genClose g) = q d := by
  unfold Dev.genClose
  split
  · exact h
  · rfl

/-! ### Opening and closing the gate (R217, R238) -/

theorem Dev.genCmd_open (d : Dev) (g : Nat) : d.genCmd g 1 = d.cmdGenOpen g := if_neg (by decide)

theorem Dev.genCmd_close (d : Dev) (g : Nat) : d.genCmd g 2 = d.genClose g := if_neg (by decide)

theorem Dev.genOpenAt_fresh (d : Dev) (g : Nat) (o w0 : Int) : ∃ k acc next,
    d.genOpenAt g o w0 true =
      ((((((((d.setGen g { d.gen g with
          origin := some o, kEnd := d.rd Gen.LINES_PER_GATE (32 + g), k := k, acc := acc, next := next }).showNext g).wr
        Gen.LINE_CNT (32 + g) 0).wr Gen.STAT_OPEN (32 + g) 1).evt 0x12 (32 + g) Gen.E_GATE_OPEN).when
        (d.is Gen.STAT_OPEN (32 + g)) (fun d => d.evt 0x12 (32 + g) Gen.E_GATE_OVERRUN)).when
        (d.rd Gen.LINES_PER_GATE (32 + g) != 0 && decide (d.rd Gen.LINES_PER_GATE (32 + g) ≤ k))
        (fun d => d.genClose g)).holdGen g) :=
  ⟨_, _, _, rfl⟩

/-- A gate that opens with a new origin and no number of lines stays open, from line 0. -/
theorem Dev.genOpenAt_shows {d : Dev} {g : Nat} (o w0 : Int) (h : d.rd Gen.LINES_PER_GATE (32 + g) = 0) :
    let t := d.genOpenAt g o w0 true
    t.rd Gen.STAT_OPEN (32 + g) = 1 ∧ t.rd Gen.LINE_CNT (32 + g) = 0 ∧ (t.gen g).origin = some o ∧
      (t.rd (Hdr.EVT 0x12) (32 + g)).testBit Gen.E_GATE_OPEN = true := by
  obtain ⟨k, acc, next, ht⟩ := d.genOpenAt_fresh g o w0
  dsimp only
  rw [ht, h, Dev.when_of_eq_false (c := (0 != 0 && decide (0 ≤ k))) (by rfl)]
  refine ⟨?_, ?_, ?_, ?_⟩
  · rw [Dev.holdGen_keeps (fun d => d.rd Gen.STAT_OPEN (32 + g)) _ _ (fun v => Dev.rd_wr_off _ _ _ _ _ (by decide)),
      Dev.when_keeps (fun d => d.rd Gen.STAT_OPEN (32 + g)) _ _ _ (Dev.rd_evt_low _ _ _ _ _ _ (by decide)),
      Dev.rd_evt_low _ _ _ _ _ _ (by decide), Dev.rd_wr]
    rfl
  · rw [Dev.holdGen_keeps (fun d => d.rd Gen.LINE_CNT (32 + g)) _ _ (fun v => Dev.rd_wr_off _ _ _ _ _ (by decide)),
      Dev.when_keeps (fun d => d.rd Gen.LINE_CNT (32 + g)) _ _ _ (Dev.rd_evt_low _ _ _ _ _ _ (by decide)),
      Dev.rd_evt_low _ _ _ _ _ _ (by decide), Dev.rd_wr_off _ _ _ _ _ (by decide), Dev.rd_wr, Nat.zero_mod]
  · rw [Dev.holdGen_keeps (fun d => d.gen g) _ _ (fun v => Dev.wr_gen _ _ _ _ _ _),
      Dev.when_keeps (fun d => d.gen g) _ _ _ (Dev.evt_gen _ _ _ _ _), Dev.evt_gen, Dev.wr_gen, Dev.wr_gen, Dev.showNext,
      Dev.wrI, Dev.wr_gen, Dev.gen_setGen]
  · rw [Dev.holdGen_keeps (fun d => d.rd (Hdr.EVT 0x12) (32 + g)) _ _ (fun v => Dev.rd_wr_off _ _ _ _ _ (by decide))]
    exact Dev.when_induct (fun d => (d.rd (Hdr.EVT 0x12) (32 + g)).testBit Gen.E_GATE_OPEN = true) _ _ _
      (Dev.evt_set _ _ _ _ (by decide)) fun h => Dev.evt_keeps (by decide) h _

theorem exec_gateOpen {s : State} {r : Req} {g : Fin 16} (ht : s.dev.takes r.num 0x12 (32 + g.val) = true) :
    exec (.gateOpen r g) s = .next (s.withDev (s.dev.cmdGenOpen g)) := by
  rw [← Dev.genCmd_open]
  exact State.upd_busW s _ _ _ _ ht

theorem exec_gateClose {s : State} {r : Req} {g : Fin 16} (ht : s.dev.takes r.num 0x12 (32 + g.val) = true) :
    exec (.gateClose r g) s = .next (s.withDev (s.dev.genClose g)) := by
  rw [← Dev.genCmd_close]
  exact State.upd_busW s _ _ _ _ ht

/-! ### A line is due (R216, R219, R220) -/

/-- The grid goes on: NEXT_POS moves, and a gate of so many lines may close. -/
theorem Dev.genAdvance_eq (d : Dev) (g : Nat) : ∃ acc next,
    d.genAdvance g =
      ((d.setGen g { d.gen g with
        k := (d.gen g).k + 1, acc := acc, next := next, lastSample := some d.sample }).showNext g).when
        ((d.gen g).kEnd != 0 && decide ((d.gen g).kEnd ≤ (d.gen g).k + 1)) (fun d => d.genClose g) :=
  ⟨_, _, rfl⟩

theorem Dev.rd_genAdvance (d : Dev) (g : Nat) (f : Fld)
    (h : f.place ≠ Gen.NEXT_POS.place ∧ f.place ≠ Gen.STAT_OPEN.place ∧ f.off < 256 ∧ f.lo < 32 ∧ f.off ≠ 0x14) :
    (d.genAdvance g).rd f (32 + g) = d.rd f (32 + g) := by
  obtain ⟨hnext, hopen, hq⟩ := h
  obtain ⟨acc, next, ht⟩ := d.genAdvance_eq g
  rw [ht, Dev.when_keeps (fun d => d.rd f (32 + g)), Dev.showNext, Dev.wrI, Dev.rd_wr_off _ _ _ _ _ hnext, Dev.setGen_rd]
  refine Dev.genClose_keeps (fun d => d.rd f (32 + g)) _ _ ?_
  exact (Dev.rd_evt_low _ _ _ _ _ _ hq).trans (Dev.rd_wr_off _ _ _ _ _ hopen)

theorem Dev.genAdvance_evt {d : Dev} {g e : Nat} (he : e < 32) (h : (d.rd (Hdr.EVT 0x12) (32 + g)).testBit e = true) :
    ((d.genAdvance g).rd (Hdr.EVT 0x12) (32 + g)).testBit e = true := by
  obtain ⟨acc, next, ht⟩ := d.genAdvance_eq g
  rw [ht]
  refine Dev.when_induct (fun d => (d.rd (Hdr.EVT 0x12) (32 + g)).testBit e = true) _ _ _ ?_ fun h => ?_
  · rw [Dev.showNext, Dev.wrI, Dev.rd_wr_off _ _ _ _ _ (by decide), Dev.setGen_rd]
    exact h
  · unfold Dev.genClose
    split
    · refine Dev.evt_keeps he ?_ _
      rw [Dev.rd_wr_off _ _ _ _ _ (by decide)]
      exact h
    · exact h

theorem Dev.gen_genAdvance (d : Dev) (g : Nat) :
    ((d.genAdvance g).gen g).k = (d.gen g).k + 1 ∧ ((d.genAdvance g).gen g).last = (d.gen g).last := by
  obtain ⟨acc, next, ht⟩ := d.genAdvance_eq g
  rw [ht, Dev.when_keeps (fun d => d.gen g), Dev.showNext, Dev.wrI, Dev.wr_gen, Dev.gen_setGen]
  · exact ⟨rfl, rfl⟩
  · exact Dev.genClose_keeps (fun d => d.gen g) _ _ ((Dev.evt_gen _ _ _ _ _).trans (Dev.wr_gen _ _ _ _ _ _))

/-- The conditions under which no line is due. -/
def Dev.genWaits (d : Dev) (g k : Nat) (p : Int) : Bool :=
  !d.genOn g || !d.is Gen.STAT_OPEN (32 + g) || !d.chanLive k || d.is Gen.STAT_HOLD (32 + g) ||
    !reached (d.genDir g) (d.posWord k) p

theorem Dev.genWaits_eq_false {d : Dev} {g k : Nat} {p : Int} : d.genWaits g k p = false ↔
    d.genOn g = true ∧ d.is Gen.STAT_OPEN (32 + g) = true ∧ d.chanLive k = true ∧ d.is Gen.STAT_HOLD (32 + g) = false ∧
      reached (d.genDir g) (d.posWord k) p = true := by
  simp only [Dev.genWaits, Bool.or_eq_false_iff, Bool.not_eq_false', and_assoc]

theorem Dev.gen_holdGen (d : Dev) (g : Nat) : (d.holdGen g).gen g = d.gen g :=
  Dev.holdGen_keeps (fun d => d.gen g) d g fun _ => Dev.wr_gen _ _ _ _ _ _

/-- A line that comes too soon is counted. -/
def Dev.genSkip (d : Dev) (g : Nat) : Dev :=
  (d.incSat Gen.GEN_CNT_SKIP_CNT (32 + g)).evt 0x12 (32 + g) Gen.E_TOO_FAST

theorem Dev.genReach_eq {d e : Dev} {g f : Nat} (he : e = d.holdGen g)
    (hf : f = e.fireTime (d.genCh g) (e.posWord (d.genCh g)) (d.gen g).next) :
    d.genReach g =
      if e.genWaits g (d.genCh g) (d.gen g).next then e
      else (if e.genTooFast g f then e.genSkip g else e.genLine g (d.gen g).next f).genAdvance g := by
  rw [← d.gen_holdGen g, ← he] at hf ⊢
  rw [hf, he]
  rfl

theorem Dev.genSkip_shows (d : Dev) (g : Nat) :
    (((d.genSkip g).genAdvance g).gen g).k = (d.gen g).k + 1 ∧
      ((d.genSkip g).genAdvance g).rd Gen.LINE_CNT (32 + g) = d.rd Gen.LINE_CNT (32 + g) ∧
      (((d.genSkip g).genAdvance g).rd (Hdr.EVT 0x12) (32 + g)).testBit Gen.E_TOO_FAST = true := by
  refine ⟨?_, ?_, Dev.genAdvance_evt (by decide) (Dev.evt_set _ _ _ _ (by decide))⟩
  · rw [(Dev.gen_genAdvance _ g).1, Dev.genSkip, Dev.evt_gen, Dev.incSat, Dev.addSat, Dev.wr_gen]
  · rw [Dev.rd_genAdvance _ _ _ (by decide), Dev.genSkip, Dev.rd_evt_low _ _ _ _ _ _ (by decide),
      Dev.rd_incSat_off _ _ _ _ (by decide)]

/-- What a line shows on the generator's own page. -/
def Dev.lineShown (d : Dev) (g : Nat) (p : Int) (f : Nat) : Dev :=
  (((d.setGen g { d.gen g with last := some p, lastFire := some f }).addWrap Gen.LINE_CNT (32 + g) 1).wrI
    Gen.LAST_LINE_POS (32 + g) p).wr Gen.LAST_LINE_TIME (32 + g) (tImg f)

theorem Dev.genLine_eq (d : Dev) (g : Nat) (p : Int) (f : Nat) :
    d.genLine g p f =
      ((List.range 32).foldl (fun e m => e.when (((d.lineShown g p f).rd Gen.GEN_OUT_MASK (32 + g)).testBit m) (fun e =>
        e.pulse 0x12 (32 + g) m e.nowL f (e.rd Gen.GEN_PW (32 + g)) false)) (d.lineShown g p f)).genFeed g f := rfl

theorem Dev.genFeed_free {d : Dev} {g : Nat} (f : Nat) (h : (d.claim .gen g).held = false) : d.genFeed g f = d := by
  have hport : d.genPort g = none := by
    rw [Dev.genPort, h]
    rfl
  unfold Dev.genFeed
  simp only [hport, h, Bool.false_and, Dev.when_false]

/-- A generator that drives no output and that no page holds only shows its line. -/
theorem Dev.genLine_plain {d : Dev} {g : Nat} (p : Int) (f : Nat) (hm : d.rd Gen.GEN_OUT_MASK (32 + g) = 0)
    (hc : (d.claim .gen g).held = false) : d.genLine g p f = d.lineShown g p f := by
  have hmask : (d.lineShown g p f).rd Gen.GEN_OUT_MASK (32 + g) = 0 := by
    rw [Dev.lineShown, Dev.rd_wr_off _ _ _ _ _ (by decide), Dev.wrI, Dev.rd_wr_off _ _ _ _ _ (by decide), Dev.addWrap,
      Dev.rd_wr_off _ _ _ _ _ (by decide), Dev.setGen_rd, hm]
  rw [Dev.genLine_eq, hmask,
    foldl_keeps (fun e => e) _ _ (fun e m _ => Dev.when_of_eq_false (Nat.zero_testBit m)), Dev.genFeed_free]
  rw [Dev.lineShown, Dev.wr_claim, Dev.wrI, Dev.wr_claim, Dev.addWrap, Dev.wr_claim]
  exact hc

theorem Dev.lineShown_shows (d : Dev) (g : Nat) (p : Int) (f : Nat) :
    let t := (d.lineShown g p f).genAdvance g
    t.rd Gen.LINE_CNT (32 + g) = (d.rd Gen.LINE_CNT (32 + g) + 1) % 2 ^ Gen.LINE_CNT.w ∧
      t.rd Gen.LAST_LINE_POS (32 + g) = uInt 64 p % 2 ^ 64 ∧
      t.rd Gen.LAST_LINE_TIME (32 + g) = tImg f % 2 ^ Gen.LAST_LINE_TIME.w ∧
      (t.gen g).k = (d.gen g).k + 1 ∧ (t.gen g).last = some p := by
  have hgen : (d.lineShown g p f).gen g = { d.gen g with last := some p, lastFire := some f } := by
    rw [Dev.lineShown, Dev.wr_gen, Dev.wrI, Dev.wr_gen, Dev.addWrap, Dev.wr_gen, Dev.gen_setGen]
  obtain ⟨hk, hlast⟩ := (d.lineShown g p f).gen_genAdvance g
  rw [hgen] at hk hlast
  refine ⟨?_, ?_, ?_, hk, hlast⟩
  all_goals rw [Dev.rd_genAdvance _ _ _ (by decide), Dev.lineShown]
  · rw [Dev.rd_wr_off _ _ _ _ _ (by decide), Dev.wrI, Dev.rd_wr_off _ _ _ _ _ (by decide), Dev.addWrap, Dev.rd_wr,
      Dev.setGen_rd]
  · rw [Dev.rd_wr_off _ _ _ _ _ (by decide), Dev.wrI, Dev.rd_wr]
    rfl
  · rw [Dev.rd_wr]

/-- Settles O35, by the equations of the gate and of a line that is due. -/
theorem lineGenerators : Obligations.LineGenerators := by
  unfold Obligations.LineGenerators
  refine ⟨fun s r g => ⟨fun hp => State.updOn_eq s 2 _ hp, fun hp => State.updOn_unpowered s 2 _ hp, fun ht =>
      ⟨fun h => ?_, fun h => ?_, fun h => ?_, fun h => ?_⟩⟩,
    fun d g e he f hf => ⟨fun h => ?_, fun hdue h => ?_, fun hdue h => ?_⟩⟩
  · rw [exec_gateOpen ht, Dev.cmdGenOpen, Dev.genOpen, h]
    rfl
  · have hopen := exec_gateOpen (s := s) ht
    rw [Dev.cmdGenOpen, Dev.genOpen, h, if_pos rfl] at hopen
    refine ⟨hopen, fun hn => ⟨_, hopen, State.withDev_mem s _, ?_⟩⟩
    rw [State.withDev_dev, Dev.done_rd, Dev.done_rd, Dev.done_rd, Dev.done_gen]
    exact Dev.genOpenAt_shows _ _ hn
  · rw [exec_gateClose ht, Dev.genClose, h, if_pos rfl]
  · rw [exec_gateClose ht, Dev.genClose, h, if_neg (by decide)]
  · rw [Dev.genReach_eq he hf, if_pos]
    rwa [← Dev.genWaits_eq_false, Bool.not_eq_false] at h
  · have hreach : d.genReach g = (e.genSkip g).genAdvance g := by
      rw [Dev.genReach_eq he hf, if_neg (ne_true_of_eq_false (Dev.genWaits_eq_false.2 hdue)), if_pos h]
    have hline : e.rd Gen.LINE_CNT (32 + g) = d.rd Gen.LINE_CNT (32 + g) := by
      rw [he, Dev.holdGen_keeps (fun d => d.rd Gen.LINE_CNT (32 + g)) _ _ (fun v => Dev.rd_wr_off _ _ _ _ _ (by decide))]
    have hgen : e.gen g = d.gen g := he ▸ d.gen_holdGen g
    obtain ⟨hk, hcnt, hevt⟩ := e.genSkip_shows g
    rw [hreach]
    exact ⟨rfl, hk.trans (congrArg (fun x => GenH.k x + 1) hgen), hcnt.trans hline, hevt⟩
  · have hreach : d.genReach g = (e.genLine g (d.gen g).next f).genAdvance g := by
      rw [Dev.genReach_eq he hf, if_neg (ne_true_of_eq_false (Dev.genWaits_eq_false.2 hdue)),
        if_neg (ne_true_of_eq_false h)]
    refine ⟨hreach, fun hm hc t ht => ?_⟩
    have hrd : ∀ x : Fld, x.place ≠ Gen.STAT_HOLD.place → e.rd x (32 + g) = d.rd x (32 + g) := fun x hx => by
      rw [he, Dev.holdGen_keeps (fun d => d.rd x (32 + g)) _ _ (fun v => Dev.rd_wr_off _ _ _ _ _ hx)]
    have hclaim : (e.claim .gen g).held = false := by
      rw [he, Dev.holdGen_keeps (fun d => d.claim .gen g) _ _ (fun v => Dev.wr_claim _ _ _ _ _ _ _), hc]
    rw [Dev.genLine_plain _ _ ((hrd _ (by decide)).trans hm) hclaim] at hreach
    rw [ht, hreach, ← hrd _ (by decide), ← d.gen_holdGen g, ← he]
    exact e.lineShown_shows g _ f

/-! ### Outputs (R231–R233) -/

theorem fltSeverity_output {m : Nat} (h : m < 32) : fltSeverity 0x12 m Out.F_DRIVE_FAULT = some 3 := if_pos h

theorem exec_safeExit {s : State} {r : Req} {m : Fin 32} (ht : s.dev.takes r.num 0x12 m = true) :
    exec (.safeExit r m) s = .next (s.withDev (s.dev.cmdSafeExit m)) := State.upd_busW s _ _ _ _ ht

theorem exec_driveFault {s : State} (m : Fin 32) (hp : s.dev.powered 2 = true) :
    exec (.driveFault m) s = .next (s.withDev (s.dev.when (s.dev.outActive m).isSome (fun d =>
      d.flt 0x12 m Out.F_DRIVE_FAULT))) := State.updOn_eq s 2 _ hp

/-! ### Lockstep pairs (R200, R235) -/

theorem Dev.lockstep_channel (d : Dev) (k : Fin 8) :
    d.lockstep (.channel k) =
      (d.setChan k { d.chan k with word := d.posWord k, spd := d.speed k, stuck := true }).suspectFlt k Pos.F_LOCKSTEP := rfl

theorem Dev.lockstep_generator (d : Dev) (g : Fin 16) :
    d.lockstep (.generator g) =
      ((d.setGen g { d.gen g with fault := true }).genClose g).flt 0x12 (32 + g) Gen.F_LOCKSTEP := rfl

theorem Dev.lockstep_stream (d : Dev) (n : Fin 32) :
    d.lockstep (.stream n) =
      (((d.setStream n { d.stream n with fault := true, loadDue := false, reload := false }).wr Cs.STAT_LATCHED n 0).wr
        Cs.STAT_STATE n 6).flt 0x13 n Cs.F_LOCKSTEP := rfl

/-! ### What a fault leaves of a generator's STAT, which stands beside the outputs' safe state (R233) -/

/-- The changes a fault is made of, before the page of the device-wide registers: what they all keep, a fault keeps. -/
structure FaultKeeps {β : Type} (q : Dev → β) : Prop where
  ao : ∀ (d : Dev) (f : Fld) (v : Nat), f.cls ≤ 2 ∧ f.off < 4096 ∧ f.lo < 32 → q (d.wr f 0 v) = q d
  safe : ∀ (d : Dev) (m : Nat), m < 32 → q (d.wr Out.STAT_SAFE_ACTIVE m 1) = q d
  evt : ∀ (d : Dev) (c i b : Nat), q (d.evt c i b) = q d
  flag : ∀ (d : Dev) (c i v : Nat), q (d.wr (Hdr.FLT c) i v) = q d
  health : ∀ (d : Dev) (x : HealthRec), x.spareMap = d.health.spareMap → x.sparedPc = d.health.sparedPc →
    q { d with health := x } = q d
  cycle : ∀ (d : Dev) (x : CycleH), q { d with firstCycle := x } = q d
  store : ∀ (d : Dev) (x y : KMap Nat), q { d with nv := x, wear := y } = q d

/-- A health record with the next SEQ, for the other copy. -/
def HealthRec.rewritten (r : HealthRec) : HealthRec := { r with seq := (r.seq + 1) % 2 ^ 32, copy := 1 - r.copy }

/-- The words of a health record stored in its copy. -/
def Dev.hrecStored (d : Dev) (r : HealthRec) : Dev :=
  (List.range 4).foldl (fun d j => d.nvStore (hrecBase r.copy + j) (r.words.getD j 0)) d

theorem Dev.nvStore_health (d : Dev) (a v : Nat) : (d.nvStore a v).health = d.health := by
  unfold Dev.nvStore
  rfl

theorem Dev.hrecStored_health (d : Dev) (r : HealthRec) : (d.hrecStored r).health = d.health := by
  unfold Dev.hrecStored
  exact foldl_keeps Dev.health _ _ (fun d _ _ => d.nvStore_health _ _) d

theorem Dev.hrecWrite_powered {d : Dev} (h : d.is Nv.NV_STAT_PWR_OK 0 = true) :
    d.hrecWrite = { d.hrecStored d.health.rewritten with health := d.health.rewritten } := if_pos h

section
variable {β : Type} {q : Dev → β} (h : FaultKeeps q)
include h

theorem FaultKeeps.setHealth (d : Dev) (x : Nat) : q (d.setHealth x) = q d := by
  unfold Dev.setHealth
  split
  · rfl
  · rw [Dev.alert, h.ao _ _ _ (by decide), h.evt, Dev.wrb, h.ao _ _ _ (by decide), Dev.wrb, h.ao _ _ _ (by decide),
      h.ao _ _ _ (by decide)]

theorem FaultKeeps.showFirst (d : Dev) : q d.showFirst = q d := by
  refine (h.cycle _ _).trans ?_
  rw [h.ao _ _ _ (by decide), h.ao _ _ _ (by decide), h.ao _ _ _ (by decide), Dev.wrb, h.ao _ _ _ (by decide),
    h.ao _ _ _ (by decide)]

theorem FaultKeeps.summary (d : Dev) (c i b s : Nat) : q (d.summary c i b s) = q d := by
  unfold Dev.summary
  simp only
  split
  · exact (h.evt _ _ _ _).trans ((h.showFirst _).trans (h.cycle _ _))
  · split
    · exact (h.showFirst _).trans (h.cycle _ _)
    · exact h.cycle _ _

theorem FaultKeeps.nvStore (d : Dev) (a v : Nat) : q (d.nvStore a v) = q d :=
  (h.store (d.wr (Hdr.FLT_INJ 2) 0 _) _ _).trans (h.ao _ _ _ (by decide))

theorem FaultKeeps.hrecStored (d : Dev) (r : HealthRec) : q (d.hrecStored r) = q d :=
  foldl_keeps q _ _ (fun d _ _ => h.nvStore d _ _) d

theorem FaultKeeps.hrecWrite (d : Dev) : q d.hrecWrite = q d := by
  by_cases hp : d.is Nv.NV_STAT_PWR_OK 0 = true
  · rw [Dev.hrecWrite_powered hp]
    refine (h.health _ _ ?_ ?_).trans (h.hrecStored d _)
    · rw [Dev.hrecStored_health, HealthRec.rewritten]
    · rw [Dev.hrecStored_health, HealthRec.rewritten]
  · rw [Dev.hrecWrite, if_neg hp]

theorem FaultKeeps.safeAll (d : Dev) : q d.safeAll = q d := by
  unfold Dev.safeAll
  refine foldl_keeps q _ _ (fun d m hm => ?_) d
  split
  · rfl
  · exact (h.evt _ _ _ _).trans (h.safe _ _ (List.mem_range.1 hm))

theorem FaultKeeps.react (d : Dev) (c i b s : Nat) : q (d.react c i b s) = q d := by
  obtain ⟨hc, ho, hl, -, -⟩ := cntOfClass_ao s
  unfold Dev.react
  simp only
  rw [Dev.when_keeps q, Dev.when_keeps q, Dev.when_keeps q, Dev.when_keeps q, Dev.incSat, Dev.addSat, h.ao _ _ _ ⟨hc, ho, hl⟩]
  · exact h.summary _ _ _ _ _
  · refine (h.hrecWrite _).trans ((h.health _ _ ?_ ?_).trans ?_)
    · rfl
    · rfl
    split
    · rfl
    · exact h.setHealth _ _
  · exact (h.safeAll _).trans (h.setHealth _ _)
  · exact h.ao _ _ _ (by decide)

theorem FaultKeeps.fltCore (d : Dev) (c i b : Nat) : q (d.fltCore c i b) = q d := by
  rcases d.fltCore_cases c i b with hf | hf | ⟨s, hf⟩
  all_goals rw [hf]
  · exact h.flag _ _ _ _
  · exact (h.react _ _ _ _ _).trans (h.flag _ _ _ _)

theorem FaultKeeps.flt (d : Dev) (c i b : Nat) : q (d.flt c i b) = q d := by
  unfold Dev.flt
  simp only
  split
  · exact (h.fltCore _ _ _ _).trans (h.fltCore _ _ _ _)
  · exact h.fltCore _ _ _ _

end

theorem genStat_faultKeeps (g : Fin 16) (f : Fld) (hf : f.cls = 0x12 ∧ f.off = 0x10 ∧ f.lo < 32) :
    FaultKeeps (fun d => d.rd f (32 + g)) where
  ao d x v hx := by
    obtain ⟨hc, ho, hl⟩ := hf
    exact Dev.rd_wr_class _ _ _ _ _ _ (by omega) (by omega) (by omega)
  safe d m hm := by
    obtain ⟨hc, ho, hl⟩ := hf
    refine Dev.rd_wr_ne _ _ _ _ _ _ _ _ ?_
    simp only [Fld.key, Out.STAT_SAFE_ACTIVE]
    omega
  evt d c i b := Dev.rd_evt_low _ _ _ _ _ _ (by omega)
  flag d c i v := by
    obtain ⟨hc, ho, hl⟩ := hf
    refine Dev.rd_wr_ne _ _ _ _ _ _ _ _ ?_
    simp only [Fld.key, Hdr.FLT]
    omega
  health _ _ _ _ := rfl
  cycle _ _ := rfl
  store _ _ _ := rfl

theorem Dev.is_genClose (d : Dev) (g : Nat) : (d.genClose g).is Gen.STAT_OPEN (32 + g) = false := by
  unfold Dev.genClose
  split
  · rw [Dev.is_evt_low _ _ _ _ _ _ (by decide), Dev.is_eq, Dev.rd_wr]
    rfl
  · next h => exact Bool.not_eq_true _ ▸ h

/-- Settles O36, by the equations of the outputs' commands and of the lockstep pairs. -/
theorem outputsAndLockstep : Obligations.OutputsAndLockstep := by
  unfold Obligations.OutputsAndLockstep
  refine ⟨fun s => ⟨fun hp m u => ?_, fun hp => ⟨fun u => State.updOn_eq s 2 _ hp, fun m => ⟨State.updOn_eq s 2 _ hp,
      fun h => ?_, fun b h => ⟨?_, ?_⟩⟩⟩, fun r m ht => ⟨fun h => ?_, fun h => ?_⟩⟩,
    fun d => ⟨fun m => rfl, fun k t ht => ?_, fun g t ht => ?_, fun n t ht => ?_⟩⟩
  · simp only [List.forall_mem_cons]
    exact ⟨State.updOn_unpowered s 2 _ hp, State.updOn_unpowered s 2 _ hp, State.updOn_unpowered s 2 _ hp,
      fun _ h => absurd h List.not_mem_nil⟩
  · rw [exec_driveFault m hp, h, Option.isSome_none, Dev.when_false]
  · rw [exec_driveFault m hp, h, Option.isSome_some, Dev.when_true]
  · exact Dev.flt_set _ _ _ _ 3 (by decide) (fltSeverity_output m.2)
  · rw [exec_safeExit ht, Dev.cmdSafeExit]
    exact congrArg (fun d => Host.Outcome.next (s.withDev d)) (if_neg (ne_true_of_eq_false h))
  · rw [exec_safeExit ht, Dev.cmdSafeExit]
    exact congrArg (fun d => Host.Outcome.next (s.withDev d)) (if_pos h)
  · rw [ht, Dev.lockstep_channel, Dev.suspectFlt_chan, Dev.chan_setChan]
    exact ⟨rfl, rfl, rfl, Dev.rd_suspectFlt _ _ _, Dev.flt_set _ _ _ _ 3 (by decide) rfl⟩
  · rw [ht, Dev.lockstep_generator]
    refine ⟨?_, ?_, Dev.flt_set _ _ _ _ 3 (by decide) (if_neg (by omega))⟩
    · rw [Dev.flt_gen, Dev.genClose_keeps (fun d => d.gen g), Dev.gen_setGen]
      exact (Dev.evt_gen _ _ _ _ _).trans (Dev.wr_gen _ _ _ _ _ _)
    · exact (Dev.is_congr ((genStat_faultKeeps g Gen.STAT_OPEN (by decide)).flt _ _ _ _)).trans (Dev.is_genClose _ _)
  · rw [ht, Dev.lockstep_stream, Dev.flt_stream, Dev.wr_stream, Dev.wr_stream, Dev.stream_setStream]
    refine ⟨rfl, ?_, ?_, rfl, Dev.flt_set _ _ _ _ 3 (by decide) rfl⟩
    · rw [Dev.rd_flt_off _ _ _ _ _ n (by decide), Dev.rd_wr]
      rfl
    · rw [Dev.rd_flt_off _ _ _ _ _ n (by decide), Dev.rd_wr_off _ _ _ _ _ (by decide), Dev.rd_wr, Nat.zero_mod]

end Sys2Proof.Machine
end

