-- ==== Sys2Proof/Proofs/Streams.lean ====
section
/-!
PROOFS. Compare streams (R214, R229): a device of no legal history, against which the statement O37 fails.
-/

open Sys2Proof

namespace Sys2Proof.Machine

/-- A stream that is READY, with an entry latched, whose CS_CFG_CH holds 195: no write can leave that in its 3 bits, but nothing in
the statement's ∀ keeps it out. Channel 195 of class 0x10 has the register keys of page 3 of class 0x13, so that the channel's
STAT.DIR_NEG is the stream's STAT.LATCHED. -/
def strayChannel : Dev :=
  let d := (State.reset.dev.setChan 195 { (default : PosH) with moved := true }).wr (Hdr.EN 0x13) 3 1
  let d := (d.wr Cs.STAT_STATE 3 1).wr Cs.STAT_LATCHED 3 1
  { d with regs := mset d.regs (Cs.CS_CFG_CH.key 3 0) 195 0 }

/-- Before the arm the channel counts against the stream's direction; the arm clears LATCHED, and with it that reading. -/
theorem strayChannel_arm :
    strayChannel.enabled 0x13 3 = true ∧ strayChannel.csState 3 = 1 ∧ strayChannel.csSrc 3 = false ∧
      strayChannel.against (strayChannel.rd Cs.CS_CFG_CH 3) (strayChannel.rd Cs.CS_CFG_DIR 3) = true ∧
      (strayChannel.csArm 3 none).rd Cs.STAT_STATE 3 = 2 := by
  decide

/-- Refutes O37: an arm of stream 3 with CS_CFG_CH = 195, where the channel's direction bit is the stream's own LATCHED, ends
ARMED and not HELD as the clause about arms says. The witness rests on a register value no write leaves. -/
theorem not_compareStreams : ¬ Obligations.CompareStreams := by
  unfold Obligations.CompareStreams
  intro h
  obtain ⟨hen, hst, hsrc, hagainst, harm⟩ := strayChannel_arm
  obtain ⟨-, hd, -⟩ := h.2 strayChannel 3
  have hheld := (hd hen (fun e => absurd (hst.symm.trans e) (by decide))
    (fun e => absurd (hst.symm.trans e) (by decide)) _ rfl).1
  rw [if_pos ⟨hsrc, hagainst⟩] at hheld
  exact absurd (hheld.symm.trans harm) (by decide)

end Sys2Proof.Machine
end

