-- ==== Sys2Proof/Proofs/Inputs.lean ====
section
/-!
PROOFS. Digital inputs (R164, R201–R205): levels, runs, edges, wire checks and event items; from these the statement O38.
-/

open Sys2Proof

namespace Sys2Proof.Machine

@[simp] theorem Dev.evt_din (d : Dev) (c i b m : Nat) : (d.evt c i b).din m = d.din m := by
  rw [Dev.evt_rest]
  rfl

/-! ### An accepted run (R202–R205) -/

/-- The input whose run is accepted, before that is an edge. -/
def Dev.runTaken (d : Dev) (n : Nat) (h : DinH) : Dev :=
  ((d.wr Din.STAT_LEVEL n (d.rd Din.STAT_RAW n)).wr Din.STAT_DEBOUNCING n 0).setDin n { h with run := none }

theorem Dev.enabled_runTaken (d : Dev) (n : Nat) (h : DinH) : (d.runTaken n h).enabled 0x11 n = d.enabled 0x11 n := by
  refine Dev.enabled_congr ?_
  rw [Dev.runTaken, Dev.setDin_rd, Dev.rd_wr_off _ _ _ _ _ (by decide), Dev.rd_wr_off _ _ _ _ _ (by decide)]

/-- The edge counted, stamped and reported. -/
def Dev.edgeShown (d : Dev) (n : Nat) (rise : Bool) (t : Nat) : Dev :=
  ((d.addWrap Din.EDGE_CNT n 1).wr (if rise then Din.LAST_RISE else Din.LAST_FALL) n t).evt 0x11 n
    (if rise then Din.E_RISE else Din.E_FALL)

theorem Dev.dinAccept_off {d : Dev} {n : Nat} (h : DinH) (t0 : Nat) (he : d.enabled 0x11 n = false) :
    d.dinAccept n h t0 = d.runTaken n h := by
  refine if_pos ?_
  rw [show (((d.wr Din.STAT_LEVEL n (d.rd Din.STAT_RAW n)).wr Din.STAT_DEBOUNCING n 0).setDin n { h with run := none }) =
    d.runTaken n h from rfl, Dev.enabled_runTaken, he]
  rfl

/-- What an edge leads to: an item, a wake event, and the streams and generators it arms and gates. -/
def Dev.edgeDone (d : Dev) (n : Nat) (rise : Bool) (item : List Nat) (words : List Int) : Dev :=
  ((d.when ((d.rd Din.DIN_CFG_EDGES n).testBit (if rise then 0 else 1)) (fun d => d.dinPut n item)).when (rise && n == 0)
    (fun d => d.wakeEvent 2 0)).dinOffer n rise words

theorem Dev.dinAccept_on {d : Dev} {n : Nat} (h : DinH) (t0 : Nat) (he : d.enabled 0x11 n = true) : ∃ t item,
    d.dinAccept n h t0 =
      ((d.runTaken n h).edgeShown n (d.rd Din.STAT_RAW n == 1) t).edgeDone n (d.rd Din.STAT_RAW n == 1) item h.runWords := by
  refine ⟨_, _, if_neg ?_⟩
  rw [show (((d.wr Din.STAT_LEVEL n (d.rd Din.STAT_RAW n)).wr Din.STAT_DEBOUNCING n 0).setDin n { h with run := none }) =
    d.runTaken n h from rfl, Dev.enabled_runTaken, he]
  decide

/-! ### The sampled level (R201, R202) -/

/-- The run a differing level begins: its time, and the positions as they stand. -/
def Dev.runOf (d : Dev) (n y l : Nat) : DinH :=
  let k := d.rd Din.DIN_CFG_POS_CH n
  let valid := d.is Din.DIN_CFG_POS_EN n && d.enabled 0x10 k
  { d.din n with
    run := some (d.momentL y)
    runTc := d.momentL y - l % sampleL
    runPos := if valid then some (uInt 64 (d.posWord k)) else none
    runInfo := if valid then posInfoByte k (d.posEpoch k) (d.posSuspect k) else 0
    runWords := (List.range 8).map (fun c => d.posWord c) }

/-- The input that shows its sampled level. -/
def Dev.dinRaw (d : Dev) (n lv : Nat) : Dev := d.wr Din.STAT_RAW n ((lv + d.rd Din.DIN_CFG_INV n) % 2)

theorem Dev.dinLevel_eq (d : Dev) (n lv y l : Nat) :
    d.dinLevel n lv y l =
      let e := d.dinRaw n lv
      if e.is Din.STAT_WIRE n then e
      else if (lv + d.rd Din.DIN_CFG_INV n) % 2 = e.rd Din.STAT_LEVEL n then e.dinReject n
      else if (e.din n).run.isSome then e
      else ((e.setDin n (e.runOf n y l)).wr Din.STAT_DEBOUNCING n 1).when
        (((e.setDin n (e.runOf n y l)).wr Din.STAT_DEBOUNCING n 1).debounceL n == 0)
        (fun d => d.dinAccept n (e.runOf n y l) (e.momentL y)) := rfl

section
variable {d : Dev} {n : Fin 24} (lv y l : Nat)

theorem Dev.rd_dinRaw_off (f : Fld) (h : f.place ≠ Din.STAT_RAW.place) : (d.dinRaw n lv).rd f n = d.rd f n :=
  Dev.rd_wr_off _ _ _ _ _ h

theorem Dev.dinLevel_wire (h : d.is Din.STAT_WIRE n = true) : d.dinLevel n lv y l = d.dinRaw n lv := by
  rw [Dev.dinLevel_eq]
  refine if_pos ?_
  rwa [Dev.is_congr (Dev.rd_dinRaw_off lv _ (by decide))]

theorem Dev.dinLevel_same (hw : d.is Din.STAT_WIRE n = false)
    (hl : (lv + d.rd Din.DIN_CFG_INV n) % 2 = d.rd Din.STAT_LEVEL n) : d.dinLevel n lv y l = (d.dinRaw n lv).dinReject n := by
  rw [Dev.dinLevel_eq]
  refine (if_neg ?_).trans (if_pos ?_)
  · rw [Dev.is_congr (Dev.rd_dinRaw_off lv _ (by decide)), hw]
    decide
  · rw [Dev.rd_dinRaw_off lv _ (by decide), hl]

/-- A differing level goes on with the run that has begun, or begins one. -/
theorem Dev.dinLevel_differs (hw : d.is Din.STAT_WIRE n = false)
    (hl : (lv + d.rd Din.DIN_CFG_INV n) % 2 ≠ d.rd Din.STAT_LEVEL n) :
    d.dinLevel n lv y l =
      let e := d.dinRaw n lv
      if (d.din n).run.isSome then e
      else ((e.setDin n (e.runOf n y l)).wr Din.STAT_DEBOUNCING n 1).when (d.debounceL n == 0)
        (fun d => d.dinAccept n (e.runOf n y l) (e.momentL y)) := by
  rw [Dev.dinLevel_eq]
  refine ((if_neg ?_).trans (if_neg ?_)).trans ?_
  · rw [Dev.is_congr (Dev.rd_dinRaw_off lv _ (by decide)), hw]
    decide
  · rwa [Dev.rd_dinRaw_off lv _ (by decide)]
  · have hd : (((d.dinRaw n lv).setDin n ((d.dinRaw n lv).runOf n y l)).wr Din.STAT_DEBOUNCING n 1).debounceL n =
        d.debounceL n := by
      rw [Dev.debounceL, Dev.rd_wr_off _ _ _ _ _ (by decide), Dev.setDin_rd, Dev.rd_dinRaw_off lv _ (by decide)]
      rfl
    rw [hd]
    rfl

theorem Dev.rd_dinRaw : (d.dinRaw n lv).rd Din.STAT_RAW n = (lv + d.rd Din.DIN_CFG_INV n) % 2 :=
  (Dev.rd_wr _ _ _ _ _).trans (Nat.mod_mod _ _)

/-- The input whose run has begun. -/
def Dev.runBegun (e : Dev) (n y l : Nat) : Dev := (e.setDin n (e.runOf n y l)).wr Din.STAT_DEBOUNCING n 1

section
variable (hw : d.is Din.STAT_WIRE n = false) (hl : (lv + d.rd Din.DIN_CFG_INV n) % 2 ≠ d.rd Din.STAT_LEVEL n)
  (hn : (d.din n).run = none)
include hw hl hn

theorem Dev.dinLevel_begins (hd : d.debounceL n ≠ 0) : d.dinLevel n lv y l = (d.dinRaw n lv).runBegun n y l := by
  rw [Dev.dinLevel_differs lv y l hw hl, hn]
  exact (if_neg Bool.false_ne_true).trans (Dev.when_of_eq_false (beq_eq_false_iff_ne.2 hd))

theorem Dev.dinLevel_at_once (hd : d.debounceL n = 0) (he : d.enabled 0x11 n = false) :
    d.dinLevel n lv y l = ((d.dinRaw n lv).runBegun n y l).runTaken n ((d.dinRaw n lv).runOf n y l) := by
  rw [Dev.dinLevel_differs lv y l hw hl, hn]
  refine (if_neg Bool.false_ne_true).trans ((Dev.when_of_eq_true (beq_iff_eq.2 hd)).trans (Dev.dinAccept_off _ _ ?_))
  rw [← he]
  refine Dev.enabled_congr ?_
  rw [Dev.rd_wr_off _ _ _ _ _ (by decide), Dev.setDin_rd, Dev.rd_dinRaw_off lv _ (by decide)]

end

end

theorem Dev.dinReject_none {d : Dev} {n : Nat} (h : (d.din n).run = none) : d.dinReject n = d := by
  rw [Dev.dinReject, h]
  rfl

theorem Dev.dinReject_some {d : Dev} {n : Nat} (h : (d.din n).run.isSome = true) :
    d.dinReject n =
      ((d.setDin n { d.din n with run := none }).wr Din.STAT_DEBOUNCING n 0).incSat Din.DIN_CNT_GLITCH_CNT n :=
  if_pos h

/-! ### A wake event at a link (R470) -/

/-- The link acts on a wake event that it has counted, according to its state. -/
def Dev.wakeActs (d : Dev) (l : Nat) : Dev :=
  let h := d.link l
  let f := d.fn (16 * l)
  if h.waking then d
  else if h.perst then
    if h.armed then (d.setLink l { h with waking := true }).emit (.wake l true) else d
  else if f.d3 && f.pmeEn then
    let d := d.l1Exit l
    ((d.setLink l { d.link l with waking := true }).setFn (16 * l) { f with pmeStatus := true }).emit (.pme l)
  else d

theorem Dev.wakeLink_eq (d : Dev) (l src : Nat) :
    d.wakeLink l src = (((d.wr Link.WAKE_STAT_LAST_SRC l src).incSat Link.WAKE_STAT_WAKE_CNT l).evt 0x1C l Link.E_WAKE).wakeActs
      l :=
  rfl

/-! ### What an edge leads to leaves the input's own page -/

/-- The input's level and edge count read as before, and its events stay set. -/
structure InputKept (n : Fin 24) (d e : Dev) : Prop where
  level : e.rd Din.STAT_LEVEL n = d.rd Din.STAT_LEVEL n
  count : e.rd Din.EDGE_CNT n = d.rd Din.EDGE_CNT n
  evts : ∀ b, b < 32 → (d.rd (Hdr.EVT 0x11) n).testBit b = true → (e.rd (Hdr.EVT 0x11) n).testBit b = true

section
variable {n : Fin 24}

theorem InputKept.refl (d : Dev) : InputKept n d d := ⟨rfl, rfl, fun _ _ h => h⟩

theorem InputKept.trans {a b c : Dev} (h : InputKept n a b) (g : InputKept n b c) : InputKept n a c :=
  ⟨g.level.trans h.level, g.count.trans h.count, fun x hx hb => g.evts x hx (h.evts x hx hb)⟩

theorem InputKept.of_regs {d e x : Dev} (h : InputKept n d e) (hx : x.regs = e.regs) : InputKept n d x :=
  h.trans ⟨Dev.rd_of_regs hx _ _ _, Dev.rd_of_regs hx _ _ _, fun _ _ hb => (Dev.rd_of_regs hx (Hdr.EVT 0x11) n 0).symm ▸ hb⟩

/-- A field of another class, in a page that exists. -/
theorem InputKept.wr {d e : Dev} (h : InputKept n d e) {f : Fld} {i : Nat} (v : Nat) (hi : i < 64)
    (hf : f.cls ≠ 0x11 ∧ f.off < 4096 ∧ f.lo < 32) : InputKept n d (e.wr f i v) := by
  obtain ⟨hc, ho, hl⟩ := hf
  have hn : n.val < 64 := by omega
  refine h.trans ⟨?_, ?_, fun b _ hb => ?_⟩
  · exact Dev.rd_wr_class _ _ _ _ _ _ ⟨hc, ho, by decide, hl, by decide⟩ hi hn
  · exact Dev.rd_wr_class _ _ _ _ _ _ ⟨hc, ho, by decide, hl, by decide⟩ hi hn
  · rwa [Dev.rd_wr_class _ f (Hdr.EVT 0x11) _ _ _ ⟨hc, ho, by decide, hl, by decide⟩ hi hn]

theorem InputKept.incSat {d e : Dev} (h : InputKept n d e) {f : Fld} {i : Nat} (hi : i < 64)
    (hf : f.cls ≠ 0x11 ∧ f.off < 4096 ∧ f.lo < 32) : InputKept n d (e.incSat f i) := h.wr _ hi hf

theorem InputKept.raised {d e x : Dev} (h : InputKept n d e) (hx : Raised e x) : InputKept n d x :=
  h.trans ⟨hx.rd _ _ _ (Fld.quiet_of _ _ (by decide) (by omega)), hx.rd _ _ _ (Fld.quiet_of _ _ (by decide) (by omega)),
    fun b hb => hx.evts 0x11 n b hb⟩

theorem InputKept.evt {d e : Dev} (h : InputKept n d e) (c i b : Nat) : InputKept n d (e.evt c i b) :=
  h.raised (Dev.evt_raised _ _ _ _)

theorem InputKept.when {d e : Dev} (h : InputKept n d e) {c : Bool} {k : Dev → Dev} (hk : InputKept n e (k e)) :
    InputKept n d (e.when c k) := by
  cases c with
  | true => exact h.trans hk
  | false => exact h

theorem InputKept.foldl {β : Type} {l : List β} {f : Dev → β → Dev} (h : ∀ d, ∀ x ∈ l, InputKept n d (f d x)) (d : Dev) :
    InputKept n d (l.foldl f d) := by
  induction l generalizing d with
  | nil => exact .refl d
  | cons x l ih =>
    exact (h d x List.mem_cons_self).trans (ih (fun d y hy => h d y (List.mem_cons_of_mem _ hy)) _)

theorem InputKept.holdCs (d : Dev) {c : Nat} (hc : c < 64) : InputKept n d (d.holdCs c) := by
  unfold Dev.holdCs
  simp only
  split
  · exact .refl d
  · split
    · split
      · exact ((InputKept.refl d).of_regs (Dev.setStream_regs _ _ _)).wr _ hc (by decide)
      · exact .refl d
    · split
      · exact (InputKept.refl d).wr _ hc (by decide)
      · exact .refl d

theorem InputKept.csArm (d : Dev) {c : Nat} (hc : c < 64) (w : Option Int) : InputKept n d (d.csArm c w) := by
  unfold Dev.csArm
  simp only
  split
  · exact .refl d
  · refine .trans (.when ?_ ?_) (.holdCs _ hc)
    · refine .wr (.wr ?_ _ hc (by decide)) _ hc (by decide)
      exact (InputKept.refl d).of_regs rfl
    · exact ((InputKept.refl _).incSat hc (by decide)).evt _ _ _

theorem InputKept.genClose (d : Dev) {g : Nat} (hg : g < 16) : InputKept n d (d.genClose g) := by
  unfold Dev.genClose
  split
  · exact ((InputKept.refl d).wr _ (by omega) (by decide)).evt _ _ _
  · exact .refl d

theorem InputKept.holdGen (d : Dev) {g : Nat} (hg : g < 16) : InputKept n d (d.holdGen g) := by
  rcases Dev.holdGen_cases d g with h | ⟨v, h⟩
  all_goals rw [h]
  · exact .refl d
  · exact (InputKept.refl d).wr _ (by omega) (by decide)

theorem InputKept.genOpen (d : Dev) {g : Nat} (hg : g < 16) (o w0 : Int) : InputKept n d (d.genOpen g o w0) := by
  have hi : 32 + g < 64 := by omega
  unfold Dev.genOpen
  split
  · obtain ⟨k, acc, next, ht⟩ := d.genOpenAt_fresh g o w0
    rw [ht]
    refine .trans (.when (.when (.evt (.wr (.wr ?_ _ hi (by decide)) _ hi (by decide)) _ _ _) ?_) (.genClose _ hg))
      (.holdGen _ hg)
    · exact ((InputKept.refl d).of_regs (Dev.setGen_regs _ _ _)).wr _ hi (by decide)
    · exact (InputKept.refl _).evt _ _ _
  · exact .refl d

theorem InputKept.l1Exit (d : Dev) (l : Nat) : InputKept n d (d.l1Exit l) := by
  unfold Dev.l1Exit
  simp only
  split
  · exact .refl d
  · refine .when ?_ ?_
    · exact (InputKept.refl d).of_regs (Dev.setLink_regs _ _ _)
    · exact (InputKept.refl _).of_regs (Dev.emit_regs _ _)

theorem InputKept.wakeActs (d : Dev) (l : Nat) : InputKept n d (d.wakeActs l) := by
  unfold Dev.wakeActs
  simp only
  split
  · exact .refl d
  · split
    · split
      · exact (InputKept.refl d).of_regs rfl
      · exact .refl d
    · split
      · exact (InputKept.l1Exit d l).of_regs rfl
      · exact .refl d

theorem InputKept.wakeLink (d : Dev) {l : Nat} (hl : l < 4) (src : Nat) : InputKept n d (d.wakeLink l src) := by
  have hi : l < 64 := by omega
  rw [Dev.wakeLink_eq]
  exact .trans ((((InputKept.refl d).wr _ hi (by decide)).incSat hi (by decide)).evt _ _ _) (.wakeActs _ l)

theorem InputKept.wakeEvent (d : Dev) (src m : Nat) : InputKept n d (d.wakeEvent src m) :=
  .foldl (fun _ _ hl => .when (.refl _) (.wakeLink _ (List.mem_range.1 hl) src)) d

/-- An event item goes to the input's FIFO, or its loss is counted. -/
theorem InputKept.dinPut (d : Dev) (item : List Nat) : InputKept n d (d.dinPut n item) := by
  unfold Dev.dinPut
  split
  · refine .evt ⟨?_, ?_, fun b _ hb => ?_⟩ _ _ _
    · rw [Dev.rd_incSat_off _ _ _ _ (by decide), Dev.setDin_rd]
    · rw [Dev.rd_incSat_off _ _ _ _ (by decide), Dev.setDin_rd]
    · rwa [Dev.rd_incSat_off _ _ (Hdr.EVT 0x11) _ (by decide), Dev.setDin_rd]
  · exact (((InputKept.refl d).of_regs (Dev.setDin_regs _ _ _)).of_regs (Dev.setQueue_regs _ _ _)).raised
      (Dev.qSettle_raised _ _)

theorem InputKept.dinOffer (d : Dev) (rise : Bool) (words : List Int) : InputKept n d (d.dinOffer n rise words) := by
  unfold Dev.dinOffer
  refine .trans (.foldl (fun _ c hc => .when (.refl _) (.csArm _ ?_ _)) d) (.foldl (fun _ g hg => .when (.refl _) (.genOpen _ ?_
    _ _)) _)
  · have := List.mem_range.1 hc
    omega
  · exact List.mem_range.1 hg

theorem InputKept.edgeDone (d : Dev) (rise : Bool) (item : List Nat) (words : List Int) :
    InputKept n d (d.edgeDone n rise item words) :=
  .trans (.when (.when (.refl d) (.dinPut _ _)) (.wakeEvent _ _ _)) (.dinOffer _ _ _)

end

/-- What the input's page shows of an accepted edge. -/
theorem Dev.dinAccept_shows {d : Dev} {n : Fin 24} (h : DinH) (t0 : Nat) (he : d.enabled 0x11 n = true) :
    (d.dinAccept n h t0).rd Din.STAT_LEVEL n = d.rd Din.STAT_RAW n % 2 ∧
      (d.dinAccept n h t0).rd Din.EDGE_CNT n = (d.rd Din.EDGE_CNT n + 1) % 2 ^ Din.EDGE_CNT.w ∧
      ((d.dinAccept n h t0).rd (Hdr.EVT 0x11) n).testBit (if d.rd Din.STAT_RAW n = 1 then Din.E_RISE else Din.E_FALL) = true := by
  obtain ⟨t, item, ht⟩ := Dev.dinAccept_on h t0 he
  obtain ⟨hlevel, hcount, hevts⟩ := InputKept.edgeDone (n := n) ((d.runTaken n h).edgeShown n (d.rd Din.STAT_RAW n == 1) t)
    (d.rd Din.STAT_RAW n == 1) item h.runWords
  rw [ht, hlevel, hcount]
  have hlast : ∀ f : Fld, f = Din.LAST_RISE ∨ f = Din.LAST_FALL →
      Din.STAT_LEVEL.place ≠ f.place ∧ Din.EDGE_CNT.place ≠ f.place := by
    rintro f (rfl | rfl) <;> decide
  have hboth : ∀ r : Bool, (if r then Din.LAST_RISE else Din.LAST_FALL) = Din.LAST_RISE ∨
      (if r then Din.LAST_RISE else Din.LAST_FALL) = Din.LAST_FALL := by decide
  obtain ⟨hl, hc⟩ := hlast _ (hboth (d.rd Din.STAT_RAW n == 1))
  refine ⟨?_, ?_, ?_⟩
  · rw [Dev.edgeShown, Dev.rd_evt_low _ _ _ _ _ _ (by decide), Dev.rd_wr_off _ _ _ _ _ hl, Dev.addWrap,
      Dev.rd_wr_off _ _ _ _ _ (by decide), Dev.runTaken, Dev.setDin_rd, Dev.rd_wr_off _ _ _ _ _ (by decide), Dev.rd_wr]
    rfl
  · rw [Dev.edgeShown, Dev.rd_evt_low _ _ _ _ _ _ (by decide), Dev.rd_wr_off _ _ _ _ _ hc, Dev.addWrap, Dev.rd_wr, Dev.runTaken,
      Dev.setDin_rd, Dev.rd_wr_off _ _ _ _ _ (by decide), Dev.rd_wr_off _ _ _ _ _ (by decide)]
  · refine hevts _ ?_ ?_
    · split <;> decide
    · by_cases hr : d.rd Din.STAT_RAW n = 1
      · rw [if_pos hr, hr]
        exact Dev.evt_set _ _ _ _ (by decide)
      · rw [if_neg hr, beq_eq_false_iff_ne.2 hr]
        exact Dev.evt_set _ _ _ _ (by decide)

/-! ### Event items (R164, R205) -/

theorem Dev.useBuf_clean {d : Dev} {c i sbe dbe : Nat} (he : d.tabErr c i 0xFE dbe ≠ 2) (hd : d.armed c i dbe = false)
    (hs : d.armed c i sbe = false) : d.useBuf c i sbe dbe = (d, false) := by
  rw [Dev.useBuf, if_neg he, hd, hs]
  rfl

/-- The words of an item as the input keeps them. -/
def itemWords (x : QItem) : List Nat := (List.range 8).map (fun j => le x.hdr (4 * j) 4)

section
variable {d : Dev} {n : Nat} (he : d.tabErr 0x11 n 0xFE Din.F_EV_DBE ≠ 2) (hd : d.armed 0x11 n Din.F_EV_DBE = false)
  (hs : d.armed 0x11 n Din.F_EV_SBE = false)
include he hd hs

theorem Dev.evItem0_none (h : d.itemAtRd (16 + n) = none) :
    d.evItem0 n = ((d.setDin n { d.din n with words := [0, 0, 0, 0, 0, 0, 0, 0] }).qIdle (16 + n), 0) := by
  simp only [Dev.evItem0, Dev.useBuf_clean he hd hs, h, Bool.false_eq_true, if_false]

theorem Dev.evItem0_some {x : QItem} (h : d.itemAtRd (16 + n) = some x) :
    d.evItem0 n = ((d.setDin n { d.din n with words := itemWords x }).qFinish (16 + n) x, (itemWords x).getD 0 0) := by
  simp only [Dev.evItem0, Dev.useBuf_clean he hd hs, h, Bool.false_eq_true, if_false] <;> rfl

end

/-- A read of a page that takes the requester's writes is the page's own. -/
theorem Dev.readAt_of_takes {d : Dev} {r c i : Nat} (k : Dev → Dev × Nat) (h : d.takes r c i = true)
    (hc : pageShared c = false) : d.readAt r c i k = k d := by
  obtain ⟨hi, -, hm, ha⟩ := (d.takes_iff r c i).1 h
  have hs := Dev.sees_of_mayWrite hm
  have hr : d.readable r c i = true := by
    rw [Dev.mayWrite, Dev.writable, hc, if_neg (by decide), Bool.and_eq_true] at hm
    rw [Dev.readable, hm.1, Bool.or_true, Bool.true_or]
  have hv : (isVf r && !d.vfReaches r c i false) = false := by
    rw [Dev.sees] at hs
    revert hs
    cases isVf r <;> cases d.vfReaches r c i false <;> decide
  rw [Dev.readAt, hi, hr, hv]
  refine (if_neg (by decide)).trans ?_
  cases hao : aoHeld c 0x40 with
  | true => rfl
  | false =>
    rw [hao, Bool.false_or, Dev.answers] at ha
    simp only [Bool.and_eq_true, Bool.not_eq_true'] at ha
    obtain ⟨⟨hq, hw⟩, hres⟩ := ha
    rw [hq, hw, hres]
    rfl

/-- Finishing an item of a device queue leaves the inputs and sends nothing. -/
theorem Dev.qFinish_keeps (d : Dev) {k : Nat} (hk : k < 64) (x : QItem) :
    (d.qFinish k x).dins = d.dins ∧ (d.qFinish k x).sent = d.sent := by
  unfold Dev.qFinish
  refine Dev.when_induct (fun e => e.dins = d.dins ∧ e.sent = d.sent) _ _ _ ⟨rfl, rfl⟩ fun h => ?_
  rw [Dev.qRelease, Dev.dqFill, if_neg (by omega), if_neg (by omega)]
  rw [(Dev.qSettle_raised _ k).rest]
  exact h

theorem exec_evItem0 {s : State} {r : Req} {n : Fin 24} (ht : s.dev.takes r.num 0x11 n = true) (ha : s.dev.boot.aoUp = true) :
    exec (.evItem0Read r n) s = .next (s.withDev ((s.dev.evItem0 n).1.emit (.answer r.num (s.dev.evItem0 n).2))) := by
  obtain ⟨-, hl, -⟩ := (s.dev.takes_iff r.num 0x11 n).1 ht
  refine congrArg (fun d => Host.Outcome.next (s.withDev d)) ?_
  refine (Dev.reply_of_live _ ha hl).trans ?_
  rw [Dev.readAt_of_takes _ ht (by decide)]

theorem exec_qualifiedEdge {s : State} (n : Fin 24) (rise : Bool) (y : Nat) (hp : s.dev.powered 2 = true) :
    exec (.qualifiedEdge n rise y) s = .next (s.withDev (s.dev.dinEdge n rise y)) := State.updOn_eq s 2 _ hp

theorem Dev.dinEdge_none {d : Dev} {n : Nat} (rise : Bool) (y : Nat) (h : (d.din n).run = none) : d.dinEdge n rise y = d := by
  simp only [Dev.dinEdge, h]

theorem Dev.dinEdge_some {d : Dev} {n : Nat} (rise : Bool) (y : Nat) {t0 : Nat} (h : (d.din n).run = some t0) :
    d.dinEdge n rise y =
      if d.rd Din.STAT_RAW n ≠ b2n rise ∨ d.rd Din.STAT_LEVEL n = b2n rise ∨ d.momentL y < t0 + d.debounceL n then d
      else d.dinAccept n (d.din n) t0 := by
  simp only [Dev.dinEdge, h]

/-- With no route and no pad force on an input, it has the pad's level. -/
theorem Dev.dinPad_free {d : Dev} {n : Nat} (hr : d.routedD n = false) (hp : d.padD n = 0) (lv : Nat) : d.dinPad n lv = lv := by
  simp only [Dev.dinPad, hr, hp, Bool.false_eq_true, if_false, if_true]

theorem Dev.wireOne_din {d : Dev} {n : Fin 24} (h : d.padD n = 0) (hc : d.wireChecked (.din n) = true) (live : Bool) (lv : Nat) :
    d.wireOne (.din n) live lv = d.wireDin n live lv := by
  simp only [Dev.wireOne, h, hc, if_true, Bool.not_true, Bool.false_eq_true, if_false] <;> rfl

theorem Dev.wireDin_rise {d : Dev} {n : Fin 24} (h : d.is Din.STAT_WIRE n = false) (lv : Nat) :
    (d.wireDin n true lv).is Din.STAT_WIRE n = true ∧
      ((d.wireDin n true lv).rd (Hdr.FLT 0x11) n).testBit Din.F_WIRE_FAULT = true := by
  have heq : d.wireDin n true lv =
      (((d.dinReject n).wr Din.STAT_WIRE n 1).evt 0x11 n Din.E_WIRE).flt 0x11 n Din.F_WIRE_FAULT := by
    rw [Dev.wireDin, h]
    exact if_pos rfl
  rw [heq]
  refine ⟨?_, Dev.flt_set _ _ _ _ 3 (by decide) rfl⟩
  rw [Dev.is_flt_off _ _ _ _ _ n (by decide), Dev.is_evt_off _ _ _ _ _ n (by decide), Dev.is_eq, Dev.rd_wr]
  rfl

/-- Settles O38, by the equations of the sampled level, the run, the edge and the item. -/
theorem digitalInputs : Obligations.DigitalInputs := by
  unfold Obligations.DigitalInputs
  refine ⟨fun s r n => ⟨fun hp lv y l rise => ⟨State.updOn_unpowered s 2 _ hp, State.updOn_unpowered s 2 _ hp⟩, fun hp =>
      ⟨fun lv y l => State.updOn_eq s 2 _ hp, fun lv hr hpad => Dev.dinPad_free hr hpad lv,
        fun rise y => ⟨fun h => ?_, fun t0 h => ⟨fun hb => ?_, fun hraw hlev ht => ?_⟩⟩, fun live lv => State.updOn_eq s 2 _ hp,
        fun live lv hpad hc => ?_⟩, fun x hx ha => ⟨fun hl => ?_, fun hl => ?_⟩, fun ht ha he hd hs => ⟨fun h => ?_,
          fun x h => ?_⟩⟩,
    fun d n => ⟨fun lv y l e he => ⟨fun hw => ?_, fun hw hl => ⟨fun h => ?_, fun h => ?_⟩, fun hw hl => ⟨fun h => ?_,
        fun h hd t ht => ?_, fun h hd hen t ht => ?_⟩⟩, fun t0 x => ⟨fun he => ?_, fun he t ht => ?_⟩, fun hw lv t ht => ?_⟩⟩
  · rw [exec_qualifiedEdge n rise y hp, Dev.dinEdge_none rise y h]
  · rw [exec_qualifiedEdge n rise y hp, Dev.dinEdge_some rise y h, if_pos hb]
  · rw [exec_qualifiedEdge n rise y hp, Dev.dinEdge_some rise y h, if_neg]
    rintro (h1 | h2 | h3)
    · exact h1 hraw
    · exact hlev h2
    · exact absurd h3 (Nat.not_lt.2 ht)
  · rw [← Dev.wireOne_din hpad hc]
    exact State.updOn_eq s 2 _ hp
  · rw [hx]
    exact congrArg (fun d => Host.Outcome.next (s.withDev d)) (Dev.reply_of_live _ ha hl)
  · exact congrArg (fun d => Host.Outcome.next (s.withDev d)) (Dev.reply_of_dead _ ha hl)
  · have hexec := exec_evItem0 ht ha
    rw [Dev.evItem0_none he hd hs h] at hexec
    refine ⟨_, hexec, State.withDev_mem s _, rfl, ?_, ?_⟩
    · rw [State.withDev_dev, Dev.done_din, Dev.emit_din]
      exact congrArg DinH.words (Dev.din_setDin _ _ _)
    · rw [State.withDev_dev, Dev.done_queue, Dev.emit_queue]
      exact congrArg QueueH.idleReads (Dev.queue_setQueue _ _ _)
  · have hexec := exec_evItem0 ht ha
    rw [Dev.evItem0_some he hd hs h] at hexec
    obtain ⟨hdins, hsent⟩ := (s.dev.setDin n { s.dev.din n with words := itemWords x }).qFinish_keeps
      (show 16 + n.val < 64 by omega) x
    refine ⟨_, hexec, State.withDev_mem s _, ?_, ?_⟩
    · rw [State.withDev_dev, Dev.done_sent, Dev.emit_sent, hsent]
      rfl
    · rw [State.withDev_dev, Dev.done_din, Dev.emit_din, Dev.din, hdins, ← Dev.din, Dev.din_setDin]
      rfl
  · rw [he]
    exact Dev.dinLevel_wire lv y l hw
  · rw [he, Dev.dinLevel_same lv y l hw hl]
    exact Dev.dinReject_none h
  · rw [he, Dev.dinLevel_same lv y l hw hl]
    exact Dev.dinReject_some h
  · rw [he, Dev.dinLevel_differs lv y l hw hl]
    exact if_pos h
  · rw [ht, Dev.dinLevel_begins lv y l hw hl h hd, Dev.runBegun, Dev.wr_din, Dev.din_setDin]
    refine ⟨rfl, rfl, ?_, ?_, ?_⟩
    · rw [Dev.rd_wr]
      rfl
    · rw [Dev.rd_wr_off _ _ _ _ _ (by decide), Dev.setDin_rd, Dev.rd_dinRaw_off lv _ (by decide)]
    · rw [Dev.rd_wr_off _ _ _ _ _ (by decide), Dev.setDin_rd, Dev.rd_dinRaw]
  · rw [ht, Dev.dinLevel_at_once lv y l hw hl h hd hen, Dev.runTaken, Dev.din_setDin]
    refine ⟨rfl, ?_, ?_⟩
    · rw [Dev.setDin_rd, Dev.rd_wr, Nat.zero_mod]
    · rw [Dev.setDin_rd, Dev.rd_wr_off _ _ _ _ _ (by decide), Dev.rd_wr, Dev.runBegun, Dev.rd_wr_off _ _ _ _ _ (by decide),
        Dev.setDin_rd, Dev.rd_dinRaw]
      exact Nat.mod_mod _ _
  · exact Dev.dinAccept_off x t0 he
  · rw [ht]
    exact Dev.dinAccept_shows x t0 he
  · rw [ht]
    exact Dev.wireDin_rise hw lv

end Sys2Proof.Machine
end

