-- ==== Sys2Proof/Proofs/Clock.lean ====
section
/-!
PROOFS. The device clock (R137, R241–R248): INCR, steps and the loss of REFCLK; from these the statement O39.
-/

open Sys2Proof

namespace Sys2Proof.Machine

/-! ### What a packet that a port sends can change (R106, R113, R512) -/

/-- The changes a port's sending is made of: what they all keep, sending keeps. -/
structure SendKeeps {β : Type} (q : Dev → β) : Prop where
  port : ∀ (d : Dev) (p : Nat) (h : PortH), q (d.setPort p h) = q d
  loop : ∀ (d : Dev) (u : Nat) (x : LoopH), q (d.setLoop u x) = q d
  lane : ∀ (d : Dev) (l : Nat) (x : LaneH), q (d.setLane l x) = q d
  emit : ∀ (d : Dev) (e : Emission), q (d.emit e) = q d
  free : ∀ d : Dev, q d.freeUsed = q d
  test : ∀ (d : Dev) (f : Fld) (v u : Nat), u < 18 → f.cls = 0x1F ∧ f.off < 0x400 ∧ f.lo < 32 ∧ f.str = 32 →
    q (d.wr f 0 v u) = q d

section
variable {β : Type} {q : Dev → β} (h : SendKeeps q)
include h

theorem SendKeeps.injPass (d : Dev) {u : Nat} (hu : u < 18) (dir : Nat) (bs : List Nat) :
    q (d.injPass u dir bs).1 = q d := by
  unfold Dev.injPass
  simp only
  split
  · split
    · rfl
    · split
      · exact (h.test _ LbF.INJ_STAT_HELD _ _ hu (by decide)).trans (h.loop _ _ _)
      · exact h.loop _ _ _
  · rfl

theorem SendKeeps.injAct (d : Dev) {u : Nat} (hu : u < 18) (dir : Nat) (bs : List Nat) (x : LoopH) (hit : Bool) :
    q (d.injAct u dir bs x hit).1 = q d := by
  have hcnt : ∀ d : Dev, q ((d.setLoop u x).incSat LbF.INJ_STAT_INJ_CNT 0 u) = q d := fun d =>
    (h.test _ LbF.INJ_STAT_INJ_CNT _ _ hu (by decide)).trans (h.loop _ _ _)
  unfold Dev.injAct
  simp only
  split
  · exact (h.injPass _ hu _ _).trans (h.loop _ _ _)
  · split
    · exact hcnt _
    · split
      · exact (h.injPass _ hu _ _).trans ((h.loop _ _ _).trans (hcnt _))
      · exact (h.injPass _ hu _ _).trans (hcnt _)
    · exact (h.test _ LbF.INJ_STAT_HELD _ _ hu (by decide)).trans ((h.loop _ _ _).trans (hcnt _))
    · exact (h.injPass _ hu _ _).trans (hcnt _)

theorem SendKeeps.inject (d : Dev) {u : Nat} (hu : u < 18) (dir typ : Nat) (bs : List Nat) :
    q (d.inject u dir typ bs).1 = q d := by
  rw [Dev.inject_eq]
  split
  · exact h.injPass _ hu _ _
  · split
    · exact h.injPass _ hu _ _
    · exact h.injAct _ hu _ _ _ _

theorem SendKeeps.sendCommas (d : Dev) (p n : Nat) : q (d.sendCommas p n) = q d :=
  ite_keeps q (h.port _ _ _) ((h.emit _ _).trans (h.port _ _ _))

theorem SendKeeps.slotSend (d : Dev) (p : Nat) (bs : List (Nat × Nat)) : q (d.slotSend p bs).1 = q d := by
  simp only [Dev.slotSend, Dev.slotRow]
  rw [h.port]
  refine (foldl_fst_keeps q _ ?_ _ _).trans ?_
  · intro a i
    exact h.lane _ _ _
  · dsimp only
    exact Dev.when_keeps q _ _ _ (h.sendCommas _ _ _)

theorem SendKeeps.pcsSend (d : Dev) (p : Nat) (bs : List Nat) : q (d.pcsSend p bs) = q d := by
  rw [Dev.pcsSend, h.emit]
  refine (foldl_fst_keeps q _ ?_ _ _).trans ?_
  · intro a row
    exact h.slotSend _ _ _
  · dsimp only
    exact Dev.when_keeps q _ _ _ (h.loop _ _ _)

theorem SendKeeps.sendPkt (d : Dev) {p : Nat} (hp : p < 16) (bs : List Nat) : q (d.sendPkt p bs) = q d :=
  (foldl_keeps q _ _ (fun d b _ => h.pcsSend d p b) _).trans (h.inject d (by omega) _ _ _)

theorem SendKeeps.timeReq (d : Dev) {p : Nat} (hp : p < 16) : q (d.timeReq p) = q d := by
  rw [Dev.timeReq_eq]
  refine ite_keeps q rfl ?_
  rw [Dev.timeAsk, h.sendPkt _ hp, h.port]
  exact Dev.when_keeps q _ _ _ ((h.free _).trans (h.port _ _ _))

end

/-! ### The clock and its registers (R241–R245) -/

/-- The clock, INCR and STEP_TIME, and whether a written INCR waits for its cycle. -/
def Dev.tuView (d : Dev) : Clock × Nat × Nat × Bool := (d.clk, d.rd Tu.INCR 0, d.rd Tu.STEP_TIME 0, d.incrDue)

theorem Dev.tuView_wr (d : Dev) (f : Fld) (i v j : Nat) (h : Tu.INCR.key 0 0 ≠ f.key i j ∧ Tu.STEP_TIME.key 0 0 ≠ f.key i j) :
    (d.wr f i v j).tuView = d.tuView := by
  obtain ⟨hi, hs⟩ := h
  rw [Dev.tuView, Dev.rd_wr_ne _ _ _ _ _ _ _ _ hi, Dev.rd_wr_ne _ _ _ _ _ _ _ _ hs]
  rfl

theorem Faulted.tuView {d e : Dev} (h : Faulted d e) : e.tuView = d.tuView := by
  rw [Dev.tuView, h.rd Tu.INCR 0 0 (Fld.calm_of Tu.INCR (0 : Fin 1) (by decide)),
    h.rd Tu.STEP_TIME 0 0 (Fld.calm_of Tu.STEP_TIME (0 : Fin 1) (by decide)), h.rest]
  rfl

theorem tuView_sendKeeps : SendKeeps Dev.tuView where
  port _ _ _ := rfl
  loop _ _ _ := rfl
  lane _ _ _ := rfl
  emit _ _ := rfl
  free _ := rfl
  test d f v u hu hf := by
    obtain ⟨hc, ho, hl, hs⟩ := hf
    refine Dev.tuView_wr _ _ _ _ _ ?_
    simp only [Fld.key, hc, hs, Tu.INCR, Tu.STEP_TIME]
    omega

theorem Dev.tuView_timeReqs (d : Dev) : ((List.range 16).foldl (fun d p => d.timeReq p) d).tuView = d.tuView :=
  foldl_keeps Dev.tuView _ _ (fun d _ hp => tuView_sendKeeps.timeReq d (List.mem_range.1 hp)) d

/-- A write of INCR that is taken, before the ports ask for the time. -/
def Dev.incrTaken (d : Dev) (v : Nat) : Dev :=
  (({ d with incrDue := true } : Dev).wr Tu.INCR 0 v).incSat Tu.TU_CNT_INCR_CNT 0

theorem Dev.incrWrite_eq (d : Dev) {v : Nat} (hv : v < 2 ^ 48) :
    d.incrWrite v =
      if 0x0147AE147AE1 + 703687441 < v ∨ v + 703687441 < 0x0147AE147AE1 then d.evt 0x14 0 evtBAD_ACCESS
      else (List.range 16).foldl (fun d p => d.timeReq p) (d.incrTaken v) := by
  rw [Dev.incrWrite, Nat.mod_eq_of_lt hv]
  rfl

theorem Dev.incrTaken_view (d : Dev) {v : Nat} (hv : v < 2 ^ 48) :
    (d.incrTaken v).clk = d.clk ∧ (d.incrTaken v).rd Tu.INCR 0 = v ∧ (d.incrTaken v).incrDue = true := by
  refine ⟨rfl, ?_, rfl⟩
  rw [Dev.incrTaken, Dev.rd_incSat_off _ _ _ _ (by decide), Dev.rd_wr]
  exact Nat.mod_eq_of_lt hv

theorem exec_incrWrite {s : State} {r : Req} (v : Nat) (ht : s.dev.takes r.num 0x14 0 = true) :
    exec (.incrWrite r v) s = .next (s.withDev (s.dev.incrWrite v)) := State.upd_busW s _ _ _ _ ht

/-! ### Steps (R245, R266) -/

/-- The clock takes a count. -/
def Dev.clkSet (d : Dev) (n : Nat) : Dev := { d with clk := clockOf n }

theorem Dev.clkSet_rd (d : Dev) (n : Nat) (f : Fld) (i j : Nat) : (d.clkSet n).rd f i j = d.rd f i j := rfl

theorem Dev.clkSet_clk (d : Dev) (n : Nat) : (d.clkSet n).clk = clockOf n := rfl

/-- What has waited in the Timed Action Table is due from now on. -/
def Dev.taFrom (d : Dev) : Dev := { d with taSince := d.nowL }

/-- A step that is taken, from the clock's new count on. -/
def Dev.stepped (d : Dev) (s : Int) (n : Nat) : Dev :=
  ((List.range 16).foldl (fun (d : Dev) p => (d.portStepped p s).timeReq p)
    (((((d.wr Tu.STEP_TIME 0 d.now).incSat Tu.TU_CNT_STEP_CNT 0).clkSet n).moveMarks s).gapAll.taStepped s d.nowL).taFrom).evt
    0x14 0 Tu.E_STEPPED

/-- Counts of 2^-40 ns that the clock's 48 bits of seconds hold. -/
def clockSpan : Nat := 2 ^ 48 * 1000000000 * 2 ^ 40

/-- By how much a step moves the clock, in 2^-16 ns. -/
def Dev.stepBy (d : Dev) (back : Bool) : Int :=
  if back then -(tLin (d.rd Tu.STEP_MAG 0) : Int) else tLin (d.rd Tu.STEP_MAG 0)

theorem Dev.step_eq (d : Dev) (back : Bool) :
    d.step? back =
      if (d.clk.count : Int) + d.stepBy back * 2 ^ 24 < 0 ∨ (clockSpan : Int) ≤ (d.clk.count : Int) + d.stepBy back * 2 ^ 24 then
        d.evt 0x14 0 Tu.E_STEP_REFUSED
      else d.stepped (d.stepBy back) ((d.clk.count : Int) + d.stepBy back * 2 ^ 24).toNat := by
  unfold Dev.step? Dev.stepped Dev.stepBy clockSpan
  generalize (2 ^ 48 * 1000000000 * 2 ^ 40 : Nat) = span
  rfl

/-- The changes that reading a table's entry is made of: what they all keep, reading keeps (R487). -/
structure ReadKeeps {β : Type} (q : Dev → β) : Prop where
  faulted : ∀ {d e : Dev}, Faulted d e → q e = q d
  tab : ∀ (d : Dev) (c i t n v : Nat), q (d.setTab c i t n v) = q d
  err : ∀ (d : Dev) (c i t n v : Nat), q (d.setTabErr c i t n v) = q d
  seen : ∀ (d : Dev) (x : KMap Nat), q { d with sbeSeen := x } = q d
  row : ∀ (d : Dev) (x : KMap Nat), q (({ d with spareRows := x } : Dev).incSat Bist.ROWS_USED 0) = q d

theorem Dev.taDead_cases (d : Dev) (i : Nat) : d.taDead i = d ∨ ∃ x e y,
    d.taDead i = (((d.setTab 0x15 0 1 i x).setTabErr 0x15 0 1 i e).setTab 0x15 0 2 i y).evt 0x15 0 Ta.E_REFUSED := by
  unfold Dev.taDead
  simp only
  split
  · exact .inl rfl
  · exact .inr ⟨_, _, _, rfl⟩

section
variable {β : Type} {q : Dev → β} (h : ReadKeeps q)
include h

theorem ReadKeeps.flt (d : Dev) (c i b : Nat) : q (d.flt c i b) = q d := h.faulted (Dev.flt_faulted _ _ _ _)

theorem ReadKeeps.evt (d : Dev) (c i b : Nat) : q (d.evt c i b) = q d := h.faulted (Dev.evt_raised _ _ _ _).faulted

theorem ReadKeeps.spareRow (d : Dev) (m : Nat) : q (d.spareRow m) = q d :=
  ite_keeps q (h.row _ _) (h.flt _ _ _ _)

theorem ReadKeeps.corrected (d : Dev) (c i b w : Nat) : q (d.corrected c i b w) = q d := by
  unfold Dev.corrected
  exact ite_keeps q ((h.spareRow _ _).trans ((h.seen _ _).trans (h.flt _ _ _ _))) ((h.seen _ _).trans (h.flt d _ _ _))

theorem ReadKeeps.taDead (d : Dev) (i : Nat) : q (d.taDead i) = q d := by
  rcases d.taDead_cases i with hd | ⟨x, e, y, hd⟩
  all_goals rw [hd]
  rw [h.evt, h.tab, h.err, h.tab]

theorem ReadKeeps.readTab (d : Dev) (pc pi sbe dbe c i t n : Nat) : q (d.readTab pc pi sbe dbe c i t n) = q d := by
  unfold Dev.readTab
  split
  · rfl
  · exact (h.corrected _ _ _ _ _).trans (h.err _ _ _ _ _ _)
  · exact (Dev.when_keeps q _ _ _ (h.taDead _ _)).trans (h.flt _ _ _ _)

end

theorem Dev.tuView_setTab (d : Dev) (c i t n v : Nat) : (d.setTab c i t n v).tuView = d.tuView := rfl

theorem tuView_readKeeps : ReadKeeps Dev.tuView where
  faulted h := h.tuView
  tab := Dev.tuView_setTab
  err _ _ _ _ _ _ := rfl
  seen _ _ := rfl
  row _ _ := Dev.tuView_wr _ _ _ _ _ (by decide)

theorem Dev.tuView_taRead (d : Dev) (i : Nat) : (d.taRead i).1.tuView = d.tuView :=
  (tuView_readKeeps.readTab _ _ _ _ _ _ _ _ _).trans (tuView_readKeeps.readTab _ _ _ _ _ _ _ _ _)

theorem Dev.tuView_taStepped (d : Dev) (s : Int) (old : Nat) : (d.taStepped s old).tuView = d.tuView := by
  unfold Dev.taStepped
  refine foldl_keeps Dev.tuView _ _ (fun d i _ => ?_) d
  have h := d.tuView_taRead i
  refine ite_keeps Dev.tuView h (ite_keeps Dev.tuView ?_ (ite_keeps Dev.tuView ?_ h))
  · exact (Dev.tuView_setTab _ _ _ _ _ _).trans h
  · exact (Dev.tuView_setTab _ _ _ _ _ _).trans h

/-- The marks move in seventeen passes, over the blocks of a kind or in one map, each of which keeps the view; of every pass's
result only the view is known to the next, so that the passes do not pile up inside one another. -/
theorem Dev.tuView_moveMarks (d : Dev) (s : Int) : (d.moveMarks s).tuView = d.tuView := by
  unfold Dev.moveMarks
  extract_lets +onlyGivenNames m o keys
  generalize hv : d.tuView = v
  iterate 5
    extract_lets +onlyGivenNames d'
    obtain ⟨e, hd, hv⟩ : ∃ e, d' = e ∧ e.tuView = v :=
      ⟨d', rfl, (foldl_keeps Dev.tuView _ _ (by exact fun _ _ _ => rfl) _).trans hv⟩
    rw [hd]
    clear hd d'
  iterate 1
    extract_lets +onlyGivenNames d'
    obtain ⟨e, hd, hv⟩ : ∃ e, d' = e ∧ e.tuView = v := ⟨d', rfl, hv⟩
    rw [hd]
    clear hd d'
  iterate 8
    extract_lets +onlyGivenNames d'
    obtain ⟨e, hd, hv⟩ : ∃ e, d' = e ∧ e.tuView = v :=
      ⟨d', rfl, (foldl_keeps Dev.tuView _ _ (by exact fun _ _ _ => rfl) _).trans hv⟩
    rw [hd]
    clear hd d'
  iterate 2
    extract_lets +onlyGivenNames d'
    obtain ⟨e, hd, hv⟩ : ∃ e, d' = e ∧ e.tuView = v := ⟨d', rfl, hv⟩
    rw [hd]
    clear hd d'
  exact hv

theorem Dev.tuView_gapAll (d : Dev) : d.gapAll.tuView = d.tuView := by
  rw [Dev.gapAll]
  exact foldl_keeps Dev.tuView (fun d k => d.setChan k { d.chan k with gap := true }) _ (fun _ _ _ => rfl) d

theorem Dev.tuView_since (d : Dev) (t : Nat) : ({ d with taSince := t } : Dev).tuView = d.tuView := rfl

theorem Dev.tuView_taFrom (d : Dev) : d.taFrom.tuView = d.tuView := Dev.tuView_since d _

theorem Dev.stepped_shows (d : Dev) (s : Int) (n : Nat) :
    (d.stepped s n).clk = clockOf n ∧ (d.stepped s n).rd Tu.STEP_TIME 0 = d.now % 2 ^ 128 ∧
      ((d.stepped s n).rd (Hdr.EVT 0x14) 0).testBit Tu.E_STEPPED = true := by
  have hview : (d.stepped s n).tuView = (((d.wr Tu.STEP_TIME 0 d.now).incSat Tu.TU_CNT_STEP_CNT 0).clkSet n).tuView := by
    rw [Dev.stepped, (Dev.evt_raised _ _ _ _).faulted.tuView]
    refine (foldl_keeps Dev.tuView (fun (d : Dev) p => (d.portStepped p s).timeReq p) _ ?_ _).trans ?_
    · exact fun d p hp => (tuView_sendKeeps.timeReq _ (List.mem_range.1 hp)).trans (tuView_sendKeeps.port _ _ _)
    · refine (Dev.tuView_taFrom _).trans ?_
      rw [Dev.tuView_taStepped, Dev.tuView_gapAll, Dev.tuView_moveMarks]
  simp only [Dev.tuView, Prod.mk.injEq] at hview
  obtain ⟨hclk, -, htime, -⟩ := hview
  refine ⟨hclk.trans (Dev.clkSet_clk _ _), ?_, Dev.evt_set _ _ _ _ (by decide)⟩
  rw [htime, Dev.clkSet_rd, Dev.rd_incSat_off _ _ _ _ (by decide), Dev.rd_wr, show Tu.STEP_TIME.w = 128 from rfl]

theorem Dev.tuCmd_fwd (d : Dev) : d.tuCmd 1 = d.step? false := by
  simp only [Dev.tuCmd, show Nat.testBit 1 0 = true by decide, show Nat.testBit 1 1 = false by decide,
    show Nat.testBit 1 2 = false by decide, Dev.when_false, Bool.and_false, Bool.false_eq_true, if_false, if_true]

theorem Dev.tuCmd_back (d : Dev) : d.tuCmd 2 = d.step? true := by
  simp only [Dev.tuCmd, show Nat.testBit 2 0 = false by decide, show Nat.testBit 2 1 = true by decide,
    show Nat.testBit 2 2 = false by decide, Dev.when_false, Bool.false_and, Bool.false_eq_true, if_false, if_true]

theorem exec_stepFwd {s : State} {r : Req} (ht : s.dev.takes r.num 0x14 0 = true) :
    exec (.stepFwd r) s = .next (s.withDev (s.dev.step? false)) := by
  rw [← Dev.tuCmd_fwd]
  exact State.upd_busW s _ _ _ _ ht

theorem exec_stepBack {s : State} {r : Req} (ht : s.dev.takes r.num 0x14 0 = true) :
    exec (.stepBack r) s = .next (s.withDev (s.dev.step? true)) := by
  rw [← Dev.tuCmd_back]
  exact State.upd_busW s _ _ _ _ ht

/-- The count a step forward, and one back, leads to. -/
theorem Dev.count_stepFwd (d : Dev) :
    (d.clk.count : Int) + d.stepBy false * 2 ^ 24 = (d.clk.count + tLin (d.rd Tu.STEP_MAG 0) * 2 ^ 24 : Nat) := by
  rw [Dev.stepBy, if_neg Bool.false_ne_true]
  omega

theorem Dev.count_stepBack {d : Dev} (h : tLin (d.rd Tu.STEP_MAG 0) * 2 ^ 24 ≤ d.clk.count) :
    (d.clk.count : Int) + d.stepBy true * 2 ^ 24 = (d.clk.count - tLin (d.rd Tu.STEP_MAG 0) * 2 ^ 24 : Nat) := by
  rw [Dev.stepBy, if_pos rfl]
  omega

/-- A step whose result is a count of the clock is taken. -/
theorem Dev.step_taken {d : Dev} {back : Bool} {n : Nat} (hn : (d.clk.count : Int) + d.stepBy back * 2 ^ 24 = n)
    (hs : n < clockSpan) : d.step? back = d.stepped (d.stepBy back) n := by
  rw [Dev.step_eq, hn, if_neg, Int.toNat_natCast]
  omega

theorem Dev.step_refused {d : Dev} (h : d.clk.count < tLin (d.rd Tu.STEP_MAG 0) * 2 ^ 24) :
    d.step? true = d.evt 0x14 0 Tu.E_STEP_REFUSED := by
  rw [Dev.step_eq, Dev.stepBy, if_pos rfl, if_pos]
  omega

/-! ### Ticks and losses (R241, R244, R248) -/

/-- What a loss of the clock's reference or of its lockstep leads to. -/
def Dev.clkGone (d : Dev) (b : Nat) : Dev := ({ d with clkLost := true } : Dev).clkFree.flt 0x14 0 b

theorem Dev.clkGone_shows (d : Dev) {b : Nat} (hb : b < 32) (hs : fltSeverity 0x14 0 b = some 4) :
    (d.clkGone b).clkLost = true ∧ ((d.clkGone b).rd (Hdr.FLT 0x14) 0).testBit b = true :=
  ⟨Dev.flt_clkLost _ _ _ _, Dev.flt_set _ _ _ _ 4 hb hs⟩

theorem exec_clkLoss (s : State) :
    exec .refclkLoss s = .next (s.withDev (s.dev.when s.dev.boot.aoUp (fun d => d.clkGone Tu.F_REFCLK_LOSS))) ∧
      exec .tbLockstep s = .next (s.withDev (s.dev.when s.dev.boot.aoUp (fun d => d.clkGone Tu.F_TB_LOCKSTEP))) := ⟨rfl, rfl⟩

/-- The device whose clock has gone on by INCR. -/
def Dev.clkOn (d : Dev) : Dev := d.clkSet (d.clk.count + d.rd Tu.INCR 0)

/-- A written INCR has taken effect, and INCR_TIME shows when. -/
def Dev.incrShown (d : Dev) : Dev := ({ d with incrDue := false } : Dev).wr Tu.INCR_TIME 0 d.now

/-- One cycle more is counted. -/
def Dev.cycled (d : Dev) : Dev := { d with ticks := d.ticks + 1 }

/-- The clock after its cycle, INCR as it was. -/
def Dev.clkCycle (d : Dev) : Dev := if !d.powered 1 then d else if d.clkLost then d.clkFree else d.clkOn

theorem Dev.tick_stages (d : Dev) :
    d.tick = (if d.clkCycle.incrDue && d.clkCycle.powered 1 then d.clkCycle.incrShown else d.clkCycle).cycled := rfl

theorem Dev.clk_keeps (d : Dev) (k : Clock) :
    ({ d with clk := k } : Dev).incrDue = d.incrDue ∧ ({ d with clk := k } : Dev).powered 1 = d.powered 1 := ⟨rfl, rfl⟩

theorem Dev.clkOn_keeps (d : Dev) : d.clkOn.incrDue = d.incrDue ∧ d.clkOn.powered 1 = d.powered 1 := by
  rw [Dev.clkOn, Dev.clkSet]
  exact Dev.clk_keeps d _

theorem Dev.tick_eq {d : Dev} (hp : d.powered 1 = true) (hl : d.clkLost = false) :
    d.tick = (if d.incrDue = true then d.clkOn.incrShown else d.clkOn).cycled := by
  have hcycle : d.clkCycle = d.clkOn := by
    rw [Dev.clkCycle, hp, hl, Bool.not_true, if_neg Bool.false_ne_true, if_neg Bool.false_ne_true]
  obtain ⟨hdue, hpow⟩ := d.clkOn_keeps
  rw [Dev.tick_stages, hcycle, hdue, hpow, hp, Bool.and_true]

theorem Dev.cycled_shows (d : Dev) :
    d.cycled.clk = d.clk ∧ d.cycled.now = d.now ∧ d.cycled.rd Tu.INCR_TIME 0 = d.rd Tu.INCR_TIME 0 ∧
      d.cycled.incrDue = d.incrDue := ⟨rfl, rfl, rfl, rfl⟩

theorem Dev.incrShown_shows (d : Dev) :
    d.incrShown.clk = d.clk ∧ d.incrShown.rd Tu.INCR_TIME 0 = d.incrShown.now % 2 ^ Tu.INCR_TIME.w ∧
      d.incrShown.incrDue = false := by
  have hclk : d.incrShown.clk = d.clk := Dev.wr_clk _ _ _ _ _
  have hnow : d.incrShown.now = d.now := congrArg Clock.image hclk
  refine ⟨hclk, ?_, Dev.wr_incrDue _ _ _ _ _⟩
  rw [hnow]
  exact Dev.rd_wr _ _ _ _ _

theorem Dev.tick_on {d : Dev} (hp : d.powered 1 = true) (hl : d.clkLost = false) :
    (d.tick).clk = clockOf (d.clk.count + d.rd Tu.INCR 0) ∧
      (d.incrDue = true → (d.tick).rd Tu.INCR_TIME 0 = (d.tick).now % 2 ^ Tu.INCR_TIME.w ∧ (d.tick).incrDue = false) := by
  rw [Dev.tick_eq hp hl]
  obtain ⟨hclk, hnow, hrd, hdue⟩ := Dev.cycled_shows (if d.incrDue = true then d.clkOn.incrShown else d.clkOn)
  obtain ⟨hclk', hrd', hdue'⟩ := d.clkOn.incrShown_shows
  rw [hclk, hnow, hrd, hdue]
  split
  · exact ⟨hclk'.trans (Dev.clkSet_clk _ _), fun _ => ⟨hrd', hdue'⟩⟩
  · next h => exact ⟨Dev.clkSet_clk _ _, fun hd => absurd hd h⟩

/-- Settles O39, by the equations of INCR, of a step, of a loss and of a tick. -/
theorem deviceClock : Obligations.DeviceClock := by
  unfold Obligations.DeviceClock
  refine fun s r => ⟨fun ht => ⟨fun v hv h => ?_, fun v hhi hlo => ?_, exec_stepFwd ht, exec_stepBack ht, fun h =>
      ⟨_, exec_stepFwd ht, State.withDev_mem s _, ?_⟩, fun h hs => ⟨_, exec_stepBack ht, State.withDev_mem s _, ?_⟩, fun h => ?_⟩,
    fun hu => ⟨⟨_, (exec_clkLoss s).1, State.withDev_mem s _, ?_⟩, ⟨_, (exec_clkLoss s).2, State.withDev_mem s _, ?_⟩⟩,
    fun hu => ?_, fun hp hl => Dev.tick_on hp hl⟩
  · rw [exec_incrWrite v ht, Dev.incrWrite_eq _ hv, if_pos h]
  · have hv : v < 2 ^ 48 := by omega
    have hexec := exec_incrWrite v ht
    rw [Dev.incrWrite_eq _ hv, if_neg (by omega)] at hexec
    have hview := (s.dev.incrTaken v).tuView_timeReqs
    simp only [Dev.tuView, Prod.mk.injEq] at hview
    obtain ⟨hclk, hincr, -, hdue⟩ := hview
    obtain ⟨hclk', hincr', hdue'⟩ := s.dev.incrTaken_view hv
    refine ⟨hexec, _, hexec, State.withDev_mem s _, ?_⟩
    rw [State.withDev_dev, Dev.done_rd, Dev.done_incrDue, Dev.done_clk]
    exact ⟨hincr.trans hincr', hdue.trans hdue', hclk.trans hclk'⟩
  · rw [← clockSpan] at h
    rw [State.withDev_dev, Dev.step_taken s.dev.count_stepFwd h]
    exact Dev.stepped_shows _ _ _
  · rw [← clockSpan] at hs
    rw [State.withDev_dev, Dev.step_taken (Dev.count_stepBack h) (by omega)]
    obtain ⟨hclk, -, hevt⟩ := s.dev.stepped_shows (s.dev.stepBy true) (s.dev.clk.count - tLin (s.dev.rd Tu.STEP_MAG 0) * 2 ^ 24)
    exact ⟨hclk, hevt⟩
  · rw [exec_stepBack ht, Dev.step_refused h]
  · rw [hu, Dev.when_true]
    exact s.dev.clkGone_shows (by decide) rfl
  · rw [hu, Dev.when_true]
    exact s.dev.clkGone_shows (by decide) rfl
  · rw [(exec_clkLoss s).1, (exec_clkLoss s).2, hu, Dev.when_false, Dev.when_false]
    exact ⟨rfl, rfl⟩

end Sys2Proof.Machine
end

