-- ==== Sys2Proof/Proofs/TimedActions.lean ====
section
/-!
PROOFS. The Timed Action Table (R261–R265, R282): what executing an entry does; from these the statement O40.
-/

open Sys2Proof

namespace Sys2Proof.Machine

/-! ### Executing an entry (R263, R282) -/

theorem Dev.taExec_idle {d : Dev} {i : Nat} {is? : Nat → Bool} (act : Dev → Nat → Nat → Dev × Bool)
    (h : d.taReady i = false ∨ is? (d.taEntry i) = false) : d.taExec i is? act = d := by
  refine if_pos ?_
  rcases h with h | h
  · rw [h]; rfl
  · rw [h, Bool.not_false, Bool.or_true]

/-- An entry of the kind that is due is read, and carried out where it could be read. -/
theorem Dev.taExec_due {d : Dev} {i : Nat} {is? : Nat → Bool} (act : Dev → Nat → Nat → Dev × Bool)
    (hr : d.taReady i = true) (hk : is? (d.taEntry i) = true) :
    d.taExec i is? act =
      if !(d.taRead i).2 then (d.taRead i).1
      else (act (d.taRead i).1 ((d.taRead i).1.taTime i) (taArg ((d.taRead i).1.taEntry i))).1.taDid i
        (act (d.taRead i).1 ((d.taRead i).1.taTime i) (taArg ((d.taRead i).1.taEntry i))).2 := by
  refine if_neg ?_
  rw [hr, hk]
  exact Bool.false_ne_true

theorem Dev.taRead_unreadable {d : Dev} {i : Nat} (h : d.tabErr 0x15 0 0 i = 2 ∨ d.tabErr 0x15 0 1 i = 2) :
    (d.taRead i).2 = false := by
  simp only [Dev.taRead, Bool.not_eq_false', Bool.or_eq_true, beq_iff_eq]
  exact h

theorem Dev.taRead_clean {d : Dev} {i : Nat} (h0 : d.tabErr 0x15 0 0 i = 0) (h1 : d.tabErr 0x15 0 1 i = 0) :
    d.taRead i = (d, true) := by
  rw [Dev.taRead, Dev.readTab_of_clean _ _ _ _ h0, Dev.readTab_of_clean _ _ _ _ h1, h0, h1]
  rfl

theorem Dev.taExec_clean {d : Dev} {i : Nat} {is? : Nat → Bool} (act : Dev → Nat → Nat → Dev × Bool)
    (hr : d.taReady i = true) (hk : is? (d.taEntry i) = true) (h0 : d.tabErr 0x15 0 0 i = 0) (h1 : d.tabErr 0x15 0 1 i = 0) :
    d.taExec i is? act = (act d (d.taTime i) (taArg (d.taEntry i))).1.taDid i (act d (d.taTime i) (taArg (d.taEntry i))).2 := by
  rw [Dev.taExec_due act hr hk, Dev.taRead_clean h0 h1]
  simp only [Bool.not_true, Bool.false_eq_true, if_false]

/-! ### The entry afterwards (R263, R265) -/

theorem testBit_sub_two_pow {e n : Nat} (h : e.testBit n = true) : (e - 2 ^ n).testBit n = false := by
  obtain ⟨x, rfl⟩ := Nat.exists_eq_add_of_le (Nat.ge_two_pow_of_testBit h)
  rw [Nat.testBit_two_pow_add_eq, Bool.not_eq_true'] at h
  rw [Nat.add_sub_cancel_left, h]

/-- An entry's VALID is clear once it has been taken away. -/
theorem taValid_ended (e : Nat) : taValid (e - (if taValid e then 2 ^ 72 else 0)) = false := by
  split
  · next h => exact testBit_sub_two_pow h
  · next h => exact eq_false_of_ne_true h

/-- A one-shot entry's end: the action counts, the status shows DONE and the entry is no longer valid or pending. -/
def Dev.taShot (d : Dev) (i : Nat) : Dev := ((d.addWrap Ta.EXEC_CNT 0 1).taMark i 2).taEnd i

theorem Dev.taDid_shot {d : Dev} {i : Nat} (hp : taPeriod (d.taEntry i) = 0) (hn : taCount (d.taEntry i) = 0) :
    d.taDid i true = d.taShot i := by
  have hentry : (d.addWrap Ta.EXEC_CNT 0 1).taEntry i = d.taEntry i := rfl
  simp only [Dev.taDid, Bool.not_true, Dev.when_false, hentry, hn, hp, bne_self_eq_false, true_or, if_true]
  rfl

theorem Dev.tab_setTab (d : Dev) (c k t i v : Nat) : (d.setTab c k t i v).tab c k t i = v := mget_mset_self _ _ _ _

theorem Dev.tab_setTab_ne (d : Dev) {c k t i v c' k' t' i' : Nat} (h : tabKey c' k' t' i' ≠ tabKey c k t i) :
    (d.setTab c k t i v).tab c' k' t' i' = d.tab c' k' t' i' := mget_mset_ne _ _ _ _ h

theorem Dev.taEnd_shows (d : Dev) (i : Nat) :
    taValid ((d.taEnd i).taEntry i) = false ∧ (d.taEnd i).taStat i = d.taStat i &&& 0xFE := by
  have hkey : tabKey 0x15 0 1 i ≠ tabKey 0x15 0 2 i := by simp only [tabKey]; omega
  refine ⟨?_, Dev.tab_setTab _ _ _ _ _ _⟩
  rw [Dev.taEntry, Dev.taEnd, Dev.tab_setTab_ne _ hkey, Dev.tab_setTab]
  exact taValid_ended _

theorem Dev.taShot_shows (d : Dev) (i : Nat) :
    (d.taShot i).rd Ta.EXEC_CNT 0 = (d.rd Ta.EXEC_CNT 0 + 1) % 2 ^ 32 ∧ taValid ((d.taShot i).taEntry i) = false ∧
      ((d.taShot i).taStat i).testBit 0 = false ∧ ((d.taShot i).taStat i).testBit 1 = true := by
  obtain ⟨hvalid, hstat⟩ := ((d.addWrap Ta.EXEC_CNT 0 1).taMark i 2).taEnd_shows i
  have hmark : ((d.addWrap Ta.EXEC_CNT 0 1).taMark i 2).taStat i = d.taStat i ||| 2 := Dev.tab_setTab _ _ _ _ _ _
  rw [hmark] at hstat
  refine ⟨Dev.rd_wr _ _ _ _ _, hvalid, ?_, ?_⟩
  all_goals rw [Dev.taShot, hstat, Nat.testBit_and, Nat.testBit_or]
  · rw [show Nat.testBit 0xFE 0 = false from rfl, Bool.and_false]
  · rw [show Nat.testBit 0xFE 1 = true from rfl, show Nat.testBit 2 1 = true from rfl, Bool.or_true, Bool.and_true]

/-! ### What is sent and the outputs stay as the action left them -/

/-- What has been sent, and an output. -/
def Dev.outView (d : Dev) (m : Nat) : List Emission × OutH := (d.sent, d.outp m)

theorem Dev.outView_evt (d : Dev) (m c i b : Nat) : (d.evt c i b).outView m = d.outView m := by
  rw [Dev.evt_rest]
  rfl

theorem Dev.outView_setTab (d : Dev) (m c k t i v : Nat) : (d.setTab c k t i v).outView m = d.outView m := rfl

theorem Dev.outView_wr (d : Dev) (m : Nat) (f : Fld) (i v j : Nat) : (d.wr f i v j).outView m = d.outView m := rfl

theorem Dev.outView_taAdvance (d : Dev) (m i : Nat) : (d.taAdvance i).outView m = d.outView m := by
  refine (Dev.when_keeps (fun d => Dev.outView d m) _ _ _ ?_).trans (Dev.outView_setTab _ _ _ _ _ _ _)
  exact (Dev.outView_wr _ _ _ _ _ _).trans (Dev.outView_setTab _ _ _ _ _ _ _)

theorem Dev.outView_taEnd (d : Dev) (m i : Nat) : (d.taEnd i).outView m = d.outView m :=
  (Dev.outView_setTab _ _ _ _ _ _ _).trans (Dev.outView_setTab _ _ _ _ _ _ _)

theorem Dev.outView_taDid (d : Dev) (m i : Nat) (ok : Bool) : (d.taDid i ok).outView m = d.outView m := by
  unfold Dev.taDid
  extract_lets d₁ d₂ e n d₃
  have h₁ : d₁.outView m = d.outView m := by
    refine Dev.when_keeps (fun d => Dev.outView d m) _ _ _ ?_
    exact (Dev.outView_evt _ _ _ _ _).trans ((Dev.outView_wr _ _ _ _ _ _).trans (Dev.outView_setTab _ _ _ _ _ _ _))
  have h₃ : d₃.outView m = d.outView m :=
    (Dev.when_keeps (fun d => Dev.outView d m) _ _ _ (Dev.outView_setTab _ _ _ _ _ _ _)).trans
      ((Dev.outView_wr _ _ _ _ _ _).trans h₁)
  split
  · exact (Dev.outView_taEnd _ _ _).trans ((Dev.outView_setTab _ _ _ _ _ _ _).trans h₃)
  · exact (Dev.outView_taAdvance _ _ _).trans h₃

/-- An output's pulses with one more among them. -/
def Dev.pulseAt (d : Dev) (m a b : Nat) : Dev :=
  ((d.setOutp m { d.outp m with pulses := (pulseAdd d.nowL (d.outp m).pulses a b).1 }).addWrap Out.PULSE_CNT m 1).emit (.pulse m
    a b)

theorem Dev.pulseAt_shows (d : Dev) (m a b : Nat) :
    (d.pulseAt m a b).sent = d.sent ++ [.pulse m a b] ∧
      ((d.pulseAt m a b).outp m).pulses = (pulseAdd d.nowL (d.outp m).pulses a b).1 := by
  refine ⟨by simp only [Dev.pulseAt, Dev.addWrap, Dev.emit_sent, Dev.wr_sent, Dev.setOutp_sent], ?_⟩
  simp only [Dev.pulseAt, Dev.addWrap, Dev.emit_outp, Dev.wr_outp, Dev.outp_setOutp]

/-- A pulse at an output the page holds, which is neither safe nor forced. -/
theorem Dev.pulse_shows {d : Dev} {c i m w : Nat} (sample fine : Nat) (requested : Bool) (hh : d.holds .tout m c i = true)
    (hs : d.outSafe m = false) (hf : d.rd Out.OUT_CFG_FORCE m = 0) (hw : w ≠ 0) :
    (d.pulse c i m sample fine w requested).sent = d.sent ++
        [.pulse m (d.pulseStart m sample fine requested) (d.pulseStart m sample fine requested + w * sampleL)] ∧
      ((d.pulse c i m sample fine w requested).outp m).pulses = (pulseAdd d.nowL (d.outp m).pulses
        (d.pulseStart m sample fine requested) (d.pulseStart m sample fine requested + w * sampleL)).1 := by
  have hgo : ¬ (w = 0 ∨ d.holds .tout m c i = false) := by simp only [hw, hh, Bool.true_eq_false, or_self, not_false_eq_true]
  rw [Dev.pulse, if_neg hgo, hs, hf, bne_self_eq_false, Bool.or_self, if_neg Bool.false_ne_true]
  obtain ⟨hsent, hout⟩ := d.pulseAt_shows m (d.pulseStart m sample fine requested) (d.pulseStart m sample fine requested + w *
    sampleL)
  obtain ⟨hsent', hout'⟩ := Prod.mk.inj (Dev.when_keeps (fun d => Dev.outView d m)
    (d.pulseAt m (d.pulseStart m sample fine requested) (d.pulseStart m sample fine requested + w * sampleL))
    ((pulseAdd d.nowL (d.outp m).pulses (d.pulseStart m sample fine requested)
      (d.pulseStart m sample fine requested + w * sampleL)).2 != 0) (fun e => (e.addSat Out.OUT_CNT_MERGE_CNT m
        (pulseAdd d.nowL (d.outp m).pulses (d.pulseStart m sample fine requested)
          (d.pulseStart m sample fine requested + w * sampleL)).2).evt 0x12 m Out.E_MERGE)
    ((Dev.outView_evt _ _ _ _ _).trans (Dev.outView_wr _ _ _ _ _ _)))
  exact ⟨hsent'.trans hsent, (congrArg OutH.pulses hout').trans hout⟩

theorem Dev.pulseStart_requested {d : Dev} {m : Nat} (sample fine : Nat) (hf : d.is Out.OUT_CFG_FINE_EN m = false) :
    d.pulseStart m sample fine true = cdiv (fine + 20 * nsL + d.rd Out.OUT_DELAY m * sampleL) sampleL * sampleL := by
  rw [Dev.pulseStart, hf, Bool.false_and, if_neg Bool.false_ne_true, if_pos rfl]

/-! ### A segment started by an action (R376) -/

theorem Dev.segAction_none {d : Dev} {p : Nat} (h : (d.track p).segs.find? (fun s => s.st == .declared) = none) :
    d.segAction p = (d, false) := by
  simp only [Dev.segAction, h]

theorem Dev.segAction_starts {d : Dev} {p : Nat} {x : Seg} (h : (d.track p).segs.find? (fun s => s.st == .declared) = some x)
    (ht : x.timed = true) (hs : x.started = false) :
    d.segAction p = (d.modSeg p x.num (fun y => { y with
      started := true, fixed := true, s := d.posWord x.ch, e := d.posWord x.ch + along y.dir (le y.desc 24 8) }), true) := by
  simp only [Dev.segAction, h, ht, hs, Bool.not_true, Bool.false_eq_true, if_false]

/-! ### The statement -/

/-- Settles O40, by the equations of an entry that idles, that cannot be read and that is carried out. -/
theorem timedActions : Obligations.TimedActions := by
  unfold Obligations.TimedActions
  intro s e d en t arg
  have hk : ∀ {k : Nat} {n : Nat}, k ≠ n → (k == n) = false := fun h => beq_eq_false_iff_ne.2 h
  have idle : ∀ (is? : Nat → Bool) act, d.taReady e = false ∨ is? (d.taEntry e) = false →
      s.upd (fun d => d.taExec e is? act) = .next (s.withDev s.dev) := fun _ act h =>
    congrArg (fun d => Host.Outcome.next (s.withDev d)) (Dev.taExec_idle act h)
  refine ⟨fun h => ?_, fun h => idle _ _ (.inr (hk h)), fun h => idle _ _ (.inr (hk h)), fun h => idle _ _ (.inr (hk h)),
    fun h => idle _ _ (.inr (hk h)), fun h => idle _ _ (.inr (hk h)), fun h => idle _ _ (.inr ?_), fun h => idle _ _ (.inr ?_),
    fun h0 hr hbad => ?_, fun hr hb0 hb1 => ?_⟩
  · simp only [List.forall_mem_cons]
    exact ⟨idle _ _ (.inl h), idle _ _ (.inl h), idle _ _ (.inl h), idle _ _ (.inl h), idle _ _ (.inl h), idle _ _ (.inl h),
      idle _ _ (.inl h), fun _ h => absurd h List.not_mem_nil⟩
  · rcases h with h | h
    · rw [hk h, Bool.false_and]
    · rw [show (taArg (d.taEntry e)).testBit 24 = true from h, Bool.not_true, Bool.and_false]
  · rcases h with h | h
    · rw [hk h, Bool.false_and]
    · rw [show (taArg (d.taEntry e)).testBit 24 = false from h, Bool.and_false]
  · refine congrArg (fun d => Host.Outcome.next (s.withDev d)) ?_
    refine (Dev.taExec_due (is? := fun e => taKind e == 0) _ hr (beq_iff_eq.2 h0)).trans ?_
    rw [Dev.taRead_unreadable hbad]
    exact if_pos rfl
  · have run : ∀ (is? : Nat → Bool) (act : Dev → Nat → Nat → Dev × Bool), is? (d.taEntry e) = true →
        s.upd (fun d => d.taExec e is? act) = .next (s.withDev ((act d t arg).1.taDid e (act d t arg).2)) := fun _ act h =>
      congrArg (fun d => Host.Outcome.next (s.withDev d)) (Dev.taExec_clean act hr h hb0 hb1)
    have seg : taKind en = 5 → exec (.segmentAction e) s =
        .next (s.withDev ((d.segAction (bits arg 0 4)).1.taDid e (d.segAction (bits arg 0 4)).2)) := fun h =>
      run _ _ (beq_iff_eq.2 h)
    refine ⟨fun h => run _ _ (beq_iff_eq.2 h), fun h hp hn => ⟨_, run _ _ (beq_iff_eq.2 h), State.withDev_mem s _, ?_⟩,
      fun h => run _ _ (beq_iff_eq.2 h), fun h => run _ _ (beq_iff_eq.2 h),
      fun h hh hs hf hfine hw => ⟨_, run _ _ (beq_iff_eq.2 h), State.withDev_mem s _, ?_⟩,
      fun h => run _ _ (beq_iff_eq.2 h), seg, fun h hnone => (seg h).trans ?_, fun h x hx ht hst => (seg h).trans ?_,
        fun h h24 => run _ _ ?_, fun h h24 => run _ _ ?_⟩
    · rw [State.withDev_dev]
      dsimp only
      rw [Dev.taDid_shot hp hn]
      exact d.taShot_shows e
    · obtain ⟨hsent, hout⟩ := Prod.mk.inj (Dev.outView_taDid
        (d.pulse 0x15 0 (bits arg 0 5) (max (tLin t) d.nowL / sampleL * sampleL) (max (tLin t) d.nowL) (bits arg 8 24) true)
        (bits arg 0 5) e (d.holds .tout (bits arg 0 5) 0x15 0))
      obtain ⟨hpsent, hpout⟩ := Dev.pulse_shows (max (tLin t) d.nowL / sampleL * sampleL) (max (tLin t) d.nowL) true hh hs hf hw
      rw [Dev.pulseStart_requested _ _ hfine] at hpsent hpout
      refine ⟨hsent.trans hpsent, ?_⟩
      rw [State.withDev_dev, Dev.done_outp, ← hpout]
      exact congrArg OutH.pulses hout
    · rw [Dev.segAction_none hnone]
    · rw [Dev.segAction_starts hx ht hst]
    · rw [show taKind (d.taEntry e) = 2 from h, show (taArg (d.taEntry e)).testBit 24 = false from h24]
      rfl
    · rw [show taKind (d.taEntry e) = 2 from h, show (taArg (d.taEntry e)).testBit 24 = true from h24]
      rfl

end Sys2Proof.Machine
end

