-- ==== Sys2Proof/Proofs/Voxord.lean ====
section
/-!
PROOFS. The Voxord engine (R275–R277): what leaves, what is sent again and what is heard; from these the statement O43.
-/

open Sys2Proof

namespace Sys2Proof.Machine

/-- Equal devices are equal answers. -/
theorem State.next_of {s : State} {d e : Dev} (h : d = e) :
    (.next (s.withDev d) : Host.Outcome State Fault Refusal) = .next (s.withDev e) :=
  congrArg (fun d => Host.Outcome.next (s.withDev d)) h

/-! ### A frame that leaves on an Ethernet port (R250, R512) -/

theorem SendKeeps.ethWire {β : Type} {q : Dev → β} (h : SendKeeps q) (d : Dev) {n : Nat} (hn : n < 2) (bs : List Nat)
    (bad : Bool) : q (d.ethWire n bs bad).1 = q d :=
  (foldl_keeps q _ _ (fun _ _ _ => h.emit _ _) _).trans (h.inject d (by omega) _ _ _)

theorem SendKeeps.voxWire {β : Type} {q : Dev → β} (h : SendKeeps q) (d : Dev) (seq : Nat) (retx : Bool) (m : VoxMsg) :
    q (d.voxWire seq retx m) = q d :=
  foldl_keeps q _ _ (fun d _ hn => Dev.when_keeps q d _ _ (h.ethWire d (List.mem_range.1 hn) _ _)) d

/-- The engine's hidden state and its count of messages sent. -/
def Dev.voxView (d : Dev) : VoxH × Nat := (d.vox, d.rd Vox.SENT_CNT 0)

theorem voxView_sendKeeps : SendKeeps Dev.voxView where
  port _ _ _ := rfl
  loop _ _ _ := rfl
  lane _ _ _ := rfl
  emit _ _ := rfl
  free _ := rfl
  test d f v u hu hf := by
    obtain ⟨hc, ho, hl, hs⟩ := hf
    have hkey : Vox.SENT_CNT.key 0 0 ≠ f.key 0 u := by
      simp only [Fld.key, hc, hs, Vox.SENT_CNT]
      omega
    rw [Dev.voxView, Dev.rd_wr_ne _ _ _ _ _ _ _ _ hkey]
    rfl

/-! ### Sending (R275) -/

theorem Dev.voxLeave_idle {d : Dev} (h : d.voxOn = false ∨ voxNext d.vox.queue = none) : d.voxLeave = d := by
  unfold Dev.voxLeave
  rcases h with h | h
  · rw [h]; rfl
  · rw [h]; exact ite_self _

/-- The engine once a message has left its queue. -/
def VoxH.sentOne (v : VoxH) (i : Nat) (m : VoxMsg) : VoxH :=
  { v with
    queue := v.queue.eraseIdx i, seq := (v.seq + 1) % 2 ^ 16
    out := if m.ackReq && !m.group then v.out ++ [⟨v.seq, 0, m⟩] else v.out }

theorem Dev.voxLeave_sends {d : Dev} {i : Nat} {m : VoxMsg} (hon : d.voxOn = true) (hi : voxNext d.vox.queue = some i)
    (hm : d.vox.queue[i]? = some m) :
    d.voxLeave = ((({ d with vox := d.vox.sentOne i m } : Dev).voxShow).addWrap Vox.SENT_CNT 0 1).voxWire d.vox.seq false m := by
  simp only [Dev.voxLeave, hon, Bool.not_true, Bool.false_eq_true, if_false, hi, hm]
  rfl

theorem Dev.voxShow_sent (d : Dev) : d.voxShow.rd Vox.SENT_CNT 0 = d.rd Vox.SENT_CNT 0 :=
  Dev.rd_wr_off _ _ _ _ _ (by decide)

theorem Dev.voxLeave_shows {d : Dev} {i : Nat} {m : VoxMsg} (hon : d.voxOn = true) (hi : voxNext d.vox.queue = some i)
    (hm : d.vox.queue[i]? = some m) :
    d.voxLeave.vox = d.vox.sentOne i m ∧ d.voxLeave.rd Vox.SENT_CNT 0 = (d.rd Vox.SENT_CNT 0 + 1) % 2 ^ 32 := by
  obtain ⟨hvox, hcnt⟩ := Prod.mk.inj (voxView_sendKeeps.voxWire
    ((({ d with vox := d.vox.sentOne i m } : Dev).voxShow).addWrap Vox.SENT_CNT 0 1) d.vox.seq false m)
  rw [Dev.voxLeave_sends hon hi hm]
  refine ⟨hvox, hcnt.trans ?_⟩
  rw [Dev.addWrap, Dev.rd_wr, Dev.voxShow_sent]
  rfl

/-! ### Retries (R276) -/

theorem exec_voxRetry (s : State) (q : Nat) : exec (.voxRetry q) s = .next (s.withDev (s.dev.voxRetry q)) := rfl

theorem Dev.voxRetry_idle {d : Dev} {q : Nat} (h : d.voxOn = false ∨ d.vox.out.find? (fun o => o.seq == q) = none) :
    d.voxRetry q = d := by
  unfold Dev.voxRetry
  rcases h with h | h
  · rw [h]; rfl
  · rw [h]; exact ite_self _

/-- The engine with other messages outstanding. -/
def Dev.voxOut (d : Dev) (out : List VoxOut) : Dev := { d with vox := { d.vox with out := out } }

theorem Dev.voxRetry_eq {d : Dev} {q : Nat} {o : VoxOut} (hon : d.voxOn = true)
    (ho : d.vox.out.find? (fun o => o.seq == q) = some o) :
    d.voxRetry q =
      if o.tries < d.rd Vox.VOX_RETRY_RETRIES 0 then
        (d.voxOut (d.vox.out.filter (fun x => x.seq != q) ++ [{ o with tries := o.tries + 1 }])).voxWire q true o.msg
      else ((((d.voxOut (d.vox.out.filter (fun x => x.seq != q))).wr Vox.LAST_NOACK_SEQ 0 q).wr
        Vox.LAST_NOACK_DST 0 o.msg.dst).incSat Vox.VOX_CNT_B_NOACK_CNT 0).evt 0x17 0 Vox.E_NO_ACK := by
  simp only [Dev.voxRetry, hon, Bool.not_true, Bool.false_eq_true, if_false, ho]
  rfl

theorem Dev.voxRetry_again {d : Dev} {q : Nat} {o : VoxOut} (hon : d.voxOn = true)
    (ho : d.vox.out.find? (fun o => o.seq == q) = some o) (ht : o.tries < d.rd Vox.VOX_RETRY_RETRIES 0) :
    (d.voxRetry q).vox.out = d.vox.out.filter (fun x => x.seq != q) ++ [{ o with tries := o.tries + 1 }] := by
  rw [Dev.voxRetry_eq hon ho, if_pos ht]
  exact congrArg (fun v => v.1.out) (voxView_sendKeeps.voxWire
    (d.voxOut (d.vox.out.filter (fun x => x.seq != q) ++ [{ o with tries := o.tries + 1 }])) q true o.msg)

/-! ### Reception (R276, R277) -/

theorem Dev.voxRx_other {d : Dev} {sel : Nat} {f : List Nat} (h : d.voxForUs f = false) : d.voxRx sel f = (d, false) := by
  rw [Dev.voxRx, h]
  rfl

/-- A message heard before within 100 ms. -/
def Dev.voxDup (d : Dev) (f : List Nat) : Bool :=
  d.vox.seen.any (fun x => x.1 == be (voxHdr f) 6 2 && x.2.1 == be (voxHdr f) 8 2 && decide (d.nowL < x.2.2 + 100000000 * nsL))

theorem Dev.voxRx_dup {d : Dev} {sel : Nat} {f : List Nat} (h : d.voxForUs f = true) (hd : d.voxDup f = true) :
    d.voxRx sel f = ((d.incSat Vox.VOX_CNT_B_DUP_CNT 0).voxAckTo (voxHdr f) sel, true) := by
  rw [Dev.voxRx, h]
  exact if_pos hd

/-- The outstanding messages that an ACK does not end. -/
def Dev.voxUnacked (d : Dev) (f : List Nat) : Dev :=
  d.voxOut (d.vox.out.filter (fun o => !(o.seq == be (voxHdr f) 16 2 && o.msg.dst == be (voxHdr f) 6 2)))

/-- Whether a message is outstanding that an ACK ends. -/
def Dev.voxAwaits (d : Dev) (f : List Nat) : Bool :=
  d.vox.out.any (fun o => o.seq == be (voxHdr f) 16 2 && o.msg.dst == be (voxHdr f) 6 2)

theorem Dev.voxRx_new {d : Dev} {sel : Nat} {f : List Nat} (h : d.voxForUs f = true) (hd : d.voxDup f = false) :
    d.voxRx sel f = match byteAt (voxHdr f) 1 with
      | 0x7E =>
        if d.voxAwaits f then ((d.voxUnacked f).voxSaw (be (voxHdr f) 6 2) (be (voxHdr f) 8 2), true)
        else (d.voxSaw (be (voxHdr f) 6 2) (be (voxHdr f) 8 2), false)
      | 0x10 => (((d.voxSaw (be (voxHdr f) 6 2) (be (voxHdr f) 8 2)).voxAckTo (voxHdr f) sel).wakeEvent 1 0, true)
      | _ => ((d.voxSaw (be (voxHdr f) 6 2) (be (voxHdr f) 8 2)).voxAckTo (voxHdr f) sel, false) := by
  rw [Dev.voxRx, h]
  exact if_neg (ne_true_of_eq_false hd)

/-- Settles O43, by the equations of a message that leaves, is sent again and is heard. -/
theorem voxord : Obligations.Voxord := by
  unfold Obligations.Voxord
  intro s d v
  refine ⟨rfl, fun h => State.next_of (Dev.voxLeave_idle h), fun hon i m hi hm => ⟨_, rfl, State.withDev_mem s _, ?_⟩,
    fun q h => (exec_voxRetry s q).trans (State.next_of (Dev.voxRetry_idle h)), fun hon q o ho => ⟨fun ht => ⟨_, rfl,
      State.withDev_mem s _, ?_⟩, fun ht => (exec_voxRetry s q).trans (State.next_of ?_)⟩,
    fun f => ⟨rfl, rfl, Dev.voxRx_other, fun hus => ⟨fun hd => Dev.voxRx_dup hus hd, fun hd => ⟨fun h1 hm => ?_, fun h1 hm => ?_,
      fun h1 => ?_, fun h1 h2 => ?_⟩⟩⟩⟩
  · obtain ⟨hvox, hcnt⟩ := Dev.voxLeave_shows hon hi hm
    rw [State.withDev_dev, Dev.done_vox, Dev.done_rd, hvox, hcnt]
    exact ⟨rfl, rfl, rfl, rfl⟩
  · exact Dev.voxRetry_again hon ho ht
  · exact (Dev.voxRetry_eq hon ho).trans (if_neg (by omega))
  · rw [Dev.voxRx_new hus hd, h1]
    exact if_pos hm
  · rw [Dev.voxRx_new hus hd, h1]
    exact if_neg (ne_true_of_eq_false hm)
  · rw [Dev.voxRx_new hus hd, h1]
    rfl
  · rw [Dev.voxRx_new hus hd]
    split
    · next h => exact absurd h h1
    · next h => exact absurd h h2
    · rfl

end Sys2Proof.Machine
end

