-- ==== Sys2Proof/Proofs/PathDelay.lean ====
section
/-!
PROOFS. Path delays of an Ethernet port (R255–R258): samples, requests, responses and the master watch; from these the statement
O41.
-/

open Sys2Proof

namespace Sys2Proof.Machine

@[simp] theorem Dev.eth_setEth (d : Dev) (n : Nat) (x : EthH) : (d.setEth n x).eth n = x := mget_mset_self _ _ _ _

/-! ### Path delay samples (R257) -/

theorem Dev.pdSample_keeps (d : Dev) (p : Fin 2) (v : Int) :
    (d.wrI Eth.PATH_DELAY p v).rd Eth.D_GOOD p = d.rd Eth.D_GOOD p ∧
      (d.wrI Eth.PATH_DELAY p v).is Eth.STAT_D_GOOD_VALID p = d.is Eth.STAT_D_GOOD_VALID p ∧
      (d.wrI Eth.PATH_DELAY p v).rd Eth.PD_STEP_LIMIT p = d.rd Eth.PD_STEP_LIMIT p ∧
      (d.wrI Eth.PATH_DELAY p v).is Eth.STAT_PD_STEP_PENDING p = d.is Eth.STAT_PD_STEP_PENDING p :=
  ⟨Dev.rd_wr_off _ _ _ _ _ (by decide), Dev.is_wr_off _ _ _ _ _ (by decide), Dev.rd_wr_off _ _ _ _ _ (by decide),
    Dev.is_wr_off _ _ _ _ _ (by decide)⟩

theorem Dev.pdSample_eq (d : Dev) (p : Fin 2) (v : Int) :
    d.pdSample p v =
      if !d.is Eth.STAT_D_GOOD_VALID p then ((d.wrI Eth.PATH_DELAY p v).wrI Eth.D_GOOD p v).wr Eth.STAT_D_GOOD_VALID p 1
      else if d.rd Eth.PD_STEP_LIMIT p < (v - sInt 64 (d.rd Eth.D_GOOD p)).natAbs then
        if d.is Eth.STAT_PD_STEP_PENDING p then d.wrI Eth.PATH_DELAY p v
        else ((d.wrI Eth.PATH_DELAY p v).wr Eth.STAT_PD_STEP_PENDING p 1).evt 0x16 p Eth.E_PD_STEP
      else if d.is Eth.STAT_PD_STEP_PENDING p then d.wrI Eth.PATH_DELAY p v
      else (d.wrI Eth.PATH_DELAY p v).wrI Eth.D_GOOD p v := by
  obtain ⟨hg, hv, hl, hs⟩ := d.pdSample_keeps p v
  simp only [Dev.pdSample, hg, hv, hl, hs]

/-! ### The requests whose time is over (R256) -/

theorem Dev.pdClose_open {d : Dev} {n : Nat}
    (h : (d.eth n).reqs.all (fun x => decide (d.nowL < x.leftAt + 100000000 * nsL)) = true) : d.pdClose n = d := by
  refine if_neg ?_
  rw [List.any_eq_true]
  rintro ⟨x, hx, hlate⟩
  have hopen := List.all_eq_true.1 h x hx
  exact absurd (of_decide_eq_true hlate) (Nat.not_le.2 (of_decide_eq_true hopen))

theorem Dev.pdClose_one {d : Dev} {n : Nat} {x : PdReq} (h : (d.eth n).reqs = [x]) (hx : x.leftAt + 100000000 * nsL ≤ d.nowL) :
    d.pdClose n = (d.setEth n { d.eth n with reqs := [] }).pdOver n x := by
  have hlate : decide (x.leftAt + pdWindow ≤ d.nowL) = true := decide_eq_true hx
  simp only [Dev.pdClose, h, List.any_cons, List.any_nil, Bool.or_false, hlate, if_true, List.filter_cons, List.filter_nil,
    Bool.not_true, Bool.false_eq_true, if_false, List.foldl_cons, List.foldl_nil]

/-! ### The request that is sent (R256) -/

/-- What a request is made of, and what its way out to the wire depends on. -/
def Dev.pdView (d : Dev) (p : Nat) : Clock × Nat × List Emission × KMap LoopH × Nat × List Nat :=
  (d.clk, d.free, d.sent, d.loops, (d.eth p).pdSeq,
    [d.rd LbF.INJ_CFG_INJ_EN 0 (16 + p), d.rd Eth.ETH_CFG_SPEED p, d.rd Eth.ETH_CFG_FEC p, d.rd Eth.DLY p 0, d.rd Eth.DLY p 2,
      d.rd Eth.DLY p 4, d.rd Eth.DELAY_ASYM p])

theorem Dev.pdView_wr (d : Dev) (p : Fin 2) (f : Fld) (v : Nat)
    (h : f.cls = 0x16 ∧ f.lo < 32 ∧ (f.off = 0x10 ∨ f.off = 0x88 ∨ f.off = 0x90 ∨ f.off = 0xB8)) :
    (d.wr f p v).pdView p = d.pdView p := by
  obtain ⟨hc, hl, ho⟩ := h
  have hp := p.2
  have hrd : ∀ (g : Fld) (i j : Nat), g.key i j ≠ f.key p 0 → (d.wr f p v).rd g i j = d.rd g i j := fun g i j h =>
    Dev.rd_wr_ne _ _ _ _ _ _ _ _ h
  simp only [Dev.pdView, Dev.eth]
  rw [hrd, hrd, hrd, hrd, hrd, hrd, hrd]
  · rfl
  all_goals
    simp only [Fld.key, hc, LbF.INJ_CFG_INJ_EN, Eth.ETH_CFG_SPEED, Eth.ETH_CFG_FEC, Eth.DLY, Eth.DELAY_ASYM]
    omega

theorem pdView_quiet : ∀ p : Fin 2, LbF.INJ_CFG_INJ_EN.quiet 0 (16 + p) ∧ Eth.ETH_CFG_SPEED.quiet p 0 ∧ Eth.ETH_CFG_FEC.quiet p 0 ∧
    Eth.DLY.quiet p 0 ∧ Eth.DLY.quiet p 2 ∧ Eth.DLY.quiet p 4 ∧ Eth.DELAY_ASYM.quiet p 0 := by
  unfold Fld.quiet
  decide

theorem Dev.pdView_evt (d : Dev) (p : Fin 2) (b : Nat) : (d.evt 0x16 p b).pdView p = d.pdView p := by
  obtain ⟨h1, h2, h3, h4, h5, h6, h7⟩ := pdView_quiet p
  have heths : (d.evt 0x16 p b).eths = d.eths := by rw [Dev.evt_rest]
  have hloops : (d.evt 0x16 p b).loops = d.loops := by rw [Dev.evt_rest]
  simp only [Dev.pdView, Dev.eth, Dev.evt_rd _ _ _ _ _ _ _ h1, Dev.evt_rd _ _ _ _ _ _ _ h2, Dev.evt_rd _ _ _ _ _ _ _ h3,
    Dev.evt_rd _ _ _ _ _ _ _ h4, Dev.evt_rd _ _ _ _ _ _ _ h5, Dev.evt_rd _ _ _ _ _ _ _ h6, Dev.evt_rd _ _ _ _ _ _ _ h7,
    Dev.evt_clk, Dev.evt_free, Dev.evt_sent, hloops, heths]

theorem Dev.pdView_pdSample (d : Dev) (p : Fin 2) (v : Int) : (d.pdSample p v).pdView p = d.pdView p := by
  have hpath : (d.wrI Eth.PATH_DELAY p v).pdView p = d.pdView p := Dev.pdView_wr _ _ _ _ (by decide)
  rw [Dev.pdSample_eq]
  split
  · exact (Dev.pdView_wr _ _ _ _ (by decide)).trans ((Dev.pdView_wr _ _ _ _ (by decide)).trans hpath)
  · refine ite_keeps (fun d => Dev.pdView d p) (ite_keeps (fun d => Dev.pdView d p) hpath ?_)
      (ite_keeps (fun d => Dev.pdView d p) hpath ?_)
    · exact (Dev.pdView_evt _ _ _).trans ((Dev.pdView_wr _ _ _ _ (by decide)).trans hpath)
    · exact (Dev.pdView_wr _ _ _ _ (by decide)).trans hpath

theorem Dev.pdView_pdOver (d : Dev) (p : Fin 2) (r : PdReq) : (d.pdOver p r).pdView p = d.pdView p := by
  unfold Dev.pdOver
  split
  · exact Dev.pdView_wr _ _ _ _ (by decide)
  · exact ite_keeps (fun d => Dev.pdView d p) (Dev.pdView_pdSample _ _ _) rfl

theorem Dev.pdView_setEth (d : Dev) (p : Nat) (rs : List PdReq) :
    (d.setEth p { d.eth p with reqs := rs }).pdView p = d.pdView p := by
  simp only [Dev.pdView, Dev.eth_setEth]
  rfl

theorem Dev.pdView_pdClose (d : Dev) (p : Fin 2) : (d.pdClose p).pdView p = d.pdView p := by
  unfold Dev.pdClose
  refine ite_keeps (fun d => Dev.pdView d p) ?_ rfl
  exact (foldl_keeps (fun d => Dev.pdView d p) _ _ (fun d r _ => d.pdView_pdOver p r) _).trans (Dev.pdView_setEth _ _ _)

theorem Dev.txStamp_congr {d e : Dev} {p : Nat} (h : e.pdView p = d.pdView p) : e.txStamp p = d.txStamp p := by
  simp only [Dev.pdView, Prod.mk.injEq, List.cons.injEq, and_true] at h
  obtain ⟨hclk, hfree, -, -, -, -, hspeed, hfec, h0, h2, h4, hasym⟩ := h
  have hdly : e.ethDly p 0 = d.ethDly p 0 := by
    simp only [Dev.ethDly, Dev.is_congr hspeed, Dev.is_congr hfec]
    split
    · split
      · exact h4
      · exact h2
    · exact h0
  have hnow : e.nowL = d.nowL := by rw [Dev.nowL, Dev.now, hclk]; rfl
  rw [Dev.txStamp, hdly, Dev.rdI, hasym, Dev.momentL, hnow, Dev.freeVal, hfree]
  rfl

/-- With the injector of a port at rest a frame leaves as it is. -/
theorem Dev.ethWire_off {d : Dev} {n : Nat} (bs : List Nat) (bad : Bool) (hoff : d.is LbF.INJ_CFG_INJ_EN 0 (16 + n) = false)
    (hheld : (d.loop (16 + n)).held = none) :
    (d.ethWire n bs bad).1 = d.emit (.eth n d.now (withCrc (padFrame bs)) bad) := by
  rw [Dev.ethWire, Dev.inject_eq_of_off _ _ _ hoff hheld]
  rfl

/-- The port's request is remembered with its stamp, before it is sent. -/
def Dev.pdAsked (d : Dev) (n : Nat) : Dev :=
  (d.setEth n { d.eth n with
    pdSeq := ((d.eth n).pdSeq + 1) % 65536
    reqs := (d.eth n).reqs ++ [⟨(d.eth n).pdSeq, d.txStamp n, d.nowL, [], none, false, none⟩] }).freeUsed

theorem Dev.pdAsked_keeps (d : Dev) (n : Nat) :
    (d.pdAsked n).sent = d.sent ∧ (d.pdAsked n).loops = d.loops ∧ ∀ f i j, (d.pdAsked n).rd f i j = d.rd f i j :=
  ⟨rfl, rfl, fun _ _ _ => rfl⟩

theorem Dev.pdAsked_eth (d : Dev) (n : Nat) (x : Emission) : ((d.pdAsked n).emit x).eth n = { d.eth n with
    pdSeq := ((d.eth n).pdSeq + 1) % 65536
    reqs := (d.eth n).reqs ++ [⟨(d.eth n).pdSeq, d.txStamp n, d.nowL, [], none, false, none⟩] } :=
  Dev.eth_setEth _ _ _

theorem Dev.pdSend_eq {d : Dev} {n : Nat} (hl : d.ethLive n = true) (hi : d.is Eth.PTP_CFG_INIT_EN n = true)
    (h3 : d.ethLoop n ≠ 3) : ∃ bs, d.pdSend n = (((d.pdClose n).pdAsked n).ethWire n bs false).1 := by
  refine ⟨_, if_neg ?_⟩
  rw [hl, hi, beq_eq_false_iff_ne.2 h3]
  exact Bool.false_ne_true

theorem Dev.pdSend_idle {d : Dev} {n : Nat} (h : d.ethLive n = false ∨ d.is Eth.PTP_CFG_INIT_EN n = false ∨ d.ethLoop n = 3) :
    d.pdSend n = d := by
  refine if_pos ?_
  rcases h with h | h | h
  · rw [h]; rfl
  · rw [h, Bool.not_false, Bool.or_true, Bool.true_or]
  · rw [h, beq_self_eq_true, Bool.or_true]

theorem Dev.pdSend_shows {d : Dev} {p : Fin 2} (hoff : d.is LbF.INJ_CFG_INJ_EN 0 (16 + p) = false)
    (hheld : (d.loop (16 + p)).held = none) (hl : d.ethLive p = true) (hi : d.is Eth.PTP_CFG_INIT_EN p = true)
    (h3 : d.ethLoop p ≠ 3) :
    ((d.pdSend p).eth p).pdSeq = ((d.eth p).pdSeq + 1) % 65536 ∧ (d.pdSend p).sent.length = d.sent.length + 1 ∧
      (⟨(d.eth p).pdSeq, d.txStamp p, d.nowL, [], none, false, none⟩ : PdReq) ∈ ((d.pdSend p).eth p).reqs := by
  have hview := d.pdView_pdClose p
  have hstamp := Dev.txStamp_congr hview
  simp only [Dev.pdView, Prod.mk.injEq, List.cons.injEq] at hview
  obtain ⟨hclk, -, hsent, hloops, hseq, hinj, -⟩ := hview
  have hnow : (d.pdClose p).nowL = d.nowL := by rw [Dev.nowL, Dev.now, hclk]; rfl
  obtain ⟨hsent', hloops', hrd'⟩ := (d.pdClose p).pdAsked_keeps p
  have hoff' : ((d.pdClose p).pdAsked p).is LbF.INJ_CFG_INJ_EN 0 (16 + p) = false :=
    (congrArg (· != 0) ((hrd' LbF.INJ_CFG_INJ_EN 0 (16 + p)).trans hinj)).trans hoff
  have hloop : ((d.pdClose p).pdAsked p).loop (16 + p) = d.loop (16 + p) :=
    congrArg (fun m => mget m (16 + (p : Nat)) default) (hloops'.trans hloops)
  obtain ⟨bs, hsend⟩ := Dev.pdSend_eq hl hi h3
  rw [hsend, Dev.ethWire_off _ _ hoff' (hloop ▸ hheld), Dev.pdAsked_eth, hseq, hstamp, hnow, Dev.emit_sent, hsent', hsent]
  exact ⟨rfl, List.length_append, List.mem_append_right _ (List.mem_singleton.2 rfl)⟩

/-! ### A frame received (R250) -/

theorem Dev.ethRx_deaf {d : Dev} {n : Nat} (h : d.ethRuns n = false ∨ d.ethLinkUp n = false ∨ d.ethLooped n = true)
    (f : List Nat) (g : Bool) (t : Nat) : d.ethRx n f g t = d := by
  refine if_neg ?_
  rcases h with h | h | h
  · rw [h, Bool.false_and, Bool.false_and]
    exact Bool.false_ne_true
  · rw [h, Bool.and_false, Bool.false_and]
    exact Bool.false_ne_true
  · rw [h, Bool.not_true, Bool.and_false]
    exact Bool.false_ne_true

theorem Dev.ethRx_live {d : Dev} {n : Nat} (hl : d.ethLive n = true) (h3 : d.ethLoop n ≠ 3)
    (hoff : d.is LbF.INJ_CFG_INJ_EN 0 (16 + n) = false) (hheld : (d.loop (16 + n)).held = none) (f : List Nat) (g : Bool) (t :
      Nat) :
    d.ethRx n f g t =
      if !g || decide (f.length < 64) || decide (d.rd Eth.MAX_FRAME n < f.length) || !crcGood f then
        d.incSat Eth.ETH_CNT_A_RX_ERR_CNT n
      else if (d.useBuf 0x16 n Eth.F_BUF_SBE Eth.F_BUF_DBE).2 then (d.useBuf 0x16 n Eth.F_BUF_SBE Eth.F_BUF_DBE).1
      else (d.useBuf 0x16 n Eth.F_BUF_SBE Eth.F_BUF_DBE).1.ethFrame n (f.take (f.length - 4)) t := by
  refine (if_pos hl).trans ?_
  rw [beq_eq_false_iff_ne.2 h3, Dev.when_false, Dev.ethMac, Dev.inject_eq_of_off _ _ _ hoff hheld, List.foldl_cons, List.foldl_nil]

theorem Dev.ethRx_good {d : Dev} {n : Nat} (hl : d.ethLive n = true) (h3 : d.ethLoop n ≠ 3)
    (hoff : d.is LbF.INJ_CFG_INJ_EN 0 (16 + n) = false) (hheld : (d.loop (16 + n)).held = none) {f : List Nat}
    (h64 : 64 ≤ f.length) (hmax : f.length ≤ d.rd Eth.MAX_FRAME n) (hcrc : crcGood f = true)
    (he : d.tabErr 0x16 n 0xFE Eth.F_BUF_DBE ≠ 2) (hd : d.armed 0x16 n Eth.F_BUF_DBE = false)
    (hs : d.armed 0x16 n Eth.F_BUF_SBE = false) (t : Nat) :
    d.ethRx n f true t = d.ethFrame n (f.take (f.length - 4)) t := by
  rw [Dev.ethRx_live hl h3 hoff hheld, Dev.useBuf_clean he hd hs, hcrc, decide_eq_false (by omega), decide_eq_false (by omega)]
  simp only [Bool.not_true, Bool.or_self, Bool.false_eq_true, if_false]

/-- A frame that goes to the Voxord engine and, unless it consumes it, to the ring. -/
def Dev.ethOnward (d : Dev) (n : Nat) (g : List Nat) (t : Nat) : Dev :=
  if (d.voxRx (2 ^ n) g).2 then (d.voxRx (2 ^ n) g).1 else (d.voxRx (2 ^ n) g).1.ethDeliver n g t

theorem Dev.ethFrame_plain {d : Dev} {n : Nat} {g : List Nat} (t : Nat) (htake : d.ethTakes n g = true)
    (hown : d.ethLooped n = false) (h : ptpOfs g = none) : d.ethFrame n g t = d.ethOnward n g t := by
  simp only [Dev.ethFrame, htake, hown, h, Bool.not_true, Bool.not_false, Bool.false_eq_true, if_false, if_true, Dev.ethOnward]

theorem Dev.ethFrame_ptp {d : Dev} {n o : Nat} {b : Bool} {g : List Nat} (t : Nat) (htake : d.ethTakes n g = true)
    (hown : d.ethLooped n = false) (h : ptpOfs g = some (o, b)) :
    d.ethFrame n g t = (((d.ptpWatch n g o).pdAnswer n g o t).pdTake n g o t).ethOnward n g t := by
  simp only [Dev.ethFrame, htake, hown, h, Bool.not_true, Bool.not_false, Bool.false_eq_true, if_false, if_true, Dev.when_true,
    Dev.ethOnward]

/-! ### PTP messages received (R255, R256) -/

theorem ptpOfs_untagged {g : List Nat} (ht : etherType g = 0x88F7) (h : be g 12 2 ≠ 0x8100) : ptpOfs g = some (14, true) := by
  rw [ptpOfs, ht, if_neg h]
  rfl

theorem Dev.ptpWatch_off {d : Dev} {n : Nat} (f : List Nat) (o : Nat) (h : d.is Eth.MASTER_PORT_WATCH_EN n = false) :
    d.ptpWatch n f o = d := by
  rw [Dev.ptpWatch, h]
  rfl

/-- What the rest of the device keeps of the peer-delay functions. -/
def Dev.pdRest (d : Dev) (p : Nat) : KMap EthH × Nat × Nat × Nat :=
  (d.eths, d.rd Eth.ETH_CNT_B_PDELAY_RESP_CNT p, d.rd Vox.VOX_CFG_VOX_ETYPE 0, d.rd Eth.ETH_CFG_RX_Q p)

theorem pdRest_sendKeeps (p : Fin 2) : SendKeeps (fun d => d.pdRest p) where
  port _ _ _ := rfl
  loop _ _ _ := rfl
  lane _ _ _ := rfl
  emit _ _ := rfl
  free _ := rfl
  test d f v u hu hf := by
    obtain ⟨hc, ho, hl, hs⟩ := hf
    have hp := p.2
    have hrd : ∀ (g : Fld) (i : Nat), g.key i 0 ≠ f.key 0 u → (d.wr f 0 v u).rd g i = d.rd g i := fun g i h =>
      Dev.rd_wr_ne _ _ _ _ _ _ _ _ h
    simp only [Dev.pdRest]
    rw [hrd, hrd, hrd]
    · rfl
    all_goals
      simp only [Fld.key, hc, hs, Eth.ETH_CNT_B_PDELAY_RESP_CNT, Vox.VOX_CFG_VOX_ETYPE, Eth.ETH_CFG_RX_Q]
      omega

theorem Raised.pdRest {d e : Dev} (h : Raised d e) (p : Fin 2) : e.pdRest p = d.pdRest p := by
  have heths : e.eths = d.eths := by rw [h.rest]
  rw [Dev.pdRest, heths, h.rd _ _ _ (Fld.quiet_of Eth.ETH_CNT_B_PDELAY_RESP_CNT p (by decide) (by omega)),
    h.rd _ _ _ (Fld.quiet_of Vox.VOX_CFG_VOX_ETYPE 0 (by decide) (by decide)),
    h.rd _ _ _ (Fld.quiet_of Eth.ETH_CFG_RX_Q p (by decide) (by omega))]
  rfl

theorem Dev.pdRest_ethDeliver {d : Dev} {p : Fin 2} (g : List Nat) (t : Nat) (hq : d.rd Eth.ETH_CFG_RX_Q p < 256) :
    (d.ethDeliver p g t).eths = d.eths ∧
      (d.ethDeliver p g t).rd Eth.ETH_CNT_B_PDELAY_RESP_CNT p = d.rd Eth.ETH_CNT_B_PDELAY_RESP_CNT p := by
  have hview : (d.ethDeliver p g t).pdRest p = d.pdRest p := by
    unfold Dev.ethDeliver
    refine ite_keeps (fun d => Dev.pdRest d p) ?_ ((Dev.push_raised d _ _ hq).pdRest p)
    refine ((Dev.evt_raised _ _ _ _).pdRest p).trans ?_
    simp only [Dev.pdRest]
    rw [Dev.rd_incSat_off _ _ _ _ (by decide), Dev.rd_incSat_off _ _ _ _ (by decide), Dev.incSat, Dev.addSat,
      Dev.rd_wr_class _ _ _ _ _ _ (by decide) (by omega) (by decide)]
    rfl
  exact ⟨congrArg (fun v => v.1) hview, congrArg (fun v => v.2.1) hview⟩

/-- A frame that is not Voxord's goes to the ring alone, which changes none of this. -/
theorem Dev.pdRest_ethOnward {d : Dev} {p : Fin 2} {g : List Nat} (t : Nat) (hg : etherType g ≠ d.rd Vox.VOX_CFG_VOX_ETYPE 0)
    (hq : d.rd Eth.ETH_CFG_RX_Q p < 256) :
    (d.ethOnward p g t).eths = d.eths ∧
      (d.ethOnward p g t).rd Eth.ETH_CNT_B_PDELAY_RESP_CNT p = d.rd Eth.ETH_CNT_B_PDELAY_RESP_CNT p := by
  have hus : d.voxForUs g = false := by
    simp only [Dev.voxForUs, beq_eq_false_iff_ne.2 hg, Bool.and_false, Bool.false_and]
  rw [Dev.ethOnward, Dev.voxRx_other hus, if_neg Bool.false_ne_true]
  exact Dev.pdRest_ethDeliver g t hq

theorem Dev.eth_ethOnward {d : Dev} {p : Fin 2} {g : List Nat} (t : Nat) (hg : etherType g ≠ d.rd Vox.VOX_CFG_VOX_ETYPE 0)
    (hq : d.rd Eth.ETH_CFG_RX_Q p < 256) : (d.ethOnward p g t).eth p = d.eth p := by
  rw [Dev.eth, (Dev.pdRest_ethOnward t hg hq).1]
  rfl

theorem Dev.pdAnswer_other {d : Dev} {n : Nat} {f : List Nat} {o : Nat} (t : Nat) (h : ptpType f o ≠ 2) :
    d.pdAnswer n f o t = d := by
  refine if_pos ?_
  rw [bne_iff_ne.2 h, Bool.or_true]
  rfl

theorem Dev.pdAnswer_request {d : Dev} {n : Nat} {f : List Nat} {o : Nat} (t : Nat) (hr : d.is Eth.PTP_CFG_RESP_EN n = true)
    (h : ptpType f o = 2) (hd : ptpDomain f o = d.rd Eth.PTP_CFG_DOMAIN n) (hl : d.ethLive n = true) (h3 : d.ethLoop n ≠ 3) :
    ∃ bs, d.pdAnswer n f o t = (d.freeUsed.ethWire n bs false).1.incSat Eth.ETH_CNT_B_PDELAY_RESP_CNT n := by
  refine ⟨_, if_neg ?_⟩
  rw [hr, h, hd, hl, beq_eq_false_iff_ne.2 h3]
  simp only [Bool.not_true, bne_self_eq_false, Bool.or_self, Bool.false_eq_true, not_false_eq_true]

theorem Dev.pdTake_other {d : Dev} {n : Nat} {f : List Nat} {o : Nat} (t : Nat) (h3 : ptpType f o ≠ 3) (hA : ptpType f o ≠ 0xA) :
    d.pdTake n f o t = d := by
  unfold Dev.pdTake
  simp only
  split
  · rfl
  · refine if_pos ?_
    rw [bne_iff_ne.2 h3, bne_iff_ne.2 hA, Bool.and_self, Bool.or_true]

/-- A request whose first response has come, from a source and with a sample. -/
def PdReq.answered (x : PdReq) (src : Nat) (v : Int) : PdReq := { x with srcs := [src], done := true, sample := some v }

/-- The first response to the port's only request, complete in itself. -/
theorem Dev.pdTake_response {d : Dev} {n : Nat} {f : List Nat} {o : Nat} {x : PdReq} (t : Nat) (h3 : ptpType f o = 3)
    (hone : (byteAt f (o + 6)).testBit 1 = false) (hd : ptpDomain f o = d.rd Eth.PTP_CFG_DOMAIN n)
    (hi : be f (o + 44) 10 = d.portIdent n) (hx : (d.eth n).reqs = [x]) (hseq : x.seq = ptpSeq f o) (hsrc : x.srcs = [])
    (hs : x.sample = none) (hopen : d.nowL < x.leftAt + 100000000 * nsL) :
    d.pdTake n f o t =
      d.setEth n { d.eth n with reqs := [x.answered (ptpSrc f o) (((t : Int) - x.t1 - ptpCorr f o) / 2)] } := by
  have hfind : (d.eth n).reqs.find? (fun r => r.seq == ptpSeq f o && decide (d.nowL < r.leftAt + pdWindow)) = some x := by
    rw [hx, List.find?_cons_of_pos]
    rw [hseq, beq_self_eq_true, Bool.true_and]
    exact decide_eq_true hopen
  simp only [Dev.pdTake, hfind, h3, hone, hd, hi, hsrc, hs, beq_self_eq_true, bne_self_eq_false, Bool.and_self, Bool.not_true,
    Bool.false_and, Bool.or_self, Bool.false_eq_true, if_false, ne_eq, not_true_eq_false, decide_false, List.contains_nil,
    Dev.when_false, Bool.not_false, and_self, if_true, List.nil_append, Option.getD_none]
  rw [hx, List.map_cons, List.map_nil, if_pos rfl]
  rfl

/-! ### A frame received leaves the receive stamp of the next one (R252) -/

/-- Whether a key is that of a register of the Ethernet ports that a timestamp is made with: their configuration, and the delays. -/
def stampKey (k : Nat) : Bool :=
  k / 8388608 == 0x16 && (decide (0x40 ≤ k / 32 % 4096 ∧ k / 32 % 4096 < 0x70) ||
    decide (0x98 ≤ k / 32 % 4096 ∧ k / 32 % 4096 < 0xB0))

/-- The clock, and the registers that a timestamp is made with. -/
def Dev.stampView (d : Dev) : Clock × (Nat → Nat → Nat) := (d.clk, fun k r => if stampKey k then mget d.regs k r else 0)

theorem Dev.stampView_congr {d e : Dev} (hc : e.clk = d.clk)
    (hr : ∀ k r, stampKey k = true → mget e.regs k r = mget d.regs k r) : e.stampView = d.stampView := by
  refine Prod.ext hc (funext fun k => funext fun r => ?_)
  simp only [Dev.stampView]
  split
  · next h => exact hr k r h
  · rfl

theorem Dev.stampView_wr (d : Dev) (f : Fld) (i v j : Nat) (h : stampKey (f.key i j) = false) :
    (d.wr f i v j).stampView = d.stampView := by
  refine Dev.stampView_congr rfl fun k r hk => mget_mset_ne _ _ _ _ ?_
  rintro rfl
  exact absurd hk (ne_true_of_eq_false h)

theorem Dev.rd_of_stampView {d e : Dev} (h : e.stampView = d.stampView) {f : Fld} {i j : Nat} (hk : stampKey (f.key i j) = true) :
    e.rd f i j = d.rd f i j := by
  have hr := congrFun (congrFun (congrArg Prod.snd h) (f.key i j)) f.rst
  simp only [Dev.stampView, hk, if_true] at hr
  exact hr

theorem stampKey_fields : ∀ p : Fin 2, stampKey (Eth.ETH_CFG_SPEED.key p 0) = true ∧ stampKey (Eth.ETH_CFG_FEC.key p 0) = true ∧
    stampKey (Eth.DLY.key p 1) = true ∧ stampKey (Eth.DLY.key p 3) = true ∧ stampKey (Eth.DLY.key p 5) = true ∧
    stampKey (Eth.DELAY_ASYM.key p 0) = true := by decide

theorem Dev.rxStamp_of_stampView {d e : Dev} (h : e.stampView = d.stampView) (p : Fin 2) (y : Nat) :
    e.rxStamp p y = d.rxStamp p y := by
  obtain ⟨hspeed, hfec, h1, h3, h5, hasym⟩ := stampKey_fields p
  have hclk : e.clk = d.clk := congrArg Prod.fst h
  have hdly : e.ethDly p 1 = d.ethDly p 1 := by
    simp only [Dev.ethDly, Dev.is_congr (Dev.rd_of_stampView h hspeed), Dev.is_congr (Dev.rd_of_stampView h hfec)]
    split
    · split
      · exact Dev.rd_of_stampView h h5
      · exact Dev.rd_of_stampView h h3
    · exact Dev.rd_of_stampView h h1
  have hnow : e.nowL = d.nowL := by rw [Dev.nowL, Dev.now, hclk]; rfl
  rw [Dev.rxStamp, Dev.rxAgo, hdly, Dev.rdI, Dev.rd_of_stampView h hasym, hnow]
  rfl

theorem Faulted.stampView {d e : Dev} (h : Faulted d e) : e.stampView = d.stampView := by
  refine Dev.stampView_congr (by rw [h.rest]) fun k r hk => h.regs k r ?_
  simp only [stampKey, Bool.and_eq_true, Bool.or_eq_true, beq_iff_eq, decide_eq_true_eq] at hk
  simp only [fltKey, evtKey, Bool.or_eq_false_iff, Bool.and_eq_false_iff, beq_eq_false_iff_ne, decide_eq_false_iff_not]
  omega

theorem stampView_sendKeeps : SendKeeps Dev.stampView where
  port _ _ _ := rfl
  loop _ _ _ := rfl
  lane _ _ _ := rfl
  emit _ _ := rfl
  free _ := rfl
  test d f v u hu hf := by
    obtain ⟨hc, ho, hl, hs⟩ := hf
    refine Dev.stampView_wr _ _ _ _ _ ?_
    simp only [stampKey, Fld.key, hc, hs, Bool.and_eq_false_iff, beq_eq_false_iff_ne]
    omega

theorem stampView_readKeeps : ReadKeeps Dev.stampView where
  faulted h := h.stampView
  tab _ _ _ _ _ _ := rfl
  err _ _ _ _ _ _ := rfl
  seen _ _ := rfl
  row _ _ := Dev.stampView_wr _ _ _ _ _ (by decide)

theorem Dev.stampView_evt (d : Dev) (c i b : Nat) : (d.evt c i b).stampView = d.stampView := stampView_readKeeps.evt d c i b

/-- A register of an Ethernet port that no timestamp is made with. -/
theorem Dev.stampView_port (d : Dev) (p : Fin 2) (f : Fld) (v : Nat)
    (h : f.cls = 0x16 ∧ f.lo < 32 ∧ (f.off < 0x40 ∨ 0x70 ≤ f.off ∧ f.off < 0x98 ∨ 0xB0 ≤ f.off ∧ f.off < 4096)) :
    (d.wr f p v).stampView = d.stampView := by
  obtain ⟨hc, hl, ho⟩ := h
  have hp := p.2
  refine Dev.stampView_wr _ _ _ _ _ ?_
  have hoff : f.key p 0 / 32 % 4096 = f.off := by
    rw [Fld.key, hc]
    omega
  simp only [stampKey, hoff, Bool.and_eq_false_iff, Bool.or_eq_false_iff, decide_eq_false_iff_not]
  omega

/-- A register of the Voxord page. -/
theorem Dev.stampView_vox (d : Dev) (f : Fld) (v : Nat) (h : f.cls = 0x17 ∧ f.off < 4096 ∧ f.lo < 32) :
    (d.wr f 0 v).stampView = d.stampView := by
  obtain ⟨hc, ho, hl⟩ := h
  refine Dev.stampView_wr _ _ _ _ _ ?_
  simp only [stampKey, Fld.key, hc, Bool.and_eq_false_iff, beq_eq_false_iff_ne]
  omega

theorem Dev.stampView_useBuf (d : Dev) (p : Fin 2) (a b : Nat) : (d.useBuf 0x16 p a b).1.stampView = d.stampView := by
  have harm : ∀ n, (d.disarm 0x16 p n).stampView = d.stampView := fun n => Dev.stampView_port _ _ _ _ (by decide)
  unfold Dev.useBuf
  split
  · exact (stampView_readKeeps.flt _ _ _ _).trans rfl
  · split
    · exact (stampView_readKeeps.flt _ _ _ _).trans (harm _)
    · split
      · exact (stampView_readKeeps.flt _ _ _ _).trans (harm _)
      · rfl

theorem Dev.stampView_ptpWatch (d : Dev) (p : Fin 2) (f : List Nat) (o : Nat) : (d.ptpWatch p f o).stampView = d.stampView := by
  unfold Dev.ptpWatch
  simp only
  split
  · rfl
  · split
    · exact (Dev.stampView_port _ _ _ _ (by decide)).trans rfl
    · split
      · exact ite_keeps Dev.stampView rfl ((Dev.stampView_evt _ _ _ _).trans (Dev.stampView_port _ _ _ _ (by decide)))
      · rfl

theorem Dev.stampView_pdAnswer (d : Dev) (p : Fin 2) (f : List Nat) (o t : Nat) : (d.pdAnswer p f o t).stampView = d.stampView := by
  unfold Dev.pdAnswer
  refine ite_keeps Dev.stampView rfl ?_
  exact (Dev.stampView_port _ _ _ _ (by decide)).trans (stampView_sendKeeps.ethWire _ p.2 _ _)

theorem Dev.stampView_setEth (d : Dev) (n : Nat) (x : EthH) : (d.setEth n x).stampView = d.stampView := rfl

theorem Dev.stampView_pdTake (d : Dev) (p : Fin 2) (f : List Nat) (o t : Nat) : (d.pdTake p f o t).stampView = d.stampView := by
  have hmulti : ∀ c, (d.when c (fun d => d.evt 0x16 p Eth.E_MULTI_RESP)).stampView = d.stampView := fun c =>
    Dev.when_keeps Dev.stampView _ _ _ (Dev.stampView_evt _ _ _ _)
  unfold Dev.pdTake
  simp only
  split
  · rfl
  · split
    · rfl
    · split
      · exact (Dev.stampView_setEth _ _ _).trans (hmulti _)
      · split
        · exact (Dev.stampView_setEth _ _ _).trans (hmulti _)
        · split
          · exact (Dev.stampView_setEth _ _ _).trans (hmulti _)
          · exact (Dev.stampView_setEth _ _ _).trans (hmulti _)

theorem Dev.stampView_voxSend (d : Dev) (valid : Bool) (prio mtype dst : Nat) (group ackReq : Bool) (sel : Nat) (bs : List Nat) :
    (d.voxSend valid prio mtype dst group ackReq sel bs).1.stampView = d.stampView := by
  unfold Dev.voxSend
  extract_lets r e up
  have he : e.stampView = d.stampView :=
    ite_keeps Dev.stampView rfl (foldl_keeps Dev.stampView _ _ (fun d i _ => stampView_readKeeps.readTab d _ _ _ _ _ _ _ _) d)
  split
  · refine Eq.trans (Dev.when_keeps Dev.stampView _ _ _ (Dev.stampView_vox _ _ _ (by decide))) ?_
    exact (Dev.stampView_evt _ _ _ _).trans ((Dev.stampView_vox _ _ _ (by decide)).trans he)
  · exact (Dev.stampView_vox _ _ _ (by decide)).trans he

theorem Dev.stampView_voxAckTo (d : Dev) (h : List Nat) (sel : Nat) : (d.voxAckTo h sel).stampView = d.stampView :=
  ite_keeps Dev.stampView (Dev.stampView_voxSend _ _ _ _ _ _ _ _ _) rfl

theorem Dev.stampView_l1Exit (d : Dev) (l : Nat) : (d.l1Exit l).stampView = d.stampView := by
  unfold Dev.l1Exit
  exact ite_keeps Dev.stampView rfl (Dev.when_keeps Dev.stampView _ _ _ rfl)

theorem Dev.stampView_wakeActs (d : Dev) (l : Nat) : (d.wakeActs l).stampView = d.stampView := by
  unfold Dev.wakeActs
  refine ite_keeps Dev.stampView rfl (ite_keeps Dev.stampView (ite_keeps Dev.stampView rfl rfl) (ite_keeps Dev.stampView ?_ rfl))
  exact Eq.trans rfl (Dev.stampView_l1Exit d l)

theorem Dev.stampView_link (d : Dev) {l : Nat} (hl : l < 4) (f : Fld) (v : Nat) (h : f.cls = 0x1C ∧ f.off < 4096 ∧ f.lo < 32) :
    (d.wr f l v).stampView = d.stampView := by
  obtain ⟨hc, ho, hlo⟩ := h
  refine Dev.stampView_wr _ _ _ _ _ ?_
  simp only [stampKey, Fld.key, hc, Bool.and_eq_false_iff, beq_eq_false_iff_ne]
  omega

theorem Dev.stampView_wakeEvent (d : Dev) (src n : Nat) : (d.wakeEvent src n).stampView = d.stampView := by
  refine foldl_keeps Dev.stampView _ _ (fun d l hl => Dev.when_keeps Dev.stampView _ _ _ ?_) d
  have hl := List.mem_range.1 hl
  rw [Dev.wakeLink_eq]
  exact (Dev.stampView_wakeActs _ _).trans ((Dev.stampView_evt _ _ _ _).trans
    ((Dev.stampView_link _ hl _ _ (by decide)).trans (Dev.stampView_link _ hl _ _ (by decide))))

theorem Dev.stampView_voxRx (d : Dev) (sel : Nat) (f : List Nat) : (d.voxRx sel f).1.stampView = d.stampView := by
  have hsaw : ∀ (d : Dev) (a b : Nat), (d.voxSaw a b).stampView = d.stampView := fun _ _ _ => rfl
  have hout : ∀ (d : Dev), (d.voxUnacked f).stampView = d.stampView := fun _ => rfl
  cases hus : d.voxForUs f with
  | false => rw [Dev.voxRx_other hus]
  | true =>
    cases hdup : d.voxDup f with
    | true =>
      rw [Dev.voxRx_dup hus hdup]
      exact (Dev.stampView_voxAckTo _ _ _).trans (Dev.stampView_vox _ _ _ (by decide))
    | false =>
      rw [Dev.voxRx_new hus hdup]
      split
      · split
        · exact (hsaw _ _ _).trans (hout _)
        · exact hsaw _ _ _
      · exact (Dev.stampView_wakeEvent _ _ _).trans ((Dev.stampView_voxAckTo _ _ _).trans (hsaw _ _ _))
      · exact (Dev.stampView_voxAckTo _ _ _).trans (hsaw _ _ _)

/-- A register of a delivery queue, whatever number the queue has. -/
theorem Dev.stampView_qwr (d : Dev) (q : Nat) (f : Fld) (v : Nat) : (d.qwr (64 + q) f v).stampView = d.stampView := by
  refine Dev.stampView_wr _ _ _ _ _ ?_
  have hc : (qPage (64 + q)).1 = 0x1B := by
    simp only [qPage, if_neg (show ¬ 64 + q < 16 by omega), if_neg (show ¬ 64 + q < 40 by omega)]
    split <;> rfl
  simp only [stampKey, Fld.key, qFld, hc, Bool.and_eq_false_iff, beq_eq_false_iff_ne]
  omega

theorem Dev.stampView_push (d : Dev) (q : Nat) (x : DItem) : (d.push q x).stampView = d.stampView := by
  have hdrop : ∀ (d : Dev) (v : Nat), ((d.qwr (64 + q) Dq.Q_CNT_C_DROP_CNT v).evt 0x1B (q / 8) Dq.E_DROP).stampView = d.stampView :=
    fun d v => (Dev.stampView_evt _ _ _ _).trans (Dev.stampView_qwr _ _ _ _)
  unfold Dev.push pushItemW
  simp only
  split
  · exact (hdrop _ _).trans rfl
  · split
    · exact (Raised.qSettleW Dev.evt_raised _ _).faulted.stampView.trans rfl
    · split
      · rfl
      · exact (hdrop _ _).trans rfl

theorem Dev.stampView_ethDeliver (d : Dev) (p : Fin 2) (g : List Nat) (t : Nat) : (d.ethDeliver p g t).stampView = d.stampView := by
  unfold Dev.ethDeliver
  refine ite_keeps Dev.stampView ?_ (Dev.stampView_push _ _ _)
  exact (Dev.stampView_evt _ _ _ _).trans (Dev.stampView_port _ _ _ _ (by decide))

theorem Dev.stampView_ethFrame (d : Dev) (p : Fin 2) (g : List Nat) (t : Nat) : (d.ethFrame p g t).stampView = d.stampView := by
  unfold Dev.ethFrame
  refine ite_keeps Dev.stampView rfl ?_
  extract_lets own e v
  have he : e.stampView = d.stampView := by
    unfold e
    split
    · refine Dev.when_keeps Dev.stampView _ _ _ ?_
      exact (Dev.stampView_pdTake _ _ _ _ _).trans ((Dev.stampView_pdAnswer _ _ _ _ _).trans (Dev.stampView_ptpWatch _ _ _ _))
    · rfl
  have hv : v.1.stampView = d.stampView := by
    unfold v
    split
    · exact (Dev.stampView_voxRx _ _ _).trans he
    · exact he
  exact ite_keeps Dev.stampView hv ((Dev.stampView_ethDeliver _ _ _ _).trans hv)

theorem Dev.stampView_ethMac (d : Dev) (p : Fin 2) (f : List Nat) (good : Bool) (t : Nat) :
    (d.ethMac p f good t).stampView = d.stampView := by
  unfold Dev.ethMac
  refine (foldl_keeps Dev.stampView _ _ (fun d f _ => ?_) _).trans (stampView_sendKeeps.inject d (by omega) _ _ _)
  refine ite_keeps Dev.stampView (Dev.stampView_port _ _ _ _ (by decide)) ?_
  exact ite_keeps Dev.stampView (Dev.stampView_useBuf _ _ _ _)
    ((Dev.stampView_ethFrame _ _ _ _).trans (Dev.stampView_useBuf _ _ _ _))

theorem Dev.stampView_ethRx (d : Dev) (p : Fin 2) (f : List Nat) (good : Bool) (t : Nat) :
    (d.ethRx p f good t).stampView = d.stampView := by
  unfold Dev.ethRx
  refine ite_keeps Dev.stampView ((Dev.stampView_ethMac _ _ _ _ _).trans ?_) rfl
  exact Dev.when_keeps Dev.stampView _ _ _ rfl

/-! ### The master watch (R258) -/

/-- Whether the watched master has been silent for too long. -/
def Dev.masterDue (d : Dev) (n : Nat) : Prop :=
  d.ethRuns n = true ∧ d.is Eth.MASTER_PORT_WATCH_EN n = true ∧ d.is Eth.STAT_HOLDOVER n = false ∧
    (d.eth n).syncAt + d.rd Eth.PTP_CFG_SYNC_TIMEOUT n * 1000000 * nsL ≤ d.nowL

theorem masterDue_iff (d : Dev) (n : Nat) :
    (d.ethRuns n && d.is Eth.MASTER_PORT_WATCH_EN n && !d.is Eth.STAT_HOLDOVER n &&
      decide ((d.eth n).syncAt + d.rd Eth.PTP_CFG_SYNC_TIMEOUT n * 1000000 * nsL ≤ d.nowL)) = true ↔ d.masterDue n := by
  simp only [Bool.and_eq_true, Bool.not_eq_true', decide_eq_true_eq, and_assoc, Dev.masterDue]

theorem Dev.ethCmd_pdAck (d : Dev) (n : Nat) : d.ethCmd n 1 = d.cmdPdAck n := by
  simp only [Dev.ethCmd, show Nat.testBit 1 0 = true by decide, show Nat.testBit 1 1 = false by decide,
    show Nat.testBit 1 2 = false by decide, Dev.when_false, Dev.when_true]

theorem Dev.ethCmd_idRead (d : Dev) (n : Nat) : d.ethCmd n 2 = d.sfpRead n := by
  simp only [Dev.ethCmd, show Nat.testBit 2 0 = false by decide, show Nat.testBit 2 1 = true by decide,
    show Nat.testBit 2 2 = false by decide, Dev.when_false, Dev.when_true]

theorem exec_pdAck {s : State} {r : Req} (p : Fin 2) (ht : s.dev.takes r.num 0x16 p = true) :
    exec (.pdAck r p) s = .next (s.withDev (s.dev.cmdPdAck p)) := by
  rw [← Dev.ethCmd_pdAck]
  exact State.upd_busW s _ _ _ _ ht

theorem exec_masterLost (s : State) (p : Fin 2) :
    exec (.masterLost p) s = .next (s.withDev (s.dev.when (s.dev.ethRuns p && s.dev.is Eth.MASTER_PORT_WATCH_EN p &&
      !s.dev.is Eth.STAT_HOLDOVER p && decide ((s.dev.eth p).syncAt + s.dev.rd Eth.PTP_CFG_SYNC_TIMEOUT p * 1000000 * nsL ≤
        s.dev.nowL))
      (fun d => (d.wr Eth.STAT_HOLDOVER p 1).evt 0x16 p Eth.E_MASTER_LOST))) := rfl

theorem exec_pdelayResp (s : State) (p : Fin 2) (f g : List Nat) (y : Nat) :
    exec (.pdelayResp p f g y) s = execPdelayResp p f g y s := rfl

theorem execPdelayResp_alone (s : State) (p : Fin 2) (f : List Nat) (y : Nat) :
    execPdelayResp p f [] y s = .next (s.withDev (s.dev.ethRx p f true (s.dev.rxStamp p y))) := State.next_of (if_pos rfl)

theorem execPdelayResp_followed (s : State) (p : Fin 2) (f : List Nat) {g : List Nat} (y : Nat) (hg : g ≠ []) :
    execPdelayResp p f g y s = .next (s.withDev ((s.dev.ethRx p f true (s.dev.rxAgo p y)).ethRx p g true
      ((s.dev.ethRx p f true (s.dev.rxAgo p y)).rxStamp p 0))) := by
  rw [execPdelayResp, State.upd, if_neg hg, Dev.rxStamp_of_stampView (Dev.stampView_ethRx _ _ _ _ _)]

/-! ### The statement -/

/-- Settles O41, by the equations of samples, requests, responses and the watch. -/
theorem pathDelay : Obligations.PathDelay := by
  unfold Obligations.PathDelay
  refine ⟨fun s r p => ?_, fun d p hoff hheld => ?_⟩
  · intro d h due
    refine ⟨fun ht => ⟨fun v => State.upd_busW s _ _ _ _ ht, exec_pdAck p ht⟩, fun v => ⟨fun hv => ?_, fun hv => ⟨fun hs => ?_,
      fun hs => ⟨fun hlim => ?_, fun hlim => ?_⟩⟩⟩, ⟨fun hdue => ?_, fun hdue => ?_⟩, rfl, Dev.pdClose_open,
      fun x hx hlate e he => ⟨fun hs => ?_, fun v hs => ⟨fun hone => ?_, fun hmany => ?_⟩⟩, rfl, Dev.pdSend_idle,
      fun f y => rfl, fun f y => ?_, fun f g y hg e he => ?_⟩
    · rw [Dev.pdSample_eq, hv]
      rfl
    · rw [Dev.pdSample_eq, hv, hs]
      simp only [Bool.not_true, Bool.false_eq_true, if_false, if_true, ite_self]
    · rw [Dev.pdSample_eq, hv, hs, if_pos hlim]
      simp only [Bool.not_true, Bool.false_eq_true, if_false]
    · rw [Dev.pdSample_eq, hv, hs, if_neg (Nat.not_lt.2 hlim)]
      simp only [Bool.not_true, Bool.false_eq_true, if_false]
    · rw [exec_masterLost, Dev.when_of_eq_true ((masterDue_iff s.dev p).2 hdue)]
    · rw [exec_masterLost, Dev.when_of_eq_false (eq_false_of_ne_true fun h => hdue ((masterDue_iff s.dev p).1 h))]
    · rw [Dev.pdClose_one hx hlate, Dev.pdOver, hs, he]
    · rw [Dev.pdClose_one hx hlate, Dev.pdOver, hs, he]
      exact if_pos hone
    · rw [Dev.pdClose_one hx hlate, Dev.pdOver, hs, he]
      exact if_neg (Nat.not_le.2 hmany)
    · rw [exec_pdelayResp, execPdelayResp_alone]
    · rw [exec_pdelayResp, execPdelayResp_followed _ _ _ _ hg, he]
  · intro h
    refine ⟨fun hl hi h3 t ht => ?_, fun f hl h3 h68 hmax hcrc hdbe had has hw => ?_⟩
    · rw [ht]
      exact Dev.pdSend_shows hoff hheld hl hi h3
    · intro g htake htype hvox htag hdom hq u t ht
      have hloop : d.ethLooped p = false := by
        simp only [Dev.ethLive, Bool.and_eq_true, Bool.not_eq_true'] at hl
        exact hl.2
      rw [Dev.ethRx_good hl h3 hoff hheld (by omega) hmax hcrc hdbe had has,
        Dev.ethFrame_ptp u htake hloop (ptpOfs_untagged htype htag), Dev.ptpWatch_off _ _ hw] at ht
      refine ⟨fun h2 hr => ?_, fun h3' hone hid x hx hseq hsrc hs hopen => ?_⟩
      · obtain ⟨bs, hans⟩ := Dev.pdAnswer_request u hr h2 hdom hl h3
        have hview := (pdRest_sendKeeps p).ethWire d.freeUsed p.2 bs false
        simp only [Dev.pdRest, Prod.mk.injEq] at hview
        obtain ⟨-, hcnt, hety, hrxq⟩ := hview
        rw [Dev.pdTake_other _ (by omega) (by omega), hans] at ht
        have hfree : ∀ f i, d.freeUsed.rd f i = d.rd f i := fun _ _ => rfl
        rw [hfree] at hcnt hety hrxq
        rw [ht, (Dev.pdRest_ethOnward u ?_ ?_).2, Dev.rd_incSat_self, hcnt]
        · rw [htype, Dev.incSat, Dev.addSat, Dev.rd_wr_class _ _ _ _ _ _ (by decide) (by omega) (by decide), hety]
          exact hvox.symm
        · rw [Dev.rd_incSat_off _ _ _ _ (by decide), hrxq]
          exact hq
      · rw [Dev.pdAnswer_other _ (by omega), Dev.pdTake_response u h3' hone hdom hid hx hseq hsrc hs hopen] at ht
        rw [ht]
        rw [Dev.eth_ethOnward u ?_ ?_, Dev.eth_setEth]
        · rfl
        · rw [htype]
          exact hvox.symm
        · exact hq

end Sys2Proof.Machine
end

