-- ==== Sys2Proof/Proofs/Ethernet.lean ====
section
/-!
PROOFS. Frames, links and modules of an Ethernet port (R250, R251, R257, R259, R260); from these the statement O42.
-/

open Sys2Proof

namespace Sys2Proof.Machine

/-! ### Frames received (R250, R251) -/

theorem Dev.ethLooped_of_live {d : Dev} {n : Nat} (h : d.ethLive n = true) : d.ethLooped n = false := by
  simp only [Dev.ethLive, Bool.and_eq_true, Bool.not_eq_true'] at h
  exact h.2

theorem Dev.ethRx_bad {d : Dev} {n : Nat} (hl : d.ethLive n = true) (h3 : d.ethLoop n ≠ 3)
    (hoff : d.is LbF.INJ_CFG_INJ_EN 0 (16 + n) = false) (hheld : (d.loop (16 + n)).held = none) {f : List Nat} {g : Bool}
    (h : g = false ∨ f.length < 64 ∨ d.rd Eth.MAX_FRAME n < f.length ∨ crcGood f = false) (t : Nat) :
    d.ethRx n f g t = d.incSat Eth.ETH_CNT_A_RX_ERR_CNT n := by
  rw [Dev.ethRx_live hl h3 hoff hheld, if_pos]
  simp only [Bool.or_eq_true, Bool.not_eq_true', decide_eq_true_eq, or_assoc]
  exact h

theorem Dev.ethOnward_other {d : Dev} {n : Nat} {g : List Nat} (t : Nat) (h : d.voxForUs g = false) :
    d.ethOnward n g t = d.ethDeliver n g t := by
  rw [Dev.ethOnward, Dev.voxRx_other h, if_neg Bool.false_ne_true]

theorem Dev.ethDeliver_closed {d : Dev} {n : Nat} (g : List Nat) (t : Nat)
    (h : d.qrd (64 + d.rd Eth.ETH_CFG_RX_Q n) Dq.RING_CFG_Q_EN ≠ 1) :
    d.ethDeliver n g t = (d.incSat Eth.ETH_CNT_A_RX_DROP_CNT n).evt 0x16 n Eth.E_RX_DROP := by
  refine if_pos ?_
  rw [beq_eq_false_iff_ne.2 h]
  rfl

/-! ### Frames sent (R251, R275, R507) -/

theorem Dev.voxDrain_empty {d : Dev} (h : d.vox.queue = []) : d.voxDrain = d := by
  rw [Dev.voxDrain, h]
  rfl

theorem Dev.ethSend_unsent {d : Dev} {n : Nat} {x : IDesc} (f : List Nat) (hq : d.vox.queue = [])
    (h : d.ethLoop n = 3 ∨ d.ethLinkUp n = false ∧ d.ethLooped n = false) :
    d.ethSend n x f = (d.iqPut (d.rd Eth.ETH_CFG_TX_Q n) 1 (txBack 1 0 none)).iqGo (d.rd Eth.ETH_CFG_TX_Q n) := by
  have hdown : d.ethLoop n = 3 ∨ (!d.ethLinkUp n && !d.ethLooped n) = true := by
    simpa only [Bool.and_eq_true, Bool.not_eq_true'] using h
  simp only [Dev.ethSend, Dev.voxDrain_empty hq, if_pos hdown]

/-- A frame without a timestamp, sent on a link that is up. -/
theorem Dev.ethSend_sent {d : Dev} {n : Nat} {x : IDesc} (f : List Nat) (hq : d.vox.queue = []) (hu : d.ethLinkUp n = true)
    (h0 : d.ethLoop n = 0) (hm : bits (byteAt x.raw 1) 1 2 = 0) (hclean : ∀ e : Dev, e = d.freeUsed →
      e.useBuf 0x16 n Eth.F_BUF_SBE Eth.F_BUF_DBE = (e, false)) (hoff : d.is LbF.INJ_CFG_INJ_EN 0 (16 + n) = false)
    (hheld : (d.loop (16 + n)).held = none) :
    d.ethSend n x f = ((d.freeUsed.emit (.eth n d.now (withCrc (padFrame ((f ++ zeros x.len).take x.len))) false)).iqPut
      (d.rd Eth.ETH_CFG_TX_Q n) 0 (txBack 0 x.len none)).iqGo (d.rd Eth.ETH_CFG_TX_Q n) := by
  have hup : ¬ (d.ethLoop n = 3 ∨ (!d.ethLinkUp n && !d.ethLooped n) = true) := by
    rw [h0, hu]
    simp only [Bool.not_true, Bool.false_and, Bool.false_eq_true, or_false]
    decide
  have hloop : d.freeUsed.ethLooped n = false := by
    have h : d.freeUsed.ethLoop n = 0 := h0
    rw [Dev.ethLooped, h]
    rfl
  have hnow : d.freeUsed.now = d.now := rfl
  have hwire := fun bs bad => Dev.ethWire_off (d := d.freeUsed) (n := n) bs bad hoff hheld
  simp only [Dev.ethSend, Dev.voxDrain_empty hq, if_neg hup, hm, hclean _ rfl, hloop, Bool.false_eq_true, if_false,
    hwire, hnow, Nat.zero_ne_one, (by decide : ¬ (0 : Nat) = 2), or_self, false_and]

/-! ### Links (R257, R259) -/

theorem Dev.ethUp_up {d : Dev} {n : Nat} (hr : d.ethRuns n = true) (hl : d.ethLooped n = false) (hu : d.ethLinkUp n = false) :
    d.ethUp n = (d.wr Eth.STAT_LINK_UP n 1).evt 0x16 n Eth.E_LINK_UP := by
  rw [Dev.ethUp, hr, hl, hu]
  rfl

theorem Dev.ethUp_idle {d : Dev} {n : Nat} (h : d.ethRuns n = false ∨ d.ethLooped n = true ∨ d.ethLinkUp n = true) : d.ethUp n =
    d := by
  refine if_neg ?_
  rcases h with h | h | h
  · rw [h, Bool.false_and, Bool.false_and]
    exact Bool.false_ne_true
  · rw [h, Bool.not_true, Bool.and_false, Bool.false_and]
    exact Bool.false_ne_true
  · rw [h, Bool.not_true, Bool.and_false]
    exact Bool.false_ne_true

theorem exec_ethLinkUp (s : State) (p : Fin 2) : exec (.ethLinkUp p) s = .next (s.withDev (s.dev.ethUp p)) := rfl

theorem exec_ethLinkDown (s : State) (p : Fin 2) : exec (.ethLinkDown p) s = .next (s.withDev (s.dev.ethDown p)) := rfl

theorem execEthTx_none {s : State} {p : Fin 2} (desc f : List Nat) (h : s.dev.txHead p = none) :
    exec (.ethTx p desc f) s = .next (s.withDev s.dev) := by
  refine Eq.trans (show _ = execEthTx p desc f s from rfl) ?_
  rw [execEthTx, State.upd, h]

theorem execEthTx_some {s : State} {p : Fin 2} {x : IDesc} (desc f : List Nat) (h : s.dev.txHead p = some x) :
    exec (.ethTx p desc f) s = .next (s.withDev (if desc.take 32 = x.raw then s.dev.ethSend p x f else s.dev)) := by
  refine Eq.trans (show _ = execEthTx p desc f s from rfl) ?_
  rw [execEthTx, State.upd, h]

/-! ### Modules (R260, R535) -/

theorem Dev.silent_congr {d e : Dev} {p : Nat} (hg : e.rd Isl.GATE 0 = d.rd Isl.GATE 0) (hp : e.rd Isl.PWR 0 = d.rd Isl.PWR 0) :
    e.silent 0x16 p = d.silent 0x16 p := by
  have h : ∀ f : Fld, e.rd f 0 = d.rd f 0 → e.islBit f 3 = d.islBit f 3 := fun f h => congrArg (fun v => v.testBit 3) h
  simp only [Dev.silent, Dev.gated, Dev.powered, islandOf, h _ hg, h _ hp]

theorem exec_modAbs (s : State) (p : Fin 2) :
    exec (.modAbs p) s = .next (s.withDev (s.dev.modAbs p true)) ∧
      exec (.modAbsHigh p) s = .next (s.withDev (s.dev.modAbs p false)) := ⟨rfl, rfl⟩

theorem exec_sfpIdDone (s : State) (p : Fin 2) (bs : List Nat) :
    exec (.sfpIdDone p bs) s = .next (s.withDev (s.dev.when (!s.dev.silent 0x16 p && s.dev.is Eth.SFP_STAT_PRESENT p)
      (fun d => d.sfpDone p bs))) := rfl

theorem exec_sfpDiag (s : State) (p : Fin 2) (bs : List Nat) (los fault : Bool) :
    exec (.sfpDiag p bs los fault) s = .next (s.withDev (s.dev.when (!s.dev.silent 0x16 p)
      (fun d => d.sfpDiag p bs los fault))) := rfl

theorem exec_sfpIdRead {s : State} {r : Req} (p : Fin 2) (ht : s.dev.takes r.num 0x16 p = true) :
    exec (.sfpIdRead r p) s = .next (s.withDev (s.dev.sfpRead p)) := by
  rw [← Dev.ethCmd_idRead]
  exact State.upd_busW s _ _ _ _ ht

theorem Dev.sfpRead_present {d : Dev} {n : Nat} (hs : d.silent 0x16 n = false) (h : d.is Eth.SFP_STAT_PRESENT n = true) :
    d.sfpRead n = d.emit (.idBus (8 + n) 96) := by
  rw [Dev.sfpRead, hs, h]
  rfl

theorem Dev.sfpRead_absent {d : Dev} {n : Nat} (h : d.is Eth.SFP_STAT_PRESENT n = false) : d.sfpRead n = d := by
  refine if_pos ?_
  rw [h, Bool.not_false, Bool.or_true]

/-- The port and its directory entry show the level of MOD_ABS. -/
def Dev.modSeen (d : Dev) (n : Nat) (present : Bool) : Dev :=
  ((d.wrb Eth.SFP_STAT_PRESENT n present).mdPresent (24 + n) present).evt 0x16 n Eth.E_ID_CHANGE

theorem Dev.modAbs_same {d : Dev} {n : Nat} {b : Bool} (h : d.silent 0x16 n = true ∨ d.is Eth.SFP_STAT_PRESENT n = b) :
    d.modAbs n b = d := by
  refine if_pos ?_
  rcases h with h | h
  · rw [h, Bool.true_or]
  · rw [h, beq_self_eq_true, Bool.or_true]

theorem Dev.modAbs_other {d : Dev} {n : Nat} {b : Bool} (hs : d.silent 0x16 n = false) (h : d.is Eth.SFP_STAT_PRESENT n = !b) :
    d.modAbs n b = if b then (d.modSeen n b).sfpRead n else d.modSeen n b := by
  refine if_neg ?_
  rw [hs, h]
  cases b <;> exact Bool.false_ne_true

theorem Dev.modSeen_shows (d : Dev) (p : Fin 2) (b : Bool) :
    (d.modSeen p b).is Eth.SFP_STAT_PRESENT p = b ∧ (d.modSeen p b).sent = d.sent ∧
      ((d.modSeen p b).rd (Hdr.EVT 0x16) p).testBit Eth.E_ID_CHANGE = true ∧ (d.modSeen p b).silent 0x16 p = d.silent 0x16 p := by
  have hisl : ∀ f : Fld, f.cls = 5 ∧ f.off < 4096 ∧ f.lo < 32 ∧ f.off ≠ 0x14 → (d.modSeen p b).rd f 0 = d.rd f 0 := by
    rintro f ⟨hc, ho, hl, he⟩
    have hp := p.2
    refine (Dev.rd_evt_off _ _ _ _ f (0 : Fin 1) ⟨ho, hl, he, by omega, by decide⟩).trans ?_
    refine (Dev.rd_mdPresent _ _ f (0 : Fin 1) (by omega) ⟨by omega, ho, hl, he, by omega, by decide⟩).trans ?_
    exact Dev.rd_wr_class _ _ _ _ _ _ ⟨by rw [hc]; decide, by decide, ho, by decide, hl⟩ (by omega) (by decide)
  refine ⟨?_, (Dev.evt_sent _ _ _ _).trans (Dev.mdPresent_sent _ _ _), Dev.evt_set _ _ _ _ (by decide),
    Dev.silent_congr (hisl _ (by decide)) (hisl _ (by decide))⟩
  rw [Dev.modSeen, Dev.is_evt_off _ _ _ _ _ p (by decide), Dev.is_congr (Dev.rd_mdPresent _ _ _ p (by omega) (by decide)),
    Dev.is_wrb _ _ _ _ rfl]

/-- What the port shows of a module's record. -/
def Dev.sfpShown (d : Dev) (n : Nat) (ok slow : Bool) (body : List Nat) : Dev :=
  ((((d.wrb Eth.SFP_STAT_ID_VALID n ok).wrb Eth.SFP_STAT_ID_BAD n (!ok)).wrb Eth.SFP_STAT_RATE_MISMATCH n slow).mdPost (24 + n) 3
    ok slow body).evt 0x16 n Eth.E_ID_DONE

theorem Dev.sfpDone_eq (d : Dev) (n : Nat) (r : List Nat) : ∃ ok slow body changed x, (r.length < 96 → ok = false) ∧
    d.sfpDone n r = ((d.sfpShown n ok slow body).when changed (fun d => d.evt 0x16 n Eth.E_ID_CHANGE)).setEth n x := by
  refine ⟨_, _, _, _, _, fun h => ?_, rfl⟩
  rw [decide_eq_false (Nat.not_le.2 h), Bool.false_and, Bool.false_and]

theorem Dev.sfpDone_shows (d : Dev) (p : Fin 2) (r : List Nat) :
    ((d.sfpDone p r).rd (Hdr.EVT 0x16) p).testBit Eth.E_ID_DONE = true ∧
      (r.length < 96 → (d.sfpDone p r).is Eth.SFP_STAT_ID_BAD p = true) := by
  obtain ⟨ok, slow, body, changed, x, hok, h⟩ := d.sfpDone_eq p r
  have hrd : ∀ (e : Dev) (f : Fld) (i : Nat), (e.setEth p x).rd f i = e.rd f i := fun _ _ _ => rfl
  have his : ∀ (e : Dev) (f : Fld) (i : Nat), (e.setEth p x).is f i = e.is f i := fun _ _ _ => rfl
  rw [h, hrd, his]
  refine ⟨?_, fun hr => ?_⟩
  · exact Dev.when_induct (fun e => (e.rd (Hdr.EVT 0x16) p).testBit Eth.E_ID_DONE = true) _ _ _
      (Dev.evt_set _ _ _ _ (by decide)) fun h => Dev.evt_keeps (by decide) h _
  · rw [Dev.when_keeps (fun e => e.is Eth.SFP_STAT_ID_BAD p) _ _ _ (Dev.is_evt_off _ _ _ _ _ p (by decide)), Dev.sfpShown,
      Dev.is_evt_off _ _ _ _ _ p (by decide), Dev.is_congr (Dev.rd_mdPost _ _ _ _ _ _ p (by omega) (by decide)),
      Dev.is_wrb_off _ _ _ _ _ (by decide), Dev.is_wrb _ _ _ _ rfl, hok hr, Bool.not_false]

theorem Dev.sfpDiag_shows (d : Dev) (p : Fin 2) (bs : List Nat) (los fault : Bool) :
    (d.sfpDiag p bs los fault).is Eth.SFP_STAT_LOS p = los ∧ (d.sfpDiag p bs los fault).is Eth.SFP_STAT_TX_FAULT p = fault := by
  have hpins : ((d.wrb Eth.SFP_STAT_LOS p los).wrb Eth.SFP_STAT_TX_FAULT p fault).is Eth.SFP_STAT_LOS p = los ∧
      ((d.wrb Eth.SFP_STAT_LOS p los).wrb Eth.SFP_STAT_TX_FAULT p fault).is Eth.SFP_STAT_TX_FAULT p = fault :=
    ⟨(Dev.is_wrb_off _ _ _ _ _ (by decide)).trans (Dev.is_wrb _ _ _ _ rfl), Dev.is_wrb _ _ _ _ rfl⟩
  unfold Dev.sfpDiag
  simp only
  split
  · exact hpins
  · rw [Dev.is_congr (Dev.rd_mdPost _ _ _ _ _ _ p (by omega) (by decide)),
      Dev.is_congr (Dev.rd_mdPost _ _ _ _ _ _ p (by omega) (by decide))]
    exact hpins

/-! ### The statement -/

/-- Settles O42, by the equations of frames, links and modules. -/
theorem ethernetPorts : Obligations.EthernetPorts := by
  unfold Obligations.EthernetPorts
  refine ⟨fun s r p => ?_, fun d p hoff hheld => ⟨fun hl h3 => ⟨fun f g t h => Dev.ethRx_bad hl h3 hoff hheld h t,
    fun f t h64 hmax hcrc hdbe had has => ⟨fun htake => ?_, fun htake hptp hvox => ?_⟩⟩, fun x f hq => ⟨Dev.ethSend_unsent f hq,
      fun hu h0 hm hdbe had has =>
      Dev.ethSend_sent f hq hu h0 hm (fun e he => by rw [he]; exact Dev.useBuf_clean hdbe had has) hoff hheld⟩⟩⟩
  · intro d h
    have next := fun {e f : Dev} (h : e = f) => State.next_of (s := s) h
    refine ⟨fun f g y => rfl, Dev.ethRx_deaf, fun desc f hnone => execEthTx_none desc f hnone, fun x hx desc f => ⟨fun hd => ?_,
      fun hd => ?_⟩, fun hr hl hu => (exec_ethLinkUp s p).trans (next (Dev.ethUp_up hr hl hu)),
      fun h => (exec_ethLinkUp s p).trans (next (Dev.ethUp_idle h)), fun hu => (exec_ethLinkDown s p).trans (next (if_pos hu)),
      fun hu => (exec_ethLinkDown s p).trans (next (if_neg (ne_true_of_eq_false hu))), fun hs bs los fault => ?_,
      fun hs => ⟨fun hp => (exec_modAbs s p).1.trans (next (Dev.modAbs_same (.inr hp))),
        fun hp => ⟨(exec_modAbs s p).2.trans (next (Dev.modAbs_same (.inr hp))), fun bs => ?_⟩, fun hp => ?_, fun hp => ?_,
        fun hp bs => ?_, fun bs los fault => ?_⟩, fun ht => ⟨fun hp => ?_, fun hp => ?_⟩⟩
    · rw [execEthTx_some desc f hx, if_neg hd]
    · rw [execEthTx_some desc f hx, if_pos hd]
    · simp only [List.forall_mem_cons]
      refine ⟨(exec_modAbs s p).1.trans (next (Dev.modAbs_same (.inl hs))), (exec_modAbs s p).2.trans (next (Dev.modAbs_same
        (.inl hs))),
        ?_, ?_, fun _ h => absurd h List.not_mem_nil⟩
      · rw [exec_sfpIdDone, hs, Bool.not_true, Bool.false_and, Dev.when_false]
      · rw [exec_sfpDiag, hs, Bool.not_true, Dev.when_false]
    · rw [exec_sfpIdDone, hp, Bool.and_false, Dev.when_false]
    · obtain ⟨hpres, hsent, hevt, hsil⟩ := s.dev.modSeen_shows p true
      refine ⟨_, (exec_modAbs s p).1, State.withDev_mem s _, ?_⟩
      rw [State.withDev_dev, Dev.modAbs_other (b := true) hs hp, if_pos rfl, Dev.sfpRead_present (hsil.trans hs) hpres]
      exact ⟨hpres, (Dev.emit_sent _ _).trans (congrArg (· ++ _) hsent), hevt⟩
    · obtain ⟨hpres, hsent, hevt, -⟩ := s.dev.modSeen_shows p false
      refine ⟨_, (exec_modAbs s p).2, State.withDev_mem s _, ?_⟩
      rw [State.withDev_dev, Dev.modAbs_other (b := false) hs hp, if_neg Bool.false_ne_true]
      exact ⟨hpres, hsent, hevt⟩
    · refine ⟨_, exec_sfpIdDone s p bs, State.withDev_mem s _, ?_⟩
      rw [hs, hp, Bool.not_false, Bool.and_true, Dev.when_true]
      exact s.dev.sfpDone_shows p bs
    · refine ⟨_, exec_sfpDiag s p bs los fault, State.withDev_mem s _, ?_⟩
      rw [hs, Bool.not_false, Dev.when_true]
      exact s.dev.sfpDiag_shows p bs los fault
    · obtain ⟨-, -, -, hans⟩ := (Dev.takes_iff _ _ _ _).1 ht
      have hs : s.dev.silent 0x16 p = false := by
        simp only [show aoHeld 0x16 0x40 = false from rfl, Bool.false_or, Dev.answers, Bool.and_eq_true, Bool.not_eq_true'] at hans
        exact hans.1.1
      rw [exec_sfpIdRead p ht, Dev.sfpRead_present hs hp]
    · rw [exec_sfpIdRead p ht, Dev.sfpRead_absent hp]
  · rw [Dev.ethRx_good hl h3 hoff hheld h64 hmax hcrc hdbe had has, Dev.ethFrame, htake]
    rfl
  · have heq : d.ethRx p f true t = d.ethDeliver p (f.take (f.length - 4)) t := by
      rw [Dev.ethRx_good hl h3 hoff hheld h64 hmax hcrc hdbe had has, Dev.ethFrame_plain t htake (Dev.ethLooped_of_live hl) hptp,
        Dev.ethOnward_other t hvox]
    exact ⟨heq, fun h => heq.trans (Dev.ethDeliver_closed (f.take (f.length - 4)) t h)⟩

end Sys2Proof.Machine
end

