-- ==== Sys2Proof/Proofs/LineConditioning.lean ====
section
/-!
PROOFS. The line conditioning units (R175, R283, R284, R288, R291, R293, R299, R304): what reading an item and waiting for the
history do; from these the statement O44.
-/

open Sys2Proof

namespace Sys2Proof.Machine

/-! ### Reading an item (R175, R304) -/

theorem Dev.lcuRead_off {d : Dev} {p : Nat} (h : d.lcuRuns p = false ∨ (d.lcu p).pend.isSome = true) : d.lcuRead p = d := by
  refine if_pos ?_
  rcases h with h | h
  · rw [h]; rfl
  · rw [h, Bool.or_true]

/-- The pointers of a port's queue have an injected parity error that acts. -/
def Dev.ptrBad (d : Dev) (p : Nat) : Prop := d.enabled 0x0B p = true ∧ d.armed 0x0B p Ingest.F_PTR_ERR = true

section
variable {d : Dev} {p : Nat} (hr : d.lcuRuns p = true) (hp : (d.lcu p).pend = none)
include hr hp

theorem Dev.lcuRead_bad (hbad : d.ptrBad p) {e : Dev} (he : e = ((d.disarm 0x0B p Ingest.F_PTR_ERR).flt 0x0B p
    Ingest.F_PTR_ERR).qFlush p) :
    d.lcuRead p = e.setQueue p { e.queue p with mark := (e.queue p).wr } := by
  obtain ⟨hen, harm⟩ := hbad
  simp only [Dev.lcuRead, hr, hp, hen, harm, he, Bool.not_true, Option.isSome_none, Bool.or_self, Bool.and_self,
    Bool.false_eq_true, if_false, if_true]

theorem Dev.lcuRead_none (hbad : ¬ d.ptrBad p) (hi : d.lcuItem p = none) :
    d.lcuRead p = (d.when (!d.is Port.STAT_LINK_UP p) (fun d => (d.frameClose p true true).1)).qIdle p := by
  have h : (d.enabled 0x0B p && d.armed 0x0B p Ingest.F_PTR_ERR) = false :=
    eq_false_of_ne_true fun h => hbad (Bool.and_eq_true_iff.1 h)
  simp only [Dev.lcuRead, hr, hp, h, hi, Bool.not_true, Option.isSome_none, Bool.or_self, Bool.false_eq_true, if_false]

theorem Dev.lcuRead_some (hbad : ¬ d.ptrBad p) {x : QItem} (hi : d.lcuItem p = some x) :
    d.lcuRead p = if x.done then d.lcuTake p x false else d := by
  have h : (d.enabled 0x0B p && d.armed 0x0B p Ingest.F_PTR_ERR) = false :=
    eq_false_of_ne_true fun h => hbad (Bool.and_eq_true_iff.1 h)
  simp only [Dev.lcuRead, hr, hp, h, hi, Bool.not_true, Option.isSome_none, Bool.or_self, Bool.false_eq_true, if_false]

end

/-! ### One item (R283, R284, R299) -/

theorem Dev.lcuTake_lost {d : Dev} {p : Nat} {x : QItem} (force : Bool) (h : (d.itemCheck p x).2 = none) :
    d.lcuTake p x force = (d.itemCheck p x).1 := by
  rw [Dev.lcuTake, h]

section
variable {d : Dev} {p : Nat} {x y : QItem} (force : Bool) (hc : (d.itemCheck p x).2 = some y)
include hc

theorem Dev.lcuTake_frame (hx : byteAt x.hdr 0 ≠ 1) : d.lcuTake p x force = (d.itemCheck p x).1.lcuFrame p y force := by
  simp only [Dev.lcuTake, hc]
  split
  · next h => exact absurd h (Option.some_ne_none _)
  · next hline _ => exact absurd hline hx
  · next hline _ => exact absurd hline hx
  · next h _ _ => rw [Option.some.inj h]

theorem Dev.lcuTake_reread (hx : byteAt x.hdr 0 = 1) {n : Nat} (hp : ((d.itemCheck p x).1.lcu p).pass = .reread n) :
    d.lcuTake p x force = ((d.itemCheck p x).1.passLine p y).lineDone p y := by
  simp only [Dev.lcuTake, hc, hx, hp]

theorem Dev.lcuTake_line (hx : byteAt x.hdr 0 = 1) (hp : ∀ n, ((d.itemCheck p x).1.lcu p).pass ≠ .reread n) {e : Dev}
    (he : e = (d.itemCheck p x).1.addWrap Lcu.LINES_IN p 1) :
    d.lcuTake p x force =
      if !e.lineOk p y then (e.fmtErr p).lineDone p y
      else if e.is Lcu.LCU_CFG_AREA p then e.lcuRow p y
      else e.lcuLine p y := by
  simp only [Dev.lcuTake, hc, hx, he]

end

/-- A line without a position is excluded (R293). -/
theorem Dev.lineUse_none {d : Dev} {p : Nat} {l : SLine} {c e g u : Dev} (hc : c = d.lookupCheck (d.scrCh p))
    (he : e = (c.setLcu p { c.lcu p with tail := none }).passMark p none)
    (hg : g = if l.inc = true ∧ e.is Lcu.LCU_CFG_INC_USE p = false then e.incSat Lcu.CNT_A_INC_DROP_CNT p else e)
    (hu : u = (g.incSat Lcu.CNT_A_NO_POS_CNT p).evt 0x0C p Lcu.E_NO_POS) :
    d.lineUse p l none = u.setLcu p { u.lcu p with excl := true } := by
  have hdrop : e.when (l.inc && !e.is Lcu.LCU_CFG_INC_USE p) (fun d => d.incSat Lcu.CNT_A_INC_DROP_CNT p) = g := by
    rw [hg]
    split
    · next h => rw [h.1, h.2]; rfl
    · next h =>
      refine Dev.when_of_eq_false (eq_false_of_ne_true fun hd => h ?_)
      simpa only [Bool.and_eq_true, Bool.not_eq_true'] using hd
  simp only [Dev.lineUse, ← hc, ← he, hdrop, ← hu]

/-! ### Waiting for the history (R293) -/

theorem Dev.lcuRetry_off {d : Dev} {p : Nat} (force : Bool) (h : d.lcuRuns p = false ∨ d.is Lcu.STAT_HIST_WAIT p = false) :
    d.lcuRetry p force = d := by
  refine if_pos ?_
  rcases h with h | h
  · rw [h]; rfl
  · rw [h, Bool.not_false, Bool.or_true]

section
variable {d : Dev} {p : Nat} (force : Bool) (hr : d.lcuRuns p = true) (hw : d.is Lcu.STAT_HIST_WAIT p = true)
include hr hw

theorem Dev.lcuRetry_gone (hi : d.lcuItem p = none) : d.lcuRetry p force = d := by
  simp only [Dev.lcuRetry, hr, hw, hi, Bool.not_true, Bool.or_self, Bool.false_eq_true, if_false]
  split
  · next h => exact absurd h.symm (Option.some_ne_none _)
  · next h => exact absurd h.symm (Option.some_ne_none _)
  · rfl

theorem Dev.lcuRetry_item {x : QItem} (hi : d.lcuItem p = some x) (hp : (d.lcu p).pend = none) :
    d.lcuRetry p force = d.lcuTake p x force := by
  simp only [Dev.lcuRetry, hr, hw, hi, hp, Bool.not_true, Bool.or_self, Bool.false_eq_true, if_false]

theorem Dev.lcuRetry_waits {x : QItem} {l : SLine} (hi : d.lcuItem p = some x) (hp : (d.lcu p).pend = some l)
    (hl : d.lineLookup p l.tc = none) : d.lcuRetry p false = d := by
  simp only [Dev.lcuRetry, hr, hw, hi, hp, hl, Bool.not_true, Bool.or_self, Bool.false_eq_true, if_false]

theorem Dev.lcuRetry_line {x : QItem} {l : SLine} (hi : d.lcuItem p = some x) (hp : (d.lcu p).pend = some l)
    (h : (d.lineLookup p l.tc).isSome = true ∨ force = true) :
    d.lcuRetry p force = (((d.setLcu p { d.lcu p with pend := none }).wr Lcu.STAT_HIST_WAIT p 0).lineUse p l
      ((d.lineLookup p l.tc).getD none)).lineDone p x := by
  cases hl : d.lineLookup p l.tc with
  | some pos => simp only [Dev.lcuRetry, hr, hw, hi, hp, hl, Bool.not_true, Bool.or_self, Bool.false_eq_true, if_false,
    Option.getD_some]
  | none =>
    have hf : force = true := h.resolve_left (by rw [hl]; exact Bool.false_ne_true)
    simp only [Dev.lcuRetry, hr, hw, hi, hp, hl, hf, Bool.not_true, Bool.or_self, Bool.false_eq_true, if_false, if_true,
      Option.getD_none]

end

/-! ### Commands (R288, R291) -/

theorem Dev.lcuCmd_bank (d : Dev) (p : Nat) :
    d.lcuCmd p 1 = if d.is Lcu.STAT_BANK_PENDING p then d.badAccess 0x0C p else d.wr Lcu.STAT_BANK_PENDING p 1 := by
  simp only [Dev.lcuCmd, show Nat.testBit 1 0 = true by decide, show Nat.testBit 1 1 = false by decide,
    show Nat.testBit 1 2 = false by decide, Dev.when_false, Dev.when_true]

theorem Dev.lcuCmd_mtx (d : Dev) (p : Nat) : d.lcuCmd p 2 = d.wr Lcu.STAT_MTX_PENDING p 1 := by
  simp only [Dev.lcuCmd, show Nat.testBit 2 0 = false by decide, show Nat.testBit 2 1 = true by decide,
    show Nat.testBit 2 2 = false by decide, Dev.when_false, Dev.when_true]

theorem exec_bankSwitch {s : State} {r : Req} (p : Fin 16) (ht : s.dev.takes r.num 0x0C p = true) :
    exec (.bankSwitch r p) s = .next (s.withDev (if s.dev.is Lcu.STAT_BANK_PENDING p then s.dev.badAccess 0x0C p
      else s.dev.wr Lcu.STAT_BANK_PENDING p 1)) := by
  rw [← Dev.lcuCmd_bank]
  exact State.upd_busW s _ _ _ _ ht

theorem exec_mtxCommit {s : State} {r : Req} (p : Fin 16) (ht : s.dev.takes r.num 0x0C p = true) :
    exec (.mtxCommit r p) s = .next (s.withDev (s.dev.wr Lcu.STAT_MTX_PENDING p 1)) := by
  rw [← Dev.lcuCmd_mtx]
  exact State.upd_busW s _ _ _ _ ht

/-! ### The statement -/

/-- Settles O44, by the equations of an item read, of a wait and of the commands. -/
theorem lineConditioning : Obligations.LineConditioning := by
  unfold Obligations.LineConditioning
  refine ⟨⟨fun s p => ⟨rfl, rfl⟩, fun d p => ?_⟩, fun s r p ht => ⟨fun h => ?_, fun h => ?_, exec_mtxCommit p ht⟩⟩
  · intro h bad
    refine ⟨Dev.lcuRead_off, fun hr hp hbad e he => Dev.lcuRead_bad hr hp hbad he, fun hr hp hbad => ⟨fun hi hu => ?_,
      fun hi hu => ?_,
      fun x hi => ⟨fun hd => ?_, fun hd => ?_⟩⟩, fun x force c hc => ⟨fun h2 => ?_, fun y hy => ⟨fun hx => ?_,
        fun hx => ⟨fun n hn => ?_,
      fun hn e he => ⟨?_, fun hok => ?_, fun hok ha => ?_, fun hok ha => ?_⟩⟩⟩⟩,
      fun l c hc e he g hg u hu => Dev.lineUse_none hc he hg hu, fun force => ⟨Dev.lcuRetry_off force, fun hr hw =>
        ⟨Dev.lcuRetry_gone force hr hw, fun x hi => ⟨Dev.lcuRetry_item force hr hw hi, fun l hp => ⟨fun hl hf => ?_,
          Dev.lcuRetry_line force hr hw hi hp⟩⟩⟩⟩⟩
    · rw [Dev.lcuRead_none hr hp hbad hi, hu, Bool.not_true, Dev.when_false]
    · rw [Dev.lcuRead_none hr hp hbad hi, hu, Bool.not_false, Dev.when_true]
    · rw [Dev.lcuRead_some hr hp hbad hi, hd, if_neg Bool.false_ne_true]
    · rw [Dev.lcuRead_some hr hp hbad hi, hd, if_pos rfl]
    · rw [hc] at h2 ⊢
      exact Dev.lcuTake_lost force h2
    · rw [hc] at hy ⊢
      exact Dev.lcuTake_frame force hy hx
    · rw [hc] at hy hn ⊢
      exact Dev.lcuTake_reread force hy hx hn
    · rw [he]
      exact Dev.rd_wr _ _ _ _ _
    · rw [hc] at hy hn he
      rw [Dev.lcuTake_line force hy hx hn he, hok, Bool.not_false, if_pos rfl]
    · rw [hc] at hy hn he
      rw [Dev.lcuTake_line force hy hx hn he, hok, ha, Bool.not_true, if_neg Bool.false_ne_true, if_pos rfl]
    · rw [hc] at hy hn he
      rw [Dev.lcuTake_line force hy hx hn he, hok, ha, Bool.not_true, if_neg Bool.false_ne_true, if_neg Bool.false_ne_true]
    · rw [hf]
      exact Dev.lcuRetry_waits hr hw hi hp hl
  · rw [exec_bankSwitch p ht, h, if_neg Bool.false_ne_true]
  · rw [exec_bankSwitch p ht, h, if_pos rfl]

end Sys2Proof.Machine
end

