-- ==== Sys2Proof/Proofs/IntakeLoads.lean ====
section
/-!
PROOFS. Intake posts and the records of a load (R309–R325, R394, R424–R427); from these the statement O45.
-/

open Sys2Proof

namespace Sys2Proof.Machine

/-! ### Posts (R424) -/

theorem Dev.intakePost_refused {d : Dev} {q val : Nat} (descs : List (List Nat))
    (h : pdiff val (d.queue (320 + q)).rel < pdiff (d.queue (320 + q)).wr (d.queue (320 + q)).rel ∨
      d.qSize (320 + q) < pdiff val (d.queue (320 + q)).rel) :
    d.intakePost q val descs = d.badAccess 0x1B (32 + q / 8) := if_pos h

/-- The descriptors that a post hands over. -/
def postedDescs (n : Nat) (descs : List (List Nat)) : List IDesc :=
  (List.range n).map (fun i =>
    ({ raw := (descs.getD i []).take 32, taken := false, fetched := 0, accepted := 0, consumed := 0, fail := 0 } : IDesc))

theorem Dev.intakePost_taken {d : Dev} {q val : Nat} (descs : List (List Nat))
    (hlo : pdiff (d.queue (320 + q)).wr (d.queue (320 + q)).rel ≤ pdiff val (d.queue (320 + q)).rel)
    (hhi : pdiff val (d.queue (320 + q)).rel ≤ d.qSize (320 + q)) (hctx : d.qCtx (320 + q) = (d, true)) :
    d.intakePost q val descs =
      (((d.setIqh q { d.iqh q with descs := (d.iqh q).descs ++ postedDescs (pdiff val (d.queue (320 + q)).wr) descs }).setQueue
        (320 + q) { d.queue (320 + q) with wr := val % 2 ^ 32 }).qSettle (320 + q)).iqGo q := by
  refine (if_neg (by omega)).trans ?_
  rw [hctx]
  rfl

/-! ### Segment descriptors (R311, R313–R315) -/

theorem Dev.riStage_off {d : Dev} (h : d.enabled 0x0E 0 = false) : d.riStage = (d, 0x10) := by
  rw [Dev.riStage, h]
  rfl

section
variable {m : FrameStore} {d : Dev} {q : Nat} {rec : List Nat} {x : IDesc}

theorem Dev.takeSeg_idle (h : d.headLoad q 0x50 128 = none) : d.takeSeg m q rec = d := by
  simp only [Dev.takeSeg, h]

theorem Dev.takeSeg_off (h : d.headLoad q 0x50 128 = some x) (he : d.enabled 0x0E 0 = false) :
    d.takeSeg m q rec = d.riRefuse q 0x10 := by
  simp only [Dev.takeSeg, h, Dev.riStage_off he]
  exact if_pos (by decide)

theorem Dev.takeSeg_eq (h : d.headLoad q 0x50 128 = some x) (hst : d.riStage = (d, 0)) (hl : x.consumed + 128 ≤ x.len) :
    d.takeSeg m q rec =
      if d.segStatus m q (rec.take 128) ≠ 0 then d.riRefuse q (d.segStatus m q (rec.take 128))
      else if 64 ≤ ((d.track (byteAt (rec.take 128) 2)).segs.filter (fun s => s.st.holds)).length then
        d.recordWaits q 1 Ri.RI_CNT_A_SEG_WAIT_CNT Ri.E_SEG_WAIT
      else (d.segDeclare (rec.take 128)).recordTaken q 128 1 0 := by
  simp only [Dev.takeSeg, h, hst, ne_eq, not_true_eq_false, if_false, if_neg (Nat.not_lt.2 hl)]

/-! ### Reference tiles (R317–R319) -/

theorem Dev.takeTile_idle (h : d.headLoad q 0x51 (64 + le rec 4 4) = none) : d.takeTile m q rec = d := by
  simp only [Dev.takeTile, h]

section
variable (h : d.headLoad q 0x51 (64 + le rec 4 4) = some x) (hst : d.riStage = (d, 0)) (hl : x.consumed + (64 + le rec 4 4) ≤ x.len)
include h hst hl

theorem Dev.takeTile_refused (h0 : d.tileStatus q rec ≠ 0) (h19 : d.tileStatus q rec ≠ 0x19) :
    d.takeTile m q rec = d.riRefuse q (d.tileStatus q rec) := by
  simp only [Dev.takeTile, h, hst, ne_eq, not_true_eq_false, if_false, if_neg (Nat.not_lt.2 hl), beq_eq_false_iff_ne.2 h19,
    Dev.when_false, h0, not_false_eq_true, if_true]

theorem Dev.takeTile_thoken (h19 : d.tileStatus q rec = 0x19) : d.takeTile m q rec =
    ((d.incSat Ri.RI_CNT_B_THOKEN_ERR_CNT 0).evt 0x0E 0 Ri.E_THOKEN_ERR).riRefuse q 0x19 := by
  simp only [Dev.takeTile, h, hst, ne_eq, not_true_eq_false, if_false, if_neg (Nat.not_lt.2 hl), h19, beq_self_eq_true,
    Dev.when_true]
  exact if_pos (by decide)

theorem Dev.takeTile_good (h0 : d.tileStatus q rec = 0) {p a : Nat} {g : Seg} (hp : (maskPorts (tileMask rec)).head? = some p)
    (ha : d.areaOf p = some a) (hg : d.liveSeg p (tileNum rec) = some g) :
    d.takeTile m q rec =
      if (d.area a).used + cdiv (64 + le rec 4 4) 256 * 256 ≤ d.areaBytes a then
        (d.tileEnter a g rec (cdiv (64 + le rec 4 4) 256 * 256)).recordTaken q (64 + le rec 4 4) 1 0
      else if (d.area a).tiles.all (fun t => t.seg == tileNum rec && t.mask == tileMask rec) then d.tileNoSpace m q rec
      else d.recordWaits q 2 Ri.RI_CNT_B_SPACE_WAIT_CNT Ri.E_SPACE_WAIT := by
  simp only [Dev.takeTile, h, hst, ne_eq, not_true_eq_false, if_false, if_neg (Nat.not_lt.2 hl), h0,
    show (0 == 0x19) = false from rfl, Dev.when_false, hp, ha, hg]

end

/-! ### Profiles (R323–R325) -/

theorem Dev.takeProfile_idle (h : d.headLoad q 0x52 (64 + le rec 4 4) = none) : d.takeProfile q rec = d := by
  simp only [Dev.takeProfile, h]

theorem Dev.takeProfile_eq (h : d.headLoad q 0x52 (64 + le rec 4 4) = some x) (hst : d.riStage = (d, 0))
    (hl : x.len = 64 + le rec 4 4) :
    d.takeProfile q rec =
      if d.profStatus q rec ≠ 0 then d.riRefuse q (d.profStatus q rec)
      else if (byteAt rec 1).testBit 0 then
        ((((d.profDrop (byteAt rec 2)).memWrite (d.profByte (byteAt rec 2)) (rec.take profBytes)).wr Ri.PROF_VALID 0
          (d.rd Ri.PROF_VALID 0 ||| 2 ^ byteAt rec 2)).evt 0x0E 0 Ri.E_PROFILE_LOADED).recordTaken q (64 + le rec 4 4) 1 0
      else ((d.profDrop (byteAt rec 2)).wr Ri.PROF_VALID 0
        (d.rd Ri.PROF_VALID 0 &&& (2 ^ 64 - 1 - 2 ^ byteAt rec 2))).recordTaken q (64 + le rec 4 4) 1 0 := by
  simp only [Dev.takeProfile, h, hst, ne_eq, not_true_eq_false, if_false, hl]

/-! ### Column Map loads (R394) -/

theorem Dev.takeColmap_idle (h : d.headLoad q 0x53 (16 + le rec 4 4) = none) : d.takeColmap q rec = d := by
  simp only [Dev.takeColmap, h]

/-- The entries of a Column Map load, stored one after the other. -/
def Dev.colmapStored (d : Dev) (rec : List Nat) : Dev :=
  (List.range (le rec 12 4)).foldl (fun (a : Dev) i => a.putTab 0x0F 63 Pl63.F_CM_SBE Pl63.F_CM_DBE 0x0F 63 0
    (32768 * byteAt rec 2 + le rec 8 4 + i) (bits (le rec (16 + 4 * i) 4) 0 23 + bitOf (le rec (16 + 4 * i) 4) 31 * 2 ^ 31)) d

theorem Dev.takeColmap_eq (h : d.headLoad q 0x53 (16 + le rec 4 4) = some x) (hst : d.riStage = (d, 0))
    (hf : ¬ (byteAt rec 0 ≠ 0x53 ∨ byteAt rec 1 ≠ 1 ∨ 16 ≤ byteAt rec 2 ∨ byteAt rec 3 ≠ 0 ∨ le rec 12 4 = 0 ∨
      32768 < le rec 8 4 + le rec 12 4)) (hl : ¬ (le rec 4 4 ≠ 4 * le rec 12 4 ∨ x.len ≠ 16 + le rec 4 4)) :
    d.takeColmap q rec =
      if d.resPart Claims.ACT_PORTS (byteAt rec 2) ≠ d.loadPart q then d.riRefuse q 0x12
      else (d.colmapStored rec).recordTaken q (16 + le rec 4 4) (le rec 12 4) 0 := by
  simp only [Dev.takeColmap, h, hst, if_neg hf, if_neg hl]
  exact if_neg (by decide)

/-! ### Compare-list loads (R427) -/

theorem Dev.takeClist_idle (h : d.headLoad q 0x54 (16 + le rec 4 4) = none) : d.takeClist q rec = d := by
  simp only [Dev.takeClist, h]

/-- The entries of a compare-list load, written one after the other, and how many were written. -/
def Dev.clistWritten (d : Dev) (q : Nat) (rec : List Nat) : Dev × Nat :=
  (List.range (le rec 12 4)).foldl (fun (a : Dev × Nat) i =>
    let w := a.1.entryWrite (a.1.loadPart q) (le rec 8 4 + i) (le rec (16 + 8 * i) 8)
    if w.2 = true then (w.1, a.2 + 1) else (a.1.deny, a.2)) (d, 0)

theorem Dev.takeClist_eq (h : d.headLoad q 0x54 (16 + le rec 4 4) = some x) :
    d.takeClist q rec =
      if byteAt rec 0 ≠ 0x54 ∨ byteAt rec 1 % 2 = 0 then d.loadFails q 0x20
      else if byteAt rec 1 ≠ 1 ∨ le rec 2 2 ≠ 0 then d.loadFails q 0x22
      else if le rec 12 4 = 0 ∨ 131072 < le rec 8 4 + le rec 12 4 ∨ le rec 4 4 ≠ 8 * le rec 12 4 ∨ x.len ≠ 16 + le rec 4 4 then
        d.loadFails q 0x24
      else (d.clistWritten q rec).1.recordTaken q (16 + le rec 4 4) (d.clistWritten q rec).2
        (if (d.clistWritten q rec).2 = le rec 12 4 then 0 else 0x23) := by
  simp only [Dev.takeClist, h]
  rfl

end

theorem Dev.entryWrite_some {d : Dev} {part i k : Nat} (v : Nat) (h : d.entryStream part i = some k) :
    d.entryWrite part i v = (d.putTab 0x13 k Cs.F_CL_SBE Cs.F_CL_DBE 0x13 0 0 i v, true) := by
  rw [Dev.entryWrite, h]

theorem Dev.entryWrite_none {d : Dev} {part i : Nat} (v : Nat) (h : d.entryStream part i = none) :
    d.entryWrite part i v = (d, false) := by
  rw [Dev.entryWrite, h]

/-! ### The statement -/

theorem exec_intakePtrPost {s : State} {r : Req} (q : Fin 64) (val : Word) (descs : List (List Nat))
    (ht : s.dev.takes r.num (qPage (320 + q)).1 (qPage (320 + q)).2 = true) :
    exec (.intakePtrPost r q val descs) s = .next (s.withDev (s.dev.intakePost q val.toNat descs)) :=
  State.upd_busW s _ _ _ _ ht

/-- Settles O45, by the equations of a post and of each kind of record. -/
theorem intakeLoads : Obligations.IntakeLoads := by
  unfold Obligations.IntakeLoads
  refine ⟨fun s r q val descs ht => ⟨exec_intakePtrPost q val descs ht, fun h => ?_, fun hlo hhi hctx new hnew => ?_⟩,
    fun s q rec => ⟨rfl, rfl, rfl, rfl, rfl⟩, fun m d q rec => ?_⟩
  · rw [exec_intakePtrPost q val descs ht, Dev.intakePost_refused descs h]
  · rw [exec_intakePtrPost q val descs ht, Dev.intakePost_taken descs hlo hhi hctx, hnew]
    rfl
  · intro r n
    refine ⟨Dev.takeSeg_idle, Dev.takeTile_idle, Dev.takeProfile_idle, Dev.takeColmap_idle, Dev.takeClist_idle,
      fun x hx => ⟨Dev.takeSeg_off hx, fun hst hl => ⟨fun h => ?_, fun h hfull => ?_, fun h hfull => ?_⟩⟩,
      fun x hx hst hl => ⟨Dev.takeTile_refused hx hst hl, Dev.takeTile_thoken hx hst hl, fun h0 p a g hp ha hg size hsize =>
        ⟨fun hfit => ?_, fun hfit hall => ?_, fun hfit hall => ?_⟩⟩,
      fun x hx hst hl => ⟨fun h => ?_, fun h hv => ?_, fun h hv => ?_⟩,
      fun x hx hst h0 h1 h2 h3 hc hlast hn hl => ⟨fun hp => ?_, fun hp => ?_⟩,
      fun x hx => ⟨fun h => ?_, fun h0 h1 h => ?_, fun h0 h1 h2 => ⟨fun h => ?_, fun hc hlast hn hl out hout => ?_⟩⟩,
      fun i v => ⟨fun k hk => Dev.entryWrite_some v hk, Dev.entryWrite_none v⟩⟩
    · rw [Dev.takeSeg_eq hx hst hl, if_pos h]
    · rw [Dev.takeSeg_eq hx hst hl, if_neg (not_not_intro h), if_pos hfull]
    · rw [Dev.takeSeg_eq hx hst hl, if_neg (not_not_intro h), if_neg (Nat.not_le.2 hfull)]
    · rw [Dev.takeTile_good hx hst hl h0 hp ha hg, ← hsize, if_pos hfit]
    · rw [Dev.takeTile_good hx hst hl h0 hp ha hg, ← hsize, if_neg (Nat.not_le.2 hfit), hall, if_neg Bool.false_ne_true]
    · rw [Dev.takeTile_good hx hst hl h0 hp ha hg, ← hsize, if_neg (Nat.not_le.2 hfit), hall, if_pos rfl]
    · rw [Dev.takeProfile_eq hx hst hl, if_pos h]
    · rw [Dev.takeProfile_eq hx hst hl, if_neg (not_not_intro h), if_pos hv]
    · rw [Dev.takeProfile_eq hx hst hl, if_neg (not_not_intro h), if_neg (ne_true_of_eq_false hv)]
    · rw [Dev.takeColmap_eq hx hst (by omega) (by omega), if_pos hp]
    · rw [Dev.takeColmap_eq hx hst (by omega) (by omega), if_neg (not_not_intro hp)]
      rfl
    · rw [Dev.takeClist_eq hx, if_pos h]
    · rw [Dev.takeClist_eq hx, if_neg (by omega), if_pos h]
    · rw [Dev.takeClist_eq hx, if_neg (by omega), if_neg (by omega), if_pos h]
    · rw [Dev.takeClist_eq hx, if_neg (by omega), if_neg (by omega), if_neg (by omega), hout]
      rfl

end Sys2Proof.Machine
end

