-- ==== Sys2Proof/Proofs/Segments.lean ====
section
/-!
PROOFS. Segments open, end and receive verdicts (R376–R383, R398–R403); from these the statements O46, O48 and O49.
-/

open Sys2Proof

namespace Sys2Proof.Machine

@[simp] theorem Dev.track_setTrack (d : Dev) (p : Nat) (x : TrackH) : (d.setTrack p x).track p = x := mget_mset_self _ _ _ _

/-! ### Opening (R376, R382) -/

theorem Dev.segOpen_none {m : FrameStore} {d : Dev} {p : Nat} (h : (d.track p).segs.find? (fun x => x.st == .declared) = none) :
    d.segOpen m p = d := by
  simp only [Dev.segOpen, h]

/-- The port's oldest declared segment has to wait. -/
def Dev.segStays (d : Dev) (p : Nat) (x : Seg) : Prop :=
  (d.track p).segs.any (fun x => x.running && x.wasOpen && !x.produced) = true ∨ d.lcuRuns p = false ∨ x.fixed = false ∨
    x.timed = true ∧ x.started = false

theorem Dev.segStays_iff {d : Dev} {p : Nat} {x : Seg} :
    ((d.track p).segs.any (fun s => s.running && s.wasOpen && !s.produced) || !d.lcuRuns p || !x.fixed || (x.timed && !x.started)) =
      true ↔ d.segStays p x := by
  simp only [Dev.segStays, Bool.or_eq_true, Bool.and_eq_true, Bool.not_eq_true', or_assoc]

/-- The segment open in production, before its engine starts. -/
def Dev.segOpened (d : Dev) (p : Nat) (x : Seg) : Dev :=
  d.modSeg p x.num (fun z => { z with
    wasOpen := true, openEpoch := d.posEpoch x.ch, openAt := d.nowL, gS := z.s, gE := z.e, rows := (d.gridBad p x).2 })

/-- The segment at the engine that starts on it. -/
def Dev.segAt (p : Nat) (x : Seg) (e : Nat) (y : Dev × EngSeg × Option Nat) : Dev :=
  y.1.modSeg p x.num (fun z => { z with engine := some e, eng := some y.2.1 })

/-- The segment produced by the line conditioning unit from now on. -/
def Dev.segProduced (b d : Dev) (p : Nat) (x : Seg) : Dev :=
  ((b.modSeg p x.num (fun z => { z with st := .opened })).noteEnd p x).lcuOpen p x.num x.pageId x.s (d.gridBad p x).2
    (d.posEpoch x.ch)

section
variable {m : FrameStore} {d : Dev} {p : Nat} {x : Seg} (h : (d.track p).segs.find? (fun x => x.st == .declared) = some x)
include h

theorem Dev.segOpen_stays (hs : d.segStays p x) : d.segOpen m p = d := by
  simp only [Dev.segOpen, h, if_pos (Dev.segStays_iff.2 hs)]

theorem Dev.segOpen_unserved (hs : ¬ d.segStays p x) (he : (d.segOpened p x).serveOf p = none) :
    d.segOpen m p = (d.segOpened p x).cutSeg m p x.num (if (d.gridBad p x).1 then 0x0B else 0x0F) := by
  unfold Dev.segOpened at he ⊢
  simp only [Dev.segOpen, h, if_neg fun hg => hs (Dev.segStays_iff.1 hg), he]

theorem Dev.segOpen_served (hs : ¬ d.segStays p x) {e : Nat} (he : (d.segOpened p x).serveOf p = some e)
    {y : Dev × EngSeg × Option Nat} (hy : y = (d.segOpened p x).engStart m e p x (d.gridBad p x).2) :
    d.segOpen m p = match y.2.2 <|> (if (d.gridBad p x).1 then some 0x0B else none) with
      | some r => (Dev.segAt p x e y).cutSeg m p x.num r
      | none => ((((Dev.segAt p x e y).segProduced d p x).when
          (y.2.1.cfg.reread != 0 && y.2.1.fids.any (fun f => fidLine f.2))
          (fun c => c.passAsk p x.num y.2.1.cfg.reread)).screedTail p).showSegs p := by
  subst hy
  unfold Dev.segOpened at he ⊢
  simp only [Dev.segOpen, h, if_neg fun hg => hs (Dev.segStays_iff.1 hg), he]
  rfl

end

/-! ### Ending (R377) -/

theorem Dev.segEndDue_eq (d : Dev) (p : Nat) {f : Seg → Bool}
    (hf : f = fun x : Seg => (x.st == .opened || (x.st == .declared && x.fixed && !x.timed)) && d.segReached x x.e) :
    d.segEndDue p = match (d.track p).segs.find? f with
      | some x => d.segEnd p x.num
      | none => d := by
  rw [hf]
  rfl

@[simp] theorem Dev.showSegs_tracks (d : Dev) (p : Nat) : (d.showSegs p).tracks = d.tracks := by
  exact foldl_keeps Dev.tracks _ _ (fun _ _ _ => by dsimp only; exact ite_keeps Dev.tracks rfl rfl) _

/-- The end of a segment, as the tracker keeps it. -/
def Dev.segClosed (d : Dev) (p : Nat) (s : Seg) : Seg :=
  let s := { s with
    st := .closing, endAt := some d.nowL, streak := d.is Pl.STAT_STREAK_ACTIVE (s.engine.getD ((d.serveOf p).getD p)) }
  if s.wasOpen then s else { s with gE := s.e, openEpoch := d.posEpoch s.ch }

theorem Dev.segClosed_shows (d : Dev) (p : Nat) (x : Seg) :
    (d.segClosed p x).num = x.num ∧ (d.segClosed p x).st = .closing ∧ (d.segClosed p x).endAt = some d.nowL ∧
      (d.segClosed p x).streak = d.is Pl.STAT_STREAK_ACTIVE (x.engine.getD ((d.serveOf p).getD p)) ∧
      (x.wasOpen = true → (d.segClosed p x).gE = x.gE) ∧ (x.wasOpen = false → (d.segClosed p x).gE = x.e) := by
  cases h : x.wasOpen <;> simp [Dev.segClosed, h]

theorem Dev.segs_modSeg (d : Dev) (p n : Nat) (f : Seg → Seg) :
    ((d.modSeg p n f).track p).segs = (d.track p).segs.map (fun s => if s.num = n then f s else s) := by
  simp [Dev.modSeg]

theorem Dev.segs_noteEnd (d : Dev) (p : Nat) (x : Seg) : ((d.noteEnd p x).track p).segs = (d.track p).segs :=
  Dev.when_keeps (fun e => (e.track p).segs) d _ _ (by simp)

theorem Dev.segs_segEnd (d : Dev) (p n : Nat) :
    ((d.segEnd p n).track p).segs = (d.track p).segs.map (fun s => if s.num = n then d.segClosed p s else s) := by
  unfold Dev.segEnd
  simp only [Dev.track, Dev.showSegs_tracks]
  refine (Dev.segs_modSeg _ p n _).trans ?_
  congr 1
  split
  · exact Dev.when_keeps (fun e => (e.track p).segs) d _ _ (Dev.segs_noteEnd d p _)
  · rfl

theorem Dev.mem_segEnd {d : Dev} {p n : Nat} {y : Seg} (h : y ∈ ((d.segEnd p n).track p).segs) (hn : y.num = n) :
    ∃ x ∈ (d.track p).segs, x.num = n ∧ y = d.segClosed p x := by
  rw [Dev.segs_segEnd, List.mem_map] at h
  obtain ⟨x, hx, rfl⟩ := h
  have hxn : x.num = n := Decidable.byContradiction fun hne => hne ((congrArg Seg.num (if_neg hne)).symm.trans hn)
  exact ⟨x, hx, hxn, if_pos hxn⟩

theorem Dev.reread_iff {v : Nat} {c : Bool} : (v != 0 && c) = true ↔ v ≠ 0 ∧ c = true := by
  rw [Bool.and_eq_true, bne_iff_ne]

/-- Settles O46: one equation for an opening and one for an end that is due; the closing segment is read off the tracker's list. -/
theorem segmentOpensAndEnds : Obligations.SegmentOpensAndEnds := by
  unfold Obligations.SegmentOpensAndEnds
  refine ⟨fun s p => ⟨rfl, rfl⟩, fun m d p => ⟨Dev.segOpen_none, fun x hx => ⟨Dev.segOpen_stays hx, ?_⟩, ?_, ?_⟩⟩
  · rintro hs a rfl
    refine ⟨Dev.segOpen_unserved hx hs, fun e he y hy b hb => ?_⟩
    have hgo := Dev.segOpen_served hx hs he hy
    change b = Dev.segAt p x e y at hb
    rw [← hb] at hgo
    refine ⟨fun r hr => by rwa [hr] at hgo, fun hr hg => by rwa [hr, hg] at hgo, fun hr hg => ?_⟩
    rw [hr, hg] at hgo
    rintro c rfl
    exact ⟨fun hp => hgo.trans (by rw [Dev.when_of_eq_false (Bool.eq_false_iff.2 fun h => hp (Dev.reread_iff.1 h))]; rfl),
      fun hp => hgo.trans (by rw [Dev.when_of_eq_true (Dev.reread_iff.2 hp)]; rfl)⟩
  · rintro f hf
    exact ⟨fun h => by rw [Dev.segEndDue_eq d p hf, h], fun x h => by rw [Dev.segEndDue_eq d p hf, h]⟩
  · intro n y hy hn
    obtain ⟨x, hx, hxn, rfl⟩ := Dev.mem_segEnd hy hn
    obtain ⟨-, hst, hend, hstreak, hopen, hnot⟩ := d.segClosed_shows p x
    exact ⟨hst, hend, x, hx, hxn, hstreak, hopen, hnot⟩

/-! ### Verdicts, deadlines and stalls (R378–R383) -/

theorem Dev.deadline_at {m : FrameStore} {d : Dev} {p : Nat} {x : Seg} (h : (d.track p).segs.find? d.pastDeadline = some x)
    {b : Dev} (hb : b = (((d.track p).segs.takeWhile (fun y => y.num != x.num)).filter (fun y => y.st.live)).foldl
      (fun (a : Dev) y => if y.done then a.complete m p y
        else ((a.cutSeg m p y.num 3).incSat Ce.CE_CNT_C_ORDER_CUT_CNT (y.page p)).evt 0x0D (y.page p) Ce.E_ORDER_CUT) d) :
    d.deadline m p =
      if x.st != SegState.closing then b
      else if x.done then b.complete m p x
      else if !x.wasOpen then b.cutSeg m p x.num 0x12
      else ((b.cutSeg m p x.num (if (x.eng.map (fun g => g.waitRef && !b.refReady p x (refNeed x g))).getD false then 2
        else 1)).incSat Ce.CE_CNT_C_DEADLINE_CNT (x.page p)).evt 0x0D (x.page p) Ce.E_DEADLINE := by
  have hlate : (x.eng.map (fun g => g.waitRef && !b.refReady p x (refNeed x g))).getD false = match x.eng with
      | some g => g.waitRef && !b.refReady p x (refNeed x g)
      | none => false := by cases x.eng <;> rfl
  rw [hlate]
  simp only [Dev.deadline, h, hb] <;> rfl

theorem Dev.pastDeadline_none (d : Dev) {x : Seg} (h : x.endAt = none) : d.pastDeadline x = false := by
  simp only [Dev.pastDeadline, h]

theorem Dev.pastDeadline_time (d : Dev) {x : Seg} {t : Nat} (h : x.endAt = some t)
    (ht : t + (if le x.desc 40 4 = 0 then 250000 else le x.desc 40 4) * 1000 * nsL ≤ d.nowL) : d.pastDeadline x = true := by
  simp only [Dev.pastDeadline, h, decide_eq_true ht, Bool.true_or]

/-- STALL_TIME is over for an open segment. -/
def Dev.isStalled (d : Dev) (x : Seg) : Bool :=
  x.st == .opened && (x.eng.map (fun g => g.cfg.stall != 0 && decide (x.openAt + g.cfg.stall * 1000000 * nsL ≤ d.nowL))).getD false

theorem Dev.stalled_eq (m : FrameStore) (d : Dev) (p : Nat) :
    d.stalled m p = match (d.track p).segs.find? d.isStalled with
      | some x => (d.cutSeg m p x.num 4).evt 0x0D (x.page p) Ce.E_STALLED
      | none => d := by
  have hf : d.isStalled = fun s : Seg => s.st == .opened && match s.eng with
      | some g => g.cfg.stall != 0 && decide (s.openAt + g.cfg.stall * 1000000 * nsL ≤ d.nowL)
      | none => false := by
    funext x
    unfold Dev.isStalled
    cases x.eng <;> rfl
  rw [hf]
  rfl

theorem Dev.failMask_unchecked (d : Dev) (p : Nat) {x : Seg} (h0 : x.check 0 = false) (h1 : x.check 1 = false)
    (h2 : x.check 2 = false) (h3 : x.check 3 = false) : d.failMask p x = 0 := by
  simp only [Dev.failMask, h0, h1, h2, h3, Bool.false_and, b2n]
  cases x.eng <;> rfl

section
variable {d : Dev} {p : Nat} {x : Seg} {g : EngSeg} (hx : x.eng = some g)
include hx

theorem Dev.judge_rows (h : g.cfg.niMax < g.niRows) : d.judge p x = (2, 5) := by
  simp only [Dev.judge, hx, if_pos h]

theorem Dev.judge_checked (h : g.niRows ≤ g.cfg.niMax) :
    d.judge p x =
      if x.check 3 && g.patches.any (fun t => !t.measured (d.lcuWidth p) x.rows) then (2, 0x10)
      else if x.check 2 && !g.kflags.testBit 4 then (2, 0x11)
      else if d.failMask p x = 0 then (0, 0) else (1, 0) := by
  simp only [Dev.judge, hx, if_neg (Nat.not_lt.2 h), ne_eq, ite_not]

end

/-- Settles O48: the walk of each of the three commands to the segment it names, and the verdict's rules in their order. -/
theorem segmentVerdicts : Obligations.SegmentVerdicts := by
  unfold Obligations.SegmentVerdicts
  refine ⟨fun s p => ⟨rfl, rfl, rfl⟩, fun m d p => ⟨fun h => ?_, fun x h => ?_, fun h => ?_, fun x h b hb => ?_, fun x => ?_,
    fun f hf => ?_⟩, fun d p x g hg => ⟨Dev.judge_rows hg, fun hn h3 ha => ?_, fun hn h3 h2 hk => ?_, fun hn h3 h2 => ?_,
      d.failMask_unchecked p⟩⟩
  · simp only [Dev.workComplete, h]
  · simp only [Dev.workComplete, h]
    rfl
  · simp only [Dev.deadline, h]
  · have hat := Dev.deadline_at h hb
    refine ⟨fun hs => ?_, fun hs hd => ?_, fun hs hd ho => ?_, fun hs hd ho n hn => ?_⟩
    · rw [hat, if_pos (bne_iff_ne.2 hs)]
    · rw [hat, hs, hd]
      rfl
    · rw [hat, hs, hd, ho]
      rfl
    · rw [hat, hs, hd, ho, hn]
      rfl
  · exact ⟨d.pastDeadline_none, fun t => d.pastDeadline_time⟩
  · obtain rfl : f = d.isStalled := hf
    rw [Dev.stalled_eq]
    exact ⟨fun h => by rw [h], fun x h => by rw [h]⟩
  · rw [Dev.judge_checked hg hn, h3, ha]
    rfl
  · rw [Dev.judge_checked hg hn, h3, h2, hk]
    rfl
  · rw [Dev.judge_checked hg hn, h3, h2]
    rfl

/-! ### The spare engine (R398, R399) -/

theorem exec_takeover {s : State} {r : Req} {e : Fin 17} (ht : s.dev.takes r.num 0x0D e = true) :
    exec (.takeover r e) s = .next (s.landed (s.dev.takeover s.mem e)) := by
  refine (State.updR_busW s _ _ _ (fun m d => d.ceCmd m e 1) ht).trans ?_
  simp only [Dev.ceCmd, show Nat.testBit 1 2 = false by decide, show Nat.testBit 1 1 = false by decide,
    show Nat.testBit 1 0 = true by decide, Bool.false_and, Dev.when_false, Dev.when_true]

theorem exec_giveBack {s : State} {r : Req} (ht : s.dev.takes r.num 0x0D 16 = true) :
    exec (.giveBack r) s = .next (s.landed s.dev.cmdGiveBack) := by
  refine (State.updR_busW s _ _ _ (fun m d => d.ceCmd m 16 2) ht).trans ?_
  simp only [Dev.ceCmd, show Nat.testBit 2 2 = false by decide, show Nat.testBit 2 1 = true by decide,
    show Nat.testBit 2 0 = false by decide, beq_self_eq_true, Bool.and_self, Dev.when_false, Dev.when_true]

theorem Dev.takeover_spare (m : FrameStore) (d : Dev) {e : Nat} (h : e = 16) : d.takeover m e = d := if_pos h

theorem Dev.takeover_engine (m : FrameStore) (d : Dev) {e : Nat} (h : e ≠ 16) :
    d.takeover m e = (d.flt 0x0D e Ce.F_ENGINE_FAIL).engFailed m e := if_neg h

section
variable {m : FrameStore} {d : Dev} {e : Nat} (he : e ≠ 16)
include he

theorem Dev.engFailed_again (h : d.is Ce.STAT_FAILED e = true) : d.engFailed m e = d := by
  rw [Dev.engFailed, if_neg he, if_pos h]

theorem Dev.engFailed_alone (h : d.is Ce.STAT_FAILED e = false)
    (hs : (d.wr Ce.STAT_FAILED e 1).engineOk 16 = false ∨ d.is Ce.SPARE_STAT_SERVING 16 = true) :
    d.engFailed m e = (d.wr Ce.STAT_FAILED e 1).flt 0x0D e Ce.F_NO_SPARE := by
  have hserv : (d.wr Ce.STAT_FAILED e 1).is Ce.SPARE_STAT_SERVING 16 = d.is Ce.SPARE_STAT_SERVING 16 :=
    Dev.is_congr (Dev.rd_wr_spot _ _ _ _ _ _ (by decide))
  rw [Dev.engFailed, if_neg he, if_neg (Bool.eq_false_iff.1 h)]
  refine if_neg ?_
  rw [hserv]
  rcases hs with hs | hs <;> simp [hs]

/-- A takeover that the spare serves ends with the served engine noted, its pages' faults and its segments shown. -/
theorem Dev.engFailed_served (h : d.is Ce.STAT_FAILED e = false) (hok : (d.wr Ce.STAT_FAILED e 1).engineOk 16 = true)
    (hs : d.is Ce.SPARE_STAT_SERVING 16 = false) :
    ∃ (c : Dev) (x : HealthRec), d.engFailed m e =
      (((({ (c.wr Ce.SPARE_STAT_SERVED_ENGINE 16 e).wr Ce.SPARE_STAT_SERVING 16 1 with health := x } : Dev).flt 0x0D 16
        Ce.F_SPARE_IN_USE).evt 0x0D 16 Ce.E_TAKEOVER).showSegs e) := by
  have hserv : (d.wr Ce.STAT_FAILED e 1).is Ce.SPARE_STAT_SERVING 16 = d.is Ce.SPARE_STAT_SERVING 16 :=
    Dev.is_congr (Dev.rd_wr_spot _ _ _ _ _ _ (by decide))
  rw [Dev.engFailed, if_neg he, if_neg (Bool.eq_false_iff.1 h)]
  refine ⟨_, _, if_pos ?_⟩
  rw [hserv, hs, hok]
  rfl

end

/-- A field of SPARE_STAT is not among those that follow the segments. -/
theorem Dev.rd_showSegs_spare (d : Dev) {p : Nat} (hp : p < 17) {f : Fld}
    (hf : f.cls = 0x0D ∧ f.off = 0x124 ∧ f.lo < 32) : (d.showSegs p).rd f 16 = d.rd f 16 := by
  obtain ⟨hc, ho, hl⟩ := hf
  have hspot : ∀ (d : Dev) (g : Fld) (i v : Nat), (g.off < 0x124 ∧ g.lo < 32) → (d.wr g i v).rd f 16 = d.rd f 16 :=
    fun d g i v hg => Dev.rd_wr_spot _ _ _ _ _ _ (by omega)
  unfold Dev.showSegs
  refine (foldl_keeps (fun d => d.rd f 16) _ _ (fun d e _ => ?_) _).trans ?_
  · dsimp only
    refine ite_keeps (fun d => d.rd f 16) rfl ?_
    rw [Dev.wrb, hspot _ _ _ _ (by decide), hspot _ _ _ _ (by decide), hspot _ _ _ _ (by decide)]
  · dsimp only
    refine (Dev.rd_wr_ne _ _ _ _ _ _ _ _ ?_).trans (hspot _ _ _ _ (by decide))
    simp only [Fld.key, hc, ho, Ri.SEG_STAT_IN_FLIGHT]
    omega

theorem Dev.served_shows (c : Dev) (x : HealthRec) (e : Fin 17) (he : e.val ≠ 16) {t : Dev}
    (ht : t = ((({ (c.wr Ce.SPARE_STAT_SERVED_ENGINE 16 e).wr Ce.SPARE_STAT_SERVING 16 1 with health := x } : Dev).flt 0x0D 16
      Ce.F_SPARE_IN_USE).evt 0x0D 16 Ce.E_TAKEOVER).showSegs e) :
    t.is Ce.SPARE_STAT_SERVING 16 = true ∧ t.rd Ce.SPARE_STAT_SERVED_ENGINE 16 = e := by
  have hk : ∀ f : Fld, f.cls = 0x0D ∧ f.off = 0x124 ∧ f.lo < 32 →
      t.rd f 16 = ((c.wr Ce.SPARE_STAT_SERVED_ENGINE 16 e).wr Ce.SPARE_STAT_SERVING 16 1).rd f 16 := by
    rintro f hf
    rw [ht, Dev.rd_showSegs_spare _ e.isLt hf]
    exact (Dev.rd_evt_off _ _ _ _ f (16 : Fin 17) (by omega)).trans
      ((Dev.rd_flt_off _ _ _ _ f (16 : Fin 17) (by omega)).trans (Dev.rd_of_regs rfl _ _ _))
  refine ⟨(Dev.is_congr (hk _ (by decide))).trans ?_, (hk _ (by decide)).trans ?_⟩
  · rw [Dev.is, Dev.rd_wr]
    rfl
  · rw [Dev.rd_wr_off _ _ _ _ _ (by decide), Dev.rd_wr]
    exact Nat.mod_eq_of_lt (show e.val < 16 by omega)

theorem Dev.giveBack_refused {d : Dev} {k flt : Nat} (hk : k = d.rd Ce.SPARE_STAT_SERVED_ENGINE 16)
    (hf : flt = d.rd (Hdr.FLT 0x0D) k)
    (h : d.is Ce.SPARE_STAT_SERVING 16 = false ∨ flt.testBit Ce.F_ENGINE_FAIL = true ∨ flt.testBit Ce.F_HS_WDOG = true ∨
      d.enabled 0x0D k = false) : d.cmdGiveBack = d.badAccess 0x0D 16 := by
  subst hk hf
  refine if_neg ?_
  rcases h with h | h | h | h <;> simp [h]

theorem Dev.giveBack_taken {d : Dev} {k flt : Nat} (hk : k = d.rd Ce.SPARE_STAT_SERVED_ENGINE 16)
    (hf : flt = d.rd (Hdr.FLT 0x0D) k) (hs : d.is Ce.SPARE_STAT_SERVING 16 = true) (he : flt.testBit Ce.F_ENGINE_FAIL = false)
    (hw : flt.testBit Ce.F_HS_WDOG = false) (hen : d.enabled 0x0D k = true) :
    d.cmdGiveBack = ((d.setCe 16 { d.ce 16 with giveBack := true }).wr Ce.STAT_FAILED k 0).spareCheck k := by
  subst hk hf
  exact if_pos (by simp [hs, he, hw, hen])

/-! ### The Plumb-line accumulators (R391, R402, R403) -/

@[simp] theorem Dev.ce_setCe (d : Dev) (e : Nat) (x : CeH) : (d.setCe e x).ce e = x := mget_mset_self _ _ _ _

theorem exec_clearAcc {s : State} {r : Req} {e : Fin 17} (ht : s.dev.takes r.num 0x0F e = true) :
    exec (.clearAcc r e) s = .next (s.withDev (s.dev.setCe e ((s.dev.ce e).plClear (s.dev.ce e).bank))) := by
  refine (State.upd_busW s _ _ _ _ ht).trans ?_
  simp only [Dev.plCmd, show Nat.testBit 1 1 = false by decide, show Nat.testBit 1 0 = true by decide, Dev.when_false,
    Dev.when_true]

theorem mget_filter_neg {α : Type} (m : KMap α) (p : Nat → Bool) {k : Nat} (v : α) (h : p k = false) :
    mget (m.filter (fun e => p e.1)) k v = v := by
  have hnone : mfind (m.filter (fun e => p e.1)) k = none := mfind_eq_none fun x hx hk => by
    rw [List.mem_filter, hk, h] at hx
    exact Bool.noConfusion hx.2
  rw [mget, hnone]

theorem plKey_bank {b ink x : Nat} (hi : ink < 8) (hx : x < 32768) : plKey b ink x / (8 * 32768) = b := by
  unfold plKey
  omega

theorem CeH.plClear_empty (h : CeH) (b : Nat) {ink x : Nat} (hi : ink < 8) (hx : x < 32768) :
    (h.plClear b).plN? b ink x = 0 ∧ (h.plClear b).plD? b ink x = 0 := by
  have hother : (plKey b ink x / (8 * 32768) != b) = false := by
    rw [plKey_bank hi hx]
    exact bne_self_eq_false b
  exact ⟨mget_filter_neg _ (fun k => k / (8 * 32768) != b) _ hother, mget_filter_neg _ (fun k => k / (8 * 32768) != b) _ hother⟩

theorem Dev.plDone_idle {d : Dev} {e : Nat} (h : (d.ce e).evalBank = none) : d.plDone e = d := by
  simp only [Dev.plDone, h]

/-- The last steps of an evaluation that ends. -/
theorem Dev.plDone_at {d : Dev} {e b : Nat} (h : (d.ce e).evalBank = some b) :
    ∃ (c : Dev) (t a : Bool) (n : Nat), d.plDone e =
      (((((c.wr Pl.STAT_EVALUATING e 0).setCe e { ((c.wr Pl.STAT_EVALUATING e 0).ce e).plClear b with evalBank := none }).when t
        (fun d => (d.addSat Pl.PL_CNT_PL_TRUNC_CNT e n).evt 0x0F e Pl.E_TRUNC)).when a
        (fun d => d.evt 0x0F e Pl.E_STREAK)).evt 0x0F e Pl.E_CYCLE_DONE) := by
  unfold Dev.plDone
  rw [h]
  exact ⟨_, _, _, _, rfl⟩

theorem Dev.plDone_shows {d : Dev} (e : Fin 17) {b : Nat} (h : (d.ce e).evalBank = some b) :
    ((d.plDone e).ce e).evalBank = none ∧ (d.plDone e).rd Pl.STAT_EVALUATING e = 0 ∧
      ((d.plDone e).rd (Hdr.EVT 0x0F) e).testBit Pl.E_CYCLE_DONE = true := by
  obtain ⟨c, t, a, n, hd⟩ := Dev.plDone_at h
  rw [hd]
  refine ⟨?_, ?_, Dev.evt_set _ _ _ _ (by decide)⟩
  · have hev : ∀ (d : Dev) (k : Nat), ((d.evt 0x0F e k).ce e).evalBank = (d.ce e).evalBank := fun d k => by
      simp only [Dev.ce, Dev.evt_ces]
    rw [hev, Dev.when_keeps (fun d => (d.ce e).evalBank) _ _ _ (hev _ _),
      Dev.when_keeps (fun d => (d.ce e).evalBank) _ _ _ ((hev _ _).trans rfl), Dev.ce_setCe]
  · have hev : ∀ (d : Dev) (k : Nat), (d.evt 0x0F e k).rd Pl.STAT_EVALUATING e = d.rd Pl.STAT_EVALUATING e :=
      fun d k => Dev.rd_evt_off _ _ _ _ _ e (by decide)
    rw [hev, Dev.when_keeps (fun d => d.rd Pl.STAT_EVALUATING e) _ _ _ (hev _ _),
      Dev.when_keeps (fun d => d.rd Pl.STAT_EVALUATING e) _ _ _
        ((hev _ _).trans (Dev.rd_wr_off _ Pl.PL_CNT_PL_TRUNC_CNT _ _ _ (by decide)))]
    exact (show _ = (c.wr Pl.STAT_EVALUATING e 0).rd Pl.STAT_EVALUATING e from rfl).trans (Dev.rd_wr _ _ _ _ _)

/-- Settles O49: the spare serves where nothing forbids it, and an evaluation's last steps end it. -/
theorem spareAndStreaks : Obligations.SpareAndStreaks := by
  unfold Obligations.SpareAndStreaks
  intro s r e
  refine ⟨fun ht => ⟨exec_takeover ht, fun he => ?_, fun he f hf => ⟨fun hfail => ?_, fun hfail hs => ?_, fun hfail hok hs => ?_⟩⟩,
    fun ht => ⟨exec_giveBack ht, fun h => ?_, fun hs he hw hen => ?_⟩, fun ht => ⟨exec_clearAcc ht, _, exec_clearAcc ht, rfl, rfl,
      fun ink x hi hx => ?_⟩, rfl, fun h => ?_, fun b hb => ⟨_, rfl, rfl, Dev.plDone_shows e hb⟩⟩
  · rw [exec_takeover ht, Dev.takeover_spare _ _ he]
  · rw [exec_takeover ht, Dev.takeover_engine _ _ he, ← hf, Dev.engFailed_again he hfail]
  · rw [exec_takeover ht, Dev.takeover_engine _ _ he, ← hf, Dev.engFailed_alone he hfail hs]
  · obtain ⟨c, x, hc⟩ := Dev.engFailed_served (m := s.mem) he hfail hok hs
    rw [exec_takeover ht, Dev.takeover_engine _ _ he, ← hf]
    obtain ⟨hserving, hserved⟩ := Dev.served_shows c x e he hc
    exact ⟨_, rfl, hserving, hserved⟩
  · rw [exec_giveBack ht, Dev.giveBack_refused rfl rfl h]
  · rw [exec_giveBack ht, Dev.giveBack_taken rfl rfl hs he hw hen]
  · have hce : ((s.withDev (s.dev.setCe e ((s.dev.ce e).plClear (s.dev.ce e).bank))).dev.ce e) =
        (s.dev.ce e).plClear (s.dev.ce e).bank := Dev.ce_setCe _ _ _
    rw [hce]
    exact CeH.plClear_empty _ _ hi hx
  · exact congrArg (fun d => Host.Outcome.next (s.withDev d)) (Dev.plDone_idle h)

end Sys2Proof.Machine
end

