-- ==== Sys2Proof/Proofs/Stacks.lean ====
section
/-!
PROOFS. The frame store's stacks: training, scrubbing, sparing (R404–R407, R434, R435); from these the statement O50.
-/

open Sys2Proof

namespace Sys2Proof.Machine

/-! ### Commands of a stack -/

theorem exec_hbmReady (s : State) (k : Fin 4) : exec (.hbmReady k) s = .next (s.withDev (s.dev.when
    (s.dev.enabled 0x18 k && !s.dev.silent 0x18 k && !s.dev.is Hbm.STAT_READY k)
    (fun d => (d.wr Hbm.STAT_READY k 1).when (d.armed 0x18 k Hbm.F_LINK_ERR) (fun d =>
      (d.disarm 0x18 k Hbm.F_LINK_ERR).flt 0x18 k Hbm.F_LINK_ERR)))) := rfl

theorem exec_scrubPass (s : State) (k : Fin 4) : exec (.scrubPass k) s = .next (s.withDev (s.dev.when
    (s.dev.hbmRuns k && s.dev.is Hbm.ECC_CFG_SCRUB_EN k)
    (fun d => ((d.addWrap Hbm.SCRUB_STAT_PASS_CNT k 1).wr Hbm.SCRUB_STAT_PROGRESS k 0).evt 0x18 k Hbm.E_SCRUB_PASS))) := rfl

/-- The copy of a pseudo-channel ends, if one is under way. -/
def Dev.spareEnds (d : Dev) (k : Nat) : Dev :=
  match (d.hbmh k).copying with
  | some pc => ((d.setHbmh k { d.hbmh k with copying := none }).evt 0x18 k Hbm.E_SPARE_DONE).spareTake k pc
  | none => d

theorem exec_spareDone (s : State) (k : Fin 4) : exec (.spareDone k) s = .next (s.withDev (s.dev.spareEnds k)) := rfl

/-- A stack's temperature is taken. -/
def Dev.heats (d : Dev) (k temp : Nat) : Dev :=
  (d.wr Hbm.HBM_TEMP_TEMP k temp).when
    (decide (d.rd Hbm.HBM_TEMP_TEMP k < 95) && decide (95 ≤ (d.wr Hbm.HBM_TEMP_TEMP k temp).rd Hbm.HBM_TEMP_TEMP k))
    (fun d => d.evt 0x18 k Hbm.E_HOT)

theorem exec_hbmHot (s : State) (k : Fin 4) (temp : Nat) :
    exec (.hbmHot k temp) s = .next (s.withDev (s.dev.heats k temp)) := rfl

theorem exec_hbmScrubRead (s : State) (a : Nat) (x : SramErr) :
    exec (.hbmScrubRead a x) s = .next (s.landed (s.dev.scrubRead s.mem a x)) := rfl

theorem Dev.heats_hot {d : Dev} {k temp : Nat} (hd : d.rd Hbm.HBM_TEMP_TEMP k < 95) (ht : 95 ≤ temp)
    (hw : temp < 2 ^ Hbm.HBM_TEMP_TEMP.w) :
    d.heats k temp = (d.wr Hbm.HBM_TEMP_TEMP k temp).evt 0x18 k Hbm.E_HOT := by
  refine Dev.when_of_eq_true ?_
  rw [Dev.rd_wr, Nat.mod_eq_of_lt hw, decide_eq_true hd, decide_eq_true ht]
  rfl

theorem Dev.heats_else {d : Dev} {k temp : Nat} (h : temp < 95 ∨ 95 ≤ d.rd Hbm.HBM_TEMP_TEMP k) :
    d.heats k temp = d.wr Hbm.HBM_TEMP_TEMP k temp := by
  refine Dev.when_of_eq_false ?_
  rw [Dev.rd_wr, Bool.and_eq_false_iff, decide_eq_false_iff_not, decide_eq_false_iff_not]
  have hmod := Nat.mod_le temp (2 ^ Hbm.HBM_TEMP_TEMP.w)
  omega

/-! ### A scrub read (R405–R407) -/

section
variable {m : FrameStore} {d : Dev} {a k : Nat}

theorem Dev.scrubRead_off (h : 4 ≤ stackOf a ∨ d.hbmRuns (stackOf a) = false ∨ d.is Hbm.ECC_CFG_SCRUB_EN (stackOf a) = false)
    (x : SramErr) : d.scrubRead m a x = d := by
  refine if_pos ?_
  rw [Bool.not_eq_true', Bool.and_eq_false_iff, Bool.and_eq_false_iff, decide_eq_false_iff_not, Nat.not_lt, or_assoc]
  exact h

/-- The word of a scrub read as the read leaves it to the checker: the progress shown, a single wrong bit corrected. -/
def Dev.scrubbed (d : Dev) (a : Nat) : Dev :=
  (d.wr Hbm.SCRUB_STAT_PROGRESS (stackOf a) (a % stackBytes * 100 / stackBytes)).hbmFix (a / 8 * 8) 8

/-- A word turns out uncorrectable: it is poisoned and reported. -/
def Dev.scrubDouble (f : Dev) (a : Nat) : Dev :=
  (({ f with wbuf := f.wbuf ++ [MemOp.poison (a / 8)] } : Dev).hbmDbe a).when
    ((({ f with wbuf := f.wbuf ++ [MemOp.poison (a / 8)] } : Dev).hbmDbe a).is Hbm.ECC_CFG_SPARE_AUTO (stackOf a))
    (fun d => d.spareCause (stackOf a) (pcOf a))

variable (h4 : stackOf a < 4) (hr : d.hbmRuns (stackOf a) = true) (hs : d.is Hbm.ECC_CFG_SCRUB_EN (stackOf a) = true)
include h4 hr hs

theorem Dev.scrubRead_on (x : SramErr) : d.scrubRead m a x =
    if mget m.poison (a / 8) false then (d.scrubbed a).hbmLost (a / 8)
    else match x with
      | .none => d.scrubbed a
      | .single => (d.scrubbed a).hbmSbe a
      | .double => (d.scrubbed a).scrubDouble a := by
  refine if_neg ?_
  rw [decide_eq_true h4, hr, hs]
  decide

theorem Dev.scrubRead_poisoned (hp : mget m.poison (a / 8) false = true) (x : SramErr) :
    d.scrubRead m a x = (d.scrubbed a).hbmLost (a / 8) := by
  rw [Dev.scrubRead_on h4 hr hs, if_pos hp]

theorem Dev.scrubRead_clean (hp : mget m.poison (a / 8) false = false) (x : SramErr) :
    d.scrubRead m a x = match x with
      | .none => d.scrubbed a
      | .single => (d.scrubbed a).hbmSbe a
      | .double => (d.scrubbed a).scrubDouble a := by
  rw [Dev.scrubRead_on h4 hr hs, if_neg (Bool.eq_false_iff.1 hp)]

end

theorem Dev.hbmDbe_wbuf (d : Dev) (a : Nat) : (d.hbmDbe a).wbuf = d.wbuf := by
  unfold Dev.hbmDbe
  simp only [Dev.flt_wbuf, Dev.incSat_wbuf]
  exact Dev.when_keeps Dev.wbuf _ _ _ rfl

theorem Dev.hbmDbe_set (d : Dev) (a : Nat) : ((d.hbmDbe a).rd (Hdr.FLT 0x18) (stackOf a)).testBit Hbm.F_DBE = true :=
  Dev.flt_set _ _ _ _ 3 (by decide) rfl

theorem Dev.hbmDbe_auto (d : Dev) {a : Nat} (h4 : stackOf a < 4) :
    (d.hbmDbe a).is Hbm.ECC_CFG_SPARE_AUTO (stackOf a) = d.is Hbm.ECC_CFG_SPARE_AUTO (stackOf a) := by
  refine Dev.is_congr ((Dev.rd_flt_off _ _ _ _ Hbm.ECC_CFG_SPARE_AUTO (⟨stackOf a, h4⟩ : Fin 4) (by decide)).trans ?_)
  refine (Dev.rd_wr_off _ Hbm.ECC_CNT_DBE_CNT _ _ _ (by decide)).trans ?_
  exact Dev.when_keeps (fun d => d.rd Hbm.ECC_CFG_SPARE_AUTO (stackOf a)) _ _ _ (Dev.rd_wr_off _ _ _ _ _ (by decide))

theorem Dev.scrubDouble_manual {f : Dev} {a : Nat} (h4 : stackOf a < 4) (h : f.is Hbm.ECC_CFG_SPARE_AUTO (stackOf a) = false) :
    f.scrubDouble a = ({ f with wbuf := f.wbuf ++ [MemOp.poison (a / 8)] } : Dev).hbmDbe a :=
  Dev.when_of_eq_false ((Dev.hbmDbe_auto _ h4).trans h)

/-- What reached the frame store last is a poisoned word. -/
theorem State.landed_poison (s : State) {d : Dev} {os : List MemOp} {w : Nat} (h : d.wbuf = os ++ [MemOp.poison w]) :
    mget (s.landed d).mem.poison w false = true := by
  simp only [State.landed, h, List.foldl_append, List.foldl_cons, List.foldl_nil, FrameStore.apply]
  exact mget_mset_self _ _ _ _

/-! ### Sparing (R407) -/

theorem Dev.spareCause_further {d : Dev} {k : Nat} (pc : Nat)
    (h : d.is Hbm.STAT_SPARED k = true ∨ (d.hbmh k).copying.isSome = true) : d.spareCause k pc = d.flt 0x18 k Hbm.F_PC_FAIL :=
  if_pos (Bool.or_eq_true_iff.2 h)

theorem Dev.spareCause_first {d : Dev} {k : Nat} (pc : Nat) (h : d.is Hbm.STAT_SPARED k = false) (hc : (d.hbmh k).copying = none) :
    d.spareCause k pc =
      (d.setHbmh k { errs := (d.hbmh k).errs.filter (fun e => e.1 != pc), copying := some pc }).wr Hbm.STAT_COPYING k 1 := by
  refine if_neg ?_
  rw [h, hc]
  decide

theorem Dev.evt_health (d : Dev) (c i b : Nat) : (d.evt c i b).health = d.health := by rw [Dev.evt_rest]

/-- A fault leaves the spares of the health record. -/
theorem sparesFaultKeeps : FaultKeeps (fun d => (d.health.spareMap, d.health.sparedPc)) where
  ao _ _ _ _ := rfl
  safe _ _ _ := rfl
  evt _ _ _ _ := by rw [Dev.evt_health]
  flag _ _ _ _ := rfl
  health _ _ hm hp := Prod.ext_iff.2 ⟨hm, hp⟩
  cycle _ _ := rfl
  store _ _ _ := rfl

/-- A field of n bits replaced in a word reads as what replaced it. -/
theorem bits_replace (v lo n x : Nat) (hx : x < 2 ^ n) :
    bits (v - bits v lo n * 2 ^ lo + x * 2 ^ lo) lo n = x := by
  simp only [bits, Nat.shiftRight_eq_div_pow]
  have hlo : 0 < 2 ^ lo := Nat.two_pow_pos lo
  have hle : v / 2 ^ lo % 2 ^ n * 2 ^ lo ≤ v :=
    Nat.le_trans (Nat.mul_le_mul_right _ (Nat.mod_le _ _)) (Nat.div_mul_le_self _ _)
  have hsub : (v - v / 2 ^ lo % 2 ^ n * 2 ^ lo) / 2 ^ lo = 2 ^ n * (v / 2 ^ lo / 2 ^ n) := by
    rw [Nat.mul_comm _ (2 ^ lo), Nat.sub_mul_div]
    have hdm := Nat.div_add_mod (v / 2 ^ lo) (2 ^ n)
    omega
  rw [Nat.add_mul_div_right _ _ hlo, hsub, Nat.mul_add_mod, Nat.mod_eq_of_lt hx]

theorem Dev.spareTake_shows (d : Dev) (k : Fin 4) (pc : Fin 32) {t : Dev} (ht : t = d.spareTake k pc) :
    t.rd Hbm.STAT_SPARED k = 1 ∧ t.rd Hbm.STAT_SPARED_PC k = pc ∧ t.rd Hbm.STAT_COPYING k = 0 ∧
      (t.rd (Hdr.FLT 0x18) k).testBit Hbm.F_PC_SPARED = true ∧ t.health.spareMap = d.health.spareMap ||| 2 ^ k.val ∧
      bits t.health.sparedPc (5 * k) 5 = pc := by
  subst ht
  have hkeep := sparesFaultKeeps.flt
    ({ ((d.wr Hbm.STAT_SPARED k 1).wr Hbm.STAT_SPARED_PC k pc).wr Hbm.STAT_COPYING k 0 with
      health := { d.health with
        spareMap := d.health.spareMap ||| 2 ^ k.val
        sparedPc := d.health.sparedPc - bits d.health.sparedPc (5 * k) 5 * 2 ^ (5 * k.val) + pc * 2 ^ (5 * k.val) } } : Dev)
    0x18 k Hbm.F_PC_SPARED
  obtain ⟨hmap, hpc⟩ := Prod.mk.inj hkeep
  have hrd : ∀ f : Fld, f.cls = 0x18 ∧ f.off = 0x10 ∧ f.lo < 32 → (d.spareTake k pc).rd f k =
      (((d.wr Hbm.STAT_SPARED k 1).wr Hbm.STAT_SPARED_PC k pc).wr Hbm.STAT_COPYING k 0).rd f k :=
    fun f hf => Dev.rd_flt_off _ _ _ _ f k (by omega)
  refine ⟨?_, ?_, ?_, Dev.flt_set _ _ _ _ 2 (by decide) rfl, hmap, ?_⟩
  · rw [hrd _ (by decide), Dev.rd_wr_off _ _ _ _ _ (by decide), Dev.rd_wr_off _ _ _ _ _ (by decide), Dev.rd_wr]
    rfl
  · rw [hrd _ (by decide), Dev.rd_wr_off _ _ _ _ _ (by decide), Dev.rd_wr]
    exact Nat.mod_eq_of_lt pc.isLt
  · rw [hrd _ (by decide), Dev.rd_wr]
    rfl
  · refine (congrArg (fun v => bits v (5 * k) 5) hpc).trans ?_
    exact bits_replace _ _ _ _ pc.isLt

/-- Settles O50: one equation per command of a stack, the four results of a scrub read, and the sparing rules. -/
theorem hbmStacks : Obligations.Stacks := by
  unfold Obligations.Stacks
  refine ⟨fun s r k => ⟨fun hen hsil hrdy => ⟨fun ha => ?_, fun ha => ?_⟩, fun h => ?_, fun h => ?_, fun hrun hscr => ?_,
    fun ht pc => State.upd_busW s _ _ _ _ ht, fun h => ?_, fun pc h => ?_, fun temp hd ht hw => ?_, fun temp h => ?_,
    fun a hoff hk x => ?_, fun a hk hrun hscr f hf => ?_⟩,
    fun d k pc => ⟨Dev.spareCause_further pc, Dev.spareCause_first pc, fun t ht => d.spareTake_shows k pc ht⟩⟩
  · rw [exec_hbmReady, hen, hsil, hrdy]
    simp only [Bool.not_false, Bool.and_self, Dev.when_true, ha, Dev.when_false]
  · rw [exec_hbmReady, hen, hsil, hrdy]
    simp only [Bool.not_false, Bool.and_self, Dev.when_true, ha]
  · rw [exec_hbmReady, Dev.when_of_eq_false]
    rcases h with h | h | h <;> simp [h]
  · rw [exec_scrubPass, Dev.when_of_eq_false (Bool.and_eq_false_iff.2 h)]
  · rw [exec_scrubPass, hrun, hscr, Bool.and_self, Dev.when_true]
  · rw [exec_spareDone, Dev.spareEnds, h]
  · rw [exec_spareDone, Dev.spareEnds, h]
  · rw [exec_hbmHot, Dev.heats_hot hd ht hw]
  · rw [exec_hbmHot, Dev.heats_else h]
  · rw [exec_hbmScrubRead, Dev.scrubRead_off]
    rcases hk with hk | hk
    · rcases hoff with hoff | hoff
      · exact Or.inr (hk ▸ hoff hk)
      · exact Or.inl hoff
    · exact Or.inl hk
  · have h4 : stackOf a < 4 := hk ▸ k.isLt
    rw [← hk] at hrun hscr hf
    obtain rfl : f = s.dev.scrubbed a := hf
    refine ⟨fun hp x => ?_, fun hp => ⟨?_, ?_, fun hauto => ?_⟩⟩
    · rw [exec_hbmScrubRead, Dev.scrubRead_poisoned h4 hrun hscr hp]
    · rw [exec_hbmScrubRead, Dev.scrubRead_clean h4 hrun hscr hp]
    · rw [exec_hbmScrubRead, Dev.scrubRead_clean h4 hrun hscr hp]
    · rw [← hk] at hauto ⊢
      refine ⟨_, (exec_hbmScrubRead s a .double).trans (congrArg (fun d => Host.Outcome.next (s.landed d))
        ((Dev.scrubRead_clean h4 hrun hscr hp .double).trans (Dev.scrubDouble_manual h4 hauto))), ?_, Dev.hbmDbe_set _ _⟩
      exact State.landed_poison s (Dev.hbmDbe_wbuf _ _)

end Sys2Proof.Machine
end

