-- ==== Sys2Proof/Proofs/Delivery.lean ====
section
/-!
PROOFS. Delivery rings: the read point and write-backs in ring order (R415–R422); from these the statement O51.
-/

open Sys2Proof

namespace Sys2Proof.Machine

/-! ### The read point (R415) -/

theorem Dev.ptrPost_beyond {d : Dev} {q val : Nat}
    (h : pdiff (d.queue (64 + q)).wr (d.queue (64 + q)).rd < pdiff val (d.queue (64 + q)).rd) :
    d.ptrPost q val = d.badAccess 0x1B (q / 8) := if_pos h

theorem Dev.ptrPost_taken {d f : Dev} {q val : Nat}
    (h : pdiff val (d.queue (64 + q)).rd ≤ pdiff (d.queue (64 + q)).wr (d.queue (64 + q)).rd)
    (hf : f = d.setQueue (64 + q) { d.queue (64 + q) with rd := val % 2 ^ 32, cut := false }) :
    d.ptrPost q val = f.when (f.qrd (64 + q) Q.Q_CFG_AUTO_RELEASE == 1 && !(d.queue (64 + q)).markValid)
      (fun d => d.qRelease (64 + q)) := by
  subst hf
  exact if_neg (Nat.not_lt.2 h)

theorem exec_ptrPost {s : State} {r : Req} {q : Fin 256} (ht : s.dev.takes r.num (qPage (64 + q)).1 (qPage (64 + q)).2 = true)
    (val : Word) : exec (.ptrPost r q val) s = .next (s.withDev (s.dev.ptrPost q val.toNat)) :=
  State.upd_busW s _ _ _ (fun d => d.ptrPost q val.toNat) ht

/-! ### Write-backs (R416, R418, R422) -/

theorem exec_writeBack (s : State) (q : Fin 256) (slot : Nat) (desc : List Nat) :
    exec (.writeBack q slot desc) s = .next (s.landed (s.dev.writeBack s.mem q slot desc)) := rfl

section
variable {m : FrameStore} {d : Dev} {q slot : Nat} (desc : List Nat)

theorem Dev.writeBack_stays (h : (d.dqh q).move = [] ∨ d.deRuns = false ∨ d.qrd (64 + q) Dq.RING_CFG_Q_EN ≠ 1 ∨
    d.mayIssue (d.qFn (64 + q)) = false ∨ slot ≠ (d.queue (64 + q)).wr % d.qSize (64 + q)) : d.writeBack m q slot desc = d := by
  unfold Dev.writeBack
  cases hm : (d.dqh q).move with
  | nil => rfl
  | cons x rest =>
    refine if_pos ?_
    rcases h with h | h | h | h | h
    · exact absurd (hm.symm.trans h) (List.cons_ne_nil _ _)
    all_goals simp [h]

theorem Dev.writeBack_due {x : DItem} {rest : List DItem} (hm : (d.dqh q).move = x :: rest) (hr : d.deRuns = true)
    (hq : d.qrd (64 + q) Dq.RING_CFG_Q_EN = 1) (hi : d.mayIssue (d.qFn (64 + q)) = true)
    (hs : slot = (d.queue (64 + q)).wr % d.qSize (64 + q)) :
    d.writeBack m q slot desc =
      if !(d.qCtx (64 + q)).2 then (d.qCtx (64 + q)).1
      else if descPosted desc then
        ((d.qCtx (64 + q)).1.setDqh q { (d.qCtx (64 + q)).1.dqh q with move := rest }).deliver m (64 + q) x (le desc 8 8)
          (le desc 16 4)
      else (d.qCtx (64 + q)).1.skipSlot (64 + q) x := by
  simp only [Dev.writeBack, hm, hr, hq, hi, ← hs, beq_self_eq_true, Bool.and_self, Bool.not_true, Bool.false_eq_true, if_false]

end

/-- Settles O51: a post either lies beyond the write point or moves the read point; a write-back waits, finds its queue's context
broken, delivers or skips. -/
theorem delivery : Obligations.Delivery := by
  unfold Obligations.Delivery
  intro s r q
  refine ⟨fun ht val => ⟨fun h => ?_, fun h f hf => ⟨fun hk => ?_, fun ha hm => ?_⟩⟩, fun slot desc => ⟨rfl, fun h => ?_,
    fun x rest c hm hr hq hi hs hc => ⟨fun hb => ?_, fun hb hp => ?_, fun hb hp => ?_⟩⟩⟩
  · rw [exec_ptrPost ht, Dev.ptrPost_beyond h]
  · rw [exec_ptrPost ht, Dev.ptrPost_taken h hf, Dev.when_of_eq_false]
    rcases hk with hk | hk <;> simp [hk]
  · rw [exec_ptrPost ht, Dev.ptrPost_taken h hf, Dev.when_of_eq_true]
    simp [ha, hm]
  · rw [exec_writeBack, Dev.writeBack_stays desc h]
  all_goals
    rw [exec_writeBack, Dev.writeBack_due desc hm hr hq hi hs, ← hc, hb]
  · rw [Bool.not_false, if_pos rfl]
  · rw [hp, Bool.not_true, if_neg Bool.false_ne_true, if_pos rfl]
  · rw [hp, Bool.not_true, if_neg Bool.false_ne_true, if_neg Bool.false_ne_true]

end Sys2Proof.Machine
end

