-- ==== Sys2Proof/Proofs/HostLinks.lean ====
section
/-!
PROOFS. Interrupt messages, resets and training of host links (R433, R462–R474); from these the statement O53.
-/

open Sys2Proof

namespace Sys2Proof.Machine

/-! ### Messages (R433, R462, R463) -/

theorem exec_intxAck {s : State} {r : Req} {l : Fin 4} (ht : s.dev.takes r.num 0x1C l = true) (v : Nat) :
    exec (.intxAck r l v) s = .next (s.withDev
      ((s.dev.setVec (16 * l) (v % 2048) { s.dev.vec (16 * l) (v % 2048) with pba := false }).showIntx l)) := by
  refine (State.upd_busW s _ _ _ (fun d => d.intxAck l (v % 2048)) ht).trans ?_
  rw [Dev.intxAck, if_pos (Nat.mod_lt _ (by decide))]

/-- A vector may have a message to send: it exists and its page answers. -/
def Dev.vecOn (d : Dev) (fn v : Nat) : Prop :=
  d.linkExists (fn / 16) = true ∧ v < fnVectors fn ∧ d.silent 0x1E fn = false

/-- A message is asked for, or was left pending. -/
def Dev.vecGo (d : Dev) (fn v : Nat) : Prop := d.vecDue fn v = true ∨ (d.vec fn v).pba = true ∧ d.intxMode fn = false

/-- A vector whose message is gone. -/
def Dev.vecSent (d : Dev) (fn v : Nat) : Vec :=
  { d.vec fn v with risen := false, items := 0, firstAt := 0, lastAt := some d.nowL, gapHeld := false }

theorem Dev.vecOn_iff {d : Dev} {fn v : Nat} :
    (d.linkExists (fn / 16) && decide (v < fnVectors fn) && !d.silent 0x1E fn) = true ↔ d.vecOn fn v := by
  simp only [Dev.vecOn, Bool.and_eq_true, decide_eq_true_eq, Bool.not_eq_true', and_assoc]

theorem Dev.vecGo_iff {d : Dev} {fn v : Nat} :
    (!d.vecDue fn v && !((d.vec fn v).pba && !d.intxMode fn)) = true ↔ ¬ d.vecGo fn v := by
  cases h : d.vecDue fn v <;> cases hp : (d.vec fn v).pba <;> cases hi : d.intxMode fn <;> simp [Dev.vecGo, h, hp, hi]

theorem Dev.msix_quiet {d : Dev} {fn v : Nat} (h : ¬ d.vecOn fn v ∨ ¬ d.vecGo fn v) : d.msix fn v = d := by
  by_cases hon : d.vecOn fn v
  · have hgo := h.resolve_left (not_not_intro hon)
    simp only [Dev.msix, Dev.vecOn_iff.2 hon, Bool.not_true, Bool.false_eq_true, if_false]
    exact if_pos (Dev.vecGo_iff.2 hgo)
  · refine if_pos ?_
    rw [Bool.not_eq_true', Bool.eq_false_iff]
    exact fun h => hon (Dev.vecOn_iff.1 h)

section
variable {d : Dev} {fn v : Nat} (hon : d.vecOn fn v) (hgo : d.vecGo fn v)
include hon hgo

theorem Dev.msix_asked :
    d.msix fn v =
      if !d.vecGap fn v then
        if (d.vec fn v).gapHeld then d else (d.setVec fn v { d.vec fn v with gapHeld := true }).addWrap Int.GAP_HELD_CNT fn 1
      else if d.intxMode fn then (d.setVec fn v { d.vecSent fn v with pba := true }).showIntx (fn / 16)
      else if (d.vec fn v).masked || (d.fn fn).fnMask || !(d.fn fn).msixEn || !d.mayIssue fn then
        d.setVec fn v { d.vec fn v with pba := true }
      else (((d.setVec fn v { d.vecSent fn v with pba := false }).addWrap Int.MSG_CNT fn 1).l1Exit (fn / 16)).emit
        (.msix fn v (d.vec fn v).addr (d.vec fn v).data (d.marks fn)) := by
  have hgo' : (!d.vecDue fn v && !((d.vec fn v).pba && !d.intxMode fn)) = false :=
    Bool.eq_false_iff.2 fun h => Dev.vecGo_iff.1 h hgo
  simp only [Dev.msix, Dev.vecOn_iff.2 hon, hgo', Bool.not_true, Bool.false_eq_true, if_false]
  rfl

theorem Dev.msix_held (hg : d.vecGap fn v = false) (hh : (d.vec fn v).gapHeld = true) : d.msix fn v = d := by
  rw [Dev.msix_asked hon hgo, hg, hh, Bool.not_false, if_pos rfl, if_pos rfl]

theorem Dev.msix_gap (hg : d.vecGap fn v = false) (hh : (d.vec fn v).gapHeld = false) :
    d.msix fn v = (d.setVec fn v { d.vec fn v with gapHeld := true }).addWrap Int.GAP_HELD_CNT fn 1 := by
  rw [Dev.msix_asked hon hgo, hg, hh, Bool.not_false, if_pos rfl, if_neg Bool.false_ne_true]

theorem Dev.msix_inta (hg : d.vecGap fn v = true) (hi : d.intxMode fn = true) :
    d.msix fn v = (d.setVec fn v { d.vecSent fn v with pba := true }).showIntx (fn / 16) := by
  rw [Dev.msix_asked hon hgo, hg, hi, Bool.not_true, if_neg Bool.false_ne_true, if_pos rfl]

theorem Dev.msix_pending (hg : d.vecGap fn v = true) (hi : d.intxMode fn = false)
    (hh : (d.vec fn v).masked = true ∨ (d.fn fn).fnMask = true ∨ (d.fn fn).msixEn = false ∨ d.mayIssue fn = false) :
    d.msix fn v = d.setVec fn v { d.vec fn v with pba := true } := by
  rw [Dev.msix_asked hon hgo, hg, hi, Bool.not_true, if_neg Bool.false_ne_true, if_neg Bool.false_ne_true, if_pos]
  rcases hh with h | h | h | h <;> simp [h]

theorem Dev.msix_sends (hg : d.vecGap fn v = true) (hi : d.intxMode fn = false)
    (hh : ¬ ((d.vec fn v).masked = true ∨ (d.fn fn).fnMask = true ∨ (d.fn fn).msixEn = false ∨ d.mayIssue fn = false)) :
    d.msix fn v = (((d.setVec fn v { d.vecSent fn v with pba := false }).addWrap Int.MSG_CNT fn 1).l1Exit (fn / 16)).emit
      (.msix fn v (d.vec fn v).addr (d.vec fn v).data (d.marks fn)) := by
  rw [Dev.msix_asked hon hgo, hg, hi, Bool.not_true, if_neg Bool.false_ne_true, if_neg Bool.false_ne_true, if_neg]
  simpa only [Bool.or_eq_true, Bool.not_eq_true', or_assoc] using hh

end

/-! ### Resets of links (R464–R467) -/

/-- A link that cannot be reset: it is not there, its PERSTn_N is low already, or the device has not started. -/
theorem Dev.resetOff_iff {d : Dev} {l : Nat} : (!d.linkExists l || (d.link l).perst || !d.boot.aoUp) = true ↔
    d.linkExists l = false ∨ (d.link l).perst = true ∨ d.boot.aoUp = false := by
  simp only [Bool.or_eq_true, Bool.not_eq_true', or_assoc]

theorem Dev.hotReset_off {m : FrameStore} {d : Dev} {l : Nat}
    (h : d.linkExists l = false ∨ (d.link l).perst = true ∨ d.boot.aoUp = false) : d.hotReset m l = d :=
  if_pos (Dev.resetOff_iff.2 h)

theorem Dev.perstFall_off {m : FrameStore} {d : Dev} {l : Nat}
    (h : d.linkExists l = false ∨ (d.link l).perst = true ∨ d.boot.aoUp = false) : d.perstFall m l = d :=
  if_pos (Dev.resetOff_iff.2 h)

section
variable {m : FrameStore} {d : Dev} {l : Nat} (he : d.linkExists l = true) (hp : (d.link l).perst = false)
include he hp

theorem Dev.not_resetOff (ha : d.boot.aoUp = true) : ¬ (!d.linkExists l || (d.link l).perst || !d.boot.aoUp) = true := by
  rw [he, hp, ha]
  decide

theorem Dev.hotReset_on (ha : d.boot.aoUp = true) :
    d.hotReset m l = (d.linkReset m l false Link.RST_CNT_HOT_CNT).evt 0x1C l Link.E_HOT_RESET :=
  if_neg (Dev.not_resetOff he hp ha)

theorem Dev.perstFall_on (ha : d.boot.aoUp = true) :
    d.perstFall m l = (((d.wr Test.PLB_CFG_DEPTH 0 0 l).wr Test.PLB_STAT_ACTIVE 0 0 l).setLink l { d.link l with
      perst := true, armed := (d.fn (16 * l)).d3 && (d.fn (16 * l)).pmeEn, waking := false }).linkReset m l
        ((d.fn (16 * l)).d3 && (d.fn (16 * l)).pmeEn) Link.RST_CNT_FUND_CNT :=
  if_neg (Dev.not_resetOff he hp ha)

end

theorem Dev.perstRise_off {d : Dev} {l : Nat} (h : d.linkExists l = false ∨ (d.link l).perst = false) : d.perstRise l = d :=
  if_pos (by simpa only [Bool.or_eq_true, Bool.not_eq_true'] using h)

theorem Dev.perstRise_on {d : Dev} {l : Nat} (he : d.linkExists l = true) (hp : (d.link l).perst = true) :
    d.perstRise l = (d.setLink l { d.link l with perst := false }).when ((d.link l).armed && (d.link l).waking)
      (fun d => d.emit (.wake l false)) :=
  if_neg (by rw [he, hp]; decide)

theorem Dev.perstRise_shows {d : Dev} {l : Nat} (he : d.linkExists l = true) (hp : (d.link l).perst = true) {t : Dev}
    (ht : t = d.perstRise l) : (t.link l).perst = false ∧
      t.sent = d.sent ++ if ((d.link l).armed && (d.link l).waking) = true then [.wake l false] else [] := by
  rw [ht, Dev.perstRise_on he hp]
  constructor
  · exact (Dev.when_keeps (fun d => (d.link l).perst) _ _ _ rfl).trans (by rw [Dev.link_setLink])
  · cases (d.link l).armed && (d.link l).waking
    · exact (List.append_nil _).symm
    · rfl

theorem execLinkDown_up {s : State} {l : Fin 4} (h : s.dev.is Link.LINK_STAT_DL_UP l = true) :
    exec (.pcieLinkDown l) s = exec (.hotReset l) s :=
  congrArg (fun d => Host.Outcome.next (s.landed d)) (Dev.when_of_eq_true h)

theorem execLinkDown_down {s : State} {l : Fin 4} (h : s.dev.is Link.LINK_STAT_DL_UP l = false) :
    exec (.pcieLinkDown l) s = .next (s.landed s.dev) :=
  congrArg (fun d => Host.Outcome.next (s.landed d)) (Dev.when_of_eq_false h)

theorem Dev.pcieFollow_up {m : FrameStore} {d : Dev} {l : Nat} (h : d.is Link.LINK_STAT_DL_UP l = true) :
    d.pcieFollow m l = (d.hotReset m l).evt 0x1F 0 Test.E_PCIE_FOLLOW := if_neg (by rw [h]; decide)

theorem Dev.pcieFollow_down {m : FrameStore} {d : Dev} {l : Nat} (h : d.is Link.LINK_STAT_DL_UP l = false) :
    d.pcieFollow m l = d := if_pos (by rw [h]; decide)

/-! ### Link up (R470, R474) -/

/-- A link trains to a speed and width it has. -/
def Dev.trains (d : Dev) (l speed width : Nat) : Prop :=
  d.linkExists l = true ∧ (d.link l).perst = false ∧ d.boot.aoUp = true ∧ d.is Link.LINK_STAT_DL_UP l = false ∧
    1 ≤ speed ∧ speed ≤ 6 ∧ 1 ≤ width ∧ width ≤ d.linkLanes l ∧ d.rd Test.PLB_CFG_DEPTH 0 l = 0

theorem Dev.trains_iff {d : Dev} {l speed width : Nat} :
    (!d.linkExists l || (d.link l).perst || !d.boot.aoUp || d.is Link.LINK_STAT_DL_UP l || speed = 0 || 6 < speed || width = 0 ||
      d.linkLanes l < width || d.rd Test.PLB_CFG_DEPTH 0 l != 0) = true ↔ ¬ d.trains l speed width := by
  simp only [Dev.trains, Bool.or_eq_true, Bool.not_eq_true', decide_eq_true_eq, bne_iff_ne, Classical.not_and_iff_not_or_not, Nat.not_le, ne_eq,
    Bool.not_eq_true, Bool.not_eq_false, or_assoc, Nat.lt_one_iff]

/-- What a link shows once it is up. -/
def Dev.linkUpShown (d : Dev) (l speed width : Nat) (flit : Bool) : Dev :=
  ((((((((d.wr Link.LINK_STAT_DL_UP l 1).wr Link.STAT_DL_UP l 1).wr Link.LINK_STAT_SPEED l speed).wrb Link.LINK_STAT_FLIT l
    flit).wr Link.LINK_STAT_WIDTH l width).wr Link.LINK_STAT_ACT_WIDTH l width).wr Link.STAT_IN_RESET l 0).evt 0x1C l
    Link.E_LINK_UP)

theorem Dev.pcieUp_off {d : Dev} {l speed width : Nat} (flit : Bool) (h : ¬ d.trains l speed width) :
    d.pcieUp l speed width flit = d := if_pos (Dev.trains_iff.2 h)

theorem Dev.pcieUp_on {d : Dev} {l speed width : Nat} (flit : Bool) (h : d.trains l speed width) :
    ∃ c : Bool, d.pcieUp l speed width flit =
      ((((d.linkUpShown l speed width flit).when c (fun d => d.evt 0x1C l Link.E_DOWNTRAIN)).setLink l
        { d.link l with armed := false }).when ((d.link l).armed && (d.link l).waking) (fun d =>
          (d.setFn (16 * l) { d.fn (16 * l) with pmeStatus := true }).emit (.pme l))) :=
  ⟨_, if_neg fun hn => Dev.trains_iff.1 hn h⟩

theorem Dev.linkLanes_le (d : Dev) (l : Nat) : d.linkLanes l ≤ 16 := by
  unfold Dev.linkLanes
  split <;> decide

theorem Dev.linkUpShown_shows (d : Dev) (l : Fin 4) {speed width : Nat} (flit : Bool) (hs : speed ≤ 6) (hw : width ≤ 16) :
    (d.linkUpShown l speed width flit).rd Link.LINK_STAT_DL_UP l = 1 ∧
      (d.linkUpShown l speed width flit).rd Link.LINK_STAT_SPEED l = speed ∧
      (d.linkUpShown l speed width flit).rd Link.LINK_STAT_WIDTH l = width ∧
      (d.linkUpShown l speed width flit).rd Link.STAT_IN_RESET l = 0 := by
  unfold Dev.linkUpShown
  refine ⟨?_, ?_, ?_, ?_⟩
  all_goals rw [Dev.rd_evt_off _ _ _ _ _ l (by decide)]
  · rw [Dev.rd_wr_off _ _ _ _ _ (by decide), Dev.rd_wr_off _ _ _ _ _ (by decide), Dev.rd_wr_off _ _ _ _ _ (by decide),
      Dev.rd_wrb_off _ _ _ _ _ (by decide), Dev.rd_wr_off _ _ _ _ _ (by decide), Dev.rd_wr_off _ _ _ _ _ (by decide), Dev.rd_wr]
    rfl
  · rw [Dev.rd_wr_off _ _ _ _ _ (by decide), Dev.rd_wr_off _ _ _ _ _ (by decide), Dev.rd_wr_off _ _ _ _ _ (by decide),
      Dev.rd_wrb_off _ _ _ _ _ (by decide), Dev.rd_wr]
    exact Nat.mod_eq_of_lt (show speed < 8 by omega)
  · rw [Dev.rd_wr_off _ _ _ _ _ (by decide), Dev.rd_wr_off _ _ _ _ _ (by decide), Dev.rd_wr]
    exact Nat.mod_eq_of_lt (show width < 32 by omega)
  · rw [Dev.rd_wr]
    rfl

theorem Dev.pcieUp_shows {d : Dev} (l : Fin 4) {speed width : Nat} {flit : Bool} (h : d.trains l speed width) {t : Dev}
    (ht : t = d.pcieUp l speed width flit) :
    t.is Link.LINK_STAT_DL_UP l = true ∧ t.rd Link.LINK_STAT_SPEED l = speed ∧ t.rd Link.LINK_STAT_WIDTH l = width ∧
      t.rd Link.STAT_IN_RESET l = 0 ∧ (t.rd (Hdr.EVT 0x1C) l).testBit Link.E_LINK_UP = true ∧ (t.link l).armed = false ∧
      ((d.link l).armed = true → (d.link l).waking = true →
        (t.fn (16 * l)).pmeStatus = true ∧ t.sent = d.sent ++ [.pme l]) := by
  obtain ⟨c, hc⟩ := Dev.pcieUp_on flit h
  obtain ⟨-, -, -, -, -, hs, -, hw, -⟩ := h
  obtain ⟨hup, hspeed, hwidth, hreset⟩ := d.linkUpShown_shows l flit hs (Nat.le_trans hw (d.linkLanes_le l))
  have hrd : ∀ f : Fld, f.cls = 0x1C ∧ f.off ≠ 0x14 ∧ f.off < 4096 ∧ f.lo < 32 →
      t.rd f l = (d.linkUpShown l speed width flit).rd f l := by
    intro f hf
    rw [ht, hc]
    refine (Dev.when_keeps (fun d => d.rd f l) _ _ _ rfl).trans ?_
    exact Dev.when_keeps (fun d => d.rd f l) _ _ _ (Dev.rd_evt_off _ _ _ _ f l (by omega))
  refine ⟨?_, (hrd _ (by decide)).trans hspeed, (hrd _ (by decide)).trans hwidth, (hrd _ (by decide)).trans hreset, ?_, ?_,
    fun ha hwk => ?_⟩
  · rw [Dev.is, hrd _ (by decide), hup]
    rfl
  · rw [ht, hc]
    refine (congrArg (fun v => Nat.testBit v Link.E_LINK_UP) (Dev.when_keeps (fun d => d.rd (Hdr.EVT 0x1C) l) _ _ _ rfl)).trans ?_
    have hset : ((d.linkUpShown l speed width flit).rd (Hdr.EVT 0x1C) l).testBit Link.E_LINK_UP = true :=
      Dev.evt_set _ _ _ _ (by decide)
    cases c
    · exact hset
    · exact Dev.evt_keeps (by decide) hset _
  · rw [ht, hc]
    refine (Dev.when_keeps (fun d => (d.link l).armed) _ _ _ rfl).trans ?_
    rw [Dev.link_setLink]
  · rw [ht, hc, ha, hwk, Bool.and_self, Dev.when_true]
    refine ⟨congrArg FnCfg.pmeStatus (Dev.fn_setFn _ _ _), ?_⟩
    rw [Dev.emit_sent, Dev.setFn_sent, Dev.setLink_sent, Dev.when_keeps Dev.sent _ _ _ (Dev.evt_sent _ _ _ _), Dev.linkUpShown,
      Dev.evt_sent]
    rfl

/-! ### Function resets (R464) -/

theorem Dev.flr_off {d : Dev} {l f : Nat} (h : d.fnAnswers l f = false ∨ (d.link l).perst = true) : d.flr l f = d :=
  if_pos (by simpa only [Bool.or_eq_true, Bool.not_eq_true'] using h)

theorem Dev.flr_on {d : Dev} {l f : Nat} (ha : d.fnAnswers l f = true) (hp : (d.link l).perst = false) :
    d.flr l f = ((if f = 0 then d.pfReset l else d.fnReset (16 * l + f)).incSat Link.RST_CNT_FLR_CNT l).evt 0x1C l Link.E_FLR :=
  if_neg (by rw [ha, hp]; decide)

/-- Settles O53: a vector's message by its four outcomes, and each link reset by the condition that lets it act. -/
theorem messagesAndLinkResets : Obligations.MessagesAndLinkResets := by
  unfold Obligations.MessagesAndLinkResets
  refine ⟨fun s r l f => ⟨fun v => rfl, exec_intxAck, rfl, rfl, rfl, fun speed width flit => rfl, rfl,
    fun hu => ⟨execLinkDown_up hu, congrArg (fun d => Host.Outcome.next (s.landed d)) (Dev.pcieFollow_up hu)⟩,
    fun hu => ⟨execLinkDown_down hu, congrArg (fun d => Host.Outcome.next (s.landed d)) (Dev.pcieFollow_down hu)⟩⟩,
    fun m d l f => ⟨fun v => ?_, fun h => ⟨Dev.hotReset_off h, Dev.perstFall_off h⟩,
      fun he hp ha => ⟨Dev.hotReset_on he hp ha, Dev.perstFall_on he hp ha⟩, Dev.perstRise_off,
      fun he hp t ht => Dev.perstRise_shows he hp ht,
      fun speed width flit => ⟨Dev.pcieUp_off flit, fun ht t => Dev.pcieUp_shows l ht⟩, Dev.flr_off, Dev.flr_on⟩⟩
  have hl : (16 * l.val + f.val) / 16 = l := by omega
  have hon : (d.linkExists l = true ∧ v < fnVectors (16 * l.val + f.val) ∧ d.silent 0x1E (16 * l.val + f.val) = false) →
      d.vecOn (16 * l.val + f.val) v := fun h => ⟨hl.symm ▸ h.1, h.2⟩
  refine ⟨fun h => Dev.msix_quiet (h.imp_left fun hn ho => hn ⟨hl ▸ ho.1, ho.2⟩), fun ho hg => Dev.msix_held (hon ho) hg,
    fun ho hg => Dev.msix_gap (hon ho) hg, fun ho hg hp hi => ?_,
    fun ho hg hp hi => ⟨fun hh => Dev.msix_pending (hon ho) hg hp hi hh, fun hh => ?_⟩⟩
  · have hm := Dev.msix_inta (hon ho) hg hp hi
    rwa [hl] at hm
  · have hm := Dev.msix_sends (hon ho) hg hp hi hh
    rwa [hl] at hm

end Sys2Proof.Machine
end

