-- ==== Sys2Proof/Proofs/HostRequests.lean ====
section
/-!
PROOFS. Configuration writes, requests and their completions, window commits, link power (R443–R471); from these the statement O54.
-/

open Sys2Proof

namespace Sys2Proof.Machine

/-! ### Commands of a link that is up -/

theorem exec_configWrite (s : State) (l : Fin 4) (f : Fin 16) (x : CfgField) (v : Nat) :
    exec (.configWrite l f x v) s = .next (s.withDev (s.dev.when (s.dev.fnAnswers l f && s.dev.is Link.LINK_STAT_DL_UP l)
      (fun d => (d.cfgWrite l f x v).cfgUsed l f))) := rfl

theorem exec_completion (s : State) (l : Fin 4) (tag len : Nat) (st : CplStatus) :
    exec (.completion l tag len st) s = .next (s.landed (s.dev.when (s.dev.is Link.LINK_STAT_DL_UP l)
      (fun d => (d.completion l tag len st).replayUsed s.mem l))) := rfl

theorem exec_atsInvalidation (s : State) (l : Fin 4) (tag pg : Nat) :
    exec (.atsInvalidation l tag pg) s = .next (s.withDev (s.dev.when (s.dev.is Link.LINK_STAT_DL_UP l)
      (fun d => d.atsInvalidate l tag pg))) := rfl

theorem exec_commitDone (s : State) (l : Fin 4) (f : Fin 16) :
    exec (.commitDone l f) s = .next (s.withDev (s.dev.when (s.dev.is Wtt.WTT_CMD_BUSY (16 * l.val + f.val)) (fun d =>
      ((d.wr Wtt.WTT_CMD_BUSY (16 * l.val + f.val) 0).wr Wtt.STAT_BUSY (16 * l.val + f.val) 0).evt 0x1D (16 * l.val + f.val)
        Wtt.E_COMMIT_DONE))) := rfl

theorem exec_l1Entry (s : State) (l : Fin 4) : exec (.l1Entry l) s = .next (s.withDev (s.dev.l1Entry l)) := rfl

theorem exec_l0pNarrow (s : State) (l : Fin 4) : exec (.l0pNarrow l) s = .next (s.withDev (s.dev.l0pNarrow l)) := rfl

theorem exec_l0pWiden (s : State) (l : Fin 4) : exec (.l0pWiden l) s = .next (s.withDev (s.dev.l0pWiden l)) := rfl

/-! ### Link power (R471) -/

section
variable {d : Dev} {l : Nat}

theorem Dev.l1Entry_stays (h : d.is Link.LINK_STAT_DL_UP l = false ∨ (d.fn (16 * l)).aspmL1 = false ∨ (d.link l).reqs ≠ [] ∨
    (d.link l).inL1 = true) : d.l1Entry l = d := by
  refine if_neg ?_
  rcases h with h | h | h | h <;> simp [h]

/-- The substate of L1 that the host enables. -/
def Dev.l1SubOf (d : Dev) (l : Nat) : Nat := if (d.fn (16 * l)).l12En then 2 else if (d.fn (16 * l)).l11En then 1 else 0

theorem Dev.l1Entry_enters (hu : d.is Link.LINK_STAT_DL_UP l = true) (ha : (d.fn (16 * l)).aspmL1 = true)
    (hr : (d.link l).reqs = []) (hi : (d.link l).inL1 = false) :
    d.l1Entry l = ((d.setLink l { d.link l with inL1 := true, l1Sub := d.l1SubOf l }).emit (.linkPower l 0)).when
      (d.l1SubOf l != 0) (fun d => d.emit (.clkreq l false)) :=
  if_pos (by rw [hu, ha, hr, hi]; decide)

theorem Dev.l0pNarrow_acts (hm : d.l0pMay l = true) (hw : 4 ≤ d.rd Link.LINK_STAT_ACT_WIDTH l) :
    d.l0pNarrow l = d.setWidth l (d.rd Link.LINK_STAT_ACT_WIDTH l / 2) :=
  if_pos (by rw [hm, decide_eq_true hw, Bool.and_self])

theorem Dev.l0pNarrow_stays (h : d.l0pMay l = false ∨ d.rd Link.LINK_STAT_ACT_WIDTH l < 4) : d.l0pNarrow l = d :=
  if_neg (by rcases h with h | h <;> simp [h])

theorem Dev.l0pWiden_acts (hm : d.l0pMay l = true) (hw : d.rd Link.LINK_STAT_ACT_WIDTH l < d.rd Link.LINK_STAT_WIDTH l) :
    d.l0pWiden l = d.setWidth l (d.rd Link.LINK_STAT_WIDTH l) :=
  if_pos (by rw [hm, decide_eq_true hw, Bool.and_self])

theorem Dev.l0pWiden_stays (h : d.l0pMay l = false ∨ d.rd Link.LINK_STAT_WIDTH l ≤ d.rd Link.LINK_STAT_ACT_WIDTH l) :
    d.l0pWiden l = d :=
  if_neg (by rcases h with h | h <;> simp [h])

end

/-! ### Configuration writes (R443, R445, R495) -/

theorem Dev.cfgUsed_quiet {d : Dev} {l f : Nat} (h : d.armed 0x1C l Link.F_CFG_DBE = false) : d.cfgUsed l f = d :=
  if_neg (Bool.eq_false_iff.1 h)

theorem Dev.cfgUsed_armed {d e : Dev} {l f : Nat} (h : d.armed 0x1C l Link.F_CFG_DBE = true)
    (he : e = (d.disarm 0x1C l Link.F_CFG_DBE).flt 0x1C l Link.F_CFG_DBE) :
    d.cfgUsed l f = if f = 0 then e.pfReset l else e.fnReset (16 * l + f) := by
  subst he
  exact if_pos h

theorem Dev.cfgWrite_power (d : Dev) (l f v : Nat) :
    d.cfgWrite l f .powerState v = ((d.setFn (16 * l + f) (if v % 4 = 3 then { d.fn (16 * l + f) with d3 := true }
      else if v % 4 = 0 then { d.fn (16 * l + f) with d3 := false } else d.fn (16 * l + f))).showDstate l).fnResumes
        (16 * l + f) := rfl

/-- The fields that a PF alone has. -/
def pfFields : List CfgField :=
  [.interruptDisable, .pmeEnable, .pmeStatusClear, .vfEnable, .numVfs, .maxPayload, .maxReadRequest, .ecrcGenEnable,
    .ecrcCheckEnable, .l11Enable, .l12Enable]

theorem Dev.cfgWrite_vf (d : Dev) (l : Nat) {f : Nat} (v : Nat) (h : f ≠ 0) : ∀ x ∈ pfFields, d.cfgWrite l f x v = d := by
  have hand : ∀ p : Prop, ¬ (f = 0 ∧ p) := fun _ hf => h hf.1
  simp only [pfFields, List.forall_mem_cons]
  exact ⟨if_neg h, if_neg h, if_neg (hand _), if_neg h, if_neg (hand _), if_neg h, if_neg h, if_neg h, if_neg h, if_neg h,
    if_neg h, fun _ hx => absurd hx List.not_mem_nil⟩

theorem Dev.cfgWrite_numVfs (d : Dev) (l : Nat) {f : Nat} (v : Nat) (h : f = 0) :
    d.cfgWrite l f .numVfs v = if (d.fn (16 * l + f)).vfEn = false then
      d.setFn (16 * l + f) { d.fn (16 * l + f) with numVfs := min v d.boot.cfg.totalVfs } else d := by
  by_cases hv : (d.fn (16 * l + f)).vfEn = false
  · exact (if_pos ⟨h, hv⟩).trans (if_pos hv).symm
  · exact (if_neg fun hc => hv hc.2).trans (if_neg hv).symm

theorem Dev.cfgWrite_noVector (d : Dev) (l f v : Nat) {w : Nat} (h : fnVectors (16 * l + f) ≤ w) :
    ∀ x ∈ ([.msixMask w, .msixAddr w, .msixData w] : List CfgField), d.cfgWrite l f x v = d := by
  simp only [List.forall_mem_cons]
  exact ⟨if_neg (Nat.not_lt.2 h), if_neg (Nat.not_lt.2 h), if_neg (Nat.not_lt.2 h), fun _ hx => absurd hx List.not_mem_nil⟩

/-! ### Completions and timeouts (R458–R461) -/

theorem Dev.replayUsed_eq (m : FrameStore) {d : Dev} {l : Nat} {u : Dev × Bool}
    (hu : u = d.useBuf 0x1C l Link.F_REPLAY_SBE Link.F_REPLAY_DBE) :
    d.replayUsed m l = if u.2 then u.1.hotReset m l else u.1 := by
  subst hu
  rfl

theorem Dev.completion_none {d : Dev} {l tag : Nat} (len : Nat) (st : CplStatus) (h : d.reqOf l tag = none) :
    d.completion l tag len st =
      if (d.link l).stale.contains tag then d.incSat Link.STALE_CNT_STALE_CPL_CNT l else d.unexpected l := by
  simp only [Dev.completion, h]

section
variable {d : Dev} {l tag : Nat} {x : HostReq} (len : Nat) (h : d.reqOf l tag = some x)
include h

theorem Dev.completion_late (st : CplStatus) (ht : x.due ≤ d.nowL) :
    d.completion l tag len st = (d.cplLate l x).unexpected l := by
  simp only [Dev.completion, h, if_pos ht]

theorem Dev.completion_fails {st : CplStatus} (ht : d.nowL < x.due) (hs : st ≠ .success) :
    d.completion l tag len st = d.cplFail l x (st == .poisoned) := by
  simp only [Dev.completion, h, if_neg (Nat.not_le.2 ht), if_pos hs]

theorem Dev.completion_part (ht : d.nowL < x.due) (hl : x.got + len < x.len) :
    d.completion l tag len .success =
      d.setReqs l ((d.link l).reqs.map (fun y => if y.tag = tag then { y with got := y.got + len } else y)) := by
  simp only [Dev.completion, h, if_neg (Nat.not_le.2 ht), ne_eq, not_true_eq_false, if_false, if_neg (Nat.not_le.2 hl)]

theorem Dev.completion_last (ht : d.nowL < x.due) (hl : x.len ≤ x.got + len) :
    d.completion l tag len .success =
      ((d.setReqs l ((d.link l).reqs.filter (fun y => y.tag != tag))).readDone x).iqGoAll := by
  simp only [Dev.completion, h, if_neg (Nat.not_le.2 ht), ne_eq, not_true_eq_false, if_false, if_pos hl]

omit len in
theorem Dev.cplTimeout_some : d.cplTimeout l tag = if x.due ≤ d.nowL then d.cplLate l x else d := by
  simp only [Dev.cplTimeout, h]

end

theorem Dev.cplTimeout_none {d : Dev} {l tag : Nat} (h : d.reqOf l tag = none) :
    d.cplTimeout l tag =
      (d.setLink l { d.link l with stale := (d.link l).stale.filter (fun t => t != tag) }).showTags l := by
  simp only [Dev.cplTimeout, h]

/-! ### Window commits (R451–R455) -/

theorem exec_wttCommit {s : State} {r : Req} {l : Fin 4} {f : Fin 16}
    (ht : s.dev.takes r.num 0x1D (16 * l.val + f.val) = true) (w : Nat) :
    exec (.wttCommit r l f w) s = .next (s.withDev (s.dev.wttCmd (16 * l.val + f.val) (256 + w % 256))) :=
  State.upd_busW s _ _ _ (fun d => d.wttCmd (16 * l.val + f.val) (256 + w % 256)) ht

/-- A commit's word: COMMIT is set, CLR_CNT is not, and the window is the low byte. -/
theorem wttWord {w : Nat} (hw : w < 256) :
    (256 + w).testBit 8 = true ∧ (256 + w).testBit 9 = false ∧ bits (256 + w) 0 8 = w := by
  refine ⟨?_, ?_, ?_⟩
  · rw [Nat.testBit_eq_decide_div_mod_eq, decide_eq_true_eq]
    omega
  · rw [Nat.testBit_eq_decide_div_mod_eq, decide_eq_false_iff_not]
    omega
  · rw [bits, Nat.shiftRight_zero]
    omega

theorem Dev.wttCmd_busy {d : Dev} {fn w : Nat} (hw : w < 256) (h : d.is Wtt.WTT_CMD_BUSY fn = true) :
    d.wttCmd fn (256 + w) = d.badAccess 0x1D fn := by
  obtain ⟨h8, -, -⟩ := wttWord hw
  exact if_pos (by rw [h8, h, Bool.and_self])

/-- The shadow entry a commit takes; one with an uncorrectable error commits as invalid. -/
def Dev.wttShadow (d : Dev) (fn w : Nat) : Nat :=
  if d.tabErr 0x1D fn 1 w = 2 ∧ (d.tab 0x1D fn 1 w).testBit wttValid = true then d.tab 0x1D fn 1 w - 2 ^ wttValid
  else d.tab 0x1D fn 1 w

theorem Dev.wttCmd_commit {d e : Dev} {fn w : Nat} (hw : w < 256) (h : d.is Wtt.WTT_CMD_BUSY fn = false)
    (he : e = (d.wr Wtt.WTT_CMD_WINDOW fn w).readTab 0x1D fn Wtt.F_WTT_SBE Wtt.F_WTT_DBE 0x1D fn 1 w) :
    d.wttCmd fn (256 + w) =
      if e.wttRefuse fn w (d.wttShadow fn w) ≠ 0 then
        (e.wr Wtt.WTT_CMD_REFUSE fn (e.wttRefuse fn w (d.wttShadow fn w))).evt 0x1D fn Wtt.E_COMMIT_REFUSED
      else (((e.wr Wtt.WTT_CMD_REFUSE fn (e.wttRefuse fn w (d.wttShadow fn w))).putEntry 0x1D fn 0 w (d.wttShadow fn w)).wr
        Wtt.WTT_CMD_BUSY fn 1).wr Wtt.STAT_BUSY fn 1 := by
  obtain ⟨h8, h9, hb⟩ := wttWord hw
  subst he
  simp only [Dev.wttCmd, h8, h9, hb, h, Bool.and_false, Bool.not_true, Bool.false_eq_true, if_false, Dev.when_false]
  rfl

/-- Settles O54: the commands of a link by its state, then one equation per configuration field, completion, timeout and commit. -/
theorem requestsAndLinkPower : Obligations.RequestsAndLinkPower := by
  unfold Obligations.RequestsAndLinkPower
  refine ⟨fun s r l f => ⟨fun h x v => ?_, fun hu ha x v => ?_, fun hu tag len st => ?_, fun hu tag len st => ?_, fun tag => rfl,
    fun tag => rfl, fun ht => ⟨exec_wttCommit ht, fun hb w => ?_⟩, fun hb => ?_, fun hb => ?_,
    fun hu ha hr hi => ⟨fun h12 h11 => ?_, fun h12 h11 => ?_, fun h12 => ?_⟩, fun h => ?_,
    ⟨fun hm hw => ?_, fun hw => ?_, fun hm hw => ?_, fun hw => ?_, fun hm => ⟨?_, ?_⟩⟩, fun hu tag pg => ?_, fun hu tag pg => ?_⟩,
    fun m d l f => ⟨Dev.cfgUsed_quiet, fun ha e he => ⟨fun h0 => ?_, fun h0 => ?_⟩,
      fun v => ⟨rfl, rfl, rfl, rfl, rfl, rfl, fun h3 => ?_, fun h0 => ?_,
        fun h0 => ⟨if_pos h0, if_pos h0, if_pos h0, d.cfgWrite_numVfs l v h0⟩, d.cfgWrite_vf l v,
        fun w => ⟨fun hw => ⟨if_pos hw, if_pos hw, if_pos hw⟩, d.cfgWrite_noVector l f v⟩⟩,
      fun u hu => ⟨fun h => ?_, fun h => ?_⟩,
      fun tag len st => ⟨fun h => ⟨fun hs => ?_, fun hs => ?_⟩, fun x hx => ⟨Dev.completion_late len hx st,
        fun ht hs => Dev.completion_fails len hx ht hs, Dev.completion_part len hx, Dev.completion_last len hx⟩⟩,
      fun tag => Dev.cplTimeout_none, fun tag x hx => ⟨fun ht => ?_, fun ht => ?_⟩, fun x b hb => ?_,
      fun w hw hbusy x why hx e he hwhy => ⟨fun hn => ?_, fun hn => ?_⟩⟩⟩
  · rw [exec_configWrite, Dev.when_of_eq_false (Bool.and_eq_false_iff.2 h.symm)]
  · rw [exec_configWrite, hu, ha, Bool.and_self, Dev.when_true]
  · rw [exec_completion, hu, Dev.when_false]
  · rw [exec_completion, hu, Dev.when_true]
  · rw [exec_wttCommit ht, Dev.wttCmd_busy (Nat.mod_lt _ (by decide)) hb]
  · rw [exec_commitDone, hb, Dev.when_false]
  · rw [exec_commitDone, hb, Dev.when_true]
  · rw [exec_l1Entry, Dev.l1Entry_enters hu ha hr hi, show s.dev.l1SubOf l = 0 by simp [Dev.l1SubOf, h12, h11]]
    rfl
  · rw [exec_l1Entry, Dev.l1Entry_enters hu ha hr hi, show s.dev.l1SubOf l = 1 by simp [Dev.l1SubOf, h12, h11]]
    rfl
  · rw [exec_l1Entry, Dev.l1Entry_enters hu ha hr hi, show s.dev.l1SubOf l = 2 by simp [Dev.l1SubOf, h12]]
    rfl
  · rw [exec_l1Entry, Dev.l1Entry_stays h]
  · rw [exec_l0pNarrow, Dev.l0pNarrow_acts hm hw]
  · rw [exec_l0pNarrow, Dev.l0pNarrow_stays (Or.inr hw)]
  · rw [exec_l0pWiden, Dev.l0pWiden_acts hm hw]
  · rw [exec_l0pWiden, Dev.l0pWiden_stays (Or.inr hw)]
  · rw [exec_l0pNarrow, Dev.l0pNarrow_stays (Or.inl hm)]
  · rw [exec_l0pWiden, Dev.l0pWiden_stays (Or.inl hm)]
  · rw [exec_atsInvalidation, hu, Dev.when_false]
  · rw [exec_atsInvalidation, hu, Dev.when_true]
    rfl
  · rw [Dev.cfgUsed_armed ha he, if_pos h0]
  · rw [Dev.cfgUsed_armed ha he, if_neg h0]
  · rw [Dev.cfgWrite_power, if_pos h3]
  · rw [Dev.cfgWrite_power, if_neg (by omega), if_pos h0]
  · rw [Dev.replayUsed_eq m hu, if_neg (Bool.eq_false_iff.1 h)]
  · rw [Dev.replayUsed_eq m hu, if_pos h]
  · rw [Dev.completion_none _ _ h, if_pos hs]
  · rw [Dev.completion_none _ _ h, if_neg (Bool.eq_false_iff.1 hs)]
  · rw [Dev.cplTimeout_some hx, if_neg (Nat.not_le.2 ht)]
  · rw [Dev.cplTimeout_some hx, if_pos ht]
  · rw [hb]
    rfl
  all_goals
    obtain rfl : x = d.wttShadow (16 * l.val + f.val) w := hx
    rw [Dev.wttCmd_commit hw hbusy he, ← hwhy]
  · exact if_pos hn
  · rw [if_neg (not_not_intro hn), hn]

end Sys2Proof.Machine
end

