-- ==== Sys2Proof/Proofs/Health.lean ====
section
/-!
PROOFS. Commands of the collector and health pages, the SMBus target, known-answer runs (R480–R490, R497); from these the
statement O55.
-/

open Sys2Proof

namespace Sys2Proof.Machine

/-! ### Commands (R480, R483, R488) -/

/-- SUMMARY and FIRST_SRC without a first fault. -/
def Dev.summaryCleared (d : Dev) : Dev :=
  d.clearAll [Fc.SUMMARY_FIRST_CLASS, Fc.SUMMARY_FIRST_TIE, Fc.FIRST_SRC_BIT, Fc.FIRST_SRC_CLASS, Fc.FIRST_SRC_INSTANCE] 0

theorem exec_summaryClr {s : State} {r : Req} (ht : s.dev.takes r.num 1 0 = true) :
    exec (.summaryClr r) s = .next (s.withDev (if s.dev.firstCycle.cls ≠ 0 ∧ s.dev.firstCycle.cycle = s.dev.aoCycle then
      s.dev.summaryCleared.showFirst.evt 1 0 Fc.E_FIRST else s.dev.summaryCleared)) :=
  State.upd_busW s _ _ _ Dev.summaryClr ht

theorem Dev.summaryCleared_shows (d : Dev) : d.summaryCleared.rd Fc.SUMMARY_FIRST_CLASS 0 = 0 ∧
    d.summaryCleared.rd Fc.SUMMARY_FIRST_TIE 0 = 0 ∧ d.summaryCleared.rd Fc.FIRST_SRC_CLASS 0 = 0 := by
  have he : d.summaryCleared = ((((d.wr Fc.SUMMARY_FIRST_CLASS 0 0).wr Fc.SUMMARY_FIRST_TIE 0 0).wr Fc.FIRST_SRC_BIT 0 0).wr
      Fc.FIRST_SRC_CLASS 0 0).wr Fc.FIRST_SRC_INSTANCE 0 0 := rfl
  rw [he]
  refine ⟨?_, ?_, ?_⟩
  · rw [Dev.rd_wr_off _ _ _ _ _ (by decide), Dev.rd_wr_off _ _ _ _ _ (by decide), Dev.rd_wr_off _ _ _ _ _ (by decide),
      Dev.rd_wr_off _ _ _ _ _ (by decide), Dev.rd_wr, Nat.zero_mod]
  · rw [Dev.rd_wr_off _ _ _ _ _ (by decide), Dev.rd_wr_off _ _ _ _ _ (by decide), Dev.rd_wr_off _ _ _ _ _ (by decide),
      Dev.rd_wr, Nat.zero_mod]
  · rw [Dev.rd_wr_off _ _ _ _ _ (by decide), Dev.rd_wr, Nat.zero_mod]

theorem exec_replaceClr {s : State} {r : Req} (ht : s.dev.takes r.num 0 0 = true) :
    exec (.replaceClr r) s = .next (s.withDev s.dev.replaceClr) := by
  refine (State.upd_busW s _ _ _ (fun d => d.healthCmd 1) ht).trans ?_
  simp only [Dev.healthCmd, show Nat.testBit 1 0 = true by decide, show Nat.testBit 1 1 = false by decide, Dev.when_true,
    Dev.when_false]

theorem exec_alertClr {s : State} {r : Req} (ht : s.dev.takes r.num 0 0 = true) :
    exec (.alertClr r) s = .next (s.withDev (s.dev.wr AO.HEALTH_PINS_ALERT 0 0)) := by
  refine (State.upd_busW s _ _ _ (fun d => d.healthCmd 2) ht).trans ?_
  simp only [Dev.healthCmd, show Nat.testBit 2 0 = false by decide, show Nat.testBit 2 1 = true by decide, Dev.when_true,
    Dev.when_false]
  rfl

/-! ### The SMBus target (R488, R497) -/

theorem exec_alertResponse (s : State) :
    exec .alertResponse s = .next (s.withDev (s.dev.when (s.dev.boot.aoUp && s.dev.is AO.HEALTH_PINS_ALERT 0) (fun d =>
      (d.wr AO.HEALTH_PINS_ALERT 0 0).emit (.smbus [2 * (0x5C + d.rd AO.BOOT_STAT_SMB_ADDR 0)])))) := rfl

/-- A SET_ADDR that the target acknowledges. -/
def Dev.smbGood (d : Dev) (bs : List Nat) : Prop :=
  d.boot.aoUp = true ∧ (bs.length = 3 ∨ bs.length = 4 ∧ bs.getD 3 0 = d.smbPec bs) ∧ le bs 0 3 % 4 = 0

theorem Dev.smbGood_iff {d : Dev} {bs : List Nat} :
    (d.boot.aoUp && (bs.length == 3 || (bs.length == 4 && bs.getD 3 0 == d.smbPec bs)) && le bs 0 3 % 4 == 0) = true ↔
      d.smbGood bs := by
  simp only [Dev.smbGood, Bool.and_eq_true, Bool.or_eq_true, beq_iff_eq, and_assoc]

theorem exec_smbSetAddr_good {s : State} {bs : List Nat} (h : s.dev.smbGood bs) :
    exec (.smbSetAddr bs) s = .next (s.withDev { s.dev with smbAddr := le bs 0 3 }) :=
  congrArg (fun d => Host.Outcome.next (s.withDev d)) (if_pos (Dev.smbGood_iff.2 h))

theorem exec_smbSetAddr_bad {s : State} {bs : List Nat} (h : ¬ s.dev.smbGood bs) :
    exec (.smbSetAddr bs) s = .next (s.withDev s.dev) :=
  congrArg (fun d => Host.Outcome.next (s.withDev d)) (if_neg fun hg => h (Dev.smbGood_iff.1 hg))

theorem exec_smbRead_down {s : State} (h : s.dev.boot.aoUp = false) : exec .smbRead s = .next (s.withDev s.dev) :=
  congrArg (fun d => Host.Outcome.next (s.withDev d)) (if_neg (Bool.eq_false_iff.1 h))

theorem exec_smbRead_up {s : State} (h : s.dev.boot.aoUp = true) {w : Dev × Nat} (hw : w = s.dev.smbWord) :
    exec .smbRead s = .next (s.withDev
      (({ w.1 with smbAddr := (w.1.smbAddr + 4) % 2 ^ 24 } : Dev).emit (.smbus (leBytes 4 w.2)))) := by
  subst hw
  exact congrArg (fun d => Host.Outcome.next (s.withDev d)) (if_pos h)

/-! ### Known-answer runs (R489, R490) -/

theorem exec_kaRun (s : State) (e : Fin 17) : exec (.kaRun e) s = .next (s.withDev (s.dev.kaStart e)) := rfl

theorem exec_kaRunDone (s : State) (e : Fin 17) (a b : Nat) :
    exec (.kaRunDone e a b) s = .next (s.landed (s.dev.kaDone s.mem e a b)) := rfl

theorem exec_kaTimeout (s : State) (e : Fin 17) : exec (.kaTimeout e) s = .next (s.landed (s.dev.kaTimeout s.mem e)) := rfl

theorem Dev.kaStart_refused {d : Dev} {e : Nat} (h : d.kaMay e = false) : d.kaStart e = d := Dev.when_of_eq_false h

theorem Dev.kaMay_off {d : Dev} (e : Nat) (h : d.is Fc.FC_CFG_KA_EN 0 = false) : d.kaMay e = false := by
  simp only [Dev.kaMay, h, Bool.false_and]

theorem Dev.kaMay_on {d : Dev} {e : Nat} (hk : d.is Fc.FC_CFG_KA_EN 0 = true) (he : d.enabled 0x0D e = true)
    (hs : d.silent 0x0D e = false) (hw : d.wedged (48 + e) = false) (hb : d.kaBad = false) (hn : (d.ce e).kaSince = none) :
    d.kaMay e = true := by
  simp only [Dev.kaMay, hk, he, hs, hw, hb, hn, Bool.not_false, Bool.and_self, Option.isNone_none]

theorem Dev.kaDone_idle {m : FrameStore} {d : Dev} {e : Nat} (a b : Nat) (h : (d.ce e).kaSince = none) : d.kaDone m e a b = d :=
  if_pos (by rw [h]; rfl)

theorem Dev.kaTimeout_idle {m : FrameStore} {d : Dev} {e : Nat} (h : (d.ce e).kaSince = none) : d.kaTimeout m e = d := by
  simp only [Dev.kaTimeout, h]

theorem Dev.kaTimeout_running {m : FrameStore} {d : Dev} {e t : Nat} (h : (d.ce e).kaSince = some t) :
    d.kaTimeout m e =
      if t + 5000000 * nsL ≤ d.nowL then (d.setCe e { d.ce e with kaSince := none }).kaFailed m e else d := by
  simp only [Dev.kaTimeout, h]

theorem Dev.kaDigest_unarmed {d : Dev} {c i b : Nat} (v : Nat) (h : d.armed c i b = false) : d.kaDigest c i b v = (d, v) :=
  if_neg (Bool.eq_false_iff.1 h)

/-- A run under way that has ended: no run is under way, and it is counted. -/
def Dev.kaEnded (d : Dev) (e : Nat) : Dev := (d.setCe e { d.ce e with kaSince := none }).addWrap Fc.KA_RUNS 0 1

theorem Dev.kaEnded_armed_lcu (d : Dev) (e : Nat) : (d.kaEnded e).armed 1 0 Fc.F_KA_LCU = d.armed 1 0 Fc.F_KA_LCU :=
  congrArg (fun v => Nat.testBit v Fc.F_KA_LCU)
    (Dev.rd_wr_off (d.setCe e { d.ce e with kaSince := none }) Fc.KA_RUNS (Hdr.FLT_INJ 1) 0 _ (by decide))

theorem Dev.kaEnded_armed_engine (d : Dev) (e : Fin 17) :
    (d.kaEnded e).armed 0x0D e Ce.F_ENGINE_FAIL = d.armed 0x0D e Ce.F_ENGINE_FAIL :=
  congrArg (fun v => Nat.testBit v Ce.F_ENGINE_FAIL)
    (Dev.rd_wr_class (d.setCe e { d.ce e with kaSince := none }) Fc.KA_RUNS (Hdr.FLT_INJ 0x0D) 0 e _ (by decide) (by decide) (by
      omega))

/-- The line conditioning unit's digest as its checker sees it, where the unit takes part in the run. -/
def Dev.kaLcuSeen (d : Dev) (e lcu : Nat) : Dev × Nat :=
  if e < 16 ∧ d.enabled 0x0C e then d.kaDigest 1 0 Fc.F_KA_LCU lcu else (d, Config.kaLcuDigest d.kaImage)

theorem Dev.kaLcuSeen_right {d : Dev} (e : Nat) (h : d.armed 1 0 Fc.F_KA_LCU = false) :
    d.kaLcuSeen e (Config.kaLcuDigest d.kaImage) = (d, Config.kaLcuDigest d.kaImage) := by
  rw [Dev.kaLcuSeen, Dev.kaDigest_unarmed _ h, ite_self]

theorem Dev.kaDone_running {m : FrameStore} {d : Dev} {e : Nat} (lcu eng : Nat) (h : ¬ (d.ce e).kaSince.isNone = true) :
    d.kaDone m e lcu eng =
      let a := (d.kaEnded e).kaLcuSeen e lcu
      let c := a.1.when (a.2 != Config.kaLcuDigest (d.kaEnded e).kaImage) (fun d => d.kaLcuFailed e)
      let b := c.kaDigest 0x0D e Ce.F_ENGINE_FAIL eng
      b.1.when (b.2 != Config.kaEngineDigest c.kaImage) (fun d => d.kaFailed m e) := if_neg h

/-- A run whose line conditioning digest is right: the engine's digest alone decides. -/
theorem Dev.kaDone_engine {m : FrameStore} {d : Dev} (e : Fin 17) (hk : (d.ce e).kaSince.isSome = true)
    (hl : d.armed 1 0 Fc.F_KA_LCU = false) (he : d.armed 0x0D e Ce.F_ENGINE_FAIL = false) (x : Nat) :
    d.kaDone m e (Config.kaLcuDigest d.kaImage) x =
      (d.kaEnded e).when (x != Config.kaEngineDigest d.kaImage) (fun d => d.kaFailed m e) := by
  have hnone : ¬ (d.ce e).kaSince.isNone = true := by
    cases h : (d.ce e).kaSince with
    | none => rw [h] at hk; exact Bool.noConfusion hk
    | some t => exact Bool.noConfusion
  have hlcu : (d.kaEnded e).kaLcuSeen e (Config.kaLcuDigest d.kaImage) = (d.kaEnded e, Config.kaLcuDigest d.kaImage) :=
    Dev.kaLcuSeen_right (d := d.kaEnded e) e ((d.kaEnded_armed_lcu e).trans hl)
  have heng : (d.kaEnded e).kaDigest 0x0D e Ce.F_ENGINE_FAIL x = (d.kaEnded e, x) :=
    Dev.kaDigest_unarmed _ ((d.kaEnded_armed_engine e).trans he)
  have himg : (d.kaEnded e).kaImage = d.kaImage := rfl
  rw [Dev.kaDone_running _ _ hnone]
  simp only [hlcu, himg, bne_self_eq_false, Dev.when_false, heng]

/-- Settles O55: each command by what lets it act, and a run by its digests. -/
theorem healthAndKnownAnswers : Obligations.HealthAndKnownAnswers := by
  unfold Obligations.HealthAndKnownAnswers
  refine ⟨fun s r => ⟨fun ht e he => ⟨fun h => ?_, fun h0 hc => ?_, ?_⟩, fun ht => ⟨fun h => ?_, fun h ha => ?_, fun h ha => ?_,
    fun h ha => ?_, exec_alertClr ht⟩, fun hu ha => ⟨_, exec_alertResponse s, rfl, ?_, ?_⟩, fun h => ?_,
    fun bs => ⟨exec_smbSetAddr_good, exec_smbSetAddr_bad⟩, exec_smbRead_down, fun hu w hw => exec_smbRead_up hu hw⟩,
    fun s r e => ⟨fun ht => State.upd_busW s _ _ _ Dev.kaNow ht, fun h => ?_, fun h => ?_, fun a b => rfl, rfl,
      fun hk he hs hw hb hn => ?_, fun hn a b => ⟨?_, ?_⟩, fun hk hl he c hc => ⟨?_, fun x hx => ?_⟩,
      fun t ht => ⟨fun hd => ?_, fun hd => ?_⟩⟩⟩
  · rw [exec_summaryClr ht, if_neg fun hn => h.elim hn.1 fun hc => hc hn.2]
    exact he ▸ rfl
  · rw [exec_summaryClr ht, if_pos ⟨h0, hc⟩]
    exact he ▸ rfl
  · exact he ▸ s.dev.summaryCleared_shows
  · rw [exec_replaceClr ht, Dev.replaceClr, if_pos h]
  · rw [exec_replaceClr ht, Dev.replaceClr, if_neg h, if_pos ha]
  · rw [exec_replaceClr ht, Dev.replaceClr, if_neg (by omega), if_neg (Bool.eq_false_iff.1 ha), if_pos h]
  · rw [exec_replaceClr ht, Dev.replaceClr, if_neg (by omega), if_neg (Bool.eq_false_iff.1 ha), if_neg (by omega)]
  · rw [hu, ha, Bool.and_self, Dev.when_true]
    exact show ((s.dev.wr AO.HEALTH_PINS_ALERT 0 0).rd AO.HEALTH_PINS_ALERT 0 != 0) = false by rw [Dev.rd_wr, Nat.zero_mod]; rfl
  · rw [hu, ha, Bool.and_self, Dev.when_true]
    rfl
  · rw [exec_alertResponse, Dev.when_of_eq_false (Bool.and_eq_false_iff.2 h)]
  · rw [exec_kaRun, Dev.kaStart_refused h]
  · rw [exec_kaRun, Dev.kaStart_refused (Dev.kaMay_off _ h)]
  · rw [exec_kaRun, Dev.kaStart, Dev.kaMay_on hk he hs hw hb hn, Dev.when_true]
  · rw [exec_kaRunDone, Dev.kaDone_idle _ _ hn]
  · rw [exec_kaTimeout, Dev.kaTimeout_idle hn]
  · obtain rfl : c = s.dev.kaEnded e := hc
    rw [exec_kaRunDone, Dev.kaDone_engine e hk hl he, bne_self_eq_false, Dev.when_false]
  · obtain rfl : c = s.dev.kaEnded e := hc
    rw [exec_kaRunDone, Dev.kaDone_engine e hk hl he, bne_iff_ne.2 hx, Dev.when_true]
  · rw [exec_kaTimeout, Dev.kaTimeout_running ht, if_neg (Nat.not_le.2 hd)]
  · rw [exec_kaTimeout, Dev.kaTimeout_running ht, if_pos hd]

end Sys2Proof.Machine
end

