-- ==== Sys2Proof/Proofs/SelfTest.lean ====
section
/-!
PROOFS. Built-in self-test and JTAG (R514–R517); from these the statement O58.
-/

open Sys2Proof

namespace Sys2Proof.Machine

/-! ### Built-in self-test (R514–R516) -/

theorem exec_bistRun {s : State} {r : Req} (ht : s.dev.takes r.num 0x20 0 = true) (lg : Bool) {c : Instr}
    (hc : c = if lg then .lbistRun r else .mbistRun r) : exec c s = .next (s.withDev (s.dev.bistRun lg)) := by
  subst hc
  cases lg
  · refine (State.upd_busW s _ _ _ (fun d => d.bistCmd 1) ht).trans ?_
    rw [Dev.bistCmd, if_pos (by decide)]
  · refine (State.upd_busW s _ _ _ (fun d => d.bistCmd 2) ht).trans ?_
    rw [Dev.bistCmd, if_neg (by decide), if_pos (by decide)]

theorem Dev.bistRun_busy {d : Dev} (lg : Bool) (h : d.is Bist.BIST_CMD_BUSY 0 = true) : d.bistRun lg = d.badAccess 0x20 0 :=
  if_pos h

/-- BIST_CMD while a run is under way. -/
def Dev.bistBusy (d : Dev) : Dev := (d.wr Bist.BIST_CMD_BUSY 0 1).wr Bist.BIST_CMD_BOOT 0 0

/-- BIST_CMD is no word of BIST_SEL, whatever the word. -/
theorem Dev.bistSel_bistBusy (d : Dev) : d.bistBusy.bistSel = d.bistSel := by
  have hkey : ∀ (f : Fld) (n : Nat), f.cls = 0x20 ∧ f.off = 0x40 ∧ f.lo < 32 →
      Bist.BIST_SEL.key 0 (n / 32) ≠ f.key 0 0 := by
    rintro f n ⟨hc, ho, hl⟩
    simp only [Fld.key, Bist.BIST_SEL, hc, ho]
    omega
  have hbit : ∀ n, d.bistBusy.islBit Bist.BIST_SEL n = d.islBit Bist.BIST_SEL n := fun n =>
    (Dev.islBit_wr_off _ _ _ _ _ _ _ (hkey _ _ (by decide))).trans (Dev.islBit_wr_off _ _ _ _ _ _ _ (hkey _ _ (by decide)))
  unfold Dev.bistSel
  simp only [hbit]

section
variable {d : Dev} {lg : Bool} (hb : d.is Bist.BIST_CMD_BUSY 0 = false)
include hb

theorem Dev.bistRun_refused (h : d.bistSel.all (d.bistMay lg) = false) : d.bistRun lg = d.evt 0x20 0 evtENABLE_REFUSED := by
  rw [Dev.bistRun, if_neg (Bool.eq_false_iff.1 hb), if_pos (by rw [h]; rfl)]

theorem Dev.bistRun_starts (h : d.bistSel.all (d.bistMay lg) = true) :
    d.bistRun lg = { d.bistBusy with bist := { d.bist with run := some (lg, d.bistSel) } } := by
  rw [Dev.bistRun, if_neg (Bool.eq_false_iff.1 hb), if_neg (by rw [h]; decide), ← d.bistSel_bistBusy]
  rfl

end

theorem exec_bistDone (s : State) (a b : List Nat) (n : Nat) :
    exec (.bistDone a b n) s = .next (s.landed (s.dev.bistDone s.mem a b n)) := rfl

theorem Dev.bistDone_idle {m : FrameStore} {d : Dev} (a b : List Nat) (n : Nat) (h : d.bist.run = none) :
    d.bistDone m a b n = d := by
  simp only [Dev.bistDone, h]

/-- A run without islands only ends. -/
theorem Dev.bistDone_empty {m : FrameStore} {d : Dev} {lg : Bool} (a b : List Nat) (n : Nat) (h : d.bist.run = some (lg, [])) :
    d.bistDone m a b n = ((({ d with bist := { d.bist with run := none } } : Dev).wr Bist.BIST_CMD_BUSY 0 0).addSat
      Bist.ROWS_USED 0 (if lg then 0 else n)).evt 0x20 0 Bist.E_BIST_DONE := by
  simp only [Dev.bistDone, h, List.foldl_nil]

theorem Dev.bistDone_shows {m : FrameStore} {d : Dev} {lg : Bool} (a b : List Nat) (n : Nat) (h : d.bist.run = some (lg, [])) :
    (d.bistDone m a b n).bist.run = none ∧ (d.bistDone m a b n).rd Bist.BIST_CMD_BUSY 0 = 0 ∧
      ((d.bistDone m a b n).rd (Hdr.EVT 0x20) 0).testBit Bist.E_BIST_DONE = true := by
  rw [Dev.bistDone_empty a b n h]
  refine ⟨?_, ?_, Dev.evt_set _ _ _ _ (by decide)⟩
  · rw [Dev.evt_bist]
    rfl
  · refine (Dev.rd_evt_off _ _ _ _ _ (0 : Fin 1) (by decide)).trans ?_
    refine (Dev.rd_wr_off _ Bist.ROWS_USED _ _ _ (by decide)).trans ?_
    rw [Dev.rd_wr, Nat.zero_mod]

/-! ### JTAG (R517) -/

/-- The pins' levels are captured and shifted out, and the boundary register is loaded. -/
def Dev.sampled (d : Dev) (p : Nat) : Dev :=
  (((d.setIr 0x02).setPins p).emit (.jtag 0 (Config.pinCapture d.free))).freeUsed

theorem Dev.sampled_jtag (d : Dev) (p : Nat) : (d.sampled p).jtag = { d.jtag with ir := 0x02, pins := p } := rfl

theorem Dev.sampled_sent (d : Dev) (p : Nat) : (d.sampled p).sent = d.sent ++ [.jtag 0 (Config.pinCapture d.free)] := rfl

theorem exec_samplePreload (s : State) (p : Nat) : exec (.samplePreload p) s = .next (s.withDev (s.dev.sampled p)) := rfl

/-- REGACC is selected, and the result of the last read leaves. -/
def Dev.regaccShift (d : Dev) : Dev :=
  ({ d with jtag := { d.jtag with ir := 0x80 } } : Dev).emit (.jtag 64 (bits d.jtag.result 0 32))

theorem exec_regacc (s : State) (x : Nat) : exec (.regacc x) s = .next (s.landed (s.dev.regaccShift.regacc s.mem x)) := rfl

theorem Dev.regacc_down (m : FrameStore) {d : Dev} (x : Nat) (h : d.boot.aoUp = false) : d.regacc m x = d :=
  if_pos (by rw [h]; rfl)

theorem Dev.regacc_read (m : FrameStore) {d : Dev} {x : Nat} (h : d.boot.aoUp = true) (hx : x.testBit 63 = false)
    {v : Dev × Nat} (hv : v = d.addrRead 0xFE (bits x 32 24)) :
    d.regacc m x = { v.1 with jtag := { v.1.jtag with result := v.2 } } := by
  subst hv
  rw [Dev.regacc, if_neg (by rw [h]; decide), if_neg (by rw [hx]; decide)]

/-- Settles O58: a self test is refused or runs and ends; each JTAG instruction is one record update. -/
theorem selfTestsAndJtag : Obligations.SelfTestsAndJtag := by
  unfold Obligations.SelfTestsAndJtag
  intro s r
  refine ⟨fun ht lg c hc => ⟨fun hb => ?_, fun hb hm => ?_, fun hb hm => ?_⟩, exec_bistDone s, fun h a b n => ?_,
    fun lg h a b n => ⟨_, exec_bistDone s a b n, ?_⟩, fun p => ?_, fun p => ⟨_, exec_samplePreload s p, ?_, ?_, ?_, ?_⟩,
    rfl, rfl, rfl, rfl, fun b => rfl, fun h x => ?_, exec_regacc s, fun h x b v hx hb hv => ?_⟩
  · rw [exec_bistRun ht lg hc, Dev.bistRun_busy lg hb]
  · rw [exec_bistRun ht lg hc, Dev.bistRun_refused hb hm]
  · refine ⟨_, (exec_bistRun ht lg hc).trans (congrArg (fun d => Host.Outcome.next (s.withDev d)) (Dev.bistRun_starts hb hm)),
      rfl, ?_, rfl⟩
    refine (Dev.rd_wr_off _ Bist.BIST_CMD_BOOT Bist.BIST_CMD_BUSY 0 0 (by decide)).trans ?_
    rw [Dev.rd_wr]
    rfl
  · rw [exec_bistDone, Dev.bistDone_idle a b n h]
  · obtain ⟨hrun, hbusy, hevt⟩ := Dev.bistDone_shows (m := s.mem) a b n h
    exact ⟨hrun, hbusy, hevt⟩
  · simp only [List.forall_mem_cons]
    exact ⟨rfl, rfl, rfl, fun _ h => absurd h List.not_mem_nil⟩
  · exact State.withDev_mem _ _
  · exact congrArg JtagH.ir (s.dev.sampled_jtag p)
  · exact congrArg JtagH.pins (s.dev.sampled_jtag p)
  · exact (congrArg List.length (s.dev.sampled_sent p)).trans List.length_append
  · rw [exec_regacc, Dev.regacc_down (d := s.dev.regaccShift) _ _ h]
    rfl
  · obtain rfl : b = s.dev.regaccShift := hb
    rw [exec_regacc, Dev.regacc_read (d := s.dev.regaccShift) s.mem h hx hv]

end Sys2Proof.Machine
end
